-- ==== Sys2Proof/Word.lean ====
section
/-! DEFINITION. The word types and their plainest arithmetic: 32-bit registers, bytes, and the
little-endian reading of byte lists (R5). -/

namespace Sys2Proof

/-- A 32-bit register or memory word (R5, R610). -/
abbrev Word := BitVec 32
/-- One byte of a packet, a frame or a memory. -/
abbrev Byte := BitVec 8
/-- A run of bytes, first byte first. -/
abbrev Bytes := List Byte
/-- A run of words, first word first. -/
abbrev Words := List Word
/-- A run of numbers: channels, addresses, pages. -/
abbrev Nats := List Nat
/-- A general register number G0 to G15 of the scan engine (R131). -/
abbrev Reg := Fin 16

/-- The number a little-endian byte run stands for (R5). -/
def leNat : Bytes → Nat
  | [] => 0
  | b :: bs => b.toNat + 256 * leNat bs

/-- The `n` little-endian bytes of `v` (R5). -/
def leBytes : Nat → Nat → Bytes
  | 0, _ => []
  | n + 1, v => BitVec.ofNat 8 v :: leBytes n (v / 256)

/-- The `n` big-endian bytes of `v` (digests and signatures). -/
def beBytes (n v : Nat) : Bytes := (leBytes n v).reverse

/-- The number a big-endian byte run stands for. -/
def beNat (bs : Bytes) : Nat := leNat bs.reverse

/-- The 4 bytes of a word, low byte first. -/
def wordBytes (w : Word) : Bytes := leBytes 4 w.toNat

/-- The bytes of a run of words. -/
def wordsBytes (ws : Words) : Bytes := ws.flatMap wordBytes

/-- `n` bytes from offset `off`, missing bytes read 0. -/
def slice (bs : Bytes) (off n : Nat) : Bytes :=
  (List.range n).map fun i => bs.getD (off + i) 0

/-- The little-endian number in `n` bytes at `off`. -/
def field (bs : Bytes) (off n : Nat) : Nat := leNat (slice bs off n)

/-- The little-endian word at `off`. -/
def wordAt (bs : Bytes) (off : Nat) : Word := BitVec.ofNat 32 (field bs off 4)

/-- A byte run cut into words, low byte first, the last one padded with zeros. -/
def toWords (bs : Bytes) : Words :=
  (List.range ((bs.length + 3) / 4)).map fun i => wordAt bs (4 * i)

/-- Bits `hi:lo` of a word, as a number. -/
def bitsOf (w : Word) (hi lo : Nat) : Nat := (w.toNat / 2 ^ lo) % 2 ^ (hi + 1 - lo)

/-- `w` with bits `hi:lo` replaced by `v`. -/
def setBits (w : Word) (hi lo v : Nat) : Word :=
  let m := 2 ^ (hi + 1 - lo)
  BitVec.ofNat 32 (w.toNat - bitsOf w hi lo * 2 ^ lo + (v % m) * 2 ^ lo)

/-- One bit of a number as a Bool. -/
def natBit (n i : Nat) : Bool := n.testBit i

/-- A truth value as 0 or 1. -/
def b2n (b : Bool) : Nat := if b then 1 else 0

/-- `a - b` in the 16-bit serial-number arithmetic of R304, as a number below 65,536. -/
def serialDiff (a b : Nat) : Nat := (a + 65536 - b % 65536) % 65536

/-- `a` is newer than `b` over half of a 16-bit range (R304). -/
def serialNewer (a b : Nat) : Bool :=
  let d := serialDiff a b
  1 ≤ d && d ≤ 32767

/-- `a` is newer than `b` over half of a 32-bit range (R304 over 2^32). -/
def serialNewer32 (a b : Nat) : Bool :=
  let d := (a + 4294967296 - b % 4294967296) % 4294967296
  1 ≤ d && d ≤ 2147483647

/-- Saturating add below `max` (counters that stop at their maximum, R288 and others). -/
def satAdd (a n max : Nat) : Nat := min (a + n) max

end Sys2Proof
end

