-- ==== Sys2Proof/Machine/SeDecode.lean ====
section
/-! DEFINITION. Which 32-bit instruction words, with their extension, are reserved (R137, R138). -/

namespace Sys2Proof.Machine

/-- Bits `hi:lo` of the word are not all 0. -/
def setIn (w : Word) (hi lo : Nat) : Bool := bitsOf w hi lo ≠ 0

/-- The field names an odd register. -/
def oddIn (w : Word) (hi lo : Nat) : Bool := bitsOf w hi lo % 2 = 1

/-- CTRL, OP 0: NOP, END, TRAP, FENCE (R174). -/
def resCtrl (w : Word) : Bool :=
  let fn := bitsOf w 25 22
  3 < fn || setIn w 21 16 || (fn ≠ 2 && setIn w 15 0)

/-- BIT, OP 1 (R139, R140). -/
def resBit (w ext : Word) : Bool :=
  bitsOf w 25 22 = 15 ||
    (match bitsOf w 21 20 with
     | 0 => setIn w 19 13
     | 1 => false
     | 2 => setIn w 15 5
     | _ => setIn w 19 0 || setIn ext 31 26)

/-- STK, OP 2: COND belongs to PUSHC alone (R142). -/
def resStk (w : Word) : Bool :=
  let fn := bitsOf w 25 22
  10 < fn || setIn w 21 4 || (fn ≠ 9 && setIn w 3 0)

/-- TIM, OP 5 (R155, R156). -/
def resTim (w : Word) : Bool :=
  if bitsOf w 25 24 = 3 then setIn w 23 17
  else bitsOf w 23 22 = 3 || (bitsOf w 21 21 = 1 && setIn w 20 17)

/-- ALU, OP 8 (R159). -/
def resAlu (w : Word) : Bool :=
  let fn := bitsOf w 25 20
  21 < fn || setIn w 4 0 || (fn = 16 && setIn w 19 16) || (17 ≤ fn && fn ≤ 20 && setIn w 11 8) ||
    (bitsOf w 7 6 = 3 && (oddIn w 19 16 || oddIn w 15 12 || oddIn w 11 8))

/-- ALUI, OP 9 (R162). -/
def resAlui (w : Word) : Bool :=
  let fn := bitsOf w 25 22
  10 < fn || setIn w 17 16 || (4 ≤ fn && fn ≤ 6 && setIn w 15 5)

/-- LD and ST, OP 12 and 13 (R167). -/
def resMem (w : Word) (st : Bool) : Bool :=
  let fn := bitsOf w 25 23
  5 < fn || (st && (fn = 1 || fn = 3)) || (fn = 5 && oddIn w 22 19)

/-- LDX and STX, OP 14 (R168). -/
def resMemx (w : Word) : Bool :=
  let fn := bitsOf w 25 23
  5 < fn || (bitsOf w 22 22 = 1 && (fn = 1 || fn = 3)) || (fn = 5 && oddIn w 21 18) || setIn w 17 0

/-- FP, OP 16: which operands are pairs depends on FN and P (R164). -/
def resFp (w : Word) : Bool :=
  let fn := bitsOf w 25 20
  let p : Bool := decide (bitsOf w 7 7 = 1)
  let two := 4 = fn || 7 = fn || 8 = fn || 10 ≤ fn
  let dPair := (p && fn ≠ 10 && fn ≠ 15 && fn ≠ 9) || fn = 12
  let aPair := if fn = 11 then false else if fn = 13 then true else if fn = 14 then !p else p
  15 < fn || setIn w 6 0 || (two && setIn w 11 8) || (fn = 9 && setIn w 19 16) ||
    (dPair && oddIn w 19 16) || (aPair && oddIn w 15 12) || (!two && p && oddIn w 11 8)

/-- JR, OP 22 (R173). -/
def resJr (w : Word) : Bool := 1 < bitsOf w 25 24 || (bitsOf w 25 24 = 0 && setIn w 23 20) || setIn w 15 0

/-- QUE, OP 24 (R175). -/
def resQue (w : Word) : Bool :=
  let fn := bitsOf w 25 22
  4 < fn || setIn w 12 0 || ((fn = 2 || fn = 3) && setIn w 16 13) || (fn = 1 && oddIn w 16 13)

/-- SYS, OP 27 (R180): SYSW writes SW alone. -/
def resSys (w : Word) : Bool := setIn w 20 10 || (bitsOf w 25 25 = 1 && setIn w 9 0)

/-- The word, with its extension, raises ILLEGAL (R137, R138). -/
def reservedWord (w ext : Word) : Bool :=
  match bitsOf w 31 26 with
  | 0x00 => resCtrl w
  | 0x01 => resBit w ext
  | 0x02 => resStk w
  | 0x03 => bitsOf w 25 24 = 3 || setIn w 23 18
  | 0x04 => setIn w 23 16
  | 0x05 => resTim w
  | 0x08 => resAlu w
  | 0x09 => resAlui w
  | 0x0A => setIn w 21 0
  | 0x0C => resMem w false
  | 0x0D => resMem w true
  | 0x0E => resMemx w
  | 0x0F => 1 < bitsOf w 25 24 || setIn w 11 0
  | 0x10 => resFp w
  | 0x14 => false
  | 0x15 => false
  | 0x16 => resJr w
  | 0x18 => resQue w
  | 0x19 => setIn w 17 0
  | 0x1A => setIn w 25 8
  | 0x1B => resSys w
  | _ => true

end Sys2Proof.Machine
end

