-- ==== Sys2Proof/Syntax.lean ====
section
/-! DEFINITION. The commands of the SG6160: one constructor of Instr for each row of
spec/opcode_table.json, with the operands a sender gives it. A host opcode carries its request and
its payload bytes (R35). An event carries what comes from outside the device: the instant (device
time in ns), the frame, the samples. An SE instruction carries its fields (chapter 04). -/

namespace Sys2Proof

/-- An operand of a row that is a time-out or an engine's own turn, and the instant of the row: device time in ns. -/
structure Timed (α : Type) where
  val : α
  t   : Nat
  deriving DecidableEq, Repr

/-- Where a UDP datagram came from (R44). -/
structure UdpSource where
  eth  : Nat
  ip   : Word
  port : Nat
  vlan : Nat
  deriving DecidableEq, Repr

/-- The transport a packet arrives on and is answered through (R44, R69). -/
inductive Transport where
  | spi
  | udp (src : UdpSource)
  deriving DecidableEq, Repr

/-- The UDP checksum of a datagram as the receiver finds it (R69). -/
inductive UdpChecksum where
  | zero | good | bad
  deriving DecidableEq, Repr

/-- The header of an accepted command packet, as its opcode needs it (R35, R36, R50). -/
structure Req where
  via     : Transport
  session : BitVec 32
  tag     : BitVec 16
  noReply : Bool
  pcrc    : BitVec 32
  deriving DecidableEq, Repr

/-- A block with a COMMIT register (R72). -/
inductive Block where
  | pwr | se | ixe | fbp (n : Nat) | stn (n : Nat) | fio | twl | rsm | evr | rtc | que
  deriving DecidableEq, Repr

/-- What the field side shows at one output update tick (R336, R342, R345). -/
structure FioSample where
  /-- the die-link transfer of the output image passes its CRC-8 (R13) -/
  crcOk   : Bool
  /-- its repeat, which follows a transfer that fails, passes (R13) -/
  again   : Bool
  /-- comparator or readback level of each channel -/
  level   : BitVec 48
  /-- channel in current limit -/
  limit   : BitVec 48
  /-- off-state test voltage at or above 2.0 V (R344) -/
  testHi  : BitVec 48
  /-- current sense of each channel in mA -/
  current : Nats
  /-- both copies of the output-image word at this byte offset are flagged (R434) -/
  badWord : Option Nat
  deriving DecidableEq, Repr

/-- A hardware trigger: the source code, its selector and its COND bit of R101. -/
structure Trigger where
  src  : Nat
  sel  : Nat
  cond : Nat
  deriving DecidableEq, Repr

/-- A write source of the input image, in the order of R640. -/
inductive ImgSource where
  | stn (port : Nat) | fio | ixeRecord | ixeTimeout
  deriving DecidableEq, Repr

/-- The operand of a BIT instruction by its space SP (R139). -/
inductive BitOperand where
  | hot     (index : BitVec 13)
  | dmBased (rb : Reg) (bit : BitVec 3) (disp : BitVec 13)
  | reg     (rb : Reg) (bit : BitVec 5)
  | dmAbs   (bitaddr : BitVec 26)
  deriving DecidableEq, Repr

/-- The preset of a TIM instruction: Ga, or the extension word (R155). -/
inductive Preset where
  | reg (ra : Reg)
  | ext (v : Word)
  deriving DecidableEq, Repr

/-- The fields of a TIM instruction (R155). -/
structure TimOperand where
  unit  : BitVec 2
  pt    : Preset
  rd    : Reg
  timer : BitVec 13
  deriving DecidableEq, Repr

/-- A CAN frame at its end of frame (R269), with the start of frame for R316. -/
structure CanFrame where
  id   : Nat
  ide  : Bool
  fdf  : Bool
  brs  : Bool
  esi  : Bool
  rtr  : Bool
  /-- a recessive res bit after FDF (R248) -/
  resRecessive : Bool
  dlc  : Nat
  data : Bytes
  sof  : Nat
  deriving DecidableEq, Repr

/-- How an error moves the counters (R273, ISO 11898-1). -/
inductive ErrorRole where
  | receiver | receiverDominant | transmitter | transmitterUncounted
  deriving DecidableEq, Repr

/-- A protocol error: its LEC code, its phase and the port's part in the frame (R273, R288). -/
structure BusError where
  code      : Nat
  dataPhase : Bool
  role      : ErrorRole
  deriving DecidableEq, Repr

/-- The analogue result of a cable measurement burst (R283 to R286): the DC resistance in 0.1 ohm
and the reflections as round-trip time in ns with the coefficient times 1,000. -/
structure TdrMeasure where
  rdc  : Nat
  refl : List (Nat × Int)
  deriving DecidableEq, Repr

/-- The two current samples of a load measurement in 0.01 mA (R353). -/
structure LoadSample where
  iA        : Nat
  iB        : Nat
  inLimit   : Bool
  offBefore : Bool
  deriving DecidableEq, Repr

/-- One telemetry sweep: rails in mV, temperatures in 0.1 degree (R571, R589). -/
structure Telemetry where
  vsup : Nat
  vhold : Nat
  vcan : Nat
  vdd : Nat
  vddio : Nat
  vddio18 : Nat
  vdda : Nat
  vmain : Nat
  vbat : Nat
  vfld : Nats
  tlog : Int
  thv : Int
  tgrp : List Int
  deriving DecidableEq, Repr

/-- Who reads a protected memory (R427). -/
inductive MemReader where
  | seFetch | seData | dma (c : Nat) | mgcCommand | mgcOwn | ixe | fbp (port buf : Nat)
  | swapMove | mirror
  deriving DecidableEq, Repr

/-- A reader with latches of its own (R488, R509, R611). -/
inductive Reader where
  | mgc | dma (c : Nat) | ctx (n : Nat)
  deriving DecidableEq, Repr

/-- A timer record of MIR_TIMER (R393). -/
structure TimerRec where
  timer : Nat
  word1 : Word
  start : Nat
  deriving DecidableEq, Repr

/-- A 64-byte block record of MIR_DATA: DM byte address and its 16 words (R393). -/
abbrev BlockRec := Nat × Words
abbrev Blocks := List BlockRec
abbrev TimerRecs := List TimerRec

/-- The content of a SNAP frame, by its KIND (R402). -/
inductive SnapPart where
  | counters (epoch claim g : Nat) (refs : List (Nat × Nat)) (outs : List (Nat × Nat × Nat × Nat))
  | stnEntry (port stn : Nat) (words : Words)
  | timers (recs : TimerRecs)
  | edges (first : Nat) (cells : List (BitVec 2))
  | shaft (s : Nat) (stat count period : Word) (stamp : Nat) (hist : List (Nat × Nat))
  | dm (blocks : Blocks)
  | ixe (addr : Nat) (words : Words)
  deriving DecidableEq, Repr

/-- The straps sampled at the end of a reset (R579), with the factory test balls (R604). -/
structure Straps where
  unitB : Bool
  recov : Bool
  tmode : Bool
  deriving DecidableEq, Repr

/-- What a received IEEE 1588 message tells the servo (R592). -/
structure PtpSync where
  state  : Nat
  offset : Int
  delay  : Nat
  ppb    : Int
  master : Nat
  deriving DecidableEq, Repr

/-- The commands: one constructor per row of the table of operations and events. -/
inductive Instr where
  /-- PACKET_RECEIVED (R41). A complete command packet arrives on a transport and is checked in order before its opcode runs. -/
  | packetReceived (via : Transport) (bytes : Bytes) (t : Nat)
  /-- SESSION_IDLE_CLOSE (R45). A session with no accepted command for its idle time is closed. -/
  | sessionIdleClose (slot : Nat) (t : Nat)
  /-- SPI_STATUS (R63). An SPI transfer with command byte STATUS shifts out the status word only. -/
  | spiStatus
  /-- SPI_WRITE (R64). An SPI WRITE transfer accepts up to WCREDIT packet bytes and counts overflow. -/
  | spiWrite (bytes : Bytes) (t : Nat)
  /-- SPI_READ (R66). An SPI READ transfer shifts out the head reply, removed only when HCS_N rises after its last byte. -/
  | spiRead (count : Nat)
  /-- SPI_RESERVED_CODE (R63). An SPI transfer with a reserved command byte ends in effect and shifts out zeros. -/
  | spiReservedCode (code : Byte) (count : Nat)
  /-- UDP_DATAGRAM (R68). A UDP datagram to port 28,760 is checked for length and checksum and its packet taken. -/
  | udpDatagram (src : UdpSource) (sum : UdpChecksum) (bytes : Bytes) (t : Nat)
  /-- IP_FRAGMENT (R70). A fragment of an IPv4 datagram to port 28,760 enters one of up to 4 reassemblies. -/
  | ipFragment (src : UdpSource) (ident : Nat) (off : Nat) (more : Bool) (bytes : Bytes) (t : Nat)
  /-- FRAGMENT_TIMEOUT (R70). A reassembly not complete within 250 ms is discarded, counted in FRAG_TMO, with EV 0x385. -/
  | fragmentTimeout (src : UdpSource) (ident : Nat) (t : Nat)
  /-- SYS_PING (R75). Echoes the payload. -/
  | sysPing (q : Req) (p : Bytes)
  /-- SYS_IDENT (R75). Returns the 16 SYS identity registers. -/
  | sysIdent (q : Req) (p : Bytes)
  /-- SYS_STATUS (R76). Returns state, role, unit, lock, sessions, outstanding commands, fault cause and device time. -/
  | sysStatus (q : Req) (p : Bytes)
  /-- SYS_SESSION_OPEN (R47). Opens a plain or authenticated session and returns its handle and device nonce. -/
  | sysSessionOpen (q : Req) (p : Bytes)
  /-- SYS_SESSION_CLOSE (R75). Replies within the session and then closes it. -/
  | sysSessionClose (q : Req) (p : Bytes)
  /-- SYS_STATE_SET (R121). Requests STOP, RUN or HOLD, completed by a notice when the state is reached. -/
  | sysStateSet (q : Req) (p : Bytes)
  /-- SYS_RESTART (R75). Schedules a restart into STOP 10 ms after the reply is queued. -/
  | sysRestart (q : Req) (p : Bytes)
  /-- SYS_LOCK_SET (R53). Sets owner lock in an authenticated session and records EV 0x003. -/
  | sysLockSet (q : Req) (p : Bytes)
  /-- SYS_LOCK_CLEAR (R53). Clears owner lock in an authenticated session and records EV 0x004. -/
  | sysLockClear (q : Req) (p : Bytes)
  /-- SYS_KEY_SET (R54). Sets the owner key over SPI and closes every other authenticated session. -/
  | sysKeySet (q : Req) (p : Bytes)
  /-- SYS_COUNTERS (R77). Returns the eight command-interface counters and optionally clears them. -/
  | sysCounters (q : Req) (p : Bytes)
  /-- REG_READ (R78). Reads COUNT words from ADDR upwards within one span. -/
  | regRead (q : Req) (p : Bytes)
  /-- REG_WRITE (R78). Writes COUNT words in ascending address order within one span. -/
  | regWrite (q : Req) (p : Bytes)
  /-- REG_MODIFY (R78). Indivisibly reads, masks and writes one register and returns the old value. -/
  | regModify (q : Req) (p : Bytes)
  /-- REG_LIST_READ (R78). Reads one word at each listed address. -/
  | regListRead (q : Req) (p : Bytes)
  /-- REG_COMMIT (R74). Requests a commit of a block and waits for its outcome before the notice. -/
  | regCommit (q : Req) (p : Bytes)
  /-- REG_POLL (R78). Reads a register at each management tick until it matches or TIMEOUT passes. -/
  | regPoll (q : Req) (p : Bytes)
  /-- REG_POLL_TIMEOUT (R78). The TIMEOUT of a running REG_POLL passes and the notice reports MATCH = 0. -/
  | regPollTimeout (q : Req) (t : Nat)
  /-- COMMIT_WRITE (R71). A write to a COMMIT register copies the staged group and sets PENDING, or is ignored while PENDING. -/
  | commitWrite (addr : Nat)
  /-- COMMIT_APPLY (R72). At the block's safe point the staged group passes its consistency check and is applied whole, or rejected. -/
  | commitApply (blk : Block) (t : Nat)
  /-- COMMIT_TIMEOUT (R73). A commit not applied within 10 s is rejected, sets CFG_ERR and records event 0x3F of the block. -/
  | commitTimeout (blk : Block) (t : Nat)
  /-- QUE_STATUS (R83). Returns the flags and level of each selected queue. -/
  | queStatus (q : Req) (p : Bytes)
  /-- QUE_POP (R83). Pops up to MAX QDATA values, stopping at empty or after LAST in MODE 1. -/
  | quePop (q : Req) (p : Bytes)
  /-- QUE_PUSH (R83). Pushes loose words until the queue is full. -/
  | quePush (q : Req) (p : Bytes)
  /-- QUE_PUSH_PACKET (R83). Pushes the words as one packet with a back-filled length word. -/
  | quePushPacket (q : Req) (p : Bytes)
  /-- QUE_CLEAR (R83). Empties the selected queues and clears FULL and OVERRUN unless one has an open packet or active DMA. -/
  | queClear (q : Req) (p : Bytes)
  /-- QUE_PUSH_WAIT_TIMEOUT (R491). An MGC push refused by another producer's open packet gives up after 1 µs with status 0x0D31. -/
  | quePushWaitTimeout (q : Req) (t : Nat)
  /-- MANAGEMENT_TICK (R16). The 600 Hz management tick takes received packets and runs management-plane work. -/
  | managementTick (t : Nat)
  /-- DIE_LINK_LOSS (R14). After 3 output update ticks without a valid output image the FIO turns all outputs off and the device enters FAULT. -/
  | dieLinkLoss (t : Nat)
  /-- OUTPUT_UPDATE_TICK (R21). Every 10 µs the FIO takes the output image, drives outputs, samples inputs and diagnostics, and moves PALO. -/
  | outputUpdateTick (t : Nat) (smp : FioSample)
  /-- GRID_TICK (R96). A 10 µs grid tick advances g and releases every cyclic task that is due. -/
  | gridTick (t : Nat)
  /-- TRIGGER_ARRIVAL (R103). A hardware trigger reaches the SE and releases its event task or is held and merged. -/
  | triggerArrival (trg : Trigger) (t : Nat)
  /-- SNAPSHOT_COPY_START (R19). A waiting snapshot copy starts when the image port has no write waiting. -/
  | snapshotCopyStart (ctx : Nat)
  /-- SNAPSHOT_COPY_END (R97). A snapshot copy ends and the context becomes runnable, dispatching by priority. -/
  | snapshotCopyEnd (ctx : Nat) (bad : Option Nat)
  /-- IMAGE_WRITE (R19). A waiting write to the input or output image is served indivisibly on the image port. -/
  | imageWrite (src : Timed ImgSource)
  /-- PUBLICATION_END (R108). A publication copy ends, the context becomes WAITING and pending or held releases proceed. -/
  | publicationEnd (ctx : Nat) (t : Nat)
  /-- IMAGE_COPY_REPAIR (R433). A flagged image copy is rewritten from the good copy at the next free port cycle. -/
  | imageCopyRepair (out : Bool) (off : Nat)
  /-- SE_SWTRIG (R102). A write to SE_SWTRIG triggers that context if it is an enabled user event task in RUN. -/
  | seSwtrig (v : Word)
  /-- SE_CTRL_CLR_TIME (R90). SE_CTRL.CLR_TIME clears CTXn_TIME of every context. -/
  | seCtrlClrTime
  /-- SE_CTRL_CLR_OVR (R90). SE_CTRL.CLR_OVR clears OVR_CNT of every context. -/
  | seCtrlClrOvr
  /-- SE_HOT_WRITE (R182). A host write to SE_HOTn takes effect indivisibly between two SE instructions. -/
  | seHotWrite (n : Nat) (v : Word)
  /-- STATE_CHANGE_APPLY (R121). A requested change among STOP, RUN and HOLD takes effect at its management tick or pair tick. -/
  | stateChangeApply (t : Nat)
  /-- RUN_EXIT_COMPLETE (R119). The last active instance publishes after a request to leave RUN and the new state is reached. -/
  | runExitComplete (t : Nat)
  /-- RUN_EXIT_ABANDON (R119). An instance still active 100 ms after leaving RUN was requested is abandoned with EV 0x087. -/
  | runExitAbandon (t : Nat)
  /-- CTX4_TIMEOUT (R122). CTX4 still running 2 ms after its start is cut, the SE stops and the retain copy begins. -/
  | ctx4Timeout (t : Nat)
  /-- RETAIN_COPY_END (R461). The retain copy writes its header, records EV 0x248 and sets the write lock. -/
  | retainCopyEnd (us : Nat)
  /-- TACH_EDGE (R125). A stamped tachometer edge is accepted or rejected by the shaft tracker and may make a revolution boundary. -/
  | tachEdge (ch : Nat) (rising : Bool) (t : Nat)
  /-- SHAFT_STALL (R128). After STALL ms without an accepted pulse the shaft is STOPPED with EV 0x088. -/
  | shaftStall (sh : Nat) (t : Nat)
  /-- SE_TASK_STATUS (R130). Returns CTXn_STAT and CTXn_TIME of the selected contexts. -/
  | seTaskStatus (q : Req) (p : Bytes)
  /-- SE_TRIGGER (R130). Triggers a user event task as a write to SE_SWTRIG. -/
  | seTrigger (q : Req) (p : Bytes)
  /-- SE_CLEAR_STATS (R130). Clears CTXn_TIME and or OVR_CNT as SE_CTRL does. -/
  | seClearStats (q : Req) (p : Bytes)
  /-- SE_SHAFT_READ (R130). Returns the status, phase, count, period and stamp of the selected shafts. -/
  | seShaftRead (q : Req) (p : Bytes)
  /-- BIT_LD (R140). Pushes the operand bit. -/
  | bitLd (src : BitOperand)
  /-- BIT_LDN (R140). Pushes the inverted operand bit. -/
  | bitLdn (src : BitOperand)
  /-- BIT_AND (R140). ANDs the operand bit into the top. -/
  | bitAnd (src : BitOperand)
  /-- BIT_ANDN (R140). ANDs the inverted operand bit into the top. -/
  | bitAndn (src : BitOperand)
  /-- BIT_OR (R140). ORs the operand bit into the top. -/
  | bitOr (src : BitOperand)
  /-- BIT_ORN (R140). ORs the inverted operand bit into the top. -/
  | bitOrn (src : BitOperand)
  /-- BIT_XOR (R140). XORs the operand bit into the top. -/
  | bitXor (src : BitOperand)
  /-- BIT_XORN (R140). XORs the inverted operand bit into the top. -/
  | bitXorn (src : BitOperand)
  /-- BIT_ST (R140). Stores the top into the operand bit. -/
  | bitSt (dst : BitOperand)
  /-- BIT_STN (R140). Stores the inverted top into the operand bit. -/
  | bitStn (dst : BitOperand)
  /-- BIT_STP (R140). Stores the top into the operand bit and pops. -/
  | bitStp (dst : BitOperand)
  /-- BIT_SET (R140). Sets the operand bit when the top is 1. -/
  | bitSet (dst : BitOperand)
  /-- BIT_RST (R140). Clears the operand bit when the top is 1. -/
  | bitRst (dst : BitOperand)
  /-- BIT_SETP (R140). As SET, then pops. -/
  | bitSetp (dst : BitOperand)
  /-- BIT_RSTP (R140). As RST, then pops. -/
  | bitRstp (dst : BitOperand)
  /-- PUSH0 (R142). Pushes 0. -/
  | push0
  /-- PUSH1 (R142). Pushes 1. -/
  | push1
  /-- STK_NOT (R142). Inverts the top. -/
  | stkNot
  /-- DUP (R142). Pushes a copy of the top. -/
  | dup
  /-- POP (R142). Removes the top. -/
  | pop
  /-- ANDS (R142). Pops an entry and ANDs it into the new top. -/
  | ands
  /-- ORS (R142). Pops an entry and ORs it into the new top. -/
  | ors
  /-- XORS (R142). Pops an entry and XORs it into the new top. -/
  | xors
  /-- SWAP (R142). Exchanges the top two entries. -/
  | swap
  /-- PUSHC (R142). Pushes 1 when the branch condition COND holds, otherwise 0. -/
  | pushc (cond : BitVec 4)
  /-- STK_CLR (R142). Empties the accumulator stack. -/
  | stkClr
  /-- KNOT_PUSH (R147). Evaluates a knot table entry and pushes the result. -/
  | knotPush (line : BitVec 18)
  /-- KNOT_AND (R147). Evaluates a knot table entry and ANDs it into the top. -/
  | knotAnd (line : BitVec 18)
  /-- KNOT_OR (R147). Evaluates a knot table entry and ORs it into the top. -/
  | knotOr (line : BitVec 18)
  /-- EDGE_RISING (R151). Replaces the top with the rising edge of the cell. -/
  | edgeRising (cell : BitVec 16)
  /-- EDGE_FALLING (R151). Replaces the top with the falling edge of the cell. -/
  | edgeFalling (cell : BitVec 16)
  /-- EDGE_BOTH (R151). Replaces the top with any change of the cell. -/
  | edgeBoth (cell : BitVec 16)
  /-- UNPRIME (R151). Sets the cell's PRIMED and PREV to 0. -/
  | unprime (cell : BitVec 16)
  /-- TIM_TON (R155). Calls a timer as on-delay and returns Q and ET. -/
  | timTon (op : TimOperand) (t : Nat)
  /-- TIM_TOF (R155). Calls a timer as off-delay and returns Q and ET. -/
  | timTof (op : TimOperand) (t : Nat)
  /-- TIM_TP (R155). Calls a timer as pulse and returns Q and ET. -/
  | timTp (op : TimOperand) (t : Nat)
  /-- TRST (R156). Resets a timer's RUN, ELAPSED and IN and writes 0 to Gd. -/
  | trst (rd : Reg) (timer : BitVec 13)
  /-- ALU_ADD (R159). Adds Ga and Gb at width W. -/
  | aluAdd (rd : Reg) (ra : Reg) (rb : Reg) (w : BitVec 2) (sg : Bool)
  /-- ALU_SUB (R159). Subtracts Gb from Ga at width W. -/
  | aluSub (rd : Reg) (ra : Reg) (rb : Reg) (w : BitVec 2) (sg : Bool)
  /-- ALU_AND (R159). Bitwise AND. -/
  | aluAnd (rd : Reg) (ra : Reg) (rb : Reg) (w : BitVec 2) (sg : Bool)
  /-- ALU_OR (R159). Bitwise OR. -/
  | aluOr (rd : Reg) (ra : Reg) (rb : Reg) (w : BitVec 2) (sg : Bool)
  /-- ALU_XOR (R159). Bitwise XOR. -/
  | aluXor (rd : Reg) (ra : Reg) (rb : Reg) (w : BitVec 2) (sg : Bool)
  /-- ALU_SHL (R160). Shifts left by Gb[5:0]. -/
  | aluShl (rd : Reg) (ra : Reg) (rb : Reg) (w : BitVec 2) (sg : Bool)
  /-- ALU_SHR (R160). Shifts right logically by Gb[5:0]. -/
  | aluShr (rd : Reg) (ra : Reg) (rb : Reg) (w : BitVec 2) (sg : Bool)
  /-- ALU_SAR (R160). Shifts right arithmetically by Gb[5:0]. -/
  | aluSar (rd : Reg) (ra : Reg) (rb : Reg) (w : BitVec 2) (sg : Bool)
  /-- ALU_ROL (R159). Rotates left. -/
  | aluRol (rd : Reg) (ra : Reg) (rb : Reg) (w : BitVec 2) (sg : Bool)
  /-- ALU_ROR (R159). Rotates right. -/
  | aluRor (rd : Reg) (ra : Reg) (rb : Reg) (w : BitVec 2) (sg : Bool)
  /-- ALU_MUL (R159). Writes the low half of the product. -/
  | aluMul (rd : Reg) (ra : Reg) (rb : Reg) (w : BitVec 2) (sg : Bool)
  /-- ALU_MULH (R159). Writes the high half of the product. -/
  | aluMulh (rd : Reg) (ra : Reg) (rb : Reg) (w : BitVec 2) (sg : Bool)
  /-- ALU_DIV (R161). Divides, rounding toward zero; by zero writes 0 and sets DZ. -/
  | aluDiv (rd : Reg) (ra : Reg) (rb : Reg) (w : BitVec 2) (sg : Bool)
  /-- ALU_REM (R161). Writes the remainder; by zero writes Ga and sets DZ. -/
  | aluRem (rd : Reg) (ra : Reg) (rb : Reg) (w : BitVec 2) (sg : Bool)
  /-- ALU_MIN (R159). Writes the smaller operand. -/
  | aluMin (rd : Reg) (ra : Reg) (rb : Reg) (w : BitVec 2) (sg : Bool)
  /-- ALU_MAX (R159). Writes the larger operand. -/
  | aluMax (rd : Reg) (ra : Reg) (rb : Reg) (w : BitVec 2) (sg : Bool)
  /-- ALU_CMP (R159). Sets flags from Ga minus Gb. -/
  | aluCmp (ra : Reg) (rb : Reg) (w : BitVec 2) (sg : Bool)
  /-- ALU_MOV (R159). Copies Ga to Gd. -/
  | aluMov (rd : Reg) (ra : Reg) (w : BitVec 2) (sg : Bool)
  /-- ALU_NOT (R159). Writes NOT Ga. -/
  | aluNot (rd : Reg) (ra : Reg) (w : BitVec 2) (sg : Bool)
  /-- ALU_NEG (R159). Writes 0 minus Ga. -/
  | aluNeg (rd : Reg) (ra : Reg) (w : BitVec 2) (sg : Bool)
  /-- ALU_ABS (R160). Writes the absolute value of Ga. -/
  | aluAbs (rd : Reg) (ra : Reg) (w : BitVec 2) (sg : Bool)
  /-- ALU_SEL (R159). Writes Ga or Gb by the top and pops. -/
  | aluSel (rd : Reg) (ra : Reg) (rb : Reg) (w : BitVec 2) (sg : Bool)
  /-- ADDI (R162). Adds a sign-extended immediate to Gd. -/
  | addi (rd : Reg) (imm : BitVec 16)
  /-- ANDI (R162). ANDs a zero-extended immediate into Gd. -/
  | andi (rd : Reg) (imm : BitVec 16)
  /-- ORI (R162). ORs a zero-extended immediate into Gd. -/
  | ori (rd : Reg) (imm : BitVec 16)
  /-- XORI (R162). XORs a zero-extended immediate into Gd. -/
  | xori (rd : Reg) (imm : BitVec 16)
  /-- SHLI (R162). Shifts Gd left by an immediate. -/
  | shli (rd : Reg) (imm : BitVec 16)
  /-- SHRI (R162). Shifts Gd right logically by an immediate. -/
  | shri (rd : Reg) (imm : BitVec 16)
  /-- SARI (R162). Shifts Gd right arithmetically by an immediate. -/
  | sari (rd : Reg) (imm : BitVec 16)
  /-- CMPI (R162). Sets flags from Gd minus an immediate. -/
  | cmpi (rd : Reg) (imm : BitVec 16)
  /-- LDIL (R162). Loads a zero-extended immediate into Gd. -/
  | ldil (rd : Reg) (imm : BitVec 16)
  /-- LDIH (R162). Loads an immediate into Gd[31:16]. -/
  | ldih (rd : Reg) (imm : BitVec 16)
  /-- MULI (R162). Multiplies Gd by a sign-extended immediate. -/
  | muli (rd : Reg) (imm : BitVec 16)
  /-- LDI (R163). Loads the 32-bit extension into Gd. -/
  | ldi (rd : Reg) (v : Word)
  /-- LDB (R167). Loads a zero-extended byte from DM. -/
  | ldb (rd : Reg) (rb : Reg) (disp : BitVec 15)
  /-- LDBS (R167). Loads a sign-extended byte from DM. -/
  | ldbs (rd : Reg) (rb : Reg) (disp : BitVec 15)
  /-- LDH (R167). Loads a zero-extended halfword from DM. -/
  | ldh (rd : Reg) (rb : Reg) (disp : BitVec 15)
  /-- LDHS (R167). Loads a sign-extended halfword from DM. -/
  | ldhs (rd : Reg) (rb : Reg) (disp : BitVec 15)
  /-- LDW (R167). Loads a word from DM. -/
  | ldw (rd : Reg) (rb : Reg) (disp : BitVec 15)
  /-- LDD (R167). Loads a 64-bit value into a register pair. -/
  | ldd (rd : Reg) (rb : Reg) (disp : BitVec 15)
  /-- STB (R167). Stores a byte to DM. -/
  | stb (rd : Reg) (rb : Reg) (disp : BitVec 15)
  /-- STH (R167). Stores a halfword to DM. -/
  | sth (rd : Reg) (rb : Reg) (disp : BitVec 15)
  /-- STW (R167). Stores a word to DM. -/
  | stw (rd : Reg) (rb : Reg) (disp : BitVec 15)
  /-- STD (R167). Stores a register pair to DM. -/
  | std (rd : Reg) (rb : Reg) (disp : BitVec 15)
  /-- LDX (R168). Loads from the absolute DM address in the extension. -/
  | ldx (fn : BitVec 3) (rd : Reg) (addr : Word)
  /-- STX (R168). Stores to the absolute DM address in the extension. -/
  | stx (fn : BitVec 3) (rd : Reg) (addr : Word)
  /-- MOVB (R170). Copies Gb bytes from Ga to Gd in 8-byte elements. -/
  | movb (rd : Reg) (ra : Reg) (rb : Reg)
  /-- FILLB (R170). Fills Gb bytes from Gd with Ga[7:0]. -/
  | fillb (rd : Reg) (ra : Reg) (rb : Reg)
  /-- FADD (R164). Floating-point add. -/
  | fadd (rd : Reg) (ra : Reg) (rb : Reg) (p : Bool)
  /-- FSUB (R164). Floating-point subtract. -/
  | fsub (rd : Reg) (ra : Reg) (rb : Reg) (p : Bool)
  /-- FMUL (R164). Floating-point multiply. -/
  | fmul (rd : Reg) (ra : Reg) (rb : Reg) (p : Bool)
  /-- FDIV (R164). Floating-point divide. -/
  | fdiv (rd : Reg) (ra : Reg) (rb : Reg) (p : Bool)
  /-- FSQRT (R164). Floating-point square root. -/
  | fsqrt (rd : Reg) (ra : Reg) (p : Bool)
  /-- FMIN (R166). minimumNumber of Ga and Gb. -/
  | fmin (rd : Reg) (ra : Reg) (rb : Reg) (p : Bool)
  /-- FMAX (R166). maximumNumber of Ga and Gb. -/
  | fmax (rd : Reg) (ra : Reg) (rb : Reg) (p : Bool)
  /-- FABS (R165). Clears the sign bit. -/
  | fabs (rd : Reg) (ra : Reg) (p : Bool)
  /-- FNEG (R165). Inverts the sign bit. -/
  | fneg (rd : Reg) (ra : Reg) (p : Bool)
  /-- FCMP (R166). Sets flags from a floating-point comparison. -/
  | fcmp (ra : Reg) (rb : Reg) (p : Bool)
  /-- FCVTI (R166). Converts float to 32-bit integer, nearest even. -/
  | fcvti (rd : Reg) (ra : Reg) (p : Bool)
  /-- FCVTF (R164). Converts a 32-bit integer to float. -/
  | fcvtf (rd : Reg) (ra : Reg) (p : Bool)
  /-- FCVTL (R166). Converts float to a 64-bit integer pair. -/
  | fcvtl (rd : Reg) (ra : Reg) (p : Bool)
  /-- FCVTLF (R164). Converts a 64-bit integer pair to float. -/
  | fcvtlf (rd : Reg) (ra : Reg) (p : Bool)
  /-- FCVTP (R164). Converts between binary64 and binary32. -/
  | fcvtp (rd : Reg) (ra : Reg) (p : Bool)
  /-- FTRUNC (R166). Converts float to 32-bit integer toward zero. -/
  | ftrunc (rd : Reg) (ra : Reg) (p : Bool)
  /-- BR (R172). Branches relative when its condition holds. -/
  | br (cond : BitVec 4) (off : BitVec 22)
  /-- CALL (R173). Writes the return address to Gd and branches. -/
  | call (rd : Reg) (off : BitVec 22)
  /-- JR (R173). Jumps to Ga[22:2]. -/
  | jr (ra : Reg)
  /-- CALLR (R173). Writes the return address to Gd and jumps to the old Ga. -/
  | callr (rd : Reg) (ra : Reg)
  /-- NOP (R174). Does nothing for one cycle. -/
  | nop
  /-- END (R174). Ends the instance, closes open packets and starts its publication. -/
  | endInsn (t : Nat)
  /-- TRAP (R174). Raises the TRAP trap with CODE. -/
  | trapInsn (code : BitVec 16)
  /-- FENCE (R174). Waits until every earlier store is visible to MGC and DMA. -/
  | fence
  /-- QPUSH (R175). Pushes Gx to a queue or the context's open packet. -/
  | qpush (q : BitVec 5) (rx : Reg)
  /-- QPOP (R175). Pops a QDATA value into a register pair. -/
  | qpop (q : BitVec 5) (rx : Reg)
  /-- QOPEN (R176). Opens a packet in a queue, or is refused. -/
  | qopen (q : BitVec 5)
  /-- QCLOSE (R175). Closes the context's open packet with its length. -/
  | qclose (q : BitVec 5)
  /-- QLVL (R175). Reads a queue's level. -/
  | qlvl (q : BitVec 5) (rx : Reg)
  /-- EVT (R178). Records a program event with Ga as data. -/
  | evt (num : BitVec 4) (ra : Reg)
  /-- TRIG (R179). Triggers a context as a write to SE_SWTRIG. -/
  | trig (ctx : BitVec 8)
  /-- SYSR (R180). Reads a system register into Gd. -/
  | sysr (rd : Reg) (sreg : BitVec 10) (t : Nat)
  /-- SYSW (R180). Writes Gd to the status word. -/
  | sysw (rd : Reg) (sreg : BitVec 10)
  /-- RESERVED_INSTRUCTION (R138). An instruction with a reserved code or non-zero reserved field raises ILLEGAL. -/
  | reservedInstruction (w : Word) (ext : Word)
  /-- SE_CHAMBER_OPEN (R212). Makes the chamber OPEN for writing. -/
  | seChamberOpen (q : Req) (p : Bytes)
  /-- SE_CHAMBER_WRITE (R185). Writes image bytes into an OPEN chamber. -/
  | seChamberWrite (q : Req) (p : Bytes)
  /-- SE_CHAMBER_CLOSE (R192). Starts checking the chamber image. -/
  | seChamberClose (q : Req) (p : Bytes)
  /-- CHAMBER_CHECK_END (R192). The image check ends and the chamber becomes LOADED or returns to OPEN. -/
  | chamberCheckEnd
  /-- SE_SWAP_ARM (R210). Arms a swap of the LOADED chamber, with twin check on a PRIMARY. -/
  | seSwapArm (q : Req) (p : Bytes)
  /-- SE_SWAP_DISARM (R212). Disarms an ARMED swap, returning the chamber to LOADED. -/
  | seSwapDisarm (q : Req) (p : Bytes)
  /-- SE_SWAP_STATUS (R212). Returns the swap status registers. -/
  | seSwapStatus (q : Req) (p : Bytes)
  /-- SWAP_START (R200). An armed swap starts at a slack point or the agreed grid tick. -/
  | swapStart (t : Nat)
  /-- SWAP_END (R200). The swap ends, banks switch, holds are released and EV 0x090 recorded. -/
  | swapEnd (t : Nat)
  /-- SWAP_TIMEOUT (R195). An armed swap not started within TIMEOUT is abandoned with EV 0x091. -/
  | swapTimeout (t : Nat)
  /-- SWAP_ATTEMPT_LAPSE (R206). A twin swap or switchover attempt without GO by g_s lapses and holds are released. -/
  | swapAttemptLapse (t : Nat)
  /-- IXE_RECORD (R216). A reduced record is taken from the IXE input queue, checked and evaluated. -/
  | ixeRecord (t : Nat)
  /-- IXE_TIMEOUT_CHECK (R228). Once per millisecond each enabled point is checked against its TIMEOUT. -/
  | ixeTimeoutCheck (t : Nat)
  /-- IXE_STATUS_READ (R238). Returns lines of the IXE status image. -/
  | ixeStatusRead (q : Req) (p : Bytes)
  /-- IXE_POINT_READ (R238). Returns a coherent copy of a point record and its 20 feature states. -/
  | ixePointRead (q : Req) (p : Bytes)
  /-- IXE_BASELINE_RESET (R238). Zeroes the selected baselines of a disabled point. -/
  | ixeBaselineReset (q : Req) (p : Bytes)
  /-- IXE_BASELINE_LOAD (R238). Loads one baseline of a disabled point. -/
  | ixeBaselineLoad (q : Req) (p : Bytes)
  /-- IXE_STATE_CLEAR (R238). Clears averages, histories and flags of a disabled point. -/
  | ixeStateClear (q : Req) (p : Bytes)
  /-- IXE_COUNTERS (R238). Returns the IXE counters and optionally clears them. -/
  | ixeCounters (q : Req) (p : Bytes)
  /-- IXE_CLR (R238). A write of 1 to IXE_CLR clears the IXE counters and QMAX. -/
  | ixeClr (v : Word)
  /-- FRAME_RECEIVED (R269). A frame reaches its end of frame on a port and is filtered and delivered. -/
  | frameReceived (port : Nat) (f : CanFrame) (t : Nat)
  /-- RX_QUEUE_WAIT_TIMEOUT (R270). A frame waiting 1 µs for another producer's packet is dropped with EV 0x108. -/
  | rxQueueWaitTimeout (port : Timed Nat)
  /-- FRAME_START (R260). A pending frame starts at a bus idle within its permitted window. -/
  | frameStart (port : Nat) (buf : Nat) (t : Nat)
  /-- FRAME_SENT (R260). A sent frame becomes valid for the transmitter and takes OUTCOME SENT. -/
  | frameSent (port : Nat) (t : Nat)
  /-- ARBITRATION_LOST (R260). A frame loses arbitration and contends again at the next bus idle. -/
  | arbitrationLost (port : Nat)
  /-- BUS_ERROR (R273). A protocol error changes TEC or REC and ends the current frame's attempt. -/
  | busError (port : Nat) (e : BusError) (t : Nat)
  /-- SUSPEND_END (R274). The 8-bit suspend after an error-passive transmission ends and the best pending frame is offered. -/
  | suspendEnd (port : Nat)
  /-- INTEGRATION_END (R247). 11 recessive bits end integration and the port takes part in the bus. -/
  | integrationEnd (port : Nat)
  /-- BUSOFF_RECOVERY_END (R276). 128 recessive sequences end recovery with TEC and REC 0 and EV 0x103. -/
  | busoffRecoveryEnd (port : Nat)
  /-- DOMINANT_TIMEOUT (R253). A transmit signal dominant for 4 ms is released, DOMTMO set and EV 0x104 recorded. -/
  | dominantTimeout (port : Nat)
  /-- BASIC_CYCLE_END (R295). A basic cycle ends, the next starts, misses are counted and forced restriction and calibration take effect. -/
  | basicCycleEnd (port : Nat) (t : Nat)
  /-- WINDOW_START (R296). A timetable window starts and serves its type, calibration or a TDR burst. -/
  | windowStart (port : Nat) (w : Nat) (t : Nat)
  /-- WINDOW_END (R260). A window ends and class P frames not started are discarded as STALE. -/
  | windowEnd (port : Nat) (w : Nat) (t : Nat)
  /-- LOAD_INSTANT (R22). 5 µs before a REFERENCE or EXCLUSIVE-TX window the port takes the frame data and twin header.
  `bad`: both copies of the output-image word at this byte offset are flagged (R434). -/
  | loadInstant (port : Nat) (w : Nat) (t : Nat) (bad : Option Nat)
  /-- TDR_BURST_END (R283). A cable measurement burst ends, or is aborted by a start of frame; after 64 bursts the measurement completes. -/
  | tdrBurstEnd (port : Nat) (aborted : Bool) (m : TdrMeasure)
  /-- TDR_TIMEOUT (R283). A measurement not complete within 10 s fails with EV 0x10B. -/
  | tdrTimeout (port : Timed Nat)
  /-- STATION_REF_LOST (R280). A station-mode port without a reference for two cycles sets REF_LOST with EV 0x10D. -/
  | stationRefLost (port : Timed Nat)
  /-- STATION_HOLD_EXPIRED (R281). HOLD ms without an accepted output frame substitutes the remote head end and records EV 0x10C. -/
  | stationHoldExpired (port : Nat) (t : Nat)
  /-- FBPN_TXREQ (R263). A write to FBPn_TXREQ requests class M buffers or is ignored. -/
  | fbpnTxreq (port : Nat) (hi : Bool) (v : Word)
  /-- FBPN_TXCAN (R264). A write to FBPn_TXCAN cancels buffers with the outcome their state gives. -/
  | fbpnTxcan (port : Nat) (hi : Bool) (v : Word)
  /-- FBPN_RECOVER (R276). A write of GO starts bus-off recovery. -/
  | fbpnRecover (port : Nat) (v : Word)
  /-- FBPN_CLR (R288). A write of 1 clears the port counters and filter HITS. -/
  | fbpnClr (port : Nat) (v : Word)
  /-- FBP_STATUS (R289). Returns status, counters and pending bits of the selected ports. -/
  | fbpStatus (q : Req) (p : Bytes)
  /-- FBP_RECOVER (R289). Starts bus-off recovery on a port. -/
  | fbpRecover (q : Req) (p : Bytes)
  /-- FBP_SEND (R289). Sends a host class M frame and reports its final outcome. -/
  | fbpSend (q : Req) (p : Bytes)
  /-- FBP_SEND_TIMEOUT (R289). A host frame not final after 10 s is cancelled with OUTCOME TIMEOUT. -/
  | fbpSendTimeout (port : Nat) (buf : Timed Nat)
  /-- FBP_CANCEL (R289). Cancels a host buffer as FBPn_TXCAN does. -/
  | fbpCancel (q : Req) (p : Bytes)
  /-- FBP_TDR (R282). Starts a cable measurement on a port. -/
  | fbpTdr (q : Req) (p : Bytes)
  /-- FBP_COUNTERS (R289). Returns a port's counters and optionally clears them. -/
  | fbpCounters (q : Req) (p : Bytes)
  /-- STN_FRAME (R306). A frame routed to STN is handled by its class. -/
  | stnFrame (port : Nat) (t : Nat)
  /-- MGMT_RESPONSE_TIMEOUT (R312). No response within RSPT repeats the request, or after 3 attempts fails the step with EV 0x144. -/
  | mgmtResponseTimeout (port : Nat) (stn : Nat) (t : Nat)
  /-- JOIN_POLL (R314). An ABSENT or LOST entry is polled with CAP_READ once per second. -/
  | joinPoll (port : Nat) (stn : Nat) (t : Nat)
  /-- WAITFIRST_TIMEOUT (R314). No first frame after the claim returns the entry to ABSENT with EV 0x147. -/
  | waitfirstTimeout (port : Nat) (stn : Timed Nat)
  /-- KEEPALIVE_PERIOD_END (R317). At the end of each KAPER period MISS is updated and loss may be declared. -/
  | keepalivePeriodEnd (port : Nat) (stn : Nat) (t : Nat)
  /-- STN_CLR (R327). A write of 1 clears the STN counters of a port. -/
  | stnClr (port : Nat) (v : Word)
  /-- STN_STATUS (R328). Returns state words of a range of stations. -/
  | stnStatus (q : Req) (p : Bytes)
  /-- STN_REJOIN (R328). Sets an entry to ABSENT to poll at the next tick. -/
  | stnRejoin (q : Req) (p : Bytes)
  /-- STN_MGMT (R328). Sends a station-defined management request and reports the response. -/
  | stnMgmt (q : Req) (p : Bytes)
  /-- STN_STOP (R328). Sends STOP to a station and sets its entry to ABSENT. -/
  | stnStop (q : Req) (p : Bytes)
  /-- STN_COUNTERS (R328). Returns a port's STN counters and optionally clears them. -/
  | stnCounters (q : Req) (p : Bytes)
  /-- GROUP_LOW (R356). VFLD below 18.0 V for the filter time sets LOW, triggers CTX6 and records EV 0x182. -/
  | groupLow (g : Nat)
  /-- GROUP_OFF (R357). VFLD below 15.5 V turns the group off at the next tick with EV 0x183. -/
  | groupOff (g : Nat)
  /-- GROUP_RECOVERY (R358). 10 ms above 18.0 V clears LOW and OFF and applies RECOV with EV 0x184. -/
  | groupRecovery (g : Nat)
  /-- GRPG_ACK (R358). A write to GRPg_ACK acknowledges a group in WAIT_ACK. -/
  | grpgAck (g : Nat) (v : Word)
  /-- CHN_DIAGCLR (R347). A write to CHn_DIAGCLR clears a latched SHORT. -/
  | chnDiagclr (ch : Nat) (v : Word)
  /-- THERMAL_SHUTDOWN (R347). A channel in current limit reaches shutdown, turns off and reports SHORT. -/
  | thermalShutdown (ch : Nat)
  /-- SHORT_RETRY (R347). RETRY × 10 ms after shutdown the driver is turned on again. -/
  | shortRetry (ch : Nat) (t : Nat)
  /-- CHANNEL_OVERTEMP (R348). A channel reaches over-temperature without current limit, turns off and reports OVERTEMP. -/
  | channelOvertemp (ch : Nat)
  /-- CHANNEL_COOLED (R348). A channel cooled by 15 °C resumes at its command. -/
  | channelCooled (ch : Nat) (t : Nat)
  /-- LOAD_MEASUREMENT (R353). At 2T after turn-on the FIO computes R and L from its two current samples. -/
  | loadMeasurement (ch : Nat) (m : LoadSample)
  /-- FIO_STATUS (R366). Returns channel and group status and currents. -/
  | fioStatus (q : Req) (p : Bytes)
  /-- FIO_GROUP_ACK (R366). Acknowledges a group as GRPg_ACK does. -/
  | fioGroupAck (q : Req) (p : Bytes)
  /-- FIO_DIAG_CLEAR (R366). Clears a latched SHORT as CHn_DIAGCLR does. -/
  | fioDiagClear (q : Req) (p : Bytes)
  /-- FIO_LOAD_READ (R366). Returns the load measurement results of selected channels. -/
  | fioLoadRead (q : Req) (p : Bytes)
  /-- TELEMETRY_SWEEP (R571). Every 1 ms the telemetry converter measures rails and temperatures and updates limits. -/
  | telemetrySweep (t : Nat) (m : Telemetry)
  /-- PALI_LOST (R384). PALI low for 1 µs is lost, with EV 0x1C3 and the role rules. -/
  | paliLost (t : Nat)
  /-- PALI_ALIVE (R384). PALI high for 10 ms is alive again with EV 0x1C4. -/
  | paliAlive
  /-- PALIQ_TIMEOUT (R385). No PALIANS within 100 µs is handled as a LEAVE from the twin. -/
  | paliqTimeout (t : Nat)
  /-- TOWLINE_LOCK_LOST (R379). Lane lock or retry exhaustion takes the towline down and applies the role changes. -/
  | towlineLockLost (retries : Bool) (t : Nat)
  /-- TICK_TIMEOUT (R379). No TICK frame for 25 µs in TRACKING or JOINING takes the towline down. -/
  | tickTimeout (t : Nat)
  /-- TRAINING_ATTEMPT (R380). Every 100 ms a DOWN towline with PAIR = 1 trains again. -/
  | trainingAttempt (ok : Bool)
  /-- TOWLINE_UP (R380). Training ends, capabilities are exchanged, LINK = UP and EV 0x1C1 recorded. -/
  | towlineUp (delay : Nat) (skew : Nat) (cap : Words) (t : Nat)
  /-- SOLOWAIT_EXPIRED (R372). The start-up wait ends and the unit takes its start-up outcome. -/
  | solowaitExpired (t : Nat)
  /-- TWL_TICK (R382). A received TICK aligns the grid, output tick and device time. -/
  | twlTick (time : Nat)
  /-- TWL_ACK (R378). A received ACK releases acknowledged frames or, with NAK, causes a repeat. -/
  | twlAck (seq : BitVec 8) (nak : Bool) (credit : BitVec 16)
  /-- TWL_ECHO (R380). A received ECHO is returned unchanged during training. -/
  | twlEcho (w0 : Word) (w1 : Word)
  /-- TWL_CAP (R381). A received capability record updates the twin's view and role decisions. -/
  | twlCap (cap : Words) (t : Nat)
  /-- TWL_BAD_FRAME (R378). A towline frame with a CRC error or FSEQ gap is answered with NAK. -/
  | twlBadFrame
  /-- TWL_RESERVED_FRAME (R377). A frame of a reserved type is discarded and counted in TWL_CRCERR. -/
  | twlReservedFrame (ty : Byte)
  /-- PROPOSE (R206). A PROPOSE(g_s) from the PRIMARY is answered READY or DECLINE. -/
  | propose (arg : Nat) (gs : Nat) (t : Nat)
  /-- READY (R206). A READY lets the PRIMARY send GO and hold triggered releases. -/
  | ready (arg : Nat) (gs : Nat) (t : Nat)
  /-- DECLINE (R206). A DECLINE is counted and EV 0x094 recorded. -/
  | decline (arg : Nat)
  /-- GO (R206). A GO commits the unit to swap or switch over at g_s. -/
  | go (arg : Nat) (gs : Nat)
  /-- TWL_STATE (R386). A STATE frame sets the tick at which both units change operating state. -/
  | twlState (target : Nat) (gs : Nat)
  /-- LEAVE (R407). A LEAVE from the twin makes a TRACKING unit SOLO at the next grid tick. -/
  | leave (t : Nat)
  /-- ENTER (R405). An ENTER sets the entry instant t_e of a join. -/
  | enter (te : Nat)
  /-- JOINREQ (R401). A JOINREQ makes the SOLO unit start sending the snapshot. -/
  | joinreq
  /-- PALIQ (R385). A PALIQ is answered with PALIANS and the own PALO level. -/
  | paliq
  /-- PALIANS (R385). A PALIANS with PALO = 1 sets PALI_FAULT; with 0 it is a LEAVE. -/
  | palians (palo : Bool) (t : Nat)
  /-- MIR_BEGIN (R393). A MIR_BEGIN opens a mirror cycle with the next release tick. -/
  | mirBegin (ctx : Nat) (nextValid : Bool) (next : Nat)
  /-- MIR_DATA (R393). MIR_DATA block records are taken into the staging area. -/
  | mirData (blocks : Blocks)
  /-- MIR_TIMER (R397). MIR_TIMER records carry mirrored timer entries and start instants. -/
  | mirTimer (recs : TimerRecs)
  /-- MIR_END (R395). A MIR_END closes a mirror cycle, checked by its counts. -/
  | mirEnd (ctx : Nat) (blocks : Nat) (timers : Nat)
  /-- MIRROR_APPLY (R395). A complete mirror cycle is applied once its context is WAITING, and a waiting release may take its snapshot. -/
  | mirrorApply (ctx : Nat) (t : Nat)
  /-- TRACKING_RELEASE_SKIP (R396). No matching MIR_BEGIN by g' + 2 µs skips the TRACKING unit's release. -/
  | trackingReleaseSkip (ctx : Nat) (t : Nat)
  /-- MIRROR_READ_DONE (R392). The mirror engine has read every block of a context's cycle and its next snapshot may start. -/
  | mirrorReadDone (ctx : Nat) (t : Nat)
  /-- SNAP (R402). A SNAP frame's content is written on the JOINING unit. -/
  | snap (part : SnapPart)
  /-- SNAP_END (R404). SNAP_END puts the JOINING unit into the TRACK phase. -/
  | snapEnd (op : Nat) (g : Nat) (t : Nat)
  /-- TRACK_PHASE_END (R404). The TRACK phase ends and the SOLO unit sends ENTER. -/
  | trackPhaseEnd (t : Nat)
  /-- ENTRY_INSTANT (R405). At t_e the JOINING unit becomes TRACKING and the SOLO unit PRIMARY. -/
  | entryInstant (t : Nat)
  /-- STNSYNC (R399). An STNSYNC copies a station entry's state to the TRACKING unit. -/
  | stnsync (port : Nat) (stn : Nat) (w5 : Word) (w6 : Word)
  /-- TWL_REQ (R388). A REQ frame makes the TRACKING unit send the same class 5 frame. -/
  | twlReq (port : Nat) (stn : Nat) (token : Byte) (seq : BitVec 16) (data : Bytes)
  /-- TWL_SHAFT (R398). A SHAFT frame carries the PRIMARY's revolution boundary for comparison. -/
  | twlShaft (sh : Nat) (count : Word) (stamp : Nat)
  /-- SWITCHOVER_INSTANT (R408). At g_s both units exchange roles and write the new epoch. -/
  | switchoverInstant (t : Nat)
  /-- TWL_CLR (R412). A write of 1 clears the towline counters and MAXUS. -/
  | twlClr (v : Word)
  /-- TWL_STATUS (R413). Returns towline status, claim, delay, mirror and join error. -/
  | twlStatus (q : Req) (p : Bytes)
  /-- TWL_JOIN (R401). Starts a join of a DETACHED unit to a SOLO twin. -/
  | twlJoin (q : Req) (p : Bytes)
  /-- TWL_DETACH (R413). Makes a TRACKING unit DETACHED, or a PRIMARY switch over then detach. -/
  | twlDetach (q : Req) (p : Bytes)
  /-- TWL_SWITCHOVER (R408). Starts a switchover exchange from the PRIMARY. -/
  | twlSwitchover (q : Req) (p : Bytes)
  /-- TWL_GO_SOLO (R413). Makes a DETACHED unit SOLO with epoch + 1. -/
  | twlGoSolo (q : Req) (p : Bytes)
  /-- TWL_EPOCH_SET (R413). Writes a given epoch in STOP. -/
  | twlEpochSet (q : Req) (p : Bytes)
  /-- TWL_COUNTERS (R413). Returns the towline counters and optionally clears them. -/
  | twlCounters (q : Req) (p : Bytes)
  /-- REBUILD_END (R423). A page rebuild of a flagged word ends and the word is delivered or found unrebuildable. -/
  | rebuildEnd (rd : MemReader) (addr : Nat) (parity : Bool)
  /-- SPLICE_FLUSH (R430). A splice entry is flushed 16 cycles after its first write. -/
  | spliceFlush (mem : Nat)
  /-- SCRUB_PAGE (R437). The scrubber finishes a page pass, rebuilding or counting it, and completes at the range end. -/
  | scrubPage (hit : Bool)
  /-- MIU_TEST_WRITE (R435). A write to MIU_TEST in STOP opens or closes the test window. -/
  | miuTestWrite (v : Word)
  /-- MIU_CLR (R441). A write of 1 clears the MIU counters, first address and error info. -/
  | miuClr (v : Word)
  /-- MIU_STATUS (R442). Returns the MIU status registers. -/
  | miuStatus (q : Req) (p : Bytes)
  /-- MIU_SCRUB (R440). Starts a scrub of a range. -/
  | miuScrub (q : Req) (p : Bytes)
  /-- MIU_SCRUB_ABORT (R442). Stops a scrub after its current page. -/
  | miuScrubAbort (q : Req) (p : Bytes)
  /-- MIU_RAW_READ (R436). Reads stored words and checks without checking them. -/
  | miuRawRead (q : Req) (p : Bytes)
  /-- MIU_RAW_WRITE (R436). Writes data or check bits of one word exactly as given. -/
  | miuRawWrite (q : Req) (p : Bytes)
  /-- ENERGY_BURST (R451). A burst into an ENERGY region runs through the journal or is refused for energy. -/
  | energyBurst (addr : Nat) (data : Bytes)
  /-- TWIN_COPY_BURST (R455). A burst into a TWIN-COPY record writes the other copy with SEQ + 1. -/
  | twinCopyBurst (addr : Nat) (data : Bytes)
  /-- TWIN_COPY_READ (R454). A read of a TWIN-COPY record takes the chosen copy. -/
  | twinCopyRead (addr : Nat)
  /-- MARGIN_READ (R466). Every 21.09 s one page is margin-read and possibly refreshed. -/
  | marginRead (weak : Bool) (flagged : Nats)
  /-- RSM_CLR (R468). A write of 1 clears the RSM counters. -/
  | rsmClr (v : Word)
  /-- RSM_STATUS (R469). Returns the RSM status registers. -/
  | rsmStatus (q : Req) (p : Bytes)
  /-- RSM_FORMAT (R469). Formats a user region in STOP. -/
  | rsmFormat (q : Req) (p : Bytes)
  /-- RSM_RETAIN_CLEAR (R469). Zeroes both retain set headers in STOP. -/
  | rsmRetainClear (q : Req) (p : Bytes)
  /-- EVENT_RECORD_WRITE (R473). The recorder writes the head of the holding queue into its ring slot. -/
  | eventRecordWrite
  /-- RATE_WINDOW_START (R479). A rate-limit window starts and its budgets begin afresh. -/
  | rateWindowStart (win : Nat) (t : Nat)
  /-- FREEZE_TIMEOUT (R481). 10 s after the last freeze request the recorder unfreezes with EV 0x282. -/
  | freezeTimeout (t : Nat)
  /-- EVR_CTRL_FREEZE (R480). EVR_CTRL.FREEZE freezes the recorder or restarts its 10 s. -/
  | evrCtrlFreeze (t : Nat)
  /-- EVR_CTRL_UNFREEZE (R480). EVR_CTRL.UNFREEZE writes held records and resumes recording. -/
  | evrCtrlUnfreeze
  /-- EVR_CLR (R482). A write of 1 clears EVR_LOST, EVR_SUPP and every SUPP. -/
  | evrClr (v : Word)
  /-- EVR_STATUS (R483). Returns the recorder status. -/
  | evrStatus (q : Req) (p : Bytes)
  /-- EVR_READ (R483). Returns valid records from a starting RSEQ. -/
  | evrRead (q : Req) (p : Bytes)
  /-- EVR_FREEZE (R483). Freezes the recorder. -/
  | evrFreeze (q : Req) (p : Bytes)
  /-- EVR_UNFREEZE (R483). Unfreezes the recorder. -/
  | evrUnfreeze (q : Req) (p : Bytes)
  /-- EVR_CLEAR (R483). Clears every ring slot behind EV 0x285. -/
  | evrClear (q : Req) (p : Bytes)
  /-- QNPUSH (R484). A write to QnPUSH pushes a loose word. -/
  | qnpush (n : Nat) (v : Word)
  /-- QNDATA_LO_READ (R488). A read of QnDATA_LO pops a word and latches its upper half for the reader. -/
  | qndataLoRead (rd : Reader) (n : Nat)
  /-- DMAC_GO_START (R496). DMAc_GO.START starts a transfer. -/
  | dmacGoStart (c : Nat)
  /-- DMAC_GO_STOP (R498). DMAc_GO.STOP halts an active transfer after its current word. -/
  | dmacGoStop (c : Nat)
  /-- DMA_BURST (R499). An active channel's turn moves one 32-byte burst, ending or halting the transfer. -/
  | dmaBurst (c : Nat)
  /-- RTC_SECOND (R507). A second starts, the calendar rolls over and RTC_SEQ and RTC_STAMP advance. -/
  | rtcSecond (t : Nat)
  /-- TRIM_WINDOW (R514). A 128 s trim window starts and takes the new TRIM. -/
  | trimWindow
  /-- RTC_SHADOW_READ (R509). A read of a calendar register freezes or ends the reader's shadow set. -/
  | rtcShadowRead (rd : Reader) (r : Nat) (t : Nat)
  /-- RTC_FREEZE_TIMEOUT (R509). A shadow freeze ends 2 ms after it began. -/
  | rtcFreezeTimeout (rd : Reader) (t : Nat)
  /-- LO_REGISTER_READ (R611). A read of a _LO register latches its _HI half for that reader. -/
  | loRegisterRead (rd : Reader) (addr : Nat)
  /-- RTC_LOST_SET (R503). The always-on domain falls below V_RET and the RTC registers reset. -/
  | rtcLostSet
  /-- AO_SOURCE_SWITCH (R502). The always-on domain switches between VMAIN_AO and VBAT. -/
  | aoSourceSwitch (vbat : Bool)
  /-- BATLOW_SET (R505). VBAT below 2.2 V for 1 s sets BATLOW with EV 0x2CA. -/
  | batlowSet
  /-- BATLOW_CLEAR (R505). VBAT above 2.3 V for 1 s clears BATLOW. -/
  | batlowClear
  /-- WDT_KEY_WRITE (R520). A write to WDT_KEY advances the key sequence and may service the watchdog. -/
  | wdtKeyWrite (v : Word)
  /-- WDT_CHECKIN_WRITE (R522). A write to WDT_CHECKIN marks a WRITE slot. -/
  | wdtCheckinWrite (v : Word)
  /-- WDT_CONFIG_WRITE (R519). A write to WDT_CFG, WDT_SLOTEN or WDT_SLOTk is accepted in the open window or ignored. -/
  | wdtConfigWrite (off : Nat) (v : Word)
  /-- WDT_PERIOD_END (R525). A watchdog period ends without service and warns, or resets after a warning. -/
  | wdtPeriodEnd (t : Nat)
  /-- RTC_READ (R531). Returns the calendar, RTC_SEQ, status and stamp. -/
  | rtcRead (q : Req) (p : Bytes)
  /-- RTC_SET (R531). Stages and commits a new time. -/
  | rtcSet (q : Req) (p : Bytes)
  /-- RTC_TRIM (R531). Writes a new TRIM. -/
  | rtcTrim (q : Req) (p : Bytes)
  /-- WDT_STATUS (R531). Returns watchdog configuration and status. -/
  | wdtStatus (q : Req) (p : Bytes)
  /-- WDT_SERVICE (R531). Writes both key words as a host service. -/
  | wdtService (q : Req) (p : Bytes)
  /-- WDT_CHECKIN (R531). Marks a WRITE check-in slot. -/
  | wdtCheckin (q : Req) (p : Bytes)
  /-- UPD_BEGIN (R539). Checks a package header and signature and starts erasing staging. -/
  | updBegin (q : Req) (p : Bytes)
  /-- ERASE_DONE (R539). Staging erase completes and STATE becomes RECEIVING. -/
  | eraseDone
  /-- UPD_DATA (R540). Takes package data at FWU_NEXT into the program buffer. -/
  | updData (q : Req) (p : Bytes)
  /-- UPD_VERIFY (R541). Starts verifying the staged package. -/
  | updVerify (q : Req) (p : Bytes)
  /-- VERIFY_DONE (R541). Verification and station staging end with the VERIFIED mark or failure. -/
  | verifyDone
  /-- UPD_ACTIVATE (R543). Writes a pending slot record and restarts into the update. -/
  | updActivate (q : Req) (p : Bytes)
  /-- UPD_CONFIRM (R549). Confirms the trial image. -/
  | updConfirm (q : Req) (p : Bytes)
  /-- UPD_REVERT (R552). Switches back to the other slot and restarts. -/
  | updRevert (q : Req) (p : Bytes)
  /-- UPD_STATUS (R560). Returns the FWU registers. -/
  | updStatus (q : Req) (p : Bytes)
  /-- UPD_ABORT (R560). Returns the update to IDLE and erases the VERIFIED mark. -/
  | updAbort (q : Req) (p : Bytes)
  /-- UPD_STATION_ACTIVATE (R556). Activates staged station images on matching stations. -/
  | updStationActivate (q : Req) (p : Bytes)
  /-- TRIAL_TIMEOUT (R548). The confirm window expires, the device falls back and restarts. -/
  | trialTimeout (t : Nat)
  /-- SELF_CONFIRM (R549). With AUTOCONF a healthy trial image confirms itself after 60 s. -/
  | selfConfirm (t : Nat)
  /-- POWER_ON_RESET (R563). The internal power-on reset releases and the device starts from reset. -/
  | powerOnReset (straps : Straps)
  /-- PIN_RESET (R576). PORST_N low for at least 1 µs resets the device. -/
  | pinReset (ns : Nat) (straps : Straps)
  /-- CLOCK_FAILURE (R574). A stopped XREF or lost PLL lock resets the device with cause CLOCK. -/
  | clockFailure (straps : Straps)
  /-- X32_STOPPED (R575). No X32 edge for 100 µs clears X32_OK with EV 0x013. -/
  | x32Stopped
  /-- DEVICE_RESTART (R576). 10 ms after its reply a requested restart resets all but the always-on domain and IXE state. -/
  | deviceRestart (straps : Timed Straps)
  /-- MAIN_POWER_LOSS (R565). Main supplies fail and the device goes to STANDBY or OFF. -/
  | mainPowerLoss (aoHeld : Bool)
  /-- START_UP (R582). From the end of a reset the device runs its start-up sequence to STOP. -/
  | startUp (t : Nat)
  /-- POWER_FAIL_WARNING (R569). VSUP or VHOLD below threshold for 5 µs raises the warning, sends LEAVE and starts CTX4. -/
  | powerFailWarning (t : Nat)
  /-- POWERFAIL_RESTART (R570). After the write lock, 50 ms of good supply restarts the device with cause POWERFAIL. -/
  | powerfailRestart (straps : Straps)
  /-- VCAN_LOW (R564). VCAN below 4.5 V for 10 µs holds transmitters recessive with EV 0x012. -/
  | vcanLow
  /-- VCAN_RESTORED (R564). VCAN above 4.6 V for 1 ms lets transmission resume. -/
  | vcanRestored
  /-- STORE_RUNNING_PROGRAM (R588). STORE_CTRL OP 1 stores the running program into the program store. -/
  | storeRunningProgram
  /-- STORE_LOADED_CHAMBER (R588). STORE_CTRL OP 2 stores the LOADED chamber into the program store. -/
  | storeLoadedChamber
  /-- STORE_CONFIGURATION (R588). STORE_CTRL OP 3 stores committed configuration into the settings area. -/
  | storeConfiguration
  /-- STORE_DONE (R588). A store operation completes with EV 0x018 or fails with EV 0x019. -/
  | storeDone (ok : Bool)
  /-- ETH_LINK_CHANGE (R590). A port's in-band status changes link, speed or duplex. -/
  | ethLinkChange (port : Nat) (up : Bool) (speed : BitVec 2) (half : Bool)
  /-- ARP_REQUEST (R590). An ARP request for the port's address is answered. -/
  | arpRequest (port : Nat) (ip : Word)
  /-- ICMP_ECHO (R590). An ICMP echo request to the port is answered. -/
  | icmpEcho (port : Nat) (ip : Word) (data : Bytes)
  /-- PTP_MESSAGE (R592). A received IEEE 1588 message disciplines or steps device time. -/
  | ptpMessage (m : PtpSync) (t : Nat)
  /-- ETH_FRAME_DROPPED (R34). A received Ethernet frame finding the receive queue full is dropped with EV 0x381. -/
  | ethFrameDropped (port : Nat)
  /-- ETH_STATUS (R593). Returns a port's link and address settings. -/
  | ethStatus (q : Req) (p : Bytes)
  /-- ETH_CONFIG (R593). Sets a port's enable, VLAN, MTU and addresses. -/
  | ethConfig (q : Req) (p : Bytes)
  /-- PTP_CONFIG (R593). Sets the PTP port, domain and stepping. -/
  | ptpConfig (q : Req) (p : Bytes)
  /-- PTP_STATUS (R593). Returns the PTP servo state and offsets. -/
  | ptpStatus (q : Req) (p : Bytes)
  /-- ETH_COUNTERS (R593). Returns a port's counters and optionally clears them. -/
  | ethCounters (q : Req) (p : Bytes)
  /-- HPI_CLR (R615). A write of 1 clears the eight command-interface counters. -/
  | hpiClr (v : Word)
  /-- ETHN_CLR (R616). A write of 1 clears a port's six counters. -/
  | ethnClr (port : Nat) (v : Word)
  /-- JTAG_DEBUG_ACCESS (R610). A JTAG debug access reads or writes a register or memory unless owner lock blocks it. -/
  | jtagDebugAccess (addr : Nat) (wr : Option Word)
  /-- REGISTER_WRITE (R7). A write to a register with no row of its own acts by its access type. -/
  | registerWrite (addr : Nat) (v : Word)
  /-- SWITCHOVER_TIMEOUT (R413). A TWL_SWITCHOVER, or the switchover of a PRIMARY's TWL_DETACH, that has found no accepted slack point within 10 s ends with status 0x0731. -/
  | switchoverTimeout (t : Nat)
  /-- ETH_FRAME_DISCARDED (R590). A received Ethernet frame with another EtherType, another destination, a foreign VLAN identifier or a failed CRC is dropped and counted in DISCARD or RX_CRCERR. -/
  | ethFrameDiscarded (port : Nat) (crcFail : Bool)
  /-- X32_RESUMED (R575). Edges return on the 32.768 kHz oscillator after a stop and the RTC counts again. -/
  | x32Resumed
  /-- JTAG_TAP_RESET (R576). TRST_N low resets the JTAG TAP alone. -/
  | jtagTapReset
  /-- CHARGER_CUT_OFF (R515). VBAT reaching VCUT stops the trickle charger, and a fall 50 mV below VCUT lets it conduct again, changing RTC_STAT.CHG. -/
  | chargerCutOff (off : Bool)
  deriving DecidableEq, Repr

end Sys2Proof
end

