-- ==== Sys2Proof/Decode.lean ====
section
/-! DEFINITION. The command a word spells. The rows of spec/opcode_table.json give no bits; where the spec itself gives
a command an encoding, it is read here: the SE instruction words of chapter 04 (R137 to R180) and the command byte of an
SPI transfer (R63). The other commands are packets, bus events and ticks, each with its own operands. -/

namespace Sys2Proof

/-! ### Fields of an SE instruction word (R137) -/

/-- Bits `lo + 3 : lo` as a register number. -/
def regAt (w : Word) (lo : Nat) : Reg := ⟨bitsOf w (lo + 3) lo % 16, Nat.mod_lt _ (by decide)⟩

/-- Bits `lo + n - 1 : lo` as a field of `n` bits. -/
def fieldAt (n : Nat) (w : Word) (lo : Nat) : BitVec n := BitVec.ofNat n (bitsOf w (lo + n - 1) lo)

/-- The operand of a BIT instruction, by SP (R139). -/
def bitOperandAt (w ext : Word) : BitOperand :=
  match bitsOf w 21 20 with
  | 0 => .hot (fieldAt 13 w 0)
  | 1 => .dmBased (regAt w 16) (fieldAt 3 w 13) (fieldAt 13 w 0)
  | 2 => .reg (regAt w 16) (fieldAt 5 w 0)
  | _ => .dmAbs (fieldAt 26 ext 0)

/-- The operand of a TIM instruction (R155). -/
def timOperandAt (w ext : Word) : TimOperand :=
  ⟨fieldAt 2 w 22, if w.getLsbD 21 then .ext ext else .reg (regAt w 17), regAt w 13, fieldAt 13 w 0⟩

/-! ### The functions of each class, by FN -/

/-- BIT (R140). -/
def bitClass : List (BitOperand → Instr) :=
  [.bitLd, .bitLdn, .bitAnd, .bitAndn, .bitOr, .bitOrn, .bitXor, .bitXorn, .bitSt, .bitStn, .bitStp, .bitSet, .bitRst,
   .bitSetp, .bitRstp]

/-- STK (R142), with COND. -/
def stkClass : List (BitVec 4 → Instr) :=
  [fun _ => .push0, fun _ => .push1, fun _ => .stkNot, fun _ => .dup, fun _ => .pop, fun _ => .ands, fun _ => .ors,
   fun _ => .xors, fun _ => .swap, .pushc, fun _ => .stkClr]

/-- ALU (R159): Rd, Ra, Rb, W and S. -/
def aluClass : List (Reg → Reg → Reg → BitVec 2 → Bool → Instr) :=
  [.aluAdd, .aluSub, .aluAnd, .aluOr, .aluXor, .aluShl, .aluShr, .aluSar, .aluRol, .aluRor, .aluMul, .aluMulh, .aluDiv,
   .aluRem, .aluMin, .aluMax, fun _ => .aluCmp, fun d a _ => .aluMov d a, fun d a _ => .aluNot d a,
   fun d a _ => .aluNeg d a, fun d a _ => .aluAbs d a, .aluSel]

/-- ALUI (R162). -/
def aluiClass : List (Reg → BitVec 16 → Instr) :=
  [.addi, .andi, .ori, .xori, .shli, .shri, .sari, .cmpi, .ldil, .ldih, .muli]

/-- LD (R167). -/
def ldClass : List (Reg → Reg → BitVec 15 → Instr) := [.ldb, .ldbs, .ldh, .ldhs, .ldw, .ldd]

/-- ST (R167); FN 1 and 3 are reserved. -/
def stClass : List (Option (Reg → Reg → BitVec 15 → Instr)) := [some .stb, none, some .sth, none, some .stw, some .std]

/-- FP (R164): Rd, Ra, Rb and P. -/
def fpClass : List (Reg → Reg → Reg → Bool → Instr) :=
  [.fadd, .fsub, .fmul, .fdiv, fun d a _ => .fsqrt d a, .fmin, .fmax, fun d a _ => .fabs d a, fun d a _ => .fneg d a,
   fun _ => .fcmp, fun d a _ => .fcvti d a, fun d a _ => .fcvtf d a, fun d a _ => .fcvtl d a, fun d a _ => .fcvtlf d a,
   fun d a _ => .fcvtp d a, fun d a _ => .ftrunc d a]

/-- QUE (R175). -/
def queClass : List (BitVec 5 → Reg → Instr) := [.qpush, .qpop, fun q _ => .qopen q, fun q _ => .qclose q, .qlvl]

/-! ### The instruction a word spells -/

/-- CTRL, OP 0 (R174). -/
def ctrlAt (w : Word) : Option Instr :=
  match bitsOf w 25 22 with
  | 0 => some .nop
  | 1 => some (.endInsn 0)
  | 2 => some (.trapInsn (fieldAt 16 w 0))
  | 3 => some .fence
  | _ => none

/-- TIM, OP 5 (R155, R156). -/
def timAt (w ext : Word) : Instr :=
  match bitsOf w 25 24 with
  | 0 => .timTon (timOperandAt w ext) 0
  | 1 => .timTof (timOperandAt w ext) 0
  | 2 => .timTp (timOperandAt w ext) 0
  | _ => .trst (regAt w 13) (fieldAt 13 w 0)

/-- The instruction of a word with its extension, by OP, whose reserved bits are not looked at (R137). -/
def instrAt (w ext : Word) : Option Instr :=
  match bitsOf w 31 26 with
  | 0x00 => ctrlAt w
  | 0x01 => (bitClass[bitsOf w 25 22]?).map fun f => f (bitOperandAt w ext)
  | 0x02 => (stkClass[bitsOf w 25 22]?).map fun f => f (fieldAt 4 w 0)
  | 0x03 => ([Instr.knotPush, Instr.knotAnd, Instr.knotOr][bitsOf w 25 24]?).map fun f => f (fieldAt 18 w 0)
  | 0x04 => ([Instr.edgeRising, Instr.edgeFalling, Instr.edgeBoth, Instr.unprime][bitsOf w 25 24]?).map fun f => f (fieldAt 16 w 0)
  | 0x05 => some (timAt w ext)
  | 0x08 => (aluClass[bitsOf w 25 20]?).map fun f => f (regAt w 16) (regAt w 12) (regAt w 8) (fieldAt 2 w 6) (w.getLsbD 5)
  | 0x09 => (aluiClass[bitsOf w 25 22]?).map fun f => f (regAt w 18) (fieldAt 16 w 0)
  | 0x0A => some (.ldi (regAt w 22) ext)
  | 0x0C => (ldClass[bitsOf w 25 23]?).map fun f => f (regAt w 19) (regAt w 15) (fieldAt 15 w 0)
  | 0x0D => ((stClass[bitsOf w 25 23]?).bind id).map fun f => f (regAt w 19) (regAt w 15) (fieldAt 15 w 0)
  | 0x0E => some ((if w.getLsbD 22 then Instr.stx else Instr.ldx) (fieldAt 3 w 23) (regAt w 18) ext)
  | 0x0F => ([Instr.movb, Instr.fillb][bitsOf w 25 24]?).map fun f => f (regAt w 20) (regAt w 16) (regAt w 12)
  | 0x10 => (fpClass[bitsOf w 25 20]?).map fun f => f (regAt w 16) (regAt w 12) (regAt w 8) (w.getLsbD 7)
  | 0x14 => some (.br (fieldAt 4 w 22) (fieldAt 22 w 0))
  | 0x15 => some (.call (regAt w 22) (fieldAt 22 w 0))
  | 0x16 => match bitsOf w 25 24 with
    | 0 => some (.jr (regAt w 16))
    | 1 => some (.callr (regAt w 20) (regAt w 16))
    | _ => none
  | 0x18 => (queClass[bitsOf w 25 22]?).map fun f => f (fieldAt 5 w 17) (regAt w 13)
  | 0x19 => some (.evt (fieldAt 4 w 22) (regAt w 18))
  | 0x1A => some (.trig (fieldAt 8 w 0))
  | 0x1B => some (if w.getLsbD 25 then .sysw (regAt w 21) (fieldAt 10 w 0) else .sysr (regAt w 21) (fieldAt 10 w 0) 0)
  | _ => none

/-- The SE instruction a word spells with its extension (R137); a reserved one is the row that raises ILLEGAL (R138). An
instruction that reads the time runs at the instant the machine has reached. -/
def decodeSe (w ext : Word) : Instr :=
  if Machine.reservedWord w ext then .reservedInstruction w ext
  else (instrAt w ext).getD (.reservedInstruction w ext)

/-- The SPI transfer of the bytes the host shifts (R63): the command byte, three bytes of the status word, and what
follows. No byte at all is no transfer. -/
def decodeSpi (bs : Bytes) (t : Nat) : Option Instr :=
  match bs with
  | [] => none
  | c :: _ =>
    let rest := bs.drop 4
    some (match c.toNat with
      | 1 => .spiStatus
      | 2 => .spiWrite rest t
      | 3 => .spiRead rest.length
      | _ => .spiReservedCode c rest.length)

/-- The command that the bits of a word spell: an SE instruction of one word or of two, or the command byte of an SPI
transfer. -/
def decodeTableWord (nbits w : Nat) : Option Instr :=
  if nbits = 8 then decodeSpi [BitVec.ofNat 8 w] 0
  else if nbits = 32 then some (decodeSe (BitVec.ofNat 32 w) 0)
  else if nbits = 64 then some (decodeSe (BitVec.ofNat 32 w) (BitVec.ofNat 32 (w / 2 ^ 32)))
  else none

end Sys2Proof
end

