-- ==== Sys2Proof/Machine/Crypto.lean ====
section
/-! DEFINITION. The checks and digests of the spec: CRC-16/CCITT-FALSE and CRC-32C (R37), the CRC-8 of
memory words (R416), SHA-256, HMAC-SHA-256 (R47, R48) and ECDSA over P-256 (R536). -/

namespace Sys2Proof.Machine

/-- One byte into CRC-16/CCITT-FALSE: polynomial 0x1021, not reflected (R37). -/
def crc16Byte (c : BitVec 16) (b : Byte) : BitVec 16 :=
  (List.range 8).foldl (fun c _ => if c.msb then (c <<< 1) ^^^ 0x1021 else c <<< 1)
    (c ^^^ ((b.zeroExtend 16) <<< 8))

/-- CRC-16/CCITT-FALSE of a byte run (R37). -/
def crc16 (bs : Bytes) : BitVec 16 := bs.foldl crc16Byte 0xFFFF

/-- One byte into CRC-32C: polynomial 0x1EDC6F41, reflected (R37). -/
def crc32cByte (c : BitVec 32) (b : Byte) : BitVec 32 :=
  (List.range 8).foldl (fun c _ => if c.getLsbD 0 then (c >>> 1) ^^^ 0x82F63B78 else c >>> 1)
    (c ^^^ b.zeroExtend 32)

/-- CRC-32C of a byte run (R37). -/
def crc32c (bs : Bytes) : BitVec 32 := (bs.foldl crc32cByte 0xFFFFFFFF) ^^^ 0xFFFFFFFF

/-- One byte into the CRC-8 of R416: polynomial 0x07, not reflected. -/
def crc8Byte (c b : BitVec 8) : BitVec 8 :=
  (List.range 8).foldl (fun c _ => if c.msb then (c <<< 1) ^^^ 0x07 else c <<< 1) (c ^^^ b)

/-- The word check of a 64-bit word (R416). -/
def wordCheck (d : BitVec 64) : BitVec 8 := (leBytes 8 d.toNat).foldl crc8Byte 0xFF

/-- The SHA-256 round constants as one number: the constant of round 0 stands in its highest 32 bits. -/
def shaTable : Nat :=
  0x428a2f9871374491b5c0fbcfe9b5dba53956c25b59f111f1923f82a4ab1c5ed5d807aa9812835b01243185be550c7dc372be5d7480deb1fe9bdc06a7c19bf174e49b69c1efbe47860fc19dc6240ca1cc2de92c6f4a7484aa5cb0a9dc76f988da983e5152a831c66db00327c8bf597fc7c6e00bf3d5a7914706ca63511429296727b70a852e1b21384d2c6dfc53380d13650a7354766a0abb81c2c92e92722c85a2bfe8a1a81a664bc24b8b70c76c51a3d192e819d6990624f40e3585106aa07019a4c1161e376c082748774c34b0bcb5391c0cb34ed8aa4a5b9cca4f682e6ff3748f82ee78a5636f84c878148cc7020890befffaa4506cebbef9a3f7c67178f2

/-- The constant of round `i`. -/
def shaK (i : Nat) : BitVec 32 := BitVec.ofNat 32 (shaTable >>> (32 * (63 - i)))

/-- The words of a big-endian byte run. -/
def beWords : Nat → Bytes → List (BitVec 32)
  | 0, _ => []
  | n + 1, bs => BitVec.ofNat 32 (beNat (bs.take 4)) :: beWords n (bs.drop 4)

/-- The SHA-256 hash value before the first block. -/
def shaInit : List (BitVec 32) :=
  beWords 8 (beBytes 32 0x6a09e667bb67ae853c6ef372a54ff53a510e527f9b05688c1f83d9ab5be0cd19)

/-- The mixing functions of SHA-256: a word rotated right by three counts, the three taken together. -/
def rot3 (x : BitVec 32) (i j k : Nat) : BitVec 32 := x.rotateRight i ^^^ (x.rotateRight j ^^^ x.rotateRight k)

/-- One round: the constant and the message word of the round come as their sum. -/
def shaRound : List (BitVec 32) → BitVec 32 → List (BitVec 32)
  | p0 :: p1 :: p2 :: p3 :: q0 :: q1 :: q2 :: q3 :: _, kw =>
    let t := kw + q3 + (q2 ^^^ (q0 &&& (q1 ^^^ q2))) + rot3 q0 6 11 25
    (t + rot3 p0 2 13 22 + ((p0 &&& p1) ||| (p2 &&& (p0 ||| p1)))) :: p0 :: p1 :: p2 :: (p3 + t) :: q0 :: q1 :: q2 :: []
  | h, _ => h

/-- Rounds `i` onwards, `n` of them, with the last 16 message words, oldest first: each round uses the oldest
word and makes the word 16 places on. -/
def shaRounds : Nat → Nat → List (BitVec 32) → List (BitVec 32) → List (BitVec 32)
  | 0, _, _, h => h
  | n + 1, i, win, h =>
    let x := win.getD 1 0
    let y := win.getD 14 0
    let new := win.getD 0 0 + win.getD 9 0 + (x.rotateRight 7 ^^^ (x.rotateRight 18 ^^^ x >>> 3)) +
      (y.rotateRight 17 ^^^ (y.rotateRight 19 ^^^ y >>> 10))
    shaRounds n (i + 1) (win.drop 1 ++ [new]) (shaRound h (shaK i + win.getD 0 0))

/-- One 64-byte block into the hash value. -/
def shaBlock (h : List (BitVec 32)) (blk : Bytes) : List (BitVec 32) :=
  List.zipWith (· + ·) h (shaRounds 64 0 (beWords 16 blk) h)

/-- All blocks of a padded message, `n` of them. -/
def shaBlocks : Nat → List (BitVec 32) → Bytes → List (BitVec 32)
  | 0, h, _ => h
  | n + 1, h, bs => shaBlocks n (shaBlock h (bs.take 64)) (bs.drop 64)

/-- SHA-256 of a byte run. -/
def sha256 (bs : Bytes) : Bytes :=
  let pad := (119 - bs.length % 64) % 64
  let msg := bs ++ [0x80] ++ List.replicate pad 0 ++ beBytes 8 (8 * bs.length)
  (shaBlocks (msg.length / 64) shaInit msg).flatMap fun w => beBytes 4 w.toNat

/-- HMAC-SHA-256 (R47, R48). -/
def hmac (key msg : Bytes) : Bytes :=
  let k := if key.length ≤ 64 then key else sha256 key
  let k := k ++ List.replicate (64 - k.length) 0
  sha256 ((k.map (· ^^^ 0x5c)) ++ sha256 ((k.map (· ^^^ 0x36)) ++ msg))

/-! ### ECDSA over P-256 -/

/-- The field prime of P-256. -/
def p256P : Nat := 0xffffffff00000001000000000000000000000000ffffffffffffffffffffffff
/-- The group order of P-256. -/
def p256N : Nat := 0xffffffff00000000ffffffffffffffffbce6faada7179e84f3b9cac2fc632551
/-- The curve constant b. -/
def p256B : Nat := 0x5ac635d8aa3a93e7b3ebbd55769886bc651d06b0cc53b0f63bce3c3e27d2604b
/-- The base point. -/
def p256G : Nat × Nat :=
  (0x6b17d1f2e12c4247f8bce6e563a440f277037d812deb33a0f4a13945d898c296,
   0x4fe342e2fe1a7f9b8ee7eb4a7c0f9e162bce33576b315ececbb6406837bf51f5)

/-- `b ^ e` modulo `m`, over `n` bits of `e`. -/
def powMod (m : Nat) : Nat → Nat → Nat → Nat
  | 0, _, _ => 1 % m
  | n + 1, b, e =>
    let r := powMod m n (b * b % m) (e / 2)
    if e % 2 = 1 then b * r % m else r

/-- The inverse modulo a prime. -/
def invMod (m a : Nat) : Nat := powMod m 256 (a % m) (m - 2)

/-- `a - b` modulo `m`. -/
def subMod (m a b : Nat) : Nat := (a % m + m - b % m) % m

/-- A point of the curve; `none` is the point at infinity. -/
abbrev Point := Option (Nat × Nat)

/-- The sum of two points of P-256. -/
def ptAdd : Point → Point → Point
  | none, q => q
  | p, none => p
  | some (x1, y1), some (x2, y2) =>
    let m := p256P
    if x1 = x2 && (y1 + y2) % m = 0 then none
    else
      let l := if x1 = x2 then subMod m (3 * x1 * x1) 3 * invMod m (2 * y1) % m
               else subMod m y2 y1 * invMod m (subMod m x2 x1) % m
      let x := subMod m (subMod m (l * l) x1) x2
      some (x, subMod m (l * subMod m x1 x) y1)

/-- `k` times a point, over `n` bits of `k`. -/
def ptMul : Nat → Nat → Point → Point
  | 0, _, _ => none
  | n + 1, k, p =>
    let r := ptMul n (k / 2) (ptAdd p p)
    if k % 2 = 1 then ptAdd p r else r

/-- ECDSA verification of a 64-byte signature (r, s big-endian) over a digest (R536). -/
def ecdsaOk (key : Nat × Nat) (digest sig : Bytes) : Bool :=
  let r := beNat (sig.take 32)
  let s := beNat ((sig.drop 32).take 32)
  let n := p256N
  if r = 0 || n ≤ r || s = 0 || n ≤ s then false
  else
    let w := invMod n s
    let z := beNat (digest.take 32)
    match ptAdd (ptMul 256 (z * w % n) (some p256G)) (ptMul 256 (r * w % n) (some key)) with
    | none => false
    | some (x, _) => x % n = r

end Sys2Proof.Machine
end

