-- ==== Sys2Proof/Config.lean ====
section
/-! DEFINITION. What an implementation fixes and the values the spec leaves open. Each is a constant
without a body, so that no proof can lean on a value of it. -/

namespace Sys2Proof

/-- A free value: what the spec leaves undefined or does not state. The step reads it at the counter
`State.freeN` and advances the counter (log entry 1). -/
opaque Config.freeValue : Nat → Nat

/-- The device's 16-byte nonces N_dev from its random number generator (R47; log entry 2). -/
opaque Config.nonce : Nat → BitVec 128

/-- Silicon revision SIREV, fixed (R614; log entry 3). -/
opaque Config.sirev : BitVec 16
/-- Boot ROM version SYS_ROMVER, fixed (R614; log entry 3). -/
opaque Config.romver : BitVec 32
/-- The 128-bit unique device identifier, words 0 to 3 (R614; log entry 3). -/
opaque Config.uid : Nat → BitVec 32
/-- The MAC address of each Ethernet port (R614; log entry 3). -/
opaque Config.mac : Nat → BitVec 48

/-- Versions of the parts of the factory image: TARGETs 1 to 5 (R536, R614; log entry 30). -/
opaque Config.partVersion : Nat → BitVec 32

/-- The fields of the capability record of a port in station mode that the spec leaves to the device (R313; log
entry 65). -/
opaque Config.stationCap : Nat → Nat

/-- The vendor public keys as points of P-256 (R536; log entry 4): key number to (x, y). -/
opaque Config.vendorKey : Nat → Nat × Nat

end Sys2Proof
end

