-- ==== Sys2Proof/Machine/RegMap.lean ====
section
/-! DEFINITION. The register map (R609 to R616 and the register table of each chapter): the address of
every register, its access type by bit masks (R6, R7), and its reset value. Registers of an array are
one row with up to two strides. -/

namespace Sys2Proof.Machine

/-- One row of the register map: the instances at `base + s1*i + s2*j` for `i < c1`, `j < c2`. A bit
of `rw`, `w1c`, `stg`, `wo` has that access type; any other bit is RO or reserved. `stop`: RW only in
STOP. `reset`: the value after reset (R613). -/
structure RegRow where
  name   : String
  base   : Nat
  s1     : Nat
  c1     : Nat
  s2     : Nat
  c2     : Nat
  rw     : Nat
  w1c    : Nat
  stg    : Nat
  wo     : Nat
  commit : Bool
  stop   : Bool
  reset  : Nat
  deriving DecidableEq, Repr

/-- CTXn_PERIOD (R90) -/
abbrev Addr.ctxPeriod (i : Nat) : Nat := 0x11000 + 32 * i
/-- CTXn_PHASE (R90) -/
abbrev Addr.ctxPhase (i : Nat) : Nat := 0x11004 + 32 * i
/-- CTXn_CTRL (R90) -/
abbrev Addr.ctxCtrl (i : Nat) : Nat := 0x11008 + 32 * i
/-- CTXn_TRIG (R90) -/
abbrev Addr.ctxTrig (i : Nat) : Nat := 0x1100c + 32 * i
/-- CTXn_ENTRY (R90) -/
abbrev Addr.ctxEntry (i : Nat) : Nat := 0x11010 + 32 * i
/-- CTXn_BUF (R90) -/
abbrev Addr.ctxBuf (i : Nat) : Nat := 0x11014 + 32 * i
/-- CTXn_STAT (R90) -/
abbrev Addr.ctxStat (i : Nat) : Nat := 0x11018 + 32 * i
/-- CTXn_TIME (R90) -/
abbrev Addr.ctxTime (i : Nat) : Nat := 0x1101c + 32 * i
/-- SHs_CFG (R124) -/
abbrev Addr.shCfg (i : Nat) : Nat := 0x10400 + 32 * i
/-- SHs_LIM (R124) -/
abbrev Addr.shLim (i : Nat) : Nat := 0x10404 + 32 * i
/-- SHs_STAT (R124) -/
abbrev Addr.shStat (i : Nat) : Nat := 0x10408 + 32 * i
/-- SHs_PHASE (R124) -/
abbrev Addr.shPhase (i : Nat) : Nat := 0x1040c + 32 * i
/-- SHs_COUNT (R124) -/
abbrev Addr.shCount (i : Nat) : Nat := 0x10410 + 32 * i
/-- SHs_PERIOD (R124) -/
abbrev Addr.shPeriod (i : Nat) : Nat := 0x10414 + 32 * i
/-- SHs_STAMP_LO (R124) -/
abbrev Addr.shStampLo (i : Nat) : Nat := 0x10418 + 32 * i
/-- SHs_STAMP_HI (R124) -/
abbrev Addr.shStampHi (i : Nat) : Nat := 0x1041c + 32 * i
/-- TMBi word 0 (R153) -/
abbrev Addr.tmbW0 (i : Nat) : Nat := 0x20000 + 8 * i
/-- TMBi word 1 (R153) -/
abbrev Addr.tmbW1 (i : Nat) : Nat := 0x20004 + 8 * i
/-- SE_EDGE_IDX (R181) -/
abbrev Addr.seEdgeIdx : Nat := 0x10050
/-- SE_EDGE_DATA (R181) -/
abbrev Addr.seEdgeData : Nat := 0x10054
/-- SE_TRAP (R181) -/
abbrev Addr.seTrap : Nat := 0x10060
/-- SE_TRAP_PC (R181) -/
abbrev Addr.seTrapPc : Nat := 0x10064
/-- SE_TRAP_ADDR (R181) -/
abbrev Addr.seTrapAddr : Nat := 0x10068
/-- SE_TRAP_CNT (R181) -/
abbrev Addr.seTrapCnt : Nat := 0x1006c
/-- SE_HOTn (R181) -/
abbrev Addr.seHot (i : Nat) : Nat := 0x10800 + 4 * i
/-- SE_SWAP_STAT (R211) -/
abbrev Addr.seSwapStat : Nat := 0x10070
/-- SE_SWAP_MIG (R211) -/
abbrev Addr.seSwapMig : Nat := 0x10074
/-- SE_SWAP_TIME (R211) -/
abbrev Addr.seSwapTime : Nat := 0x10078
/-- SE_SWAP_ERRADDR (R211) -/
abbrev Addr.seSwapErraddr : Nat := 0x1007c
/-- SE_CHAMBER_DIGEST0–7 (R211) -/
abbrev Addr.seChamberDigest (i : Nat) : Nat := 0x100d0 + 4 * i
/-- SE_RUN_DIGEST0–7 (R211) -/
abbrev Addr.seRunDigest (i : Nat) : Nat := 0x100f0 + 4 * i
/-- IXE_POINT 0x00 (R219) -/
abbrev Addr.ixePoint00 (i : Nat) : Nat := 0x30780000 + 64 * i
/-- IXE_POINT 0x04 (R219) -/
abbrev Addr.ixePoint04 (i : Nat) : Nat := 0x30780004 + 64 * i
/-- IXE_POINT 0x08 (R219) -/
abbrev Addr.ixePoint08 (i : Nat) : Nat := 0x30780008 + 64 * i
/-- IXE_POINT 0x0C (R219) -/
abbrev Addr.ixePoint0c (i : Nat) : Nat := 0x3078000c + 64 * i
/-- IXE_POINT 0x10 (R219) -/
abbrev Addr.ixePoint10 (i : Nat) : Nat := 0x30780010 + 64 * i
/-- IXE_POINT 0x14 (R219) -/
abbrev Addr.ixePoint14 (i : Nat) : Nat := 0x30780014 + 64 * i
/-- IXE_POINT 0x18 (R219) -/
abbrev Addr.ixePoint18 (i : Nat) : Nat := 0x30780018 + 64 * i
/-- IXE_POINT 0x20 (R219) -/
abbrev Addr.ixePoint20 (i : Nat) : Nat := 0x30780020 + 64 * i
/-- IXE_POINT 0x24 (R219) -/
abbrev Addr.ixePoint24 (i : Nat) : Nat := 0x30780024 + 64 * i
/-- IXE_POINT 0x28 (R219) -/
abbrev Addr.ixePoint28 (i : Nat) : Nat := 0x30780028 + 64 * i
/-- IXE_POINT 0x2C (R219) -/
abbrev Addr.ixePoint2c (i : Nat) : Nat := 0x3078002c + 64 * i
/-- IXE_POINT 0x30 (R219) -/
abbrev Addr.ixePoint30 (i : Nat) : Nat := 0x30780030 + 64 * i
/-- IXE_POINT 0x34 (R219) -/
abbrev Addr.ixePoint34 (i : Nat) : Nat := 0x30780034 + 64 * i
/-- IXE_POINT 0x38 (R219) -/
abbrev Addr.ixePoint38 (i : Nat) : Nat := 0x30780038 + 64 * i
/-- IXE_PROFILE 0x000 (R226) -/
abbrev Addr.ixeProfile00 (i : Nat) : Nat := 0x307e0000 + 256 * i
/-- IXE_PROFILE 0x004 (R226) -/
abbrev Addr.ixeProfile04 (i : Nat) : Nat := 0x307e0004 + 256 * i
/-- IXE_PROFILE 0x008 (R226) -/
abbrev Addr.ixeProfile08 (i : Nat) : Nat := 0x307e0008 + 256 * i
/-- IXE_PROFILE 0x00C (R226) -/
abbrev Addr.ixeProfile0c (i : Nat) : Nat := 0x307e000c + 256 * i
/-- IXE_PROFILE 0x010 (R226) -/
abbrev Addr.ixeProfile10 (i : Nat) : Nat := 0x307e0010 + 256 * i
/-- IXE_PROFILE 0x014 (R226) -/
abbrev Addr.ixeProfile14 (i : Nat) : Nat := 0x307e0014 + 256 * i
/-- IXE_PROFILE 0x018 (R226) -/
abbrev Addr.ixeProfile18 (i : Nat) : Nat := 0x307e0018 + 256 * i
/-- IXE_PROFILE 0x01C (R226) -/
abbrev Addr.ixeProfile1c (i : Nat) : Nat := 0x307e001c + 256 * i
/-- IXE_PROFILE ABS_ALERT[f] (R226) -/
abbrev Addr.ixeProfileAbsAlert (i j : Nat) : Nat := 0x307e0040 + 256 * i + 8 * j
/-- IXE_PROFILE ABS_DANGER[f] (R226) -/
abbrev Addr.ixeProfileAbsDanger (i j : Nat) : Nat := 0x307e0044 + 256 * i + 8 * j
/-- IXE_VOTE 0x00 (R231) -/
abbrev Addr.ixeVote00 (i : Nat) : Nat := 0x307f0000 + 32 * i
/-- IXE_VOTE MEMBERS (R231) -/
abbrev Addr.ixeVoteMembers (i j : Nat) : Nat := 0x307f0004 + 32 * i + 4 * j
/-- IXE_CTRL (R237) -/
abbrev Addr.ixeCtrl : Nat := 0x30000
/-- IXE_STAT (R237) -/
abbrev Addr.ixeStat : Nat := 0x30004
/-- IXE_COMMIT (R237) -/
abbrev Addr.ixeCommit : Nat := 0x30008
/-- IXE_CFG (R237) -/
abbrev Addr.ixeCfg : Nat := 0x3000c
/-- IXE_RECORDS (R237) -/
abbrev Addr.ixeRecords : Nat := 0x30010
/-- IXE_DROP_FMT (R237) -/
abbrev Addr.ixeDropFmt : Nat := 0x30014
/-- IXE_DROP_UNMAP (R237) -/
abbrev Addr.ixeDropUnmap : Nat := 0x30018
/-- IXE_DROP_SRC (R237) -/
abbrev Addr.ixeDropSrc : Nat := 0x3001c
/-- IXE_DROP_SEQ (R237) -/
abbrev Addr.ixeDropSeq : Nat := 0x30020
/-- IXE_MISSED (R237) -/
abbrev Addr.ixeMissed : Nat := 0x30024
/-- IXE_NOBIN (R237) -/
abbrev Addr.ixeNobin : Nat := 0x30028
/-- IXE_LAT (R237) -/
abbrev Addr.ixeLat : Nat := 0x3002c
/-- IXE_RATE (R237) -/
abbrev Addr.ixeRate : Nat := 0x30030
/-- IXE_CLR (R237) -/
abbrev Addr.ixeClr : Nat := 0x30034
/-- IXE_SHs_EDGEe (R237) -/
abbrev Addr.ixeShEdge (i : Nat) : Nat := 0x30100 + 4 * i
/-- FBPn_TXBUFb word 0 (R256) -/
abbrev Addr.fbpTxbufW0 (i j : Nat) : Nat := 0x44000 + 3072 * i + 16 * j
/-- FBPn_TXBUFb word 1 (R256) -/
abbrev Addr.fbpTxbufW1 (i j : Nat) : Nat := 0x44004 + 3072 * i + 16 * j
/-- FBPn_TXBUFb word 2 (R256) -/
abbrev Addr.fbpTxbufW2 (i j : Nat) : Nat := 0x44008 + 3072 * i + 16 * j
/-- FBPn_TXBUFb word 3 (R256) -/
abbrev Addr.fbpTxbufW3 (i j : Nat) : Nat := 0x4400c + 3072 * i + 16 * j
/-- FBPn_FILTERf word 0 (R266) -/
abbrev Addr.fbpFilterW0 (i j : Nat) : Nat := 0x44400 + 3072 * i + 16 * j
/-- FBPn_FILTERf word 1 (R266) -/
abbrev Addr.fbpFilterW1 (i j : Nat) : Nat := 0x44404 + 3072 * i + 16 * j
/-- FBPn_FILTERf word 2 (R266) -/
abbrev Addr.fbpFilterW2 (i j : Nat) : Nat := 0x44408 + 3072 * i + 16 * j
/-- FBPn_FILTERf word 3 (R266) -/
abbrev Addr.fbpFilterW3 (i j : Nat) : Nat := 0x4440c + 3072 * i + 16 * j
/-- FBPn_CTRL (R288) -/
abbrev Addr.fbpCtrl (i : Nat) : Nat := 0x40000 + 1024 * i
/-- FBPn_NBT (R288) -/
abbrev Addr.fbpNbt (i : Nat) : Nat := 0x40004 + 1024 * i
/-- FBPn_DBT (R288) -/
abbrev Addr.fbpDbt (i : Nat) : Nat := 0x40008 + 1024 * i
/-- FBPn_COMMIT (R288) -/
abbrev Addr.fbpCommit (i : Nat) : Nat := 0x4000c + 1024 * i
/-- FBPn_CFG (R288) -/
abbrev Addr.fbpCfg (i : Nat) : Nat := 0x40010 + 1024 * i
/-- FBPn_STAT (R288) -/
abbrev Addr.fbpStat (i : Nat) : Nat := 0x40014 + 1024 * i
/-- FBPn_ERRC (R288) -/
abbrev Addr.fbpErrc (i : Nat) : Nat := 0x40018 + 1024 * i
/-- FBPn_TDCV (R288) -/
abbrev Addr.fbpTdcv (i : Nat) : Nat := 0x4001c + 1024 * i
/-- FBPn_RECOVER (R288) -/
abbrev Addr.fbpRecover (i : Nat) : Nat := 0x40020 + 1024 * i
/-- FBPn_TXREQ_LO (R288) -/
abbrev Addr.fbpTxreqLo (i : Nat) : Nat := 0x40024 + 1024 * i
/-- FBPn_TXREQ_HI (R288) -/
abbrev Addr.fbpTxreqHi (i : Nat) : Nat := 0x40028 + 1024 * i
/-- FBPn_TXCAN_LO (R288) -/
abbrev Addr.fbpTxcanLo (i : Nat) : Nat := 0x4002c + 1024 * i
/-- FBPn_TXCAN_HI (R288) -/
abbrev Addr.fbpTxcanHi (i : Nat) : Nat := 0x40030 + 1024 * i
/-- FBPn_TXPEND_LO (R288) -/
abbrev Addr.fbpTxpendLo (i : Nat) : Nat := 0x40034 + 1024 * i
/-- FBPn_TXPEND_HI (R288) -/
abbrev Addr.fbpTxpendHi (i : Nat) : Nat := 0x40038 + 1024 * i
/-- FBPn_RXOK (R288) -/
abbrev Addr.fbpRxok (i : Nat) : Nat := 0x40040 + 1024 * i
/-- FBPn_TXOK (R288) -/
abbrev Addr.fbpTxok (i : Nat) : Nat := 0x40044 + 1024 * i
/-- FBPn_BUSOFF (R288) -/
abbrev Addr.fbpBusoff (i : Nat) : Nat := 0x40048 + 1024 * i
/-- FBPn_STALE (R288) -/
abbrev Addr.fbpStale (i : Nat) : Nat := 0x4004c + 1024 * i
/-- FBPn_P_FAIL (R288) -/
abbrev Addr.fbpPFail (i : Nat) : Nat := 0x40050 + 1024 * i
/-- FBPn_RX_NOMATCH (R288) -/
abbrev Addr.fbpRxNomatch (i : Nat) : Nat := 0x40054 + 1024 * i
/-- FBPn_RX_RTR (R288) -/
abbrev Addr.fbpRxRtr (i : Nat) : Nat := 0x40058 + 1024 * i
/-- FBPn_RX_QLOSS (R288) -/
abbrev Addr.fbpRxQloss (i : Nat) : Nat := 0x4005c + 1024 * i
/-- FBPn_REQ_IGN (R288) -/
abbrev Addr.fbpReqIgn (i : Nat) : Nat := 0x40060 + 1024 * i
/-- FBPn_PEX (R288) -/
abbrev Addr.fbpPex (i : Nat) : Nat := 0x40064 + 1024 * i
/-- FBPn_CLR (R288) -/
abbrev Addr.fbpClr (i : Nat) : Nat := 0x40068 + 1024 * i
/-- FBPn_TDR_CFG (R288) -/
abbrev Addr.fbpTdrCfg (i : Nat) : Nat := 0x40080 + 1024 * i
/-- FBPn_TDR_STAT (R288) -/
abbrev Addr.fbpTdrStat (i : Nat) : Nat := 0x40084 + 1024 * i
/-- FBPn_TDR_RDC (R288) -/
abbrev Addr.fbpTdrRdc (i : Nat) : Nat := 0x40088 + 1024 * i
/-- FBPn_TDR_REFL0–3 (R288) -/
abbrev Addr.fbpTdrRefl (i j : Nat) : Nat := 0x40090 + 1024 * i + 4 * j
/-- FBPn_TT_CFG (R291) -/
abbrev Addr.fbpTtCfg (i : Nat) : Nat := 0x40200 + 1024 * i
/-- FBPn_TT_BCLEN (R291) -/
abbrev Addr.fbpTtBclen (i : Nat) : Nat := 0x40204 + 1024 * i
/-- FBPn_TT_BEACON (R291) -/
abbrev Addr.fbpTtBeacon (i : Nat) : Nat := 0x40208 + 1024 * i
/-- FBPn_TT_SMOFF (R291) -/
abbrev Addr.fbpTtSmoff (i : Nat) : Nat := 0x4020c + 1024 * i
/-- FBPn_TT_STAT (R291) -/
abbrev Addr.fbpTtStat (i : Nat) : Nat := 0x40210 + 1024 * i
/-- FBPn_TT_REFSEQ (R291) -/
abbrev Addr.fbpTtRefseq (i : Nat) : Nat := 0x40214 + 1024 * i
/-- FBPn_TT_WINw word 0 (R293) -/
abbrev Addr.fbpTtWinW0 (i j : Nat) : Nat := 0x40300 + 1024 * i + 8 * j
/-- FBPn_TT_WINw word 1 (R293) -/
abbrev Addr.fbpTtWinW1 (i j : Nat) : Nat := 0x40304 + 1024 * i + 8 * j
/-- STN_ENTRY word 0 (R325) -/
abbrev Addr.stnEntryW0 (i : Nat) : Nat := 0x50000 + 32 * i
/-- STN_ENTRY word 1 (R325) -/
abbrev Addr.stnEntryW1 (i : Nat) : Nat := 0x50004 + 32 * i
/-- STN_ENTRY word 2 (R325) -/
abbrev Addr.stnEntryW2 (i : Nat) : Nat := 0x50008 + 32 * i
/-- STN_ENTRY word 3 (R325) -/
abbrev Addr.stnEntryW3 (i : Nat) : Nat := 0x5000c + 32 * i
/-- STN_ENTRY word 4 (R325) -/
abbrev Addr.stnEntryW4 (i : Nat) : Nat := 0x50010 + 32 * i
/-- STN_ENTRY word 5 (R325) -/
abbrev Addr.stnEntryW5 (i : Nat) : Nat := 0x50014 + 32 * i
/-- STN_ENTRY word 6 (R325) -/
abbrev Addr.stnEntryW6 (i : Nat) : Nat := 0x50018 + 32 * i
/-- STN_ENTRY word 7 (R325) -/
abbrev Addr.stnEntryW7 (i : Nat) : Nat := 0x5001c + 32 * i
/-- STN_PCTRLn (R327) -/
abbrev Addr.stnPctrl (i : Nat) : Nat := 0x5c000 + 32 * i
/-- STN_COMMITn (R327) -/
abbrev Addr.stnCommit (i : Nat) : Nat := 0x5c004 + 32 * i
/-- STN_CFGn (R327) -/
abbrev Addr.stnCfg (i : Nat) : Nat := 0x5c008 + 32 * i
/-- STN_DROP_STN (R327) -/
abbrev Addr.stnDropStn (i : Nat) : Nat := 0x5c00c + 32 * i
/-- STN_DROP_FMT (R327) -/
abbrev Addr.stnDropFmt (i : Nat) : Nat := 0x5c010 + 32 * i
/-- STN_LOSSES (R327) -/
abbrev Addr.stnLosses (i : Nat) : Nat := 0x5c014 + 32 * i
/-- STN_CLR (R327) -/
abbrev Addr.stnClr (i : Nat) : Nat := 0x5c018 + 32 * i
/-- CHn_CFG (R364) -/
abbrev Addr.chCfg (i : Nat) : Nat := 0x60000 + 64 * i
/-- CHn_LM (R364) -/
abbrev Addr.chLm (i : Nat) : Nat := 0x60004 + 64 * i
/-- CHn_STAT (R364) -/
abbrev Addr.chStat (i : Nat) : Nat := 0x60008 + 64 * i
/-- CHn_DIAGCLR (R364) -/
abbrev Addr.chDiagclr (i : Nat) : Nat := 0x6000c + 64 * i
/-- CHn_LOAD_R (R364) -/
abbrev Addr.chLoadR (i : Nat) : Nat := 0x60010 + 64 * i
/-- CHn_LOAD_L (R364) -/
abbrev Addr.chLoadL (i : Nat) : Nat := 0x60014 + 64 * i
/-- CHn_CURRENT (R364) -/
abbrev Addr.chCurrent (i : Nat) : Nat := 0x60018 + 64 * i
/-- CHn_TACH (R364) -/
abbrev Addr.chTach (i : Nat) : Nat := 0x6001c + 64 * i
/-- CHn_SWITCH (R364) -/
abbrev Addr.chSwitch (i : Nat) : Nat := 0x60020 + 64 * i
/-- GRPg_CFG (R364) -/
abbrev Addr.grpCfg (i : Nat) : Nat := 0x60c00 + 64 * i
/-- GRPg_STAT (R364) -/
abbrev Addr.grpStat (i : Nat) : Nat := 0x60c04 + 64 * i
/-- GRPg_ACK (R364) -/
abbrev Addr.grpAck (i : Nat) : Nat := 0x60c08 + 64 * i
/-- GRPg_CURRENT (R364) -/
abbrev Addr.grpCurrent (i : Nat) : Nat := 0x60c0c + 64 * i
/-- GRPg_COUNT (R364) -/
abbrev Addr.grpCount (i : Nat) : Nat := 0x60c10 + 64 * i
/-- FIO_COMMIT (R364) -/
abbrev Addr.fioCommit : Nat := 0x60e00
/-- FIO_CFG (R364) -/
abbrev Addr.fioCfg : Nat := 0x60e04
/-- FIO_IMG (R364) -/
abbrev Addr.fioImg : Nat := 0x60e08
/-- FIO_STAT (R364) -/
abbrev Addr.fioStat : Nat := 0x60e0c
/-- TWL_CFG (R412) -/
abbrev Addr.twlCfg : Nat := 0x70000
/-- TWL_STAGE (R412) -/
abbrev Addr.twlStage : Nat := 0x70004
/-- TWL_COMMIT (R412) -/
abbrev Addr.twlCommit : Nat := 0x70008
/-- TWL_CFGSTAT (R412) -/
abbrev Addr.twlCfgstat : Nat := 0x7000c
/-- TWL_STAT (R412) -/
abbrev Addr.twlStat : Nat := 0x70010
/-- TWL_CLAIM (R412) -/
abbrev Addr.twlClaim : Nat := 0x70014
/-- TWL_DELAY (R412) -/
abbrev Addr.twlDelay : Nat := 0x70018
/-- TWL_MIRROR (R412) -/
abbrev Addr.twlMirror : Nat := 0x7001c
/-- TWL_CRCERR (R412) -/
abbrev Addr.twlCrcerr : Nat := 0x70020
/-- TWL_RETRANS (R412) -/
abbrev Addr.twlRetrans : Nat := 0x70024
/-- TWL_LINKDOWN (R412) -/
abbrev Addr.twlLinkdown : Nat := 0x70028
/-- TWL_DISCARD (R412) -/
abbrev Addr.twlDiscard : Nat := 0x7002c
/-- TWL_SHRESYNC (R412) -/
abbrev Addr.twlShresync : Nat := 0x70030
/-- TWL_PALILOSS (R412) -/
abbrev Addr.twlPaliloss : Nat := 0x70034
/-- TWL_CLR (R412) -/
abbrev Addr.twlClr : Nat := 0x70038
/-- TWL_JOINERR (R412) -/
abbrev Addr.twlJoinerr : Nat := 0x7003c
/-- MIU_STAT (R441) -/
abbrev Addr.miuStat : Nat := 0x80000
/-- MIU_REBUILDS (R441) -/
abbrev Addr.miuRebuilds : Nat := 0x80004
/-- MIU_SCRUB_REB (R441) -/
abbrev Addr.miuScrubReb : Nat := 0x80008
/-- MIU_UNCORR (R441) -/
abbrev Addr.miuUncorr : Nat := 0x8000c
/-- MIU_IMGFIX (R441) -/
abbrev Addr.miuImgfix : Nat := 0x80010
/-- MIU_SPLICE_DROP (R441) -/
abbrev Addr.miuSpliceDrop : Nat := 0x80014
/-- MIU_LAST_ADDR (R441) -/
abbrev Addr.miuLastAddr : Nat := 0x80018
/-- MIU_ERR_ADDR (R441) -/
abbrev Addr.miuErrAddr : Nat := 0x8001c
/-- MIU_ERR_INFO (R441) -/
abbrev Addr.miuErrInfo : Nat := 0x80020
/-- MIU_FIRST_ADDR (R441) -/
abbrev Addr.miuFirstAddr : Nat := 0x80024
/-- MIU_TEST (R441) -/
abbrev Addr.miuTest : Nat := 0x80030
/-- MIU_CLR (R441) -/
abbrev Addr.miuClr : Nat := 0x80034
/-- RSM_CTRL (R468) -/
abbrev Addr.rsmCtrl : Nat := 0x90000
/-- RSM_STAT (R468) -/
abbrev Addr.rsmStat : Nat := 0x90004
/-- RSM_COMMIT (R468) -/
abbrev Addr.rsmCommit : Nat := 0x90008
/-- RSM_CFG (R468) -/
abbrev Addr.rsmCfg : Nat := 0x9000c
/-- RSM_ARMSEQ (R468) -/
abbrev Addr.rsmArmseq : Nat := 0x90010
/-- RSM_RETSEQ (R468) -/
abbrev Addr.rsmRetseq : Nat := 0x90014
/-- RSM_REFRESH (R468) -/
abbrev Addr.rsmRefresh : Nat := 0x90018
/-- RSM_MARGINFAIL (R468) -/
abbrev Addr.rsmMarginfail : Nat := 0x9001c
/-- RSM_EGY_DROP (R468) -/
abbrev Addr.rsmEgyDrop : Nat := 0x90020
/-- RSM_RECLOST (R468) -/
abbrev Addr.rsmReclost : Nat := 0x90024
/-- RSM_ERR_ADDR (R468) -/
abbrev Addr.rsmErrAddr : Nat := 0x90028
/-- RSM_WDROP (R468) -/
abbrev Addr.rsmWdrop : Nat := 0x9002c
/-- RSM_CLR (R468) -/
abbrev Addr.rsmClr : Nat := 0x90030
/-- RSM_RETTIME (R468) -/
abbrev Addr.rsmRettime : Nat := 0x90034
/-- RSM_REGr_A (R468) -/
abbrev Addr.rsmRegA (i : Nat) : Nat := 0x90100 + 8 * i
/-- RSM_REGr_B (R468) -/
abbrev Addr.rsmRegB (i : Nat) : Nat := 0x90104 + 8 * i
/-- EVR_RATEi word 0 (R478) -/
abbrev Addr.evrRateW0 (i : Nat) : Nat := 0xa0800 + 8 * i
/-- EVR_RATEi word 1 (R478) -/
abbrev Addr.evrRateW1 (i : Nat) : Nat := 0xa0804 + 8 * i
/-- EVR_STAT (R482) -/
abbrev Addr.evrStat : Nat := 0xa0000
/-- EVR_RSEQ (R482) -/
abbrev Addr.evrRseq : Nat := 0xa0004
/-- EVR_LOST (R482) -/
abbrev Addr.evrLost : Nat := 0xa0008
/-- EVR_SUPP (R482) -/
abbrev Addr.evrSupp : Nat := 0xa000c
/-- EVR_CTRL (R482) -/
abbrev Addr.evrCtrl : Nat := 0xa0010
/-- EVR_COMMIT (R482) -/
abbrev Addr.evrCommit : Nat := 0xa0014
/-- EVR_CFG (R482) -/
abbrev Addr.evrCfg : Nat := 0xa0018
/-- EVR_CLR (R482) -/
abbrev Addr.evrClr : Nat := 0xa001c
/-- QnCFG (R484) -/
abbrev Addr.qCfg (i : Nat) : Nat := 0xd0000 + 32 * i
/-- QnBASE (R484) -/
abbrev Addr.qBase (i : Nat) : Nat := 0xd0004 + 32 * i
/-- QnDEPTH (R484) -/
abbrev Addr.qDepth (i : Nat) : Nat := 0xd0008 + 32 * i
/-- QnSTAT (R484) -/
abbrev Addr.qStat (i : Nat) : Nat := 0xd000c + 32 * i
/-- QnDATA_LO (R484) -/
abbrev Addr.qDataLo (i : Nat) : Nat := 0xd0010 + 32 * i
/-- QnDATA_HI (R484) -/
abbrev Addr.qDataHi (i : Nat) : Nat := 0xd0014 + 32 * i
/-- QnPUSH (R484) -/
abbrev Addr.qPush (i : Nat) : Nat := 0xd0018 + 32 * i
/-- QnUSED (R484) -/
abbrev Addr.qUsed (i : Nat) : Nat := 0xd001c + 32 * i
/-- DMAc_CFG (R495) -/
abbrev Addr.dmaCfg (i : Nat) : Nat := 0xd0800 + 32 * i
/-- DMAc_SRC (R495) -/
abbrev Addr.dmaSrc (i : Nat) : Nat := 0xd0804 + 32 * i
/-- DMAc_DST (R495) -/
abbrev Addr.dmaDst (i : Nat) : Nat := 0xd0808 + 32 * i
/-- DMAc_LEN (R495) -/
abbrev Addr.dmaLen (i : Nat) : Nat := 0xd080c + 32 * i
/-- DMAc_GO (R495) -/
abbrev Addr.dmaGo (i : Nat) : Nat := 0xd0810 + 32 * i
/-- DMAc_STAT (R495) -/
abbrev Addr.dmaStat (i : Nat) : Nat := 0xd0814 + 32 * i
/-- DMAc_ERRADDR (R495) -/
abbrev Addr.dmaErraddr (i : Nat) : Nat := 0xd0818 + 32 * i
/-- DMAc_COUNT (R495) -/
abbrev Addr.dmaCount (i : Nat) : Nat := 0xd081c + 32 * i
/-- RTC_SEC (R517) -/
abbrev Addr.rtcSec : Nat := 0xb0000
/-- RTC_MIN (R517) -/
abbrev Addr.rtcMin : Nat := 0xb0004
/-- RTC_HOUR (R517) -/
abbrev Addr.rtcHour : Nat := 0xb0008
/-- RTC_DAY (R517) -/
abbrev Addr.rtcDay : Nat := 0xb000c
/-- RTC_MON (R517) -/
abbrev Addr.rtcMon : Nat := 0xb0010
/-- RTC_WDAY (R517) -/
abbrev Addr.rtcWday : Nat := 0xb0014
/-- RTC_YEAR (R517) -/
abbrev Addr.rtcYear : Nat := 0xb0018
/-- RTC_SEQ (R517) -/
abbrev Addr.rtcSeq : Nat := 0xb001c
/-- RTC_SET_HMS (R517) -/
abbrev Addr.rtcSetHms : Nat := 0xb0020
/-- RTC_SET_DATE (R517) -/
abbrev Addr.rtcSetDate : Nat := 0xb0024
/-- RTC_COMMIT (R517) -/
abbrev Addr.rtcCommit : Nat := 0xb0028
/-- RTC_CFG (R517) -/
abbrev Addr.rtcCfg : Nat := 0xb002c
/-- RTC_STAT (R517) -/
abbrev Addr.rtcStat : Nat := 0xb0030
/-- RTC_TRIM (R517) -/
abbrev Addr.rtcTrim : Nat := 0xb0034
/-- RTC_CHG (R517) -/
abbrev Addr.rtcChg : Nat := 0xb0038
/-- RTC_STAMP_LO (R517) -/
abbrev Addr.rtcStampLo : Nat := 0xb003c
/-- RTC_STAMP_HI (R517) -/
abbrev Addr.rtcStampHi : Nat := 0xb0040
/-- WDT_CFG (R530) -/
abbrev Addr.wdtCfg : Nat := 0xb1000
/-- WDT_SLOTEN (R530) -/
abbrev Addr.wdtSloten : Nat := 0xb1004
/-- WDT_KEY (R530) -/
abbrev Addr.wdtKey : Nat := 0xb1008
/-- WDT_CHECKIN (R530) -/
abbrev Addr.wdtCheckin : Nat := 0xb100c
/-- WDT_STAT (R530) -/
abbrev Addr.wdtStat : Nat := 0xb1010
/-- WDT_ELAPSED (R530) -/
abbrev Addr.wdtElapsed : Nat := 0xb1014
/-- WDT_CFGIGN (R530) -/
abbrev Addr.wdtCfgign : Nat := 0xb1018
/-- WDT_KEYERR (R530) -/
abbrev Addr.wdtKeyerr : Nat := 0xb101c
/-- WDT_MISSES (R530) -/
abbrev Addr.wdtMisses : Nat := 0xb1020
/-- WDT_WARNS (R530) -/
abbrev Addr.wdtWarns : Nat := 0xb1024
/-- WDT_SLOTk (R530) -/
abbrev Addr.wdtSlot (i : Nat) : Nat := 0xb1040 + 4 * i
/-- FWU_STAT (R559) -/
abbrev Addr.fwuStat : Nat := 0xc0000
/-- FWU_NEXT (R559) -/
abbrev Addr.fwuNext : Nat := 0xc0004
/-- FWU_TOTAL (R559) -/
abbrev Addr.fwuTotal : Nat := 0xc0008
/-- FWU_REMAIN (R559) -/
abbrev Addr.fwuRemain : Nat := 0xc000c
/-- FWU_VER_RUN (R559) -/
abbrev Addr.fwuVerRun : Nat := 0xc0010
/-- FWU_VER_OTHER (R559) -/
abbrev Addr.fwuVerOther : Nat := 0xc0014
/-- FWU_STN (R559) -/
abbrev Addr.fwuStn : Nat := 0xc0018
/-- PWR_STAT (R589) -/
abbrev Addr.pwrStat : Nat := 0x1000
/-- PWR_CFG (R589) -/
abbrev Addr.pwrCfg : Nat := 0x1004
/-- PWR_COMMIT (R589) -/
abbrev Addr.pwrCommit : Nat := 0x1008
/-- PWR_CFGSTAT (R589) -/
abbrev Addr.pwrCfgstat : Nat := 0x100c
/-- PWR_V0 (R589) -/
abbrev Addr.pwrV0 : Nat := 0x1010
/-- PWR_V1 (R589) -/
abbrev Addr.pwrV1 : Nat := 0x1014
/-- PWR_V2 (R589) -/
abbrev Addr.pwrV2 : Nat := 0x1018
/-- PWR_V3 (R589) -/
abbrev Addr.pwrV3 : Nat := 0x101c
/-- PWR_TEMP (R589) -/
abbrev Addr.pwrTemp : Nat := 0x1020
/-- PWR_PFW (R589) -/
abbrev Addr.pwrPfw : Nat := 0x1024
/-- CLK_STAT (R589) -/
abbrev Addr.clkStat : Nat := 0x1040
/-- RST_CAUSE (R589) -/
abbrev Addr.rstCause : Nat := 0x1080
/-- STORE_CTRL (R589) -/
abbrev Addr.storeCtrl : Nat := 0x10c0
/-- STORE_STAT (R589) -/
abbrev Addr.storeStat : Nat := 0x10c4
/-- SYS_DEVICE (R614) -/
abbrev Addr.sysDevice : Nat := 0x0
/-- SYS_REV (R614) -/
abbrev Addr.sysRev : Nat := 0x4
/-- SYS_FWVER (R614) -/
abbrev Addr.sysFwver : Nat := 0x8
/-- SYS_ROMVER (R614) -/
abbrev Addr.sysRomver : Nat := 0xc
/-- SYS_SEVER (R614) -/
abbrev Addr.sysSever : Nat := 0x10
/-- SYS_IXEVER (R614) -/
abbrev Addr.sysIxever : Nat := 0x14
/-- SYS_HVVER (R614) -/
abbrev Addr.sysHvver : Nat := 0x18
/-- SYS_TWLVER (R614) -/
abbrev Addr.sysTwlver : Nat := 0x1c
/-- SYS_UID0–SYS_UID3 (R614) -/
abbrev Addr.sysUid (i : Nat) : Nat := 0x20 + 4 * i
/-- SYS_MAC0_LO (R614) -/
abbrev Addr.sysMac0Lo : Nat := 0x30
/-- SYS_MAC_HI (R614) -/
abbrev Addr.sysMacHi : Nat := 0x34
/-- SYS_MAC1_LO (R614) -/
abbrev Addr.sysMac1Lo : Nat := 0x38
/-- SYS_CAPS (R614) -/
abbrev Addr.sysCaps : Nat := 0x3c
/-- SYS_STATE (R614) -/
abbrev Addr.sysState : Nat := 0x40
/-- SYS_SESS (R614) -/
abbrev Addr.sysSess : Nat := 0x44
/-- SYS_DTIME_LO (R614) -/
abbrev Addr.sysDtimeLo : Nat := 0x48
/-- SYS_DTIME_HI (R614) -/
abbrev Addr.sysDtimeHi : Nat := 0x4c
/-- SYS_TICK (R614) -/
abbrev Addr.sysTick : Nat := 0x50
/-- SYS_UPTIME (R614) -/
abbrev Addr.sysUptime : Nat := 0x54
/-- SYS_SCRATCH (R614) -/
abbrev Addr.sysScratch : Nat := 0x58
/-- HPI_HDR_ERR (R615) -/
abbrev Addr.hpiHdrErr : Nat := 0x2000
/-- HPI_PCRC_ERR (R615) -/
abbrev Addr.hpiPcrcErr : Nat := 0x2004
/-- HPI_AUTH_FAIL (R615) -/
abbrev Addr.hpiAuthFail : Nat := 0x2008
/-- HPI_BUSY (R615) -/
abbrev Addr.hpiBusy : Nat := 0x200c
/-- HPI_REPEATS (R615) -/
abbrev Addr.hpiRepeats : Nat := 0x2010
/-- HPI_SPI_OVF (R615) -/
abbrev Addr.hpiSpiOvf : Nat := 0x2014
/-- HPI_UDP_LEN_ERR (R615) -/
abbrev Addr.hpiUdpLenErr : Nat := 0x2018
/-- HPI_FRAG_TMO (R615) -/
abbrev Addr.hpiFragTmo : Nat := 0x201c
/-- HPI_CLR (R615) -/
abbrev Addr.hpiClr : Nat := 0x2020
/-- ETHn_STAT (R616) -/
abbrev Addr.ethStat (i : Nat) : Nat := 0x3000 + 1024 * i
/-- ETHn_RXOK (R616) -/
abbrev Addr.ethRxok (i : Nat) : Nat := 0x3004 + 1024 * i
/-- ETHn_TXOK (R616) -/
abbrev Addr.ethTxok (i : Nat) : Nat := 0x3008 + 1024 * i
/-- ETHn_RX_DROP (R616) -/
abbrev Addr.ethRxDrop (i : Nat) : Nat := 0x300c + 1024 * i
/-- ETHn_RX_CRCERR (R616) -/
abbrev Addr.ethRxCrcerr (i : Nat) : Nat := 0x3010 + 1024 * i
/-- ETHn_DISCARD (R616) -/
abbrev Addr.ethDiscard (i : Nat) : Nat := 0x3014 + 1024 * i
/-- ETHn_ARP_ANS (R616) -/
abbrev Addr.ethArpAns (i : Nat) : Nat := 0x3018 + 1024 * i
/-- ETHn_CLR (R616) -/
abbrev Addr.ethClr (i : Nat) : Nat := 0x301c + 1024 * i
/-- SE_CTRL (R94) -/
abbrev Addr.seCtrl : Nat := 0x10000
/-- SE_STATUS (R94) -/
abbrev Addr.seStatus : Nat := 0x10004
/-- SE_COMMIT (R94) -/
abbrev Addr.seCommit : Nat := 0x10008
/-- SE_CFG (R94) -/
abbrev Addr.seCfg : Nat := 0x1000c
/-- SE_SWTRIG (R94) -/
abbrev Addr.seSwtrig : Nat := 0x10010
/-- SE_GRID (R94) -/
abbrev Addr.seGrid : Nat := 0x10014
/-- SE_INFO1-7 (R94) -/
abbrev Addr.seInfo (i : Nat) : Nat := 0x10024 + 4 * i
/-- SE_CSEL (R94) -/
abbrev Addr.seCsel : Nat := 0x10040
/-- SE_CWIN_G0-G15 (R94) -/
abbrev Addr.seCwinG (i : Nat) : Nat := 0x10080 + 4 * i
/-- SE_CWIN_PC (R94) -/
abbrev Addr.seCwinPc : Nat := 0x100c0
/-- SE_CWIN_SW (R94) -/
abbrev Addr.seCwinSw : Nat := 0x100c4
/-- SE_CWIN_ACC (R94) -/
abbrev Addr.seCwinAcc : Nat := 0x100c8
/-- SE_CWIN_DEPTH (R94) -/
abbrev Addr.seCwinDepth : Nat := 0x100cc
/-- SE map memory (input 0-127, output 128-255) (R91) -/
abbrev Addr.seMap (i j : Nat) : Nat := 0x14000 + 256 * i + 4 * j
/-- QUE_COMMIT (R485) -/
abbrev Addr.queCommit : Nat := 0xd0400
/-- QUE_CFG (R485) -/
abbrev Addr.queCfg : Nat := 0xd0404
/-- QUE_REFUSED (R485) -/
abbrev Addr.queRefused : Nat := 0xd0408

/-- Registers of the se span. -/
def rowsSe0 : List RegRow :=
  [⟨"CTXn_PERIOD", 0x11000, 32, 160, 0, 1, 0x0, 0x0, 0xffffff, 0x0, false, false, 0x0⟩,
   ⟨"CTXn_PHASE", 0x11004, 32, 160, 0, 1, 0x0, 0x0, 0xffffff, 0x0, false, false, 0x0⟩,
   ⟨"CTXn_CTRL", 0x11008, 32, 160, 0, 1, 0x0, 0x0, 0xff013f, 0x0, false, false, 0x0⟩,
   ⟨"CTXn_TRIG", 0x1100c, 32, 160, 0, 1, 0x0, 0x0, 0x3dffff, 0x0, false, false, 0x0⟩,
   ⟨"CTXn_ENTRY", 0x11010, 32, 160, 0, 1, 0x0, 0x0, 0x7ffffc, 0x0, false, false, 0x0⟩,
   ⟨"CTXn_BUF", 0x11014, 32, 160, 0, 1, 0x0, 0x0, 0x7ff07ff, 0x0, false, false, 0x0⟩,
   ⟨"CTXn_STAT", 0x11018, 32, 160, 0, 1, 0x0, 0x0, 0x0, 0x0, false, false, 0x0⟩,
   ⟨"CTXn_TIME", 0x1101c, 32, 160, 0, 1, 0x0, 0x0, 0x0, 0x0, false, false, 0x0⟩,
   ⟨"SHs_CFG", 0x10400, 32, 32, 0, 1, 0x0, 0x0, 0xff07ff, 0x0, false, false, 0x0⟩,
   ⟨"SHs_LIM", 0x10404, 32, 32, 0, 1, 0x0, 0x0, 0xffffffff, 0x0, false, false, 0x0⟩,
   ⟨"SHs_STAT", 0x10408, 32, 32, 0, 1, 0x0, 0x0, 0x0, 0x0, false, false, 0x0⟩,
   ⟨"SHs_PHASE", 0x1040c, 32, 32, 0, 1, 0x0, 0x0, 0x0, 0x0, false, false, 0x0⟩]

/-- Registers of the se span. -/
def rowsSe1 : List RegRow :=
  [⟨"SHs_COUNT", 0x10410, 32, 32, 0, 1, 0x0, 0x0, 0x0, 0x0, false, false, 0x0⟩,
   ⟨"SHs_PERIOD", 0x10414, 32, 32, 0, 1, 0x0, 0x0, 0x0, 0x0, false, false, 0x0⟩,
   ⟨"SHs_STAMP_LO", 0x10418, 32, 32, 0, 1, 0x0, 0x0, 0x0, 0x0, false, false, 0x0⟩,
   ⟨"SHs_STAMP_HI", 0x1041c, 32, 32, 0, 1, 0x0, 0x0, 0x0, 0x0, false, false, 0x0⟩,
   ⟨"SE_EDGE_IDX", 0x10050, 0, 1, 0, 1, 0xfff, 0x0, 0x0, 0x0, false, false, 0x0⟩,
   ⟨"SE_EDGE_DATA", 0x10054, 0, 1, 0, 1, 0xffffffff, 0x0, 0x0, 0x0, false, true, 0x0⟩,
   ⟨"SE_TRAP", 0x10060, 0, 1, 0, 1, 0x0, 0x0, 0x0, 0x0, false, false, 0x0⟩,
   ⟨"SE_TRAP_PC", 0x10064, 0, 1, 0, 1, 0x0, 0x0, 0x0, 0x0, false, false, 0x0⟩,
   ⟨"SE_TRAP_ADDR", 0x10068, 0, 1, 0, 1, 0x0, 0x0, 0x0, 0x0, false, false, 0x0⟩,
   ⟨"SE_TRAP_CNT", 0x1006c, 0, 1, 0, 1, 0x0, 0x0, 0x0, 0x0, false, false, 0x0⟩,
   ⟨"SE_HOTn", 0x10800, 4, 256, 0, 1, 0xffffffff, 0x0, 0x0, 0x0, false, false, 0x0⟩,
   ⟨"SE_SWAP_STAT", 0x10070, 0, 1, 0, 1, 0x0, 0x0, 0x0, 0x0, false, false, 0x0⟩]

/-- Registers of the se span. -/
def rowsSe2 : List RegRow :=
  [⟨"SE_SWAP_MIG", 0x10074, 0, 1, 0, 1, 0x0, 0x0, 0x0, 0x0, false, false, 0x0⟩,
   ⟨"SE_SWAP_TIME", 0x10078, 0, 1, 0, 1, 0x0, 0x0, 0x0, 0x0, false, false, 0x0⟩,
   ⟨"SE_SWAP_ERRADDR", 0x1007c, 0, 1, 0, 1, 0x0, 0x0, 0x0, 0x0, false, false, 0x0⟩,
   ⟨"SE_CHAMBER_DIGEST0-7", 0x100d0, 4, 8, 0, 1, 0x0, 0x0, 0x0, 0x0, false, false, 0x0⟩,
   ⟨"SE_RUN_DIGEST0-7", 0x100f0, 4, 8, 0, 1, 0x0, 0x0, 0x0, 0x0, false, false, 0x0⟩,
   ⟨"SE_CTRL", 0x10000, 0, 1, 0, 1, 0x0, 0x0, 0x0, 0x3, false, false, 0x0⟩,
   ⟨"SE_STATUS", 0x10004, 0, 1, 0, 1, 0x0, 0x0, 0x0, 0x0, false, false, 0x0⟩,
   ⟨"SE_COMMIT", 0x10008, 0, 1, 0, 1, 0x0, 0x0, 0x0, 0x0, true, false, 0x0⟩,
   ⟨"SE_CFG", 0x1000c, 0, 1, 0, 1, 0x0, 0x1, 0x0, 0x0, false, false, 0x0⟩,
   ⟨"SE_SWTRIG", 0x10010, 0, 1, 0, 1, 0x0, 0x0, 0x0, 0xff, false, false, 0x0⟩,
   ⟨"SE_GRID", 0x10014, 0, 1, 0, 1, 0x0, 0x0, 0x0, 0x0, false, false, 0x0⟩,
   ⟨"SE_INFO1-7", 0x10024, 4, 7, 0, 1, 0x0, 0x0, 0x0, 0x0, false, false, 0x0⟩]

/-- Registers of the se span. -/
def rowsSe3 : List RegRow :=
  [⟨"SE_CSEL", 0x10040, 0, 1, 0, 1, 0xff, 0x0, 0x0, 0x0, false, false, 0x0⟩,
   ⟨"SE_CWIN_G0-G15", 0x10080, 4, 16, 0, 1, 0x0, 0x0, 0x0, 0x0, false, false, 0x0⟩,
   ⟨"SE_CWIN_PC", 0x100c0, 0, 1, 0, 1, 0x0, 0x0, 0x0, 0x0, false, false, 0x0⟩,
   ⟨"SE_CWIN_SW", 0x100c4, 0, 1, 0, 1, 0x0, 0x0, 0x0, 0x0, false, false, 0x0⟩,
   ⟨"SE_CWIN_ACC", 0x100c8, 0, 1, 0, 1, 0x0, 0x0, 0x0, 0x0, false, false, 0x0⟩,
   ⟨"SE_CWIN_DEPTH", 0x100cc, 0, 1, 0, 1, 0x0, 0x0, 0x0, 0x0, false, false, 0x0⟩,
   ⟨"SE map memory (input 0-127, output 128-255)", 0x14000, 256, 160, 4, 64, 0x0, 0x0, 0xffffffff, 0x0, false, false, 0x0⟩]

/-- Registers of the se span. -/
def rowsSe : List RegRow := rowsSe0 ++ rowsSe1 ++ rowsSe2 ++ rowsSe3

/-- Registers of the tmb span. -/
def rowsTmb : List RegRow :=
  [⟨"TMBi word 0", 0x20000, 8, 8192, 0, 1, 0xffffffff, 0x0, 0x0, 0x0, false, true, 0x0⟩,
   ⟨"TMBi word 1", 0x20004, 8, 8192, 0, 1, 0x7f, 0x0, 0x0, 0x0, false, true, 0x0⟩]

/-- Registers of the ixeMem span. -/
def rowsIxeMem0 : List RegRow :=
  [⟨"IXE_POINT 0x00", 0x30780000, 64, 6144, 0, 1, 0x0, 0x0, 0x3ffff, 0x0, false, false, 0x0⟩,
   ⟨"IXE_POINT 0x04", 0x30780004, 64, 6144, 0, 1, 0x0, 0x0, 0xfffff, 0x0, false, false, 0x0⟩,
   ⟨"IXE_POINT 0x08", 0x30780008, 64, 6144, 0, 1, 0x0, 0x0, 0x7ff, 0x0, false, false, 0x0⟩,
   ⟨"IXE_POINT 0x0C", 0x3078000c, 64, 6144, 0, 1, 0x0, 0x0, 0xffffffff, 0x0, false, false, 0x0⟩,
   ⟨"IXE_POINT 0x10", 0x30780010, 64, 6144, 0, 1, 0x0, 0x0, 0xffffffff, 0x0, false, false, 0x0⟩,
   ⟨"IXE_POINT 0x14", 0x30780014, 64, 6144, 0, 1, 0x0, 0x0, 0xffffffff, 0x0, false, false, 0x0⟩,
   ⟨"IXE_POINT 0x18", 0x30780018, 64, 6144, 0, 1, 0x0, 0x0, 0xffffff, 0x0, false, false, 0x0⟩,
   ⟨"IXE_POINT 0x20", 0x30780020, 64, 6144, 0, 1, 0x0, 0x0, 0x0, 0x0, false, false, 0x40⟩,
   ⟨"IXE_POINT 0x24", 0x30780024, 64, 6144, 0, 1, 0x0, 0x0, 0x0, 0x0, false, false, 0x0⟩,
   ⟨"IXE_POINT 0x28", 0x30780028, 64, 6144, 0, 1, 0x0, 0x0, 0x0, 0x0, false, false, 0x0⟩,
   ⟨"IXE_POINT 0x2C", 0x3078002c, 64, 6144, 0, 1, 0x0, 0x0, 0x0, 0x0, false, false, 0x0⟩,
   ⟨"IXE_POINT 0x30", 0x30780030, 64, 6144, 0, 1, 0x0, 0x0, 0x0, 0x0, false, false, 0x0⟩]

/-- Registers of the ixeMem span. -/
def rowsIxeMem1 : List RegRow :=
  [⟨"IXE_POINT 0x34", 0x30780034, 64, 6144, 0, 1, 0x0, 0x0, 0x0, 0x0, false, false, 0x0⟩,
   ⟨"IXE_POINT 0x38", 0x30780038, 64, 6144, 0, 1, 0x0, 0x0, 0x0, 0x0, false, false, 0x0⟩,
   ⟨"IXE_PROFILE 0x000", 0x307e0000, 256, 256, 0, 1, 0x0, 0x0, 0x11f1f, 0x0, false, false, 0x0⟩,
   ⟨"IXE_PROFILE 0x004", 0x307e0004, 256, 256, 0, 1, 0x0, 0x0, 0xffffffff, 0x0, false, false, 0x0⟩,
   ⟨"IXE_PROFILE 0x008", 0x307e0008, 256, 256, 0, 1, 0x0, 0x0, 0xffffffff, 0x0, false, false, 0x0⟩,
   ⟨"IXE_PROFILE 0x00C", 0x307e000c, 256, 256, 0, 1, 0x0, 0x0, 0xffffffff, 0x0, false, false, 0x0⟩,
   ⟨"IXE_PROFILE 0x010", 0x307e0010, 256, 256, 0, 1, 0x0, 0x0, 0xffffffff, 0x0, false, false, 0x0⟩,
   ⟨"IXE_PROFILE 0x014", 0x307e0014, 256, 256, 0, 1, 0x0, 0x0, 0xffffffff, 0x0, false, false, 0x0⟩,
   ⟨"IXE_PROFILE 0x018", 0x307e0018, 256, 256, 0, 1, 0x0, 0x0, 0xffffffff, 0x0, false, false, 0x0⟩,
   ⟨"IXE_PROFILE 0x01C", 0x307e001c, 256, 256, 0, 1, 0x0, 0x0, 0xffffffff, 0x0, false, false, 0x0⟩,
   ⟨"IXE_PROFILE ABS_ALERT[f]", 0x307e0040, 256, 256, 8, 20, 0x0, 0x0, 0xffffffff, 0x0, false, false, 0x0⟩,
   ⟨"IXE_PROFILE ABS_DANGER[f]", 0x307e0044, 256, 256, 8, 20, 0x0, 0x0, 0xffffffff, 0x0, false, false, 0x0⟩]

/-- Registers of the ixeMem span. -/
def rowsIxeMem2 : List RegRow :=
  [⟨"IXE_VOTE 0x00", 0x307f0000, 32, 1024, 0, 1, 0x0, 0x0, 0x7ff, 0x0, false, false, 0x0⟩,
   ⟨"IXE_VOTE MEMBERS", 0x307f0004, 32, 1024, 4, 4, 0x0, 0x0, 0x1fff1fff, 0x0, false, false, 0x0⟩]

/-- Registers of the ixeMem span. -/
def rowsIxeMem : List RegRow := rowsIxeMem0 ++ rowsIxeMem1 ++ rowsIxeMem2

/-- Registers of the ixe span. -/
def rowsIxe0 : List RegRow :=
  [⟨"IXE_CTRL", 0x30000, 0, 1, 0, 1, 0x0, 0x0, 0x1, 0x0, false, false, 0x0⟩,
   ⟨"IXE_STAT", 0x30004, 0, 1, 0, 1, 0x0, 0x0, 0x0, 0x0, false, false, 0x0⟩,
   ⟨"IXE_COMMIT", 0x30008, 0, 1, 0, 1, 0x0, 0x0, 0x0, 0x0, true, false, 0x0⟩,
   ⟨"IXE_CFG", 0x3000c, 0, 1, 0, 1, 0x0, 0x1, 0x0, 0x0, false, false, 0x0⟩,
   ⟨"IXE_RECORDS", 0x30010, 0, 1, 0, 1, 0x0, 0x0, 0x0, 0x0, false, false, 0x0⟩,
   ⟨"IXE_DROP_FMT", 0x30014, 0, 1, 0, 1, 0x0, 0x0, 0x0, 0x0, false, false, 0x0⟩,
   ⟨"IXE_DROP_UNMAP", 0x30018, 0, 1, 0, 1, 0x0, 0x0, 0x0, 0x0, false, false, 0x0⟩,
   ⟨"IXE_DROP_SRC", 0x3001c, 0, 1, 0, 1, 0x0, 0x0, 0x0, 0x0, false, false, 0x0⟩,
   ⟨"IXE_DROP_SEQ", 0x30020, 0, 1, 0, 1, 0x0, 0x0, 0x0, 0x0, false, false, 0x0⟩,
   ⟨"IXE_MISSED", 0x30024, 0, 1, 0, 1, 0x0, 0x0, 0x0, 0x0, false, false, 0x0⟩,
   ⟨"IXE_NOBIN", 0x30028, 0, 1, 0, 1, 0x0, 0x0, 0x0, 0x0, false, false, 0x0⟩,
   ⟨"IXE_LAT", 0x3002c, 0, 1, 0, 1, 0x0, 0x0, 0x0, 0x0, false, false, 0x0⟩]

/-- Registers of the ixe span. -/
def rowsIxe1 : List RegRow :=
  [⟨"IXE_RATE", 0x30030, 0, 1, 0, 1, 0x0, 0x0, 0x0, 0x0, false, false, 0x0⟩,
   ⟨"IXE_CLR", 0x30034, 0, 1, 0, 1, 0x0, 0x0, 0x0, 0x1, false, false, 0x0⟩,
   ⟨"IXE_SHs_EDGEe", 0x30100, 4, 128, 0, 1, 0x0, 0x0, 0xffffffff, 0x0, false, false, 0x0⟩]

/-- Registers of the ixe span. -/
def rowsIxe : List RegRow := rowsIxe0 ++ rowsIxe1

/-- Registers of the fbp span. -/
def rowsFbp0 : List RegRow :=
  [⟨"FBPn_TXBUFb word 0", 0x44000, 3072, 16, 16, 64, 0x0, 0x0, 0xffffffff, 0x0, false, false, 0x0⟩,
   ⟨"FBPn_TXBUFb word 1", 0x44004, 3072, 16, 16, 64, 0x0, 0x0, 0xff, 0x0, false, false, 0x0⟩,
   ⟨"FBPn_TXBUFb word 2", 0x44008, 3072, 16, 16, 64, 0x0, 0x0, 0x7fffff, 0x0, false, false, 0x0⟩,
   ⟨"FBPn_TXBUFb word 3", 0x4400c, 3072, 16, 16, 64, 0x0, 0x0, 0x0, 0x0, false, false, 0x0⟩,
   ⟨"FBPn_FILTERf word 0", 0x44400, 3072, 16, 16, 128, 0x0, 0x0, 0x3fffffff, 0x0, false, false, 0x0⟩,
   ⟨"FBPn_FILTERf word 1", 0x44404, 3072, 16, 16, 128, 0x0, 0x0, 0x1fffffff, 0x0, false, false, 0x0⟩,
   ⟨"FBPn_FILTERf word 2", 0x44408, 3072, 16, 16, 128, 0x0, 0x0, 0x1f07, 0x0, false, false, 0x0⟩,
   ⟨"FBPn_FILTERf word 3", 0x4440c, 3072, 16, 16, 128, 0x0, 0x0, 0x0, 0x0, false, false, 0x0⟩,
   ⟨"FBPn_CTRL", 0x40000, 1024, 16, 0, 1, 0x0, 0x0, 0xffffff7f, 0x0, false, false, 0x0⟩,
   ⟨"FBPn_NBT", 0x40004, 1024, 16, 0, 1, 0x0, 0x0, 0x7fffffff, 0x0, false, false, 0x0⟩,
   ⟨"FBPn_DBT", 0x40008, 1024, 16, 0, 1, 0x0, 0x0, 0x1fffffff, 0x0, false, false, 0x0⟩,
   ⟨"FBPn_COMMIT", 0x4000c, 1024, 16, 0, 1, 0x0, 0x0, 0x0, 0x0, true, false, 0x0⟩]

/-- Registers of the fbp span. -/
def rowsFbp1 : List RegRow :=
  [⟨"FBPn_CFG", 0x40010, 1024, 16, 0, 1, 0x0, 0x1, 0x0, 0x0, false, false, 0x0⟩,
   ⟨"FBPn_STAT", 0x40014, 1024, 16, 0, 1, 0x0, 0xc0, 0x0, 0x0, false, false, 0x0⟩,
   ⟨"FBPn_ERRC", 0x40018, 1024, 16, 0, 1, 0x0, 0x0, 0x0, 0x0, false, false, 0x0⟩,
   ⟨"FBPn_TDCV", 0x4001c, 1024, 16, 0, 1, 0x0, 0x0, 0x0, 0x0, false, false, 0x0⟩,
   ⟨"FBPn_RECOVER", 0x40020, 1024, 16, 0, 1, 0x0, 0x0, 0x0, 0x1, false, false, 0x0⟩,
   ⟨"FBPn_TXREQ_LO", 0x40024, 1024, 16, 0, 1, 0x0, 0x0, 0x0, 0xffffffff, false, false, 0x0⟩,
   ⟨"FBPn_TXREQ_HI", 0x40028, 1024, 16, 0, 1, 0x0, 0x0, 0x0, 0xffffffff, false, false, 0x0⟩,
   ⟨"FBPn_TXCAN_LO", 0x4002c, 1024, 16, 0, 1, 0x0, 0x0, 0x0, 0xffffffff, false, false, 0x0⟩,
   ⟨"FBPn_TXCAN_HI", 0x40030, 1024, 16, 0, 1, 0x0, 0x0, 0x0, 0xffffffff, false, false, 0x0⟩,
   ⟨"FBPn_TXPEND_LO", 0x40034, 1024, 16, 0, 1, 0x0, 0x0, 0x0, 0x0, false, false, 0x0⟩,
   ⟨"FBPn_TXPEND_HI", 0x40038, 1024, 16, 0, 1, 0x0, 0x0, 0x0, 0x0, false, false, 0x0⟩,
   ⟨"FBPn_RXOK", 0x40040, 1024, 16, 0, 1, 0x0, 0x0, 0x0, 0x0, false, false, 0x0⟩]

/-- Registers of the fbp span. -/
def rowsFbp2 : List RegRow :=
  [⟨"FBPn_TXOK", 0x40044, 1024, 16, 0, 1, 0x0, 0x0, 0x0, 0x0, false, false, 0x0⟩,
   ⟨"FBPn_BUSOFF", 0x40048, 1024, 16, 0, 1, 0x0, 0x0, 0x0, 0x0, false, false, 0x0⟩,
   ⟨"FBPn_STALE", 0x4004c, 1024, 16, 0, 1, 0x0, 0x0, 0x0, 0x0, false, false, 0x0⟩,
   ⟨"FBPn_P_FAIL", 0x40050, 1024, 16, 0, 1, 0x0, 0x0, 0x0, 0x0, false, false, 0x0⟩,
   ⟨"FBPn_RX_NOMATCH", 0x40054, 1024, 16, 0, 1, 0x0, 0x0, 0x0, 0x0, false, false, 0x0⟩,
   ⟨"FBPn_RX_RTR", 0x40058, 1024, 16, 0, 1, 0x0, 0x0, 0x0, 0x0, false, false, 0x0⟩,
   ⟨"FBPn_RX_QLOSS", 0x4005c, 1024, 16, 0, 1, 0x0, 0x0, 0x0, 0x0, false, false, 0x0⟩,
   ⟨"FBPn_REQ_IGN", 0x40060, 1024, 16, 0, 1, 0x0, 0x0, 0x0, 0x0, false, false, 0x0⟩,
   ⟨"FBPn_PEX", 0x40064, 1024, 16, 0, 1, 0x0, 0x0, 0x0, 0x0, false, false, 0x0⟩,
   ⟨"FBPn_CLR", 0x40068, 1024, 16, 0, 1, 0x0, 0x0, 0x0, 0x1, false, false, 0x0⟩,
   ⟨"FBPn_TDR_CFG", 0x40080, 1024, 16, 0, 1, 0xffffffff, 0x0, 0x0, 0x0, false, false, 0x1388⟩,
   ⟨"FBPn_TDR_STAT", 0x40084, 1024, 16, 0, 1, 0x0, 0x0, 0x0, 0x0, false, false, 0x0⟩]

/-- Registers of the fbp span. -/
def rowsFbp3 : List RegRow :=
  [⟨"FBPn_TDR_RDC", 0x40088, 1024, 16, 0, 1, 0x0, 0x0, 0x0, 0x0, false, false, 0x0⟩,
   ⟨"FBPn_TDR_REFL0-3", 0x40090, 1024, 16, 4, 4, 0x0, 0x0, 0x0, 0x0, false, false, 0x0⟩,
   ⟨"FBPn_TT_CFG", 0x40200, 1024, 16, 0, 1, 0x0, 0x0, 0x17f, 0x0, false, false, 0x0⟩,
   ⟨"FBPn_TT_BCLEN", 0x40204, 1024, 16, 0, 1, 0x0, 0x0, 0xffff, 0x0, false, false, 0x0⟩,
   ⟨"FBPn_TT_BEACON", 0x40208, 1024, 16, 0, 1, 0x0, 0x0, 0x3fffffff, 0x0, false, false, 0x3fffffff⟩,
   ⟨"FBPn_TT_SMOFF", 0x4020c, 1024, 16, 0, 1, 0x0, 0x0, 0xffff, 0x0, false, false, 0x0⟩,
   ⟨"FBPn_TT_STAT", 0x40210, 1024, 16, 0, 1, 0x0, 0x0, 0x0, 0x0, false, false, 0x0⟩,
   ⟨"FBPn_TT_REFSEQ", 0x40214, 1024, 16, 0, 1, 0x0, 0x0, 0x0, 0x0, false, false, 0x0⟩,
   ⟨"FBPn_TT_WINw word 0", 0x40300, 1024, 16, 8, 32, 0x0, 0x0, 0xffffffff, 0x0, false, false, 0x0⟩,
   ⟨"FBPn_TT_WINw word 1", 0x40304, 1024, 16, 8, 32, 0x0, 0x0, 0x7f7f3f7f, 0x0, false, false, 0x0⟩]

/-- Registers of the fbp span. -/
def rowsFbp : List RegRow := rowsFbp0 ++ rowsFbp1 ++ rowsFbp2 ++ rowsFbp3

/-- Registers of the stn span. -/
def rowsStn0 : List RegRow :=
  [⟨"STN_ENTRY word 0", 0x50000, 32, 1536, 0, 1, 0x0, 0x0, 0xffff7ff7, 0x0, false, false, 0x0⟩,
   ⟨"STN_ENTRY word 1", 0x50004, 32, 1536, 0, 1, 0x0, 0x0, 0x1fff077f, 0x0, false, false, 0x0⟩,
   ⟨"STN_ENTRY word 2", 0x50008, 32, 1536, 0, 1, 0x0, 0x0, 0x7fffff, 0x0, false, false, 0x0⟩,
   ⟨"STN_ENTRY word 3", 0x5000c, 32, 1536, 0, 1, 0x0, 0x0, 0xffffffff, 0x0, false, false, 0x0⟩,
   ⟨"STN_ENTRY word 4", 0x50010, 32, 1536, 0, 1, 0x0, 0x0, 0xffffffff, 0x0, false, false, 0x0⟩,
   ⟨"STN_ENTRY word 5", 0x50014, 32, 1536, 0, 1, 0x0, 0x0, 0x0, 0x0, false, false, 0x0⟩,
   ⟨"STN_ENTRY word 6", 0x50018, 32, 1536, 0, 1, 0x0, 0x0, 0x0, 0x0, false, false, 0x0⟩,
   ⟨"STN_ENTRY word 7", 0x5001c, 32, 1536, 0, 1, 0x0, 0x0, 0x0, 0x0, false, false, 0x0⟩,
   ⟨"STN_PCTRLn", 0x5c000, 32, 16, 0, 1, 0x0, 0x0, 0x13f, 0x0, false, false, 0x0⟩,
   ⟨"STN_COMMITn", 0x5c004, 32, 16, 0, 1, 0x0, 0x0, 0x0, 0x0, true, false, 0x0⟩,
   ⟨"STN_CFGn", 0x5c008, 32, 16, 0, 1, 0x0, 0x1, 0x0, 0x0, false, false, 0x0⟩,
   ⟨"STN_DROP_STN", 0x5c00c, 32, 16, 0, 1, 0x0, 0x0, 0x0, 0x0, false, false, 0x0⟩]

/-- Registers of the stn span. -/
def rowsStn1 : List RegRow :=
  [⟨"STN_DROP_FMT", 0x5c010, 32, 16, 0, 1, 0x0, 0x0, 0x0, 0x0, false, false, 0x0⟩,
   ⟨"STN_LOSSES", 0x5c014, 32, 16, 0, 1, 0x0, 0x0, 0x0, 0x0, false, false, 0x0⟩,
   ⟨"STN_CLR", 0x5c018, 32, 16, 0, 1, 0x0, 0x0, 0x0, 0x1, false, false, 0x0⟩]

/-- Registers of the stn span. -/
def rowsStn : List RegRow := rowsStn0 ++ rowsStn1

/-- Registers of the fio span. -/
def rowsFio0 : List RegRow :=
  [⟨"CHn_CFG", 0x60000, 64, 48, 0, 1, 0x0, 0x0, 0xffffffff, 0x0, false, false, 0x0⟩,
   ⟨"CHn_LM", 0x60004, 64, 48, 0, 1, 0x0, 0x0, 0x3ff1, 0x0, false, false, 0x0⟩,
   ⟨"CHn_STAT", 0x60008, 64, 48, 0, 1, 0x0, 0x0, 0x0, 0x0, false, false, 0x0⟩,
   ⟨"CHn_DIAGCLR", 0x6000c, 64, 48, 0, 1, 0x0, 0x0, 0x0, 0x1, false, false, 0x0⟩,
   ⟨"CHn_LOAD_R", 0x60010, 64, 48, 0, 1, 0x0, 0x0, 0x0, 0x0, false, false, 0x0⟩,
   ⟨"CHn_LOAD_L", 0x60014, 64, 48, 0, 1, 0x0, 0x0, 0x0, 0x0, false, false, 0x0⟩,
   ⟨"CHn_CURRENT", 0x60018, 64, 48, 0, 1, 0x0, 0x0, 0x0, 0x0, false, false, 0x0⟩,
   ⟨"CHn_TACH", 0x6001c, 64, 48, 0, 1, 0x0, 0x0, 0x0, 0x0, false, false, 0x0⟩,
   ⟨"CHn_SWITCH", 0x60020, 64, 48, 0, 1, 0x0, 0x0, 0x0, 0x0, false, false, 0x0⟩,
   ⟨"GRPg_CFG", 0x60c00, 64, 6, 0, 1, 0x0, 0x0, 0x1ff, 0x0, false, false, 0x19⟩,
   ⟨"GRPg_STAT", 0x60c04, 64, 6, 0, 1, 0x0, 0x0, 0x0, 0x0, false, false, 0x0⟩,
   ⟨"GRPg_ACK", 0x60c08, 64, 6, 0, 1, 0x0, 0x0, 0x0, 0x1, false, false, 0x0⟩]

/-- Registers of the fio span. -/
def rowsFio1 : List RegRow :=
  [⟨"GRPg_CURRENT", 0x60c0c, 64, 6, 0, 1, 0x0, 0x0, 0x0, 0x0, false, false, 0x0⟩,
   ⟨"GRPg_COUNT", 0x60c10, 64, 6, 0, 1, 0x0, 0x0, 0x0, 0x0, false, false, 0x0⟩,
   ⟨"FIO_COMMIT", 0x60e00, 0, 1, 0, 1, 0x0, 0x0, 0x0, 0x0, true, false, 0x0⟩,
   ⟨"FIO_CFG", 0x60e04, 0, 1, 0, 1, 0x0, 0x1, 0x0, 0x0, false, false, 0x0⟩,
   ⟨"FIO_IMG", 0x60e08, 0, 1, 0, 1, 0x0, 0x0, 0x3ff03ff, 0x0, false, false, 0x3ff03af⟩,
   ⟨"FIO_STAT", 0x60e0c, 0, 1, 0, 1, 0x0, 0x0, 0x0, 0x0, false, false, 0x0⟩]

/-- Registers of the fio span. -/
def rowsFio : List RegRow := rowsFio0 ++ rowsFio1

/-- Registers of the twl span. -/
def rowsTwl0 : List RegRow :=
  [⟨"TWL_CFG", 0x70000, 0, 1, 0, 1, 0x0, 0x0, 0xff03, 0x0, false, false, 0x1400⟩,
   ⟨"TWL_STAGE", 0x70004, 0, 1, 0, 1, 0x0, 0x0, 0x7ff07ff, 0x0, false, false, 0x0⟩,
   ⟨"TWL_COMMIT", 0x70008, 0, 1, 0, 1, 0x0, 0x0, 0x0, 0x0, true, false, 0x0⟩,
   ⟨"TWL_CFGSTAT", 0x7000c, 0, 1, 0, 1, 0x0, 0x1, 0x0, 0x0, false, false, 0x0⟩,
   ⟨"TWL_STAT", 0x70010, 0, 1, 0, 1, 0x0, 0x0, 0x0, 0x0, false, false, 0x7700⟩,
   ⟨"TWL_CLAIM", 0x70014, 0, 1, 0, 1, 0x0, 0x0, 0x0, 0x0, false, false, 0x0⟩,
   ⟨"TWL_DELAY", 0x70018, 0, 1, 0, 1, 0x0, 0x0, 0x0, 0x0, false, false, 0x0⟩,
   ⟨"TWL_MIRROR", 0x7001c, 0, 1, 0, 1, 0x0, 0x0, 0x0, 0x0, false, false, 0x0⟩,
   ⟨"TWL_CRCERR", 0x70020, 0, 1, 0, 1, 0x0, 0x0, 0x0, 0x0, false, false, 0x0⟩,
   ⟨"TWL_RETRANS", 0x70024, 0, 1, 0, 1, 0x0, 0x0, 0x0, 0x0, false, false, 0x0⟩,
   ⟨"TWL_LINKDOWN", 0x70028, 0, 1, 0, 1, 0x0, 0x0, 0x0, 0x0, false, false, 0x0⟩,
   ⟨"TWL_DISCARD", 0x7002c, 0, 1, 0, 1, 0x0, 0x0, 0x0, 0x0, false, false, 0x0⟩]

/-- Registers of the twl span. -/
def rowsTwl1 : List RegRow :=
  [⟨"TWL_SHRESYNC", 0x70030, 0, 1, 0, 1, 0x0, 0x0, 0x0, 0x0, false, false, 0x0⟩,
   ⟨"TWL_PALILOSS", 0x70034, 0, 1, 0, 1, 0x0, 0x0, 0x0, 0x0, false, false, 0x0⟩,
   ⟨"TWL_CLR", 0x70038, 0, 1, 0, 1, 0x0, 0x0, 0x0, 0x1, false, false, 0x0⟩,
   ⟨"TWL_JOINERR", 0x7003c, 0, 1, 0, 1, 0x0, 0x0, 0x0, 0x0, false, false, 0x0⟩]

/-- Registers of the twl span. -/
def rowsTwl : List RegRow := rowsTwl0 ++ rowsTwl1

/-- Registers of the miu span. -/
def rowsMiu : List RegRow :=
  [⟨"MIU_STAT", 0x80000, 0, 1, 0, 1, 0x0, 0x0, 0x0, 0x0, false, false, 0x0⟩,
   ⟨"MIU_REBUILDS", 0x80004, 0, 1, 0, 1, 0x0, 0x0, 0x0, 0x0, false, false, 0x0⟩,
   ⟨"MIU_SCRUB_REB", 0x80008, 0, 1, 0, 1, 0x0, 0x0, 0x0, 0x0, false, false, 0x0⟩,
   ⟨"MIU_UNCORR", 0x8000c, 0, 1, 0, 1, 0x0, 0x0, 0x0, 0x0, false, false, 0x0⟩,
   ⟨"MIU_IMGFIX", 0x80010, 0, 1, 0, 1, 0x0, 0x0, 0x0, 0x0, false, false, 0x0⟩,
   ⟨"MIU_SPLICE_DROP", 0x80014, 0, 1, 0, 1, 0x0, 0x0, 0x0, 0x0, false, false, 0x0⟩,
   ⟨"MIU_LAST_ADDR", 0x80018, 0, 1, 0, 1, 0x0, 0x0, 0x0, 0x0, false, false, 0x0⟩,
   ⟨"MIU_ERR_ADDR", 0x8001c, 0, 1, 0, 1, 0x0, 0x0, 0x0, 0x0, false, false, 0x0⟩,
   ⟨"MIU_ERR_INFO", 0x80020, 0, 1, 0, 1, 0x0, 0x0, 0x0, 0x0, false, false, 0x0⟩,
   ⟨"MIU_FIRST_ADDR", 0x80024, 0, 1, 0, 1, 0x0, 0x0, 0x0, 0x0, false, false, 0x0⟩,
   ⟨"MIU_TEST", 0x80030, 0, 1, 0, 1, 0xfefffe06, 0x0, 0x0, 0x0, false, true, 0x0⟩,
   ⟨"MIU_CLR", 0x80034, 0, 1, 0, 1, 0x0, 0x0, 0x0, 0x1, false, false, 0x0⟩]

/-- Registers of the rsm span. -/
def rowsRsm0 : List RegRow :=
  [⟨"RSM_CTRL", 0x90000, 0, 1, 0, 1, 0x1, 0x0, 0x0, 0x0, false, true, 0x0⟩,
   ⟨"RSM_STAT", 0x90004, 0, 1, 0, 1, 0x0, 0xf0, 0x0, 0x0, false, false, 0x0⟩,
   ⟨"RSM_COMMIT", 0x90008, 0, 1, 0, 1, 0x0, 0x0, 0x0, 0x0, true, false, 0x0⟩,
   ⟨"RSM_CFG", 0x9000c, 0, 1, 0, 1, 0x0, 0x1, 0x0, 0x0, false, false, 0x0⟩,
   ⟨"RSM_ARMSEQ", 0x90010, 0, 1, 0, 1, 0x0, 0x0, 0x0, 0x0, false, false, 0x0⟩,
   ⟨"RSM_RETSEQ", 0x90014, 0, 1, 0, 1, 0x0, 0x0, 0x0, 0x0, false, false, 0x0⟩,
   ⟨"RSM_REFRESH", 0x90018, 0, 1, 0, 1, 0x0, 0x0, 0x0, 0x0, false, false, 0x0⟩,
   ⟨"RSM_MARGINFAIL", 0x9001c, 0, 1, 0, 1, 0x0, 0x0, 0x0, 0x0, false, false, 0x0⟩,
   ⟨"RSM_EGY_DROP", 0x90020, 0, 1, 0, 1, 0x0, 0x0, 0x0, 0x0, false, false, 0x0⟩,
   ⟨"RSM_RECLOST", 0x90024, 0, 1, 0, 1, 0x0, 0x0, 0x0, 0x0, false, false, 0x0⟩,
   ⟨"RSM_ERR_ADDR", 0x90028, 0, 1, 0, 1, 0x0, 0x0, 0x0, 0x0, false, false, 0x0⟩,
   ⟨"RSM_WDROP", 0x9002c, 0, 1, 0, 1, 0x0, 0x0, 0x0, 0x0, false, false, 0x0⟩]

/-- Registers of the rsm span. -/
def rowsRsm1 : List RegRow :=
  [⟨"RSM_CLR", 0x90030, 0, 1, 0, 1, 0x0, 0x0, 0x0, 0x1, false, false, 0x0⟩,
   ⟨"RSM_RETTIME", 0x90034, 0, 1, 0, 1, 0x0, 0x0, 0x0, 0x0, false, false, 0x0⟩,
   ⟨"RSM_REGr_A", 0x90100, 8, 16, 0, 1, 0x0, 0x0, 0xfff0fff, 0x0, false, false, 0x0⟩,
   ⟨"RSM_REGr_B", 0x90104, 8, 16, 0, 1, 0x0, 0x0, 0x7, 0x0, false, false, 0x0⟩]

/-- Registers of the rsm span. -/
def rowsRsm : List RegRow := rowsRsm0 ++ rowsRsm1

/-- Registers of the evr span. -/
def rowsEvr : List RegRow :=
  [⟨"EVR_RATEi word 0", 0xa0800, 8, 1024, 0, 1, 0x0, 0x0, 0x3fff, 0x0, false, false, 0x200⟩,
   ⟨"EVR_RATEi word 1", 0xa0804, 8, 1024, 0, 1, 0x0, 0x0, 0x0, 0x0, false, false, 0x0⟩,
   ⟨"EVR_STAT", 0xa0000, 0, 1, 0, 1, 0x0, 0x0, 0x0, 0x0, false, false, 0x0⟩,
   ⟨"EVR_RSEQ", 0xa0004, 0, 1, 0, 1, 0x0, 0x0, 0x0, 0x0, false, false, 0x0⟩,
   ⟨"EVR_LOST", 0xa0008, 0, 1, 0, 1, 0x0, 0x0, 0x0, 0x0, false, false, 0x0⟩,
   ⟨"EVR_SUPP", 0xa000c, 0, 1, 0, 1, 0x0, 0x0, 0x0, 0x0, false, false, 0x0⟩,
   ⟨"EVR_CTRL", 0xa0010, 0, 1, 0, 1, 0x0, 0x0, 0x0, 0x3, false, false, 0x0⟩,
   ⟨"EVR_COMMIT", 0xa0014, 0, 1, 0, 1, 0x0, 0x0, 0x0, 0x0, true, false, 0x0⟩,
   ⟨"EVR_CFG", 0xa0018, 0, 1, 0, 1, 0x0, 0x1, 0x0, 0x0, false, false, 0x0⟩,
   ⟨"EVR_CLR", 0xa001c, 0, 1, 0, 1, 0x0, 0x0, 0x0, 0x1, false, false, 0x0⟩]

/-- Registers of the que span. -/
def rowsQue0 : List RegRow :=
  [⟨"QnCFG", 0xd0000, 32, 32, 0, 1, 0x0, 0x0, 0x1, 0x0, false, false, 0x0⟩,
   ⟨"QnBASE", 0xd0004, 32, 32, 0, 1, 0x0, 0x0, 0x7ffff8, 0x0, false, false, 0x0⟩,
   ⟨"QnDEPTH", 0xd0008, 32, 32, 0, 1, 0x0, 0x0, 0x1ffff, 0x0, false, false, 0x0⟩,
   ⟨"QnSTAT", 0xd000c, 32, 32, 0, 1, 0x0, 0x2000000, 0x0, 0x0, false, false, 0x4000000⟩,
   ⟨"QnDATA_LO", 0xd0010, 32, 32, 0, 1, 0x0, 0x0, 0x0, 0x0, false, false, 0x0⟩,
   ⟨"QnDATA_HI", 0xd0014, 32, 32, 0, 1, 0x0, 0x0, 0x0, 0x0, false, false, 0x0⟩,
   ⟨"QnPUSH", 0xd0018, 32, 32, 0, 1, 0x0, 0x0, 0x0, 0xffffffff, false, false, 0x0⟩,
   ⟨"QnUSED", 0xd001c, 32, 32, 0, 1, 0x0, 0x0, 0x0, 0x0, false, false, 0x0⟩,
   ⟨"DMAc_CFG", 0xd0800, 32, 32, 0, 1, 0x0, 0x0, 0x1f1f, 0x0, false, false, 0x0⟩,
   ⟨"DMAc_SRC", 0xd0804, 32, 32, 0, 1, 0xffffffff, 0x0, 0x0, 0x0, false, false, 0x0⟩,
   ⟨"DMAc_DST", 0xd0808, 32, 32, 0, 1, 0xffffffff, 0x0, 0x0, 0x0, false, false, 0x0⟩,
   ⟨"DMAc_LEN", 0xd080c, 32, 32, 0, 1, 0xffffff, 0x0, 0x0, 0x0, false, false, 0x0⟩]

/-- Registers of the que span. -/
def rowsQue1 : List RegRow :=
  [⟨"DMAc_GO", 0xd0810, 32, 32, 0, 1, 0x0, 0x0, 0x0, 0x3, false, false, 0x0⟩,
   ⟨"DMAc_STAT", 0xd0814, 32, 32, 0, 1, 0x0, 0x0, 0x0, 0x0, false, false, 0x0⟩,
   ⟨"DMAc_ERRADDR", 0xd0818, 32, 32, 0, 1, 0x0, 0x0, 0x0, 0x0, false, false, 0x0⟩,
   ⟨"DMAc_COUNT", 0xd081c, 32, 32, 0, 1, 0x0, 0x0, 0x0, 0x0, false, false, 0x0⟩,
   ⟨"QUE_COMMIT", 0xd0400, 0, 1, 0, 1, 0x0, 0x0, 0x0, 0x0, true, false, 0x0⟩,
   ⟨"QUE_CFG", 0xd0404, 0, 1, 0, 1, 0x0, 0x1, 0x0, 0x0, false, false, 0x0⟩,
   ⟨"QUE_REFUSED", 0xd0408, 0, 1, 0, 1, 0x0, 0x0, 0x0, 0x0, false, false, 0x0⟩]

/-- Registers of the que span. -/
def rowsQue : List RegRow := rowsQue0 ++ rowsQue1

/-- Registers of the rtc span. -/
def rowsRtc0 : List RegRow :=
  [⟨"RTC_SEC", 0xb0000, 0, 1, 0, 1, 0x0, 0x0, 0x0, 0x0, false, false, 0x0⟩,
   ⟨"RTC_MIN", 0xb0004, 0, 1, 0, 1, 0x0, 0x0, 0x0, 0x0, false, false, 0x0⟩,
   ⟨"RTC_HOUR", 0xb0008, 0, 1, 0, 1, 0x0, 0x0, 0x0, 0x0, false, false, 0x0⟩,
   ⟨"RTC_DAY", 0xb000c, 0, 1, 0, 1, 0x0, 0x0, 0x0, 0x0, false, false, 0x1⟩,
   ⟨"RTC_MON", 0xb0010, 0, 1, 0, 1, 0x0, 0x0, 0x0, 0x0, false, false, 0x1⟩,
   ⟨"RTC_WDAY", 0xb0014, 0, 1, 0, 1, 0x0, 0x0, 0x0, 0x0, false, false, 0x6⟩,
   ⟨"RTC_YEAR", 0xb0018, 0, 1, 0, 1, 0x0, 0x0, 0x0, 0x0, false, false, 0x7d0⟩,
   ⟨"RTC_SEQ", 0xb001c, 0, 1, 0, 1, 0x0, 0x0, 0x0, 0x0, false, false, 0x0⟩,
   ⟨"RTC_SET_HMS", 0xb0020, 0, 1, 0, 1, 0x0, 0x0, 0x1f3f3f, 0x0, false, false, 0x0⟩,
   ⟨"RTC_SET_DATE", 0xb0024, 0, 1, 0, 1, 0x0, 0x0, 0xfff0f1f, 0x0, false, false, 0x0⟩,
   ⟨"RTC_COMMIT", 0xb0028, 0, 1, 0, 1, 0x0, 0x0, 0x0, 0x0, true, false, 0x0⟩,
   ⟨"RTC_CFG", 0xb002c, 0, 1, 0, 1, 0x0, 0x1, 0x0, 0x0, false, false, 0x0⟩]

/-- Registers of the rtc span. -/
def rowsRtc1 : List RegRow :=
  [⟨"RTC_STAT", 0xb0030, 0, 1, 0, 1, 0x0, 0x0, 0x0, 0x0, false, false, 0x1⟩,
   ⟨"RTC_TRIM", 0xb0034, 0, 1, 0, 1, 0xfff, 0x0, 0x0, 0x0, false, false, 0x0⟩,
   ⟨"RTC_CHG", 0xb0038, 0, 1, 0, 1, 0xff, 0x0, 0x0, 0x0, false, false, 0x0⟩,
   ⟨"RTC_STAMP_LO", 0xb003c, 0, 1, 0, 1, 0x0, 0x0, 0x0, 0x0, false, false, 0x0⟩,
   ⟨"RTC_STAMP_HI", 0xb0040, 0, 1, 0, 1, 0x0, 0x0, 0x0, 0x0, false, false, 0x0⟩]

/-- Registers of the rtc span. -/
def rowsRtc : List RegRow := rowsRtc0 ++ rowsRtc1

/-- Registers of the wdt span. -/
def rowsWdt : List RegRow :=
  [⟨"WDT_CFG", 0xb1000, 0, 1, 0, 1, 0x1f, 0x0, 0x0, 0x0, false, false, 0x1b⟩,
   ⟨"WDT_SLOTEN", 0xb1004, 0, 1, 0, 1, 0xffff, 0x0, 0x0, 0x0, false, false, 0x0⟩,
   ⟨"WDT_KEY", 0xb1008, 0, 1, 0, 1, 0x0, 0x0, 0x0, 0xffff, false, false, 0x0⟩,
   ⟨"WDT_CHECKIN", 0xb100c, 0, 1, 0, 1, 0x0, 0x0, 0x0, 0xf, false, false, 0x0⟩,
   ⟨"WDT_STAT", 0xb1010, 0, 1, 0, 1, 0x0, 0x0, 0x0, 0x0, false, false, 0x0⟩,
   ⟨"WDT_ELAPSED", 0xb1014, 0, 1, 0, 1, 0x0, 0x0, 0x0, 0x0, false, false, 0x0⟩,
   ⟨"WDT_CFGIGN", 0xb1018, 0, 1, 0, 1, 0x0, 0x0, 0x0, 0x0, false, false, 0x0⟩,
   ⟨"WDT_KEYERR", 0xb101c, 0, 1, 0, 1, 0x0, 0x0, 0x0, 0x0, false, false, 0x0⟩,
   ⟨"WDT_MISSES", 0xb1020, 0, 1, 0, 1, 0x0, 0x0, 0x0, 0x0, false, false, 0x0⟩,
   ⟨"WDT_WARNS", 0xb1024, 0, 1, 0, 1, 0x0, 0x0, 0x0, 0x0, false, false, 0x0⟩,
   ⟨"WDT_SLOTk", 0xb1040, 4, 16, 0, 1, 0xff03, 0x0, 0x0, 0x0, false, false, 0x0⟩]

/-- Registers of the fwu span. -/
def rowsFwu : List RegRow :=
  [⟨"FWU_STAT", 0xc0000, 0, 1, 0, 1, 0x0, 0x0, 0x0, 0x0, false, false, 0x0⟩,
   ⟨"FWU_NEXT", 0xc0004, 0, 1, 0, 1, 0x0, 0x0, 0x0, 0x0, false, false, 0x0⟩,
   ⟨"FWU_TOTAL", 0xc0008, 0, 1, 0, 1, 0x0, 0x0, 0x0, 0x0, false, false, 0x0⟩,
   ⟨"FWU_REMAIN", 0xc000c, 0, 1, 0, 1, 0x0, 0x0, 0x0, 0x0, false, false, 0x0⟩,
   ⟨"FWU_VER_RUN", 0xc0010, 0, 1, 0, 1, 0x0, 0x0, 0x0, 0x0, false, false, 0x0⟩,
   ⟨"FWU_VER_OTHER", 0xc0014, 0, 1, 0, 1, 0x0, 0x0, 0x0, 0x0, false, false, 0x0⟩,
   ⟨"FWU_STN", 0xc0018, 0, 1, 0, 1, 0x0, 0x0, 0x0, 0x0, false, false, 0x0⟩]

/-- Registers of the pwr span. -/
def rowsPwr0 : List RegRow :=
  [⟨"PWR_STAT", 0x1000, 0, 1, 0, 1, 0x0, 0x0, 0x0, 0x0, false, false, 0x0⟩,
   ⟨"PWR_CFG", 0x1004, 0, 1, 0, 1, 0x0, 0x0, 0x1ffff, 0x0, false, false, 0x2814⟩,
   ⟨"PWR_COMMIT", 0x1008, 0, 1, 0, 1, 0x0, 0x0, 0x0, 0x0, true, false, 0x0⟩,
   ⟨"PWR_CFGSTAT", 0x100c, 0, 1, 0, 1, 0x0, 0x1, 0x0, 0x0, false, false, 0x0⟩,
   ⟨"PWR_V0", 0x1010, 0, 1, 0, 1, 0x0, 0x0, 0x0, 0x0, false, false, 0x0⟩,
   ⟨"PWR_V1", 0x1014, 0, 1, 0, 1, 0x0, 0x0, 0x0, 0x0, false, false, 0x0⟩,
   ⟨"PWR_V2", 0x1018, 0, 1, 0, 1, 0x0, 0x0, 0x0, 0x0, false, false, 0x0⟩,
   ⟨"PWR_V3", 0x101c, 0, 1, 0, 1, 0x0, 0x0, 0x0, 0x0, false, false, 0x0⟩,
   ⟨"PWR_TEMP", 0x1020, 0, 1, 0, 1, 0x0, 0x0, 0x0, 0x0, false, false, 0x0⟩,
   ⟨"PWR_PFW", 0x1024, 0, 1, 0, 1, 0x0, 0x0, 0x0, 0x0, false, false, 0x0⟩,
   ⟨"CLK_STAT", 0x1040, 0, 1, 0, 1, 0x0, 0x0, 0x0, 0x0, false, false, 0x0⟩,
   ⟨"RST_CAUSE", 0x1080, 0, 1, 0, 1, 0x0, 0x0, 0x0, 0x0, false, false, 0x0⟩]

/-- Registers of the pwr span. -/
def rowsPwr1 : List RegRow :=
  [⟨"STORE_CTRL", 0x10c0, 0, 1, 0, 1, 0x0, 0x0, 0x0, 0x3, false, false, 0x0⟩,
   ⟨"STORE_STAT", 0x10c4, 0, 1, 0, 1, 0x0, 0x0, 0x0, 0x0, false, false, 0x0⟩]

/-- Registers of the pwr span. -/
def rowsPwr : List RegRow := rowsPwr0 ++ rowsPwr1

/-- Registers of the sys span. -/
def rowsSys0 : List RegRow :=
  [⟨"SYS_DEVICE", 0x0, 0, 1, 0, 1, 0x0, 0x0, 0x0, 0x0, false, false, 0x16160⟩,
   ⟨"SYS_REV", 0x4, 0, 1, 0, 1, 0x0, 0x0, 0x0, 0x0, false, false, 0x10000⟩,
   ⟨"SYS_FWVER", 0x8, 0, 1, 0, 1, 0x0, 0x0, 0x0, 0x0, false, false, 0x0⟩,
   ⟨"SYS_ROMVER", 0xc, 0, 1, 0, 1, 0x0, 0x0, 0x0, 0x0, false, false, 0x0⟩,
   ⟨"SYS_SEVER", 0x10, 0, 1, 0, 1, 0x0, 0x0, 0x0, 0x0, false, false, 0x0⟩,
   ⟨"SYS_IXEVER", 0x14, 0, 1, 0, 1, 0x0, 0x0, 0x0, 0x0, false, false, 0x0⟩,
   ⟨"SYS_HVVER", 0x18, 0, 1, 0, 1, 0x0, 0x0, 0x0, 0x0, false, false, 0x0⟩,
   ⟨"SYS_TWLVER", 0x1c, 0, 1, 0, 1, 0x0, 0x0, 0x0, 0x0, false, false, 0x0⟩,
   ⟨"SYS_UID0-SYS_UID3", 0x20, 4, 4, 0, 1, 0x0, 0x0, 0x0, 0x0, false, false, 0x0⟩,
   ⟨"SYS_MAC0_LO", 0x30, 0, 1, 0, 1, 0x0, 0x0, 0x0, 0x0, false, false, 0x0⟩,
   ⟨"SYS_MAC_HI", 0x34, 0, 1, 0, 1, 0x0, 0x0, 0x0, 0x0, false, false, 0x0⟩,
   ⟨"SYS_MAC1_LO", 0x38, 0, 1, 0, 1, 0x0, 0x0, 0x0, 0x0, false, false, 0x0⟩]

/-- Registers of the sys span. -/
def rowsSys1 : List RegRow :=
  [⟨"SYS_CAPS", 0x3c, 0, 1, 0, 1, 0x0, 0x0, 0x0, 0x0, false, false, 0x13010⟩,
   ⟨"SYS_STATE", 0x40, 0, 1, 0, 1, 0x0, 0x0, 0x0, 0x0, false, false, 0x0⟩,
   ⟨"SYS_SESS", 0x44, 0, 1, 0, 1, 0x0, 0x0, 0x0, 0x0, false, false, 0x0⟩,
   ⟨"SYS_DTIME_LO", 0x48, 0, 1, 0, 1, 0x0, 0x0, 0x0, 0x0, false, false, 0x0⟩,
   ⟨"SYS_DTIME_HI", 0x4c, 0, 1, 0, 1, 0x0, 0x0, 0x0, 0x0, false, false, 0x0⟩,
   ⟨"SYS_TICK", 0x50, 0, 1, 0, 1, 0x0, 0x0, 0x0, 0x0, false, false, 0x0⟩,
   ⟨"SYS_UPTIME", 0x54, 0, 1, 0, 1, 0x0, 0x0, 0x0, 0x0, false, false, 0x0⟩,
   ⟨"SYS_SCRATCH", 0x58, 0, 1, 0, 1, 0xffffffff, 0x0, 0x0, 0x0, false, false, 0x0⟩]

/-- Registers of the sys span. -/
def rowsSys : List RegRow := rowsSys0 ++ rowsSys1

/-- Registers of the hpi span. -/
def rowsHpi : List RegRow :=
  [⟨"HPI_HDR_ERR", 0x2000, 0, 1, 0, 1, 0x0, 0x0, 0x0, 0x0, false, false, 0x0⟩,
   ⟨"HPI_PCRC_ERR", 0x2004, 0, 1, 0, 1, 0x0, 0x0, 0x0, 0x0, false, false, 0x0⟩,
   ⟨"HPI_AUTH_FAIL", 0x2008, 0, 1, 0, 1, 0x0, 0x0, 0x0, 0x0, false, false, 0x0⟩,
   ⟨"HPI_BUSY", 0x200c, 0, 1, 0, 1, 0x0, 0x0, 0x0, 0x0, false, false, 0x0⟩,
   ⟨"HPI_REPEATS", 0x2010, 0, 1, 0, 1, 0x0, 0x0, 0x0, 0x0, false, false, 0x0⟩,
   ⟨"HPI_SPI_OVF", 0x2014, 0, 1, 0, 1, 0x0, 0x0, 0x0, 0x0, false, false, 0x0⟩,
   ⟨"HPI_UDP_LEN_ERR", 0x2018, 0, 1, 0, 1, 0x0, 0x0, 0x0, 0x0, false, false, 0x0⟩,
   ⟨"HPI_FRAG_TMO", 0x201c, 0, 1, 0, 1, 0x0, 0x0, 0x0, 0x0, false, false, 0x0⟩,
   ⟨"HPI_CLR", 0x2020, 0, 1, 0, 1, 0x0, 0x0, 0x0, 0x1, false, false, 0x0⟩]

/-- Registers of the eth span. -/
def rowsEth : List RegRow :=
  [⟨"ETHn_STAT", 0x3000, 1024, 2, 0, 1, 0x0, 0x0, 0x0, 0x0, false, false, 0x0⟩,
   ⟨"ETHn_RXOK", 0x3004, 1024, 2, 0, 1, 0x0, 0x0, 0x0, 0x0, false, false, 0x0⟩,
   ⟨"ETHn_TXOK", 0x3008, 1024, 2, 0, 1, 0x0, 0x0, 0x0, 0x0, false, false, 0x0⟩,
   ⟨"ETHn_RX_DROP", 0x300c, 1024, 2, 0, 1, 0x0, 0x0, 0x0, 0x0, false, false, 0x0⟩,
   ⟨"ETHn_RX_CRCERR", 0x3010, 1024, 2, 0, 1, 0x0, 0x0, 0x0, 0x0, false, false, 0x0⟩,
   ⟨"ETHn_DISCARD", 0x3014, 1024, 2, 0, 1, 0x0, 0x0, 0x0, 0x0, false, false, 0x0⟩,
   ⟨"ETHn_ARP_ANS", 0x3018, 1024, 2, 0, 1, 0x0, 0x0, 0x0, 0x0, false, false, 0x0⟩,
   ⟨"ETHn_CLR", 0x301c, 1024, 2, 0, 1, 0x0, 0x0, 0x0, 0x1, false, false, 0x0⟩]

/-- The rows of the span that holds an address (R609). -/
def rowsAt (a : Nat) : List RegRow :=
  if a < 0x1000 then rowsSys else if a < 0x2000 then rowsPwr else if a < 0x3000 then rowsHpi
  else if a < 0x4000 then rowsEth else if a < 0x10000 then [] else if a < 0x20000 then rowsSe
  else if a < 0x30000 then rowsTmb else if a < 0x31000 then rowsIxe else if a < 0x40000 then []
  else if a < 0x50000 then rowsFbp else if a < 0x60000 then rowsStn else if a < 0x61000 then rowsFio
  else if a < 0x70000 then [] else if a < 0x71000 then rowsTwl else if a < 0x80000 then []
  else if a < 0x81000 then rowsMiu else if a < 0x90000 then [] else if a < 0x91000 then rowsRsm
  else if a < 0xA0000 then [] else if a < 0xA4000 then rowsEvr else if a < 0xB0000 then []
  else if a < 0xB1000 then rowsRtc else if a < 0xB2000 then rowsWdt else if a < 0xC0000 then []
  else if a < 0xC1000 then rowsFwu else if a < 0xD0000 then [] else if a < 0xD1000 then rowsQue
  else if a < 0x30000000 then [] else if a < 0x30800000 then rowsIxeMem else []

/-- The row has an instance at address `a`. -/
def RegRow.hits (r : RegRow) (a : Nat) : Bool :=
  r.base ≤ a &&
    let d := a - r.base
    if r.s1 = 0 then d = 0
    else if r.s2 = 0 then d % r.s1 = 0 && d / r.s1 < r.c1
    else d / r.s1 < r.c1 && (d % r.s1) % r.s2 = 0 && (d % r.s1) / r.s2 < r.c2

/-- The register at a word address, where a table assigns one. -/
def regRow (a : Nat) : Option RegRow := (rowsAt a).find? (RegRow.hits · a)

/-- The reset priority of a context: system contexts and user contexts (R89's context table). -/
def ctxResetPrio (n : Nat) : Nat := if n = 1 then 62 else if n = 2 then 60 else if n = 3 then 59 else if n = 4 then 63
  else if n = 5 then 61 else if n = 6 then 58 else 0

/-- The value of a register after reset (R613). Feature state resets LCODE to 0xFFFF (R220). -/
def resetVal (a : Nat) : Word :=
  if 0x11008 ≤ a && a < 0x12400 && (a - 0x11000) % 32 = 8 then BitVec.ofNat 32 (ctxResetPrio ((a - 0x11000) / 32))
  else if 0x30000000 ≤ a && a < 0x30780000 then
    if a % 64 = 8 then 0xFFFF else 0
  else
  match regRow a with
  | some r => BitVec.ofNat 32 r.reset
  | none => 0

end Sys2Proof.Machine
end

