-- ==== Sys2Proof/Machine/Sparse.lean ====
section
/-! DEFINITION. Sparse data by key: a list of (key, value) pairs in rising key order with no entry
equal to what an unlisted key reads as. Memories, registers and arrays of the machine use it. -/

namespace Sys2Proof.Machine

/-- A map from numbers as a list of pairs in rising key order. -/
abbrev Sparse (α : Type) := List (Nat × α)

/-- The value at key `k`; `d` is what an unlisted key reads as. -/
def sget {α : Type} (d : α) : Sparse α → Nat → α
  | [], _ => d
  | (j, v) :: r, k => if j = k then v else sget d r k

/-- The map without any entry at `k`. -/
def sdel {α : Type} : Sparse α → Nat → Sparse α
  | [], _ => []
  | (j, v) :: r, k => if j = k then sdel r k else (j, v) :: sdel r k

/-- The map with `v` at `k`, in its place of the order. -/
def sins {α : Type} : Sparse α → Nat → α → Sparse α
  | [], k, v => [(k, v)]
  | (j, w) :: r, k, v =>
    if k < j then (k, v) :: (j, w) :: r else if j = k then (k, v) :: sdel r k else (j, w) :: sins r k v

/-- The map with `v` at `k`: the default `d` takes the entry away. -/
def sput {α : Type} [DecidableEq α] (d : α) (m : Sparse α) (k : Nat) (v : α) : Sparse α :=
  if v = d then sdel m k else sins m k v

/-- The map changed at `k` by `f`. -/
def supd {α : Type} [DecidableEq α] (d : α) (m : Sparse α) (k : Nat) (f : α → α) : Sparse α :=
  sput d m k (f (sget d m k))

/-- Keys strictly rising, and no entry equal to what its key reads as when it is not listed: the canonical
form. -/
def swfBy {α : Type} [DecidableEq α] (d : Nat → α) (m : Sparse α) : Bool :=
  decide ((m.map Prod.fst).Pairwise (· < ·)) && m.all fun e => decide (e.2 ≠ d e.1)

/-- The canonical form of a map in which every unlisted key reads as `d`. -/
def swf {α : Type} [DecidableEq α] (d : α) (m : Sparse α) : Bool := swfBy (fun _ => d) m

/-- The entries whose key passes a test. -/
def skeep {α : Type} (m : Sparse α) (p : Nat → Bool) : Sparse α := m.filter fun e => p e.1

/-- Every entry of `n` put over `m`. -/
def smerge {α : Type} [DecidableEq α] (d : α) (m n : Sparse α) : Sparse α :=
  n.foldl (fun a e => sput d a e.1 e.2) m

end Sys2Proof.Machine
end

