-- ==== Sys2Proof/Machine/State.lean ====
section
/-! DEFINITION. The state of the SG6160 as plain data, the fault and refusal names, and the state
right after reset. Registers whose value is data live in `regs` under their internal address (RegMap);
what the spec gives no register for lives in the structures below. -/

namespace Sys2Proof.Machine

/-- Operating states, with the codes of R76. -/
inductive OpState where
  | boot | recovery | stop | run | hold | fault
  deriving DecidableEq, Repr

/-- Twin roles, with the codes of R76. -/
inductive Role where
  | solo | primary | tracking | joining | detached
  deriving DecidableEq, Repr

/-- Power states (R565, R566). -/
inductive Power where
  | off | standby | on
  deriving DecidableEq, Repr

/-- STATE of a context (R90). -/
inductive CtxState where
  | disabled | waiting | released | running | preempted | publishing | held
  deriving DecidableEq, Repr

/-- One execution context (R85, R86, R90, R131). -/
structure Ctx where
  st       : CtxState := .disabled
  consec   : Nat := 0
  ovr      : Nat := 0
  respLast : Nat := 0
  respMax  : Nat := 0
  /-- G0 to G15 -/
  g        : Words := List.replicate 16 0
  /-- accumulator bit stack, top first -/
  stk      : List Bool := []
  pc       : Nat := 0
  sw       : Word := 0
  /-- one pending release (R103, R106) -/
  pend     : Bool := false
  /-- device time the instance was due, which RESP_LAST counts from, and of its release: later for a held one (R111) -/
  relT     : Nat := 0
  relAt    : Nat := 0
  /-- its snapshot copy has ended -/
  copied   : Bool := false
  /-- FIRST of R180, and: an instance has been released since entry into RUN from STOP -/
  first    : Bool := false
  ran      : Bool := false
  /-- queues on which a packet of this instance was truncated (R176) -/
  cut      : Nats := []
  /-- dirty list of the next mirror cycle: 64-byte blocks by DM address, and timers (R391) -/
  dirty    : Nats := []
  dirtyT   : Nats := []
  deriving DecidableEq, Repr

/-- A timer of the timer bank (R153): `base` whole units at tick `start` of the undisciplined 10 ns
count (R154). -/
structure Timer where
  mode  : Nat := 0
  unit  : Nat := 0
  run   : Bool := false
  inp   : Bool := false
  mir   : Bool := false
  base  : Nat := 0
  start : Nat := 0
  deriving DecidableEq, Repr

/-- Internal state of a shaft tracker (R125 to R129): accepted pulses since the last boundary, pulses
accepted since enable or stall (counted to 2), stamp of the last accepted pulse, last accepted interval,
the last boundary, the undisciplined tick the STALL time runs from, and the COUNT and PERIOD of completed
revolutions, newest first. -/
structure Shaft where
  pulse : Nat := 0
  acc   : Nat := 0
  last  : Nat := 0
  delta : Nat := 0
  bound : Nat := 0
  since : Nat := 0
  hist  : List (Nat × Nat) := []
  deriving DecidableEq, Repr

/-- A masked image write: the cells (byte offset, value, mask) it changes. -/
abbrev ImgCells := List (Nat × Byte × Byte)

/-- An input-image write (R19): its source, its cells, the triggers raised once it is in the image (R23, R101), and
its instant of arrival. `lost`: the port and station whose loss it carries (R110); `lat`: the receive stamp of the
record whose status it carries (R237). -/
structure ImgWrite where
  src   : ImgSource
  cells : ImgCells
  trigs : List Trigger := []
  lost  : Option (Nat × Nat) := none
  lat   : Option Nat := none
  t     : Nat := 0
  deriving DecidableEq, Repr

/-- A hold of R111: the lost station, and whether CTX2 has been released since its trigger. -/
structure Hold where
  port  : Nat
  stn   : Nat
  armed : Bool
  deriving DecidableEq, Repr

/-- A request to leave RUN, or a change among STOP, RUN and HOLD (R119, R121). -/
structure StateReq where
  target : OpState
  t      : Nat
  deriving DecidableEq, Repr

/-- An entry of the running program's region table (R389). -/
structure Region where
  start  : Nat
  len    : Nat
  mirror : Bool
  retain : Bool
  rid    : Nat
  deriving DecidableEq, Repr

/-- The chamber (R184), in the order of the codes of SE_SWAP_STAT. -/
inductive Chamber where
  | empty | open | closing | loaded | armed | swapping
  deriving DecidableEq, Repr

/-- An access of the MGC or of JTAG that a running Lock Swap holds (R197): a register or memory word written, a register
read that has a side effect, or a debug access. -/
inductive MgcAccess where
  | write (a : Nat) (v : Word)
  | lo (rd : Reader) (a : Nat)
  | jtag (a : Nat) (wr : Option Word)
  deriving DecidableEq, Repr

/-- Lock Swap: the chamber, and of an armed swap the undisciplined tick of arming and its TIMEOUT in s, and the
start of the running swap with the accesses it holds, oldest first (R193 to R200). -/
structure Swap where
  chamber : Chamber := .empty
  armT    : Nat := 0
  timeout : Nat := 0
  startT  : Nat := 0
  startG  : Nat := 0
  held    : List MgcAccess := []
  deriving DecidableEq, Repr

/-- The scan engine. -/
structure Se where
  ctxs     : Sparse Ctx := []
  active   : Option Nat := none
  /-- grid tick count, and: the count has started (CTX7 has completed) -/
  g        : Nat := 0
  gridOn   : Bool := false
  /-- CTX7 has not completed since entry into RUN (R115) -/
  starting : Bool := false
  /-- tick of the entry into RUN (R522) -/
  runT     : Nat := 0
  /-- the mark that no task has run since STOP (R121) -/
  fresh    : Bool := true
  /-- leaving RUN (R119); a change waiting for its instant (R121) -/
  leaving  : Option StateReq := none
  change   : Option StateReq := none
  /-- power-fail: no user task is released, CTX4 runs (R122); the undisciplined tick of the start of CTX4 -/
  pfail    : Bool := false
  ctx4At   : Option Nat := none
  /-- a power-fail warning that waits for the end of a running swap (R198) -/
  pfWait   : Bool := false
  /-- the SE has stopped after CTX4 (R122) -/
  halted   : Bool := false
  /-- device time of the latest grid tick -/
  gT       : Nat := 0
  /-- the RETAIN regions were restored valid at this start (R118, R465) -/
  warm     : Bool := false
  /-- a valid program is loaded (R584) -/
  program  : Bool := false
  swap     : Swap := {}
  copyQ    : Nats := []
  copying  : Option Nat := none
  /-- image writes that wait for the port, one of a source, in the order they are served; those their sources hold
  behind them, oldest first (R19, R640) -/
  imgWaits : List ImgWrite := []
  imgBack  : List ImgWrite := []
  trigQ    : List Trigger := []
  holds    : List Hold := []
  /-- PREV in bit 0, PRIMED in bit 1 of each edge cell (R150, R181) -/
  edge     : Sparse (BitVec 2) := []
  tmb      : Sparse Timer := []
  /-- units of the hot bit file, edge memory and TMB whose parity is wrong (R182) -/
  parBad   : Nats := []
  shafts   : Sparse Shaft := []
  /-- region table of the running program (R188, R389) -/
  regions  : List Region := []
  deriving DecidableEq, Repr

/-- What a queue remembers of a visible word in its ring (R487). -/
structure QMark where
  head   : Bool := false
  last   : Bool := false
  remain : Nat := 0
  deriving DecidableEq, Repr

/-- A hardware queue: the ring words lie in DM (R484); `rd` is the slot of the oldest visible word,
`opened` the source code and data words of an open packet (R489). -/
structure Queue where
  rd      : Nat := 0
  marks   : List QMark := []
  opened  : Option (Nat × Nat) := none
  overrun : Bool := false
  deriving DecidableEq, Repr

/-- A received frame that waits for another producer's packet to close (R270, R309): its port, source
code, queue and words, and the trigger its closing raises. -/
structure QWait where
  port  : Nat
  src   : Nat
  q     : Nat
  words : Words
  trig  : Option Trigger
  /-- undisciplined tick at which it began to wait -/
  t     : Nat
  deriving DecidableEq, Repr

/-- A running DMA transfer (R496): the copied registers, words moved, words gathered for an MRAM burst
and their address, and: its packet is open. -/
structure Dma where
  src    : Nat := 0
  dst    : Nat := 0
  len    : Nat := 0
  gather : Words := []
  gaddr  : Nat := 0
  opened : Bool := false
  started : Bool := false
  waited : Bool := false
  deriving DecidableEq, Repr

/-- An event record on its way to the ring (R472). -/
structure EvRec where
  time   : Nat
  code   : Nat
  subseq : Nat
  data   : Word
  supp   : Nat
  rtcseq : Word
  deriving DecidableEq, Repr

/-- The event recorder. -/
structure Evr where
  hq       : List EvRec := []
  lost     : Nat := 0
  subseq   : Sparse Nat := []
  /-- records used of each budget in its window: key 16*code + DATA[3:0] -/
  used     : Sparse Nat := []
  suppPend : Sparse Nat := []
  frozen   : Bool := false
  frozenAt : Nat := 0
  /-- records held by the freeze still to be written before EV 0x281, and how many were held -/
  drain    : Option (Nat × Nat) := none
  /-- slots reported under R474 -/
  reported : Nats := []
  deriving DecidableEq, Repr

/-- A reply or notice (R38), with the VERSION of its command; `key` is K_s of an authenticated session (R48). -/
structure Reply where
  ver     : Byte
  via     : Transport
  flags   : Byte
  opcode  : Nat
  tag     : BitVec 16
  session : BitVec 32
  status  : Nat
  data    : Bytes
  key     : Option Bytes
  deriving DecidableEq, Repr

/-- A cached final reply (R50). -/
structure Cached where
  tag   : BitVec 16
  pcrc  : BitVec 32
  reply : Reply
  deriving DecidableEq, Repr

/-- A session (R43 to R51). -/
structure Session where
  slot     : Nat
  handle   : BitVec 32
  via      : Transport
  idle     : Nat
  auth     : Bool
  ks       : Bytes
  fails    : Nat
  accepted : Nat
  /-- undisciplined tick of the last accepted command (R45) -/
  lastT    : Nat
  /-- highest accepted tag; bit i: tag H - i accepted (R49) -/
  high     : Option Nat
  seen     : Nat
  cache    : List Cached
  deriving DecidableEq, Repr

/-- An accepted command that has not started (R55). -/
structure Cmd where
  opcode : Nat
  req    : Req
  data   : Bytes
  deriving DecidableEq, Repr

/-- A LONG command that is running (R58), with the numbers its end needs. -/
structure Long where
  opcode : Nat
  req    : Req
  args   : Nats
  t      : Nat
  deriving DecidableEq, Repr

/-- An IPv4 reassembly for port 28,760, with the undisciplined tick it began at (R70). -/
structure Reasm where
  src   : UdpSource
  ident : Nat
  parts : List (Nat × Bytes)
  total : Option Nat
  t     : Nat
  deriving DecidableEq, Repr

/-- An IPv4 packet the device sends from port 28,760: where it goes, and of its datagram the offset, whether more
follows, and the bytes, the UDP header before the first of them (R68 to R70). -/
structure UdpPacket where
  dst  : UdpSource
  off  : Nat
  more : Bool
  data : Bytes
  deriving DecidableEq, Repr

/-- The command interface. -/
structure Hpi where
  sessions  : List Session := []
  openCount : Nat := 1
  nonces    : Nat := 0
  ownerKey  : Option Bytes := none
  ownerLock : Bool := false
  waiting   : List Cmd := []
  /-- a command is being carried out: it counts as outstanding until its reply is queued (R59) -/
  busy      : Bool := false
  longs     : List Long := []
  /-- the SPI reply queue, and the IPv4 packets of replies and notices sent on UDP, oldest first -/
  spiQ      : List Reply := []
  udpOut    : List UdpPacket := []
  /-- bytes of an incomplete packet received over SPI -/
  spiRx     : Bytes := []
  /-- bytes shifted out in the last SPI transfer, after the status word -/
  spiOut    : Bytes := []
  /-- the status word of the last SPI transfer -/
  spiStat   : Word := 0
  reasm     : List Reasm := []
  /-- datagrams in fragments that are discarded whole (R70) -/
  dropped   : List (UdpSource × Nat) := []
  deriving DecidableEq, Repr

/-- A commit that was requested and has not reached its safe point (R71 to R73): the staged group
copied at the request, and the undisciplined tick of the request. -/
structure Commit where
  blk    : Block
  staged : Sparse Word
  t      : Nat
  deriving DecidableEq, Repr


/-- A splice buffer entry (R429): a 64-bit word address, and for each byte the value it holds. -/
structure Splice where
  addr  : Nat
  bytes : List (Option Byte)
  who   : MemReader
  deriving DecidableEq, Repr

/-- A scrub in progress (R437 to R440): the pages still to do, the passes made over the first of them,
the counts of the summary and the command. -/
structure Scrub where
  pages    : Nats
  pass     : Nat
  reinit   : Bool
  words    : Nat
  rebuilt  : Nat
  uncorr   : Nat
  first    : Nat
  syndskip : Nat
  done     : Nat
  abort    : Bool
  deriving DecidableEq, Repr

/-- Damage in the protected memories as deviations from a good page (R416, R418), keyed by internal
address of the word or of the page: stored check xor right check of data words and of the two page-check
words, and stored P and Q xor the sums over the stored data. Empty lists: every check is right. -/
structure Miu where
  chk    : Sparse (BitVec 8) := []
  pchk   : Sparse (BitVec 8) := []
  qchk   : Sparse (BitVec 8) := []
  pdev   : Sparse (BitVec 64) := []
  qdev   : Sparse (BitVec 64) := []
  /-- rebuild caches (R424), newest first -/
  cache  : List (Nat × BitVec 64) := []
  /-- splice buffers (R429), oldest first -/
  splice : List Splice := []
  scrub  : Option Scrub := none
  deriving DecidableEq, Repr

/-- The retained store: MRAM words whose check fails (window offsets, R445), the start of the retain copy
that runs (R461), the page of the next margin read in turn, the pages whose rewrite is deferred, and the pages to
be margin-read again out of turn (R466, R467). -/
structure Rsm where
  flagged  : Nats := []
  retain   : Option Nat := none
  margin   : Nat := 0
  again    : Nats := []
  reread   : Nats := []
  deriving DecidableEq, Repr

/-- LINK of TWL_STAT, in the order of its codes (R412). -/
inductive Link where
  | down | training | up | conflict
  deriving DecidableEq, Repr

/-- A frame on the towline (R377). -/
inductive TwlFrame where
  | tick (time : Nat)
  | ack (seq : Nat) (nak : Bool)
  | echo (w0 w1 : Word)
  | cap (ws : Words)
  | ctrl (op arg data : Nat)
  | mirBegin (ctx : Nat) (nextValid : Bool) (next : Nat)
  | mirData (blocks : Blocks)
  | mirTimer (recs : TimerRecs)
  | mirEnd (ctx blocks timers : Nat)
  /-- the part of the snapshot of a KIND, from the state at its sending (R402) -/
  | snap (kind : Nat)
  | snapEnd (time : Nat)
  | stnsync (port stn : Nat) (w5 w6 : Word)
  | req (port stn : Nat) (token : Byte) (seq : Nat) (data : Bytes)
  | shaft (sh : Nat) (count : Word) (stamp : Nat)
  deriving DecidableEq, Repr

/-- A mirror cycle that is received, complete, or announced (R393, R395). -/
structure MirCycle where
  ctx    : Nat
  next   : Option Nat
  blocks : Blocks
  timers : TimerRecs
  deriving DecidableEq, Repr

/-- A mirror cycle the PRIMARY has to send (R392): the dirty list, the end of the instance, and the grid tick of the
context's next release as of then (R393). -/
structure MirSend where
  ctx    : Nat
  next   : Option Nat
  blocks : Nats
  timers : Nats
  t      : Nat
  deriving DecidableEq, Repr

/-- The exchange of R206: ARG 0 a Lock Swap, 1 a switchover, its tick g_s, and: GO was sent or received. -/
structure Exch where
  arg : Nat
  gs  : Nat
  go  : Bool
  deriving DecidableEq, Repr

/-- A switchover that was requested: its request instant, and: the unit detaches after it (R413). -/
structure SwitchReq where
  t      : Nat
  detach : Bool
  deriving DecidableEq, Repr

/-- The towline and the twin. -/
structure Twl where
  link      : Link := .down
  pali      : Bool := false
  palo      : Bool := false
  paliFault : Bool := false
  /-- the twin's capability record, and the own one sent last (R381) -/
  peer      : Option Words := none
  capSent   : Option Words := none
  /-- the towline was lost in TRACKING with a swap armed: the twin may have swapped (R207) -/
  swapLoss  : Bool := false
  jphase    : Nat := 0
  /-- the pair claim, transmitted in PRIMARY and TRACKING (R368) -/
  pairClaim : Nat := 0
  /-- the next FSEQ, the replay buffer, and how often its first frame was repeated (R376, R378) -/
  fseq      : Nat := 0
  replay    : List (Nat × TwlFrame) := []
  repeats   : Nat := 0
  /-- the latest TICK, ACK or ECHO frame sent -/
  sent      : Option TwlFrame := none
  lastTick  : Nat := 0
  /-- failed training attempts in a row (R380) -/
  fails     : Nat := 0
  /-- end of the start-up wait, as an undisciplined tick (R372) -/
  wait      : Option Nat := none
  /-- PALIQ sent and not answered (R385) -/
  paliq     : Option Nat := none
  /-- a LEAVE was received: SOLO at the next grid tick (R407) -/
  left      : Bool := false
  /-- the loss of PALI that follows a LEAVE is expected (R407) -/
  calm      : Bool := false
  exch      : Option Exch := none
  switch    : Option SwitchReq := none
  /-- a state change of the pair and its grid tick (R386) -/
  pairReq   : Option (OpState × Nat) := none
  cyc       : Option MirCycle := none
  done      : List MirCycle := []
  /-- the latest MIR_BEGIN of each context: the tick it announces, plus 1 (R396) -/
  announced : Sparse Nat := []
  /-- cyclic releases that wait for their mirror cycle: context and due tick (R396) -/
  waitRel   : List (Nat × Nat) := []
  send      : List MirSend := []
  te        : Option Nat := none
  /-- instances released since SNAP_END, by context (R404) -/
  tracked   : Sparse Nat := []
  /-- frames received in order modulo 256, and the latest CREDIT of the twin (R378) -/
  rseq      : Nat := 0
  credit    : Nat := 0
  /-- the last epoch received from the twin (R370) -/
  peerEpoch : Option Nat := none
  /-- shafts that take the PRIMARY's COUNT at their next accepted pulse: COUNT and STAMP (R398) -/
  shSync    : Sparse (Nat × Nat) := []
  deriving DecidableEq, Repr

/-- A reduced record in the IXE input queue: its data field, its source, and the end of its frame. -/
structure IxeRec where
  data : Bytes
  port : Nat
  stn  : Nat
  t    : Nat
  deriving DecidableEq, Repr

/-- The indicator engine beside its registers and its state memory. -/
structure Ixe where
  inq      : List IxeRec := []
  /-- points that take any RSEQ in their next record (R217, R234); points that timed out (R228) -/
  anySeq   : Nats := []
  lapsed   : Nats := []
  /-- output in bit 0 and VALID in bit 1 of each vote group; groups held after an integrity error (R235) -/
  votes    : Sparse Nat := []
  voteHeld : Nats := []
  /-- the whole second of device time that is counted, and the records accepted in it (IXE_RATE) -/
  rateWin  : Nat := 0
  rateN    : Nat := 0
  deriving DecidableEq, Repr

/-- A frame a port has taken for transmission (R258, R260): STATE 1 PENDING or 2 ACTIVE, class M or the
window it belongs to as start and end in ns; `past`: that window has ended. -/
structure TxFrm where
  st    : Nat := 0
  m     : Bool := false
  id    : Nat := 0
  ide   : Bool := false
  fdf   : Bool := false
  brs   : Bool := false
  /-- ESI as sent: recessive in error passive (R240) -/
  esi   : Bool := false
  dlc   : Nat := 0
  data  : Bytes := []
  since : Nat := 0
  till  : Nat := 0
  past  : Bool := false
  deriving DecidableEq, Repr

/-- A shaft as the port took it at the load instant of the REFERENCE window (R27). -/
structure BeaconShaft where
  sh      : Nat
  run     : Bool
  stopped : Bool
  count   : Nat
  period  : Nat
  ppr     : Nat
  held    : Nat
  trk     : Shaft
  deriving DecidableEq, Repr

/-- A frame routed to STN (R268): its filter and its receive stamp. -/
structure StnRx where
  f      : CanFrame
  filter : Nat
  t      : Nat
  deriving DecidableEq, Repr

/-- A window of a station in CLAIM_SET (R311): START and LEN in µs, TYPE, and cycles c with c mod 2^PERX = FIRST. -/
structure ClaimWin where
  start : Nat
  len   : Nat
  ty    : Nat
  perx  : Nat
  first : Nat
  deriving DecidableEq, Repr

/-- The parameters of CLAIM_SET as a station-mode port keeps them (R311, R321). -/
structure ClaimSet where
  pointBase : Nat := 0
  kaper     : Nat := 0
  bclen     : Nat := 0
  ncyc      : Nat := 0
  wins      : List ClaimWin := []
  deriving DecidableEq, Repr

/-- A CAN FD port beside its registers. Buffers 0 to 63 are those of R256; 64 is the reference message, 65 a
class 6 response and 66 a keepalive of a station-mode port, 128 + s the management request to station s. -/
structure Fbp where
  tx       : Sparse TxFrm := []
  /-- the load register (R260) -/
  load     : Sparse TxFrm := []
  beacon   : List BeaconShaft := []
  /-- buffers whose cancel came too late (R264) -/
  late     : Nats := []
  active   : Option Nat := none
  /-- the undisciplined tick at which the last frame on the bus ended (R72) -/
  quiet    : Nat := 0
  /-- suspend transmission (R274); the wait of R246 for 11 recessive bits -/
  susp     : Bool := false
  wait11   : Bool := false
  /-- number and start instant of the current basic cycle -/
  cyc      : Option (Nat × Nat) := none
  /-- the first instant at which a changed timetable runs (R295) -/
  ttFrom   : Nat := 0
  /-- the window that runs: descriptor and effective type -/
  win      : Option (Nat × Nat) := none
  /-- calibration steps made of the full calibration, and full calibrations applied (R255) -/
  calN     : Nat := 0
  calDone  : Nat := 0
  /-- a burst runs in the present window; the start of the measurement (R282, R283) -/
  burst    : Bool := false
  tdr      : Option Nat := none
  rx       : List StnRx := []
  /-- stations with an expected frame in this basic cycle (R316) -/
  got      : Nats := []
  /-- station mode: ACTIVE rather than LEARNING, the highest claim, streams by class with h and seen, the cached
  response, and counts of rejected claims and duplicates (R321 to R324) -/
  smActive : Bool := false
  /-- the parameters of the accepted CLAIM_SET (R311) -/
  claimSet : ClaimSet := {}
  claim    : Option Nat := none
  streams  : List (Nat × Nat × Nat) := []
  cached   : Option (Nat × Bytes) := none
  claimRej : Nat := 0
  dup      : Nat := 0
  eseq     : Nat := 0
  /-- undisciplined tick of the last accepted output frame (R281) -/
  lastOut  : Nat := 0
  deriving DecidableEq, Repr

/-- A management exchange (R312); `host`: it belongs to STN_MGMT. -/
structure Mgmt where
  op     : Nat
  tok    : Nat
  params : Bytes
  tries  : Nat
  t      : Nat
  host   : Bool
  deriving DecidableEq, Repr

/-- A station beside its entry: the next TOKEN, the exchange that runs, the instant its next poll is due, a
HELLO, segment 0 of its capability record, its LOST bit, a frame in the keepalive period, and the instant WAITFIRST
was entered (R311 to R317). Instants are undisciplined ticks. -/
structure Stn where
  tok   : Nat := 0
  first : Nat := 0
  x     : Option Mgmt := none
  due   : Nat := 0
  hello : Bool := false
  cap0  : Bytes := []
  lost  : Bool := false
  heard : Bool := false
  deriving DecidableEq, Repr

/-- A field channel beside its registers: the filter of R339 with the last filtered value, VALUE as the last
sample word carried it, the end of the blanking period (R343), the raised diagnostics with the contrary samples
in a row (R344; 5 stands for a held-high channel, codes 5 and 6), SHORT reported and held off (R347), OVERTEMP
(R348), the turn-on instant and the first readback 1 of the present off period (R349), and VFLD at the turn-on
(R353). -/
structure FioCh where
  cand  : Bool := false
  cnt   : Nat := 0
  filt  : Bool := false
  sent  : Bool := false
  blank : Nat := 0
  conds : Sparse (Bool × Nat) := []
  short : Bool := false
  held  : Bool := false
  offAt : Nat := 0
  hot   : Bool := false
  onAt  : Nat := 0
  rb1   : Option Nat := none
  vfld  : Nat := 0
  deriving DecidableEq, Repr

/-- The FIO beside its registers. -/
structure Fio where
  chans    : Sparse FioCh := []
  /-- output update ticks since reset (R331, R337) -/
  ticks    : Nat := 0
  /-- a valid output image has arrived (R583), ticks in a row without one (R14), and a die link loss for the next start
  to record -/
  linkSeen : Bool := false
  linkBad  : Nat := 0
  linkLost : Bool := false
  /-- command, acknowledge and clear bits of the last output line taken (R332) -/
  cmd      : Nat := 0
  ack      : Nat := 0
  clr      : Nat := 0
  /-- the PALI loss of R360 in TRACKING, and: EV 0x188 is due at the next output update tick -/
  takeover : Bool := false
  takeNew  : Bool := false
  /-- groups that turned OFF since the last tick (R357) -/
  offPend  : Nats := []
  /-- group currents of the last 1,000 telemetry sweeps, newest first (R362) -/
  sums     : List Nats := []
  deriving DecidableEq, Repr

/-- The RTC beside its registers: the shadow sets that are frozen with the start of each freeze (R509), the TRIM of
the running window (R514), and: the charger has stopped at VCUT (R515). -/
structure Rtc where
  shadows : List (Reader × Nat × Words) := []
  trim    : Word := 0
  cut     : Bool := false
  deriving DecidableEq, Repr

/-- The watchdog beside its registers: the tick its period started at, the key step, the warning phase, the
slots marked, and the configuration accepted for the next period, by address (R519 to R525). -/
structure Wdt where
  start   : Nat := 0
  keyStep : Bool := false
  warn    : Bool := false
  marks   : Nats := []
  next    : Sparse Word := []
  deriving DecidableEq, Repr

/-- A valid slot record (R534). -/
structure SlotRec where
  seq      : Nat := 0
  active   : Nat := 0
  trial    : Bool := false
  starts   : Nat := 0
  pending  : Bool := false
  confwin  : Nat := 1
  autoconf : Bool := false
  pkgdig   : Bytes := []
  deriving DecidableEq, Repr

/-- A boot slot that can start: the image of the factory, or one copied from a package, with its package
header and its manifest entries (R534; log entry 30). -/
inductive SlotImg where
  | factory
  | pkg (header entries : Bytes)
  deriving DecidableEq, Repr

/-- Settings of an Ethernet port (R593). -/
structure EthCfg where
  en   : Bool := false
  vlan : Nat := 0
  pcp  : Nat := 0
  mtu  : Nat := 1500
  ip   : Word := 0
  mask : Word := 0
  gw   : Word := 0
  deriving DecidableEq, Repr

/-- PTP settings (R593). -/
structure PtpCfg where
  port   : Option Nat := none
  domain : Nat := 0
  stepen : Bool := false
  stepth : Nat := 1000
  deriving DecidableEq, Repr

/-- A settings area: committed configuration and the settings of Ethernet and device time (R550, R588). -/
structure Settings where
  live : Sparse Word
  eth  : List EthCfg
  ptp  : PtpCfg
  deriving DecidableEq, Repr

/-- A half of the program store with its record (R588). -/
structure StoreHalf where
  seq : Nat
  img : Bytes
  deriving DecidableEq, Repr

/-- A store operation that runs, with what it stores (R588). -/
inductive StoreOp where
  | image (op : Nat) (half : Nat) (img : Bytes)
  | settings (x : Settings)
  deriving DecidableEq, Repr

/-- A station image operation to do: the station, the manifest entry, the operation that runs or comes next and
its data offset (R554 to R556). -/
structure ImgJob where
  k     : Nat
  entry : Nat
  op    : Nat
  off   : Nat
  deriving DecidableEq, Repr

/-- STATE of FWU_STAT, in the order of its codes (R538). -/
inductive FwuState where
  | idle | erasing | receiving | verifying | verified | activating
  deriving DecidableEq, Repr

/-- Firmware update and the flash: the two slot records, the boot slots, the staging area, the program store and
the settings areas by slot (R533 to R560, R588). -/
structure Fwu where
  st       : FwuState := .idle
  rec0     : Option SlotRec := some {}
  rec1     : Option SlotRec := none
  slot0    : Option SlotImg := some .factory
  slot1    : Option SlotImg := none
  /-- the running slot -/
  run      : Nat := 0
  /-- staging: header, manifest and signature; the VERIFIED mark; the data stream received -/
  head     : Option Bytes := none
  mark     : Bool := false
  data     : Bytes := []
  /-- bytes in the program buffer at a tick (R540) -/
  buf      : Nat := 0
  bufT     : Nat := 0
  /-- first entry whose digest did not match (R541) -/
  bad      : Option Nat := none
  setinc   : Bool := false
  lastres  : Nat := 0
  staged   : Nat := 0
  failed   : Nat := 0
  jobs     : List ImgJob := []
  acted    : Nat := 0
  refused  : Nat := 0
  /-- sequence counters saved for a restart (R543), by register address -/
  saved    : Option (Sparse Word) := none
  /-- settings areas of slots 0 and 1 -/
  area0    : Option Settings := none
  area1    : Option Settings := none
  prog0    : Option StoreHalf := none
  prog1    : Option StoreHalf := none
  storeOp  : Option StoreOp := none
  /-- tick at which STOP was reached by this start (R549) -/
  upAt     : Nat := 0
  /-- A trial that ended in RUN or HOLD: the restart waits until that state has been left (R548). -/
  fellBack : Bool := false
  /-- a step that a reset interrupted (R553) -/
  broken   : Option Nat := none
  deriving DecidableEq, Repr

/-- A frame an Ethernet port answers with (R590). -/
inductive EthOut where
  | arp (port : Nat) (ip : Word)
  | echo (port : Nat) (ip : Word) (data : Bytes)
  deriving DecidableEq, Repr

/-- An Ethernet port: its settings, those that take effect at the next management tick, and what the PHY reports
(R590, R593). -/
structure EthPort where
  cfg   : EthCfg := {}
  next  : Option EthCfg := none
  up    : Bool := false
  speed : Nat := 0
  half  : Bool := false
  deriving DecidableEq, Repr

/-- Ethernet and device time (R590 to R593). -/
structure Eth where
  port0 : EthPort := { cfg := { en := true, ip := 0xC0A83D3C, mask := 0xFFFFFF00 } }
  port1 : EthPort := {}
  ptp   : PtpCfg := {}
  /-- servo state, offset in ns, path delay in ns, adjustment in ppb, master identity -/
  state  : Nat := 0
  offset : Int := 0
  delay  : Nat := 0
  ppb    : Int := 0
  master : Nat := 0
  out    : List EthOut := []
  deriving DecidableEq, Repr

/-- Power: the cause latch of the always-on domain (R577), a die at 135 °C or above at the last sweep (R571),
CLK_STAT as it stood before a clock failure (R594), the 32.768 kHz oscillator runs (R575), and: AUTORUN waits for
its management tick (R586); RSTOUT_N, low from a reset until the boot ROM starts (R578). -/
structure Pwr where
  latch : Nat := 0
  rstout : Bool := false
  hot   : Bool := false
  clk   : Word := 0
  x32   : Bool := true
  auto  : Bool := false
  deriving DecidableEq, Repr

/-- The whole machine. -/
structure State where
  /-- commands waiting, first in first out -/
  pending  : List Instr := []
  power    : Power := .on
  op       : OpState := .boot
  role     : Role := .solo
  /-- device time in ns (R26); undisciplined 10 ns ticks since the end of the last reset (R154) -/
  dtime    : Nat := 0
  utick    : Nat := 0
  /-- what the undisciplined count has left over from device time, in 1e-9 ns of device time -/
  uRem     : Nat := 0
  /-- register values that are not at reset, by address; STAGED registers: the value last written -/
  regs     : Sparse Word := []
  /-- committed values of STAGED registers that are not at reset -/
  live     : Sparse Word := []
  commits  : List Commit := []
  /-- _HI halves latched for a reader, by reader and _LO address (R488, R611) -/
  latches  : List (Reader × Nat × Word) := []
  /-- event code that caused FAULT (R76) -/
  fcause   : Option Nat := none
  /-- undisciplined tick of a restart that has been scheduled (R75) -/
  restart  : Option Nat := none
  pm       : Sparse Byte := []
  dm       : Sparse Byte := []
  mram     : Sparse Byte := []
  inImg    : Sparse Byte := []
  outImg   : Sparse Byte := []
  se       : Se := {}
  hpi      : Hpi := {}
  queues   : Sparse Queue := []
  qWaits   : List QWait := []
  dmas     : Sparse Dma := []
  evr      : Evr := {}
  miu      : Miu := {}
  rsm      : Rsm := {}
  twl      : Twl := {}
  ixe      : Ixe := {}
  fbp      : Sparse Fbp := []
  /-- stations, by 96 times the port plus the station -/
  stn      : Sparse Stn := []
  fio      : Fio := {}
  rtc      : Rtc := {}
  wdt      : Wdt := {}
  fwu      : Fwu := {}
  eth      : Eth := {}
  pwr      : Pwr := {}
  /-- the word the latest JTAG debug read shifted out, until the TAP is reset -/
  jtag     : Option Word := none
  /-- counter of the free values read (log entry 1) -/
  freeN    : Nat := 0
  deriving DecidableEq, Repr

/-- Where the machine stops. -/
inductive Fault where
  /-- PIN_RESET with a low pulse from 100 ns to 1 µs, whose effect R634 does not specify. Safe: the
  machine stops. -/
  | pulseWidthUnspecified
  deriving DecidableEq, Repr

/-- What the model does not run. -/
inductive Refusal where
  /-- a row of the table without a meaning yet; no arm raises it once the model is whole. Safe. -/
  | notModelled (mnemonic : String)
  deriving DecidableEq, Repr

/-- The machine right after a power-on reset (R576, R613), before the start-up sequence of R582. -/
def State.reset : State := {}

end Sys2Proof.Machine
end

