-- ==== Sys2Proof/Machine/Ops.lean ====
section
/-! DEFINITION. The operations every block shares: registers and their fields, counters, latches,
memories and images, device time, free values, and the intake of the event recorder. -/

namespace Sys2Proof.Machine

/-! ### Registers -/

/-- The value of the register at `a` (the value last written, for a STAGED register). -/
def State.rd (s : State) (a : Nat) : Word := sget (resetVal a) s.regs a

/-- The register at `a` set to `v`. -/
def State.wr (s : State) (a : Nat) (v : Word) : State :=
  { s with regs := sput (resetVal a) s.regs a v }

/-- A register as a number. -/
def State.rdN (s : State) (a : Nat) : Nat := (s.rd a).toNat

/-- Bits `hi:lo` of a register. -/
def State.fld (s : State) (a hi lo : Nat) : Nat := bitsOf (s.rd a) hi lo

/-- A register with bits `hi:lo` set to `v`. -/
def State.setFld (s : State) (a hi lo v : Nat) : State := s.wr a (setBits (s.rd a) hi lo v)

/-- The committed value of the STAGED register at `a` (R7). -/
def State.lv (s : State) (a : Nat) : Word := sget (resetVal a) s.live a

/-- Bits `hi:lo` of the committed value. -/
def State.lf (s : State) (a hi lo : Nat) : Nat := bitsOf (s.lv a) hi lo

/-- A 32-bit counter register counted up by `n`, stopping at 0xFFFF_FFFF. -/
def State.addCnt (s : State) (a n : Nat) : State := s.wr a (BitVec.ofNat 32 (satAdd (s.rdN a) n 0xFFFFFFFF))

/-- A 32-bit counter register counted up by 1. -/
def State.inc (s : State) (a : Nat) : State := s.addCnt a 1

/-- A counter field counted up by 1, stopping at its largest value. -/
def State.incFld (s : State) (a hi lo : Nat) : State :=
  s.setFld a hi lo (satAdd (s.fld a hi lo) 1 (2 ^ (hi + 1 - lo) - 1))

/-- A bit of a register set or cleared. -/
def State.setBit (s : State) (a i : Nat) (b : Bool) : State := s.setFld a i i (b2n b)

/-- A bit of a register. -/
def State.bit (s : State) (a i : Nat) : Bool := s.fld a i i = 1

/-- Registers set to 0, one after another. -/
def State.clearAll (s : State) (as : Nats) : State := as.foldl (fun s a => s.wr a 0) s

/-- Registers from `a` upwards set to the words. -/
def State.wrs (s : State) (a : Nat) : Words → State
  | [] => s
  | w :: ws => (s.wr a w).wrs (a + 4) ws

/-! ### A staged group under check (R9) -/

/-- The value a staged group gives the register at `a`. -/
def sv (m : Sparse Word) (a : Nat) : Word := sget (resetVal a) m a

/-- Bits `hi:lo` of it. -/
def sf (m : Sparse Word) (a hi lo : Nat) : Nat := bitsOf (sv m a) hi lo

/-- The lowest of some addresses (R9). -/
def lowest : Nats → Option Nat
  | [] => none
  | a :: as => some (as.foldl min a)

/-! ### Latches -/

/-- The `_HI` half a reader's last read of `_LO` at `a` latched, or 0 (R488, R611). -/
def State.latch (s : State) (r : Reader) (a : Nat) : Word :=
  match s.latches.find? fun e => e.1 = r && e.2.1 = a with
  | some e => e.2.2
  | none => 0

/-- `v` latched for the reader. -/
def State.setLatch (s : State) (r : Reader) (a : Nat) (v : Word) : State :=
  { s with latches := (r, a, v) :: s.latches.filter fun e => !(e.1 = r && e.2.1 = a) }

/-! ### Byte memories and images -/

/-- `n` bytes of a memory from `a`. -/
def memBytes (m : Sparse Byte) (a n : Nat) : Bytes := (List.range n).map fun i => sget 0 m (a + i)

/-- Bytes put into a memory from `a`. -/
def memPut (m : Sparse Byte) (a : Nat) : Bytes → Sparse Byte
  | [] => m
  | b :: bs => memPut (sput 0 m a b) (a + 1) bs

/-- The little-endian number in `n` bytes of a memory at `a` (R5). -/
def memNat (m : Sparse Byte) (a n : Nat) : Nat := leNat (memBytes m a n)

/-- A memory word. -/
def memWord (m : Sparse Byte) (a : Nat) : Word := BitVec.ofNat 32 (memNat m a 4)

/-- The masked cells put into an image (R18). -/
def imgPut (m : Sparse Byte) (cs : ImgCells) : Sparse Byte :=
  cs.foldl (fun m c => sput 0 m c.1 ((sget 0 m c.1 &&& ~~~c.2.2) ||| (c.2.1 &&& c.2.2))) m

/-- Whole bytes as cells of an image write. -/
def cellsOf (a : Nat) (bs : Bytes) : ImgCells :=
  (List.range bs.length).map fun i => (a + i, bs.getD i 0, 0xFF)

/-- One bit as a cell of an image write. -/
def bitCell (a i : Nat) (v : Bool) : Nat × Byte × Byte :=
  (a, if v then BitVec.ofNat 8 (2 ^ (i % 8)) else 0, BitVec.ofNat 8 (2 ^ (i % 8)))

/-- A 2-bit or wider field inside one byte, as a cell. -/
def fieldCell (a lo width v : Nat) : Nat × Byte × Byte :=
  (a, BitVec.ofNat 8 ((v % 2 ^ width) * 2 ^ lo), BitVec.ofNat 8 ((2 ^ width - 1) * 2 ^ lo))

/-! ### Time and free values -/

/-- What 1 s of the undisciplined clock is in ns of device time: the slew of R592, suspended in TRACKING and
JOINING, and 0 while no port disciplines device time. -/
def State.secondOf (s : State) : Nat :=
  if s.eth.ptp.port.isNone || s.role = .tracking || s.role = .joining then 1000000000
  else Int.toNat (1000000000 + s.eth.ppb)

/-- Device time reaches `t`: it never runs back and has a resolution of 10 ns (R26); the undisciplined 10 ns count
advances at its own rate, which a slew of device time does not change (R154, R592). -/
def State.at (s : State) (t : Nat) : State :=
  let n := t / 10 * 10
  if s.dtime < n then
    let r := s.uRem + (n - s.dtime) * 1000000000
    { s with dtime := n, utick := s.utick + r / (10 * s.secondOf), uRem := r % (10 * s.secondOf) }
  else s

/-- Device time set to another value (R28, R382, R592): the undisciplined count does not move (R154), and what a
shaft remembers of device time and the instant of the latest grid tick move with it, so that no interval spans the
step. -/
def State.stepTime (s : State) (n : Nat) : State :=
  let mv (t : Nat) : Nat := t + n - s.dtime
  { s with dtime := n, se := { s.se with gT := mv s.se.gT, shafts :=
      (s.se.shafts.map fun e => (e.1, { e.2 with last := mv e.2.last, bound := mv e.2.bound })) } }

/-- The next free value, and the state that has read it (log entry 1). -/
def State.free (s : State) : Nat × State := (Config.freeValue s.freeN, { s with freeN := s.freeN + 1 })

/-- UNIT of the device: 0 A, 1 B (R579). -/
def State.unitN (s : State) : Nat := s.fld Addr.rstCause 8 8

/-! ### Event recorder intake (R476 to R480) -/

/-- The committed rate table word 0 of a code. -/
def State.rateWord (s : State) (code : Nat) : Word := s.lv (Addr.evrRateW0 code)

/-- The budget an event of a code counts in: one per DATA[3:0] when SPLIT = 1 (R478). -/
def budgetKey (rate : Word) (code : Nat) (data : Word) : Nat :=
  16 * code + (if bitsOf rate 12 12 = 1 then bitsOf data 3 0 else 0)

/-- The rate limit lets the event through (R478, R479). -/
def State.rateOk (s : State) (code : Nat) (data : Word) : Bool :=
  let w := s.rateWord code
  bitsOf w 13 13 = 0 &&
    (bitsOf w 7 0 = 0 || sget 0 s.evr.used (budgetKey w code data) < bitsOf w 7 0)

/-- A suppressed event: SUPP of the table, EVR_SUPP and the SUPP of the next record (R479). -/
def State.evSuppress (s : State) (code : Nat) : State :=
  let s := (s.inc (Addr.evrRateW1 code)).inc Addr.evrSupp
  { s with evr := { s.evr with suppPend := supd 0 s.evr.suppPend code fun n => satAdd n 1 0xFFFFFFFF } }

/-- The next SUBSEQ of a code's subsystem is taken (R476). -/
def State.takeSubseq (s : State) (code : Nat) : Nat × State :=
  let k := code / 64
  let n := sget 0 s.evr.subseq k
  (n, { s with evr := { s.evr with subseq := sput 0 s.evr.subseq k ((n + 1) % 65536) } })

/-- An event that passed its rate limit enters the holding queue, or is lost (R477). -/
def State.evHold (s : State) (code : Nat) (data : Word) : State :=
  let (n, s) := s.takeSubseq code
  if s.evr.hq.length < 64 then
    let e := s.evr
    let r : EvRec := ⟨s.dtime, code, n, data, sget 0 e.suppPend code, s.rd Addr.rtcSeq⟩
    { s with evr := { e with hq := e.hq ++ [r], suppPend := sdel e.suppPend code } }
  else
    let s := s.inc Addr.evrLost
    { s with evr := { s.evr with lost := s.evr.lost + 1 } }

/-- An event of a code with its data reaches the intake (R476, R477, R479). -/
def State.event (s : State) (code : Nat) (data : Word) : State :=
  if s.rateOk code data then
    let w := s.rateWord code
    let s := if bitsOf w 7 0 = 0 then s else
      { s with evr := { s.evr with used := supd 0 s.evr.used (budgetKey w code data) (· + 1) } }
    s.evHold code data
  else s.evSuppress code

/-- An event whose data is a number. -/
def State.ev (s : State) (code data : Nat) : State := s.event code (BitVec.ofNat 32 data)

/-! ### Components -/

/-- Context `n` (R85). -/
def State.ctx (s : State) (n : Nat) : Ctx := sget {} s.se.ctxs n

/-- Context `n` replaced. -/
def State.setCtx (s : State) (n : Nat) (c : Ctx) : State :=
  { s with se := { s.se with ctxs := sput {} s.se.ctxs n c } }

/-- Context `n` changed by `f`. -/
def State.onCtx (s : State) (n : Nat) (f : Ctx → Ctx) : State := s.setCtx n (f (s.ctx n))

/-- Queue `n`. -/
def State.queue (s : State) (n : Nat) : Queue := sget {} s.queues n

/-- Queue `n` replaced. -/
def State.setQueue (s : State) (n : Nat) (q : Queue) : State := { s with queues := sput {} s.queues n q }

/-- A Lock Swap runs (R197). -/
def State.swapping (s : State) : Bool := s.se.swap.chamber = .swapping

/-- A unit with a parity bit (R182): 64 hot bits, 16 edge cells, or a timer entry. -/
def hotUnit (i : Nat) : Nat := i / 64
/-- The unit of an edge cell. -/
def edgeUnit (cell : Nat) : Nat := 0x1000 + cell / 16
/-- The unit of a timer. -/
def tmbUnit (k : Nat) : Nat := 0x10000 + k

/-- The parity of a unit is right. -/
def State.parOk (s : State) (u : Nat) : Bool := !s.se.parBad.contains u

/-- A write gives a unit a right parity bit. -/
def State.parHeal (s : State) (u : Nat) : State :=
  if s.se.parBad.isEmpty then s else { s with se := { s.se with parBad := s.se.parBad.filter (· ≠ u) } }

/-- The SE part changed by `f`. -/
def State.onSe (s : State) (f : Se → Se) : State := { s with se := f s.se }

/-- `s` changed by `f` when `b`. -/
def State.when (s : State) (b : Bool) (f : State → State) : State := if b then f s else s

/-- Operating state codes of R76. -/
def OpState.code : OpState → Nat
  | .boot => 0 | .recovery => 1 | .stop => 2 | .run => 3 | .hold => 4 | .fault => 5

/-- Role codes of R76. -/
def Role.code : Role → Nat
  | .solo => 0 | .primary => 1 | .tracking => 2 | .joining => 3 | .detached => 4

/-- STATE codes of R90. -/
def CtxState.code : CtxState → Nat
  | .disabled => 0 | .waiting => 1 | .released => 2 | .running => 3 | .preempted => 4
  | .publishing => 5 | .held => 6

end Sys2Proof.Machine
end

