-- ==== Sys2Proof/Machine/Cmd.lean ====
section
/-! DEFINITION. The command interface: packets, sessions, authentication, replies and notices, the
order of commands, the SPI host port and UDP (R35 to R70), and the SYS opcodes that need no other
block (R75 to R77). -/

namespace Sys2Proof.Machine

/-! ### Statuses and opcodes -/

/-- Status with low byte `low` in the group of an opcode (R39). -/
def stat (op low : Nat) : Nat := op / 256 * 256 + low

/-- The defined opcodes and whether their class is Write (R75 to R84 and the chapters R84 names). -/
def opTable : List (Nat × Bool) :=
  [(0x0, false), (0x1, false), (0x2, false), (0x3, false), (0x4, false), (0x5, true), (0x6, true), (0x7, true), (0x8, true), (0x9, true), (0xa, false), (0x100, false), (0x101, true), (0x102, true), (0x103, false), (0x104, true), (0x105, false), (0xd00, false), (0xd01, true), (0xd02, true), (0xd03, true), (0xd04, true), (0x200, false), (0x201, true)] ++
  [(0x202, true), (0x203, false), (0x210, true), (0x211, true), (0x212, true), (0x213, true), (0x214, true), (0x215, false), (0x300, false), (0x301, false), (0x302, true), (0x303, true), (0x304, true), (0x305, false), (0x400, false), (0x401, true), (0x402, true), (0x403, true), (0x404, true), (0x405, false), (0x500, false), (0x501, true), (0x502, true), (0x503, true)] ++
  [(0x504, false), (0x600, false), (0x601, true), (0x602, true), (0x603, false), (0x700, false), (0x701, true), (0x702, true), (0x703, true), (0x704, true), (0x705, true), (0x706, false), (0x800, false), (0x801, true), (0x802, true), (0x803, false), (0x804, true), (0x900, false), (0x901, true), (0x902, true), (0xa00, false), (0xa01, false), (0xa02, true), (0xa03, true)] ++
  [(0xa04, true), (0xb00, false), (0xb01, true), (0xb02, true), (0xb03, false), (0xb04, true), (0xb05, true), (0xc00, true), (0xc01, true), (0xc02, true), (0xc03, true), (0xc04, true), (0xc05, true), (0xc06, false), (0xc07, true), (0xc08, true), (0xe00, false), (0xe01, true), (0xe02, true), (0xe03, false), (0xe04, false)]

/-- The class of a defined opcode: some true for Write. -/
def opClass (op : Nat) : Option Bool := (opTable.find? fun e => e.1 = op).map (·.2)

/-- The opcodes that need no session (R43's chapter text). -/
def noSessionOp (op : Nat) : Bool := op ≤ 3

/-- The opcodes RECOVERY accepts (R558). -/
def recoveryOp (op : Nat) : Bool :=
  op ∈ [0x0000, 0x0001, 0x0002, 0x0003, 0x0004, 0x0008, 0x0C00, 0x0C01, 0x0C02, 0x0C03, 0x0C06, 0x0C07]

/-! ### Packets out -/

/-- A packet as bytes (R35), without its MAC. -/
def packetBytes (ver flags : Byte) (op : Nat) (tag : BitVec 16) (sess : BitVec 32) (pl : Bytes) : Bytes :=
  let h := [0x53, 0x47, ver, flags] ++ leBytes 2 op ++ leBytes 2 tag.toNat ++ leBytes 4 sess.toNat ++
    leBytes 2 pl.length
  let h := h ++ leBytes 2 (crc16 h).toNat
  h ++ pl ++ leBytes 4 (crc32c (h ++ pl)).toNat

/-- The bytes of a reply or notice: status first (R38), MAC last when authenticated (R48). -/
def Reply.bytes (r : Reply) : Bytes :=
  let p := packetBytes r.ver r.flags r.opcode r.tag r.session (leBytes 2 r.status ++ [0, 0] ++ r.data)
  match r.key with
  | some k => p ++ (hmac k p).take 16
  | none => p

/-- Settings of an Ethernet port. -/
def State.ethCfg (s : State) (port : Nat) : EthCfg := if port = 0 then s.eth.port0.cfg else s.eth.port1.cfg

/-- The frames that carry an IP datagram with `n` bytes of data at an MTU (R70). -/
def ipFrames (mtu n : Nat) : Nat :=
  let k := (mtu - 20) / 8 * 8
  if n + 20 ≤ mtu then 1 else (n + k - 1) / k

/-- The sum of 16-bit words, first byte high. -/
def sum16 : Bytes → Nat
  | a :: b :: bs => a.toNat * 256 + b.toNat + sum16 bs
  | [a] => a.toNat * 256
  | [] => 0

/-- A one's complement sum folded to 16 bits. -/
def fold16 (n : Nat) : Nat :=
  let a := n % 65536 + n / 65536
  a % 65536 + a / 65536

/-- The one's complement sum over pseudo-header and UDP datagram. -/
def udpSum (src dst : Word) (d : Bytes) : Nat :=
  fold16 (sum16 (beBytes 4 src.toNat ++ beBytes 4 dst.toNat ++ [0, 17] ++ beBytes 2 d.length ++ d))

/-- The UDP port of the command interface (R68). -/
def hostPort : Nat := 28760

/-- The UDP datagram that carries packet `b` from port 28,760 of address `ip` (R68, R69): with a checksum, which
is never sent as 0. -/
def udpDatagram (ip : Word) (x : UdpSource) (b : Bytes) : Bytes :=
  let h := beBytes 2 hostPort ++ beBytes 2 x.port ++ beBytes 2 (8 + b.length)
  let c := 65535 - udpSum ip x.ip (h ++ [0, 0] ++ b)
  h ++ beBytes 2 (if c = 0 then 65535 else c) ++ b

/-- IP data cut at the MTU (R70): every part but the last a multiple of 8 bytes; `n` parts at most. -/
def ipParts (mtu : Nat) (x : UdpSource) : Nat → Nat → Bytes → List UdpPacket
  | 0, _, _ => []
  | n + 1, off, d =>
    let k := (mtu - 20) / 8 * 8
    if d.length + 20 ≤ mtu then [⟨x, off, false, d⟩]
    else if d.length ≤ k then [⟨x, off, false, d⟩]
    else ⟨x, off, true, d.take k⟩ :: ipParts mtu x n (off + k) (d.drop k)

/-- A frame received on, or frames sent from, an Ethernet port (R616). -/
def State.rxFrame (s : State) (port : Nat) : State := s.when (port < 2) (·.inc (Addr.ethRxok port))
/-- Frames sent. -/
def State.txFrames (s : State) (port n : Nat) : State := s.when (port < 2) (·.addCnt (Addr.ethTxok port) n)

/-- A reply placed on its transport in the order of completion (R66, R69); on UDP it is sent at once, in fragments
where the MTU needs them (R70). -/
def State.send (s : State) (r : Reply) : State :=
  match r.via with
  | .spi => { s with hpi := { s.hpi with spiQ := s.hpi.spiQ ++ [r] } }
  | .udp x =>
    let c := s.ethCfg x.eth
    let ps := ipParts c.mtu x 4200 0 (udpDatagram c.ip x r.bytes)
    let s := s.txFrames x.eth ps.length
    { s with hpi := { s.hpi with udpOut := s.hpi.udpOut ++ ps } }

/-! ### Sessions -/

/-- The open session with a handle (R43). -/
def State.session (s : State) (h : BitVec 32) : Option Session := s.hpi.sessions.find? (·.handle = h)

/-- The open session with a handle, bound to the transport and source (R44). -/
def State.boundSession (s : State) (h : BitVec 32) (via : Transport) : Option Session :=
  s.hpi.sessions.find? fun x => x.handle = h && x.via = via

/-- The session in the slot replaced. -/
def State.setSession (s : State) (x : Session) : State :=
  { s with hpi := { s.hpi with sessions := s.hpi.sessions.map fun y => if y.slot = x.slot then x else y } }

/-- A session closed (R45). The spec does not say what becomes of its commands that still wait to start: they are
carried out and answered without a MAC (the model's choice, log entry 106). -/
def State.closeSession (s : State) (h : BitVec 32) : State :=
  { s with hpi := { s.hpi with sessions := s.hpi.sessions.filter (·.handle ≠ h) } }

/-- A session is authenticated. -/
def State.authed (s : State) (h : BitVec 32) : Bool := (s.session h).any (·.auth)

/-- K_s of an authenticated session. -/
def State.sessKey (s : State) (h : BitVec 32) : Option Bytes :=
  (s.session h).bind fun x => if x.auth then some x.ks else none

/-! ### Replies and notices -/

/-- FLAGS of a reply (R36): AUTH, LONG, REPLY. -/
def replyFlags (auth long : Bool) : Byte := BitVec.ofNat 8 (b2n auth + 2 * b2n long + 8)

/-- The last 16 final replies of a session (R50). -/
def State.cacheReply (s : State) (q : Req) (r : Reply) : State :=
  match s.session q.session with
  | some x => s.setSession { x with cache := (⟨q.tag, q.pcrc, r⟩ :: x.cache).take 16 }
  | none => s

/-- A push that waits (R491): its command has had no reply, so it holds its session's later commands back (R55). -/
def Long.parked (l : Long) : Bool := l.opcode = 0x0D02 || l.opcode = 0x0D03

/-- A command of the session has been accepted and has had no reply yet. -/
def State.unanswered (s : State) (h : BitVec 32) : Bool :=
  s.hpi.waiting.any (fun c => c.req.session = h) || s.hpi.longs.any fun l => l.req.session = h && l.parked

/-- An authenticated session that has accepted 32,768 commands closes (R45): once the first reply to the last of
them is queued, when none of its commands is left unanswered (the model's choice, log entry 35). -/
def State.useLimit (s : State) (h : BitVec 32) : State :=
  match s.session h with
  | some x => if x.auth && 32768 ≤ x.accepted && !s.unanswered h then (s.closeSession h).ev 0x007 0 else s
  | none => s

/-- A reply to a command: NOREPLY suppresses OK and ACCEPTED (R60), BUSY is counted (R77), a final reply
is cached (R50). The MAC is that of the command's session, also for a SYS_SESSION_OPEN sent inside an authenticated
session, of which R48 says nothing (the model's choice, log entry 123). -/
def State.reply (s : State) (q : Req) (op status : Nat) (data : Bytes) (long : Bool := false) : State :=
  let key := s.sessKey q.session
  let r : Reply := ⟨1, q.via, replyFlags key.isSome long, op, q.tag, q.session, status, data, key⟩
  let s := s.when (status = 0x0031) (·.inc Addr.hpiBusy)
  let s := s.when (!long) (·.cacheReply q r)
  let s := s.when (!(q.noReply && status % 256 ≤ 1)) (·.send r)
  s.useLimit q.session

/-- The OK reply with data. -/
def State.ok (s : State) (q : Req) (op : Nat) (data : Bytes := []) : State := s.reply q op (stat op 0) data

/-- A reply with a failure code in the opcode's group and no data. -/
def State.fail (s : State) (q : Req) (op low : Nat) (data : Bytes := []) : State :=
  s.reply q op (stat op low) data

/-- A LONG command accepted: the ACCEPTED reply, and the command runs (R58). -/
def State.accept (s : State) (q : Req) (op : Nat) (args : Nats := []) : State :=
  let s := s.reply q op (stat op 1) [] true
  { s with hpi := { s.hpi with longs := s.hpi.longs ++ [⟨op, q, args, s.utick⟩] } }

/-- The completion notice of a LONG command, discarded when its session has closed (R46, R58). The
notice is the final reply of R50. -/
def State.notice (s : State) (l : Long) (status : Nat) (data : Bytes := []) : State :=
  let s := { s with hpi := { s.hpi with longs := s.hpi.longs.filter (· ≠ l) } }
  match s.session l.req.session with
  | none => s
  | some x =>
    let key := if x.auth then some x.ks else none
    let r : Reply := ⟨1, l.req.via, replyFlags key.isSome true, l.opcode, l.req.tag, l.req.session, status, data, key⟩
    ((s.cacheReply l.req r).send r).useLimit l.req.session

/-- The running LONG commands of an opcode. -/
def State.longsOf (s : State) (op : Nat) : List Long := s.hpi.longs.filter (·.opcode = op)

/-- The notices of every running LONG command of an opcode. -/
def State.noticeAll (s : State) (op status : Nat) (data : Bytes := []) : State :=
  (s.longsOf op).foldl (fun s l => s.notice l status data) s

/-! ### The order of commands (R55) -/

/-- A waiting entry is the command of this request. -/
def Cmd.isReq (c : Cmd) (q : Req) : Bool := c.req.session = q.session && c.req.tag = q.tag && c.req.pcrc = q.pcrc

/-- The command may not start yet: an earlier command of its session waits, or a LONG command of its
group and session runs, or an earlier push of its session waits without a reply (R55). -/
def State.blocked (s : State) (q : Req) (op : Nat) : Bool :=
  q.session ≠ 0 &&
    ((s.hpi.waiting.takeWhile fun c => !c.isReq q).any (fun c => c.req.session = q.session) ||
      s.hpi.longs.any fun l => l.req.session = q.session && (l.parked || l.opcode / 256 = op / 256))

/-- Commands outstanding in the whole device (R59). -/
def State.outstanding (s : State) : Nat := s.hpi.waiting.length + s.hpi.longs.length + b2n s.hpi.busy

/-- The command is waiting. -/
def State.isWaiting (s : State) (q : Req) : Bool := s.hpi.waiting.any (·.isReq q)

/-- The command leaves the waiting commands. -/
def State.unwait (s : State) (q : Req) : State :=
  { s with hpi := { s.hpi with waiting := s.hpi.waiting.filter fun c => !c.isReq q } }

/-- The write lock of a power-fail warning is set: only SYS_PING, SYS_IDENT and SYS_STATUS are carried out (R569). -/
def State.locked (s : State) (op : Nat) : Bool := s.bit Addr.rsmStat 1 && 2 < op

/-- A command comes, or stays, among the waiting commands. -/
def State.wait (s : State) (op : Nat) (q : Req) (p : Bytes) : State :=
  if s.isWaiting q then s else { s with hpi := { s.hpi with waiting := s.hpi.waiting ++ [⟨op, q, p⟩] } }

/-- A command that has passed steps 1 to 11 of R41 starts: `f` is step 12 and its effect. One that R55
holds back waits. -/
def State.start (s : State) (op : Nat) (q : Req) (p : Bytes) (f : State → State) : State :=
  if s.blocked q op then s.wait op q p
  else if s.locked op then (s.unwait q).reply q op 0x0020 []
  else
    let s := f { s.unwait q with hpi := { (s.unwait q).hpi with busy := true } }
    { s with hpi := { s.hpi with busy := false } }

/-- A command that cannot go on yet waits again, ahead of the later commands of its session (R55, R197). -/
def State.reWait (s : State) (op : Nat) (q : Req) (p : Bytes) : State :=
  { s with hpi := { s.hpi with waiting := ⟨op, q, p⟩ :: s.hpi.waiting } }

/-- As `start`, for an opcode with a payload of exactly `n` bytes (R42). -/
def State.startLen (s : State) (op n : Nat) (q : Req) (p : Bytes) (f : State → State) : State :=
  s.start op q p fun s => if p.length = n then f s else s.fail q op 0x10

/-! ### Receiving a packet (R41) -/

/-- The fields of a received packet (R35). -/
structure Pkt where
  flags   : Byte
  op      : Nat
  tag     : BitVec 16
  session : BitVec 32
  len     : Nat
  payload : Bytes
  pcrc    : BitVec 32
  mac     : Bytes
  deriving DecidableEq, Repr

/-- A packet cut into its fields. -/
def parsePkt (b : Bytes) : Pkt :=
  let len := field b 12 2
  { flags := b.getD 3 0, op := field b 4 2, tag := BitVec.ofNat 16 (field b 6 2), session := wordAt b 8,
    len := len, payload := (b.drop 16).take len, pcrc := BitVec.ofNat 32 (field b (16 + len) 4),
    mac := (b.drop (20 + len)).take 16 }

/-- The request a packet makes. -/
def Pkt.req (k : Pkt) (via : Transport) : Req := ⟨via, k.session, k.tag, k.flags.getLsbD 2, k.pcrc⟩

/-- Step 1 of R41: MAGIC and HCRC. -/
def headerOk (b : Bytes) : Bool :=
  16 ≤ b.length && b.take 2 = [0x53, 0x47] && field b 14 2 = (crc16 (b.take 14)).toNat

/-- A refusal found while the packet is checked: a reply that is not cached, with the command's VERSION (R38). -/
def State.refuse (s : State) (q : Req) (op status : Nat) (ver : Byte := 1) : State :=
  let key := (s.boundSession q.session q.via).bind fun x => if x.auth then some x.ks else none
  let s := s.when (status = 0x0031) (·.inc Addr.hpiBusy)
  s.send ⟨ver, q.via, replyFlags key.isSome false, op, q.tag, q.session, status, [], key⟩

/-- The tag check of R49. -/
def tagOk (x : Session) (tag : Nat) : Bool :=
  match x.high with
  | none => true
  | some h =>
    let d := serialDiff tag h
    let b := serialDiff h tag
    (1 ≤ d && d ≤ 32767) || (b < 64 && !x.seen.testBit b)

/-- The session after a tag is accepted (R49). -/
def takeTag (x : Session) (tag : Nat) : Session :=
  match x.high with
  | none => { x with high := some tag, seen := 1 }
  | some h =>
    let d := serialDiff tag h
    if 1 ≤ d && d ≤ 32767 then { x with high := some tag, seen := (x.seen * 2 ^ (min d 64) + 1) % 2 ^ 64 }
    else { x with seen := x.seen ||| 2 ^ serialDiff h tag }

/-- Step 7 fails: AUTH_FAIL counted, EV 0x001, and the eighth in a row closes the session (R45). Only a failure of
step 7 counts here, not the status 0x0040 of SYS_LOCK_SET, SYS_LOCK_CLEAR and SYS_KEY_SET (the model's choice, log
entry 107). -/
def State.authFail (s : State) (q : Req) (op : Nat) (x : Option Session) : State :=
  let s := ((s.inc Addr.hpiAuthFail).ev 0x001 0).refuse q op 0x0040
  match x with
  | none => s
  | some x =>
    if 8 ≤ x.fails + 1 then (s.closeSession x.handle).ev 0x002 0
    else s.setSession { x with fails := x.fails + 1 }

/-- Steps 9 to 11 of R41 and acceptance. The reply of a refusal here is final and cached. -/
def State.takeIn (s : State) (q : Req) (op : Nat) (p : Bytes) : State :=
  match opClass op with
  | none => s.reply q op (if 0x0F ≤ op / 256 then 0x0012 else stat op 0x12) []
  | some w =>
    if (s.op = .recovery && !recoveryOp op) || (s.op = .boot && 2 < op) || s.locked op then s.reply q op 0x0020 []
    else if s.hpi.ownerLock && ((w && !s.authed q.session) || op = 0x0C00 || op = 0x0C03) then
      s.reply q op 0x0023 []
    else if 64 ≤ s.outstanding then s.reply q op 0x0031 []
    else if (s.session q.session).any fun x => x.auth && 32768 ≤ x.accepted then s.reply q op 0x0020 []
    else
      let s := match s.session q.session with
        | some x => s.setSession { x with accepted := x.accepted + 1, lastT := s.utick }
        | none => s
      { s with hpi := { s.hpi with waiting := s.hpi.waiting ++ [⟨op, q, p⟩] } }

/-- Step 8 of R41: a cached reply again, a command still running absorbed, or on to step 9 (R50). A repeat has passed
step 7, so the row of AUTH_FAIL results ends (R45); NOREPLY suppresses a cached OK too (R60). -/
def State.repeatOr (s : State) (q : Req) (op : Nat) (p : Bytes) (x : Option Session) (f : State → State) : State :=
  match x with
  | none => (f s).takeIn q op p
  | some y =>
    match y.cache.find? fun c => c.tag = q.tag && c.pcrc = q.pcrc with
    | some c =>
      let s := (s.setSession { y with fails := 0 }).inc Addr.hpiRepeats
      s.when (!(q.noReply && c.reply.status % 256 ≤ 1 && !c.reply.flags.getLsbD 1)) (·.send c.reply)
    | none =>
      if s.isWaiting q || s.hpi.longs.any fun l => l.req.session = q.session && l.req.tag = q.tag && l.req.pcrc = q.pcrc
      then s.setSession { y with fails := 0 }
      else (f s).takeIn q op p

/-- A repeat of R50: cached, waiting or running. -/
def State.isRepeat (s : State) (q : Req) (y : Session) : Bool :=
  y.cache.any (fun c => c.tag = q.tag && c.pcrc = q.pcrc) || s.isWaiting q ||
    s.hpi.longs.any fun l => l.req.session = q.session && l.req.tag = q.tag && l.req.pcrc = q.pcrc

/-- Step 7 of R41 (R48, R49, R51), then step 8 onwards. -/
def State.authStep (s : State) (k : Pkt) (q : Req) (b : Bytes) : State :=
  match s.boundSession q.session q.via with
  | none => s.repeatOr q k.op k.payload none id
  | some x =>
    let auth := k.flags.getLsbD 0
    let macOk := k.mac = (hmac x.ks (b.take (20 + k.len))).take 16
    if !x.auth then
      if auth then s.authFail q k.op (some x)
      else s.repeatOr q k.op k.payload (some x) (·.setSession { x with fails := 0 })
    else if !auth || !macOk || !(tagOk x k.tag.toNat || s.isRepeat q x) then s.authFail q k.op (some x)
    else s.repeatOr q k.op k.payload (some x) (·.setSession (takeTag { x with fails := 0 } k.tag.toNat))

/-- A received packet through the checks of R41, in their order. -/
def State.receive (s : State) (via : Transport) (b : Bytes) : State :=
  if !headerOk b then (s.inc Addr.hpiHdrErr).ev 0x382 0
  else
    let k := parsePkt b
    let q := k.req via
    if k.flags.getLsbD 3 then s.inc Addr.hpiHdrErr
    else if b.getD 2 0 ≠ 1 then s.refuse q k.op 0x0011 (b.getD 2 0)
    else if 4080 < k.len then s.refuse q k.op 0x0010
    else if k.pcrc ≠ crc32c (b.take (16 + k.len)) then
      ((s.inc Addr.hpiPcrcErr).ev 0x383 0).refuse q k.op 0x0050
    else if !((q.session = 0 && noSessionOp k.op) || (s.boundSession q.session via).isSome) then
      s.refuse q k.op 0x0020
    else s.authStep k q b

/-- An Ethernet port takes frames: it is enabled (R590); in RECOVERY port 0 does, and no other (R557). -/
def State.ethOpen (s : State) (port : Nat) : Bool :=
  decide (port < 2) && (if s.op = .recovery then decide (port = 0) else (s.ethCfg port).en)

/-- PACKET_RECEIVED (R41), over SPI or an Ethernet port that takes frames. -/
def execPacketReceived (via : Transport) (b : Bytes) (t : Nat) (s : State) : Host.Outcome State Fault Refusal :=
  let s := s.at t
  let hears : Bool := match via with
    | .spi => true
    | .udp src => s.ethOpen src.eth
  .next (if hears then s.receive via b else s)

/-- SESSION_IDLE_CLOSE (R45): no accepted command for the idle time. -/
def execSessionIdleClose (slot t : Nat) (s : State) : Host.Outcome State Fault Refusal :=
  let s := s.at t
  .next <| match s.hpi.sessions.find? (·.slot = slot) with
    | some x =>
      if x.idle ≠ 0 && x.lastT + x.idle * 100000000 ≤ s.utick then (s.closeSession x.handle).ev 0x006 0 else s
    | none => s

/-! ### The SPI host port (R62 to R67) -/

/-- Bytes the receive buffer holds (R62). -/
def spiBuf : Nat := 8232

/-- The status word latched at the falling edge of HCS_N (R62): RLEN over WCREDIT. -/
def State.spiStatus (s : State) : Word :=
  let rlen := match s.hpi.spiQ with
    | r :: _ => r.bytes.length
    | [] => 0
  BitVec.ofNat 32 (rlen * 65536 + (spiBuf - s.hpi.spiRx.length))

/-- A transfer starts: the status word goes out. -/
def State.spiBegin (s : State) : State := { s with hpi := { s.hpi with spiStat := s.spiStatus, spiOut := [] } }

/-- HINT_N is low while RLEN is not 0 (R67). -/
def State.hintLow (s : State) : Bool := !s.hpi.spiQ.isEmpty

/-- SPI_STATUS (R63). -/
def execSpiStatus (s : State) : Host.Outcome State Fault Refusal := .next s.spiBegin

/-- SPI_RESERVED_CODE (R63): zeros are shifted out. Codes 1 to 3 are not reserved. -/
def execSpiReservedCode (code : Byte) (count : Nat) (s : State) : Host.Outcome State Fault Refusal :=
  .next <| if 1 ≤ code.toNat && code.toNat ≤ 3 then s else
    let s := s.spiBegin
    { s with hpi := { s.hpi with spiOut := List.replicate count 0 } }

/-- Packets taken from the receive buffer (R64): after a failure of step 1 or 4 the rest of the transfer
is discarded. A packet that fails step 2 or 3 is taken with its LENGTH even above 4,080, so that one longer than the
buffer never completes (the model's choice, log entry 108). -/
def State.spiTake : Nat → State → Bytes → State × Bytes
  | 0, s, b => (s, b)
  | n + 1, s, b =>
    if b.length < 16 then (s, b)
    else if !headerOk b then (s.receive .spi b, [])
    else
      let k := parsePkt b
      if 4080 < k.len && !k.flags.getLsbD 3 && b.getD 2 0 = 1 then (s.receive .spi b, [])
      else
        let len := 20 + k.len + (if k.flags.getLsbD 0 then 16 else 0)
        if b.length < len then (s, b) else State.spiTake n (s.receive .spi (b.take len)) (b.drop len)

/-- SPI_WRITE (R64, R65): the first WCREDIT bytes are accepted, the rest discarded and counted. -/
def execSpiWrite (b : Bytes) (t : Nat) (s : State) : Host.Outcome State Fault Refusal :=
  let s := (s.at t).spiBegin
  let credit := spiBuf - s.hpi.spiRx.length
  let s := if credit < b.length then (s.inc Addr.hpiSpiOvf).ev 0x384 0 else s
  let (s, r) := s.spiTake (b.length + 1) (s.hpi.spiRx ++ b.take credit)
  .next { s with hpi := { s.hpi with spiRx := r } }

/-- SPI_READ (R66): `count` bytes after the status word; the reply leaves the queue only when its last
byte has been shifted out. -/
def execSpiRead (count : Nat) (s : State) : Host.Outcome State Fault Refusal :=
  let s := s.spiBegin
  .next <| match s.hpi.spiQ with
    | [] => { s with hpi := { s.hpi with spiOut := List.replicate count 0 } }
    | r :: rest =>
      let out := slice r.bytes 0 count
      { s with hpi := { s.hpi with spiOut := out, spiQ := if r.bytes.length ≤ count then rest else r :: rest } }

/-! ### UDP (R68, R69) -/

/-- A datagram's payload with exactly one packet goes to the checks of R41; another length is counted
in UDP_LEN_ERR (R68). -/
def State.udpPayload (s : State) (src : UdpSource) (b : Bytes) : State :=
  let k := parsePkt b
  if b.length < 16 || b.length ≠ 20 + k.len + (if k.flags.getLsbD 0 then 16 else 0) then s.inc Addr.hpiUdpLenErr
  else s.receive (.udp src) b

/-- A received frame is dropped in DISCARD (R590). -/
def State.ethDiscard (s : State) (port : Nat) : State := s.inc (Addr.ethDiscard port)

/-- UDP_DATAGRAM to port 28,760 (R68, R69): a port that is not open takes nothing, a frame of another VLAN is dropped
in DISCARD (R590), and a failing checksum discards the datagram. -/
def execUdpDatagram (src : UdpSource) (sum : UdpChecksum) (b : Bytes) (t : Nat) (s : State) :
    Host.Outcome State Fault Refusal :=
  let s := s.at t
  .next <|
    if !s.ethOpen src.eth then s
    else if src.vlan ≠ (s.ethCfg src.eth).vlan then s.ethDiscard src.eth
    else
      let s := s.rxFrame src.eth
      if sum = .bad then s else s.udpPayload src b

/-! ### SYS opcodes (R75 to R77) -/

/-- The fixed SYS registers, and the other SYS registers that live in state fields (R614). -/
def State.sysReg (s : State) (a : Nat) : Word :=
  if a = Addr.sysRev then BitVec.ofNat 32 (Config.sirev.toNat + 65536)
  else if a = Addr.sysRomver then Config.romver
  else if 0x20 ≤ a && a < 0x30 then Config.uid ((a - 0x20) / 4)
  else if a = Addr.sysMac0Lo then (Config.mac 0).truncate 32
  else if a = Addr.sysMacHi then
    BitVec.ofNat 32 ((Config.mac 0).toNat / 2 ^ 32 + (Config.mac 1).toNat / 2 ^ 32 * 65536)
  else if a = Addr.sysMac1Lo then (Config.mac 1).truncate 32
  else if a = Addr.sysState then
    BitVec.ofNat 32 (s.op.code + s.role.code * 16 + s.unitN * 256 + b2n s.hpi.ownerLock * 512 +
      b2n s.hpi.ownerKey.isSome * 1024 + (match s.fcause with | some c => c * 65536 + 2 ^ 31 | none => 0))
  else if a = Addr.sysSess then
    BitVec.ofNat 32 (s.hpi.sessions.length + s.outstanding * 256 +
      (s.hpi.sessions.map fun x => 2 ^ (16 + x.slot)).sum +
      (s.hpi.sessions.map fun x => if x.auth then 2 ^ (24 + x.slot) else 0).sum)
  else if a = Addr.sysDtimeLo then BitVec.ofNat 32 s.dtime
  else if a = Addr.sysDtimeHi then BitVec.ofNat 32 (s.dtime / 2 ^ 32)
  else if a = Addr.sysUptime then BitVec.ofNat 32 (min (s.utick / 100000000) 0xFFFFFFFF)
  else s.rd a

/-- SYS_PING (R75). -/
def cmdSysPing (q : Req) (p : Bytes) (s : State) : State :=
  s.start 0x0000 q p fun s => if p.length ≤ 4076 then s.ok q 0x0000 p else s.fail q 0x0000 0x10

/-- SYS_IDENT (R75): the 16 identity registers. -/
def cmdSysIdent (q : Req) (p : Bytes) (s : State) : State :=
  s.startLen 0x0001 0 q p fun s =>
    s.ok q 0x0001 ((List.range 16).flatMap fun i => wordBytes (s.sysReg (4 * i)))

/-- The SYS_STATUS data (R76). -/
def State.statusBytes (s : State) : Bytes :=
  [BitVec.ofNat 8 s.op.code, BitVec.ofNat 8 s.role.code, BitVec.ofNat 8 s.unitN,
   BitVec.ofNat 8 (b2n s.hpi.ownerLock), BitVec.ofNat 8 s.hpi.sessions.length,
   BitVec.ofNat 8 s.outstanding] ++
  leBytes 2 (match s.fcause with | some c => c + 32768 | none => 0) ++ leBytes 8 s.dtime

/-- SYS_STATUS (R76). -/
def cmdSysStatus (q : Req) (p : Bytes) (s : State) : State :=
  s.startLen 0x0002 0 q p fun s => s.ok q 0x0002 s.statusBytes

/-- The lowest free session slot. -/
def State.freeSlot (s : State) : Option Nat :=
  (List.range 8).find? fun i => s.hpi.sessions.all (·.slot ≠ i)

/-- A session opened in a slot (R43, R44, R47). -/
def State.openSession (s : State) (q : Req) (slot mode idle : Nat) (nHost : Bytes) : State :=
  let handle : BitVec 32 := BitVec.ofNat 32 (s.hpi.openCount * 8 + slot)
  let nDev := leBytes 16 (Config.nonce s.hpi.nonces).toNat
  let ks := hmac (s.hpi.ownerKey.getD []) ([0x53, 0x47, 0x4B, 0x31] ++ nHost ++ nDev ++ leBytes 4 handle.toNat)
  let x : Session := ⟨slot, handle, q.via, idle, mode = 1, if mode = 1 then ks else [], 0, 0, s.utick, none, 0, []⟩
  let n := (s.hpi.openCount + 1) % 2 ^ 29
  let s := { s with hpi := { s.hpi with
    sessions := s.hpi.sessions ++ [x], openCount := if n = 0 then 1 else n,
    nonces := s.hpi.nonces + mode } }
  s.ok q 0x0003 (leBytes 4 handle.toNat ++ (if mode = 1 then nDev else []))

/-- SYS_SESSION_OPEN (R47, R75): no owner key is answered before no free slot, an order the spec does not give (the
model's choice, log entry 109). -/
def cmdSysSessionOpen (q : Req) (p : Bytes) (s : State) : State :=
  s.start 0x0003 q p fun s =>
    let mode := (p.getD 0 0).toNat
    if p.length = 0 || (mode = 0 && p.length ≠ 4) || (mode = 1 && p.length ≠ 20) then s.fail q 0x0003 0x10
    else if 2 ≤ mode then s.fail q 0x0003 0x11
    else if mode = 1 && s.hpi.ownerKey.isNone then s.fail q 0x0003 0x20
    else match s.freeSlot with
      | none => s.fail q 0x0003 0x30
      | some i => s.openSession q i mode (field p 2 2) ((p.drop 4).take 16)

/-- SYS_SESSION_CLOSE (R75): the reply first, then the close. -/
def cmdSysSessionClose (q : Req) (p : Bytes) (s : State) : State :=
  s.startLen 0x0004 0 q p fun s =>
    if q.session = 0 then s.fail q 0x0004 0x20 else (s.ok q 0x0004).closeSession q.session

/-- SYS_RESTART (R75): not in RUN or HOLD; the restart follows 10 ms after the reply. -/
def cmdSysRestart (q : Req) (p : Bytes) (s : State) : State :=
  s.startLen 0x0006 1 q p fun s =>
    if p.getD 0 0 ≠ 0 then s.fail q 0x0006 0x11
    else if s.op = .run || s.op = .hold then s.fail q 0x0006 0x20
    else { s.ok q 0x0006 with restart := some (s.utick + 1000000), pwr := { s.pwr with latch := 2 } }

/-- Owner lock set or cleared in an authenticated session, before the reply (R53). -/
def State.setLock (s : State) (q : Req) (op : Nat) (b : Bool) : State :=
  if !s.authed q.session then s.fail q op 0x40
  else (({ s with hpi := { s.hpi with ownerLock := b } } : State).ev (if b then 0x003 else 0x004) 0).ok q op

/-- SYS_LOCK_SET (R53). -/
def cmdSysLockSet (q : Req) (p : Bytes) (s : State) : State :=
  s.startLen 0x0007 0 q p fun s => s.setLock q 0x0007 true

/-- SYS_LOCK_CLEAR (R53). -/
def cmdSysLockClear (q : Req) (p : Bytes) (s : State) : State :=
  s.startLen 0x0008 0 q p fun s => s.setLock q 0x0008 false

/-- SYS_KEY_SET (R54): SPI only; with a key held, authenticated sessions only; every other authenticated
session closes. -/
def cmdSysKeySet (q : Req) (p : Bytes) (s : State) : State :=
  s.startLen 0x0009 32 q p fun s =>
    if q.via ≠ .spi then s.fail q 0x0009 0x20
    else if s.hpi.ownerKey.isSome && !s.authed q.session then s.fail q 0x0009 0x40
    else
      let s := { s with hpi := { s.hpi with
        ownerKey := some p, sessions := s.hpi.sessions.filter fun x => !x.auth || x.handle = q.session } }
      (s.ev 0x005 0).ok q 0x0009

/-- The eight counters of R77, in their order. -/
def hpiCounters : Nats :=
  [Addr.hpiHdrErr, Addr.hpiPcrcErr, Addr.hpiAuthFail, Addr.hpiBusy, Addr.hpiRepeats, Addr.hpiSpiOvf,
   Addr.hpiUdpLenErr, Addr.hpiFragTmo]

/-- SYS_COUNTERS (R77). -/
def cmdSysCounters (q : Req) (p : Bytes) (s : State) : State :=
  s.startLen 0x000A 1 q p fun s =>
    let d := hpiCounters.flatMap fun a => wordBytes (s.rd a)
    let s := s.when ((p.getD 0 0).getLsbD 0) (·.clearAll hpiCounters)
    s.ok q 0x000A d

/-- HPI_CLR (R615). -/
def State.hpiClr (s : State) (v : Word) : State := s.when (v.getLsbD 0) (·.clearAll hpiCounters)

/-- HPI_CLR. -/
def execHpiClr (v : Word) (s : State) : Host.Outcome State Fault Refusal := .next (s.hpiClr v)

/-- SYS_PING. -/
def execSysPing (q : Req) (p : Bytes) (s : State) : Host.Outcome State Fault Refusal :=
  .next (cmdSysPing q p s)

/-- SYS_IDENT. -/
def execSysIdent (q : Req) (p : Bytes) (s : State) : Host.Outcome State Fault Refusal :=
  .next (cmdSysIdent q p s)

/-- SYS_STATUS. -/
def execSysStatus (q : Req) (p : Bytes) (s : State) : Host.Outcome State Fault Refusal :=
  .next (cmdSysStatus q p s)

/-- SYS_SESSION_OPEN. -/
def execSysSessionOpen (q : Req) (p : Bytes) (s : State) : Host.Outcome State Fault Refusal :=
  .next (cmdSysSessionOpen q p s)

/-- SYS_SESSION_CLOSE. -/
def execSysSessionClose (q : Req) (p : Bytes) (s : State) : Host.Outcome State Fault Refusal :=
  .next (cmdSysSessionClose q p s)

/-- SYS_RESTART. -/
def execSysRestart (q : Req) (p : Bytes) (s : State) : Host.Outcome State Fault Refusal :=
  .next (cmdSysRestart q p s)

/-- SYS_LOCK_SET. -/
def execSysLockSet (q : Req) (p : Bytes) (s : State) : Host.Outcome State Fault Refusal :=
  .next (cmdSysLockSet q p s)

/-- SYS_LOCK_CLEAR. -/
def execSysLockClear (q : Req) (p : Bytes) (s : State) : Host.Outcome State Fault Refusal :=
  .next (cmdSysLockClear q p s)

/-- SYS_KEY_SET. -/
def execSysKeySet (q : Req) (p : Bytes) (s : State) : Host.Outcome State Fault Refusal :=
  .next (cmdSysKeySet q p s)

/-- SYS_COUNTERS. -/
def execSysCounters (q : Req) (p : Bytes) (s : State) : Host.Outcome State Fault Refusal :=
  .next (cmdSysCounters q p s)

end Sys2Proof.Machine
end

