-- ==== Sys2Proof/Machine/Miu.lean ====
section
/-! DEFINITION. The protected memories PM, DM and IXE state under internal addresses, with the word
check, the page check, rebuilds, the rebuild cache and the splice buffer (R415 to R432). -/

namespace Sys2Proof.Machine

/-! ### Stored bytes -/

/-- The protected memory of an internal address: 0 PM, 1 DM, 2 IXE state, 3 none (R415). -/
def memOf (a : Nat) : Nat :=
  if 0x10000000 ≤ a && a < 0x11000000 then 0 else if 0x20000000 ≤ a && a < 0x20800000 then 1
  else if 0x30000000 ≤ a && a < 0x30800000 then 2 else 3

/-- The stored 64-bit word at an 8-aligned internal address, unchecked. -/
def State.rawWord (s : State) (a : Nat) : BitVec 64 :=
  match memOf a with
  | 0 => BitVec.ofNat 64 (memNat s.pm (a - 0x10000000) 8)
  | 1 => BitVec.ofNat 64 (memNat s.dm (a - 0x20000000) 8)
  | 2 => BitVec.ofNat 64 (s.rdN a + s.rdN (a + 4) * 2 ^ 32)
  | _ => 0

/-- The stored 64-bit word replaced, with nothing else changed. -/
def State.setRaw (s : State) (a : Nat) (v : BitVec 64) : State :=
  match memOf a with
  | 0 => { s with pm := memPut s.pm (a - 0x10000000) (leBytes 8 v.toNat) }
  | 1 => { s with dm := memPut s.dm (a - 0x20000000) (leBytes 8 v.toNat) }
  | 2 => (s.wr a (BitVec.ofNat 32 v.toNat)).wr (a + 4) (BitVec.ofNat 32 (v.toNat / 2 ^ 32))
  | _ => s

/-! ### The field GF(2^8) of R418 -/

/-- Multiplication by a = 2 with the polynomial 0x11D. -/
def gfDouble (b : BitVec 8) : BitVec 8 := if b.msb then (b <<< 1) ^^^ 0x1D else b <<< 1

/-- The product of two field elements, over the bits of the second from bit `n - 1` down. -/
def gfMulN : Nat → BitVec 8 → BitVec 8 → BitVec 8
  | 0, _, _ => 0
  | n + 1, x, y => (if y.getLsbD 0 then x else 0) ^^^ gfMulN n (gfDouble x) (y >>> 1)

/-- The product of two field elements. -/
def gfMul (x y : BitVec 8) : BitVec 8 := gfMulN 8 x y

/-- `x ^ n`. -/
def gfPow (x : BitVec 8) : Nat → BitVec 8
  | 0 => 1
  | n + 1 => gfMul x (gfPow x n)

/-- The inverse of a field element: its 254th power. -/
def gfInv (x : BitVec 8) : BitVec 8 := gfPow x 254

/-- A word multiplied by a field element in every byte column. -/
def colMul (c : BitVec 8) (d : BitVec 64) : BitVec 64 :=
  BitVec.ofNat 64 (leNat ((leBytes 8 d.toNat).map (gfMul c)))

/-- a ** i. -/
def aPow (i : Nat) : BitVec 8 := gfPow 2 i

/-! ### Flagged words and rebuilds -/

/-- The page of a word, by the address of its first word. -/
def pageOf (a : Nat) : Nat := a / 512 * 512

/-- The flagged data words of a page. -/
def State.flaggedWords (s : State) (page : Nat) : Nats :=
  (s.miu.chk.filter fun e => pageOf e.1 = page).map (·.1)

/-- Page-check word 0 or 1 is flagged. -/
def State.pFlag (s : State) (page : Nat) : Bool := sget 0 s.miu.pchk page ≠ 0
/-- Page-check word 1 is flagged. -/
def State.qFlag (s : State) (page : Nat) : Bool := sget 0 s.miu.qchk page ≠ 0

/-- How many of the 66 words are flagged. -/
def State.flaggedCount (s : State) (page : Nat) : Nat :=
  (s.flaggedWords page).length + b2n (s.pFlag page) + b2n (s.qFlag page)

/-- S_P of R421: the deviation of P, xor the stored flagged words. -/
def State.synP (s : State) (page : Nat) : BitVec 64 :=
  (s.flaggedWords page).foldl (fun x a => x ^^^ s.rawWord a) (sget 0 s.miu.pdev page)

/-- S_Q of R421. -/
def State.synQ (s : State) (page : Nat) : BitVec 64 :=
  (s.flaggedWords page).foldl (fun x a => x ^^^ colMul (aPow ((a - page) / 8)) (s.rawWord a)) (sget 0 s.miu.qdev page)

/-- The word check stored with a data word. -/
def State.storedChk (s : State) (a : Nat) : BitVec 8 := wordCheck (s.rawWord a) ^^^ sget 0 s.miu.chk a

/-- The rebuilt values of the flagged data words of a page, or none when it is unrebuildable (R421,
R422). -/
def State.rebuilt (s : State) (page : Nat) : Option (List (Nat × BitVec 64)) :=
  let sp := s.synP page
  let sq := s.synQ page
  let good (a : Nat) (d : BitVec 64) : Bool := wordCheck d = s.storedChk a
  if 3 ≤ s.flaggedCount page then none
  else match s.flaggedWords page with
    | [] => some []
    | [x] =>
      let i := (x - page) / 8
      let d := if s.pFlag page then colMul (gfInv (aPow i)) sq else sp
      let ok := s.pFlag page || s.qFlag page || colMul (aPow i) sp = sq
      if ok && good x d then some [(x, d)] else none
    | [x, y] =>
      let i := (x - page) / 8
      let j := (y - page) / 8
      let dx := colMul (gfInv (aPow i ^^^ aPow j)) (colMul (aPow j) sp ^^^ sq)
      let dy := sp ^^^ dx
      if good x dx && good y dy then some [(x, dx), (y, dy)] else none
    | _ => none

/-- The page is unrebuildable (R422). -/
def State.pageBad (s : State) (page : Nat) : Bool := (s.rebuilt page).isNone

/-- A check of R422 failed, rather than three flagged words. -/
def State.syndFail (s : State) (page : Nat) : Bool := s.pageBad page && s.flaggedCount page < 3

/-! ### Errors -/

/-- SRC code of a reader or writer (R441). -/
def memSrc : MemReader → Nat
  | .seFetch => 1 | .seData => 2 | .dma _ => 3 | .mgcCommand => 4 | .mgcOwn => 4 | .ixe => 5
  | .fbp _ _ => 6 | .swapMove => 7 | .mirror => 11

/-- UNITNO of a reader or writer (R441). -/
def memUnit : MemReader → Nat
  | .dma c => c | .fbp p _ => p | _ => 0

/-- MIU_ERR_ADDR and MIU_ERR_INFO written (R427, R428, R434). -/
def State.miuErr (s : State) (src unit ctx flagged : Nat) (synd : Bool) (a : Nat) : State :=
  (s.wr Addr.miuErrAddr (BitVec.ofNat 32 a)).wr Addr.miuErrInfo
    (BitVec.ofNat 32 (src + unit * 256 + ctx * 65536 + flagged * 2 ^ 24 + b2n synd * 2 ^ 31))

/-- CTX of MIU_ERR_INFO: the context for an SE access. -/
def State.errCtx (s : State) (rd : MemReader) : Nat :=
  if rd = .seFetch || rd = .seData then s.se.active.getD 0 else 0

/-- An unrebuildable read is recorded: error registers, MIU_FIRST_ADDR, MIU_UNCORR, EV 0x201 (R427). -/
def State.unrebuildable (s : State) (src unit ctx flagged : Nat) (synd : Bool) (a : Nat) : State :=
  let s := s.miuErr src unit ctx flagged synd a
  let s := s.when (s.rd Addr.miuFirstAddr = 0) (·.wr Addr.miuFirstAddr (BitVec.ofNat 32 a))
  (s.inc Addr.miuUncorr).ev 0x201 a

/-- As `unrebuildable`, for a reader of the page. -/
def State.unrebRead (s : State) (rd : MemReader) (a : Nat) : State :=
  s.unrebuildable (memSrc rd) (memUnit rd) (s.errCtx rd) (s.flaggedCount (pageOf a)) (s.syndFail (pageOf a)) a

/-- A data word was rebuilt for a reader (R424, R426). -/
def State.countRebuild (s : State) (a : Nat) (d : BitVec 64) : State :=
  let s := ((s.inc Addr.miuRebuilds).wr Addr.miuLastAddr (BitVec.ofNat 32 a)).ev 0x200 a
  let same := (s.miu.cache.filter fun e => memOf e.1 = memOf a && e.1 ≠ a).take 7
  { s with miu := { s.miu with cache := (a, d) :: same ++ s.miu.cache.filter fun e => memOf e.1 ≠ memOf a } }

/-- The memory word a read delivers, before splice entries: good, from the rebuild cache, or rebuilt
(R420, R424). -/
def State.readMem (s : State) (a : Nat) : Option (BitVec 64) × State :=
  if sget 0 s.miu.chk a = 0 then (some (s.rawWord a), s)
  else match s.miu.cache.find? (·.1 = a) with
    | some e => (some e.2, s)
    | none =>
      match (s.rebuilt (pageOf a)).bind (·.find? (·.1 = a)) with
      | some e => (some e.2, s.countRebuild a e.2)
      | none => (none, s)

/-- A word with the valid bytes of a splice entry merged in (R431). -/
def spliceOver (d : BitVec 64) (bs : List (Option Byte)) : BitVec 64 :=
  BitVec.ofNat 64 (leNat (List.zipWith (fun b o => o.getD b) (leBytes 8 d.toNat) bs))

/-- The word a reader gets at an 8-aligned internal address, or none from an unrebuildable page, with
the error recorded for the reader (R427, R431). -/
def State.readWord (s : State) (rd : MemReader) (a : Nat) : Option (BitVec 64) × State :=
  match s.readMem a with
  | (none, s) => (none, s.unrebRead rd a)
  | (some d, s) =>
    match s.miu.splice.find? (·.addr = a) with
    | some e => (some (spliceOver d e.bytes), s)
    | none => (some d, s)

/-- The words from `a` on, `n` of them. -/
def State.readWords (s : State) (rd : MemReader) (a : Nat) : Nat → Option (List (BitVec 64)) × State
  | 0 => (some [], s)
  | n + 1 =>
    match s.readWord rd a with
    | (none, s) => (none, s)
    | (some d, s) =>
      match s.readWords rd (a + 8) n with
      | (none, s) => (none, s)
      | (some ds, s) => (some (d :: ds), s)

/-- The bytes `n` of a protected memory at internal address `a`, as a reader gets them. Memory without
damage and without splice entries is read as stored. -/
def State.readBytes (s : State) (rd : MemReader) (a n : Nat) : Option Bytes × State :=
  if s.miu.chk.isEmpty && s.miu.splice.isEmpty && memOf a = 1 then (some (memBytes s.dm (a - 0x20000000) n), s)
  else if s.miu.chk.isEmpty && s.miu.splice.isEmpty && memOf a = 0 then (some (memBytes s.pm (a - 0x10000000) n), s)
  else
    let w := a / 8 * 8
    match s.readWords rd w ((a + n - w + 7) / 8) with
    | (none, s) => (none, s)
    | (some ds, s) => (some (slice (ds.flatMap fun d => leBytes 8 d.toNat) (a - w) n), s)

/-! ### Writes -/

/-- The rebuild cache and the splice buffer forget a word that is written (R424, R429). -/
def State.forgetWord (s : State) (a : Nat) : State :=
  { s with miu := { s.miu with cache := s.miu.cache.filter (·.1 ≠ a), splice := s.miu.splice.filter (·.addr ≠ a) } }

/-- A write into an unrebuildable page is discarded (R428). -/
def State.discard (s : State) (src unit ctx a : Nat) : State :=
  let page := pageOf a
  ((s.inc Addr.miuSpliceDrop).miuErr src unit ctx (s.flaggedCount page) (s.syndFail page) a).ev 0x204 a

/-- A whole word written: P and Q follow (R419), a flagged old value is rebuilt for them (R428's text), which counts
as any rebuild does unless the cache holds the word (R424, R426); an unrebuildable page discards the write. -/
def State.writeWord (s : State) (src unit ctx a : Nat) (v : BitVec 64) : State :=
  let page := pageOf a
  if s.miu.chk.isEmpty && s.miu.pchk.isEmpty && s.miu.qchk.isEmpty then (s.forgetWord a).setRaw a v
  else match s.rebuilt page with
    | none => (s.forgetWord a).discard src unit ctx a
    | some rs =>
      let raw := s.rawWord a
      let old := match rs.find? (·.1 = a) with | some e => e.2 | none => raw
      let i := (a - page) / 8
      let s := s.when (sget 0 s.miu.chk a ≠ 0 && s.miu.cache.all (·.1 ≠ a)) (·.countRebuild a old)
      let s := (s.forgetWord a).setRaw a v
      { s with miu := { s.miu with
        chk := sdel s.miu.chk a,
        pdev := supd 0 s.miu.pdev page (· ^^^ (old ^^^ raw)),
        qdev := supd 0 s.miu.qdev page (· ^^^ colMul (aPow i) (old ^^^ raw)) } }

/-- A splice entry flushed: one read-modify-write, rebuilding a flagged old word (R430, R432). -/
def State.flushEntry (s : State) (e : Splice) : State :=
  let s := { s with miu := { s.miu with splice := s.miu.splice.filter (·.addr ≠ e.addr) } }
  if s.pageBad (pageOf e.addr) then s.discard 8 0 0 e.addr
  else match s.readMem e.addr with
    | (some d, s) => s.writeWord 8 0 0 e.addr (spliceOver d e.bytes)
    | (none, s) => s.discard 8 0 0 e.addr

/-- A fence: every splice entry flushed, oldest first (R430). -/
def State.fence (s : State) : State := s.miu.splice.foldl (fun s e => s.flushEntry e) s

/-- The page holds no damage. -/
def State.pageClean (s : State) (page : Nat) : Bool :=
  (s.flaggedWords page).isEmpty && !s.pFlag page && !s.qFlag page

/-- Bytes of one 64-bit word written by `rd`: fewer than 8 go through the splice buffer (R429). In a page
without damage no reader can tell the entry from its flushed word (R431), and the model writes memory at
once; an entry is kept for a damaged page. -/
def State.writePart (s : State) (rd : MemReader) (a : Nat) (part : List (Option Byte)) : State :=
  if part.all (·.isSome) then
    s.writeWord (memSrc rd) (memUnit rd) (s.errCtx rd) a (spliceOver 0 part)
  else match s.miu.splice.find? (·.addr = a) with
    | some e =>
      let m := List.zipWith (fun n o => n.orElse fun _ => o) part e.bytes
      { s with miu := { s.miu with splice := s.miu.splice.map fun x => if x.addr = a then { x with bytes := m } else x } }
    | none =>
      if s.pageClean (pageOf a) then (s.forgetWord a).setRaw a (spliceOver (s.rawWord a) part)
      else
        let mine := s.miu.splice.filter fun x => memOf x.addr = memOf a
        let s := if 4 ≤ mine.length then (match mine with | e :: _ => s.flushEntry e | [] => s) else s
        { s with miu := { s.miu with splice := s.miu.splice ++ [⟨a, part, rd⟩] } }

/-- The part of a byte run that falls into the word at `w`. -/
def partOf (a : Nat) (bs : Bytes) (w : Nat) : List (Option Byte) :=
  (List.range 8).map fun i => if a ≤ w + i then bs[w + i - a]? else none

/-- Bytes written to a protected memory at internal address `a`, word by word in ascending order. -/
def State.writeBytes (s : State) (rd : MemReader) (a : Nat) (bs : Bytes) : State :=
  if s.miu.chk.isEmpty && s.miu.pchk.isEmpty && s.miu.qchk.isEmpty && s.miu.splice.isEmpty && s.miu.cache.isEmpty
      && memOf a = 1 then
    { s with dm := memPut s.dm (a - 0x20000000) bs }
  else
    let w := a / 8 * 8
    (List.range ((a + bs.length - w + 7) / 8)).foldl (fun s i => s.writePart rd (w + 8 * i) (partOf a bs (w + 8 * i))) s

/-! ### DM by byte offset -/

/-- Base of the DM window. -/
abbrev dmBase : Nat := 0x20000000
/-- Base of the PM window. -/
abbrev pmBase : Nat := 0x10000000
/-- Bytes of DM. -/
abbrev dmSize : Nat := 0x800000

/-- DM bytes as a reader gets them, by DM offset. -/
def State.dmRead (s : State) (rd : MemReader) (a n : Nat) : Option Bytes × State := s.readBytes rd (dmBase + a) n

/-- DM bytes written, by DM offset. -/
def State.dmWrite (s : State) (rd : MemReader) (a : Nat) (bs : Bytes) : State := s.writeBytes rd (dmBase + a) bs

/-- Damage as the row's sender finds it, for a read the model's memory shows no damage for: SPLICE_FLUSH
(R430) flushes the oldest entry of a memory: 0 PM, 1 DM, 2 IXE state. -/
def execSpliceFlush (mem : Nat) (s : State) : Host.Outcome State Fault Refusal :=
  .next <| match s.miu.splice.find? fun e => memOf e.addr = mem with
    | some e => s.flushEntry e
    | none => s

end Sys2Proof.Machine
end

