-- ==== Sys2Proof/Machine/Rsm.lean ====
section
/-! DEFINITION. The retained store: bursts, regions and their modes, the journal, TWIN-COPY records, the
retain sets, margin reads, and the RSM opcodes (R444 to R470). -/

namespace Sys2Proof.Machine

/-- Base of the MRAM window. -/
abbrev mramBase : Nat := 0x40000000
/-- Bytes of MRAM. -/
abbrev mramSize : Nat := 0x100000

/-- ENERGY_OK (R568). -/
def State.energyOk (s : State) : Bool := s.bit Addr.pwrStat 1
/-- The write lock of R461. -/
def State.wlock (s : State) : Bool := s.bit Addr.rsmStat 1
/-- RSM_CTRL.RAW. -/
def State.rsmRaw (s : State) : Bool := s.bit Addr.rsmCtrl 0

/-! ### The MRAM itself -/

/-- The offset of byte `i` of a burst from `off` in a page: it wraps in the page (R448). -/
def wrapOff (page off i : Nat) : Nat := page * 256 + (off + i) % 256

/-- Bytes of a burst put into the MRAM, wrapping in the page. -/
def wrapPut (m : Sparse Byte) (page off : Nat) (bs : Bytes) : Sparse Byte :=
  (List.range bs.length).foldl (fun m i => sput 0 m (wrapOff page off i) (bs.getD i 0)) m

/-- A burst written to its physical page; whole words written are good again (R458). A rewrite of the page that is
deferred is cancelled, and the page margin-read again (R467). -/
def State.mramRaw (s : State) (page off : Nat) (bs : Bytes) : State :=
  let hit := (List.range bs.length).map fun i => wrapOff page off i
  let r := s.rsm
  { s with
    mram := wrapPut s.mram page off bs
    rsm := { r with
      flagged := r.flagged.filter fun w => !((List.range 8).all fun i => hit.contains (w + i))
      again := r.again.filter (· ≠ page)
      reread := if r.again.contains page then r.reread ++ [page] else r.reread } }

/-- The flagged words among `n` bytes at an offset. -/
def State.mramFlags (s : State) (off n : Nat) : Nats := s.rsm.flagged.filter fun w => off / 8 * 8 ≤ w && w < off + n

/-- A flagged word was read (R458): RSM_ERR_ADDR and EV 0x245. -/
def State.mramUnreadable (s : State) (w data : Nat) : State :=
  (s.wr Addr.rsmErrAddr (BitVec.ofNat 32 (mramBase + w))).ev 0x245 data

/-- A write discarded (R446). -/
def State.rsmDrop (s : State) : State := s.inc Addr.rsmWdrop

/-! ### The journal (R451, R452) -/

/-- Offset of journal slot `k`. -/
def slotOff (k : Nat) : Nat := 4096 + 512 * k

/-- JSEQ of slot `k`. -/
def State.jseq (s : State) (k : Nat) : Nat := memNat s.mram (slotOff k) 4

/-- The slot written last: the newest JSEQ (R452). -/
def State.lastSlot (s : State) : Nat :=
  (List.range 8).foldl (fun b k => if serialNewer32 (s.jseq k) (s.jseq b) then k else b) 0

/-- The header bytes 0 to 11 of a slot. -/
def slotHead (jseq page off len : Nat) : Bytes :=
  leBytes 4 jseq ++ leBytes 2 page ++ [BitVec.ofNat 8 off, 0] ++ leBytes 2 len ++ [0, 0]

/-- A slot of 512 bytes with its STATE. -/
def slotBytes (jseq page off : Nat) (bs : Bytes) (state : Byte) : Bytes :=
  let h := slotHead jseq page off bs.length
  h ++ leBytes 4 (crc32c (h ++ bs)).toNat ++ [state] ++ List.replicate 15 0 ++ bs ++ List.replicate (480 - bs.length) 0

/-- A burst through the journal: its slot, ending DONE, and the page (R451). -/
def State.journal (s : State) (page off : Nat) (bs : Bytes) : State :=
  let k := (s.lastSlot + 1) % 8
  let j := (s.jseq s.lastSlot + 1) % 2 ^ 32
  let sl := slotBytes j page off bs 0x3C
  let s := (s.mramRaw (16 + 2 * k) 0 (sl.take 256)).mramRaw (17 + 2 * k) 0 (sl.drop 256)
  s.mramRaw page off bs

/-- A burst in ENERGY mode: the energy check, then the journal (R450, R451). -/
def State.energyWrite (s : State) (page off : Nat) (bs : Bytes) : State :=
  if s.energyOk then s.journal page off bs
  else ((s.setBit Addr.rsmStat 5 true).inc Addr.rsmEgyDrop).ev 0x242 (mramBase + page * 256 + off)

/-! ### The system area (R444): epoch in bytes 0 and 1, ARMSEQ in bytes 8 to 11 of page 0 (log entry 24) -/

/-- A write of the RSM to the system area, in ENERGY mode. -/
def State.sysWrite (s : State) (off : Nat) (bs : Bytes) : State :=
  if s.wlock then s.rsmDrop else s.energyWrite 0 off bs

/-- The stored epoch (R369). -/
def State.epoch (s : State) : Nat := memNat s.mram 0 2 % 32768

/-- A new epoch written (R369). -/
def State.setEpoch (s : State) (n : Nat) : State := s.sysWrite 0 (leBytes 2 (n % 32768))

/-- ARMSEQ in the system area. -/
def State.armseq (s : State) : Nat := memNat s.mram 8 4

/-! ### Regions (R449) -/

/-- A user region. -/
structure RsmRegion where
  base : Nat
  n    : Nat
  twin : Bool
  wp   : Bool
  deriving DecidableEq, Repr

/-- Region `r` in force. -/
def State.rsmRegion (s : State) (r : Nat) : RsmRegion :=
  let a := s.lv (Addr.rsmRegA r)
  let b := s.lv (Addr.rsmRegB r)
  ⟨bitsOf a 11 0, bitsOf a 27 16, bitsOf b 1 0 = 1, bitsOf b 2 2 = 1⟩

/-- The enabled region a page lies in. -/
def State.regionOf (s : State) (page : Nat) : Option RsmRegion :=
  ((List.range 16).map s.rsmRegion).find? fun r => r.base ≤ page && page < r.base + r.n

/-! ### TWIN-COPY records (R453 to R455) -/

/-- A copy is valid: its CRC matches and none of its words is flagged. -/
def State.copyValid (s : State) (page : Nat) : Bool :=
  (s.mramFlags (page * 256) 256).isEmpty &&
    memNat s.mram (page * 256 + 252) 4 = (crc32c (memBytes s.mram (page * 256) 252)).toNat

/-- SEQ of a copy. -/
def State.copySeq (s : State) (page : Nat) : Nat := memNat s.mram (page * 256 + 248) 4

/-- The chosen copy by its page, and: a tie. -/
def State.chosen (s : State) (a b : Nat) : Option Nat × Bool :=
  match s.copyValid a, s.copyValid b with
  | true, false => (some a, false)
  | false, true => (some b, false)
  | false, false => (none, false)
  | true, true =>
    if s.copySeq a = s.copySeq b then (some a, true)
    else (some (if serialNewer32 (s.copySeq b) (s.copySeq a) then b else a), false)

/-- What a read of a record reports: flagged copies, a tie, a lost record (R454, R458). -/
def State.recordReport (s : State) (a b : Nat) : State :=
  let s := [a, b].foldl (fun s p =>
    match s.mramFlags (p * 256) 256 with
    | w :: _ => s.mramUnreadable w (mramBase + w)
    | [] => s) s
  match s.chosen a b with
  | (none, _) => ((s.setBit Addr.rsmStat 7 true).inc Addr.rsmReclost).ev 0x244 (mramBase + a * 256)
  | (_, true) => (s.setBit Addr.rsmStat 4 true).ev 0x243 (mramBase + a * 256)
  | _ => s

/-- 256 bytes of a copy with its CRC. -/
def copyBytes (payload : Bytes) (seq : Nat) : Bytes :=
  let b := payload ++ leBytes 4 seq
  b ++ leBytes 4 (crc32c b).toNat

/-- A payload with the burst merged in; bytes on offsets 248 to 255 are ignored (R455). -/
def mergeBurst (old : Bytes) (off : Nat) (bs : Bytes) : Bytes :=
  (List.range bs.length).foldl (fun p i =>
    let o := (off + i) % 256
    if o < 248 then p.set o (bs.getD i 0) else p) old

/-- A burst into a record: the other copy written with SEQ + 1 (R455). With no valid copy it is copy A
(log entry 25). -/
def State.recordWrite (s : State) (a b off : Nat) (bs : Bytes) : State :=
  match s.chosen a b with
  | (none, _) => s.mramRaw a 0 (copyBytes (mergeBurst (List.replicate 248 0) off bs) 1)
  | (some c, tie) =>
    let q := (s.copySeq c + 1) % 2 ^ 32
    s.mramRaw (if tie || c = a then b else a) 0 (copyBytes (mergeBurst (memBytes s.mram (c * 256) 248) off bs) q)

/-! ### Bursts and reads through the window -/

/-- One burst into a page through the window (R446 to R455). -/
def State.mramBurst (s : State) (page off : Nat) (bs : Bytes) : State :=
  if s.wlock then s.rsmDrop
  else if s.rsmRaw then s.mramRaw page off bs
  else if page < 2594 then s.rsmDrop
  else match s.regionOf page with
    | none => s.rsmDrop
    | some r =>
      if r.wp then s.rsmDrop
      else if !r.twin then s.energyWrite page off bs
      else if page < r.base + r.n / 2 then s.recordWrite page (page + r.n / 2) off bs
      else s

/-- A run of bytes written through the window: one burst for each page it touches (R448). -/
def State.mramWrite (s : State) (off : Nat) (bs : Bytes) : State :=
  (List.range (if bs.isEmpty then 0 else (off % 256 + bs.length + 255) / 256)).foldl (fun s i =>
    let a := if i = 0 then off else (off / 256 + i) * 256
    s.mramBurst (a / 256) (a % 256) ((bs.drop (a - off)).take (256 - a % 256))) s

/-- Free bytes, where the spec gives no value. -/
def State.freeBytes (s : State) : Nat → Bytes × State
  | 0 => ([], s)
  | n + 1 =>
    let (v, s) := s.free
    let (r, s) := s.freeBytes n
    (BitVec.ofNat 8 v :: r, s)

/-- A read of `n` bytes inside one page through the window; none on a flagged word of an ENERGY region
or of a physical page (R446, R453, R454, R458). -/
def State.mramRead (s : State) (off n : Nat) : Option Bytes × State :=
  let page := off / 256
  let phys : Option Bytes × State :=
    match s.mramFlags off n with
    | w :: _ => (none, s.mramUnreadable w (mramBase + w))
    | [] => (some (memBytes s.mram off n), s)
  if s.rsmRaw then phys
  else if page < 2594 then
    let (b, s) := s.freeBytes n
    (some b, s)
  else match s.regionOf page with
    | none => (some (List.replicate n 0), s)
    | some r =>
      if !r.twin then phys
      else if page < r.base + r.n / 2 then
        let v := match (s.chosen page (page + r.n / 2)).1 with
          | some c => memBytes s.mram (c * 256 + off % 256) n
          | none => List.replicate n 0
        (some v, s.recordReport page (page + r.n / 2))
      else (some (List.replicate n 0), s)

/-- A window offset of an internal address in the MRAM window. -/
def mramOff (addr : Nat) : Option Nat :=
  if mramBase ≤ addr && addr < mramBase + mramSize then some (addr - mramBase) else none

/-- The mode of the region an address lies in: some true for TWIN-COPY. -/
def State.modeAt (s : State) (off : Nat) : Option Bool := (s.regionOf (off / 256)).map (·.twin)

/-- A burst of the table's rows: its target is a region of the mode, in the window. -/
def State.modeBurst (s : State) (twin : Bool) (addr : Nat) (d : Bytes) : State :=
  match mramOff addr with
  | some off => if s.modeAt off = some twin then s.mramBurst (off / 256) (off % 256) (d.take 256) else s
  | none => s

/-- ENERGY_BURST (R450, R451). -/
def execEnergyBurst (addr : Nat) (data : Bytes) (s : State) : Host.Outcome State Fault Refusal :=
  .next (s.modeBurst false addr data)

/-- TWIN_COPY_BURST (R455). -/
def execTwinCopyBurst (addr : Nat) (data : Bytes) (s : State) : Host.Outcome State Fault Refusal :=
  .next (s.modeBurst true addr data)

/-- TWIN_COPY_READ (R454): what the read reports; the bytes come from the chosen copy. -/
def execTwinCopyRead (addr : Nat) (s : State) : Host.Outcome State Fault Refusal :=
  .next <| match mramOff addr with
    | some off => if s.modeAt off = some true then (s.mramRead off 8).2 else s
    | none => s

/-! ### Retain sets (R460, R461, R464, R465) -/

/-- Header page of retain set `k`. -/
def setPage (k : Nat) : Nat := if k = 0 then 544 else 1569

/-- A region entry of a set header: RID, PAGEOFF, LEN. -/
structure SetEntry where
  rid     : Nat
  pageOff : Nat
  len     : Nat
  deriving DecidableEq, Repr

/-- The entries a set header holds. -/
def State.setEntries (s : State) (k : Nat) : List SetEntry :=
  let h := setPage k * 256
  (List.range (memNat s.mram (h + 16) 2)).map fun i =>
    ⟨memNat s.mram (h + 24 + 8 * i) 1, memNat s.mram (h + 26 + 8 * i) 2, memNat s.mram (h + 28 + 8 * i) 4⟩

/-- Pages of a length. -/
def pagesOf (len : Nat) : Nat := (len + 255) / 256

/-- Data pages in use. -/
def entryPages (es : List SetEntry) : Nat := (es.map fun e => pagesOf e.len).sum

/-- A set is valid: MAGIC, HCRC and DCRC match and no word it uses is flagged (R460). -/
def State.setValid (s : State) (k : Nat) : Bool :=
  let h := setPage k * 256
  let n := entryPages (s.setEntries k)
  memNat s.mram h 4 = 0x53544552 && memNat s.mram (h + 252) 4 = (crc32c (memBytes s.mram h 252)).toNat &&
    n ≤ 1024 && memNat s.mram (h + 12) 4 = (crc32c (memBytes s.mram (h + 256) (256 * n))).toNat &&
    (s.mramFlags h (256 * (n + 1))).isEmpty

/-- RSEQ of a set. -/
def State.setSeq (s : State) (k : Nat) : Nat := memNat s.mram (setPage k * 256 + 4) 4

/-- The newest valid set. -/
def State.newestSet (s : State) : Option Nat :=
  match s.setValid 0, s.setValid 1 with
  | false, false => none
  | true, false => some 0
  | false, true => some 1
  | true, true => some (if serialNewer32 (s.setSeq 1) (s.setSeq 0) then 1 else 0)

/-- DM bytes for the retain copy, word by word: a word that cannot be rebuilt is copied as zeros, with
RET_LOSS and EV 0x24D (R461). -/
def State.retainBytes (s : State) (a : Nat) : Nat → Bytes × State
  | 0 => ([], s)
  | n + 1 =>
    let (w, s) := s.readWord .mgcOwn (dmBase + a)
    let (b, s) : Bytes × State := match w with
      | some d => (leBytes 8 d.toNat, s)
      | none => (leBytes 8 0, (s.setBit Addr.rsmStat 6 true).ev 0x24D a)
    let (r, s) := s.retainBytes (a + 8) n
    (b ++ r, s)

/-- The RETAIN regions of the running program, in table order. -/
def State.retainRegions (s : State) : List Region := s.se.regions.filter fun r => r.retain && r.len ≠ 0

/-- Data copied into the target set region by region, with the entries it makes. -/
def State.retainData (s : State) (k : Nat) (rs : List Region) : List SetEntry × State :=
  rs.foldl (fun (es, s) r =>
    let p := entryPages es
    let (d, s) := s.retainBytes r.start (r.len / 8)
    let s : State := { s with mram := memPut s.mram ((setPage k + 1 + p) * 256) d }
    (es ++ [⟨r.rid, p, r.len⟩], s)) ([], s)

/-- The header page of a set (R460). -/
def setHeader (rseq dcrc : Nat) (es : List SetEntry) : Bytes :=
  let b := leBytes 4 0x53544552 ++ leBytes 4 rseq ++ leBytes 4 (es.map (·.len)).sum ++ leBytes 4 dcrc ++
    leBytes 2 es.length ++ List.replicate 6 0 ++
    es.flatMap fun e => [BitVec.ofNat 8 e.rid, 0] ++ leBytes 2 e.pageOff ++ leBytes 4 e.len
  let b := (b ++ List.replicate 252 0).take 252
  b ++ leBytes 4 (crc32c b).toNat

/-- A set whose reading meets a flagged word (R458): in its header page, or in the data pages a good header names. -/
def State.setReport (s : State) (k : Nat) : State :=
  let h := setPage k * 256
  let good := memNat s.mram h 4 = 0x53544552 && memNat s.mram (h + 252) 4 = (crc32c (memBytes s.mram h 252)).toNat
  match s.mramFlags h 256, s.mramFlags (h + 256) (256 * min 1024 (entryPages (s.setEntries k))) with
  | w :: _, _ => s.mramUnreadable w (mramBase + w)
  | [], w :: _ => s.when good (·.mramUnreadable w (mramBase + w))
  | [], [] => s

/-- The retain copy as a whole (R461), with its duration in µs. -/
def State.retainCopy (s : State) (us : Nat) : State :=
  let s := (s.setReport 0).setReport 1
  let k := if s.newestSet = some 0 then 1 else 0
  let s := s.mramRaw (setPage k) 0 (List.replicate 256 0)
  let (es, s) := s.retainData k s.retainRegions
  let n := entryPages es
  let h := setPage k * 256
  let used : Nats := s.rsm.flagged.filter fun w => !(h ≤ w && w < h + 256 * (n + 1))
  let s : State := { s with rsm := { s.rsm with flagged := used } }
  let dcrc := (crc32c (memBytes s.mram (h + 256) (256 * n))).toNat
  let s := s.mramRaw (setPage k) 0 (setHeader s.armseq dcrc es)
  let kib := (n + 3) / 4
  let s := (s.ev 0x248 (kib + min us 0xFFFF * 65536)).wr Addr.rsmRettime (BitVec.ofNat 32 (min us 0xFFFF + kib * 65536))
  let s := s.setBit Addr.rsmStat 1 true
  { s with rsm := { s.rsm with retain := none } }

/-- RETAIN_COPY_END (R461). -/
def execRetainCopyEnd (us : Nat) (s : State) : Host.Outcome State Fault Refusal :=
  .next <| if s.rsm.retain.isSome then s.retainCopy us else s

/-- The retain copy begins (R122, R461). -/
def State.retainBegin (s : State) : State :=
  if s.wlock || s.rsm.retain.isSome then s else { s with rsm := { s.rsm with retain := some s.dtime } }

/-! ### Start-up (R457, R464, R465) -/

/-- One slot at start-up (R457): roll forward, unreadable, roll back, or nothing to do. -/
def State.replaySlot (s : State) (k : Nat) : State :=
  let o := slotOff k
  let st := memNat s.mram (o + 16) 1
  let page := memNat s.mram (o + 4) 2
  let off := memNat s.mram (o + 6) 1
  let len := memNat s.mram (o + 8) 2
  let d := memBytes s.mram (o + 32) len
  let ok := len ≤ 256 && memNat s.mram (o + 12) 4 = (crc32c (memBytes s.mram o 12 ++ d)).toNat &&
    (s.mramFlags o 512).isEmpty
  let done := fun (s : State) => { s with mram := sput 0 s.mram (o + 16) 0x3C }
  if st = 0xC3 then
    if ok then (done (s.mramRaw page off d)).incFld Addr.rsmStat 15 8 |>.ev 0x240 page
    else (done s).mramUnreadable o page
  else if st = 0x3C then s
  else if len = 0 then done s
  else ((done s).incFld Addr.rsmStat 23 16).ev 0x241 page

/-- A slot put among slots in ascending JSEQ; `age`: how far a slot's JSEQ lies behind the newest. -/
def putSlot (age : Nat → Nat) (k : Nat) : Nats → Nats
  | [] => [k]
  | j :: js => if age j < age k then k :: j :: js else j :: putSlot age k js

/-- The slots in the order of replay: ascending JSEQ, from the one farthest behind the newest (R457). -/
def State.slotOrder (s : State) : Nats :=
  let age (k : Nat) : Nat := (s.jseq s.lastSlot + 2 ^ 32 - s.jseq k) % 2 ^ 32
  (List.range 8).foldl (fun ks k => putSlot age k ks) []

/-- Journal replay (R457). -/
def State.replay (s : State) : State := s.slotOrder.foldl (fun s k => s.replaySlot k) s

/-- Classification of the newest valid set (R464): RET_STATE, the event, RETSEQ, and ARMSEQ + 1. -/
def State.classify (s : State) : State :=
  let arm := s.armseq
  let s := (s.setReport 0).setReport 1
  let s := match s.newestSet with
    | none => (s.setFld Addr.rsmStat 3 2 3).ev 0x24B 0
    | some k =>
      let q := s.setSeq k
      let s := s.wr Addr.rsmRetseq (BitVec.ofNat 32 q)
      if q = arm then (s.setFld Addr.rsmStat 3 2 1).ev 0x249 q else (s.setFld Addr.rsmStat 3 2 2).ev 0x24A q
  let s := s.sysWrite 8 (leBytes 4 ((arm + 1) % 2 ^ 32))
  s.wr Addr.rsmArmseq (BitVec.ofNat 32 s.armseq)

/-- Restore of a CURRENT set (R465), and whether the RETAIN regions count as restored valid. -/
def State.restore (s : State) : State :=
  if s.fld Addr.rsmStat 3 2 ≠ 1 then { s with se := { s.se with warm := false } }
  else match s.newestSet with
    | none => { s with se := { s.se with warm := false } }
    | some k =>
      let es := s.setEntries k
      let hit := fun (r : Region) => es.find? fun e => e.rid = r.rid && e.len = r.len
      let s' := s.retainRegions.foldl (fun s r =>
        match hit r with
        | some e => s.dmWrite .mgcOwn r.start (memBytes s.mram ((setPage k + 1 + e.pageOff) * 256) r.len)
        | none => s) s
      { s' with se := { s'.se with warm := s.retainRegions.all fun r => (hit r).isSome } }

/-! ### Margin reads (R466, R467) -/

/-- The rewrite of a page through the journal, or deferred without energy or during a retain copy. -/
def State.refreshPage (s : State) (p : Nat) : State :=
  if !s.energyOk || (544 ≤ p && p ≤ 2593 && s.rsm.retain.isSome) || s.wlock then
    { s with rsm := { s.rsm with again := s.rsm.again ++ [p] } }
  else ((s.journal p 0 (memBytes s.mram (p * 256) 256)).inc Addr.rsmRefresh).ev 0x246 p

/-- MARGIN_READ: rewrites deferred to this slot, then a page to be read again, or else the next page in turn; `flagged`
are the words of the page whose check fails in the normal read, by their window offset. -/
def State.marginRead (s : State) (weak : Bool) (fl : Nats) : State :=
  let due := s.rsm.again
  let p := s.rsm.reread.headD s.rsm.margin
  let mine := (fl.map fun w => w / 8 * 8).filter fun w => w / 256 = p && !s.rsm.flagged.contains w
  let next := if s.rsm.reread.isEmpty then (p + 1) % 4096 else s.rsm.margin
  let s := { s with rsm := { s.rsm with
    again := [], reread := s.rsm.reread.drop 1, margin := next, flagged := s.rsm.flagged ++ mine.dedup } }
  let s := due.foldl (fun s q => s.refreshPage q) s
  if !weak then s
  else if (s.mramFlags (p * 256) 256).isEmpty then s.refreshPage p
  else (s.inc Addr.rsmMarginfail).ev 0x247 p

/-- MARGIN_READ. -/
def execMarginRead (weak : Bool) (flagged : Nats) (s : State) : Host.Outcome State Fault Refusal :=
  .next (s.marginRead weak flagged)

/-! ### Registers and opcodes (R468, R469) -/

/-- The counters RSM_CLR clears. -/
def rsmCounters : Nats :=
  [Addr.rsmRefresh, Addr.rsmMarginfail, Addr.rsmEgyDrop, Addr.rsmReclost, Addr.rsmErrAddr, Addr.rsmWdrop]

/-- RSM_STAT as it reads: EGY_OK is the present energy check. -/
def State.rsmStatReg (s : State) : Word := setBits (s.rd Addr.rsmStat) 0 0 (b2n s.energyOk)

/-- A write to RSM_CLR. -/
def State.rsmClr (s : State) (v : Word) : State := s.when (v.getLsbD 0) (·.clearAll rsmCounters)

/-- RSM_CLR. -/
def execRsmClr (v : Word) (s : State) : Host.Outcome State Fault Refusal := .next (s.rsmClr v)

/-- RSM_STATUS. -/
def cmdRsmStatus (q : Req) (p : Bytes) (s : State) : State :=
  s.startLen 0x0900 1 q p fun s =>
    let d := wordBytes s.rsmStatReg ++
      ([Addr.rsmArmseq, Addr.rsmRetseq] ++ rsmCounters ++ [Addr.rsmRettime]).flatMap fun a => wordBytes (s.rd a)
    (s.rsmClr (BitVec.ofNat 32 ((p.getD 0 0).toNat % 2))).ok q 0x0900 d

/-- A region formatted (R469). -/
def State.rsmFormat (s : State) (r : RsmRegion) : State :=
  (List.range r.n).foldl (fun s i =>
    let p := r.base + i
    if !r.twin then s.energyWrite p 0 (List.replicate 256 0)
    else if i < r.n / 2 then s.mramRaw p 0 (copyBytes (List.replicate 248 0) 1)
    else s.mramRaw p 0 (List.replicate 256 0)) s

/-- RSM_FORMAT: accepted, carried out, and its notice. -/
def cmdRsmFormat (q : Req) (p : Bytes) (s : State) : State :=
  s.startLen 0x0901 1 q p fun s =>
    let n := (p.getD 0 0).toNat
    if 15 < n then s.fail q 0x0901 0x11
    else if s.op ≠ .stop then s.fail q 0x0901 0x20
    else
      let s := (s.accept q 0x0901).rsmFormat (s.rsmRegion n)
      s.noticeAll 0x0901 0x0900

/-- RSM_RETAIN_CLEAR. -/
def cmdRsmRetainClear (q : Req) (p : Bytes) (s : State) : State :=
  s.startLen 0x0902 0 q p fun s =>
    if s.op ≠ .stop then s.fail q 0x0902 0x20
    else
      let z := List.replicate 256 (0 : Byte)
      ((s.mramRaw (setPage 0) 0 z).mramRaw (setPage 1) 0 z).ok q 0x0902

/-- RSM_STATUS. -/
def execRsmStatus (q : Req) (p : Bytes) (s : State) : Host.Outcome State Fault Refusal := .next (cmdRsmStatus q p s)
/-- RSM_FORMAT. -/
def execRsmFormat (q : Req) (p : Bytes) (s : State) : Host.Outcome State Fault Refusal := .next (cmdRsmFormat q p s)
/-- RSM_RETAIN_CLEAR. -/
def execRsmRetainClear (q : Req) (p : Bytes) (s : State) : Host.Outcome State Fault Refusal :=
  .next (cmdRsmRetainClear q p s)

end Sys2Proof.Machine
end

