-- ==== Sys2Proof/Machine/Que.lean ====
section
/-! DEFINITION. The hardware queues: QDATA, packets, refusals and full rings (R484 to R494), and the QUE
opcodes (R83). -/

namespace Sys2Proof.Machine

/-- EN in force. -/
def State.qEn (s : State) (n : Nat) : Bool := s.lf (Addr.qCfg n) 0 0 = 1
/-- DM byte address of the ring (R484). -/
def State.qBase (s : State) (n : Nat) : Nat := s.lf (Addr.qBase n) 22 3 * 8
/-- Words of the ring. -/
def State.qDepth (s : State) (n : Nat) : Nat := s.lf (Addr.qDepth n) 16 0

/-- Words used, with an open packet and its length slot (R489). -/
def Queue.used (q : Queue) : Nat :=
  q.marks.length + (match q.opened with | some (_, k) => k + 1 | none => 0)

/-- QnSTAT as it reads (R484). -/
def State.qStat (s : State) (n : Nat) : Word :=
  let q := s.queue n
  let full := s.qEn n && q.used = s.qDepth n
  BitVec.ofNat 32 (q.marks.length + b2n full * 2 ^ 24 + b2n q.overrun * 2 ^ 25 +
    b2n (q.marks.isEmpty) * 2 ^ 26 + b2n (s.qEn n) * 2 ^ 27 + b2n q.opened.isSome * 2 ^ 28)

/-- QnUSED as it reads: words used and the source code of an open packet's producer. -/
def State.qUsedReg (s : State) (n : Nat) : Word :=
  let q := s.queue n
  BitVec.ofNat 32 (q.used + (match q.opened with | some (o, _) => o * 2 ^ 24 | none => 0))

/-- A hardware trigger on its way to the SE (R101). -/
def State.raise (s : State) (t : Trigger) : State :=
  { s with se := { s.se with trigQ := s.se.trigQ ++ [t] } }

/-- What became of a push or an open. -/
inductive PushRes where
  | done | dropped | truncated | refused | disabled
  deriving DecidableEq, Repr

/-- The trigger of SRC 5 when a queue goes from empty to holding a visible item (R494). -/
def State.qTrig (s : State) (n : Nat) (wasEmpty : Bool) : State := s.when wasEmpty (·.raise ⟨5, n, 18⟩)

/-- The memory writer a source code stands for (R486). -/
def srcWho (src : Nat) : MemReader :=
  if src ≤ 0x11 then .fbp (src - 1) 0 else if src < 0x40 then .dma (src - 0x20) else if src < 0xE0 then .seData
  else .mgcCommand

/-- A word written to ring slot `k` counted from the oldest word. -/
def State.qWord (s : State) (n k src : Nat) (w : Word) : State :=
  s.dmWrite (srcWho src) (s.qBase n + 4 * (((s.queue n).rd + k) % s.qDepth n)) (wordBytes w)

/-- A word dropped for lack of room: OVERRUN, and EV 0x340 when it was 0 (R490, R492). -/
def State.qDrop (s : State) (n : Nat) : State :=
  let q := s.queue n
  let s := s.setQueue n { q with overrun := true }
  s.when (!q.overrun) (·.ev 0x340 n)

/-- The marks a closed packet of `len` data words adds (R487, R489). -/
def packetMarks (len : Nat) : List QMark :=
  ⟨true, len = 0, len⟩ :: (List.range len).map fun i => ⟨false, i + 1 = len, len - 1 - i⟩

/-- The open packet closed: its length word in the reserved slot, and the packet visible (R489). -/
def State.qCloseRaw (s : State) (n : Nat) (trunc : Bool) : State :=
  let q := s.queue n
  match q.opened with
  | none => s
  | some (o, k) =>
    let s := s.qWord n q.marks.length o (BitVec.ofNat 32 (k + b2n trunc * 2 ^ 31))
    (s.setQueue n { q with marks := q.marks ++ packetMarks k, opened := none }).qTrig n q.marks.isEmpty

/-- EV 0x341 with the queue and the producer (R493). -/
def State.qTruncEv (s : State) (n src : Nat) : State := s.ev 0x341 (n + src * 256)

/-- A word pushed by a producer (R489 to R493). -/
def State.qPush (s : State) (n src : Nat) (w : Word) : PushRes × State :=
  if !s.qEn n then (.disabled, s)
  else
    let q := s.queue n
    match q.opened with
    | some (o, k) =>
      if o ≠ src then (.refused, s)
      else if 65535 ≤ k then (.truncated, (s.qCloseRaw n true).qTruncEv n src)
      else if s.qDepth n ≤ q.used then (.truncated, ((s.qCloseRaw n true).qDrop n).qTruncEv n src)
      else (.done, (s.qWord n q.used src w).setQueue n { q with opened := some (o, k + 1) })
    | none =>
      if s.qDepth n ≤ q.used then (.dropped, s.qDrop n)
      else (.done, ((s.qWord n q.used src w).setQueue n { q with marks := q.marks ++ [{}] }).qTrig n q.marks.isEmpty)

/-- A packet opened by a producer (R490, R491). -/
def State.qOpen (s : State) (n src : Nat) : PushRes × State :=
  if !s.qEn n then (.disabled, s)
  else
    let q := s.queue n
    if q.opened.isSome then (.refused, s)
    else if s.qDepth n ≤ q.used then (.dropped, s.qDrop n)
    else (.done, s.setQueue n { q with opened := some (src, 0) })

/-- Another producer's packet is open on the queue (R491). -/
def State.qForeign (s : State) (n src : Nat) : Bool :=
  s.qEn n && (match (s.queue n).opened with | some (o, _) => o ≠ src | none => false)

/-- A refusal by another producer's open packet counted (R491). -/
def State.qCountRefused (s : State) : State := s.inc Addr.queRefused

/-- Words pushed until one is not written; how many were. -/
def State.qPushAll (s : State) (n src : Nat) : Words → Nat × PushRes × State
  | [] => (0, .done, s)
  | w :: ws =>
    match s.qPush n src w with
    | (.done, s') =>
      let (k, r, t) := s'.qPushAll n src ws
      (k + 1, r, t)
    | (r, s') => (0, r, s')

/-- One whole packet: open, words, close. The answer counts the data words written. -/
def State.qPacket (s : State) (n src : Nat) (ws : Words) : Nat × PushRes × State :=
  match s.qOpen n src with
  | (.done, s') =>
    match s'.qPushAll n src ws with
    | (k, .done, t) => (k, .done, t.qCloseRaw n false)
    | (k, r, t) => (k, r, t)
  | (r, s') => (0, r, s')

/-- The QDATA value a pop returns, and the queue after it (R487, R488); none when the word's page is
unrebuildable (R427), and then nothing is popped. -/
def State.qPop (s : State) (who : MemReader) (n : Nat) : Option Nat × State :=
  let q := s.queue n
  if !s.qEn n then (some 0, s)
  else match q.marks with
    | [] => (some 0, s)
    | m :: ms =>
      match s.dmRead who (s.qBase n + 4 * (q.rd % s.qDepth n)) 4 with
      | (none, s) => (none, s)
      | (some bs, s) =>
        let v := leNat bs + m.remain % 65536 * 2 ^ 32 + n * 2 ^ 48 + b2n m.head * 2 ^ 61 + b2n m.last * 2 ^ 62 + 2 ^ 63
        (some v, s.setQueue n { q with marks := ms, rd := (q.rd + 1) % s.qDepth n })

/-- A received frame is lost at its queue (R270): RX_QLOSS of the port and EV 0x108. -/
def State.rxQloss (s : State) (port : Nat) : State := (s.inc (Addr.fbpRxQloss port)).ev 0x108 port

/-- A frame written to its queue as one packet, or lost (R268, R270); closed, it raises its trigger. -/
def State.qFrame (s : State) (w : QWait) : State :=
  match s.qPacket w.q w.src w.words with
  | (_, .done, s') => match w.trig with | some t => s'.raise t | none => s'
  | (_, .truncated, s') => (match w.trig with | some t => s'.raise t | none => s').rxQloss w.port
  | (_, _, s') => s'.rxQloss w.port

/-- A frame for a queue: it waits while another producer's packet is open (R270, R491). -/
def State.qFrameOrWait (s : State) (w : QWait) : State :=
  if s.qForeign w.q w.src then
    let s := s.qCountRefused
    { s with qWaits := s.qWaits ++ [w] }
  else s.qFrame w

/-! ### MGC pushes (R83, R491) -/

/-- Source code of the MGC (R486). -/
def mgcSrc : Nat := 0xF0

/-- QUE_PUSH once no other producer's packet is open. A push of no words takes the same course: a queue with EN = 0
answers 0x0D20 and an open packet is met under R491 also then (the model's choice, log entry 110). -/
def State.quePushRun (s : State) (q : Req) (p : Bytes) : State :=
  let n := (p.getD 0 0).toNat
  let ws := toWords (p.drop 4)
  if !s.qEn n then s.fail q 0x0D02 0x20 [0, 0, 0, 0]
  else
    let (k, r, s) := s.qPushAll n mgcSrc ws
    if r = .done then s.ok q 0x0D02 (leBytes 4 k) else s.fail q 0x0D02 0x30 (leBytes 4 k)

/-- QUE_PUSH_PACKET once no other producer's packet is open. -/
def State.quePacketRun (s : State) (q : Req) (p : Bytes) : State :=
  let n := (p.getD 0 0).toNat
  let ws := toWords (p.drop 4)
  if !s.qEn n then s.fail q 0x0D03 0x20 [0, 0, 0, 0, 0]
  else
    match s.qPacket n mgcSrc ws with
    | (k, .done, s) => s.ok q 0x0D03 (leBytes 4 k ++ [0])
    | (k, .truncated, s) => s.fail q 0x0D03 0x30 (leBytes 4 k ++ [1])
    | (_, _, s) => s.fail q 0x0D03 0x30 [0, 0, 0, 0, 0]

/-- A push of the MGC that waited, run. -/
def State.quePushResume (s : State) (l : Long) : State :=
  let s := { s with hpi := { s.hpi with longs := s.hpi.longs.filter (· ≠ l) } }
  let p := l.args.map (BitVec.ofNat 8)
  if l.opcode = 0x0D02 then s.quePushRun l.req p else s.quePacketRun l.req p

/-- Everyone who waited for a queue goes on once its packet has closed: frames first, in the order they
came (ascending source code, R486), then the MGC. -/
def State.qResume (s : State) (n : Nat) : State :=
  if (s.queue n).opened.isSome then s
  else
    let ws := s.qWaits.filter (·.q = n)
    let s := { s with qWaits := s.qWaits.filter (·.q ≠ n) }
    let s := ws.foldl (fun s w => s.qFrame w) s
    let ls := s.hpi.longs.filter fun l => (l.opcode = 0x0D02 || l.opcode = 0x0D03) && l.args.getD 0 0 = n
    ls.foldl (fun s l => s.quePushResume l) s

/-- A producer closes its packet, and those who waited go on (R489, R491). -/
def State.qClose (s : State) (n : Nat) (trunc : Bool) : State := (s.qCloseRaw n trunc).qResume n

/-- A push that may close a packet by truncation, with those who waited going on. -/
def State.qPushResume (s : State) (n src : Nat) (w : Word) : PushRes × State :=
  match s.qPush n src w with
  | (.truncated, s') => (.truncated, s'.qResume n)
  | r => r

/-- The length rule of QUE_PUSH and QUE_PUSH_PACKET: 4 bytes and 0 to 1,018 words (R83). -/
def pushLen (p : Bytes) : Bool := 4 ≤ p.length && p.length % 4 = 0 && p.length ≤ 4 + 4 * 1018

/-- QUE_PUSH or QUE_PUSH_PACKET: another producer's packet makes the MGC wait (R491). -/
def State.mgcPush (s : State) (op : Nat) (q : Req) (p : Bytes) : State :=
  if !pushLen p then s.fail q op 0x10
  else if 31 < (p.getD 0 0).toNat then s.fail q op 0x11
  else if s.qForeign (p.getD 0 0).toNat mgcSrc then
    let s := s.qCountRefused
    { s with hpi := { s.hpi with longs := s.hpi.longs ++ [⟨op, q, p.map (·.toNat), s.utick⟩] } }
  else if op = 0x0D02 then s.quePushRun q p else s.quePacketRun q p

/-- QUE_PUSH (R83); a running Lock Swap holds the access to DM (R197). -/
def cmdQuePush (q : Req) (p : Bytes) (s : State) : State := s.start 0x0D02 q p fun s =>
  if s.swapping then s.reWait 0x0D02 q p else s.mgcPush 0x0D02 q p

/-- QUE_PUSH_PACKET (R83). -/
def cmdQuePushPacket (q : Req) (p : Bytes) (s : State) : State :=
  s.start 0x0D03 q p fun s => if s.swapping then s.reWait 0x0D03 q p else s.mgcPush 0x0D03 q p

/-- QUE_PUSH_WAIT_TIMEOUT (R491): 1 µs after the refusal the command is answered 0x0D31. -/
def execQuePushWaitTimeout (q : Req) (t : Nat) (s : State) : Host.Outcome State Fault Refusal :=
  let s := s.at t
  .next <| match s.hpi.longs.find? fun l => (l.opcode = 0x0D02 || l.opcode = 0x0D03) && l.req = q with
    | some l =>
      if s.utick < l.t + 100 then s
      else
        let s := { s with hpi := { s.hpi with longs := s.hpi.longs.filter (· ≠ l) } }
        s.fail q l.opcode 0x31
    | none => s

/-- The queues of a mask, in ascending order. -/
def maskList (n : Nat) (m : Nat) : Nats := (List.range n).filter m.testBit

/-- QUE_STATUS (R83). -/
def cmdQueStatus (q : Req) (p : Bytes) (s : State) : State :=
  s.startLen 0x0D00 4 q p fun s =>
    s.ok q 0x0D00 ((maskList 32 (field p 0 4)).flatMap fun n =>
      let w := s.qStat n
      [BitVec.ofNat 8 n, BitVec.ofNat 8 (bitsOf w 27 24), 0, 0] ++ leBytes 4 (bitsOf w 16 0))

/-- Pops until the limit, an empty queue or, with MODE 1, a word with LAST (R83). -/
def State.quePopAll (s : State) (n mode : Nat) : Nat → Bool × List Nat × State
  | 0 => (true, [], s)
  | k + 1 =>
    match s.qPop .mgcCommand n with
    | (none, s') => (false, [], s')
    | (some v, s') =>
      if v = 0 then (true, [], s')
      else if mode = 1 && v.testBit 62 then (true, [v], s')
      else
        let (b, vs, t) := s'.quePopAll n mode k
        (b, v :: vs, t)

/-- QUE_POP (R83). -/
def cmdQuePop (q : Req) (p : Bytes) (s : State) : State :=
  s.startLen 0x0D01 4 q p fun s =>
    let n := (p.getD 0 0).toNat
    let mode := (p.getD 1 0).toNat
    if 31 < n || 1 < mode || 509 < field p 2 2 then s.fail q 0x0D01 0x11
    else if s.swapping then s.reWait 0x0D01 q p
    else
      let (b, vs, s) := s.quePopAll n mode (field p 2 2)
      s.reply q 0x0D01 (if b then 0x0D00 else 0x0850) (vs.flatMap (leBytes 8))

/-- A DMA channel is ACTIVE (R495). -/
def State.dmaActive (s : State) (c : Nat) : Bool := s.fld (Addr.dmaStat c) 1 0 = 1

/-- An ACTIVE DMA channel of KIND 1 or 2 names the queue. -/
def State.qHasDma (s : State) (n : Nat) : Bool :=
  (List.range 32).any fun c => s.dmaActive c && s.lf (Addr.dmaCfg c) 2 1 ≠ 0 && s.lf (Addr.dmaCfg c) 12 8 = n

/-- A queue emptied, FULL and OVERRUN cleared. -/
def State.qEmpty (s : State) (n : Nat) : State := s.setQueue n {}

/-- QUE_CLEAR (R83). -/
def cmdQueClear (q : Req) (p : Bytes) (s : State) : State :=
  s.startLen 0x0D04 4 q p fun s =>
    let ns := maskList 32 (field p 0 4)
    if ns.any fun n => (s.queue n).opened.isSome || s.qHasDma n then s.fail q 0x0D04 0x31
    else (ns.foldl (fun s n => s.qEmpty n) s).ok q 0x0D04

/-- A loose word pushed through QnPUSH (R484): a register write by the MGC. -/
def State.qnPush (s : State) (n : Nat) (v : Word) : State :=
  match s.qPush n mgcSrc v with
  | (.refused, s') => s'.qCountRefused
  | (_, s') => s'

/-- An access held by a running Lock Swap (R197). -/
def State.holdAccess (s : State) (x : MgcAccess) : State :=
  { s with se := { s.se with swap := { s.se.swap with held := s.se.swap.held ++ [x] } } }

/-- QNPUSH (R484); a running Lock Swap holds it (R197). -/
def execQnpush (n : Nat) (v : Word) (s : State) : Host.Outcome State Fault Refusal :=
  .next (if 31 < n then s else if s.swapping then s.holdAccess (.write (Addr.qPush n) v) else s.qnPush n v)

/-- Who a reader is to the memories. -/
def readerWho : Reader → MemReader
  | .mgc => .mgcCommand
  | .dma c => .dma c
  | .ctx _ => .seData

/-- A read of QnDATA_LO: a pop, with bits 63:32 latched for the reader (R488); none from an
unrebuildable page. -/
def State.qDataLo (s : State) (r : Reader) (n : Nat) : Option Word × State :=
  match s.qPop (readerWho r) n with
  | (none, s) => (none, s)
  | (some v, s) => (some (BitVec.ofNat 32 v), s.setLatch r (Addr.qDataLo n) (BitVec.ofNat 32 (v / 2 ^ 32)))

/-- QNDATA_LO_READ (R488); a running Lock Swap holds it (R197). -/
def execQndataLoRead (rd : Reader) (n : Nat) (s : State) : Host.Outcome State Fault Refusal :=
  .next (if 31 < n then s else if s.swapping then s.holdAccess (.lo rd (Addr.qDataLo n)) else (s.qDataLo rd n).2)

/-- RX_QUEUE_WAIT_TIMEOUT (R270): the frame that has waited on the port for 1 µs is dropped. -/
def execRxQueueWaitTimeout (port : Timed Nat) (s : State) : Host.Outcome State Fault Refusal :=
  let s := s.at port.t
  .next <| match s.qWaits.find? fun w => w.port = port.val && w.t + 100 ≤ s.utick with
    | some w => ({ s with qWaits := s.qWaits.filter (· ≠ w) } : State).rxQloss port.val
    | none => s

/-- QUE_STATUS. -/
def execQueStatus (q : Req) (p : Bytes) (s : State) : Host.Outcome State Fault Refusal := .next (cmdQueStatus q p s)
/-- QUE_POP. -/
def execQuePop (q : Req) (p : Bytes) (s : State) : Host.Outcome State Fault Refusal := .next (cmdQuePop q p s)
/-- QUE_PUSH. -/
def execQuePush (q : Req) (p : Bytes) (s : State) : Host.Outcome State Fault Refusal := .next (cmdQuePush q p s)
/-- QUE_PUSH_PACKET. -/
def execQuePushPacket (q : Req) (p : Bytes) (s : State) : Host.Outcome State Fault Refusal :=
  .next (cmdQuePushPacket q p s)
/-- QUE_CLEAR. -/
def execQueClear (q : Req) (p : Bytes) (s : State) : Host.Outcome State Fault Refusal := .next (cmdQueClear q p s)

end Sys2Proof.Machine
end

