-- ==== Sys2Proof/Machine/SeRelease.lean ====
section
/-! DEFINITION. The scan engine's scheduling: maps, release, snapshot copies, image writes, dispatch,
overrun, station holds (R86 to R112). -/

namespace Sys2Proof.Machine

/-! ### Configuration in force -/

/-- EN of a context in force. -/
def State.ctxEn (s : State) (n : Nat) : Bool := s.lf (Addr.ctxCtrl n) 8 8 = 1
/-- PERIOD in force. -/
def State.ctxPeriod (s : State) (n : Nat) : Nat := s.lf (Addr.ctxPeriod n) 23 0
/-- PC of the first instruction (R86, R132). -/
def State.ctxEntry (s : State) (n : Nat) : Nat := s.lf (Addr.ctxEntry n) 22 2 * 4

/-- The bits set in a word, counted from `32*k`. -/
def wordLines (k : Nat) (w : Word) : Nats :=
  if w = 0 then [] else ((List.range 32).filter fun i => w.getLsbD i).map (32 * k + ·)

/-- The lines a committed map selects, ascending: the input map, or the output map (R91). -/
def State.mapLines (s : State) (n : Nat) (out : Bool) : Nats :=
  (List.range 32).flatMap fun k => wordLines k (s.lv (Addr.seMap n (k + 32 * b2n out)))

/-- The context runs above every other (R88), below every other (R89), or at its PRIO. -/
def State.ownRank (s : State) (n : Nat) : Nat :=
  if n = 0 then 0 else if n = 4 then 65 else s.lf (Addr.ctxCtrl n) 5 0 + 1

/-- The contexts in HELD. -/
def State.heldCtxs (s : State) : Nats := (s.se.ctxs.filter fun e => e.2.st = .held).map (·.1)

/-- The rank a context runs at: CTX2 at the higher of its own and the highest held task's (R112). -/
def State.rank (s : State) (n : Nat) : Nat :=
  if n = 2 then (s.heldCtxs.map s.ownRank).foldl max (s.ownRank 2) else s.ownRank n

/-- The lines of a station's input range (R110's text, R325). -/
def State.stnLines (s : State) (port stn : Nat) : Nats :=
  let e := port * 96 + stn
  let off := s.lf (Addr.stnEntryW0 e) 31 16
  let len := s.lf (Addr.stnEntryW0 e) 14 8
  if len = 0 then [] else (List.range ((off + len - 1) / 64 - off / 64 + 1)).map (off / 64 + ·)

/-- The task touches the station (R110's text). -/
def State.touches (s : State) (n port stn : Nat) : Bool :=
  let m := s.mapLines n false
  (s.stnLines port stn).any (m.contains ·)

/-! ### Dispatch (R99) -/

/-- The context may execute: it is running, preempted, or released with its snapshot complete. -/
def Ctx.runnable (c : Ctx) : Bool :=
  c.st = .running || c.st = .preempted || (c.st = .released && c.copied)

/-- `a` was released before `b`, or at the same instant with the lower number (R99). -/
def relBefore (a b : Nat × Ctx) : Bool :=
  decide (a.2.relAt < b.2.relAt) || (decide (a.2.relAt = b.2.relAt) && decide (a.1 < b.1))

/-- `a` goes before `b`: higher rank, then the one executing, then the earlier release (R99). -/
def State.before (s : State) (a b : Nat × Ctx) : Bool :=
  let ra := s.rank a.1
  let rb := s.rank b.1
  rb < ra || (ra = rb && (decide (a.2.st = CtxState.running) || (decide (b.2.st ≠ CtxState.running) && relBefore a b)))

/-- The context that should execute. -/
def State.bestCtx (s : State) : Option Nat :=
  ((s.se.ctxs.filter fun e => e.2.runnable && (!s.se.pfail || e.1 = 4)).foldl (init := (none : Option (Nat × Ctx))) fun b e =>
    match b with
    | none => some e
    | some x => if s.before e x then some e else some x).map (·.1)

/-- The SE may execute contexts: in RUN, or CTX4 alone after the power-fail warning (R122, R123). -/
def State.seRuns (s : State) : Bool := !s.se.halted && (decide (s.op = .run) || s.se.pfail)

/-- The best context executes; the one it displaces is PREEMPTED (R99, R100). -/
def State.dispatch (s : State) : State :=
  if !s.seRuns then s
  else
    let b := s.bestCtx
    if b = s.se.active then s
    else
      let s := match s.se.active with
        | some a => s.onCtx a fun c => if c.st = CtxState.running then { c with st := .preempted } else c
        | none => s
      let s := match b with
        | some n => s.onCtx n fun c => { c with st := .running }
        | none => s
      { s with se := { s.se with active := b } }

/-! ### Release (R86, R96 to R98) -/

/-- A context is released now: PC, stack and status word (R86), and its snapshot copy waits. A held one was due when
its hold began (R108, R111). -/
def State.release (s : State) (n : Nat) : State :=
  let c := s.ctx n
  let s := s.setCtx n { c with
    st := .released, pc := s.ctxEntry n, stk := [], sw := 0, consec := 0, pend := false,
    relT := if c.st = .held then c.relT else s.dtime, relAt := s.dtime, copied := false, first := !c.ran, ran := true, cut := [] }
  let s := s.when (s.twl.jphase = 2) fun s =>
    { s with twl := { s.twl with tracked := supd 0 s.twl.tracked n (· + 1) } }
  { s with se := { s.se with
    copyQ := s.se.copyQ ++ [n],
    holds := if n = 2 then s.se.holds.map fun h => { h with armed := true } else s.se.holds } }

/-- A release of a task that touches a lost station is held for CTX2 (R111), which may then run at a higher rank
(R112). -/
def State.releaseOrHold (s : State) (n : Nat) : State :=
  if s.ctxEn 2 && n ≠ 2 && s.se.holds.any fun h => s.touches n h.port h.stn then
    (s.onCtx n fun c => { c with st := .held, pend := false, relT := s.dtime }).dispatch
  else s.release n

/-- A trigger of an event task or system context that has an instance: one pending release, further
ones merged (R103). -/
def State.pendOrMerge (s : State) (n : Nat) : State :=
  if (s.ctx n).pend then (s.onCtx n fun c => { c with ovr := satAdd c.ovr 1 0xFFFF }).ev 0x082 n
  else s.onCtx n fun c => { c with pend := true }

/-- User tasks may be released: in RUN, not being left, before no power-fail warning (R102, R119, R122). -/
def State.userOpen (s : State) : Bool := s.op = .run && s.se.leaving.isNone && !s.se.pfail

/-- An enabled user event task (R102). -/
def State.userEvent (s : State) (n : Nat) : Bool := 16 ≤ n && n < 160 && s.ctxEn n && s.ctxPeriod n = 0

/-- Triggered releases are held: during a swap, and from GO to the agreed tick (R197, R206). -/
def State.trigHeld (s : State) : Bool :=
  s.se.swap.chamber = .swapping || s.twl.exch.any (·.go)

/-- A trigger of a user event task (R102, R103; held before CTX7 has completed, R115, and by a swap, R197). -/
def State.userTrig (s : State) (n : Nat) : State :=
  if !s.userEvent n || !s.userOpen then s
  else if s.se.starting || s.trigHeld then s.pendOrMerge n
  else if (s.ctx n).st = .waiting || (s.ctx n).st = .disabled then s.releaseOrHold n
  else s.pendOrMerge n

/-- A trigger of system context 1, 2, 3, 5 or 6 with its SE_INFOn (R115, R117). It is released also while CTX7 has not
completed and runs by its priority: R115 delays user releases alone, while the context table says that CTX7 runs
alone (the model's choice, log entry 112). -/
def State.sysTrig (s : State) (n info : Nat) : State :=
  let s := s.wr (Addr.seInfo (n - 1)) (BitVec.ofNat 32 info)
  if !s.userOpen || !s.ctxEn n then s
  else if s.trigHeld then s.pendOrMerge n
  else if (s.ctx n).st = .waiting || (s.ctx n).st = .disabled then s.releaseOrHold n
  else s.pendOrMerge n

/-- A cyclic release is skipped (R105, R107). -/
def State.skipRelease (s : State) (n : Nat) : State :=
    let s := (s.onCtx n fun c => { c with consec := satAdd c.consec 1 255, ovr := satAdd c.ovr 1 0xFFFF }).ev 0x081 n
    let lim := s.lf (Addr.ctxCtrl n) 23 16
    if lim ≠ 0 && (s.ctx n).consec = lim then
      ((s.onCtx n fun c => { c with consec := 0 }).ev 0x083 n).sysTrig 3 n
    else s

/-- The unit follows the mirror cycles of its twin: TRACKING, or JOINING in the TRACK phase (R396, R404). -/
def State.follows (s : State) : Bool := s.role = .tracking || (s.role = .joining && 2 ≤ s.twl.jphase)

/-- A mirror cycle of the context has arrived, whole or in part, and is not applied. -/
def State.cycleOpen (s : State) (n : Nat) : Bool :=
  s.twl.cyc.any (·.ctx = n) || s.twl.done.any (·.ctx = n)

/-- A cyclic task is due (R105 to R107). A unit that follows its twin releases once the announced mirror
cycle is applied (R396). -/
def State.due (s : State) (n : Nat) : State :=
  match (s.ctx n).st with
  | .waiting | .disabled =>
    if !s.follows then s.releaseOrHold n
    else if sget 0 s.twl.announced n = s.se.g + 1 && !s.cycleOpen n then s.releaseOrHold n
    else { s with twl := { s.twl with waitRel := (s.twl.waitRel.filter (·.1 ≠ n)) ++ [(n, s.se.g)] } }
  | .publishing => s.onCtx n fun c => { c with pend := true }
  | _ => s.skipRelease n

/-- The cyclic tasks due at grid tick `g` (R96). -/
def State.dueAt (s : State) (g : Nat) : Nats :=
  (List.range 160).filter fun n =>
    let p := s.ctxPeriod n
    let ph := s.lf (Addr.ctxPhase n) 23 0
    s.ctxEn n && p ≠ 0 && ph ≤ g && (g - ph) % p = 0

/-- The instants the release grid and the output update tick share (R28): the multiples of 10 µs of device time, which
in TRACKING and JOINING is that of the tick source (R382). -/
def onGrid (t : Nat) : Bool := t % 10000 = 0

/-- GRID_TICK (R96): in RUN g counts from 0 at the first tick after CTX7 has completed; it goes on counting through HOLD
and in STOP, where R386 and R206 name ticks too (log entry 113). -/
def State.gridTick (s : State) : State :=
  let s := { s with se := { s.se with gT := s.dtime } }
  if s.op = .run && !s.se.starting then
    let s := { s with se := { s.se with g := if s.se.gridOn then s.se.g + 1 else 0, gridOn := true } }
    if s.userOpen then (s.dueAt s.se.g).foldl (fun s n => s.due n) s else s
  else if s.op = .hold || s.op = .stop then { s with se := { s.se with g := s.se.g + 1 } }
  else s

/-- The event tasks a hardware trigger starts: SRC, SEL and the COND bit (R101). -/
def State.trigCtxs (s : State) (t : Trigger) : Nats :=
  (List.range 160).filter fun n =>
    let w := s.lv (Addr.ctxTrig n)
    16 ≤ n && s.ctxEn n && s.ctxPeriod n = 0 && t.src ≠ 0 && bitsOf w 3 0 = t.src && bitsOf w 16 4 = t.sel &&
      w.getLsbD t.cond && 18 ≤ t.cond && t.cond ≤ 21

/-- A trigger on its way is taken off the list. -/
def takeTrig (t : Trigger) : List Trigger → List Trigger
  | [] => []
  | x :: xs => if x = t then xs else x :: takeTrig t xs

/-- The crossing a trigger takes to the SE: points and vote groups share that of the IXE (R34). -/
def crossingOf (t : Trigger) : Nat := if t.src = 4 then 3 else t.src

/-- A trigger arrives when it was sent and is the oldest of its crossing: a crossing keeps the order and never
duplicates an item (R34), and an IXE trigger is sent after its status write (R23). -/
def State.trigReady (s : State) (t : Trigger) : Bool :=
  s.se.trigQ.find? (fun x => crossingOf x = crossingOf t) = some t

/-- TRIGGER_ARRIVAL (R103). -/
def execTriggerArrival (trg : Trigger) (t : Nat) (s : State) : Host.Outcome State Fault Refusal :=
  let s := s.at t
  .next <|
    if s.trigReady trg then
      let s := { s with se := { s.se with trigQ := takeTrig trg s.se.trigQ } }
      (s.trigCtxs trg).foldl (fun s n => s.userTrig n) s
    else s

/-- SE_SWTRIG (R102). -/
def execSeSwtrig (v : Word) (s : State) : Host.Outcome State Fault Refusal := .next (s.userTrig (bitsOf v 7 0))

/-! ### Image writes and snapshot copies (R18, R19, R97, R98) -/

/-- A station loss in the input image triggers CTX2, and its holds start (R110, R111). -/
def State.lossTrig (s : State) (port stn : Nat) : State :=
  let s := s.when (s.ctxEn 2 && s.userOpen) fun s => { s with se := { s.se with holds := s.se.holds ++ [⟨port, stn, false⟩] } }
  s.sysTrig 2 (port * 256 + stn)

/-- IXE_LAT after a record whose receive stamp is `t0` (R237). -/
def State.setLat (s : State) (t0 : Nat) : State :=
  let l := min ((s.dtime - t0) / 10) 0xFFFF
  s.wr Addr.ixeLat (BitVec.ofNat 32 (l + max l (s.fld Addr.ixeLat 31 16) * 65536))

/-- An image write takes place, and what follows from it (R18, R23, R101, R237). -/
def State.imgApply (s : State) (w : ImgWrite) : State :=
  let s := { s with inImg := imgPut s.inImg w.cells }
  let s := match w.lat with | some t0 => s.setLat t0 | none => s
  let s := match w.lost with | some (p, n) => s.lossTrig p n | none => s
  { s with se := { s.se with trigQ := s.se.trigQ ++ w.trigs } }

/-- The place of a source in the order of R640. -/
def srcPlace : ImgSource → Nat
  | .stn n => n
  | .fio => 16
  | .ixeRecord => 17
  | .ixeTimeout => 18

/-- A write put among those that wait: by its arrival, then by its source (R19, R640). -/
def putWait (w : ImgWrite) : List ImgWrite → List ImgWrite
  | [] => [w]
  | x :: xs =>
    if w.t < x.t || (w.t = x.t && srcPlace w.src < srcPlace x.src) then w :: x :: xs else x :: putWait w xs

/-- A write arrives at the port now: it waits, or its source holds it back behind the one of its own that waits. -/
def State.imgArrive (s : State) (w : ImgWrite) : State :=
  if s.se.imgWaits.any (·.src = w.src) then { s with se := { s.se with imgBack := s.se.imgBack ++ [w] } }
  else { s with se := { s.se with imgWaits := putWait { w with t := s.dtime } s.se.imgWaits } }

/-- A write to the input image: at once when the port is free, otherwise it waits (R19). -/
def State.imgWrite (s : State) (w : ImgWrite) : State :=
  if s.se.copying.isNone && s.se.imgWaits.isEmpty then s.imgApply w else s.imgArrive w

/-- A source whose write was served issues its next one. -/
def State.imgTurn (s : State) (src : ImgSource) : State :=
  match s.se.imgBack.find? (·.src = src) with
  | some w => ({ s with se := { s.se with imgBack := s.se.imgBack.erase w } } : State).imgArrive w
  | none => s

/-- IMAGE_WRITE (R19): the first of the waiting writes is served when no copy runs. -/
def execImageWrite (src : Timed ImgSource) (s : State) : Host.Outcome State Fault Refusal :=
  let s := s.at src.t
  .next <| match s.se.imgWaits with
    | w :: ws =>
      if w.src = src.val && s.se.copying.isNone then
        (({ s with se := { s.se with imgWaits := ws } } : State).imgApply w).imgTurn src.val
      else s
    | [] => s

/-- The waiting copy that starts next: highest PRIO, then lowest number (R98). -/
def State.nextCopy (s : State) : Option Nat :=
  (s.se.copyQ.filter fun n => s.twl.send.all (·.ctx ≠ n)).foldl (init := none) fun b n =>
    match b with
    | none => some n
    | some m => if s.ownRank m < s.ownRank n || (s.ownRank m = s.ownRank n && n < m) then some n else some m

/-- The bytes of the image lines. -/
def imgLines (m : Sparse Byte) (ls : Nats) : Bytes := ls.flatMap fun k => memBytes m (64 * k) 64

/-- SNAPSHOT_COPY_START (R19, R91, R97): the snapshot is the input image now. In a PRIMARY it waits until
the context's previous mirror cycle has been read (R392). -/
def execSnapshotCopyStart (ctx : Nat) (s : State) : Host.Outcome State Fault Refusal :=
  .next <|
    if s.se.copying.isNone && s.se.imgWaits.isEmpty && s.nextCopy = some ctx && s.twl.send.all (·.ctx ≠ ctx) then
      let s := s.dmWrite .seData (s.lf (Addr.ctxBuf ctx) 10 0 * 4096) (imgLines s.inImg (s.mapLines ctx false))
      { s with se := { s.se with copying := some ctx, copyQ := s.se.copyQ.filter (· ≠ ctx) } }
    else s

end Sys2Proof.Machine
end

