-- ==== Sys2Proof/Machine/Ports.lean ====
section
/-! DEFINITION. A CAN FD port as the other blocks see it: its settings in force, its line of the status image, and
forced restriction, which follows the role of the unit (R245, R308, R405). -/

namespace Sys2Proof.Machine

/-- Port `n`. -/
def State.port (s : State) (n : Nat) : Fbp := sget {} s.fbp n
/-- Port `n` replaced. -/
def State.setPort (s : State) (n : Nat) (x : Fbp) : State := { s with fbp := sput {} s.fbp n x }
/-- Port `n` changed by `f`. -/
def State.onPort (s : State) (n : Nat) (f : Fbp → Fbp) : State := s.setPort n (f (s.port n))

/-- NCYC in force. -/
def State.ncyc (s : State) (n : Nat) : Nat := s.lf (Addr.fbpTtCfg n) 6 0
/-- BCLEN in force, in ns. -/
def State.bclenNs (s : State) (n : Nat) : Nat := s.lf (Addr.fbpTtBclen n) 15 0 * 1000
/-- ROLE: the port is in station mode. -/
def State.stnMode (s : State) (n : Nat) : Bool := s.lf (Addr.fbpCtrl n) 4 4 = 1
/-- FORCED (R245). -/
def State.fbpForced (s : State) (n : Nat) : Bool := s.bit (Addr.fbpStat n) 4
/-- ERRSTATE. -/
def State.errState (s : State) (n : Nat) : Nat := s.fld (Addr.fbpStat n) 1 0
/-! ### Status image of a port (R308) -/

/-- Byte offset of the station status image of a port. -/
def stnImg (n : Nat) : Nat := 0xEC00 + 64 * n

/-- Any station of the port is LOST. -/
def State.anyLost (s : State) (n : Nat) : Bool := s.stn.any fun e => e.1 / 96 = n && e.2.lost

/-- The port summary byte. -/
def State.portSummary (s : State) (n : Nat) : Nat × Byte × Byte :=
  (stnImg n + 36, BitVec.ofNat 8 (b2n (s.anyLost n) + 2 * b2n (s.errState n = 2) + 4 * b2n (s.errState n = 1) +
    8 * b2n (s.bit (Addr.fbpStat n) 5) + 16 * b2n (s.fbpForced n)), 0xFF)

/-- The summary written to the image. -/
def State.putSummary (s : State) (n : Nat) : State := s.imgWrite { src := .stn n, cells := [s.portSummary n] }

/-! ### Forced restriction (R245) -/

/-- The role forces restriction. -/
def State.roleForces (s : State) : Bool := s.role = .joining || s.role = .detached

/-- FORCED taken over from the role, at a cycle end or a bus idle (R245): after a join that is the first one at or
after the entry instant, at which the role has changed (R405). -/
def State.syncForced (s : State) (n : Nat) : State :=
  let v : Bool := s.lf (Addr.fbpCtrl n) 2 0 = 1 && s.roleForces
  if s.fbpForced n = v then s else (s.setBit (Addr.fbpStat n) 4 v).putSummary n

/-- FORCED at a bus idle of a port with a timetable of 0 columns. -/
def State.idleForced (s : State) (n : Nat) : State :=
  s.when (n < 16 && s.ncyc n = 0 && (s.port n).active.isNone) (·.syncForced n)

/-- A frame on the bus of port `n` has ended: the bus is idle, and a run of recessive bits begins (R72, R245). -/
def State.frameEnd (s : State) (n : Nat) : State :=
  if n < 16 then (s.onPort n fun x => { x with quiet := s.utick }).idleForced n else s

/-- FORCED of every port that is idle now and has a timetable of 0 columns: the role has changed. -/
def State.idlePorts (s : State) : State := (List.range 16).foldl (fun s n => s.idleForced n) s

end Sys2Proof.Machine
end

