-- ==== Sys2Proof/Machine/Roles.lean ====
section
/-! DEFINITION. What both units know of each other: towline frames out, claims and epochs, the capability
record, the abandoning of an armed swap, and changes of role (R195, R209, R368 to R371, R376 to R381). -/

namespace Sys2Proof.Machine

/-! ### Towline frames out (R376 to R378) -/

/-- The types that are acknowledged and repeated (R377). -/
def TwlFrame.acked : TwlFrame → Bool
  | .tick _ => false
  | .ack _ _ => false
  | .echo _ _ => false
  | _ => true

/-- A frame sent: an acknowledged type stays in the replay buffer under its FSEQ. -/
def State.twlSend (s : State) (f : TwlFrame) : State :=
  if s.twl.link = .down || s.twl.link = .conflict then s
  else if f.acked then
    { s with twl := { s.twl with replay := s.twl.replay ++ [(s.twl.fseq, f)], fseq := (s.twl.fseq + 1) % 256 } }
  else { s with twl := { s.twl with sent := some f } }

/-- CTRL operations (R377). -/
def State.twlCtrl (s : State) (op arg data : Nat) : State := s.twlSend (.ctrl op arg data)

/-! ### Claims and epochs (R368 to R370) -/

/-- TWL_CFG.PAIR in force. -/
def State.pairOn (s : State) : Bool := s.lf Addr.twlCfg 0 0 = 1
/-- TWL_CFG.AUTOJOIN in force. -/
def State.autojoin (s : State) : Bool := s.lf Addr.twlCfg 1 1 = 1

/-- A claim of an epoch and a unit: 2 × epoch, plus 1 for unit A (R302). -/
def claimOf (epoch unit : Nat) : Nat := 2 * (epoch % 32768) + (if unit = 0 then 1 else 0)

/-- The unit's own claim. -/
def State.ownClaim (s : State) : Nat := claimOf s.epoch s.unitN

/-- The claim now transmitted (R368): none in JOINING and DETACHED. -/
def State.claimNow (s : State) : Nat :=
  match s.role with
  | .solo => s.ownClaim
  | .primary => s.twl.pairClaim
  | .tracking => s.twl.pairClaim
  | _ => 0

/-- A word of the twin's capability record. -/
def State.peerWord (s : State) (i : Nat) : Option Word := s.twl.peer.map fun ws => ws.getD i 0

/-- The twin's role code; 7 unknown. -/
def State.peerRole (s : State) : Nat := match s.peerWord 0 with | some w => bitsOf w 18 16 | none => 7
/-- The twin's operating state code; 7 unknown. -/
def State.peerState (s : State) : Nat := match s.peerWord 0 with | some w => bitsOf w 26 24 | none => 7
/-- The claim the twin transmits. -/
def State.peerClaim (s : State) : Nat := match s.peerWord 1 with | some w => bitsOf w 31 16 | none => 0

/-- The higher of the stored epoch and the last one received from the twin (R370). -/
def State.epochBase (s : State) : Nat :=
  match s.twl.peerEpoch with
  | some e => if serialNewer (2 * e) (2 * s.epoch) then e else s.epoch
  | none => s.epoch

/-- The epoch raised by 1 and written, with EV 0x1C5 (R369, R370, R409). -/
def State.raiseEpoch (s : State) : State :=
  let n := (s.epochBase + 1) % 32768
  (s.setEpoch n).ev 0x1C5 n

/-! ### Capability record (R381) -/

/-- MIRROR total of the running program in KiB. -/
def State.mirrorKib (s : State) : Nat := ((s.se.regions.filter (·.mirror)).map (·.len)).sum / 1024

/-- Size of the staging area in KiB. -/
def State.stageKib (s : State) : Nat := s.lf Addr.twlStage 26 16 * 4

/-- CHAMBER code of SE_SWAP_STAT. -/
def Chamber.code : Chamber → Nat
  | .empty => 0 | .open => 1 | .closing => 2 | .loaded => 3 | .armed => 4 | .swapping => 5

/-- The image of a boot slot. -/
def State.slotImg (s : State) (k : Nat) : Option SlotImg := if k = 0 then s.fwu.slot0 else s.fwu.slot1

/-- The towline protocol version of the running firmware (R381, R535). -/
def State.proto (s : State) : Nat :=
  match s.slotImg s.fwu.run with
  | some (.pkg h _) => field h 0x20 1
  | _ => 1

/-- The capability record. -/
def State.capWords (s : State) : Words :=
  [BitVec.ofNat 32 (s.proto + s.unitN * 256 + s.role.code * 65536 + s.op.code * 2 ^ 24),
   BitVec.ofNat 32 (s.epoch + s.claimNow * 65536), s.sysReg 0x000, s.sysReg 0x004] ++
  ((List.range 8).map fun i => s.rd (Addr.seRunDigest i)) ++
  [BitVec.ofNat 32 (s.mirrorKib + s.stageKib * 65536),
   BitVec.ofNat 32 (s.se.swap.chamber.code + s.fld Addr.seSwapStat 23 16 * 256), s.sysReg Addr.sysFwver, 0]

/-- The record is sent with LINK = UP whenever a field of it has changed (R381). -/
def State.sendCap (s : State) : State :=
  if s.twl.link = .up && s.twl.capSent ≠ some s.capWords then
    { s with twl := { s.twl with capSent := some s.capWords } }.twlSend (.cap s.capWords)
  else s

/-! ### The armed swap (R195, R209, R211) -/

/-- SE_SWAP_STAT.LAST. -/
def State.setLast (s : State) (code : Nat) : State := s.setFld Addr.seSwapStat 23 16 code

/-- The chamber in a new state, which SE_SWAP_STAT and the record show. -/
def State.setChamber (s : State) (c : Chamber) : State :=
  (({ s with se := { s.se with swap := { s.se.swap with chamber := c } } } : State).setFld Addr.seSwapStat 2 0 c.code).sendCap

/-- The notice of SE_SWAP_ARM (R211). -/
def State.swapNotice (s : State) (startG : Nat) : State :=
  s.noticeAll 0x0213 0x0200 ([BitVec.ofNat 8 (s.fld Addr.seSwapStat 23 16), BitVec.ofNat 8 (s.fld Addr.seSwapStat 24 24), 0, 0] ++
    leBytes 4 startG)

/-- An armed swap ends without a swap, with an outcome code (R211). -/
def State.disarm (s : State) (outcome : Nat) : State :=
  let s := (s.setLast outcome).setChamber .loaded
  let s := { s with twl := { s.twl with exch := s.twl.exch.filter (·.arg ≠ 0) } }
  s.swapNotice 0

/-- An armed swap is abandoned: EV 0x091 with the outcome (R195, R198, R209). -/
def State.abandonSwap (s : State) (outcome : Nat) : State :=
  if s.se.swap.chamber = .armed then (s.disarm outcome).ev 0x091 outcome else s

/-! ### Role changes (R371) -/

/-- 32 added to every request-stream counter (R399). -/
def State.addReq32 (s : State) : State :=
  (List.range 1536).foldl (fun s e =>
    let a := Addr.stnEntryW6 e
    s.setFld a 31 16 ((s.fld a 31 16 + 32) % 65536)) s

/-- A unit that becomes DETACHED in RUN or HOLD goes to STOP (R386). -/
def State.detachStop (s : State) : State :=
  if s.op = .run then
    let s := s.onCtx 0 fun c => if c.st = .disabled then c else { c with st := .waiting }
    { s with se := { s.se with
      active := if s.se.active = some 0 then none else s.se.active,
      leaving := some ⟨.stop, match s.se.leaving with | some l => l.t | none => s.utick⟩, change := none } }
  else if s.op = .hold then { s with se := { s.se with change := some ⟨.stop, s.utick⟩ } }
  else s

/-- The role changes: EV 0x1C0, CTX5, an armed swap abandoned, a join at its end, forced restriction on idle ports,
the new record (R209, R245, R371, R381). -/
def State.setRole (s : State) (r : Role) : State :=
  if s.role = r then s
  else
    let old := s.role
    let held := s.twl.waitRel.map (·.1)
    let s := s.when (old = .tracking && (r = .solo || r = .primary)) (·.addReq32)
    let s := { s with role := r, twl := { s.twl with
      jphase := if r = Role.joining then s.twl.jphase else 0, waitRel := [], announced := [], left := false,
      exch := s.twl.exch.filter fun _ => decide (r = Role.primary) || decide (r = Role.tracking) } }
    let s := s.idlePorts.abandonSwap 4
    let s := (s.ev 0x1C0 (old.code + r.code * 256)).sysTrig 5 (old.code + r.code * 256)
    let s := s.when (r = Role.detached) (·.detachStop)
    let s := s.when ((r = Role.solo || r = Role.primary) && s.userOpen) fun s => held.foldl (fun s n =>
      if (s.ctx n).st = .waiting || (s.ctx n).st = .disabled then s.releaseOrHold n else s) s
    s.sendCap

/-- The unit goes on alone: epoch + 1, then SOLO (R370, R371, R409). -/
def State.goAlone (s : State) : State := s.raiseEpoch.setRole .solo

/-! ### Joining at last (R371, R401) -/

/-- A word of the twin's record as a number; 0 when unknown. -/
def State.peerN (s : State) (i hi lo : Nat) : Nat := match s.peerWord i with | some w => bitsOf w hi lo | none => 0

/-- The twin runs the same DIGEST. -/
def State.sameDigest (s : State) : Bool :=
  (List.range 8).all fun i => s.peerWord (4 + i) = some (s.rd (Addr.seRunDigest i))

/-- REASON for which a join may not start; none: R401 is met, for a DETACHED unit with a SOLO twin. -/
def State.joinReason (s : State) : Option Nat :=
  if s.twl.link ≠ .up then some 1
  else if !s.sameDigest then some 3
  else if s.stageKib < s.peerN 12 11 0 + 4 then some 4
  else if s.peerN 13 2 0 ≠ 0 && s.peerN 13 2 0 ≠ 3 then some 5
  else if s.peerN 0 7 0 ≠ s.proto then some 6
  else none

/-- A join starts (R401). -/
def State.joinStart (s : State) : State :=
  let s := { s with twl := { s.twl with jphase := 1, te := none } }
  ((s.twlCtrl 8 0 0).ev 0x1C7 0).setRole .joining

/-- AUTOJOIN: a join whenever R401 allows. -/
def State.autoJoin (s : State) : State :=
  if s.autojoin && s.role = .detached && s.twl.wait.isNone && s.peerRole = 0 && s.joinReason.isNone then s.joinStart else s

/-! ### The ends of a join, a switchover and a pair (R406 to R408) -/

/-- The LONG commands of a switchover or a detach end with a status. -/
def State.switchEnd (s : State) (status : Nat) : State :=
  let s := { s with twl := { s.twl with switch := none, exch := s.twl.exch.filter (·.arg ≠ 1) } }
  (s.noticeAll 0x0703 status).noticeAll 0x0702 status

/-- A join of this unit fails with a REASON (R406). -/
def State.joinFail (s : State) (reason : Nat) : State :=
  if s.role ≠ .joining then s
  else
    let s := (s.wr Addr.twlJoinerr (BitVec.ofNat 32 reason)).ev 0x1C9 reason
    let s := s.setRole .detached
    s.noticeAll 0x0701 0x0720 [BitVec.ofNat 8 reason]

/-- The unit sends LEAVE (R407): a PRIMARY or TRACKING unit becomes DETACHED (R371). -/
def State.leaveTwin (s : State) : State :=
  if !s.pairOn then s
  else
    let s := s.twlCtrl 6 0 0
    let s := s.when (s.twl.switch.isSome) (·.switchEnd 0x0720)
    s.when (s.role = .primary || s.role = .tracking) (·.setRole .detached)

end Sys2Proof.Machine
end

