-- ==== Sys2Proof/Machine/SeSched.lean ====
section
/-! DEFINITION. The scan engine: FAULT, traps, system contexts, completion and publication (R106 to R118,
R181). -/

namespace Sys2Proof.Machine

/-! ### FAULT and traps (R115, R116, R123, R181) -/

/-- The SE stops every context and publishes nothing further (R123). -/
def State.seStop (s : State) : State :=
  let s := match s.se.active with
    | some a => s.onCtx a fun c => { c with st := .preempted }
    | none => s
  { s with se := { s.se with active := none, copyQ := [], copying := none, ctx4At := none, halted := true,
                             leaving := none, change := none } }

/-- FAULT is entered with an event code as its cause (R76, R123): an armed swap is abandoned, LEAVE is sent
(R407), and after a power-fail warning the retain copy begins (R122). A state change that was requested ends
with WRONG_STATE (log entry 21). -/
def State.enterFault (s : State) (code : Nat) : State :=
  if s.op = .fault then s
  else
    let s := (s.abandonSwap 5).leaveTwin.seStop
    let s : State := { s with op := .fault, fcause := some code, twl := { s.twl with pairReq := none } }
    let s := s.noticeAll 0x0005 0x0020
    (s.when s.se.pfail (·.retainBegin)).sendCap

/-- A system context failed: FAULT and EV 0x086 (R116). -/
def State.sysFail (s : State) (n code : Nat) : State := (s.ev 0x086 (n + code * 256)).enterFault 0x086

/-- The packets a context left open are closed (R177). -/
def State.closeOpen (s : State) (n : Nat) (trunc : Bool) : State :=
  (List.range 32).foldl (fun s k =>
    if (s.queue k).opened.any (·.1 = 0x40 + n) then
      let s := s.qClose k trunc
      s.when trunc (·.qTruncEv k (0x40 + n))
    else s) s

/-- An instance is aborted without publication: its packets closed with TRUNC, its context WAITING, a
held release next. -/
def State.abort (s : State) (n : Nat) : State :=
  let s := s.closeOpen n true
  let p := (s.ctx n).pend
  let s := s.onCtx n fun c => { c with st := .waiting, copied := false, pend := false }
  let s := { s with se := { s.se with active := if s.se.active = some n then none else s.se.active,
                                      copyQ := s.se.copyQ.filter (· ≠ n) } }
  (s.when (p && s.userOpen) (·.releaseOrHold n)).dispatch

/-- CTX0 starts again at its entry, its stack and status word as at a release (R86, R89; log entry 20). -/
def State.restart0 (s : State) : State :=
  s.onCtx 0 fun c => { c with pc := s.ctxEntry 0, stk := [], sw := 0, cut := [], first := false }

/-- An unrebuildable integrity error in a context: KIND 0 fetch, 1 data read (R115, R116). -/
def State.integrity (s : State) (n kind : Nat) : State :=
  if n = 0 then (s.restart0.sysTrig 1 (kind * 256)).dispatch
  else if n < 8 then s.sysFail n 0
  else ((s.ev 0x084 (n + kind * 256)).abort n).sysTrig 1 (n + kind * 256) |>.dispatch

/-- A trap of the executing context: the trap registers together, EV 0x085, and the outcome (R181). -/
def State.trap (s : State) (n code addr trapCode : Nat) : State :=
  let w := code + n * 256 + trapCode * 65536
  let s := (s.wr Addr.seTrap (BitVec.ofNat 32 w)).wr Addr.seTrapPc (BitVec.ofNat 32 (s.ctx n).pc)
  let s := ((s.wr Addr.seTrapAddr (BitVec.ofNat 32 addr)).inc Addr.seTrapCnt).ev 0x085 w
  if n = 0 then s.restart0
  else if n < 8 then s.sysFail n code
  else s.abort n

/-! ### Slack points (R193) -/

/-- Every context from CTX1 on is WAITING or DISABLED, and no copy or publication runs. -/
def State.seIdle (s : State) : Bool :=
  s.se.copying.isNone && s.se.copyQ.isEmpty &&
    s.se.ctxs.all fun e => e.1 = 0 || e.2.st = .waiting || e.2.st = .disabled

/-- A cyclic release falls within `w` ns of now. Before the count starts, the next tick is g = 0. -/
def State.dueWithin (s : State) (w : Nat) : Bool :=
  s.op = .run && !s.se.starting &&
    (List.range ((s.dtime + w - s.se.gT) / 10000 + 1)).any fun j =>
      j ≠ 0 && s.dtime ≤ s.se.gT + 10000 * j && !(s.dueAt (if s.se.gridOn then s.se.g + j else j - 1)).isEmpty

/-- A slack point for a swap of `w` ns (R193). -/
def State.slack (s : State) (w : Nat) : Bool := s.seIdle && !s.dueWithin w

/-- MIGKIB of the chamber's image. -/
def State.migKibNow (s : State) : Nat := s.fld Addr.seSwapMig 9 0

/-- T_SW in ns (R191). -/
def State.tSw (s : State) : Nat := 40000 + 1000 * s.migKibNow

/-- A PRIMARY at its own slack point proposes the first grid tick at least 5 µs ahead, for an armed swap or a
switchover (R206, R408). -/
def State.propose (s : State) : State :=
  if s.role ≠ .primary || s.twl.exch.isSome || s.twl.link ≠ .up then s
  else
    let j := (s.dtime + 5000 - s.se.gT + 9999) / 10000
    let ahead := s.se.gT + 10000 * j - s.dtime
    let put (arg w : Nat) : State :=
      if s.slack (ahead + w) then
        ({ s with twl := { s.twl with exch := some ⟨arg, s.se.g + j, false⟩ } } : State).twlCtrl 1 arg (s.se.g + j)
      else s
    if s.se.swap.chamber = .armed then put 0 s.tSw
    else if s.twl.switch.isSome then put 1 20000
    else s

/-! ### Completion and publication (R106, R108, R111) -/

/-- The holds a CTX2 instance ends, and the tasks they held (R111), each with a trigger that came meanwhile as its
pending release (R103). -/
def State.endHolds (s : State) : State :=
  let s := { s with se := { s.se with holds := s.se.holds.filter fun h => !h.armed } }
  s.heldCtxs.foldl (fun s n =>
    if s.se.holds.any fun h => s.touches n h.port h.stn then s
    else if s.userOpen then
      let p := (s.ctx n).pend
      (s.release n).when p (·.onCtx n fun c => { c with pend := true })
    else s.onCtx n fun c => { c with st := .waiting, pend := false }) s

/-- CTX0 starts at its entry (R89). -/
def State.start0 (s : State) : State :=
  (s.onCtx 0 fun c =>
    { c with st := .released, copied := true, pc := s.ctxEntry 0, stk := [], sw := 0, first := !c.ran, ran := true,
             relT := s.dtime, cut := [] }).dispatch

/-- CTX7 has completed: held triggers are released, and CTX0 starts (R89, R115). -/
def State.ctx7Done (s : State) : State :=
  let s := { s with se := { s.se with starting := false } }
  let ns := (s.se.ctxs.filter fun e => 16 ≤ e.1 && e.2.pend).map (·.1)
  let s := ns.foldl (fun s n => if s.userOpen then s.releaseOrHold n else s) s
  s.when (s.ctxEn 0 && s.userOpen) (·.start0)

/-- The next release of a cyclic context after now, as a grid tick (R393). -/
def State.nextDue (s : State) (n : Nat) : Option Nat :=
  let p := s.ctxPeriod n
  let ph := s.lf (Addr.ctxPhase n) 23 0
  if p = 0 || !s.ctxEn n then none
  else some (if s.se.g < ph then ph else ph + ((s.se.g - ph) / p + 1) * p)

/-- The dirty list of the instance closes (R392): in a PRIMARY, and in a SOLO unit whose twin joins, it forms
a mirror cycle. -/
def State.mirrorClose (s : State) (n : Nat) : State :=
  let c := s.ctx n
  let s := s.onCtx n fun c => { c with dirty := [], dirtyT := [] }
  if s.role = .primary || (s.role = .solo && s.twl.jphase ≠ 0) then
    { s with twl := { s.twl with send := s.twl.send ++ [⟨n, s.nextDue n, c.dirty, c.dirtyT, s.dtime⟩] } }
  else s

/-- The CONTEXT END slots of the watchdog that a completed context marks (R522). -/
def State.wdtCtxMark (s : State) (n : Nat) : State :=
  let ks := (List.range 16).filter fun k => s.fld (Addr.wdtSlot k) 1 0 = 1 && s.fld (Addr.wdtSlot k) 15 8 = n && !s.wdt.marks.contains k
  if ks.isEmpty then s else { s with wdt := { s.wdt with marks := s.wdt.marks ++ ks } }

/-- An instance has ended: RESP_LAST and RESP_MAX (R108), the pending release (R103, R106). -/
def State.complete (s : State) (n : Nat) : State :=
  let c := s.ctx n
  let r := min ((s.dtime - c.relT) / 1000) 0xFFFF
  let p := c.pend
  let s := s.setCtx n { c with st := .waiting, copied := false, pend := false, respLast := r,
                               respMax := max c.respMax r }
  let s := (s.mirrorClose n).wdtCtxMark n
  let s := s.when (n = 2) (·.endHolds)
  let s := s.when (n = 7) (·.ctx7Done)
  if n = 4 && s.se.pfail then s.seStop.retainBegin else
  (s.when (p && s.userOpen && n ≠ 7) (·.releaseOrHold n)).dispatch.propose

/-- SNAPSHOT_COPY_END (R97, R99); `bad`: both copies of an image word were flagged (R434). -/
def execSnapshotCopyEnd (ctx : Nat) (bad : Option Nat) (s : State) : Host.Outcome State Fault Refusal :=
  .next <|
    if s.se.copying ≠ some ctx then s
    else
      let s := { s with se := { s.se with copying := none } }
      match bad with
      | none => (s.onCtx ctx fun c => { c with copied := true }).dispatch
      | some off => ((s.miuErr 10 0 ctx 0 false off).ev 0x208 off).integrity ctx 1

/-- The output lines published from the output buffer (R20, R91). -/
def State.publish (s : State) (n : Nat) (data : Bytes) : State :=
  let ls := s.mapLines n true
  { s with outImg := (List.range ls.length).foldl (fun m i =>
      memPut m (64 * ls.getD i 0) (slice data (64 * i) 64)) s.outImg }

/-- PUBLICATION_END (R108): the output buffer goes to the output image as one write. -/
def execPublicationEnd (ctx t : Nat) (s : State) : Host.Outcome State Fault Refusal :=
  let s := s.at t
  .next <|
    if (s.ctx ctx).st ≠ .publishing || decide (s.op = .fault) then s
    else
      match s.dmRead .seData (s.lf (Addr.ctxBuf ctx) 26 16 * 4096) (64 * (s.mapLines ctx true).length) with
      | (none, s) => s.integrity ctx 1
      | (some d, s) => (s.publish ctx d).complete ctx

/-- IMAGE_COPY_REPAIR (R433). -/
def execImageCopyRepair (_out : Bool) (off : Nat) (s : State) : Host.Outcome State Fault Refusal :=
  .next ((s.inc Addr.miuImgfix).ev 0x207 (off))

/-- CLR_TIME: CTXn_TIME of every context cleared (R90, R94's table). -/
def State.clrTime (s : State) : State :=
  { s with se := { s.se with ctxs := smerge {} [] (s.se.ctxs.map fun e => (e.1, { e.2 with respLast := 0, respMax := 0 })) } }

/-- CLR_OVR: OVR_CNT of every context cleared. -/
def State.clrOvr (s : State) : State :=
  { s with se := { s.se with ctxs := smerge {} [] (s.se.ctxs.map fun e => (e.1, { e.2 with ovr := 0 })) } }

/-- SE_CTRL_CLR_TIME. -/
def execSeCtrlClrTime (s : State) : Host.Outcome State Fault Refusal := .next s.clrTime

/-- SE_CTRL_CLR_OVR. -/
def execSeCtrlClrOvr (s : State) : Host.Outcome State Fault Refusal := .next s.clrOvr

/-- SE_HOT_WRITE (R182): hot bits 32·n to 32·n + 31. -/
def execSeHotWrite (n : Nat) (v : Word) (s : State) : Host.Outcome State Fault Refusal :=
  .next (if n < 256 then (s.wr (Addr.seHot n) v).parHeal (hotUnit (32 * n)) else s)

end Sys2Proof.Machine
end

