-- ==== Sys2Proof/Machine/Shaft.lean ====
section
/-! DEFINITION. The shaft tracker: pulses, revolution boundaries, phase, stall and history (R124 to R129). -/

namespace Sys2Proof.Machine

/-- Internal state of shaft `n`. -/
def State.shaft (s : State) (n : Nat) : Shaft := sget {} s.se.shafts n

/-- Shaft `n` replaced. -/
def State.setShaft (s : State) (n : Nat) (x : Shaft) : State :=
  { s with se := { s.se with shafts := sput {} s.se.shafts n x } }

/-- PPR in force; 0: disabled. -/
def State.ppr (s : State) (n : Nat) : Nat := s.lf (Addr.shCfg n) 10 0

/-- STOPPED of a shaft. -/
def State.shStopped (s : State) (n : Nat) : Bool := s.bit (Addr.shStat n) 1

/-- PHASE at instant `t` (R127): f = min((t - t_last)/delta, 65,535/65,536), 0 before two pulses. -/
def phaseAt (x : Shaft) (ppr t : Nat) : Nat :=
  if ppr = 0 then 0
  else if x.acc < 2 || x.delta = 0 then 65536 * x.pulse / ppr
  else
    let d := t - x.last
    if 65535 * x.delta ≤ 65536 * d then (65536 * x.pulse + 65535) / ppr
    else 65536 * (x.pulse * x.delta + d) / (ppr * x.delta)

/-- SHs_PHASE as it reads now: held while STOPPED (R128). -/
def State.shPhaseReg (s : State) (n : Nat) : Word :=
  if s.shStopped n then s.rd (Addr.shPhase n)
  else BitVec.ofNat 32 (phaseAt (s.shaft n) (s.ppr n) s.dtime % 65536 + (s.shaft n).pulse * 65536)

/-- STAMP of a shaft in ns. -/
def State.shStamp (s : State) (n : Nat) : Nat := s.rdN (Addr.shStampLo n) + s.rdN (Addr.shStampHi n) * 2 ^ 32

/-- STAMP written. -/
def State.setStamp (s : State) (n t : Nat) : State :=
  (s.wr (Addr.shStampLo n) (BitVec.ofNat 32 t)).wr (Addr.shStampHi n) (BitVec.ofNat 32 (t / 2 ^ 32))

/-- The stamp of an edge that leaves the synchroniser at `t` (R26): less 2 cycles of CLK_SYS, 20/3 ns, and rounded
down to 10 ns. -/
def stampOf (t : Nat) : Nat := (3 * t - 20) / 30 * 10

/-- A revolution boundary at `t` (R125): COUNT advances by 1, STAMP, and PERIOD with RUN when a revolution was
completed (`whole`). -/
def State.boundary (s : State) (n t : Nat) (whole : Bool) : State :=
  let p := min ((t - (s.shaft n).bound) / 10) 0xFFFFFFFF
  let s := s.wr (Addr.shCount n) (s.rd (Addr.shCount n) + 1)
  let s := s.setStamp n t
  if whole then
    let s := (s.wr (Addr.shPeriod n) (BitVec.ofNat 32 p)).setBit (Addr.shStat n) 0 true
    let x := s.shaft n
    s.setShaft n { x with hist := ((s.rdN (Addr.shCount n), p) :: x.hist).take 1024 }
  else s

/-- A stamped pulse of an enabled shaft (R125, R126, R128). -/
def State.shaftPulse (s : State) (n t : Nat) : State :=
  let x := s.shaft n
  let gap := s.lf (Addr.shLim n) 15 0 * 100
  if x.last ≠ 0 && t - x.last < gap then (s.incFld (Addr.shStat n) 31 16).ev 0x08A n
  else
    let stopped := s.shStopped n
    let fresh := x.acc = 0 || stopped
    let isB := fresh || s.ppr n ≤ x.pulse + 1
    let s := s.when stopped fun s => (s.setBit (Addr.shStat n) 1 false).ev 0x089 n
    let s := s.when isB (·.boundary n t (!fresh))
    let y := s.shaft n
    s.setShaft n { y with
      pulse := if isB then 0 else x.pulse + 1, acc := if fresh then 1 else min (x.acc + 1) 2, last := t,
      delta := if fresh then 0 else t - x.last, bound := if isB then t else x.bound, since := s.utick }

/-- The shafts that take an edge of a channel: CH and EDGE in force (R124). -/
def State.edgeShafts (s : State) (ch : Nat) (rising : Bool) : Nats :=
  (List.range 32).filter fun n =>
    s.ppr n ≠ 0 && s.lf (Addr.shCfg n) 21 16 = ch && s.lf (Addr.shCfg n) 23 22 = (if rising then 0 else 1)

/-- SHAFT_STALL (R128): STALL ms without an accepted pulse. -/
def execShaftStall (sh t : Nat) (s : State) : Host.Outcome State Fault Refusal :=
  let s := s.at t
  let st := s.lf (Addr.shLim sh) 31 16
  .next <|
    if sh < 32 && s.ppr sh ≠ 0 && st ≠ 0 && !s.shStopped sh && (s.shaft sh).since + st * 100000 ≤ s.utick then
      let ph := s.shPhaseReg sh
      let s := ((s.wr (Addr.shPhase sh) ph).setBit (Addr.shStat sh) 1 true).setBit (Addr.shStat sh) 0 false
      (s.wr (Addr.shPeriod sh) 0).ev 0x088 sh
    else s

/-- A shaft enabled or reconfigured by an SE commit starts afresh (R124, R125, R128). COUNT is the boundaries passed
since enable, minus 1, and wraps: with none passed it is 0xFFFF_FFFF, and 0 while the shaft is disabled (log
entry 47). -/
def State.shaftReset (s : State) (n : Nat) : State :=
  let s := (((s.wr (Addr.shStat n) 0).wr (Addr.shPhase n) 0).wr (Addr.shCount n)
    (if s.ppr n = 0 then 0 else 0xFFFFFFFF)).wr (Addr.shPeriod n) 0
  (s.setStamp n 0).setShaft n { since := s.utick }

end Sys2Proof.Machine
end

