-- ==== Sys2Proof/Machine/Fio.lean ====
section
/-! DEFINITION. Field I/O: samples, filters, diagnostics, drivers, the sample word, groups, load measurement, and
the FIO opcodes (R330 to R367). -/

namespace Sys2Proof.Machine

/-! ### Configuration in force -/

/-- Channel `n`. -/
def State.fch (s : State) (n : Nat) : FioCh := sget {} s.fio.chans n
/-- Channel `n` changed by `f`. -/
def State.onFch (s : State) (n : Nat) (f : FioCh → FioCh) : State :=
  { s with fio := { s.fio with chans := supd {} s.fio.chans n f } }

/-- MODE in force. -/
def State.chMode (s : State) (n : Nat) : Nat := s.lf (Addr.chCfg n) 2 0
/-- OUTPUT or OUTPUT_RB. -/
def State.chOut (s : State) (n : Nat) : Bool := s.chMode n = 2 || s.chMode n = 3
/-- Filtered modes: INPUT and OUTPUT_RB (R339). -/
def State.chFiltered (s : State) (n : Nat) : Bool := s.chMode n = 1 || s.chMode n = 3
/-- Modes that are inputs of their group (R357): INPUT, OUTPUT_RB and TACH. -/
def State.chIn (s : State) (n : Nat) : Bool := s.chFiltered n || s.chMode n = 4
/-- PAIRED in force. -/
def State.chPaired (s : State) (n : Nat) : Bool := s.lf (Addr.chCfg n) 13 13 = 1
/-- Members of a set of kind PAR. -/
def parSize (par : Nat) : Nat := if par = 1 then 2 else if par = 2 then 4 else 1
/-- Members of the parallel set of an output (R351). -/
def State.setSize (s : State) (n : Nat) : Nat := if s.chOut n then parSize (s.lf (Addr.chCfg n) 12 11) else 1
/-- Lowest member of its set. -/
def State.leader (s : State) (n : Nat) : Nat := n / s.setSize n * s.setSize n
/-- The members of its set. -/
def State.parSet (s : State) (n : Nat) : Nats := (List.range (s.setSize n)).map (s.leader n + ·)
/-- VALUE, VALID, DRV, DIAG as CHn_STAT holds them. -/
def State.chValue (s : State) (n : Nat) : Bool := s.bit (Addr.chStat n) 0
/-- VALID of the image. -/
def State.chValid (s : State) (n : Nat) : Bool := s.bit (Addr.chStat n) 1
/-- DRV: the driver is energised. -/
def State.chDrv (s : State) (n : Nat) : Bool := s.bit (Addr.chStat n) 2
/-- DIAG. -/
def State.chDiag (s : State) (n : Nat) : Nat := s.fld (Addr.chStat n) 7 4
/-- The group is OFF (R357). -/
def State.grpOff (s : State) (g : Nat) : Bool := s.bit (Addr.grpStat g) 1 && !s.fio.offPend.contains g
/-- WAIT_ACK (R358). -/
def State.grpWait (s : State) (g : Nat) : Bool := s.bit (Addr.grpStat g) 2

/-- The substitute of SUBST (R340), for a parallel set that of its lowest member (R352). -/
def State.substOf (s : State) (n : Nat) : Bool :=
  let l := s.leader n
  match s.lf (Addr.chCfg l) 10 9 with
  | 0 => (s.fch l).filt
  | 2 => true
  | _ => false

/-- VALUE and VALID written. -/
def State.setValue (s : State) (n : Nat) (v valid : Bool) : State :=
  (s.setBit (Addr.chStat n) 0 v).setBit (Addr.chStat n) 1 valid

/-! ### Diagnostics (R344 to R349) -/

/-- A condition after one more sample: three contrary samples in a row change it (R344). -/
def debounce (c : Bool × Nat) (now : Bool) : Bool × Nat :=
  if now = c.1 then (c.1, 0) else if 3 ≤ c.2 + 1 then (now, 0) else (c.1, c.2 + 1)

/-- The raised condition of a code. -/
def FioCh.has (x : FioCh) (code : Nat) : Bool := (sget (false, 0) x.conds code).1

/-- Candidates of R349, ascending. -/
def State.candidates (s : State) (n : Nat) : Nats :=
  match (s.fch n).rb1 with
  | none => []
  | some t => (List.range 48).filter fun m =>
      s.chDrv m && !(s.parSet n).contains m && (s.fch m).onAt ≤ t

/-- Code and source of a channel that is held high (R349, R359, R361); `ts`: the sample instant in ticks of 10 ns. -/
def State.highDiag (s : State) (n ts : Nat) : Nat × Nat :=
  let old := s.fld (Addr.chStat n) 13 8
  if s.chPaired n && (s.role = .joining || s.role = .detached) then (6, 63)
  else match lowest (s.candidates n) with
    | some m => (6, m)
    | none =>
      if s.chPaired n then (6, 63)
      else if s.chDiag n = 6 && old < 48 && ts < (s.fch old).blank then (6, old)
      else (5, 0)

/-- The active code of highest priority, with DIAGSRC (R345, R346). -/
def State.diagNow (s : State) (n ts : Nat) : Nat × Nat :=
  let x := s.fch n
  if s.grpOff (n / 8) || (s.chOut n && s.grpWait (n / 8)) then (9, 0)
  else if !s.chOut n then (0, 0)
  else if x.short then (4, 0)
  else if x.hot then (8, 0)
  else if x.has 3 then (3, 0)
  else if x.has 2 then (2, 0)
  else if x.has 7 then (7, 0)
  else if x.has 5 then s.highDiag n ts
  else if x.has 10 then (10, 0)
  else if x.has 1 then (1, 0)
  else (0, 0)

/-- DIAG and DIAGSRC of a set written to every member; EV 0x180 and CTX6, or EV 0x181, once, at the lowest
member (R346, R352). -/
def State.putDiag (s : State) (n : Nat) (d : Nat × Nat) : State :=
  let old := s.chDiag n
  let raised := d.1 ≠ 0 && d.1 ≠ old
  let s := (s.parSet n).foldl (fun s m =>
    let s := (s.setFld (Addr.chStat m) 7 4 d.1).setFld (Addr.chStat m) 13 8 d.2
    s.when raised (·.incFld (Addr.chStat m) 31 16)) s
  if raised then (s.ev 0x180 (n + d.1 * 256 + d.2 * 65536)).sysTrig 6 (n * 256)
  else s.when (old ≠ 0 && d.1 = 0) (·.ev 0x181 n)

/-- DIAG of the channel's set brought up to date. -/
def State.updDiag (s : State) (n : Nat) : State := s.putDiag (s.leader n) (s.diagNow (s.leader n) s.utick)

/-! ### Drivers (R333, R343, R347, R348, R352, R359) -/

/-- The operating state lets drivers follow commands (R14, R122, R333). -/
def State.fioLive (s : State) : Bool := (s.op = .run || s.op = .hold) && !s.se.halted && s.fio.linkBad < 3

/-- The command bit of a set (R352). -/
def State.chCmd (s : State) (n : Nat) : Bool := s.fio.cmd.testBit (s.leader n)

/-- The set's driver belongs on. -/
def State.drvWant (s : State) (n : Nat) : Bool :=
  let l := s.leader n
  let x := s.fch l
  s.chOut n && s.fioLive && s.chCmd n && !s.grpOff (n / 8) && !s.grpWait (n / 8) && !x.held && !x.hot &&
    (!s.chPaired n || s.role = .solo || s.role = .primary || (s.role = .tracking && s.fio.takeover))

/-- Conditions from before a change of the driver: what is raised stays, and the counts of contrary samples start
again after blanking (R344). -/
def recount (m : Sparse (Bool × Nat)) : Sparse (Bool × Nat) :=
  m.filterMap fun e => if e.2.1 then some (e.1, (true, 0)) else none

/-- One driver switched; blanking runs from now (R343). -/
def State.switchOne (s : State) (n : Nat) (on : Bool) : State :=
  if s.chDrv n = on then s
  else
    let s := s.setBit (Addr.chStat n) 2 on
    let s := s.when on (·.inc (Addr.chSwitch n))
    let v := s.fld (Addr.grpStat (n / 8)) 31 16
    s.onFch n fun x => { x with
      blank := s.utick + 6000 + s.lf (Addr.chCfg n) 23 16 * 10000
      rb1 := none
      conds := recount x.conds
      onAt := if on then s.utick else x.onAt
      vfld := if on then v else x.vfld }

/-- A set's drivers brought to where they belong (R352). -/
def State.driveSet (s : State) (n : Nat) : State :=
  let on := s.drvWant n
  (s.parSet n).foldl (fun s m => s.switchOne m on) s

/-- Every output of all six groups off (R14). -/
def State.outputsOff (s : State) : State := (List.range 48).foldl (fun s n => s.switchOne n false) s

/-- The set is off without being held off by codes 4, 8 or 9 (R345). -/
def State.offOk (s : State) (n : Nat) : Bool :=
  let x := s.fch n
  !s.chDrv n && !x.held && !x.hot && !s.grpOff (n / 8) && !s.grpWait (n / 8)

/-! ### Samples (R336 to R345) -/

/-- The comparator of an INPUT channel is sampled before the tick number `k` (R336, R337). -/
def State.sampled (s : State) (n k : Nat) : Bool :=
  s.lf (Addr.chCfg n) 4 4 = 1 || (let p := s.lf (Addr.grpCfg (n / 8)) 7 0
    3 ≤ k && p ≠ 0 && (k - 3) % p = n / 8)

/-- One sample into the filter of R339. -/
def State.filter (s : State) (n : Nat) (v : Bool) : State :=
  let x := s.fch n
  let cnt := if v = x.cand then min (x.cnt + 1) 15 else 1
  let s := s.onFch n fun x => { x with cand := v, cnt := cnt }
  if s.lf (Addr.chCfg n) 8 5 ≤ cnt then
    (s.onFch n fun x => { x with filt := v }).setValue n v true
  else s

/-- The current of a set in mA. -/
def State.setCurrent (s : State) (n : Nat) (smp : FioSample) : Nat :=
  ((s.parSet n).map fun m => smp.current.getD m 0).sum

/-- The conditions of R345 for a set after blanking, at the lowest member. -/
def State.conditions (s : State) (n : Nat) (smp : FioSample) : List (Nat × Bool) :=
  let on := s.chDrv n
  let rb := smp.level.getLsbD n
  let lim := (s.parSet n).any fun m => smp.limit.getLsbD m
  let trk := s.chPaired n && decide (s.role = .tracking)
  let role0 : Bool := s.chPaired n && !(decide (s.role = .solo) || decide (s.role = .primary))
  let idle : Bool := s.offOk n && (!s.fioLive || !s.chCmd n)
  [(1, idle && !rb && s.lf (Addr.chCfg n) 14 14 = 1 && smp.testHi.getLsbD n),
   (2, on && rb && s.lf (Addr.chCfg n) 15 15 = 1 && s.setCurrent n smp < 6 * s.setSize n),
   (3, on && lim),
   (5, s.offOk n && rb && !trk && (role0 || idle)),
   (7, on && !rb && !lim),
   (10, trk && !on && rb ≠ s.chCmd n)]

/-- One sample of an output set (R342 to R347, R352); `ts`: its instant in ticks of 10 ns. -/
def State.sampleSet (s : State) (n ts : Nat) (smp : FioSample) : State :=
  let rb := smp.level.getLsbD n
  let lim := (s.parSet n).any fun m => smp.limit.getLsbD m
  let s := if ts < (s.fch n).blank then s
    else
      let s := s.when (s.chMode n = 3 && !s.grpOff (n / 8)) fun s =>
        let s := s.filter n rb
        (s.parSet n).foldl (fun s m =>
          (s.onFch m fun x => { x with filt := (s.fch n).filt }).setValue m (s.chValue n) (s.chValid n)) s
      let s := s.onFch n fun x => { x with
        rb1 := if rb && s.offOk n && x.rb1.isNone then some ts else x.rb1
        short := x.short && !(s.chDrv n && !lim) }
      let cs := s.conditions n smp
      s.onFch n fun x => { x with
        conds := cs.foldl (fun m c => supd (false, 0) m c.1 fun d => debounce d c.2) x.conds }
  s.putDiag n (s.diagNow n ts)

/-- The sample of one channel before tick number `k`, taken 5 µs before it (R336, R342). -/
def State.sampleCh (s : State) (n k : Nat) (smp : FioSample) : State :=
  let v := smp.level.getLsbD n
  let off := s.grpOff (n / 8)
  let raw (s : State) : State := s.setBit (Addr.chStat n) 3 v
  match s.chMode n with
  | 1 => if s.sampled n k && !off then ((raw s).filter n v).updDiag n else s.updDiag n
  | 4 =>
    let s := raw s
    let s := if off then s else (s.onFch n fun x => { x with filt := v }).setValue n v true
    s.updDiag n
  | 2 | 3 =>
    let s := (raw s).setFld (Addr.chCurrent n) 15 0 (min (smp.current.getD n 0) 0xFFFF)
    if s.leader n = n then s.sampleSet n (s.utick - 500) smp else s
  | _ => s.updDiag n

/-! ### The output update tick (R331 to R333, R357) -/

/-- The output line taken: a word of which both copies are flagged reads 0 (R332, R434). -/
def State.outLine (s : State) (bad : Option Nat) : Bytes :=
  let a := 64 * s.lf Addr.fioImg 25 16
  (List.range 64).map fun i =>
    match bad with
    | some w => if w / 8 = (a + i) / 8 then 0 else sget 0 s.outImg (a + i)
    | none => sget 0 s.outImg (a + i)

/-- A group acknowledged: EV 0x185; without WAIT_ACK nothing (R358). -/
def State.groupAck (s : State) (g : Nat) : State :=
  if g < 6 && s.grpWait g then (s.setBit (Addr.grpStat g) 2 false).ev 0x185 g else s

/-- A latched SHORT cleared (R347). -/
def State.diagClear (s : State) (n : Nat) : State :=
  let l := s.leader n
  if n < 48 && s.chOut n && (s.fch l).held && s.lf (Addr.chCfg l) 31 24 = 0 then
    (s.onFch l fun x => { x with held := false, short := false }).updDiag l
  else s

/-- What the output line orders: acknowledges and clears on a change from 0 to 1, and the commands. -/
def State.takeLine (s : State) (l : Bytes) : State :=
  let ack := field l 8 1 % 64
  let clr := field l 16 6
  let up := fun (new old i : Nat) => new.testBit i && !old.testBit i
  let s := (List.range 6).foldl (fun s g => if up ack s.fio.ack g then s.groupAck g else s) s
  let s := (List.range 48).foldl (fun s n => if up clr s.fio.clr n then s.diagClear n else s) s
  { s with fio := { s.fio with cmd := field l 0 6, ack := ack, clr := clr } }

/-- The effects of a group that turned OFF (R357). -/
def State.offEffects (s : State) (g : Nat) : State :=
  let s := { s with fio := { s.fio with offPend := s.fio.offPend.filter (· ≠ g) } }
  let s := (List.range 8).foldl (fun s i =>
    let n := 8 * g + i
    let s := s.when (s.chOut n) fun s => s.switchOne n false
    s.when (s.chIn n) fun s => s.setValue n (s.substOf n) false) s
  let s := (List.range 8).foldl (fun s i => if s.leader (8 * g + i) = 8 * g + i then s.updDiag (8 * g + i) else s) s
  (s.ev 0x183 g).sysTrig 6 (1 + g * 256)

/-- The bit of every channel as bytes. -/
def chanBytes (f : Nat → Bool) : Bytes :=
  (List.range 6).map fun i => BitVec.ofNat 8 (((List.range 8).map fun j => b2n (f (8 * i + j)) * 2 ^ j).sum)

/-- The 64 bytes of the sample word (R331). -/
def State.fioWord (s : State) (k : Nat) : Bytes :=
  chanBytes s.chValue ++ chanBytes s.chValid ++ chanBytes s.chDrv ++ chanBytes (fun n => s.chDiag n ≠ 0) ++
  ((List.range 24).map fun i => BitVec.ofNat 8 (s.chDiag (2 * i) + 16 * s.chDiag (2 * i + 1))) ++
  ((List.range 6).map fun g => BitVec.ofNat 8 (s.fld (Addr.grpStat g) 4 0)) ++ [0, 0] ++ leBytes 4 k ++ [0, 0, 0, 0]

/-- The FIO sample word written, with the SRC 1 triggers of filtered values that changed since the last one
(R331, R341). -/
def State.fioPut (s : State) (k : Nat) : State :=
  let changed := (List.range 48).filter fun n => s.chFiltered n && s.chValue n ≠ (s.fch n).sent
  let trigs : List Trigger := changed.map fun n => ⟨1, n, if s.chValue n then 18 else 19⟩
  let w := s.fioWord k
  let s := (List.range 48).foldl (fun s n => s.onFch n fun x => { x with sent := s.chValue n }) s
  s.imgWrite { src := .fio, cells := cellsOf (64 * s.lf Addr.fioImg 9 0) w, trigs := trigs }

/-- INOW of each group (R364). -/
def State.grpSums (s : State) : State :=
  (List.range 6).foldl (fun s g =>
    s.setFld (Addr.grpCurrent g) 15 0 (min ((List.range 8).map fun i => s.fld (Addr.chCurrent (8 * g + i)) 15 0).sum 0xFFFF)) s

/-- DIE_LINK_RETRY (R13): a transfer that fails its CRC-8 is repeated once; only when that fails too has the receiving
die no valid output image. -/
def dieLinkOk (m : FioSample) : Bool := m.crcOk || m.again

/-- The output line read for the transfer (R20, R21, R434), and taken by the FIO sequencer when it arrives valid;
three ticks in a row without one, after a first one (R583), switch its outputs off for good (R14). -/
def State.takeImage (s : State) (smp : FioSample) : State :=
  let s := match smp.badWord with
    | some off => (s.miuErr 10 0 0 0 false off).ev 0x208 off
    | none => s
  if dieLinkOk smp then
    let bad := if s.fio.linkBad < 3 then 0 else s.fio.linkBad
    ({ s with fio := { s.fio with linkSeen := true, linkBad := bad } } : State).takeLine (s.outLine smp.badWord)
  else if s.fio.linkSeen then { s with fio := { s.fio with linkBad := s.fio.linkBad + 1 } }
  else s

/-- OUTPUT_UPDATE_TICK, its FIO part: samples, the output image, what groups that are OFF order, the drivers, and the
sample word. Ticks are numbered from 0 at reset (R331, R337; log entry 67). -/
def State.fioTick (s : State) (smp : FioSample) : State :=
  let k := s.fio.ticks
  let s := s.when s.fio.takeNew fun s => ({ s with fio := { s.fio with takeNew := false } } : State).ev 0x188 0
  let s := s.when (s.role ≠ .tracking) fun s => { s with fio := { s.fio with takeover := false } }
  let s := { s with fio := { s.fio with ticks := k + 1 } }
  let s := (List.range 48).foldl (fun s n => s.sampleCh n k smp) s
  let s := s.grpSums.takeImage smp
  let s := s.fio.offPend.foldl (fun s g => s.offEffects g) s
  let s := (List.range 48).foldl (fun s n => if s.chOut n && s.leader n = n then s.driveSet n else s) s
  let s := (List.range 48).foldl (fun s n => if s.chMode n = 2 then s.setValue n (s.chDrv n) true else s) s
  s.fioPut k

/-- DIE_LINK_LOSS (R14): after three output update ticks in a row without a valid output image, outputs off, FAULT, and
EV 0x190 at the next start. -/
def execDieLinkLoss (t : Nat) (s : State) : Host.Outcome State Fault Refusal :=
  let s := s.at t
  .next <| if s.fio.linkBad < 3 then s
    else (({ s with fio := { s.fio with linkLost := true } } : State).outputsOff).enterFault 0x190

/-! ### Group supply (R356 to R358, R363) -/

/-- GROUP_LOW (R356). -/
def execGroupLow (g : Nat) (s : State) : Host.Outcome State Fault Refusal :=
  .next <| if g < 6 && !s.bit (Addr.grpStat g) 0 then
      (((s.setBit (Addr.grpStat g) 0 true).incFld (Addr.grpCount g) 15 0).ev 0x182 g).sysTrig 6 (1 + g * 256)
    else s

/-- GROUP_OFF (R357): the effects come with the next output update tick. -/
def execGroupOff (g : Nat) (s : State) : Host.Outcome State Fault Refusal :=
  .next <| if g < 6 && !s.bit (Addr.grpStat g) 1 then
      let s := (s.setBit (Addr.grpStat g) 1 true).incFld (Addr.grpCount g) 31 16
      { s with fio := { s.fio with offPend := s.fio.offPend ++ [g] } }
    else s

/-- GROUP_RECOVERY (R358): after OFF the filters restart, and LATCH waits for an acknowledge. -/
def execGroupRecovery (g : Nat) (s : State) : Host.Outcome State Fault Refusal :=
  .next <| if g < 6 && (s.bit (Addr.grpStat g) 0 || s.bit (Addr.grpStat g) 1) then
      let off := s.bit (Addr.grpStat g) 1
      let s := (s.setBit (Addr.grpStat g) 0 false).setBit (Addr.grpStat g) 1 false
      let s := { s with fio := { s.fio with offPend := s.fio.offPend.filter (· ≠ g) } }
      let s := s.when off fun s => (List.range 8).foldl (fun s i => s.onFch (8 * g + i) fun x => { x with cnt := 0 }) s
      let s := s.when (off && s.lf (Addr.grpCfg g) 8 8 = 0) fun s => s.setBit (Addr.grpStat g) 2 true
      s.ev 0x184 g
    else s

/-- GRPg_ACK (R358). -/
def execGrpgAck (g : Nat) (v : Word) (s : State) : Host.Outcome State Fault Refusal :=
  .next (s.when (v.getLsbD 0) (·.groupAck g))

/-- CHn_DIAGCLR (R347). -/
def execChnDiagclr (ch : Nat) (v : Word) (s : State) : Host.Outcome State Fault Refusal :=
  .next (s.when (v.getLsbD 0) fun s => s.diagClear ch)

/-- The average of the last second (R362). -/
def avgOf (xs : Nats) : Nat := xs.sum / 1000

/-- An overload flag, exact on the sum of 1,000 sweeps: set above the limit in mA, cleared below it (R362). -/
def overload (was : Bool) (xs : Nats) (lim : Nat) : Bool := lim * 1000 < xs.sum || (was && xs.sum = lim * 1000)

/-- The FIO part of a telemetry sweep: VFLD, the averages with their overload flags, and OVERTEMP (R362 to R364).
Supplies in mV, temperatures in 0.1 °C. -/
def State.fioSweep (s : State) (vfld : Nats) (tgrp : List Int) : State :=
  let now := (List.range 6).map fun g => s.fld (Addr.grpCurrent g) 15 0
  let s := { s with fio := { s.fio with sums := (now :: s.fio.sums).take 1000 } }
  let s := (List.range 6).foldl (fun s g =>
    let cur := s.fio.sums.map fun x => x.getD g 0
    let was := s.bit (Addr.grpStat g) 3
    let tg := tgrp.getD g 0
    let s := s.setFld (Addr.grpStat g) 31 16 (min (vfld.getD g 0 / 10) 0xFFFF)
    let s := (s.setFld (Addr.grpCurrent g) 31 16 (min (avgOf cur) 0xFFFF)).setBit (Addr.grpStat g) 3 (overload was cur 2500)
    let s := if 1500 ≤ tg then s.setBit (Addr.grpStat g) 4 true else if tg < 1400 then s.setBit (Addr.grpStat g) 4 false else s
    s.when (overload was cur 2500 && !was) (·.ev 0x186 g)) s
  let dev := s.fio.sums.map List.sum
  let was := s.bit Addr.fioStat 0
  let s := (s.setFld Addr.fioStat 31 16 (min (dev.sum / 10000) 0xFFFF)).setBit Addr.fioStat 0 (overload was dev 12000)
  s.when (overload was dev 12000 && !was) (·.ev 0x187 0)

/-! ### Thermal shutdown and over-temperature (R347, R348) -/

/-- THERMAL_SHUTDOWN (R347): the whole set turns off (R352), and SHORT is reported. -/
def execThermalShutdown (ch : Nat) (s : State) : Host.Outcome State Fault Refusal :=
  .next <| if ch < 48 && s.chOut ch && s.chDrv ch then
      let l := s.leader ch
      let s := s.onFch l fun x => { x with short := true, held := true, offAt := s.utick }
      (s.driveSet l).updDiag l
    else s

/-- SHORT_RETRY (R347): RETRY × 10 ms after the shutdown. -/
def execShortRetry (ch t : Nat) (s : State) : Host.Outcome State Fault Refusal :=
  let s := s.at t
  let l := s.leader ch
  let r := s.lf (Addr.chCfg l) 31 24
  .next <| if ch < 48 && s.chOut ch && (s.fch l).held && r ≠ 0 && (s.fch l).offAt + r * 1000000 ≤ s.utick then
      (s.onFch l fun x => { x with held := false }).driveSet l
    else s

/-- CHANNEL_OVERTEMP (R348): not in current limit. -/
def execChannelOvertemp (ch : Nat) (s : State) : Host.Outcome State Fault Refusal :=
  .next <| if ch < 48 && s.chOut ch && s.chDrv ch then
      let l := s.leader ch
      ((s.onFch l fun x => { x with hot := true }).driveSet l).updDiag l
    else s

/-- CHANNEL_COOLED (R348): cooled by 15 °C, the channel resumes at its command. -/
def execChannelCooled (ch t : Nat) (s : State) : Host.Outcome State Fault Refusal :=
  let s := s.at t
  let l := s.leader ch
  .next <| if ch < 48 && s.chOut ch && (s.fch l).hot then
      ((s.onFch l fun x => { x with hot := false }).driveSet l).updDiag l
    else s

/-! ### Load measurement (R353) -/

/-- Terms of 2·atanh(z) for z = `n`/`d`, in units of 2^-64. -/
def atanhSum (z2n z2d : Nat) : Nat → Nat → Nat → Nat
  | 0, _, _ => 0
  | f + 1, k, p => 2 * p / k + atanhSum z2n z2d f (k + 2) (p * z2n / z2d)

/-- -ln(p/q) in units of 2^-64, for p < q: 2·atanh((q - p)/(q + p)). -/
def negLn (p q : Nat) : Nat :=
  let n := q - p
  let d := q + p
  atanhSum (n * n) (d * d) 120 1 (2 ^ 64 * n / d)

/-- A result that fits its register, otherwise a free value. -/
def State.fitOr (s : State) (a hi : Nat) (v : Nat) : State :=
  if v < 2 ^ (hi + 1) then s.setFld a hi 0 v
  else
    let (f, s) := s.free
    s.setFld a hi 0 f

/-- R from a supply in 10 mV and a steady current in 10 µA, in 0.1 Ω; RON is a calibrated value that the spec does
not give, hence free, as is R at a current of 0. -/
def State.loadR (s : State) (n iss : Nat) : State :=
  let (ron, s) := s.free
  if iss = 0 then s.setFld (Addr.chLoadR n) 23 0 ron
  else s.fitOr (Addr.chLoadR n) 23 ((s.fch n).vfld * 10000 / iss - ron)

/-- LOAD_MEASUREMENT (R353); currents in 0.01 mA. A set measures at its lowest member and writes every member. -/
def execLoadMeasurement (ch : Nat) (m : LoadSample) (s : State) : Host.Outcome State Fault Refusal :=
  .next <| if !(ch < 48 && s.chOut ch && s.lf (Addr.chLm (s.leader ch)) 0 0 = 1) then s
    else
      let l := s.leader ch
      let dx := m.iB - m.iA
      if m.inLimit || m.offBefore || m.iA < 100 || 82 * m.iA < 100 * dx then
        (s.parSet l).foldl (fun s n => s.setFld (Addr.chLoadR n) 31 30 3) s
      else if 1000 * dx < 135 * m.iA then
        let s := s.loadR l m.iB
        let r := s.fld (Addr.chLoadR l) 23 0
        (s.parSet l).foldl (fun s n =>
          (((s.setFld (Addr.chLoadR n) 23 0 r).setFld (Addr.chLoadR n) 31 30 2).wr (Addr.chLoadL n) 0).setFld
            (Addr.chCurrent n) 31 16 (min (m.iB / 10) 0xFFFF)) s
      else
        let iss := m.iA * m.iA / (m.iA - dx)
        let s := s.loadR l iss
        let r := s.fld (Addr.chLoadR l) 23 0
        let tUs := s.lf (Addr.chLm l) 13 4 * 10
        let s := s.fitOr (Addr.chLoadL l) 31 (r * tUs * 2 ^ 64 / (10 * negLn dx m.iA))
        let lv := s.rd (Addr.chLoadL l)
        (s.parSet l).foldl (fun s n =>
          (((s.setFld (Addr.chLoadR n) 23 0 r).setFld (Addr.chLoadR n) 31 30 1).wr (Addr.chLoadL n) lv).setFld
            (Addr.chCurrent n) 31 16 (min (iss / 10) 0xFFFF)) s

/-! ### Commit (R351, R355, R364, R365) -/

/-- The bits of CHn_CFG that must agree in a set. -/
def setCfg (w : Word) : Nat := bitsOf w 3 0 + bitsOf w 31 11 * 16

/-- Offending registers of the set that PAR of channel `n` joins, whatever its MODE (R351). -/
def parFails (m : Sparse Word) (n : Nat) : Nats :=
  let w := sv m (Addr.chCfg n)
  let k := parSize (bitsOf w 12 11)
  if bitsOf w 12 11 = 3 then [Addr.chCfg n]
  else if k = 1 then []
  else
    let l := n / k * k
    let lw := sv m (Addr.chCfg l)
    let lm := sv m (Addr.chLm l)
    if !(bitsOf lw 2 0 = 2 || bitsOf lw 2 0 = 3) then [Addr.chCfg l]
    else (((List.range k).map (l + ·)).filterMap fun j =>
      let jw := sv m (Addr.chCfg j)
      let jm := sv m (Addr.chLm j)
      if bitsOf jm 0 0 ≠ bitsOf lm 0 0 || bitsOf jm 13 4 ≠ bitsOf lm 13 4 then some (Addr.chLm j)
      else if setCfg jw ≠ setCfg lw then some (Addr.chCfg j) else none).take 1

/-- The FIO group is rejected at an address, or not at all; `live`: what is committed (the shafts of R355). -/
def State.fioCheck (s : State) (m : Sparse Word) : Option Nat :=
  lowest (((List.range 48).flatMap fun n =>
    let w := sv m (Addr.chCfg n)
    let mode := bitsOf w 2 0
    let lm := sv m (Addr.chLm n)
    let shafts := (List.range 32).any fun h => s.ppr h ≠ 0 && s.lf (Addr.shCfg h) 21 16 = n
    (if 4 < mode || ((mode = 1 || mode = 3) && bitsOf w 8 5 = 0) || bitsOf w 10 9 = 3 ||
        (s.chMode n = 4 && mode ≠ 4 && shafts) then [Addr.chCfg n] else []) ++
    (if bitsOf lm 0 0 = 1 && (bitsOf lm 13 4 < 10 || 1000 < bitsOf lm 13 4) then [Addr.chLm n] else []) ++
    parFails m n) ++
  ((List.range 6).filterMap fun g =>
    let p := sf m (Addr.grpCfg g) 7 0
    if p < 10 || 200 < p then some (Addr.grpCfg g) else none) ++
  (if 943 < sf m Addr.fioImg 9 0 then [Addr.fioImg] else []))

/-- What an FIO commit does (R339, R340, R353, R365): a channel whose mode changed starts afresh; one that is no output any
more is off; an input that is not VALID shows the substitute of the SUBST now in force; VAL 0 is 'no measurement since
the commit'. -/
def State.fioApply (s : State) (old : Sparse Word) : State :=
  let s := (List.range 48).foldl (fun s n =>
    if sget (resetVal (Addr.chCfg n)) old (Addr.chCfg n) = s.lv (Addr.chCfg n) then s
    else
      let s := s.when (sf old (Addr.chCfg n) 2 0 ≠ s.chMode n) fun s =>
        let s := s.onFch n fun x => { x with cnt := 0, conds := [], short := false, held := false, hot := false, rb1 := none }
        s.when (s.chIn n) fun s => s.setValue n (s.substOf n) false
      let s := s.when (!s.chOut n) fun s => (s.switchOne n false).setFld (Addr.chCurrent n) 15 0 0
      s.when (s.chMode n = 0) fun s => (s.setValue n false false).setBit (Addr.chStat n) 3 false) s
  let s := (List.range 48).foldl (fun s n =>
    if s.chIn n && !s.chValid n then s.setValue n (s.substOf n) false else s) s
  (List.range 48).foldl (fun s n => (s.wr (Addr.chLoadR n) 0).wr (Addr.chLoadL n) 0) s

/-! ### Opcodes (R366) -/

/-- The channels of a mask; none when a channel above 47 is selected. -/
def chanMask (p : Bytes) : Nats := maskList 48 (field p 0 8)

/-- FIO_STATUS (R366). -/
def cmdFioStatus (q : Req) (p : Bytes) (s : State) : State :=
  s.startLen 0x0600 8 q p fun s =>
    s.ok q 0x0600 (((chanMask p).flatMap fun n => wordBytes (s.rd (Addr.chStat n)) ++ wordBytes (s.rd (Addr.chCurrent n))) ++
      (List.range 6).flatMap fun g => wordBytes (s.rd (Addr.grpStat g)) ++ wordBytes (s.rd (Addr.grpCurrent g)))

/-- FIO_GROUP_ACK (R358, R366). -/
def cmdFioGroupAck (q : Req) (p : Bytes) (s : State) : State :=
  s.startLen 0x0601 1 q p fun s =>
    let g := (p.getD 0 0).toNat
    if 5 < g then s.fail q 0x0601 0x11
    else if !s.grpWait g then s.fail q 0x0601 0x20
    else (s.groupAck g).ok q 0x0601

/-- FIO_DIAG_CLEAR (R347, R366). -/
def cmdFioDiagClear (q : Req) (p : Bytes) (s : State) : State :=
  s.startLen 0x0602 1 q p fun s =>
    let n := (p.getD 0 0).toNat
    if 47 < n then s.fail q 0x0602 0x11 else (s.diagClear n).ok q 0x0602

/-- FIO_LOAD_READ (R366). -/
def cmdFioLoadRead (q : Req) (p : Bytes) (s : State) : State :=
  s.startLen 0x0603 8 q p fun s =>
    s.ok q 0x0603 ((chanMask p).flatMap fun n =>
      wordBytes (s.rd (Addr.chLoadR n)) ++ wordBytes (s.rd (Addr.chLoadL n)) ++ wordBytes (s.rd (Addr.chCurrent n)))

/-- FIO_STATUS. -/
def execFioStatus (q : Req) (p : Bytes) (s : State) : Host.Outcome State Fault Refusal := .next (cmdFioStatus q p s)
/-- FIO_GROUP_ACK. -/
def execFioGroupAck (q : Req) (p : Bytes) (s : State) : Host.Outcome State Fault Refusal := .next (cmdFioGroupAck q p s)
/-- FIO_DIAG_CLEAR. -/
def execFioDiagClear (q : Req) (p : Bytes) (s : State) : Host.Outcome State Fault Refusal := .next (cmdFioDiagClear q p s)
/-- FIO_LOAD_READ. -/
def execFioLoadRead (q : Req) (p : Bytes) (s : State) : Host.Outcome State Fault Refusal := .next (cmdFioLoadRead q p s)

end Sys2Proof.Machine
end

