-- ==== Sys2Proof/Machine/Flags.lean ====
section
/-! DEFINITION. The integer flags of the status word (R133) and the integer operations with their flags
at width W (R159 to R162). -/

namespace Sys2Proof.Machine

/-- Z, N, C, V of the status word (R133). -/
structure Flags4 where
  z : Bool
  n : Bool
  c : Bool
  v : Bool
  deriving DecidableEq, Repr

/-- The flags in a status word. -/
def flagsOf (w : Word) : Flags4 := ⟨w.getLsbD 0, w.getLsbD 1, w.getLsbD 2, w.getLsbD 3⟩

/-- A status word with the four flags replaced. -/
def withFlags (w : Word) (f : Flags4) : Word :=
  setBits w 3 0 (b2n f.z + 2 * b2n f.n + 4 * b2n f.c + 8 * b2n f.v)

/-- A status word with a sticky bit set. -/
def sticky (w : Word) (i : Nat) : Word := w ||| BitVec.ofNat 32 (2 ^ i)

/-- The bits SW holds: 31:13 and 7:5 are reserved (R133). -/
def swMask : Word := 0x1F1F

/-- Width in bits of code W (R159). -/
def widthOf (w : BitVec 2) : Nat := 8 * 2 ^ w.toNat

/-- The two's complement value of a `b`-bit number. -/
def toS (b x : Nat) : Int := if x < 2 ^ (b - 1) then x else (x : Int) - 2 ^ b

/-- An integer as a `b`-bit number, wrapping. -/
def ofS (b : Nat) (x : Int) : Nat := (x % 2 ^ b).toNat

/-- Z and N of a `b`-bit result, C and V kept. -/
def znOf (b r : Nat) (f : Flags4) : Flags4 := { f with z := r = 0, n := r.testBit (b - 1) }

/-- What an integer operation answers: the `b`-bit result, the flags, DZ set. -/
structure AluOut where
  r  : Nat
  f  : Flags4
  dz : Bool := false
  deriving DecidableEq, Repr

/-- ADD (R159, R160). -/
def aluAdd (b x y : Nat) (f : Flags4) : AluOut :=
  let r := (x + y) % 2 ^ b
  ⟨r, { znOf b r f with c := 2 ^ b ≤ x + y, v := toS b r ≠ toS b x + toS b y }, false⟩

/-- SUB and CMP: C = 1 means no borrow (R160). -/
def aluSub (b x y : Nat) (f : Flags4) : AluOut :=
  let r := (x + 2 ^ b - y) % 2 ^ b
  ⟨r, { znOf b r f with c := y ≤ x, v := toS b r ≠ toS b x - toS b y }, false⟩

/-- A bitwise result: Z and N, C and V cleared (R159). -/
def aluBits (b r : Nat) (f : Flags4) : AluOut := ⟨r, { znOf b r f with c := false, v := false }, false⟩

/-- SHL: C is the last bit shifted out, 0 for a count of 0 (R160). -/
def aluShl (b x k : Nat) (f : Flags4) : AluOut :=
  let r := x * 2 ^ k % 2 ^ b
  ⟨r, { znOf b r f with c := 1 ≤ k && k ≤ b && x.testBit (b - k) }, false⟩

/-- SHR (R160). -/
def aluShr (b x k : Nat) (f : Flags4) : AluOut :=
  let r := x / 2 ^ k
  ⟨r, { znOf b r f with c := 1 ≤ k && x.testBit (k - 1) }, false⟩

/-- SAR: all sign bits at or above the width (R160). -/
def aluSar (b x k : Nat) (f : Flags4) : AluOut :=
  let r := ofS b (toS b x / 2 ^ (min k b))
  ⟨r, { znOf b r f with c := 1 ≤ k && x.testBit (min (k - 1) (b - 1)) }, false⟩

/-- ROL by `k` mod the width. -/
def aluRol (b x k : Nat) (f : Flags4) : AluOut :=
  let k := k % b
  let r := (x * 2 ^ k + x / 2 ^ (b - k)) % 2 ^ b
  ⟨r, znOf b r f, false⟩

/-- ROR by `k` mod the width. -/
def aluRor (b x k : Nat) (f : Flags4) : AluOut := aluRol b x ((b - k % b) % b) f

/-- The operand as an integer, signed or unsigned. -/
def valOf (sg : Bool) (b x : Nat) : Int := if sg then toS b x else x

/-- MUL: V when the product does not fit the width (R159). -/
def aluMul (sg : Bool) (b x y : Nat) (f : Flags4) : AluOut :=
  let p := valOf sg b x * valOf sg b y
  let r := ofS b p
  ⟨r, { znOf b r f with c := false, v := valOf sg b r ≠ p }, false⟩

/-- MULH: the high half of the product. -/
def aluMulh (sg : Bool) (b x y : Nat) (f : Flags4) : AluOut :=
  let r := ofS b (valOf sg b x * valOf sg b y / 2 ^ b)
  aluBits b r f

/-- DIV: toward zero; by zero 0 with DZ; the most negative by -1 keeps it and sets V (R161). -/
def aluDiv (sg : Bool) (b x y : Nat) (f : Flags4) : AluOut :=
  if y = 0 then ⟨0, { znOf b 0 f with v := false }, true⟩
  else
    let q := Int.tdiv (valOf sg b x) (valOf sg b y)
    let r := ofS b q
    ⟨r, { znOf b r f with v := valOf sg b r ≠ q }, false⟩

/-- REM: the sign of the dividend; by zero the dividend with DZ and V cleared (R161). -/
def aluRem (sg : Bool) (b x y : Nat) (f : Flags4) : AluOut :=
  if y = 0 then ⟨x, { znOf b x f with v := false }, true⟩
  else
    let r := ofS b (Int.tmod (valOf sg b x) (valOf sg b y))
    ⟨r, znOf b r f, false⟩

/-- MIN. -/
def aluMin (sg : Bool) (b x y : Nat) (f : Flags4) : AluOut :=
  let r := if valOf sg b x ≤ valOf sg b y then x else y
  ⟨r, znOf b r f, false⟩

/-- MAX. -/
def aluMax (sg : Bool) (b x y : Nat) (f : Flags4) : AluOut :=
  let r := if valOf sg b x ≤ valOf sg b y then y else x
  ⟨r, znOf b r f, false⟩

/-- NOT: Z and N. -/
def aluNot (b x : Nat) (f : Flags4) : AluOut :=
  let r := 2 ^ b - 1 - x
  ⟨r, znOf b r f, false⟩

/-- NEG: 0 - x (R160). -/
def aluNeg (b x : Nat) (f : Flags4) : AluOut := aluSub b 0 x f

/-- ABS: S = 1 the absolute value, V for the most negative; S = 0 the operand (R160). -/
def aluAbs (sg : Bool) (b x : Nat) (f : Flags4) : AluOut :=
  if sg then
    let r := (toS b x).natAbs % 2 ^ b
    ⟨r, { znOf b r f with v := x = 2 ^ (b - 1) }, false⟩
  else ⟨x, { znOf b x f with v := false }, false⟩

/-- A condition of the BR table that reads flags (R172); AT and AF read the stack. -/
def condFlags (cond : Nat) (f : Flags4) (dz : Bool) : Bool :=
  match cond with
  | 0 => true
  | 3 => f.z
  | 4 => !f.z
  | 5 => f.c
  | 6 => !f.c
  | 7 => f.c && !f.z
  | 8 => !f.c || f.z
  | 9 => f.n != f.v
  | 10 => f.n == f.v
  | 11 => !f.z && (f.n == f.v)
  | 12 => f.z || (f.n != f.v)
  | 13 => f.n
  | 14 => f.v
  | 15 => dz
  | _ => false

end Sys2Proof.Machine
end

