-- ==== Sys2Proof/Machine/Operands.lean ====
section
/-! DEFINITION. How an SE instruction runs in the executing context, and its operands: registers and
pairs, bit operands, DM addresses (R131 to R139, R143, R167 to R169, R181). -/

namespace Sys2Proof.Machine

/-- What an SE instruction does: a change of its context and of the rest, with a jump or the next
instruction; a trap with its code, address and CODE (R181); or an unrebuildable access (R427). -/
inductive SeRes where
  | next (g : Ctx → Ctx) (s : State) (jump : Option Nat)
  | trap (code addr trapCode : Nat)
  | bad (kind : Nat) (s : State)

/-- ILLEGAL. -/
def illegal : SeRes := .trap 1 0 0
/-- STACK. -/
def stackTrap : SeRes := .trap 2 0 0

/-- An instruction of `len` bytes runs in the executing context (R132, R133); with none executing there
is nothing to run. -/
def State.seRun (s : State) (len : Nat) (f : State → Nat → Ctx → SeRes) : State :=
  match s.se.active with
  | none => s
  | some n =>
    let c := s.ctx n
    match f s n c with
    | .next g s' j => s'.onCtx n fun c' =>
        let c' := g c'
        { c' with pc := (match j with | some a => a / 4 * 4 % 0x800000 | none => (c.pc + len) % 0x800000) }
    | .trap code a tc => s.trap n code a tc
    | .bad k s' => s'.integrity n k

/-- As an outcome. -/
def seExec (len : Nat) (f : State → Nat → Ctx → SeRes) (s : State) : Host.Outcome State Fault Refusal :=
  .next (s.seRun len f)

/-! ### Registers -/

/-- Gr of a context. -/
def Ctx.reg (c : Ctx) (r : Reg) : Nat := (c.g.getD r.val 0).toNat

/-- Gr set. -/
def Ctx.setReg (c : Ctx) (r : Reg) (v : Nat) : Ctx := { c with g := c.g.set r.val (BitVec.ofNat 32 v) }

/-- The register after Gr: the high word of a pair. -/
def Ctx.regHi (c : Ctx) (r : Reg) : Nat := (c.g.getD (r.val + 1) 0).toNat

/-- The pair named by even Gr, low word in Gr (chapter 04, "Formats"). -/
def Ctx.pair (c : Ctx) (r : Reg) : Nat := c.reg r + c.regHi r * 2 ^ 32

/-- A pair set. -/
def Ctx.setPair (c : Ctx) (r : Reg) (v : Nat) : Ctx :=
  { c with g := (c.g.set r.val (BitVec.ofNat 32 v)).set (r.val + 1) (BitVec.ofNat 32 (v / 2 ^ 32)) }

/-- An odd register where a pair is named (R138). -/
def oddReg (r : Reg) : Bool := r.val % 2 = 1

/-- A source at width W: the low W bits, or a pair (R159). -/
def Ctx.src (c : Ctx) (w : BitVec 2) (r : Reg) : Nat :=
  if w = 3 then c.pair r else c.reg r % 2 ^ widthOf w

/-- A result written at width W: extended by S for 8 and 16 bits, a pair for 64 (R159). -/
def Ctx.dst (c : Ctx) (w : BitVec 2) (sg : Bool) (r : Reg) (v : Nat) : Ctx :=
  if w = 3 then c.setPair r v
  else if w = 2 then c.setReg r v
  else c.setReg r (if sg then ofS 32 (toS (widthOf w) v) else v)

/-! ### The stack (R140, R143) -/

/-- The instruction may run at this depth: at least `lo` entries, at most `hi`. -/
def Ctx.deep (c : Ctx) (lo hi : Nat) : Bool := lo ≤ c.stk.length && c.stk.length ≤ hi

/-- The top entry. -/
def Ctx.top (c : Ctx) : Bool := c.stk.headD false

/-- The top replaced. -/
def Ctx.setTop (c : Ctx) (b : Bool) : Ctx := { c with stk := b :: c.stk.tail }

/-! ### DM addresses (R169) -/

/-- A signed displacement of `b` bits added to a base, in 32-bit unsigned arithmetic. -/
def dispAddr (base b d : Nat) : Nat := ofS 32 ((base : Int) + toS b d)

/-- Some byte of the access lies above 0x7F_FFFF. -/
def beyondDm (a n : Nat) : Bool := dmSize < a + n

/-- ADDR, then ALIGN, or on (R169, R181). -/
def addrCheck (a n align : Nat) (k : SeRes) : SeRes :=
  if beyondDm a n then .trap 3 a 0 else if a % align ≠ 0 then .trap 4 a 0 else k

/-! ### Bit operands (R139) -/

/-- The byte address and bit of a DM bit operand; none for another space. -/
def BitOperandDm (c : Ctx) : BitOperand → Option (Nat × Nat)
  | .dmBased rb bit disp => some (dispAddr (c.reg rb) 13 disp.toNat, bit.toNat)
  | .dmAbs ba => some (ba.toNat / 8, ba.toNat % 8)
  | _ => none

/-- Bytes of the instruction with its operand: an extension when SP = 3. -/
def bitLen : BitOperand → Nat
  | .dmAbs _ => 8
  | _ => 4

/-- A hot bit. -/
def State.hotBit (s : State) (i : Nat) : Bool := (s.rd (Addr.seHot (i / 32))).getLsbD (i % 32)

/-- A hot bit as the SE reads it: none when its 64 bits fail their parity (R182). -/
def State.hotRead (s : State) (i : Nat) : Option Bool :=
  if s.parOk (hotUnit i) then some (s.hotBit i) else none

/-- The operand bit, and the instruction goes on with it; a DM address beyond DM traps, an
unrebuildable page or a parity error does not deliver (R182). -/
def withBit (s : State) (c : Ctx) (o : BitOperand) (k : State → Bool → SeRes) : SeRes :=
  match o with
  | .hot i =>
    match s.hotRead i.toNat with
    | some b => k s b
    | none => .bad 1 s
  | .reg rb bit => k s ((c.reg rb).testBit bit.toNat)
  | o =>
    match BitOperandDm c o with
    | none => k s false
    | some (a, i) =>
      if beyondDm a 1 then .trap 3 a 0
      else match s.dmRead .seData a 1 with
        | (none, s) => .bad 1 s
        | (some bs, s) => k s ((bs.headD 0).getLsbD i)

/-- The byte of DM a masked bit write meets: as stored, with splice bytes over it (R141). -/
def State.dmByteNow (s : State) (a : Nat) : Byte :=
  let w := (dmBase + a) / 8 * 8
  let d := match s.miu.splice.find? (·.addr = w) with
    | some e => spliceOver ((s.readMem w).1.getD (s.rawWord w)) e.bytes
    | none => (s.readMem w).1.getD (s.rawWord w)
  (leBytes 8 d.toNat).getD ((dmBase + a) % 8) 0

/-- One bit of a byte replaced. -/
def byteBit (b : Byte) (i : Nat) (v : Bool) : Byte :=
  let m := BitVec.ofNat 8 (2 ^ i)
  if v then b ||| m else b &&& ~~~m

/-- The 64-byte blocks a store touches (R391). -/
def blocksOf (a n : Nat) : Nats := (List.range ((a + n - 1) / 64 - a / 64 + 1)).map fun i => (a / 64 + i) * 64

/-- The block lies in a MIRROR region of the running program (R389). -/
def State.mirrored (s : State) (b : Nat) : Bool :=
  s.se.regions.any fun r => r.mirror && r.start ≤ b && b < r.start + r.len

/-- New entries put after a list, without repeats. -/
def addNew (l n : Nats) : Nats := n.foldl (fun l x => if l.contains x then l else l ++ [x]) l

/-- The context marks the mirrored blocks of a store (R391). -/
def State.markDirty (s : State) (n a len : Nat) : State :=
  let bs := if s.se.regions.isEmpty then [] else (blocksOf a len).filter s.mirrored
  if bs.isEmpty then s else s.onCtx n fun c => { c with dirty := addNew c.dirty bs }

/-- An SE store of the executing context to DM (R134, R391). -/
def State.seStore (s : State) (n a : Nat) (bs : Bytes) : State := (s.markDirty n a bs.length).dmWrite .seData a bs

/-- The operand bit written (R141), then the context changed by `g`. A write gives its parity group a good
parity bit again (DESIGN CHOICE: log entry 116). -/
def putBit (s : State) (n : Nat) (c : Ctx) (o : BitOperand) (v : Bool) (g : Ctx → Ctx) : SeRes :=
  match o with
  | .hot i =>
    let a := Addr.seHot (i.toNat / 32)
    .next g ((s.setBit a (i.toNat % 32) v).parHeal (hotUnit i.toNat)) none
  | .reg rb bit =>
    .next (fun c => g (c.setReg rb (setBits (BitVec.ofNat 32 (c.reg rb)) bit.toNat bit.toNat (b2n v)).toNat)) s none
  | o =>
    match BitOperandDm c o with
    | none => .next g s none
    | some (a, i) =>
      if beyondDm a 1 then .trap 3 a 0
      else .next g (s.seStore n a [byteBit (s.dmByteNow a) i v]) none

/-- A bit operand that is only addressed: its DM address is checked (R169), and nothing is written. -/
def checkBit (s : State) (c : Ctx) (o : BitOperand) (g : Ctx → Ctx) : SeRes :=
  match BitOperandDm c o with
  | some (a, _) => if beyondDm a 1 then .trap 3 a 0 else .next g s none
  | none => .next g s none

end Sys2Proof.Machine
end

