-- ==== Sys2Proof/Machine/SeBit.lean ====
section
/-! DEFINITION. BIT, STK, KNOT, EDGE and TIM instructions (R139 to R158). -/

namespace Sys2Proof.Machine

/-- A bit instruction that loads: `lo` to `hi` entries needed, and the stack becomes `f x stack`. -/
def bitLoad (o : BitOperand) (lo hi : Nat) (f : Bool → List Bool → List Bool) (s : State) : State :=
  s.seRun (bitLen o) fun s _ c =>
    if !c.deep lo hi then stackTrap
    else withBit s c o fun s x => .next (fun c => { c with stk := f x c.stk }) s none

/-- The top combined with the operand bit. -/
def topWith (f : Bool → Bool → Bool) (x : Bool) (k : List Bool) : List Bool := f (k.headD false) x :: k.tail

/-- A bit instruction that stores `f top`, and pops when `p`. -/
def bitStore (o : BitOperand) (p : Bool) (f : Bool → Bool) (s : State) : State :=
  s.seRun (bitLen o) fun s n c =>
    if !c.deep 1 32 then stackTrap
    else putBit s n c o (f c.top) fun c => if p then { c with stk := c.stk.tail } else c

/-- SET and RST: the operand bit becomes `v` when the top is 1; popped when `p`. -/
def bitCond (o : BitOperand) (p v : Bool) (s : State) : State :=
  s.seRun (bitLen o) fun s n c =>
    if !c.deep 1 32 then stackTrap
    else
      let g := fun (c : Ctx) => if p then { c with stk := c.stk.tail } else c
      if c.top then putBit s n c o v g else checkBit s c o g

/-- LD: push x (R140). -/
def execBitLd (src : BitOperand) (s : State) : Host.Outcome State Fault Refusal :=
  .next (bitLoad src 0 31 (fun x k => x :: k) s)

/-- LDN: push NOT x (R140). -/
def execBitLdn (src : BitOperand) (s : State) : Host.Outcome State Fault Refusal :=
  .next (bitLoad src 0 31 (fun x k => (!x) :: k) s)

/-- AND (R140). -/
def execBitAnd (src : BitOperand) (s : State) : Host.Outcome State Fault Refusal :=
  .next (bitLoad src 1 32 (topWith fun a x => a && x) s)

/-- ANDN (R140). -/
def execBitAndn (src : BitOperand) (s : State) : Host.Outcome State Fault Refusal :=
  .next (bitLoad src 1 32 (topWith fun a x => a && !x) s)

/-- OR (R140). -/
def execBitOr (src : BitOperand) (s : State) : Host.Outcome State Fault Refusal :=
  .next (bitLoad src 1 32 (topWith fun a x => a || x) s)

/-- ORN (R140). -/
def execBitOrn (src : BitOperand) (s : State) : Host.Outcome State Fault Refusal :=
  .next (bitLoad src 1 32 (topWith fun a x => a || !x) s)

/-- XOR (R140). -/
def execBitXor (src : BitOperand) (s : State) : Host.Outcome State Fault Refusal :=
  .next (bitLoad src 1 32 (topWith fun a x => a != x) s)

/-- XORN (R140). -/
def execBitXorn (src : BitOperand) (s : State) : Host.Outcome State Fault Refusal :=
  .next (bitLoad src 1 32 (topWith fun a x => a != !x) s)

/-- ST (R140). -/
def execBitSt (dst : BitOperand) (s : State) : Host.Outcome State Fault Refusal :=
  .next (bitStore dst false id s)

/-- STN (R140). -/
def execBitStn (dst : BitOperand) (s : State) : Host.Outcome State Fault Refusal :=
  .next (bitStore dst false (! ·) s)

/-- STP: store and pop (R140). -/
def execBitStp (dst : BitOperand) (s : State) : Host.Outcome State Fault Refusal :=
  .next (bitStore dst true id s)

/-- SET (R140). -/
def execBitSet (dst : BitOperand) (s : State) : Host.Outcome State Fault Refusal :=
  .next (bitCond dst false true s)

/-- RST (R140). -/
def execBitRst (dst : BitOperand) (s : State) : Host.Outcome State Fault Refusal :=
  .next (bitCond dst false false s)

/-- SETP (R140). -/
def execBitSetp (dst : BitOperand) (s : State) : Host.Outcome State Fault Refusal :=
  .next (bitCond dst true true s)

/-- RSTP (R140). -/
def execBitRstp (dst : BitOperand) (s : State) : Host.Outcome State Fault Refusal :=
  .next (bitCond dst true false s)

/-- A STK instruction (R142): depth from `lo` to `hi`, and the stack becomes `f stack`. -/
def stkOp (lo hi : Nat) (f : List Bool → List Bool) (s : State) : State :=
  s.seRun 4 fun s _ c =>
    if !c.deep lo hi then stackTrap else .next (fun c => { c with stk := f c.stk }) s none

/-- The two upper entries combined into one. -/
def stkTwo (f : Bool → Bool → Bool) : List Bool → List Bool
  | a :: b :: r => f b a :: r
  | k => k

/-- The two upper entries exchanged. -/
def stkSwap : List Bool → List Bool
  | a :: b :: r => b :: a :: r
  | k => k

/-- PUSH0 (R142). -/
def execPush0 (s : State) : Host.Outcome State Fault Refusal :=
  .next (stkOp 0 31 ((false :: ·)) s)

/-- PUSH1 (R142). -/
def execPush1 (s : State) : Host.Outcome State Fault Refusal :=
  .next (stkOp 0 31 ((true :: ·)) s)

/-- NOT: the top inverted (R142). -/
def execStkNot (s : State) : Host.Outcome State Fault Refusal :=
  .next (stkOp 1 32 (fun k => (!k.headD false) :: k.tail) s)

/-- DUP (R142). -/
def execDup (s : State) : Host.Outcome State Fault Refusal :=
  .next (stkOp 1 31 (fun k => k.headD false :: k) s)

/-- POP (R142). -/
def execPop (s : State) : Host.Outcome State Fault Refusal :=
  .next (stkOp 1 32 (List.tail) s)

/-- ANDS (R142). -/
def execAnds (s : State) : Host.Outcome State Fault Refusal :=
  .next (stkOp 2 32 (stkTwo and) s)

/-- ORS (R142). -/
def execOrs (s : State) : Host.Outcome State Fault Refusal :=
  .next (stkOp 2 32 (stkTwo or) s)

/-- XORS (R142). -/
def execXors (s : State) : Host.Outcome State Fault Refusal :=
  .next (stkOp 2 32 (stkTwo xor) s)

/-- SWAP (R142). -/
def execSwap (s : State) : Host.Outcome State Fault Refusal :=
  .next (stkOp 2 32 (stkSwap) s)

/-- CLR: depth 0 (R142). -/
def execStkClr (s : State) : Host.Outcome State Fault Refusal :=
  .next (stkOp 0 32 (fun _ => []) s)

/-- A condition of the BR table holds (R172); none when AT or AF finds no entry. -/
def Ctx.cond (c : Ctx) (cond : BitVec 4) : Option Bool :=
  match cond.toNat with
  | 1 => if c.stk.isEmpty then none else some c.top
  | 2 => if c.stk.isEmpty then none else some (!c.top)
  | k => some (condFlags k (flagsOf c.sw) (c.sw.getLsbD 4))

/-- PUSHC (R142): 1 when the condition holds. AT and AF need an entry. -/
def execPushc (cond : BitVec 4) (s : State) : Host.Outcome State Fault Refusal :=
  seExec 4 (fun s _ c =>
    if !c.deep 0 31 then stackTrap
    else match c.cond cond with
      | none => stackTrap
      | some b => .next (fun c => { c with stk := b :: c.stk }) s none) s

/-! ### KNOT (R145 to R150) -/

/-- Internal address of the running PM bank. -/
def State.bankBase (s : State) : Nat := pmBase + 0x800000 * s.fld Addr.seSwapStat 8 8

/-- A literal of the list: hot index or DM bit address. -/
inductive Lit where
  | hot (i : Nat)
  | dm (ba : Nat)
  deriving DecidableEq, Repr

/-- A halfword of the running bank, fetched; an entry that runs past the end of the bank goes on at its
byte 0, as the PC does (R132). -/
def State.bankHalf (s : State) (off : Nat) : Option Nat × State :=
  match s.readBytes .seFetch (s.bankBase + off % 0x800000) 2 with
  | (some bs, s) => (some (leNat bs), s)
  | (none, s) => (none, s)

/-- What the fetch of a part of an entry gives. -/
inductive Fetched (α : Type) where
  | ok (v : α) (off : Nat) (s : State)
  | wrong
  | dark (s : State)

/-- `n` literals from byte `off` of the bank (R145): wrong when a reserved bit is not 0 (R150), dark when a
page is unrebuildable. -/
def fetchLits : Nat → Nat → State → Fetched (List Lit)
  | 0, off, s => .ok [] off s
  | n + 1, off, s =>
    match s.bankHalf off with
    | (none, s) => .dark s
    | (some h, s) =>
      if h < 0x8000 then
        if 0x2000 ≤ h then .wrong
        else match fetchLits n (off + 2) s with
          | .ok ls o s => .ok (.hot h :: ls) o s
          | r => r
      else if h % 0x8000 / 0x400 ≠ 0 then .wrong
      else match s.bankHalf (off + 2) with
        | (none, s) => .dark s
        | (some l, s) =>
          match fetchLits n (off + 4) s with
          | .ok ls o s => .ok (.dm (h % 0x400 * 65536 + l) :: ls) o s
          | r => r

/-- The number in `n` halfwords from byte `off` of the bank. -/
def fetchNat : Nat → Nat → State → Option Nat × State
  | 0, _, s => (some 0, s)
  | n + 1, off, s =>
    match s.bankHalf off with
    | (none, s) => (none, s)
    | (some h, s) =>
      match fetchNat n (off + 2) s with
      | (some v, s) => (some (h + 65536 * v), s)
      | r => r

/-- `n` term records from byte `off` of the bank: INC and NEG. -/
def fetchTerms : Nat → Nat → State → Fetched (List (Nat × Nat))
  | 0, off, s => .ok [] off s
  | n + 1, off, s =>
    match fetchNat 8 off s with
    | (none, s) => .dark s
    | (some v, s) =>
      match fetchTerms n (off + 16) s with
      | .ok ts o s => .ok ((v % 2 ^ 64, v / 2 ^ 64) :: ts) o s
      | r => r

/-- One term: AND over its literals of (literal xor NEG) (R146). -/
def termVal (vs : List Bool) (inc neg : Nat) : Bool :=
  (List.range vs.length).all fun i => !inc.testBit i || (vs.getD i false != neg.testBit i)

/-- The literals read in order; DM literals are data reads, hot literals are checked by parity (R182). -/
def litVals (s : State) : List Lit → Option (List Bool) × State
  | [] => (some [], s)
  | .hot i :: ls =>
    match s.hotRead i with
    | none => (none, s)
    | some b =>
      match litVals s ls with
      | (some bs, s) => (some (b :: bs), s)
      | r => r
  | .dm ba :: ls =>
    match s.dmRead .seData (ba / 8) 1 with
    | (none, s) => (none, s)
    | (some x, s) =>
      match litVals s ls with
      | (some bs, s) => (some ((x.headD 0).getLsbD (ba % 8) :: bs), s)
      | r => r

/-- The distinct 64-bit DM words of the literals (R149). -/
def litWords (ls : List Lit) : Nats :=
  addNew [] (ls.filterMap fun l => match l with | .dm ba => some (ba / 64) | .hot _ => none)

/-- KNOT: the entry at LINE evaluated (R145, R146, R150), and its value combined with the stack. -/
def knot (line : BitVec 18) (lo hi : Nat) (f : Bool → List Bool → List Bool) (s : State) : State :=
  s.seRun 4 fun s _ c =>
    if !c.deep lo hi then stackTrap
    else match fetchNat 2 (line.toNat * 32) s with
      | (none, s) => .bad 0 s
      | (some hd, s) =>
        let nlit := hd % 128
        let nterm := hd / 256 % 16
        let bad := SeRes.trap 5 line.toNat 0
        if 64 < nlit || 8 < nterm || hd / 128 % 2 ≠ 0 || 0x2000 ≤ hd then bad
        else match fetchLits nlit (line.toNat * 32 + 4) s with
          | .dark s => .bad 0 s
          | .wrong => bad
          | .ok ls off s =>
            match fetchTerms nterm (if off % 4 = 0 then off else off + 2) s with
            | .dark s => .bad 0 s
            | .wrong => bad
            | .ok terms _ s =>
              if terms.any (fun t => 2 ^ nlit ≤ t.1) || 18 < (litWords ls).length ||
                  ls.any (fun l => match l with | .dm ba => 8 * dmSize ≤ ba | .hot _ => false) then bad
              else match litVals s ls with
                | (none, s) => .bad 1 s
                | (some vs, s) =>
                  let v := (terms.any fun t => termVal vs t.1 t.2) != (hd / 0x1000 % 2 = 1)
                  .next (fun c => { c with stk := f v c.stk }) s none

/-- KNOT MODE 0 (R147). -/
def execKnotPush (line : BitVec 18) (s : State) : Host.Outcome State Fault Refusal :=
  .next (knot line 0 31 (fun v k => v :: k) s)

/-- KNOT MODE 1 (R147). -/
def execKnotAnd (line : BitVec 18) (s : State) : Host.Outcome State Fault Refusal :=
  .next (knot line 1 32 (topWith fun a x => a && x) s)

/-- KNOT MODE 2 (R147). -/
def execKnotOr (line : BitVec 18) (s : State) : Host.Outcome State Fault Refusal :=
  .next (knot line 1 32 (topWith fun a x => a || x) s)

/-! ### EDGE (R151) -/

/-- An edge detector: `f v prev` on a primed cell; the first evaluation gives 0. A parity error of the
cell's group does not deliver (R182). -/
def edgeOp (cell : BitVec 16) (f : Bool → Bool → Bool) (s : State) : State :=
  s.seRun 4 fun s _ c =>
    if !c.deep 1 32 then stackTrap
    else if !s.parOk (edgeUnit cell.toNat) then .bad 1 s
    else
      let e := sget 0 s.se.edge cell.toNat
      let r := e.getLsbD 1 && f c.top (e.getLsbD 0)
      .next (fun c => c.setTop r)
        { s with se := { s.se with edge := sput 0 s.se.edge cell.toNat (if c.top then 3 else 2) } } none

/-- EDGE rising (R151). -/
def execEdgeRising (cell : BitVec 16) (s : State) : Host.Outcome State Fault Refusal :=
  .next (edgeOp cell (fun v p => v && !p) s)

/-- EDGE falling (R151). -/
def execEdgeFalling (cell : BitVec 16) (s : State) : Host.Outcome State Fault Refusal :=
  .next (edgeOp cell (fun v p => p && !v) s)

/-- EDGE both (R151). -/
def execEdgeBoth (cell : BitVec 16) (s : State) : Host.Outcome State Fault Refusal :=
  .next (edgeOp cell (fun v p => v != p) s)

/-- UNPRIME: PRIMED and PREV 0, the stack unchanged (R151). -/
def execUnprime (cell : BitVec 16) (s : State) : Host.Outcome State Fault Refusal :=
  seExec 4 (fun s _ _ =>
    .next id ({ s with se := { s.se with edge := sdel s.se.edge cell.toNat } }.parHeal (edgeUnit cell.toNat)) none) s

/-! ### Timers (R153 to R158) -/

/-- Timer `k`. -/
def State.timer (s : State) (k : Nat) : Timer := sget {} s.se.tmb k

/-- Timer `k` replaced by the SE, its parity with it. -/
def State.setTimer (s : State) (k : Nat) (e : Timer) : State :=
  { s with se := { s.se with tmb := sput {} s.se.tmb k e } }.parHeal (tmbUnit k)

/-- A unit in 10 ns ticks: 1 µs, 1 ms, 1 s (R153). -/
def unitTicks (u : Nat) : Nat := if u = 0 then 100 else if u = 1 then 100000 else 100000000

/-- ELAPSED at a tick (R154): whole units since the start, stopping at 0xFFFF_FFFF. -/
def Timer.elapsed (e : Timer) (tick : Nat) : Nat :=
  min (e.base + (if e.run then (tick - e.start) / unitTicks e.unit else 0)) 0xFFFFFFFF

/-- A timer stopped with ELAPSED 0, or started now. -/
def Timer.stop (e : Timer) : Timer := { e with run := false, base := 0, start := 0 }
/-- A timer started at a tick. -/
def Timer.go (e : Timer) (tick : Nat) : Timer := { e with run := true, base := 0, start := tick }

/-- The pseudocode of R155: entry mode, unit, preset, input; the new entry, Q and ET. -/
def timCall (e : Timer) (mode unit pt tick : Nat) (inp : Bool) : Timer × Bool × Nat :=
  let e := if e.mode ≠ mode || e.unit ≠ unit then { e.stop with mode := mode, unit := unit, inp := false } else e
  let el := e.elapsed tick
  let e :=
    if mode = 1 then (if !inp then e.stop else if !e.run then e.go tick else e)
    else if mode = 2 then (if inp then e.stop else if e.inp then e.go tick else e)
    else if !e.run && inp && !e.inp then e.go tick
    else if e.run && !inp && pt ≤ el then e.stop else e
  let el := e.elapsed tick
  let q :=
    if mode = 1 then inp && pt ≤ el
    else if mode = 2 then inp || (e.run && el < pt)
    else e.run && el < pt
  ({ e with inp := inp }, q, min el pt)

/-- TIM in entry mode `mode` at device time `t` (R155). UNIT 3 is reserved (R138); an entry that fails its
parity does not deliver (R182). -/
def timOp (mode : Nat) (op : TimOperand) (t : Nat) (s : State) : State :=
  let len := match op.pt with | .reg _ => 4 | .ext _ => 8
  (s.at t).seRun len fun s n c =>
    if op.unit = 3 then illegal
    else if !c.deep 1 32 then stackTrap
    else if !s.parOk (tmbUnit op.timer.toNat) then .bad 1 s
    else
      let pt := match op.pt with | .reg ra => c.reg ra | .ext v => v.toNat
      let old := s.timer op.timer.toNat
      let (e, q, et) := timCall old mode op.unit.toNat pt s.utick c.top
      let s := s.setTimer op.timer.toNat e
      let s := if e.mir && e ≠ old then s.onCtx n fun c => { c with dirtyT := addNew c.dirtyT [op.timer.toNat] } else s
      .next (fun c => (c.setTop q).setReg op.rd et) s none

/-- TON. -/
def execTimTon (op : TimOperand) (t : Nat) (s : State) : Host.Outcome State Fault Refusal := .next (timOp 1 op t s)
/-- TOF. -/
def execTimTof (op : TimOperand) (t : Nat) (s : State) : Host.Outcome State Fault Refusal := .next (timOp 2 op t s)
/-- TP. -/
def execTimTp (op : TimOperand) (t : Nat) (s : State) : Host.Outcome State Fault Refusal := .next (timOp 3 op t s)

/-- TRST (R156): RUN, ELAPSED and IN 0, 0 to Gd, the stack unchanged. -/
def execTrst (rd : Reg) (timer : BitVec 13) (s : State) : Host.Outcome State Fault Refusal :=
  seExec 4 (fun s n _ =>
    let old := s.timer timer.toNat
    let e := { old.stop with inp := false }
    let s := s.setTimer timer.toNat e
    let s := if e.mir && e ≠ old then s.onCtx n fun c => { c with dirtyT := addNew c.dirtyT [timer.toNat] } else s
    .next (fun c => c.setReg rd 0) s none) s

end Sys2Proof.Machine
end

