-- ==== Sys2Proof/Machine/Fbp.lean ====
section
/-! DEFINITION. The CAN FD ports: transmit buffers, windows, reception and filters, error confinement, bus-off,
calibration and cable measurement, and the FBP opcodes (R240 to R298, R305). -/

namespace Sys2Proof.Machine

/-! ### Configuration in force -/

/-- TEC. -/
def State.tec (s : State) (n : Nat) : Nat := s.fld (Addr.fbpErrc n) 8 0
/-- REC. -/
def State.recN (s : State) (n : Nat) : Nat := s.fld (Addr.fbpErrc n) 23 16

/-- The mode the port works in (R244, R245; restricted after the power-fail warning once the SE has stopped,
R569). -/
def State.fbpMode (s : State) (n : Nat) : Nat :=
  let m := s.lf (Addr.fbpCtrl n) 2 0
  if m = 1 && (s.fbpForced n || (s.se.pfail && s.se.halted)) then 2 else m

/-- The port takes part in the bus (R247, R275, R246). -/
def State.onBus (s : State) (n : Nat) : Bool :=
  s.fbpMode n ≠ 0 && !s.bit (Addr.fbpStat n) 3 && s.errState n ≠ 2 && !(s.port n).wait11

/-- A nominal bit and a data bit in units of 0.5 ns (R249). -/
def bitHalfNs (nbt dbt : Word) : Nat × Nat :=
  (bitsOf nbt 5 0 * 25 * (1 + bitsOf nbt 14 6 + bitsOf nbt 22 15), bitsOf dbt 4 0 * 25 * (1 + bitsOf dbt 10 5 + bitsOf dbt 15 11))

/-- Data bytes of a DLC (R257). -/
def dlcBytes (fd : Bool) (dlc : Nat) : Nat :=
  if dlc ≤ 8 then dlc else if !fd then 8 else [12, 16, 20, 24, 32, 48, 64].getD (dlc - 9) 64

/-- The smallest DLC whose byte count holds `n` bytes. -/
def dlcFor (n : Nat) : Nat := ((List.range 16).find? fun d => n ≤ dlcBytes true d).getD 15

/-- The worst-case duration of a frame in units of 0.5 ns (R261). -/
def worstHalfNs (nbt dbt : Word) (ide fdf brs : Bool) (dlc : Nat) : Nat :=
  let (tn, td) := bitHalfNs nbt dbt
  let l := dlcBytes fdf dlc
  if !fdf then
    let n := (if ide then 54 else 34) + 8 * l
    (n + (n - 1) / 4 + 13) * tn
  else
    let a := if ide then 36 else 17
    let d := 5 + 8 * l
    let c := if l ≤ 16 then 17 else 21
    (a + (a - 1) / 4 + 13) * tn + (d + (d - 1) / 4 + 4 + c + (4 + c + 3) / 4) * (if brs then td else tn)

/-- The worst-case duration of a frame on the port. -/
def State.worst (s : State) (n : Nat) (f : TxFrm) : Nat :=
  worstHalfNs (s.lv (Addr.fbpNbt n)) (s.lv (Addr.fbpDbt n)) f.ide f.fdf f.brs f.dlc

/-! ### Windows (R293, R296) -/

/-- A window descriptor. -/
structure Win where
  start : Nat
  len   : Nat
  ty    : Nat
  alt   : Nat
  rep   : Nat
  base  : Nat
  obj   : Nat
  rotn  : Nat
  deriving DecidableEq, Repr

/-- Window descriptor from its two words. -/
def winOf (a b : Word) : Win :=
  ⟨bitsOf a 15 0, bitsOf a 31 16, bitsOf b 2 0, bitsOf b 3 3, 2 ^ bitsOf b 6 4, bitsOf b 13 8, bitsOf b 22 16, bitsOf b 30 24⟩

/-- Window descriptor `w` of port `n` in force. -/
def State.win (s : State) (n w : Nat) : Win := winOf (s.lv (Addr.fbpTtWinW0 n w)) (s.lv (Addr.fbpTtWinW1 n w))

/-- The window occurs in a basic cycle. -/
def Win.occurs (w : Win) (c : Nat) : Bool := w.len ≠ 0 && c % w.rep = w.base

/-- The buffer or station an occurrence serves. -/
def Win.served (w : Win) (c : Nat) : Nat := w.obj + (if 1 < w.rotn then (c - w.base) / w.rep % w.rotn else 0)

/-- The type the window has in a basic cycle. -/
def Win.typeIn (w : Win) (c : Nat) : Nat := if w.occurs c then w.ty else if w.alt = 1 then 4 else 0

/-- The used windows of a port. -/
def State.wins (s : State) (n : Nat) : List Win := ((List.range 32).map (s.win n)).filter fun w => w.len ≠ 0

/-- Number and start of the basic cycle at an instant (R295): bus time is device time; none before the first cycle
of a changed timetable; in station mode the cycle the last reference message began (R279). -/
def State.cycleAt (s : State) (n t : Nat) : Option (Nat × Nat) :=
  if s.ncyc n = 0 || s.bclenNs n = 0 then none
  else if s.stnMode n then (s.port n).cyc
  else if t < (s.port n).ttFrom then none
  else some (t / s.bclenNs n % s.ncyc n, t / s.bclenNs n * s.bclenNs n)

/-- The windows of an instant's cycle that contain the instant, with their type in it. -/
def State.winsAt (s : State) (n t : Nat) : List (Win × Nat) :=
  match s.cycleAt n t with
  | none => []
  | some (c, t0) => ((s.wins n).filter fun w => t0 + w.start * 1000 ≤ t && t < t0 + (w.start + w.len) * 1000).map
      fun w => (w, w.typeIn c)

/-- The station an EXCLUSIVE-RX window serves at an instant. -/
def State.rxServed (s : State) (n t : Nat) : Option Nat :=
  ((s.winsAt n t).find? (·.2 = 3)).bind fun e => (s.cycleAt n t).map fun c => e.1.served c.1

/-- An FBP event (R290). -/
def State.fbpEv (s : State) (code n : Nat) : State := s.ev code n
/-- An FBP event with a buffer; the port's own messages carry no buffer number. -/
def State.fbpBufEv (s : State) (code n b : Nat) : State := s.ev code (n + (if b < 64 then b * 256 else 0))

/-! ### Transmit buffers (R256 to R265) -/

/-- A transmit descriptor in force. -/
structure TxDesc where
  id    : Nat
  ide   : Bool
  fdf   : Bool
  brs   : Bool
  dlc   : Nat
  m     : Bool
  twh   : Bool
  dsrc  : Bool
  own   : Bool
  daddr : Nat
  deriving DecidableEq, Repr

/-- A descriptor from its words 0 to 2. -/
def txDesc (a b c : Word) : TxDesc :=
  ⟨bitsOf a 28 0, a.getLsbD 29, a.getLsbD 30, a.getLsbD 31, bitsOf b 3 0, b.getLsbD 4, b.getLsbD 5, b.getLsbD 6,
   b.getLsbD 7, bitsOf c 22 0⟩

/-- Descriptor `b` of port `n` in force. -/
def State.txd (s : State) (n b : Nat) : TxDesc :=
  txDesc (s.lv (Addr.fbpTxbufW0 n b)) (s.lv (Addr.fbpTxbufW1 n b)) (s.lv (Addr.fbpTxbufW2 n b))

/-- The descriptor is unused (R259). -/
def State.txUnused (s : State) (n b : Nat) : Bool :=
  s.lv (Addr.fbpTxbufW0 n b) = 0 && s.lv (Addr.fbpTxbufW1 n b) = 0 && s.lv (Addr.fbpTxbufW2 n b) = 0

/-- The taken frame of a buffer. -/
def State.txf (s : State) (n b : Nat) : TxFrm := sget {} (s.port n).tx b

/-- The taken frame of a buffer replaced, with STATE of its descriptor. -/
def State.setTxf (s : State) (n b : Nat) (f : TxFrm) : State :=
  let s := s.onPort n fun x => { x with tx := sput {} x.tx b f }
  if b < 64 then s.setFld (Addr.fbpTxbufW3 n b) 1 0 f.st else s

/-- TXPEND (R288): buffers PENDING or ACTIVE, from buffer `32*hi`. -/
def State.txPend (s : State) (n hi : Nat) : Word :=
  BitVec.ofNat 32 (((List.range 32).filter fun i => (s.txf n (32 * hi + i)).st ≠ 0).map (2 ^ ·)).sum

/-- A frame placed as PENDING, ATTEMPTS at 0. -/
def State.placeTx (s : State) (n b : Nat) (f : TxFrm) : State :=
  let s := s.setTxf n b { f with st := 1 }
  if b < 64 then s.setFld (Addr.fbpTxbufW3 n b) 23 8 0 else s

/-- The notice of FBP_SEND for a buffer (R289). -/
def State.sendNotice (s : State) (n b outcome : Nat) : State :=
  match (s.longsOf 0x0402).find? fun l => l.args = [n, b] with
  | some l => s.notice l 0x0400 ([BitVec.ofNat 8 outcome, 0, 0, 0] ++ leBytes 2 (s.fld (Addr.fbpTxbufW3 n b) 23 8))
  | none => s

/-- A frame takes its final outcome; a frame in the load register becomes pending (R260). -/
def State.finishTx (s : State) (n b outcome : Nat) : State :=
  let s := s.setTxf n b {}
  let s := s.when (b < 64) (·.setFld (Addr.fbpTxbufW3 n b) 7 4 outcome)
  let s := s.onPort n fun x => { x with late := x.late.filter (· ≠ b),
                                        active := if x.active = some b then none else x.active }
  let s := s.sendNotice n b outcome
  let nx := sget {} (s.port n).load b
  if nx = {} then s
  else (s.onPort n fun x => { x with load := sdel x.load b }).placeTx n b nx

/-- A class P frame is discarded as STALE (R260). -/
def State.staleTx (s : State) (n b : Nat) : State :=
  ((s.finishTx n b 2).inc (Addr.fbpStale n)).fbpBufEv 0x105 n b

/-- A class P frame ends with ERROR (R260). -/
def State.failTx (s : State) (n b outcome : Nat) : State :=
  ((s.finishTx n b outcome).inc (Addr.fbpPFail n)).fbpBufEv 0x106 n b

/-- The class of a base identifier (R299). -/
def idClass (id : Nat) : Nat := id / 256 % 8
/-- The station of a base identifier. -/
def idStation (id : Nat) : Nat := id / 2 % 128

/-- The unit bit put into the identifier of a class 0, 1 or 5 frame, and of every frame of the protocol that a port in
station mode sends (R300). -/
def State.unitId (s : State) (n : Nat) (ide : Bool) (id : Nat) : Nat :=
  if !ide && (idClass id = 0 || idClass id = 1 || idClass id = 5 || (s.stnMode n && idClass id ≠ 7)) then id / 2 * 2 + s.unitN
  else id

/-- The counter of the stream of a class and a station: its register and bits (R303); none for a station number beyond
the table. -/
def seqAt (n id : Nat) : Option (Nat × Nat × Nat) :=
  if idClass id = 0 then some (Addr.fbpTtRefseq n, 15, 0)
  else if 96 ≤ idStation id then none
  else some (Addr.stnEntryW6 (96 * n + idStation id), if idClass id = 1 then (15, 0) else (31, 16))

/-- The twin header of the next frame of a stream (R302): SEQ and the claim. -/
def State.twinHead (s : State) (n id : Nat) : Bytes :=
  leBytes 2 (match seqAt n id with | some (a, hi, lo) => s.fld a hi lo | none => 0) ++ leBytes 2 s.claimNow

/-- A frame of the stream is taken: its counter advances (R303). -/
def State.seqTaken (s : State) (n id : Nat) : State :=
  match seqAt n id with
  | some (a, hi, lo) => s.setFld a hi lo (s.fld a hi lo + 1)
  | none => s

/-- The twin header of a frame that is taken now. -/
def State.twinHeader (s : State) (n id : Nat) : Bytes × State := (s.twinHead n id, s.seqTaken n id)

/-- The data of a buffer from its source (R258): none when its page or image word cannot be read. -/
def State.txSource (s : State) (n b : Nat) (d : TxDesc) (skip : Nat) : Option Bytes × State :=
  let len := dlcBytes d.fdf d.dlc - skip
  if d.dsrc then s.dmRead (.fbp n b) d.daddr len else (some (memBytes s.outImg d.daddr len), s)

/-- The counter of a buffer's stream advances (R303). -/
def State.bufTaken (s : State) (n b : Nat) : State := s.when (s.txd n b).twh (·.seqTaken n (s.txd n b).id)

/-- The frame of a buffer taken now (R258). None when its source cannot be read: no frame is taken. -/
def State.takeTx (s : State) (n b : Nat) : Option TxFrm × State :=
  let d := s.txd n b
  let h := if d.twh then s.twinHead n d.id else []
  match s.txSource n b d h.length with
  | (none, s) => (none, s)
  | (some bs, s) =>
    (some { m := d.m, id := s.unitId n d.ide d.id, ide := d.ide, fdf := d.fdf, brs := d.brs, dlc := d.dlc, data := h ++ bs },
      s.bufTaken n b)

/-- A frame that becomes pending at its load instant (R260): an earlier PENDING frame is STALE, an ACTIVE one
keeps the buffer and the new frame waits in the load register. -/
def State.loadTx (s : State) (n b : Nat) (f : TxFrm) : State :=
  match (s.txf n b).st with
  | 0 => s.placeTx n b f
  | 1 => (s.staleTx n b).placeTx n b f
  | _ => s.onPort n fun x => { x with load := sput {} x.load b f }

/-- A class P frame whose source cannot be read at its load instant: its number is used up (R260, R303), an earlier
PENDING frame is STALE, and no frame is sent (R258, R434). -/
def State.loadFail (s : State) (n b : Nat) : State :=
  let s := s.bufTaken n b
  let s := s.when ((s.txf n b).st = 1) (·.staleTx n b)
  ((s.setFld (Addr.fbpTxbufW3 n b) 7 4 3).inc (Addr.fbpPFail n)).fbpBufEv 0x106 n b

/-- A class P buffer loaded for a window; a JOINING unit discards the frame it has taken (R402). -/
def State.loadBuf (s : State) (n b since till : Nat) : State :=
  if s.role = .joining then s.bufTaken n b
  else match s.takeTx n b with
    | (some f, s) => s.loadTx n b { f with since := since, till := till }
    | (none, s) => s.loadFail n b

/-- The output-image word at byte offset `off` lies in the data that buffer `b` takes (R434). -/
def State.txTouches (s : State) (n b off : Nat) : Bool :=
  let d := s.txd n b
  let len := dlcBytes d.fdf d.dlc - (if d.twh then 4 else 0)
  !d.dsrc && decide (0 < len) && decide (d.daddr / 8 ≤ off / 8) && decide (off / 8 ≤ (d.daddr + len - 1) / 8)

/-- Both copies of an output-image word that buffer `b` takes are flagged: no frame is sent (R434). -/
def State.loadUnread (s : State) (n b off : Nat) : State := ((s.miuErr 10 0 0 0 false off).ev 0x208 off).loadFail n b

/-! ### The reference message (R27, R305) -/

/-- A shaft taken for the beacon. -/
def State.beaconShaft (s : State) (k : Nat) : BeaconShaft :=
  { sh := k, run := s.bit (Addr.shStat k) 0, stopped := s.shStopped k, count := s.rdN (Addr.shCount k),
    period := s.rdN (Addr.shPeriod k), ppr := s.ppr k, held := s.fld (Addr.shPhase k) 15 0, trk := s.shaft k }

/-- The entry of a shaft at the start of frame `t`. -/
def BeaconShaft.bytes (b : BeaconShaft) (t : Nat) : Bytes :=
  [BitVec.ofNat 8 (b.sh + b2n b.run * 32 + b2n b.stopped * 64)] ++ leBytes 3 b.count ++
    leBytes 2 (if b.stopped then b.held else phaseAt b.trk b.ppr t) ++ leBytes 4 (if b.run then b.period else 0)

/-- The shafts of the beacon, in slot order. -/
def State.beaconSlots (s : State) (n : Nat) : Nats :=
  ((List.range 5).map fun k => s.lf (Addr.fbpTtBeacon n) (6 * k + 5) (6 * k)).filter (· < 32)

/-- The reference message of basic cycle `c`, BTIME and PHASE still open. -/
def State.refMessage (s : State) (n c : Nat) : TxFrm × State :=
  let sl := s.beaconSlots n
  let (h, s) := s.twinHeader n 0
  let d := h ++ [BitVec.ofNat 8 c, BitVec.ofNat 8 (s.ncyc n), BitVec.ofNat 8 s.op.code, BitVec.ofNat 8 sl.length]
  let s := s.onPort n fun x => { x with beacon := sl.map s.beaconShaft }
  ({ id := s.unitN, fdf := true, brs := true, dlc := dlcFor (12 + 10 * sl.length), data := d }, s)

/-- The whole data of a reference message at its start of frame. -/
def State.refData (s : State) (n : Nat) (f : TxFrm) (t : Nat) : Bytes :=
  slice (f.data.take 8 ++ leBytes 4 (t / 1000) ++ (s.port n).beacon.flatMap (·.bytes t)) 0 (dlcBytes true f.dlc)

/-- LOAD_INSTANT (R22): 5 µs before window `w`; not in FAULT, and nothing cyclic in LEARNING (R321). -/
def execLoadInstant (port w t : Nat) (bad : Option Nat) (s : State) : Host.Outcome State Fault Refusal :=
  let s := s.at t
  let wd := s.win port w
  .next <|
    if 16 ≤ port || 32 ≤ w || wd.len = 0 || s.fbpMode port = 0 || decide (s.op = .fault) then s
    else match s.cycleAt port (t + 5000) with
      | none => s
      | some (c, t0) =>
        let a := t0 + wd.start * 1000
        let e := a + wd.len * 1000
        if !wd.occurs c then s
        else if wd.ty = 1 && !s.stnMode port then
          let (f, s) := s.refMessage port c
          if s.role = .joining then s else s.loadTx port 64 { f with since := a, till := e }
        else if s.stnMode port && !(s.port port).smActive then s
        else if wd.ty = 2 then
          match bad with
          | some off =>
            if s.txTouches port (wd.served c) off then s.loadUnread port (wd.served c) off
            else s.loadBuf port (wd.served c) a e
          | none => s.loadBuf port (wd.served c) a e
        else s

/-! ### Starting and ending frames (R260, R262, R264) -/

/-- The order of R262: a base identifier as its 11 bits followed by 18 ones. -/
def TxFrm.rank (f : TxFrm) : Nat := if f.ide then f.id else f.id * 2 ^ 18 + 0x3FFFF

/-- The windows that CLAIM_SET gave the station and that contain an instant, with their ends (R311). -/
def State.claimWins (s : State) (n t : Nat) : List (ClaimWin × Nat) :=
  match (s.port n).cyc with
  | none => []
  | some (c, t0) => ((s.port n).claimSet.wins.filter fun w =>
      c % 2 ^ w.perx = w.first && t0 + w.start * 1000 ≤ t && t < t0 + (w.start + w.len) * 1000).map
        fun w => (w, t0 + (w.start + w.len) * 1000)

/-- An ACTIVE station sends classes 2 and 3 in its EXCLUSIVE-RX windows only, and classes 4 and 6 in its ARBITRATING
windows (R321); a CLAIM_SET without a timetable leaves it free. -/
def State.claimLets (s : State) (n t : Nat) (f : TxFrm) : Bool :=
  let x := s.port n
  let ty := if idClass f.id = 2 || idClass f.id = 3 then 3 else 4
  !s.stnMode n || !x.smActive || x.claimSet.ncyc = 0 || s.bit (Addr.fbpStat n) 5 || f.ide ||
    !(2 ≤ idClass f.id && idClass f.id ≤ 6 && idClass f.id ≠ 5) ||
    (s.claimWins n t).any fun e => e.1.ty = ty && 2 * t + s.worst n f ≤ 2 * e.2

/-- A pending frame may start at `t`. -/
def State.mayStart (s : State) (n b t : Nat) : Bool :=
  let f := s.txf n b
  let w := s.worst n f
  f.st = 1 && s.claimLets n t f &&
    if f.m then
      s.ncyc n = 0 || s.bit (Addr.fbpStat n) 5 ||
        (match s.cycleAt n t with
         | none => false
         | some (_, t0) => (s.winsAt n t).any fun e => e.2 = 4 && 2 * t + w ≤ 2 * (t0 + (e.1.start + e.1.len) * 1000))
    else !f.past && f.since ≤ t && 2 * t + w ≤ 2 * f.till && s.op ≠ .fault && !s.bit (Addr.fbpStat n) 5

/-- The class M frame the port offers (R262). -/
def State.bestM (s : State) (n t : Nat) : Option Nat :=
  ((s.port n).tx.filter fun e => e.2.m && s.mayStart n e.1 t).foldl (init := (none : Option (Nat × TxFrm))) (fun b e =>
    match b with
    | none => some e
    | some x => if e.2.rank < x.2.rank then some e else some x) |>.map (·.1)

/-- The port may send at all: NORMAL or LOOPBACK, on the bus, not suspended, nothing on its way. -/
def State.maySend (s : State) (n : Nat) : Bool :=
  (s.fbpMode n = 1 || s.fbpMode n = 4) && s.onBus n && !(s.port n).susp && (s.port n).active.isNone

/-- Transmitter delay measured at the edge from FDF to res of an FD frame (R251), which an attempt that loses arbitration
does not reach: the measured delay is a free value (log entries 1, 119). -/
def State.tdcMeasure (s : State) (n : Nat) (f : TxFrm) : State :=
  if !f.fdf || s.lf (Addr.fbpDbt n) 28 28 = 0 then s
  else
    let (v, s) := s.free
    let s := s.setFld (Addr.fbpTdcv n) 6 0 v
    if 127 < v % 128 + s.lf (Addr.fbpDbt n) 27 21 then (s.setBit (Addr.fbpStat n) 7 true).fbpEv 0x109 n else s

/-- FRAME_START (R260, R262): a pending frame starts at a bus idle, with ESI recessive in error passive (R240). -/
def execFrameStart (port buf t : Nat) (s : State) : Host.Outcome State Fault Refusal :=
  let s := (s.at t).idleForced port
  let f := s.txf port buf
  .next <|
    if port < 16 && s.maySend port && s.mayStart port buf t && (!f.m || s.bestM port t = some buf) then
      let f := if buf = 64 then { f with data := s.refData port f t } else f
      let s := s.setTxf port buf { f with st := 2, esi := f.fdf && decide (s.errState port = 1) }
      let s := s.when (buf < 64) fun s => s.setFld (Addr.fbpTxbufW3 port buf) 23 8 (satAdd (s.fld (Addr.fbpTxbufW3 port buf) 23 8) 1 0xFFFF)
      s.onPort port fun x => { x with active := some buf }
    else s

/-! ### Error states (R273) -/

/-- TEC and REC written. -/
def State.setErrc (s : State) (n tec rec' : Nat) : State :=
  (s.setFld (Addr.fbpErrc n) 8 0 (min tec 256)).setFld (Addr.fbpErrc n) 23 16 (min rec' 255)

/-- Recovery starts counting (R276). -/
def State.startRecovery (s : State) (n : Nat) : State :=
  if s.errState n = 2 && !s.bit (Addr.fbpStat n) 2 then (s.setBit (Addr.fbpStat n) 2 true).setFld (Addr.fbpErrc n) 31 24 0 else s

/-- ERRSTATE follows the counters: error passive, error active, bus-off. -/
def State.errUpdate (s : State) (n : Nat) : State :=
  if s.errState n = 2 then s
  else if 255 < s.tec n then
    let s := (((s.setFld (Addr.fbpStat n) 1 0 2).inc (Addr.fbpBusoff n)).fbpEv 0x102 n).putSummary n
    let s := s.onPort n fun x => { x with susp := false }
    s.when (s.lf (Addr.fbpCtrl n) 3 3 = 1) (·.startRecovery n)
  else
    let p := if 128 ≤ s.tec n || 128 ≤ s.recN n then 1 else 0
    if p = s.errState n then s
    else ((s.setFld (Addr.fbpStat n) 1 0 p).fbpEv (if p = 1 then 0x100 else 0x101) n).putSummary n

/-- The counters change in the mode (R244). -/
def State.counts (s : State) (n : Nat) : Bool := s.fbpMode n = 1 || s.fbpMode n = 4

/-- A frame was received without error (R273). -/
def State.recOk (s : State) (n : Nat) : State :=
  if !s.counts n then s
  else
    let r := s.recN n
    (s.setErrc n (s.tec n) (if 127 < r then 120 else r - 1)).errUpdate n

/-- The attempt in progress ends in an error (R260, R264). -/
def State.attemptError (s : State) (n : Nat) : State :=
  match (s.port n).active with
  | none => s
  | some b =>
    let late := (s.port n).late.contains b
    let s := s.onPort n fun x => { x with active := none }
    if !(s.txf n b).m then s.failTx n b (if late then 6 else 3)
    else if late then s.finishTx n b 6
    else s.setTxf n b { s.txf n b with st := 1 }

/-- An attempt that ends in an error has measured the transmitter delay when it got as far as the res bit: an error of the
data phase, of form, acknowledgement or CRC comes behind it; for a stuff or bit error of the nominal phase a free value
decides (log entry 119). -/
def State.tdcAtError (s : State) (n : Nat) (e : BusError) : State :=
  match (s.port n).active with
  | none => s
  | some b =>
    if e.dataPhase || e.code = 2 || e.code = 3 || e.code = 6 then s.tdcMeasure n (s.txf n b)
    else
      let (v, s) := s.free
      s.when (v % 2 = 1) (·.tdcMeasure n (s.txf n b))

/-- BUS_ERROR (R273): LEC or DLEC, the counters, the attempt. In restricted operation the port waits for 11
recessive bits (R246). -/
def execBusError (port : Nat) (e : BusError) (t : Nat) (s : State) : Host.Outcome State Fault Refusal :=
  let s := s.at t
  .next <|
    if 16 ≤ port || !s.onBus port then s
    else
      let s := if e.dataPhase then s.setFld (Addr.fbpStat port) 14 12 e.code else s.setFld (Addr.fbpStat port) 10 8 e.code
      let s := ((s.tdcAtError port e).attemptError port).frameEnd port
      if !s.counts port then s.when (s.fbpMode port = 2) (·.onPort port fun x => { x with wait11 := true })
      else
        let (dt, dr) : Nat × Nat := match e.role with
          | .receiver => (0, 1)
          | .receiverDominant => (0, 8)
          | .transmitter => (8, 0)
          | .transmitterUncounted => (0, 0)
        let s := (s.setErrc port (s.tec port + dt) (s.recN port + dr)).errUpdate port
        s.when (s.errState port = 1 && (dt ≠ 0 || e.role = .transmitterUncounted)) (·.onPort port fun x => { x with susp := true })

/-- ARBITRATION_LOST (R260, R264). -/
def execArbitrationLost (port : Nat) (s : State) : Host.Outcome State Fault Refusal :=
  .next <| match (s.port port).active with
    | none => s
    | some b =>
      let late := (s.port port).late.contains b
      let f := s.txf port b
      let s := s.onPort port fun x => { x with active := none }
      if late then s.finishTx port b 7
      else if !f.m && (f.past || sget {} (s.port port).load b ≠ {}) then s.staleTx port b
      else s.setTxf port b { f with st := 1 }

/-! ### Reception (R267 to R272) -/

/-- Filter `k` takes the frame (R267). -/
def State.filterHit (s : State) (n : Nat) (f : CanFrame) (k : Nat) : Bool :=
  let w0 := s.lv (Addr.fbpFilterW0 n k)
  s.lf (Addr.fbpFilterW2 n k) 2 0 ≠ 0 && w0.getLsbD 29 = f.ide &&
    (f.id ^^^ bitsOf w0 28 0) &&& s.lf (Addr.fbpFilterW1 n k) 28 0 = 0

/-- The words of a frame in a queue (R268). -/
def frameWords (n : Nat) (f : CanFrame) (k t : Nat) : Words :=
  [BitVec.ofNat 32 (f.id % 2 ^ 29 + b2n f.ide * 2 ^ 29 + b2n f.fdf * 2 ^ 30 + b2n f.brs * 2 ^ 31),
   BitVec.ofNat 32 (f.dlc % 16 + b2n f.esi * 16 + n * 256 + k * 65536), BitVec.ofNat 32 t, BitVec.ofNat 32 (t / 2 ^ 32)] ++
  toWords (slice f.data 0 (dlcBytes f.fdf f.dlc))

/-- A frame through the filters (R267, R268). -/
def State.deliver (s : State) (n : Nat) (f : CanFrame) (t : Nat) : State :=
  let stamp := t / 10 * 10
  match (List.range 128).find? (s.filterHit n f) with
  | none => s.inc (Addr.fbpRxNomatch n)
  | some k =>
    let s := s.inc (Addr.fbpFilterW3 n k)
    match s.lf (Addr.fbpFilterW2 n k) 2 0 with
    | 1 => s.onPort n fun x => { x with rx := x.rx ++ [⟨f, k, stamp⟩] }
    | 2 => s.qFrameOrWait ⟨n, n + 1, s.lf (Addr.fbpFilterW2 n k) 12 8, frameWords n f k stamp, none, s.utick⟩
    | _ => s

/-- FRAME_RECEIVED (R269): counters, protocol exception, remote frames, filters. -/
def execFrameReceived (port : Nat) (f : CanFrame) (t : Nat) (s : State) : Host.Outcome State Fault Refusal :=
  let s := (s.at t).frameEnd port
  .next <|
    if 16 ≤ port || !s.onBus port || s.fbpMode port = 4 then s
    else if f.fdf && f.resRecessive then
      if s.lf (Addr.fbpCtrl port) 6 6 = 1 then
        ((s.setBit (Addr.fbpStat port) 3 true).inc (Addr.fbpPex port)).fbpEv 0x107 port
      else
        let s := s.setFld (Addr.fbpStat port) 10 8 2
        if s.counts port then (s.setErrc port (s.tec port) (s.recN port + 1)).errUpdate port
        else s.when (s.fbpMode port = 2) (·.onPort port fun x => { x with wait11 := true })
    else
      let s := (s.recOk port).inc (Addr.fbpRxok port)
      if f.rtr && !f.fdf then s.inc (Addr.fbpRxRtr port) else s.deliver port f t

/-- A frame the port has sent, as a received frame (LOOPBACK). -/
def TxFrm.can (f : TxFrm) (sof : Nat) : CanFrame :=
  ⟨f.id, f.ide, f.fdf, f.brs, f.esi, false, false, f.dlc, f.data, sof⟩

/-- FRAME_SENT (R251, R260, R264, R271, R274). -/
def execFrameSent (port t : Nat) (s : State) : Host.Outcome State Fault Refusal :=
  let s := s.at t
  .next <| match (s.port port).active with
    | none => s
    | some b =>
      let f := s.txf port b
      let passive : Bool := s.errState port = 1
      let s := s.tdcMeasure port f
      let s := (s.inc (Addr.fbpTxok port)).finishTx port b (if (s.port port).late.contains b then 5 else 1)
      let s := (s.setErrc port (s.tec port - 1) (s.recN port)).errUpdate port
      let s := s.when passive (·.onPort port fun x => { x with susp := true })
      let s := s.when (s.fbpMode port = 4) fun s => (s.inc (Addr.fbpRxok port)).deliver port (f.can t) t
      s.frameEnd port

/-- SUSPEND_END (R274). -/
def execSuspendEnd (port : Nat) (s : State) : Host.Outcome State Fault Refusal :=
  .next (if port < 16 then s.onPort port fun x => { x with susp := false } else s)

/-- One more sequence of a recovery counted (R276, R288); the 128th ends it. -/
def State.recoverySeq (s : State) (n : Nat) : State :=
  if s.errState n = 2 && s.bit (Addr.fbpStat n) 2 then
    s.setFld (Addr.fbpErrc n) 31 24 (min (s.fld (Addr.fbpErrc n) 31 24 + 1) 127)
  else s

/-- INTEGRATION_END (R246, R247): 11 recessive bits, which a recovery counts too (R276; log entry 59). -/
def execIntegrationEnd (port : Nat) (s : State) : Host.Outcome State Fault Refusal :=
  .next <| if port < 16 then
      ((s.setBit (Addr.fbpStat port) 3 false).onPort port fun x => { x with wait11 := false }).recoverySeq port
    else s

/-- BUSOFF_RECOVERY_END (R276). -/
def execBusoffRecoveryEnd (port : Nat) (s : State) : Host.Outcome State Fault Refusal :=
  .next <|
    if port < 16 && s.errState port = 2 && s.bit (Addr.fbpStat port) 2 then
      let s := ((s.setErrc port 0 0).setFld (Addr.fbpErrc port) 31 24 128).setFld (Addr.fbpStat port) 2 0 0
      (s.fbpEv 0x103 port).putSummary port
    else s

/-- DOMINANT_TIMEOUT (R253). -/
def execDominantTimeout (port : Nat) (s : State) : Host.Outcome State Fault Refusal :=
  .next (if port < 16 then (s.setBit (Addr.fbpStat port) 6 true).fbpEv 0x104 port else s)

/-! ### Windows, calibration and cable measurement (R255, R282 to R286) -/

/-- A FREE window of `len` µs qualifies for a burst of a unit in role `r` (R282). -/
def State.burstWindow (s : State) (n len : Nat) (r : Role) : Bool :=
  let c := if s.ncyc n = 1 then s.fld (Addr.fbpTtStat n) 31 16 else s.fld (Addr.fbpTtStat n) 5 0
  15 ≤ len && (if r = .primary then c % 2 = 0 else if r = .tracking then c % 2 = 1 else true)

/-- The twin runs a burst of its own in the FREE window: no frame tells, so in a window of the twin's a free value decides
(R284; log entry 61). -/
def State.twinBurst (s : State) (n len : Nat) : Bool × State :=
  if (s.role = .primary && s.burstWindow n len .tracking) || (s.role = .tracking && s.burstWindow n len .primary) then
    let (v, s) := s.free
    (v % 2 = 1, s)
  else (false, s)

/-- A port in RESTRICTED or MONITOR mode, or in bus-off, makes no measurement (R282). -/
def State.tdrBarred (s : State) (n : Nat) : Bool := s.fbpMode n = 2 || s.fbpMode n = 3 || s.errState n = 2

/-- WINDOW_START (R284, R296): a FREE window serves a burst, and a calibration step unless the twin's burst takes it. -/
def execWindowStart (port w t : Nat) (s : State) : Host.Outcome State Fault Refusal :=
  let s := s.at t
  let wd := s.win port w
  .next <|
    if 16 ≤ port || 32 ≤ w || wd.len = 0 || s.fbpMode port = 0 then s
    else match s.cycleAt port t with
      | none => s
      | some (c, _) =>
        let ty := wd.typeIn c
        let s := s.onPort port fun x => { x with win := some (w, ty) }
        if ty ≠ 0 then s
        else
          let b := (s.port port).tdr.isSome && s.burstWindow port wd.len s.role && !s.tdrBarred port
          let (tw, s) := s.twinBurst port wd.len
          let rest := if b then wd.len * 1000 - (8000 + 800 * s.fld (Addr.fbpTdrCfg port) 15 0 / 1000) else wd.len * 1000
          s.onPort port fun x => { x with burst := b, calN := if 5000 ≤ rest && !tw then x.calN + 1 else x.calN }

/-- WINDOW_END (R260, R298): class P frames of the window that are still pending are STALE. -/
def execWindowEnd (port w t : Nat) (s : State) : Host.Outcome State Fault Refusal :=
  let s := s.at t
  .next <|
    if 16 ≤ port || 32 ≤ w then s
    else
      let s := s.onPort port fun x => { x with
        win := none, burst := false,
        tx := x.tx.map fun e => (e.1, { e.2 with past := e.2.past || (!e.2.m && e.2.till ≤ s.dtime) }) }
      (((s.port port).tx.filter fun e => e.2.past && e.2.st = 1).map (·.1)).foldl (fun s b => s.staleTx port b) s

/-- A measurement ends, failed or complete. -/
def State.tdrEnd (s : State) (n : Nat) (good : Bool) : State :=
  let s := s.onPort n fun x => { x with tdr := none, burst := false }
  let s := (s.setFld (Addr.fbpTdrStat n) 1 0 (if good then 2 else 3)).fbpEv (if good then 0x10A else 0x10B) n
  match (s.longsOf 0x0404).find? fun l => l.args = [n] with
  | none => s
  | some l =>
    if good then s.notice l 0x0400 (wordBytes (s.rd (Addr.fbpTdrStat n)) ++ wordBytes (s.rd (Addr.fbpTdrRdc n)) ++
      List.replicate 8 0 ++ (List.range 4).flatMap fun i => wordBytes (s.rd (Addr.fbpTdrRefl n i)))
    else s.notice l 0x0430

/-- Reflections reported (R285), by round-trip time: within 400.0 m, of at least 0.05, nearest first, those less than
2.0 m apart as one. -/
def reflections (vp : Nat) (m : TdrMeasure) : List (Nat × Int) :=
  let all := m.refl.filter fun e => e.1 * 1000 ≤ 400 * (2 * vp) && 50 ≤ e.2.natAbs
  let near := all.foldl (fun (l : List (Nat × Int)) e =>
    (l.filter fun x => x.1 ≤ e.1) ++ [e] ++ l.filter fun x => e.1 < x.1) []
  (near.foldl (fun (l : List (Nat × Int)) e =>
    if l.any fun x => e.1 * 1000 < x.1 * 1000 + 2 * (2 * vp) then l else l ++ [e]) []).take 4

/-- FBPn_TDR_REFL of a reflection: its distance in 0.1 m, its coefficient and KIND. -/
def reflWord (vp : Nat) (e : Nat × Int) : Word :=
  BitVec.ofNat 32 (e.1 * 10000 / (2 * vp) + (e.2 % 4096).toNat * 65536 + (if 300 ≤ e.2 then 0 else if e.2 ≤ -300 then 1 else 2) * 2 ^ 30)

/-- TERMSTAT (R286) from R_DC in 0.1 ohm and RLOAD in ohm: R_T is `num / den` in 0.1 ohm, infinite at R_DC = RLOAD and
negative above. -/
def termStat (rdc rload : Nat) : Nat :=
  let num := if rload = 0 then rdc else rdc * 10 * rload
  let den := if rload = 0 then 1 else 10 * rload - rdc
  if rload ≠ 0 && 10 * rload < rdc then 3
  else if den = 0 || 10000 * den < num then 0
  else if 950 * den ≤ num && num ≤ 1400 * den then 1
  else if 500 * den ≤ num && num ≤ 700 * den then 2 else 3

/-- The result registers of a complete measurement. -/
def State.tdrResult (s : State) (n : Nat) (m : TdrMeasure) : State :=
  let vp := s.fld (Addr.fbpTdrCfg n) 15 0
  let rs := reflections vp m
  let s := s.wr (Addr.fbpTdrRdc n) (BitVec.ofNat 32
    ((if 65534 < m.rdc then 0xFFFF else m.rdc) + termStat m.rdc (s.fld (Addr.fbpTdrCfg n) 31 16) * 2 ^ 30))
  (List.range 4).foldl (fun s i =>
    s.wr (Addr.fbpTdrRefl n i) (match rs[i]? with | some e => reflWord vp e | none => 0)) s

/-- TDR_BURST_END (R30, R282, R283): in a qualifying window, or on a disabled port with a timetable of 0 columns. -/
def execTdrBurstEnd (port : Nat) (aborted : Bool) (m : TdrMeasure) (s : State) : Host.Outcome State Fault Refusal :=
  .next <|
    if (s.port port).tdr.isNone || !((s.port port).burst || (s.ncyc port = 0 && s.fbpMode port = 0)) then s
    else
      let s := s.onPort port fun x => { x with burst := false }
      if aborted then s.incFld (Addr.fbpTdrStat port) 15 8
      else
        let s := s.setFld (Addr.fbpTdrStat port) 22 16 (s.fld (Addr.fbpTdrStat port) 22 16 + 1)
        if 64 ≤ s.fld (Addr.fbpTdrStat port) 22 16 then (s.tdrResult port m).tdrEnd port true else s

/-- TDR_TIMEOUT (R283): 10 s from the command. -/
def execTdrTimeout (port : Timed Nat) (s : State) : Host.Outcome State Fault Refusal :=
  let s := s.at port.t
  .next <| match (s.port port.val).tdr with
    | some t0 => if t0 + 1000000000 ≤ s.utick then s.tdrEnd port.val false else s
    | none => s

/-! ### Requests and cancels (R263, R264) -/

/-- A buffer requested. -/
def State.txRequest (s : State) (n b : Nat) : State :=
  let d := s.txd n b
  if s.txUnused n b || !d.m || (s.txf n b).st ≠ 0 || s.fbpMode n ≠ 1 || (s.errState n = 2 && d.own) then s.inc (Addr.fbpReqIgn n)
  else match s.takeTx n b with
    | (some f, s) => s.placeTx n b f
    | (none, s) => s.inc (Addr.fbpReqIgn n)

/-- A buffer cancelled. -/
def State.txCancel (s : State) (n b outcome : Nat) : State :=
  match (s.txf n b).st with
  | 0 => s
  | 1 => s.finishTx n b outcome
  | _ => s.onPort n fun x => { x with late := b :: x.late }

/-- The bits of a request or cancel word. -/
def bitList (v : Word) (hi : Bool) : Nats := ((List.range 32).filter fun i => v.getLsbD i).map (· + 32 * b2n hi)

/-- FBPN_TXREQ. -/
def execFbpnTxreq (port : Nat) (hi : Bool) (v : Word) (s : State) : Host.Outcome State Fault Refusal :=
  .next (if port < 16 then (bitList v hi).foldl (fun s b => s.txRequest port b) s else s)

/-- FBPN_TXCAN. -/
def execFbpnTxcan (port : Nat) (hi : Bool) (v : Word) (s : State) : Host.Outcome State Fault Refusal :=
  .next (if port < 16 then (bitList v hi).foldl (fun s b => s.txCancel port b 4) s else s)

/-- FBPN_RECOVER. -/
def execFbpnRecover (port : Nat) (v : Word) (s : State) : Host.Outcome State Fault Refusal :=
  .next (if port < 16 && v.getLsbD 0 then s.startRecovery port else s)

/-- The ten counters of a port. -/
def fbpCounters (n : Nat) : Nats :=
  [Addr.fbpRxok n, Addr.fbpTxok n, Addr.fbpBusoff n, Addr.fbpStale n, Addr.fbpPFail n, Addr.fbpRxNomatch n,
   Addr.fbpRxRtr n, Addr.fbpRxQloss n, Addr.fbpReqIgn n, Addr.fbpPex n]

/-- A write to FBPn_CLR. -/
def State.fbpClr (s : State) (n : Nat) (v : Word) : State :=
  s.when (v.getLsbD 0) fun s => s.clearAll (fbpCounters n ++ (List.range 128).map (Addr.fbpFilterW3 n))

/-- FBPN_CLR. -/
def execFbpnClr (port : Nat) (v : Word) (s : State) : Host.Outcome State Fault Refusal :=
  .next (if port < 16 then s.fbpClr port v else s)

/-! ### Opcodes (R289) -/

/-- FBP_STATUS. -/
def cmdFbpStatus (q : Req) (p : Bytes) (s : State) : State :=
  s.startLen 0x0400 2 q p fun s =>
    s.ok q 0x0400 ((maskList 16 (field p 0 2)).flatMap fun n =>
      wordsBytes [s.rd (Addr.fbpStat n), s.rd (Addr.fbpErrc n), s.txPend n 0, s.txPend n 1])

/-- FBP_RECOVER. -/
def cmdFbpRecover (q : Req) (p : Bytes) (s : State) : State :=
  s.startLen 0x0401 1 q p fun s =>
    let n := (p.getD 0 0).toNat
    if 15 < n then s.fail q 0x0401 0x11
    else if s.errState n ≠ 2 then s.fail q 0x0401 0x20
    else (s.startRecovery n).ok q 0x0401

/-- FBP_SEND: the host's frame in a class M buffer with OWN = 1. -/
def cmdFbpSend (q : Req) (p : Bytes) (s : State) : State :=
  s.start 0x0402 q p fun s =>
    let n := (p.getD 0 0).toNat
    let b := (p.getD 1 0).toNat
    let w0 := wordAt p 4
    let dlc := (p.getD 8 0).toNat
    if p.length < 12 || 15 < dlc || p.length ≠ 12 + dlcBytes (w0.getLsbD 30) dlc then s.fail q 0x0402 0x10
    else if 15 < n || 63 < b || (w0.getLsbD 31 && !w0.getLsbD 30) then s.fail q 0x0402 0x11
    else
      let d := s.txd n b
      if !d.m || !d.own then s.fail q 0x0402 0x11
      else if (s.txf n b).st ≠ 0 then s.fail q 0x0402 0x31
      else if s.fbpMode n ≠ 1 then s.fail q 0x0402 0x20
      else if s.errState n = 2 then (s.inc (Addr.fbpReqIgn n)).fail q 0x0402 0x20
      else
        let id := bitsOf w0 28 0
        let (h, s) : Bytes × State := if d.twh then s.twinHeader n id else ([], s)
        let f : TxFrm := { m := true, id := s.unitId n (w0.getLsbD 29) id, ide := w0.getLsbD 29, fdf := w0.getLsbD 30,
                           brs := w0.getLsbD 31, dlc := dlc, data := h ++ (p.drop 12).drop h.length }
        (s.accept q 0x0402 [n, b]).placeTx n b f

/-- FBP_SEND_TIMEOUT (R289): after 10 s the device cancels the frame, with OUTCOME TIMEOUT. -/
def execFbpSendTimeout (port : Nat) (buf : Timed Nat) (s : State) : Host.Outcome State Fault Refusal :=
  let s := s.at buf.t
  .next <|
    if (s.longsOf 0x0402).any fun l => l.args = [port, buf.val] && l.t + 1000000000 ≤ s.utick then
      match (s.txf port buf.val).st with
      | 2 => (s.onPort port fun x => { x with late := buf.val :: x.late }).sendNotice port buf.val 8
      | _ => s.finishTx port buf.val 8
    else s

/-- FBP_CANCEL. -/
def cmdFbpCancel (q : Req) (p : Bytes) (s : State) : State :=
  s.startLen 0x0403 2 q p fun s =>
    let n := (p.getD 0 0).toNat
    let b := (p.getD 1 0).toNat
    if 15 < n || 63 < b then s.fail q 0x0403 0x11
    else if !(s.txd n b).own then s.fail q 0x0403 0x11
    else (s.txCancel n b 4).ok q 0x0403

/-- FBP_TDR (R282). -/
def cmdFbpTdr (q : Req) (p : Bytes) (s : State) : State :=
  s.startLen 0x0404 1 q p fun s =>
    let n := (p.getD 0 0).toNat
    let vp := s.fld (Addr.fbpTdrCfg n) 15 0
    if 15 < n || vp < 3500 || 8000 < vp then s.fail q 0x0404 0x11
    else if s.tdrBarred n || (s.ncyc n = 0 && s.fbpMode n ≠ 0) then s.fail q 0x0404 0x20
    else if (s.port n).tdr.isSome then s.fail q 0x0404 0x31
    else
      let s := (s.accept q 0x0404 [n]).wr (Addr.fbpTdrStat n) 1
      s.onPort n fun x => { x with tdr := some s.utick }

/-- FBP_COUNTERS. -/
def cmdFbpCounters (q : Req) (p : Bytes) (s : State) : State :=
  s.startLen 0x0405 2 q p fun s =>
    let n := (p.getD 0 0).toNat
    if 15 < n then s.fail q 0x0405 0x11
    else
      let d := (fbpCounters n).flatMap fun a => wordBytes (s.rd a)
      (s.when ((p.getD 1 0).getLsbD 0) (·.clearAll (fbpCounters n))).ok q 0x0405 d

/-- FBP_STATUS. -/
def execFbpStatus (q : Req) (p : Bytes) (s : State) : Host.Outcome State Fault Refusal := .next (cmdFbpStatus q p s)
/-- FBP_RECOVER. -/
def execFbpRecover (q : Req) (p : Bytes) (s : State) : Host.Outcome State Fault Refusal := .next (cmdFbpRecover q p s)
/-- FBP_SEND. -/
def execFbpSend (q : Req) (p : Bytes) (s : State) : Host.Outcome State Fault Refusal := .next (cmdFbpSend q p s)
/-- FBP_CANCEL. -/
def execFbpCancel (q : Req) (p : Bytes) (s : State) : Host.Outcome State Fault Refusal := .next (cmdFbpCancel q p s)
/-- FBP_TDR. -/
def execFbpTdr (q : Req) (p : Bytes) (s : State) : Host.Outcome State Fault Refusal := .next (cmdFbpTdr q p s)
/-- FBP_COUNTERS. -/
def execFbpCounters (q : Req) (p : Bytes) (s : State) : Host.Outcome State Fault Refusal := .next (cmdFbpCounters q p s)

end Sys2Proof.Machine
end

