-- ==== Sys2Proof/Machine/Float.lean ====
section
/-! DEFINITION. Binary floating point of IEEE 754-2019, as R164 to R166 and R224 use it: exact results
rounded to nearest, ties to even, with the exceptions of the default handling. Encodings are numbers. -/

namespace Sys2Proof.Machine

/-- A binary format: exponent bits and fraction bits. -/
structure Fmt where
  eb : Nat
  mb : Nat
  deriving DecidableEq, Repr

/-- binary32. -/
def f32 : Fmt := ⟨8, 23⟩
/-- binary64. -/
def f64 : Fmt := ⟨11, 52⟩

/-- Exceptions, with the bit weights of SW[12:8] counted from bit 8 (R133): FIV, FDZ, FOF, FUF, FNX. -/
def fIV : Nat := 1
/-- Division by zero. -/
def fDZ : Nat := 2
/-- Overflow. -/
def fOF : Nat := 4
/-- Underflow. -/
def fUF : Nat := 8
/-- Inexact. -/
def fNX : Nat := 16

/-- Width of an encoding. -/
def Fmt.width (f : Fmt) : Nat := 1 + f.eb + f.mb
/-- Weight of the sign bit. -/
def Fmt.signBit (f : Fmt) : Nat := 2 ^ (f.eb + f.mb)
/-- Encoding of plus infinity. -/
def Fmt.inf (f : Fmt) : Nat := (2 ^ f.eb - 1) * 2 ^ f.mb
/-- The quiet NaN of R165. -/
def Fmt.nan (f : Fmt) : Nat := f.inf + 2 ^ (f.mb - 1)
/-- Exponent of the unit in the last place of a subnormal. -/
def Fmt.emin (f : Fmt) : Int := 2 - (2 ^ (f.eb - 1) : Nat) - f.mb

/-- The sign of an encoding. -/
def fSign (f : Fmt) (x : Nat) : Bool := x / f.signBit % 2 = 1
/-- The encoding without its sign. -/
def fMag (f : Fmt) (x : Nat) : Nat := x % f.signBit
/-- NaN. -/
def fIsNan (f : Fmt) (x : Nat) : Bool := f.inf < fMag f x
/-- Signalling NaN: the top fraction bit is 0. -/
def fIsSnan (f : Fmt) (x : Nat) : Bool := fIsNan f x && fMag f x < f.nan
/-- Infinity. -/
def fIsInf (f : Fmt) (x : Nat) : Bool := fMag f x = f.inf
/-- Zero of either sign. -/
def fIsZero (f : Fmt) (x : Nat) : Bool := fMag f x = 0

/-- The significand of a finite encoding. -/
def fSig (f : Fmt) (x : Nat) : Nat :=
  let e := fMag f x / 2 ^ f.mb
  fMag f x % 2 ^ f.mb + (if e = 0 then 0 else 2 ^ f.mb)

/-- The exponent of the significand's last place. -/
def fExp (f : Fmt) (x : Nat) : Int :=
  let e := fMag f x / 2 ^ f.mb
  f.emin + (if e = 0 then 0 else ((e - 1 : Nat) : Int))

/-- `m` shifted right by `k` and rounded to nearest, ties to even; whether it was exact. -/
def rneShift (m k : Nat) : Nat × Bool :=
  let q := m / 2 ^ k
  let r := m % 2 ^ k
  if k = 0 then (m, true)
  else
    let h := 2 ^ (k - 1)
    (if h < r || (r = h && q % 2 = 1) then q + 1 else q, r = 0)

/-- The exact value (-1)^sign * m * 2^e rounded to the format: encoding and exceptions (R165: tininess
after rounding as though the exponent were unbounded; FUF only when inexact as well). -/
def fRound (f : Fmt) (sign : Bool) (m : Nat) (e : Int) : Nat × Nat :=
  let sb := if sign then f.signBit else 0
  if m = 0 then (sb, 0)
  else
    let p : Int := f.mb + 1
    let len : Int := (Nat.log2 m + 1 : Nat)
    let top := len + e - p
    let q := max top f.emin
    let k := q - e
    let (sig, exact) := if k ≤ 0 then (m * 2 ^ (-k).toNat, true) else rneShift m k.toNat
    let enc := (q - f.emin).toNat * 2 ^ f.mb + sig
    let tinyRound := if top - e ≤ 0 then m * 2 ^ (e - top).toNat else (rneShift m (top - e).toNat).1
    let tiny := top < f.emin && !(top + 1 = f.emin && tinyRound = 2 ^ (f.mb + 1))
    if f.inf ≤ enc then (sb + f.inf, fOF + fNX)
    else (sb + enc, (if exact then 0 else fNX) + (if tiny && !exact then fUF else 0))

/-- The default result of an invalid operation. -/
def fInvalid (f : Fmt) : Nat × Nat := (f.nan, fIV)

/-- A NaN operand gives the quiet NaN, invalid for a signalling one (R165). -/
def fNanResult (f : Fmt) (x y : Nat) : Nat × Nat := (f.nan, if fIsSnan f x || fIsSnan f y then fIV else 0)

/-- The signed significand. -/
def fInt (f : Fmt) (x : Nat) : Int := if fSign f x then -(fSig f x : Int) else fSig f x

/-- Addition. -/
def fAdd (f : Fmt) (x y : Nat) : Nat × Nat :=
  if fIsNan f x || fIsNan f y then fNanResult f x y
  else if fIsInf f x then (if fIsInf f y && fSign f x != fSign f y then fInvalid f else (x, 0))
  else if fIsInf f y then (y, 0)
  else
    let e := min (fExp f x) (fExp f y)
    let v := fInt f x * 2 ^ (fExp f x - e).toNat + fInt f y * 2 ^ (fExp f y - e).toNat
    if v = 0 then (if fSign f x && fSign f y then f.signBit else 0, 0)
    else fRound f (v < 0) v.natAbs e

/-- The sign inverted (R165). -/
def fNegBits (f : Fmt) (x : Nat) : Nat := if fSign f x then x - f.signBit else x + f.signBit

/-- Subtraction. -/
def fSub (f : Fmt) (x y : Nat) : Nat × Nat :=
  if fIsNan f x || fIsNan f y then fNanResult f x y else fAdd f x (fNegBits f y)

/-- Multiplication. -/
def fMul (f : Fmt) (x y : Nat) : Nat × Nat :=
  let sg := fSign f x != fSign f y
  let sb := if sg then f.signBit else 0
  if fIsNan f x || fIsNan f y then fNanResult f x y
  else if fIsInf f x || fIsInf f y then
    (if fIsZero f x || fIsZero f y then fInvalid f else (sb + f.inf, 0))
  else fRound f sg (fSig f x * fSig f y) (fExp f x + fExp f y)

/-- Division: the quotient to more places than the format holds, with a sticky last place. -/
def fDiv (f : Fmt) (x y : Nat) : Nat × Nat :=
  let sg := fSign f x != fSign f y
  let sb := if sg then f.signBit else 0
  if fIsNan f x || fIsNan f y then fNanResult f x y
  else if fIsInf f x then (if fIsInf f y then fInvalid f else (sb + f.inf, 0))
  else if fIsInf f y then (sb, 0)
  else if fIsZero f y then (if fIsZero f x then fInvalid f else (sb + f.inf, fDZ))
  else if fIsZero f x then (sb, 0)
  else
    let k := 2 * f.mb + 8
    let n := fSig f x * 2 ^ k
    let q := n / fSig f y
    let st := if n % fSig f y = 0 then 0 else 1
    fRound f sg (2 * q + st) (fExp f x - fExp f y - k - 1)

/-- The integer square root of `n`, bit by bit from bit `k - 1` down. -/
def isqrtN (n : Nat) : Nat → Nat → Nat
  | 0, r => r
  | k + 1, r => let c := r + 2 ^ k
                isqrtN n k (if c * c ≤ n then c else r)

/-- Square root. -/
def fSqrt (f : Fmt) (x : Nat) : Nat × Nat :=
  if fIsNan f x then fNanResult f x x
  else if fIsZero f x then (x, 0)
  else if fSign f x then fInvalid f
  else if fIsInf f x then (x, 0)
  else
    let odd := fExp f x % 2 ≠ 0
    let k := 2 * f.mb + 8
    let m := fSig f x * (if odd then 2 else 1) * 2 ^ k
    let e := fExp f x - (if odd then 1 else 0) - k
    let r := isqrtN m (f.mb * 2 + 8) 0
    fRound f false (2 * r + (if r * r = m then 0 else 1)) (e / 2 - 1)

/-- `x < y` for operands that are not NaN. -/
def fLt (f : Fmt) (x y : Nat) : Bool :=
  if fIsZero f x && fIsZero f y then false
  else match fSign f x, fSign f y with
    | true, false => true
    | false, true => false
    | false, false => fMag f x < fMag f y
    | true, true => fMag f y < fMag f x

/-- Equality for operands that are not NaN. -/
def fEq (f : Fmt) (x y : Nat) : Bool := x = y || (fIsZero f x && fIsZero f y)

/-- minimumNumber or maximumNumber (R166): -0 below +0. -/
def fMinMax (f : Fmt) (mx : Bool) (x y : Nat) : Nat × Nat :=
  let fl := if fIsSnan f x || fIsSnan f y then fIV else 0
  if fIsNan f x then (if fIsNan f y then f.nan else y, fl)
  else if fIsNan f y then (x, fl)
  else
    let xLess := fLt f x y || (fEq f x y && fSign f x && !fSign f y)
    (if xLess != mx then x else y, fl)

/-- The flags of FCMP (R166): Z equal, N less, C greater or equal, V unordered, and FIV. -/
def fCmp (f : Fmt) (x y : Nat) : (Bool × Bool × Bool × Bool) × Nat :=
  if fIsNan f x || fIsNan f y then ((false, false, false, true), if fIsSnan f x || fIsSnan f y then fIV else 0)
  else ((fEq f x y, fLt f x y, !fLt f x y, false), 0)

/-- Conversion to a `w`-bit signed integer, to nearest even or toward zero (R166). -/
def fToInt (f : Fmt) (w : Nat) (trunc : Bool) (x : Nat) : Int × Nat :=
  let lim : Int := 2 ^ (w - 1)
  if fIsNan f x then (0, fIV)
  else if fIsInf f x then (if fSign f x then -lim else lim - 1, fIV)
  else
    let e := fExp f x
    let (m, exact) :=
      if 0 ≤ e then (fSig f x * 2 ^ (min e.toNat 2100), true)
      else
        let k := (-e).toNat
        if trunc then (fSig f x / 2 ^ k, fSig f x % 2 ^ k = 0) else rneShift (fSig f x) k
    let v : Int := if fSign f x then -(m : Int) else m
    if v < -lim then (-lim, fIV) else if lim ≤ v then (lim - 1, fIV) else (v, if exact then 0 else fNX)

/-- Conversion from an integer. -/
def fOfInt (f : Fmt) (v : Int) : Nat × Nat := fRound f (v < 0) v.natAbs 0

/-- Conversion between formats. -/
def fConv (f g : Fmt) (x : Nat) : Nat × Nat :=
  let sb := if fSign f x then g.signBit else 0
  if fIsNan f x then (g.nan, if fIsSnan f x then fIV else 0)
  else if fIsInf f x then (sb + g.inf, 0)
  else if fIsZero f x then (sb, 0)
  else fRound g (fSign f x) (fSig f x) (fExp f x)

end Sys2Proof.Machine
end

