-- ==== Sys2Proof/Machine/Ixe.lean ====
section
/-! DEFINITION. The indicator engine: acceptance and evaluation of records, time-outs, the status image, vote
groups, the commit of its group, and its opcodes (R213 to R239). -/

namespace Sys2Proof.Machine

/-! ### Points in force (R219) -/

/-- EN of a point in force. -/
def State.ptEn (s : State) (p : Nat) : Bool := s.lf (Addr.ixePoint00 p) 0 0 = 1
/-- The status nibble (R227). -/
def State.nibble (s : State) (p : Nat) : Nat := s.fld (Addr.ixePoint20 p) 3 0
/-- VALID of a point. -/
def State.ptValid (s : State) (p : Nat) : Bool := s.bit (Addr.ixePoint20 p) 3
/-- FAILED of a point. -/
def State.ptFailed (s : State) (p : Nat) : Bool := s.bit (Addr.ixePoint20 p) 7
/-- FEN of a point in force. -/
def State.ptFen (s : State) (p : Nat) : Nat := s.lf (Addr.ixePoint04 p) 19 0
/-- STALE of a point in force. -/
def State.ptStale (s : State) (p : Nat) : Bool := s.lf (Addr.ixePoint00 p) 3 3 = 1

/-- Address of the feature state (R218). -/
def featAddr (p f : Nat) : Nat := 0x30000000 + 1280 * p + 64 * f

/-- The points of a map of registers whose record it lists. -/
def pointsIn (m : Sparse Word) : Nats :=
  ((m.filter fun e => 0x30780000 ≤ e.1 && e.1 < 0x307E0000).map fun e => (e.1 - 0x30780000) / 64).dedup

/-- The enabled points in force. -/
def State.enPoints (s : State) : Nats := (pointsIn s.live).filter s.ptEn

/-- The IXE evaluates: STOP, RUN or HOLD with EN (R3, R216, R237). -/
def State.ixeRuns (s : State) : Bool :=
  (s.op = .stop || s.op = .run || s.op = .hold) && s.lf Addr.ixeCtrl 0 0 = 1

/-! ### Vote groups (R231, R232, R235) -/

/-- NMEM of a group in force. -/
def State.nmem (s : State) (v : Nat) : Nat := s.lf (Addr.ixeVote00 v) 3 0
/-- Member `i` of a group in a map of values. -/
def memberIn (w : Nat → Word) (v i : Nat) : Nat :=
  bitsOf (w (Addr.ixeVoteMembers v (i / 2))) (12 + 16 * (i % 2)) (16 * (i % 2))
/-- The members of a group in force. -/
def State.members (s : State) (v : Nat) : Nats := (List.range (s.nmem v)).map (memberIn s.lv v)

/-- The groups enabled in a map. -/
def groupsIn (m : Sparse Word) : Nats :=
  (m.filter fun e => 0x307F0000 ≤ e.1 && e.1 < 0x307F8000 && e.1 % 32 = 0 && bitsOf e.2 3 0 ≠ 0).map
    fun e => (e.1 - 0x307F0000) / 32

/-- A member alarms for the group's SEL and INVAL (R231). -/
def State.alarms (s : State) (sel : Nat) (inval : Bool) (p : Nat) : Bool :=
  if s.ptValid p then (s.nibble p).testBit sel else inval

/-- Output and VALID of a group, as bits 0 and 1. -/
def State.vote (s : State) (v : Nat) : Nat :=
  let ms := s.members v
  let m := s.lf (Addr.ixeVote00 v) 7 4
  let sel := s.lf (Addr.ixeVote00 v) 9 8
  let inval : Bool := s.lf (Addr.ixeVote00 v) 10 10 = 1
  if ms.isEmpty then 0
  else b2n (m ≤ (ms.filter (s.alarms sel inval)).length) + 2 * b2n (m ≤ (ms.filter s.ptValid).length)

/-- A group is taken out of service until the next commit: VALID 0, and INVAL as its output (R235). -/
def State.failGroup (s : State) (v : Nat) : State :=
  ({ s with ixe := { s.ixe with
    votes := sput 0 s.ixe.votes v (s.lf (Addr.ixeVote00 v) 10 10), voteHeld := v :: s.ixe.voteHeld } } : State).ev 0x0CC v

/-- A group evaluated: its new bits; an unrebuildable page fails it (R235). -/
def State.evalGroup (s : State) (v : Nat) : State :=
  if s.ixe.voteHeld.contains v then s
  else if s.nmem v = 0 then { s with ixe := { s.ixe with votes := sdel s.ixe.votes v } }
  else match s.readBytes .ixe (Addr.ixeVote00 v) 32 with
    | (some _, s) => { s with ixe := { s.ixe with votes := sput 0 s.ixe.votes v (s.vote v) } }
    | (none, s) => s.failGroup v

/-! ### The status image (R229, R230) -/

/-- Byte offset of status line `k`. -/
def statusLine (k : Nat) : Nat := 0xF000 + 64 * k

/-- The cell of a point's nibble. -/
def nibbleCell (p nib : Nat) : Nat × Byte × Byte := fieldCell (statusLine (p / 96) + 4 + p % 96 / 2) (p % 2 * 4) 4 nib

/-- The cells of a group's output and VALID. -/
def groupCells (v bits : Nat) : ImgCells :=
  let a := statusLine (v / 16)
  [bitCell (a + v % 16 / 8) (v % 8) (bits % 2 = 1), bitCell (a + 2 + v % 16 / 8) (v % 8) (bits / 2 = 1)]

/-- The line summary byte. -/
def State.summaryCell (s : State) (k : Nat) : Nat × Byte × Byte :=
  let ps := s.enPoints.filter fun p => p / 96 = k
  let any (i : Nat) : Nat := b2n (ps.any fun p => (s.nibble p).testBit i)
  (statusLine k + 52, BitVec.ofNat 8 (any 0 + 2 * any 1 + 4 * any 2 + 8 * b2n (ps.any fun p => !s.ptValid p)), 0xFF)

/-- The events of a nibble's change (R230). -/
def State.nibbleEvents (s : State) (p old new : Nat) : State :=
  let rise := fun i => !old.testBit i && new.testBit i
  let s := s.when (rise 0) (·.ev 0x0C0 p)
  let s := s.when (rise 1) (·.ev 0x0C1 p)
  let s := s.when (old.testBit 0 && !new.testBit 0) (·.ev 0x0C2 p)
  s.when (rise 2) (·.ev 0x0C3 p)

/-- The triggers of a nibble's change (R101). -/
def nibbleTrigs (p old new : Nat) : List Trigger :=
  (if !old.testBit 0 && new.testBit 0 then [⟨3, p, 18⟩] else []) ++
  (if !old.testBit 1 && new.testBit 1 then [⟨3, p, 19⟩] else []) ++
  (if old.testBit 0 && !new.testBit 0 then [⟨3, p, 20⟩] else []) ++
  (if old.testBit 3 ≠ new.testBit 3 then [⟨3, p, 21⟩] else [])

/-- The event and the trigger of a group output's change (R101, R232). -/
def State.groupEvent (s : State) (v old new : Nat) : State :=
  if old % 2 = new % 2 then s else s.ev (if new % 2 = 1 then 0x0C6 else 0x0C7) v
/-- The trigger of a group output's change. -/
def groupTrig (v old new : Nat) : List Trigger :=
  if old % 2 = new % 2 then [] else [⟨4, v, if new % 2 = 1 then 18 else 19⟩]

/-- New nibbles of some points, and the groups `gs` evaluated: one image write with all that changes, its
events, and its triggers (R230). `lines`: lines whose summary is written in any case; `lat`: the receive stamp of the
record the write belongs to (R237). -/
def State.putStatus (s : State) (src : ImgSource) (new : List (Nat × Nat)) (gs lines : Nats) (lat : Option Nat := none) :
    State :=
  let ch := new.filter fun e => s.nibble e.1 ≠ e.2
  let old : List (Nat × Nat × Nat) := ch.map fun e => (e.1, s.nibble e.1, e.2)
  let s := ch.foldl (fun s e => s.setFld (Addr.ixePoint20 e.1) 3 0 e.2) s
  let before := s.ixe.votes
  let s := gs.foldl (fun s v => s.evalGroup v) s
  let gch : List (Nat × Nat × Nat) := (gs.map fun v => (v, sget 0 before v, sget 0 s.ixe.votes v)).filter fun e => e.2.1 ≠ e.2.2
  let s := old.foldl (fun s e => s.nibbleEvents e.1 e.2.1 e.2.2) s
  let s := gch.foldl (fun s e => s.groupEvent e.1 e.2.1 e.2.2) s
  let ls : Nats := (lines ++ ch.map fun (e : Nat × Nat) => e.1 / 96).dedup
  let cells := ch.map (fun e => nibbleCell e.1 e.2) ++ gch.flatMap (fun e => groupCells e.1 e.2.2) ++ ls.map s.summaryCell
  let trigs := old.flatMap (fun e => nibbleTrigs e.1 e.2.1 e.2.2) ++ gch.flatMap fun e => groupTrig e.1 e.2.1 e.2.2
  if cells.isEmpty then s else s.imgWrite { src := src, cells := cells, trigs := trigs, lat := lat }

/-- The page of a group's own words is unrebuildable (R235): the group fails, in one image write. -/
def State.groupLost (s : State) (v : Nat) : State :=
  if 1023 < v || s.nmem v = 0 || s.ixe.voteHeld.contains v then s
  else
    let old := sget 0 s.ixe.votes v
    let s := s.failGroup v
    let new := sget 0 s.ixe.votes v
    if old = new then s
    else (s.groupEvent v old new).imgWrite { src := .ixeRecord, cells := groupCells v new, trigs := groupTrig v old new }

/-- The status image drawn from the status the engine holds (R229): after a restart that keeps it, the image starts from
zeros (R576, R580). -/
def State.drawStatus (s : State) : State :=
  let ps := s.enPoints
  let cells := ps.map (fun p => nibbleCell p (s.nibble p)) ++ s.ixe.votes.flatMap (fun e => groupCells e.1 e.2) ++
    (ps.map (· / 96)).dedup.map s.summaryCell
  if cells.isEmpty then s else s.imgWrite { src := .ixeRecord, cells := cells }

/-- The groups a point is a member of. -/
def State.groupsOf (s : State) (p : Nat) : Nats := (groupsIn s.live).filter fun v => (s.members v).contains p

/-! ### Features (R220, R224) -/

/-- One bin of a feature's baseline. -/
structure IxeBin where
  mean : Nat
  m2   : Nat
  n    : Nat
  deriving DecidableEq, Repr

/-- The state of a feature. -/
structure Feature where
  fast   : Nat
  slow   : Nat
  lcode  : Nat
  alert  : Bool
  danger : Bool
  trend  : Bool
  init   : Bool
  histA  : Nat
  histD  : Nat
  bins   : List IxeBin
  deriving DecidableEq, Repr

/-- A feature state from its 16 words. -/
def featureOf (ws : Words) : Feature :=
  let w (i : Nat) : Word := ws.getD i 0
  { fast := (w 0).toNat, slow := (w 1).toNat, lcode := bitsOf (w 2) 15 0, alert := (w 2).getLsbD 16,
    danger := (w 2).getLsbD 17, trend := (w 2).getLsbD 18, init := (w 2).getLsbD 19,
    histA := bitsOf (w 3) 15 0, histD := bitsOf (w 3) 31 16,
    bins := (List.range 4).map fun b => ⟨(w (4 + 3 * b)).toNat, (w (5 + 3 * b)).toNat, bitsOf (w (6 + 3 * b)) 23 0⟩ }

/-- The 16 words of a feature state. -/
def Feature.words (x : Feature) : Words :=
  [BitVec.ofNat 32 x.fast, BitVec.ofNat 32 x.slow,
   BitVec.ofNat 32 (x.lcode + b2n x.alert * 2 ^ 16 + b2n x.danger * 2 ^ 17 + b2n x.trend * 2 ^ 18 + b2n x.init * 2 ^ 19),
   BitVec.ofNat 32 (x.histA + x.histD * 65536)] ++
  x.bins.flatMap fun b => [BitVec.ofNat 32 b.mean, BitVec.ofNat 32 b.m2, BitVec.ofNat 32 b.n]

/-- The limit profile of a point in force (R226). -/
structure Limits where
  nhist     : Nat
  k         : Nat
  src       : Nat
  absHyst   : Nat
  zAlert    : Nat
  zDanger   : Nat
  zHyst     : Nat
  trendLim  : Nat
  trendHyst : Nat
  sigmaMin  : Nat
  deriving DecidableEq, Repr

/-- The fields of profile `r` in force. -/
def State.limits (s : State) (r : Nat) : Limits :=
  let n (a : Nat) : Nat := (s.lv a).toNat
  ⟨s.lf (Addr.ixeProfile00 r) 4 0, s.lf (Addr.ixeProfile00 r) 12 8, s.lf (Addr.ixeProfile00 r) 16 16,
   n (Addr.ixeProfile04 r), n (Addr.ixeProfile08 r), n (Addr.ixeProfile0c r), n (Addr.ixeProfile10 r),
   n (Addr.ixeProfile14 r), n (Addr.ixeProfile18 r), n (Addr.ixeProfile1c r)⟩

/-- binary32 operations of R224, without their flags. -/
def gAdd (x y : Nat) : Nat := (fAdd f32 x y).1
/-- Difference. -/
def gSub (x y : Nat) : Nat := (fSub f32 x y).1
/-- Product. -/
def gMul (x y : Nat) : Nat := (fMul f32 x y).1
/-- Quotient. -/
def gDiv (x y : Nat) : Nat := (fDiv f32 x y).1
/-- float32 of an integer. -/
def gOf (v : Int) : Nat := (fOfInt f32 v).1
/-- `x >= y`: false with a NaN. -/
def gGe (x y : Nat) : Bool := !fIsNan f32 x && !fIsNan f32 y && !fLt f32 x y

/-- The level of a code (R214). -/
def levelOf (code : Nat) : Nat := gDiv (gOf (code - 20000)) (gOf 100)

/-- The weight of an average for a time constant (R224). -/
def weight (dts tau : Nat) : Nat := if fIsZero f32 tau then gOf 1 else gDiv dts (gAdd tau dts)

/-- A condition of R224 with its hysteresis. -/
def overLimit (held : Bool) (y lim hyst : Nat) (z : Option Nat) (zlim zhyst : Nat) : Bool :=
  let l := if held then gSub lim hyst else lim
  let zl := if held then gSub zlim zhyst else zlim
  gGe y l || (match z with | some v => gGe v zl | none => false)

/-- A history shifted by one record. -/
def shiftHist (h : Nat) (c : Bool) (n : Nat) : Nat := (h * 2 + b2n c) % 2 ^ n

/-- The bits set in a history. -/
def popHist (h : Nat) : Nat := ((List.range 16).filter h.testBit).length

/-- The baseline update of a bin (R224): the new bin, and: N has reached NMIN now. -/
def learn (b : IxeBin) (y ncap nmin : Nat) : IxeBin × Bool :=
  let delta := gSub y b.mean
  if b.n < ncap then
    let n := b.n + 1
    let mean := gAdd b.mean (gDiv delta (gOf n))
    (⟨mean, gAdd b.m2 (gMul delta (gSub y mean)), n⟩, n = nmin)
  else
    let mean := gAdd b.mean (gDiv delta (gOf ncap))
    (⟨mean, gAdd (gMul b.m2 (gSub (gOf 1) (gDiv (gOf 1) (gOf ncap)))) (gMul delta (gSub y mean)), b.n⟩, false)

/-- What a record brings to each of its features. -/
structure RecCtx where
  dts    : Nat
  bin    : Option Nat
  mode   : Nat
  nmin   : Nat
  nwin   : Nat
  tauF   : Nat
  tauS   : Nat
  lim    : Limits
  deriving DecidableEq, Repr

/-- One feature evaluated for a measured code (R224): its new state, and: its baseline has become valid. -/
def evalFeature (c : RecCtx) (absA absD : Nat) (x : Feature) (code : Nat) : Feature × Bool :=
  let v := levelOf code
  let fast := if x.init then gAdd x.fast (gMul (weight c.dts c.tauF) (gSub v x.fast)) else v
  let slow := if x.init then gAdd x.slow (gMul (weight c.dts c.tauS) (gSub v x.slow)) else v
  let y := if c.lim.src = 1 then fast else v
  let b : IxeBin := match c.bin with | some i => x.bins.getD i ⟨0, 0, 0⟩ | none => ⟨0, 0, 0⟩
  let z : Option Nat := if c.bin.isSome && c.nmin ≤ b.n then
      let sd := (fSqrt f32 (gDiv b.m2 (gOf (b.n - 1)))).1
      some (gDiv (gSub y b.mean) (fMinMax f32 true sd c.lim.sigmaMin).1)
    else none
  let ca := overLimit x.alert y absA c.lim.absHyst z c.lim.zAlert c.lim.zHyst
  let cd := overLimit x.danger y absD c.lim.absHyst z c.lim.zDanger c.lim.zHyst
  let ha := shiftHist x.histA ca c.lim.nhist
  let hd := shiftHist x.histD cd c.lim.nhist
  let alert : Bool := c.lim.k ≤ popHist ha
  let danger : Bool := c.lim.k ≤ popHist hd
  let d := gSub fast slow
  let trend := gGe d (if x.trend then gSub c.lim.trendLim c.lim.trendHyst else c.lim.trendLim)
  let learns : Bool := c.mode = 0 || (c.mode = 2 && !alert && !danger)
  let (bins, ev) : List IxeBin × Bool := match c.bin with
    | some i =>
      if learns then
        let (b', e) := learn b y (if c.mode = 2 then c.nwin else 16777215) c.nmin
        (x.bins.set i b', e)
      else (x.bins, false)
    | none => (x.bins, false)
  ({ x with fast := fast, slow := slow, histA := ha, histD := hd, alert := alert, danger := danger, trend := trend,
            init := true, lcode := code, bins := bins }, ev)

/-- The nibble flags of a point from its features under FEN: ALERT, DANGER, TREND (R227). -/
def State.featureFlags (s : State) (p : Nat) : Nat :=
  let fs := (List.range 20).filter fun f => (s.ptFen p).testBit f
  let w (f : Nat) : Word := s.rd (featAddr p f + 8)
  b2n (fs.any fun f => (w f).getLsbD 16 || (w f).getLsbD 17) + 2 * b2n (fs.any fun f => (w f).getLsbD 17) +
    4 * b2n (fs.any fun f => (w f).getLsbD 18)

/-! ### The bin of a record (R222, R223) -/

/-- The period of the revolution a record names. -/
def State.recPeriod (s : State) (sh rev : Nat) : Option Nat :=
  if !s.bit (Addr.shStat sh) 0 || rev = 0xFFFFFF then none
  else
    let d := (s.rdN (Addr.shCount sh) + 16777216 - rev) % 16777216
    if d = 0 then some (s.rdN (Addr.shPeriod sh))
    else if 1024 < d then none
    else ((sget {} s.se.shafts sh).hist.find? fun e => e.1 % 16777216 = (rev + 1) % 16777216).map (·.2)

/-- The bin of a period (R222). -/
def State.binOf (s : State) (sh p : Nat) : Option Nat :=
  let e (i : Nat) : Nat := (s.lv (Addr.ixeShEdge (4 * sh + i))).toNat
  if e 3 ≤ p then some 3 else if e 2 ≤ p then some 2 else if e 1 ≤ p then some 1 else if e 0 ≤ p then some 0 else none

/-- The bin of a record of a point. -/
def State.recBin (s : State) (p rev : Nat) : Option Nat :=
  let sh := s.lf (Addr.ixePoint00 p) 9 4
  if sh = 32 then some 0 else (s.recPeriod sh rev).bind (s.binOf sh)

/-! ### Loss of VALID and failure (R228, R235) -/

/-- STALE = 1: flags, histories and INIT of every feature cleared. -/
def State.staleClear (s : State) (p : Nat) : State :=
  (List.range 20).foldl (fun s f =>
    (s.setFld (featAddr p f + 8) 19 16 0).wr (featAddr p f + 12) 0) s

/-- A point loses VALID: its nibble with STALE, in one image write of `src`. -/
def State.ptLapse (s : State) (src : ImgSource) (p : Nat) : State :=
  let nib := if s.ptStale p then 0 else s.nibble p % 8
  let s := s.when (s.ptStale p) (·.staleClear p)
  s.putStatus src [(p, nib)] (s.groupsOf p) [p / 96]

/-- A point is taken out of service (R235). -/
def State.ptFail (s : State) (p : Nat) : State :=
  (((s.setBit (Addr.ixePoint20 p) 7 true).ev 0x0CB p)).ptLapse .ixeRecord p

/-- A profile's page is unrebuildable: every point using it fails. -/
def State.profileFail (s : State) (r : Nat) : State :=
  ((s.enPoints).filter fun p => s.lf (Addr.ixePoint00 p) 17 10 = r && !s.ptFailed p).foldl (fun s p => s.ptFail p) s

/-! ### A record (R216, R217, R224) -/

/-- The codes of a record: 20 of them. -/
def recCode (d : Bytes) (f : Nat) : Nat := field d (8 + 2 * f) 2

/-- The word with a feature's flags read; none when its page cannot be rebuilt. -/
def State.readFlags (s : State) (p f : Nat) : Option State :=
  match s.readBytes .ixe (featAddr p f + 8) 4 with
  | (some _, s) => some s
  | (none, _) => none

/-- One feature read, evaluated and written; none when its page cannot be rebuilt. -/
def State.stepFeature (s : State) (c : RecCtx) (p f code : Nat) : Option State :=
  match s.readBytes .ixe (featAddr p f) 64 with
  | (none, _) => none
  | (some bs, s) =>
    let r := s.lf (Addr.ixePoint00 p) 17 10
    let (x, e) := evalFeature c (s.lv (Addr.ixeProfileAbsAlert r f)).toNat (s.lv (Addr.ixeProfileAbsDanger r f)).toNat
      (featureOf (toWords bs)) code
    let s := s.writeBytes .ixe (featAddr p f) (wordsBytes x.words)
    some (s.when e (·.ev 0x0CA (p + f * 8192 + c.bin.getD 0 * 262144)))

/-- The features of a record from `f` on, those enabled by FEN: evaluated where the record measured them, and their flags
read where it did not (R224, R227); none when a page cannot be rebuilt. -/
def State.stepFeatures (s : State) (c : RecCtx) (p : Nat) (d : Bytes) : Nats → Option State
  | [] => some s
  | f :: fs =>
    if (s.ptFen p).testBit f then
      match if recCode d f = 0xFFFF then s.readFlags p f else s.stepFeature c p f (recCode d f) with
      | some s => s.stepFeatures c p d fs
      | none => none
    else s.stepFeatures c p d fs

/-- The features of a point under FEN whose page cannot be rebuilt. -/
def State.badFeatures (s : State) (p : Nat) : Nats :=
  ((List.range 20).filter fun f => (s.ptFen p).testBit f && (s.readFlags p f).isNone)

/-- Records missed before this one (R217). -/
def State.countGap (s : State) (p gap : Nat) : State :=
  s.when (gap ≠ 0) fun s => ((s.addCnt (Addr.ixePoint38 p) gap).addCnt Addr.ixeMissed gap).ev 0x0C9 p

/-- IXE_RATE over whole seconds of device time, moved on to now. -/
def State.rateRoll (s : State) : State :=
  let w := s.dtime / 1000000000
  if w = s.ixe.rateWin then s
  else
    let r := if w = s.ixe.rateWin + 1 then s.ixe.rateN else 0
    ({ s with ixe := { s.ixe with rateWin := w, rateN := 0 } } : State).wr Addr.ixeRate (BitVec.ofNat 32 r)

/-- The state part of the point record after a record (R224). -/
def State.recWords (s : State) (p : Nat) (d : Bytes) (bin : Option Nat) : Words :=
  let h := field d 0 8
  [setBits (setBits (s.rd (Addr.ixePoint20 p)) 6 4 (bin.getD 4)) 15 8 (h / 2 ^ 13),
   BitVec.ofNat 32 (h / 2 ^ 45), BitVec.ofNat 32 (h / 2 ^ 21 % 2 ^ 24), BitVec.ofNat 32 s.dtime,
   BitVec.ofNat 32 (s.dtime / 2 ^ 32), BitVec.ofNat 32 (satAdd (s.rdN (Addr.ixePoint34 p)) 1 0xFFFFFFFF),
   s.rd (Addr.ixePoint38 p), 0]

/-- An accepted record evaluated (R224), `gap` records after the last one; the averages start afresh when VALID was 0. A
record dropped over a page that cannot be rebuilt counts nothing (R235). -/
def State.evalRecord (s : State) (p : Nat) (r : IxeRec) (gap : Nat) : State :=
  let last := s.rdN (Addr.ixePoint2c p) + s.rdN (Addr.ixePoint30 p) * 2 ^ 32
  let dt := if s.ptValid p then min ((s.dtime - last) / 1000) 16777215 else 0
  let prof := s.lf (Addr.ixePoint00 p) 17 10
  let bin := s.recBin p (field r.data 0 8 / 2 ^ 21 % 2 ^ 24)
  let c : RecCtx := ⟨gDiv (gOf dt) (gOf 1000000), bin, s.lf (Addr.ixePoint00 p) 2 1, s.lf (Addr.ixePoint0c p) 15 0,
    s.lf (Addr.ixePoint18 p) 23 0, (s.lv (Addr.ixePoint10 p)).toNat, (s.lv (Addr.ixePoint14 p)).toNat, s.limits prof⟩
  match s.readBytes .ixe (Addr.ixeProfile00 prof) 256 with
  | (none, s) => s.profileFail prof
  | (some _, s) =>
    match (s.countGap p gap).stepFeatures c p r.data (List.range 20) with
    | none => (s.unrebRead .ixe (featAddr p ((s.badFeatures p).headD 0))).ptFail p
    | some s =>
      let s := (s.inc Addr.ixeRecords).when bin.isNone fun s => s.inc Addr.ixeNobin
      let s := s.rateRoll
      let s := { s with ixe := { s.ixe with rateN := s.ixe.rateN + 1, anySeq := s.ixe.anySeq.filter (· ≠ p) } }
      let s := s.writeBytes .ixe (Addr.ixePoint20 p) (wordsBytes (s.recWords p r.data bin))
      let s := if s.ixe.lapsed.contains p then
          ({ s with ixe := { s.ixe with lapsed := s.ixe.lapsed.filter (· ≠ p) } } : State).ev 0x0C5 p
        else s
      let nib := 8 + s.featureFlags p
      if s.nibble p = nib then s.setLat r.t else s.putStatus .ixeRecord [(p, nib)] (s.groupsOf p) [] (some r.t)

/-- A record through the checks of R216. -/
def State.takeRecord (s : State) (r : IxeRec) : State :=
  let h := field r.data 0 8
  let p := h % 8192
  if !s.ixeRuns || 6143 < p || !s.ptEn p || s.ptFailed p then s.inc Addr.ixeDropUnmap
  else match s.readBytes .ixe (Addr.ixePoint00 p) 64 with
    | (none, s) => s.ptFail p
    | (some _, s) =>
      if s.lf (Addr.ixePoint08 p) 3 0 ≠ r.port || s.lf (Addr.ixePoint08 p) 10 4 ≠ r.stn then
        (s.inc Addr.ixeDropSrc).ev 0x0C8 (p + r.port * 65536 + r.stn * 2 ^ 20)
      else
        let fresh := !s.ptValid p || s.ixe.anySeq.contains p
        let d := (h / 2 ^ 13 % 256 + 256 - s.fld (Addr.ixePoint20 p) 15 8) % 256
        if !fresh && (d = 0 || 128 ≤ d) then s.inc Addr.ixeDropSeq
        else s.evalRecord p r (if fresh then 0 else d - 1)

/-- A record pushed into the input queue (R215), with QMAX. -/
def State.ixePush (s : State) (r : IxeRec) : State :=
  let s := { s with ixe := { s.ixe with inq := s.ixe.inq ++ [r] } }
  s.setFld Addr.ixeStat 31 16 (max (s.fld Addr.ixeStat 31 16) s.ixe.inq.length)

/-- IXE_RECORD (R216). -/
def execIxeRecord (t : Nat) (s : State) : Host.Outcome State Fault Refusal :=
  let s := s.at t
  .next <| match s.ixe.inq with
    | r :: rest => ({ s with ixe := { s.ixe with inq := rest } } : State).takeRecord r
    | [] => s

/-- The points whose TIMEOUT has passed (R228). -/
def State.timedOut (s : State) : Nats :=
  s.enPoints.filter fun p =>
    let lim := s.lf (Addr.ixePoint0c p) 31 16
    s.ptValid p && lim ≠ 0 && s.rdN (Addr.ixePoint2c p) + s.rdN (Addr.ixePoint30 p) * 2 ^ 32 + lim * 1000000 ≤ s.dtime

/-- IXE_TIMEOUT_CHECK (R228), in STOP, RUN and HOLD. -/
def execIxeTimeoutCheck (t : Nat) (s : State) : Host.Outcome State Fault Refusal :=
  let s := s.at t
  .next <|
    if s.op = .stop || s.op = .run || s.op = .hold then
      s.timedOut.foldl (fun s p =>
        ((({ s with ixe := { s.ixe with lapsed := p :: s.ixe.lapsed } } : State).ev 0x0C4 p)).ptLapse .ixeTimeout p) s
    else s

/-! ### Commit (R233, R234) -/

/-- A binary32 value that is neither NaN nor infinite nor negative. -/
def finNonNeg (x : Nat) : Bool := !fIsNan f32 x && !fIsInf f32 x && !fLt f32 x 0

/-- Offending words of a point record. -/
def pointFails (m : Sparse Word) (p : Nat) : Nats :=
  let en : Bool := sf m (Addr.ixePoint00 p) 0 0 = 1
  let mode := sf m (Addr.ixePoint00 p) 2 1
  let nmin := sf m (Addr.ixePoint0c p) 15 0
  (if mode = 3 || 32 < sf m (Addr.ixePoint00 p) 9 4 then [Addr.ixePoint00 p] else []) ++
  (if en && sf m (Addr.ixePoint04 p) 19 0 = 0 then [Addr.ixePoint04 p] else []) ++
  (if 95 < sf m (Addr.ixePoint08 p) 10 4 then [Addr.ixePoint08 p] else []) ++
  (if en && nmin < 32 then [Addr.ixePoint0c p] else []) ++
  (if en && !finNonNeg (sv m (Addr.ixePoint10 p)).toNat then [Addr.ixePoint10 p] else []) ++
  (if en && !finNonNeg (sv m (Addr.ixePoint14 p)).toNat then [Addr.ixePoint14 p] else []) ++
  (if en && mode = 2 && sf m (Addr.ixePoint18 p) 23 0 < nmin then [Addr.ixePoint18 p] else [])

/-- Offending words of a profile that an enabled point uses (R226). -/
def profileFails (m : Sparse Word) (r : Nat) : Nats :=
  let n := sf m (Addr.ixeProfile00 r) 4 0
  let k := sf m (Addr.ixeProfile00 r) 12 8
  let v (a : Nat) : Nat := (sv m a).toNat
  let neg (a : Nat) : Bool := fIsNan f32 (v a) || fLt f32 (v a) 0
  (if n = 0 || 16 < n || k = 0 || n < k then [Addr.ixeProfile00 r] else []) ++
  ([Addr.ixeProfile04 r, Addr.ixeProfile10 r, Addr.ixeProfile18 r].filter neg) ++
  ([Addr.ixeProfile08 r, Addr.ixeProfile0c r, Addr.ixeProfile14 r].filter fun a => fIsNan f32 (v a)) ++
  (if fIsNan f32 (v (Addr.ixeProfile1c r)) || !fLt f32 0 (v (Addr.ixeProfile1c r)) then [Addr.ixeProfile1c r] else []) ++
  ((List.range 20).flatMap fun f => [Addr.ixeProfileAbsAlert r f, Addr.ixeProfileAbsDanger r f]).filter fun a => fIsNan f32 (v a)

/-- The members of a group of a staged map. -/
def stagedMembers (m : Sparse Word) (v : Nat) : Nats :=
  (List.range (min (sf m (Addr.ixeVote00 v) 3 0) 8)).map (memberIn (sv m) v)

/-- Offending words of a vote group (R231): its own fields. -/
def groupFails (m : Sparse Word) (v : Nat) : Nats :=
  let n := sf m (Addr.ixeVote00 v) 3 0
  let k := sf m (Addr.ixeVote00 v) 7 4
  let ms := stagedMembers m v
  (if 8 < n || sf m (Addr.ixeVote00 v) 9 8 = 3 || (n ≠ 0 && (k = 0 || n < k)) then [Addr.ixeVote00 v] else []) ++
  ((List.range ms.length).filter fun i => 6143 < ms.getD i 0 || (ms.take i).contains (ms.getD i 0)).map
    fun i => Addr.ixeVoteMembers v (i / 2)

/-- Offending words of members in a ninth enabled group (R232). -/
def ninthFails (m : Sparse Word) : Nats :=
  let gs := groupsIn m
  gs.flatMap fun v =>
    let ms := stagedMembers m v
    ((List.range ms.length).filter fun i =>
      8 ≤ ((gs.filter (· < v)).filter fun u => (stagedMembers m u).contains (ms.getD i 0)).length).map
        fun i => Addr.ixeVoteMembers v (i / 2)

/-- Offending edges: an edge below the one before it. -/
def edgeFails (m : Sparse Word) : Nats :=
  (List.range 32).flatMap fun sh => ((List.range 3).filter fun e =>
    (sv m (Addr.ixeShEdge (4 * sh + e + 1))).toNat < (sv m (Addr.ixeShEdge (4 * sh + e))).toNat).map
      fun e => Addr.ixeShEdge (4 * sh + e + 1)

/-- The group word of every vote group a map lists, whatever its NMEM. -/
def groupWords (m : Sparse Word) : Nats :=
  ((m.filter fun e => 0x307F0000 ≤ e.1 && e.1 < 0x307F8000).map fun e => (e.1 - 0x307F0000) / 32).dedup

/-- The IXE group is rejected at an address, or not at all (R233). -/
def ixeCheck (m : Sparse Word) : Option Nat :=
  let ps := pointsIn m
  let used := ((ps.filter fun p => sf m (Addr.ixePoint00 p) 0 0 = 1).map fun p => sf m (Addr.ixePoint00 p) 17 10).dedup
  lowest (edgeFails m ++ ps.flatMap (pointFails m) ++ used.flatMap (profileFails m) ++
    (groupWords m).flatMap (groupFails m) ++ ninthFails m)

/-- What an IXE commit does once the new configuration is in force (R234); `old`: the one before. A point whose flags are
on a page that cannot be rebuilt fails (R235). -/
def State.ixeApply (s : State) (old : Sparse Word) : State :=
  let ps := (pointsIn old ++ pointsIn s.live).dedup
  let was (p : Nat) : Bool := sf old (Addr.ixePoint00 p) 0 0 = 1
  let fresh := ps.filter fun p => s.ptEn p && (!was p || s.ptFailed p || sf old (Addr.ixePoint08 p) 10 0 ≠ s.lf (Addr.ixePoint08 p) 10 0)
  let off := ps.filter fun p => was p && !s.ptEn p
  let s := { s with ixe := { s.ixe with
    anySeq := (s.ixe.anySeq ++ fresh).dedup, voteHeld := [],
    lapsed := s.ixe.lapsed.filter fun p => was p && s.ptEn p } }
  let s := (ps.filter s.ptFailed).foldl (fun s p => s.setBit (Addr.ixePoint20 p) 7 false) s
  let bad := ps.filter fun p => s.ptEn p && !(s.badFeatures p).isEmpty
  let nibs := (ps.filter fun p => !bad.contains p).map fun p =>
    (p, if !s.ptEn p then 0 else s.featureFlags p + (if was p then s.nibble p / 8 * 8 else 0))
  let gs := (groupsIn old ++ groupsIn s.live).dedup
  let s := s.putStatus .ixeRecord nibs gs ((fresh ++ off).map (· / 96))
  bad.foldl (fun s p => (s.unrebRead .ixe (featAddr p ((s.badFeatures p).headD 0))).ptFail p) s

/-! ### Registers and opcodes (R237, R238) -/

/-- The counters 0x010 to 0x028. -/
def ixeCounters : Nats :=
  [Addr.ixeRecords, Addr.ixeDropFmt, Addr.ixeDropUnmap, Addr.ixeDropSrc, Addr.ixeDropSeq, Addr.ixeMissed, Addr.ixeNobin]

/-- A write to IXE_CLR. -/
def State.ixeClr (s : State) (v : Word) : State :=
  s.when (v.getLsbD 0) fun s => (s.clearAll (Addr.ixeLat :: ixeCounters)).setFld Addr.ixeStat 31 16 0

/-- IXE_CLR. -/
def execIxeClr (v : Word) (s : State) : Host.Outcome State Fault Refusal := .next (s.ixeClr v)

/-- IXE_STAT as it reads. -/
def State.ixeStatReg (s : State) : Word := setBits (s.rd Addr.ixeStat) 0 0 (b2n s.ixeRuns)

/-- IXE_RATE as it reads. -/
def State.ixeRateReg (s : State) : Word := s.rateRoll.rd Addr.ixeRate

/-- IXE_STATUS_READ. -/
def cmdIxeStatusRead (q : Req) (p : Bytes) (s : State) : State :=
  s.startLen 0x0300 2 q p fun s =>
    let f := (p.getD 0 0).toNat
    let n := (p.getD 1 0).toNat
    if 63 < f || 63 < n || 64 < f + n then s.fail q 0x0300 0x11
    else s.ok q 0x0300 (memBytes s.inImg (statusLine f) (64 * n))

/-- IXE_POINT_READ. -/
def cmdIxePointRead (q : Req) (p : Bytes) (s : State) : State :=
  s.startLen 0x0301 2 q p fun s =>
    let n := field p 0 2
    if 6143 < n then s.fail q 0x0301 0x11
    else
      let cfg := (List.range 8).flatMap fun i => wordBytes (s.lv (Addr.ixePoint00 n + 4 * i))
      match s.readBytes .mgcCommand (Addr.ixePoint20 n) 32 with
      | (none, s) => s.reply q 0x0301 0x0850 []
      | (some st, s) =>
        match s.readBytes .mgcCommand (featAddr n 0) 1280 with
        | (none, s) => s.reply q 0x0301 0x0850 []
        | (some fs, s) => s.ok q 0x0301 (cfg ++ st ++ fs)

/-- A word of the state memory written by an opcode. -/
def State.ixePut (s : State) (a : Nat) (w : Word) : State := s.writeBytes .mgcCommand a (wordBytes w)

/-- A bin of a feature written. -/
def State.ixePutBin (s : State) (p f b : Nat) (mean m2 n : Word) : State :=
  let a := featAddr p f + 16 + 12 * b
  ((s.ixePut a mean).ixePut (a + 4) m2).ixePut (a + 8) n

/-- IXE_BASELINE_RESET. -/
def cmdIxeBaselineReset (q : Req) (p : Bytes) (s : State) : State :=
  s.startLen 0x0302 8 q p fun s =>
    let n := field p 0 2
    if 6143 < n then s.fail q 0x0302 0x11
    else if s.ptEn n then s.fail q 0x0302 0x20
    else
      let fs := (List.range 20).filter (field p 4 4).testBit
      let bs := (List.range 4).filter ((p.getD 2 0).toNat).testBit
      (fs.foldl (fun s f => bs.foldl (fun s b => s.ixePutBin n f b 0 0 0) s) s).ok q 0x0302

/-- IXE_BASELINE_LOAD. -/
def cmdIxeBaselineLoad (q : Req) (p : Bytes) (s : State) : State :=
  s.startLen 0x0303 16 q p fun s =>
    let n := field p 0 2
    let f := (p.getD 2 0).toNat
    let b := (p.getD 3 0).toNat
    let mean := field p 4 4
    let m2 := field p 8 4
    if 6143 < n || 19 < f || 3 < b || 16777215 < field p 12 4 || fIsNan f32 mean || fIsInf f32 mean || !finNonNeg m2 then
      s.fail q 0x0303 0x11
    else if s.ptEn n then s.fail q 0x0303 0x20
    else (s.ixePutBin n f b (wordAt p 4) (wordAt p 8) (wordAt p 12)).ok q 0x0303

/-- IXE_STATE_CLEAR. -/
def cmdIxeStateClear (q : Req) (p : Bytes) (s : State) : State :=
  s.startLen 0x0304 2 q p fun s =>
    let n := field p 0 2
    if 6143 < n then s.fail q 0x0304 0x11
    else if s.ptEn n then s.fail q 0x0304 0x20
    else ((List.range 20).foldl (fun s f =>
      s.writeBytes .mgcCommand (featAddr n f) (wordsBytes [0, 0, 0xFFFF, 0])) s).ok q 0x0304

/-- IXE_COUNTERS. -/
def cmdIxeCounters (q : Req) (p : Bytes) (s : State) : State :=
  s.startLen 0x0305 1 q p fun s =>
    let d := ixeCounters.flatMap fun a => wordBytes (s.rd a)
    (s.when ((p.getD 0 0).getLsbD 0) (·.clearAll ixeCounters)).ok q 0x0305 d

/-- IXE_STATUS_READ. -/
def execIxeStatusRead (q : Req) (p : Bytes) (s : State) : Host.Outcome State Fault Refusal := .next (cmdIxeStatusRead q p s)
/-- IXE_POINT_READ. -/
def execIxePointRead (q : Req) (p : Bytes) (s : State) : Host.Outcome State Fault Refusal := .next (cmdIxePointRead q p s)
/-- IXE_BASELINE_RESET. -/
def execIxeBaselineReset (q : Req) (p : Bytes) (s : State) : Host.Outcome State Fault Refusal :=
  .next (cmdIxeBaselineReset q p s)
/-- IXE_BASELINE_LOAD. -/
def execIxeBaselineLoad (q : Req) (p : Bytes) (s : State) : Host.Outcome State Fault Refusal :=
  .next (cmdIxeBaselineLoad q p s)
/-- IXE_STATE_CLEAR. -/
def execIxeStateClear (q : Req) (p : Bytes) (s : State) : Host.Outcome State Fault Refusal := .next (cmdIxeStateClear q p s)
/-- IXE_COUNTERS. -/
def execIxeCounters (q : Req) (p : Bytes) (s : State) : Host.Outcome State Fault Refusal := .next (cmdIxeCounters q p s)

end Sys2Proof.Machine
end

