-- ==== Sys2Proof/Machine/Stn.lean ====
section
/-! DEFINITION. The station table: frames from stations, the status image, management exchanges, joining,
keepalive and loss, station mode, and the STN opcodes (R299 to R325, R327 to R329, R642). -/

namespace Sys2Proof.Machine

/-- Station `k` = 96 × port + station. -/
def State.station (s : State) (k : Nat) : Stn := sget {} s.stn k
/-- Station `k` replaced. -/
def State.setStation (s : State) (k : Nat) (x : Stn) : State := { s with stn := sput {} s.stn k x }
/-- Station `k` changed by `f`. -/
def State.onStn (s : State) (k : Nat) (f : Stn → Stn) : State := s.setStation k (f (s.station k))

/-! ### Entries (R325) -/

/-- EN in force. -/
def State.stnEn (s : State) (k : Nat) : Bool := s.lf (Addr.stnEntryW0 k) 0 0 = 1
/-- STATE of an entry: 0 DISABLED, 1 ABSENT, 2 CAPREAD, 3 CLAIM, 4 WAITFIRST, 5 ACTIVE, 6 LOST, 7 REJECTED. -/
def State.stnState (s : State) (k : Nat) : Nat := s.fld (Addr.stnEntryW5 k) 2 0
/-- LOSSN in force. -/
def State.lossN (s : State) (k : Nat) : Nat := s.lf (Addr.stnEntryW0 k) 7 4
/-- INLEN in force. -/
def State.inLen (s : State) (k : Nat) : Nat := s.lf (Addr.stnEntryW0 k) 14 8
/-- INOFF in force. -/
def State.inOff (s : State) (k : Nat) : Nat := s.lf (Addr.stnEntryW0 k) 31 16
/-- KAPER in force, in ms. -/
def State.kaper (s : State) (k : Nat) : Nat := s.lf (Addr.stnEntryW3 k) 15 0

/-- An STN event: port and station (R329). -/
def State.stnEv (s : State) (code k : Nat) (extra : Nat := 0) : State := s.ev code (k / 96 + k % 96 * 256 + extra)

/-- The status image cells of a station and the port summary (R308). -/
def State.stnCells (s : State) (k : Nat) : ImgCells :=
  let n := k / 96
  let i := k % 96
  let a := stnImg n + i / 8
  [bitCell a (i % 8) (s.station k).lost, bitCell (a + 12) (i % 8) (s.stnState k = 5),
   bitCell (a + 24) (i % 8) (s.stnState k = 7), s.portSummary n]

/-- STNSYNC of a PRIMARY for a change of STATE or JOINS (R399). -/
def State.stnSync (s : State) (k : Nat) : State :=
  s.when (s.role = .primary) (·.twlSend (.stnsync (k / 96) (k % 96) (s.rd (Addr.stnEntryW5 k)) (s.rd (Addr.stnEntryW6 k))))

/-- STATE changed, with what the image shows of it and the data cells of the change as one write (R308). -/
def State.stnSet (s : State) (k st : Nat) (data : ImgCells := []) (loss : Option (Nat × Nat) := none) : State :=
  let s := s.setFld (Addr.stnEntryW5 k) 2 0 st
  let s := s.when (st = 4) (·.onStn k fun x => { x with first := s.utick })
  (s.imgWrite { src := .stn (k / 96), cells := data ++ s.stnCells k, lost := loss }).stnSync k

/-! ### Management exchanges (R310 to R312) -/

/-- A class M frame of the STN placed on the port in place of an earlier one; the port ignores it when it is
not in NORMAL (R263). -/
def State.stnFrameOut (s : State) (n b id : Nat) (d : Bytes) : State :=
  if s.fbpMode n ≠ 1 then s.inc (Addr.fbpReqIgn n)
  else
    let dlc := dlcFor d.length
    let f : TxFrm := { m := true, id := s.unitId n false id, fdf := true, brs := true, dlc := dlc, data := slice d 0 (dlcBytes true dlc) }
    match (s.txf n b).st with
    | 2 => s.onPort n fun x => { x with load := sput {} x.load b f, late := b :: x.late }
    | _ => s.placeTx n b f

/-- The request of the exchange sent, with the next sequence number of its stream; a PRIMARY hands it to its
twin first (R303, R388). A port that is not in NORMAL takes no frame, and no number is used up. -/
def State.mgmtSend (s : State) (k : Nat) (x : Mgmt) : State :=
  let n := k / 96
  let stn := k % 96
  let id := 5 * 256 + stn * 2
  let body := [BitVec.ofNat 8 x.op, BitVec.ofNat 8 x.tok, 0, 0] ++ x.params
  let seq := s.fld (Addr.stnEntryW6 k) 31 16
  let go : Bool := s.fbpMode n = 1
  let s := s.when (go && s.role = .primary) (·.twlSend (.req n stn (BitVec.ofNat 8 x.tok) seq body))
  let h := s.twinHead n id
  let s := (s.when go (·.seqTaken n id)).stnFrameOut n (128 + stn) id (h ++ body)
  s.onStn k fun y => { y with x := some { x with tries := x.tries + 1, t := s.utick } }

/-- A new request of a station: the next TOKEN (R312). -/
def State.mgmtStart (s : State) (k op : Nat) (params : Bytes) (host : Bool) : State :=
  let tok := (s.station k).tok
  let s := s.onStn k fun y => { y with tok := (tok + 1) % 256 }
  s.mgmtSend k ⟨op, tok, params, 0, s.utick, host⟩

/-- The notice of STN_MGMT (R328). -/
def State.mgmtNotice (s : State) (k : Nat) (answered : Bool) (rstat : Nat) (d : Bytes) : State :=
  match (s.longsOf 0x0502).find? fun l => l.args = [k] with
  | some l => s.notice l 0x0500 ([BitVec.ofNat 8 (b2n answered), BitVec.ofNat 8 rstat, 0, 0] ++ d)
  | none => s

/-! ### Station images (R554 to R556) -/

/-- A field of manifest entry `i` of the staged package. -/
def State.imgField (s : State) (i off n : Nat) : Nat := field (s.fwu.head.getD []) (64 + 64 * i + off) n

/-- Parameters of the operation of a job (R554). -/
def State.imgParams (s : State) (j : ImgJob) : Bytes :=
  let digest := slice (s.fwu.head.getD []) (64 + 64 * j.entry + 32) 32
  match j.op with
  | 0x40 => leBytes 4 (s.imgField j.entry 12 4) ++ leBytes 4 (s.imgField j.entry 8 4) ++ digest
  | 0x41 =>
    let part := (s.fwu.data.drop (s.imgField j.entry 16 4)).take (s.imgField j.entry 12 4)
    leBytes 4 j.off ++ slice part j.off 52
  | 0x43 => digest
  | _ => []

/-- The first job of a port starts its operation, once its station has no exchange running (R555). -/
def State.imgNext (s : State) (n : Nat) : State :=
  match s.fwu.jobs.find? fun j => j.k / 96 = n with
  | some j => if (s.station j.k).x.isNone then s.mgmtStart j.k j.op (s.imgParams j) false else s
  | none => s

/-- A job has ended (R555, R556); the last of an activation ends UPD_STATION_ACTIVATE. -/
def State.imgEnd (s : State) (j : ImgJob) (good : Bool) : State :=
  let act : Bool := j.op = 0x43
  let f := s.fwu
  let s : State := { s with fwu := { f with
    jobs := f.jobs.filter (· ≠ j),
    staged := f.staged + b2n (good && !act), failed := f.failed + b2n (!good && !act),
    acted := f.acted + b2n (good && act), refused := f.refused + b2n (!good && act) } }
  let d := j.k / 96 + j.k % 96 * 256
  let s := if act then s.when good (·.ev 0x30F d) else s.ev (if good then 0x30D else 0x30E) d
  if act && s.fwu.jobs.isEmpty then
    s.noticeAll 0x0C08 0x0C00 (leBytes 2 s.fwu.acted ++ leBytes 2 s.fwu.refused)
  else s.imgNext (j.k / 96)

/-- The job that a station's exchange serves. -/
def State.imgJob (s : State) (k : Nat) (x : Mgmt) : Option ImgJob := s.fwu.jobs.find? fun j => j.k = k && j.op = x.op

/-- The job of an exchange that got no answer, or was dropped, has failed. -/
def State.imgLost (s : State) (k : Nat) (x : Mgmt) : State :=
  match s.imgJob k x with
  | some j => s.imgEnd j false
  | none => s

/-- A response to an image operation (R554, R555). -/
def State.imgStep (s : State) (k : Nat) (x : Mgmt) (rstat : Nat) (d : Bytes) : State :=
  match s.imgJob k x with
  | none => s
  | some j =>
    let go (op off : Nat) : State :=
      let s : State := { s with fwu := { s.fwu with jobs := s.fwu.jobs.map fun y => if y = j then { j with op := op, off := off } else y } }
      s.imgNext (k / 96)
    if rstat ≠ 0 then s.imgEnd j false
    else if j.op = 0x40 then go 0x41 0
    else if j.op = 0x41 then
      if s.imgField j.entry 12 4 ≤ j.off + 52 then go 0x42 0 else go 0x41 (j.off + 52)
    else s.imgEnd j (decide (j.op = 0x43) || decide (d.getD 0 0 = 1))

/-- The exchange of a station is dropped; one of the host ends as not answered. -/
def State.mgmtDrop (s : State) (k : Nat) : State :=
  match (s.station k).x with
  | none => s
  | some x =>
    let s := (s.onStn k fun y => { y with x := none }).txCancel (k / 96) (128 + k % 96) 4
    if x.host then s.mgmtNotice k false 0 [] else if 0x40 ≤ x.op then s.imgLost k x else s

/-- RSPT in ns (R312). -/
def State.rspt (s : State) (n : Nat) : Nat := if s.ncyc n = 0 then 20000000 else max (4 * s.bclenNs n) 20000000

/-! ### Joining (R314, R315, R642) -/

/-- The windows of a station for CLAIM_SET, in START order: EXCLUSIVE-RX, then ARBITRATING, up to 6. -/
def State.claimEntries (s : State) (k : Nat) : List Bytes :=
  let n := k / 96
  let stn := k % 96
  let log2 (v : Nat) : Nat := Nat.log2 v
  let ent (w : Win) (perx first : Nat) : Bytes :=
    leBytes 2 w.start ++ leBytes 2 w.len ++ [BitVec.ofNat 8 w.ty, BitVec.ofNat 8 perx, BitVec.ofNat 8 first, 0]
  if s.ncyc n = 0 then []
  else
    let rx := (s.wins n).filter fun w => w.ty = 3 && w.obj ≤ stn && stn < w.obj + max w.rotn 1
    let arb := (s.wins n).filter fun w => w.ty = 4
    ((rx.map fun w => if 1 < w.rotn then ent w (log2 (w.rep * w.rotn)) (w.base + w.rep * (stn - w.obj)) else ent w (log2 w.rep) w.base) ++
     (arb.map fun w => ent w (log2 w.rep) w.base)).take 6

/-- The CLAIM_SET parameters (R311). -/
def State.claimParams (s : State) (k : Nat) : Bytes :=
  let n := k / 96
  let es := s.claimEntries k
  leBytes 2 (s.lf (Addr.stnEntryW1 k) 28 16) ++ leBytes 2 (s.kaper k) ++
    leBytes 2 (if s.ncyc n = 0 then 0 else s.bclenNs n / 1000) ++ [BitVec.ofNat 8 (s.ncyc n), BitVec.ofNat 8 es.length] ++ es.flatten

/-- REASON of a capability record, 0 for none (R315). -/
def State.capReason (s : State) (k : Nat) (r : Bytes) : Nat :=
  let n := k / 96
  let w4 := s.lv (Addr.stnEntryW4 k)
  let v := bitsOf w4 15 0
  let pr := bitsOf w4 31 16
  if field r 0 2 ≠ 1 then 1
  else if (v ≠ 0 && field r 2 2 ≠ v) || (pr ≠ 0 && field r 4 2 ≠ pr) then 2
  else if field r 18 1 ≠ s.inLen k then 3
  else if field r 19 1 ≠ s.lf (Addr.stnEntryW1 k) 6 0 then 4
  else if field r 17 1 ≠ s.lf (Addr.stnEntryW1 k) 10 8 then 5
  else if field r 20 2 < s.lf (Addr.stnEntryW3 k) 31 16 then 6
  else if s.ncyc n ≠ 0 && s.bclenNs n / 1000 < field r 22 2 then 7
  else 0

/-- Joins run: SOLO or PRIMARY, out of BOOT and RECOVERY, JOINEN, a head-end port (R314). Where they
do not, no step of a join moves an entry (R314, R327; log entry 121). -/
def State.joinsRun (s : State) (n : Nat) : Bool :=
  (s.role = .solo || s.role = .primary) && s.op ≠ .boot && s.op ≠ .recovery && s.lf (Addr.stnPctrl n) 8 8 = 1 && !s.stnMode n

/-- A join step failed (R314): ABSENT; without an answer EV 0x144. An unanswered poll leaves LOST as it is. -/
def State.joinFailStep (s : State) (k : Nat) (answered : Bool) : State :=
  if s.stnState k = 6 then s
  else
    let s := s.stnSet k 1
    s.when (!answered) (·.stnEv 0x144 k)

/-- A step of the join that has got its response. -/
def State.joinStep (s : State) (k : Nat) (x : Mgmt) (rstat : Nat) (d : Bytes) : State :=
  let st := s.stnState k
  if rstat ≠ 0 then s.joinFailStep k true
  else if (st = 1 || st = 6) && x.op = 1 then
    let s := s.onStn k fun y => { y with cap0 := slice d 0 48, hello := false }
    (s.stnSet k 2).mgmtStart k 1 [1] false
  else if st = 2 && x.op = 1 then
    let r := s.capReason k (s.station k).cap0
    if r ≠ 0 then ((s.setFld (Addr.stnEntryW5 k) 11 8 r).stnSet k 7).stnEv 0x143 k (r * 65536)
    else
      let s := s.stnSet k 3
      s.mgmtStart k 2 (s.claimParams k) false
  else if st = 3 && x.op = 2 then s.stnSet k 4
  else s

/-- The exchange is a step of a join: CAP_READ or CLAIM_SET of the STN itself. -/
def Mgmt.joins (x : Mgmt) : Bool := !x.host && (x.op = 1 || x.op = 2)

/-- A class 6 response (R310 to R312): dropped without a matching request. While joins do not run, a step of a join
stays as it is, and its time-out comes when they run again (R327). -/
def State.response (s : State) (k : Nat) (d : Bytes) : State :=
  match (s.station k).x with
  | none => s
  | some x =>
    if d.length < 4 || field d 0 1 ≠ x.op || field d 1 1 ≠ x.tok then s
    else
      let rs := field d 2 1
      let rstat := if 3 < rs then 2 else rs
      if x.joins && !s.joinsRun (k / 96) then s else
      let s := (s.onStn k fun y => { y with x := none }).txCancel (k / 96) (128 + k % 96) 4
      if x.host then (s.mgmtNotice k true rstat (d.drop 4)).imgNext (k / 96)
      else if 0x40 ≤ x.op then s.imgStep k x rstat (d.drop 4)
      else s.joinStep k x rstat (d.drop 4)

/-- MGMT_RESPONSE_TIMEOUT (R312, R314): a repeat, or the exchange ends without an answer. -/
def execMgmtResponseTimeout (port stn t : Nat) (s : State) : Host.Outcome State Fault Refusal :=
  let s := s.at t
  let k := 96 * port + stn
  .next <| match (s.station k).x with
    | none => s
    | some x =>
      if 15 < port || 95 < stn || 10 * s.utick < 10 * x.t + s.rspt port || (x.joins && !s.joinsRun port) then s
      else if x.tries < 3 then s.mgmtSend k x
      else
        let s := (s.onStn k fun y => { y with x := none }).txCancel port (128 + stn) 4
        if x.host then (s.mgmtNotice k false 0 []).imgNext port
        else if 0x40 ≤ x.op then s.imgLost k x
        else if x.op = 3 then s
        else s.joinFailStep k false

/-- JOIN_POLL (R314): once per second, or after a HELLO. -/
def execJoinPoll (port stn t : Nat) (s : State) : Host.Outcome State Fault Refusal :=
  let s := s.at t
  let k := 96 * port + stn
  let x := s.station k
  .next <|
    if port < 16 && stn < 96 && s.joinsRun port && s.stnEn k && (s.stnState k = 1 || s.stnState k = 6) && x.x.isNone &&
        (x.hello || x.due ≤ s.utick) then
      (s.onStn k fun y => { y with hello := false, due := s.utick + 100000000 }).mgmtStart k 1 [0] false
    else s

/-- The WAITFIRST timeout in ns: the longest of two matrix cycles, 2 × KAPER and 100 ms (R314). -/
def State.waitFirst (s : State) (k : Nat) : Nat :=
  max (max (2 * s.ncyc (k / 96) * s.bclenNs (k / 96)) (2 * s.kaper k * 1000000)) 100000000

/-- WAITFIRST_TIMEOUT (R314). -/
def execWaitfirstTimeout (port : Nat) (stn : Timed Nat) (s : State) : Host.Outcome State Fault Refusal :=
  let s := s.at stn.t
  let k := 96 * port + stn.val
  .next <|
    if port < 16 && stn.val < 96 && s.joinsRun port && s.stnState k = 4 && s.waitFirst k ≤ 10 * (s.utick - (s.station k).first) then
      (s.stnSet k 1).stnEv 0x147 k
    else s

/-! ### Loss and return (R316 to R319) -/

/-- The station has an EXCLUSIVE-RX occurrence in the timetable in force. -/
def State.hasRx (s : State) (k : Nat) : Bool :=
  s.ncyc (k / 96) ≠ 0 && (s.wins (k / 96)).any fun w => w.ty = 3 && w.obj ≤ k % 96 && k % 96 < w.obj + max w.rotn 1

/-- The substitute values as cells (R318): the last received bytes stand in the image. A DM page that cannot be
read gives zeros. -/
def State.substitutes (s : State) (k : Nat) : ImgCells × State :=
  let n := s.inLen k
  match s.lf (Addr.stnEntryW0 k) 2 1 with
  | 0 => ([], s)
  | 1 => (cellsOf (s.inOff k) (List.replicate n 0), s)
  | _ =>
    match s.dmRead (.fbp (k / 96) 0) (s.lf (Addr.stnEntryW2 k) 22 0) n with
    | (some bs, s) => (cellsOf (s.inOff k) bs, s)
    | (none, s) => (cellsOf (s.inOff k) (List.replicate n 0), s)

/-- The station is LOST (R110, R318). -/
def State.stnLose (s : State) (k : Nat) : State :=
  let (cs, s) := s.substitutes k
  let s := s.onStn k fun y => { y with lost := true }
  let s := ((s.incFld (Addr.stnEntryW7 k) 15 0).inc (Addr.stnLosses (k / 96))).stnEv 0x140 k
  s.stnSet k 6 cs (some (k / 96, k % 96))

/-- A miss or a hit counted; LOST when MISS reaches LOSSN. -/
def State.stnMiss (s : State) (k : Nat) (hit : Bool) : State :=
  if s.stnState k ≠ 5 || s.lossN k = 0 then s
  else
    let m := if hit then 0 else satAdd (s.fld (Addr.stnEntryW5 k) 7 4) 1 15
    let s := s.setFld (Addr.stnEntryW5 k) 7 4 m
    if m = s.lossN k then s.stnLose k else s

/-- The station becomes ACTIVE from WAITFIRST, or returns from LOST, with the data of its frame in the same
image write (R314, R319). -/
def State.stnActive (s : State) (k : Nat) (data : ImgCells) : State :=
  let back : Bool := s.stnState k = 6
  let s := (s.onStn k fun y => { y with lost := false }).setFld (Addr.stnEntryW5 k) 7 4 0
  let s := if back then s.stnEv 0x141 k else (s.incFld (Addr.stnEntryW5 k) 31 16).stnEv 0x142 k
  s.stnSet k 5 data

/-- A frame of a station with its data cells: `first`: it ends WAITFIRST where joins run (R314), `expected`: it counts
under R316, `inWin`: in a window of the station, which brings a LOST station back (R319). -/
def State.stnArrive (s : State) (k : Nat) (first expected inWin : Bool) (data : ImgCells) : State :=
  let st := s.stnState k
  let s := if (st = 4 && first && s.joinsRun (k / 96)) || (st = 6 && inWin) then s.stnActive k data
    else if data.isEmpty then s else s.imgWrite { src := .stn (k / 96), cells := data }
  s.when (expected && s.stnState k = 5) (·.onPort (k / 96) fun x => { x with got := (k % 96) :: x.got })

/-- KEEPALIVE_PERIOD_END (R317, R321): MISS of a station checked by keepalive; on a station-mode port its own
keepalive is sent every KAPER of its CLAIM_SET. -/
def execKeepalivePeriodEnd (port stn t : Nat) (s : State) : Host.Outcome State Fault Refusal :=
  let s := s.at t
  let k := 96 * port + stn
  .next <|
    if 15 < port || 95 < stn then s
    else if s.stnMode port then
      if (s.port port).smActive && (s.port port).claimSet.kaper ≠ 0 && s.lf (Addr.fbpCtrl port) 15 8 = stn then
        let e := (s.port port).eseq
        (s.onPort port fun x => { x with eseq := (e + 1) % 256 }).stnFrameOut port 66 (4 * 256 + stn * 2 + s.unitN) [0, BitVec.ofNat 8 e]
      else s
    else if s.kaper k = 0 || !s.stnEn k || s.hasRx k then s
    else (s.stnMiss k (s.station k).heard).onStn k fun y => { y with heard := false }

/-! ### Frames routed to STN at the head end (R306 to R309) -/

/-- The frame lies in an occurrence of the station's windows, and ends before its basic cycle does (R316). -/
def State.inWindow (s : State) (n stn : Nat) (f : CanFrame) : Bool := s.rxServed n f.sof = some stn
/-- Its end of frame comes before the end of its basic cycle. -/
def State.inCycle (s : State) (n : Nat) (r : StnRx) : Bool :=
  match s.cycleAt n r.f.sof with
  | some (_, t0) => r.t < t0 + s.bclenNs n
  | none => false

/-- A class 4 frame (R309). -/
def State.stnEventFrame (s : State) (n stn : Nat) (r : StnRx) (d : Bytes) : State :=
  let k := 96 * n + stn
  let trg : Trigger := ⟨2, n * 128 + stn, 18⟩
  match d with
  | [] => s
  | c :: _ =>
    if c = 0 then s.stnArrive k true false true []
    else if c = 1 then s.onStn k fun y => { y with hello := decide (s.stnState k = 1) || decide (s.stnState k = 6) }
    else if s.lf (Addr.stnPctrl n) 5 5 = 1 then
      s.qFrameOrWait ⟨n, 0x11, s.lf (Addr.stnPctrl n) 4 0, frameWords n r.f r.filter r.t, some trg, s.utick⟩
    else s.raise trg

/-- A frame at the head end by its class (R306). An extended identifier is not of the protocol: as class 7. -/
def State.headFrame (s : State) (n : Nat) (r : StnRx) : State :=
  let c := idClass r.f.id
  let stn := idStation r.f.id
  let k := 96 * n + stn
  let d := slice r.f.data 0 (dlcBytes r.f.fdf r.f.dlc)
  if r.f.ide || c = 7 then s.inc (Addr.stnDropStn n)
  else if c = 0 || c = 1 || c = 5 then s
  else if 95 < stn || !s.stnEn k then (s.inc (Addr.stnDropStn n)).ev 0x146 (n + stn * 256)
  else
    let s := s.onStn k fun y => { y with heard := true }
    let w := s.inWindow n stn r.f
    let e := w && s.inCycle n r
    match c with
    | 2 =>
      if d.length ≠ dlcBytes true (dlcFor (s.inLen k)) then
        ((s.incFld (Addr.stnEntryW7 k) 31 16).inc (Addr.stnDropFmt n)).stnEv 0x145 k
      else s.stnArrive k e e w (cellsOf (s.inOff k) (d.take (s.inLen k)))
    | 3 =>
      if d.length ≠ 48 then s.inc Addr.ixeDropFmt
      else (s.stnArrive k e e w []).ixePush ⟨d, n, stn, r.t⟩
    | 4 => s.stnEventFrame n stn r d
    | _ => s.response k d

/-! ### Station mode (R280, R281, R321 to R324) -/

/-- The key of the local station of a station-mode port. -/
def State.ownStn (s : State) (n : Nat) : Nat := 96 * n + min (s.lf (Addr.fbpCtrl n) 15 8) 95

/-- The acceptance of R322 on the port: delivered, and the port after it. -/
def acceptTwin (x : Fbp) (cls seq claim : Nat) : Bool × Fbp :=
  let hc := x.claim.getD claim
  let x := { x with claim := some hc }
  let dc := serialDiff claim hc
  if 32768 ≤ dc then (false, { x with claimRej := x.claimRej + 1 })
  else
    let x := { x with claim := some claim }
    let put (h seen : Nat) : Fbp := { x with streams := (x.streams.filter (·.1 ≠ cls)) ++ [(cls, h, seen)] }
    match x.streams.find? (·.1 = cls) with
    | none => (true, put seq 1)
    | some (_, h, seen) =>
      let d := serialDiff seq h
      if 1 ≤ d && d ≤ 32767 then (true, put seq (if 32 ≤ d then 1 else (seen * 2 ^ d + 1) % 2 ^ 32))
      else if cls = 5 && 65505 ≤ d && !seen.testBit (65536 - d) then (true, put h (seen ||| 2 ^ (65536 - d)))
      else (false, { x with dup := x.dup + 1 })

/-- The fields of an accepted reference message in the image, and its basic cycle (R279, R280, R324). -/
def State.refAccepted (s : State) (n : Nat) (r : StnRx) (d : Bytes) : State :=
  let c := field d 4 1 % 64
  let s := s.onPort n fun x => { x with cyc := some (c, r.f.sof), got := [] }
  let s := s.setFld (Addr.fbpTtStat n) 5 0 c
  let s := s.when (c = 0) fun s => s.setFld (Addr.fbpTtStat n) 31 16 (s.fld (Addr.fbpTtStat n) 31 16 + 1)
  let s := s.imgWrite { src := .stn n, cells := cellsOf (s.lf (Addr.fbpTtSmoff n) 15 0) (d.drop 4) }
  if s.bit (Addr.fbpStat n) 5 then (s.setBit (Addr.fbpStat n) 5 false).putSummary n else s

/-- A delivered output frame (R322, R324): its data at INOFF, and LOST cleared (R281). -/
def State.outAccepted (s : State) (n : Nat) (d : Bytes) : State :=
  let k := s.ownStn n
  if !(s.port n).smActive || !s.stnEn k then s
  else
    let s := s.onPort n fun x => { x with lastOut := s.utick }
    let body := d.drop 4
    if d.length ≠ dlcBytes true (dlcFor (4 + s.inLen k)) then
      ((s.incFld (Addr.stnEntryW7 k) 31 16).inc (Addr.stnDropFmt n)).stnEv 0x145 k
    else
      let cells := cellsOf (s.inOff k) (body.take (s.inLen k))
      if (s.station k).lost then (s.onStn k fun y => { y with lost := false }).stnSet k 5 cells
      else s.imgWrite { src := .stn n, cells := cells }

/-- The port has a frame of a class to send. -/
def State.sendsClass (s : State) (n c : Nat) : Bool :=
  (List.range 64).any fun b => !s.txUnused n b && !(s.txd n b).ide && idClass (s.txd n b).id = c

/-- The 96-byte capability record of a station-mode port (R313). What the spec does not state are constants of the
device within the codes it allows: VENDOR, PRODUCT, HWREV, SERIAL, the units and the NAME (log entry 65). -/
def State.ownCap (s : State) (n : Nat) : Bytes :=
  let k := s.ownStn n
  let id (i : Nat) : Nat := 1 + Config.stationCap i % 65535
  leBytes 2 1 ++ leBytes 2 (id 0) ++ leBytes 2 (id 1) ++ leBytes 2 (Config.stationCap 2) ++
    wordBytes (s.rd Addr.sysFwver) ++ leBytes 4 (Config.stationCap 3) ++
    [BitVec.ofNat 8 (0x14 + b2n (s.sendsClass n 2) + 2 * b2n (s.sendsClass n 3)),
     BitVec.ofNat 8 (s.lf (Addr.stnEntryW1 k) 10 8), BitVec.ofNat 8 (s.lf (Addr.stnEntryW1 k) 6 0), BitVec.ofNat 8 (s.inLen k)] ++
    leBytes 2 (s.lf (Addr.fbpCtrl n) 31 16) ++ leBytes 2 200 ++ List.replicate 8 0 ++
    ((List.range 20).map fun f => BitVec.ofNat 8 ([0, 1, 2, 3, 4, 5, 6, 255].getD (Config.stationCap (4 + f) % 8) 0)) ++
    List.replicate 12 0 ++ (List.range 32).map fun i => BitVec.ofNat 8 (0x20 + Config.stationCap (24 + i) % 95)

/-- The parameters of CLAIM_SET (R311). -/
def claimOfParams (ps : Bytes) : ClaimSet :=
  { pointBase := field ps 0 2, kaper := field ps 2 2, bclen := field ps 4 2, ncyc := field ps 6 1,
    wins := (List.range (field ps 7 1)).map fun i =>
      let o := 8 + 8 * i
      ⟨field ps o 2, field ps (o + 2) 2, field ps (o + 4) 1, field ps (o + 5) 1, field ps (o + 6) 1⟩ }

/-- The local station applies its fail-safe: substitutes and LOST, with CTX2 (R281). -/
def State.failSafe (s : State) (n : Nat) : State :=
  let k := s.ownStn n
  if !s.stnEn k || (s.station k).lost then s
  else
    let (cs, s) := s.substitutes k
    (s.onStn k fun y => { y with lost := true }).stnSet k 6 cs (some (n, k % 96))

/-- A request executed by the local station (R311, R321, R323): RSTAT and the response data. -/
def State.execRequest (s : State) (n op : Nat) (ps : Bytes) : Nat × Bytes × State :=
  let k := s.ownStn n
  match op with
  | 1 =>
    if 1 < field ps 0 1 then (2, [], s) else (0, slice (s.ownCap n) (48 * field ps 0 1) 48, s)
  | 2 =>
    if 6 < field ps 7 1 then (2, [], s)
    else
      let s := s.onPort n fun x => { x with smActive := true, claimSet := claimOfParams ps, lastOut := s.utick }
      (0, [], if s.stnEn k then s.stnSet k 5 else s)
  | 3 =>
    let s := s.failSafe n
    let s := s.onPort n fun x => { x with smActive := false }
    (0, [], if s.stnEn k then s.setFld (Addr.stnEntryW5 k) 2 0 1 else s)
  | _ => (1, [], s)

/-- A delivered class 5 request answered, from the cache for a TOKEN answered before (R321). -/
def State.reqAccepted (s : State) (n : Nat) (d : Bytes) : State :=
  let op := field d 4 1
  let tok := field d 5 1
  let id := 6 * 256 + s.lf (Addr.fbpCtrl n) 15 8 * 2 + s.unitN
  match (s.port n).cached with
  | some (c, b) =>
    if c = tok then s.stnFrameOut n 65 id b
    else
      let (rs, rd, s) := s.execRequest n op (d.drop 8)
      let b := [BitVec.ofNat 8 op, BitVec.ofNat 8 tok, BitVec.ofNat 8 rs, 0] ++ rd
      (s.onPort n fun x => { x with cached := some (tok, b) }).stnFrameOut n 65 id b
  | none =>
    let (rs, rd, s) := s.execRequest n op (d.drop 8)
    let b := [BitVec.ofNat 8 op, BitVec.ofNat 8 tok, BitVec.ofNat 8 rs, 0] ++ rd
    (s.onPort n fun x => { x with cached := some (tok, b) }).stnFrameOut n 65 id b

/-- A frame on a station-mode port: classes 0, 1 and 5 with the own station number (R322). -/
def State.stationFrame (s : State) (n : Nat) (r : StnRx) : State :=
  let c := idClass r.f.id
  let d := slice r.f.data 0 (dlcBytes r.f.fdf r.f.dlc)
  let mine := idStation r.f.id = s.lf (Addr.fbpCtrl n) 15 8
  if r.f.ide || !(c = 0 || ((c = 1 || c = 5) && mine)) || d.length < 4 then s
  else
    let (deliv, x) := acceptTwin (s.port n) c (field d 0 2) (field d 2 2)
    let s := s.setPort n x
    if !deliv then s
    else match c with
      | 0 => s.refAccepted n r d
      | 1 => s.outAccepted n d
      | _ => s.reqAccepted n d

/-- STN_FRAME (R306): the oldest frame routed to STN on the port. -/
def execStnFrame (port t : Nat) (s : State) : Host.Outcome State Fault Refusal :=
  let s := s.at t
  .next <| match (s.port port).rx with
    | [] => s
    | r :: rest =>
      let s := s.onPort port fun x => { x with rx := rest }
      if s.stnMode port then s.stationFrame port r else s.headFrame port r

/-- Two basic cycles have passed since the reference message that began the last one (R280); before the first one the
port's own commit counts. -/
def State.refGone (s : State) (n : Nat) : Bool :=
  (match (s.port n).cyc with | some (_, t0) => t0 | none => (s.port n).ttFrom) + 2 * s.bclenNs n ≤ s.dtime

/-- STATION_REF_LOST (R280). -/
def execStationRefLost (port : Timed Nat) (s : State) : Host.Outcome State Fault Refusal :=
  let s := s.at port.t
  .next <|
    if port.val < 16 && s.stnMode port.val && !s.bit (Addr.fbpStat port.val) 5 && s.refGone port.val then
      ((s.setBit (Addr.fbpStat port.val) 5 true).fbpEv 0x10D port.val).putSummary port.val
    else s

/-- STATION_HOLD_EXPIRED (R281). -/
def execStationHoldExpired (port t : Nat) (s : State) : Host.Outcome State Fault Refusal :=
  let s := s.at t
  let h := s.lf (Addr.fbpCtrl port) 31 16
  .next <|
    if port < 16 && s.stnMode port && h ≠ 0 && (s.port port).lastOut + h * 100000 ≤ s.utick && !(s.station (s.ownStn port)).lost then
      (s.failSafe port).fbpEv 0x10C port
    else s

/-! ### The end of a basic cycle (R245, R255, R295, R316) -/

/-- The stations the cycle's EXCLUSIVE-RX occurrences serve. -/
def State.cycleStations (s : State) (n c : Nat) : Nats :=
  (((s.wins n).filter fun w => w.ty = 3 && w.occurs c).map fun w => w.served c).dedup

/-- Misses of the cycle that ends. -/
def State.cycleMisses (s : State) (n c : Nat) : State :=
  let got := (s.port n).got
  (s.cycleStations n c).foldl (fun s i => if i < 96 then s.stnMiss (96 * n + i) (got.contains i) else s) s

/-- A basic cycle of the port ends now: a head end's at each bus time that BCLEN divides, from the first one of a changed
timetable on (R295); the instant of a station-mode port's is that of its reference message (R279). -/
def State.cycleEnds (s : State) (n : Nat) : Bool :=
  n < 16 && s.ncyc n ≠ 0 && s.bclenNs n ≠ 0 && s.fbpMode n ≠ 0 &&
    (s.stnMode n || ((s.port n).ttFrom ≤ s.dtime && s.dtime / 1000 * 1000 % s.bclenNs n = 0))

/-! ### Registers and opcodes (R327, R328) -/

/-- The counters of a port. -/
def stnPortCounters (n : Nat) : Nats := [Addr.stnDropStn n, Addr.stnDropFmt n, Addr.stnLosses n]

/-- STN_CLR. -/
def execStnClr (port : Nat) (v : Word) (s : State) : Host.Outcome State Fault Refusal :=
  .next (if port < 16 && v.getLsbD 0 then s.clearAll (stnPortCounters port) else s)

/-- STN_STATUS. -/
def cmdStnStatus (q : Req) (p : Bytes) (s : State) : State :=
  s.startLen 0x0500 3 q p fun s =>
    let n := (p.getD 0 0).toNat
    let f := (p.getD 1 0).toNat
    let c := (p.getD 2 0).toNat
    if 15 < n || 96 < f + c then s.fail q 0x0500 0x11
    else s.ok q 0x0500 ((List.range c).flatMap fun i =>
      let k := 96 * n + f + i
      wordsBytes [s.rd (Addr.stnEntryW5 k), s.rd (Addr.stnEntryW6 k), s.rd (Addr.stnEntryW7 k)])

/-- The port and the station of a command, and the role it needs. -/
def State.stnTarget (s : State) (q : Req) (op : Nat) (p : Bytes) (f : Nat → State) : State :=
  let n := (p.getD 0 0).toNat
  let i := (p.getD 1 0).toNat
  if 15 < n || 95 < i then s.fail q op 0x11
  else if s.role = .tracking || s.role = .joining || s.role = .detached then s.fail q op 0x21
  else if !s.stnEn (96 * n + i) then s.fail q op 0x20
  else f (96 * n + i)

/-- An entry set to ABSENT by a command: its LOST and REJECTED bits and REASON are cleared, and it polls next. -/
def State.stnAbsent (s : State) (k : Nat) : State :=
  let s := (s.mgmtDrop k).onStn k fun y => { y with lost := false, due := s.utick }
  (s.setFld (Addr.stnEntryW5 k) 11 4 0).stnSet k 1

/-- STN_REJOIN. -/
def cmdStnRejoin (q : Req) (p : Bytes) (s : State) : State :=
  s.startLen 0x0501 2 q p fun s => s.stnTarget q 0x0501 p fun k => (s.stnAbsent k).ok q 0x0501

/-- STN_MGMT. -/
def cmdStnMgmt (q : Req) (p : Bytes) (s : State) : State :=
  s.start 0x0502 q p fun s =>
    let n := (p.getD 0 0).toNat
    let i := (p.getD 1 0).toNat
    let op := (p.getD 2 0).toNat
    let k := 96 * n + i
    if p.length < 4 || 60 < p.length then s.fail q 0x0502 0x10
    else if 15 < n || 95 < i || op = 0 || (2 ≤ op && op ≤ 0x0F) then s.fail q 0x0502 0x11
    else if s.role ≠ .solo && s.role ≠ .primary then s.fail q 0x0502 0x21
    else if s.stnState k ≠ 5 then s.fail q 0x0502 0x20
    else if (s.station k).x.isSome then s.fail q 0x0502 0x31
    else (s.accept q 0x0502 [k]).mgmtStart k op (p.drop 4) true

/-- STN_STOP. -/
def cmdStnStop (q : Req) (p : Bytes) (s : State) : State :=
  s.startLen 0x0503 2 q p fun s => s.stnTarget q 0x0503 p fun k => ((s.stnAbsent k).mgmtStart k 3 [] false).ok q 0x0503

/-- STN_COUNTERS. -/
def cmdStnCounters (q : Req) (p : Bytes) (s : State) : State :=
  s.startLen 0x0504 2 q p fun s =>
    let n := (p.getD 0 0).toNat
    if 15 < n then s.fail q 0x0504 0x11
    else
      let d := (stnPortCounters n).flatMap fun a => wordBytes (s.rd a)
      (s.when ((p.getD 1 0).getLsbD 0) (·.clearAll (stnPortCounters n))).ok q 0x0504 d

/-- STN_STATUS. -/
def execStnStatus (q : Req) (p : Bytes) (s : State) : Host.Outcome State Fault Refusal := .next (cmdStnStatus q p s)
/-- STN_REJOIN. -/
def execStnRejoin (q : Req) (p : Bytes) (s : State) : Host.Outcome State Fault Refusal := .next (cmdStnRejoin q p s)
/-- STN_MGMT. -/
def execStnMgmt (q : Req) (p : Bytes) (s : State) : Host.Outcome State Fault Refusal := .next (cmdStnMgmt q p s)
/-- STN_STOP. -/
def execStnStop (q : Req) (p : Bytes) (s : State) : Host.Outcome State Fault Refusal := .next (cmdStnStop q p s)
/-- STN_COUNTERS. -/
def execStnCounters (q : Req) (p : Bytes) (s : State) : Host.Outcome State Fault Refusal := .next (cmdStnCounters q p s)

end Sys2Proof.Machine
end

