-- ==== Sys2Proof/Machine/SeState.lean ====
section
/-! DEFINITION. Changes among STOP, RUN and HOLD, entry into RUN, leaving RUN, and the SE on the power-fail
warning (R119 to R122, R144, R152, R158, R333, R386). -/

namespace Sys2Proof.Machine

/-- Contexts with an active instance. -/
def State.activeInst (s : State) : Nats :=
  (s.se.ctxs.filter fun e => e.1 ≠ 0 && (e.2.st = .released || e.2.st = .running || e.2.st = .preempted || e.2.st = .publishing)).map (·.1)

/-- Every context without an instance, CTX7 too; `fresh`: the next instance is the first since STOP. -/
def State.quietCtxs (s : State) (fresh : Bool) : State :=
  { s with se := { s.se with
    ctxs := smerge {} [] (s.se.ctxs.map fun e => (e.1,
      { e.2 with st := if e.2.st = .disabled then .disabled else .waiting, pend := false, copied := false,
                 ran := e.2.ran && !fresh }))
    active := none, copyQ := [], copying := none, holds := [], leaving := none, change := none, starting := false } }

/-- The notices of SYS_STATE_SET. -/
def State.stateReached (s : State) : State := (s.noticeAll 0x0005 0x0000).sendCap

/-- STOP is reached: the output image is cleared (R119), and no task has run since (R121). -/
def State.enterStop (s : State) : State :=
  let s := s.quietCtxs false
  ({ s with op := .stop, outImg := [], se := { s.se with fresh := true } } : State).stateReached

/-- The MIU test window closes (R435). -/
def State.closeWindow (s : State) : State :=
  if s.fld Addr.miuTest 31 25 = 0 then s
  else ((s.setFld Addr.miuTest 31 25 0).setBit Addr.miuStat 2 false).ev 0x20A 0

/-- STOP is left for RUN or HOLD: the test window closes, RAW is cleared (R435, R468). -/
def State.leaveStop (s : State) : State := s.closeWindow.setBit Addr.rsmCtrl 0 false

/-- HOLD is reached. -/
def State.enterHold (s : State) : State :=
  let s := s.leaveStop.quietCtxs false
  ({ s with op := .hold } : State).stateReached

/-- What entry into RUN from STOP clears: hot bits, edge cells, timers but MIR (R144, R152, R158), and bytes
0 to 21 of the FIO output line (R333). -/
def State.clearForRun (s : State) : State :=
  { s with
    regs := skeep s.regs fun a => !(Addr.seHot 0 ≤ a && a ≤ Addr.seHot 255)
    outImg := memPut s.outImg (64 * s.lf Addr.fioImg 25 16) (List.replicate 22 0)
    se := { s.se with edge := [], parBad := [], tmb := smerge {} [] (s.se.tmb.map fun e => (e.1, { mir := e.2.mir })) } }

/-- RUN is entered (R89, R115, R118, R120, R121): from STOP, or from a HOLD entered from STOP, with the
clearing and CTX7; from another HOLD without. -/
def State.enterRun (s : State) : State :=
  let fresh := s.se.fresh
  let s := s.leaveStop.quietCtxs fresh
  let s := { s with op := .run, se := { s.se with fresh := false, runT := s.utick } }
  let s :=
    if fresh then
      let s := s.clearForRun
      let s := { s with se := { s.se with g := 0, gridOn := false } }
      let s := s.wr (Addr.seInfo 6) (BitVec.ofNat 32 (b2n s.se.warm))
      if s.ctxEn 7 then
        let s := s.release 7
        { s with se := { s.se with starting := true } }
      else s.ctx7Done
    else s.when (s.ctxEn 0) (·.start0)
  s.stateReached

/-- A state among STOP, RUN and HOLD is reached. -/
def State.reach (s : State) (t : OpState) : State :=
  match t with
  | .stop => s.enterStop
  | .hold => s.enterHold
  | .run => if s.role = .detached then s else s.enterRun
  | _ => s

/-- Leaving RUN begins (R119): CTX0 stops, held releases are dropped. -/
def State.leaveRun (s : State) (t : OpState) : State :=
  let s := s.when ((s.ctx 0).st ≠ .disabled) fun s => s.onCtx 0 fun c => { c with st := .waiting }
  let s := s.heldCtxs.foldl (fun s n => s.onCtx n fun c => { c with st := .waiting }) s
  ({ s with se := { s.se with
    leaving := some ⟨t, s.utick⟩, active := if s.se.active = some 0 then none else s.se.active } } : State).dispatch

/-- STATE_CHANGE_APPLY (R121, R386): at its management tick, or at the agreed grid tick of a pair. After a power-fail
warning no change takes place any more (R122). -/
def execStateChangeApply (t : Nat) (s : State) : Host.Outcome State Fault Refusal :=
  let s := s.at t
  .next <| if s.se.pfail then s else match s.se.change with
    | some c => if s.op = .fault then s else ({ s with se := { s.se with change := none } } : State).reach c.target
    | none =>
      match s.twl.pairReq with
      | some (target, g) =>
        if s.se.g < g then s else
        let s := { s with twl := { s.twl with pairReq := none } }
        if s.op = .run then (if target = .run then s else s.leaveRun target)
        else if s.op = .fault then s else s.reach target
      | none => s

/-- RUN_EXIT_COMPLETE (R119): no instance is active any more. -/
def execRunExitComplete (t : Nat) (s : State) : Host.Outcome State Fault Refusal :=
  let s := s.at t
  .next <| match s.se.leaving with
    | some l => if s.op = .run && !s.se.pfail && s.activeInst.isEmpty then s.reach l.target else s
    | none => s

/-- An instance is abandoned without publication (R119). -/
def State.abandonInst (s : State) (n : Nat) : State :=
  let s := s.closeOpen n true
  (s.onCtx n fun c => { c with st := .waiting, copied := false, pend := false }).ev 0x087 n

/-- RUN_EXIT_ABANDON (R119): 100 ms after the request. -/
def execRunExitAbandon (t : Nat) (s : State) : Host.Outcome State Fault Refusal :=
  let s := s.at t
  .next <| match s.se.leaving with
    | some l =>
      if s.op = .run && !s.se.pfail && l.t + 10000000 ≤ s.utick then
        (s.activeInst.foldl (fun s n => s.abandonInst n) s).reach l.target
      else s
    | none => s

/-- The SE stops after CTX4 and the retain copy begins (R122). -/
def State.ctx4End (s : State) : State := s.seStop.retainBegin

/-- CTX4 starts, or without it the retain copy (R117, R122). -/
def State.startCtx4 (s : State) : State :=
  if s.op = .fault then s.retainBegin
  else if s.op = .run || s.op = .hold || s.op = .stop then
    let s := match s.se.active with
      | some a => s.onCtx a fun c => { c with st := .preempted }
      | none => s
    let s := { s with se := { s.se with active := none, copyQ := [], pfail := true, ctx4At := some s.utick } }
    let s := s.wr (Addr.seInfo 3) 0
    if s.ctxEn 4 then s.release 4 else s.ctx4End
  else s

/-- CTX4_TIMEOUT (R122): 2 ms after its start CTX4 is cut. -/
def execCtx4Timeout (t : Nat) (s : State) : Host.Outcome State Fault Refusal :=
  let s := s.at t
  .next <| match s.se.ctx4At with
    | some t0 => if s.se.pfail && t0 + 200000 ≤ s.utick then (s.closeOpen 4 true).ctx4End else s
    | none => s

/-- The tick source sends its TICK frame at each of its grid ticks (R382). -/
def State.sendTick (s : State) : State :=
  s.when (s.role = .primary || (s.role = .solo && s.twl.jphase ≠ 0)) (·.twlSend (.tick (s.dtime / 10)))

/-- GRID_TICK (R96), at an instant of the grid (R28); a TRACKING unit that received LEAVE becomes SOLO at it (R407),
and a PRIMARY may find its slack point at it (R206). -/
def execGridTick (t : Nat) (s : State) : Host.Outcome State Fault Refusal :=
  let s := s.at t
  if !onGrid t then .next s else
  let s := if s.twl.left && s.role = .tracking then ({ s with twl := { s.twl with left := false } } : State).goAlone else s
  .next s.sendTick.gridTick.propose

/-- A change among STOP, RUN and HOLD is in progress. -/
def State.changing (s : State) : Bool :=
  s.se.leaving.isSome || s.se.change.isSome || s.twl.pairReq.isSome || !(s.longsOf 0x0005).isEmpty

/-- The first grid tick at least `ns` ahead, as a count (R386, R206). -/
def State.tickAhead (s : State) (ns : Nat) : Nat := s.se.g + (s.dtime + ns - s.se.gT + 9999) / 10000

/-- The state a code of SYS_STATE_SET names. -/
def stateOf (b : Nat) : Option OpState :=
  if b = 2 then some .stop else if b = 3 then some .run else if b = 4 then some .hold else none

/-- SYS_STATE_SET accepted: at once out of RUN, otherwise at the next management tick; in a pair at an agreed
tick (R119, R121, R386). -/
def State.stateSet (s : State) (target : OpState) : State :=
  if s.role = .primary then
    let g := s.tickAhead 20000
    ({ s with twl := { s.twl with pairReq := some (target, g) } } : State).twlCtrl 5 target.code g
  else if s.op = .run then s.leaveRun target
  else { s with se := { s.se with change := some ⟨target, s.utick⟩ } }

/-- SYS_STATE_SET (R75, R119 to R121, R386, R551, R584). Where several refusals hold the role comes first, then
SETINC and a missing program, then a change in progress; the state already in force is OK after all of these. The
spec gives no order (the model's choice, log entry 114). -/
def cmdSysStateSet (q : Req) (p : Bytes) (s : State) : State :=
  s.startLen 0x0005 1 q p fun s =>
    match stateOf (p.getD 0 0).toNat with
    | none => s.fail q 0x0005 0x11
    | some target =>
      if s.op = .fault || s.op = .recovery || s.op = .boot then s.fail q 0x0005 0x20
      else if s.role = .tracking || s.role = .joining then s.fail q 0x0005 0x21
      else if s.role = .detached && target ≠ .stop then s.fail q 0x0005 0x21
      else if s.fwu.setinc || (target = .run && !s.se.program) then s.fail q 0x0005 0x20
      else if s.changing then s.fail q 0x0005 0x31
      else if s.op = target then s.ok q 0x0005
      else (s.accept q 0x0005).stateSet target

/-- SYS_STATE_SET. -/
def execSysStateSet (q : Req) (p : Bytes) (s : State) : Host.Outcome State Fault Refusal :=
  .next (cmdSysStateSet q p s)

end Sys2Proof.Machine
end

