-- ==== Sys2Proof/Machine/SeConfig.lean ====
section
/-! DEFINITION. The checks of a task configuration (R93, R101) and of a program image (R188 to R192, R390,
R459). -/

namespace Sys2Proof.Machine

/-! ### A task configuration

A configuration gives word `k` of context `n` in the layout of a task table entry (R189): 0 PERIOD, 1 PHASE,
2 CTRL, 3 TRIG, 4 ENTRY, 5 BUF, 6 and 7 reserved, 8 to 71 the map words. A failing check is named by the
context and the byte offset in its entry. -/

/-- A configuration. -/
abbrev TaskCfg := Nat → Nat → Word

/-- EN of context `n`. -/
def cfgEn (f : TaskCfg) (n : Nat) : Bool := bitsOf (f n 2) 8 8 = 1

/-- Map words of a context: input, or output. -/
def cfgMap (f : TaskCfg) (n : Nat) (out : Bool) : Words := (List.range 32).map fun k => f n (8 + 32 * b2n out + k)

/-- The lines a map selects. -/
def cfgLines (f : TaskCfg) (n : Nat) (out : Bool) : Nats :=
  (List.range 32).flatMap fun k => wordLines k (f n (8 + 32 * b2n out + k))

/-- Entry offset of the map byte of a line. -/
def mapByteOff (out : Bool) (line : Nat) : Nat := 32 + 128 * b2n out + line / 8

/-- SEL is in range for its SRC (R101). -/
def selOk (src sel : Nat) : Bool :=
  match src with
  | 0 => true
  | 1 => sel ≤ 47
  | 2 => sel < 2048 && sel % 128 ≤ 95
  | 3 => sel ≤ 6143
  | 4 => sel ≤ 1023
  | 5 => sel ≤ 31
  | _ => false

/-- The COND bits a SRC may set, of COND[21:18] (R101). -/
def condMask (src : Nat) : Nat :=
  match src with
  | 1 => 3 | 2 => 1 | 3 => 15 | 4 => 3 | 5 => 1 | _ => 0

/-- The trigger word of an enabled event task passes (R93). -/
def trigOk (w : Word) : Bool :=
  let src := bitsOf w 3 0
  let c := bitsOf w 21 18
  selOk src (bitsOf w 16 4) && (c &&& condMask src) = c && (src = 0 || c ≠ 0)

/-- The checks of R93 on one context. -/
def ctxFails (f : TaskCfg) (n : Nat) : List (Nat × Nat) :=
  let per := bitsOf (f n 0) 23 0
  let lines := fun out => cfgLines f n out
  (if (1 ≤ per && per ≤ 4) || (n < 8 && per ≠ 0) then [(n, 0)] else []) ++
  (if per ≠ 0 && per ≤ bitsOf (f n 1) 23 0 then [(n, 4)] else []) ++
  (if 8 ≤ n && n < 16 && cfgEn f n then [(n, 8)] else []) ++
  (if 16 ≤ n && cfgEn f n && per = 0 && !trigOk (f n 3) then [(n, 12)] else []) ++
  (if n = 0 then
    ((lines false).head?.map fun l => (n, mapByteOff false l)).toList ++
    ((lines true).head?.map fun l => (n, mapByteOff true l)).toList else []) ++
  (if 64 < (lines false).length then [(n, 32)] else []) ++
  (if 64 < (lines true).length then [(n, 160)] else [])

/-- The DM ranges of a context's buffers: start and length (R91, R93). -/
def ctxBufs (f : TaskCfg) (n : Nat) : List (Nat × Nat) :=
  [(bitsOf (f n 5) 10 0 * 4096, 64 * (cfgLines f n false).length),
   (bitsOf (f n 5) 26 16 * 4096, 64 * (cfgLines f n true).length)]

/-- Two ranges share a byte. -/
def rangesMeet (a b : Nat × Nat) : Bool := a.2 ≠ 0 && b.2 ≠ 0 && a.1 < b.1 + b.2 && b.1 < a.1 + a.2

/-- The checks of R93 between an enabled context and the enabled ones before it, and within it. -/
def pairFails (f : TaskCfg) (before : Nats) (n : Nat) : List (Nat × Nat) :=
  let outs := cfgLines f n true
  let bufs := ctxBufs f n
  before.flatMap (fun m =>
    let mo := cfgLines f m true
    (((outs.filter mo.contains).head?).map fun l => (n, mapByteOff true l)).toList ++
    (if bufs.any fun b => (ctxBufs f m).any (rangesMeet b) then [(n, 20)] else [])) ++
  (if rangesMeet (bufs.getD 0 (0, 0)) (bufs.getD 1 (0, 0)) then [(n, 20)] else [])

/-- Every failing item of R93. -/
def taskFails (f : TaskCfg) : List (Nat × Nat) :=
  let en := (List.range 160).filter (cfgEn f)
  (List.range 160).flatMap (ctxFails f) ++ en.flatMap fun n => pairFails f (en.filter (· < n)) n

/-- The address of an item of R93 among the registers and the map memory. -/
def taskItemAddr (x : Nat × Nat) : Nat :=
  if x.2 < 32 then Addr.ctxPeriod x.1 + x.2 else Addr.seMap x.1 0 + (x.2 - 32)

/-- The address of word `k` of context `n`. -/
def taskWordAddr (n k : Nat) : Nat := taskItemAddr (n, 4 * k)

/-! ### A program image -/

/-- An image: a memory and the offset of its bank. -/
structure Image where
  mem  : Sparse Byte
  base : Nat
  deriving DecidableEq, Repr

/-- A little-endian number of `n` bytes in the image. -/
def Image.at (i : Image) (off n : Nat) : Nat := memNat i.mem (i.base + off) n

/-- A word of the image. -/
def Image.word (i : Image) (off : Nat) : Word := BitVec.ofNat 32 (i.at off 4)

/-- Bytes of the image. -/
def Image.bytes (i : Image) (off n : Nat) : Bytes := memBytes i.mem (i.base + off) n

/-- IMAGE_LEN. -/
def Image.len (i : Image) : Nat := i.at 8 4

/-- The task table as a configuration (R189). -/
def Image.tasks (i : Image) : TaskCfg := fun n k => i.word (i.at 0x0C 4 + 288 * n + 4 * k)

/-- A record of the migration map (R190, R191), with its image offset. -/
structure MigRec where
  off : Nat
  ty  : Nat
  res : Nat
  a   : Nat
  b   : Nat
  c   : Nat
  deriving DecidableEq, Repr

/-- The records of the map; none without a map. -/
def Image.recs (i : Image) : List MigRec :=
  let m := i.at 0x10 4
  if m = 0 then [] else
    (List.range (i.at (m + 4) 4)).map fun k =>
      let o := m + 16 + 16 * k
      ⟨o, i.at o 1, i.at (o + 1) 3, i.at (o + 4) 4, i.at (o + 8) 4, i.at (o + 12) 4⟩

/-- The region table (R389). -/
def Image.regionAt (i : Image) (k : Nat) : Region :=
  let o := i.at 0x1C 4 + 16 * k
  let fl := i.at (o + 8) 1
  ⟨i.at o 4, i.at (o + 4) 4, fl % 2 = 1, fl / 2 % 2 = 1, i.at (o + 9) 1⟩

/-- The regions with a length; an entry with LEN = 0 is ignored. -/
def Image.regions (i : Image) : List Region :=
  ((List.range (i.at 0x20 4)).map i.regionAt).filter (·.len ≠ 0)

/-- MIGKIB (R191). -/
def migKib (rs : List MigRec) : Nat :=
  ((rs.map fun r => match r.ty with | 1 => r.c | 2 => r.c | 5 => r.c | 3 => 8 | 4 => 1 | _ => 0).sum + 1023) / 1024

/-- Reserved parts of a record that are not 0, or a reserved type (R191, R192). -/
def recBad (r : MigRec) : Bool :=
  r.res ≠ 0 ||
    (match r.ty with
     | 1 => false
     | 2 => false
     | 5 => false
     | 3 => 8192 ≤ r.a || 8192 ≤ r.b || r.c ≠ 0
     | 4 => 65536 ≤ r.a || 65536 ≤ r.b || r.c ≠ 0
     | _ => true)

/-- A range of a record lies outside DM, the output image, or the image (R192). -/
def recRangeBad (len : Nat) (r : MigRec) : Bool :=
  match r.ty with
  | 1 => dmSize < r.a + r.c || dmSize < r.b + r.c
  | 2 => dmSize < r.a + r.c || len < r.b + r.c
  | 5 => 65536 < r.a + r.c || len < r.b + r.c
  | _ => false

/-- The DM destination of a record, as start and length. -/
def recDst (r : MigRec) : Option (Nat × Nat) :=
  match r.ty with
  | 1 => some (r.b, r.c)
  | 2 => some (r.a, r.c)
  | _ => none

/-- Two records clash by their destinations, or a destination meets the source of another MOVE (R192). -/
def recsClash (x y : MigRec) : Bool :=
  (match recDst x, recDst y with
   | some a, some b => rangesMeet a b
   | _, _ => false) ||
  (x.ty = 5 && y.ty = 5 && rangesMeet (x.a, x.c) (y.a, y.c)) ||
  ((x.ty = 3 || x.ty = 4) && x.ty = y.ty && x.b = y.b) ||
  (match recDst x with
   | some a => decide (y.ty = 1) && rangesMeet a (y.a, y.c)
   | none => false) ||
  (match recDst y with
   | some b => decide (x.ty = 1) && rangesMeet b (x.a, x.c)
   | none => false)

/-- The first record that clashes with one before it, by its offset. -/
def firstClash : List MigRec → List MigRec → Option Nat
  | _, [] => none
  | done, r :: rs => if done.any (recsClash · r) then some r.off else firstClash (r :: done) rs

/-- The header and the ranges it names (R188, R192): the offset of the first failing field. -/
def Image.headFail (i : Image) : Option Nat :=
  let len := i.len
  if i.at 0 4 ≠ 0x49504753 then some 0
  else if i.at 4 4 ≠ 1 then some 4
  else if len % 32 ≠ 0 || len < 0x60 || 0x800000 < len then some 8
  else if i.bytes 0x40 32 ≠ sha256 (i.bytes 0 0x40 ++ List.replicate 32 0 ++ i.bytes 0x60 (len - 0x60)) then some 0x40
  else if len < i.at 0x0C 4 + 46080 then some 0x0C
  else if i.at 0x10 4 ≠ 0 && len < i.at 0x10 4 + max 16 (i.at 0x14 4) then some 0x10
  else if i.at 0x10 4 = 0 && i.at 0x14 4 ≠ 0 then some 0x14
  else if len < i.at 0x18 4 + 1024 then some 0x18
  else if len < i.at 0x1C 4 + 16 * i.at 0x20 4 then some 0x1C
  else none

/-- The map header (R190). -/
def Image.mapFail (i : Image) : Option Nat :=
  let m := i.at 0x10 4
  if m = 0 then none
  else if i.at m 4 ≠ 0x4D4D4753 then some m
  else if i.at 0x14 4 ≠ 16 + 16 * i.at (m + 4) 4 then some (m + 4)
  else if i.at (m + 8) 8 ≠ 0 then some (m + 8)
  else none

/-- The records (R191, R192). -/
def Image.recFail (i : Image) : Option Nat :=
  let rs := i.recs
  match rs.find? fun r => recBad r || recRangeBad i.len r with
  | some r => some r.off
  | none =>
    match firstClash [] rs with
    | some o => some o
    | none => if 512 < migKib rs then some (i.at 0x10 4) else none

/-- The first entry, by its place among entries that pass `p`, that meets one before it or lies beyond DM. -/
def regionClash (i : Image) (p : Region → Bool) : Option Nat :=
  (List.range (i.at 0x20 4)).find? fun k =>
    let r := i.regionAt k
    p r && r.len ≠ 0 && (dmSize < r.start + r.len || (List.range k).any fun j =>
      let q := i.regionAt j
      p q && rangesMeet (q.start, q.len) (r.start, r.len))

/-- Offset of region entry `k`. -/
def Image.regionOff (i : Image) (k : Nat) : Nat := i.at 0x1C 4 + 16 * k

/-- The region table (R390, R459). The entry at which a total is exceeded is the failing one. -/
def Image.regionFail (i : Image) : Option Nat :=
  let n := i.at 0x20 4
  let pre := fun k => ((List.range (k + 1)).map i.regionAt).filter (·.len ≠ 0)
  let ret := fun k => (pre k).filter (·.retain)
  let bad := (List.range n).find? fun k =>
    let r := i.regionAt k
    r.len ≠ 0 &&
      ((r.mirror && 2 * 1024 * 1024 < (((pre k).filter (·.mirror)).map (·.len)).sum) ||
       (r.retain && (r.rid = 0 || (ret k).countP (·.rid = r.rid) ≠ 1 || 28 < (ret k).length ||
          1024 < ((ret k).map fun x => pagesOf x.len).sum)))
  match [regionClash i (·.mirror), regionClash i (·.retain), bad].filterMap id with
  | [] => none
  | k :: ks => some (i.regionOff (ks.foldl min k))

/-- The offset of the first failing item of an image (R192, R390, R459), in the order of those rules. -/
def Image.fail (i : Image) : Option Nat :=
  match i.headFail with
  | some o => some o
  | none =>
    match (taskFails i.tasks).map fun x => i.at 0x0C 4 + 288 * x.1 + x.2 with
    | o :: os => some (os.foldl min o)
    | [] =>
      match i.mapFail with
      | some o => some o
      | none =>
        match i.recFail with
        | some o => some o
        | none => i.regionFail

/-! ### A bank's image as it is read -/

/-- PM with every rebuildable flagged word of it as it would be delivered. -/
def State.pmView (s : State) : Sparse Byte :=
  (s.miu.chk.filter fun e => memOf e.1 = 0).foldl (fun m e =>
    match (s.rebuilt (pageOf e.1)).bind (·.find? (·.1 = e.1)) with
    | some d => memPut m (e.1 - pmBase) (leBytes 8 d.2.toNat)
    | none => m) s.pm

/-- The chamber as an image: the bank that does not run. -/
def State.chamberImage (s : State) : Image := ⟨s.pmView, 0x800000 * (1 - s.fld Addr.seSwapStat 8 8)⟩

/-- An unrebuildable word of the image's bank, if any. -/
def State.imageLost (s : State) (i : Image) : Option Nat :=
  ((s.miu.chk.filter fun e => memOf e.1 = 0 && i.base ≤ e.1 - pmBase && e.1 - pmBase < i.base + i.len &&
    s.pageBad (pageOf e.1)).map (·.1)).head?

/-- The task table of an image in force: staged and committed values of the CTXn registers and the map memory
(R200). -/
def State.loadTasks (s : State) (f : TaskCfg) : State :=
  (List.range 160).foldl (fun s n => (List.range 72).foldl (fun s k =>
    if k = 6 || k = 7 then s
    else
      let a := taskWordAddr n k
      let v := if n = 4 && k = 2 then setBits (f n k) 5 0 63 else f n k
      { s with regs := sput (resetVal a) s.regs a v, live := sput (resetVal a) s.live a v }) s) s

end Sys2Proof.Machine
end

