-- ==== Sys2Proof/Machine/Swap.lean ====
section
/-! DEFINITION. Lock Swap: the chamber, arming, slack points, the swap, and its opcodes (R184 to R212). -/

namespace Sys2Proof.Machine

/-! ### The swap (R199, R200) -/

/-- A MOVE source read word by word: a word that cannot be rebuilt gives zeros, LOSS and EV 0x095 (R199). -/
def State.moveSrc (s : State) (a : Nat) : Nat → Bytes × State
  | 0 => ([], s)
  | n + 1 =>
    let (w, s) := s.readWord .swapMove (dmBase + a)
    let (b, s) : Bytes × State := match w with
      | some d => (leBytes 8 d.toNat, s)
      | none =>
        let s := if s.fld Addr.seSwapStat 24 24 = 1 then s else s.wr Addr.seSwapErraddr (BitVec.ofNat 32 a)
        (leBytes 8 0, (s.setBit Addr.seSwapStat 24 true).ev 0x095 a)
    let (r, s) := s.moveSrc (a + 8) n
    (b ++ r, s)

/-- One MOVE record: the bytes are read, then written. -/
def State.moveRec (s : State) (r : MigRec) : State :=
  if r.c = 0 then s
  else
    let a := r.a / 8 * 8
    let (bs, s) := s.moveSrc a ((r.a + r.c - a + 7) / 8)
    s.dmWrite .swapMove r.b (slice bs (r.a - a) r.c)

/-- TMB after the swap: FREE entries with MIR of the image, then the carried ones (R200, R201). -/
def swapTimers (i : Image) (rs : List MigRec) (old : Sparse Timer) : Sparse Timer :=
  let carried := (rs.filter (·.ty = 3)).foldl (fun m r => sput {} m r.b (sget {} old r.a)) ([] : Sparse Timer)
  (List.range 8192).foldl (fun m k =>
    let b := (i.at (i.at 0x18 4 + k / 8) 1).testBit (k % 8)
    sput {} m k { sget {} carried k with mir := b }) []

/-- Edge memory after the swap. -/
def swapEdges (rs : List MigRec) (old : Sparse (BitVec 2)) : Sparse (BitVec 2) :=
  (rs.filter (·.ty = 4)).foldl (fun m r => sput 0 m r.b (sget 0 old r.a)) []

/-- Pending releases of contexts without an instance start (R197). -/
def State.releaseHeld (s : State) : State :=
  ((s.se.ctxs.filter fun e => e.2.pend && (e.2.st = .waiting || e.2.st = .disabled)).map (·.1)).foldl (fun s n =>
    if !s.userOpen then s.onCtx n fun c => { c with pend := false }
    else s.releaseOrHold n) s

/-- The steps of R200 on everything the swap changes. -/
def State.swapSteps (s : State) (i : Image) : State :=
  let rs := i.recs
  let s : State := { s with se := { s.se with
    tmb := swapTimers i rs s.se.tmb, edge := swapEdges rs s.se.edge, parBad := s.se.parBad.filter (· < 0x1000) } }
  let s := (rs.filter (·.ty = 1)).foldl (fun s r => s.moveRec r) s
  let s := (rs.filter (·.ty = 2)).foldl (fun s r => s.dmWrite .swapMove r.a (i.bytes r.b r.c)) s
  let s : State := { s with outImg := (rs.filter (·.ty = 5)).foldl (fun m r => memPut m r.a (i.bytes r.b r.c)) s.outImg }
  let s := s.loadTasks i.tasks
  let s : State := { s with se := { s.se with
    ctxs := smerge {} [] (s.se.ctxs.map fun e => (e.1, { e.2 with g := List.replicate 16 0, consec := 0 }))
    regions := i.regions, program := true } }
  (s.setBit Addr.seSwapStat 8 (s.fld Addr.seSwapStat 8 8 = 0)).wrs (Addr.seRunDigest 0) (toWords (i.bytes 0x40 32))

/-- CTX0 of the new program (R89, R200): it restarts, starts where the old program had none, and stops where the new
one has none. -/
def State.swapCtx0 (s : State) : State :=
  if s.op = .run && s.se.leaving.isNone && !s.se.starting && s.ctxEn 0 then
    if (s.ctx 0).st = .disabled || (s.ctx 0).st = .waiting then s.start0 else s.restart0
  else
    let s := s.onCtx 0 fun c => { c with st := .disabled }
    { s with se := { s.se with active := if s.se.active = some 0 then none else s.se.active } }

/-- The swap ends (R186, R197, R200); a DETACHED unit may now meet R401 (R208, R371). -/
def State.swapFinish (s : State) : State :=
  let w := s.se.swap
  let s := s.swapSteps s.chamberImage
  let s := ((s.setLast 1).setChamber .empty).setFld Addr.seSwapTime 9 0 (min ((s.dtime - w.startT) / 1000) 1023)
  let s := s.swapCtx0
  let s := ((s.ev 0x090 0).releaseHeld).dispatch
  let s := (s.swapNotice w.startG).autoJoin
  if s.se.pfWait then ({ s with se := { s.se with pfWait := false } } : State).startCtx4 else s

/-- The swap may start now: at a slack point of a unit alone, or without tasks in STOP and HOLD (R194), and in a pair at
the tick that both agreed on (R206). -/
def State.swapMayStart (s : State) : Bool :=
  let e := s.twl.exch.any fun e => e.arg = 0 && e.go && e.gs = s.se.g
  !s.se.pfail && s.se.swap.chamber = .armed &&
    if s.role = .primary || s.role = .tracking then e && (s.op = .run || s.op = .stop || s.op = .hold)
    else if s.op = .run then s.slack s.tSw
    else s.op = .stop || s.op = .hold

/-- The swap starts: a fence, and the chamber is SWAPPING (R197, R430). -/
def State.swapBegin (s : State) : State :=
  let s := s.fence
  let s := { s with
    twl := { s.twl with exch := s.twl.exch.filter (·.arg ≠ 0) },
    se := { s.se with swap := { s.se.swap with startT := s.dtime, startG := s.se.g } } }
  (s.setBit Addr.seSwapStat 24 false).setChamber .swapping

/-- SWAP_START (R194, R200, R206). -/
def execSwapStart (t : Nat) (s : State) : Host.Outcome State Fault Refusal :=
  let s := s.at t
  .next (if s.swapMayStart then s.swapBegin else s)

/-- SWAP_TIMEOUT (R195); a TRACKING unit was armed by its PRIMARY, whose TIMEOUT counts (R205). -/
def execSwapTimeout (t : Nat) (s : State) : Host.Outcome State Fault Refusal :=
  let s := s.at t
  .next (if s.role ≠ .tracking && s.se.swap.chamber = .armed && s.se.swap.armT + s.se.swap.timeout * 100000000 ≤ s.utick then s.abandonSwap 2 else s)

/-- SWAP_ATTEMPT_LAPSE (R206): g_s is reached without GO, or after it without a start; the holds end. -/
def execSwapAttemptLapse (t : Nat) (s : State) : Host.Outcome State Fault Refusal :=
  let s := s.at t
  .next <| match s.twl.exch with
    | some e =>
      if e.gs ≤ s.se.g && (!e.go || e.gs < s.se.g) then ({ s with twl := { s.twl with exch := none } } : State).releaseHeld.dispatch
      else s
    | none => s

/-! ### Opcodes (R210 to R212) -/

/-- SE_CHAMBER_OPEN. -/
def cmdSeChamberOpen (q : Req) (p : Bytes) (s : State) : State :=
  s.startLen 0x0210 0 q p fun s =>
    match s.se.swap.chamber with
    | .empty => (s.setChamber .open).ok q 0x0210
    | .loaded => (s.setChamber .open).ok q 0x0210
    | .open => s.ok q 0x0210
    | _ => s.fail q 0x0210 0x31

/-- Bank base of the chamber as an internal address. -/
def State.chamberBase (s : State) : Nat := pmBase + 0x800000 * (1 - s.fld Addr.seSwapStat 8 8)

/-- SE_CHAMBER_WRITE: the length rule of R212 is 8 bytes and a multiple of 8 up to 4,072. -/
def cmdSeChamberWrite (q : Req) (p : Bytes) (s : State) : State :=
  s.start 0x0211 q p fun s =>
    let off := field p 0 4
    let d := p.drop 8
    if p.length < 8 || d.length % 8 ≠ 0 || 4072 < d.length then s.fail q 0x0211 0x10
    else if s.se.swap.chamber ≠ .open then s.fail q 0x0211 0x20
    else if off % 8 ≠ 0 || 0x800000 < off + d.length then s.fail q 0x0211 0x11
    else (s.writeBytes .mgcCommand (s.chamberBase + off) d).ok q 0x0211

/-- SE_CHAMBER_CLOSE. -/
def cmdSeChamberClose (q : Req) (p : Bytes) (s : State) : State :=
  s.startLen 0x0212 0 q p fun s =>
    if s.se.swap.chamber ≠ .open then s.fail q 0x0212 0x20
    else (s.accept q 0x0212).setChamber .closing

/-- CHAMBER_CHECK_END (R192, R390, R459): LOADED with its DIGEST and MIGKIB, or OPEN again. -/
def execChamberCheckEnd (s : State) : Host.Outcome State Fault Refusal :=
  .next <|
    if s.se.swap.chamber ≠ .closing then s
    else
      let i := s.chamberImage
      match s.imageLost i with
      | some a => ((s.unrebRead .mgcCommand a).setChamber .open).noticeAll 0x0212 0x0850
      | none =>
        match i.fail with
        | some o => (s.setChamber .open).noticeAll 0x0212 0x0211 (leBytes 4 o)
        | none =>
          let d := i.bytes 0x40 32
          let s := (s.wrs (Addr.seChamberDigest 0) (toWords d)).wr Addr.seSwapMig (BitVec.ofNat 32 (migKib i.recs))
          (s.setChamber .loaded).noticeAll 0x0212 0x0200 d

/-- The twin check of R205: the twin's record shows a LOADED chamber; the comparison of its DIGEST, which no
frame of R377 carries, is a free value (log entry 26). -/
def State.twinCheck (s : State) : Bool × State :=
  let (v, s) := s.free
  (s.twl.link = .up && (match s.peerWord 13 with | some w => bitsOf w 2 0 = 3 | none => false) && v % 2 = 1, s)

/-- The swap is armed (R210). -/
def State.arm (s : State) (q : Req) (timeout : Nat) : State :=
  let s := (s.accept q 0x0213).setChamber .armed
  let s := { s with se := { s.se with swap := { s.se.swap with armT := s.utick, timeout := timeout } } }
  (s.setFld Addr.seSwapTime 31 16 0).ev 0x092 0

/-- SE_SWAP_ARM (R210). -/
def cmdSeSwapArm (q : Req) (p : Bytes) (s : State) : State :=
  s.startLen 0x0213 4 q p fun s =>
    let t := (p.getD 0 0).toNat
    if t = 0 || 60 < t then s.fail q 0x0213 0x11
    else if s.op = .boot || s.op = .recovery || s.op = .fault then s.fail q 0x0213 0x20
    else if s.role = .tracking || s.role = .joining then s.fail q 0x0213 0x21
    else match s.se.swap.chamber with
      | .armed => s.fail q 0x0213 0x31
      | .swapping => s.fail q 0x0213 0x31
      | .loaded =>
        if s.commits.any fun c => c.blk = .se then s.fail q 0x0213 0x31
        else if s.role = .primary then
          match s.twinCheck with
          | (true, s) => s.arm q t
          | (false, s) => (s.ev 0x096 0).fail q 0x0213 0x20
        else s.arm q t
      | _ => s.fail q 0x0213 0x20

/-- SE_SWAP_DISARM (R212). -/
def cmdSeSwapDisarm (q : Req) (p : Bytes) (s : State) : State :=
  s.startLen 0x0214 0 q p fun s =>
    match s.se.swap.chamber with
    | .armed => (s.disarm 3).ok q 0x0214
    | .swapping => s.fail q 0x0214 0x31
    | _ => s.fail q 0x0214 0x20

/-- SE_SWAP_MIG as it reads. -/
def State.swapMigReg (s : State) : Word := if s.se.swap.chamber = .loaded then s.rd Addr.seSwapMig else 0

/-- SE_SWAP_STATUS (R212). -/
def cmdSeSwapStatus (q : Req) (p : Bytes) (s : State) : State :=
  s.startLen 0x0215 0 q p fun s =>
    s.ok q 0x0215 (wordBytes (s.rd Addr.seSwapStat) ++ wordBytes s.swapMigReg ++ wordBytes (s.rd Addr.seSwapTime) ++
      wordBytes (s.rd Addr.seSwapErraddr))

/-- SE_CHAMBER_OPEN. -/
def execSeChamberOpen (q : Req) (p : Bytes) (s : State) : Host.Outcome State Fault Refusal := .next (cmdSeChamberOpen q p s)
/-- SE_CHAMBER_WRITE. -/
def execSeChamberWrite (q : Req) (p : Bytes) (s : State) : Host.Outcome State Fault Refusal := .next (cmdSeChamberWrite q p s)
/-- SE_CHAMBER_CLOSE. -/
def execSeChamberClose (q : Req) (p : Bytes) (s : State) : Host.Outcome State Fault Refusal := .next (cmdSeChamberClose q p s)
/-- SE_SWAP_ARM. -/
def execSeSwapArm (q : Req) (p : Bytes) (s : State) : Host.Outcome State Fault Refusal := .next (cmdSeSwapArm q p s)
/-- SE_SWAP_DISARM. -/
def execSeSwapDisarm (q : Req) (p : Bytes) (s : State) : Host.Outcome State Fault Refusal := .next (cmdSeSwapDisarm q p s)
/-- SE_SWAP_STATUS. -/
def execSeSwapStatus (q : Req) (p : Bytes) (s : State) : Host.Outcome State Fault Refusal := .next (cmdSeSwapStatus q p s)

end Sys2Proof.Machine
end

