-- ==== Sys2Proof/Machine/Twin.lean ====
section
/-! DEFINITION. Twin operation: the peer-alive signal, the towline and its frames, start-up of a pair, joining,
mirroring, switchover, and the TWL opcodes (R368 to R414). -/

namespace Sys2Proof.Machine

/-! ### Output update tick and tachometer edges with their twin parts -/

/-- PALO is high (R383). -/
def State.paloWant (s : State) : Bool :=
  s.pairOn && s.power = .on && (s.op = .stop || s.op = .run || s.op = .hold) && !s.se.pfail && !s.se.pfWait &&
    s.fio.linkSeen && s.fio.linkBad < 3

/-- The PRIMARY's frames go to the twin: PRIMARY, or SOLO while its twin joins (R377). -/
def State.leads (s : State) : Bool := s.role = .primary || (s.role = .solo && s.twl.jphase ≠ 0)

/-- The PRIMARY's COUNT and alignment taken at an accepted pulse at `t` (R398). -/
def State.shaftTake (s : State) (n t : Nat) : State :=
  match s.twl.shSync.find? fun e => e.1 = n with
  | none => s
  | some (_, c, stamp) =>
    let s := { s with twl := { s.twl with shSync := sdel s.twl.shSync n } }
    let x := s.shaft n
    let k := if x.delta = 0 then 0 else (t - stamp + x.delta / 2) / x.delta
    let p := s.ppr n
    let s := s.wr (Addr.shCount n) (BitVec.ofNat 32 (c + k / p))
    let s := s.setShaft n { x with pulse := k % p }
    (s.inc Addr.twlShresync).ev 0x1CC n

/-- A pulse of a shaft, with what crosses the towline (R125, R398). -/
def State.tachShaft (s : State) (n t : Nat) : State :=
  let st := s.shStamp n
  let acc := (s.shaft n).last
  let g := s.fld (Addr.shStat n) 31 16
  let s := s.shaftPulse n t
  let s := s.when ((s.shaft n).last ≠ acc && s.fld (Addr.shStat n) 31 16 = g) (·.shaftTake n t)
  s.when (s.leads && s.shStamp n ≠ st) (·.twlSend (.shaft n (s.rd (Addr.shCount n)) (s.shStamp n)))

/-- TACH_EDGE (R125, R126, R354, R355). -/
def execTachEdge (ch : Nat) (rising : Bool) (t : Nat) (s : State) : Host.Outcome State Fault Refusal :=
  let s := s.at t
  .next <| if ch < 48 && s.chMode ch = 4 then
      let s := s.when rising fun s => s.wr (Addr.chTach ch) (s.rd (Addr.chTach ch) + 1)
      (s.edgeShafts ch rising).foldl (fun s n => s.tachShaft n (stampOf t)) s
    else s

/-! ### What the twin's record says -/

/-- A record taken over, with the epoch it carries (R370). -/
def State.takeCap (s : State) (cap : Words) : State :=
  { s with twl := { s.twl with peer := some cap, peerEpoch := some (bitsOf (cap.getD 1 0) 14 0) } }

/-! ### Loss of the towline and of the twin (R371, R379, R407, R409) -/

/-- A towline loss counts as the loss of both (R385). -/
def State.paliGone (s : State) : Bool := !s.twl.pali || s.twl.paliFault

/-- A mirror cycle discarded (R395). -/
def State.cycDiscard (s : State) : State :=
  match s.twl.cyc with
  | some c => (({ s with twl := { s.twl with cyc := none } } : State).inc Addr.twlDiscard).ev 0x1CB c.ctx
  | none => s

/-- What is left of the link's state when it goes down. -/
def State.linkClear (s : State) (l : Link) : State :=
  { s with twl := { s.twl with
    link := l, peer := none, capSent := none, paliq := none, replay := [], repeats := 0, fseq := 0, rseq := 0, sent := none } }

/-- A SOLO unit's part in a join ends: the twin has given it up, or is gone (R406). -/
def State.joinOver (s : State) : State := { s with twl := { s.twl with jphase := 0, te := none, send := [] } }

/-- The role changes of a towline loss (R371, R406). -/
def State.lostRole (s : State) : State :=
  match s.role with
  | .primary =>
    let s := s.when s.twl.switch.isSome (·.switchEnd 0x0720)
    if s.paliGone then s.goAlone else s.setRole .solo
  | .tracking =>
    if s.twl.left then s
    else
      let s := { s with twl := { s.twl with done := [], swapLoss := decide (s.se.swap.chamber = Chamber.armed) } }
      if s.paliGone then s.goAlone else s.setRole .detached
  | .joining => s.joinFail 1
  | .solo => s.joinOver
  | .detached => s

/-- The towline is lost, with its cause (R379). -/
def State.twlLost (s : State) (cause : Nat) : State :=
  if s.twl.link ≠ .up && s.twl.link ≠ .conflict then s
  else
    let up := s.twl.link = .up
    let s := ((s.linkClear .down).inc Addr.twlLinkdown).ev 0x1C2 cause
    let s := s.cycDiscard
    s.when up (·.lostRole)

/-- TOWLINE_LOCK_LOST (R378, R379): lane lock, or a frame repeated 3 times without acknowledgement. -/
def execTowlineLockLost (retries : Bool) (t : Nat) (s : State) : Host.Outcome State Fault Refusal :=
  let s := s.at t
  .next (if retries && s.twl.repeats < 3 then s else s.twlLost (b2n retries))

/-- TICK_TIMEOUT (R379): no TICK for 25 µs in TRACKING or JOINING. -/
def execTickTimeout (t : Nat) (s : State) : Host.Outcome State Fault Refusal :=
  let s := s.at t
  .next <| if (s.role = .tracking || s.role = .joining) && s.twl.lastTick + 25000 ≤ s.dtime then s.twlLost 2 else s

/-- A LEAVE from the twin, or what counts as one (R385, R407). -/
def State.leaveSeen (s : State) : State :=
  let s := { s with twl := { s.twl with calm := s.twl.pali } }
  match s.role with
  | .primary => (s.when s.twl.switch.isSome (·.switchEnd 0x0720)).setRole .solo
  | .tracking => { s with twl := { s.twl with left := true } }
  | .joining => s.joinFail 7
  | .solo => s.joinOver
  | .detached => s

/-- A frame of an acknowledged type has arrived in order: a cumulative ACK answers it (R378). -/
def State.good (s : State) : State :=
  let n := s.twl.rseq
  ({ s with twl := { s.twl with rseq := (n + 1) % 256 } } : State).twlSend (.ack n false)

/-- A received frame of an acknowledged type, with the towline up: acknowledged, then `f`. -/
def State.onFrame (s : State) (f : State → State) : State := if s.twl.link = .up then f s.good else s

/-- LEAVE. -/
def execLeave (t : Nat) (s : State) : Host.Outcome State Fault Refusal := .next ((s.at t).onFrame (·.leaveSeen))

/-! ### Peer-alive (R384, R385) -/

/-- PALI_LOST (R360, R384, R385). -/
def execPaliLost (t : Nat) (s : State) : Host.Outcome State Fault Refusal :=
  let s := s.at t
  .next <| if !s.twl.pali then s
    else
      let calm := s.twl.calm
      let s := ({ s with twl := { s.twl with pali := false, calm := false } } : State)
      let s := (s.inc Addr.twlPaliloss).ev 0x1C3 0
      if calm then s
      else
        let s := s.when (s.role = .tracking) fun s => { s with fio := { s.fio with takeover := true, takeNew := true } }
        if s.twl.link = .up then ({ s with twl := { s.twl with paliq := some s.utick } } : State).twlCtrl 9 0 0 else s

/-- PALI_ALIVE (R384, R385). -/
def execPaliAlive (s : State) : Host.Outcome State Fault Refusal :=
  .next <| if s.twl.pali then s
    else ({ s with twl := { s.twl with pali := true, paliFault := false } } : State).ev 0x1C4 0

/-- A wiring fault of the peer-alive line (R385). -/
def State.paliFaulty (s : State) : State := ({ s with twl := { s.twl with paliFault := true } } : State).ev 0x1CD 0

/-- PALIQ (R385): the twin sees PALI lost, so PALO = 1 is a wiring fault. -/
def execPaliq (s : State) : Host.Outcome State Fault Refusal :=
  .next (s.onFrame fun s => (s.twlCtrl 10 (b2n s.twl.palo) 0).when s.twl.palo (·.paliFaulty))

/-- PALIANS (R385), within 100 µs of the question. -/
def execPalians (palo : Bool) (t : Nat) (s : State) : Host.Outcome State Fault Refusal :=
  .next ((s.at t).onFrame fun s =>
    if !s.twl.paliq.any (fun t0 => s.utick ≤ t0 + 10000) then s
    else
      let s := { s with twl := { s.twl with paliq := none } }
      if palo then ({ s with fio := { s.fio with takeover := false, takeNew := false } } : State).paliFaulty
      else s.leaveSeen)

/-- PALIQ_TIMEOUT (R385). -/
def execPaliqTimeout (t : Nat) (s : State) : Host.Outcome State Fault Refusal :=
  let s := s.at t
  .next <| match s.twl.paliq with
    | some t0 => if t0 + 10000 ≤ s.utick then ({ s with twl := { s.twl with paliq := none } } : State).leaveSeen else s
    | none => s

/-! ### Training, capability and start-up (R372, R373, R380, R381, R410) -/

/-- TRAINING_ATTEMPT (R380): it succeeds so far, or fails; the tenth failure in a row records EV 0x1CE. -/
def execTrainingAttempt (ok : Bool) (s : State) : Host.Outcome State Fault Refusal :=
  .next <| if !s.pairOn || s.twl.link = .up || s.twl.link = .conflict then s
    else if ok then { s with twl := { s.twl with link := .training } }
    else
      let n := min (s.twl.fails + 1) 11
      let s := { s with twl := { s.twl with link := .down, fails := n } }
      s.when (n = 10) (·.ev 0x1CE 0)

/-- The outcome of the start-up wait (R372). -/
def State.startOutcome (s : State) : State :=
  let s := { s with twl := { s.twl with wait := none } }
  if s.twl.link = .up then
    if s.peerRole = 0 || s.peerRole = 1 || s.peerRole = 2 || s.unitN = 1 then (s.setRole .detached).autoJoin
    else s.goAlone
  else if s.twl.pali || s.twl.link = .conflict then s.setRole .detached
  else s.goAlone

/-- Equal unit bits on both sides (R373). -/
def State.strapClash (s : State) (cap : Words) : Bool := bitsOf (cap.getD 0 0) 8 8 = s.unitN

/-- What a SOLO or DETACHED unit does on the twin's record; `old`: the twin's role before (R401, R406, R410). -/
def State.soloDecide (s : State) (old : Nat) : State :=
  let s := s.when (s.role = .solo && old = 3 && s.peerRole ≠ 3 && s.peerRole ≠ 2) (·.joinOver)
  let s :=
    if s.role = .solo && s.twl.jphase = 0 && s.peerRole = 0 && serialNewer s.peerClaim s.ownClaim then
      (s.ev 0x1C6 (s.ownClaim + s.peerClaim * 65536)).setRole .detached
    else s
  s.autoJoin

/-- After a towline loss that found a swap armed in TRACKING, the twin's record shows whether it has swapped (R207). -/
def State.swapMismatch (s : State) : State :=
  let lost := s.twl.swapLoss
  let s := { s with twl := { s.twl with swapLoss := false } }
  s.when (lost && !s.sameDigest) (·.ev 0x093 0)

/-- TOWLINE_UP (R207, R372, R373, R380, R381, R410). -/
def execTowlineUp (delay skew : Nat) (cap : Words) (t : Nat) (s : State) : Host.Outcome State Fault Refusal :=
  let s := s.at t
  .next <| if !s.pairOn || s.twl.link = .up || s.twl.link = .conflict then s
    else
      let s := (s.linkClear .up).wr Addr.twlDelay (BitVec.ofNat 32 (min delay 0xFFFF + min skew 0xFF * 65536))
      let s := { s with twl := { s.twl with fails := 0, lastTick := s.dtime } }
      if s.strapClash cap then (s.linkClear .conflict).ev 0x1CA 0
      else
        let s := ((s.takeCap cap).event 0x1C1 (cap.getD 0 0)).sendCap
        let s := s.swapMismatch
        if s.twl.wait.isSome then s.startOutcome else s.soloDecide 7

/-- SOLOWAIT_EXPIRED (R372). -/
def execSolowaitExpired (t : Nat) (s : State) : Host.Outcome State Fault Refusal :=
  let s := s.at t
  .next <| match s.twl.wait with
    | some w => if w ≤ s.utick then s.startOutcome else s
    | none => s

/-- REASON for which a running join fails on the twin's record (R406). -/
def State.capFail (s : State) : Option Nat :=
  if s.peerRole ≠ 0 && !(s.peerRole = 1 && s.twl.jphase = 3) then some 2
  else if !s.sameDigest then some 3
  else if s.stageKib < s.peerN 12 11 0 + 4 then some 4
  else if s.peerN 13 2 0 = 4 || s.peerN 13 2 0 = 5 then some 5
  else if s.peerN 0 7 0 ≠ s.proto then some 6
  else none

/-- A TRACKING unit's chamber follows its PRIMARY's: armed with it, and back to LOADED with its outcome when no swap
comes of it (R205, R209; log entry 118). `old`: the twin's CHAMBER before. -/
def State.followArm (s : State) (old : Nat) : State :=
  let c := s.peerN 13 2 0
  let o := s.peerN 13 15 8
  if c = 4 && old ≠ 4 && s.se.swap.chamber = .loaded then (s.setChamber .armed).ev 0x092 0
  else if c = 4 || c = 5 || s.se.swap.chamber ≠ .armed then s
  else if o = 3 then s.disarm 3
  else s.abandonSwap (if o = 1 then 4 else o)

/-- TWL_CAP (R205, R207, R209, R373, R381, R401, R406, R410). -/
def execTwlCap (cap : Words) (t : Nat) (s : State) : Host.Outcome State Fault Refusal :=
  .next ((s.at t).onFrame fun s =>
    if s.strapClash cap then (s.linkClear .conflict).ev 0x1CA 0
    else
      let old := s.peerRole
      let chamber := s.peerN 13 2 0
      let s := s.takeCap cap
      let s := s.when (s.peerRole ≠ old) (·.abandonSwap 4)
      match s.role with
      | .joining => match s.capFail with | some r => s.joinFail r | none => s
      | .tracking =>
        if s.sameDigest || s.se.swap.chamber = .swapping || s.twl.exch.isSome then s.followArm chamber
        else (s.ev 0x093 0).leaveTwin
      | .primary => s
      | _ => s.soloDecide old)

/-! ### Frames that carry the link itself (R376 to R378, R380, R382) -/

/-- Device time aligned to the tick source's (R382): it runs on to an instant that the time since the last TICK reaches,
and is set to any other. -/
def State.alignTime (s : State) (t : Nat) : State :=
  if s.dtime ≤ t && t ≤ s.dtime + 25000 then s.at t else s.stepTime t

/-- TWL_TICK (R382): grid and device time of the other unit follow, with the one-way delay added. -/
def execTwlTick (time : Nat) (s : State) : Host.Outcome State Fault Refusal :=
  .next <| if s.twl.link = .up && (s.role = .tracking || s.role = .joining) then
      let t := (time * 10 + s.fld Addr.twlDelay 15 0) / 10 * 10
      let s := s.alignTime t
      { s with twl := { s.twl with lastTick := t } }
    else s

/-- The frames of the replay buffer that an ACK of `seq` leaves. -/
def ackRest (seq : Nat) (l : List (Nat × TwlFrame)) : List (Nat × TwlFrame) :=
  if l.any (·.1 = seq) then (l.dropWhile fun e => e.1 ≠ seq).drop 1 else l

/-- TWL_ACK (R378): cumulative; with NAK every frame left is repeated. -/
def execTwlAck (seq : BitVec 8) (nak : Bool) (credit : BitVec 16) (s : State) : Host.Outcome State Fault Refusal :=
  .next <| if s.twl.link ≠ .up then s
    else
      let rest := ackRest seq.toNat s.twl.replay
      let moved := rest.length < s.twl.replay.length
      let s := { s with twl := { s.twl with
        replay := rest, credit := credit.toNat,
        repeats := (if moved then 0 else s.twl.repeats) + b2n (nak && !rest.isEmpty) } }
      s.when nak (·.addCnt Addr.twlRetrans rest.length)

/-- TWL_ECHO (R380): returned unchanged during training. -/
def execTwlEcho (w0 w1 : Word) (s : State) : Host.Outcome State Fault Refusal :=
  .next (if s.twl.link = .training then s.twlSend (.echo w0 w1) else s)

/-- TWL_BAD_FRAME (R378): NAK, and TWL_CRCERR. -/
def execTwlBadFrame (s : State) : Host.Outcome State Fault Refusal :=
  .next (if s.twl.link = .down then s else (s.inc Addr.twlCrcerr).twlSend (.ack ((s.twl.rseq + 255) % 256) true))

/-- The frame types of R377. -/
def twlTypes : Nats := [0x01, 0x02, 0x03, 0x04, 0x05, 0x10, 0x11, 0x12, 0x13, 0x20, 0x21, 0x30, 0x31, 0x32]

/-- TWL_RESERVED_FRAME (R377). -/
def execTwlReservedFrame (ty : Byte) (s : State) : Host.Outcome State Fault Refusal :=
  .next (if s.twl.link = .down || twlTypes.contains ty.toNat then s else s.inc Addr.twlCrcerr)

/-! ### The exchange of R206 and the switchover (R386, R408) -/

/-- PROPOSE (R206, R408). -/
def execPropose (arg gs t : Nat) (s : State) : Host.Outcome State Fault Refusal :=
  .next ((s.at t).onFrame fun s =>
    if s.role ≠ .tracking || 1 < arg then s
    else
      let w := if arg = 0 then s.tSw else 20000
      let ahead := s.se.gT + 10000 * (gs - s.se.g) - s.dtime
      let ready : Bool := s.se.g < gs && s.slack (ahead + w) &&
        (if arg = 0 then s.se.swap.chamber = .armed && !s.se.pfail else s.twl.done.isEmpty && s.twl.cyc.isNone)
      if ready then ({ s with twl := { s.twl with exch := some ⟨arg, gs, false⟩ } } : State).twlCtrl 2 arg gs
      else s.twlCtrl 3 arg gs)

/-- READY (R206): GO is sent before g_s or not at all. -/
def execReady (arg gs t : Nat) (s : State) : Host.Outcome State Fault Refusal :=
  .next ((s.at t).onFrame fun s =>
    match s.twl.exch with
    | some e =>
      if s.role = .primary && e.arg = arg && e.gs = gs && s.se.g < gs && !e.go then
        ({ s with twl := { s.twl with exch := some { e with go := true } } } : State).twlCtrl 4 arg gs
      else s
    | none => s)

/-- DECLINE (R206): EV 0x094; a swap counts it. -/
def execDecline (arg : Nat) (s : State) : Host.Outcome State Fault Refusal :=
  .next (s.onFrame fun s =>
    if s.role = .primary && s.twl.exch.any (fun e => e.arg = arg && !e.go) then
      let s := { s with twl := { s.twl with exch := none } }
      (s.when (arg = 0) (·.incFld Addr.seSwapTime 31 16)).ev 0x094 0
    else s)

/-- GO (R206), which counts when it comes before g_s. -/
def execGo (arg gs : Nat) (s : State) : Host.Outcome State Fault Refusal :=
  .next (s.onFrame fun s =>
    match s.twl.exch with
    | some e =>
      if s.role = .tracking && e.arg = arg && e.gs = gs && s.se.g < gs then { s with twl := { s.twl with exch := some { e with go := true } } }
      else s
    | none => s)

/-- TWL_STATE (R386). -/
def execTwlState (target gs : Nat) (s : State) : Host.Outcome State Fault Refusal :=
  .next (s.onFrame fun s =>
    match stateOf target with
    | some o => if s.role = .tracking || s.role = .joining then { s with twl := { s.twl with pairReq := some (o, gs) } } else s
    | none => s)

/-- SWITCHOVER_INSTANT (R408), at g_s: roles exchanged, the new epoch written on both, and the notices. -/
def execSwitchoverInstant (t : Nat) (s : State) : Host.Outcome State Fault Refusal :=
  let s := s.at t
  .next <| match s.twl.exch with
    | none => s
    | some e =>
      if e.arg ≠ 1 || !e.go || s.se.g < e.gs then s
      else
        let s := { s with twl := { s.twl with exch := none } }
        let s := s.raiseEpoch
        if s.role = .primary then
          let s := { s with twl := { s.twl with pairClaim := claimOf s.epoch (1 - s.unitN), send := [] } }
          let detach := s.twl.switch.any (·.detach)
          let s := ({ s with twl := { s.twl with switch := none } } : State).setRole .tracking
          let s := { s with twl := { s.twl with lastTick := s.dtime } }
          let s := s.noticeAll 0x0703 0x0700
          (if detach then s.leaveTwin.noticeAll 0x0702 0x0700 else s).releaseHeld.dispatch
        else if s.role = .tracking then
          let s := { s with twl := { s.twl with pairClaim := s.ownClaim } }
          (s.setRole .primary).releaseHeld.dispatch
        else s

/-- SWITCHOVER_TIMEOUT (R413). -/
def execSwitchoverTimeout (t : Nat) (s : State) : Host.Outcome State Fault Refusal :=
  let s := s.at t
  .next <| match s.twl.switch with
    | some w => if w.t + 1000000000 ≤ s.utick && !s.twl.exch.any (fun e => e.arg = 1 && e.go) then s.switchEnd 0x0731 else s
    | none => s

/-! ### Mirroring (R392 to R397) -/

/-- Entry word 1 of a timer (R153). -/
def Timer.word1 (e : Timer) : Word :=
  BitVec.ofNat 32 (e.mode + e.unit * 4 + b2n e.run * 16 + b2n e.inp * 32 + b2n e.mir * 64)

/-- A timer entry from word 1 and whole units counted at a tick. -/
def timerOf (w : Word) (units start : Nat) : Timer :=
  ⟨bitsOf w 1 0, bitsOf w 3 2, w.getLsbD 4, w.getLsbD 5, w.getLsbD 6, units, if w.getLsbD 4 then start else 0⟩

/-- The record of a timer: its start instant in towline time (R393). -/
def State.timerRec (s : State) (k : Nat) : TimerRec :=
  let e := s.timer k
  let run := if e.run then s.utick - e.start else 0
  ⟨k, e.word1, s.dtime / 10 - (e.base * unitTicks e.unit + run)⟩

/-- A timer record taken over: ELAPSED is the whole units since its start instant (R397). -/
def State.putTimer (s : State) (r : TimerRec) : State :=
  if 8192 ≤ r.timer then s
  else
    let u := unitTicks (bitsOf r.word1 3 2)
    let d := s.dtime / 10 - r.start
    s.setTimer r.timer (timerOf r.word1 (min (d / u) 0xFFFFFFFF) (s.utick - d % u))

/-- A block of DM for a mirror frame; words that cannot be rebuilt go as zeros (R427). -/
def State.mirBlock (s : State) (a : Nat) : BlockRec × State :=
  let (d, s) := (List.range 8).foldl (fun (r : Bytes × State) i =>
    match r.2.readWord .mirror (dmBase + a + 8 * i) with
    | (some w, s) => (r.1 ++ leBytes 8 w.toNat, s)
    | (none, s) => (r.1 ++ leBytes 8 0, s)) ([], s)
  ((a, toWords d), s)

/-- A list cut into runs of `n`. -/
def chunks {α : Type} (n : Nat) : Nat → List α → List (List α)
  | 0, _ => []
  | f + 1, l => if l.isEmpty then [] else l.take n :: chunks n f (l.drop n)

/-- Size of a cycle in KiB rounded up, into TWL_MIRROR. -/
def State.setLastKib (s : State) (blocks : Nat) : State := s.setFld Addr.twlMirror 11 0 (min ((blocks * 64 + 1023) / 1024) 0xFFF)

/-- MIRROR_READ_DONE (R392 to R394): the oldest cycle has been read and sent. -/
def execMirrorReadDone (ctx t : Nat) (s : State) : Host.Outcome State Fault Refusal :=
  let s := s.at t
  .next <| match s.twl.send with
    | [] => s
    | c :: rest =>
      if c.ctx ≠ ctx then s
      else
        let s := { s with twl := { s.twl with send := rest } }
        let s := s.twlSend (.mirBegin ctx c.next.isSome (c.next.getD 0))
        let (bs, s) := c.blocks.foldl (fun (r : Blocks × State) a =>
          let (b, s) := r.2.mirBlock a
          (r.1 ++ [b], s)) ([], s)
        let s := (chunks 28 bs.length bs).foldl (fun s b => s.twlSend (.mirData b)) s
        let rs := c.timers.map s.timerRec
        let s := (chunks 120 rs.length rs).foldl (fun s r => s.twlSend (.mirTimer r)) s
        let s := s.twlSend (.mirEnd ctx bs.length rs.length)
        (s.setLastKib bs.length).setFld Addr.twlMirror 31 16 (max (s.fld Addr.twlMirror 31 16) (min ((s.dtime - c.t) / 1000) 0xFFFF))

/-- The unit receives what its twin mirrors. -/
def State.receives (s : State) : Bool := s.role = .tracking || s.role = .joining

/-- MIR_BEGIN (R393, R396). -/
def execMirBegin (ctx : Nat) (nextValid : Bool) (next : Nat) (s : State) : Host.Outcome State Fault Refusal :=
  .next (s.onFrame fun s =>
    if !s.receives then s
    else
      let s := s.cycDiscard
      { s with twl := { s.twl with
        cyc := some ⟨ctx, if nextValid then some next else none, [], []⟩,
        announced := sput 0 s.twl.announced ctx (if nextValid then next + 1 else 0) } })

/-- MIR_DATA (R393, R395). -/
def execMirData (blocks : Blocks) (s : State) : Host.Outcome State Fault Refusal :=
  .next (s.onFrame fun s =>
    { s with twl := { s.twl with cyc := s.twl.cyc.map fun c => { c with blocks := c.blocks ++ blocks } } })

/-- MIR_TIMER (R393). -/
def execMirTimer (recs : TimerRecs) (s : State) : Host.Outcome State Fault Refusal :=
  .next (s.onFrame fun s =>
    { s with twl := { s.twl with cyc := s.twl.cyc.map fun c => { c with timers := c.timers ++ recs } } })

/-- Blocks and timers of a cycle written (R395, R397). -/
def State.applyCycle (s : State) (c : MirCycle) : State :=
  let s := c.blocks.foldl (fun s b => s.dmWrite .mirror b.1 (wordsBytes (b.2.take 16))) s
  (c.timers.foldl (fun s r => s.putTimer r) s).setLastKib c.blocks.length

/-- MIR_END (R395): complete when its counts match. During the snapshot a cycle is written as it arrives (R402). -/
def execMirEnd (ctx blocks timers : Nat) (s : State) : Host.Outcome State Fault Refusal :=
  .next (s.onFrame fun s =>
    match s.twl.cyc with
    | none => s
    | some c =>
      if c.ctx = ctx && c.blocks.length = blocks && c.timers.length = timers then
        let s := { s with twl := { s.twl with cyc := none } }
        if s.follows then { s with twl := { s.twl with done := s.twl.done ++ [c] } } else s.applyCycle c
      else s.cycDiscard)

/-- A cyclic release that waits for its mirror cycle takes place once it is applied (R396). -/
def State.releaseWaiting (s : State) (ctx : Nat) : State :=
  match s.twl.waitRel.find? fun e => e.1 = ctx with
  | some (_, g) =>
    if sget 0 s.twl.announced ctx = g + 1 && !s.cycleOpen ctx && s.userOpen then
      ({ s with twl := { s.twl with waitRel := s.twl.waitRel.filter fun e => e.1 ≠ ctx } } : State).releaseOrHold ctx
    else s
  | none => s

/-- MIRROR_APPLY (R395, R396). -/
def execMirrorApply (ctx t : Nat) (s : State) : Host.Outcome State Fault Refusal :=
  let s := s.at t
  .next <| match s.twl.done.find? fun c => c.ctx = ctx with
    | none => s
    | some c =>
      if (s.ctx ctx).st ≠ .waiting && (s.ctx ctx).st ≠ .disabled then s
      else
        let s := { s with twl := { s.twl with done := s.twl.done.erase c } }
        (s.applyCycle c).releaseWaiting ctx

/-- TRACKING_RELEASE_SKIP (R396): no matching MIR_BEGIN by g' + 2 µs. -/
def execTrackingReleaseSkip (ctx t : Nat) (s : State) : Host.Outcome State Fault Refusal :=
  let s := s.at t
  .next <| match s.twl.waitRel.find? fun e => e.1 = ctx with
    | some (_, g) =>
      if sget 0 s.twl.announced ctx ≠ g + 1 && s.se.gT + 2000 ≤ s.dtime + 10000 * (s.se.g - g) then
        ({ s with twl := { s.twl with waitRel := s.twl.waitRel.filter fun e => e.1 ≠ ctx } } : State).skipRelease ctx
      else s
    | none => s

/-! ### Joining (R401 to R406) -/

/-- JOINREQ (R401, R402): the parts of the snapshot in their order, then SNAP_END; the TRACK phase follows. -/
def execJoinreq (s : State) : Host.Outcome State Fault Refusal :=
  .next (s.onFrame fun s =>
    if s.role ≠ .solo || s.twl.jphase ≠ 0 then s
    else
      let s := (List.range 7).foldl (fun s k => s.twlSend (.snap (k + 1))) s
      let s := s.twlSend (.snapEnd (s.dtime / 10))
      { s with twl := { s.twl with jphase := 2, tracked := [], te := none } })

/-- A word of an entry or an IXE record taken over, with its committed value when it is STAGED. -/
def State.snapWord (s : State) (a : Nat) (w : Word) : State :=
  let s := s.wr a w
  match regRow a with
  | some r => if r.stg ≠ 0 then { s with live := sput (resetVal a) s.live a w } else s
  | none => s

/-- Words of the point records and vote groups taken over, with the status image and the groups brought up to date in one
image write, as for any change of status (R229, R230, R232; log entry 125). -/
def State.snapIxe (s : State) (addr : Nat) (words : Words) : State :=
  let at' := (List.range words.length).map (addr + 4 * ·)
  let ps := (at'.filterMap fun a => if 0x30780000 ≤ a && a < 0x307E0000 then some ((a - 0x30780000) / 64) else none).dedup
  let gs := (at'.filterMap fun a => if 0x307F0000 ≤ a && a < 0x307F8000 then some ((a - 0x307F0000) / 32) else none).dedup
  let old := ps.map fun p => (p, s.nibble p)
  let s := (List.range words.length).foldl (fun s i => s.snapWord (addr + 4 * i) (words.getD i 0)) s
  let new := ps.map fun p => (p, s.nibble p)
  let s := old.foldl (fun s e => s.setFld (Addr.ixePoint20 e.1) 3 0 e.2) s
  s.putStatus .ixeRecord new (ps.flatMap s.groupsOf ++ gs).dedup (ps.map (· / 96)).dedup

/-- The content of a SNAP frame written (R402, R403). -/
def State.snapPut (s : State) (p : SnapPart) : State :=
  match p with
  | .counters epoch claim g refs outs =>
    let s := s.setEpoch epoch
    let s : State := { s with twl := { s.twl with pairClaim := claim }, se := { s.se with g := g } }
    let s := refs.foldl (fun s e => if e.1 < 16 then s.setFld (Addr.fbpTtRefseq e.1) 15 0 e.2 else s) s
    outs.foldl (fun s e =>
      if e.1 < 16 && e.2.1 < 96 then
        s.wr (Addr.stnEntryW6 (96 * e.1 + e.2.1)) (BitVec.ofNat 32 (e.2.2.1 % 65536 + e.2.2.2 % 65536 * 65536))
      else s) s
  | .stnEntry port stn words =>
    if port < 16 && stn < 96 then
      let s := (List.range 8).foldl (fun s i => s.snapWord (Addr.stnEntryW0 (96 * port + stn) + 4 * i) (words.getD i 0)) s
      s.imgWrite { src := .stn port, cells := s.stnCells (96 * port + stn) }
    else s
  | .timers recs => recs.foldl (fun s r => s.putTimer r) s
  | .edges first cells =>
    { s with se := { s.se with edge := (List.range cells.length).foldl (fun m i =>
        if first + i < 65536 then sput 0 m (first + i) (cells.getD i 0) else m) s.se.edge } }
  | .shaft k stat count period stamp hist =>
    if k < 32 then
      let s := ((s.wr (Addr.shStat k) stat).wr (Addr.shCount k) count).wr (Addr.shPeriod k) period
      let s := s.setStamp k stamp
      s.setShaft k { s.shaft k with hist := hist.take 1024 }
    else s
  | .dm blocks => blocks.foldl (fun s b => s.dmWrite .mirror b.1 (wordsBytes (b.2.take 16))) s
  | .ixe addr words =>
    if 0x30000000 ≤ addr && addr < 0x30780000 then s.writeBytes .mirror addr (wordsBytes words)
    else s.snapIxe addr words

/-- SNAP (R402). -/
def execSnap (part : SnapPart) (s : State) : Host.Outcome State Fault Refusal :=
  .next (s.onFrame fun s => if s.role = .joining then s.snapPut part else s)

/-- The SOLO unit's operating state taken over (R404). -/
def State.joinOp (s : State) (op : Nat) : State :=
  match stateOf op with
  | some .run =>
    let s := s.leaveStop.quietCtxs false
    let s := { s with op := .run, se := { s.se with runT := s.utick, fresh := false, starting := false, gridOn := true } }
    s.when (s.ctxEn 0) (·.start0)
  | some .hold => ({ s.leaveStop.quietCtxs false with op := .hold } : State)
  | _ => s

/-- SNAP_END (R404): the TRACK phase begins; `t` is its towline time as an instant. -/
def execSnapEnd (op g t : Nat) (s : State) : Host.Outcome State Fault Refusal :=
  .next ((s.at t).onFrame fun s =>
    if s.role = .joining && s.twl.jphase = 1 then
      let s : State := { s with twl := { s.twl with jphase := 2, tracked := [] }, se := { s.se with g := g } }
      (s.joinOp op).sendCap
    else s)

/-- The enabled cyclic user contexts. -/
def State.cyclicCtxs (s : State) : Nats := (List.range 160).filter fun n => 16 ≤ n && s.ctxEn n && s.ctxPeriod n ≠ 0

/-- TRACK_PHASE_END (R404, R405), on the SOLO unit: ENTER with t_e 1 ms ahead. -/
def execTrackPhaseEnd (t : Nat) (s : State) : Host.Outcome State Fault Refusal :=
  let s := s.at t
  .next <|
    if s.role = .solo && s.twl.jphase = 2 && (s.op ≠ .run || (s.twl.send.isEmpty && s.cyclicCtxs.all fun n => 2 ≤ sget 0 s.twl.tracked n))
    then
      let te := s.dtime + 1000000
      ({ s with twl := { s.twl with jphase := 3, te := some te } } : State).twlCtrl 7 0 (te / 10)
    else s

/-- ENTER (R405): t_e in towline time. -/
def execEnter (te : Nat) (s : State) : Host.Outcome State Fault Refusal :=
  .next (s.onFrame fun s =>
    if s.role = .joining && s.twl.jphase = 2 then { s with twl := { s.twl with jphase := 3, te := some (te * 10) } } else s)

/-- ENTRY_INSTANT (R371, R405). -/
def execEntryInstant (t : Nat) (s : State) : Host.Outcome State Fault Refusal :=
  let s := s.at t
  .next <| match s.twl.te with
    | none => s
    | some te =>
      if s.dtime < te || s.twl.jphase ≠ 3 then s
      else
        let s := { s with twl := { s.twl with te := none } }
        if s.role = .joining then
          let claim := if s.peerClaim = 0 then s.twl.pairClaim else s.peerClaim
          let s : State := { s with twl := { s.twl with pairClaim := claim } }
          ((s.ev 0x1C8 0).setRole .tracking).noticeAll 0x0701 0x0700
        else if s.role = .solo then
          ({ s with twl := { s.twl with pairClaim := s.ownClaim } } : State).setRole .primary
        else s

/-! ### Stations, requests and shafts over the towline (R388, R398, R399) -/

/-- STNSYNC (R314, R399): STATE and JOINS of the entry; a LOST decision is each unit's own. -/
def execStnsync (port stn : Nat) (w5 _w6 : Word) (s : State) : Host.Outcome State Fault Refusal :=
  .next (s.onFrame fun s =>
    let k := 96 * port + stn
    if !s.receives || 15 < port || 95 < stn then s
    else
      let s := s.setFld (Addr.stnEntryW5 k) 31 16 (bitsOf w5 31 16)
      let st := bitsOf w5 2 0
      if st = 6 || st = s.stnState k || (s.stnState k = 6 && st = 5) then s
      else ((s.onStn k fun x => { x with lost := false }).setFld (Addr.stnEntryW5 k) 11 8 (bitsOf w5 11 8)).stnSet k st)

/-- TWL_REQ (R303, R388): the same class 5 frame, with the same number and TOKEN. -/
def execTwlReq (port stn : Nat) (token : Byte) (seq : BitVec 16) (data : Bytes) (s : State) : Host.Outcome State Fault Refusal :=
  .next (s.onFrame fun s =>
    if !s.receives || 15 < port || 95 < stn then s
    else
      let k := 96 * port + stn
      let s := s.setFld (Addr.stnEntryW6 k) 31 16 (seq.toNat + 1)
      let s := s.onStn k fun x => { x with tok := (token.toNat + 1) % 256 }
      s.stnFrameOut port (128 + stn) (5 * 256 + stn * 2) (leBytes 2 seq.toNat ++ leBytes 2 s.claimNow ++ data))

/-- The instants and counts of the shaft's boundaries, newest first. -/
def boundaries (stamp count : Nat) : List (Nat × Nat) → List (Nat × Nat)
  | [] => [(stamp, count)]
  | (_, p) :: h => (stamp, count) :: boundaries (stamp - p * 10) (count - 1) h

/-- The distance of two instants. -/
def apart (a b : Nat) : Nat := a - b + (b - a)

/-- TWL_SHAFT (R398): COUNT of the nearest own boundary is compared. -/
def execTwlShaft (sh : Nat) (count : Word) (stamp : Nat) (s : State) : Host.Outcome State Fault Refusal :=
  .next (s.onFrame fun s =>
    if !s.receives || 31 < sh || s.ppr sh = 0 then s
    else
      let x := s.shaft sh
      let bs := if x.acc = 0 && x.hist.isEmpty then [] else boundaries (s.shStamp sh) (s.rdN (Addr.shCount sh)) (x.hist.take 16)
      let near := bs.foldl (fun (b : Option (Nat × Nat)) e => match b with
        | none => some e
        | some c => if apart e.1 stamp < apart c.1 stamp then some e else some c) none
      let ok : Bool := match near with
        | some (t, c) => decide (2 * apart t stamp ≤ x.delta) && decide (c = count.toNat)
        | none => false
      if ok then s
      else { s with twl := { s.twl with shSync := sput (0, 0) s.twl.shSync sh (count.toNat, stamp) } })

/-! ### Commit, registers and opcodes (R412, R413) -/

/-- The TWL group is rejected at an address, or not at all. -/
def State.twlCheck (s : State) (m : Sparse Word) : Option Nat :=
  let a := sf m Addr.twlStage 10 0 * 4096
  let e := a + sf m Addr.twlStage 26 16 * 4096
  lowest (
    (if sf m Addr.twlCfg 0 0 ≠ b2n s.pairOn && !(s.op = .stop && (s.role = .solo || s.role = .detached)) then [Addr.twlCfg] else []) ++
    (if dmSize < e || (a < e && s.se.regions.any fun r => r.mirror && r.len ≠ 0 && r.start < e && a < r.start + r.len)
      then [Addr.twlStage] else []))

/-- What a TWL commit does: a unit that is no longer one of a pair is SOLO, with the towline down; in a pair the record
may change and AUTOJOIN may now start a join (R371, R381). -/
def State.twlApply (s : State) (_old : Sparse Word) : State :=
  if s.pairOn then s.sendCap.autoJoin else (s.linkClear .down).setRole .solo

/-- TWL_STAT as it reads. -/
def State.twlStatReg (s : State) : Word :=
  let link := match s.twl.link with | .down => 0 | .training => 1 | .up => 2 | .conflict => 3
  BitVec.ofNat 32 (s.role.code + link * 16 + b2n s.twl.pali * 64 + b2n s.twl.paliFault * 128 + s.peerRole * 256 +
    s.peerState * 4096 + s.twl.jphase * 65536)

/-- TWL_CLAIM as it reads. -/
def State.twlClaimReg (s : State) : Word := BitVec.ofNat 32 (s.claimNow + s.epoch * 65536)

/-- The counters 0x020 to 0x034. -/
def twlCounters : Nats :=
  [Addr.twlCrcerr, Addr.twlRetrans, Addr.twlLinkdown, Addr.twlDiscard, Addr.twlShresync, Addr.twlPaliloss]

/-- A write to TWL_CLR. -/
def State.twlClr (s : State) (v : Word) : State :=
  s.when (v.getLsbD 0) fun s => (s.clearAll twlCounters).setFld Addr.twlMirror 31 16 0

/-- TWL_CLR. -/
def execTwlClr (v : Word) (s : State) : Host.Outcome State Fault Refusal := .next (s.twlClr v)

/-- TWL_STATUS. -/
def cmdTwlStatus (q : Req) (p : Bytes) (s : State) : State :=
  s.startLen 0x0700 0 q p fun s =>
    s.ok q 0x0700 (wordsBytes [s.twlStatReg, s.twlClaimReg, s.rd Addr.twlDelay, s.rd Addr.twlMirror, s.rd Addr.twlJoinerr,
      if s.twl.link = .up then (s.peerWord 1).getD 0 else 0])

/-- TWL_JOIN (R401, R406). -/
def cmdTwlJoin (q : Req) (p : Bytes) (s : State) : State :=
  s.startLen 0x0701 0 q p fun s =>
    if s.role ≠ .detached || (s.twl.link = .up && s.peerRole ≠ 0) then s.fail q 0x0701 0x21
    else match s.joinReason with
      | some r => ((s.wr Addr.twlJoinerr (BitVec.ofNat 32 r)).ev 0x1C9 r).fail q 0x0701 0x20 [BitVec.ofNat 8 r]
      | none => (s.accept q 0x0701).joinStart

/-- A switchover requested. -/
def State.switchStart (s : State) (detach : Bool) : State :=
  ({ s with twl := { s.twl with switch := some ⟨s.utick, detach⟩ } } : State).propose

/-- TWL_DETACH. -/
def cmdTwlDetach (q : Req) (p : Bytes) (s : State) : State :=
  s.startLen 0x0702 0 q p fun s =>
    match s.role with
    | .tracking => ((s.accept q 0x0702).leaveTwin).noticeAll 0x0702 0x0700
    | .primary => if s.twl.switch.isSome then s.fail q 0x0702 0x31 else (s.accept q 0x0702).switchStart true
    | _ => s.fail q 0x0702 0x21

/-- TWL_SWITCHOVER (R408). -/
def cmdTwlSwitchover (q : Req) (p : Bytes) (s : State) : State :=
  s.startLen 0x0703 0 q p fun s =>
    if s.role ≠ .primary then s.fail q 0x0703 0x21
    else if s.twl.switch.isSome then s.fail q 0x0703 0x31
    else (s.accept q 0x0703).switchStart false

/-- TWL_GO_SOLO (R370, R373, R409). -/
def cmdTwlGoSolo (q : Req) (p : Bytes) (s : State) : State :=
  s.startLen 0x0704 0 q p fun s =>
    if s.role = .detached && (s.twl.link = .down || s.twl.link = .conflict) && !s.twl.pali then
      (({ s with twl := { s.twl with wait := none } } : State).goAlone).ok q 0x0704
    else s.fail q 0x0704 0x21

/-- TWL_EPOCH_SET (R369, R370). -/
def cmdTwlEpochSet (q : Req) (p : Bytes) (s : State) : State :=
  s.startLen 0x0705 4 q p fun s =>
    if 32767 < field p 0 2 then s.fail q 0x0705 0x11
    else if s.op ≠ .stop || (s.role ≠ .solo && s.role ≠ .detached) then s.fail q 0x0705 0x21
    else ((s.setEpoch (field p 0 2)).sendCap).ok q 0x0705

/-- TWL_COUNTERS. -/
def cmdTwlCounters (q : Req) (p : Bytes) (s : State) : State :=
  s.startLen 0x0706 1 q p fun s =>
    let d := twlCounters.flatMap fun a => wordBytes (s.rd a)
    (s.when ((p.getD 0 0).getLsbD 0) (·.clearAll twlCounters)).ok q 0x0706 d

/-- TWL_STATUS. -/
def execTwlStatus (q : Req) (p : Bytes) (s : State) : Host.Outcome State Fault Refusal := .next (cmdTwlStatus q p s)
/-- TWL_JOIN. -/
def execTwlJoin (q : Req) (p : Bytes) (s : State) : Host.Outcome State Fault Refusal := .next (cmdTwlJoin q p s)
/-- TWL_DETACH. -/
def execTwlDetach (q : Req) (p : Bytes) (s : State) : Host.Outcome State Fault Refusal := .next (cmdTwlDetach q p s)
/-- TWL_SWITCHOVER. -/
def execTwlSwitchover (q : Req) (p : Bytes) (s : State) : Host.Outcome State Fault Refusal := .next (cmdTwlSwitchover q p s)
/-- TWL_GO_SOLO. -/
def execTwlGoSolo (q : Req) (p : Bytes) (s : State) : Host.Outcome State Fault Refusal := .next (cmdTwlGoSolo q p s)
/-- TWL_EPOCH_SET. -/
def execTwlEpochSet (q : Req) (p : Bytes) (s : State) : Host.Outcome State Fault Refusal := .next (cmdTwlEpochSet q p s)
/-- TWL_COUNTERS. -/
def execTwlCounters (q : Req) (p : Bytes) (s : State) : Host.Outcome State Fault Refusal := .next (cmdTwlCounters q p s)

end Sys2Proof.Machine
end

