-- ==== Sys2Proof/Machine/MiuCmd.lean ====
section
/-! DEFINITION. Memory integrity, commands and events: the consequences of an unrebuildable read (R427),
the test window and raw access (R435, R436), the scrubber (R437 to R440) and the MIU opcodes (R442). -/

namespace Sys2Proof.Machine

/-! ### A DMA channel halts (R498) -/

/-- The open packet of a channel closed with TRUNC. -/
def State.dmaClose (s : State) (c : Nat) : State :=
  let q := s.lf (Addr.dmaCfg c) 12 8
  s.when ((sget {} s.dmas c).opened && (s.queue q).opened.any (·.1 = 0x20 + c)) (·.qClose q true)

/-- A transfer ends in a state with a cause; the end is a fence (R496, R498). -/
def State.dmaEnd (s : State) (c st cause : Nat) : State :=
  let s : State := { s with dmas := sdel s.dmas c }
  (s.wr (Addr.dmaStat c) (BitVec.ofNat 32 (st + cause * 16))).fence

/-- A channel halts with CAUSE at an address: EV 0x342 (R498). -/
def State.dmaHalt (s : State) (c cause addr : Nat) : State :=
  let s := (s.dmaClose c).wr (Addr.dmaErraddr c) (BitVec.ofNat 32 addr)
  (s.dmaEnd c 3 cause).ev 0x342 (c + cause * 256)

/-- As `dmaHalt`, at an unrebuildable word (R427). -/
def State.dmaLost (s : State) (c addr : Nat) : State := (s.ev 0x202 c).dmaHalt c 1 addr

/-! ### Readers of an unrebuildable page (R427) -/

/-- The IXE meets an unrebuildable page at an address of its state memory (R235): the point, the profile or the vote group
there is taken out of service. -/
def State.ixeLost (s : State) (a : Nat) : State :=
  if 0x307F0000 ≤ a then s.groupLost ((a - 0x307F0000) / 32)
  else if 0x307E0000 ≤ a then s.profileFail ((a - 0x307E0000) / 256)
  else
    let p := if a < 0x30780000 then (a - 0x30000000) / 1280 else (a - 0x30780000) / 64
    if s.ptFailed p then s else s.ptFail p

/-- The unit with a parity bit at an address of the SE: hot bits, the edge cells that IDX selects, or a timer (R182). -/
def State.parUnit (s : State) (a : Nat) : Option Nat :=
  if Addr.seHot 0 ≤ a && a ≤ Addr.seHot 255 then some (hotUnit (8 * (a - Addr.seHot 0)))
  else if a / 8 = Addr.seEdgeData / 8 then some (edgeUnit (16 * s.fld Addr.seEdgeIdx 11 0))
  else if 0x20000 ≤ a && a < 0x30000 then some (tmbUnit ((a - 0x20000) / 8))
  else none

/-- What the reader does (R427). The outcome of a command, a mirror read and a swap MOVE stands with those. -/
def State.readFailed (s : State) (rd : MemReader) (a : Nat) : State :=
  match rd with
  | .seFetch => match s.se.active with
    | some n => s.integrity n 0
    | none => s
  | .seData => match s.se.active with
    | some n => s.integrity n 1
    | none => s
  | .dma c => s.when (s.dmaActive c) (·.dmaLost c a)
  | .mgcOwn => (s.ev 0x203 a).enterFault 0x203
  | .ixe => s.ixeLost a
  | .fbp n b =>
    if !(s.txd n b).dsrc then s
    else if (s.txd n b).m then s.inc (Addr.fbpReqIgn n) else s.failTx n b 3
  | .mgcCommand | .swapMove | .mirror => s

/-- REBUILD_END (R423): the rebuild of a flagged word ends. Where the model's memory holds damage at the
word, its own arithmetic decides; a flag the model holds no damage for is a natural upset, which the page
check repairs when `parity` is true (R421), or leaves unrebuildable with a number of flagged words that is
a free value. An upset in the hot bit file, edge memory or TMB leaves a wrong parity bit there, which no rebuild
mends: the SE read that meets it ends as one of an unrebuildable word (R182). -/
def execRebuildEnd (rd : MemReader) (addr : Nat) (parity : Bool) (s : State) : Host.Outcome State Fault Refusal :=
  let a := addr / 8 * 8
  let okRd : Bool := match rd with
    | .dma c => c < 32
    | .fbp n b => n < 16 && b < 64
    | _ => true
  .next <|
    if memOf a = 3 then
      match s.parUnit addr with
      | some u =>
        let s : State := { s with se := { s.se with parBad := u :: s.se.parBad.filter (· ≠ u) } }
        if rd = .seData then s.readFailed rd a else s
      | none => s
    else if !okRd then s
    else if sget 0 s.miu.chk a ≠ 0 then
      match s.readWord rd a with
      | (some _, s) => s
      | (none, s) => s.readFailed rd a
    else if parity then s.countRebuild a (s.rawWord a)
    else
      let (k, s) := s.free
      let n := 1 + k % 66
      (s.unrebuildable (memSrc rd) (memUnit rd) (s.errCtx rd) n (decide (n < 3)) a).readFailed rd a

/-! ### The test window (R435) -/

/-- MIU_TEST is written (R435, R441). -/
def State.miuTestWr (s : State) (v : Word) : State :=
  let size := bitsOf v 31 25
  if s.op ≠ .stop || bitsOf v 2 1 = 3 || 64 < size then s
  else
    let v := v &&& 0xFEFFFE06
    if size ≠ 0 then ((s.fence.wr Addr.miuTest v).setBit Addr.miuStat 2 true).event 0x209 v
    else
      let was := s.bit Addr.miuStat 2
      let s := (s.wr Addr.miuTest v).setBit Addr.miuStat 2 false
      s.when was (·.ev 0x20A 0)

/-- MIU_TEST_WRITE. -/
def execMiuTestWrite (v : Word) (s : State) : Host.Outcome State Fault Refusal := .next (s.miuTestWr v)

/-- Base and size of a memory's window (R415). -/
def memSpan (m : Nat) : Nat × Nat :=
  match m with
  | 0 => (0x10000000, 0x1000000)
  | 1 => (0x20000000, 0x800000)
  | _ => (0x30000000, 0x800000)

/-- Internal addresses of the open window: first, and first beyond (R435; it ends at the memory's end). -/
def State.testWindow (s : State) : Nat × Nat :=
  let (b, n) := memSpan (s.fld Addr.miuTest 2 1)
  let lo := s.fld Addr.miuTest 23 9 * 512
  (b + min lo n, b + min (lo + s.fld Addr.miuTest 31 25 * 1024) n)

/-- The counters and registers MIU_CLR clears (R441). -/
def miuCounters : Nats :=
  [Addr.miuRebuilds, Addr.miuScrubReb, Addr.miuUncorr, Addr.miuImgfix, Addr.miuSpliceDrop, Addr.miuFirstAddr, Addr.miuErrInfo]

/-- MIU_CLR is written. -/
def State.miuClear (s : State) (v : Word) : State := s.when (v.getLsbD 0) (·.clearAll miuCounters)

/-- MIU_CLR. -/
def execMiuClr (v : Word) (s : State) : Host.Outcome State Fault Refusal := .next (s.miuClear v)

/-- MIU_STATUS (R442). -/
def cmdMiuStatus (q : Req) (p : Bytes) (s : State) : State :=
  s.startLen 0x0800 1 q p fun s =>
    let d := (List.range 10).flatMap fun i => wordBytes (s.rd (Addr.miuStat + 4 * i))
    (s.miuClear (BitVec.ofNat 32 (p.getD 0 0).toNat)).ok q 0x0800 d

/-! ### Raw access (R436) -/

/-- The data words of a page. -/
def pageWords (page : Nat) : Nats := (List.range 64).map fun i => page + 8 * i

/-- P of a page: the sum over the stored data words (R418). -/
def State.sumP (s : State) (page : Nat) : BitVec 64 := (pageWords page).foldl (fun x a => x ^^^ s.rawWord a) 0

/-- Q of a page. -/
def State.sumQ (s : State) (page : Nat) : BitVec 64 :=
  (pageWords page).foldl (fun x a => x ^^^ colMul (aPow ((a - page) / 8)) (s.rawWord a)) 0

/-- The stored data and check bits of item WHAT at `a` (R436). -/
def State.rawItem (s : State) (what a : Nat) : BitVec 64 × BitVec 8 :=
  match what with
  | 0 => (s.rawWord a, s.storedChk a)
  | 1 =>
    let d := s.sumP a ^^^ sget 0 s.miu.pdev a
    (d, wordCheck d ^^^ sget 0 s.miu.pchk a)
  | _ =>
    let d := s.sumQ a ^^^ sget 0 s.miu.qdev a
    (d, wordCheck d ^^^ sget 0 s.miu.qchk a)

/-- Item WHAT at `a` stored as given, with no other check updated (R436). -/
def State.setItem (s : State) (what a : Nat) (d : BitVec 64) (c : BitVec 8) : State :=
  match what with
  | 0 =>
    let page := pageOf a
    let x := s.rawWord a ^^^ d
    let s := s.setRaw a d
    { s with miu := { s.miu with
        chk := sput 0 s.miu.chk a (wordCheck d ^^^ c),
        pdev := supd 0 s.miu.pdev page (· ^^^ x),
        qdev := supd 0 s.miu.qdev page (· ^^^ colMul (aPow ((a - page) / 8)) x),
        cache := s.miu.cache.filter (·.1 ≠ a) } }
  | 1 =>
    { s with miu := { s.miu with pdev := sput 0 s.miu.pdev a (d ^^^ s.sumP a), pchk := sput 0 s.miu.pchk a (wordCheck d ^^^ c) } }
  | _ =>
    { s with miu := { s.miu with qdev := sput 0 s.miu.qdev a (d ^^^ s.sumQ a), qchk := sput 0 s.miu.qchk a (wordCheck d ^^^ c) } }

/-- `n` items of WHAT from `a` on are whole words or pages of the window (R436). -/
def State.inTest (s : State) (what a n : Nat) : Bool :=
  let (lo, hi) := s.testWindow
  let step := if what = 0 then 8 else 512
  a % step = 0 && lo ≤ a && a + step * n ≤ hi

/-- A write through the PM window that is refused: to the running bank in RUN or HOLD (R81), to the chamber unless it
is OPEN (R185). -/
def State.pmRefused (s : State) (a n : Nat) : Bool :=
  let bank := s.fld Addr.seSwapStat 8 8
  let hits (b : Nat) : Bool := a < 0x10000000 + 0x800000 * (b + 1) && 0x10000000 + 0x800000 * b < a + n
  (hits bank && (s.op = .run || s.op = .hold)) || (hits (1 - bank) && decide (s.se.swap.chamber ≠ Chamber.open))

/-- MIU_RAW_READ (R442). -/
def cmdMiuRawRead (q : Req) (p : Bytes) (s : State) : State :=
  s.startLen 0x0803 8 q p fun s =>
    let a := field p 0 4
    let what := field p 4 1
    let n := field p 5 1
    if 2 < what || 254 < n then s.fail q 0x0803 0x11
    else if !s.bit Addr.miuStat 2 then s.fail q 0x0803 0x20
    else if n ≠ 0 && !s.inTest what a n then s.fail q 0x0803 0x11
    else if s.swapping && memOf a = 1 then s.reWait 0x0803 q p
    else
      let step := if what = 0 then 8 else 512
      s.ok q 0x0803 ((List.range n).flatMap fun i =>
        let (d, c) := s.rawItem what (a + step * i)
        leBytes 8 d.toNat ++ [c, BitVec.ofNat 8 (b2n (decide (wordCheck d = c)))] ++ List.replicate 6 0)

/-- MIU_RAW_WRITE (R442). A write to the chamber is refused unless it is OPEN, with the status of this group (R185). -/
def cmdMiuRawWrite (q : Req) (p : Bytes) (s : State) : State :=
  s.startLen 0x0804 20 q p fun s =>
    let a := field p 0 4
    let what := field p 4 1
    let parts := field p 5 1
    if 2 < what || parts % 4 = 0 then s.fail q 0x0804 0x11
    else if !s.bit Addr.miuStat 2 then s.fail q 0x0804 0x20
    else if !s.inTest what a 1 then s.fail q 0x0804 0x11
    else if s.pmRefused a (if what = 0 then 8 else 512) then s.fail q 0x0804 0x20
    else if s.swapping && memOf a = 1 then s.reWait 0x0804 q p
    else
      let s := match s.miu.splice.find? fun e => what = 0 && e.addr = a with
        | some e => s.flushEntry e
        | none => s
      let (d, c) := s.rawItem what a
      let d := if parts % 2 = 1 then BitVec.ofNat 64 (field p 8 8) else d
      let c := if 2 ≤ parts % 4 then BitVec.ofNat 8 (field p 16 1) else c
      (s.setItem what a d c).ok q 0x0804

/-! ### The scrubber (R437 to R440) -/

/-- The range lies in one of the three windows. -/
def oneWindow (a n : Nat) : Bool :=
  a % 8 = 0 && memOf a ≠ 3 && a + 8 * n ≤ (memSpan (memOf a)).1 + (memSpan (memOf a)).2

/-- The pages a range touches. -/
def pagesIn (a n : Nat) : Nats :=
  (List.range ((a + 8 * n + 511) / 512 - a / 512)).map fun i => pageOf a + 512 * i

/-- A range touches the running PM bank. -/
def State.inRunningBank (s : State) (a n : Nat) : Bool :=
  let b := pmBase + 0x800000 * s.fld Addr.seSwapStat 8 8
  n ≠ 0 && pageOf a < b + 0x800000 && b < a + 8 * n

/-- The 24-byte summary of a scrub (R442). -/
def Scrub.summary (k : Scrub) : Bytes :=
  [k.words, k.rebuilt, k.uncorr, k.first, k.syndskip, 0].flatMap (leBytes 4)

/-- MIU_SCRUB (R440, R442). -/
def cmdMiuScrub (q : Req) (p : Bytes) (s : State) : State :=
  s.startLen 0x0801 12 q p fun s =>
    let a := field p 0 4
    let n := field p 4 4
    let re : Bool := (p.getD 8 0).getLsbD 0
    if !oneWindow a n then s.fail q 0x0801 0x11
    else if re && s.op ≠ .stop && s.inRunningBank a n then s.fail q 0x0801 0x20
    else if s.miu.scrub.isSome then s.fail q 0x0801 0x31
    else
      let s := s.accept q 0x0801
      let k : Scrub := ⟨if n = 0 then [] else pagesIn a n, 0, re, 0, 0, 0, 0, 0, 0, false⟩
      if n = 0 then ((s.setFld Addr.miuStat 1 0 2).ev 0x205 0).noticeAll 0x0801 0x0800 k.summary
      else { s.setFld Addr.miuStat 1 0 1 with miu := { s.miu with scrub := some k } }

/-- MIU_SCRUB_ABORT (R442). -/
def cmdMiuScrubAbort (q : Req) (p : Bytes) (s : State) : State :=
  s.startLen 0x0802 0 q p fun s =>
    ({ s with miu := { s.miu with scrub := s.miu.scrub.map fun k => { k with abort := true } } } : State).ok q 0x0802

/-- The rebuild cache forgets a word. -/
def State.forgetCache (s : State) (a : Nat) : State :=
  { s with miu := { s.miu with cache := s.miu.cache.filter (·.1 ≠ a) } }

/-- The page's rebuilt words written back (R437): each adds 1 to MIU_SCRUB_REB, a data word counts as a
rebuild as well (R426); a flagged page-check word is recomputed. -/
def State.scrubRepair (s : State) (page : Nat) (rs : List (Nat × BitVec 64)) : State :=
  let s := rs.foldl (fun s e =>
    let s := (s.inc Addr.miuRebuilds).wr Addr.miuLastAddr (BitVec.ofNat 32 e.1)
    ((s.ev 0x200 e.1).forgetCache e.1).setRaw e.1 e.2) s
  let s := s.addCnt Addr.miuScrubReb (rs.length + b2n (s.pFlag page) + b2n (s.qFlag page))
  { s with miu := { s.miu with
      chk := s.miu.chk.filter fun e => pageOf e.1 ≠ page,
      pchk := sdel s.miu.pchk page, qchk := sdel s.miu.qchk page, pdev := sdel s.miu.pdev page, qdev := sdel s.miu.qdev page } }

/-- An unrebuildable page re-initialised (R438). -/
def State.scrubReinit (s : State) (page : Nat) : State :=
  let s := (s.flaggedWords page).foldl (fun s a => s.setRaw a 0) s
  let s : State := { s with miu := { s.miu with
      chk := s.miu.chk.filter fun e => pageOf e.1 ≠ page,
      pchk := sdel s.miu.pchk page, qchk := sdel s.miu.qchk page, pdev := sdel s.miu.pdev page, qdev := sdel s.miu.qdev page,
      cache := s.miu.cache.filter fun e => pageOf e.1 ≠ page } }
  s.ev 0x20B page

/-- The scrubber finds the page unrebuildable (R438): the counters of the summary and the registers. -/
def State.scrubLost (s : State) (k : Scrub) (page : Nat) : Scrub × State :=
  let s := s.unrebuildable 9 0 0 (s.flaggedCount page) (s.syndFail page || s.flaggedCount page = 0) page
  ({ k with uncorr := k.uncorr + 1, first := if k.first = 0 then page else k.first },
   s.when k.reinit (·.scrubReinit page))

/-- One pass over a page ends, without an interruption or after the fourth (R437 to R439). -/
def State.scrubPass (s : State) (k : Scrub) (page : Nat) (skip : Bool) : Scrub × State :=
  let k := { k with words := k.words + 64 }
  if s.flaggedCount page ≠ 0 then
    match s.rebuilt page with
    | some rs =>
      ({ k with rebuilt := k.rebuilt + rs.length + b2n (s.pFlag page) + b2n (s.qFlag page) }, s.scrubRepair page rs)
    | none => s.scrubLost k page
  else if skip then ({ k with syndskip := k.syndskip + 1 }, s)
  else if sget 0 s.miu.pdev page ≠ 0 || sget 0 s.miu.qdev page ≠ 0 then s.scrubLost k page
  else (k, s)

/-- The scrub ends: completed, or aborted (R442, R443). -/
def State.scrubEnd (s : State) (k : Scrub) : State :=
  let s : State := { s with miu := { s.miu with scrub := none } }
  if k.abort then ((s.setFld Addr.miuStat 1 0 3).ev 0x206 k.done).noticeAll 0x0801 0x0820 k.summary
  else ((s.setFld Addr.miuStat 1 0 2).ev 0x205 k.uncorr).noticeAll 0x0801 0x0800 k.summary

/-- SCRUB_PAGE (R437 to R440): a pass over the page ends; `hit`: a foreground write reached the page during
it (R439). A pass that found a flagged word has handed the page over before. -/
def execScrubPage (hit : Bool) (s : State) : Host.Outcome State Fault Refusal :=
  .next <| match s.miu.scrub with
    | none => s
    | some k =>
      match k.pages with
      | [] => s.scrubEnd k
      | page :: rest =>
        if hit && k.pass < 3 && s.flaggedCount page = 0 then
          { s with miu := { s.miu with scrub := some { k with pass := k.pass + 1 } } }
        else
          let (k, s) := s.scrubPass k page hit
          let k := { k with pages := rest, pass := 0, done := k.done + 1 }
          if rest.isEmpty || k.abort then s.scrubEnd k
          else { s with miu := { s.miu with scrub := some k } }

/-- MIU_STATUS. -/
def execMiuStatus (q : Req) (p : Bytes) (s : State) : Host.Outcome State Fault Refusal := .next (cmdMiuStatus q p s)
/-- MIU_SCRUB. -/
def execMiuScrub (q : Req) (p : Bytes) (s : State) : Host.Outcome State Fault Refusal := .next (cmdMiuScrub q p s)
/-- MIU_SCRUB_ABORT. -/
def execMiuScrubAbort (q : Req) (p : Bytes) (s : State) : Host.Outcome State Fault Refusal :=
  .next (cmdMiuScrubAbort q p s)
/-- MIU_RAW_READ. -/
def execMiuRawRead (q : Req) (p : Bytes) (s : State) : Host.Outcome State Fault Refusal := .next (cmdMiuRawRead q p s)
/-- MIU_RAW_WRITE. -/
def execMiuRawWrite (q : Req) (p : Bytes) (s : State) : Host.Outcome State Fault Refusal :=
  .next (cmdMiuRawWrite q p s)

end Sys2Proof.Machine
end

