-- ==== Sys2Proof/Machine/Evr.lean ====
section
/-! DEFINITION. The event recorder: the record ring in MRAM, rate windows, freeze, the EVR registers with side
effects and the EVR opcodes (R471 to R483). The intake is in Ops. -/

namespace Sys2Proof.Machine

/-! ### The ring (R472 to R475) -/

/-- MRAM offset of a slot. -/
def ringOff (slot : Nat) : Nat := 8192 + 32 * slot

/-- The 32 bytes of a record (R472). -/
def recordBytes (r : EvRec) (unit rseq : Nat) : Bytes :=
  let b := leBytes 8 r.time ++ leBytes 2 (r.code % 1024 + unit * 1024) ++ leBytes 2 r.subseq ++ wordBytes r.data ++
    leBytes 4 rseq ++ leBytes 4 r.supp ++ wordBytes r.rtcseq ++ [0]
  b ++ leBytes 2 (crc16 b).toNat ++ [0xA5]

/-- A record written to its slot (R473): not journalled, no energy check; the slot is good again (R474). After
the write lock it is discarded (R446). -/
def State.ringWrite (s : State) (r : EvRec) : State :=
  let seq := s.rdN Addr.evrRseq
  let slot := seq % 4096
  let s := s.wr Addr.evrRseq (BitVec.ofNat 32 (seq + 1))
  if s.wlock then s.rsmDrop
  else
    let s := s.mramRaw (ringOff slot / 256) (ringOff slot % 256) (recordBytes r s.unitN seq)
    { s with evr := { s.evr with reported := s.evr.reported.filter (· ≠ slot) } }

/-- A slot holds a flagged word (R474). -/
def State.slotFlagged (s : State) (slot : Nat) : Bool := !(s.mramFlags (ringOff slot) 32).isEmpty

/-- The RSEQ of a slot's record, when it is valid (R474). -/
def State.slotRseq (s : State) (slot : Nat) : Option Nat :=
  let b := memBytes s.mram (ringOff slot) 32
  if b.getD 31 0 = 0xA5 && field b 29 2 = (crc16 (b.take 29)).toNat && !s.slotFlagged slot then some (field b 16 4) else none

/-- A flagged word of a slot is read (R458): RSM_ERR_ADDR and EV 0x245. -/
def State.slotUnread (s : State) (slot : Nat) : State :=
  match s.mramFlags (ringOff slot) 32 with
  | w :: _ => s.mramUnreadable w (mramBase + w)
  | [] => s

/-- A slot found flagged: EV 0x284 the first time after a reset (R474). -/
def State.reportSlot (s : State) (slot : Nat) : State :=
  let s := s.slotUnread slot
  if s.slotFlagged slot && !s.evr.reported.contains slot then
    ({ s with evr := { s.evr with reported := slot :: s.evr.reported } } : State).ev 0x284 slot
  else s

/-- The scan at a start (R475): RSEQ continues behind the newest valid record; flagged slots are reported. -/
def State.ringScan (s : State) : State :=
  let best := (List.range 4096).foldl (fun (b : Option Nat) k =>
    match s.slotRseq k, b with
    | some x, some y => if serialNewer32 x y then some x else some y
    | some x, none => some x
    | none, b => b) none
  let s := s.wr Addr.evrRseq (BitVec.ofNat 32 (match best with | some x => x + 1 | none => 0))
  (List.range 4096).foldl (fun s k => s.reportSlot k) s

/-! ### Records leave the holding queue (R473, R477, R480, R483) -/

/-- The events lost are reported as soon as an entry is free (R477). -/
def State.reportLost (s : State) : State :=
  if s.evr.lost = 0 || 64 ≤ s.evr.hq.length then s
  else
    let n := s.evr.lost
    ({ s with evr := { s.evr with lost := 0 } } : State).evHold 0x283 (BitVec.ofNat 32 n)

/-- Every MARK cleared (R483). -/
def State.ringClear (s : State) : State :=
  if s.wlock then s.rsmDrop
  else
    let mark (a : Nat) : Bool := 8192 ≤ a && a < 8192 + 32 * 4096 && a % 32 = 31
    let word (w : Nat) : Bool := 8192 ≤ w && w < 8192 + 32 * 4096 && w % 32 = 24
    { s with mram := skeep s.mram fun a => !mark a
             rsm := { s.rsm with flagged := s.rsm.flagged.filter fun w => !word w } }

/-- One held record fewer before EV 0x281 (R480). -/
def State.drainStep (s : State) : State :=
  match s.evr.drain with
  | none => s
  | some (k, n) =>
    if k ≤ 1 then ({ s with evr := { s.evr with drain := none } } : State).ev 0x281 n
    else { s with evr := { s.evr with drain := some (k - 1, n) } }

/-- EVENT_RECORD_WRITE (R473): the head of the holding queue is written, unless the recorder is frozen (R480).
EV 0x285 at the head clears the ring first and ends EVR_CLEAR (R483). -/
def execEventRecordWrite (s : State) : Host.Outcome State Fault Refusal :=
  .next <| match s.evr.hq with
    | [] => s
    | r :: rest =>
      if s.evr.frozen then s
      else
        let s : State := { s with evr := { s.evr with hq := rest } }
        let s := if r.code = 0x285 then (s.ringClear.ringWrite r).noticeAll 0x0A04 0x0A00 else s.ringWrite r
        s.drainStep.reportLost

/-! ### Rate windows (R478, R479) -/

/-- Length of a window in ns. -/
def winNs (win : Nat) : Nat := [10, 100, 1000, 10000, 60000].getD win 0 * 1000000

/-- RATE_WINDOW_START (R479): the budgets of the codes with this window begin afresh. -/
def execRateWindowStart (win t : Nat) (s : State) : Host.Outcome State Fault Refusal :=
  .next <| if winNs win = 0 || t % winNs win ≠ 0 then s
    else
      let s := s.at t
      { s with evr := { s.evr with used := skeep s.evr.used fun k => bitsOf (s.rateWord (k / 16)) 11 8 ≠ win } }

/-- The rate table words 0 of a map: codes and values. -/
def rateEntries (m : Sparse Word) : List (Nat × Word) :=
  (m.filter fun e => 0xA0800 ≤ e.1 && e.1 < 0xA2800 && e.1 % 8 = 0).map fun e => ((e.1 - 0xA0800) / 8, e.2)

/-- The check of an EVR commit (R478): the lowest offending word. -/
def evrCheck (m : Sparse Word) : Option Nat :=
  lowest (((rateEntries m).filter fun e => 5 ≤ bitsOf e.2 11 8).map fun e => Addr.evrRateW0 e.1)

/-- A changed entry starts its budget afresh (R479). -/
def State.evrApply (s : State) (old : Sparse Word) : State :=
  { s with evr := { s.evr with used := skeep s.evr.used fun k => s.lv (Addr.evrRateW0 (k / 16)) = sv old (Addr.evrRateW0 (k / 16)) } }

/-! ### Freeze (R480, R481) -/

/-- A freeze request: the recorder freezes, or its 10 s start again. -/
def State.evrFreeze (s : State) : State :=
  let was := s.evr.frozen
  let s : State := { s with evr := { s.evr with frozen := true, frozenAt := s.utick } }
  s.when (!was) (·.ev 0x280 0)

/-- An unfreeze; ignored when not frozen. -/
def State.evrUnfreeze (s : State) : State :=
  if !s.evr.frozen then s
  else
    let n := s.evr.hq.length
    let s : State := { s with evr := { s.evr with frozen := false, drain := if n = 0 then none else some (n, n) } }
    s.when (n = 0) (·.ev 0x281 0)

/-- FREEZE_TIMEOUT (R481). -/
def execFreezeTimeout (t : Nat) (s : State) : Host.Outcome State Fault Refusal :=
  let s := s.at t
  .next (if s.evr.frozen && s.evr.frozenAt + 1000000000 ≤ s.utick then s.evrUnfreeze.ev 0x282 0 else s)

/-- EVR_CTRL is written: FREEZE wins (R482). -/
def State.evrCtrlWr (s : State) (v : Word) : State :=
  if v.getLsbD 0 then s.evrFreeze else if v.getLsbD 1 then s.evrUnfreeze else s

/-- EVR_CTRL_FREEZE. -/
def execEvrCtrlFreeze (t : Nat) (s : State) : Host.Outcome State Fault Refusal := .next ((s.at t).evrCtrlWr 1)
/-- EVR_CTRL_UNFREEZE. -/
def execEvrCtrlUnfreeze (s : State) : Host.Outcome State Fault Refusal := .next (s.evrCtrlWr 2)

/-! ### Registers and opcodes (R482, R483) -/

/-- EVR_CLR is written: EVR_LOST, EVR_SUPP and every SUPP of the rate table cleared. -/
def State.evrClrWr (s : State) (v : Word) : State :=
  if v.getLsbD 0 then
    { s with regs := skeep s.regs fun a =>
        !(a = Addr.evrLost || a = Addr.evrSupp || (0xA0800 ≤ a && a < 0xA2800 && a % 8 = 4)) }
  else s

/-- EVR_CLR. -/
def execEvrClr (v : Word) (s : State) : Host.Outcome State Fault Refusal := .next (s.evrClrWr v)

/-- EVR_STAT. -/
def State.evrStatReg (s : State) : Word := BitVec.ofNat 32 (b2n s.evr.frozen + s.evr.hq.length * 256)

/-- EVR_STATUS. -/
def cmdEvrStatus (q : Req) (p : Bytes) (s : State) : State :=
  s.startLen 0x0A00 0 q p fun s =>
    s.ok q 0x0A00 (wordBytes s.evrStatReg ++ wordBytes (s.rd Addr.evrRseq) ++ wordBytes (s.rd Addr.evrLost) ++
      wordBytes (s.rd Addr.evrSupp))

/-- The RSEQ values from `x` examined: at most `fuel` of them, until `n` valid records are taken (R483). -/
def State.evrScan : Nat → State → Nat → Nat → Nat × Bytes × State
  | 0, s, x, _ => (x, [], s)
  | fuel + 1, s, x, n =>
    if n = 0 then (x, [], s)
    else
      let s := s.reportSlot (x % 4096)
      let hit : Bool := s.slotRseq (x % 4096) = some x
      let (nx, r, s') := State.evrScan fuel s ((x + 1) % 2 ^ 32) (if hit then n - 1 else n)
      (nx, (if hit then memBytes s.mram (ringOff (x % 4096)) 32 else []) ++ r, s')

/-- EVR_READ (R483). -/
def cmdEvrRead (q : Req) (p : Bytes) (s : State) : State :=
  s.startLen 0x0A01 8 q p fun s =>
    let fr := field p 0 4
    let n := field p 4 1
    if 127 < n then s.fail q 0x0A01 0x11
    else
      let rseq := s.rdN Addr.evrRseq
      let d := (rseq + 2 ^ 32 - fr) % 2 ^ 32
      if d = 0 || 2 ^ 31 < d then s.ok q 0x0A01 (leBytes 4 fr)
      else
        let d' := min d 4096
        let (nx, r, s) := State.evrScan d' s ((rseq + 2 ^ 32 - d') % 2 ^ 32) n
        s.ok q 0x0A01 (leBytes 4 nx ++ r)

/-- EVR_FREEZE. -/
def cmdEvrFreeze (q : Req) (p : Bytes) (s : State) : State :=
  s.startLen 0x0A02 0 q p fun s => s.evrFreeze.ok q 0x0A02

/-- EVR_UNFREEZE. -/
def cmdEvrUnfreeze (q : Req) (p : Bytes) (s : State) : State :=
  s.startLen 0x0A03 0 q p fun s => s.evrUnfreeze.ok q 0x0A03

/-- EVR_CLEAR (R483): in STOP; EV 0x285 is placed at the next management tick. -/
def cmdEvrClear (q : Req) (p : Bytes) (s : State) : State :=
  s.startLen 0x0A04 0 q p fun s => if s.op ≠ .stop then s.fail q 0x0A04 0x20 else s.accept q 0x0A04 [0]

/-- EV 0x285 of a running EVR_CLEAR enters the intake, behind the events held, when an entry is free (R483). -/
def State.evrClearPlace (s : State) : State :=
  if 64 ≤ s.evr.hq.length || !s.hpi.longs.any fun l => l.opcode = 0x0A04 && l.args = [0] then s
  else
    let s : State := { s with hpi := { s.hpi with longs := s.hpi.longs.map fun l =>
      if l.opcode = 0x0A04 then { l with args := [1] } else l } }
    s.evHold 0x285 0

/-- EVR_STATUS. -/
def execEvrStatus (q : Req) (p : Bytes) (s : State) : Host.Outcome State Fault Refusal := .next (cmdEvrStatus q p s)
/-- EVR_READ. -/
def execEvrRead (q : Req) (p : Bytes) (s : State) : Host.Outcome State Fault Refusal := .next (cmdEvrRead q p s)
/-- EVR_FREEZE. -/
def execEvrFreeze (q : Req) (p : Bytes) (s : State) : Host.Outcome State Fault Refusal := .next (cmdEvrFreeze q p s)
/-- EVR_UNFREEZE. -/
def execEvrUnfreeze (q : Req) (p : Bytes) (s : State) : Host.Outcome State Fault Refusal :=
  .next (cmdEvrUnfreeze q p s)
/-- EVR_CLEAR. -/
def execEvrClear (q : Req) (p : Bytes) (s : State) : Host.Outcome State Fault Refusal := .next (cmdEvrClear q p s)

end Sys2Proof.Machine
end

