-- ==== Sys2Proof/Machine/Commit.lean ====
section
/-! DEFINITION. Configuration commit: the blocks with a COMMIT register, their staged groups, the request of a
commit and its outcome (R7 to R9, R71 to R74). The checks and the application are in RegCfg. -/

namespace Sys2Proof.Machine

/-- The block whose staged group an address lies in (R609). -/
def blockOf (a : Nat) : Option Block :=
  if 0x1000 ≤ a && a < 0x2000 then some .pwr
  else if 0x10000 ≤ a && a < 0x30000 then some .se
  else if (0x30000 ≤ a && a < 0x31000) || (0x30780000 ≤ a && a < 0x30800000) then some .ixe
  else if 0x40000 ≤ a && a < 0x44000 then some (.fbp ((a - 0x40000) / 1024))
  else if 0x44000 ≤ a && a < 0x50000 then some (.fbp ((a - 0x44000) / 3072))
  else if 0x50000 ≤ a && a < 0x5C000 then some (.stn ((a - 0x50000) / 3072))
  else if 0x5C000 ≤ a && a < 0x5C200 then some (.stn ((a - 0x5C000) / 32))
  else if 0x60000 ≤ a && a < 0x61000 then some .fio
  else if 0x70000 ≤ a && a < 0x71000 then some .twl
  else if 0x90000 ≤ a && a < 0x91000 then some .rsm
  else if 0xA0000 ≤ a && a < 0xA4000 then some .evr
  else if 0xB0000 ≤ a && a < 0xB1000 then some .rtc
  else if 0xD0000 ≤ a && a < 0xD1000 then some .que
  else none

/-- The COMMIT register of a block. -/
def commitAddr : Block → Nat
  | .pwr => Addr.pwrCommit | .se => Addr.seCommit | .ixe => Addr.ixeCommit | .fbp n => Addr.fbpCommit n
  | .stn n => Addr.stnCommit n | .fio => Addr.fioCommit | .twl => Addr.twlCommit | .rsm => Addr.rsmCommit
  | .evr => Addr.evrCommit | .rtc => Addr.rtcCommit | .que => Addr.queCommit

/-- The register with CFG_ERR of a block. -/
def cfgErrAddr : Block → Nat
  | .pwr => Addr.pwrCfgstat | .se => Addr.seCfg | .ixe => Addr.ixeCfg | .fbp n => Addr.fbpCfg n
  | .stn n => Addr.stnCfg n | .fio => Addr.fioCfg | .twl => Addr.twlCfgstat | .rsm => Addr.rsmCfg
  | .evr => Addr.evrCfg | .rtc => Addr.rtcCfg | .que => Addr.queCfg

/-- The opcode group of a block, which is its subsystem (R73, R471). -/
def blockGroup : Block → Nat
  | .pwr => 0 | .se => 2 | .ixe => 3 | .fbp _ => 4 | .stn _ => 5 | .fio => 6 | .twl => 7 | .rsm => 9
  | .evr => 10 | .rtc => 11 | .que => 13

/-- The block exists: 16 ports. -/
def blockOk : Block → Bool
  | .fbp n => n < 16
  | .stn n => n < 16
  | _ => true

/-- The block whose COMMIT register an address is. -/
def commitBlock (a : Nat) : Option Block :=
  match blockOf a with
  | some b => if commitAddr b = a && blockOk b then some b else none
  | none => none

/-- The address is a STAGED register of the block. -/
def inGroup (b : Block) (a : Nat) : Bool :=
  blockOf a = some b && (match regRow a with | some r => r.stg ≠ 0 | none => false)

/-- The staged group of a block as it stands (R71). -/
def State.staged (s : State) (b : Block) : Sparse Word := skeep s.regs (inGroup b)

/-- The pending commit of a block. -/
def State.commitOf (s : State) (b : Block) : Option Commit := s.commits.find? fun c => c.blk = b

/-- A COMMIT register is written (R71): the group is copied; ignored while PENDING (R8). -/
def State.commitReq (s : State) (b : Block) : State :=
  if (s.commitOf b).isSome then s else { s with commits := s.commits ++ [⟨b, s.staged b, s.utick⟩] }

/-- The outcome of a commit reaches the commands that wait for it (R74): a REG_COMMIT that waited for an earlier
commit of the block then requests its own. Several that waited share one new request and its outcome (R78 leaves
this open; the model's choice, log entry 111). -/
def State.commitDone (s : State) (b : Block) (low : Nat) (data : Bytes) : State :=
  let s : State := { s with commits := s.commits.filter fun c => c.blk ≠ b }
  let a := commitAddr b
  let s := ((s.longsOf 0x0104).filter fun l => l.args = [a, 1]).foldl (fun s l =>
    s.notice l (blockGroup b * 256 + low) data) s
  if (s.longsOf 0x0104).any fun l => l.args = [a, 0] then
    let s : State := { s with hpi := { s.hpi with longs := s.hpi.longs.map fun l =>
      if l.opcode = 0x0104 && l.args = [a, 0] then { l with args := [a, 1] } else l } }
    s.commitReq b
  else s

/-- A commit rejected (R73): CFG_ERR, event 0x3F of the subsystem with a register address (also where R290 and
R329 name the port: log entry 120). Low byte 0x60 carries the address as data. -/
def State.commitReject (s : State) (b : Block) (low addr : Nat) : State :=
  let s := (s.setBit (cfgErrAddr b) 0 true).ev (blockGroup b * 64 + 0x3F) addr
  let d := if low = 0x60 then leBytes 4 addr else []
  (s.when (b = .rtc) (·.noticeAll 0x0B01 (0x0B00 + low) d)).commitDone b low d

/-- A write to a COMMIT register: ignored while PENDING (R8). One to SE_COMMIT while a swap is ARMED or SWAPPING is
rejected (R196). -/
def State.commitWr (s : State) (b : Block) : State :=
  if (s.commitOf b).isSome then s
  else if b = .se && (s.se.swap.chamber = Chamber.armed || s.se.swap.chamber = Chamber.swapping) then
    s.commitReject .se 0x20 Addr.seCommit
  else s.commitReq b

/-- COMMIT_WRITE (R71, R196). -/
def execCommitWrite (addr : Nat) (s : State) : Host.Outcome State Fault Refusal :=
  .next <| match commitBlock addr with
    | some b => s.commitWr b
    | none => s

/-- COMMIT_TIMEOUT (R73): 10 s without application. -/
def execCommitTimeout (blk : Block) (t : Nat) (s : State) : Host.Outcome State Fault Refusal :=
  let s := s.at t
  .next <| match s.commitOf blk with
    | some c => if c.t + 1000000000 ≤ s.utick then s.commitReject blk 0x20 (commitAddr blk) else s
    | none => s

/-- The staged group of a block put in force (R9): the committed values of its addresses are those of the copy. -/
def State.putLive (s : State) (c : Commit) : State :=
  { s with live := smergeGroup s.live c }
where
  /-- Committed values with a group replaced. -/
  smergeGroup (live : Sparse Word) (c : Commit) : Sparse Word :=
    c.staged.foldl (fun m e => sins m e.1 e.2) (skeep live fun a => !inGroup c.blk a)

end Sys2Proof.Machine
end

