-- ==== Sys2Proof/Machine/Rtc.lean ====
section
/-! DEFINITION. The real-time clock (R502 to R517), the watchdog's configuration, check-in and service (R518 to
R524), and their opcodes (R531). The end of a watchdog period is in Reset. -/

namespace Sys2Proof.Machine

/-! ### Calendar (R506) -/

/-- Leap years from 2000 to 2199. -/
def leap (y : Nat) : Bool := y % 4 = 0 && y ≠ 2100

/-- Days of a month. -/
def monthDays (y m : Nat) : Nat :=
  if m = 2 then (if leap y then 29 else 28) else if m = 4 || m = 6 || m = 9 || m = 11 then 30 else 31

/-- Days from 2000-01-01 to a date. -/
def dayNumber (y m d : Nat) : Nat :=
  let k := y - 2000
  365 * k + (k + 3) / 4 - (if 100 < k then 1 else 0) +
    ((List.range (m - 1)).map fun i => monthDays y (i + 1)).sum + (d - 1)

/-- WDAY of a date: 1 Monday to 7 Sunday; 2000-01-01 was a Saturday. -/
def weekday (y m d : Nat) : Nat := (dayNumber y m d + 5) % 7 + 1

/-- A valid calendar date. -/
def dateOk (y m d : Nat) : Bool := 2000 ≤ y && y ≤ 2199 && 1 ≤ m && m ≤ 12 && 1 ≤ d && d ≤ monthDays y m

/-- The date after a date; after 2199-12-31 comes 2000-01-01. -/
def nextDate (y m d : Nat) : Nat × Nat × Nat :=
  if d < monthDays y m then (y, m, d + 1)
  else if m < 12 then (y, m + 1, 1)
  else if y < 2199 then (y + 1, 1, 1) else (2000, 1, 1)

/-- The live calendar set to a date and time, WDAY derived. -/
def State.setCalendar (s : State) (y m d hh mm ss : Nat) : State :=
  s.wrs Addr.rtcSec ([ss, mm, hh, d, m, weekday y m d, y].map (BitVec.ofNat 32))

/-- A second starts at the present instant (R507, R508). -/
def State.newSecond (s : State) : State :=
  let s := s.wr Addr.rtcSeq (s.rd Addr.rtcSeq + 1)
  (s.wr Addr.rtcStampLo (BitVec.ofNat 32 s.dtime)).wr Addr.rtcStampHi (BitVec.ofNat 32 (s.dtime / 2 ^ 32))

/-- The live calendar one second on. -/
def State.rollOver (s : State) : State :=
  let ss := s.rdN Addr.rtcSec
  let mm := s.rdN Addr.rtcMin
  let hh := s.rdN Addr.rtcHour
  let d := s.rdN Addr.rtcDay
  let m := s.rdN Addr.rtcMon
  let y := s.rdN Addr.rtcYear
  if ss < 59 then s.setCalendar y m d hh mm (ss + 1)
  else if mm < 59 then s.setCalendar y m d hh (mm + 1) 0
  else if hh < 23 then s.setCalendar y m d (hh + 1) 0 0
  else
    let (y, m, d) := nextDate y m d
    s.setCalendar y m d 0 0 0

/-- RTC_SECOND (R506, R507): the RTC does not count while X32 is stopped (R575). -/
def execRtcSecond (t : Nat) (s : State) : Host.Outcome State Fault Refusal :=
  let s := s.at t
  .next (if s.pwr.x32 then s.rollOver.newSecond else s)

/-- TRIM_WINDOW (R514): a new window takes the TRIM written. -/
def execTrimWindow (s : State) : Host.Outcome State Fault Refusal :=
  .next { s with rtc := { s.rtc with trim := s.rd Addr.rtcTrim } }

/-- RTC time in ns since 1970-01-01 (R587). -/
def State.rtcUnixNs (s : State) : Nat :=
  (946684800 + 86400 * dayNumber (s.rdN Addr.rtcYear) (s.rdN Addr.rtcMon) (s.rdN Addr.rtcDay) +
    3600 * s.rdN Addr.rtcHour + 60 * s.rdN Addr.rtcMin + s.rdN Addr.rtcSec) * 1000000000

/-! ### Coherent reading (R509, R510) -/

/-- The live calendar registers, SEC to YEAR. -/
def State.calendar (s : State) : Words := (List.range 7).map fun i => s.rd (Addr.rtcSec + 4 * i)

/-- A reader's freeze that runs. -/
def State.shadowOf (s : State) (r : Reader) : Option (Nat × Words) :=
  match s.rtc.shadows.find? fun e => e.1 = r with
  | some (_, t, ws) => if s.utick < t + 200000 then some (t, ws) else none
  | none => none

/-- A reader's freeze ended. -/
def State.thaw (s : State) (r : Reader) : State :=
  { s with rtc := { s.rtc with shadows := s.rtc.shadows.filter fun e => e.1 ≠ r } }

/-- A read of calendar register `i`, 0 SEC to 6 YEAR (R509). The SE has no shadow set. -/
def State.rtcRead (s : State) (r : Reader) (i : Nat) : Word × State :=
  match r with
  | .ctx _ => (s.calendar.getD i 0, s)
  | _ =>
    let (ws, s') : Words × State := match s.shadowOf r with
      | some (_, ws) => (ws, s)
      | none =>
        let s := s.thaw r
        (s.calendar, { s with rtc := { s.rtc with shadows := (r, s.utick, s.calendar) :: s.rtc.shadows } })
    (ws.getD i 0, if i = 6 then s'.thaw r else s')

/-- RTC_SHADOW_READ (R509): register `r` of the seven, as an index. -/
def execRtcShadowRead (rd : Reader) (r t : Nat) (s : State) : Host.Outcome State Fault Refusal :=
  let s := s.at t
  .next (if r < 7 then (s.rtcRead rd r).2 else s)

/-- RTC_FREEZE_TIMEOUT (R509): 2 ms after the freeze began. -/
def execRtcFreezeTimeout (rd : Reader) (t : Nat) (s : State) : Host.Outcome State Fault Refusal :=
  let s := s.at t
  .next (if (s.shadowOf rd).isNone then s.thaw rd else s)

/-- A read of a _LO register latches its _HI half for the reader (R611). -/
def State.pairLo (s : State) (r : Reader) (a : Nat) (lo hi : Word) : Word × State := (lo, s.setLatch r a hi)

/-- A pending commit as its COMMIT register reads (R7). -/
def State.pendingReg (s : State) (b : Block) : Word := BitVec.ofNat 32 (b2n (s.commitOf b).isSome)

/-- RTC_STAT, with CHG (R515). -/
def State.rtcStatReg (s : State) : Word :=
  setBits (s.rd Addr.rtcStat) 2 2 (b2n (s.bit Addr.rtcChg 0 && !s.bit Addr.rtcStat 1 && !s.rtc.cut))

/-- A read of an RTC register. -/
def State.rtcRegRead (s : State) (r : Reader) (a : Nat) : Word × State :=
  if a < Addr.rtcSeq then s.rtcRead r ((a - Addr.rtcSec) / 4)
  else if a = Addr.rtcCommit then (s.pendingReg .rtc, s)
  else if a = Addr.rtcStat then (s.rtcStatReg, s)
  else if a = Addr.rtcStampLo then s.pairLo r a (s.rd a) (s.rd Addr.rtcStampHi)
  else if a = Addr.rtcStampHi then (s.latch r Addr.rtcStampLo, s)
  else (s.rd a, s)

/-- A read of SYS_DTIME_LO or SYS_DTIME_HI. -/
def State.dtimeRead (s : State) (r : Reader) (a : Nat) : Word × State :=
  if a = Addr.sysDtimeLo then s.pairLo r a (s.sysReg Addr.sysDtimeLo) (s.sysReg Addr.sysDtimeHi)
  else (s.latch r Addr.sysDtimeLo, s)

/-! ### Setting the time (R511 to R513) -/

/-- The check of an RTC commit: the offending register (R513). -/
def rtcCheck (m : Sparse Word) : Option Nat :=
  let h := sv m Addr.rtcSetHms
  let d := sv m Addr.rtcSetDate
  if 59 < bitsOf h 5 0 || 59 < bitsOf h 13 8 || 23 < bitsOf h 20 16 then some Addr.rtcSetHms
  else if !dateOk (bitsOf d 27 16) (bitsOf d 11 8) (bitsOf d 4 0) then some Addr.rtcSetDate
  else none

/-- The commit takes effect: a second starts, RTC_LOST clears, EV 0x2C9, and RTC_SET ends (R511, R531). -/
def State.rtcApply (s : State) : State :=
  let h := s.lv Addr.rtcSetHms
  let d := s.lv Addr.rtcSetDate
  let s := (s.setCalendar (bitsOf d 27 16) (bitsOf d 11 8) (bitsOf d 4 0) (bitsOf h 20 16) (bitsOf h 13 8) (bitsOf h 5 0)).newSecond
  let s := (s.setBit Addr.rtcStat 0 false).event 0x2C9 (s.rd Addr.rtcSeq)
  s.noticeAll 0x0B01 0x0B00 (leBytes 8 s.dtime)

/-! ### Supply, charger and registers (R502 to R505, R514, R515) -/

/-- The RTC registers, which live in the always-on domain (R517). -/
def isRtc (a : Nat) : Bool := 0xB0000 ≤ a && a < 0xB1000

/-- RTC_LOST_SET (R503): every RTC register returns to its reset value. -/
def execRtcLostSet (s : State) : Host.Outcome State Fault Refusal :=
  .next { s with regs := skeep s.regs fun a => !isRtc a, live := skeep s.live fun a => !isRtc a,
                 rtc := { s.rtc with trim := 0, cut := false } }

/-- AO_SOURCE_SWITCH (R502). -/
def execAoSourceSwitch (vbat : Bool) (s : State) : Host.Outcome State Fault Refusal :=
  .next (s.setBit Addr.rtcStat 1 vbat)

/-- BATLOW_SET (R505). -/
def execBatlowSet (s : State) : Host.Outcome State Fault Refusal :=
  .next (if s.bit Addr.rtcStat 3 then s else (s.setBit Addr.rtcStat 3 true).ev 0x2CA (s.fld Addr.rtcStat 31 16))

/-- BATLOW_CLEAR (R505). -/
def execBatlowClear (s : State) : Host.Outcome State Fault Refusal := .next (s.setBit Addr.rtcStat 3 false)

/-- CHARGER_CUT_OFF (R515). -/
def execChargerCutOff (off : Bool) (s : State) : Host.Outcome State Fault Refusal :=
  .next { s with rtc := { s.rtc with cut := off } }

/-- RTC_TRIM is written; 0x800 is ignored (R517). -/
def State.rtcTrimWr (s : State) (v : Word) : State :=
  if bitsOf v 11 0 = 0x800 then s else s.wr Addr.rtcTrim (v &&& 0xFFF)

/-- RTC_CHG is written; a VCUT above 8 makes the write ignored (R517). -/
def State.rtcChgWr (s : State) (v : Word) : State :=
  if 8 < bitsOf v 7 4 then s else s.wr Addr.rtcChg (v &&& 0xFF)

/-! ### Watchdog (R518 to R524) -/

/-- Period in ticks of 10 ns: 2^(10 + PER) nominal CLK_WD cycles of 1 µs (R518). -/
def State.wdtPeriod (s : State) : Nat := 2 ^ (10 + s.fld Addr.wdtCfg 3 0) * 100

/-- CLK_WD cycles elapsed in the period. -/
def State.wdtElapsed (s : State) : Nat := (s.utick - s.wdt.start) / 100

/-- The open window: the second half of the period (R519). -/
def State.wdtOpen (s : State) : Bool := 2 ^ (9 + s.fld Addr.wdtCfg 3 0) ≤ s.wdtElapsed

/-- A slot counts as marked (R522): marked, or a CONTEXT END slot with the device not in RUN since the period
began. -/
def State.wdtMarked (s : State) (k : Nat) : Bool :=
  s.wdt.marks.contains k ||
    (s.fld (Addr.wdtSlot k) 1 0 = 1 && !(decide (s.op = .run) && s.se.runT ≤ s.wdt.start))

/-- The enabled slots that are not marked, as a mask. -/
def State.wdtUnmarked (s : State) : Nat :=
  (((List.range 16).filter fun k => s.bit Addr.wdtSloten k && !s.wdtMarked k).map (2 ^ ·)).sum

/-- A new period: accepted configuration takes effect, every mark cleared (R519, R523). -/
def State.wdtNewPeriod (s : State) : State :=
  let s := s.wdt.next.foldl (fun s e => s.wr e.1 e.2) s
  { s with wdt := { s.wdt with start := s.utick, marks := [], next := [] } }

/-- A completed key sequence (R521, R523). True: the service took place. -/
def State.wdtService (s : State) : Bool × State :=
  let u := s.wdtUnmarked
  if u ≠ 0 then (false, (s.inc Addr.wdtMisses).ev 0x2C2 u)
  else
    let was := s.wdt.warn
    let s := s.wdtNewPeriod
    let s : State := { s with wdt := { s.wdt with warn := false } }
    (true, s.when was (·.ev 0x2C1 0))

/-- The key step set. -/
def State.setKeyStep (s : State) (b : Bool) : State := { s with wdt := { s.wdt with keyStep := b } }

/-- WDT_KEY is written (R520). True: the write served the watchdog. -/
def State.wdtKey (s : State) (v : Word) : Bool × State :=
  let k := bitsOf v 15 0
  if k = 0x5A3C then (false, s.setKeyStep true)
  else if k = 0xC3A5 && s.wdt.keyStep then (s.setKeyStep false).wdtService
  else (false, ((s.setKeyStep false).inc Addr.wdtKeyerr).ev 0x2C3 k)

/-- WDT_KEY_WRITE. -/
def execWdtKeyWrite (v : Word) (s : State) : Host.Outcome State Fault Refusal := .next (s.wdtKey v).2

/-- A slot marked. -/
def State.wdtMark (s : State) (k : Nat) : State :=
  if s.wdt.marks.contains k then s else { s with wdt := { s.wdt with marks := s.wdt.marks ++ [k] } }

/-- WDT_CHECKIN is written (R522). -/
def State.wdtCheckinWr (s : State) (v : Word) : State :=
  let k := bitsOf v 3 0
  if s.fld (Addr.wdtSlot k) 1 0 = 0 then s.wdtMark k else s

/-- WDT_CHECKIN_WRITE. -/
def execWdtCheckinWrite (v : Word) (s : State) : Host.Outcome State Fault Refusal := .next (s.wdtCheckinWr v)

/-- The configuration registers and the bits they hold, by offset. -/
def wdtMask (off : Nat) : Option Nat :=
  if off = 0 then some 0x1F else if off = 4 then some 0xFFFF
  else if 0x40 ≤ off && off < 0x80 && off % 4 = 0 then some 0xFF03 else none

/-- A value the register takes (R518, R522). -/
def wdtValueOk (off : Nat) (v : Word) : Bool :=
  if off = 0 then bitsOf v 3 0 ≤ 13
  else if off = 4 then true
  else bitsOf v 1 0 = 0 || (bitsOf v 1 0 = 1 && 16 ≤ bitsOf v 15 8 && bitsOf v 15 8 ≤ 159)

/-- A configuration register is written (R519). -/
def State.wdtConfig (s : State) (off : Nat) (v : Word) : State :=
  match wdtMask off with
  | none => s
  | some m =>
    if !s.wdtOpen then (s.inc Addr.wdtCfgign).ev 0x2C4 off
    else if !wdtValueOk off v then s.inc Addr.wdtCfgign
    else { s with wdt := { s.wdt with next := sins s.wdt.next (Addr.wdtCfg + off) (v &&& BitVec.ofNat 32 m) } }

/-- WDT_CONFIG_WRITE. -/
def execWdtConfigWrite (off : Nat) (v : Word) (s : State) : Host.Outcome State Fault Refusal := .next (s.wdtConfig off v)

/-- WDT_STAT (R530). -/
def State.wdtStatReg (s : State) : Word :=
  BitVec.ofNat 32 (b2n s.wdt.warn + 2 * b2n s.wdtOpen + 4 * b2n s.wdt.keyStep +
    65536 * ((List.range 16).map fun k => if s.wdt.marks.contains k then 2 ^ k else 0).sum)

/-- WDT_ELAPSED. -/
def State.wdtElapsedReg (s : State) : Word := BitVec.ofNat 32 (s.wdtElapsed % 2 ^ 24)

/-- The firmware's service at a management tick (R524): in the open window, every enabled slot marked. -/
def State.wdtFirmware (s : State) : State :=
  if s.fld Addr.wdtCfg 4 4 = 1 && s.wdtOpen && s.wdtUnmarked = 0 then ((s.wdtKey 0x5A3C).2.wdtKey 0xC3A5).2 else s

/-! ### Opcodes (R531) -/

/-- RTC_READ: the calendar in one freeze of the MGC. -/
def cmdRtcRead (q : Req) (p : Bytes) (s : State) : State :=
  s.startLen 0x0B00 0 q p fun s =>
    let ws := match s.shadowOf .mgc with | some (_, ws) => ws | none => s.calendar
    let b (i : Nat) : Byte := BitVec.ofNat 8 (ws.getD i 0).toNat
    (s.thaw .mgc).ok q 0x0B00 (leBytes 2 (ws.getD 6 0).toNat ++ [b 4, b 3, b 2, b 1, b 0, b 5] ++ wordBytes (s.rd Addr.rtcSeq) ++
      wordBytes s.rtcStatReg ++ wordBytes (s.rd Addr.rtcStampLo) ++ wordBytes (s.rd Addr.rtcStampHi))

/-- RTC_SET: the staging set written and a commit requested. A byte too large for its field is written as the
field's largest value, or a day as 0, which is out of range as well. -/
def cmdRtcSet (q : Req) (p : Bytes) (s : State) : State :=
  s.startLen 0x0B01 8 q p fun s =>
    let g (i : Nat) : Nat := field p i 1
    let s := s.wr Addr.rtcSetHms (BitVec.ofNat 32 (min (g 6) 63 + min (g 5) 63 * 256 + min (g 4) 31 * 65536))
    let d := if 31 < g 3 then 0 else g 3
    let s := s.wr Addr.rtcSetDate (BitVec.ofNat 32 (d + min (g 2) 15 * 256 + min (field p 0 2) 4095 * 65536))
    (s.accept q 0x0B01).commitReq .rtc

/-- RTC_TRIM. -/
def cmdRtcTrim (q : Req) (p : Bytes) (s : State) : State :=
  s.startLen 0x0B02 2 q p fun s =>
    let v : BitVec 16 := BitVec.ofNat 16 (field p 0 2)
    if 2047 < v.toInt || v.toInt < -2047 then s.fail q 0x0B02 0x11
    else (s.rtcTrimWr (v.signExtend 32)).ok q 0x0B02

/-- WDT_STATUS. -/
def cmdWdtStatus (q : Req) (p : Bytes) (s : State) : State :=
  s.startLen 0x0B03 0 q p fun s =>
    s.ok q 0x0B03 (wordsBytes [s.rd Addr.wdtCfg, s.rd Addr.wdtSloten, s.wdtStatReg, s.wdtElapsedReg, s.rd Addr.wdtMisses,
      s.rd Addr.wdtWarns])

/-- WDT_SERVICE. -/
def cmdWdtService (q : Req) (p : Bytes) (s : State) : State :=
  s.startLen 0x0B04 0 q p fun s =>
    if s.fld Addr.wdtCfg 4 4 = 1 then s.fail q 0x0B04 0x20
    else
      let (b, s) := (s.wdtKey 0x5A3C).2.wdtKey 0xC3A5
      if b then s.ok q 0x0B04 else s.fail q 0x0B04 0x20

/-- WDT_CHECKIN. -/
def cmdWdtCheckin (q : Req) (p : Bytes) (s : State) : State :=
  s.startLen 0x0B05 1 q p fun s =>
    let k := field p 0 1
    if 15 < k then s.fail q 0x0B05 0x11
    else if s.fld (Addr.wdtSlot k) 1 0 ≠ 0 then s.fail q 0x0B05 0x20
    else (s.wdtMark k).ok q 0x0B05

/-- RTC_READ. -/
def execRtcRead (q : Req) (p : Bytes) (s : State) : Host.Outcome State Fault Refusal := .next (cmdRtcRead q p s)
/-- RTC_SET. -/
def execRtcSet (q : Req) (p : Bytes) (s : State) : Host.Outcome State Fault Refusal := .next (cmdRtcSet q p s)
/-- RTC_TRIM. -/
def execRtcTrim (q : Req) (p : Bytes) (s : State) : Host.Outcome State Fault Refusal := .next (cmdRtcTrim q p s)
/-- WDT_STATUS. -/
def execWdtStatus (q : Req) (p : Bytes) (s : State) : Host.Outcome State Fault Refusal := .next (cmdWdtStatus q p s)
/-- WDT_SERVICE. -/
def execWdtService (q : Req) (p : Bytes) (s : State) : Host.Outcome State Fault Refusal := .next (cmdWdtService q p s)
/-- WDT_CHECKIN. -/
def execWdtCheckin (q : Req) (p : Bytes) (s : State) : Host.Outcome State Fault Refusal := .next (cmdWdtCheckin q p s)

end Sys2Proof.Machine
end

