-- ==== Sys2Proof/Machine/Dma.lean ====
section
/-! DEFINITION. DMA channels (R495 to R499) and the check and application of a QUE commit (R485). -/

namespace Sys2Proof.Machine

/-- The transfer of a channel. -/
def State.dma (s : State) (c : Nat) : Dma := sget {} s.dmas c
/-- The transfer of a channel replaced. -/
def State.setDma (s : State) (c : Nat) (d : Dma) : State := { s with dmas := sput {} s.dmas c d }
/-- KIND of a channel: 0 memory to memory, 1 memory to queue, 2 queue to memory. -/
def State.dmaKind (s : State) (c : Nat) : Nat := s.lf (Addr.dmaCfg c) 2 1
/-- The queue of a channel. -/
def State.dmaQ (s : State) (c : Nat) : Nat := s.lf (Addr.dmaCfg c) 12 8
/-- Source code of a channel (R486). -/
def dmaSrcCode (c : Nat) : Nat := 0x20 + c

/-- DMAc_GO.START (R495, R496): ignored while ACTIVE or with EN = 0; LEN = 0 ends at once in DONE. -/
def State.dmaStart (s : State) (c : Nat) : State :=
  if s.dmaActive c || s.lf (Addr.dmaCfg c) 0 0 = 0 then s
  else
    let n := s.fld (Addr.dmaLen c) 23 0
    let s := s.wr (Addr.dmaCount c) 0
    if n = 0 then s.dmaEnd c 2 0
    else (s.wr (Addr.dmaStat c) 1).setDma c { src := s.rdN (Addr.dmaSrc c), dst := s.rdN (Addr.dmaDst c), len := n }

/-- DMAC_GO_START. -/
def execDmacGoStart (c : Nat) (s : State) : Host.Outcome State Fault Refusal := .next (if c < 32 then s.dmaStart c else s)

/-- Words moved, those gathered for a burst among them. -/
def State.dmaMoved (s : State) (c : Nat) : Nat := s.fld (Addr.dmaCount c) 23 0 + (s.dma c).gather.length

/-- Address of the next source word, or destination word for KIND 2. -/
def State.dmaNext (s : State) (c : Nat) : Nat :=
  (if s.dmaKind c = 2 then (s.dma c).dst else (s.dma c).src) + 4 * s.dmaMoved c

/-- DMAc_GO.STOP (R498). -/
def State.dmaStop (s : State) (c : Nat) : State := if s.dmaActive c then s.dmaHalt c 5 (s.dmaNext c) else s

/-- DMAC_GO_STOP. -/
def execDmacGoStop (c : Nat) (s : State) : Host.Outcome State Fault Refusal := .next (if c < 32 then s.dmaStop c else s)

/-- DMAc_GO is written. -/
def State.dmaGo (s : State) (c : Nat) (v : Word) : State :=
  let s := s.when (v.getLsbD 1) (·.dmaStop c)
  s.when (v.getLsbD 0) (·.dmaStart c)

/-- The registers a KIND 0 transfer may read (R497): end of the range an address lies in. -/
def dmaRegEnd (a : Nat) : Option Nat :=
  if 0xB0000 ≤ a && a < 0xB0044 then some 0xB0044 else if 0x48 ≤ a && a < 0x50 then some 0x50 else none

/-- The check of a register source, before anything is read (R497): the offending address. -/
def State.dmaRegCheck (s : State) (c : Nat) : Option Nat :=
  let d := s.dma c
  match dmaRegEnd d.src with
  | none => none
  | some e =>
    if s.dmaKind c ≠ 0 then some d.src
    else if e < d.src + 4 * d.len then some e
    else if memOf d.dst ≠ 1 then some d.dst
    else none

/-- One source word: the word, or the CAUSE it halts with. -/
def State.dmaRead (s : State) (c a : Nat) : Except Nat Word × State :=
  if a % 4 ≠ 0 then (.error 3, s)
  else if dmaRegEnd a ≠ none then
    let (w, s) := if a < 0x1000 then s.dtimeRead (.dma c) a else s.rtcRegRead (.dma c) a
    (.ok w, s)
  else if memOf a = 1 || memOf a = 2 then
    match s.readBytes (.dma c) a 4 with
    | (some b, s) => (.ok (wordAt b 0), s)
    | (none, s) => (.error 1, s)
  else match mramOff a with
    | some off =>
      match s.mramRead off 4 with
      | (some b, s) => (.ok (wordAt b 0), s)
      | (none, s) => (.error 2, s)
    | none => (.error 3, s)

/-- A halt with the cause a read found. -/
def State.dmaFail (s : State) (c cause a : Nat) : State := if cause = 1 then s.dmaLost c a else s.dmaHalt c cause a

/-- The gathered words issued as one burst (R496). -/
def State.dmaIssue (s : State) (c : Nat) : State :=
  let d := s.dma c
  if d.gather.isEmpty then s
  else
    let s := match mramOff d.gaddr with
      | some off => s.mramWrite off (wordsBytes d.gather)
      | none => s
    (s.setFld (Addr.dmaCount c) 23 0 (s.dmaMoved c)).setDma c { d with gather := [] }

/-- The transfer ends in DONE: the packet closes, the end is a fence (R496). -/
def State.dmaDone (s : State) (c : Nat) : State :=
  let s := s.dmaIssue c
  let s := s.when ((s.dma c).opened) (·.qClose (s.dmaQ c) false)
  s.dmaEnd c 2 0

/-- The destination address lies in a permitted window. -/
def dmaDstOk (a : Nat) : Bool := a % 4 = 0 && (memOf a = 1 || (mramOff a).isSome)

/-- A word written to its destination; `last`: the transfer's last word. -/
def State.dmaPut (s : State) (c a : Nat) (w : Word) (last : Bool) : State :=
  if memOf a = 1 then
    let s := s.writeBytes (.dma c) a (wordBytes w)
    s.setFld (Addr.dmaCount c) 23 0 (s.fld (Addr.dmaCount c) 23 0 + 1)
  else
    let d := s.dma c
    let s := s.setDma c { d with gather := d.gather ++ [w], gaddr := if d.gather.isEmpty then a else d.gaddr }
    if last || (a + 4) % 256 = 0 then s.dmaIssue c else s

/-- The channel waits for another producer's packet; counted once (R491). -/
def State.dmaWait (s : State) (c : Nat) : State :=
  if (s.dma c).waited then s else (s.setDma c { s.dma c with waited := true }).qCountRefused

/-- One word of KIND 0. True: the turn goes on. -/
def State.dmaCopy (s : State) (c : Nat) : Bool × State :=
  let d := s.dma c
  let k := s.dmaMoved c
  let a := d.dst + 4 * k
  match s.dmaRead c (d.src + 4 * k) with
  | (.error e, s) => (false, s.dmaFail c e (d.src + 4 * k))
  | (.ok w, s) => if dmaDstOk a then (true, s.dmaPut c a w (decide (d.len ≤ k + 1))) else (false, s.dmaHalt c 3 a)

/-- One word of KIND 1: with PKT = 1 the packet opens first (R496). -/
def State.dmaToQueue (s : State) (c : Nat) : Bool × State :=
  let d := s.dma c
  let q := s.dmaQ c
  let a := d.src + 4 * s.dmaMoved c
  if s.qForeign q (dmaSrcCode c) then (false, s.dmaWait c)
  else if s.lf (Addr.dmaCfg c) 3 3 = 1 && !d.opened then
    match s.qOpen q (dmaSrcCode c) with
    | (.dropped, s) => (false, s.dmaHalt c 4 a)
    | (.refused, s) => (false, s.dmaWait c)
    | (_, s) => (true, s.setDma c { d with opened := true, waited := false })
  else match s.dmaRead c a with
    | (.error e, s) => (false, s.dmaFail c e a)
    | (.ok w, s) =>
      let full : Bool := s.qDepth q ≤ (s.queue q).used
      match s.qPushResume q (dmaSrcCode c) w with
      | (.truncated, s) =>
        let s := s.setDma c { s.dma c with opened := false }
        (false, if full then s.dmaHalt c 4 a else s.dmaDone c)
      | (.dropped, s) => (false, s.dmaHalt c 4 a)
      | (.refused, s) => (false, s.dmaWait c)
      | (_, s) => (true, s.setFld (Addr.dmaCount c) 23 0 (s.fld (Addr.dmaCount c) 23 0 + 1))

/-- One word of KIND 2 (R496). -/
def State.dmaFromQueue (s : State) (c : Nat) : Bool × State :=
  let d := s.dma c
  let q := s.dmaQ c
  let k := s.dmaMoved c
  let a := d.dst + 4 * k
  if !dmaDstOk a then (false, s.dmaHalt c 3 a)
  else
    let ring := dmBase + s.qBase q + 4 * ((s.queue q).rd % s.qDepth q)
    match s.qPop (.dma c) q with
    | (none, s) => (false, s.dmaLost c ring)
    | (some v, s) =>
      if v < 2 ^ 63 then (false, s.dmaDone c)
      else
        let fin : Bool := v.testBit 62 && s.lf (Addr.dmaCfg c) 4 4 = 1
        let s := s.dmaPut c a (BitVec.ofNat 32 v) (fin || decide (d.len ≤ k + 1))
        if fin then (false, s.dmaDone c) else (true, s)

/-- Up to `n` words of a turn (R499). -/
def State.dmaTurn : Nat → State → Nat → State
  | 0, s, _ => s
  | n + 1, s, c =>
    if !s.dmaActive c then s
    else if (s.dma c).len ≤ s.dmaMoved c then s.dmaDone c
    else
      let (go, s) := match s.dmaKind c with
        | 0 => s.dmaCopy c
        | 1 => s.dmaToQueue c
        | _ => s.dmaFromQueue c
      if go then State.dmaTurn n s c else s

/-- DMA_BURST (R496 to R499): a turn moves up to 8 words, and ends the transfer after its last. Nothing moves while
a Lock Swap runs (R197). -/
def execDmaBurst (c : Nat) (s : State) : Host.Outcome State Fault Refusal :=
  .next <|
    if 31 < c || !s.dmaActive c || s.se.swap.chamber = Chamber.swapping then s
    else
      let go : State :=
        if (s.dma c).started then s else s.setDma c { s.dma c with started := true }
      match if (s.dma c).started then none else s.dmaRegCheck c with
      | some a => go.dmaHalt c 3 a
      | none =>
        let s := State.dmaTurn 8 go c
        if s.dmaActive c && (s.dma c).len ≤ s.dmaMoved c then s.dmaDone c else s

/-! ### QUE commit (R485) -/

/-- The rings of a staged group: queue, first byte and first byte beyond, of the enabled queues. -/
def rings (m : Sparse Word) : List (Nat × Nat × Nat) :=
  ((List.range 32).filter fun n => sf m (Addr.qCfg n) 0 0 = 1).map fun n =>
    let b := sf m (Addr.qBase n) 22 3 * 8
    (n, b, b + 4 * sf m (Addr.qDepth n) 16 0)

/-- A field of a queue or channel that a commit changes. -/
def State.quePart (s : State) (m : Sparse Word) (a : Nat) : Bool := sv m a ≠ s.lv a

/-- The queue may not change: an open packet, or an ACTIVE channel of KIND 1 or 2 names it. -/
def State.qBusy (s : State) (n : Nat) : Bool := (s.queue n).opened.isSome || s.qHasDma n

/-- The check of a QUE commit: the lowest offending register. -/
def State.queCheck (s : State) (m : Sparse Word) : Option Nat :=
  let rs := rings m
  lowest (
    ((rs.filter fun r => dmSize < r.2.2).map fun r => Addr.qBase r.1) ++
    (rs.flatMap fun r => (rs.filter fun x => r.1 < x.1 && r.2.1 < x.2.2 && x.2.1 < r.2.2).map fun x => Addr.qBase x.1) ++
    ((rs.filter fun r => r.2.2 - r.2.1 < 64 || 262144 < r.2.2 - r.2.1).map fun r => Addr.qDepth r.1) ++
    (((List.range 32).filter fun c => sf m (Addr.dmaCfg c) 2 1 = 3).map Addr.dmaCfg) ++
    ((List.range 32).filter fun n => s.qBusy n).flatMap fun n =>
      [Addr.qCfg n, Addr.qBase n, Addr.qDepth n].filter fun a => s.quePart m a)

/-- A changed queue is emptied, FULL and OVERRUN cleared (R485). -/
def State.queApply (s : State) (old : Sparse Word) : State :=
  ((List.range 32).filter fun n =>
    [Addr.qCfg n, Addr.qBase n, Addr.qDepth n].any fun a => sv old a ≠ s.lv a).foldl (fun s n => s.qEmpty n) s

end Sys2Proof.Machine
end

