-- ==== Sys2Proof/Machine/Eth.lean ====
section
/-! DEFINITION. Ethernet ports and device time (R34, R70, R590 to R593, R616). An address is a number with its first
octet in bits 31:24. -/

namespace Sys2Proof.Machine

/-! ### Fragments (R70) -/

/-- Byte `i` of a datagram that arrives in parts. -/
def partByte (ps : List (Nat × Bytes)) (i : Nat) : Option Byte :=
  (ps.find? fun p => p.1 ≤ i && i < p.1 + p.2.length).bind fun p => p.2[i - p.1]?

/-- The whole datagram, once every byte has arrived. -/
def Reasm.whole (r : Reasm) : Option Bytes :=
  r.total.bind fun n => (List.range n).mapM (partByte r.parts)

/-- The UDP checksum is right, or not used (R69): the sum over pseudo-header and datagram is 0xFFFF. -/
def udpSumOk (src dst : Word) (d : Bytes) : Bool :=
  slice d 6 2 = [0, 0] || udpSum src dst d = 0xFFFF

/-- A reassembled datagram: UDP header and payload (R68, R69). Its source port is that of the header; one to another
port than 28,760 is none of the command interface's. -/
def State.udpWhole (s : State) (src : UdpSource) (d : Bytes) : State :=
  let n := beNat (slice d 4 2)
  if d.length < 8 || n < 8 || d.length < n then s
  else if beNat (slice d 2 2) ≠ hostPort then s
  else if !udpSumOk src.ip (s.ethCfg src.eth).ip (d.take n) then s
  else s.udpPayload { src with port := beNat (slice d 0 2) } ((d.take n).drop 8)

/-- A datagram in fragments is discarded whole: what comes of it later is ignored up to its last fragment. -/
def State.dropWhole (s : State) (src : UdpSource) (ident : Nat) (more : Bool) : State :=
  let ds := s.hpi.dropped.filter (· ≠ (src, ident))
  { s with hpi := { s.hpi with
    reasm := s.hpi.reasm.filter (fun r => !(r.src = src && r.ident = ident)),
    dropped := if more then ds ++ [(src, ident)] else ds } }

/-- A fragment joins its reassembly. -/
def State.addPart (s : State) (r : Reasm) (off : Nat) (more : Bool) (b : Bytes) : State :=
  let r' : Reasm := { r with
    parts := r.parts ++ [(off, b)], total := if more then r.total else some (off + b.length) }
  let rest := s.hpi.reasm.filter fun x => !(x.src = r.src && x.ident = r.ident)
  match r'.whole with
  | some d => ({ s with hpi := { s.hpi with reasm := rest } } : State).udpWhole r.src d
  | none => { s with hpi := { s.hpi with reasm := rest ++ [r'] } }

/-- IP_FRAGMENT: `b` is IP data from byte `off` of the datagram, the UDP header included. -/
def execIpFragment (src : UdpSource) (ident : Nat) (off : Nat) (more : Bool) (b : Bytes) (t : Nat) (s : State) :
    Host.Outcome State Fault Refusal :=
  let s := s.at t
  .next <|
    if !s.ethOpen src.eth then s
    else if src.vlan ≠ (s.ethCfg src.eth).vlan then s.ethDiscard src.eth
    else
      let s := s.rxFrame src.eth
      if s.hpi.dropped.contains (src, ident) || 4124 < off + b.length then s.dropWhole src ident more
      else match s.hpi.reasm.find? fun r => r.src = src && r.ident = ident with
        | some r => s.addPart r off more b
        | none =>
          if 4 ≤ s.hpi.reasm.length && (more || off ≠ 0) then s.dropWhole src ident more
          else s.addPart ⟨src, ident, [], none, s.utick⟩ off more b

/-- FRAGMENT_TIMEOUT: 250 ms without the whole datagram. -/
def execFragmentTimeout (src : UdpSource) (ident : Nat) (t : Nat) (s : State) : Host.Outcome State Fault Refusal :=
  let s := s.at t
  .next <| match s.hpi.reasm.find? fun r => r.src = src && r.ident = ident with
    | some r =>
      if r.t + 25000000 ≤ s.utick then ((s.dropWhole src ident false).inc Addr.hpiFragTmo).ev 0x385 0 else s
    | none => s.dropWhole src ident false

/-! ### Ports (R590, R616) -/

/-- An Ethernet port. -/
def State.ethPort (s : State) (port : Nat) : EthPort := if port = 0 then s.eth.port0 else s.eth.port1

/-- An Ethernet port replaced. -/
def State.setEthPort (s : State) (port : Nat) (x : EthPort) : State :=
  { s with eth := if port = 0 then { s.eth with port0 := x } else { s.eth with port1 := x } }

/-- The link is up: enabled, reported up, not half duplex. -/
def EthPort.linked (x : EthPort) : Bool := x.cfg.en && x.up && !x.half

/-- Half duplex is refused: an enabled port that stays down. -/
def EthPort.refused (x : EthPort) : Bool := x.cfg.en && x.up && x.half

/-- Byte 0 of ETH_STATUS. -/
def EthPort.stat (x : EthPort) : Nat :=
  b2n x.cfg.en + 2 * b2n x.linked + 4 * (if x.linked then x.speed % 4 else 0) + 16 * b2n x.refused

/-- ETHn_STAT. -/
def State.ethStatReg (s : State) (port : Nat) : Word := BitVec.ofNat 32 (s.ethPort port).stat

/-- A port changed, with the events of a change of link. -/
def State.ethChange (s : State) (port : Nat) (x : EthPort) : State :=
  let old := s.ethPort port
  let s := s.setEthPort port x
  let s := s.when (x.refused && !old.refused) (·.ev 0x388 port)
  let s := s.when (x.linked && !old.linked) (·.ev 0x386 port)
  s.when (!x.linked && old.linked) (·.ev 0x387 port)

/-- ETH_LINK_CHANGE: link, speed and duplex that the in-band status reports. -/
def execEthLinkChange (port : Nat) (up : Bool) (speed : BitVec 2) (half : Bool) (s : State) :
    Host.Outcome State Fault Refusal :=
  .next <| if port < 2 then
      s.ethChange port { s.ethPort port with up := up, speed := speed.toNat, half := half }
    else s

/-- An answer is sent. -/
def State.ethAnswer (s : State) (port n : Nat) (x : EthOut) : State :=
  let s := (s.rxFrame port).txFrames port n
  { s with eth := { s.eth with out := s.eth.out ++ [x] } }

/-- ARP_REQUEST for an address: answered for the port's own. -/
def execArpRequest (port : Nat) (ip : Word) (s : State) : Host.Outcome State Fault Refusal :=
  .next <| if !s.ethOpen port then s else
    let c := s.ethCfg port
    if c.ip = ip then (s.ethAnswer port 1 (.arp port ip)).inc (Addr.ethArpAns port) else s.ethDiscard port

/-- ICMP_ECHO: an echo request to an address, answered with its data for the port's own. -/
def execIcmpEcho (port : Nat) (ip : Word) (data : Bytes) (s : State) : Host.Outcome State Fault Refusal :=
  .next <| if !s.ethOpen port then s else
    let c := s.ethCfg port
    if c.ip = ip then s.ethAnswer port (ipFrames c.mtu (8 + data.length)) (.echo port ip data)
    else s.ethDiscard port

/-- ETH_FRAME_DROPPED (R34): the receive queue is full. -/
def execEthFrameDropped (port : Nat) (s : State) : Host.Outcome State Fault Refusal :=
  .next <| if s.ethOpen port then (s.inc (Addr.ethRxDrop port)).ev 0x381 port else s

/-- ETH_FRAME_DISCARDED (R590). -/
def execEthFrameDiscarded (port : Nat) (crcFail : Bool) (s : State) : Host.Outcome State Fault Refusal :=
  .next <| if s.ethOpen port then (if crcFail then s.inc (Addr.ethRxCrcerr port) else s.ethDiscard port) else s

/-- The six counters of a port, in the order of R593. -/
def ethCounters (port : Nat) : Nats :=
  [Addr.ethRxok port, Addr.ethTxok port, Addr.ethRxDrop port, Addr.ethRxCrcerr port, Addr.ethDiscard port,
   Addr.ethArpAns port]

/-- ETHn_CLR is written. -/
def State.ethClr (s : State) (port : Nat) (v : Word) : State := s.when (v.getLsbD 0) (·.clearAll (ethCounters port))

/-- ETHN_CLR. -/
def execEthnClr (port : Nat) (v : Word) (s : State) : Host.Outcome State Fault Refusal :=
  .next (if port < 2 then s.ethClr port v else s)

/-! ### Device time (R592) -/

/-- The servo state; a change records EV 0x389. -/
def State.servo (s : State) (n : Nat) : State :=
  if s.eth.state = n then s else ({ s with eth := { s.eth with state := n } } : State).ev 0x389 n

/-- Device time stepped onto the master: no timer moves (R154). -/
def State.ptpStep (s : State) (offset : Int) : State :=
  let n := (Int.toNat (s.dtime - offset)) / 10 * 10
  let s := s.stepTime n
  ({ s with eth := { s.eth with offset := 0 } } : State).event 0x38A (BitVec.ofInt 32 (-(offset / 1000)))

/-- PTP_MESSAGE: what the servo makes of a message of the chosen master. The discipline is suspended in TRACKING and
JOINING; device time is slewed by at most 100 ppm, and stepped only in STOP with STEPEN = 1 beyond STEPTH. -/
def execPtpMessage (m : PtpSync) (t : Nat) (s : State) : Host.Outcome State Fault Refusal :=
  let s := s.at t
  .next <| match s.eth.ptp.port with
    | none => s
    | some port =>
      if !s.ethOpen port then s else
      let s := s.rxFrame port
      if s.role = .tracking || s.role = .joining then s
      else
        let s : State := { s with eth := { s.eth with
          offset := m.offset, delay := m.delay, ppb := max (-100000) (min 100000 m.ppb), master := m.master } }
        let s := s.servo (m.state % 4)
        if s.op = .stop && s.eth.ptp.stepen && decide (1000 * s.eth.ptp.stepth < m.offset.natAbs) then s.ptpStep m.offset
        else s

/-! ### Opcodes (R593) -/

/-- ETH_STATUS. -/
def cmdEthStatus (q : Req) (p : Bytes) (s : State) : State :=
  s.startLen 0x0E00 1 q p fun s =>
    let n := (p.getD 0 0).toNat
    let x := s.ethPort n
    if 1 < n then s.fail q 0x0E00 0x11
    else s.ok q 0x0E00 ([BitVec.ofNat 8 x.stat, BitVec.ofNat 8 x.cfg.pcp] ++ leBytes 2 x.cfg.vlan ++
      leBytes 6 (Config.mac n).toNat ++ leBytes 2 x.cfg.mtu ++ wordBytes x.cfg.ip ++ wordBytes x.cfg.mask ++
      wordBytes x.cfg.gw)

/-- A multicast, broadcast or zero address; a directed broadcast needs two host bits. -/
def badHost (ip mask : Word) : Bool :=
  ip = 0 || ip = 0xFFFFFFFF || ip.toNat / 2 ^ 28 = 14 || (2 ≤ (~~~mask).toNat && ip ||| mask = 0xFFFFFFFF)

/-- The settings that ETH_CONFIG carries. -/
def ethCfgOf (p : Bytes) : EthCfg :=
  ⟨p.getD 1 0 = 1, field p 2 2, (p.getD 4 0).toNat, field p 6 2, wordAt p 8, wordAt p 12, wordAt p 16⟩

/-- ETH_CONFIG: in force at the first management tick after the reply. -/
def cmdEthConfig (q : Req) (p : Bytes) (s : State) : State :=
  s.startLen 0x0E01 20 q p fun s =>
    let n := (p.getD 0 0).toNat
    let c := ethCfgOf p
    if 1 < n || 1 < (p.getD 1 0).toNat || 4094 < c.vlan || 7 < c.pcp || c.mtu < 576 || 1500 < c.mtu ||
        (c.en && badHost c.ip c.mask) then s.fail q 0x0E01 0x11
    else (s.setEthPort n { s.ethPort n with next := some c }).ok q 0x0E01

/-- Settings that wait take effect at a management tick. -/
def State.ethTick (s : State) : State :=
  [0, 1].foldl (fun s n => match (s.ethPort n).next with
    | some c => s.ethChange n { s.ethPort n with cfg := c, next := none }
    | none => s) s

/-- PTP_CONFIG. -/
def cmdPtpConfig (q : Req) (p : Bytes) (s : State) : State :=
  s.startLen 0x0E02 8 q p fun s =>
    let n := (p.getD 0 0).toNat
    let d := (p.getD 1 0).toNat
    let th := field p 4 4
    if (1 < n && n ≠ 255) || 127 < d || th < 1 || 1000000 < th then s.fail q 0x0E02 0x11
    else
      let c : PtpCfg := ⟨if n = 255 then none else some n, d, (p.getD 2 0).getLsbD 0, th⟩
      let s := if c.port = s.eth.ptp.port && c.domain = s.eth.ptp.domain then s else s.servo (b2n c.port.isSome)
      ({ s with eth := { s.eth with ptp := c } } : State).ok q 0x0E02

/-- PTP_STATUS. -/
def cmdPtpStatus (q : Req) (p : Bytes) (s : State) : State :=
  s.startLen 0x0E03 0 q p fun s =>
    let e := s.eth
    s.ok q 0x0E03 ([BitVec.ofNat 8 e.state, 0, 0, 0] ++ leBytes 8 (BitVec.ofInt 64 e.offset).toNat ++ leBytes 4 e.delay ++
      leBytes 4 (BitVec.ofInt 32 e.ppb).toNat ++ leBytes 8 e.master)

/-- ETH_COUNTERS. -/
def cmdEthCounters (q : Req) (p : Bytes) (s : State) : State :=
  s.startLen 0x0E04 2 q p fun s =>
    let n := (p.getD 0 0).toNat
    if 1 < n then s.fail q 0x0E04 0x11
    else
      let d := (ethCounters n).flatMap fun a => wordBytes (s.rd a)
      (s.when ((p.getD 1 0).getLsbD 0) (·.clearAll (ethCounters n))).ok q 0x0E04 d

/-- ETH_STATUS. -/
def execEthStatus (q : Req) (p : Bytes) (s : State) : Host.Outcome State Fault Refusal := .next (cmdEthStatus q p s)
/-- ETH_CONFIG. -/
def execEthConfig (q : Req) (p : Bytes) (s : State) : Host.Outcome State Fault Refusal := .next (cmdEthConfig q p s)
/-- PTP_CONFIG. -/
def execPtpConfig (q : Req) (p : Bytes) (s : State) : Host.Outcome State Fault Refusal := .next (cmdPtpConfig q p s)
/-- PTP_STATUS. -/
def execPtpStatus (q : Req) (p : Bytes) (s : State) : Host.Outcome State Fault Refusal := .next (cmdPtpStatus q p s)
/-- ETH_COUNTERS. -/
def execEthCounters (q : Req) (p : Bytes) (s : State) : Host.Outcome State Fault Refusal := .next (cmdEthCounters q p s)

end Sys2Proof.Machine
end

