-- ==== Sys2Proof/Machine/Fwu.lean ====
section
/-! DEFINITION. Firmware update: slot records, packages, staging, verification, activation, confirmation, fallback
by the trial timer, station images, the FWU registers and opcodes (R533 to R560). What the boot ROM does at a start
is in Reset. -/

namespace Sys2Proof.Machine

/-! ### Slot records (R534) -/

/-- The slot record in use: the valid copy with the newer SEQ. -/
def State.slotRec (s : State) : Option SlotRec :=
  match s.fwu.rec0, s.fwu.rec1 with
  | some a, some b => some (if serialNewer32 b.seq a.seq then b else a)
  | some a, none => some a
  | none, b => b

/-- A slot record written in place of the older copy, with the next SEQ. -/
def State.writeSlotRec (s : State) (r : SlotRec) : State :=
  match s.slotRec with
  | none => { s with fwu := { s.fwu with rec0 := some { r with seq := 0 } } }
  | some o =>
    let n : SlotRec := { r with seq := (o.seq + 1) % 2 ^ 32 }
    if s.fwu.rec0 = some o then { s with fwu := { s.fwu with rec1 := some n } }
    else { s with fwu := { s.fwu with rec0 := some n } }

/-- The slot that a package goes to: not the running one; in RECOVERY not ACTIVE of the record, or slot 0 without
a record (R541, R558). -/
def State.targetSlot (s : State) : Nat :=
  if s.op = .recovery then (match s.slotRec with | some r => 1 - r.active | none => 0) else 1 - s.fwu.run

/-- The image of a slot replaced. -/
def State.setSlot (s : State) (k : Nat) (x : Option SlotImg) : State :=
  { s with fwu := if k = 0 then { s.fwu with slot0 := x } else { s.fwu with slot1 := x } }

/-- MGC firmware version of a slot's image; 0 without a valid header. -/
def State.slotVersion (s : State) (k : Nat) : Word :=
  match s.slotImg k with
  | some .factory => Config.partVersion 1
  | some (.pkg h _) => wordAt h 0x10
  | none => 0

/-- Version of the part of a TARGET in an image. -/
def partVersion (x : SlotImg) (target : Nat) : Word :=
  match x with
  | .factory => Config.partVersion target
  | .pkg h es =>
    if target = 1 then wordAt h 0x10
    else match (List.range 5).find? fun i => field es (64 * i) 1 = target with
      | some i => wordAt es (64 * i + 8)
      | none => 0

/-- The record says TRIAL. -/
def State.inTrial (s : State) : Bool := s.slotRec.any (·.trial)

/-! ### Packages (R535 to R537) -/

/-- NPART of a package head. -/
def npart (b : Bytes) : Nat := field b 0x18 4
/-- DATALEN of a package head. -/
def dataLen (b : Bytes) : Nat := field b 0x1C 4
/-- A field of manifest entry `i`. -/
def entryField (b : Bytes) (i off n : Nat) : Nat := field b (64 + 64 * i + off) n
/-- TARGET of entry `i`. -/
def entryTarget (b : Bytes) (i : Nat) : Nat := entryField b i 0 1
/-- Header and manifest: what PKGDIG and the signature cover. -/
def signedPart (b : Bytes) : Bytes := b.take (64 + 64 * npart b)

/-- End of part `i` in the data stream. -/
def entryEnd (b : Bytes) (i : Nat) : Nat := entryField b i 16 4 + entryField b i 12 4

/-- The manifest is consistent (R536, R537). -/
def manifestOk (b : Bytes) : Bool :=
  let is := List.range (npart b)
  let dev := is.filter fun i => entryTarget b i ≠ 6
  let stn := is.filter fun i => entryTarget b i = 6
  5 ≤ npart b && npart b ≤ 32 &&
    is.all (fun i => 1 ≤ entryTarget b i && entryTarget b i ≤ 6 && 1 ≤ entryField b i 12 4 &&
      (decide (entryTarget b i = 6) == (decide (entryField b i 2 2 ≠ 0) && decide (entryField b i 4 2 ≠ 0))) &&
      (entryTarget b i = 6 || (entryField b i 2 2 = 0 && entryField b i 4 2 = 0))) &&
    (List.range 5).all (fun k => (is.filter fun i => entryTarget b i = k + 1).length = 1) &&
    stn.length ≤ 27 &&
    stn.all (fun i => stn.all fun j => i = j || entryField b i 2 4 ≠ entryField b j 2 4) &&
    entryField b 0 16 4 = 0 &&
    (is.drop 1).all (fun i => entryField b i 16 4 = (entryEnd b (i - 1) + 255) / 256 * 256) &&
    dataLen b = entryEnd b (npart b - 1) && dataLen b ≤ 33292288 &&
    (dev.map fun i => entryField b i 12 4).sum ≤ 6 * 1048576

/-- REASON of step 5 of R539, or 0. -/
def State.headReason (s : State) (b : Bytes) : Nat :=
  let rev := Config.sirev.toNat
  if field b 0 4 ≠ 0x57464753 || field b 4 4 ≠ 1 then 1
  else if field b 8 4 ≠ 0x6160 then 2
  else if rev < field b 0x0C 2 || field b 0x0E 2 < rev then 3
  else if (s.slotVersion s.fwu.run).toNat < field b 0x14 4 then 4
  else if 1 < field b 0x21 1 then 5
  else 0

/-- The role rule of R542; it does not apply in RECOVERY (R558). -/
def State.updRoleBad (s : State) : Bool :=
  s.op ≠ .recovery &&
    (((s.role = .solo || s.role = .primary) && (s.op = .run || s.op = .hold)) || s.role = .joining)

/-- ENERGY_OK = 0, or a fitted cell that is low (R542). -/
def State.updEnergyBad (s : State) : Bool :=
  let v := s.fld Addr.rtcStat 31 16
  !s.energyOk || (1000 ≤ v && v < 2200)

/-- BOOT, or FAULT with the MIU reporting an unrebuildable PM page (R542). -/
def State.updStateBad (s : State) : Bool :=
  s.op = .boot || (s.op = .fault && ((s.rd Addr.miuErrInfo ≠ 0 && memOf (s.rdN Addr.miuErrAddr) = 0) ||
    memOf (s.rdN Addr.miuFirstAddr) = 0))

/-- A package refused: EV 0x301 with the status and REASON (R539). -/
def State.updRefuse (s : State) (q : Req) (low reason : Nat) : State :=
  (s.ev 0x301 (0x0C00 + low + reason * 65536)).fail q 0x0C00 low (if reason = 0 then [] else [BitVec.ofNat 8 reason])

/-! ### Station image jobs (R555, R556) -/

/-- The jobs for the ports of a mask: every ACTIVE station that an entry of TARGET 6 matches. -/
def State.imgJobs (s : State) (mask op : Nat) : List ImgJob :=
  let b := s.fwu.head.getD []
  let es := (List.range (npart b)).filter fun i => entryTarget b i = 6
  es.flatMap fun e =>
    ((s.stn.filter fun x => mask.testBit (x.1 / 96) && s.stnState x.1 = 5 && s.stnEn x.1 &&
        field x.2.cap0 2 2 = entryField b e 2 2 && field x.2.cap0 4 2 = entryField b e 4 2 &&
        (x.2.cap0.getD 16 0).getLsbD 3).map fun x => ⟨x.1, e, op, 0⟩)

/-- The jobs of a kind put in hand, each port starting its first. -/
def State.imgStart (s : State) (js : List ImgJob) : State :=
  let s : State := { s with fwu := { s.fwu with jobs := js } }
  (List.range 16).foldl (fun s n => s.imgNext n) s

/-- Jobs that still run are given up; an activation among them ends. -/
def State.imgStop (s : State) : State :=
  let n := (s.fwu.jobs.filter fun j => j.op = 0x43).length
  let s : State := { s with fwu := { s.fwu with jobs := [], refused := s.fwu.refused + n } }
  s.noticeAll 0x0C08 0x0C00 (leBytes 2 s.fwu.acted ++ leBytes 2 s.fwu.refused)

/-! ### Staging (R538 to R541) -/

/-- UPD_BEGIN (R539). -/
def cmdUpdBegin (q : Req) (p : Bytes) (s : State) : State :=
  s.start 0x0C00 q p fun s =>
    let st := s.fwu.st
    if p.length ≠ 128 + 64 * npart p || p.length < 128 then s.fail q 0x0C00 0x10
    else if s.updRoleBad then s.fail q 0x0C00 0x21
    else if s.updStateBad then s.fail q 0x0C00 0x20
    else if s.updEnergyBad then s.fail q 0x0C00 0x22
    else if st = .erasing || st = .verifying || st = .activating then s.fail q 0x0C00 0x31
    else
      let r := s.headReason p
      if r ≠ 0 then s.updRefuse q 0x11 r
      else if !ecdsaOk (Config.vendorKey (field p 0x21 1)) (sha256 (signedPart p)) (p.drop (p.length - 64)) then s.updRefuse q 0x50 0
      else if !manifestOk p then s.updRefuse q 0x11 6
      else if s.role = .tracking && field p 0x20 1 ≠ (match s.peerWord 0 with | some w => bitsOf w 7 0 | none => field p 0x20 1) then
        s.updRefuse q 0x21 8
      else
        let s := (s.imgStop.accept q 0x0C00).event 0x300 (wordAt p 0x10)
        { s with fwu := { s.fwu with st := .erasing, head := some p, mark := false, data := [], buf := 0, bad := none } }

/-- ERASE_DONE (R538, R539). -/
def execEraseDone (s : State) : Host.Outcome State Fault Refusal :=
  .next <| if s.fwu.st = .erasing then
      ({ s with fwu := { s.fwu with st := .receiving } } : State).noticeAll 0x0C00 0x0C00
    else s

/-- Bytes in the program buffer now: it drains at 8 MiB/s (R533, R540). -/
def State.progLevel (s : State) : Nat := s.fwu.buf - (s.utick - s.fwu.bufT) * 8388608 / 100000000

/-- UPD_DATA (R540). -/
def cmdUpdData (q : Req) (p : Bytes) (s : State) : State :=
  s.start 0x0C01 q p fun s =>
    let f := s.fwu
    let d := p.drop 4
    let next := f.data.length
    if p.length < 4 || 4076 < p.length then s.fail q 0x0C01 0x10
    else if f.st ≠ .receiving then s.fail q 0x0C01 0x20
    else if field p 0 4 ≠ next then s.fail q 0x0C01 0x11 (leBytes 4 next)
    else if dataLen (f.head.getD []) < next + d.length then s.fail q 0x0C01 0x11
    else if 65536 < s.progLevel + d.length then s.fail q 0x0C01 0x31
    else
      let s : State := if d.isEmpty then s else { s with fwu := { f with
        data := f.data ++ d, buf := s.progLevel + d.length, bufT := s.utick } }
      s.ok q 0x0C01

/-- The first entry whose part does not match its DIGEST (R541). -/
def State.badPart (s : State) : Option Nat :=
  let b := s.fwu.head.getD []
  (List.range (npart b)).find? fun i =>
    sha256 ((s.fwu.data.drop (entryField b i 16 4)).take (entryField b i 12 4)) ≠ slice b (64 + 64 * i + 32) 32

/-- UPD_VERIFY (R541): the parts are read back; with good parts the other boot slot is erased and the station
images go out. -/
def cmdUpdVerify (q : Req) (p : Bytes) (s : State) : State :=
  s.startLen 0x0C02 0 q p fun s =>
    let f := s.fwu
    if f.st ≠ .receiving || f.data.length ≠ dataLen (f.head.getD []) then s.fail q 0x0C02 0x20
    else
      let bad := s.badPart
      let s := s.accept q 0x0C02
      let s : State := { s with fwu := { s.fwu with st := .verifying, bad := bad, staged := 0, failed := 0 } }
      if bad.isSome then s
      else
        let s := s.setSlot s.targetSlot none
        if s.op ≠ .recovery && (s.role = .solo || s.role = .primary) then s.imgStart (s.imgJobs 0xFFFF 0x40) else s

/-- VERIFY_DONE (R541): once every station image has gone. -/
def execVerifyDone (s : State) : Host.Outcome State Fault Refusal :=
  .next <|
    if s.fwu.st ≠ .verifying || !s.fwu.jobs.isEmpty then s
    else match s.fwu.bad with
      | some e =>
        (({ s with fwu := { s.fwu with st := .idle, bad := none } } : State).ev 0x303 e).noticeAll 0x0C02 0x0C50
      | none =>
        let s : State := { s with fwu := { s.fwu with st := .verified, mark := true } }
        (s.ev 0x302 (npart (s.fwu.head.getD []))).noticeAll 0x0C02 0x0C00 (leBytes 2 s.fwu.staged ++ leBytes 2 s.fwu.failed)

/-! ### Activation, confirmation and reversion (R543, R548, R549, R552) -/

/-- The reference, output and request sequence counters as saved for a restart (R543). -/
def State.counterRegs (s : State) : Sparse Word :=
  skeep s.regs fun a => (0x40000 ≤ a && a < 0x44000 && (a - 0x40000) % 1024 = 0x214) ||
    (0x50000 ≤ a && a < 0x5C000 && (a - 0x50000) % 32 = 24)

/-- A restart 10 ms from now with cause UPDATE, the counters saved (R543, R552). -/
def State.updRestart (s : State) : State :=
  { s with restart := some (s.utick + 1000000), pwr := { s.pwr with latch := 3 },
           fwu := { s.fwu with saved := some s.counterRegs } }

/-- UPD_ACTIVATE (R542, R543). -/
def cmdUpdActivate (q : Req) (p : Bytes) (s : State) : State :=
  s.startLen 0x0C03 4 q p fun s =>
    let win := field p 0 1
    let ch := s.se.swap.chamber
    if win < 1 || 60 < win then s.fail q 0x0C03 0x11
    else if s.updRoleBad then s.fail q 0x0C03 0x21
    else if s.updEnergyBad then s.fail q 0x0C03 0x22
    else if s.updStateBad || s.fwu.st ≠ .verified then s.fail q 0x0C03 0x20
    else if ch = Chamber.armed || ch = Chamber.swapping || s.miu.scrub.isSome then s.fail q 0x0C03 0x31
    else
      let old : SlotRec := s.slotRec.getD { active := 1 }
      let s := s.writeSlotRec { old with
        pending := true, confwin := win, autoconf := (p.getD 1 0).getLsbD 0, pkgdig := sha256 (signedPart (s.fwu.head.getD [])) }
      let s := ((s.ok q 0x0C03).ev 0x304 s.targetSlot).updRestart
      { s with fwu := { s.fwu with st := .activating } }

/-- The trial image is confirmed (R549). -/
def State.confirm (s : State) : State :=
  match s.slotRec with
  | some r =>
    let s := s.writeSlotRec { r with trial := false, starts := 0 }
    ({ s with fwu := { s.fwu with lastres := 1 } } : State).ev 0x307 r.active
  | none => s

/-- UPD_CONFIRM (R549). -/
def cmdUpdConfirm (q : Req) (p : Bytes) (s : State) : State :=
  s.startLen 0x0C04 0 q p fun s =>
    if !s.inTrial || s.fwu.setinc then s.fail q 0x0C04 0x20 else s.confirm.ok q 0x0C04

/-- SELF_CONFIRM (R549): with AUTOCONF, 60 s in STOP, RUN or HOLD, settings migrated. -/
def execSelfConfirm (t : Nat) (s : State) : Host.Outcome State Fault Refusal :=
  let s := s.at t
  .next <|
    if s.inTrial && s.slotRec.any (·.autoconf) && !s.fwu.setinc && (s.op = .stop || s.op = .run || s.op = .hold) &&
        s.fwu.upAt + 6000000000 ≤ s.utick then s.confirm
    else s

/-- The slot record turned to the other slot, CONFIRMED (R545, R552). -/
def State.otherSlot (s : State) (res : Nat) : State :=
  match s.slotRec with
  | some r =>
    let s := s.writeSlotRec { r with active := 1 - r.active, trial := false, starts := 0, pending := false }
    { s with fwu := { s.fwu with lastres := res } }
  | none => s

/-- UPD_REVERT (R552). -/
def cmdUpdRevert (q : Req) (p : Bytes) (s : State) : State :=
  s.startLen 0x0C05 0 q p fun s =>
    if s.updRoleBad then s.fail q 0x0C05 0x21
    else if (s.slotImg (1 - s.fwu.run)).isNone then s.fail q 0x0C05 0x20
    else (((s.otherSlot 4).ev 0x30A (1 - s.fwu.run)).ok q 0x0C05).updRestart

/-- TRIAL_TIMEOUT (R545, R548): the fallback is written; a unit in RUN or HOLD leaves that state before it
restarts. -/
def execTrialTimeout (t : Nat) (s : State) : Host.Outcome State Fault Refusal :=
  let s := s.at t
  .next <| match s.slotRec with
    | some r =>
      if !r.trial || s.op = .boot || s.op = .recovery || s.utick < r.confwin * 6000000000 then s
      else
        let s := ((s.otherSlot 2).ev 0x308 1).updRestart
        let s : State := { s with fwu := { s.fwu with fellBack := true } }
        if s.op = .run then s.leaveRun .stop
        else if s.op = .hold then { s with se := { s.se with change := some ⟨.stop, s.utick⟩ } }
        else s
    | none => s

/-- UPD_ABORT (R538, R560). -/
def cmdUpdAbort (q : Req) (p : Bytes) (s : State) : State :=
  s.startLen 0x0C07 0 q p fun s =>
    let st := s.fwu.st
    if st = .erasing || st = .verifying || st = .activating then s.fail q 0x0C07 0x31
    else if st = .idle then s.ok q 0x0C07
    else
      let s := s.imgStop
      ({ s with fwu := { s.fwu with st := .idle, mark := false, head := none, data := [] } } : State).ok q 0x0C07

/-- UPD_STATION_ACTIVATE (R556, R560). One that runs makes a second BUSY. -/
def cmdUpdStationActivate (q : Req) (p : Bytes) (s : State) : State :=
  s.startLen 0x0C08 2 q p fun s =>
    if !s.fwu.mark then s.fail q 0x0C08 0x20
    else if s.role ≠ .solo && s.role ≠ .primary then s.fail q 0x0C08 0x21
    else if !(s.longsOf 0x0C08).isEmpty then s.fail q 0x0C08 0x31
    else
      let js := s.imgJobs (field p 0 2) 0x43
      let s := s.accept q 0x0C08
      let s : State := { s with fwu := { s.fwu with acted := 0, refused := 0 } }
      if js.isEmpty then s.noticeAll 0x0C08 0x0C00 [0, 0, 0, 0] else s.imgStart js

/-! ### Registers (R559) -/

/-- STATE codes of FWU_STAT. -/
def FwuState.code : FwuState → Nat
  | .idle => 0 | .erasing => 1 | .receiving => 2 | .verifying => 3 | .verified => 4 | .activating => 5

/-- Seconds left in the confirm window. -/
def State.fwuRemain (s : State) : Nat :=
  match s.slotRec with
  | some r => if r.trial then (r.confwin * 6000000000 - s.utick) / 100000000 else 0
  | none => 0

/-- The FWU register at an offset (R559). -/
def State.fwuReg (s : State) (off : Nat) : Word :=
  let f := s.fwu
  match off with
  | 0x00 => BitVec.ofNat 32 (f.st.code + f.run * 256 + b2n s.inTrial * 512 +
      (match s.slotRec with | some r => min r.starts 3 | none => 0) * 1024 + b2n f.setinc * 4096 +
      b2n (decide (s.op = .recovery)) * 8192 + f.lastres * 65536)
  | 0x04 => BitVec.ofNat 32 f.data.length
  | 0x08 => BitVec.ofNat 32 (match f.head with | some b => dataLen b | none => 0)
  | 0x0C => BitVec.ofNat 32 s.fwuRemain
  | 0x10 => s.slotVersion f.run
  | 0x14 => s.slotVersion (1 - f.run)
  | 0x18 => BitVec.ofNat 32 (min f.staged 0xFFFF + min f.failed 0xFFFF * 65536)
  | _ => 0

/-- UPD_STATUS (R560). -/
def cmdUpdStatus (q : Req) (p : Bytes) (s : State) : State :=
  s.startLen 0x0C06 0 q p fun s => s.ok q 0x0C06 (wordsBytes ((List.range 7).map fun i => s.fwuReg (4 * i)))

/-- UPD_BEGIN. -/
def execUpdBegin (q : Req) (p : Bytes) (s : State) : Host.Outcome State Fault Refusal := .next (cmdUpdBegin q p s)
/-- UPD_DATA. -/
def execUpdData (q : Req) (p : Bytes) (s : State) : Host.Outcome State Fault Refusal := .next (cmdUpdData q p s)
/-- UPD_VERIFY. -/
def execUpdVerify (q : Req) (p : Bytes) (s : State) : Host.Outcome State Fault Refusal := .next (cmdUpdVerify q p s)
/-- UPD_ACTIVATE. -/
def execUpdActivate (q : Req) (p : Bytes) (s : State) : Host.Outcome State Fault Refusal :=
  .next (cmdUpdActivate q p s)
/-- UPD_CONFIRM. -/
def execUpdConfirm (q : Req) (p : Bytes) (s : State) : Host.Outcome State Fault Refusal := .next (cmdUpdConfirm q p s)
/-- UPD_REVERT. -/
def execUpdRevert (q : Req) (p : Bytes) (s : State) : Host.Outcome State Fault Refusal := .next (cmdUpdRevert q p s)
/-- UPD_STATUS. -/
def execUpdStatus (q : Req) (p : Bytes) (s : State) : Host.Outcome State Fault Refusal := .next (cmdUpdStatus q p s)
/-- UPD_ABORT. -/
def execUpdAbort (q : Req) (p : Bytes) (s : State) : Host.Outcome State Fault Refusal := .next (cmdUpdAbort q p s)
/-- UPD_STATION_ACTIVATE. -/
def execUpdStationActivate (q : Req) (p : Bytes) (s : State) : Host.Outcome State Fault Refusal :=
  .next (cmdUpdStationActivate q p s)

end Sys2Proof.Machine
end

