-- ==== Sys2Proof/Machine/Power.lean ====
section
/-! DEFINITION. Power and clocks: the power-fail warning, supply and clock monitors, the telemetry sweep, and the
program store with STORE_CTRL (R564 to R575, R588, R589). -/

namespace Sys2Proof.Machine

/-! ### Warnings and monitors -/

/-- The power-fail warning (R567, R569): latched; an armed swap abandoned, LEAVE, CTX4 at once or after a running
swap (R198). -/
def State.powerFail (s : State) : State :=
  if s.bit Addr.pwrStat 0 then s
  else
    let s := ((s.setBit Addr.pwrStat 0 true).inc Addr.pwrPfw).event 0x010 (s.rd Addr.pwrV0)
    let s := (s.abandonSwap 6).leaveTwin
    if s.se.swap.chamber = .swapping then s.onSe fun e => { e with pfWait := true } else s.startCtx4

/-- POWER_FAIL_WARNING. -/
def execPowerFailWarning (t : Nat) (s : State) : Host.Outcome State Fault Refusal := .next (s.at t).powerFail

/-- X32_STOPPED (R575): the RTC does not count while X32 is stopped. -/
def execX32Stopped (s : State) : Host.Outcome State Fault Refusal :=
  .next <| if !s.pwr.x32 then s else
    (({ s with pwr := { s.pwr with x32 := false } } : State).setBit Addr.clkStat 4 false).ev 0x013 0

/-- X32_RESUMED (R575). -/
def execX32Resumed (s : State) : Host.Outcome State Fault Refusal :=
  .next (({ s with pwr := { s.pwr with x32 := true } } : State).setBit Addr.clkStat 4 true)

/-- VCAN_LOW (R564): transmitters recessive, EV 0x012 with VCAN of the last sweep. -/
def execVcanLow (s : State) : Host.Outcome State Fault Refusal :=
  .next <| if s.bit Addr.pwrStat 2 then s else (s.setBit Addr.pwrStat 2 true).ev 0x012 (s.fld Addr.pwrV1 15 0)

/-- VCAN_RESTORED (R564). -/
def execVcanRestored (s : State) : Host.Outcome State Fault Refusal := .next (s.setBit Addr.pwrStat 2 false)

/-! ### Telemetry (R568, R571) -/

/-- Two 16-bit halves of a register, each at most 0xFFFF. -/
def halves (lo hi : Nat) : Word := BitVec.ofNat 32 (min lo 0xFFFF + min hi 0xFFFF * 65536)

/-- A signed 16-bit field. -/
def field16 (x : Int) : Nat := (BitVec.ofInt 16 x).toNat

/-- Supplies and die temperatures into their registers (R589, R505). -/
def State.measure (s : State) (m : Telemetry) : State :=
  (((((s.wr Addr.pwrV0 (halves (m.vsup / 10) (m.vhold / 10))).wr Addr.pwrV1 (halves m.vcan m.vdd)).wr
    Addr.pwrV2 (halves m.vddio m.vddio18)).wr Addr.pwrV3 (halves m.vdda m.vmain)).wr
    Addr.pwrTemp (halves (field16 m.tlog) (field16 m.thv))).setFld Addr.rtcStat 31 16 (min m.vbat 0xFFFF)

/-- ENERGY_OK follows VHOLD and EOK_TH (R568). -/
def State.energyCheck (s : State) (vhold : Nat) : State :=
  s.setBit Addr.pwrStat 1 (10000 + 100 * s.lf Addr.pwrCfg 15 8 ≤ vhold)

/-- The die temperatures (R571): THOT from 125 °C to below 120 °C, FAULT at 135 °C in two sweeps 1 ms apart. -/
def State.thermal (s : State) (m : Telemetry) : State :=
  let c := max m.tlog m.thv
  let was := s.bit Addr.pwrStat 3
  let s := if 1250 ≤ c then s.setBit Addr.pwrStat 3 true else if c < 1200 then s.setBit Addr.pwrStat 3 false else s
  let s := s.when (1250 ≤ c && !was) fun s => s.event 0x014 (s.rd Addr.pwrTemp)
  let hot := s.pwr.hot
  let s : State := { s with pwr := { s.pwr with hot := decide (1350 ≤ c) } }
  s.when (1350 ≤ c && hot && decide (s.op ≠ .fault)) fun s => (s.event 0x015 (s.rd Addr.pwrTemp)).enterFault 0x015

/-- TELEMETRY_SWEEP (R362, R363, R505, R568, R571). -/
def execTelemetrySweep (t : Nat) (m : Telemetry) (s : State) : Host.Outcome State Fault Refusal :=
  .next (((((s.at t).measure m).energyCheck m.vhold).thermal m).fioSweep m.vfld m.tgrp)

/-! ### Program store and settings (R588) -/

/-- The half that the newer record does not name: 0 or 1. -/
def State.olderHalf (s : State) : Nat :=
  match s.fwu.prog0, s.fwu.prog1 with
  | some a, some b => if serialNewer32 b.seq a.seq then 0 else 1
  | some _, none => 1
  | none, _ => 0

/-- SEQ of the newest record. -/
def State.storeSeq (s : State) : Option Nat :=
  match s.fwu.prog0, s.fwu.prog1 with
  | some a, some b => some (if serialNewer32 b.seq a.seq then b.seq else a.seq)
  | some a, none => some a.seq
  | none, some b => some b.seq
  | none, none => none

/-- The image in PM bank `b`, by the length in its header. -/
def State.bankImage (s : State) (b : Nat) : Bytes :=
  let i : Image := ⟨s.pm, 8388608 * b⟩
  i.bytes 0 (min i.len 8388608)

/-- The settings in force (R550, R588). -/
def State.settings (s : State) : Settings :=
  ⟨skeep s.live fun a => !isRtc a, [s.eth.port0.cfg, s.eth.port1.cfg], s.eth.ptp⟩

/-- An ignored write counted in REFUSED. -/
def State.storeRefuse (s : State) : State := s.incFld Addr.storeStat 31 16

/-- A store operation starts: BUSY, and the half it replaces is erased. -/
def State.storeStart (s : State) (op : Nat) (x : StoreOp) : State :=
  let s := (s.setFld Addr.storeStat 1 0 1).setFld Addr.storeStat 3 2 op
  { s with fwu := { s.fwu with storeOp := some x } }

/-- STORE_CTRL is written (R588). -/
def State.storeWr (s : State) (op : Nat) : State :=
  let bank := s.fld Addr.seSwapStat 8 8
  if op = 0 then s
  else if s.fwu.storeOp.isSome || (op = 2 && s.se.swap.chamber ≠ Chamber.loaded) || s.fwu.st = .erasing ||
      s.fwu.st = .verifying || s.fwu.st = .activating then s.storeRefuse
  else if op = 3 then s.storeStart 3 (.settings s.settings)
  else
    let k := s.olderHalf
    let s : State := { s with fwu := if k = 0 then { s.fwu with prog0 := none } else { s.fwu with prog1 := none } }
    s.storeStart op (.image op k (s.bankImage (if op = 1 then bank else 1 - bank)))

/-- STORE_RUNNING_PROGRAM. -/
def execStoreRunningProgram (s : State) : Host.Outcome State Fault Refusal := .next (s.storeWr 1)
/-- STORE_LOADED_CHAMBER. -/
def execStoreLoadedChamber (s : State) : Host.Outcome State Fault Refusal := .next (s.storeWr 2)
/-- STORE_CONFIGURATION. -/
def execStoreConfiguration (s : State) : Host.Outcome State Fault Refusal := .next (s.storeWr 3)

/-- The record or the settings area written last. -/
def State.storePut (s : State) : StoreOp → State
  | .image _ k img =>
    let h : StoreHalf := ⟨match s.storeSeq with | some n => (n + 1) % 2 ^ 32 | none => 0, img⟩
    { s with fwu := if k = 0 then { s.fwu with prog0 := some h } else { s.fwu with prog1 := some h } }
  | .settings x => { s with fwu := if s.fwu.run = 0 then { s.fwu with area0 := some x } else { s.fwu with area1 := some x } }

/-- STORE_DONE (R588): complete, or a read-back mismatch. -/
def execStoreDone (ok : Bool) (s : State) : Host.Outcome State Fault Refusal :=
  .next <| match s.fwu.storeOp with
    | none => s
    | some x =>
      let op := s.fld Addr.storeStat 3 2
      let s : State := { s with fwu := { s.fwu with storeOp := none } }
      let s := s.setFld Addr.storeStat 1 0 (if ok then 2 else 3)
      if ok then (s.storePut x).ev 0x018 op else s.ev 0x019 op

end Sys2Proof.Machine
end

