-- ==== Sys2Proof/Machine/FbpCfg.lean ====
section
/-! DEFINITION. Consistency checks and the effects of a commit of a CAN FD port and of its station entries
(R244, R250, R256, R259, R266, R288, R291 to R294, R301, R320, R325, R326). -/

namespace Sys2Proof.Machine

/-! ### Port checks -/

/-- Bit timing (R250, R288): offending registers, when the mode is not DISABLED. -/
def timingFails (m : Sparse Word) (n : Nat) : Nats :=
  let nb := sv m (Addr.fbpNbt n)
  let db := sv m (Addr.fbpDbt n)
  let (tn, td) := bitHalfNs nb db
  let rng (v lo hi : Nat) : Bool := v < lo || hi < v
  (if rng (bitsOf nb 5 0) 1 32 || rng (bitsOf nb 14 6) 2 256 || rng (bitsOf nb 22 15) 1 128 || rng (bitsOf nb 30 23) 1 128 ||
      1 + bitsOf nb 14 6 + bitsOf nb 22 15 < 8 || tn < 2000 || bitsOf nb 22 15 < bitsOf nb 30 23
    then [Addr.fbpNbt n] else []) ++
  (if rng (bitsOf db 4 0) 1 31 || rng (bitsOf db 10 5) 1 32 || rng (bitsOf db 15 11) 1 16 || rng (bitsOf db 20 16) 1 16 ||
      1 + bitsOf db 10 5 + bitsOf db 15 11 < 5 || td < 400 || tn < td || bitsOf db 15 11 < bitsOf db 20 16 ||
      (db.getLsbD 28 && 2 < bitsOf db 4 0)
    then [Addr.fbpDbt n] else [])

/-- Window `w` of a staged timetable. -/
def winIn (m : Sparse Word) (n w : Nat) : Win := winOf (sv m (Addr.fbpTtWinW0 n w)) (sv m (Addr.fbpTtWinW1 n w))

/-- Descriptor `b` of a staged group. -/
def txdIn (m : Sparse Word) (n b : Nat) : TxDesc :=
  txDesc (sv m (Addr.fbpTxbufW0 n b)) (sv m (Addr.fbpTxbufW1 n b)) (sv m (Addr.fbpTxbufW2 n b))

/-- Words 0 to 2 of a descriptor are 0 (R259). -/
def unusedIn (m : Sparse Word) (n b : Nat) : Bool :=
  sv m (Addr.fbpTxbufW0 n b) = 0 && sv m (Addr.fbpTxbufW1 n b) = 0 && sv m (Addr.fbpTxbufW2 n b) = 0

/-- Worst-case duration of a staged descriptor's frame in 0.5 ns. -/
def worstIn (m : Sparse Word) (n : Nat) (d : TxDesc) : Nat :=
  worstHalfNs (sv m (Addr.fbpNbt n)) (sv m (Addr.fbpDbt n)) d.ide d.fdf d.brs d.dlc

/-- A frame of a duration fits a window of `len` µs (R294). -/
def fitsWin (m : Sparse Word) (n dur len : Nat) : Bool :=
  (if sf m (Addr.fbpTtCfg n) 8 8 = 1 then 2 else 1) * dur ≤ (len - 1) * 2000

/-- Offending words of window `w` of a timetable with columns (R293, R294); `used`: the descriptors in use. -/
def winFails (m : Sparse Word) (n : Nat) (w : Nat) : Nats :=
  let ncyc := sf m (Addr.fbpTtCfg n) 6 0
  let bclen := sf m (Addr.fbpTtBclen n) 15 0
  let wd := winIn m n w
  let a0 := Addr.fbpTtWinW0 n w
  let a1 := Addr.fbpTtWinW1 n w
  let later := (List.range 32).any fun v => w < v && (winIn m n v).len ≠ 0
  if wd.len = 0 then (if later || w = 0 then [a0] else [])
  else
    let prev := ((List.range w).map (winIn m n)).filter fun v => v.len ≠ 0
    let excl := wd.ty = 2 || wd.ty = 3
    let rotOk := if excl then wd.rotn ≤ 1 || [2, 4, 8, 16, 32, 64].contains wd.rotn else wd.rotn ≤ 1
    let bufs := (List.range (max wd.rotn 1)).map fun j => wd.obj + j
    (if prev.any (fun v => wd.start < v.start + v.len) || bclen < wd.start + wd.len || (w = 0 && wd.start ≠ 0) then [a0] else []) ++
    (if 4 < wd.ty || wd.rep = 128 || (wd.ty = 1) ≠ (w = 0) || (w = 0 && wd.rep ≠ 1) || !rotOk || (!excl && wd.obj ≠ 0) ||
        ncyc < wd.rep || wd.rep ≤ wd.base || ncyc / wd.rep < max wd.rotn 1 ||
        (wd.ty = 2 && 63 < wd.obj + max wd.rotn 1 - 1) || (wd.ty = 3 && 95 < wd.obj + max wd.rotn 1 - 1)
      then [a1] else []) ++
    (if wd.ty = 1 then
      let nsh := ((List.range 5).filter fun k => sf m (Addr.fbpTtBeacon n) (6 * k + 5) (6 * k) < 32).length
      if fitsWin m n (worstHalfNs (sv m (Addr.fbpNbt n)) (sv m (Addr.fbpDbt n)) false true true (dlcFor (12 + 10 * nsh))) wd.len
      then [] else [a0]
     else if wd.ty = 2 then
      (if bufs.any fun b => unusedIn m n b || (txdIn m n b).m then [a1] else []) ++
      (if bufs.all fun b => unusedIn m n b || (txdIn m n b).m || fitsWin m n (worstIn m n (txdIn m n b)) wd.len then [] else [a0])
     else if wd.ty = 3 then
      let rx := (List.range (w + 1)).filter fun v => (winIn m n v).len ≠ 0 && (winIn m n v).ty = 3
      if bufs.any fun b => 4 < (rx.filter fun v => (winIn m n v).obj ≤ b && b < (winIn m n v).obj + max (winIn m n v).rotn 1).length
      then [a1] else []
     else [])

/-- Offending words of the timetable (R291, R294). -/
def ttFails (m : Sparse Word) (n : Nat) : Nats :=
  let ncyc := sf m (Addr.fbpTtCfg n) 6 0
  let bclen := sf m (Addr.fbpTtBclen n) 15 0
  let station : Bool := sf m (Addr.fbpCtrl n) 4 4 = 1
  (if (List.range 5).any fun k => let c := sf m (Addr.fbpTtBeacon n) (6 * k + 5) (6 * k); 32 ≤ c && c ≤ 62
    then [Addr.fbpTtBeacon n] else []) ++
  (if station && (sf m (Addr.fbpTtSmoff n) 15 0 % 8 ≠ 0 || 0xEC00 < sf m (Addr.fbpTtSmoff n) 15 0 + 60) then [Addr.fbpTtSmoff n] else []) ++
  (if ncyc = 0 then []
   else
    (if [1, 2, 4, 8, 16, 32, 64].contains ncyc then [] else [Addr.fbpTtCfg n]) ++
    (if bclen % 10 ≠ 0 || bclen < 200 || 65530 < bclen then [Addr.fbpTtBclen n] else []) ++
    (List.range 32).flatMap (winFails m n))

/-- The longest ARBITRATING window of a staged timetable, in µs. -/
def longestArb (m : Sparse Word) (n : Nat) : Nat :=
  (((List.range 32).map (winIn m n)).filter fun w => w.len ≠ 0 && (w.ty = 4 || (w.alt = 1 && 1 < w.rep))).foldl (fun a w => max a w.len) 0

/-- Offending words of descriptor `b` (R256, R259, R301). -/
def descFails (m : Sparse Word) (n b : Nat) : Nats :=
  if unusedIn m n b then []
  else
    let d := txdIn m n b
    let c := idClass d.id
    let tw := !d.ide && (c = 0 || c = 1 || c = 5)
    let len := dlcBytes d.fdf d.dlc
    let ncyc := sf m (Addr.fbpTtCfg n) 6 0
    (if (!d.ide && 2047 < d.id) || (d.brs && !d.fdf) || (d.twh && !tw) then [Addr.fbpTxbufW0 n b] else []) ++
    (if (d.own && !d.m) || (!d.twh && !d.ide && (c = 1 || c = 5)) || (d.twh && len < 4) || (!d.m && ncyc = 0) ||
        (d.m && ncyc ≠ 0 && longestArb m n * 2000 < worstIn m n d) then [Addr.fbpTxbufW1 n b] else []) ++
    (if (if d.dsrc then dmSize else 65536) < d.daddr + (len - (if d.twh then 4 else 0)) then [Addr.fbpTxbufW2 n b] else [])

/-- The port group is rejected at an address, or not at all. -/
def fbpCheck (n : Nat) (m : Sparse Word) : Option Nat :=
  let mode := sf m (Addr.fbpCtrl n) 2 0
  lowest ((if 4 < mode || (sf m (Addr.fbpCtrl n) 4 4 = 1 && 95 < sf m (Addr.fbpCtrl n) 15 8) then [Addr.fbpCtrl n] else []) ++
    (if mode = 0 then [] else timingFails m n) ++ ttFails m n ++ (List.range 64).flatMap (descFails m n) ++
    ((List.range 128).filter fun k => 3 < sf m (Addr.fbpFilterW2 n k) 2 0).map (Addr.fbpFilterW2 n))

/-! ### What a port commit does (R244, R247, R295) -/

/-- The port goes off the bus: counters and error state cleared, an attempt in progress ended. -/
def State.portOff (s : State) (n : Nat) : State :=
  let s := match (s.port n).active with
    | some b => s.setTxf n b { s.txf n b with st := 1 }
    | none => s
  let s := s.onPort n fun x => { x with active := none, susp := false, wait11 := false, win := none, burst := false, cyc := none }
  (((s.wr (Addr.fbpErrc n) 0).setFld (Addr.fbpStat n) 3 0 0)).putSummary n

/-- The next bus time that BCLEN in force divides (R295): the present µs, or behind it. -/
def State.nextCycle (s : State) (n : Nat) : Nat :=
  let b := s.bclenNs n
  if b = 0 then 0 else (s.dtime / 1000 * 1000 + b - 1) / b * b

/-- Once the new configuration is in force; `old`: the one before. -/
def State.fbpApply (s : State) (n : Nat) (old : Sparse Word) : State :=
  let m0 := sf old (Addr.fbpCtrl n) 2 0
  let m1 := s.lf (Addr.fbpCtrl n) 2 0
  let same (a : Nat) : Bool := sv old a = s.lv a
  let role : Bool := sf old (Addr.fbpCtrl n) 15 8 = s.lf (Addr.fbpCtrl n) 15 8 && sf old (Addr.fbpCtrl n) 4 4 = s.lf (Addr.fbpCtrl n) 4 4
  let s := s.when (m1 = 0 && m0 ≠ 0) (·.portOff n)
  let s := s.when (m0 = 0 && 1 ≤ m1 && m1 ≤ 3) (·.setBit (Addr.fbpStat n) 3 true)
  let s := s.when (!(same (Addr.fbpTtCfg n) && same (Addr.fbpTtBclen n))) (·.onPort n fun x => { x with
    cyc := none, got := [], ttFrom := s.nextCycle n })
  let s := s.when (!role) (·.onPort n fun x => { x with
    cyc := none, smActive := false, claimSet := {}, claim := none, streams := [], cached := none, claimRej := 0, dup := 0, lastOut := s.utick })
  s.syncForced n

/-! ### Station entries (R320, R325, R326) -/

/-- The input range of an enabled entry. -/
def entryRange (g : Nat → Word) (k : Nat) : Option (Nat × Nat) :=
  let w := g (Addr.stnEntryW0 k)
  if bitsOf w 0 0 = 1 && bitsOf w 14 8 ≠ 0 then some (bitsOf w 31 16, bitsOf w 31 16 + bitsOf w 14 8) else none

/-- The entries a map of registers lists. -/
def entriesIn (m : Sparse Word) : Nats :=
  ((m.filter fun e => 0x50000 ≤ e.1 && e.1 < 0x5C000).map fun e => (e.1 - 0x50000) / 32).dedup

/-- Offending words of entry `k` of port `n`, with the ranges of other entries before it and on other ports. -/
def State.entryFails (s : State) (n : Nat) (m : Sparse Word) (k : Nat) : Nats :=
  let en : Bool := sf m (Addr.stnEntryW0 k) 0 0 = 1
  let inlen := sf m (Addr.stnEntryW0 k) 14 8
  let off := sf m (Addr.stnEntryW0 k) 31 16
  let subst := sf m (Addr.stnEntryW0 k) 2 1
  let others := ((entriesIn m).filter (· < k)).filterMap (entryRange (sv m)) ++
    ((entriesIn s.live).filter fun j => j / 96 ≠ n).filterMap (entryRange s.lv)
  let clash := match entryRange (sv m) k with
    | some (a, b) => others.any fun r => r.1 < b && a < r.2
    | none => false
  (if subst = 3 || 64 < inlen || (en && (0xEC00 < off + inlen || 0xEC00 ≤ off || clash)) then [Addr.stnEntryW0 k] else []) ++
  (if 60 < sf m (Addr.stnEntryW1 k) 6 0 || 4 < sf m (Addr.stnEntryW1 k) 10 8 ||
      6144 < sf m (Addr.stnEntryW1 k) 28 16 + sf m (Addr.stnEntryW1 k) 10 8 then [Addr.stnEntryW1 k] else []) ++
  (if en && subst = 2 && (sf m (Addr.stnEntryW2 k) 22 0 % 8 ≠ 0 || dmSize < sf m (Addr.stnEntryW2 k) 22 0 + inlen)
    then [Addr.stnEntryW2 k] else []) ++
  (if en && sf m (Addr.stnEntryW0 k) 7 4 ≠ 0 && sf m (Addr.stnEntryW3 k) 15 0 = 0 && !s.hasRx k then [Addr.stnEntryW3 k] else [])

/-- The STN group of a port is rejected at an address, or not at all. -/
def State.stnCheck (s : State) (n : Nat) (m : Sparse Word) : Option Nat :=
  lowest (((entriesIn m).filter fun k => k / 96 = n).flatMap (s.entryFails n m))

/-- The entry's words have changed, or it was REJECTED. -/
def State.entryNew (s : State) (old : Sparse Word) (k : Nat) : Bool :=
  s.stnState k = 7 || (List.range 5).any fun i => sv old (Addr.stnEntryW0 k + 4 * i) ≠ s.lv (Addr.stnEntryW0 k + 4 * i)

/-- Entries of a committed group: ABSENT when enabled, DISABLED otherwise, their status bits cleared in one image
write (R314, R320). -/
def State.stnApply (s : State) (n : Nat) (old : Sparse Word) : State :=
  let ks := ((entriesIn old ++ entriesIn s.live).dedup.filter fun k => k / 96 = n).filter (s.entryNew old)
  let s := ks.foldl (fun s k =>
    let s := (s.mgmtDrop k).onStn k fun y => { y with lost := false, hello := false, due := s.utick }
    (s.setFld (Addr.stnEntryW5 k) 11 0 (if s.stnEn k then 1 else 0)).stnSync k) s
  if ks.isEmpty then s else s.imgWrite { src := .stn n, cells := ks.flatMap s.stnCells }

end Sys2Proof.Machine
end

