-- ==== Sys2Proof/Machine/RegCfg.lean ====
section
/-! DEFINITION. The consistency check and the application of a commit, block by block (R9, R72, R93, R94, R124,
R449, R589), and the rows that are safe points of one: COMMIT_APPLY, OUTPUT_UPDATE_TICK and BASIC_CYCLE_END. -/

namespace Sys2Proof.Machine

/-- The task table a staged group holds. -/
def stagedTasks (m : Sparse Word) : TaskCfg := fun n k => sv m (taskWordAddr n k)

/-- Shaft registers that offend (R124). -/
def State.shaftFails (s : State) (m : Sparse Word) : Nats :=
  ((List.range 32).filter fun n =>
    let ppr := sf m (Addr.shCfg n) 10 0
    let ch := sf m (Addr.shCfg n) 21 16
    ppr ≠ 0 && (1024 < ppr || 47 < ch || s.lf (Addr.chCfg ch) 2 0 ≠ 4 || 1 < sf m (Addr.shCfg n) 23 22)).map Addr.shCfg

/-- The check of an SE commit (R93, R124). -/
def State.seCheck (s : State) (m : Sparse Word) : Option Nat :=
  lowest ((taskFails (stagedTasks m)).map taskItemAddr ++ s.shaftFails m)

/-- An SE commit in force (R94, R124): a changed SHs_CFG clears GLITCH and restarts the shaft; a context that is
disabled loses what it holds; CTX0 follows its EN in RUN. -/
def State.seApply (s : State) (old : Sparse Word) : State :=
  let s := ((List.range 32).filter fun n => sv old (Addr.shCfg n) ≠ s.lv (Addr.shCfg n)).foldl (fun s n =>
    (s.shaftReset n).setFld (Addr.shStat n) 31 16 0) s
  let was (n : Nat) : Bool := sf old (Addr.ctxCtrl n) 8 8 = 1
  let s := ((s.se.ctxs.map (·.1)).filter fun n => was n && !s.ctxEn n).foldl (fun s n =>
    s.onCtx n fun c => if c.st = .held || n = 0 then { c with st := .disabled, pend := false } else { c with pend := false }) s
  let s : State := if s.se.active = some 0 && !s.ctxEn 0 then { s with se := { s.se with active := none } } else s
  (s.when (!was 0 && s.ctxEn 0 && s.userOpen && !s.se.starting) (·.start0)).dispatch

/-- The check of a PWR commit (R589). -/
def pwrCheck (m : Sparse Word) : Option Nat :=
  if 40 < sf m Addr.pwrCfg 7 0 || 200 < sf m Addr.pwrCfg 15 8 then some Addr.pwrCfg else none

/-- The check of an RSM commit (R449); of two regions that overlap, the first word of the lower one offends. -/
def rsmCheck (m : Sparse Word) : Option Nat :=
  let base (r : Nat) : Nat := sf m (Addr.rsmRegA r) 11 0
  let n (r : Nat) : Nat := sf m (Addr.rsmRegA r) 27 16
  let mode (r : Nat) : Nat := sf m (Addr.rsmRegB r) 1 0
  let rs := (List.range 16).filter fun r => n r ≠ 0
  lowest (
    ((rs.filter fun r => base r < 2594 || 4096 < base r + n r || (mode r = 1 && n r % 2 = 1) ||
      rs.any fun x => r < x && base r < base x + n x && base x < base r + n r).map Addr.rsmRegA) ++
    ((rs.filter fun r => 2 ≤ mode r).map Addr.rsmRegB))

/-- The check of a block's staged group (R9): the lowest offending address. -/
def State.blockCheck (s : State) (b : Block) (m : Sparse Word) : Option Nat :=
  match b with
  | .pwr => pwrCheck m
  | .se => s.seCheck m
  | .ixe => ixeCheck m
  | .fbp n => fbpCheck n m
  | .stn n => s.stnCheck n m
  | .fio => s.fioCheck m
  | .twl => s.twlCheck m
  | .rsm => rsmCheck m
  | .evr => evrCheck m
  | .rtc => rtcCheck m
  | .que => s.queCheck m

/-- What a block does on its new configuration; `old`: the committed values before. -/
def State.blockApply (s : State) (b : Block) (old : Sparse Word) : State :=
  match b with
  | .pwr => s
  | .se => s.seApply old
  | .ixe => s.ixeApply old
  | .fbp n => s.fbpApply n old
  | .stn n => s.stnApply n old
  | .fio => s.fioApply old
  | .twl => s.twlApply old
  | .rsm => s
  | .evr => s.evrApply old
  | .rtc => s.rtcApply
  | .que => s.queApply old

/-- A pending commit at its safe point (R9, R72). -/
def State.commitRun (s : State) (c : Commit) : State :=
  match s.blockCheck c.blk c.staged with
  | some a => s.commitReject c.blk 0x60 a
  | none => ((s.putLive c).blockApply c.blk s.live).commitDone c.blk 0 []

/-- The pending commit of a block, if there is one, at its safe point. -/
def State.commitAt (s : State) (b : Block) : State :=
  match s.commitOf b with
  | some c => s.commitRun c
  | none => s

/-! ### Safe points (R72, R94) -/

/-- MODE of the port is DISABLED. -/
def State.portDisabled (s : State) (n : Nat) : Bool := s.lf (Addr.fbpCtrl n) 2 0 = 0

/-- The management tick is a safe point of the block: SE outside RUN, ports that are disabled, and the blocks the table
names no other point for. -/
def State.tickSafe (s : State) : Block → Bool
  | .fio | .ixe => false
  | .fbp n | .stn n => s.portDisabled n
  | .se => s.op ≠ .run
  | _ => true

/-- The pending commits that the management tick applies, in the order of their requests. -/
def State.tickCommits (s : State) : State :=
  s.commits.foldl (fun s c => if s.tickSafe c.blk then s.commitAt c.blk else s) s

/-- Eleven nominal bit times without a frame have passed on an enabled port with a timetable of 0 columns since undisciplined
tick `from` and the end of the last frame. -/
def State.elevenBits (s : State) (n start : Nat) : Bool :=
  n < 16 && !s.portDisabled n && s.ncyc n = 0 && (s.port n).active.isNone &&
    11 * (bitHalfNs (s.lv (Addr.fbpNbt n)) (s.lv (Addr.fbpDbt n))).1 ≤ 20 * (s.utick - max start (s.port n).quiet)

/-- The block's own safe point, where it is not a tick's or a basic cycle's: a slack point with a swap time of 2 µs for SE
in RUN (R94), the gap between two records for IXE, eleven recessive bits for a port with a timetable of 0 columns. -/
def State.ownSafe (s : State) (c : Commit) : Bool :=
  match c.blk with
  | .se => s.op = .run && s.slack 2000
  | .ixe => true
  | .fbp n | .stn n => s.elevenBits n c.t
  | _ => false

/-- COMMIT_APPLY (R72). -/
def execCommitApply (blk : Block) (t : Nat) (s : State) : Host.Outcome State Fault Refusal :=
  let s := s.at t
  .next <| match s.commitOf blk with
    | none => s
    | some c => if s.ownSafe c then s.commitRun c else s

/-- OUTPUT_UPDATE_TICK (R21, R28, R72, R331 to R346, R383): at its end the FIO group's commit applies. -/
def execOutputUpdateTick (t : Nat) (smp : FioSample) (s : State) : Host.Outcome State Fault Refusal :=
  let s := s.at t
  .next <| if !onGrid t then s
    else
      let s := (s.fioTick smp).commitAt .fio
      { s with twl := { s.twl with palo := s.paloWant } }

/-- The next basic cycle of a head-end port begins now. -/
def State.cycleBegin (s : State) (n : Nat) (had : Bool) : State :=
  let c := s.dtime / s.bclenNs n % s.ncyc n
  let s := (s.onPort n fun x => { x with cyc := some (c, s.dtime), got := [] }).setFld (Addr.fbpTtStat n) 5 0 c
  s.when (had && c = 0) fun s => s.setFld (Addr.fbpTtStat n) 31 16 (s.fld (Addr.fbpTtStat n) 31 16 + 1)

/-- BASIC_CYCLE_END (R72, R245, R255, R295, R316): the misses of the cycle that ends, the commits of the port and of its
stations, forced restriction, calibration, and the next cycle where the timetable now in force begins one. In station
mode the reference message begins it (R279). -/
def execBasicCycleEnd (port t : Nat) (s : State) : Host.Outcome State Fault Refusal :=
  let s := s.at t
  .next <|
    if !s.cycleEnds port then s
    else
      let s := match (s.port port).cyc with
        | some (c, _) => if s.stnMode port then s else s.cycleMisses port c
        | none => s
      let s := ((s.commitAt (.fbp port)).commitAt (.stn port)).syncForced port
      let s := s.onPort port fun x =>
        if 32 ≤ x.calN then { x with calN := x.calN - 32, calDone := x.calDone + 1 } else x
      if s.stnMode port || !s.cycleEnds port then s else s.cycleBegin port (s.port port).cyc.isSome

end Sys2Proof.Machine
end

