-- ==== Sys2Proof/Machine/SeCtrl.lean ====
section
/-! DEFINITION. Branches, END, TRAP, FENCE, queue, event and system-register instructions (R172 to R180),
the registers that show a context, and the SE opcodes of R130. -/

namespace Sys2Proof.Machine

/-! ### Branches and calls (R172, R173) -/

/-- The target of a signed word offset from the instruction. -/
def relTarget (pc : Nat) (off : BitVec 22) : Nat := dispAddr pc 24 (off.toNat * 4)

/-- BR (R172): AT and AF need an entry. -/
def execBr (cond : BitVec 4) (off : BitVec 22) (s : State) : Host.Outcome State Fault Refusal :=
  seExec 4 (fun s _ c =>
    match c.cond cond with
    | none => stackTrap
    | some b => .next id s (if b then some (relTarget c.pc off) else none)) s

/-- CALL (R173). -/
def execCall (rd : Reg) (off : BitVec 22) (s : State) : Host.Outcome State Fault Refusal :=
  seExec 4 (fun s _ c => .next (fun c' => c'.setReg rd ((c.pc + 4) % 0x800000)) s (some (relTarget c.pc off))) s

/-- JR (R173). -/
def execJr (ra : Reg) (s : State) : Host.Outcome State Fault Refusal :=
  seExec 4 (fun s _ c => .next id s (some (c.reg ra))) s

/-- CALLR (R173): the target is the value Ga had before the write. -/
def execCallr (rd ra : Reg) (s : State) : Host.Outcome State Fault Refusal :=
  seExec 4 (fun s _ c => .next (fun c' => c'.setReg rd ((c.pc + 4) % 0x800000)) s (some (c.reg ra))) s

/-! ### CTRL (R174) -/

/-- NOP. -/
def execNop (s : State) : Host.Outcome State Fault Refusal := seExec 4 (fun s _ _ => .next id s none) s

/-- FENCE: every earlier store is visible (R134). -/
def execFence (s : State) : Host.Outcome State Fault Refusal := seExec 4 (fun s _ _ => .next id s.fence none) s

/-- TRAP with CODE. -/
def execTrapInsn (code : BitVec 16) (s : State) : Host.Outcome State Fault Refusal :=
  seExec 4 (fun _ _ _ => .trap 6 0 code.toNat) s

/-- The instance of context `n` ends: stores visible, open packets closed (R134, R177), then its
publication, or its completion without output lines; CTX0 starts again (R89, R108). -/
def State.endInstance (s : State) (n : Nat) : State :=
  let s := s.fence.closeOpen n false
  if n = 0 then s.restart0
  else
    let s := s.onCtx n fun c => { c with pc := (c.pc + 4) % 0x800000 }
    if (s.mapLines n true).isEmpty then s.complete n
    else (s.onCtx n fun c => { c with st := .publishing }).dispatch

/-- END (R174). -/
def execEndInsn (t : Nat) (s : State) : Host.Outcome State Fault Refusal :=
  let s := s.at t
  .next <| match s.se.active with
    | some n => s.endInstance n
    | none => s

/-! ### Queue instructions (R175, R176) -/

/-- Source code of a context (R486). -/
def ctxSrc (n : Nat) : Nat := 0x40 + n

/-- C of SW set to a value, or Z. -/
def Ctx.setC (c : Ctx) (b : Bool) : Ctx := { c with sw := setBits c.sw 2 2 (b2n b) }
/-- Z of SW set to a value. -/
def Ctx.setZ (c : Ctx) (b : Bool) : Ctx := { c with sw := setBits c.sw 0 0 (b2n b) }

/-- QPUSH (R175, R176): dropped once a packet of the instance was truncated on the queue. -/
def execQpush (q : BitVec 5) (rx : Reg) (s : State) : Host.Outcome State Fault Refusal :=
  seExec 4 (fun s n c =>
    let k := q.toNat
    if c.cut.contains k || c.cut.contains (k + 32) then .next (·.setC false) s none
    else match s.qPushResume k (ctxSrc n) (BitVec.ofNat 32 (c.reg rx)) with
      | (.done, s) => .next (·.setC true) s none
      | (.truncated, s) => .next (fun c => { c.setC false with cut := k :: c.cut }) s none
      | (.refused, s) => .next (·.setC false) s.qCountRefused none
      | (_, s) => .next (·.setC false) s none) s

/-- QPOP (R175): the pair, and Z when VALID = 0. -/
def execQpop (q : BitVec 5) (rx : Reg) (s : State) : Host.Outcome State Fault Refusal :=
  seExec 4 (fun s _ _ =>
    if oddReg rx then illegal
    else match s.qPop .seData q.toNat with
      | (none, s) => .bad 1 s
      | (some v, s) => .next (fun c => (c.setPair rx v).setZ (decide (v < 2 ^ 63))) s none) s

/-- QOPEN (R176). -/
def execQopen (q : BitVec 5) (s : State) : Host.Outcome State Fault Refusal :=
  seExec 4 (fun s n _ =>
    match s.qOpen q.toNat (ctxSrc n) with
    | (.done, s) => .next (·.setC true) s none
    | (.refused, s) => .next (·.setC false) (s.when (s.qForeign q.toNat (ctxSrc n)) (·.qCountRefused)) none
    | (_, s) => .next (·.setC false) s none) s

/-- QCLOSE (R175, R176). -/
def execQclose (q : BitVec 5) (s : State) : Host.Outcome State Fault Refusal :=
  seExec 4 (fun s n c =>
    let k := q.toNat
    if c.cut.contains k then .next (fun c => { c.setC false with cut := (k + 32) :: c.cut.filter (· ≠ k) }) s none
    else if (s.queue k).opened.any (·.1 = ctxSrc n) then .next (·.setC true) (s.qClose k false) none
    else .next (·.setC false) s none) s

/-- QLVL (R175): the level in words, and Z when it is 0. -/
def execQlvl (q : BitVec 5) (rx : Reg) (s : State) : Host.Outcome State Fault Refusal :=
  seExec 4 (fun s _ _ =>
    let l := (s.queue q.toNat).marks.length
    .next (fun c => (c.setReg rx l).setZ (l = 0)) s none) s

/-! ### Events, triggers, system registers (R178 to R180) -/

/-- EVT (R178): EV 0x0A0 + NUM with Ga as its data. -/
def execEvt (num : BitVec 4) (ra : Reg) (s : State) : Host.Outcome State Fault Refusal :=
  seExec 4 (fun s _ c => .next id (s.event (0x0A0 + num.toNat) (BitVec.ofNat 32 (c.reg ra))) none) s

/-- TRIG (R179): as a write to SE_SWTRIG. -/
def execTrig (ctx : BitVec 8) (s : State) : Host.Outcome State Fault Refusal :=
  seExec 4 (fun s _ _ => .next id (s.userTrig ctx.toNat) none) s

/-- Shaft register `k` of shaft `n` as a context reads it; STAMP_LO latches STAMP_HI. -/
def State.sysrShaft (s : State) (cn n k : Nat) : Nat × State :=
  let r := Reader.ctx cn
  match k with
  | 0 => (s.rdN (Addr.shStat n), s)
  | 1 => ((s.shPhaseReg n).toNat, s)
  | 2 => (s.rdN (Addr.shCount n), s)
  | 3 => (s.rdN (Addr.shPeriod n), s)
  | 4 => (s.rdN (Addr.shStampLo n), s.setLatch r (Addr.shStampLo n) (s.rd (Addr.shStampHi n)))
  | 5 => ((s.latch r (Addr.shStampLo n)).toNat, s)
  | _ => (0, s)

/-- The system register SREG for context `n` (R180). -/
def State.sysrVal (s : State) (n : Nat) (c : Ctx) (k : Nat) : Nat × State :=
  if 0x100 ≤ k && k < 0x200 then s.sysrShaft n ((k - 0x100) / 8) (k % 8)
  else match k with
    | 0 => (c.sw.toNat, s)
    | 1 => (n, s)
    | 2 => (s.se.g, s)
    | 3 => (c.relT, s)
    | 4 => (c.relT / 2 ^ 32, s)
    | 5 => (s.dtime, s.setLatch (.ctx n) Addr.sysDtimeLo (BitVec.ofNat 32 (s.dtime / 2 ^ 32)))
    | 6 => ((s.latch (.ctx n) Addr.sysDtimeLo).toNat, s)
    | 7 => (s.role.code + s.unitN * 256, s)
    | 8 => (b2n c.first, s)
    | 9 => (c.stk.length, s)
    | _ => (0, s)

/-- SYSR at device time `t` (R180): a reserved number reads 0. -/
def execSysr (rd : Reg) (sreg : BitVec 10) (t : Nat) (s : State) : Host.Outcome State Fault Refusal :=
  seExec 4 (fun s n c =>
    let (v, s) := s.sysrVal n c sreg.toNat
    .next (·.setReg rd v) s none) (s.at t)

/-- SYSW (R180): SW alone may be written; its reserved bits stay 0. -/
def execSysw (rd : Reg) (sreg : BitVec 10) (s : State) : Host.Outcome State Fault Refusal :=
  seExec 4 (fun s _ c =>
    if sreg ≠ 0 then illegal
    else .next (fun c' => { c' with sw := BitVec.ofNat 32 (c.reg rd) &&& 0x1F1F }) s none) s

/-- RESERVED_INSTRUCTION (R138): a word with a reserved code or field raises ILLEGAL; a word that is not
reserved is not this event, and changes nothing. -/
def execReservedInstruction (w ext : Word) (s : State) : Host.Outcome State Fault Refusal :=
  .next (if reservedWord w ext then s.seRun 4 fun _ _ _ => illegal else s)

/-! ### What the registers show of a context (R90, R95) -/

/-- CTXn_STAT: without an instance, EN in force decides between DISABLED and WAITING. -/
def State.ctxStatReg (s : State) (n : Nat) : Word :=
  let c := s.ctx n
  let st := if c.st = .disabled || c.st = .waiting then b2n (s.ctxEn n) else c.st.code
  BitVec.ofNat 32 (st + c.consec * 256 + c.ovr * 65536)

/-- CTXn_TIME. -/
def State.ctxTimeReg (s : State) (n : Nat) : Word :=
  BitVec.ofNat 32 ((s.ctx n).respLast + (s.ctx n).respMax * 65536)

/-- SE_CSEL with CWIN_VALID: the selected context exists and is not RUNNING (R95). The spec names no context for 160
and above; there CWIN_VALID is 0 and the window reads 0 (the model's choice, log entry 122). -/
def State.cwinValid (s : State) : Bool :=
  let n := s.fld Addr.seCsel 7 0
  n < 160 && decide ((s.ctx n).st ≠ CtxState.running)

/-- The accumulator bit stack with the bottom entry in bit 0 (R95). -/
def stackWord (k : List Bool) : Nat := k.foldl (fun a b => 2 * a + b2n b) 0

/-- A register of the state window by its address (R95). -/
def State.cwinReg (s : State) (a : Nat) : Word :=
  let c := s.ctx (s.fld Addr.seCsel 7 0)
  if !s.cwinValid then 0
  else if a < Addr.seCwinPc then c.g.getD ((a - Addr.seCwinG 0) / 4) 0
  else if a = Addr.seCwinPc then BitVec.ofNat 32 c.pc
  else if a = Addr.seCwinSw then c.sw
  else if a = Addr.seCwinAcc then BitVec.ofNat 32 (stackWord c.stk)
  else BitVec.ofNat 32 c.stk.length

/-! ### SE opcodes (R130) -/

/-- SE_TASK_STATUS. -/
def cmdSeTaskStatus (q : Req) (p : Bytes) (s : State) : State :=
  s.startLen 0x0200 20 q p fun s =>
    s.ok q 0x0200 ((maskList 160 (leNat p)).flatMap fun n =>
      leBytes 4 n ++ wordBytes (s.ctxStatReg n) ++ wordBytes (s.ctxTimeReg n))

/-- SE_TRIGGER. -/
def cmdSeTrigger (q : Req) (p : Bytes) (s : State) : State :=
  s.startLen 0x0201 1 q p fun s =>
    let n := (p.getD 0 0).toNat
    if n < 16 || 159 < n then s.fail q 0x0201 0x11
    else if !s.userEvent n || decide (s.op ≠ .run) then s.fail q 0x0201 0x20
    else (s.userTrig n).ok q 0x0201

/-- SE_CLEAR_STATS. -/
def cmdSeClearStats (q : Req) (p : Bytes) (s : State) : State :=
  s.startLen 0x0202 1 q p fun s =>
    let b := p.getD 0 0
    ((s.when (b.getLsbD 0) (·.clrTime)).when (b.getLsbD 1) (·.clrOvr)).ok q 0x0202

/-- SE_SHAFT_READ. -/
def cmdSeShaftRead (q : Req) (p : Bytes) (s : State) : State :=
  s.startLen 0x0203 4 q p fun s =>
    s.ok q 0x0203 ((maskList 32 (leNat p)).flatMap fun n =>
      wordBytes (s.rd (Addr.shStat n)) ++ wordBytes (s.shPhaseReg n) ++ wordBytes (s.rd (Addr.shCount n)) ++
        wordBytes (s.rd (Addr.shPeriod n)) ++ wordBytes (s.rd (Addr.shStampLo n)) ++ wordBytes (s.rd (Addr.shStampHi n)))

/-- SE_TASK_STATUS. -/
def execSeTaskStatus (q : Req) (p : Bytes) (s : State) : Host.Outcome State Fault Refusal := .next (cmdSeTaskStatus q p s)
/-- SE_TRIGGER. -/
def execSeTrigger (q : Req) (p : Bytes) (s : State) : Host.Outcome State Fault Refusal := .next (cmdSeTrigger q p s)
/-- SE_CLEAR_STATS. -/
def execSeClearStats (q : Req) (p : Bytes) (s : State) : Host.Outcome State Fault Refusal := .next (cmdSeClearStats q p s)
/-- SE_SHAFT_READ. -/
def execSeShaftRead (q : Req) (p : Bytes) (s : State) : Host.Outcome State Fault Refusal := .next (cmdSeShaftRead q p s)

end Sys2Proof.Machine
end

