-- ==== Sys2Proof/Machine/Regs.lean ====
section
/-! DEFINITION. Reads and writes of the internal address map: every register by its access type (R6 to R10, R609 to
R612), the memory windows, REGISTER_WRITE, LO_REGISTER_READ and debug access through JTAG. -/

namespace Sys2Proof.Machine

/-! ### The map (R609) -/

/-- The spans and windows: base and size. -/
def spans : List (Nat × Nat) :=
  [(0, 0x1000), (0x1000, 0x1000), (0x2000, 0x1000), (0x3000, 0x400), (0x3400, 0x400), (0x10000, 0x10000),
   (0x20000, 0x10000), (0x30000, 0x1000), (0x40000, 0x10000), (0x50000, 0x10000), (0x60000, 0x1000),
   (0x70000, 0x1000), (0x80000, 0x1000), (0x90000, 0x1000), (0xA0000, 0x4000), (0xB0000, 0x1000),
   (0xB1000, 0x1000), (0xC0000, 0x1000), (0xD0000, 0x1000), (0x10000000, 0x1000000), (0x20000000, 0x800000),
   (0x30000000, 0x800000), (0x40000000, 0x100000)]

/-- The span or window of an address: its base and its end. -/
def spanOf (a : Nat) : Option (Nat × Nat) :=
  (spans.find? fun x => x.1 ≤ a && a < x.1 + x.2).map fun x => (x.1, x.1 + x.2)

/-- An aligned address inside a span (R79). -/
def mapped (a : Nat) : Bool := a % 4 = 0 && (spanOf a).isSome

/-! ### Registers with a value of their own -/

/-- SE_STATUS (R90's table); LOAD, which counts CLK_SE cycles, is a free value. -/
def State.seStatusReg (s : State) : Word × State :=
  let (v, s) := s.free
  let mode : Nat :=
    if s.se.pfail then 4 else if s.op = .run then (if s.se.starting then 1 else 2) else if s.op = .hold then 3 else 0
  (BitVec.ofNat 32 (s.se.active.getD 0 + mode * 256 + v % 65536 * 65536), s)

/-- SE_EDGE_DATA (R181): the 16 cells that IDX selects. -/
def State.edgeReg (s : State) : Word :=
  let i := 16 * s.fld Addr.seEdgeIdx 11 0
  BitVec.ofNat 32 (((List.range 16).map fun k => (sget 0 s.se.edge (i + k)).toNat * 4 ^ k).sum)

/-- SE_EDGE_DATA is written. -/
def State.edgeWr (s : State) (v : Word) : State :=
  let i := 16 * s.fld Addr.seEdgeIdx 11 0
  ((List.range 16).foldl (fun s k => { s with se := { s.se with
    edge := sput 0 s.se.edge (i + k) (BitVec.ofNat 2 (v.toNat / 4 ^ k)) } }) s).parHeal (edgeUnit i)

/-- A word of the TMB window (R153). -/
def State.tmbReg (s : State) (a : Nat) : Word :=
  let e := s.timer ((a - Addr.tmbW0 0) / 8)
  if a % 8 = 0 then BitVec.ofNat 32 (e.elapsed s.utick) else e.word1

/-- A word of the TMB window is written: a UNIT of 3 leaves UNIT as it is (R153). -/
def State.tmbWr (s : State) (a : Nat) (v : Word) : State :=
  let k := (a - Addr.tmbW0 0) / 8
  let e := s.timer k
  let s := s.parHeal (tmbUnit k)
  let at0 (run : Bool) : Nat := if run then s.utick else 0
  if a % 8 = 0 then s.setTimer k { e with base := v.toNat, start := at0 e.run }
  else
    let unit := if bitsOf v 3 2 = 3 then e.unit else bitsOf v 3 2
    let run := v.getLsbD 4
    let e' : Timer := { e with mode := bitsOf v 1 0, unit := unit, run := run, inp := v.getLsbD 5, mir := v.getLsbD 6 }
    s.setTimer k (if run = e.run && unit = e.unit then e' else { e' with base := e.elapsed s.utick, start := at0 run })

/-! ### Reads -/

/-- The `_HI` register of a pair that latches it, by its `_LO` (R611). -/
def pairHi (a : Nat) : Option Nat :=
  if a = Addr.sysDtimeLo then some Addr.sysDtimeHi
  else if a = Addr.rtcStampLo then some Addr.rtcStampHi
  else if 0x10400 ≤ a && a < 0x10800 && a % 32 = 0x18 then some (a + 4)
  else if 0x40000 ≤ a && a < 0x44000 && a % 1024 = 0x34 then some (a + 4)
  else if 0xD0000 ≤ a && a < 0xD0400 && a % 32 = 0x10 then some (a + 4)
  else none

/-- What an SE register reads (R90, R95, R124, R181, R212). -/
def State.readSe (s : State) (a : Nat) : Word × State :=
  if a = Addr.seStatus then s.seStatusReg
  else (
    if a = Addr.seGrid then BitVec.ofNat 32 s.se.g
    else if a = Addr.seCsel then setBits (s.rd a) 31 31 (b2n s.cwinValid)
    else if Addr.seCwinG 0 ≤ a && a ≤ Addr.seCwinDepth then s.cwinReg a
    else if a = Addr.seEdgeData then s.edgeReg
    else if a = Addr.seSwapMig then s.swapMigReg
    else if Addr.seChamberDigest 0 ≤ a && a < Addr.seRunDigest 0 && s.se.swap.chamber ≠ Chamber.loaded then 0
    else if 0x10400 ≤ a && a < 0x10800 && a % 32 = 0x0C then s.shPhaseReg ((a - 0x10400) / 32)
    else if 0x11000 ≤ a && a < 0x12400 && a % 32 = 0x18 then s.ctxStatReg ((a - 0x11000) / 32)
    else if 0x11000 ≤ a && a < 0x12400 && a % 32 = 0x1C then s.ctxTimeReg ((a - 0x11000) / 32)
    else s.rd a, s)

/-- What a register of QUE reads; a pop from an unrebuildable page reads nothing (R427, R488). -/
def State.readQue (s : State) (r : Reader) (a : Nat) : Option Word × State :=
  let n := (a - 0xD0000) / 32
  if 0xD0400 ≤ a then (some (s.rd a), s)
  else if a % 32 = 0x0C then (some (s.qStat n), s)
  else if a % 32 = 0x10 then s.qDataLo r n
  else if a % 32 = 0x14 then (some (s.latch r (Addr.qDataLo n)), s)
  else if a % 32 = 0x1C then (some (s.qUsedReg n), s)
  else (some (s.rd a), s)

/-- What a register of the other blocks reads, without a side effect. -/
def State.readPlain (s : State) (a : Nat) : Word :=
  if a < 0x1000 then s.sysReg a
  else if a = Addr.ethStat 0 then s.ethStatReg 0
  else if a = Addr.ethStat 1 then s.ethStatReg 1
  else if 0x20000 ≤ a && a < 0x30000 then s.tmbReg a
  else if a = Addr.ixeStat then s.ixeStatReg
  else if a = Addr.ixeRate then s.ixeRateReg
  else if 0x40000 ≤ a && a < 0x44000 then
    let n := (a - 0x40000) / 1024
    if a % 1024 = 0x34 then s.txPend n 0
    else if a % 1024 = 0x38 then s.txPend n 1
    else s.rd a
  else if a = Addr.twlStat then s.twlStatReg
  else if a = Addr.twlClaim then s.twlClaimReg
  else if a = Addr.rsmStat then s.rsmStatReg
  else if a = Addr.evrStat then s.evrStatReg
  else if a = Addr.wdtStat then s.wdtStatReg
  else if a = Addr.wdtElapsed then s.wdtElapsedReg
  else if 0xC0000 ≤ a && a < 0xC1000 then s.fwuReg (a - 0xC0000)
  else s.rd a

/-- A register is read (R7, R611): a `_LO` latches its `_HI` for the reader; a reserved offset reads 0. None: the read
met an unrebuildable page. -/
def State.readReg (s : State) (r : Reader) (a : Nat) : Option Word × State :=
  match regRow a with
  | none => (some 0, s)
  | some row =>
    if row.commit then (some (match commitBlock a with | some b => s.pendingReg b | none => 0), s)
    else if a = Addr.sysDtimeLo || a = Addr.sysDtimeHi then
      let (w, s) := s.dtimeRead r a
      (some w, s)
    else if 0xB0000 ≤ a && a < 0xB1000 then
      let (w, s) := s.rtcRegRead r a
      (some w, s)
    else if 0xD0000 ≤ a && a < 0xD1000 then s.readQue r a
    else if 0x10400 ≤ a && a < 0x10800 && a % 32 = 0x18 then (some (s.rd a), s.setLatch r a (s.rd (a + 4)))
    else if 0x10400 ≤ a && a < 0x10800 && a % 32 = 0x1C then (some (s.latch r (a - 4)), s)
    else if 0x40000 ≤ a && a < 0x44000 && a % 1024 = 0x34 then
      (some (s.readPlain a), s.setLatch r a (s.txPend ((a - 0x40000) / 1024) 1))
    else if 0x40000 ≤ a && a < 0x44000 && a % 1024 = 0x38 then (some (s.latch r (a - 4)), s)
    else if 0x10000 ≤ a && a < 0x20000 then
      let (w, s) := s.readSe a
      (some w, s)
    else (some (s.readPlain a), s)

/-- LO_REGISTER_READ (R611). -/
def execLoRegisterRead (rd : Reader) (addr : Nat) (s : State) : Host.Outcome State Fault Refusal :=
  .next <|
    if (pairHi addr).isNone then s
    else if s.swapping && 0xD0000 ≤ addr then s.holdAccess (.lo rd addr)
    else (s.readReg rd addr).2

/-! ### Writes -/

/-- The value a register holds after a write by its access types (R6, R7): RW and STAGED bits take the value, a 1
clears a W1C bit, every other bit stays. -/
def RegRow.after (r : RegRow) (old v : Word) : Word :=
  let m := BitVec.ofNat 32 (r.rw ||| r.stg)
  ((old &&& ~~~m) ||| (v &&& m)) &&& ~~~(v &&& BitVec.ofNat 32 r.w1c)

/-- PRIO of CTX4 reads 63 whatever is written (R88). -/
def ctx4Prio (a : Nat) (w : Word) : Word := if a = Addr.ctxCtrl 4 then setBits w 5 0 63 else w

/-- A write to a WO register or a register with a rule of its own; none: the access type alone decides. -/
def State.writeHook (s : State) (a : Nat) (v : Word) : Option State :=
  if a = Addr.hpiClr then some (s.hpiClr v)
  else if a = Addr.ethClr 0 then some (s.ethClr 0 v)
  else if a = Addr.ethClr 1 then some (s.ethClr 1 v)
  else if a = Addr.storeCtrl then some (s.storeWr (bitsOf v 1 0))
  else if a = Addr.seCtrl then some ((s.when (v.getLsbD 0) (·.clrTime)).when (v.getLsbD 1) (·.clrOvr))
  else if a = Addr.seSwtrig then some (s.userTrig (bitsOf v 7 0))
  else if a = Addr.seEdgeData then some (s.edgeWr v)
  else if 0x20000 ≤ a && a < 0x30000 then some (s.tmbWr a v)
  else if a = Addr.ixeClr then some (s.ixeClr v)
  else if 0x40000 ≤ a && a < 0x44000 then
    let n := (a - 0x40000) / 1024
    let o := a % 1024
    if o = 0x20 then some (s.when (v.getLsbD 0) (·.startRecovery n))
    else if o = 0x24 || o = 0x28 then some ((bitList v (o = 0x28)).foldl (fun s b => s.txRequest n b) s)
    else if o = 0x2C || o = 0x30 then some ((bitList v (o = 0x30)).foldl (fun s b => s.txCancel n b 4) s)
    else if o = 0x68 then some (s.fbpClr n v)
    else none
  else if 0x5C000 ≤ a && a < 0x5C200 && a % 32 = 0x18 then
    some (s.when (v.getLsbD 0) (·.clearAll (stnPortCounters ((a - 0x5C000) / 32))))
  else if 0x60000 ≤ a && a < 0x60C00 && a % 64 = 0x0C then some (s.when (v.getLsbD 0) fun s => s.diagClear ((a - 0x60000) / 64))
  else if 0x60C00 ≤ a && a < 0x60D80 && a % 64 = 0x08 then some (s.when (v.getLsbD 0) (·.groupAck ((a - 0x60C00) / 64)))
  else if a = Addr.twlClr then some (s.twlClr v)
  else if a = Addr.miuTest then some (s.miuTestWr v)
  else if a = Addr.miuClr then some (s.miuClear v)
  else if a = Addr.rsmClr then some (s.rsmClr v)
  else if a = Addr.evrCtrl then some (s.evrCtrlWr v)
  else if a = Addr.evrClr then some (s.evrClrWr v)
  else if a = Addr.rtcTrim then some (s.rtcTrimWr v)
  else if a = Addr.rtcChg then some (s.rtcChgWr v)
  else if a = Addr.wdtKey then some (s.wdtKey v).2
  else if a = Addr.wdtCheckin then some (s.wdtCheckinWr v)
  else if 0xB1000 ≤ a && a < 0xB2000 then
    if (wdtMask (a - 0xB1000)).isSome then some (s.wdtConfig (a - 0xB1000) v) else none
  else if 0xD0000 ≤ a && a < 0xD0400 then
    let n := (a - 0xD0000) / 32
    if a % 32 = 0x0C then
      some (s.when (v.getLsbD 25) fun s => s.setQueue n { s.queue n with overrun := false })
    else if a % 32 = 0x18 then some (s.qnPush n v)
    else none
  else if 0xD0800 ≤ a && a < 0xD0C00 && a % 32 = 0x10 then some (s.dmaGo ((a - 0xD0800) / 32) v)
  else none

/-- A register is written (R6, R7): a reserved offset ignores it, a COMMIT register requests its commit, a register
that is RW in STOP ignores it in every other state. -/
def State.writeReg (s : State) (a : Nat) (v : Word) : State :=
  match regRow a with
  | none => s
  | some row =>
    if row.commit then (match commitBlock a with | some b => s.commitWr b | none => s)
    else if row.stop && s.op ≠ .stop then s
    else match s.writeHook a v with
      | some s => s
      | none => s.wr a (ctx4Prio a (row.after (s.rd a) v))

/-! ### One access of the MGC (R17, R79 to R82) -/

/-- A word at a mapped address; the status of R82 or R458 where it cannot be read. -/
def State.mgcRead (s : State) (a : Nat) : Except Nat Word × State :=
  if a < 0x100000 then
    match s.readReg .mgc a with
    | (some w, s) => (.ok w, s)
    | (none, s) => (.error 0x0850, s)
  else match mramOff a with
    | some off =>
      match s.mramRead off 4 with
      | (some b, s) => (.ok (wordAt b 0), s)
      | (none, s) => (.error 0x0950, s)
    | none =>
      match s.readBytes .mgcCommand a 4 with
      | (some b, s) => (.ok (wordAt b 0), s)
      | (none, s) => (.error 0x0850, s)

/-- A word of a protected memory is written; false where its page cannot be rebuilt (R82, R428). In the IXE state
window only the STAGED bits take the value (R218, R221). -/
def State.memWr (s : State) (a : Nat) (v : Word) : Bool × State :=
  let put (w : Word) : Bool × State :=
    if s.pageBad (pageOf a) then (false, s.discard 4 0 0 a) else (true, s.writeBytes .mgcCommand a (wordBytes w))
  if memOf a = 2 then
    match regRow a with
    | some r => if r.stg = 0 then (true, s) else put (r.after (s.rd a) v)
    | none => (true, s)
  else put v

/-- A word is written at a mapped address; false where its page cannot be rebuilt. -/
def State.mgcWrite (s : State) (a : Nat) (v : Word) : Bool × State :=
  if a < 0x100000 then (true, s.writeReg a v)
  else match mramOff a with
    | some off => (true, s.mramWrite off (wordBytes v))
    | none => s.memWr a v

/-- MGC accesses to DM, to the queues that lie in it, to TMB and to edge memory wait while a Lock Swap runs (R197). -/
def State.mgcWaits (s : State) (a : Nat) : Bool :=
  s.swapping &&
    (memOf a = 1 || (0x20000 ≤ a && a < 0x30000) || a = Addr.seEdgeData ||
      (0xD0000 ≤ a && a < 0xD0400 && (a % 32 = 0x10 || a % 32 = 0x18)))

/-- REGISTER_WRITE (R7); a running Lock Swap holds one to the memories it changes (R197). -/
def execRegisterWrite (addr : Nat) (v : Word) (s : State) : Host.Outcome State Fault Refusal :=
  .next <|
    if mapped addr && (addr < 0x100000 || memOf addr = 2) then
      if s.mgcWaits addr then s.holdAccess (.write addr v) else s.writeReg addr v
    else s

/-- A debug access (R610): a write to a PM bank that does not take it is refused (R81, R185). -/
def State.jtagAccess (s : State) (addr : Nat) (wr : Option Word) : State :=
  match wr with
  | some v => if memOf addr = 0 && s.pmRefused addr 4 then s else (s.mgcWrite addr v).2
  | none =>
    match s.mgcRead addr with
    | (.ok w, s) => { s with jtag := some w }
    | (.error _, s) => { s with jtag := none }

/-- JTAG_DEBUG_ACCESS (R52, R610): owner lock blocks it; an address that is not mapped has no register or memory; a
running Lock Swap holds it (R197). -/
def execJtagDebugAccess (addr : Nat) (wr : Option Word) (s : State) : Host.Outcome State Fault Refusal :=
  .next <|
    if s.hpi.ownerLock || !mapped addr then s
    else if s.mgcWaits addr then s.holdAccess (.jtag addr wr)
    else s.jtagAccess addr wr

/-- An access that the swap held is carried out (R197). -/
def State.heldAccess (s : State) : MgcAccess → State
  | .write a v => s.writeReg a v
  | .lo rd a => (s.readReg rd a).2
  | .jtag a wr => s.jtagAccess a wr

/-- SWAP_END (R200): the steps of the swap have been carried out; the accesses it held follow in their order (R197). -/
def execSwapEnd (t : Nat) (s : State) : Host.Outcome State Fault Refusal :=
  let s := s.at t
  .next <|
    if s.swapping then
      let held := s.se.swap.held
      held.foldl (fun s x => s.heldAccess x)
        ({ s with se := { s.se with swap := { s.se.swap with held := [] } } } : State).swapFinish
    else s

/-- JTAG_TAP_RESET (R576): TRST_N resets the TAP alone. -/
def execJtagTapReset (s : State) : Host.Outcome State Fault Refusal := .next { s with jtag := none }

end Sys2Proof.Machine
end

