-- ==== Sys2Proof/Machine/RegCmd.lean ====
section
/-! DEFINITION. The REG opcodes (R74, R78 to R82, R185, R197). -/

namespace Sys2Proof.Machine

/-- The check of R79 on listed addresses: the first that fails. -/
def badAddr (as : Nats) : Option Nat := as.find? fun a => !mapped a

/-- The addresses of a range. -/
def rangeAddrs (a n : Nat) : Nats := (List.range n).map fun i => a + 4 * i

/-- The check of R79 on a range: ADDR itself, then the first address outside its span. -/
def badRange (a n : Nat) : Option Nat :=
  if !mapped a then some a
  else match spanOf a with
    | some (_, e) => if e < a + 4 * n then some e else none
    | none => some a

/-- A refusal of R79: status 0x0111 with the address. -/
def State.regRefuse (s : State) (q : Req) (op a : Nat) : State := s.fail q op 0x11 (leBytes 4 a)

/-- Words read in order, up to the first that cannot be (R82): the words, and the status of a failure. -/
def State.regReads (s : State) : Nats → Bytes × Option Nat × State
  | [] => ([], none, s)
  | a :: as =>
    match s.mgcRead a with
    | (.error e, s) => ([], some e, s)
    | (.ok w, s) =>
      let (b, e, s) := s.regReads as
      (wordBytes w ++ b, e, s)

/-- The reply with the words read. -/
def State.replyReads (s : State) (q : Req) (op : Nat) (as : Nats) : State :=
  match s.regReads as with
  | (b, none, s) => s.ok q op b
  | (b, some e, s) => s.reply q op e b

/-- Words written in order, up to the first that cannot be: how many were, and whether all. -/
def State.regWrites (s : State) (a : Nat) : Words → Nat × Bool × State
  | [] => (0, true, s)
  | w :: ws =>
    match s.mgcWrite a w with
    | (false, s) => (0, false, s)
    | (true, s) =>
      let (n, ok, s) := s.regWrites (a + 4) ws
      (n + 1, ok, s)

/-- A run of words written: to the MRAM in one burst for each page (R448), elsewhere word by word. -/
def State.regWriteRun (s : State) (a : Nat) (ws : Words) : Nat × Bool × State :=
  match mramOff a with
  | some off => (ws.length, true, s.mramWrite off (wordsBytes ws))
  | none => s.regWrites a ws

/-- A command that touches memory a Lock Swap holds waits until the swap ends, ahead of the later commands of its
session (R55, R197). -/
def State.regStart (s : State) (q : Req) (op : Nat) (p : Bytes) (as : Nats) (f : State → State) : State :=
  if as.any s.mgcWaits then s.reWait op q p else f s

/-- REG_READ. -/
def cmdRegRead (q : Req) (p : Bytes) (s : State) : State :=
  s.startLen 0x0100 8 q p fun s =>
    let a := field p 0 4
    let n := field p 4 2
    if 1019 < n then s.fail q 0x0100 0x11
    else match badRange a n with
      | some b => s.regRefuse q 0x0100 b
      | none => s.regStart q 0x0100 p (rangeAddrs a n) fun s => s.replyReads q 0x0100 (rangeAddrs a n)

/-- REG_WRITE. -/
def cmdRegWrite (q : Req) (p : Bytes) (s : State) : State :=
  s.start 0x0101 q p fun s =>
    let a := field p 0 4
    let n := field p 4 2
    if p.length < 8 || p.length ≠ 8 + 4 * n then s.fail q 0x0101 0x10
    else match badRange a n with
      | some b => s.regRefuse q 0x0101 b
      | none =>
        if n = 0 then s.ok q 0x0101
        else if s.pmRefused a (4 * n) then s.fail q 0x0101 0x20
        else s.regStart q 0x0101 p (rangeAddrs a n) fun s =>
          match s.regWriteRun a (toWords (p.drop 8)) with
          | (_, true, s) => s.ok q 0x0101
          | (k, false, s) => s.reply q 0x0101 0x0850 (leBytes 4 k)

/-- A register REG_MODIFY refuses: WO, W1C or COMMIT. -/
def noModify (a : Nat) : Bool := (regRow a).any fun r => r.wo ≠ 0 || r.w1c ≠ 0 || r.commit

/-- The new value of REG_MODIFY. -/
def modified (old mask v : Word) : Word := (old &&& ~~~mask) ||| (v &&& mask)

/-- REG_MODIFY. Where the read fails the reply carries no data, and where the write fails a count of 0 (R82 leaves both
open; the model's choice, log entry 115). -/
def cmdRegModify (q : Req) (p : Bytes) (s : State) : State :=
  s.startLen 0x0102 12 q p fun s =>
    let a := field p 0 4
    match badRange a 1 with
    | some b => s.regRefuse q 0x0102 b
    | none =>
      if noModify a then s.fail q 0x0102 0x11
      else if s.pmRefused a 4 then s.fail q 0x0102 0x20
      else s.regStart q 0x0102 p [a] fun s =>
        match s.mgcRead a with
        | (.error e, s) => s.reply q 0x0102 e []
        | (.ok old, s) =>
          match s.mgcWrite a (modified old (wordAt p 4) (wordAt p 8)) with
          | (true, s) => s.ok q 0x0102 (wordBytes old)
          | (false, s) => s.reply q 0x0102 0x0850 (leBytes 4 0)

/-- REG_LIST_READ. -/
def cmdRegListRead (q : Req) (p : Bytes) (s : State) : State :=
  s.start 0x0103 q p fun s =>
    let as := (toWords p).map BitVec.toNat
    if p.length % 4 ≠ 0 || 1019 < as.length then s.fail q 0x0103 0x10
    else match badAddr as with
      | some b => s.regRefuse q 0x0103 b
      | none => s.regStart q 0x0103 p as fun s => s.replyReads q 0x0103 as

/-- REG_COMMIT (R74): with a commit of the block PENDING, it waits for that outcome and then requests its own. -/
def cmdRegCommit (q : Req) (p : Bytes) (s : State) : State :=
  s.startLen 0x0104 4 q p fun s =>
    let a := field p 0 4
    match badRange a 1, commitBlock a with
    | some b, _ => s.regRefuse q 0x0104 b
    | none, none => s.fail q 0x0104 0x11
    | none, some b =>
      if (s.commitOf b).isSome then s.accept q 0x0104 [a, 0] else (s.accept q 0x0104 [a, 1]).commitWr b

/-- The notice of REG_POLL: the last value and MATCH. -/
def State.pollEnd (s : State) (l : Long) (v : Word) (m : Bool) : State :=
  s.notice l 0x0100 (wordBytes v ++ [BitVec.ofNat 8 (b2n m), 0, 0, 0])

/-- One read of a running REG_POLL: its numbers are ADDR, MASK, EXPECT, the undisciplined tick at which TIMEOUT passes and the last
value.
The last read is made when TIMEOUT has passed. -/
def State.pollStep (s : State) (l : Long) : State :=
  let n (i : Nat) : Nat := l.args.getD i 0
  if s.mgcWaits (n 0) then s
  else match s.mgcRead (n 0) with
    | (.error e, s) => s.notice l e
    | (.ok v, s) =>
      if v &&& BitVec.ofNat 32 (n 1) = BitVec.ofNat 32 (n 2) then s.pollEnd l v true
      else if n 3 ≤ s.utick then s.pollEnd l v false
      else
        { s with hpi := { s.hpi with longs := s.hpi.longs.map fun x =>
          if x = l then { l with args := [n 0, n 1, n 2, n 3, v.toNat] } else x } }

/-- REG_POLL: one read in the tick at which it starts. -/
def cmdRegPoll (q : Req) (p : Bytes) (s : State) : State :=
  s.startLen 0x0105 16 q p fun s =>
    let a := field p 0 4
    let ms := field p 12 2
    if 60000 < ms then s.fail q 0x0105 0x11
    else match badRange a 1 with
      | some b => s.regRefuse q 0x0105 b
      | none =>
        let args := [a, field p 4 4, field p 8 4, s.utick + 100000 * ms, 0]
        let s := s.accept q 0x0105 args
        match s.hpi.longs.find? fun l => l.req = q && l.opcode = 0x0105 with
        | some l => s.pollStep l
        | none => s

/-- Every running REG_POLL reads at a management tick. -/
def State.polls (s : State) : State := (s.longsOf 0x0105).foldl (fun s l => s.pollStep l) s

/-- REG_POLL_TIMEOUT: MATCH = 0 with the last value. -/
def execRegPollTimeout (q : Req) (t : Nat) (s : State) : Host.Outcome State Fault Refusal :=
  let s := s.at t
  .next <| match (s.longsOf 0x0105).find? fun l => l.req = q with
    | some l => if l.args.getD 3 0 ≤ s.utick then s.pollEnd l (BitVec.ofNat 32 (l.args.getD 4 0)) false else s
    | none => s

/-- REG_READ. -/
def execRegRead (q : Req) (p : Bytes) (s : State) : Host.Outcome State Fault Refusal := .next (cmdRegRead q p s)
/-- REG_WRITE. -/
def execRegWrite (q : Req) (p : Bytes) (s : State) : Host.Outcome State Fault Refusal := .next (cmdRegWrite q p s)
/-- REG_MODIFY. -/
def execRegModify (q : Req) (p : Bytes) (s : State) : Host.Outcome State Fault Refusal := .next (cmdRegModify q p s)
/-- REG_LIST_READ. -/
def execRegListRead (q : Req) (p : Bytes) (s : State) : Host.Outcome State Fault Refusal := .next (cmdRegListRead q p s)
/-- REG_COMMIT. -/
def execRegCommit (q : Req) (p : Bytes) (s : State) : Host.Outcome State Fault Refusal := .next (cmdRegCommit q p s)
/-- REG_POLL. -/
def execRegPoll (q : Req) (p : Bytes) (s : State) : Host.Outcome State Fault Refusal := .next (cmdRegPoll q p s)

end Sys2Proof.Machine
end

