-- ==== Sys2Proof/Machine/Reset.lean ====
section
/-! DEFINITION. The resets of R576, what they keep, the end of a watchdog period (R525, R526), the boot ROM's choice
of a slot (R544, R545) and the start-up sequence (R582). -/

namespace Sys2Proof.Machine

/-! ### Resets (R576, R577, R613) -/

/-- RTC registers that a device reset keeps (R517). -/
def rtcKept (a : Nat) : Bool := isRtc a && a ≠ Addr.rtcCfg && a ≠ Addr.rtcCommit

/-- IXE registers and state memory that a restart keeps (R576, R613). -/
def ixeKept (a : Nat) : Bool :=
  (0x30000000 ≤ a && a < 0x30800000) || a = Addr.ixeStat || (0x30010 ≤ a && a ≤ 0x30030)

/-- Damage of a restart: that of the IXE state memory alone (R580). -/
def ixeDamage (m : Miu) : Miu :=
  { chk := skeep m.chk fun a => memOf a = 2, pchk := skeep m.pchk fun a => memOf a = 2,
    qchk := skeep m.qchk fun a => memOf a = 2, pdev := skeep m.pdev fun a => memOf a = 2,
    qdev := skeep m.qdev fun a => memOf a = 2 }

/-- A step of an update that a reset in BOOT interrupts (R553): the copy, or the migration of settings. -/
def State.brokenStep (s : State) : Option Nat :=
  if s.op ≠ .boot then s.fwu.broken
  else match s.slotRec with
    | some r => if r.pending then some 1 else if r.trial && (if r.active = 0 then s.fwu.area0 else s.fwu.area1).isNone then some 3 else none
    | none => none

/-- The flash after a reset (R533, R538, R553): staging without the VERIFIED mark is lost. -/
def State.flashKept (s : State) : Fwu :=
  let f := s.fwu
  { rec0 := f.rec0, rec1 := f.rec1, slot0 := f.slot0, slot1 := f.slot1, run := f.run,
    head := if f.mark then f.head else none, mark := f.mark, data := if f.mark then f.data else [],
    lastres := f.lastres, saved := f.saved, area0 := f.area0, area1 := f.area1, prog0 := f.prog0, prog1 := f.prog1,
    st := if f.mark then .verified else .idle, broken := s.brokenStep }

/-- A reset with the cause in the always-on latch: `por` clears PWR_PFW, `ixe` keeps the IXE state memory (R576,
R577). It ends with the straps sampled (R579), in BOOT. -/
def State.deviceReset (s : State) (por ixe : Bool) (unitB recov : Bool) : State :=
  let keep (a : Nat) : Bool := rtcKept a || (ixe && ixeKept a) || (!por && a = Addr.pwrPfw)
  let r : State := { State.reset with
    pending := s.pending
    power := .on
    regs := skeep s.regs keep
    live := skeep s.live fun a => rtcKept a || (ixe && 0x30000000 ≤ a)
    mram := s.mram
    hpi := { ownerKey := s.hpi.ownerKey, ownerLock := s.hpi.ownerLock, nonces := s.hpi.nonces }
    miu := if ixe then ixeDamage s.miu else {}
    rsm := { flagged := s.rsm.flagged }
    twl := { pali := s.twl.pali }
    ixe := if ixe then { s.ixe with inq := [], rateWin := 0 } else {}
    fio := { linkLost := s.fio.linkLost }
    rtc := { s.rtc with shadows := [] }
    fwu := s.flashKept
    pwr := { clk := s.pwr.clk, x32 := s.pwr.x32 }
    freeN := s.freeN }
  r.wr Addr.rstCause (BitVec.ofNat 32 (s.pwr.latch + b2n unitB * 256 + b2n recov * 512))

/-- The cause latch set. -/
def State.latchCause (s : State) (c : Nat) : State := { s with pwr := { s.pwr with latch := c } }

/-- A reset that samples straps; with a test strap high the device does not reach BOOT (R604): it stays without
power for the model. -/
def State.strapReset (s : State) (por ixe : Bool) (st : Straps) : State :=
  let r := s.deviceReset por ixe st.unitB st.recov
  if st.tmode && !ixe then { r with power := .off } else r

/-- POWER_ON_RESET (R563, R576, R577). -/
def execPowerOnReset (straps : Straps) (s : State) : Host.Outcome State Fault Refusal :=
  .next ((s.latchCause 0).strapReset true false straps)

/-- PIN_RESET (R576, R634): from 100 ns to 1 µs the effect is not specified. -/
def execPinReset (ns : Nat) (straps : Straps) (s : State) : Host.Outcome State Fault Refusal :=
  if ns < 100 then .next s
  else if ns < 1000 then .fault .pulseWidthUnspecified
  else .next ((s.latchCause 1).strapReset false false straps)

/-- CLOCK_FAILURE (R574, R576, R577). -/
def execClockFailure (straps : Straps) (s : State) : Host.Outcome State Fault Refusal :=
  let s : State := { s with pwr := { s.pwr with clk := s.rd Addr.clkStat } }
  .next ((s.latchCause 5).strapReset false false straps)

/-- What a restart does first (R407, R461): LEAVE, and the retain copy with its duration a free value. -/
def State.beforeRestart (s : State) : State :=
  let s := s.leaveTwin
  if s.wlock then s
  else
    let (us, s) := s.free
    s.retainCopy (us % 1208)

/-- A restart that is due now: 10 ms after the reply, whatever state has been reached since; at a trial's end not
before RUN or HOLD has been left (R75, R543, R548). -/
def State.restartDue (s : State) : Bool :=
  s.restart.any (· ≤ s.utick) && !(s.fwu.fellBack && (s.op = .run || s.op = .hold))

/-- DEVICE_RESTART (R75, R543, R548, R576). -/
def execDeviceRestart (straps : Timed Straps) (s : State) : Host.Outcome State Fault Refusal :=
  let s := s.at straps.t
  .next <| if s.restartDue then s.beforeRestart.strapReset false true straps.val else s

/-- POWERFAIL_RESTART (R570): after the write lock of a power-fail warning. -/
def execPowerfailRestart (straps : Straps) (s : State) : Host.Outcome State Fault Refusal :=
  .next <| if s.wlock && s.bit Addr.pwrStat 0 then (s.latchCause 4).strapReset false true straps else s

/-- MAIN_POWER_LOSS (R503, R565): STANDBY while the always-on domain is held, otherwise OFF with RTC_LOST set. -/
def execMainPowerLoss (aoHeld : Bool) (s : State) : Host.Outcome State Fault Refusal :=
  let r := (s.latchCause 0).deviceReset true false false false
  .next <|
    if aoHeld then
      let r : State := { r with power := .standby, rtc := { r.rtc with cut := false } }
      (r.setBit Addr.rtcStat 1 true).setFld Addr.rtcStat 31 16 0
    else
      { r with power := .off, regs := skeep r.regs fun a => !isRtc a, live := skeep r.live fun a => !isRtc a, rtc := {} }

/-- WDT_PERIOD_END (R525, R526, R527): a warning, and after a warning the watchdog reset, which reads as a power-on
reset and samples the straps as they stood. -/
def execWdtPeriodEnd (t : Nat) (s : State) : Host.Outcome State Fault Refusal :=
  let s := s.at t
  .next <|
    if s.wdtElapsed < 2 ^ (10 + s.fld Addr.wdtCfg 3 0) then s
    else if s.wdt.warn then (s.latchCause 0).deviceReset true false (s.bit Addr.rstCause 8) (s.bit Addr.rstCause 9)
    else
      let s : State := { s with wdt := { s.wdt with warn := true } }
      let s := (s.inc Addr.wdtWarns).wdtNewPeriod
      (s.event 0x2C0 s.wdtStatReg).sysTrig 6 2

/-! ### The boot ROM (R544, R545, R553, R557) -/

/-- RECOVERY is entered (R557); the recorder continues behind its newest record. -/
def State.enterRecovery (s : State) (cause : Nat) : State :=
  let s := s.ringScan
  ({ s with op := .recovery } : State).ev 0x30B cause

/-- Fallback to the other slot (R545): causes 2 start count, 3 slot check. -/
def State.fallback (s : State) (cause : Nat) : State := (s.otherSlot (if cause = 2 then 3 else 2)).ev 0x308 cause

/-- The pending copy (R544 step 2). True: the copy was made at this start. The header and the entries of the device
parts become the slot header. -/
def State.bootCopy (s : State) (r : SlotRec) : Bool × State :=
  let b := s.fwu.head.getD []
  let k := 1 - r.active
  if r.pkgdig = sha256 (signedPart b) && s.fwu.mark && s.badPart.isNone then
    let es := ((List.range (npart b)).filter fun i => entryTarget b i ≠ 6).flatMap fun i => slice b (64 + 64 * i) 64
    let s := s.setSlot k (some (.pkg (b.take 64) es))
    let s : State := { s with fwu := if k = 0 then { s.fwu with area0 := none } else { s.fwu with area1 := none } }
    (true, (s.writeSlotRec { r with active := k, trial := true, starts := 1, pending := false }).ev 0x305 k)
  else
    let (e, s) : Nat × State := match s.badPart with
      | some e => (e, s)
      | none => s.free
    let s := s.writeSlotRec { r with pending := false }
    (false, ({ s with fwu := { s.fwu with lastres := 5 } } : State).ev 0x306 (e % 32))

/-- The slot chosen in the order of R544, from a slot record `r`: the interrupted record write reported, the
pending copy, the trial starts counted, and the slot without an image left, at most one fallback in all (R545). -/
def State.bootTry (s : State) (r : SlotRec) : State :=
  let s := match s.fwu.broken with
    | some d => ({ s with fwu := { s.fwu with broken := none } } : State).ev 0x30C d
    | none => s
  let (copied, s) : Bool × State := if r.pending then s.bootCopy r else (false, s)
  let r := s.slotRec.getD r
  let fell := r.trial && !copied && decide (3 ≤ r.starts)
  let s := if fell then s.fallback 2
    else if r.trial && !copied then s.writeSlotRec { r with starts := r.starts + 1 } else s
  let k := (s.slotRec.getD r).active
  let s := if (s.slotImg k).isSome || fell then s else s.fallback 3
  { s with fwu := { s.fwu with run := (s.slotRec.getD r).active } }

/-- Without a slot record the slot with a valid header starts, slot 0 before slot 1 (log entry 127). -/
def State.bareRec (s : State) : Option SlotRec :=
  if s.fwu.slot0.isSome then some { active := 0 } else if s.fwu.slot1.isSome then some { active := 1 } else none

/-- The slot that starts (R544), or the cause of RECOVERY (R557), with what the boot ROM has written on the way. -/
def State.bootSlot (s : State) : Option Nat × State :=
  if s.bit Addr.rstCause 9 then (some 1, s)
  else match s.slotRec <|> s.bareRec with
    | none => (some 2, s)
    | some r =>
      let s := s.bootTry r
      (if (s.slotImg s.fwu.run).isSome then none else some 2, s)

/-! ### Start-up (R582 to R587) -/

/-- The version registers of the loaded firmware (R614). -/
def State.loadVersions (s : State) : State :=
  match s.slotImg s.fwu.run with
  | some x => s.wr Addr.sysFwver (partVersion x 1) |>.wr Addr.sysSever (partVersion x 2)
      |>.wr Addr.sysIxever (partVersion x 3) |>.wr Addr.sysHvver (partVersion x 4) |>.wr Addr.sysTwlver (partVersion x 5)
  | none => s

/-- The settings area of a slot. -/
def State.area (s : State) (k : Nat) : Option Settings := if k = 0 then s.fwu.area0 else s.fwu.area1

/-- The settings area of a slot replaced. -/
def State.setArea (s : State) (k : Nat) (x : Option Settings) : State :=
  { s with fwu := if k = 0 then { s.fwu with area0 := x } else { s.fwu with area1 := x } }

/-- Migration at a trial start (R550, R551): an area that is not migrated takes the other slot's settings; whether the
image can migrate them is a free value. -/
def State.migrate (s : State) : State :=
  let k := s.fwu.run
  if !s.inTrial || (s.area k).isSome || (s.area (1 - k)).isNone then s
  else
    let (v, s) := s.free
    if v % 2 = 0 then s.setArea k (s.area (1 - k))
    else ({ s with fwu := { s.fwu with setinc := true } } : State).ev 0x309 0

/-- Every block with a COMMIT register but the RTC, whose staged time is no setting. -/
def allBlocks : List Block :=
  [.pwr, .fio, .ixe] ++ (List.range 16).map .fbp ++ (List.range 16).map .stn ++ [.twl, .rsm, .evr, .que, .se]

/-- The settings of the running slot in force in every block (R582). -/
def State.loadSettings (s : State) : State :=
  match s.area s.fwu.run with
  | none => s
  | some x =>
    let old := s.live
    let s : State := { s with
      regs := x.live.foldl (fun m e => sput (resetVal e.1) m e.1 e.2) (skeep s.regs fun a => !((regRow a).any (fun r => r.stg ≠ 0) && !isRtc a))
      live := x.live.foldl (fun m e => sins m e.1 e.2) (skeep s.live isRtc)
      eth := { s.eth with port0 := { s.eth.port0 with cfg := x.eth.getD 0 {} }, port1 := { s.eth.port1 with cfg := x.eth.getD 1 {} },
                          ptp := x.ptp, state := b2n x.ptp.port.isSome } }
    allBlocks.foldl (fun s b => s.blockApply b old) s

/-- The half of the program store with the newer record. -/
def State.newestHalf (s : State) : Option StoreHalf :=
  match s.fwu.prog0, s.fwu.prog1 with
  | some a, some b => some (if serialNewer32 b.seq a.seq then b else a)
  | some a, none => some a
  | none, b => b

/-- The stored program loaded into bank A and checked, its task table, region table and timer declarations applied
(R153, R188, R192, R390, R459, R584). -/
def State.loadProgram (s : State) : State :=
  match s.newestHalf with
  | none => s.ev 0x017 0
  | some h =>
    let s : State := { s with pm := memPut [] 0 h.img }
    let i : Image := ⟨s.pm, 0⟩
    if i.fail.isSome then
      let off : List (Nat × Word) := (List.range 160).map fun n => (Addr.ctxCtrl n, setBits (s.lv (Addr.ctxCtrl n)) 8 8 0)
      let s : State := { s with
        regs := off.foldl (fun m e => sput (resetVal e.1) m e.1 e.2) s.regs
        live := off.foldl (fun m e => sput (resetVal e.1) m e.1 e.2) s.live }
      s.ev 0x017 0
    else
      let d := i.bytes 0x40 32
      let s := (s.loadTasks i.tasks).wrs (Addr.seRunDigest 0) (toWords d)
      ({ s with se := { s.se with
        regions := i.regions
        program := true
        tmb := swapTimers i [] [] } } : State).event 0x016 (wordAt d 0)

/-- Saved sequence counters continue 32 on, and the saved copy is cleared (R546). -/
def State.continueCounters (s : State) : State :=
  match s.fwu.saved with
  | none => s
  | some m =>
    let up (w : Word) : Word :=
      BitVec.ofNat 32 ((bitsOf w 15 0 + 32) % 65536 + (bitsOf w 31 16 + 32) % 65536 * 65536)
    let s := m.foldl (fun s e =>
      s.wr e.1 (if e.1 < 0x44000 then BitVec.ofNat 32 ((bitsOf e.2 15 0 + 32) % 65536) else up e.2)) s
    { s with fwu := { s.fwu with saved := none } }

/-- The events a start records for what went before it (R14, R504, R570, R594). -/
def State.startEvents (s : State) : State :=
  let c := s.fld Addr.rstCause 2 0
  let s := s.when (c = 4) (·.ev 0x011 0)
  let s := s.when (c = 5) fun s => s.event 0x01B s.pwr.clk
  let s := s.when s.fio.linkLost fun s => ({ s with fio := { s.fio with linkLost := false } } : State).ev 0x190 0
  s.when (s.bit Addr.rtcStat 0) (·.ev 0x2C8 0)

/-- The role at the entry into STOP: SOLO with the stored epoch raised by 1 (R370, R371), or DETACHED with every port
restricted until the outcome of the wait (R372, R585). -/
def State.startRole (s : State) : State :=
  if !s.pairOn then s.raiseEpoch
  else
    let s : State := { s with role := .detached, twl := { s.twl with
      link := .training, wait := some (s.utick + s.lf Addr.twlCfg 15 8 * 10000000) } }
    let s := (List.range 16).foldl (fun s n => s.syncForced n) s
    if s.lf Addr.twlCfg 15 8 = 0 then s.startOutcome else s

/-- STOP is reached (R372, R582, R585 to R587). -/
def State.startStop (s : State) : State :=
  let s : State := { s.stepTime (if s.bit Addr.rtcStat 0 then 0 else s.rtcUnixNs) with
    op := .stop, fwu := { s.fwu with upAt := s.utick }
    pwr := { s.pwr with auto := s.lf Addr.pwrCfg 16 16 = 1 && !s.fwu.setinc } }
  (s.event 0x01A (s.rd Addr.rstCause)).startRole

/-- The flagged words of the system area, which the MGC firmware reads at a start (R444, R458; log entry 124). -/
def State.sysAreaBad (s : State) : Nats := s.mramFlags 0 4096

/-- The scrub of the IXE state memory after a restart (R581). -/
def State.startScrub (s : State) : State :=
  let c := s.fld Addr.rstCause 2 0
  if 2 ≤ c && c ≤ 4 then
    { s.setFld Addr.miuStat 1 0 1 with miu := { s.miu with scrub := some ⟨pagesIn 0x30000000 0x100000, 0, true, 0, 0, 0, 0, 0, 0, false⟩ } }
  else s

/-- Supplies and clocks are good at a start: ENERGY_OK and CLK_STAT say so (log entry 31). -/
def State.startPower (s : State) : State :=
  (s.setBit Addr.pwrStat 1 true).wr Addr.clkStat (BitVec.ofNat 32 (15 + 16 * b2n s.pwr.x32))

/-- The end of a start: STOP, or FAULT over a word of the system area that cannot be read (R458). -/
def State.startEnd (s : State) : State :=
  match s.sysAreaBad with
  | w :: _ => (s.mramUnreadable w (mramBase + w)).enterFault 0x245
  | [] => s.startStop.startScrub

/-- The steps of R582 once a slot has been chosen. -/
def State.startRun (s : State) : State :=
  let s := s.startPower.loadVersions.replay.ringScan.startEvents.classify
  s.migrate.loadSettings.drawStatus.loadProgram.continueCounters.restore.startEnd

/-- START_UP (R544, R578, R582): from the end of a reset to STOP, or to RECOVERY; `t` is the time since the reset in ns.
The boot ROM starts, and 1 ms later RSTOUT_N goes high. -/
def execStartUp (t : Nat) (s : State) : Host.Outcome State Fault Refusal :=
  .next <|
    if s.op ≠ .boot || s.power ≠ .on then s
    else
      let s := s.at t
      let s : State := { s with pwr := { s.pwr with rstout := true } }
      match s.bootSlot with
      | (some c, s) => s.enterRecovery c
      | (none, s) => s.startRun

end Sys2Proof.Machine
end

