-- ==== Sys2Proof/Machine/Mgmt.lean ====
section
/-! DEFINITION. The management tick (R16, R55, R57): commands that wait are started, polls read, and the management
plane's own work is done. -/

namespace Sys2Proof.Machine

/-- What an opcode does once its command starts. -/
abbrev Meaning := Req → Bytes → State → State

/-- The opcodes of groups 0x00 to 0x05 with their meanings. -/
def meaningsLow : List (Nat × Meaning) :=
  [(0x0000, cmdSysPing), (0x0001, cmdSysIdent), (0x0002, cmdSysStatus), (0x0003, cmdSysSessionOpen),
   (0x0004, cmdSysSessionClose), (0x0005, cmdSysStateSet), (0x0006, cmdSysRestart), (0x0007, cmdSysLockSet),
   (0x0008, cmdSysLockClear), (0x0009, cmdSysKeySet), (0x000A, cmdSysCounters), (0x0100, cmdRegRead),
   (0x0101, cmdRegWrite), (0x0102, cmdRegModify), (0x0103, cmdRegListRead), (0x0104, cmdRegCommit),
   (0x0105, cmdRegPoll), (0x0200, cmdSeTaskStatus), (0x0201, cmdSeTrigger), (0x0202, cmdSeClearStats),
   (0x0203, cmdSeShaftRead), (0x0210, cmdSeChamberOpen), (0x0211, cmdSeChamberWrite), (0x0212, cmdSeChamberClose),
   (0x0213, cmdSeSwapArm), (0x0214, cmdSeSwapDisarm), (0x0215, cmdSeSwapStatus), (0x0300, cmdIxeStatusRead),
   (0x0301, cmdIxePointRead), (0x0302, cmdIxeBaselineReset), (0x0303, cmdIxeBaselineLoad), (0x0304, cmdIxeStateClear),
   (0x0305, cmdIxeCounters), (0x0400, cmdFbpStatus), (0x0401, cmdFbpRecover), (0x0402, cmdFbpSend),
   (0x0403, cmdFbpCancel), (0x0404, cmdFbpTdr), (0x0405, cmdFbpCounters), (0x0500, cmdStnStatus),
   (0x0501, cmdStnRejoin), (0x0502, cmdStnMgmt), (0x0503, cmdStnStop), (0x0504, cmdStnCounters),
   (0x0600, cmdFioStatus), (0x0601, cmdFioGroupAck), (0x0602, cmdFioDiagClear), (0x0603, cmdFioLoadRead)]

/-- The opcodes from there on with their meanings. -/
def meaningsHigh : List (Nat × Meaning) :=
  [(0x0700, cmdTwlStatus), (0x0701, cmdTwlJoin), (0x0702, cmdTwlDetach), (0x0703, cmdTwlSwitchover),
   (0x0704, cmdTwlGoSolo), (0x0705, cmdTwlEpochSet), (0x0706, cmdTwlCounters), (0x0800, cmdMiuStatus),
   (0x0801, cmdMiuScrub), (0x0802, cmdMiuScrubAbort), (0x0803, cmdMiuRawRead), (0x0804, cmdMiuRawWrite),
   (0x0900, cmdRsmStatus), (0x0901, cmdRsmFormat), (0x0902, cmdRsmRetainClear), (0x0A00, cmdEvrStatus),
   (0x0A01, cmdEvrRead), (0x0A02, cmdEvrFreeze), (0x0A03, cmdEvrUnfreeze), (0x0A04, cmdEvrClear),
   (0x0B00, cmdRtcRead), (0x0B01, cmdRtcSet), (0x0B02, cmdRtcTrim), (0x0B03, cmdWdtStatus),
   (0x0B04, cmdWdtService), (0x0B05, cmdWdtCheckin), (0x0C00, cmdUpdBegin), (0x0C01, cmdUpdData),
   (0x0C02, cmdUpdVerify), (0x0C03, cmdUpdActivate), (0x0C04, cmdUpdConfirm), (0x0C05, cmdUpdRevert),
   (0x0C06, cmdUpdStatus), (0x0C07, cmdUpdAbort), (0x0C08, cmdUpdStationActivate), (0x0D00, cmdQueStatus),
   (0x0D01, cmdQuePop), (0x0D02, cmdQuePush), (0x0D03, cmdQuePushPacket), (0x0D04, cmdQueClear),
   (0x0E00, cmdEthStatus), (0x0E01, cmdEthConfig), (0x0E02, cmdPtpConfig), (0x0E03, cmdPtpStatus),
   (0x0E04, cmdEthCounters)]

/-- A waiting command starts, where R55 lets it. -/
def State.startCmd (s : State) (c : Cmd) : State :=
  match (meaningsLow ++ meaningsHigh).find? fun e => e.1 = c.opcode with
  | some e => e.2 c.req c.data s
  | none => s

/-- The waiting commands start in the order in which they came (R55, R57). -/
def State.startWaiting (s : State) : State := s.hpi.waiting.foldl (fun s c => s.startCmd c) s

/-- AUTORUN (R586): RUN at the first tick after STOP, or after the unit has become SOLO; DETACHED or JOINING gives it
up. -/
def State.autorun (s : State) : State :=
  if !s.pwr.auto || s.twl.wait.isSome then s
  else
    let s : State := { s with pwr := { s.pwr with auto := false } }
    s.when (s.op = .stop && !s.se.pfail && s.role = .solo && s.se.program && !s.fwu.setinc && !s.changing) (·.reach .run)

/-- MANAGEMENT_TICK (R16): SYS_TICK counts and wraps (R614), and the commits whose safe point it is apply before a
command can request another (R72). -/
def execManagementTick (t : Nat) (s : State) : Host.Outcome State Fault Refusal :=
  let s := s.at t
  let s := s.wr Addr.sysTick (s.rd Addr.sysTick + 1)
  .next s.tickCommits.ethTick.evrClearPlace.polls.startWaiting.wdtFirmware.autorun

end Sys2Proof.Machine
end

