-- ==== Sys2Proof/Machine/SeAlu.lean ====
section
/-! DEFINITION. Integer instructions ALU, ALUI and LDI (R159 to R163). -/

namespace Sys2Proof.Machine

/-- A pair register is odd at W = 3 (R138). -/
def oddAt (w : BitVec 2) (rs : List Reg) : Bool := w = 3 && rs.any oddReg

/-- The context with an ALU result: Gd, flags, DZ. -/
def Ctx.aluOut (c : Ctx) (w : BitVec 2) (sg : Bool) (rd : Option Reg) (o : AluOut) : Ctx :=
  let sw := withFlags c.sw o.f
  let c := { c with sw := if o.dz then sticky sw 4 else sw }
  match rd with | some r => c.dst w sg r o.r | none => c

/-- A three-register operation (R159). -/
def alu3 (rd ra rb : Reg) (w : BitVec 2) (sg : Bool) (f : Nat → Nat → Nat → Flags4 → AluOut) (s : State) : State :=
  s.seRun 4 fun s _ _ =>
    if oddAt w [rd, ra, rb] then illegal
    else .next (fun c => c.aluOut w sg (some rd) (f (widthOf w) (c.src w ra) (c.src w rb) (flagsOf c.sw))) s none

/-- A shift or rotation by Gb[5:0] (R159). -/
def aluShift (rd ra rb : Reg) (w : BitVec 2) (sg : Bool) (f : Nat → Nat → Nat → Flags4 → AluOut) (s : State) : State :=
  s.seRun 4 fun s _ _ =>
    if oddAt w [rd, ra, rb] then illegal
    else .next (fun c => c.aluOut w sg (some rd) (f (widthOf w) (c.src w ra) (c.reg rb % 64) (flagsOf c.sw))) s none

/-- A two-register operation. -/
def alu2 (rd ra : Reg) (w : BitVec 2) (sg : Bool) (f : Nat → Nat → Flags4 → AluOut) (s : State) : State :=
  s.seRun 4 fun s _ _ =>
    if oddAt w [rd, ra] then illegal
    else .next (fun c => c.aluOut w sg (some rd) (f (widthOf w) (c.src w ra) (flagsOf c.sw))) s none

/-- ADD (R159 to R161). -/
def execAluAdd (rd ra rb : Reg) (w : BitVec 2) (sg : Bool) (s : State) : Host.Outcome State Fault Refusal :=
  .next (alu3 rd ra rb w sg (aluAdd) s)

/-- SUB (R159 to R161). -/
def execAluSub (rd ra rb : Reg) (w : BitVec 2) (sg : Bool) (s : State) : Host.Outcome State Fault Refusal :=
  .next (alu3 rd ra rb w sg (aluSub) s)

/-- AND (R159 to R161). -/
def execAluAnd (rd ra rb : Reg) (w : BitVec 2) (sg : Bool) (s : State) : Host.Outcome State Fault Refusal :=
  .next (alu3 rd ra rb w sg (fun b x y => aluBits b (x &&& y)) s)

/-- OR (R159 to R161). -/
def execAluOr (rd ra rb : Reg) (w : BitVec 2) (sg : Bool) (s : State) : Host.Outcome State Fault Refusal :=
  .next (alu3 rd ra rb w sg (fun b x y => aluBits b (x ||| y)) s)

/-- XOR (R159 to R161). -/
def execAluXor (rd ra rb : Reg) (w : BitVec 2) (sg : Bool) (s : State) : Host.Outcome State Fault Refusal :=
  .next (alu3 rd ra rb w sg (fun b x y => aluBits b (x ^^^ y)) s)

/-- MUL (R159 to R161). -/
def execAluMul (rd ra rb : Reg) (w : BitVec 2) (sg : Bool) (s : State) : Host.Outcome State Fault Refusal :=
  .next (alu3 rd ra rb w sg (aluMul sg) s)

/-- MULH (R159 to R161). -/
def execAluMulh (rd ra rb : Reg) (w : BitVec 2) (sg : Bool) (s : State) : Host.Outcome State Fault Refusal :=
  .next (alu3 rd ra rb w sg (aluMulh sg) s)

/-- DIV (R159 to R161). -/
def execAluDiv (rd ra rb : Reg) (w : BitVec 2) (sg : Bool) (s : State) : Host.Outcome State Fault Refusal :=
  .next (alu3 rd ra rb w sg (aluDiv sg) s)

/-- REM (R159 to R161). -/
def execAluRem (rd ra rb : Reg) (w : BitVec 2) (sg : Bool) (s : State) : Host.Outcome State Fault Refusal :=
  .next (alu3 rd ra rb w sg (aluRem sg) s)

/-- MIN (R159 to R161). -/
def execAluMin (rd ra rb : Reg) (w : BitVec 2) (sg : Bool) (s : State) : Host.Outcome State Fault Refusal :=
  .next (alu3 rd ra rb w sg (aluMin sg) s)

/-- MAX (R159 to R161). -/
def execAluMax (rd ra rb : Reg) (w : BitVec 2) (sg : Bool) (s : State) : Host.Outcome State Fault Refusal :=
  .next (alu3 rd ra rb w sg (aluMax sg) s)

/-- SHL by Gb[5:0] (R159, R160). -/
def execAluShl (rd ra rb : Reg) (w : BitVec 2) (sg : Bool) (s : State) : Host.Outcome State Fault Refusal :=
  .next (aluShift rd ra rb w sg aluShl s)

/-- SHR by Gb[5:0] (R159, R160). -/
def execAluShr (rd ra rb : Reg) (w : BitVec 2) (sg : Bool) (s : State) : Host.Outcome State Fault Refusal :=
  .next (aluShift rd ra rb w sg aluShr s)

/-- SAR by Gb[5:0] (R159, R160). -/
def execAluSar (rd ra rb : Reg) (w : BitVec 2) (sg : Bool) (s : State) : Host.Outcome State Fault Refusal :=
  .next (aluShift rd ra rb w sg aluSar s)

/-- ROL by Gb[5:0] (R159, R160). -/
def execAluRol (rd ra rb : Reg) (w : BitVec 2) (sg : Bool) (s : State) : Host.Outcome State Fault Refusal :=
  .next (aluShift rd ra rb w sg aluRol s)

/-- ROR by Gb[5:0] (R159, R160). -/
def execAluRor (rd ra rb : Reg) (w : BitVec 2) (sg : Bool) (s : State) : Host.Outcome State Fault Refusal :=
  .next (aluShift rd ra rb w sg aluRor s)

/-- CMP: the flags of Ga - Gb, Gd not written (R159). -/
def execAluCmp (ra rb : Reg) (w : BitVec 2) (sg : Bool) (s : State) : Host.Outcome State Fault Refusal :=
  seExec 4 (fun s _ _ =>
    if oddAt w [ra, rb] then illegal
    else .next (fun c => c.aluOut w sg none (aluSub (widthOf w) (c.src w ra) (c.src w rb) (flagsOf c.sw))) s none) s

/-- MOV: no flags (R159, R160). -/
def execAluMov (rd ra : Reg) (w : BitVec 2) (sg : Bool) (s : State) : Host.Outcome State Fault Refusal :=
  .next (alu2 rd ra w sg (fun _ x f => ⟨x, f, false⟩) s)

/-- NOT (R159, R160). -/
def execAluNot (rd ra : Reg) (w : BitVec 2) (sg : Bool) (s : State) : Host.Outcome State Fault Refusal :=
  .next (alu2 rd ra w sg (aluNot) s)

/-- NEG (R159, R160). -/
def execAluNeg (rd ra : Reg) (w : BitVec 2) (sg : Bool) (s : State) : Host.Outcome State Fault Refusal :=
  .next (alu2 rd ra w sg (aluNeg) s)

/-- ABS (R159, R160). -/
def execAluAbs (rd ra : Reg) (w : BitVec 2) (sg : Bool) (s : State) : Host.Outcome State Fault Refusal :=
  .next (alu2 rd ra w sg (aluAbs sg) s)

/-- SEL: Ga if the top is 1, else Gb; pop (R159). -/
def execAluSel (rd ra rb : Reg) (w : BitVec 2) (sg : Bool) (s : State) : Host.Outcome State Fault Refusal :=
  seExec 4 (fun s _ c =>
    if oddAt w [rd, ra, rb] then illegal
    else if !c.deep 1 32 then stackTrap
    else .next (fun c => { c.dst w sg rd (c.src w (if c.top then ra else rb)) with stk := c.stk.tail }) s none) s

/-- An operation on Gd with the immediate, at 32 bits (R162). -/
def aluImm (rd : Reg) (y : Nat) (f : Nat → Nat → Nat → Flags4 → AluOut) (s : State) : State :=
  s.seRun 4 fun s _ _ => .next (fun c => c.aluOut 2 false (some rd) (f 32 (c.reg rd) y (flagsOf c.sw))) s none

/-- IMM sign-extended to 32 bits. -/
def immS (imm : BitVec 16) : Nat := ofS 32 (toS 16 imm.toNat)

/-- A bitwise immediate operation: Z and N only (R162). -/
def bitsZn (op : Nat → Nat → Nat) (b x y : Nat) (f : Flags4) : AluOut := ⟨op x y, znOf b (op x y) f, false⟩

/-- A shift by IMM[4:0]; IMM[15:5] must be 0 (R138, R162). -/
def shiftImm (rd : Reg) (imm : BitVec 16) (f : Nat → Nat → Nat → Flags4 → AluOut) (s : State) : State :=
  if 32 ≤ imm.toNat then s.seRun 4 fun _ _ _ => illegal else aluImm rd imm.toNat f s

/-- MULI: Z, N and V (R162). -/
def muliOut (b x y : Nat) (f : Flags4) : AluOut :=
  let o := aluMul true b x y f
  { o with f := { o.f with c := f.c } }

/-- ADDI (R162). -/
def execAddi (rd : Reg) (imm : BitVec 16) (s : State) : Host.Outcome State Fault Refusal :=
  .next (aluImm rd (immS imm) aluAdd s)

/-- ANDI (R162). -/
def execAndi (rd : Reg) (imm : BitVec 16) (s : State) : Host.Outcome State Fault Refusal :=
  .next (aluImm rd imm.toNat (bitsZn (· &&& ·)) s)

/-- ORI (R162). -/
def execOri (rd : Reg) (imm : BitVec 16) (s : State) : Host.Outcome State Fault Refusal :=
  .next (aluImm rd imm.toNat (bitsZn (· ||| ·)) s)

/-- XORI (R162). -/
def execXori (rd : Reg) (imm : BitVec 16) (s : State) : Host.Outcome State Fault Refusal :=
  .next (aluImm rd imm.toNat (bitsZn (· ^^^ ·)) s)

/-- SHLI (R162). -/
def execShli (rd : Reg) (imm : BitVec 16) (s : State) : Host.Outcome State Fault Refusal :=
  .next (shiftImm rd imm aluShl s)

/-- SHRI (R162). -/
def execShri (rd : Reg) (imm : BitVec 16) (s : State) : Host.Outcome State Fault Refusal :=
  .next (shiftImm rd imm aluShr s)

/-- SARI (R162). -/
def execSari (rd : Reg) (imm : BitVec 16) (s : State) : Host.Outcome State Fault Refusal :=
  .next (shiftImm rd imm aluSar s)

/-- MULI (R162). -/
def execMuli (rd : Reg) (imm : BitVec 16) (s : State) : Host.Outcome State Fault Refusal :=
  .next (aluImm rd (immS imm) muliOut s)

/-- CMPI: the flags of Gd minus IMM, Gd unchanged (R162). -/
def execCmpi (rd : Reg) (imm : BitVec 16) (s : State) : Host.Outcome State Fault Refusal :=
  seExec 4 (fun s _ _ => .next (fun c => c.aluOut 2 false none (aluSub 32 (c.reg rd) (immS imm) (flagsOf c.sw))) s none) s

/-- LDIL (R162). -/
def execLdil (rd : Reg) (imm : BitVec 16) (s : State) : Host.Outcome State Fault Refusal :=
  seExec 4 (fun s _ _ => .next (fun c => c.setReg rd imm.toNat) s none) s

/-- LDIH: bits 31:16 (R162). -/
def execLdih (rd : Reg) (imm : BitVec 16) (s : State) : Host.Outcome State Fault Refusal :=
  seExec 4 (fun s _ _ => .next (fun c => c.setReg rd (c.reg rd % 65536 + imm.toNat * 65536)) s none) s

/-- LDI: the extension word (R163). -/
def execLdi (rd : Reg) (v : Word) (s : State) : Host.Outcome State Fault Refusal :=
  seExec 8 (fun s _ _ => .next (fun c => c.setReg rd v.toNat) s none) s

end Sys2Proof.Machine
end

