-- ==== Sys2Proof/Machine/SeFp.lean ====
section
/-! DEFINITION. Floating-point instructions (R164 to R166). -/

namespace Sys2Proof.Machine

/-- The format P selects. -/
def fmtOf (p : Bool) : Fmt := if p then f64 else f32

/-- A floating-point operand: a register, or a pair for binary64. -/
def Ctx.fsrc (c : Ctx) (p : Bool) (r : Reg) : Nat := if p then c.pair r else c.reg r

/-- A floating-point or wide result. -/
def Ctx.fdst (c : Ctx) (p : Bool) (r : Reg) (v : Nat) : Ctx := if p then c.setPair r v else c.setReg r v

/-- Exceptions set their sticky flags in SW[12:8] (R133, R165). -/
def Ctx.fexc (c : Ctx) (e : Nat) : Ctx := { c with sw := c.sw ||| BitVec.ofNat 32 (e * 256) }

/-- An operation whose operands and result have widths by flag: pairs must be even (R138). -/
def fpOp (pairs : List (Bool × Reg)) (g : Ctx → Ctx) (s : State) : State :=
  s.seRun 4 fun s _ _ => if pairs.any fun e => e.1 && oddReg e.2 then illegal else .next g s none

/-- Gd := op Ga Gb. -/
def fp3 (rd ra rb : Reg) (p : Bool) (f : Fmt → Nat → Nat → Nat × Nat) (s : State) : State :=
  fpOp [(p, rd), (p, ra), (p, rb)] (fun c =>
    let (r, e) := f (fmtOf p) (c.fsrc p ra) (c.fsrc p rb)
    (c.fdst p rd r).fexc e) s

/-- Gd := op Ga. -/
def fp2 (rd ra : Reg) (p : Bool) (f : Fmt → Nat → Nat × Nat) (s : State) : State :=
  fpOp [(p, rd), (p, ra)] (fun c =>
    let (r, e) := f (fmtOf p) (c.fsrc p ra)
    (c.fdst p rd r).fexc e) s

/-- A conversion to a `w`-bit integer. -/
def fpInt (rd ra : Reg) (p : Bool) (w : Nat) (trunc : Bool) (s : State) : State :=
  fpOp [(w = 64, rd), (p, ra)] (fun c =>
    let (r, e) := fToInt (fmtOf p) w trunc (c.fsrc p ra)
    (c.fdst (w = 64) rd (ofS w r)).fexc e) s

/-- FADD (R164 to R166). -/
def execFadd (rd ra rb : Reg) (p : Bool) (s : State) : Host.Outcome State Fault Refusal :=
  .next (fp3 rd ra rb p (fAdd) s)

/-- FSUB (R164 to R166). -/
def execFsub (rd ra rb : Reg) (p : Bool) (s : State) : Host.Outcome State Fault Refusal :=
  .next (fp3 rd ra rb p (fSub) s)

/-- FMUL (R164 to R166). -/
def execFmul (rd ra rb : Reg) (p : Bool) (s : State) : Host.Outcome State Fault Refusal :=
  .next (fp3 rd ra rb p (fMul) s)

/-- FDIV (R164 to R166). -/
def execFdiv (rd ra rb : Reg) (p : Bool) (s : State) : Host.Outcome State Fault Refusal :=
  .next (fp3 rd ra rb p (fDiv) s)

/-- FMIN (R164 to R166). -/
def execFmin (rd ra rb : Reg) (p : Bool) (s : State) : Host.Outcome State Fault Refusal :=
  .next (fp3 rd ra rb p (fun f => fMinMax f false) s)

/-- FMAX (R164 to R166). -/
def execFmax (rd ra rb : Reg) (p : Bool) (s : State) : Host.Outcome State Fault Refusal :=
  .next (fp3 rd ra rb p (fun f => fMinMax f true) s)

/-- FSQRT (R164). -/
def execFsqrt (rd ra : Reg) (p : Bool) (s : State) : Host.Outcome State Fault Refusal :=
  .next (fp2 rd ra p (fSqrt) s)

/-- FABS: sign cleared, no flag (R165). -/
def execFabs (rd ra : Reg) (p : Bool) (s : State) : Host.Outcome State Fault Refusal :=
  .next (fp2 rd ra p (fun f x => (fMag f x, 0)) s)

/-- FNEG: sign inverted, no flag (R165). -/
def execFneg (rd ra : Reg) (p : Bool) (s : State) : Host.Outcome State Fault Refusal :=
  .next (fp2 rd ra p (fun f x => (fNegBits f x, 0)) s)

/-- FCMP: flags only (R166). -/
def execFcmp (ra rb : Reg) (p : Bool) (s : State) : Host.Outcome State Fault Refusal :=
  .next (fpOp [(p, ra), (p, rb)] (fun c =>
    let ((z, n, ge, v), e) := fCmp (fmtOf p) (c.fsrc p ra) (c.fsrc p rb)
    ({ c with sw := withFlags c.sw ⟨z, n, ge, v⟩ } : Ctx).fexc e) s)

/-- FCVTI: to a 32-bit signed integer, nearest even (R164, R166). -/
def execFcvti (rd ra : Reg) (p : Bool) (s : State) : Host.Outcome State Fault Refusal :=
  .next (fpInt rd ra p 32 false s)

/-- FCVTL: to a 64-bit signed integer, nearest even (R164, R166). -/
def execFcvtl (rd ra : Reg) (p : Bool) (s : State) : Host.Outcome State Fault Refusal :=
  .next (fpInt rd ra p 64 false s)

/-- FTRUNC: to a 32-bit signed integer, toward zero (R164, R166). -/
def execFtrunc (rd ra : Reg) (p : Bool) (s : State) : Host.Outcome State Fault Refusal :=
  .next (fpInt rd ra p 32 true s)

/-- FCVTF: a 32-bit signed integer to float (R164). -/
def execFcvtf (rd ra : Reg) (p : Bool) (s : State) : Host.Outcome State Fault Refusal :=
  .next (fpOp [(p, rd)] (fun c =>
    let (r, e) := fOfInt (fmtOf p) (toS 32 (c.reg ra))
    (c.fdst p rd r).fexc e) s)

/-- FCVTLF: a 64-bit signed integer pair to float (R164). -/
def execFcvtlf (rd ra : Reg) (p : Bool) (s : State) : Host.Outcome State Fault Refusal :=
  .next (fpOp [(p, rd), (true, ra)] (fun c =>
    let (r, e) := fOfInt (fmtOf p) (toS 64 (c.pair ra))
    (c.fdst p rd r).fexc e) s)

/-- FCVTP: binary64 pair to binary32 when P = 0, binary32 to binary64 pair when P = 1 (R164). -/
def execFcvtp (rd ra : Reg) (p : Bool) (s : State) : Host.Outcome State Fault Refusal :=
  .next (fpOp [(p, rd), (!p, ra)] (fun c =>
    let (r, e) := fConv (fmtOf !p) (fmtOf p) (c.fsrc (!p) ra)
    (c.fdst p rd r).fexc e) s)

end Sys2Proof.Machine
end

