-- ==== Sys2Proof/Machine/SeMem.lean ====
section
/-! DEFINITION. Loads, stores and block moves (R167 to R171). -/

namespace Sys2Proof.Machine

/-- A load of `n` bytes at a DM address: sign-extended when `sg`, a pair when 8 bytes (R167). -/
def loadAt (rd : Reg) (a n : Nat) (sg : Bool) (s : State) : SeRes :=
  if n = 8 && oddReg rd then illegal
  else addrCheck a n n (match s.dmRead .seData a n with
    | (none, s) => .bad 1 s
    | (some bs, s) =>
      let v := leNat bs
      .next (fun c => if n = 8 then c.setPair rd v else c.setReg rd (if sg then ofS 32 (toS (8 * n) v) else v)) s none)

/-- A store of the low `n` bytes of Gr at a DM address, or of a pair (R167). -/
def storeAt (cn : Nat) (c : Ctx) (rd : Reg) (a n : Nat) (s : State) : SeRes :=
  if n = 8 && oddReg rd then illegal
  else addrCheck a n n
    (.next id (s.seStore cn a (leBytes n (if n = 8 then c.pair rd else c.reg rd))) none)

/-- The address Gb + DISP (R167, R169). -/
def memAddr (c : Ctx) (rb : Reg) (disp : BitVec 15) : Nat := dispAddr (c.reg rb) 15 disp.toNat

/-- LDB (R167). -/
def execLdb (rd rb : Reg) (disp : BitVec 15) (s : State) : Host.Outcome State Fault Refusal :=
  seExec 4 (fun s _ c => loadAt rd (memAddr c rb disp) 1 false s) s

/-- LDBS (R167). -/
def execLdbs (rd rb : Reg) (disp : BitVec 15) (s : State) : Host.Outcome State Fault Refusal :=
  seExec 4 (fun s _ c => loadAt rd (memAddr c rb disp) 1 true s) s

/-- LDH (R167). -/
def execLdh (rd rb : Reg) (disp : BitVec 15) (s : State) : Host.Outcome State Fault Refusal :=
  seExec 4 (fun s _ c => loadAt rd (memAddr c rb disp) 2 false s) s

/-- LDHS (R167). -/
def execLdhs (rd rb : Reg) (disp : BitVec 15) (s : State) : Host.Outcome State Fault Refusal :=
  seExec 4 (fun s _ c => loadAt rd (memAddr c rb disp) 2 true s) s

/-- LDW (R167). -/
def execLdw (rd rb : Reg) (disp : BitVec 15) (s : State) : Host.Outcome State Fault Refusal :=
  seExec 4 (fun s _ c => loadAt rd (memAddr c rb disp) 4 false s) s

/-- LDD (R167). -/
def execLdd (rd rb : Reg) (disp : BitVec 15) (s : State) : Host.Outcome State Fault Refusal :=
  seExec 4 (fun s _ c => loadAt rd (memAddr c rb disp) 8 false s) s

/-- STB (R167). -/
def execStb (rd rb : Reg) (disp : BitVec 15) (s : State) : Host.Outcome State Fault Refusal :=
  seExec 4 (fun s cn c => storeAt cn c rd (memAddr c rb disp) 1 s) s

/-- STH (R167). -/
def execSth (rd rb : Reg) (disp : BitVec 15) (s : State) : Host.Outcome State Fault Refusal :=
  seExec 4 (fun s cn c => storeAt cn c rd (memAddr c rb disp) 2 s) s

/-- STW (R167). -/
def execStw (rd rb : Reg) (disp : BitVec 15) (s : State) : Host.Outcome State Fault Refusal :=
  seExec 4 (fun s cn c => storeAt cn c rd (memAddr c rb disp) 4 s) s

/-- STD (R167). -/
def execStd (rd rb : Reg) (disp : BitVec 15) (s : State) : Host.Outcome State Fault Refusal :=
  seExec 4 (fun s cn c => storeAt cn c rd (memAddr c rb disp) 8 s) s

/-- LDX (R168): the FN codes of LD at the address in the extension. -/
def execLdx (fn : BitVec 3) (rd : Reg) (addr : Word) (s : State) : Host.Outcome State Fault Refusal :=
  seExec 8 (fun s _ _ =>
    match fn.toNat with
    | 0 => loadAt rd addr.toNat 1 false s
    | 1 => loadAt rd addr.toNat 1 true s
    | 2 => loadAt rd addr.toNat 2 false s
    | 3 => loadAt rd addr.toNat 2 true s
    | 4 => loadAt rd addr.toNat 4 false s
    | 5 => loadAt rd addr.toNat 8 false s
    | _ => illegal) s

/-- STX (R168): the FN codes of ST at the address in the extension. -/
def execStx (fn : BitVec 3) (rd : Reg) (addr : Word) (s : State) : Host.Outcome State Fault Refusal :=
  seExec 8 (fun s cn c =>
    match fn.toNat with
    | 0 => storeAt cn c rd addr.toNat 1 s
    | 2 => storeAt cn c rd addr.toNat 2 s
    | 4 => storeAt cn c rd addr.toNat 4 s
    | 5 => storeAt cn c rd addr.toNat 8 s
    | _ => illegal) s

/-- The start of the first 8-byte element, counted from `a`, with a byte beyond DM, for a run of `n`
bytes. -/
def firstBeyond (a : Nat) : Nat := if dmSize ≤ a then a else a + (dmSize - a) / 8 * 8

/-- ADDR over the whole run, then ALIGN (R169, R170, R181). -/
def runCheck (as : Nats) (n : Nat) (k : SeRes) : SeRes :=
  match as.find? fun a => n ≠ 0 && beyondDm a n with
  | some a => .trap 3 (firstBeyond a) 0
  | none =>
    match as.find? fun a => a % 8 ≠ 0 with
    | some a => .trap 4 a 0
    | none => k

/-- The registers after an element of `n` bytes (R170): Gd, for MOVB Ga, and Gb. -/
def Ctx.blkNext (c : Ctx) (rd ra rb : Reg) (copy : Bool) (n : Nat) : Ctx :=
  let c := c.setReg rd (c.reg rd + n)
  let c := if copy then c.setReg ra (c.reg ra + n) else c
  c.setReg rb (c.reg rb + 2 ^ 32 - n)

/-- The next element of MOVB or FILLB, with the checks of the whole run made (R170). One row carries one
element, since a preemption falls between two elements: PC stays while bytes are left, and the instruction,
fetched again, goes on from the registers of the last element (R100, R171; log entry 117). `copy`: MOVB. -/
def blkOp (cn : Nat) (c : Ctx) (rd ra rb : Reg) (copy : Bool) (s : State) : SeRes :=
  let n := min 8 (c.reg rb)
  if n = 0 then .next id s none
  else
    let (d, s) := if copy then s.dmRead .seData (c.reg ra) n
      else (some (List.replicate n (BitVec.ofNat 8 (c.reg ra))), s)
    match d with
    | none => .bad 1 s
    | some bs =>
      .next (·.blkNext rd ra rb copy n) (s.seStore cn (c.reg rd) bs)
        (if (c.blkNext rd ra rb copy n).reg rb = 0 then none else some c.pc)

/-- MOVB (R170). -/
def execMovb (rd ra rb : Reg) (s : State) : Host.Outcome State Fault Refusal :=
  seExec 4 (fun s cn c => runCheck [c.reg rd, c.reg ra] (c.reg rb) (blkOp cn c rd ra rb true s)) s

/-- FILLB (R170). -/
def execFillb (rd ra rb : Reg) (s : State) : Host.Outcome State Fault Refusal :=
  seExec 4 (fun s cn c => runCheck [c.reg rd] (c.reg rb) (blkOp cn c rd ra rb false s)) s

end Sys2Proof.Machine
end

