-- ==== Sys2Proof/Machine/Dispatch.lean ====
section
/-! DEFINITION. The effect of each command on everything but the queue of waiting commands: one arm per
row of the table, each one direct call of its meaning. -/

namespace Sys2Proof.Machine

/-- The effect of one command. -/
def exec (i : Instr) (s : State) : Host.Outcome State Fault Refusal :=
  match i with
  | .packetReceived via bytes t => Sys2Proof.Machine.execPacketReceived via bytes t s
  | .sessionIdleClose slot t => Sys2Proof.Machine.execSessionIdleClose slot t s
  | .spiStatus => Sys2Proof.Machine.execSpiStatus s
  | .spiWrite bytes t => Sys2Proof.Machine.execSpiWrite bytes t s
  | .spiRead count => Sys2Proof.Machine.execSpiRead count s
  | .spiReservedCode code count => Sys2Proof.Machine.execSpiReservedCode code count s
  | .udpDatagram src sum bytes t => Sys2Proof.Machine.execUdpDatagram src sum bytes t s
  | .ipFragment src ident off more bytes t => Sys2Proof.Machine.execIpFragment src ident off more bytes t s
  | .fragmentTimeout src ident t => Sys2Proof.Machine.execFragmentTimeout src ident t s
  | .sysPing q p => Sys2Proof.Machine.execSysPing q p s
  | .sysIdent q p => Sys2Proof.Machine.execSysIdent q p s
  | .sysStatus q p => Sys2Proof.Machine.execSysStatus q p s
  | .sysSessionOpen q p => Sys2Proof.Machine.execSysSessionOpen q p s
  | .sysSessionClose q p => Sys2Proof.Machine.execSysSessionClose q p s
  | .sysStateSet q p => Sys2Proof.Machine.execSysStateSet q p s
  | .sysRestart q p => Sys2Proof.Machine.execSysRestart q p s
  | .sysLockSet q p => Sys2Proof.Machine.execSysLockSet q p s
  | .sysLockClear q p => Sys2Proof.Machine.execSysLockClear q p s
  | .sysKeySet q p => Sys2Proof.Machine.execSysKeySet q p s
  | .sysCounters q p => Sys2Proof.Machine.execSysCounters q p s
  | .regRead q p => Sys2Proof.Machine.execRegRead q p s
  | .regWrite q p => Sys2Proof.Machine.execRegWrite q p s
  | .regModify q p => Sys2Proof.Machine.execRegModify q p s
  | .regListRead q p => Sys2Proof.Machine.execRegListRead q p s
  | .regCommit q p => Sys2Proof.Machine.execRegCommit q p s
  | .regPoll q p => Sys2Proof.Machine.execRegPoll q p s
  | .regPollTimeout q t => Sys2Proof.Machine.execRegPollTimeout q t s
  | .commitWrite addr => Sys2Proof.Machine.execCommitWrite addr s
  | .commitApply blk t => Sys2Proof.Machine.execCommitApply blk t s
  | .commitTimeout blk t => Sys2Proof.Machine.execCommitTimeout blk t s
  | .queStatus q p => Sys2Proof.Machine.execQueStatus q p s
  | .quePop q p => Sys2Proof.Machine.execQuePop q p s
  | .quePush q p => Sys2Proof.Machine.execQuePush q p s
  | .quePushPacket q p => Sys2Proof.Machine.execQuePushPacket q p s
  | .queClear q p => Sys2Proof.Machine.execQueClear q p s
  | .quePushWaitTimeout q t => Sys2Proof.Machine.execQuePushWaitTimeout q t s
  | .managementTick t => Sys2Proof.Machine.execManagementTick t s
  | .dieLinkLoss t => Sys2Proof.Machine.execDieLinkLoss t s
  | .outputUpdateTick t smp => Sys2Proof.Machine.execOutputUpdateTick t smp s
  | .gridTick t => Sys2Proof.Machine.execGridTick t s
  | .triggerArrival trg t => Sys2Proof.Machine.execTriggerArrival trg t s
  | .snapshotCopyStart ctx => Sys2Proof.Machine.execSnapshotCopyStart ctx s
  | .snapshotCopyEnd ctx bad => Sys2Proof.Machine.execSnapshotCopyEnd ctx bad s
  | .imageWrite src => Sys2Proof.Machine.execImageWrite src s
  | .publicationEnd ctx t => Sys2Proof.Machine.execPublicationEnd ctx t s
  | .imageCopyRepair out off => Sys2Proof.Machine.execImageCopyRepair out off s
  | .seSwtrig v => Sys2Proof.Machine.execSeSwtrig v s
  | .seCtrlClrTime => Sys2Proof.Machine.execSeCtrlClrTime s
  | .seCtrlClrOvr => Sys2Proof.Machine.execSeCtrlClrOvr s
  | .seHotWrite n v => Sys2Proof.Machine.execSeHotWrite n v s
  | .stateChangeApply t => Sys2Proof.Machine.execStateChangeApply t s
  | .runExitComplete t => Sys2Proof.Machine.execRunExitComplete t s
  | .runExitAbandon t => Sys2Proof.Machine.execRunExitAbandon t s
  | .ctx4Timeout t => Sys2Proof.Machine.execCtx4Timeout t s
  | .retainCopyEnd us => Sys2Proof.Machine.execRetainCopyEnd us s
  | .tachEdge ch rising t => Sys2Proof.Machine.execTachEdge ch rising t s
  | .shaftStall sh t => Sys2Proof.Machine.execShaftStall sh t s
  | .seTaskStatus q p => Sys2Proof.Machine.execSeTaskStatus q p s
  | .seTrigger q p => Sys2Proof.Machine.execSeTrigger q p s
  | .seClearStats q p => Sys2Proof.Machine.execSeClearStats q p s
  | .seShaftRead q p => Sys2Proof.Machine.execSeShaftRead q p s
  | .bitLd src => Sys2Proof.Machine.execBitLd src s
  | .bitLdn src => Sys2Proof.Machine.execBitLdn src s
  | .bitAnd src => Sys2Proof.Machine.execBitAnd src s
  | .bitAndn src => Sys2Proof.Machine.execBitAndn src s
  | .bitOr src => Sys2Proof.Machine.execBitOr src s
  | .bitOrn src => Sys2Proof.Machine.execBitOrn src s
  | .bitXor src => Sys2Proof.Machine.execBitXor src s
  | .bitXorn src => Sys2Proof.Machine.execBitXorn src s
  | .bitSt dst => Sys2Proof.Machine.execBitSt dst s
  | .bitStn dst => Sys2Proof.Machine.execBitStn dst s
  | .bitStp dst => Sys2Proof.Machine.execBitStp dst s
  | .bitSet dst => Sys2Proof.Machine.execBitSet dst s
  | .bitRst dst => Sys2Proof.Machine.execBitRst dst s
  | .bitSetp dst => Sys2Proof.Machine.execBitSetp dst s
  | .bitRstp dst => Sys2Proof.Machine.execBitRstp dst s
  | .push0 => Sys2Proof.Machine.execPush0 s
  | .push1 => Sys2Proof.Machine.execPush1 s
  | .stkNot => Sys2Proof.Machine.execStkNot s
  | .dup => Sys2Proof.Machine.execDup s
  | .pop => Sys2Proof.Machine.execPop s
  | .ands => Sys2Proof.Machine.execAnds s
  | .ors => Sys2Proof.Machine.execOrs s
  | .xors => Sys2Proof.Machine.execXors s
  | .swap => Sys2Proof.Machine.execSwap s
  | .pushc cond => Sys2Proof.Machine.execPushc cond s
  | .stkClr => Sys2Proof.Machine.execStkClr s
  | .knotPush line => Sys2Proof.Machine.execKnotPush line s
  | .knotAnd line => Sys2Proof.Machine.execKnotAnd line s
  | .knotOr line => Sys2Proof.Machine.execKnotOr line s
  | .edgeRising cell => Sys2Proof.Machine.execEdgeRising cell s
  | .edgeFalling cell => Sys2Proof.Machine.execEdgeFalling cell s
  | .edgeBoth cell => Sys2Proof.Machine.execEdgeBoth cell s
  | .unprime cell => Sys2Proof.Machine.execUnprime cell s
  | .timTon op t => Sys2Proof.Machine.execTimTon op t s
  | .timTof op t => Sys2Proof.Machine.execTimTof op t s
  | .timTp op t => Sys2Proof.Machine.execTimTp op t s
  | .trst rd timer => Sys2Proof.Machine.execTrst rd timer s
  | .aluAdd rd ra rb w sg => Sys2Proof.Machine.execAluAdd rd ra rb w sg s
  | .aluSub rd ra rb w sg => Sys2Proof.Machine.execAluSub rd ra rb w sg s
  | .aluAnd rd ra rb w sg => Sys2Proof.Machine.execAluAnd rd ra rb w sg s
  | .aluOr rd ra rb w sg => Sys2Proof.Machine.execAluOr rd ra rb w sg s
  | .aluXor rd ra rb w sg => Sys2Proof.Machine.execAluXor rd ra rb w sg s
  | .aluShl rd ra rb w sg => Sys2Proof.Machine.execAluShl rd ra rb w sg s
  | .aluShr rd ra rb w sg => Sys2Proof.Machine.execAluShr rd ra rb w sg s
  | .aluSar rd ra rb w sg => Sys2Proof.Machine.execAluSar rd ra rb w sg s
  | .aluRol rd ra rb w sg => Sys2Proof.Machine.execAluRol rd ra rb w sg s
  | .aluRor rd ra rb w sg => Sys2Proof.Machine.execAluRor rd ra rb w sg s
  | .aluMul rd ra rb w sg => Sys2Proof.Machine.execAluMul rd ra rb w sg s
  | .aluMulh rd ra rb w sg => Sys2Proof.Machine.execAluMulh rd ra rb w sg s
  | .aluDiv rd ra rb w sg => Sys2Proof.Machine.execAluDiv rd ra rb w sg s
  | .aluRem rd ra rb w sg => Sys2Proof.Machine.execAluRem rd ra rb w sg s
  | .aluMin rd ra rb w sg => Sys2Proof.Machine.execAluMin rd ra rb w sg s
  | .aluMax rd ra rb w sg => Sys2Proof.Machine.execAluMax rd ra rb w sg s
  | .aluCmp ra rb w sg => Sys2Proof.Machine.execAluCmp ra rb w sg s
  | .aluMov rd ra w sg => Sys2Proof.Machine.execAluMov rd ra w sg s
  | .aluNot rd ra w sg => Sys2Proof.Machine.execAluNot rd ra w sg s
  | .aluNeg rd ra w sg => Sys2Proof.Machine.execAluNeg rd ra w sg s
  | .aluAbs rd ra w sg => Sys2Proof.Machine.execAluAbs rd ra w sg s
  | .aluSel rd ra rb w sg => Sys2Proof.Machine.execAluSel rd ra rb w sg s
  | .addi rd imm => Sys2Proof.Machine.execAddi rd imm s
  | .andi rd imm => Sys2Proof.Machine.execAndi rd imm s
  | .ori rd imm => Sys2Proof.Machine.execOri rd imm s
  | .xori rd imm => Sys2Proof.Machine.execXori rd imm s
  | .shli rd imm => Sys2Proof.Machine.execShli rd imm s
  | .shri rd imm => Sys2Proof.Machine.execShri rd imm s
  | .sari rd imm => Sys2Proof.Machine.execSari rd imm s
  | .cmpi rd imm => Sys2Proof.Machine.execCmpi rd imm s
  | .ldil rd imm => Sys2Proof.Machine.execLdil rd imm s
  | .ldih rd imm => Sys2Proof.Machine.execLdih rd imm s
  | .muli rd imm => Sys2Proof.Machine.execMuli rd imm s
  | .ldi rd v => Sys2Proof.Machine.execLdi rd v s
  | .ldb rd rb disp => Sys2Proof.Machine.execLdb rd rb disp s
  | .ldbs rd rb disp => Sys2Proof.Machine.execLdbs rd rb disp s
  | .ldh rd rb disp => Sys2Proof.Machine.execLdh rd rb disp s
  | .ldhs rd rb disp => Sys2Proof.Machine.execLdhs rd rb disp s
  | .ldw rd rb disp => Sys2Proof.Machine.execLdw rd rb disp s
  | .ldd rd rb disp => Sys2Proof.Machine.execLdd rd rb disp s
  | .stb rd rb disp => Sys2Proof.Machine.execStb rd rb disp s
  | .sth rd rb disp => Sys2Proof.Machine.execSth rd rb disp s
  | .stw rd rb disp => Sys2Proof.Machine.execStw rd rb disp s
  | .std rd rb disp => Sys2Proof.Machine.execStd rd rb disp s
  | .ldx fn rd addr => Sys2Proof.Machine.execLdx fn rd addr s
  | .stx fn rd addr => Sys2Proof.Machine.execStx fn rd addr s
  | .movb rd ra rb => Sys2Proof.Machine.execMovb rd ra rb s
  | .fillb rd ra rb => Sys2Proof.Machine.execFillb rd ra rb s
  | .fadd rd ra rb p => Sys2Proof.Machine.execFadd rd ra rb p s
  | .fsub rd ra rb p => Sys2Proof.Machine.execFsub rd ra rb p s
  | .fmul rd ra rb p => Sys2Proof.Machine.execFmul rd ra rb p s
  | .fdiv rd ra rb p => Sys2Proof.Machine.execFdiv rd ra rb p s
  | .fsqrt rd ra p => Sys2Proof.Machine.execFsqrt rd ra p s
  | .fmin rd ra rb p => Sys2Proof.Machine.execFmin rd ra rb p s
  | .fmax rd ra rb p => Sys2Proof.Machine.execFmax rd ra rb p s
  | .fabs rd ra p => Sys2Proof.Machine.execFabs rd ra p s
  | .fneg rd ra p => Sys2Proof.Machine.execFneg rd ra p s
  | .fcmp ra rb p => Sys2Proof.Machine.execFcmp ra rb p s
  | .fcvti rd ra p => Sys2Proof.Machine.execFcvti rd ra p s
  | .fcvtf rd ra p => Sys2Proof.Machine.execFcvtf rd ra p s
  | .fcvtl rd ra p => Sys2Proof.Machine.execFcvtl rd ra p s
  | .fcvtlf rd ra p => Sys2Proof.Machine.execFcvtlf rd ra p s
  | .fcvtp rd ra p => Sys2Proof.Machine.execFcvtp rd ra p s
  | .ftrunc rd ra p => Sys2Proof.Machine.execFtrunc rd ra p s
  | .br cond off => Sys2Proof.Machine.execBr cond off s
  | .call rd off => Sys2Proof.Machine.execCall rd off s
  | .jr ra => Sys2Proof.Machine.execJr ra s
  | .callr rd ra => Sys2Proof.Machine.execCallr rd ra s
  | .nop => Sys2Proof.Machine.execNop s
  | .endInsn t => Sys2Proof.Machine.execEndInsn t s
  | .trapInsn code => Sys2Proof.Machine.execTrapInsn code s
  | .fence => Sys2Proof.Machine.execFence s
  | .qpush q rx => Sys2Proof.Machine.execQpush q rx s
  | .qpop q rx => Sys2Proof.Machine.execQpop q rx s
  | .qopen q => Sys2Proof.Machine.execQopen q s
  | .qclose q => Sys2Proof.Machine.execQclose q s
  | .qlvl q rx => Sys2Proof.Machine.execQlvl q rx s
  | .evt num ra => Sys2Proof.Machine.execEvt num ra s
  | .trig ctx => Sys2Proof.Machine.execTrig ctx s
  | .sysr rd sreg t => Sys2Proof.Machine.execSysr rd sreg t s
  | .sysw rd sreg => Sys2Proof.Machine.execSysw rd sreg s
  | .reservedInstruction w ext => Sys2Proof.Machine.execReservedInstruction w ext s
  | .seChamberOpen q p => Sys2Proof.Machine.execSeChamberOpen q p s
  | .seChamberWrite q p => Sys2Proof.Machine.execSeChamberWrite q p s
  | .seChamberClose q p => Sys2Proof.Machine.execSeChamberClose q p s
  | .chamberCheckEnd => Sys2Proof.Machine.execChamberCheckEnd s
  | .seSwapArm q p => Sys2Proof.Machine.execSeSwapArm q p s
  | .seSwapDisarm q p => Sys2Proof.Machine.execSeSwapDisarm q p s
  | .seSwapStatus q p => Sys2Proof.Machine.execSeSwapStatus q p s
  | .swapStart t => Sys2Proof.Machine.execSwapStart t s
  | .swapEnd t => Sys2Proof.Machine.execSwapEnd t s
  | .swapTimeout t => Sys2Proof.Machine.execSwapTimeout t s
  | .swapAttemptLapse t => Sys2Proof.Machine.execSwapAttemptLapse t s
  | .ixeRecord t => Sys2Proof.Machine.execIxeRecord t s
  | .ixeTimeoutCheck t => Sys2Proof.Machine.execIxeTimeoutCheck t s
  | .ixeStatusRead q p => Sys2Proof.Machine.execIxeStatusRead q p s
  | .ixePointRead q p => Sys2Proof.Machine.execIxePointRead q p s
  | .ixeBaselineReset q p => Sys2Proof.Machine.execIxeBaselineReset q p s
  | .ixeBaselineLoad q p => Sys2Proof.Machine.execIxeBaselineLoad q p s
  | .ixeStateClear q p => Sys2Proof.Machine.execIxeStateClear q p s
  | .ixeCounters q p => Sys2Proof.Machine.execIxeCounters q p s
  | .ixeClr v => Sys2Proof.Machine.execIxeClr v s
  | .frameReceived port f t => Sys2Proof.Machine.execFrameReceived port f t s
  | .rxQueueWaitTimeout port => Sys2Proof.Machine.execRxQueueWaitTimeout port s
  | .frameStart port buf t => Sys2Proof.Machine.execFrameStart port buf t s
  | .frameSent port t => Sys2Proof.Machine.execFrameSent port t s
  | .arbitrationLost port => Sys2Proof.Machine.execArbitrationLost port s
  | .busError port e t => Sys2Proof.Machine.execBusError port e t s
  | .suspendEnd port => Sys2Proof.Machine.execSuspendEnd port s
  | .integrationEnd port => Sys2Proof.Machine.execIntegrationEnd port s
  | .busoffRecoveryEnd port => Sys2Proof.Machine.execBusoffRecoveryEnd port s
  | .dominantTimeout port => Sys2Proof.Machine.execDominantTimeout port s
  | .basicCycleEnd port t => Sys2Proof.Machine.execBasicCycleEnd port t s
  | .windowStart port w t => Sys2Proof.Machine.execWindowStart port w t s
  | .windowEnd port w t => Sys2Proof.Machine.execWindowEnd port w t s
  | .loadInstant port w t bad => Sys2Proof.Machine.execLoadInstant port w t bad s
  | .tdrBurstEnd port aborted m => Sys2Proof.Machine.execTdrBurstEnd port aborted m s
  | .tdrTimeout port => Sys2Proof.Machine.execTdrTimeout port s
  | .stationRefLost port => Sys2Proof.Machine.execStationRefLost port s
  | .stationHoldExpired port t => Sys2Proof.Machine.execStationHoldExpired port t s
  | .fbpnTxreq port hi v => Sys2Proof.Machine.execFbpnTxreq port hi v s
  | .fbpnTxcan port hi v => Sys2Proof.Machine.execFbpnTxcan port hi v s
  | .fbpnRecover port v => Sys2Proof.Machine.execFbpnRecover port v s
  | .fbpnClr port v => Sys2Proof.Machine.execFbpnClr port v s
  | .fbpStatus q p => Sys2Proof.Machine.execFbpStatus q p s
  | .fbpRecover q p => Sys2Proof.Machine.execFbpRecover q p s
  | .fbpSend q p => Sys2Proof.Machine.execFbpSend q p s
  | .fbpSendTimeout port buf => Sys2Proof.Machine.execFbpSendTimeout port buf s
  | .fbpCancel q p => Sys2Proof.Machine.execFbpCancel q p s
  | .fbpTdr q p => Sys2Proof.Machine.execFbpTdr q p s
  | .fbpCounters q p => Sys2Proof.Machine.execFbpCounters q p s
  | .stnFrame port t => Sys2Proof.Machine.execStnFrame port t s
  | .mgmtResponseTimeout port stn t => Sys2Proof.Machine.execMgmtResponseTimeout port stn t s
  | .joinPoll port stn t => Sys2Proof.Machine.execJoinPoll port stn t s
  | .waitfirstTimeout port stn => Sys2Proof.Machine.execWaitfirstTimeout port stn s
  | .keepalivePeriodEnd port stn t => Sys2Proof.Machine.execKeepalivePeriodEnd port stn t s
  | .stnClr port v => Sys2Proof.Machine.execStnClr port v s
  | .stnStatus q p => Sys2Proof.Machine.execStnStatus q p s
  | .stnRejoin q p => Sys2Proof.Machine.execStnRejoin q p s
  | .stnMgmt q p => Sys2Proof.Machine.execStnMgmt q p s
  | .stnStop q p => Sys2Proof.Machine.execStnStop q p s
  | .stnCounters q p => Sys2Proof.Machine.execStnCounters q p s
  | .groupLow g => Sys2Proof.Machine.execGroupLow g s
  | .groupOff g => Sys2Proof.Machine.execGroupOff g s
  | .groupRecovery g => Sys2Proof.Machine.execGroupRecovery g s
  | .grpgAck g v => Sys2Proof.Machine.execGrpgAck g v s
  | .chnDiagclr ch v => Sys2Proof.Machine.execChnDiagclr ch v s
  | .thermalShutdown ch => Sys2Proof.Machine.execThermalShutdown ch s
  | .shortRetry ch t => Sys2Proof.Machine.execShortRetry ch t s
  | .channelOvertemp ch => Sys2Proof.Machine.execChannelOvertemp ch s
  | .channelCooled ch t => Sys2Proof.Machine.execChannelCooled ch t s
  | .loadMeasurement ch m => Sys2Proof.Machine.execLoadMeasurement ch m s
  | .fioStatus q p => Sys2Proof.Machine.execFioStatus q p s
  | .fioGroupAck q p => Sys2Proof.Machine.execFioGroupAck q p s
  | .fioDiagClear q p => Sys2Proof.Machine.execFioDiagClear q p s
  | .fioLoadRead q p => Sys2Proof.Machine.execFioLoadRead q p s
  | .telemetrySweep t m => Sys2Proof.Machine.execTelemetrySweep t m s
  | .paliLost t => Sys2Proof.Machine.execPaliLost t s
  | .paliAlive => Sys2Proof.Machine.execPaliAlive s
  | .paliqTimeout t => Sys2Proof.Machine.execPaliqTimeout t s
  | .towlineLockLost retries t => Sys2Proof.Machine.execTowlineLockLost retries t s
  | .tickTimeout t => Sys2Proof.Machine.execTickTimeout t s
  | .trainingAttempt ok => Sys2Proof.Machine.execTrainingAttempt ok s
  | .towlineUp delay skew cap t => Sys2Proof.Machine.execTowlineUp delay skew cap t s
  | .solowaitExpired t => Sys2Proof.Machine.execSolowaitExpired t s
  | .twlTick time => Sys2Proof.Machine.execTwlTick time s
  | .twlAck seq nak credit => Sys2Proof.Machine.execTwlAck seq nak credit s
  | .twlEcho w0 w1 => Sys2Proof.Machine.execTwlEcho w0 w1 s
  | .twlCap cap t => Sys2Proof.Machine.execTwlCap cap t s
  | .twlBadFrame => Sys2Proof.Machine.execTwlBadFrame s
  | .twlReservedFrame ty => Sys2Proof.Machine.execTwlReservedFrame ty s
  | .propose arg gs t => Sys2Proof.Machine.execPropose arg gs t s
  | .ready arg gs t => Sys2Proof.Machine.execReady arg gs t s
  | .decline arg => Sys2Proof.Machine.execDecline arg s
  | .go arg gs => Sys2Proof.Machine.execGo arg gs s
  | .twlState target gs => Sys2Proof.Machine.execTwlState target gs s
  | .leave t => Sys2Proof.Machine.execLeave t s
  | .enter te => Sys2Proof.Machine.execEnter te s
  | .joinreq => Sys2Proof.Machine.execJoinreq s
  | .paliq => Sys2Proof.Machine.execPaliq s
  | .palians palo t => Sys2Proof.Machine.execPalians palo t s
  | .mirBegin ctx nextValid next => Sys2Proof.Machine.execMirBegin ctx nextValid next s
  | .mirData blocks => Sys2Proof.Machine.execMirData blocks s
  | .mirTimer recs => Sys2Proof.Machine.execMirTimer recs s
  | .mirEnd ctx blocks timers => Sys2Proof.Machine.execMirEnd ctx blocks timers s
  | .mirrorApply ctx t => Sys2Proof.Machine.execMirrorApply ctx t s
  | .trackingReleaseSkip ctx t => Sys2Proof.Machine.execTrackingReleaseSkip ctx t s
  | .mirrorReadDone ctx t => Sys2Proof.Machine.execMirrorReadDone ctx t s
  | .snap part => Sys2Proof.Machine.execSnap part s
  | .snapEnd op g t => Sys2Proof.Machine.execSnapEnd op g t s
  | .trackPhaseEnd t => Sys2Proof.Machine.execTrackPhaseEnd t s
  | .entryInstant t => Sys2Proof.Machine.execEntryInstant t s
  | .stnsync port stn w5 w6 => Sys2Proof.Machine.execStnsync port stn w5 w6 s
  | .twlReq port stn token seq data => Sys2Proof.Machine.execTwlReq port stn token seq data s
  | .twlShaft sh count stamp => Sys2Proof.Machine.execTwlShaft sh count stamp s
  | .switchoverInstant t => Sys2Proof.Machine.execSwitchoverInstant t s
  | .twlClr v => Sys2Proof.Machine.execTwlClr v s
  | .twlStatus q p => Sys2Proof.Machine.execTwlStatus q p s
  | .twlJoin q p => Sys2Proof.Machine.execTwlJoin q p s
  | .twlDetach q p => Sys2Proof.Machine.execTwlDetach q p s
  | .twlSwitchover q p => Sys2Proof.Machine.execTwlSwitchover q p s
  | .twlGoSolo q p => Sys2Proof.Machine.execTwlGoSolo q p s
  | .twlEpochSet q p => Sys2Proof.Machine.execTwlEpochSet q p s
  | .twlCounters q p => Sys2Proof.Machine.execTwlCounters q p s
  | .rebuildEnd rd addr parity => Sys2Proof.Machine.execRebuildEnd rd addr parity s
  | .spliceFlush mem => Sys2Proof.Machine.execSpliceFlush mem s
  | .scrubPage hit => Sys2Proof.Machine.execScrubPage hit s
  | .miuTestWrite v => Sys2Proof.Machine.execMiuTestWrite v s
  | .miuClr v => Sys2Proof.Machine.execMiuClr v s
  | .miuStatus q p => Sys2Proof.Machine.execMiuStatus q p s
  | .miuScrub q p => Sys2Proof.Machine.execMiuScrub q p s
  | .miuScrubAbort q p => Sys2Proof.Machine.execMiuScrubAbort q p s
  | .miuRawRead q p => Sys2Proof.Machine.execMiuRawRead q p s
  | .miuRawWrite q p => Sys2Proof.Machine.execMiuRawWrite q p s
  | .energyBurst addr data => Sys2Proof.Machine.execEnergyBurst addr data s
  | .twinCopyBurst addr data => Sys2Proof.Machine.execTwinCopyBurst addr data s
  | .twinCopyRead addr => Sys2Proof.Machine.execTwinCopyRead addr s
  | .marginRead weak flagged => Sys2Proof.Machine.execMarginRead weak flagged s
  | .rsmClr v => Sys2Proof.Machine.execRsmClr v s
  | .rsmStatus q p => Sys2Proof.Machine.execRsmStatus q p s
  | .rsmFormat q p => Sys2Proof.Machine.execRsmFormat q p s
  | .rsmRetainClear q p => Sys2Proof.Machine.execRsmRetainClear q p s
  | .eventRecordWrite => Sys2Proof.Machine.execEventRecordWrite s
  | .rateWindowStart win t => Sys2Proof.Machine.execRateWindowStart win t s
  | .freezeTimeout t => Sys2Proof.Machine.execFreezeTimeout t s
  | .evrCtrlFreeze t => Sys2Proof.Machine.execEvrCtrlFreeze t s
  | .evrCtrlUnfreeze => Sys2Proof.Machine.execEvrCtrlUnfreeze s
  | .evrClr v => Sys2Proof.Machine.execEvrClr v s
  | .evrStatus q p => Sys2Proof.Machine.execEvrStatus q p s
  | .evrRead q p => Sys2Proof.Machine.execEvrRead q p s
  | .evrFreeze q p => Sys2Proof.Machine.execEvrFreeze q p s
  | .evrUnfreeze q p => Sys2Proof.Machine.execEvrUnfreeze q p s
  | .evrClear q p => Sys2Proof.Machine.execEvrClear q p s
  | .qnpush n v => Sys2Proof.Machine.execQnpush n v s
  | .qndataLoRead rd n => Sys2Proof.Machine.execQndataLoRead rd n s
  | .dmacGoStart c => Sys2Proof.Machine.execDmacGoStart c s
  | .dmacGoStop c => Sys2Proof.Machine.execDmacGoStop c s
  | .dmaBurst c => Sys2Proof.Machine.execDmaBurst c s
  | .rtcSecond t => Sys2Proof.Machine.execRtcSecond t s
  | .trimWindow => Sys2Proof.Machine.execTrimWindow s
  | .rtcShadowRead rd r t => Sys2Proof.Machine.execRtcShadowRead rd r t s
  | .rtcFreezeTimeout rd t => Sys2Proof.Machine.execRtcFreezeTimeout rd t s
  | .loRegisterRead rd addr => Sys2Proof.Machine.execLoRegisterRead rd addr s
  | .rtcLostSet => Sys2Proof.Machine.execRtcLostSet s
  | .aoSourceSwitch vbat => Sys2Proof.Machine.execAoSourceSwitch vbat s
  | .batlowSet => Sys2Proof.Machine.execBatlowSet s
  | .batlowClear => Sys2Proof.Machine.execBatlowClear s
  | .wdtKeyWrite v => Sys2Proof.Machine.execWdtKeyWrite v s
  | .wdtCheckinWrite v => Sys2Proof.Machine.execWdtCheckinWrite v s
  | .wdtConfigWrite off v => Sys2Proof.Machine.execWdtConfigWrite off v s
  | .wdtPeriodEnd t => Sys2Proof.Machine.execWdtPeriodEnd t s
  | .rtcRead q p => Sys2Proof.Machine.execRtcRead q p s
  | .rtcSet q p => Sys2Proof.Machine.execRtcSet q p s
  | .rtcTrim q p => Sys2Proof.Machine.execRtcTrim q p s
  | .wdtStatus q p => Sys2Proof.Machine.execWdtStatus q p s
  | .wdtService q p => Sys2Proof.Machine.execWdtService q p s
  | .wdtCheckin q p => Sys2Proof.Machine.execWdtCheckin q p s
  | .updBegin q p => Sys2Proof.Machine.execUpdBegin q p s
  | .eraseDone => Sys2Proof.Machine.execEraseDone s
  | .updData q p => Sys2Proof.Machine.execUpdData q p s
  | .updVerify q p => Sys2Proof.Machine.execUpdVerify q p s
  | .verifyDone => Sys2Proof.Machine.execVerifyDone s
  | .updActivate q p => Sys2Proof.Machine.execUpdActivate q p s
  | .updConfirm q p => Sys2Proof.Machine.execUpdConfirm q p s
  | .updRevert q p => Sys2Proof.Machine.execUpdRevert q p s
  | .updStatus q p => Sys2Proof.Machine.execUpdStatus q p s
  | .updAbort q p => Sys2Proof.Machine.execUpdAbort q p s
  | .updStationActivate q p => Sys2Proof.Machine.execUpdStationActivate q p s
  | .trialTimeout t => Sys2Proof.Machine.execTrialTimeout t s
  | .selfConfirm t => Sys2Proof.Machine.execSelfConfirm t s
  | .powerOnReset straps => Sys2Proof.Machine.execPowerOnReset straps s
  | .pinReset ns straps => Sys2Proof.Machine.execPinReset ns straps s
  | .clockFailure straps => Sys2Proof.Machine.execClockFailure straps s
  | .x32Stopped => Sys2Proof.Machine.execX32Stopped s
  | .deviceRestart straps => Sys2Proof.Machine.execDeviceRestart straps s
  | .mainPowerLoss aoHeld => Sys2Proof.Machine.execMainPowerLoss aoHeld s
  | .startUp t => Sys2Proof.Machine.execStartUp t s
  | .powerFailWarning t => Sys2Proof.Machine.execPowerFailWarning t s
  | .powerfailRestart straps => Sys2Proof.Machine.execPowerfailRestart straps s
  | .vcanLow => Sys2Proof.Machine.execVcanLow s
  | .vcanRestored => Sys2Proof.Machine.execVcanRestored s
  | .storeRunningProgram => Sys2Proof.Machine.execStoreRunningProgram s
  | .storeLoadedChamber => Sys2Proof.Machine.execStoreLoadedChamber s
  | .storeConfiguration => Sys2Proof.Machine.execStoreConfiguration s
  | .storeDone ok => Sys2Proof.Machine.execStoreDone ok s
  | .ethLinkChange port up speed half => Sys2Proof.Machine.execEthLinkChange port up speed half s
  | .arpRequest port ip => Sys2Proof.Machine.execArpRequest port ip s
  | .icmpEcho port ip data => Sys2Proof.Machine.execIcmpEcho port ip data s
  | .ptpMessage m t => Sys2Proof.Machine.execPtpMessage m t s
  | .ethFrameDropped port => Sys2Proof.Machine.execEthFrameDropped port s
  | .ethStatus q p => Sys2Proof.Machine.execEthStatus q p s
  | .ethConfig q p => Sys2Proof.Machine.execEthConfig q p s
  | .ptpConfig q p => Sys2Proof.Machine.execPtpConfig q p s
  | .ptpStatus q p => Sys2Proof.Machine.execPtpStatus q p s
  | .ethCounters q p => Sys2Proof.Machine.execEthCounters q p s
  | .hpiClr v => Sys2Proof.Machine.execHpiClr v s
  | .ethnClr port v => Sys2Proof.Machine.execEthnClr port v s
  | .jtagDebugAccess addr wr => Sys2Proof.Machine.execJtagDebugAccess addr wr s
  | .registerWrite addr v => Sys2Proof.Machine.execRegisterWrite addr v s
  | .switchoverTimeout t => Sys2Proof.Machine.execSwitchoverTimeout t s
  | .ethFrameDiscarded port crcFail => Sys2Proof.Machine.execEthFrameDiscarded port crcFail s
  | .x32Resumed => Sys2Proof.Machine.execX32Resumed s
  | .jtagTapReset => Sys2Proof.Machine.execJtagTapReset s
  | .chargerCutOff off => Sys2Proof.Machine.execChargerCutOff off s

end Sys2Proof.Machine
end

