-- ==== Sys2Proof/Safety.lean ====
section
/-! DEFINITION. What statements mean by a well-formed state and by a safe command: the canonical form of the
memories and of the register map, the sessions within their slots, the holding queue within its depth, and the
one command that stops. -/

namespace Sys2Proof.Machine

/-- The addressed memories PM, DM and MRAM and the two images are in canonical form. -/
def Memory.wf (s : State) : Bool :=
  swf 0 s.pm && swf 0 s.dm && swf 0 s.mram && swf 0 s.inImg && swf 0 s.outImg

/-- The register map is in canonical form. -/
def State.regsWf (s : State) : Bool := swfBy resetVal s.regs

/-- Every open session has a slot of its own, numbered 0 to 7 (R43). -/
def State.sessionsWf (s : State) : Bool :=
  decide (s.hpi.sessions.map (·.slot)).Nodup && s.hpi.sessions.all fun x => decide (x.slot < 8)

/-- The holding queue of the recorder has at most 64 records (R477). -/
def State.holdingWf (s : State) : Bool := decide (s.evr.hq.length ≤ 64)

/-- What every command keeps. -/
def State.Inv (s : State) : Prop :=
  Memory.wf s = true ∧ s.regsWf = true ∧ s.sessionsWf = true ∧ s.holdingWf = true

/-- The command is PIN_RESET with a low pulse whose effect the spec does not state (R634). -/
def Instr.unspecified : Instr → Bool
  | .pinReset ns _ => decide (100 ≤ ns ∧ ns < 1000)
  | _ => false

/-! ### Words of the statements: the scan engine -/

/-- Context `n` is executing and holds `c`. -/
def State.Runs (s : State) (n : Nat) (c : Ctx) : Prop := s.se.active = some n ∧ s.ctx n = c

/-- Context `n` becomes `c` with its PC behind an instruction of `len` bytes. -/
def State.went (s : State) (n len : Nat) (c : Ctx) : State := s.setCtx n { c with pc := (c.pc + len) % 0x800000 }

/-- Context `n` becomes `c` with its PC at a word address. -/
def State.jumped (s : State) (n a : Nat) (c : Ctx) : State := s.setCtx n { c with pc := a / 4 * 4 % 0x800000 }

/-- A `b`-bit two's complement number widened to 32 bits. -/
def widen (b x : Nat) : Nat := if x < 2 ^ (b - 1) then x else x + 2 ^ 32 - 2 ^ b

/-- Every register of a list is even where W = 3 names pairs (R138). -/
def PairsEven (w : BitVec 2) (rs : List Reg) : Prop := w = 3 → ∀ r ∈ rs, r.val % 2 = 0

/-- The operand bit is `b`, and reading it leaves `t` (R139): the group of a hot bit has its parity, a DM operand lies
in DM, and its byte can be read. -/
def State.BitReads (s : State) (c : Ctx) (o : BitOperand) (b : Bool) (t : State) : Prop :=
  match o with
  | .hot i => b = (s.rd (Addr.seHot (i.toNat / 32))).getLsbD (i.toNat % 32) ∧ t = s ∧ s.parOk (hotUnit i.toNat) = true
  | .reg rb bit => b = (c.reg rb).testBit bit.toNat ∧ t = s
  | .dmBased rb bit disp =>
    let a := (c.reg rb + widen 13 disp.toNat) % 2 ^ 32
    a < 0x800000 ∧ ∃ x : Byte, s.dmRead .seData a 1 = (some [x], t) ∧ b = x.getLsbD bit.toNat
  | .dmAbs ba => ∃ x : Byte, s.dmRead .seData (ba.toNat / 8) 1 = (some [x], t) ∧ b = x.getLsbD (ba.toNat % 8)

/-- The operand bit written (R139, R141): a hot bit, a register bit, or one bit of a DM byte with every other bit of
the byte as it stands. What becomes of the machine and of the context. -/
def State.BitWrites (s : State) (n : Nat) (c : Ctx) (o : BitOperand) (v : Bool) (t : State) (d : Ctx) : Prop :=
  match o with
  | .hot i => t = (s.setBit (Addr.seHot (i.toNat / 32)) (i.toNat % 32) v).parHeal (hotUnit i.toNat) ∧ d = c
  | .reg rb bit =>
    t = s ∧ d = c.setReg rb ((c.reg rb) / 2 ^ (bit.toNat + 1) * 2 ^ (bit.toNat + 1) + b2n v * 2 ^ bit.toNat + c.reg rb % 2 ^ bit.toNat)
  | .dmBased rb bit disp =>
    let a := (c.reg rb + widen 13 disp.toNat) % 2 ^ 32
    a < 0x800000 ∧ t = s.seStore n a [byteBit (s.dmByteNow a) bit.toNat v] ∧ d = t.ctx n
  | .dmAbs ba => t = s.seStore n (ba.toNat / 8) [byteBit (s.dmByteNow (ba.toNat / 8)) (ba.toNat % 8) v] ∧ d = t.ctx n

/-- The value of the knot entry at LINE, and the state after its fetch and its literal reads (R145, R146, R150): the
header is in range, the literals and terms have no reserved bit, no INC bit lies at or beyond NLIT, the DM literals
lie in DM and touch at most 18 words. -/
def State.KnotReads (s : State) (line : BitVec 18) (v : Bool) (t : State) : Prop :=
  ∃ hd s1 ls off s2 terms off2 s3 vs,
    fetchNat 2 (line.toNat * 32) s = (some hd, s1) ∧ hd % 128 ≤ 64 ∧ hd / 256 % 16 ≤ 8 ∧ hd / 128 % 2 = 0 ∧ hd < 0x2000 ∧
    fetchLits (hd % 128) (line.toNat * 32 + 4) s1 = .ok ls off s2 ∧
    fetchTerms (hd / 256 % 16) (if off % 4 = 0 then off else off + 2) s2 = .ok terms off2 s3 ∧
    (∀ x ∈ terms, x.1 < 2 ^ (hd % 128)) ∧ (litWords ls).length ≤ 18 ∧ (∀ ba, Lit.dm ba ∈ ls → ba < 8 * 0x800000) ∧
    litVals s3 ls = (some vs, t) ∧
    (v = true ↔ ((∃ x ∈ terms, ∀ i < vs.length, x.1.testBit i = true → (vs.getD i false ^^ x.2.testBit i) = true) ↔
      hd.testBit 12 = false))

/-- The stack depth an instruction needs, and whether it pushes (R140, R142, R147, R151, R159, R172). -/
def stackNeed : Instr → Option (Nat × Bool)
  | .bitLd _ => some (0, true) | .bitLdn _ => some (0, true) | .bitAnd _ => some (1, false) | .bitAndn _ => some (1, false)
  | .bitOr _ => some (1, false) | .bitOrn _ => some (1, false) | .bitXor _ => some (1, false) | .bitXorn _ => some (1, false)
  | .bitSt _ => some (1, false) | .bitStn _ => some (1, false) | .bitStp _ => some (1, false) | .bitSet _ => some (1, false)
  | .bitRst _ => some (1, false) | .bitSetp _ => some (1, false) | .bitRstp _ => some (1, false)
  | .push0 => some (0, true) | .push1 => some (0, true) | .stkNot => some (1, false) | .dup => some (1, true)
  | .pop => some (1, false) | .ands => some (2, false) | .ors => some (2, false) | .xors => some (2, false)
  | .swap => some (2, false) | .pushc k => some (if k = 1 ∨ k = 2 then 1 else 0, true)
  | .knotPush _ => some (0, true) | .knotAnd _ => some (1, false) | .knotOr _ => some (1, false)
  | .edgeRising _ => some (1, false) | .edgeFalling _ => some (1, false) | .edgeBoth _ => some (1, false)
  | .br k _ => if k = 1 ∨ k = 2 then some (1, false) else none
  | _ => none

/-- Between `s` and `t` context `n` and the timer bank may differ, the parity of timer `k` is right, and nothing else
changes. -/
def State.OnlyTimers (s : State) (n k : Nat) (t : State) : Prop :=
  (∀ m, m ≠ n → t.ctx m = s.ctx m) ∧ t = { s with se := { s.se with
    ctxs := t.se.ctxs, tmb := t.se.tmb, parBad := s.se.parBad.filter (· ≠ tmbUnit k) } }

/-- A TIM call with entry mode `mode` left entry `e` and Q: the timer entry before it, set to FREE values first when
its mode or unit differs. -/
def freshTimer (e : Timer) (mode unit : Nat) : Timer :=
  if e.mode = mode ∧ e.unit = unit then e else { e with mode := mode, unit := unit, run := false, base := 0, start := 0, inp := false }

/-- A context with an integer result at width W and the flags Z, N, C and V (R133, R159). -/
def Ctx.result (c : Ctx) (w : BitVec 2) (sg : Bool) (rd : Reg) (r : Nat) (z n cy v : Bool) : Ctx :=
  ({ c with sw := withFlags c.sw ⟨z, n, cy, v⟩ } : Ctx).dst w sg rd r

/-- A context with the flags Z, N, C and V. -/
def Ctx.flagged (c : Ctx) (z n cy v : Bool) : Ctx := { c with sw := withFlags c.sw ⟨z, n, cy, v⟩ }

/-- C of a context. -/
def Ctx.carry (c : Ctx) : Bool := c.sw.getLsbD 2
/-- V of a context. -/
def Ctx.overflow (c : Ctx) : Bool := c.sw.getLsbD 3

/-- A `b`-bit number read as signed or unsigned. -/
def numOf (sg : Bool) (b x : Nat) : Int := if sg ∧ 2 ^ (b - 1) ≤ x then (x : Int) - 2 ^ b else x

/-- An integer fits `b` bits, signed or unsigned. -/
def Fits (sg : Bool) (b : Nat) (p : Int) : Prop :=
  if sg then -(2 ^ (b - 1) : Int) ≤ p ∧ p < 2 ^ (b - 1) else 0 ≤ p ∧ p < 2 ^ b

/-- The registers an instruction names as pairs (R138, R159, R164, R167, R175). -/
def pairsOf : Instr → List Reg
  | .aluAdd d a b w _ => if w = 3 then [d, a, b] else [] | .aluSub d a b w _ => if w = 3 then [d, a, b] else []
  | .aluAnd d a b w _ => if w = 3 then [d, a, b] else [] | .aluOr d a b w _ => if w = 3 then [d, a, b] else []
  | .aluXor d a b w _ => if w = 3 then [d, a, b] else [] | .aluMul d a b w _ => if w = 3 then [d, a, b] else []
  | .aluMulh d a b w _ => if w = 3 then [d, a, b] else [] | .aluDiv d a b w _ => if w = 3 then [d, a, b] else []
  | .aluRem d a b w _ => if w = 3 then [d, a, b] else [] | .aluMin d a b w _ => if w = 3 then [d, a, b] else []
  | .aluMax d a b w _ => if w = 3 then [d, a, b] else [] | .aluSel d a b w _ => if w = 3 then [d, a, b] else []
  | .aluShl d a b w _ => if w = 3 then [d, a, b] else [] | .aluShr d a b w _ => if w = 3 then [d, a, b] else []
  | .aluSar d a b w _ => if w = 3 then [d, a, b] else [] | .aluRol d a b w _ => if w = 3 then [d, a, b] else []
  | .aluRor d a b w _ => if w = 3 then [d, a, b] else [] | .aluCmp a b w _ => if w = 3 then [a, b] else []
  | .aluMov d a w _ => if w = 3 then [d, a] else [] | .aluNot d a w _ => if w = 3 then [d, a] else []
  | .aluNeg d a w _ => if w = 3 then [d, a] else [] | .aluAbs d a w _ => if w = 3 then [d, a] else []
  | .ldd d _ _ => [d] | .std d _ _ => [d]
  | .ldx f d _ => if f = 5 then [d] else [] | .stx f d _ => if f = 5 then [d] else []
  | .fadd d a b p => if p then [d, a, b] else [] | .fsub d a b p => if p then [d, a, b] else []
  | .fmul d a b p => if p then [d, a, b] else [] | .fdiv d a b p => if p then [d, a, b] else []
  | .fmin d a b p => if p then [d, a, b] else [] | .fmax d a b p => if p then [d, a, b] else []
  | .fsqrt d a p => if p then [d, a] else [] | .fabs d a p => if p then [d, a] else []
  | .fneg d a p => if p then [d, a] else [] | .fcmp a b p => if p then [a, b] else []
  | .fcvti _ a p => if p then [a] else [] | .ftrunc _ a p => if p then [a] else []
  | .fcvtl d a p => if p then [d, a] else [d] | .fcvtf d _ p => if p then [d] else []
  | .fcvtlf d a p => if p then [d, a] else [a] | .fcvtp d a p => if p then [d] else [a]
  | .qpop _ r => [r]
  | _ => []


/-- Between `s` and `t` DM, the words kept for damaged memory, and the dirty list of context `n` may differ, and
nothing else. -/
def State.OnlyStored (s : State) (n : Nat) (t : State) : Prop :=
  (∀ m, m ≠ n → t.ctx m = s.ctx m) ∧ (∃ l, t.ctx n = { s.ctx n with dirty := l }) ∧
    t = { s with dm := t.dm, miu := t.miu, se := { s.se with ctxs := t.se.ctxs } }

/-- No stored byte of the protected memories is damaged, and none waits in the splice buffer. -/
def State.Undamaged (s : State) : Prop :=
  s.miu.chk = [] ∧ s.miu.pchk = [] ∧ s.miu.qchk = [] ∧ s.miu.splice = [] ∧ s.miu.cache = []

/-- Gb + DISP in 32-bit arithmetic (R169). -/
def Ctx.based (c : Ctx) (rb : Reg) (disp : BitVec 15) : Nat := (c.reg rb + widen 15 disp.toNat) % 2 ^ 32

/-- The DM address and the width in bytes of a load or store (R167 to R169). -/
def accessOf (c : Ctx) : Instr → Option (Nat × Nat)
  | .ldb _ rb d => some (c.based rb d, 1) | .ldbs _ rb d => some (c.based rb d, 1)
  | .ldh _ rb d => some (c.based rb d, 2) | .ldhs _ rb d => some (c.based rb d, 2)
  | .ldw _ rb d => some (c.based rb d, 4) | .ldd rd rb d => if rd.val % 2 = 0 then some (c.based rb d, 8) else none
  | .stb _ rb d => some (c.based rb d, 1) | .sth _ rb d => some (c.based rb d, 2)
  | .stw _ rb d => some (c.based rb d, 4) | .std rd rb d => if rd.val % 2 = 0 then some (c.based rb d, 8) else none
  | .ldx f rd a => (loadWidth f rd).map fun k => (a.toNat, k)
  | .stx f rd a => (storeWidth f rd).map fun k => (a.toNat, k)
  | _ => none
where
  /-- The width of a load's FN; 64 bits need an even register. -/
  loadWidth (f : BitVec 3) (rd : Reg) : Option Nat :=
    if f = 0 ∨ f = 1 then some 1 else if f = 2 ∨ f = 3 then some 2 else if f = 4 then some 4
    else if f = 5 ∧ rd.val % 2 = 0 then some 8 else none
  /-- The width of a store's FN. -/
  storeWidth (f : BitVec 3) (rd : Reg) : Option Nat :=
    if f = 0 then some 1 else if f = 2 then some 2 else if f = 4 then some 4
    else if f = 5 ∧ rd.val % 2 = 0 then some 8 else none

/-- The host opcodes: opcode, exact payload length where there is one, request and payload (R75 to R84, R42). -/
def hostOp : Instr → Option (Nat × Option Nat × Req × Bytes)
  | .sysPing q p => some (0x0000, none, q, p) | .sysIdent q p => some (0x0001, some 0, q, p)
  | .sysStatus q p => some (0x0002, some 0, q, p) | .sysSessionOpen q p => some (0x0003, none, q, p)
  | .sysSessionClose q p => some (0x0004, some 0, q, p) | .sysStateSet q p => some (0x0005, some 1, q, p)
  | .sysRestart q p => some (0x0006, some 1, q, p) | .sysLockSet q p => some (0x0007, some 0, q, p)
  | .sysLockClear q p => some (0x0008, some 0, q, p) | .sysKeySet q p => some (0x0009, some 32, q, p)
  | .sysCounters q p => some (0x000A, some 1, q, p) | .regRead q p => some (0x0100, some 8, q, p)
  | .regWrite q p => some (0x0101, none, q, p) | .regModify q p => some (0x0102, some 12, q, p)
  | .regListRead q p => some (0x0103, none, q, p) | .regCommit q p => some (0x0104, some 4, q, p)
  | .regPoll q p => some (0x0105, some 16, q, p) | .queStatus q p => some (0x0D00, some 4, q, p)
  | .quePop q p => some (0x0D01, some 4, q, p) | .quePush q p => some (0x0D02, none, q, p)
  | .quePushPacket q p => some (0x0D03, none, q, p) | .queClear q p => some (0x0D04, some 4, q, p)
  | .seTaskStatus q p => some (0x0200, some 20, q, p) | .seTrigger q p => some (0x0201, some 1, q, p)
  | .seClearStats q p => some (0x0202, some 1, q, p) | .seShaftRead q p => some (0x0203, some 4, q, p)
  | .seChamberOpen q p => some (0x0210, some 0, q, p) | .seChamberWrite q p => some (0x0211, none, q, p)
  | .seChamberClose q p => some (0x0212, some 0, q, p) | .seSwapArm q p => some (0x0213, some 4, q, p)
  | .seSwapDisarm q p => some (0x0214, some 0, q, p) | .seSwapStatus q p => some (0x0215, some 0, q, p)
  | .ixeStatusRead q p => some (0x0300, some 2, q, p) | .ixePointRead q p => some (0x0301, some 2, q, p)
  | .ixeBaselineReset q p => some (0x0302, some 8, q, p) | .ixeBaselineLoad q p => some (0x0303, some 16, q, p)
  | .ixeStateClear q p => some (0x0304, some 2, q, p) | .ixeCounters q p => some (0x0305, some 1, q, p)
  | .fbpStatus q p => some (0x0400, some 2, q, p) | .fbpRecover q p => some (0x0401, some 1, q, p)
  | .fbpSend q p => some (0x0402, none, q, p) | .fbpCancel q p => some (0x0403, some 2, q, p)
  | .fbpTdr q p => some (0x0404, some 1, q, p) | .fbpCounters q p => some (0x0405, some 2, q, p)
  | .stnStatus q p => some (0x0500, some 3, q, p) | .stnRejoin q p => some (0x0501, some 2, q, p)
  | .stnMgmt q p => some (0x0502, none, q, p) | .stnStop q p => some (0x0503, some 2, q, p)
  | .stnCounters q p => some (0x0504, some 2, q, p) | .fioStatus q p => some (0x0600, some 8, q, p)
  | .fioGroupAck q p => some (0x0601, some 1, q, p) | .fioDiagClear q p => some (0x0602, some 1, q, p)
  | .fioLoadRead q p => some (0x0603, some 8, q, p) | .twlStatus q p => some (0x0700, some 0, q, p)
  | .twlJoin q p => some (0x0701, some 0, q, p) | .twlDetach q p => some (0x0702, some 0, q, p)
  | .twlSwitchover q p => some (0x0703, some 0, q, p) | .twlGoSolo q p => some (0x0704, some 0, q, p)
  | .twlEpochSet q p => some (0x0705, some 4, q, p) | .twlCounters q p => some (0x0706, some 1, q, p)
  | .miuStatus q p => some (0x0800, some 1, q, p) | .miuScrub q p => some (0x0801, some 12, q, p)
  | .miuScrubAbort q p => some (0x0802, some 0, q, p) | .miuRawRead q p => some (0x0803, some 8, q, p)
  | .miuRawWrite q p => some (0x0804, some 20, q, p) | .rsmStatus q p => some (0x0900, some 1, q, p)
  | .rsmFormat q p => some (0x0901, some 1, q, p) | .rsmRetainClear q p => some (0x0902, some 0, q, p)
  | .evrStatus q p => some (0x0A00, some 0, q, p) | .evrRead q p => some (0x0A01, some 8, q, p)
  | .evrFreeze q p => some (0x0A02, some 0, q, p) | .evrUnfreeze q p => some (0x0A03, some 0, q, p)
  | .evrClear q p => some (0x0A04, some 0, q, p) | .rtcRead q p => some (0x0B00, some 0, q, p)
  | .rtcSet q p => some (0x0B01, some 8, q, p) | .rtcTrim q p => some (0x0B02, some 2, q, p)
  | .wdtStatus q p => some (0x0B03, some 0, q, p) | .wdtService q p => some (0x0B04, some 0, q, p)
  | .wdtCheckin q p => some (0x0B05, some 1, q, p) | .updBegin q p => some (0x0C00, none, q, p)
  | .updData q p => some (0x0C01, none, q, p) | .updVerify q p => some (0x0C02, some 0, q, p)
  | .updActivate q p => some (0x0C03, some 4, q, p) | .updConfirm q p => some (0x0C04, some 0, q, p)
  | .updRevert q p => some (0x0C05, some 0, q, p) | .updStatus q p => some (0x0C06, some 0, q, p)
  | .updAbort q p => some (0x0C07, some 0, q, p) | .updStationActivate q p => some (0x0C08, some 2, q, p)
  | .ethStatus q p => some (0x0E00, some 1, q, p) | .ethConfig q p => some (0x0E01, some 20, q, p)
  | .ptpConfig q p => some (0x0E02, some 8, q, p) | .ptpStatus q p => some (0x0E03, some 0, q, p)
  | .ethCounters q p => some (0x0E04, some 2, q, p)
  | _ => none

/-! ### Words of the statements: the command interface -/

/-- Nothing holds the command back (R55), and no power-fail warning refuses it (R569). -/
def State.Starts (s : State) (q : Req) (op : Nat) : Prop := s.blocked q op = false ∧ s.locked op = false

/-- The state in which a command is carried out: it no longer waits, and it counts as outstanding. -/
def State.carry (s : State) (q : Req) : State := { s.unwait q with hpi := { (s.unwait q).hpi with busy := true } }

/-- The state once a command has been carried out. -/
def State.idle (s : State) : State := { s with hpi := { s.hpi with busy := false } }

/-- A started command is carried out: `t` is what it leaves of the state that carries it. -/
def State.Carries (s : State) (q : Req) (op : Nat) (i : Instr) (t : State) : Prop :=
  s.Starts q op → exec i s = .next t.idle

/-- A register group in byte order. -/
def regsBytes (s : State) (as : List Nat) : Bytes := as.flatMap fun a => wordBytes (s.rd a)

end Sys2Proof.Machine
end

