-- ==== Sys2Proof/Certificates/Slice0/Obligations.lean ====
section
/-! DEFINITION. The statements for the provers. Their words (an executing context, what an operand reads, how a
host command starts and is answered) are those of Safety. -/

open Sys2Proof Sys2Proof.Machine

/-! ### The whole block -/

/-- One step takes the command at the front of the queue and runs it with the rest of the queue. -/
def Obligations.StepRunsTheFrontCommand : Prop :=
  ∀ (c : Instr) (rest : List Instr) (s : State),
    step { s with pending := c :: rest } = exec c { s with pending := rest }

/-- The state after reset meets the invariant that every step keeps. -/
def Obligations.ResetMeetsTheInvariant : Prop := State.reset.Inv

/-- Every step keeps the canonical form of the register map, of PM, DM, the MRAM and both images, at most eight
sessions with slots of their own, and at most 64 held event records. -/
def Obligations.EveryStepKeepsTheInvariant : Prop := ∀ s t : State, s.Inv → step s = .next t → t.Inv

/-- Every command but a PIN_RESET of 100 ns to 1 µs answers a next state; it leaves the queue of waiting commands, and
its counters of free values and session nonces never fall. -/
def Obligations.EveryCommandAnswersAndNeverRereadsFreeValues : Prop :=
  ∀ (i : Instr) (s : State), (∀ ns straps, i = .pinReset ns straps → ¬(100 ≤ ns ∧ ns < 1000)) →
    ∃ t, exec i s = .next t ∧ t.pending = s.pending ∧ s.freeN ≤ t.freeN ∧ s.hpi.nonces ≤ t.hpi.nonces

/-! ### The scan engine: instructions -/

/-- LD and LDN push the operand bit or its inverse; the six others combine the top with it (R140). A hot bit whose
group fails its parity is an integrity error instead (R182). The STK functions (R142). -/
def Obligations.BitLoadsAndStackFunctions : Prop :=
  (∀ (s t : State) (n : Nat) (c : Ctx) (o : BitOperand) (b : Bool), s.Runs n c → s.BitReads c o b t →
     (c.stk.length ≤ 31 →
       exec (.bitLd o) s = .next (t.went n (bitLen o) { c with stk := b :: c.stk }) ∧
       exec (.bitLdn o) s = .next (t.went n (bitLen o) { c with stk := (!b) :: c.stk })) ∧
     (∀ x r, c.stk = x :: r → r.length ≤ 31 →
       exec (.bitAnd o) s = .next (t.went n (bitLen o) { c with stk := (x && b) :: r }) ∧
       exec (.bitAndn o) s = .next (t.went n (bitLen o) { c with stk := (x && !b) :: r }) ∧
       exec (.bitOr o) s = .next (t.went n (bitLen o) { c with stk := (x || b) :: r }) ∧
       exec (.bitOrn o) s = .next (t.went n (bitLen o) { c with stk := (x || !b) :: r }) ∧
       exec (.bitXor o) s = .next (t.went n (bitLen o) { c with stk := (x ^^ b) :: r }) ∧
       exec (.bitXorn o) s = .next (t.went n (bitLen o) { c with stk := (x ^^ !b) :: r })) ∧
     (∀ i : BitVec 13, s.parOk (hotUnit i.toNat) = false → 1 ≤ c.stk.length → c.stk.length ≤ 31 →
       let h := BitOperand.hot i
       ∀ j ∈ [Instr.bitLd h, .bitLdn h, .bitAnd h, .bitAndn h, .bitOr h, .bitOrn h, .bitXor h, .bitXorn h],
         exec j s = .next (s.integrity n 1))) ∧
  (∀ (s : State) (n : Nat) (c : Ctx), s.Runs n c →
     (c.stk.length ≤ 31 →
       exec .push0 s = .next (s.went n 4 { c with stk := false :: c.stk }) ∧
       exec .push1 s = .next (s.went n 4 { c with stk := true :: c.stk }) ∧
       (∀ k b, c.cond k = some b → exec (.pushc k) s = .next (s.went n 4 { c with stk := b :: c.stk }))) ∧
     (c.stk.length ≤ 32 → exec .stkClr s = .next (s.went n 4 { c with stk := [] })) ∧
     (∀ x r, c.stk = x :: r → r.length ≤ 31 →
       exec .stkNot s = .next (s.went n 4 { c with stk := (!x) :: r }) ∧
       exec .pop s = .next (s.went n 4 { c with stk := r }) ∧
       (r.length ≤ 30 → exec .dup s = .next (s.went n 4 { c with stk := x :: x :: r }))) ∧
     (∀ x y r, c.stk = x :: y :: r → r.length ≤ 30 →
       exec .ands s = .next (s.went n 4 { c with stk := (y && x) :: r }) ∧
       exec .ors s = .next (s.went n 4 { c with stk := (y || x) :: r }) ∧
       exec .xors s = .next (s.went n 4 { c with stk := (y ^^ x) :: r }) ∧
       exec .swap s = .next (s.went n 4 { c with stk := y :: x :: r })))

/-- ST, STN and STP write the top, or its inverse, to the operand bit; SET and RST write 1 or 0 when the top is 1 and
write nothing when it is 0; the P forms pop (R140, R141). A hot bit written has a right parity again (the model's
choice, log entry 116). -/
def Obligations.BitStoresWriteOneBit : Prop :=
  ∀ (s : State) (n : Nat) (c : Ctx) (o : BitOperand) (x : Bool) (r : List Bool), s.Runs n c → c.stk = x :: r →
    r.length ≤ 31 →
    (∀ t d, s.BitWrites n c o x t d →
      exec (.bitSt o) s = .next (t.went n (bitLen o) d) ∧
      exec (.bitStp o) s = .next (t.went n (bitLen o) { d with stk := r })) ∧
    (∀ t d, s.BitWrites n c o (!x) t d → exec (.bitStn o) s = .next (t.went n (bitLen o) d)) ∧
    (∀ t d, s.BitWrites n c o true t d → x = true →
      exec (.bitSet o) s = .next (t.went n (bitLen o) d) ∧
      exec (.bitSetp o) s = .next (t.went n (bitLen o) { d with stk := r })) ∧
    (∀ t d, s.BitWrites n c o false t d → x = true →
      exec (.bitRst o) s = .next (t.went n (bitLen o) d) ∧
      exec (.bitRstp o) s = .next (t.went n (bitLen o) { d with stk := r })) ∧
    (∀ t d v, s.BitWrites n c o v t d → x = false →
      exec (.bitSet o) s = .next (s.went n (bitLen o) c) ∧ exec (.bitRst o) s = .next (s.went n (bitLen o) c) ∧
      exec (.bitSetp o) s = .next (s.went n (bitLen o) { c with stk := r }) ∧
      exec (.bitRstp o) s = .next (s.went n (bitLen o) { c with stk := r }))

/-- KNOT combines the value of its entry with the stack by MODE; an entry with NLIT above 64, NTERM above 8 or a
reserved header bit raises the KNOT trap (R145 to R147, R150). -/
def Obligations.KnotEvaluatesItsEntry : Prop :=
  ∀ (s : State) (n : Nat) (c : Ctx) (line : BitVec 18), s.Runs n c →
    (∀ v t, s.KnotReads line v t →
      (c.stk.length ≤ 31 → exec (.knotPush line) s = .next (t.went n 4 { c with stk := v :: c.stk })) ∧
      (∀ x r, c.stk = x :: r → r.length ≤ 31 →
        exec (.knotAnd line) s = .next (t.went n 4 { c with stk := (x && v) :: r }) ∧
        exec (.knotOr line) s = .next (t.went n 4 { c with stk := (x || v) :: r }))) ∧
    (∀ hd s1, fetchNat 2 (line.toNat * 32) s = (some hd, s1) →
      64 < hd % 128 ∨ 8 < hd / 256 % 16 ∨ hd / 128 % 2 = 1 ∨ 0x2000 ≤ hd →
      (c.stk.length ≤ 31 → exec (.knotPush line) s = .next (s.trap n 5 line.toNat 0)) ∧
      (1 ≤ c.stk.length → c.stk.length ≤ 32 → exec (.knotAnd line) s = .next (s.trap n 5 line.toNat 0) ∧
        exec (.knotOr line) s = .next (s.trap n 5 line.toNat 0)))

/-- EDGE answers 0 from a cell that is not primed and the edge of the top against PREV from a primed one; the cell
takes the top and is primed. UNPRIME clears the cell, leaves the stack (R151), and leaves the cell's group with a
right parity (the model's choice, log entry 116). A cell whose group fails its parity is an integrity error for EDGE
(R182). TON, TOF and TP on an entry of good parity take the top as IN, start, stop and read the timer as R155 says,
replace the top with Q, write min(ELAPSED, PT) to Gd, and change nothing but their context and their timer. An entry
that fails its parity is an integrity error instead (R182). TRST stops the timer, writes 0 to Gd (R156), and leaves
the entry with a right parity (the model's choice, log entry 116). -/
def Obligations.EdgesAndTimersFollowTheirCells : Prop :=
  (∀ (s : State) (n : Nat) (c : Ctx) (cell : BitVec 16), s.Runs n c →
     (∀ x r, c.stk = x :: r → r.length ≤ 31 → s.parOk (edgeUnit cell.toNat) = true →
       let e := sget 0 s.se.edge cell.toNat
       let primed := e.getLsbD 1
       let prev := e.getLsbD 0
       let put (v : BitVec 2) : State := { s with se := { s.se with edge := sput 0 s.se.edge cell.toNat v } }
       let t := put (if x then 3 else 2)
       exec (.edgeRising cell) s = .next (t.went n 4 { c with stk := (primed && (x && !prev)) :: r }) ∧
       exec (.edgeFalling cell) s = .next (t.went n 4 { c with stk := (primed && (prev && !x)) :: r }) ∧
       exec (.edgeBoth cell) s = .next (t.went n 4 { c with stk := (primed && (x ^^ prev)) :: r })) ∧
     (1 ≤ c.stk.length → c.stk.length ≤ 32 → s.parOk (edgeUnit cell.toNat) = false →
       ∀ i ∈ [Instr.edgeRising cell, .edgeFalling cell, .edgeBoth cell], exec i s = .next (s.integrity n 1)) ∧
     exec (.unprime cell) s =
       .next ((({ s with se := { s.se with edge := sput 0 s.se.edge cell.toNat 0 } } : State).parHeal (edgeUnit cell.toNat)).went n 4 c)) ∧
  (∀ (s : State) (n : Nat) (c : Ctx) (op : TimOperand) (t : Nat) (x : Bool) (r : List Bool), s.Runs n c →
     c.stk = x :: r → r.length ≤ 31 → op.unit ≠ 3 →
     let pt := match op.pt with | .reg ra => c.reg ra | .ext v => v.toNat
     let len := match op.pt with | .reg _ => 4 | .ext _ => 8
     let now := (s.at t).utick
     let call (mode : Nat) (i : Instr) (rule : Timer → Timer → Bool → Prop) : Prop :=
       (s.parOk (tmbUnit op.timer.toNat) = false → exec i s = .next ((s.at t).integrity n 1)) ∧
       (s.parOk (tmbUnit op.timer.toNat) = true → ∃ u e q l, exec i s = .next u ∧ (s.at t).OnlyTimers n op.timer.toNat u ∧ u.timer op.timer.toNat = e ∧
         (∀ k, k ≠ op.timer.toNat → u.timer k = s.timer k) ∧
         u.ctx n = ({ c with stk := q :: r, dirtyT := l, pc := (c.pc + len) % 0x800000 } : Ctx).setReg op.rd (min (e.elapsed now) pt) ∧
         e.mode = mode ∧ e.unit = op.unit.toNat ∧ e.inp = x ∧ e.mir = (s.timer op.timer.toNat).mir ∧
         rule (freshTimer (s.timer op.timer.toNat) mode op.unit.toNat) e q)
     call 1 (.timTon op t) (fun o e q =>
       (x = false → e.run = false ∧ e.elapsed now = 0) ∧
       (x = true → e.run = true ∧ e.elapsed now = if o.run then o.elapsed now else 0) ∧
       q = (x && decide (pt ≤ e.elapsed now))) ∧
     call 2 (.timTof op t) (fun o e q =>
       (x = true → e.run = false ∧ e.elapsed now = 0) ∧
       (x = false → o.inp = true → e.run = true ∧ e.elapsed now = 0) ∧
       (x = false → o.inp = false → e.run = o.run ∧ e.elapsed now = o.elapsed now) ∧
       q = (x || (e.run && decide (e.elapsed now < pt)))) ∧
     call 3 (.timTp op t) (fun o e q =>
       (o.run = false → x = true → o.inp = false → e.run = true ∧ e.elapsed now = 0) ∧
       (o.run = true → x = false → pt ≤ o.elapsed now → e.run = false ∧ e.elapsed now = 0) ∧
       (o.run = false → (x = false ∨ o.inp = true) → e.run = false ∧ e.elapsed now = o.elapsed now) ∧
       (o.run = true → (x = true ∨ o.elapsed now < pt) → e.run = true ∧ e.elapsed now = o.elapsed now) ∧
       q = (e.run && decide (e.elapsed now < pt))) ∧
     (∀ rd k, ∃ u e l, exec (.trst rd k) s = .next u ∧ s.OnlyTimers n k.toNat u ∧ u.timer k.toNat = e ∧
       (∀ j, j ≠ k.toNat → u.timer j = s.timer j) ∧ e.run = false ∧ e.inp = false ∧ e.elapsed s.utick = 0 ∧
       e.mode = (s.timer k.toNat).mode ∧ e.unit = (s.timer k.toNat).unit ∧ e.mir = (s.timer k.toNat).mir ∧
       u.ctx n = ({ c with dirtyT := l, pc := (c.pc + 4) % 0x800000 } : Ctx).setReg rd 0))

/-- An instruction that needs more stack entries than there are, or would push a 33rd, raises the STACK trap (R143);
UNIT 3 of TIM is ILLEGAL before it (R138, R181). An odd register wherever a pair is named raises ILLEGAL (R138). A
load or store with a byte above 0x7F_FFFF raises ADDR with its address; one inside DM that is not a multiple of its
width raises ALIGN (R169, R181). -/
def Obligations.TrapsOfStackPairsAndAddresses : Prop :=
  (∀ (s : State) (n : Nat) (c : Ctx), s.Runs n c →
     (∀ i lo push, stackNeed i = some (lo, push) → c.stk.length < lo ∨ (push = true ∧ 32 ≤ c.stk.length) →
       exec i s = .next (s.trap n 2 0 0)) ∧
     (∀ op t, c.stk = [] → op.unit ≠ 3 →
       exec (.timTon op t) s = .next ((s.at t).trap n 2 0 0) ∧ exec (.timTof op t) s = .next ((s.at t).trap n 2 0 0) ∧
       exec (.timTp op t) s = .next ((s.at t).trap n 2 0 0)) ∧
     (∀ op t, op.unit = 3 →
       exec (.timTon op t) s = .next ((s.at t).trap n 1 0 0) ∧ exec (.timTof op t) s = .next ((s.at t).trap n 1 0 0) ∧
       exec (.timTp op t) s = .next ((s.at t).trap n 1 0 0))) ∧
  (∀ (s : State) (n : Nat) (c : Ctx) (i : Instr) (r : Reg), s.Runs n c → r ∈ pairsOf i → r.val % 2 = 1 →
     exec i s = .next (s.trap n 1 0 0)) ∧
  (∀ (s : State) (n : Nat) (c : Ctx) (i : Instr) (a k : Nat), s.Runs n c → accessOf c i = some (a, k) →
     (0x800000 < a + k → exec i s = .next (s.trap n 3 a 0)) ∧
     (a + k ≤ 0x800000 → a % k ≠ 0 → exec i s = .next (s.trap n 4 a 0)))

/-- A trap writes SE_TRAP, SE_TRAP_PC and SE_TRAP_ADDR together, adds 1 to SE_TRAP_CNT and records EV 0x085; CTX0
starts again at its entry, CTX1 to CTX7 lead to FAULT with EV 0x086, every other instance is aborted (R181). TRAP and
a reserved instruction raise it; a word that is not reserved is not that event. NOP only goes on. FENCE goes on with
no splice entry left, so that every earlier store lies in memory (R134, R430). END makes the stores visible, closes
the packets of the instance, and completes it: CTX0 starts again, an instance without output lines is complete at
once, any other is PUBLISHING (R89, R108, R174). -/
def Obligations.TrapsAreRecordedAndInstancesEnd : Prop :=
  (∀ (s : State) (n : Nat) (c : Ctx), s.Runs n c →
     let recorded (cause addr code : Nat) : State :=
       ((((s.wr Addr.seTrap (BitVec.ofNat 32 (cause + n * 256 + code * 65536))).wr Addr.seTrapPc (BitVec.ofNat 32 c.pc)).wr
         Addr.seTrapAddr (BitVec.ofNat 32 addr)).inc Addr.seTrapCnt).ev 0x085 (cause + n * 256 + code * 65536)
     let after (cause : Nat) (r : State) : State :=
       if n = 0 then
         r.setCtx 0 { c with pc := (bitsOf (s.lv (Addr.ctxEntry 0)) 22 2) * 4, stk := [], sw := 0, cut := [], first := false }
       else if n < 8 then (r.ev 0x086 (n + cause * 256)).enterFault 0x086
       else r.abort n
     (∀ code, exec (.trapInsn code) s = .next (after 6 (recorded 6 0 code.toNat))) ∧
     (∀ w ext, reservedWord w ext = true → exec (.reservedInstruction w ext) s = .next (after 1 (recorded 1 0 0))) ∧
     (∀ w ext, reservedWord w ext = false → exec (.reservedInstruction w ext) s = .next s)) ∧
  (∀ (s : State) (n : Nat) (c : Ctx), s.Runs n c →
     exec .nop s = .next (s.went n 4 c) ∧
     (∃ t, exec .fence s = .next t ∧ t.miu.splice = [] ∧ t.se = (s.went n 4 c).se) ∧
     (∀ t, let u := (s.at t).fence.closeOpen n false
       exec (.endInsn t) s = .next (
         if n = 0 then u.restart0
         else
           let v := u.onCtx n fun d => { d with pc := (d.pc + 4) % 0x800000 }
           if v.mapLines n true = [] then v.complete n
           else (v.onCtx n fun d => { d with st := .publishing }).dispatch)))

/-- ADD, SUB, CMP, NEG, ADDI and CMPI wrap at the width; C is the carry out, or no borrow; V is signed overflow: the
operands of an addition agree in sign and the result does not (R159, R160, R162). AND, OR and XOR set Z and N and
clear C and V; NOT and the immediate forms set Z and N alone; the moves and immediate loads change no flag (R159,
R162, R163). -/
def Obligations.AdditionAndLogicSetTheirFlags : Prop :=
  (∀ (s : State) (n : Nat) (c : Ctx) (rd ra rb : Reg) (w : BitVec 2) (sg : Bool) (imm : BitVec 16), s.Runs n c →
     let b := 8 * 2 ^ w.toNat
     let h := 2 ^ (b - 1)
     let x := c.src w ra
     let y := c.src w rb
     let sum := (x + y) % 2 ^ b
     let diff := (x + 2 ^ b - y) % 2 ^ b
     let neg := (2 ^ b - x) % 2 ^ b
     let g := c.reg rd
     let i := widen 16 imm.toNat
     let sumI := (g + i) % 2 ^ 32
     let diffI := (g + 2 ^ 32 - i) % 2 ^ 32
     (PairsEven w [rd, ra, rb] →
       exec (.aluAdd rd ra rb w sg) s = .next (s.went n 4 (c.result w sg rd sum (sum = 0) (h ≤ sum) (2 ^ b ≤ x + y)
         (decide ((h ≤ x ↔ h ≤ y) ∧ ¬(h ≤ sum ↔ h ≤ x))))) ∧
       exec (.aluSub rd ra rb w sg) s = .next (s.went n 4 (c.result w sg rd diff (diff = 0) (h ≤ diff) (y ≤ x)
         (decide (¬(h ≤ x ↔ h ≤ y) ∧ ¬(h ≤ diff ↔ h ≤ x)))))) ∧
     (PairsEven w [ra, rb] →
       exec (.aluCmp ra rb w sg) s = .next (s.went n 4 (c.flagged (diff = 0) (h ≤ diff) (y ≤ x)
         (decide (¬(h ≤ x ↔ h ≤ y) ∧ ¬(h ≤ diff ↔ h ≤ x)))))) ∧
     (PairsEven w [rd, ra] →
       exec (.aluNeg rd ra w sg) s = .next (s.went n 4 (c.result w sg rd neg (x = 0) (h ≤ neg) (x = 0) (x = h)))) ∧
     exec (.addi rd imm) s = .next (s.went n 4 (c.result 2 false rd sumI (sumI = 0) (2 ^ 31 ≤ sumI) (2 ^ 32 ≤ g + i)
       (decide ((2 ^ 31 ≤ g ↔ 2 ^ 31 ≤ i) ∧ ¬(2 ^ 31 ≤ sumI ↔ 2 ^ 31 ≤ g))))) ∧
     exec (.cmpi rd imm) s = .next (s.went n 4 (c.flagged (diffI = 0) (2 ^ 31 ≤ diffI) (i ≤ g)
       (decide (¬(2 ^ 31 ≤ g ↔ 2 ^ 31 ≤ i) ∧ ¬(2 ^ 31 ≤ diffI ↔ 2 ^ 31 ≤ g)))))) ∧
  (∀ (s : State) (n : Nat) (c : Ctx) (rd ra rb : Reg) (w : BitVec 2) (sg : Bool) (imm : BitVec 16) (v : Word), s.Runs n c →
     let b := 8 * 2 ^ w.toNat
     let x := c.src w ra
     let y := c.src w rb
     let g := c.reg rd
     let i := imm.toNat
     (PairsEven w [rd, ra, rb] →
       exec (.aluAnd rd ra rb w sg) s =
         .next (s.went n 4 (c.result w sg rd (x &&& y) (x &&& y = 0) (2 ^ (b - 1) ≤ x &&& y) false false)) ∧
       exec (.aluOr rd ra rb w sg) s =
         .next (s.went n 4 (c.result w sg rd (x ||| y) (x ||| y = 0) (2 ^ (b - 1) ≤ x ||| y) false false)) ∧
       exec (.aluXor rd ra rb w sg) s =
         .next (s.went n 4 (c.result w sg rd (x ^^^ y) (x ^^^ y = 0) (2 ^ (b - 1) ≤ x ^^^ y) false false))) ∧
     (PairsEven w [rd, ra] →
       exec (.aluNot rd ra w sg) s = .next (s.went n 4 (c.result w sg rd (2 ^ b - 1 - x) (x = 2 ^ b - 1) (x < 2 ^ (b - 1))
         c.carry c.overflow)) ∧
       exec (.aluMov rd ra w sg) s = .next (s.went n 4 (c.dst w sg rd x))) ∧
     exec (.andi rd imm) s = .next (s.went n 4 (c.result 2 false rd (g &&& i) (g &&& i = 0) false c.carry c.overflow)) ∧
     exec (.ori rd imm) s = .next (s.went n 4 (c.result 2 false rd (g ||| i) (g ||| i = 0) (2 ^ 31 ≤ g) c.carry c.overflow)) ∧
     exec (.xori rd imm) s = .next (s.went n 4 (c.result 2 false rd (g ^^^ i) (g = i) (2 ^ 31 ≤ g) c.carry c.overflow)) ∧
     exec (.ldil rd imm) s = .next (s.went n 4 (c.setReg rd i)) ∧
     exec (.ldih rd imm) s = .next (s.went n 4 (c.setReg rd (i * 65536 + g % 65536))) ∧
     exec (.ldi rd v) s = .next (s.went n 8 (c.setReg rd v.toNat)))

/-- Shifts and rotations bit by bit: a count at or above the width gives 0, or all sign bits; C is the last bit
shifted out and 0 for a count of 0; V is unchanged, and rotations leave C too. IMM[15:5] of the immediate shifts must
be 0 (R138, R159, R160, R162). -/
def Obligations.ShiftsAndRotationsMoveBits : Prop :=
  ∀ (s : State) (n : Nat) (c : Ctx) (rd ra rb : Reg) (w : BitVec 2) (sg : Bool) (imm : BitVec 16), s.Runs n c →
    let b := 8 * 2 ^ w.toNat
    let x := c.src w ra
    let k := c.reg rb % 64
    let g := c.reg rd
    let i := imm.toNat
    let res (r : Nat) (cy : Bool) : Host.Outcome State Fault Refusal :=
      .next (s.went n 4 (c.result w sg rd r (r = 0) (r.testBit (b - 1)) cy c.overflow))
    let resI (r : Nat) (cy : Bool) : Host.Outcome State Fault Refusal :=
      .next (s.went n 4 (c.result 2 false rd r (r = 0) (r.testBit 31) cy c.overflow))
    (PairsEven w [rd, ra, rb] →
      (∃ r, r < 2 ^ b ∧ (∀ j, j < b → r.testBit j = (decide (k ≤ j) && x.testBit (j - k))) ∧
        exec (.aluShl rd ra rb w sg) s = res r (decide (1 ≤ k ∧ k ≤ b) && x.testBit (b - k))) ∧
      (∃ r, r < 2 ^ b ∧ (∀ j, r.testBit j = x.testBit (j + k)) ∧
        exec (.aluShr rd ra rb w sg) s = res r (decide (1 ≤ k) && x.testBit (k - 1))) ∧
      (∃ r, r < 2 ^ b ∧ (∀ j, j < b → r.testBit j = x.testBit (min (j + k) (b - 1))) ∧
        exec (.aluSar rd ra rb w sg) s = res r (decide (1 ≤ k) && x.testBit (min (k - 1) (b - 1)))) ∧
      (∃ r, r < 2 ^ b ∧ (∀ j, j < b → r.testBit ((j + k) % b) = x.testBit j) ∧
        exec (.aluRol rd ra rb w sg) s = res r c.carry) ∧
      (∃ r, r < 2 ^ b ∧ (∀ j, j < b → r.testBit j = x.testBit ((j + k) % b)) ∧
        exec (.aluRor rd ra rb w sg) s = res r c.carry)) ∧
    (i < 32 →
      exec (.shli rd imm) s = resI (g * 2 ^ i % 2 ^ 32) (decide (1 ≤ i) && g.testBit (32 - i)) ∧
      exec (.shri rd imm) s = resI (g / 2 ^ i) (decide (1 ≤ i) && g.testBit (i - 1)) ∧
      (∃ r, r < 2 ^ 32 ∧ (∀ j, j < 32 → r.testBit j = g.testBit (min (j + i) 31)) ∧
        exec (.sari rd imm) s = resI r (decide (1 ≤ i) && g.testBit (i - 1)))) ∧
    (32 ≤ i → exec (.shli rd imm) s = .next (s.trap n 1 0 0) ∧ exec (.shri rd imm) s = .next (s.trap n 1 0 0) ∧
      exec (.sari rd imm) s = .next (s.trap n 1 0 0))

/-- MUL, MULH, DIV, REM, MIN, MAX, ABS, SEL and MULI over the signed or unsigned values of their operands: the result
is congruent to the exact one, V says that the exact one does not fit, division by zero writes 0 or the dividend and
sets DZ (R159 to R162). -/
def Obligations.MultiplyDivideAndSelect : Prop :=
  ∀ (s : State) (n : Nat) (c : Ctx) (rd ra rb : Reg) (w : BitVec 2) (sg : Bool) (imm : BitVec 16), s.Runs n c →
    let b := 8 * 2 ^ w.toNat
    let x := c.src w ra
    let y := c.src w rb
    let X := numOf sg b x
    let Y := numOf sg b y
    let neg (r : Nat) : Bool := decide (2 ^ (b - 1) ≤ r)
    let dz (d : Ctx) : Ctx := { d with sw := sticky d.sw 4 }
    (PairsEven w [rd, ra, rb] →
      (∃ (r : Nat) (v : Bool), r < 2 ^ b ∧ (2 ^ b : Int) ∣ (r : Int) - X * Y ∧ (v = false ↔ Fits sg b (X * Y)) ∧
        exec (.aluMul rd ra rb w sg) s = .next (s.went n 4 (c.result w sg rd r (r = 0) (neg r) false v))) ∧
      (∃ r : Nat, r < 2 ^ b ∧ (2 ^ b : Int) ∣ (r : Int) - X * Y / 2 ^ b ∧
        exec (.aluMulh rd ra rb w sg) s = .next (s.went n 4 (c.result w sg rd r (r = 0) (neg r) false false))) ∧
      (y ≠ 0 → ∃ (r : Nat) (v : Bool), r < 2 ^ b ∧ (2 ^ b : Int) ∣ (r : Int) - Int.tdiv X Y ∧ (v = false ↔ Fits sg b (Int.tdiv X Y)) ∧
        exec (.aluDiv rd ra rb w sg) s = .next (s.went n 4 (c.result w sg rd r (r = 0) (neg r) c.carry v))) ∧
      (y ≠ 0 → ∃ r : Nat, r < 2 ^ b ∧ (2 ^ b : Int) ∣ (r : Int) - Int.tmod X Y ∧
        exec (.aluRem rd ra rb w sg) s = .next (s.went n 4 (c.result w sg rd r (r = 0) (neg r) c.carry c.overflow))) ∧
      (y = 0 →
        exec (.aluDiv rd ra rb w sg) s =
          .next (s.went n 4 ((dz (c.flagged true false c.carry false)).dst w sg rd 0)) ∧
        exec (.aluRem rd ra rb w sg) s =
          .next (s.went n 4 ((dz (c.flagged (x = 0) (neg x) c.carry false)).dst w sg rd x))) ∧
      (X ≤ Y → exec (.aluMin rd ra rb w sg) s = .next (s.went n 4 (c.result w sg rd x (x = 0) (neg x) c.carry c.overflow)) ∧
        exec (.aluMax rd ra rb w sg) s = .next (s.went n 4 (c.result w sg rd y (y = 0) (neg y) c.carry c.overflow))) ∧
      (Y < X → exec (.aluMin rd ra rb w sg) s = .next (s.went n 4 (c.result w sg rd y (y = 0) (neg y) c.carry c.overflow)) ∧
        exec (.aluMax rd ra rb w sg) s = .next (s.went n 4 (c.result w sg rd x (x = 0) (neg x) c.carry c.overflow))) ∧
      (∀ t q, c.stk = t :: q → q.length ≤ 31 →
        exec (.aluSel rd ra rb w sg) s = .next (s.went n 4 { c.dst w sg rd (if t then x else y) with stk := q })) ∧
      (c.stk = [] → exec (.aluSel rd ra rb w sg) s = .next (s.trap n 2 0 0))) ∧
    (PairsEven w [rd, ra] →
      (sg = false → exec (.aluAbs rd ra w sg) s = .next (s.went n 4 (c.result w sg rd x (x = 0) (neg x) c.carry false))) ∧
      (sg = true → ∃ r : Nat, (r : Int) = |X| ∧
        exec (.aluAbs rd ra w sg) s = .next (s.went n 4 (c.result w sg rd r (r = 0) (neg r) c.carry (x = 2 ^ (b - 1)))))) ∧
    (∃ (r : Nat) (v : Bool), r < 2 ^ 32 ∧ (2 ^ 32 : Int) ∣ (r : Int) - numOf true 32 (c.reg rd) * numOf true 16 imm.toNat ∧
      (v = false ↔ Fits true 32 (numOf true 32 (c.reg rd) * numOf true 16 imm.toNat)) ∧
      exec (.muli rd imm) s = .next (s.went n 4 (c.result 2 false rd r (r = 0) (2 ^ 31 ≤ r) c.carry v)))

/-- Loads: the bytes at the address, zero- or sign-extended to 32 bits, or a pair; LDX takes its address and FN from
the instruction; no flag changes (R167 to R169). A word that cannot be rebuilt is an integrity error instead. -/
def Obligations.LoadsWriteTheirRegister : Prop :=
  ∀ (s : State) (n : Nat) (c : Ctx) (rd rb : Reg) (disp : BitVec 15) (addr : Word), s.Runs n c →
    let loads (i : Instr) (len a k : Nat) (d : Nat → Ctx) : Prop :=
      a + k ≤ 0x800000 → a % k = 0 →
        (∀ bs t, s.dmRead .seData a k = (some bs, t) → exec i s = .next (t.went n len (d (leNat bs)))) ∧
        (∀ t, s.dmRead .seData a k = (none, t) → exec i s = .next (t.integrity n 1))
    let a := c.based rb disp
    let x := addr.toNat
    loads (.ldb rd rb disp) 4 a 1 (c.setReg rd ·) ∧ loads (.ldbs rd rb disp) 4 a 1 (fun v => c.setReg rd (widen 8 v)) ∧
    loads (.ldh rd rb disp) 4 a 2 (c.setReg rd ·) ∧ loads (.ldhs rd rb disp) 4 a 2 (fun v => c.setReg rd (widen 16 v)) ∧
    loads (.ldw rd rb disp) 4 a 4 (c.setReg rd ·) ∧ (rd.val % 2 = 0 → loads (.ldd rd rb disp) 4 a 8 (c.setPair rd ·)) ∧
    loads (.ldx 0 rd addr) 8 x 1 (c.setReg rd ·) ∧ loads (.ldx 1 rd addr) 8 x 1 (fun v => c.setReg rd (widen 8 v)) ∧
    loads (.ldx 2 rd addr) 8 x 2 (c.setReg rd ·) ∧ loads (.ldx 3 rd addr) 8 x 2 (fun v => c.setReg rd (widen 16 v)) ∧
    loads (.ldx 4 rd addr) 8 x 4 (c.setReg rd ·) ∧ (rd.val % 2 = 0 → loads (.ldx 5 rd addr) 8 x 8 (c.setPair rd ·)) ∧
    exec (.ldx 6 rd addr) s = .next (s.trap n 1 0 0) ∧ exec (.ldx 7 rd addr) s = .next (s.trap n 1 0 0)

/-- Stores write the low bytes of their register, or a pair, at the address and change no other byte of memory, no
register and no flag; a byte outside them reads as before unless it shares a damaged page with them (R167 to R169,
R429). -/
def Obligations.StoresWriteTheirBytesOnly : Prop :=
  ∀ (s : State) (n : Nat) (c : Ctx) (rd rb : Reg) (disp : BitVec 15) (addr : Word), s.Runs n c →
    let stores (i : Instr) (len a k v : Nat) : Prop :=
      a + k ≤ 0x800000 → a % k = 0 →
        let t := s.seStore n a (leBytes k v)
        let page (x : Nat) := pageOf (dmBase + x)
        exec i s = .next (t.went n len (t.ctx n)) ∧ (∃ l, t.ctx n = { c with dirty := l }) ∧
        (s.miu.splice = [] →
          (∀ x, x < 0x800000 → x < a ∨ a + k ≤ x → s.pageClean (page x) = true ∨ page x ≠ page a →
            t.dmByteNow x = s.dmByteNow x) ∧
          (s.pageClean (page a) = true → s.OnlyStored n t ∧
            ∀ j, j < k → t.dmByteNow (a + j) = BitVec.ofNat 8 (v / 256 ^ j)))
    let a := c.based rb disp
    let x := addr.toNat
    let g := c.reg rd
    stores (.stb rd rb disp) 4 a 1 g ∧ stores (.sth rd rb disp) 4 a 2 g ∧ stores (.stw rd rb disp) 4 a 4 g ∧
    (rd.val % 2 = 0 → stores (.std rd rb disp) 4 a 8 (c.pair rd)) ∧
    stores (.stx 0 rd addr) 8 x 1 g ∧ stores (.stx 2 rd addr) 8 x 2 g ∧ stores (.stx 4 rd addr) 8 x 4 g ∧
    (rd.val % 2 = 0 → stores (.stx 5 rd addr) 8 x 8 (c.pair rd)) ∧
    (∀ f : BitVec 3, f = 1 ∨ f = 3 ∨ f = 6 ∨ f = 7 → exec (.stx f rd addr) s = .next (s.trap n 1 0 0))

/-- MOVB and FILLB carry one element of at most 8 bytes a row and are fetched again while bytes are left, so that a
preemption finds the registers behind the last element (R170, R171; one element a row: log entry 117). An element
moves Gd, and Ga of MOVB, on by its bytes and takes them off Gb; the PC goes on once Gb is 0, and a Gb of 0 moves
nothing. A source word that cannot be rebuilt is an integrity error. In an undamaged DM the element's bytes are those
read before the write, or the low byte of Ga, and every other byte of DM is as before. A run that leaves DM raises
ADDR with the first element beyond it, one that starts off an 8-byte boundary raises ALIGN, before anything is moved
(R169, R170, R181). -/
def Obligations.BlockMovesAndFillsCompleteInDm : Prop :=
  ∀ (s : State) (n : Nat) (c : Ctx) (rd ra rb : Reg), s.Runs n c →
    let d := c.reg rd
    let a := c.reg ra
    let len := c.reg rb
    let m := min 8 len
    let inside (x : Nat) : Prop := len = 0 ∨ x + len ≤ 0x800000
    let beyond (x : Nat) : Nat := if 0x800000 ≤ x then x else x + (0x800000 - x) / 8 * 8
    let element (copy : Bool) (x : Ctx) : Ctx :=
      let y := x.setReg rd (x.reg rd + m)
      let z := if copy then y.setReg ra (y.reg ra + m) else y
      z.setReg rb (z.reg rb + 2 ^ 32 - m)
    let after (copy : Bool) (t : State) : State := t.setCtx n { element copy (t.ctx n) with
      pc := if (element copy c).reg rb = 0 then (c.pc + 4) % 0x800000 else c.pc / 4 * 4 % 0x800000 }
    let bytes (v : Nat → Byte) (t : State) : Prop := s.OnlyStored n t ∧ (∀ j, j < m → sget 0 t.dm (d + j) = v j) ∧
      ∀ x, x < d ∨ d + m ≤ x → sget 0 t.dm x = sget 0 s.dm x
    (¬inside d → exec (.movb rd ra rb) s = .next (s.trap n 3 (beyond d) 0) ∧
      exec (.fillb rd ra rb) s = .next (s.trap n 3 (beyond d) 0)) ∧
    (inside d → ¬inside a → exec (.movb rd ra rb) s = .next (s.trap n 3 (beyond a) 0)) ∧
    (inside d → d % 8 ≠ 0 → (inside a → exec (.movb rd ra rb) s = .next (s.trap n 4 d 0)) ∧
      exec (.fillb rd ra rb) s = .next (s.trap n 4 d 0)) ∧
    (inside d → inside a → d % 8 = 0 → a % 8 ≠ 0 → exec (.movb rd ra rb) s = .next (s.trap n 4 a 0)) ∧
    (len = 0 → d % 8 = 0 → (a % 8 = 0 → exec (.movb rd ra rb) s = .next (s.went n 4 c)) ∧
      exec (.fillb rd ra rb) s = .next (s.went n 4 c)) ∧
    (0 < len → inside d → d % 8 = 0 →
      (inside a → a % 8 = 0 →
        (∀ bs t, s.dmRead .seData a m = (some bs, t) → exec (.movb rd ra rb) s = .next (after true (t.seStore n d bs))) ∧
        (∀ t, s.dmRead .seData a m = (none, t) → exec (.movb rd ra rb) s = .next (t.integrity n 1)) ∧
        (s.Undamaged → ∃ t, exec (.movb rd ra rb) s = .next (after true t) ∧ bytes (fun j => sget 0 s.dm (a + j)) t)) ∧
      exec (.fillb rd ra rb) s = .next (after false (s.seStore n d (List.replicate m (BitVec.ofNat 8 a)))) ∧
      (s.Undamaged → ∃ t, exec (.fillb rd ra rb) s = .next (after false t) ∧ bytes (fun _ => BitVec.ofNat 8 a) t))

/-- Floating point: the result in its register or pair, the exceptions in the sticky flags; FCMP writes Z, N, C and V
alone; conversions (R164 to R166). -/
def Obligations.FloatingPointWritesResultAndStickyFlags : Prop :=
  ∀ (s : State) (n : Nat) (c : Ctx) (rd ra rb : Reg) (p : Bool), s.Runs n c →
    let even (l : List (Bool × Reg)) : Prop := ∀ e ∈ l, e.1 = true → e.2.val % 2 = 0
    let x := c.fsrc p ra
    let y := c.fsrc p rb
    let f := fmtOf p
    let put (wide : Bool) (r : Nat × Nat) : Host.Outcome State Fault Refusal :=
      .next (s.went n 4 (({ c with sw := c.sw ||| BitVec.ofNat 32 (r.2 * 256) } : Ctx).fdst wide rd r.1))
    let int (w : Nat) (r : Int × Nat) : Nat × Nat := ((r.1 % 2 ^ w).toNat, r.2)
    (even [(p, rd), (p, ra), (p, rb)] →
      exec (.fadd rd ra rb p) s = put p (fAdd f x y) ∧ exec (.fsub rd ra rb p) s = put p (fSub f x y) ∧
      exec (.fmul rd ra rb p) s = put p (fMul f x y) ∧ exec (.fdiv rd ra rb p) s = put p (fDiv f x y) ∧
      exec (.fmin rd ra rb p) s = put p (fMinMax f false x y) ∧ exec (.fmax rd ra rb p) s = put p (fMinMax f true x y)) ∧
    (even [(p, rd), (p, ra)] →
      exec (.fsqrt rd ra p) s = put p (fSqrt f x) ∧ exec (.fabs rd ra p) s = put p (x % f.signBit, 0) ∧
      exec (.fneg rd ra p) s = put p (if fSign f x then x - f.signBit else x + f.signBit, 0)) ∧
    (even [(p, ra), (p, rb)] →
      ∃ z l g v e, fCmp f x y = ((z, l, g, v), e) ∧
        exec (.fcmp ra rb p) s = .next (s.went n 4
          { c with sw := withFlags c.sw ⟨z, l, g, v⟩ ||| BitVec.ofNat 32 (e * 256) })) ∧
    (even [(p, ra)] →
      exec (.fcvti rd ra p) s = put false (int 32 (fToInt f 32 false x)) ∧
      exec (.ftrunc rd ra p) s = put false (int 32 (fToInt f 32 true x))) ∧
    (even [(true, rd), (p, ra)] → exec (.fcvtl rd ra p) s = put true (int 64 (fToInt f 64 false x))) ∧
    (even [(p, rd)] → exec (.fcvtf rd ra p) s = put p (fOfInt f (numOf true 32 (c.reg ra)))) ∧
    (even [(p, rd), (true, ra)] → exec (.fcvtlf rd ra p) s = put p (fOfInt f (numOf true 64 (c.pair ra)))) ∧
    (even [(p, rd), (!p, ra)] → exec (.fcvtp rd ra p) s = put p (fConv (fmtOf !p) f (c.fsrc (!p) ra)))

/-- BR goes to its word offset when its condition holds and on when it does not; CALL and CALLR keep the address of
the next instruction; JR and CALLR take their target from a register (R172, R173). -/
def Obligations.BranchesAndCallsSetThePc : Prop :=
  ∀ (s : State) (n : Nat) (c : Ctx) (rd ra : Reg) (k : BitVec 4) (off : BitVec 22), s.Runs n c →
    let z := c.sw.getLsbD 0
    let l := c.sw.getLsbD 1
    let cy := c.sw.getLsbD 2
    let v := c.sw.getLsbD 3
    let conds : List Bool := [true, c.stk.headD false, !c.stk.headD false, z, !z, cy, !cy, cy && !z, !cy || z, l ^^ v,
      !(l ^^ v), !z && !(l ^^ v), z || (l ^^ v), l, v, c.sw.getLsbD 4]
    let target := (c.pc + widen 24 (4 * off.toNat)) % 2 ^ 32
    (k = 1 ∨ k = 2 → c.stk ≠ []) →
    exec (.br k off) s = .next (if conds.getD k.toNat false then s.jumped n target c else s.went n 4 c) ∧
    exec (.call rd off) s = .next (s.jumped n target (c.setReg rd ((c.pc + 4) % 0x800000))) ∧
    exec (.jr ra) s = .next (s.jumped n (c.reg ra) c) ∧
    exec (.callr rd ra) s = .next (s.jumped n (c.reg ra) (c.setReg rd ((c.pc + 4) % 0x800000)))

/-- QPUSH and QOPEN on the queue of number `q`, for a producer that has no truncated packet there: C says whether the
word or the packet was taken; a full ring drops it with OVERRUN; another producer's packet refuses it, which
QUE_REFUSED counts; a full ring cuts an open packet (R175, R176, R489 to R493). QPOP takes the oldest word with its
position, or zero and Z from an empty or disabled queue; QLVL reads the level; QCLOSE closes the producer's own packet
(R175, R176, R487). -/
def Obligations.QueueInstructionsOfAContext : Prop :=
  (∀ (s : State) (n : Nat) (c : Ctx) (q : BitVec 5) (rx : Reg), s.Runs n c →
     let k := q.toNat
     let e := s.queue k
     let src := 0x40 + n
     let w := BitVec.ofNat 32 (c.reg rx)
     let done (i : Instr) (t : State) (cy : Bool) : Prop :=
       exec i s = .next (t.onCtx n fun d => { d.setC cy with pc := (c.pc + 4) % 0x800000 })
     (k ∈ c.cut ∨ k + 32 ∈ c.cut → done (.qpush q rx) s false) ∧
     (k ∉ c.cut → k + 32 ∉ c.cut →
       (s.qEn k = false → done (.qpush q rx) s false) ∧
       (s.qEn k = true → e.opened = none → e.used < s.qDepth k → done (.qpush q rx)
         (((s.qWord k e.used src w).setQueue k { e with marks := e.marks ++ [⟨false, false, 0⟩] }).qTrig k e.marks.isEmpty) true) ∧
       (∀ m, s.qEn k = true → e.opened = some (src, m) → m < 65535 → e.used < s.qDepth k → done (.qpush q rx)
         ((s.qWord k e.used src w).setQueue k { e with opened := some (src, m + 1) }) true) ∧
       (s.qEn k = true → e.opened = none → s.qDepth k ≤ e.used → done (.qpush q rx) (s.qDrop k) false) ∧
       (∀ o m, s.qEn k = true → e.opened = some (o, m) → o ≠ src → done (.qpush q rx) (s.inc Addr.queRefused) false) ∧
       (∀ m, s.qEn k = true → e.opened = some (src, m) → m < 65535 → s.qDepth k ≤ e.used →
         exec (.qpush q rx) s = .next ((((s.qCloseRaw k true).qDrop k).ev 0x341 (k + src * 256)).qResume k |>.onCtx n fun d =>
           { d.setC false with cut := k :: d.cut, pc := (c.pc + 4) % 0x800000 }))) ∧
     (s.qEn k = false → done (.qopen q) s false) ∧
     (s.qEn k = true → e.opened = none → e.used < s.qDepth k →
       done (.qopen q) (s.setQueue k { e with opened := some (src, 0) }) true) ∧
     (s.qEn k = true → e.opened = none → s.qDepth k ≤ e.used → done (.qopen q) (s.qDrop k) false) ∧
     (∀ m, s.qEn k = true → e.opened = some (src, m) → done (.qopen q) s false) ∧
     (∀ o m, s.qEn k = true → e.opened = some (o, m) → o ≠ src → done (.qopen q) (s.inc Addr.queRefused) false)) ∧
  (∀ (s : State) (n : Nat) (c : Ctx) (q : BitVec 5) (rx : Reg), s.Runs n c →
     let k := q.toNat
     let e := s.queue k
     let src := 0x40 + n
     (rx.val % 2 = 0 →
       (s.qEn k = false ∨ e.marks = [] → exec (.qpop q rx) s = .next (s.went n 4 ((c.setPair rx 0).setZ true))) ∧
       (∀ m ms bs t, s.qEn k = true → e.marks = m :: ms → m.remain < 65536 → bs.length = 4 →
         s.dmRead .seData (s.qBase k + 4 * (e.rd % s.qDepth k)) 4 = (some bs, t) →
         exec (.qpop q rx) s = .next ((t.setQueue k { e with marks := ms, rd := (e.rd + 1) % t.qDepth k }).went n 4
           ((c.setPair rx (leNat bs + m.remain * 2 ^ 32 + k * 2 ^ 48 + b2n m.head * 2 ^ 61 + b2n m.last * 2 ^ 62 + 2 ^ 63)).setZ
             false)))) ∧
     exec (.qlvl q rx) s = .next (s.went n 4 ((c.setReg rx e.marks.length).setZ (e.marks = []))) ∧
     (k ∈ c.cut → exec (.qclose q) s =
       .next (s.went n 4 { c.setC false with cut := (k + 32) :: c.cut.filter (· ≠ k) })) ∧
     (k ∉ c.cut → (∀ m, e.opened = some (src, m) → exec (.qclose q) s =
         .next ((s.qClose k false).onCtx n fun d => { d.setC true with pc := (c.pc + 4) % 0x800000 })) ∧
       ((∀ m, e.opened ≠ some (src, m)) → exec (.qclose q) s = .next (s.went n 4 (c.setC false)))))

/-- EVT records EV 0x0A0 + NUM with Ga; TRIG acts as a write to SE_SWTRIG; SYSR reads the system registers, a reserved
number as 0; SYSW writes the bits SW has, and any other number raises ILLEGAL (R178 to R180). -/
def Obligations.EventsTriggersAndSystemRegisters : Prop :=
  ∀ (s : State) (n : Nat) (c : Ctx), s.Runs n c →
    (∀ num ra, exec (.evt num ra) s = .next ((s.ev (0xA0 + num.toNat) (c.reg ra)).went n 4 c)) ∧
    (∀ k : BitVec 8, s.userEvent k.toNat = false → exec (.trig k) s = .next (s.went n 4 c)) ∧
    (∀ k : BitVec 8, s.userEvent k.toNat = true →
      exec (.trig k) s = .next ((s.userTrig k.toNat).onCtx n fun d => { d with pc := (c.pc + 4) % 0x800000 })) ∧
    (∀ rd t, let u := s.at t
      let reads (k v : Nat) : Prop := exec (.sysr rd (BitVec.ofNat 10 k) t) s = .next (u.went n 4 (c.setReg rd v))
      reads 0 c.sw.toNat ∧ reads 1 n ∧ reads 2 u.se.g ∧ reads 3 c.relT ∧ reads 4 (c.relT / 2 ^ 32) ∧
      reads 6 (u.latch (.ctx n) Addr.sysDtimeLo).toNat ∧ reads 7 (u.role.code + u.unitN * 256) ∧ reads 8 (b2n c.first) ∧
      reads 9 c.stk.length ∧ (∀ k, 10 ≤ k → k < 0x100 ∨ 0x200 ≤ k → k < 0x400 → reads k 0) ∧
      exec (.sysr rd 5 t) s = .next ((u.setLatch (.ctx n) Addr.sysDtimeLo (BitVec.ofNat 32 (u.dtime / 2 ^ 32))).went n 4
        (c.setReg rd u.dtime)) ∧
      ∀ m, m < 32 →
        let b := 0x100 + 8 * m
        reads b (u.rdN (Addr.shStat m)) ∧ reads (b + 1) (u.shPhaseReg m).toNat ∧ reads (b + 2) (u.rdN (Addr.shCount m)) ∧
        reads (b + 3) (u.rdN (Addr.shPeriod m)) ∧ reads (b + 5) (u.latch (.ctx n) (Addr.shStampLo m)).toNat ∧
        reads (b + 6) 0 ∧ reads (b + 7) 0 ∧
        exec (.sysr rd (BitVec.ofNat 10 (b + 4)) t) s = .next ((u.setLatch (.ctx n) (Addr.shStampLo m) (u.rd (Addr.shStampHi m))).went n 4
          (c.setReg rd (u.rdN (Addr.shStampLo m))))) ∧
    (∀ rd, exec (.sysw rd 0) s = .next (s.went n 4 { c with sw := BitVec.ofNat 32 (c.reg rd) &&& 0x1F1F })) ∧
    (∀ rd k, k ≠ 0 → exec (.sysw rd k) s = .next (s.trap n 1 0 0))

/-! ### The command interface -/

/-- A host opcode that an earlier command of its session, or a LONG command of its group, holds back waits; after a
power-fail warning one past SYS_STATUS is refused; a wrong payload length is refused before anything else (R42, R55,
R569). A reply carries the request's opcode, tag and session, its status first, and in an authenticated session AUTH
and the first 16 bytes of the HMAC of its bytes as MAC. It joins the SPI reply queue, or leaves as a UDP datagram in
the fragments of the MTU; NOREPLY suppresses OK and ACCEPTED. Status 0x0031 counts in BUSY. A final reply becomes the
newest of the 16 cached replies of its session. After the reply to the last of 32,768 accepted commands an
authenticated session is closed (R36, R38, R45, R48, R50, R60, R69, R70, R77; the instant of the close: log entry 35).
-/
def Obligations.HostOpcodesAreStartedAndAnswered : Prop :=
  (∀ (s : State) (i : Instr) (op : Nat) (len : Option Nat) (q : Req) (p : Bytes), hostOp i = some (op, len, q, p) →
     (s.blocked q op = true → exec i s = .next (s.wait op q p)) ∧
     (s.blocked q op = false → s.locked op = true → exec i s = .next ((s.unwait q).reply q op 0x0020 [])) ∧
     (∀ n, len = some n → p.length ≠ n → s.Carries q op i ((s.carry q).fail q op 0x10))) ∧
  (∀ (s : State) (q : Req) (op status : Nat) (data : Bytes) (long : Bool),
     let t := s.reply q op status data long
     let key := s.sessKey q.session
     let r : Reply := ⟨1, q.via, BitVec.ofNat 8 (b2n key.isSome + 2 * b2n long + 8), op, q.tag, q.session, status, data, key⟩
     let silent := q.noReply = true ∧ status % 256 ≤ 1
     let plain := packetBytes 1 r.flags op q.tag q.session (leBytes 2 status ++ [0, 0] ++ data)
     (r.bytes = plain ++ (match key with | some k => (hmac k plain).take 16 | none => [])) ∧
     (status ≠ 0x31 → t.rd Addr.hpiBusy = s.rd Addr.hpiBusy) ∧
     (status = 0x31 → t.rdN Addr.hpiBusy = min (s.rdN Addr.hpiBusy + 1) 0xFFFFFFFF) ∧
     (q.via = .spi → t.hpi.spiQ = s.hpi.spiQ ++ (if silent then [] else [r])) ∧
     (∀ x, q.via = .udp x → t.hpi.udpOut = s.hpi.udpOut ++ (if silent then [] else
       ipParts (s.ethCfg x.eth).mtu x 4200 0 (udpDatagram (s.ethCfg x.eth).ip x r.bytes))) ∧
     (∀ x, s.session q.session = some x → x.auth = true → 32768 ≤ x.accepted → s.unanswered q.session = false →
       t.session q.session = none) ∧
     ((∀ x, s.session q.session = some x → x.auth = true → x.accepted < 32768) →
       (∀ x, s.session q.session = some x → long = false →
         t.session q.session = some { x with cache := (⟨q.tag, q.pcrc, r⟩ :: x.cache).take 16 }) ∧
       t.hpi.waiting = s.hpi.waiting ∧ t.hpi.longs = s.hpi.longs ∧ t.se = s.se ∧ t.dm = s.dm ∧ t.pm = s.pm ∧ t.mram = s.mram ∧
       t.op = s.op ∧ t.role = s.role ∧ t.queues = s.queues ∧ t.evr = s.evr))

/-- The SYS opcodes: PING echoes its payload up to 4,076 bytes; IDENT and STATUS reply their data; SESSION_OPEN makes
an unauthenticated or an authenticated session in the lowest free slot, and is refused without an owner key or a free
slot; SESSION_CLOSE replies and closes, and is refused outside a session; RESTART starts 10 ms after its reply, and is
refused in RUN and HOLD (R43, R44, R47, R75, R76). The HPI counters: SYS_COUNTERS replies them and clears them when
bit 0 of its byte is 1; HPI_CLR with bit 0 clears them (R77, R615). -/
def Obligations.SystemOpcodesAndCountersAnswer : Prop :=
  (∀ (s : State) (q : Req) (p : Bytes),
     let u := s.carry q
     (p.length ≤ 4076 → s.Carries q 0 (.sysPing q p) (u.ok q 0 p)) ∧
     (4076 < p.length → s.Carries q 0 (.sysPing q p) (u.fail q 0 0x10)) ∧
     (p = [] →
       s.Carries q 1 (.sysIdent q p) (u.ok q 1 ((List.range 16).flatMap fun i => wordBytes (u.sysReg (4 * i)))) ∧
       s.Carries q 2 (.sysStatus q p) (u.ok q 2
         ([BitVec.ofNat 8 u.op.code, BitVec.ofNat 8 u.role.code, BitVec.ofNat 8 u.unitN, BitVec.ofNat 8 (b2n u.hpi.ownerLock),
             BitVec.ofNat 8 u.hpi.sessions.length, BitVec.ofNat 8 (u.hpi.waiting.length + u.hpi.longs.length + 1)] ++
           leBytes 2 (match u.fcause with | some c => 0x8000 + c | none => 0) ++ leBytes 8 u.dtime)) ∧
       (q.session ≠ 0 → s.Carries q 4 (.sysSessionClose q p) ((u.ok q 4).closeSession q.session)) ∧
       (q.session = 0 → s.Carries q 4 (.sysSessionClose q p) (u.fail q 4 0x20))) ∧
     (∀ m, p.length = (if m = 1 then 20 else 4) → (p.getD 0 0).toNat = m → m ≤ 1 →
       (m = 1 → u.hpi.ownerKey = none → s.Carries q 3 (.sysSessionOpen q p) (u.fail q 3 0x20)) ∧
       ((m = 1 → u.hpi.ownerKey ≠ none) → (∀ i, i < 8 → ∃ x ∈ u.hpi.sessions, x.slot = i) →
         s.Carries q 3 (.sysSessionOpen q p) (u.fail q 3 0x30)) ∧
       ∀ i, (m = 1 → u.hpi.ownerKey ≠ none) → i < 8 → (∀ x ∈ u.hpi.sessions, x.slot ≠ i) →
       (∀ j, j < i → ∃ x ∈ u.hpi.sessions, x.slot = j) →
       let h : BitVec 32 := BitVec.ofNat 32 (u.hpi.openCount * 8 + i)
       let nDev := leBytes 16 (Config.nonce u.hpi.nonces).toNat
       let ks := if m = 1 then hmac (u.hpi.ownerKey.getD []) ([0x53, 0x47, 0x4B, 0x31] ++ (p.drop 4).take 16 ++ nDev ++ leBytes 4 h.toNat) else []
       s.Carries q 3 (.sysSessionOpen q p) (({ u with hpi := { u.hpi with
             sessions := u.hpi.sessions ++ [⟨i, h, q.via, field p 2 2, m = 1, ks, 0, 0, u.utick, none, 0, []⟩],
             openCount := if (u.hpi.openCount + 1) % 2 ^ 29 = 0 then 1 else (u.hpi.openCount + 1) % 2 ^ 29,
             nonces := u.hpi.nonces + m } } : State).ok q 3 (leBytes 4 h.toNat ++ (if m = 1 then nDev else [])))) ∧
     (p = [0] →
       (u.op ≠ .run → u.op ≠ .hold → s.Carries q 6 (.sysRestart q p)
         { u.ok q 6 with restart := some (u.utick + 1000000), pwr := { u.pwr with latch := 2 } }) ∧
       (u.op = .run ∨ u.op = .hold → s.Carries q 6 (.sysRestart q p) (u.fail q 6 0x20)))) ∧
  (∀ (s : State) (q : Req) (b : Byte) (v : Word),
     let u := s.carry q
     let counters := [Addr.hpiHdrErr, Addr.hpiPcrcErr, Addr.hpiAuthFail, Addr.hpiBusy, Addr.hpiRepeats, Addr.hpiSpiOvf,
       Addr.hpiUdpLenErr, Addr.hpiFragTmo]
     let cleared (s : State) : State := counters.foldl (fun s a => s.wr a 0) s
     s.Carries q 10 (.sysCounters q [b]) ((if b.getLsbD 0 then cleared u else u).ok q 10 (regsBytes u counters)) ∧
     exec (.hpiClr v) s = .next (if v.getLsbD 0 then cleared s else s))

/-- The owner lock and the owner key: only an authenticated session sets or clears the lock; the key comes over SPI,
replaces a key only from an authenticated session, and closes every other authenticated session (R53, R54). -/
def Obligations.OwnerLockAndKey : Prop :=
  ∀ (s : State) (q : Req) (p : Bytes),
    let u := s.carry q
    let lock (b : Bool) (op code : Nat) : State :=
      (({ u with hpi := { u.hpi with ownerLock := b } } : State).ev code 0).ok q op
    (p = [] →
      (u.authed q.session = true → s.Carries q 7 (.sysLockSet q p) (lock true 7 0x003) ∧
        s.Carries q 8 (.sysLockClear q p) (lock false 8 0x004)) ∧
      (u.authed q.session = false → s.Carries q 7 (.sysLockSet q p) (u.fail q 7 0x40) ∧
        s.Carries q 8 (.sysLockClear q p) (u.fail q 8 0x40))) ∧
    (p.length = 32 →
      (q.via ≠ .spi → s.Carries q 9 (.sysKeySet q p) (u.fail q 9 0x20)) ∧
      (q.via = .spi → u.hpi.ownerKey ≠ none → u.authed q.session = false → s.Carries q 9 (.sysKeySet q p) (u.fail q 9 0x40)) ∧
      (q.via = .spi → u.hpi.ownerKey = none ∨ u.authed q.session = true → s.Carries q 9 (.sysKeySet q p)
        ((({ u with hpi := { u.hpi with ownerKey := some p, sessions := u.hpi.sessions.filter fun x => !x.auth || x.handle = q.session } } :
          State).ev 0x005 0).ok q 9)))

/-- A packet that the SPI port, or an open Ethernet port, takes passes the checks of R41 in their order. A bad MAGIC
or HCRC counts in HDR_ERR with EV 0x382, a packet with REPLY = 1 in HDR_ERR; another VERSION, a LENGTH above 4,080, a
wrong PCRC (counted, EV 0x383) and a command without its session are refused with their status. AUTH that does not fit
the session, a wrong MAC or a tag outside the window is an AUTH_FAIL with EV 0x001, the eighth in a row closes the
session with EV 0x002. A cached final reply is sent again and counted. A command of a known opcode that the owner lock
lets pass, outside BOOT and RECOVERY, without write lock and with fewer than 64 commands outstanding, comes among the
waiting commands; its session counts it and, when authenticated, takes its tag. SESSION_IDLE_CLOSE closes a session
whose last accepted command is its idle time ago with EV 0x006, and no other (R41, R43 to R45, R48 to R51). The SPI
host port. Every transfer latches the status word, RLEN over WCREDIT. A STATUS transfer shifts out nothing more, a
reserved code or a READ without a reply zeros; a READ shifts out the oldest reply, zeros behind it, and removes it
once its last byte has gone. A WRITE takes the first WCREDIT bytes and counts SPI_OVF once with EV 0x384 when it
discards the rest. The bytes held are cut into packets, each received when its last byte is there; a bad header, or a
LENGTH above 4,080, discards what is left of the transfer (R62 to R66). -/
def Obligations.PacketsAndTransfersOfTheHostPorts : Prop :=
  (∀ (s : State) (via : Transport) (b : Bytes) (t : Nat),
     let k := parsePkt b
     let q : Req := ⟨via, k.session, k.tag, k.flags.getLsbD 2, k.pcrc⟩
     let auth := k.flags.getLsbD 0
     let good : Prop := 16 ≤ b.length ∧ b.take 2 = [0x53, 0x47] ∧ field b 14 2 = (crc16 (b.take 14)).toNat
     let plain : Prop := good ∧ k.flags.getLsbD 3 = false
     let sound : Prop := plain ∧ b.getD 2 0 = 1 ∧ k.len ≤ 4080 ∧ k.pcrc = crc32c (b.take (16 + k.len))
     let free (u : State) : Prop := u.op ≠ .recovery ∧ u.op ≠ .boot ∧ u.locked k.op = false ∧ u.outstanding < 64
     let waits (u : State) : State := { u with hpi := { u.hpi with waiting := u.hpi.waiting ++ [⟨k.op, q, k.payload⟩] } }
     ((via = .spi ∨ ∃ x, via = .udp x ∧ (s.at t).ethOpen x.eth = true) →
       exec (.packetReceived via b t) s = .next ((s.at t).receive via b)) ∧
     (∀ x, via = .udp x → (s.at t).ethOpen x.eth = false → exec (.packetReceived via b t) s = .next (s.at t)) ∧
     (∀ u : State,
       (¬good → u.receive via b = (u.inc Addr.hpiHdrErr).ev 0x382 0) ∧
       (good → k.flags.getLsbD 3 = true → u.receive via b = u.inc Addr.hpiHdrErr) ∧
       (plain → b.getD 2 0 ≠ 1 → u.receive via b = u.refuse q k.op 0x0011 (b.getD 2 0)) ∧
       (plain → b.getD 2 0 = 1 → 4080 < k.len → u.receive via b = u.refuse q k.op 0x0010) ∧
       (plain → b.getD 2 0 = 1 → k.len ≤ 4080 → k.pcrc ≠ crc32c (b.take (16 + k.len)) →
         u.receive via b = ((u.inc Addr.hpiPcrcErr).ev 0x383 0).refuse q k.op 0x0050) ∧
       (sound → u.boundSession k.session via = none → ¬(k.session = 0 ∧ k.op ≤ 3) →
         u.receive via b = u.refuse q k.op 0x0020) ∧
       (sound → k.session = 0 → k.op ≤ 3 → u.boundSession 0 via = none → u.session 0 = none → free u →
         u.receive via b = waits u) ∧
       (∀ x, sound → u.boundSession k.session via = some x →
         let mac := k.mac = (hmac x.ks (b.take (20 + k.len))).take 16
         let fits : Prop := if x.auth then auth = true ∧ mac ∧ (tagOk x k.tag.toNat = true ∨ u.isRepeat q x = true) else auth = false
         let refused := ((u.inc Addr.hpiAuthFail).ev 0x001 0).refuse q k.op 0x0040
         (¬fits → x.fails + 1 < 8 → u.receive via b = refused.setSession { x with fails := x.fails + 1 }) ∧
         (¬fits → 8 ≤ x.fails + 1 → u.receive via b = (refused.closeSession x.handle).ev 0x002 0) ∧
         (∀ c, fits → x.cache.find? (fun c => c.tag = k.tag && c.pcrc = k.pcrc) = some c → q.noReply = false →
           u.receive via b = ((u.setSession { x with fails := 0 }).inc Addr.hpiRepeats).send c.reply) ∧
         (∀ w, fits → u.isRepeat q x = false → u.session k.session = some x → free u → opClass k.op = some w →
           (u.hpi.ownerLock = true → (w = true → x.auth = true) ∧ k.op ≠ 0x0C00 ∧ k.op ≠ 0x0C03) →
           (x.auth = true → x.accepted < 32768) →
           let y := if x.auth then takeTag { x with fails := 0 } k.tag.toNat else { x with fails := 0 }
           u.receive via b = waits ((u.setSession y).setSession { y with accepted := x.accepted + 1, lastT := u.utick })))) ∧
     (let u := s.at t;
       ∀ slot, (u.hpi.sessions.find? (·.slot = slot) = none → exec (.sessionIdleClose slot t) s = .next u) ∧
         ∀ x, u.hpi.sessions.find? (·.slot = slot) = some x → exec (.sessionIdleClose slot t) s = .next (
           if x.idle ≠ 0 ∧ x.lastT + x.idle * 100000000 ≤ u.utick then (u.closeSession x.handle).ev 0x006 0 else u))) ∧
  (∀ (s : State) (b : Bytes) (t count : Nat),
     let word (s : State) : Word := BitVec.ofNat 32 ((match s.hpi.spiQ with | r :: _ => r.bytes.length | [] => 0) * 65536 + (8232 - s.hpi.spiRx.length))
     let begun (s : State) : State := { s with hpi := { s.hpi with spiStat := word s, spiOut := [] } }
     exec .spiStatus s = .next (begun s) ∧
     (∀ code : Byte, code = 0 ∨ 3 < code.toNat →
       exec (.spiReservedCode code count) s = .next { begun s with hpi := { (begun s).hpi with spiOut := List.replicate count 0 } }) ∧
     (s.hpi.spiQ = [] →
       exec (.spiRead count) s = .next { begun s with hpi := { (begun s).hpi with spiOut := List.replicate count 0 } }) ∧
     (∀ r rest, s.hpi.spiQ = r :: rest → exec (.spiRead count) s = .next { begun s with hpi := { (begun s).hpi with
       spiOut := (r.bytes.take count ++ List.replicate (count - r.bytes.length) 0),
       spiQ := if r.bytes.length ≤ count then rest else r :: rest } }) ∧
     (let u := begun (s.at t);
       let credit := 8232 - u.hpi.spiRx.length;
       let v := if credit < b.length then (u.inc Addr.hpiSpiOvf).ev 0x384 0 else u;
       let w := v.spiTake (b.length + 1) (u.hpi.spiRx ++ b.take credit);
       exec (.spiWrite b t) s = .next { w.1 with hpi := { w.1.hpi with spiRx := w.2 } }) ∧
     (∀ (v : State) (n : Nat) (x : Bytes),
       let k := parsePkt x
       let good : Prop := x.take 2 = [0x53, 0x47] ∧ field x 14 2 = (crc16 (x.take 14)).toNat
       let long : Prop := 4080 < k.len ∧ k.flags.getLsbD 3 = false ∧ x.getD 2 0 = 1
       let len := 20 + k.len + (if k.flags.getLsbD 0 then 16 else 0)
       (x.length < 16 → v.spiTake (n + 1) x = (v, x)) ∧
       (16 ≤ x.length → ¬good → v.spiTake (n + 1) x = (v.receive .spi x, [])) ∧
       (16 ≤ x.length → good → long → v.spiTake (n + 1) x = (v.receive .spi x, [])) ∧
       (16 ≤ x.length → good → ¬long → x.length < len → v.spiTake (n + 1) x = (v, x)) ∧
       (16 ≤ x.length → good → ¬long → len ≤ x.length →
         v.spiTake (n + 1) x = (v.receive .spi (x.take len)).spiTake n (x.drop len))))

/-- The REG opcodes. A mapped range that no swap holds is read in ascending order up to the first word that cannot be
read, whose status the reply carries behind the words before it, and written in ascending order, outside the MRAM up
to the first word that cannot be, with the count written; REG_MODIFY replies the old value, and is refused on a WO,
W1C or COMMIT register; an address outside the map is refused with itself, a PM bank that takes no writes with 0x0120;
a range that a running swap holds waits (R78 to R82, R185, R197). REG_COMMIT is accepted and requests the commit of
its block, or waits behind one that is pending. REG_POLL is accepted and reads at once: it ends with MATCH = 1 when
the masked value is the expected one, with MATCH = 0 when its TIMEOUT is 0, and keeps the value otherwise;
REG_POLL_TIMEOUT ends it with MATCH = 0 and the last value once TIMEOUT has passed (R74, R78, R82). -/
def Obligations.RegisterOpcodesReadWriteAndPoll : Prop :=
  (∀ (s : State) (q : Req) (p : Bytes),
     let u := s.carry q
     let a := field p 0 4
     let n := field p 4 2
     let addrs := rangeAddrs a n
     let refuse (op b : Nat) : State := u.reply q op 0x0111 (leBytes 4 b)
     (p.length = 8 → n ≤ 1019 →
       (∀ b, badRange a n = some b → s.Carries q 0x100 (.regRead q p) (refuse 0x100 b)) ∧
       (badRange a n = none → addrs.any u.mgcWaits = true → s.Carries q 0x100 (.regRead q p) (u.reWait 0x100 q p)) ∧
       (badRange a n = none → addrs.any u.mgcWaits = false →
         (∀ b t, u.regReads addrs = (b, none, t) → s.Carries q 0x100 (.regRead q p) (t.reply q 0x100 0x0100 b)) ∧
         (∀ b e t, u.regReads addrs = (b, some e, t) → s.Carries q 0x100 (.regRead q p) (t.reply q 0x100 e b)))) ∧
     (∀ (v : State) (x : Nat) (xs : Nats), v.regReads [] = ([], none, v) ∧
       (∀ e t, v.mgcRead x = (.error e, t) → v.regReads (x :: xs) = ([], some e, t)) ∧
       (∀ w t b e z, v.mgcRead x = (.ok w, t) → t.regReads xs = (b, e, z) → v.regReads (x :: xs) = (wordBytes w ++ b, e, z))) ∧
     (p.length = 8 + 4 * n → 0 < n →
       (∀ b, badRange a n = some b → s.Carries q 0x101 (.regWrite q p) (refuse 0x101 b)) ∧
       (badRange a n = none → u.pmRefused a (4 * n) = true → s.Carries q 0x101 (.regWrite q p) (u.reply q 0x101 0x0120 [])) ∧
       (badRange a n = none → u.pmRefused a (4 * n) = false → addrs.any u.mgcWaits = false →
         (∀ k t, u.regWriteRun a (toWords (p.drop 8)) = (k, true, t) → s.Carries q 0x101 (.regWrite q p) (t.reply q 0x101 0x0100 [])) ∧
         (∀ k t, u.regWriteRun a (toWords (p.drop 8)) = (k, false, t) →
           s.Carries q 0x101 (.regWrite q p) (t.reply q 0x101 0x0850 (leBytes 4 k))))) ∧
     (∀ (v : State) (x : Nat) (w : Word) (ws : Words), mramOff x = none → v.regWriteRun x [] = (0, true, v) ∧
       (∀ t, v.mgcWrite x w = (false, t) → v.regWriteRun x (w :: ws) = (0, false, t)) ∧
       (∀ t k ok z, mramOff (x + 4) = none → v.mgcWrite x w = (true, t) → t.regWriteRun (x + 4) ws = (k, ok, z) →
         v.regWriteRun x (w :: ws) = (k + 1, ok, z))) ∧
     (p.length = 12 → (∀ b, badRange a 1 = some b → s.Carries q 0x102 (.regModify q p) (refuse 0x102 b))) ∧
     (p.length = 12 → badRange a 1 = none →
       (noModify a = true → s.Carries q 0x102 (.regModify q p) (u.reply q 0x102 0x0111 [])) ∧
       (noModify a = false → u.pmRefused a 4 = false → u.mgcWaits a = false →
         ∀ old t v, u.mgcRead a = (.ok old, t) → t.mgcWrite a ((old &&& ~~~wordAt p 4) ||| (wordAt p 8 &&& wordAt p 4)) = (true, v) →
           s.Carries q 0x102 (.regModify q p) (v.reply q 0x102 0x0100 (wordBytes old)))) ∧
     (p.length % 4 = 0 → p.length ≤ 4 * 1019 → let l := (toWords p).map BitVec.toNat;
       (∀ b, badAddr l = some b → s.Carries q 0x103 (.regListRead q p) (refuse 0x103 b)) ∧
       (badAddr l = none → l.any u.mgcWaits = false → ∀ b t, u.regReads l = (b, none, t) →
         s.Carries q 0x103 (.regListRead q p) (t.reply q 0x103 0x0100 b)))) ∧
  (∀ (s : State) (q : Req) (p : Bytes),
     let u := s.carry q
     let a := field p 0 4
     (p.length = 4 → badRange a 1 = none →
       (commitBlock a = none → s.Carries q 0x104 (.regCommit q p) (u.reply q 0x104 0x0111 [])) ∧
       (∀ b, commitBlock a = some b → u.commitOf b = none → s.Carries q 0x104 (.regCommit q p) ((u.accept q 0x104 [a, 1]).commitWr b)) ∧
       (∀ b c, commitBlock a = some b → u.commitOf b = some c → s.Carries q 0x104 (.regCommit q p) (u.accept q 0x104 [a, 0]))) ∧
     (p.length = 16 → badRange a 1 = none → field p 12 2 ≤ 60000 → u.hpi.longs = [] → u.mgcWaits a = false →
       let ms := field p 12 2
       let args := [a, field p 4 4, field p 8 4, u.utick + 100000 * ms, 0]
       let w := u.accept q 0x105 args
       let l : Long := ⟨0x105, q, args, u.utick⟩
       ∀ v t, w.mgcRead a = (.ok v, t) → t.utick = u.utick →
         (v &&& wordAt p 4 = wordAt p 8 → s.Carries q 0x105 (.regPoll q p) (t.notice l 0x0100 (wordBytes v ++ [1, 0, 0, 0]))) ∧
         (v &&& wordAt p 4 ≠ wordAt p 8 → ms = 0 → s.Carries q 0x105 (.regPoll q p) (t.notice l 0x0100 (wordBytes v ++ [0, 0, 0, 0]))) ∧
         (v &&& wordAt p 4 ≠ wordAt p 8 → ms ≠ 0 → s.Carries q 0x105 (.regPoll q p) { t with hpi := { t.hpi with
           longs := t.hpi.longs.map fun x => if x = l then { l with args := [a, field p 4 4, field p 8 4, u.utick + 100000 * ms, v.toNat] } else x } })) ∧
     (∀ (t : Nat) (l : Long), let v := s.at t;
       (v.longsOf 0x105).find? (fun l => l.req = q) = some l →
         (l.args.getD 3 0 ≤ v.utick →
           exec (.regPollTimeout q t) s = .next (v.notice l 0x0100 (wordBytes (BitVec.ofNat 32 (l.args.getD 4 0)) ++ [0, 0, 0, 0]))) ∧
         (v.utick < l.args.getD 3 0 → exec (.regPollTimeout q t) s = .next v)))

/-- A write below 0x0010_0000 to a register by its access type: a reserved offset and, outside STOP, a register that
is RW in STOP ignore it; a COMMIT register requests its commit; a register with a write of its own does that
(writeHook); elsewhere RW and STAGED bits take the value, a 1 clears a W1C bit, and every other bit, and every other
register, stays, but PRIO of CTX4, which reads 63 whatever is written. A write to memory that a running swap holds
waits for its end (R6, R7, R88, R197). A read of SYS_DTIME_LO, RTC_STAMP_LO, SHn_STAMP_LO or FBPn_TXPEND_LO latches
the high half for its reader, and changes nothing else; a register that is no low half is read without effect (R611).
Debug access through JTAG is blocked by the owner lock; without it, it reads one mapped word, or writes it where a PM
bank takes it, and waits while a running swap holds the memory; TRST_N resets the TAP alone (R52, R185, R197, R576,
R610). -/
def Obligations.RegisterAccessesFollowTheirTypes : Prop :=
  (∀ (s : State) (a : Nat) (v : Word), mapped a = true → a < 0x100000 →
     (s.mgcWaits a = true → exec (.registerWrite a v) s =
       .next { s with se := { s.se with swap := { s.se.swap with held := s.se.swap.held ++ [.write a v] } } }) ∧
     (s.mgcWaits a = false →
       (regRow a = none → exec (.registerWrite a v) s = .next s) ∧
       (∀ r, regRow a = some r → r.commit = true → ∀ b, commitBlock a = some b → exec (.registerWrite a v) s = .next (s.commitWr b)) ∧
       (∀ r, regRow a = some r → r.commit = false → r.stop = true → s.op ≠ .stop → exec (.registerWrite a v) s = .next s) ∧
       (∀ r, regRow a = some r → r.commit = false → r.stop = false ∨ s.op = .stop → s.writeHook a v = none →
         ∃ w, exec (.registerWrite a v) s = .next (s.wr a w) ∧ (a = Addr.ctxCtrl 4 → bitsOf w 5 0 = 63) ∧
           ∀ i, i < 32 → a ≠ Addr.ctxCtrl 4 ∨ 6 ≤ i →
           w.getLsbD i = ((if (r.rw ||| r.stg).testBit i then v.getLsbD i else (s.rd a).getLsbD i) && !(v.getLsbD i && r.w1c.testBit i))) ∧
       (∀ r t, regRow a = some r → r.commit = false → r.stop = false ∨ s.op = .stop → s.writeHook a v = some t →
         exec (.registerWrite a v) s = .next t))) ∧
  (∀ (s : State) (rd : Reader),
     exec (.loRegisterRead rd Addr.sysDtimeLo) s = .next (s.setLatch rd Addr.sysDtimeLo (BitVec.ofNat 32 (s.dtime / 2 ^ 32))) ∧
     exec (.loRegisterRead rd Addr.rtcStampLo) s = .next (s.setLatch rd Addr.rtcStampLo (s.rd Addr.rtcStampHi)) ∧
     (∀ n, n < 32 → exec (.loRegisterRead rd (Addr.shStampLo n)) s = .next (s.setLatch rd (Addr.shStampLo n) (s.rd (Addr.shStampHi n)))) ∧
     (∀ n, n < 16 → exec (.loRegisterRead rd (Addr.fbpTxpendLo n)) s = .next (s.setLatch rd (Addr.fbpTxpendLo n) (s.txPend n 1))) ∧
     (∀ a, pairHi a = none → exec (.loRegisterRead rd a) s = .next s) ∧
     (∀ a wr, s.hpi.ownerLock = true → exec (.jtagDebugAccess a wr) s = .next s) ∧
     (∀ a wr, s.hpi.ownerLock = false → mapped a = true → s.mgcWaits a = true → exec (.jtagDebugAccess a wr) s =
       .next { s with se := { s.se with swap := { s.se.swap with held := s.se.swap.held ++ [.jtag a wr] } } }) ∧
     (∀ a w t, s.hpi.ownerLock = false → mapped a = true → s.mgcWaits a = false → s.mgcRead a = (.ok w, t) →
       exec (.jtagDebugAccess a none) s = .next { t with jtag := some w }) ∧
     (∀ a v ok t, s.hpi.ownerLock = false → mapped a = true → s.mgcWaits a = false → memOf a ≠ 0 ∨ s.pmRefused a 4 = false →
       s.mgcWrite a v = (ok, t) → exec (.jtagDebugAccess a (some v)) s = .next t) ∧
     (∀ a v, memOf a = 0 → s.pmRefused a 4 = true → s.mgcWaits a = false → exec (.jtagDebugAccess a (some v)) s = .next s) ∧
     exec .jtagTapReset s = .next { s with jtag := none })

/-- A write to a COMMIT register copies the staged group of its block; SE_COMMIT is rejected while a swap is armed or
runs. COMMIT_APPLY acts at the block's own safe point: for SE in RUN a slack point with 2 µs, for IXE any instant, for
a port with a timetable of 0 columns 11 recessive bits; elsewhere it leaves the commit pending. There the copied group
is checked: it comes into force whole, or it is rejected with its lowest offending address, CFG_ERR and an event. A
commit that is 10 s old is rejected at its time-out (R9, R71 to R73, R94, R196). -/
def Obligations.CommitsApplyWholeOrReject : Prop :=
  ∀ (s : State) (b : Block) (a t : Nat),
    let u := s.at t
    let own (c : Commit) : Prop := (b = .se ∧ u.op = .run ∧ u.slack 2000 = true) ∨ b = .ixe ∨
      ∃ n, (b = .fbp n ∨ b = .stn n) ∧ u.elevenBits n c.t = true
    (commitBlock a = some b →
      (s.commitOf b = none → ¬(b = .se ∧ (s.se.swap.chamber = .armed ∨ s.se.swap.chamber = .swapping)) →
        exec (.commitWrite a) s = .next { s with commits := s.commits ++ [⟨b, s.staged b, s.utick⟩] }) ∧
      (b = .se → s.commitOf b = none → s.se.swap.chamber = .armed ∨ s.se.swap.chamber = .swapping →
        exec (.commitWrite a) s = .next (s.commitReject .se 0x20 Addr.seCommit))) ∧
    (∀ c, u.commitOf b = some c → own c → exec (.commitApply b t) s = .next (u.commitAt b)) ∧
    (∀ c, u.commitOf b = some c → ¬own c → exec (.commitApply b t) s = .next u) ∧
    (u.commitOf b = none → exec (.commitApply b t) s = .next u) ∧
    (∀ c, u.commitOf b = some c → (∀ e, u.blockCheck c.blk c.staged = some e → u.commitAt b = u.commitReject c.blk 0x60 e) ∧
      (u.blockCheck c.blk c.staged = none → u.commitAt b = ((u.putLive c).blockApply c.blk u.live).commitDone c.blk 0 [])) ∧
    (∀ low addr, ∃ x : State, u.commitReject b low addr = x.commitDone b low (if low = 0x60 then leBytes 4 addr else []) ∧
      (b ≠ .rtc → x = (u.setBit (cfgErrAddr b) 0 true).ev (blockGroup b * 64 + 0x3F) addr)) ∧
    (∀ c, u.commitOf b = some c →
      (c.t + 1000000000 ≤ u.utick → exec (.commitTimeout b t) s = .next (u.commitReject b 0x20 (commitAddr b))) ∧
      (u.utick < c.t + 1000000000 → exec (.commitTimeout b t) s = .next u))

/-- A write to a COMMIT register while its block's commit is PENDING changes nothing, whoever writes it (R8). -/
def Obligations.AWriteToAPendingCommitIsIgnored : Prop :=
  ∀ (s : State) (a : Nat) (v : Word) (b : Block) (c : Commit), commitBlock a = some b → s.commitOf b = some c →
    exec (.commitWrite a) s = .next s ∧ exec (.registerWrite a v) s = .next s ∧ s.mgcWrite a v = (true, s)

/-- What a commit puts in force: the staged registers of its block take the copied values, and every other committed
value stays (R9). -/
def Obligations.ACommitReplacesItsGroupOnly : Prop :=
  ∀ (s : State) (c : Commit) (a : Nat), (∀ e ∈ c.staged, inGroup c.blk e.1 = true) → (c.staged.map Prod.fst).Nodup →
    (inGroup c.blk a = false → (s.putLive c).live.find? (fun e => e.1 = a) = s.live.find? (fun e => e.1 = a)) ∧
    (inGroup c.blk a = true → (s.putLive c).live.find? (fun e => e.1 = a) = c.staged.find? (fun e => e.1 = a))

/-- At the management tick SYS_TICK counts; the pending commits whose safe point it is apply, those of SE outside RUN,
of disabled ports and their stations, and of the blocks that name no other point; then the Ethernet settings, the
clearing of the recorder and the polls go on, the waiting commands start in the order in which they came, and the
firmware's service and AUTORUN follow. A SYS_PING among them is answered (R16, R55, R57, R72). -/
def Obligations.ManagementTickStartsWaitingCommands : Prop :=
  ∀ (s : State) (t : Nat),
    let u := (s.at t).wr Addr.sysTick ((s.at t).rd Addr.sysTick + 1)
    let safe (s : State) (b : Block) : Bool := match b with
      | .fio | .ixe => false
      | .fbp n | .stn n => s.lf (Addr.fbpCtrl n) 2 0 = 0
      | .se => s.op ≠ .run
      | _ => true
    let commits := u.commits.foldl (fun s c => if safe s c.blk then s.commitAt c.blk else s) u
    let v := commits.ethTick.evrClearPlace.polls
    exec (.managementTick t) s = .next (v.hpi.waiting.foldl (fun s c => s.startCmd c) v).wdtFirmware.autorun ∧
    (∀ (v : State) (c : Cmd), c.opcode = 0x0000 → v.Starts c.req 0 → c.data.length ≤ 4076 →
      v.startCmd c = ((v.carry c.req).ok c.req 0 c.data).idle)

/-! ### Queues, DMA, memory integrity and the event recorder -/

/-- The QUE opcodes: status of the selected queues; pops, with a word of an unrebuildable page ending them; pushes of
words or of one packet, which count what was written, refused on a queue that is not enabled; a packet of another
producer makes the MGC wait up to 1 µs, which QUE_REFUSED counts; a clear empties queues, unless one has an open
packet or an active DMA channel. Pops and pushes wait while a swap runs (R83, R197, R491). A loose word written to
QnPUSH goes into a ring with room and sets OVERRUN on a full one, with EV 0x340 the first time; another producer's
packet refuses it, counted in QUE_REFUSED; a queue not enabled takes nothing. A read of QnDATA_LO takes the oldest
word and latches its high half, or zeros. While a swap runs both are held. A frame that has waited 1 µs for its queue
is lost and counted (R197, R270, R484, R488 to R492). -/
def Obligations.HardwareQueuesPushAndPop : Prop :=
  (∀ (s : State) (q : Req) (p : Bytes),
     let u := s.carry q
     let n := (p.getD 0 0).toNat
     let mask := (List.range 32).filter (field p 0 4).testBit
     let ws := toWords (p.drop 4)
     let lenOk := 4 ≤ p.length ∧ p.length % 4 = 0 ∧ p.length ≤ 4 + 4 * 1018
     (p.length = 4 →
       s.Carries q 0xD00 (.queStatus q p) (u.reply q 0xD00 0x0D00 (mask.flatMap fun n =>
         [BitVec.ofNat 8 n, BitVec.ofNat 8 (bitsOf (u.qStat n) 27 24), 0, 0] ++ leBytes 4 (bitsOf (u.qStat n) 16 0))) ∧
       (n ≤ 31 → (p.getD 1 0).toNat ≤ 1 → field p 2 2 ≤ 509 →
         (u.swapping = true → s.Carries q 0xD01 (.quePop q p) (u.reWait 0xD01 q p)) ∧
         (∀ vs t, u.swapping = false → u.quePopAll n (p.getD 1 0).toNat (field p 2 2) = (true, vs, t) →
           s.Carries q 0xD01 (.quePop q p) (t.reply q 0xD01 0x0D00 (vs.flatMap (leBytes 8)))) ∧
         (∀ vs t, u.swapping = false → u.quePopAll n (p.getD 1 0).toNat (field p 2 2) = (false, vs, t) →
           s.Carries q 0xD01 (.quePop q p) (t.reply q 0xD01 0x0850 (vs.flatMap (leBytes 8))))) ∧
       ((∀ k ∈ mask, (u.queue k).opened = none ∧ u.qHasDma k = false) →
         s.Carries q 0xD04 (.queClear q p) ((mask.foldl (fun s k => s.setQueue k {}) u).reply q 0xD04 0x0D00 [])) ∧
       ((∃ k ∈ mask, (u.queue k).opened ≠ none ∨ u.qHasDma k = true) → s.Carries q 0xD04 (.queClear q p) (u.reply q 0xD04 0x0D31 []))) ∧
     (u.swapping = true → s.Carries q 0xD02 (.quePush q p) (u.reWait 0xD02 q p) ∧
       s.Carries q 0xD03 (.quePushPacket q p) (u.reWait 0xD03 q p)) ∧
     (lenOk → n ≤ 31 → u.swapping = false → u.qForeign n 0xF0 = true →
       let waiting (op : Nat) : State := let v := u.inc Addr.queRefused;
         { v with hpi := { v.hpi with longs := v.hpi.longs ++ [⟨op, q, p.map (·.toNat), v.utick⟩] } }
       s.Carries q 0xD02 (.quePush q p) (waiting 0xD02) ∧ s.Carries q 0xD03 (.quePushPacket q p) (waiting 0xD03)) ∧
     (lenOk → n ≤ 31 → u.swapping = false → u.qForeign n 0xF0 = false → u.qEn n = false →
       s.Carries q 0xD02 (.quePush q p) (u.reply q 0xD02 0x0D20 [0, 0, 0, 0]) ∧
       s.Carries q 0xD03 (.quePushPacket q p) (u.reply q 0xD03 0x0D20 [0, 0, 0, 0, 0])) ∧
     (lenOk → n ≤ 31 → u.swapping = false → u.qForeign n 0xF0 = false → u.qEn n = true →
       (∀ k t, u.qPushAll n 0xF0 ws = (k, .done, t) → s.Carries q 0xD02 (.quePush q p) (t.reply q 0xD02 0x0D00 (leBytes 4 k))) ∧
       (∀ k r t, u.qPushAll n 0xF0 ws = (k, r, t) → r ≠ .done →
         s.Carries q 0xD02 (.quePush q p) (t.reply q 0xD02 0x0D30 (leBytes 4 k))) ∧
       (∀ k t, u.qPacket n 0xF0 ws = (k, .done, t) →
         s.Carries q 0xD03 (.quePushPacket q p) (t.reply q 0xD03 0x0D00 (leBytes 4 k ++ [0]))) ∧
       (∀ k t, u.qPacket n 0xF0 ws = (k, .truncated, t) →
         s.Carries q 0xD03 (.quePushPacket q p) (t.reply q 0xD03 0x0D30 (leBytes 4 k ++ [1])))) ∧
     (∀ (l : Long) (t : Nat), let v := s.at t;
       v.hpi.longs.find? (fun l => (l.opcode = 0xD02 || l.opcode = 0xD03) && l.req = q) = some l →
         (v.utick < l.t + 100 → exec (.quePushWaitTimeout q t) s = .next v) ∧
         (l.t + 100 ≤ v.utick → exec (.quePushWaitTimeout q t) s =
           .next (({ v with hpi := { v.hpi with longs := v.hpi.longs.filter (· ≠ l) } } : State).reply q l.opcode 0x0D31 [])))) ∧
  (∀ (s : State) (n : Nat) (v : Word) (rd : Reader), n < 32 →
     let e := s.queue n
     let u (t : Nat) : State := s.at t
     (s.swapping = true →
       let held (x : MgcAccess) : State := { s with se := { s.se with swap := { s.se.swap with held := s.se.swap.held ++ [x] } } }
       exec (.qnpush n v) s = .next (held (.write (Addr.qPush n) v)) ∧ exec (.qndataLoRead rd n) s = .next (held (.lo rd (Addr.qDataLo n)))) ∧
     (s.swapping = false →
     (s.qEn n = false → exec (.qnpush n v) s = .next s ∧
       exec (.qndataLoRead rd n) s = .next (s.setLatch rd (Addr.qDataLo n) 0)) ∧
     (s.qEn n = true → e.opened = none → e.used < s.qDepth n → exec (.qnpush n v) s =
       .next (((s.qWord n e.used 0xF0 v).setQueue n { e with marks := e.marks ++ [⟨false, false, 0⟩] }).qTrig n e.marks.isEmpty)) ∧
     (s.qEn n = true → e.opened = none → s.qDepth n ≤ e.used → e.overrun = true →
       exec (.qnpush n v) s = .next (s.setQueue n { e with overrun := true })) ∧
     (s.qEn n = true → e.opened = none → s.qDepth n ≤ e.used → e.overrun = false →
       exec (.qnpush n v) s = .next ((s.setQueue n { e with overrun := true }).ev 0x340 n)) ∧
     (∀ o m, s.qEn n = true → e.opened = some (o, m) → o ≠ 0xF0 → exec (.qnpush n v) s = .next (s.inc Addr.queRefused)) ∧
     (s.qEn n = true → e.marks = [] → exec (.qndataLoRead rd n) s = .next (s.setLatch rd (Addr.qDataLo n) 0)) ∧
     (∀ m ms bs t, s.qEn n = true → e.marks = m :: ms → m.remain < 65536 → bs.length = 4 →
       s.dmRead (readerWho rd) (s.qBase n + 4 * (e.rd % s.qDepth n)) 4 = (some bs, t) →
       exec (.qndataLoRead rd n) s = .next ((t.setQueue n { e with marks := ms, rd := (e.rd + 1) % t.qDepth n }).setLatch rd (Addr.qDataLo n)
         (BitVec.ofNat 32 (m.remain + n * 2 ^ 16 + b2n m.head * 2 ^ 29 + b2n m.last * 2 ^ 30 + 2 ^ 31))))) ∧
     (∀ port t w, (u t).qWaits.find? (fun w => w.port = port && w.t + 100 ≤ (u t).utick) = some w → exec (.rxQueueWaitTimeout ⟨port, t⟩) s =
       .next ((({ u t with qWaits := (u t).qWaits.filter (· ≠ w) } : State).inc (Addr.fbpRxQloss port)).ev 0x108 port)) ∧
     (∀ port t, (u t).qWaits.find? (fun w => w.port = port && w.t + 100 ≤ (u t).utick) = none →
       exec (.rxQueueWaitTimeout ⟨port, t⟩) s = .next (u t)))

/-- DMA: START copies the registers of an enabled idle channel, and does nothing on another; STOP halts an active one
with CAUSE 5 and the address of the next word; a turn waits while a swap runs; a turn of KIND 0 between two ranges of
an undamaged DM that do not overlap moves up to 8 words and ends the transfer after its last (R197, R495 to R499). -/
def Obligations.DmaChannelsStartStopAndMove : Prop :=
  ∀ (s : State) (c : Nat), c < 32 →
    (s.dmaActive c = false → s.lf (Addr.dmaCfg c) 0 0 = 1 → s.fld (Addr.dmaLen c) 23 0 ≠ 0 →
      exec (.dmacGoStart c) s = .next (((s.wr (Addr.dmaCount c) 0).wr (Addr.dmaStat c) 1).setDma c
        { src := s.rdN (Addr.dmaSrc c), dst := s.rdN (Addr.dmaDst c), len := s.fld (Addr.dmaLen c) 23 0 })) ∧
    (s.dmaActive c = true ∨ s.lf (Addr.dmaCfg c) 0 0 = 0 → exec (.dmacGoStart c) s = .next s) ∧
    (s.dmaActive c = false → exec (.dmacGoStop c) s = .next s) ∧
    (s.dmaActive c = true → exec (.dmacGoStop c) s = .next (s.dmaHalt c 5 (s.dmaNext c))) ∧
    (s.se.swap.chamber = .swapping → exec (.dmaBurst c) s = .next s) ∧
    (∀ k src dst len, s.dmaActive c = true → s.se.swap.chamber ≠ .swapping → s.Undamaged → s.dmaKind c = 0 →
      (s.dma c).src = dmBase + src → (s.dma c).dst = dmBase + dst → (s.dma c).len = len → (s.dma c).gather = [] →
      (s.dma c).opened = false → src % 4 = 0 → dst % 4 = 0 → src + 4 * len ≤ 0x800000 → dst + 4 * len ≤ 0x800000 →
      src + 4 * len ≤ dst ∨ dst + 4 * len ≤ src → s.fld (Addr.dmaCount c) 23 0 = k → k < len →
      let m := min 8 (len - k)
      ∃ t, exec (.dmaBurst c) s = .next t ∧ t.fld (Addr.dmaCount c) 23 0 = k + m ∧
        (k + m = len → t.rdN (Addr.dmaStat c) = 2) ∧ (k + m < len → t.rd (Addr.dmaStat c) = s.rd (Addr.dmaStat c)) ∧
        (∀ j, j < 4 * m → sget 0 t.dm (dst + 4 * k + j) = sget 0 s.dm (src + 4 * k + j)) ∧
        (∀ x, x < dst + 4 * k ∨ dst + 4 * (k + m) ≤ x → sget 0 t.dm x = sget 0 s.dm x) ∧
        t.pm = s.pm ∧ t.mram = s.mram ∧ t.se = s.se ∧ t.queues = s.queues)

/-- Memory integrity events. A flagged word that the page check rebuilds is counted with its address and kept in the
cache; one that cannot be rebuilt is recorded with a free number of flagged words, and its reader fails: a fetch or a
data access of the SE ends its context, a read of the MGC's own stops the device. A parity upset in hot bits, edge
cells or a timer leaves a wrong parity there. The test window opens in STOP only; MIU_CLR clears; the splice buffer of
a memory is flushed oldest first (R182, R421 to R430, R435, R441). The MIU opcodes: status with its clear, raw reads
and writes of data words in the open test window, and the scrub: accepted, or refused while one runs; over undamaged
pages it takes page after page, repeats a pass that a write interrupted, and ends with its notice and summary; an
abort asks it to end (R436 to R443). -/
def Obligations.MemoryIntegrityEventsAndOpcodes : Prop :=
  (∀ (s : State) (v : Word) (a : Nat),
     (memOf a ≠ 3 → a % 8 = 0 → sget 0 s.miu.chk a = 0 → exec (.rebuildEnd .seData a true) s = .next
       (let t := ((s.inc Addr.miuRebuilds).wr Addr.miuLastAddr (BitVec.ofNat 32 a)).ev 0x200 a;
        let cache := (a, s.rawWord a) :: (t.miu.cache.filter (fun e => memOf e.1 = memOf a && e.1 ≠ a)).take 7 ++
          t.miu.cache.filter (fun e => memOf e.1 ≠ memOf a);
        { t with miu := { t.miu with cache := cache } })) ∧
     (memOf a ≠ 3 → a % 8 = 0 → sget 0 s.miu.chk a = 0 →
       let k := 1 + s.free.1 % 66
       let lost (src unit ctx : Nat) : State := s.free.2.unrebuildable src unit ctx k (decide (k < 3)) a
       exec (.rebuildEnd .mgcCommand a false) s = .next (lost 4 0 0) ∧
       exec (.rebuildEnd .mgcOwn a false) s = .next (((lost 4 0 0).ev 0x203 a).enterFault 0x203) ∧
       (∀ n, s.se.active = some n → exec (.rebuildEnd .seFetch a false) s = .next ((lost 1 0 n).integrity n 0) ∧
         exec (.rebuildEnd .seData a false) s = .next ((lost 2 0 n).integrity n 1))) ∧
     (∀ k u, s.free = (k, u) → u = { s with freeN := s.freeN + 1 } ∧ k = Config.freeValue s.freeN) ∧
     (∀ k b, memOf (a / 8 * 8) = 3 → s.parUnit a = some k → exec (.rebuildEnd .mgcCommand a b) s =
       .next { s with se := { s.se with parBad := k :: s.se.parBad.filter (· ≠ k) } }) ∧
     (s.op ≠ .stop ∨ bitsOf v 2 1 = 3 ∨ 64 < bitsOf v 31 25 → exec (.miuTestWrite v) s = .next s) ∧
     (s.op = .stop → bitsOf v 2 1 ≠ 3 → 1 ≤ bitsOf v 31 25 → bitsOf v 31 25 ≤ 64 → exec (.miuTestWrite v) s =
       .next (((s.fence.wr Addr.miuTest (v &&& 0xFEFFFE06)).setBit Addr.miuStat 2 true).event 0x209 (v &&& 0xFEFFFE06))) ∧
     exec (.miuClr v) s = .next (if v.getLsbD 0 then
       [Addr.miuRebuilds, Addr.miuScrubReb, Addr.miuUncorr, Addr.miuImgfix, Addr.miuSpliceDrop, Addr.miuFirstAddr,
         Addr.miuErrInfo].foldl (fun s a => s.wr a 0) s else s) ∧
     (∀ m, s.miu.splice.find? (fun e => memOf e.addr = m) = none → exec (.spliceFlush m) s = .next s) ∧
     (∀ m e, s.miu.splice.find? (fun e => memOf e.addr = m) = some e → s.pageBad (pageOf e.addr) = false →
       ∀ d t, ({ s with miu := { s.miu with splice := s.miu.splice.filter (·.addr ≠ e.addr) } } : State).readMem e.addr = (some d, t) →
         exec (.spliceFlush m) s = .next (t.writeWord 8 0 0 e.addr (spliceOver d e.bytes)))) ∧
  (∀ (s : State) (q : Req) (p : Bytes) (b : Byte) (hit : Bool),
     let u := s.carry q
     let a := field p 0 4
     let n := field p 4 4
     let what := field p 4 1
     s.Carries q 0x800 (.miuStatus q [b]) ((u.miuClear (BitVec.ofNat 32 b.toNat)).reply q 0x800 0x0800
       ((List.range 10).flatMap fun i => wordBytes (u.rd (Addr.miuStat + 4 * i)))) ∧
     (p.length = 8 → what = 0 → field p 5 1 ≤ 254 → u.bit Addr.miuStat 2 = true → u.inTest 0 a (field p 5 1) = true →
       u.swapping = false →
       s.Carries q 0x803 (.miuRawRead q p) (u.reply q 0x803 0x0800 ((List.range (field p 5 1)).flatMap fun i =>
         leBytes 8 (u.rawWord (a + 8 * i)).toNat ++
           [u.storedChk (a + 8 * i), BitVec.ofNat 8 (b2n (decide (wordCheck (u.rawWord (a + 8 * i)) = u.storedChk (a + 8 * i))))] ++
           List.replicate 6 0))) ∧
     (p.length = 20 → what = 0 → field p 5 1 % 4 = 3 → u.bit Addr.miuStat 2 = true → u.inTest 0 a 1 = true →
       u.miu.splice = [] → u.pmRefused a 8 = false → u.swapping = false → s.Carries q 0x804 (.miuRawWrite q p)
         ((u.setItem 0 a (BitVec.ofNat 64 (field p 8 8)) (BitVec.ofNat 8 (field p 16 1))).reply q 0x804 0x0800 [])) ∧
     (p.length = 12 → oneWindow a n = true → n ≠ 0 → (p.getD 8 0).getLsbD 0 = false → u.miu.scrub = none →
       s.Carries q 0x801 (.miuScrub q p) (let t := u.accept q 0x801;
         { t.setFld Addr.miuStat 1 0 1 with miu := { t.miu with scrub := some ⟨pagesIn a n, 0, false, 0, 0, 0, 0, 0, 0, false⟩ } })) ∧
     (p.length = 12 → oneWindow a n = true → (p.getD 8 0).getLsbD 0 = false → u.miu.scrub ≠ none →
       s.Carries q 0x801 (.miuScrub q p) (u.reply q 0x801 0x0831 [])) ∧
     (p = [] → s.Carries q 0x802 (.miuScrubAbort q p)
       (({ u with miu := { u.miu with scrub := u.miu.scrub.map fun k => { k with abort := true } } } : State).reply q 0x802 0x0800 [])) ∧
     (s.miu.scrub = none → exec (.scrubPage hit) s = .next s) ∧
     (∀ k page next rest, s.miu.scrub = some k → k.pages = page :: next :: rest → k.abort = false → s.pageClean page = true →
       sget 0 s.miu.pdev page = 0 → sget 0 s.miu.qdev page = 0 →
       let after : Scrub := { k with pages := next :: rest, pass := 0, done := k.done + 1, words := k.words + 64 }
       exec (.scrubPage false) s = .next { s with miu := { s.miu with scrub := some after } } ∧
       (k.pass < 3 → exec (.scrubPage true) s = .next { s with miu := { s.miu with scrub := some { k with pass := k.pass + 1 } } })) ∧
     (∀ k page, s.miu.scrub = some k → k.pages = [page] → k.abort = false → s.pageClean page = true →
       sget 0 s.miu.pdev page = 0 → sget 0 s.miu.qdev page = 0 →
       exec (.scrubPage false) s = .next (((({ s with miu := { s.miu with scrub := none } } : State).setFld Addr.miuStat 1 0 2).ev 0x205
         k.uncorr).noticeAll 0x0801 0x0800 ([k.words + 64, k.rebuilt, k.uncorr, k.first, k.syndskip, 0].flatMap (leBytes 4)))))

/-- The event recorder: the oldest held record, without write lock, after no loss and outside a drain, goes to its
ring slot and RSEQ counts; a frozen recorder writes nothing. EVR_CTRL freezes and unfreezes with EV 0x280 and, once no
record is held, EV 0x281; a freeze ends after 10 s with EV 0x282; a rate window starts its budgets afresh; EVR_CLR
clears the counts (R472, R473, R479 to R482). The EVR opcodes: status, freeze and unfreeze, a clear accepted in STOP
alone; a read of more than 127 records is refused, one that starts at RSEQ replies its start, and one that starts at
the newest record replies that one when its slot is valid, with the next number (R482, R483). -/
def Obligations.EventRecorderAndItsOpcodes : Prop :=
  (∀ (s : State) (v : Word) (t : Nat),
     let u := s.at t
     let frozen (s : State) : State := { s with evr := { s.evr with frozen := true, frozenAt := s.utick } }
     (s.evr.hq = [] ∨ s.evr.frozen = true → exec .eventRecordWrite s = .next s) ∧
     (∀ r rest, s.evr.hq = r :: rest → s.evr.frozen = false → s.evr.drain = none → s.evr.lost = 0 → s.wlock = false → r.code ≠ 0x285 →
       let w := s.rdN Addr.evrRseq
       let o := 8192 + 32 * (w % 4096)
       ∃ x, exec .eventRecordWrite s = .next x ∧ x.evr.hq = rest ∧ x.rd Addr.evrRseq = BitVec.ofNat 32 (w + 1) ∧
         (∀ i, i < 32 → sget 0 x.mram (o + i) = (recordBytes r s.unitN w).getD i 0) ∧
         (∀ i, i < o ∨ o + 32 ≤ i → sget 0 x.mram i = sget 0 s.mram i) ∧ x.dm = s.dm ∧ x.pm = s.pm ∧ x.se = s.se) ∧
     (∀ win, winNs win ≠ 0 → t % winNs win = 0 → exec (.rateWindowStart win t) s = .next
       { u with evr := { u.evr with used := skeep u.evr.used fun k => bitsOf (u.rateWord (k / 16)) 11 8 ≠ win } }) ∧
     (u.evr.frozen = false → exec (.evrCtrlFreeze t) s = .next ((frozen u).ev 0x280 0)) ∧
     (u.evr.frozen = true → exec (.evrCtrlFreeze t) s = .next (frozen u)) ∧
     (s.evr.frozen = false → exec .evrCtrlUnfreeze s = .next s) ∧
     (s.evr.frozen = true → s.evr.hq = [] → exec .evrCtrlUnfreeze s = .next
       (({ s with evr := { s.evr with frozen := false, drain := none } } : State).ev 0x281 0)) ∧
     (s.evr.frozen = true → s.evr.hq ≠ [] → exec .evrCtrlUnfreeze s = .next
       { s with evr := { s.evr with frozen := false, drain := some (s.evr.hq.length, s.evr.hq.length) } }) ∧
     (u.evr.frozen = true → u.evr.frozenAt + 1000000000 ≤ u.utick → exec (.freezeTimeout t) s = .next (u.evrUnfreeze.ev 0x282 0)) ∧
     (u.evr.frozen = false ∨ u.utick < u.evr.frozenAt + 1000000000 → exec (.freezeTimeout t) s = .next u) ∧
     exec (.evrClr v) s = .next (if v.getLsbD 0 then { s with regs := skeep s.regs fun a =>
       !(a = Addr.evrLost || a = Addr.evrSupp || (0xA0800 ≤ a && a < 0xA2800 && a % 8 = 4)) } else s)) ∧
  (∀ (s : State) (q : Req) (p : Bytes),
     let u := s.carry q
     (p = [] →
       s.Carries q 0xA00 (.evrStatus q p) (u.reply q 0xA00 0x0A00 (leBytes 4 (b2n u.evr.frozen + u.evr.hq.length * 256) ++
         regsBytes u [Addr.evrRseq, Addr.evrLost, Addr.evrSupp])) ∧
       s.Carries q 0xA02 (.evrFreeze q p) (u.evrFreeze.reply q 0xA02 0x0A00 []) ∧
       s.Carries q 0xA03 (.evrUnfreeze q p) (u.evrUnfreeze.reply q 0xA03 0x0A00 []) ∧
       (u.op = .stop → s.Carries q 0xA04 (.evrClear q p) (u.accept q 0xA04 [0])) ∧
       (u.op ≠ .stop → s.Carries q 0xA04 (.evrClear q p) (u.reply q 0xA04 0x0A20 []))) ∧
     (p.length = 8 → 127 < field p 4 1 → s.Carries q 0xA01 (.evrRead q p) (u.reply q 0xA01 0x0A11 [])) ∧
     (p.length = 8 → field p 4 1 ≤ 127 → field p 0 4 = u.rdN Addr.evrRseq →
       s.Carries q 0xA01 (.evrRead q p) (u.reply q 0xA01 0x0A00 (leBytes 4 (field p 0 4)))) ∧
     (∀ x, p.length = 8 → 1 ≤ field p 4 1 → field p 4 1 ≤ 127 → field p 0 4 = x → u.rdN Addr.evrRseq = x + 1 → u.slotFlagged (x % 4096) = false →
       (u.slotRseq (x % 4096) = some x → s.Carries q 0xA01 (.evrRead q p)
         (u.reply q 0xA01 0x0A00 (leBytes 4 (x + 1) ++ memBytes u.mram (8192 + 32 * (x % 4096)) 32))) ∧
       (u.slotRseq (x % 4096) ≠ some x → s.Carries q 0xA01 (.evrRead q p) (u.reply q 0xA01 0x0A00 (leBytes 4 (x + 1))))))

/-! ### Contexts, the process image and states -/

/-- A write to SE_SWTRIG that names an enabled user event task, in RUN with releases open, releases a waiting context
with its stack empty and its PC at the entry; with an instance active it waits as one pending release, and further
ones are merged and counted with EV 0x082. A write that names no such task does nothing (R86, R102, R103). In a SOLO
unit outside a join, the grid counts from 0 at the first tick in RUN after CTX7 and releases the cyclic tasks that are
due; it goes on counting through STOP and HOLD (log entry 113), and an instant off the 10 µs grid is no tick. A
hardware trigger that is the oldest of its crossing reaches the event tasks that name its source, selector and
condition, and no other arrives (R23, R28, R34, R96, R101, R103). -/
def Obligations.TasksAreTriggeredAndReleased : Prop :=
  ((∀ (s : State) (v : Word), s.userEvent (bitsOf v 7 0) = false → exec (.seSwtrig v) s = .next s) ∧
   ∀ (s : State) (n : Nat) (v : Word), bitsOf v 7 0 = n → s.userEvent n = true → s.op = .run → s.se.leaving = none →
     s.se.pfail = false → s.se.starting = false → s.trigHeld = false → s.se.holds = [] → s.twl.jphase ≠ 2 →
     let c := s.ctx n
     (c.st = .waiting ∨ c.st = .disabled → ∃ t, exec (.seSwtrig v) s = .next t ∧
       t.ctx n = { c with
         st := .released, pc := (bitsOf (s.lv (Addr.ctxEntry n)) 22 2) * 4, stk := [], sw := 0, consec := 0, pend := false,
         relT := s.dtime, relAt := s.dtime, copied := false, first := !c.ran, ran := true, cut := [] } ∧
       t.se.copyQ = s.se.copyQ ++ [n] ∧ (∀ m, m ≠ n → t.ctx m = s.ctx m) ∧ t.regs = s.regs ∧ t.dm = s.dm) ∧
     (c.st ≠ .waiting → c.st ≠ .disabled → c.pend = false → exec (.seSwtrig v) s = .next (s.setCtx n { c with pend := true })) ∧
     (c.st ≠ .waiting → c.st ≠ .disabled → c.pend = true →
       exec (.seSwtrig v) s = .next ((s.setCtx n { c with ovr := min (c.ovr + 1) 0xFFFF }).ev 0x082 n))) ∧
  (∀ (s : State) (t : Nat) (g : Trigger),
     let u := s.at t
     let now (s : State) (k : Nat) : State := { s with se := { s.se with gT := s.dtime, g := k, gridOn := true } }
     (t % 10000 ≠ 0 → exec (.gridTick t) s = .next u) ∧
     (t % 10000 = 0 → u.role = .solo → u.twl.jphase = 0 →
       (u.op = .run → u.se.starting = false → u.se.leaving = none → u.se.pfail = false →
         let v := now u (if u.se.gridOn then u.se.g + 1 else 0)
         exec (.gridTick t) s = .next ((v.dueAt v.se.g).foldl (fun s n => s.due n) v)) ∧
       (u.op = .run → u.se.starting = true → exec (.gridTick t) s = .next { u with se := { u.se with gT := u.dtime } }) ∧
       (u.op = .stop ∨ u.op = .hold →
         exec (.gridTick t) s = .next { u with se := { u.se with gT := u.dtime, g := u.se.g + 1 } })) ∧
     (∀ n, n ∈ u.dueAt u.se.g ↔ n < 160 ∧ u.ctxEn n = true ∧ u.ctxPeriod n ≠ 0 ∧ u.lf (Addr.ctxPhase n) 23 0 ≤ u.se.g ∧
       (u.se.g - u.lf (Addr.ctxPhase n) 23 0) % u.ctxPeriod n = 0) ∧
     (u.se.trigQ.find? (fun x => crossingOf x = crossingOf g) ≠ some g → exec (.triggerArrival g t) s = .next u) ∧
     (let v : State := { u with se := { u.se with trigQ := takeTrig g u.se.trigQ } };
       (u.se.trigQ.find? (fun x => crossingOf x = crossingOf g) = some g →
         exec (.triggerArrival g t) s = .next ((v.trigCtxs g).foldl (fun s n => s.userTrig n) v)) ∧
       ∀ n, n ∈ v.trigCtxs g ↔ 16 ≤ n ∧ n < 160 ∧ v.ctxEn n = true ∧ v.ctxPeriod n = 0 ∧ g.src ≠ 0 ∧
         bitsOf (v.lv (Addr.ctxTrig n)) 3 0 = g.src ∧ bitsOf (v.lv (Addr.ctxTrig n)) 16 4 = g.sel ∧ 18 ≤ g.cond ∧ g.cond ≤ 21 ∧
         (v.lv (Addr.ctxTrig n)).getLsbD g.cond = true))

/-- A snapshot copy that may start takes the input image as it stands into the context's buffer; at its end the
context is copied and the best context executes; a flagged image word is an integrity error of the context instead.
The first of the waiting image writes is served when no copy runs, with its triggers behind it; no other row starts or
ends one (R18, R19, R97, R99, R434). A publication copies the context's output buffer to its output lines as one write
and completes the instance (R20, R91, R108); an image-copy repair is counted with EV 0x207 (R433). -/
def Obligations.SnapshotsAndPublications : Prop :=
  (∀ (s : State) (n : Nat),
     (s.se.copying = none → s.se.imgWaits = [] → s.nextCopy = some n → (∀ m ∈ s.twl.send, m.ctx ≠ n) →
       exec (.snapshotCopyStart n) s = .next
         (let t := s.dmWrite .seData (s.lf (Addr.ctxBuf n) 10 0 * 4096)
            ((s.mapLines n false).flatMap fun k => memBytes s.inImg (64 * k) 64);
          { t with se := { t.se with copying := some n, copyQ := t.se.copyQ.filter (· ≠ n) } })) ∧
     (s.se.copying ≠ none → exec (.snapshotCopyStart n) s = .next s) ∧
     (s.se.copying = some n →
       let t : State := { s with se := { s.se with copying := none } }
       exec (.snapshotCopyEnd n none) s = .next (t.setCtx n { t.ctx n with copied := true }).dispatch ∧
       ∀ off, exec (.snapshotCopyEnd n (some off)) s = .next (((t.miuErr 10 0 n 0 false off).ev 0x208 off).integrity n 1)) ∧
     (s.se.copying ≠ some n → ∀ bad, exec (.snapshotCopyEnd n bad) s = .next s) ∧
     (∀ t, let u := s.at t
       (∀ w ws, u.se.imgWaits = w :: ws → u.se.copying = none → w.lost = none → w.lat = none → (∀ x ∈ u.se.imgBack, x.src ≠ w.src) →
         exec (.imageWrite ⟨w.src, t⟩) s = .next
           { u with inImg := imgPut u.inImg w.cells, se := { u.se with imgWaits := ws, trigQ := u.se.trigQ ++ w.trigs } }) ∧
       (∀ src, u.se.copying ≠ none ∨ u.se.imgWaits = [] → exec (.imageWrite ⟨src, t⟩) s = .next u) ∧
       (∀ w ws src, u.se.imgWaits = w :: ws → w.src ≠ src → exec (.imageWrite ⟨src, t⟩) s = .next u))) ∧
  (∀ (s : State) (n t : Nat),
     let u := s.at t
     let ls := u.mapLines n true
     ((u.ctx n).st ≠ .publishing → exec (.publicationEnd n t) s = .next u) ∧
     (∀ d v, (u.ctx n).st = .publishing → u.op ≠ .fault →
       u.dmRead .seData (u.lf (Addr.ctxBuf n) 26 16 * 4096) (64 * ls.length) = (some d, v) →
       exec (.publicationEnd n t) s = .next ((v.publish n d).complete n)) ∧
     (∀ v, (u.ctx n).st = .publishing → u.op ≠ .fault →
       u.dmRead .seData (u.lf (Addr.ctxBuf n) 26 16 * 4096) (64 * ls.length) = (none, v) →
       exec (.publicationEnd n t) s = .next (v.integrity n 1)) ∧
     (∀ d : Bytes, ls.Nodup → d.length = 64 * ls.length →
       (∀ i j, i < ls.length → j < 64 → sget 0 (u.publish n d).outImg (64 * ls.getD i 0 + j) = d.getD (64 * i + j) 0) ∧
       (∀ x, x / 64 ∉ ls → sget 0 (u.publish n d).outImg x = sget 0 u.outImg x)) ∧
     (∀ out off, exec (.imageCopyRepair out off) s = .next ((s.inc Addr.miuImgfix).ev 0x207 off)))

/-- The SE registers with a write of their own and the SE opcodes: hot words with their parity, the clears of times
and overruns, the status of the selected tasks and shafts, and the trigger of an enabled user event task in RUN,
refused for any other (R90, R102, R130, R182). -/
def Obligations.ScanEngineOpcodesAndRegisters : Prop :=
  ∀ (s : State) (q : Req) (p : Bytes) (b : Byte) (n : Nat) (v : Word),
    let u := s.carry q
    (n < 256 → exec (.seHotWrite n v) s = .next ((s.wr (Addr.seHot n) v).parHeal (hotUnit (32 * n)))) ∧
    ((s.se.ctxs.map Prod.fst).Nodup →
      (∃ t, exec .seCtrlClrTime s = .next t ∧ ∀ m, t.ctx m = { s.ctx m with respLast := 0, respMax := 0 }) ∧
      (∃ t, exec .seCtrlClrOvr s = .next t ∧ ∀ m, t.ctx m = { s.ctx m with ovr := 0 })) ∧
    (p.length = 20 → s.Carries q 0x200 (.seTaskStatus q p) (u.reply q 0x200 0x0200
      (((List.range 160).filter (leNat p).testBit).flatMap fun n =>
        leBytes 4 n ++ wordBytes (u.ctxStatReg n) ++ wordBytes (u.ctxTimeReg n)))) ∧
    (b.toNat < 16 ∨ 159 < b.toNat → s.Carries q 0x201 (.seTrigger q [b]) (u.reply q 0x201 0x0211 [])) ∧
    (16 ≤ b.toNat → b.toNat ≤ 159 → u.userEvent b.toNat = false ∨ u.op ≠ .run →
      s.Carries q 0x201 (.seTrigger q [b]) (u.reply q 0x201 0x0220 [])) ∧
    (16 ≤ b.toNat → b.toNat ≤ 159 → u.userEvent b.toNat = true → u.op = .run →
      s.Carries q 0x201 (.seTrigger q [b]) ((u.userTrig b.toNat).reply q 0x201 0x0200 [])) ∧
    (s.Carries q 0x202 (.seClearStats q [b])
      (let t := if b.getLsbD 0 then u.clrTime else u; (if b.getLsbD 1 then t.clrOvr else t).reply q 0x202 0x0200 [])) ∧
    (p.length = 4 → s.Carries q 0x203 (.seShaftRead q p) (u.reply q 0x203 0x0200
      (((List.range 32).filter (leNat p).testBit).flatMap fun n => wordBytes (u.rd (Addr.shStat n)) ++ wordBytes (u.shPhaseReg n) ++
        regsBytes u [Addr.shCount n, Addr.shPeriod n, Addr.shStampLo n, Addr.shStampHi n])))

/-- SYS_STATE_SET in a SOLO unit without SETINC: a change from RUN begins at once, any other waits for the next
management tick; a change in progress is BUSY, the state already reached answers OK, RUN without a program is refused;
so is every request in FAULT, RECOVERY and BOOT, and in TRACKING and JOINING (R75, R119 to R121; the order of the
refusals: log entry 114). The requested state is reached, but after a power-fail warning none: STOP clears the output
image and no instance is left active, HOLD keeps the images, and RUN after STOP, where no context is enabled, clears
hot bits, edge cells and timers but MIR; leaving RUN completes once no instance is active, or after 100 ms with the
instances abandoned; CTX4 is cut 2 ms after its start (R119 to R122, R144, R152, R158). -/
def Obligations.StateChangesAreRequestedAndReached : Prop :=
  (∀ (s : State) (q : Req) (b : Byte) (target : OpState),
     let u := s.carry q
     let set (t : State) : Prop := s.Carries q 5 (.sysStateSet q [b]) t
     (b.toNat = 2 ∧ target = .stop) ∨ (b.toNat = 3 ∧ target = .run) ∨ (b.toNat = 4 ∧ target = .hold) →
     (u.op = .fault ∨ u.op = .recovery ∨ u.op = .boot → set (u.reply q 5 0x0020 [])) ∧
     (u.op = .stop ∨ u.op = .run ∨ u.op = .hold → u.role = .tracking ∨ u.role = .joining → set (u.reply q 5 0x0021 [])) ∧
     (u.op = .stop ∨ u.op = .run ∨ u.op = .hold → u.role = .solo → u.fwu.setinc = false → target = .run → u.se.program = false →
       set (u.reply q 5 0x0020 [])) ∧
     (u.op = .stop ∨ u.op = .run ∨ u.op = .hold → u.role = .solo → u.fwu.setinc = false → target ≠ .run ∨ u.se.program = true →
       (u.changing = true → set (u.reply q 5 0x0031 [])) ∧
       (u.changing = false → u.op = target → set (u.reply q 5 0x0000 [])) ∧
       (u.changing = false → u.op ≠ target → u.op = .run → set ((u.accept q 5).leaveRun target)) ∧
       (u.changing = false → u.op ≠ target → u.op ≠ .run → set
         (let w := u.accept q 5; { w with se := { w.se with change := some ⟨target, w.utick⟩ } })))) ∧
  (∀ (s : State) (t : Nat),
     let u := s.at t
     (u.se.pfail = true → exec (.stateChangeApply t) s = .next u ∧ exec (.runExitComplete t) s = .next u ∧
       exec (.runExitAbandon t) s = .next u) ∧
     (∀ c, u.se.change = some c → u.se.pfail = false → u.op ≠ .fault →
       exec (.stateChangeApply t) s = .next (({ u with se := { u.se with change := none } } : State).reach c.target)) ∧
     (u.se.change = none → u.twl.pairReq = none → exec (.stateChangeApply t) s = .next u) ∧
     (∀ l, u.se.leaving = some l → u.op = .run → u.se.pfail = false → u.activeInst = [] → exec (.runExitComplete t) s = .next (u.reach l.target)) ∧
     (u.activeInst ≠ [] ∨ u.se.leaving = none → exec (.runExitComplete t) s = .next u) ∧
     (∀ l, u.se.leaving = some l → u.utick < l.t + 10000000 → exec (.runExitAbandon t) s = .next u) ∧
     (∀ l, u.se.leaving = some l → u.op = .run → u.se.pfail = false → l.t + 10000000 ≤ u.utick →
       exec (.runExitAbandon t) s = .next ((u.activeInst.foldl (fun s n => s.abandonInst n) u).reach l.target)) ∧
     (∀ t0, u.se.ctx4At = some t0 → u.se.pfail = true → t0 + 200000 ≤ u.utick →
       exec (.ctx4Timeout t) s = .next ((u.closeOpen 4 true).ctx4End)) ∧
     (u.se.pfail = false → exec (.ctx4Timeout t) s = .next u) ∧
     (s.role = .solo → s.hpi.longs = [] → let v := s.reach .stop;
       v.op = .stop ∧ v.outImg = [] ∧ v.se.active = none ∧ v.se.leaving = none ∧ v.se.change = none ∧ v.se.fresh = true ∧
       v.inImg = s.inImg ∧ v.dm = s.dm ∧ v.pm = s.pm ∧ v.mram = s.mram) ∧
     (s.role = .solo → s.hpi.longs = [] → let v := s.reach .hold;
       v.op = .hold ∧ v.inImg = s.inImg ∧ v.outImg = s.outImg ∧ v.se.active = none ∧ v.dm = s.dm ∧ v.pm = s.pm) ∧
     (s.role = .solo → s.hpi.longs = [] → s.se.fresh = true → (s.se.tmb.map Prod.fst).Nodup → (∀ n, s.ctxEn n = false) → let v := s.reach .run;
       v.op = .run ∧ v.se.edge = [] ∧ v.se.fresh = false ∧ v.se.gridOn = false ∧ (∀ n, n < 256 → v.rd (Addr.seHot n) = 0) ∧
       (∀ k, (v.timer k).run = false ∧ (v.timer k).mode = 0 ∧ (v.timer k).mir = (s.timer k).mir) ∧ v.dm = s.dm ∧ v.pm = s.pm))

/-! ### Lock Swap -/

/-- The opcodes of the chamber: it opens when it is empty or loaded, takes the bytes of a chamber image while it is
open, and is checked after its close; the check leaves it LOADED with its DIGEST and its migration size, or OPEN with
the first failing offset (R189, R191, R192, R212). Arming is accepted from a loaded chamber with no SE commit pending,
a time-out of 1 to 60 s, outside BOOT, RECOVERY and FAULT and only on a unit that decides; it is recorded as EV 0x092.
Disarming leaves the chamber loaded and answers the arm command (R194, R195, R210, R212). -/
def Obligations.TheChamberIsLoadedAndArmed : Prop :=
  (∀ (s : State) (q : Req) (p : Bytes),
     let u := s.carry q
     let ch := u.se.swap.chamber
     let off := field p 0 4
     let n := p.length - 8
     (p = [] →
       (ch = .empty ∨ ch = .loaded → s.Carries q 0x210 (.seChamberOpen q p) ((u.setChamber .open).reply q 0x210 0x0200 [])) ∧
       (ch = .open → s.Carries q 0x210 (.seChamberOpen q p) (u.reply q 0x210 0x0200 [])) ∧
       (ch = .closing ∨ ch = .armed ∨ ch = .swapping → s.Carries q 0x210 (.seChamberOpen q p) (u.reply q 0x210 0x0231 [])) ∧
       (ch = .open → s.Carries q 0x212 (.seChamberClose q p) ((u.accept q 0x212).setChamber .closing)) ∧
       (ch ≠ .open → s.Carries q 0x212 (.seChamberClose q p) (u.reply q 0x212 0x0220 []))) ∧
     (8 ≤ p.length → n % 8 = 0 → n ≤ 4072 →
       (ch ≠ .open → s.Carries q 0x211 (.seChamberWrite q p) (u.reply q 0x211 0x0220 [])) ∧
       (ch = .open → off % 8 ≠ 0 ∨ 0x800000 < off + n → s.Carries q 0x211 (.seChamberWrite q p) (u.reply q 0x211 0x0211 [])) ∧
       (ch = .open → off % 8 = 0 → off + n ≤ 0x800000 → s.Carries q 0x211 (.seChamberWrite q p)
         ((u.writeBytes .mgcCommand (pmBase + 0x800000 * (1 - u.fld Addr.seSwapStat 8 8) + off) (p.drop 8)).reply q 0x211 0x0200 []))) ∧
     (s.se.swap.chamber ≠ .closing → exec .chamberCheckEnd s = .next s) ∧
     (s.se.swap.chamber = .closing → s.imageLost s.chamberImage = none →
       (∀ o, s.chamberImage.fail = some o →
         exec .chamberCheckEnd s = .next ((s.setChamber .open).noticeAll 0x212 0x0211 (leBytes 4 o))) ∧
       (s.chamberImage.fail = none →
         let d := s.chamberImage.bytes 0x40 32
         let t := (s.wrs (Addr.seChamberDigest 0) (toWords d)).wr Addr.seSwapMig (BitVec.ofNat 32 (migKib s.chamberImage.recs))
         exec .chamberCheckEnd s = .next ((t.setChamber .loaded).noticeAll 0x212 0x0200 d)))) ∧
  (∀ (s : State) (q : Req) (p : Bytes),
     let u := s.carry q
     let ch := u.se.swap.chamber
     let t := (p.getD 0 0).toNat
     let free := u.op = .stop ∨ u.op = .run ∨ u.op = .hold
     let decides := u.role ≠ .tracking ∧ u.role ≠ .joining
     (p.length = 4 → 1 ≤ t → t ≤ 60 →
       (¬free → s.Carries q 0x213 (.seSwapArm q p) (u.reply q 0x213 0x0220 [])) ∧
       (free → ¬decides → s.Carries q 0x213 (.seSwapArm q p) (u.reply q 0x213 0x0221 [])) ∧
       (free → decides → ch = .armed ∨ ch = .swapping → s.Carries q 0x213 (.seSwapArm q p) (u.reply q 0x213 0x0231 [])) ∧
       (free → decides → ch = .empty ∨ ch = .open ∨ ch = .closing → s.Carries q 0x213 (.seSwapArm q p) (u.reply q 0x213 0x0220 [])) ∧
       (free → decides → ch = .loaded → (∃ c ∈ u.commits, c.blk = .se) → s.Carries q 0x213 (.seSwapArm q p) (u.reply q 0x213 0x0231 [])) ∧
       (free → decides → u.role ≠ .primary → ch = .loaded → (∀ c ∈ u.commits, c.blk ≠ .se) →
         let a := (u.accept q 0x213).setChamber .armed
         let b : State := { a with se := { a.se with swap := { a.se.swap with armT := a.utick, timeout := t } } }
         s.Carries q 0x213 (.seSwapArm q p) ((b.setFld Addr.seSwapTime 31 16 0).ev 0x092 0))) ∧
     (p = [] →
       (ch = .armed → s.Carries q 0x214 (.seSwapDisarm q p) ((u.disarm 3).reply q 0x214 0x0200 [])) ∧
       (ch = .swapping → s.Carries q 0x214 (.seSwapDisarm q p) (u.reply q 0x214 0x0231 [])) ∧
       (ch ≠ .armed → ch ≠ .swapping → s.Carries q 0x214 (.seSwapDisarm q p) (u.reply q 0x214 0x0220 [])) ∧
       s.Carries q 0x215 (.seSwapStatus q p) (u.reply q 0x215 0x0200 (wordBytes (u.rd Addr.seSwapStat) ++
         wordBytes (if ch = .loaded then u.rd Addr.seSwapMig else 0) ++ regsBytes u [Addr.seSwapTime, Addr.seSwapErraddr]))))

/-- A swap of a SOLO unit starts at a slack point in RUN and at once in STOP and HOLD; it ends by swapFinish, whose
steps put the program and the regions of the chamber's image in force, and the register accesses that it held follow;
a swap that has not started within its time-out is abandoned, on a TRACKING unit by its PRIMARY; the holds of a pair's
attempt end when g_s passes. A shaft without edges for its stall time stands still (R128, R194 to R197, R200, R206).
-/
def Obligations.SwapsStartAtSlackPointsAndEnd : Prop :=
  ∀ (s : State) (t : Nat),
    let u := s.at t
    let w := u.se.swap
    (w.chamber = .armed → u.role = .solo → u.se.pfail = false → u.op = .stop ∨ u.op = .hold ∨ (u.op = .run ∧ u.slack u.tSw = true) →
      exec (.swapStart t) s = .next u.swapBegin) ∧
    (w.chamber = .armed → u.role = .solo → u.op = .run → u.slack u.tSw = false → exec (.swapStart t) s = .next u) ∧
    (w.chamber ≠ .swapping → exec (.swapEnd t) s = .next u) ∧
    (w.chamber = .swapping → exec (.swapEnd t) s = .next (w.held.foldl (fun v x => v.heldAccess x)
      ({ u with se := { u.se with swap := { w with held := [] } } } : State).swapFinish)) ∧
    (∀ a v, u.heldAccess (.write a v) = u.writeReg a v) ∧
    (let v := u.swapSteps u.chamberImage;
      v.se.program = true ∧ v.se.regions = u.chamberImage.regions) ∧
    (w.chamber = .armed → u.role ≠ .tracking → w.armT + w.timeout * 100000000 ≤ u.utick → exec (.swapTimeout t) s = .next (u.abandonSwap 2)) ∧
    (w.chamber ≠ .armed ∨ u.role = .tracking ∨ u.utick < w.armT + w.timeout * 100000000 → exec (.swapTimeout t) s = .next u) ∧
    (u.twl.exch = none → exec (.swapAttemptLapse t) s = .next u) ∧
    (∀ e, u.twl.exch = some e → (e.go = false ∧ e.gs ≤ u.se.g) ∨ e.gs < u.se.g →
      exec (.swapAttemptLapse t) s = .next (({ u with twl := { u.twl with exch := none } } : State).releaseHeld.dispatch)) ∧
    (∀ e, u.twl.exch = some e → u.se.g < e.gs ∨ (e.go = true ∧ u.se.g = e.gs) → exec (.swapAttemptLapse t) s = .next u) ∧
    (∀ n, n < 32 → u.ppr n ≠ 0 → u.lf (Addr.shLim n) 31 16 ≠ 0 → u.shStopped n = false →
      (u.utick < (u.shaft n).since + u.lf (Addr.shLim n) 31 16 * 100000 → exec (.shaftStall n t) s = .next u) ∧
      ((u.shaft n).since + u.lf (Addr.shLim n) 31 16 * 100000 ≤ u.utick → exec (.shaftStall n t) s = .next
        (let v := ((u.wr (Addr.shPhase n) (u.shPhaseReg n)).setBit (Addr.shStat n) 1 true).setBit (Addr.shStat n) 0 false;
         (v.wr (Addr.shPeriod n) 0).ev 0x088 n)))

/-- No swap within TIMEOUT seconds of arming: the unit that was told to arm abandons it. The running bank, its program
and its contexts stay, the chamber returns to LOADED, and EV 0x091 carries outcome 2, as SE_SWAP_STAT.LAST does
(R195). A TRACKING unit was armed by its PRIMARY, and follows it (R205; log entry 118). -/
def Obligations.AnArmedSwapIsAbandonedAfterItsTimeout : Prop :=
  ∀ (s : State) (t : Nat),
    let u := s.at t
    (u.se.swap.chamber = .armed → u.role ≠ .tracking → u.se.swap.armT + u.se.swap.timeout * 100000000 ≤ u.utick →
      ∃ x : State, exec (.swapTimeout t) s = .next (x.ev 0x091 2) ∧ (x.ev 0x091 2).se.swap.chamber = .loaded ∧
        x.fld Addr.seSwapStat 23 16 = 2 ∧ x.pm = u.pm ∧ x.fld Addr.seSwapStat 8 8 = u.fld Addr.seSwapStat 8 8 ∧
        x.se.program = u.se.program ∧ x.se.ctxs = u.se.ctxs ∧ x.se.active = u.se.active) ∧
    (u.role = .tracking → exec (.swapTimeout t) s = .next u)

/-! ### The indicator engine -/

/-- The indicator engine takes the oldest record: it is counted as dropped when it names no enabled point, comes from
another source, or repeats a sequence number; any other is evaluated, with the number of records missed before it,
which countGap counts. A time-out lapses every point whose last record is too old; IXE_CLR clears the counters (R216,
R217, R228, R237). The IXE opcodes: status lines of the input image, a point with its configuration and state, the
baseline and state operations on disabled points of the 6,144, and the counters (R238). -/
def Obligations.IndicatorRecordsAndOpcodes : Prop :=
  (∀ (s : State) (t : Nat) (v : Word),
     let u := s.at t
     (u.ixe.inq = [] → exec (.ixeRecord t) s = .next u) ∧
     (∀ r rest, u.ixe.inq = r :: rest →
       let w : State := { u with ixe := { u.ixe with inq := rest } }
       let p := field r.data 0 8 % 8192
       let seq := field r.data 0 8 / 2 ^ 13 % 256
       (p ≥ 6144 ∨ w.ptEn p = false ∨ w.ptFailed p = true ∨ w.ixeRuns = false →
         exec (.ixeRecord t) s = .next (w.inc Addr.ixeDropUnmap)) ∧
       (∀ x bs, p < 6144 → w.ptEn p = true → w.ptFailed p = false → w.ixeRuns = true →
         w.readBytes .ixe (Addr.ixePoint00 p) 64 = (some bs, x) →
         let named := x.lf (Addr.ixePoint08 p) 3 0 = r.port ∧ x.lf (Addr.ixePoint08 p) 10 4 = r.stn
         let any := x.ptValid p = false ∨ x.ixe.anySeq.contains p = true
         let d := (seq + 256 - x.fld (Addr.ixePoint20 p) 15 8) % 256
         (¬named → exec (.ixeRecord t) s =
           .next ((x.inc Addr.ixeDropSrc).ev 0x0C8 (p + r.port * 65536 + r.stn * 2 ^ 20))) ∧
         (named → ¬any → d = 0 ∨ 128 ≤ d → exec (.ixeRecord t) s = .next (x.inc Addr.ixeDropSeq)) ∧
         (named → ¬any → 1 < d → d < 128 → exec (.ixeRecord t) s =
           .next (x.evalRecord p r (d - 1))) ∧
         (named → any ∨ d = 1 → exec (.ixeRecord t) s = .next (x.evalRecord p r 0)))) ∧
     (∀ p n, 0 < n → u.countGap p n = ((u.addCnt (Addr.ixePoint38 p) n).addCnt Addr.ixeMissed n).ev 0x0C9 p) ∧
     (∀ p, u.countGap p 0 = u) ∧
     (u.op ≠ .stop → u.op ≠ .run → u.op ≠ .hold → exec (.ixeTimeoutCheck t) s = .next u) ∧
     (u.op = .stop ∨ u.op = .run ∨ u.op = .hold → exec (.ixeTimeoutCheck t) s = .next (u.timedOut.foldl (fun s p =>
       ((({ s with ixe := { s.ixe with lapsed := p :: s.ixe.lapsed } } : State).ev 0x0C4 p)).ptLapse .ixeTimeout p) u)) ∧
     (∀ p, p ∈ u.timedOut ↔ p ∈ u.enPoints ∧ u.ptValid p = true ∧ u.lf (Addr.ixePoint0c p) 31 16 ≠ 0 ∧
       u.rdN (Addr.ixePoint2c p) + u.rdN (Addr.ixePoint30 p) * 2 ^ 32 + u.lf (Addr.ixePoint0c p) 31 16 * 1000000 ≤ u.dtime) ∧
     exec (.ixeClr v) s = .next (if v.getLsbD 0 then
       ([Addr.ixeLat, Addr.ixeRecords, Addr.ixeDropFmt, Addr.ixeDropUnmap, Addr.ixeDropSrc, Addr.ixeDropSeq, Addr.ixeMissed,
         Addr.ixeNobin].foldl (fun s a => s.wr a 0) s).setFld Addr.ixeStat 31 16 0 else s)) ∧
  (∀ (s : State) (q : Req) (p : Bytes) (b : Byte),
     let u := s.carry q
     let f := (p.getD 0 0).toNat
     let k := (p.getD 1 0).toNat
     let n := field p 0 2
     let feat (x : Nat) : Nat := 0x30000000 + 1280 * n + 64 * x
     let put (s : State) (a : Nat) (w : Word) : State := s.writeBytes .mgcCommand a (wordBytes w)
     let counters := [Addr.ixeRecords, Addr.ixeDropFmt, Addr.ixeDropUnmap, Addr.ixeDropSrc, Addr.ixeDropSeq, Addr.ixeMissed, Addr.ixeNobin]
     (p.length = 2 →
       (f ≤ 63 → k ≤ 63 → f + k ≤ 64 → s.Carries q 0x300 (.ixeStatusRead q p)
         (u.reply q 0x300 0x0300 (memBytes u.inImg (0xF000 + 64 * f) (64 * k)))) ∧
       (64 ≤ f ∨ 64 ≤ k ∨ 64 < f + k → s.Carries q 0x300 (.ixeStatusRead q p) (u.reply q 0x300 0x0311 [])) ∧
       (n ≤ 6143 → ∀ st fs x y, u.readBytes .mgcCommand (Addr.ixePoint20 n) 32 = (some st, x) →
         x.readBytes .mgcCommand (feat 0) 1280 = (some fs, y) → s.Carries q 0x301 (.ixePointRead q p)
           (y.reply q 0x301 0x0300 (((List.range 8).flatMap fun i => wordBytes (u.lv (Addr.ixePoint00 n + 4 * i))) ++ st ++ fs))) ∧
       (n ≤ 6143 → u.ptEn n = false → s.Carries q 0x304 (.ixeStateClear q p) (((List.range 20).foldl (fun s x =>
         s.writeBytes .mgcCommand (feat x) (wordsBytes [0, 0, 0xFFFF, 0])) u).reply q 0x304 0x0300 [])) ∧
       (6143 < n → s.Carries q 0x301 (.ixePointRead q p) (u.reply q 0x301 0x0311 []) ∧
         s.Carries q 0x304 (.ixeStateClear q p) (u.reply q 0x304 0x0311 [])) ∧
       (n ≤ 6143 → u.ptEn n = true → s.Carries q 0x304 (.ixeStateClear q p) (u.reply q 0x304 0x0320 []))) ∧
     (p.length = 8 → n ≤ 6143 →
       (u.ptEn n = true → s.Carries q 0x302 (.ixeBaselineReset q p) (u.reply q 0x302 0x0320 [])) ∧
       (u.ptEn n = false → s.Carries q 0x302 (.ixeBaselineReset q p)
         ((((List.range 20).filter (field p 4 4).testBit).foldl (fun s x =>
           ((List.range 4).filter (field p 2 1).testBit).foldl (fun s i =>
             put (put (put s (feat x + 16 + 12 * i) 0) (feat x + 20 + 12 * i) 0) (feat x + 24 + 12 * i) 0) s) u).reply q 0x302 0x0300 []))) ∧
     (p.length = 16 → n ≤ 6143 → field p 2 1 ≤ 19 → field p 3 1 ≤ 3 → field p 12 4 ≤ 16777215 → field p 4 4 % 2 ^ 31 < 0x7F800000 →
       field p 8 4 < 0x7F800000 →
       (u.ptEn n = true → s.Carries q 0x303 (.ixeBaselineLoad q p) (u.reply q 0x303 0x0320 [])) ∧
       (u.ptEn n = false → let a := feat (field p 2 1) + 16 + 12 * field p 3 1
         s.Carries q 0x303 (.ixeBaselineLoad q p)
           ((put (put (put u a (wordAt p 4)) (a + 4) (wordAt p 8)) (a + 8) (wordAt p 12)).reply q 0x303 0x0300 []))) ∧
     s.Carries q 0x305 (.ixeCounters q [b])
       ((if b.getLsbD 0 then counters.foldl (fun s a => s.wr a 0) u else u).reply q 0x305 0x0300 (regsBytes u counters)))

/-- A feature of a record (R224): the averages start at the level and then move by their weight; the histories take
the two conditions as their newest bit, NHIST bits wide; ALERT and DANGER say that at least K of them are set; the
baseline bin counts up to its limit, and only where it learns. -/
def Obligations.AFeatureMovesItsAveragesHistoriesAndBaseline : Prop :=
  ∀ (c : RecCtx) (absA absD : Nat) (x : Feature) (code : Nat),
    let y := (evalFeature c absA absD x code).1
    let v := levelOf code
    let bits (h : Nat) : Nat := ((List.range 16).filter h.testBit).length
    y.init = true ∧ y.lcode = code ∧
    (x.init = false → y.fast = v ∧ y.slow = v) ∧
    (x.init = true → y.fast = gAdd x.fast (gMul (weight c.dts c.tauF) (gSub v x.fast)) ∧
      y.slow = gAdd x.slow (gMul (weight c.dts c.tauS) (gSub v x.slow))) ∧
    (y.histA < 2 ^ c.lim.nhist ∧ y.histD < 2 ^ c.lim.nhist) ∧
    (∀ i, i + 1 < c.lim.nhist → y.histA.testBit (i + 1) = x.histA.testBit i ∧ y.histD.testBit (i + 1) = x.histD.testBit i) ∧
    (y.alert = true ↔ c.lim.k ≤ bits y.histA) ∧ (y.danger = true ↔ c.lim.k ≤ bits y.histD) ∧
    (c.bin = none → y.bins = x.bins) ∧ y.bins.length = x.bins.length ∧
    (∀ i j, c.bin = some i → j ≠ i → y.bins.getD j ⟨0, 0, 0⟩ = x.bins.getD j ⟨0, 0, 0⟩) ∧
    (c.mode = 1 ∨ (c.mode = 2 ∧ (y.alert = true ∨ y.danger = true)) → y.bins = x.bins) ∧
    (∀ i, c.bin = some i → i < x.bins.length → c.mode = 0 → (x.bins.getD i ⟨0, 0, 0⟩).n < 16777215 →
      (y.bins.getD i ⟨0, 0, 0⟩).n = (x.bins.getD i ⟨0, 0, 0⟩).n + 1)

/-! ### Field-bus ports and stations -/

/-- Transmission on a port. A request takes the frame of an idle class M buffer of a working port; a cancel ends a
pending frame and comes too late for one that is on its way. A pending frame that may start becomes the active one and
counts an attempt; a frame sent, or lost to arbitration, leaves its buffer as R260 and R264 say. A load instant loads
the class P buffer of an EXCLUSIVE-TX window; a FREE window of a SOLO unit serves a burst of its measurement and
counts for calibration; what a window leaves pending is stale. -/
def Obligations.FramesAreRequestedStartedAndFinished : Prop :=
  ∀ (s : State) (n b t : Nat), n < 16 → b < 64 →
    let u := s.at t
    let f := u.txf n b
    let v : Word := BitVec.ofNat 32 (2 ^ (b % 32))
    let done (s : State) (i : Instr) (x : State) : Prop := exec i s = .next x
    (∀ fr x, s.txUnused n b = false → (s.txd n b).m = true → (s.txf n b).st = 0 → s.fbpMode n = 1 → s.errState n ≠ 2 →
      s.takeTx n b = (some fr, x) → done s (.fbpnTxreq n (decide (32 ≤ b)) v) (x.placeTx n b fr)) ∧
    (s.txUnused n b = true ∨ (s.txd n b).m = false ∨ (s.txf n b).st ≠ 0 ∨ s.fbpMode n ≠ 1 →
      done s (.fbpnTxreq n (decide (32 ≤ b)) v) (s.inc (Addr.fbpReqIgn n))) ∧
    ((s.txf n b).st = 0 → done s (.fbpnTxcan n (decide (32 ≤ b)) v) s) ∧
    ((s.txf n b).st = 1 → done s (.fbpnTxcan n (decide (32 ≤ b)) v) (s.finishTx n b 4)) ∧
    ((s.txf n b).st = 2 → done s (.fbpnTxcan n (decide (32 ≤ b)) v) (s.onPort n fun x => { x with late := b :: x.late })) ∧
    (u.ncyc n ≠ 0 → u.maySend n = true → u.mayStart n b t = true → f.m = false ∨ u.bestM n t = some b →
      let w := u.setTxf n b { f with st := 2, esi := f.fdf && decide (u.errState n = 1) }
      done s (.frameStart n b t) ((w.setFld (Addr.fbpTxbufW3 n b) 23 8 (min (w.fld (Addr.fbpTxbufW3 n b) 23 8 + 1) 0xFFFF)).onPort n
        fun x => { x with active := some b })) ∧
    (u.ncyc n ≠ 0 → u.mayStart n b t = false → done s (.frameStart n b t) u) ∧
    ((s.port n).active = none → done s (.arbitrationLost n) s ∧ ((u.port n).active = none → done s (.frameSent n t) u)) ∧
    ((s.port n).active = some b →
      let w := s.onPort n fun x => { x with active := none }
      ((s.port n).late.contains b = true → done s (.arbitrationLost n) (w.finishTx n b 7)) ∧
      ((s.port n).late.contains b = false → (s.txf n b).m = true → done s (.arbitrationLost n) (w.setTxf n b { s.txf n b with st := 1 })) ∧
      ((s.port n).late.contains b = false → (s.txf n b).m = false → (s.txf n b).past = true ∨ sget {} (s.port n).load b ≠ {} →
        done s (.arbitrationLost n) (w.staleTx n b))) ∧
    ((u.port n).active = some b → u.errState n = 0 →
      let v := (u.tdcMeasure n f).inc (Addr.fbpTxok n)
      let w := v.finishTx n b (if (v.port n).late.contains b then 5 else 1)
      let x := (w.setErrc n (w.tec n - 1) (w.recN n)).errUpdate n
      done s (.frameSent n t)
        ((if x.fbpMode n = 4 then (x.inc (Addr.fbpRxok n)).deliver n (f.can t) t else x).frameEnd n)) ∧
    (∀ k c t0, k < 32 → let d := u.win n k
      d.len ≠ 0 → u.fbpMode n ≠ 0 → u.op ≠ .fault → u.stnMode n = false ∨ (u.port n).smActive = true →
      u.cycleAt n (t + 5000) = some (c, t0) →
      (d.occurs c = false → ∀ bad, done s (.loadInstant n k t bad) u) ∧
      (d.occurs c = true → d.ty = 2 → done s (.loadInstant n k t none)
        (u.loadBuf n (d.served c) (t0 + d.start * 1000) (t0 + d.start * 1000 + d.len * 1000))) ∧
      (∀ off, d.occurs c = true → d.ty = 2 → u.txTouches n (d.served c) off = true → done s (.loadInstant n k t (some off))
        (((u.miuErr 10 0 0 0 false off).ev 0x208 off).loadFail n (d.served c)))) ∧
    (let v := u.bufTaken n b;
      let w := if (v.txf n b).st = 1 then v.staleTx n b else v;
      u.loadFail n b = ((w.setFld (Addr.fbpTxbufW3 n b) 7 4 3).inc (Addr.fbpPFail n)).fbpBufEv 0x106 n b) ∧
    (∀ k c t0, k < 32 → (u.win n k).len ≠ 0 → u.fbpMode n ≠ 0 → u.cycleAt n t = some (c, t0) → (u.win n k).typeIn c ≠ 0 →
      done s (.windowStart n k t) (u.onPort n fun x => { x with win := some (k, (u.win n k).typeIn c) })) ∧
    (∀ k c t0, k < 32 → (u.win n k).len ≠ 0 → u.fbpMode n ≠ 0 → u.cycleAt n t = some (c, t0) → (u.win n k).typeIn c = 0 →
      u.role = .solo → done s (.windowStart n k t) (
        let on := (u.port n).tdr.isSome && decide (15 ≤ (u.win n k).len) && !u.tdrBarred n
        let used := if on then 8000 + 800 * u.fld (Addr.fbpTdrCfg n) 15 0 / 1000 else 0
        u.onPort n fun x => { x with
          win := some (k, 0), burst := on,
          calN := if 5000 ≤ (u.win n k).len * 1000 - used then x.calN + 1 else x.calN })) ∧
    (∀ k, k < 32 →
      let w := u.onPort n fun x => { x with
        win := none, burst := false,
        tx := x.tx.map fun e => (e.1, { e.2 with past := e.2.past || (!e.2.m && decide (e.2.till ≤ u.dtime)) }) }
      done s (.windowEnd n k t)
        ((((w.port n).tx.filter fun e => e.2.past && decide (e.2.st = 1)).map (·.1)).foldl (fun s b => s.staleTx n b) w))

/-- Reception and error confinement of a port: a frame without error counts and goes through the filters, a frame with
a recessive res bit is a protocol exception where PXE is set; an error seen by a receiver moves REC; 11 recessive bits
end the integration and count for a recovery, with which bus-off ends; the other bus events change their bits; a basic
cycle of a device port applies the commits of the port and its stations and takes its number (R72, R245 to R248, R253,
R267 to R276, R280, R281, R288, R295). The FBP opcodes, and the cable measurement, which ends after 64 good bursts or
with its time-out (R282, R283, R289). -/
def Obligations.PortsReceiveConfineErrorsAndAnswer : Prop :=
  (∀ (s : State) (n t : Nat) (f : CanFrame) (e : BusError), n < 16 →
     let u := s.at t
     let done (i : Instr) (x : State) : Prop := exec i s = .next x
     let x := u.frameEnd n
     (x.onBus n = true → x.fbpMode n ≠ 4 →
       (f.fdf = true → f.resRecessive = true → x.lf (Addr.fbpCtrl n) 6 6 = 1 →
         done (.frameReceived n f t) (((x.setBit (Addr.fbpStat n) 3 true).inc (Addr.fbpPex n)).ev 0x107 n)) ∧
       (f.fdf = false ∨ f.resRecessive = false → f.rtr = false ∨ f.fdf = true →
         done (.frameReceived n f t) (((x.recOk n).inc (Addr.fbpRxok n)).deliver n f t)) ∧
       (f.fdf = false → f.rtr = true →
         done (.frameReceived n f t) (((x.recOk n).inc (Addr.fbpRxok n)).inc (Addr.fbpRxRtr n)))) ∧
     (x.onBus n = false → done (.frameReceived n f t) x) ∧ (u.onBus n = false → done (.busError n e t) u) ∧
     (u.onBus n = true → u.fbpMode n = 1 → (u.port n).active = none → e.role = .receiver → e.dataPhase = false →
       let v := (u.setFld (Addr.fbpStat n) 10 8 e.code).frameEnd n
       v.fbpMode n = 1 →
       let w := (v.setErrc n (v.tec n) (v.recN n + 1)).errUpdate n
       done (.busError n e t) w) ∧
     done (.suspendEnd n) (s.onPort n fun x => { x with susp := false }) ∧
     (s.errState n ≠ 2 → s.bit (Addr.fbpStat n) 2 = false → done (.integrationEnd n)
       ((s.setBit (Addr.fbpStat n) 3 false).onPort n fun x => { x with wait11 := false })) ∧
     (s.errState n = 2 → s.bit (Addr.fbpStat n) 2 = true → s.fld (Addr.fbpErrc n) 31 24 < 127 → done (.integrationEnd n)
       (((s.setBit (Addr.fbpStat n) 3 false).onPort n fun x => { x with wait11 := false }).setFld (Addr.fbpErrc n) 31 24
         (s.fld (Addr.fbpErrc n) 31 24 + 1))) ∧
     done (.dominantTimeout n) ((s.setBit (Addr.fbpStat n) 6 true).ev 0x104 n) ∧
     (s.errState n = 2 → s.bit (Addr.fbpStat n) 2 = true → done (.busoffRecoveryEnd n)
       (((((s.setErrc n 0 0).setFld (Addr.fbpErrc n) 31 24 128).setFld (Addr.fbpStat n) 2 0 0).ev 0x103 n).putSummary n)) ∧
     (s.errState n ≠ 2 ∨ s.bit (Addr.fbpStat n) 2 = false → done (.busoffRecoveryEnd n) s) ∧
     (s.errState n = 2 → s.bit (Addr.fbpStat n) 2 = false →
       done (.fbpnRecover n 1) ((s.setBit (Addr.fbpStat n) 2 true).setFld (Addr.fbpErrc n) 31 24 0)) ∧
     (∀ v : Word, v.getLsbD 0 = false → done (.fbpnRecover n v) s ∧ done (.fbpnClr n v) s) ∧
     (∀ v : Word, v.getLsbD 0 = true → done (.fbpnClr n v) ((fbpCounters n ++ (List.range 128).map (Addr.fbpFilterW3 n)).foldl
       (fun s a => s.wr a 0) s)) ∧
     (u.stnMode n = true → u.bit (Addr.fbpStat n) 5 = false → u.refGone n = true →
       done (.stationRefLost ⟨n, t⟩) (((u.setBit (Addr.fbpStat n) 5 true).ev 0x10D n).putSummary n)) ∧
     (∀ c t0, (u.port n).cyc = some (c, t0) → (u.refGone n = true ↔ t0 + 2 * u.bclenNs n ≤ u.dtime)) ∧
     (u.stnMode n = false ∨ u.refGone n = false → done (.stationRefLost ⟨n, t⟩) u) ∧
     (u.stnMode n = false → done (.stationHoldExpired n t) u) ∧
     (u.stnMode n = true → u.lf (Addr.fbpCtrl n) 31 16 ≠ 0 → (u.port n).lastOut + u.lf (Addr.fbpCtrl n) 31 16 * 100000 ≤ u.utick →
       (u.station (u.ownStn n)).lost = false → done (.stationHoldExpired n t) ((u.failSafe n).ev 0x10C n)) ∧
     (u.cycleEnds n = false → done (.basicCycleEnd n t) u) ∧
     (u.cycleEnds n = true → u.stnMode n = false → (u.port n).cyc = none →
       let v := (((u.commitAt (.fbp n)).commitAt (.stn n)).syncForced n).onPort n fun x =>
         if 32 ≤ x.calN then { x with calN := x.calN - 32, calDone := x.calDone + 1 } else x
       (v.stnMode n = true ∨ v.cycleEnds n = false → done (.basicCycleEnd n t) v) ∧
       (v.stnMode n = false → v.cycleEnds n = true → done (.basicCycleEnd n t) (v.cycleBegin n (v.port n).cyc.isSome))) ∧
     (∀ b, (((u.cycleBegin n b).port n).cyc = some (u.dtime / u.bclenNs n % u.ncyc n, u.dtime)) ∧
       ((u.cycleBegin n b).port n).got = [])) ∧
  (∀ (s : State) (q : Req) (p : Bytes) (b : Byte) (n t : Nat) (m : TdrMeasure),
     let u := s.carry q
     let k := (p.getD 0 0).toNat
     let i := (p.getD 1 0).toNat
     let counters := fbpCounters k
     (p.length = 2 →
       s.Carries q 0x400 (.fbpStatus q p) (u.reply q 0x400 0x0400 (((List.range 16).filter (field p 0 2).testBit).flatMap fun n =>
         wordBytes (u.rd (Addr.fbpStat n)) ++ wordBytes (u.rd (Addr.fbpErrc n)) ++ wordBytes (u.txPend n 0) ++ wordBytes (u.txPend n 1))) ∧
       (k ≤ 15 → i ≤ 63 → (u.txd k i).own = true → s.Carries q 0x403 (.fbpCancel q p) ((u.txCancel k i 4).reply q 0x403 0x0400 [])) ∧
       (15 < k ∨ 63 < i ∨ (u.txd k i).own = false → s.Carries q 0x403 (.fbpCancel q p) (u.reply q 0x403 0x0411 [])) ∧
       (k ≤ 15 → s.Carries q 0x405 (.fbpCounters q p)
         ((if (p.getD 1 0).getLsbD 0 then counters.foldl (fun s a => s.wr a 0) u else u).reply q 0x405 0x0400 (regsBytes u counters)))) ∧
     (b.toNat ≤ 15 →
       (u.errState b.toNat = 2 → s.Carries q 0x401 (.fbpRecover q [b]) ((u.startRecovery b.toNat).reply q 0x401 0x0400 [])) ∧
       (u.errState b.toNat ≠ 2 → s.Carries q 0x401 (.fbpRecover q [b]) (u.reply q 0x401 0x0420 [])) ∧
       (3500 ≤ u.fld (Addr.fbpTdrCfg b.toNat) 15 0 → u.fld (Addr.fbpTdrCfg b.toNat) 15 0 ≤ 8000 →
         (u.tdrBarred b.toNat = true ∨ (u.ncyc b.toNat = 0 ∧ u.fbpMode b.toNat ≠ 0) →
           s.Carries q 0x404 (.fbpTdr q [b]) (u.reply q 0x404 0x0420 [])) ∧
         (u.tdrBarred b.toNat = false → u.ncyc b.toNat ≠ 0 ∨ u.fbpMode b.toNat = 0 →
         ((u.port b.toNat).tdr.isSome = true → s.Carries q 0x404 (.fbpTdr q [b]) (u.reply q 0x404 0x0431 [])) ∧
         ((u.port b.toNat).tdr = none →
           let v := (u.accept q 0x404 [b.toNat]).wr (Addr.fbpTdrStat b.toNat) 1
           s.Carries q 0x404 (.fbpTdr q [b]) (v.onPort b.toNat fun x => { x with tdr := some v.utick }))))) ∧
     (let w0 := wordAt p 4;
       let dlc := (p.getD 8 0).toNat
       let d := u.txd k i
       p.length = 12 + dlcBytes (w0.getLsbD 30) dlc → dlc ≤ 15 → k ≤ 15 → i ≤ 63 → (w0.getLsbD 31 = true → w0.getLsbD 30 = true) →
       (d.m = false ∨ d.own = false → s.Carries q 0x402 (.fbpSend q p) (u.reply q 0x402 0x0411 [])) ∧
       (d.m = true → d.own = true → (u.txf k i).st ≠ 0 → s.Carries q 0x402 (.fbpSend q p) (u.reply q 0x402 0x0431 [])) ∧
       (d.m = true → d.own = true → (u.txf k i).st = 0 → u.fbpMode k ≠ 1 → s.Carries q 0x402 (.fbpSend q p) (u.reply q 0x402 0x0420 [])) ∧
       (d.m = true → d.own = true → (u.txf k i).st = 0 → u.fbpMode k = 1 → u.errState k ≠ 2 → d.twh = false →
         s.Carries q 0x402 (.fbpSend q p) ((u.accept q 0x402 [k, i]).placeTx k i
           { m := true, id := u.unitId k (w0.getLsbD 29) (bitsOf w0 28 0), ide := w0.getLsbD 29, fdf := w0.getLsbD 30,
             brs := w0.getLsbD 31, dlc := dlc, data := p.drop 12 }))) ∧
     (let v := s.at t;
       (∀ x, (v.longsOf 0x402).any (fun l => l.args = [n, x] && l.t + 1000000000 ≤ v.utick) = true →
         ((v.txf n x).st = 2 → exec (.fbpSendTimeout n ⟨x, t⟩) s =
           .next ((v.onPort n fun y => { y with late := x :: y.late }).sendNotice n x 8)) ∧
         ((v.txf n x).st ≠ 2 → exec (.fbpSendTimeout n ⟨x, t⟩) s = .next (v.finishTx n x 8))) ∧
       ((v.port n).tdr = none → exec (.tdrTimeout ⟨n, t⟩) s = .next v) ∧
       (∀ t0, (v.port n).tdr = some t0 → t0 + 1000000000 ≤ v.utick → exec (.tdrTimeout ⟨n, t⟩) s = .next (v.tdrEnd n false)) ∧
       (∀ t0, (v.port n).tdr = some t0 → v.utick < t0 + 1000000000 → exec (.tdrTimeout ⟨n, t⟩) s = .next v)) ∧
     ((s.port n).tdr = none ∨ ((s.port n).burst = false ∧ (s.ncyc n ≠ 0 ∨ s.fbpMode n ≠ 0)) →
       ∀ ab, exec (.tdrBurstEnd n ab m) s = .next s) ∧
     ((s.port n).tdr.isSome = true → (s.port n).burst = true ∨ (s.ncyc n = 0 ∧ s.fbpMode n = 0) →
       let v := s.onPort n fun x => { x with burst := false }
       let w := v.setFld (Addr.fbpTdrStat n) 22 16 (v.fld (Addr.fbpTdrStat n) 22 16 + 1)
       exec (.tdrBurstEnd n true m) s = .next (v.incFld (Addr.fbpTdrStat n) 15 8) ∧
       (w.fld (Addr.fbpTdrStat n) 22 16 < 64 → exec (.tdrBurstEnd n false m) s = .next w) ∧
       (64 ≤ w.fld (Addr.fbpTdrStat n) 22 16 → exec (.tdrBurstEnd n false m) s = .next ((w.tdrResult n m).tdrEnd n true))))

/-- Frames of the stations at a head-end port, the oldest first: input data goes to the image at INOFF, indicator
records to the indicator engine, a keepalive makes a station in WAITFIRST ACTIVE, a HELLO calls for a poll, a frame of
no enabled station is dropped, and a response without its request changes nothing (R306 to R310, R314, R316). -/
def Obligations.StationFramesReachTheirDestination : Prop :=
  ∀ (s : State) (n t : Nat),
    let u := s.at t
    ((u.port n).rx = [] → exec (.stnFrame n t) s = .next u) ∧
    (∀ r rest, (u.port n).rx = r :: rest → r.f.ide = false → u.stnMode n = false →
      let v := u.onPort n fun x => { x with rx := rest }
      let c := r.f.id / 256 % 8
      let stn := r.f.id / 2 % 128
      let k := 96 * n + stn
      let d := slice r.f.data 0 (dlcBytes r.f.fdf r.f.dlc)
      let seen (w z : State) : State :=
        if w.inWindow n stn r.f = true ∧ w.inCycle n r = true ∧ z.stnState k = 5 then z.onPort n fun x => { x with got := stn :: x.got } else z
      (c = 7 → exec (.stnFrame n t) s = .next (v.inc (Addr.stnDropStn n))) ∧
      (c = 0 ∨ c = 1 ∨ c = 5 → exec (.stnFrame n t) s = .next v) ∧
      (2 ≤ c → c ≠ 5 → c ≠ 7 → 95 < stn ∨ v.stnEn k = false →
        exec (.stnFrame n t) s = .next ((v.inc (Addr.stnDropStn n)).ev 0x146 (n + stn * 256))) ∧
      (stn ≤ 95 → v.stnEn k = true →
        let w := v.onStn k fun y => { y with heard := true }
        (c = 2 → d.length ≠ dlcBytes true (dlcFor (w.inLen k)) →
          exec (.stnFrame n t) s = .next (((w.incFld (Addr.stnEntryW7 k) 31 16).inc (Addr.stnDropFmt n)).stnEv 0x145 k)) ∧
        (c = 2 → d.length = dlcBytes true (dlcFor (w.inLen k)) → d.take (w.inLen k) ≠ [] → w.stnState k ≠ 4 → w.stnState k ≠ 6 →
          let z := w.imgWrite { src := .stn n, cells := cellsOf (w.inOff k) (d.take (w.inLen k)) }
          exec (.stnFrame n t) s = .next (seen w z)) ∧
        (c = 3 → d.length ≠ 48 → exec (.stnFrame n t) s = .next (w.inc Addr.ixeDropFmt)) ∧
        (c = 3 → d.length = 48 → w.stnState k ≠ 4 → w.stnState k ≠ 6 →
          exec (.stnFrame n t) s = .next ((seen w w).ixePush ⟨d, n, stn, r.t⟩)) ∧
        (c = 4 → d = [] → exec (.stnFrame n t) s = .next w) ∧
        (∀ rest, c = 4 → d = 0 :: rest → w.stnState k = 4 → w.joinsRun n = true → exec (.stnFrame n t) s = .next (w.stnActive k [])) ∧
        (∀ rest, c = 4 → d = 0 :: rest → w.stnState k ≠ 4 → w.stnState k ≠ 6 → exec (.stnFrame n t) s = .next w) ∧
        (∀ rest, c = 4 → d = 1 :: rest →
          exec (.stnFrame n t) s = .next (w.onStn k fun y => { y with hello := decide (w.stnState k = 1 ∨ w.stnState k = 6) })) ∧
        (∀ b rest, c = 4 → d = b :: rest → 1 < b.toNat → w.lf (Addr.stnPctrl n) 5 5 = 0 →
          exec (.stnFrame n t) s = .next (w.raise ⟨2, n * 128 + stn, 18⟩)) ∧
        (c = 6 → (w.station k).x = none → exec (.stnFrame n t) s = .next w)))

/-- Joining and loss: an enabled station that is ABSENT or LOST is polled when it is due; a step of the join follows
from the response of the one before, ending in WAITFIRST, or in REJECTED with its reason; a request without its
response is repeated twice, and then its exchange ends; a join step waits while joins do not run (log entry 121);
keepalive misses count to LOSSN, where the station is LOST; a station-mode port sends its own keepalive (R312 to R318,
R321). The STN opcodes and STN_CLR: status of a run of entries, a rejoin and a stop of an enabled station on a unit
that decides, a management exchange with an ACTIVE station, and the counters (R327, R328). -/
def Obligations.StationsJoinAreLostAndAnswer : Prop :=
  (∀ (s : State) (n stn t : Nat), n < 16 → stn < 96 →
     let u := s.at t
     let k := 96 * n + stn
     let x := u.station k
     let may := u.joinsRun n = true ∧ u.stnEn k = true ∧ (u.stnState k = 1 ∨ u.stnState k = 6) ∧ x.x = none ∧ (x.hello = true ∨ x.due ≤ u.utick)
     (may → exec (.joinPoll n stn t) s = .next
       ((u.onStn k fun y => { y with hello := false, due := u.utick + 100000000 }).mgmtStart k 1 [0] false)) ∧
     (¬may → exec (.joinPoll n stn t) s = .next u) ∧
     (x.x = none → exec (.mgmtResponseTimeout n stn t) s = .next u) ∧
     (∀ m, x.x = some m → 10 * u.utick < 10 * m.t + u.rspt n ∨ (m.joins = true ∧ u.joinsRun n = false) → exec (.mgmtResponseTimeout n stn t) s = .next u) ∧
     (∀ m, x.x = some m → 10 * m.t + u.rspt n ≤ 10 * u.utick → m.joins = false ∨ u.joinsRun n = true → m.tries < 3 → exec (.mgmtResponseTimeout n stn t) s = .next (u.mgmtSend k m)) ∧
     (∀ m, x.x = some m → 10 * m.t + u.rspt n ≤ 10 * u.utick → m.joins = false ∨ u.joinsRun n = true → 3 ≤ m.tries →
       let v := (u.onStn k fun y => { y with x := none }).txCancel n (128 + stn) 4
       (m.host = true → exec (.mgmtResponseTimeout n stn t) s = .next ((v.mgmtNotice k false 0 []).imgNext n)) ∧
       (m.host = false → m.op < 0x40 → m.op ≠ 3 → exec (.mgmtResponseTimeout n stn t) s = .next (v.joinFailStep k false)) ∧
       (m.host = false → m.op = 3 → exec (.mgmtResponseTimeout n stn t) s = .next v)) ∧
     (let due := u.joinsRun n = true ∧ u.stnState k = 4 ∧ u.waitFirst k ≤ 10 * (u.utick - x.first);
       (due → exec (.waitfirstTimeout n ⟨stn, t⟩) s = .next ((u.stnSet k 1).stnEv 0x147 k)) ∧
       (¬due → exec (.waitfirstTimeout n ⟨stn, t⟩) s = .next u)) ∧
     u.waitFirst k = max (max (2 * u.ncyc n * u.bclenNs n) (2 * u.kaper k * 1000000)) 100000000 ∧
     (u.stnMode n = false → u.kaper k = 0 ∨ u.stnEn k = false → exec (.keepalivePeriodEnd n stn t) s = .next u) ∧
     (u.stnMode n = true → (u.port n).smActive = false ∨ (u.port n).claimSet.kaper = 0 ∨ u.lf (Addr.fbpCtrl n) 15 8 ≠ stn →
       exec (.keepalivePeriodEnd n stn t) s = .next u) ∧
     (u.stnMode n = true → (u.port n).smActive = true → (u.port n).claimSet.kaper ≠ 0 → u.lf (Addr.fbpCtrl n) 15 8 = stn →
       exec (.keepalivePeriodEnd n stn t) s = .next ((u.onPort n fun x => { x with eseq := (x.eseq + 1) % 256 }).stnFrameOut n 66
         (4 * 256 + stn * 2 + u.unitN) [0, BitVec.ofNat 8 (u.port n).eseq])) ∧
     (u.kaper k ≠ 0 → u.stnEn k = true → u.stnMode n = false → u.hasRx k = true → exec (.keepalivePeriodEnd n stn t) s = .next u) ∧
     (u.kaper k ≠ 0 → u.stnEn k = true → u.stnMode n = false → u.hasRx k = false → u.stnState k = 5 → u.lossN k ≠ 0 → x.heard = false →
       let m := min (u.fld (Addr.stnEntryW5 k) 7 4 + 1) 15
       let v := u.setFld (Addr.stnEntryW5 k) 7 4 m
       exec (.keepalivePeriodEnd n stn t) s =
         .next ((if m = u.lossN k then v.stnLose k else v).onStn k fun y => { y with heard := false })) ∧
     (∀ m d, m.op = 1 → m.host = false →
       (s.stnState k = 1 ∨ s.stnState k = 6 → s.joinStep k m 0 d =
         ((s.onStn k fun y => { y with cap0 := slice d 0 48, hello := false }).stnSet k 2).mgmtStart k 1 [1] false) ∧
       (s.stnState k = 2 → s.capReason k (s.station k).cap0 ≠ 0 → let r := s.capReason k (s.station k).cap0
         s.joinStep k m 0 d = ((s.setFld (Addr.stnEntryW5 k) 11 8 r).stnSet k 7).stnEv 0x143 k (r * 65536)) ∧
       (s.stnState k = 2 → s.capReason k (s.station k).cap0 = 0 →
         s.joinStep k m 0 d = (s.stnSet k 3).mgmtStart k 2 ((s.stnSet k 3).claimParams k) false)) ∧
     (∀ m d, m.op = 2 → s.stnState k = 3 → s.joinStep k m 0 d = s.stnSet k 4)) ∧
  (∀ (s : State) (q : Req) (p : Bytes),
     let u := s.carry q
     let n := (p.getD 0 0).toNat
     let i := (p.getD 1 0).toNat
     let k := 96 * n + i
     let absent := (((u.mgmtDrop k).onStn k fun y => { y with lost := false, due := u.utick }).setFld (Addr.stnEntryW5 k) 11 4 0).stnSet k 1
     let counters (n : Nat) := [Addr.stnDropStn n, Addr.stnDropFmt n, Addr.stnLosses n]
     (p.length = 3 → let c := (p.getD 2 0).toNat
       (n ≤ 15 → i + c ≤ 96 → s.Carries q 0x500 (.stnStatus q p) (u.reply q 0x500 0x0500 ((List.range c).flatMap fun j =>
         let e := 96 * n + i + j; wordBytes (u.rd (Addr.stnEntryW5 e)) ++ wordBytes (u.rd (Addr.stnEntryW6 e)) ++ wordBytes (u.rd (Addr.stnEntryW7 e))))) ∧
       (15 < n ∨ 96 < i + c → s.Carries q 0x500 (.stnStatus q p) (u.reply q 0x500 0x0511 []))) ∧
     (p.length = 2 →
       (n ≤ 15 → i ≤ 95 → u.role = .solo ∨ u.role = .primary →
         (u.stnEn k = false → s.Carries q 0x501 (.stnRejoin q p) (u.reply q 0x501 0x0520 []) ∧
           s.Carries q 0x503 (.stnStop q p) (u.reply q 0x503 0x0520 [])) ∧
         (u.stnEn k = true → s.Carries q 0x501 (.stnRejoin q p) (absent.reply q 0x501 0x0500 []) ∧
           s.Carries q 0x503 (.stnStop q p) ((absent.mgmtStart k 3 [] false).reply q 0x503 0x0500 []))) ∧
       (n ≤ 15 → i ≤ 95 → u.role = .tracking ∨ u.role = .joining ∨ u.role = .detached → s.Carries q 0x501 (.stnRejoin q p) (u.reply q 0x501 0x0521 []) ∧
         s.Carries q 0x503 (.stnStop q p) (u.reply q 0x503 0x0521 [])) ∧
       (n ≤ 15 → s.Carries q 0x504 (.stnCounters q p) ((if (p.getD 1 0).getLsbD 0 then (counters n).foldl (fun s a => s.wr a 0) u else u).reply
         q 0x504 0x0500 (regsBytes u (counters n)))) ∧
       (15 < n → s.Carries q 0x504 (.stnCounters q p) (u.reply q 0x504 0x0511 []))) ∧
     (4 ≤ p.length → p.length ≤ 60 → n ≤ 15 → i ≤ 95 → u.role = .solo ∨ u.role = .primary →
       let op := (p.getD 2 0).toNat
       op = 1 ∨ 15 < op →
       (u.stnState k ≠ 5 → s.Carries q 0x502 (.stnMgmt q p) (u.reply q 0x502 0x0520 [])) ∧
       (u.stnState k = 5 → (u.station k).x ≠ none → s.Carries q 0x502 (.stnMgmt q p) (u.reply q 0x502 0x0531 [])) ∧
       (u.stnState k = 5 → (u.station k).x = none →
         s.Carries q 0x502 (.stnMgmt q p) ((u.accept q 0x502 [k]).mgmtStart k op (p.drop 4) true))) ∧
     (∀ m (v : Word), m < 16 → v.getLsbD 0 = true → exec (.stnClr m v) s = .next ((counters m).foldl (fun s a => s.wr a 0) s)) ∧
     (∀ m (v : Word), v.getLsbD 0 = false → exec (.stnClr m v) s = .next s))

/-! ### Field channels -/

/-- The output update tick, on the grid, takes the samples, the output line, the group effects, the drivers and the
sample word in this order, and then applies the FIO commit; a transfer of the output image that fails is repeated
once, and one without a valid image counts; the third in a row switches every output off, and the FIO enters FAULT; a
filter change needs NFILT equal samples; a diagnostic condition needs three; a driver belongs on only in RUN or HOLD
with its command, its group and its role (R13, R14, R21, R72, R331 to R345, R352, R357 to R359). -/
def Obligations.FieldTicksSampleFilterAndDrive : Prop :=
  ∀ (s : State) (t n : Nat) (smp : FioSample) (v : Bool), n < 48 →
    let u := s.at t
    (onGrid t = false → exec (.outputUpdateTick t smp) s = .next u) ∧
    (onGrid t = true → let x := (u.fioTick smp).commitAt .fio
      exec (.outputUpdateTick t smp) s = .next { x with twl := { x.twl with palo := x.paloWant } }) ∧
    (u.fio.takeNew = false → u.role = .tracking →
      let a : State := { u with fio := { u.fio with ticks := u.fio.ticks + 1 } }
      let b := (((List.range 48).foldl (fun s n => s.sampleCh n u.fio.ticks smp) a).grpSums).takeImage smp
      let c := b.fio.offPend.foldl (fun s g => s.offEffects g) b
      let d := (List.range 48).foldl (fun s n => if s.chOut n && s.leader n = n then s.driveSet n else s) c
      u.fioTick smp = ((List.range 48).foldl (fun s n => if s.chMode n = 2 then s.setValue n (s.chDrv n) true else s) d).fioPut u.fio.ticks) ∧
    (smp.badWord = none →
      (smp.crcOk = true ∨ smp.again = true → u.takeImage smp = ({ u with fio := { u.fio with
        linkSeen := true, linkBad := if u.fio.linkBad < 3 then 0 else u.fio.linkBad } } : State).takeLine (u.outLine none)) ∧
      (smp.crcOk = false → smp.again = false → u.fio.linkSeen = true →
        u.takeImage smp = { u with fio := { u.fio with linkBad := u.fio.linkBad + 1 } })) ∧
    (u.fio.linkBad < 3 → exec (.dieLinkLoss t) s = .next u) ∧
    (3 ≤ u.fio.linkBad → let x : State := { u with fio := { u.fio with linkLost := true } }
      exec (.dieLinkLoss t) s = .next (((List.range 48).foldl (fun (s : State) n => s.switchOne n false) x).enterFault 0x190)) ∧
    (let x := s.fch n;
      let c := if v = x.cand then min (x.cnt + 1) 15 else 1
      let y := s.onFch n fun x => { x with cand := v, cnt := c }
      (c < s.lf (Addr.chCfg n) 8 5 → s.filter n v = y) ∧
      (s.lf (Addr.chCfg n) 8 5 ≤ c → s.filter n v =
        (((y.onFch n fun x => { x with filt := v }).setBit (Addr.chStat n) 0 v).setBit (Addr.chStat n) 1 true))) ∧
    (∀ b k, debounce (b, k) b = (b, 0) ∧ (k < 2 → debounce (b, k) (!b) = (b, k + 1)) ∧ (2 ≤ k → debounce (b, k) (!b) = (!b, 0))) ∧
    (s.drvWant n = true → (s.op = .run ∨ s.op = .hold) ∧ s.chOut n = true ∧ s.fio.cmd.testBit (s.leader n) = true ∧
      s.grpOff (n / 8) = false ∧ s.grpWait (n / 8) = false ∧ (s.chPaired n = true → s.role = .solo ∨ s.role = .primary ∨ s.role = .tracking)) ∧
    (∀ on, s.chDrv n = on → s.switchOne n on = s) ∧
    (s.chDrv n = false → let y := (s.setBit (Addr.chStat n) 2 true).inc (Addr.chSwitch n)
      s.switchOne n true = y.onFch n fun x => { x with
        blank := y.utick + 6000 + y.lf (Addr.chCfg n) 23 16 * 10000, rb1 := none, conds := recount x.conds,
        onAt := y.utick, vfld := y.fld (Addr.grpStat (n / 8)) 31 16 })

/-- Events at the field connectors: a group's supply goes low, off and comes back; a thermal shutdown holds its set
off until its retry, an over-temperature until it has cooled; an acknowledge needs WAIT_ACK; a tacho edge counts and
drives the shafts of its channel; a load measurement that cannot be evaluated says so (R125, R347, R348, R353, R354,
R356 to R358). The FIO opcodes: status and load results of the selected channels, the acknowledge of a group that
waits for one, and the clearing of a latched short (R358, R366). -/
def Obligations.FieldEventsAndOpcodes : Prop :=
  (∀ (s : State) (g ch t : Nat) (v : Word) (m : LoadSample), g < 6 → ch < 48 →
     let u := s.at t
     let does (i : Instr) (x : State) : Prop := exec i s = .next x
     (s.bit (Addr.grpStat g) 0 = true → does (.groupLow g) s) ∧
     (s.bit (Addr.grpStat g) 0 = false → does (.groupLow g)
       ((((s.setBit (Addr.grpStat g) 0 true).incFld (Addr.grpCount g) 15 0).ev 0x182 g).sysTrig 6 (1 + g * 256))) ∧
     (s.bit (Addr.grpStat g) 1 = true → does (.groupOff g) s) ∧
     (s.bit (Addr.grpStat g) 1 = false → let x := (s.setBit (Addr.grpStat g) 1 true).incFld (Addr.grpCount g) 31 16
       does (.groupOff g) { x with fio := { x.fio with offPend := x.fio.offPend ++ [g] } }) ∧
     (s.bit (Addr.grpStat g) 0 = false → s.bit (Addr.grpStat g) 1 = false → does (.groupRecovery g) s) ∧
     (s.bit (Addr.grpStat g) 0 = true → s.bit (Addr.grpStat g) 1 = false →
       let x := (s.setBit (Addr.grpStat g) 0 false).setBit (Addr.grpStat g) 1 false
       does (.groupRecovery g) (({ x with fio := { x.fio with offPend := x.fio.offPend.filter (· ≠ g) } } : State).ev 0x184 g)) ∧
     (s.bit (Addr.grpStat g) 1 = true →
       let x := (s.setBit (Addr.grpStat g) 0 false).setBit (Addr.grpStat g) 1 false
       let y := (List.range 8).foldl (fun s i => s.onFch (8 * g + i) fun x => { x with cnt := 0 })
         ({ x with fio := { x.fio with offPend := x.fio.offPend.filter (· ≠ g) } } : State)
       let z := if y.lf (Addr.grpCfg g) 8 8 = 0 then y.setBit (Addr.grpStat g) 2 true else y
       does (.groupRecovery g) (z.ev 0x184 g)) ∧
     (v.getLsbD 0 = false → does (.grpgAck g v) s ∧ does (.chnDiagclr ch v) s) ∧
     (v.getLsbD 0 = true → s.bit (Addr.grpStat g) 2 = true → does (.grpgAck g v) ((s.setBit (Addr.grpStat g) 2 false).ev 0x185 g)) ∧
     (v.getLsbD 0 = true → s.bit (Addr.grpStat g) 2 = false → does (.grpgAck g v) s) ∧
     (v.getLsbD 0 = true → s.chOut ch = true → let l := s.leader ch
       ((s.fch l).held = false → does (.chnDiagclr ch v) s) ∧
       ((s.fch l).held = true → s.lf (Addr.chCfg l) 31 24 = 0 →
         does (.chnDiagclr ch v) ((s.onFch l fun x => { x with held := false, short := false }).updDiag l))) ∧
     (s.chOut ch = false ∨ s.chDrv ch = false → does (.thermalShutdown ch) s ∧ does (.channelOvertemp ch) s) ∧
     (s.chOut ch = true → s.chDrv ch = true → let l := s.leader ch
       does (.thermalShutdown ch)
         (((s.onFch l fun x => { x with short := true, held := true, offAt := s.utick }).driveSet l).updDiag l) ∧
       does (.channelOvertemp ch) (((s.onFch l fun x => { x with hot := true }).driveSet l).updDiag l)) ∧
     (u.chOut ch = true → let l := u.leader ch
       let r := u.lf (Addr.chCfg l) 31 24
       ((u.fch l).held = false ∨ r = 0 ∨ u.utick < (u.fch l).offAt + r * 1000000 → does (.shortRetry ch t) u) ∧
       ((u.fch l).held = true → r ≠ 0 → (u.fch l).offAt + r * 1000000 ≤ u.utick →
         does (.shortRetry ch t) ((u.onFch l fun x => { x with held := false }).driveSet l)) ∧
       ((u.fch l).hot = false → does (.channelCooled ch t) u) ∧
       ((u.fch l).hot = true → does (.channelCooled ch t)
         (((u.onFch l fun x => { x with hot := false }).driveSet l).updDiag l))) ∧
     (u.chMode ch ≠ 4 → ∀ up, does (.tachEdge ch up t) u) ∧
     (u.chMode ch = 4 → does (.tachEdge ch false t) ((u.edgeShafts ch false).foldl (fun s n => s.tachShaft n (stampOf t)) u) ∧
       (let w := u.wr (Addr.chTach ch) (u.rd (Addr.chTach ch) + 1);
         does (.tachEdge ch true t) ((w.edgeShafts ch true).foldl (fun s n => s.tachShaft n (stampOf t)) w))) ∧
     (s.chOut ch = false ∨ s.lf (Addr.chLm (s.leader ch)) 0 0 = 0 → does (.loadMeasurement ch m) s) ∧
     (s.chOut ch = true → s.lf (Addr.chLm (s.leader ch)) 0 0 = 1 → m.inLimit = true ∨ m.offBefore = true ∨ m.iA < 100 →
       does (.loadMeasurement ch m) ((s.parSet (s.leader ch)).foldl (fun s n => s.setFld (Addr.chLoadR n) 31 30 3) s))) ∧
  (∀ (s : State) (q : Req) (p : Bytes) (b : Byte),
     let u := s.carry q
     let chans := (List.range 48).filter (field p 0 8).testBit
     (p.length = 8 →
       s.Carries q 0x600 (.fioStatus q p) (u.reply q 0x600 0x0600
         ((chans.flatMap fun n => wordBytes (u.rd (Addr.chStat n)) ++ wordBytes (u.rd (Addr.chCurrent n))) ++
           (List.range 6).flatMap fun g => wordBytes (u.rd (Addr.grpStat g)) ++ wordBytes (u.rd (Addr.grpCurrent g)))) ∧
       s.Carries q 0x603 (.fioLoadRead q p) (u.reply q 0x603 0x0600 (chans.flatMap fun n =>
         wordBytes (u.rd (Addr.chLoadR n)) ++ wordBytes (u.rd (Addr.chLoadL n)) ++ wordBytes (u.rd (Addr.chCurrent n))))) ∧
     (b.toNat ≤ 5 →
       (u.bit (Addr.grpStat b.toNat) 2 = true → s.Carries q 0x601 (.fioGroupAck q [b])
         (((u.setBit (Addr.grpStat b.toNat) 2 false).ev 0x185 b.toNat).reply q 0x601 0x0600 [])) ∧
       (u.bit (Addr.grpStat b.toNat) 2 = false → s.Carries q 0x601 (.fioGroupAck q [b]) (u.reply q 0x601 0x0620 []))) ∧
     (5 < b.toNat → s.Carries q 0x601 (.fioGroupAck q [b]) (u.reply q 0x601 0x0611 [])) ∧
     (b.toNat ≤ 47 → s.Carries q 0x602 (.fioDiagClear q [b]) ((u.diagClear b.toNat).reply q 0x602 0x0600 [])) ∧
     (47 < b.toNat → s.Carries q 0x602 (.fioDiagClear q [b]) (u.reply q 0x602 0x0611 [])))

/-! ### Twin operation -/

/-- The towline itself: training fails and succeeds, an up link exchanges records unless both units have the same unit
bit, ticks set grid and device time, acknowledgements empty the replay buffer, bad and reserved frames count, and a
lost link is counted with its cause (R377 to R382, R412). The peer-alive line and a leaving twin: a loss that no LEAVE
announced asks the twin, and makes a TRACKING unit take over; an answer with the line high is a wiring fault, no
answer counts as a LEAVE; a PRIMARY left alone is SOLO (R360, R384, R385, R407). -/
def Obligations.TheTowlineAndPeerAliveAreWatched : Prop :=
  (∀ (s : State) (t : Nat) (cap : Words) (w0 w1 v : Word),
     let u := s.at t
     let does (i : Instr) (x : State) : Prop := exec i s = .next x
     let link (s : State) (l : Link) : State := { s with twl := { s.twl with
       link := l, peer := none, capSent := none, paliq := none, replay := [], repeats := 0, fseq := 0, rseq := 0, sent := none } }
     (s.pairOn = true → s.twl.link = .down ∨ s.twl.link = .training →
       does (.trainingAttempt true) { s with twl := { s.twl with link := .training } } ∧
       (let n := min (s.twl.fails + 1) 11;
        let x : State := { s with twl := { s.twl with link := .down, fails := n } }
        does (.trainingAttempt false) (if n = 10 then x.ev 0x1CE 0 else x))) ∧
     (s.pairOn = false ∨ s.twl.link = .up ∨ s.twl.link = .conflict → ∀ ok, does (.trainingAttempt ok) s) ∧
     (∀ d k, u.pairOn = true → u.twl.link = .down ∨ u.twl.link = .training →
       let x := (link u .up).wr Addr.twlDelay (BitVec.ofNat 32 (min d 0xFFFF + min k 0xFF * 65536))
       let y : State := { x with twl := { x.twl with fails := 0, lastTick := x.dtime } }
       (bitsOf (cap.getD 0 0) 8 8 = y.unitN → does (.towlineUp d k cap t) ((link y .conflict).ev 0x1CA 0)) ∧
       (bitsOf (cap.getD 0 0) 8 8 ≠ y.unitN →
         let z := (((y.takeCap cap).event 0x1C1 (cap.getD 0 0)).sendCap).swapMismatch
         does (.towlineUp d k cap t) (if z.twl.wait.isSome then z.startOutcome else z.soloDecide 7))) ∧
     (∀ time, s.twl.link = .up → s.role = .tracking ∨ s.role = .joining →
       let x := (time * 10 + s.fld Addr.twlDelay 15 0) / 10 * 10
       let v := if s.dtime ≤ x ∧ x ≤ s.dtime + 25000 then s.at x else s.stepTime x
       does (.twlTick time) { v with twl := { v.twl with lastTick := x } }) ∧
     (∀ time, s.role ≠ .tracking → s.role ≠ .joining → does (.twlTick time) s) ∧
     (∀ (q : BitVec 8) (credit : BitVec 16) pre (f : TwlFrame) rest, s.twl.link = .up → s.twl.replay = pre ++ (q.toNat, f) :: rest →
       (∀ e ∈ pre, e.1 ≠ q.toNat) →
       does (.twlAck q false credit) { s with twl := { s.twl with replay := rest, credit := credit.toNat, repeats := 0 } }) ∧
     (s.twl.link = .training → does (.twlEcho w0 w1) (s.twlSend (.echo w0 w1))) ∧
     (s.twl.link ≠ .training → does (.twlEcho w0 w1) s) ∧
     (s.twl.link = .down → does .twlBadFrame s ∧ ∀ b, does (.twlReservedFrame b) s) ∧
     (s.twl.link ≠ .down → does .twlBadFrame ((s.inc Addr.twlCrcerr).twlSend (.ack ((s.twl.rseq + 255) % 256) true)) ∧
       does (.twlReservedFrame 0xFF) (s.inc Addr.twlCrcerr)) ∧
     (u.twl.link = .up → ∀ r, r = false ∨ 3 ≤ u.twl.repeats → does (.towlineLockLost r t)
       ((((link u .down).inc Addr.twlLinkdown).ev 0x1C2 (b2n r)).cycDiscard.lostRole)) ∧
     (u.twl.link = .down ∨ u.twl.link = .training → ∀ r, does (.towlineLockLost r t) u) ∧
     (u.twl.repeats < 3 → does (.towlineLockLost true t) u) ∧
     (u.role = .tracking ∨ u.role = .joining → u.twl.lastTick + 25000 ≤ u.dtime → does (.tickTimeout t) (u.twlLost 2)) ∧
     (u.dtime < u.twl.lastTick + 25000 → does (.tickTimeout t) u) ∧
     (u.twl.wait = none → does (.solowaitExpired t) u) ∧
     (∀ w, u.twl.wait = some w → (w ≤ u.utick → does (.solowaitExpired t) u.startOutcome) ∧
       (u.utick < w → does (.solowaitExpired t) u)) ∧
     does (.twlClr v) (if v.getLsbD 0 then (twlCounters.foldl (fun s a => s.wr a 0) s).setFld Addr.twlMirror 31 16 0 else s)) ∧
  (∀ (s : State) (t : Nat),
     let u := s.at t
     let does (i : Instr) (x : State) : Prop := exec i s = .next x
     let fault (s : State) : State := ({ s with twl := { s.twl with paliFault := true } } : State).ev 0x1CD 0
     let lost := (({ u with twl := { u.twl with pali := false, calm := false } } : State).inc Addr.twlPaliloss).ev 0x1C3 0
     (u.twl.pali = false → does (.paliLost t) u) ∧
     (u.twl.pali = true → u.twl.calm = true → does (.paliLost t) lost) ∧
     (u.twl.pali = true → u.twl.calm = false → u.twl.link ≠ .up → u.role = .tracking →
       does (.paliLost t) { lost with fio := { lost.fio with takeover := true, takeNew := true } }) ∧
     (s.twl.pali = true → does .paliAlive s) ∧
     (s.twl.pali = false → does .paliAlive (({ s with twl := { s.twl with pali := true, paliFault := false } } : State).ev 0x1C4 0)) ∧
     (s.twl.link ≠ .up → does .paliq s ∧ ∀ b, does (.palians b t) u ∧ does (.leave t) u) ∧
     (s.twl.link = .up → s.good.twl.palo = false → does .paliq (s.good.twlCtrl 10 0 0)) ∧
     (s.twl.link = .up → s.good.twl.palo = true → does .paliq (fault (s.good.twlCtrl 10 1 0))) ∧
     (u.twl.link = .up → let g := u.good
       does (.leave t) g.leaveSeen ∧
       (g.twl.paliq = none → ∀ b, does (.palians b t) g) ∧
       (∀ t0, g.twl.paliq = some t0 → t0 + 10000 < g.utick → ∀ b, does (.palians b t) g) ∧
       (∀ t0, g.twl.paliq = some t0 → g.utick ≤ t0 + 10000 → let x : State := { g with twl := { g.twl with paliq := none } }
         does (.palians true t) (fault { x with fio := { x.fio with takeover := false, takeNew := false } }) ∧
         does (.palians false t) x.leaveSeen)) ∧
     (∀ t0, u.twl.paliq = some t0 →
       (t0 + 10000 ≤ u.utick → does (.paliqTimeout t) ({ u with twl := { u.twl with paliq := none } } : State).leaveSeen) ∧
       (u.utick < t0 + 10000 → does (.paliqTimeout t) u)) ∧
     (u.twl.paliq = none → does (.paliqTimeout t) u) ∧
     (s.role = .detached → s.leaveSeen = { s with twl := { s.twl with calm := s.twl.pali } }) ∧
     (s.role = .tracking → s.leaveSeen = { s with twl := { s.twl with calm := s.twl.pali, left := true } }))

/-- The exchange PROPOSE, READY or DECLINE, GO, the state change of a pair, and the switchover at its instant: both
units raise the epoch and exchange their roles; READY and GO count before that instant only; 10 s without a switchover
ends its command. A record of the twin with the own unit bit is a conflict; a TRACKING unit's chamber follows it (log
entry 118) (R205, R206, R371, R381, R386, R408, R413). The TWL opcodes: status, join of a DETACHED unit, detach and
switchover of a PRIMARY, GO_SOLO of a DETACHED unit with towline and peer-alive lost, the epoch in STOP, and the
counters (R370, R373, R401, R408, R409, R413). -/
def Obligations.ThePairAgreesAndAnswers : Prop :=
  (∀ (s : State) (t arg gs : Nat) (cap : Words),
     let u := s.at t
     let g := s.good
     let h := u.good
     let does (i : Instr) (x : State) : Prop := exec i s = .next x
     let exch (s : State) (e : Option Exch) : State := { s with twl := { s.twl with exch := e } }
     (s.twl.link ≠ .up → does (.propose arg gs t) u ∧ does (.ready arg gs t) u ∧ does (.decline arg) s ∧ does (.go arg gs) s ∧
       does (.twlState arg gs) s ∧ does (.twlCap cap t) u) ∧
     (u.twl.link = .up →
       (h.role ≠ .tracking ∨ 1 < arg → does (.propose arg gs t) h) ∧
       (h.role = .tracking → arg ≤ 1 → gs ≤ h.se.g → does (.propose arg gs t) (h.twlCtrl 3 arg gs)) ∧
       (h.role = .tracking → h.se.g < gs → h.twl.done = [] → h.twl.cyc = none →
         h.slack (h.se.gT + 10000 * (gs - h.se.g) - h.dtime + 20000) = true →
         does (.propose 1 gs t) ((exch h (some ⟨1, gs, false⟩)).twlCtrl 2 1 gs)) ∧
       (h.role = .tracking → h.se.g < gs → h.se.swap.chamber = .armed → h.se.pfail = false →
         h.slack (h.se.gT + 10000 * (gs - h.se.g) - h.dtime + h.tSw) = true →
         does (.propose 0 gs t) ((exch h (some ⟨0, gs, false⟩)).twlCtrl 2 0 gs)) ∧
       (gs ≤ h.se.g → does (.ready arg gs t) h) ∧
       (h.role = .primary → h.se.g < gs → h.twl.exch = some ⟨arg, gs, false⟩ →
         does (.ready arg gs t) ((exch h (some ⟨arg, gs, true⟩)).twlCtrl 4 arg gs)) ∧
       (h.twl.exch = none → does (.ready arg gs t) h) ∧
       (bitsOf (cap.getD 0 0) 8 8 = h.unitN → does (.twlCap cap t) ((h.linkClear .conflict).ev 0x1CA 0)) ∧
       (bitsOf (cap.getD 0 0) 8 8 ≠ h.unitN → h.role = .primary → (h.takeCap cap).peerRole = h.peerRole →
         does (.twlCap cap t) (h.takeCap cap)) ∧
       (bitsOf (cap.getD 0 0) 8 8 ≠ h.unitN → h.role = .tracking → (h.takeCap cap).peerRole = h.peerRole →
         (h.takeCap cap).sameDigest = true → does (.twlCap cap t) ((h.takeCap cap).followArm (h.peerN 13 2 0)))) ∧
     (s.twl.link = .up →
       (g.role = .primary → g.twl.exch = some ⟨1, gs, false⟩ → does (.decline 1) ((exch g none).ev 0x094 0)) ∧
       (g.role = .primary → g.twl.exch = some ⟨0, gs, false⟩ →
         does (.decline 0) (((exch g none).incFld Addr.seSwapTime 31 16).ev 0x094 0)) ∧
       (g.role ≠ .primary → does (.decline arg) g) ∧
       (∀ b, g.role = .tracking → g.se.g < gs → g.twl.exch = some ⟨arg, gs, b⟩ → does (.go arg gs) (exch g (some ⟨arg, gs, true⟩))) ∧
       (gs ≤ g.se.g → does (.go arg gs) g) ∧
       (g.twl.exch = none → does (.go arg gs) g) ∧
       (g.role = .tracking ∨ g.role = .joining → (∀ o, stateOf arg = some o →
         does (.twlState arg gs) { g with twl := { g.twl with pairReq := some (o, gs) } })) ∧
       (stateOf arg = none → does (.twlState arg gs) g)) ∧
     (u.twl.exch = none → does (.switchoverInstant t) u) ∧
     (u.twl.exch = some ⟨1, gs, true⟩ → u.se.g < gs → does (.switchoverInstant t) u) ∧
     (u.twl.exch = some ⟨1, gs, true⟩ → gs ≤ u.se.g → let x := (exch u none).raiseEpoch
       (x.role = .tracking → does (.switchoverInstant t)
         ((({ x with twl := { x.twl with pairClaim := x.ownClaim } } : State).setRole .primary).releaseHeld.dispatch)) ∧
       (x.role = .primary → x.twl.switch.any (·.detach) = false →
         let y := ({ x with twl := { x.twl with pairClaim := claimOf x.epoch (1 - x.unitN), send := [], switch := none } } : State).setRole .tracking
         let z : State := { y with twl := { y.twl with lastTick := y.dtime } }
         does (.switchoverInstant t) ((z.noticeAll 0x703 0x0700).releaseHeld.dispatch))) ∧
     (u.twl.switch = none → does (.switchoverTimeout t) u) ∧
     (∀ w, u.twl.switch = some w → w.t + 1000000000 ≤ u.utick → u.twl.exch = none → does (.switchoverTimeout t) (u.switchEnd 0x0731)) ∧
     (∀ w, u.twl.switch = some w → u.utick < w.t + 1000000000 → does (.switchoverTimeout t) u)) ∧
  (∀ (s : State) (q : Req) (p : Bytes) (b : Byte),
     let u := s.carry q
     (p = [] →
       s.Carries q 0x700 (.twlStatus q p) (u.reply q 0x700 0x0700 (wordBytes u.twlStatReg ++ wordBytes u.twlClaimReg ++
         regsBytes u [Addr.twlDelay, Addr.twlMirror, Addr.twlJoinerr] ++ wordBytes (if u.twl.link = .up then (u.peerWord 1).getD 0 else 0))) ∧
       (u.role ≠ .detached → s.Carries q 0x701 (.twlJoin q p) (u.reply q 0x701 0x0721 [])) ∧
       (u.role = .detached → u.twl.link ≠ .up ∨ u.peerRole = 0 →
         (∀ r, u.joinReason = some r → s.Carries q 0x701 (.twlJoin q p)
           (((u.wr Addr.twlJoinerr (BitVec.ofNat 32 r)).ev 0x1C9 r).reply q 0x701 0x0720 [BitVec.ofNat 8 r])) ∧
         (u.joinReason = none → s.Carries q 0x701 (.twlJoin q p) (u.accept q 0x701).joinStart)) ∧
       (u.role = .tracking → s.Carries q 0x702 (.twlDetach q p) ((u.accept q 0x702).leaveTwin.noticeAll 0x702 0x0700)) ∧
       (u.role = .primary → u.twl.switch.isSome = true → s.Carries q 0x702 (.twlDetach q p) (u.reply q 0x702 0x0731 []) ∧
         s.Carries q 0x703 (.twlSwitchover q p) (u.reply q 0x703 0x0731 [])) ∧
       (u.role = .primary → u.twl.switch = none → s.Carries q 0x702 (.twlDetach q p) ((u.accept q 0x702).switchStart true) ∧
         s.Carries q 0x703 (.twlSwitchover q p) ((u.accept q 0x703).switchStart false)) ∧
       (u.role = .solo ∨ u.role = .detached ∨ u.role = .joining → s.Carries q 0x702 (.twlDetach q p) (u.reply q 0x702 0x0721 [])) ∧
       (u.role ≠ .primary → s.Carries q 0x703 (.twlSwitchover q p) (u.reply q 0x703 0x0721 [])) ∧
       (u.role = .detached → u.twl.link = .down ∨ u.twl.link = .conflict → u.twl.pali = false → s.Carries q 0x704 (.twlGoSolo q p)
         (({ u with twl := { u.twl with wait := none } } : State).goAlone.reply q 0x704 0x0700 [])) ∧
       (u.role ≠ .detached ∨ u.twl.link = .up ∨ u.twl.pali = true → s.Carries q 0x704 (.twlGoSolo q p) (u.reply q 0x704 0x0721 []))) ∧
     (p.length = 4 →
       (32767 < field p 0 2 → s.Carries q 0x705 (.twlEpochSet q p) (u.reply q 0x705 0x0711 [])) ∧
       (field p 0 2 ≤ 32767 → u.op = .stop → u.role = .solo ∨ u.role = .detached →
         s.Carries q 0x705 (.twlEpochSet q p) ((u.setEpoch (field p 0 2)).sendCap.reply q 0x705 0x0700 [])) ∧
       (field p 0 2 ≤ 32767 → u.op ≠ .stop → s.Carries q 0x705 (.twlEpochSet q p) (u.reply q 0x705 0x0721 []))) ∧
     s.Carries q 0x706 (.twlCounters q [b])
       ((if b.getLsbD 0 then twlCounters.foldl (fun s a => s.wr a 0) u else u).reply q 0x706 0x0700 (regsBytes u twlCounters)))

/-- Mirror cycles: a cycle is collected from MIR_BEGIN to MIR_END, discarded when its counts differ, and applied when
its context has no instance; a release whose cycle is not announced is skipped; the PRIMARY sends a context's written
blocks and timers (R392 to R397). -/
def Obligations.MirrorCyclesAreCollectedAndApplied : Prop :=
  ∀ (s : State) (ctx t nb nt next : Nat) (b : Blocks) (r : TimerRecs),
    let u := s.at t
    let g := s.good
    let does (i : Instr) (x : State) : Prop := exec i s = .next x
    (s.twl.link = .up → g.role = .tracking → g.twl.cyc = none →
      does (.mirBegin ctx true next) { g with twl := { g.twl with
        cyc := some ⟨ctx, some next, [], []⟩, announced := sput 0 g.twl.announced ctx (next + 1) } } ∧
      does (.mirBegin ctx false next) { g with twl := { g.twl with
        cyc := some ⟨ctx, none, [], []⟩, announced := sput 0 g.twl.announced ctx 0 } }) ∧
    (s.twl.link = .up → ∀ c, g.twl.cyc = some c →
      does (.mirData b) { g with twl := { g.twl with cyc := some { c with blocks := c.blocks ++ b } } } ∧
      does (.mirTimer r) { g with twl := { g.twl with cyc := some { c with timers := c.timers ++ r } } } ∧
      (c.ctx = ctx → c.blocks.length = nb → c.timers.length = nt → g.role = .tracking →
        does (.mirEnd ctx nb nt) { g with twl := { g.twl with cyc := none, done := g.twl.done ++ [c] } }) ∧
      (c.ctx ≠ ctx ∨ c.blocks.length ≠ nb ∨ c.timers.length ≠ nt → does (.mirEnd ctx nb nt)
        ((({ g with twl := { g.twl with cyc := none } } : State).inc Addr.twlDiscard).ev 0x1CB c.ctx))) ∧
    (s.twl.link ≠ .up → does (.mirBegin ctx true next) s ∧ does (.mirData b) s ∧ does (.mirTimer r) s ∧ does (.mirEnd ctx nb nt) s) ∧
    (u.twl.done.find? (fun c => c.ctx = ctx) = none → does (.mirrorApply ctx t) u) ∧
    (∀ c, u.twl.done.find? (fun c => c.ctx = ctx) = some c →
      ((u.ctx ctx).st ≠ .waiting → (u.ctx ctx).st ≠ .disabled → does (.mirrorApply ctx t) u) ∧
      ((u.ctx ctx).st = .waiting ∨ (u.ctx ctx).st = .disabled → does (.mirrorApply ctx t)
        ((({ u with twl := { u.twl with done := u.twl.done.erase c } } : State).applyCycle c).releaseWaiting ctx))) ∧
    (∀ w, u.twl.waitRel.find? (fun e => e.1 = ctx) = some (ctx, w) →
      (sget 0 u.twl.announced ctx = w + 1 → does (.trackingReleaseSkip ctx t) u) ∧
      (sget 0 u.twl.announced ctx ≠ w + 1 → u.se.gT + 2000 ≤ u.dtime + 10000 * (u.se.g - w) →
        does (.trackingReleaseSkip ctx t)
          (({ u with twl := { u.twl with waitRel := u.twl.waitRel.filter fun e => e.1 ≠ ctx } } : State).skipRelease ctx))) ∧
    (u.twl.waitRel.find? (fun e => e.1 = ctx) = none → does (.trackingReleaseSkip ctx t) u) ∧
    (u.twl.send = [] → does (.mirrorReadDone ctx t) u) ∧
    (∀ c rest, u.twl.send = c :: rest → c.ctx ≠ ctx → does (.mirrorReadDone ctx t) u) ∧
    (∀ c rest, u.twl.send = c :: rest → c.ctx = ctx → c.blocks = [] → c.timers = [] → c.next = none →
      let x : State := { u with twl := { u.twl with send := rest } }
      let y := (x.twlSend (.mirBegin ctx false 0)).twlSend (.mirEnd ctx 0 0)
      does (.mirrorReadDone ctx t) ((y.setLastKib 0).setFld Addr.twlMirror 31 16 (max (y.fld Addr.twlMirror 31 16) (min ((y.dtime - c.t) / 1000) 0xFFFF))))

/-- Joining a twin: the SOLO unit answers JOINREQ with the snapshot, and ends the TRACK phase with ENTER 1 ms ahead;
the joining unit writes the snapshot, follows from SNAP_END on, and at the entry instant the two are PRIMARY and
TRACKING; station states, requests and shaft boundaries cross the towline (R388, R398, R399, R401 to R405). -/
def Obligations.AJoinTakesTheSnapshotAndEnters : Prop :=
  ∀ (s : State) (t op g0 te port stn : Nat) (p : SnapPart) (w5 w6 : Word) (tok : Byte) (sq : BitVec 16) (d : Bytes),
    let u := s.at t
    let g := s.good
    let h := u.good
    let k := 96 * port + stn
    let does (i : Instr) (x : State) : Prop := exec i s = .next x
    (s.twl.link = .up → g.role = .solo → g.twl.jphase = 0 →
      let x := (List.range 7).foldl (fun s k => s.twlSend (.snap (k + 1))) g
      let y := x.twlSend (.snapEnd (x.dtime / 10))
      does .joinreq { y with twl := { y.twl with jphase := 2, tracked := [], te := none } }) ∧
    (s.twl.link = .up → g.role ≠ .solo ∨ g.twl.jphase ≠ 0 → does .joinreq g) ∧
    (s.twl.link = .up → g.role = .joining → does (.snap p) (g.snapPut p)) ∧
    (s.twl.link = .up → g.role ≠ .joining → does (.snap p) g ∧ does (.enter te) g) ∧
    (u.twl.link = .up → h.role = .joining → h.twl.jphase = 1 → does (.snapEnd op g0 t)
      (({ h with twl := { h.twl with jphase := 2, tracked := [] }, se := { h.se with g := g0 } } : State).joinOp op).sendCap) ∧
    (u.twl.link = .up → h.role ≠ .joining → does (.snapEnd op g0 t) h) ∧
    (s.twl.link = .up → g.role = .joining → g.twl.jphase = 2 →
      does (.enter te) { g with twl := { g.twl with jphase := 3, te := some (te * 10) } }) ∧
    (u.role = .solo → u.twl.jphase = 2 → u.op ≠ .run → does (.trackPhaseEnd t)
      (({ u with twl := { u.twl with jphase := 3, te := some (u.dtime + 1000000) } } : State).twlCtrl 7 0 ((u.dtime + 1000000) / 10))) ∧
    (u.role ≠ .solo ∨ u.twl.jphase ≠ 2 → does (.trackPhaseEnd t) u) ∧
    (u.twl.te = none → does (.entryInstant t) u) ∧
    (∀ e, u.twl.te = some e → e ≤ u.dtime → u.twl.jphase = 3 →
      (u.role = .solo → does (.entryInstant t)
        (({ u with twl := { u.twl with te := none, pairClaim := u.ownClaim } } : State).setRole .primary)) ∧
      (u.role = .joining → let claim := if u.peerClaim = 0 then u.twl.pairClaim else u.peerClaim
        does (.entryInstant t) (((({ u with twl := { u.twl with te := none, pairClaim := claim } } : State).ev
          0x1C8 0).setRole .tracking).noticeAll 0x701 0x0700))) ∧
    (∀ e, u.twl.te = some e → u.dtime < e → does (.entryInstant t) u) ∧
    (s.twl.link = .up → g.role = .tracking → port < 16 → stn < 96 →
      let x := (g.setFld (Addr.stnEntryW6 k) 31 16 (sq.toNat + 1)).onStn k fun x => { x with tok := (tok.toNat + 1) % 256 }
      does (.twlReq port stn tok sq d)
        (x.stnFrameOut port (128 + stn) (5 * 256 + stn * 2) (leBytes 2 sq.toNat ++ leBytes 2 x.claimNow ++ d)) ∧
      (bitsOf w5 2 0 = 6 → does (.stnsync port stn w5 w6) (g.setFld (Addr.stnEntryW5 k) 31 16 (bitsOf w5 31 16)))) ∧
    (s.twl.link = .up → g.role = .solo ∨ g.role = .primary → does (.twlReq port stn tok sq d) g ∧ does (.stnsync port stn w5 w6) g ∧
      ∀ n (c : Word), does (.twlShaft n c te) g) ∧
    (s.twl.link = .up → g.role = .tracking → ∀ n (c : Word), n < 32 → g.ppr n ≠ 0 → (g.shaft n).acc = 0 → (g.shaft n).hist = [] →
      does (.twlShaft n c te) { g with twl := { g.twl with shSync := sput (0, 0) g.twl.shSync n (c.toNat, te) } })

/-! ### Retained store, clock, watchdog, power and firmware -/

/-- Retention memory: a burst into an ENERGY region goes through the journal to its page, or is dropped without
energy; a burst into a record writes the copy that was not chosen, with the next SEQ and its CRC; a read of a record
reports what it found; the retain copy ends with its header and the write lock; margin reads go on page by page (R446
to R455, R460, R461, R466 to R469). -/
def Obligations.RetentionMemoryWritesItsPages : Prop :=
  ∀ (s : State) (off : Nat) (d : Bytes) (q : Req) (b : Byte) (p : Bytes) (v : Word),
    let u := s.carry q
    let addr := mramBase + off
    let page := off / 256
    let counters := [Addr.rsmRefresh, Addr.rsmMarginfail, Addr.rsmEgyDrop, Addr.rsmReclost, Addr.rsmErrAddr, Addr.rsmWdrop]
    (off < mramSize → 2594 ≤ page → s.wlock = false → s.rsmRaw = false → d.length ≤ 256 →
      ∀ r, s.regionOf page = some r → r.wp = false →
      (r.twin = false → s.energyOk = true → ∃ t, exec (.energyBurst addr d) s = .next t ∧ t.regs = s.regs ∧ t.dm = s.dm ∧
        (∀ i, i < d.length → sget 0 t.mram (page * 256 + (off + i) % 256) = d.getD i 0) ∧
        (∀ x, x < 4096 ∨ 8192 ≤ x → x / 256 ≠ page → sget 0 t.mram x = sget 0 s.mram x)) ∧
      (r.twin = false → s.energyOk = false → exec (.energyBurst addr d) s =
        .next (((s.setBit Addr.rsmStat 5 true).inc Addr.rsmEgyDrop).ev 0x242 (mramBase + page * 256 + off % 256))) ∧
      (r.twin = true → exec (.energyBurst addr d) s = .next s) ∧ (r.twin = false → exec (.twinCopyBurst addr d) s = .next s) ∧
      (r.twin = true → page < r.base + r.n / 2 → ∀ c, s.chosen page (page + r.n / 2) = (some c, false) →
        let other := if c = page then page + r.n / 2 else page
        let body := mergeBurst (memBytes s.mram (c * 256) 248) (off % 256) d
        exec (.twinCopyBurst addr d) s = .next (s.mramRaw other 0 (copyBytes body ((s.copySeq c + 1) % 2 ^ 32)))) ∧
      (r.twin = true → page < r.base + r.n / 2 →
        exec (.twinCopyRead addr) s = .next (s.recordReport page (page + r.n / 2))) ∧
      (r.twin = false → exec (.twinCopyRead addr) s = .next s)) ∧
    (∀ x y, x ≠ y → s.copyValid x = true →
      (s.copyValid y = false → s.chosen x y = (some x, false) ∧ s.chosen y x = (some x, false)) ∧
      (s.copyValid y = true → s.copySeq x = s.copySeq y → s.chosen x y = (some x, true))) ∧
    (s.rsm.retain = none → ∀ us, exec (.retainCopyEnd us) s = .next s) ∧
    (s.rsm.retain ≠ none → ∀ us, ∃ t, exec (.retainCopyEnd us) s = .next t ∧ t.rsm.retain = none ∧ t.wlock = true) ∧
    (s.rsm.again = [] → s.rsm.reread = [] → exec (.marginRead false []) s = .next { s with rsm := { s.rsm with margin := (s.rsm.margin + 1) % 4096 } }) ∧
    (∀ pg rest, s.rsm.again = [] → s.rsm.reread = pg :: rest → exec (.marginRead false []) s =
      .next { s with rsm := { s.rsm with reread := rest } }) ∧
    exec (.rsmClr v) s = .next (if v.getLsbD 0 then counters.foldl (fun s a => s.wr a 0) s else s) ∧
    s.Carries q 0x900 (.rsmStatus q [b]) ((if b.getLsbD 0 then counters.foldl (fun s a => s.wr a 0) u else u).reply q 0x900 0x0900
      (wordBytes u.rsmStatReg ++ regsBytes u ([Addr.rsmArmseq, Addr.rsmRetseq] ++ counters ++ [Addr.rsmRettime]))) ∧
    (15 < b.toNat → s.Carries q 0x901 (.rsmFormat q [b]) (u.reply q 0x901 0x0911 [])) ∧
    (b.toNat ≤ 15 → u.op ≠ .stop → s.Carries q 0x901 (.rsmFormat q [b]) (u.reply q 0x901 0x0920 [])) ∧
    (b.toNat ≤ 15 → u.op = .stop → s.Carries q 0x901 (.rsmFormat q [b])
      (((u.accept q 0x901).rsmFormat (u.rsmRegion b.toNat)).noticeAll 0x901 0x0900)) ∧
    (p = [] → (u.op ≠ .stop → s.Carries q 0x902 (.rsmRetainClear q p) (u.reply q 0x902 0x0920 [])) ∧
      (u.op = .stop → s.Carries q 0x902 (.rsmRetainClear q p)
        (((u.mramRaw 544 0 (List.replicate 256 0)).mramRaw 1569 0 (List.replicate 256 0)).reply q 0x902 0x0900 [])))

/-- The clock: a second turns the calendar over with its weekday and stamps it, a stopped crystal does not; a frozen
set serves one reader for 2 ms; the supply bits, the charger, RTC_LOST; and the RTC opcodes (R502 to R515, R531,
R575). -/
def Obligations.TheClockCountsAndIsReadFrozen : Prop :=
  ∀ (s : State) (t : Nat) (rd : Reader) (q : Req) (p : Bytes),
    let u := s.at t
    let c := s.carry q
    let does (i : Instr) (x : State) : Prop := exec i s = .next x
    let f (a : Nat) : Nat := u.rdN a
    (u.pwr.x32 = false → does (.rtcSecond t) u) ∧
    (u.pwr.x32 = true →
      (f Addr.rtcSec < 59 → does (.rtcSecond t)
        (u.setCalendar (f Addr.rtcYear) (f Addr.rtcMon) (f Addr.rtcDay) (f Addr.rtcHour) (f Addr.rtcMin) (f Addr.rtcSec + 1)).newSecond) ∧
      (f Addr.rtcSec = 59 → f Addr.rtcMin < 59 → does (.rtcSecond t)
        (u.setCalendar (f Addr.rtcYear) (f Addr.rtcMon) (f Addr.rtcDay) (f Addr.rtcHour) (f Addr.rtcMin + 1) 0).newSecond) ∧
      (f Addr.rtcSec = 59 → f Addr.rtcMin = 59 → f Addr.rtcHour = 23 →
        let n := nextDate (f Addr.rtcYear) (f Addr.rtcMon) (f Addr.rtcDay)
        does (.rtcSecond t) (u.setCalendar n.1 n.2.1 n.2.2 0 0 0).newSecond)) ∧
    (∀ y m d, dateOk y m d = true → (y, m, d) ≠ (2199, 12, 31) → let n := nextDate y m d
      dateOk n.1 n.2.1 n.2.2 = true ∧ dayNumber n.1 n.2.1 n.2.2 = dayNumber y m d + 1) ∧
    (nextDate 2199 12 31 = (2000, 1, 1) ∧ weekday 2000 1 1 = 6 ∧ leap 2000 = true ∧ leap 2100 = false) ∧
    does .trimWindow { s with rtc := { s.rtc with trim := s.rd Addr.rtcTrim } } ∧
    (∀ n k, k < 7 → does (.rtcShadowRead (.ctx n) k t) u) ∧
    (∀ k, k < 6 → (∀ n, rd ≠ .ctx n) → u.shadowOf rd = none → does (.rtcShadowRead rd k t)
      { u with rtc := { u.rtc with shadows := (rd, u.utick, u.calendar) :: u.rtc.shadows.filter fun e => e.1 ≠ rd } }) ∧
    ((∀ n, rd ≠ .ctx n) → u.shadowOf rd ≠ none → (∀ k, k < 6 → does (.rtcShadowRead rd k t) u) ∧
      does (.rtcShadowRead rd 6 t) (u.thaw rd) ∧ does (.rtcFreezeTimeout rd t) u) ∧
    (u.shadowOf rd = none → does (.rtcFreezeTimeout rd t) (u.thaw rd)) ∧
    (∃ x, exec .rtcLostSet s = .next x ∧ (∀ a, 0xB0000 ≤ a → a < 0xB1000 → x.rd a = resetVal a) ∧
      (∀ a, a < 0xB0000 ∨ 0xB1000 ≤ a → x.rd a = s.rd a) ∧ x.rtc.trim = 0 ∧ x.rtc.cut = false) ∧
    (∀ b, does (.aoSourceSwitch b) (s.setBit Addr.rtcStat 1 b) ∧ does (.chargerCutOff b) { s with rtc := { s.rtc with cut := b } }) ∧
    (s.bit Addr.rtcStat 3 = true → does .batlowSet s) ∧
    (s.bit Addr.rtcStat 3 = false → does .batlowSet ((s.setBit Addr.rtcStat 3 true).ev 0x2CA (s.fld Addr.rtcStat 31 16))) ∧
    does .batlowClear (s.setBit Addr.rtcStat 3 false) ∧
    (p = [] → c.shadowOf .mgc = none → let b (a : Nat) : Byte := BitVec.ofNat 8 (c.rdN a)
      s.Carries q 0xB00 (.rtcRead q p) ((c.thaw .mgc).reply q 0xB00 0x0B00 (leBytes 2 (c.rdN Addr.rtcYear) ++
        [b Addr.rtcMon, b Addr.rtcDay, b Addr.rtcHour, b Addr.rtcMin, b Addr.rtcSec, b Addr.rtcWday] ++ regsBytes c [Addr.rtcSeq] ++
        wordBytes c.rtcStatReg ++ regsBytes c [Addr.rtcStampLo, Addr.rtcStampHi]))) ∧
    (p.length = 8 → field p 6 1 ≤ 59 → field p 5 1 ≤ 59 → field p 4 1 ≤ 23 → field p 3 1 ≤ 31 → field p 2 1 ≤ 12 → field p 0 2 ≤ 2199 →
      s.Carries q 0xB01 (.rtcSet q p)
        ((((c.wr Addr.rtcSetHms (BitVec.ofNat 32 (field p 6 1 + field p 5 1 * 256 + field p 4 1 * 65536))).wr
          Addr.rtcSetDate (BitVec.ofNat 32 (field p 3 1 + field p 2 1 * 256 + field p 0 2 * 65536))).accept q 0xB01).commitReq .rtc)) ∧
    (p.length = 2 → (field p 0 2 ≤ 2047 → s.Carries q 0xB02 (.rtcTrim q p)
        ((c.wr Addr.rtcTrim (BitVec.ofNat 32 (field p 0 2))).reply q 0xB02 0x0B00 [])) ∧
      (2047 < field p 0 2 → field p 0 2 < 63489 → s.Carries q 0xB02 (.rtcTrim q p) (c.reply q 0xB02 0x0B11 [])))

/-- The watchdog: the two keys in their order serve it once every enabled slot is marked, another write is a key
error; configuration is taken in the open window alone and from the next period; a period that ends without service
warns, and the one after a warning resets the device (R518 to R527, R531). -/
def Obligations.TheWatchdogIsServedWarnsAndResets : Prop :=
  ∀ (s : State) (v : Word) (off t : Nat) (q : Req) (p : Bytes) (b : Byte),
    let u := s.at t
    let c := s.carry q
    let k := bitsOf v 15 0
    let does (i : Instr) (x : State) : Prop := exec i s = .next x
    let step (s : State) (b : Bool) : State := { s with wdt := { s.wdt with keyStep := b } }
    let slot := bitsOf v 3 0
    (k = 0x5A3C → does (.wdtKeyWrite v) (step s true)) ∧
    (k ≠ 0x5A3C → k ≠ 0xC3A5 ∨ s.wdt.keyStep = false → does (.wdtKeyWrite v) (((step s false).inc Addr.wdtKeyerr).ev 0x2C3 k)) ∧
    (k = 0xC3A5 → s.wdt.keyStep = true → let x := step s false
      (x.wdtUnmarked ≠ 0 → does (.wdtKeyWrite v) ((x.inc Addr.wdtMisses).ev 0x2C2 x.wdtUnmarked)) ∧
      (x.wdtUnmarked = 0 → let y := x.wdtNewPeriod
        let z : State := { y with wdt := { y.wdt with warn := false } }
        does (.wdtKeyWrite v) (if s.wdt.warn then z.ev 0x2C1 0 else z))) ∧
    (s.wdtUnmarked = 0 ↔ ∀ i, i < 16 → s.bit Addr.wdtSloten i = true → s.wdtMarked i = true) ∧
    (s.fld (Addr.wdtSlot slot) 1 0 ≠ 0 → does (.wdtCheckinWrite v) s) ∧
    (s.fld (Addr.wdtSlot slot) 1 0 = 0 → s.wdt.marks.contains slot = false →
      does (.wdtCheckinWrite v) { s with wdt := { s.wdt with marks := s.wdt.marks ++ [slot] } }) ∧
    (off = 0 ∨ off = 4 ∨ (0x40 ≤ off ∧ off < 0x80 ∧ off % 4 = 0) →
      (s.wdtOpen = false → does (.wdtConfigWrite off v) ((s.inc Addr.wdtCfgign).ev 0x2C4 off)) ∧
      (s.wdtOpen = true → off = 0 → 13 < bitsOf v 3 0 → does (.wdtConfigWrite off v) (s.inc Addr.wdtCfgign)) ∧
      (s.wdtOpen = true → off = 0 → bitsOf v 3 0 ≤ 13 → does (.wdtConfigWrite off v)
        { s with wdt := { s.wdt with next := sins s.wdt.next Addr.wdtCfg (v &&& 0x1F) } })) ∧
    (u.wdtElapsed < 2 ^ (10 + u.fld Addr.wdtCfg 3 0) → does (.wdtPeriodEnd t) u) ∧
    (2 ^ (10 + u.fld Addr.wdtCfg 3 0) ≤ u.wdtElapsed → u.wdt.warn = true → does (.wdtPeriodEnd t) (({ u with pwr := { u.pwr with latch := 0 } } : State).deviceReset true false
      (u.bit Addr.rstCause 8) (u.bit Addr.rstCause 9))) ∧
    (2 ^ (10 + u.fld Addr.wdtCfg 3 0) ≤ u.wdtElapsed → u.wdt.warn = false → let x := (({ u with wdt := { u.wdt with warn := true } } : State).inc Addr.wdtWarns).wdtNewPeriod
      does (.wdtPeriodEnd t) ((x.event 0x2C0 x.wdtStatReg).sysTrig 6 2)) ∧
    (p = [] →
      s.Carries q 0xB03 (.wdtStatus q p) (c.reply q 0xB03 0x0B00 (regsBytes c [Addr.wdtCfg, Addr.wdtSloten] ++ wordBytes c.wdtStatReg ++
        wordBytes c.wdtElapsedReg ++ regsBytes c [Addr.wdtMisses, Addr.wdtWarns])) ∧
      (c.fld Addr.wdtCfg 4 4 = 1 → s.Carries q 0xB04 (.wdtService q p) (c.reply q 0xB04 0x0B20 [])) ∧
      (c.fld Addr.wdtCfg 4 4 = 0 → let x := (step (step c true) false)
        (x.wdtUnmarked ≠ 0 → s.Carries q 0xB04 (.wdtService q p) (((x.inc Addr.wdtMisses).ev 0x2C2 x.wdtUnmarked).reply q 0xB04 0x0B20 [])) ∧
        (x.wdtUnmarked = 0 → x.wdt.warn = false → let y := x.wdtNewPeriod
          s.Carries q 0xB04 (.wdtService q p) (({ y with wdt := { y.wdt with warn := false } } : State).reply q 0xB04 0x0B00 [])))) ∧
    (15 < b.toNat → s.Carries q 0xB05 (.wdtCheckin q [b]) (c.reply q 0xB05 0x0B11 [])) ∧
    (b.toNat ≤ 15 → c.fld (Addr.wdtSlot b.toNat) 1 0 ≠ 0 → s.Carries q 0xB05 (.wdtCheckin q [b]) (c.reply q 0xB05 0x0B20 [])) ∧
    (b.toNat ≤ 15 → c.fld (Addr.wdtSlot b.toNat) 1 0 = 0 → s.Carries q 0xB05 (.wdtCheckin q [b]) ((c.wdtMark b.toNat).reply q 0xB05 0x0B00 []))

/-- A successful service, by key, by command or by the firmware, restarts the period from 0 and clears every mark;
after a warning it ends the warning phase with EV 0x2C1 (R523). -/
def Obligations.AServiceRestartsThePeriodAndClearsMarks : Prop :=
  ∀ (s : State) (q : Req) (v : Word),
    let served (t : State) : Prop := t.wdtElapsed = 0 ∧ t.wdt.marks = [] ∧ t.wdt.warn = false ∧
      (s.wdt.warn = true → ∃ y : State, t = y.ev 0x2C1 0)
    (bitsOf v 15 0 = 0xC3A5 → s.wdt.keyStep = true → s.wdtUnmarked = 0 → ∃ t, exec (.wdtKeyWrite v) s = .next t ∧ served t) ∧
    (s.Starts q 0xB04 → s.fld Addr.wdtCfg 4 4 = 0 → s.wdtUnmarked = 0 →
      ∃ t, exec (.wdtService q []) s = .next (t.reply q 0xB04 0x0B00 []).idle ∧ served t) ∧
    (s.fld Addr.wdtCfg 4 4 = 1 → s.wdtOpen = true → s.wdtUnmarked = 0 → served s.wdtFirmware)

/-- Supplies, clocks and the program store: the power-fail warning is latched and starts CTX4; the crystal and VCAN
events; a sweep writes its measurements; a store keeps an image in the older half, and its end is recorded (R564, R567
to R571, R575, R588). Resets: each keeps the MRAM, the owner lock and key, and the clock of the always-on domain, puts
its cause in RST_CAUSE, drives RSTOUT_N low, and leaves every other register at its reset value, in BOOT; a pin reset
shorter than 100 ns does nothing, from 100 ns to 1 µs its effect is not specified, which the model faults on; a
start-up drives RSTOUT_N high and goes to RECOVERY when no slot can start (R544, R557, R563, R565, R570, R574 to R578,
R634). -/
def Obligations.SuppliesAndResets : Prop :=
  (∀ (s : State) (t op : Nat) (m : Telemetry),
     let u := s.at t
     let does (i : Instr) (x : State) : Prop := exec i s = .next x
     let idle := s.fwu.storeOp = none ∧ s.fwu.st ≠ .erasing ∧ s.fwu.st ≠ .verifying ∧ s.fwu.st ≠ .activating
     let bank := s.fld Addr.seSwapStat 8 8
     (u.bit Addr.pwrStat 0 = true → does (.powerFailWarning t) u) ∧
     (u.bit Addr.pwrStat 0 = false →
       let x := ((((u.setBit Addr.pwrStat 0 true).inc Addr.pwrPfw).event 0x010 (u.rd Addr.pwrV0)).abandonSwap 6).leaveTwin
       does (.powerFailWarning t)
         (if x.se.swap.chamber = .swapping then { x with se := { x.se with pfWait := true } } else x.startCtx4)) ∧
     (s.pwr.x32 = false → does .x32Stopped s) ∧
     (s.pwr.x32 = true → does .x32Stopped
       ((({ s with pwr := { s.pwr with x32 := false } } : State).setBit Addr.clkStat 4 false).ev 0x013 0)) ∧
     does .x32Resumed (({ s with pwr := { s.pwr with x32 := true } } : State).setBit Addr.clkStat 4 true) ∧
     (s.bit Addr.pwrStat 2 = true → does .vcanLow s) ∧
     (s.bit Addr.pwrStat 2 = false → does .vcanLow ((s.setBit Addr.pwrStat 2 true).ev 0x012 (s.fld Addr.pwrV1 15 0))) ∧
     does .vcanRestored (s.setBit Addr.pwrStat 2 false) ∧
     does (.telemetrySweep t m) ((((u.measure m).setBit Addr.pwrStat 1 (10000 + 100 * u.lf Addr.pwrCfg 15 8 ≤ m.vhold)).thermal m).fioSweep
       m.vfld m.tgrp) ∧
     (1350 ≤ m.tlog → s.pwr.hot = true → s.op ≠ .fault → ∃ (x : State) (y : Word), s.thermal m = (x.event 0x015 y).enterFault 0x015) ∧
     (max m.tlog m.thv < 1200 → (s.thermal m).rd Addr.pwrStat = (s.setBit Addr.pwrStat 3 false).rd Addr.pwrStat) ∧
     (¬idle → s.fwu.storeOp ≠ none → does .storeRunningProgram s.storeRefuse ∧ does .storeLoadedChamber s.storeRefuse ∧
       does .storeConfiguration s.storeRefuse) ∧
     (idle →
       let h : State := { s with fwu := if s.olderHalf = 0 then { s.fwu with prog0 := none } else { s.fwu with prog1 := none } }
       does .storeConfiguration (s.storeStart 3 (.settings s.settings)) ∧
       does .storeRunningProgram (h.storeStart 1 (.image 1 s.olderHalf (h.bankImage bank))) ∧
       (s.se.swap.chamber = .loaded → does .storeLoadedChamber (h.storeStart 2 (.image 2 s.olderHalf (h.bankImage (1 - bank))))) ∧
       (s.se.swap.chamber ≠ .loaded → does .storeLoadedChamber s.storeRefuse)) ∧
     (s.fwu.storeOp = none → ∀ ok, does (.storeDone ok) s) ∧
     (∀ x, s.fwu.storeOp = some x → s.fld Addr.storeStat 3 2 = op →
       let y (k : Nat) : State := ({ s with fwu := { s.fwu with storeOp := none } } : State).setFld Addr.storeStat 1 0 k
       does (.storeDone true) (((y 2).storePut x).ev 0x018 op) ∧ does (.storeDone false) ((y 3).ev 0x019 op))) ∧
  (∀ (s : State) (st : Straps) (ns t : Nat),
     let u := s.at t
     let after (s : State) (por warm : Bool) (k : Nat) (x : State) : Prop :=
       x.op = .boot ∧ x.power = .on ∧ x.pwr.rstout = false ∧ x.mram = s.mram ∧ x.hpi.ownerKey = s.hpi.ownerKey ∧ x.hpi.ownerLock = s.hpi.ownerLock ∧
       x.hpi.sessions = [] ∧ x.queues = [] ∧ x.pending = s.pending ∧ x.dm = [] ∧ x.pm = [] ∧ x.inImg = [] ∧ x.outImg = [] ∧
       x.se = State.reset.se ∧ x.rtc.trim = s.rtc.trim ∧ x.freeN = s.freeN ∧
       x.rdN Addr.rstCause = (k + b2n st.unitB * 256 + b2n st.recov * 512) % 2 ^ 32 ∧
       (∀ a, 0xB0000 ≤ a → a < 0xB1000 → a ≠ Addr.rtcCfg → a ≠ Addr.rtcCommit → x.rd a = s.rd a) ∧
       (∀ a, 0xC0000 ≤ a → a < 0x30000000 → x.rd a = resetVal a) ∧
       (x.rd Addr.pwrPfw = if por then 0 else s.rd Addr.pwrPfw) ∧
       (∀ a, 0x30000000 ≤ a → a < 0x30800000 → x.rd a = if warm then s.rd a else resetVal a)
     (st.tmode = false →
       (∃ x, exec (.powerOnReset st) s = .next x ∧ after s true false 0 x) ∧
       (1000 ≤ ns → ∃ x, exec (.pinReset ns st) s = .next x ∧ after s false false 1 x) ∧
       (∃ x, exec (.clockFailure st) s = .next x ∧ after s false false 5 x)) ∧
     (ns < 100 → exec (.pinReset ns st) s = .next s) ∧
     (100 ≤ ns → ns < 1000 → exec (.pinReset ns st) s = .fault .pulseWidthUnspecified) ∧
     (st.tmode = true → ∃ x, exec (.powerOnReset st) s = .next x ∧ x.power = .off) ∧
     (s.wlock = true → s.bit Addr.pwrStat 0 = true → ∃ x, exec (.powerfailRestart st) s = .next x ∧ after s false true 4 x) ∧
     (s.wlock = false ∨ s.bit Addr.pwrStat 0 = false → exec (.powerfailRestart st) s = .next s) ∧
     (u.restartDue = false → exec (.deviceRestart ⟨st, t⟩) s = .next u) ∧
     (u.restartDue = true → ∃ x, exec (.deviceRestart ⟨st, t⟩) s = .next x ∧ after u.beforeRestart false true u.beforeRestart.pwr.latch x) ∧
     (∀ n, u.restart = some n → u.fwu.fellBack = false → (u.restartDue = true ↔ n ≤ u.utick)) ∧
     (u.restart = none → u.restartDue = false) ∧ (u.fwu.fellBack = true → u.op = .run ∨ u.op = .hold → u.restartDue = false) ∧
     (∃ x, exec (.mainPowerLoss true) s = .next x ∧ x.power = .standby ∧ x.mram = s.mram ∧ x.bit Addr.rtcStat 1 = true) ∧
     (∃ x, exec (.mainPowerLoss false) s = .next x ∧ x.power = .off ∧ x.mram = s.mram ∧ x.rdN Addr.rtcSec = 0) ∧
     (s.op ≠ .boot ∨ s.power ≠ .on → exec (.startUp t) s = .next s) ∧
     (let v : State := { u with pwr := { u.pwr with rstout := true } };
       s.op = .boot → s.power = .on →
       (∀ k w, v.bootSlot = (some k, w) → exec (.startUp t) s = .next (w.enterRecovery k)) ∧
       (∀ w, v.bootSlot = (none, w) → exec (.startUp t) s = .next w.startRun) ∧
       (v.bit Addr.rstCause 9 = true → v.bootSlot = (some 1, v)) ∧
       (v.bit Addr.rstCause 9 = false → v.slotRec = none → v.fwu.slot0 = none → v.fwu.slot1 = none → v.bootSlot = (some 2, v))))

/-- Staging a package: UPD_BEGIN checks it in the order of R539 and starts the erasure, UPD_DATA takes the bytes in
their order, UPD_VERIFY compares every part with its digest, UPD_ABORT gives it up; activation writes the slot record
and restarts; a trial is confirmed by the host or by itself, or falls back; a revert turns to the other slot (R538 to
R552, R556, R560). -/
def Obligations.FirmwareIsStagedTriedAndConfirmed : Prop :=
  ∀ (s : State) (t : Nat) (q : Req) (p : Bytes),
    let u := s.carry q
    let v := s.at t
    let busy := u.fwu.st = .erasing ∨ u.fwu.st = .verifying ∨ u.fwu.st = .activating
    let run (op : Nat) (i : Instr) (x : State) : Prop := s.Carries q op i x
    let refuse (low reason : Nat) (d : Bytes) : State := (u.ev 0x301 (0x0C00 + low + reason * 65536)).reply q 0xC00 (0x0C00 + low) d
    (p.length = 128 + 64 * npart p →
      (u.updRoleBad = true → run 0xC00 (.updBegin q p) (u.reply q 0xC00 0x0C21 [])) ∧
      (u.updRoleBad = false → u.updStateBad = true → run 0xC00 (.updBegin q p) (u.reply q 0xC00 0x0C20 [])) ∧
      (u.updRoleBad = false → u.updStateBad = false → u.updEnergyBad = true → run 0xC00 (.updBegin q p) (u.reply q 0xC00 0x0C22 [])) ∧
      (u.updRoleBad = false → u.updStateBad = false → u.updEnergyBad = false →
        (busy → run 0xC00 (.updBegin q p) (u.reply q 0xC00 0x0C31 [])) ∧
        (¬busy → ∀ r, u.headReason p = r →
          let signed := ecdsaOk (Config.vendorKey (field p 0x21 1)) (sha256 (signedPart p)) (p.drop (p.length - 64))
          (r ≠ 0 → run 0xC00 (.updBegin q p) (refuse 0x11 r [BitVec.ofNat 8 r])) ∧
          (r = 0 → signed = false → run 0xC00 (.updBegin q p) (refuse 0x50 0 [])) ∧
          (r = 0 → signed = true → manifestOk p = false → run 0xC00 (.updBegin q p) (refuse 0x11 6 [6])) ∧
          (r = 0 → signed = true → manifestOk p = true → u.role ≠ .tracking →
            let x := (u.imgStop.accept q 0xC00).event 0x300 (wordAt p 0x10)
            run 0xC00 (.updBegin q p)
              { x with fwu := { x.fwu with st := .erasing, head := some p, mark := false, data := [], buf := 0, bad := none } })))) ∧
    (s.fwu.st = .erasing → exec .eraseDone s = .next (({ s with fwu := { s.fwu with st := .receiving } } : State).noticeAll 0xC00 0x0C00)) ∧
    (s.fwu.st ≠ .erasing → exec .eraseDone s = .next s) ∧
    (4 ≤ p.length → p.length ≤ 4076 → let d := p.drop 4
      let n := u.fwu.data.length
      (u.fwu.st ≠ .receiving → run 0xC01 (.updData q p) (u.reply q 0xC01 0x0C20 [])) ∧
      (u.fwu.st = .receiving → field p 0 4 ≠ n → run 0xC01 (.updData q p) (u.reply q 0xC01 0x0C11 (leBytes 4 n))) ∧
      (u.fwu.st = .receiving → field p 0 4 = n → n + d.length ≤ dataLen (u.fwu.head.getD []) → d ≠ [] →
        (65536 < u.progLevel + d.length → run 0xC01 (.updData q p) (u.reply q 0xC01 0x0C31 [])) ∧
        (u.progLevel + d.length ≤ 65536 → run 0xC01 (.updData q p)
          (({ u with fwu := { u.fwu with data := u.fwu.data ++ d, buf := u.progLevel + d.length, bufT := u.utick } } : State).reply q
            0xC01 0x0C00 [])))) ∧
    (p = [] →
      (u.fwu.st ≠ .receiving ∨ u.fwu.data.length ≠ dataLen (u.fwu.head.getD []) → run 0xC02 (.updVerify q p) (u.reply q 0xC02 0x0C20 [])) ∧
      (u.fwu.st = .receiving → u.fwu.data.length = dataLen (u.fwu.head.getD []) → ∀ e, u.badPart = some e →
        let x := u.accept q 0xC02
        run 0xC02 (.updVerify q p) { x with fwu := { x.fwu with st := .verifying, bad := some e, staged := 0, failed := 0 } }) ∧
      (u.inTrial = false ∨ u.fwu.setinc = true → run 0xC04 (.updConfirm q p) (u.reply q 0xC04 0x0C20 [])) ∧
      (u.inTrial = true → u.fwu.setinc = false → run 0xC04 (.updConfirm q p) (u.confirm.reply q 0xC04 0x0C00 [])) ∧
      (u.updRoleBad = true → run 0xC05 (.updRevert q p) (u.reply q 0xC05 0x0C21 [])) ∧
      (u.updRoleBad = false → u.slotImg (1 - u.fwu.run) = none → run 0xC05 (.updRevert q p) (u.reply q 0xC05 0x0C20 [])) ∧
      (u.updRoleBad = false → u.slotImg (1 - u.fwu.run) ≠ none → run 0xC05 (.updRevert q p)
        ((((u.otherSlot 4).ev 0x30A (1 - u.fwu.run)).reply q 0xC05 0x0C00 []).updRestart)) ∧
      run 0xC06 (.updStatus q p) (u.reply q 0xC06 0x0C00 ((List.range 7).flatMap fun i => wordBytes (u.fwuReg (4 * i)))) ∧
      (busy → run 0xC07 (.updAbort q p) (u.reply q 0xC07 0x0C31 [])) ∧
      (u.fwu.st = .idle → run 0xC07 (.updAbort q p) (u.reply q 0xC07 0x0C00 [])) ∧
      (u.fwu.st = .receiving ∨ u.fwu.st = .verified → let x := u.imgStop
        run 0xC07 (.updAbort q p) (({ x with fwu := { x.fwu with st := .idle, mark := false, head := none, data := [] } } : State).reply q
          0xC07 0x0C00 []))) ∧
    (s.fwu.st ≠ .verifying ∨ s.fwu.jobs ≠ [] → exec .verifyDone s = .next s) ∧
    (s.fwu.st = .verifying → s.fwu.jobs = [] →
      (∀ e, s.fwu.bad = some e → exec .verifyDone s =
        .next ((({ s with fwu := { s.fwu with st := .idle, bad := none } } : State).ev 0x303 e).noticeAll 0xC02 0x0C50)) ∧
      (s.fwu.bad = none → let x := ({ s with fwu := { s.fwu with st := .verified, mark := true } } : State).ev 0x302 (npart (s.fwu.head.getD []))
        exec .verifyDone s = .next (x.noticeAll 0xC02 0x0C00 (leBytes 2 s.fwu.staged ++ leBytes 2 s.fwu.failed)))) ∧
    (p.length = 4 → 1 ≤ field p 0 1 → field p 0 1 ≤ 60 → u.updRoleBad = false → u.updEnergyBad = false →
      (u.updStateBad = true ∨ u.fwu.st ≠ .verified → run 0xC03 (.updActivate q p) (u.reply q 0xC03 0x0C20 [])) ∧
      (u.updStateBad = false → u.fwu.st = .verified → u.se.swap.chamber ≠ .armed → u.se.swap.chamber ≠ .swapping → u.miu.scrub = none →
        ∀ r, u.slotRec = some r →
          let r1 : SlotRec := { r with pending := true, confwin := field p 0 1, autoconf := (p.getD 1 0).getLsbD 0 }
          let x := u.writeSlotRec { r1 with pkgdig := sha256 (signedPart (u.fwu.head.getD [])) }
          let y := ((x.reply q 0xC03 0x0C00 []).ev 0x304 x.targetSlot).updRestart
          run 0xC03 (.updActivate q p) { y with fwu := { y.fwu with st := .activating } })) ∧
    (p.length = 2 →
      (u.fwu.mark = false → run 0xC08 (.updStationActivate q p) (u.reply q 0xC08 0x0C20 [])) ∧
      (u.fwu.mark = true → u.role = .tracking ∨ u.role = .joining → run 0xC08 (.updStationActivate q p) (u.reply q 0xC08 0x0C21 [])) ∧
      (u.fwu.mark = true → u.role = .solo ∨ u.role = .primary → u.longsOf 0xC08 = [] → u.imgJobs (field p 0 2) 0x43 = [] →
        let x := u.accept q 0xC08
        run 0xC08 (.updStationActivate q p)
          (({ x with fwu := { x.fwu with acted := 0, refused := 0 } } : State).noticeAll 0xC08 0x0C00 [0, 0, 0, 0]))) ∧
    (v.slotRec = none → exec (.trialTimeout t) s = .next v ∧ exec (.selfConfirm t) s = .next v) ∧
    (∀ r, v.slotRec = some r →
      (r.trial = false ∨ v.op = .boot ∨ v.op = .recovery ∨ v.utick < r.confwin * 6000000000 → exec (.trialTimeout t) s = .next v) ∧
      (r.trial = true → v.op = .stop ∨ v.op = .run → r.confwin * 6000000000 ≤ v.utick → let x := ((v.otherSlot 2).ev 0x308 1).updRestart
        let y : State := { x with fwu := { x.fwu with fellBack := true } }
        (y.op = .stop → exec (.trialTimeout t) s = .next y) ∧ (y.op = .run → exec (.trialTimeout t) s = .next (y.leaveRun .stop))) ∧
      (r.trial = true → r.autoconf = true → v.fwu.setinc = false → v.op = .stop ∨ v.op = .run ∨ v.op = .hold →
        v.fwu.upAt + 6000000000 ≤ v.utick → exec (.selfConfirm t) s = .next v.confirm) ∧
      (r.trial = false ∨ r.autoconf = false ∨ v.fwu.setinc = true → exec (.selfConfirm t) s = .next v))

/-- The Ethernet ports: datagrams of a port's VLAN reach the command interface when their checksum is good, and
fragments are gathered; a port that is not enabled takes nothing, and port 0 alone serves RECOVERY; link changes, ARP
and echo answers, dropped and discarded frames; the PTP servo slews device time and steps it in STOP alone; the ETH
opcodes (R34, R68, R69, R590 to R593, R616). -/
def Obligations.EthernetPortsAnswerAndDisciplineTime : Prop :=
  ∀ (s : State) (src : UdpSource) (b : Bytes) (t n id off : Nat) (ip : Word) (m : PtpSync) (q : Req) (p : Bytes) (v : Word),
    let u := s.at t
    let c := s.carry q
    let w := u.rxFrame src.eth
    let k := (p.getD 0 0).toNat
    let does (i : Instr) (x : State) : Prop := exec i s = .next x
    (u.ethOpen src.eth = true → src.vlan = (u.ethCfg src.eth).vlan →
      does (.udpDatagram src .bad b t) w ∧
      (b.length < 16 → does (.udpDatagram src .good b t) (w.inc Addr.hpiUdpLenErr)) ∧
      (16 ≤ b.length → b.length = 20 + (parsePkt b).len + (if (parsePkt b).flags.getLsbD 0 then 16 else 0) →
        does (.udpDatagram src .good b t) (w.receive (.udp src) b)) ∧
      (w.hpi.dropped.contains (src, id) = false → 4124 < off + b.length → ∀ more,
        does (.ipFragment src id off more b t) (w.dropWhole src id more)) ∧
      (w.hpi.dropped.contains (src, id) = true → ∀ more, does (.ipFragment src id off more b t) (w.dropWhole src id more)) ∧
      (w.hpi.dropped.contains (src, id) = false → off + b.length ≤ 4124 → w.hpi.reasm = [] →
        does (.ipFragment src id off true b t)
          { w with hpi := { w.hpi with reasm := [⟨src, id, [(off, b)], none, w.utick⟩] } })) ∧
    (u.ethOpen src.eth = true → src.vlan ≠ (u.ethCfg src.eth).vlan → let x := u.inc (Addr.ethDiscard src.eth)
      does (.udpDatagram src .good b t) x ∧ does (.ipFragment src id off true b t) x) ∧
    (u.ethOpen src.eth = false → does (.udpDatagram src .good b t) u ∧ does (.ipFragment src id off true b t) u) ∧
    (u.ethOpen n = true ↔ n < 2 ∧ (u.op = .recovery → n = 0) ∧ (u.op ≠ .recovery → (u.ethCfg n).en = true)) ∧
    (∀ r, u.hpi.reasm.find? (fun r => decide (r.src = src) && decide (r.ident = id)) = some r →
      (u.utick < r.t + 25000000 → does (.fragmentTimeout src id t) u) ∧
      (r.t + 25000000 ≤ u.utick → does (.fragmentTimeout src id t) (((u.dropWhole src id false).inc Addr.hpiFragTmo).ev 0x385 0))) ∧
    (n < 2 → let x := s.ethPort n
      let cfg := s.ethCfg n
      (∀ up sp half, does (.ethLinkChange n up sp half) (s.ethChange n { x with up := up, speed := sp.toNat, half := half })) ∧
      (s.ethOpen n = true →
        (cfg.ip = ip → does (.arpRequest n ip) ((s.ethAnswer n 1 (.arp n ip)).inc (Addr.ethArpAns n)) ∧
          does (.icmpEcho n ip b) (s.ethAnswer n (ipFrames cfg.mtu (8 + b.length)) (.echo n ip b))) ∧
        (cfg.ip ≠ ip → does (.arpRequest n ip) (s.inc (Addr.ethDiscard n)) ∧ does (.icmpEcho n ip b) (s.inc (Addr.ethDiscard n))) ∧
        does (.ethFrameDropped n) ((s.inc (Addr.ethRxDrop n)).ev 0x381 n) ∧
        does (.ethFrameDiscarded n true) (s.inc (Addr.ethRxCrcerr n)) ∧ does (.ethFrameDiscarded n false) (s.inc (Addr.ethDiscard n))) ∧
      (s.ethOpen n = false → does (.arpRequest n ip) s ∧ does (.icmpEcho n ip b) s ∧ does (.ethFrameDropped n) s ∧
        ∀ bad, does (.ethFrameDiscarded n bad) s) ∧
      does (.ethnClr n v) (if v.getLsbD 0 then (ethCounters n).foldl (fun s a => s.wr a 0) s else s)) ∧
    (u.eth.ptp.port = none → does (.ptpMessage m t) u) ∧
    (∀ e, u.eth.ptp.port = some e → u.ethOpen e = false → does (.ptpMessage m t) u) ∧
    (∀ e, u.eth.ptp.port = some e → u.ethOpen e = true → let x := u.rxFrame e
      (x.role = .tracking ∨ x.role = .joining → does (.ptpMessage m t) x) ∧
      (x.role ≠ .tracking → x.role ≠ .joining →
        let y := ({ x with eth := { x.eth with offset := m.offset, delay := m.delay, ppb := max (-100000) (min 100000 m.ppb), master := m.master } } :
          State).servo (m.state % 4)
        (y.op ≠ .stop ∨ y.eth.ptp.stepen = false ∨ m.offset.natAbs ≤ 1000 * y.eth.ptp.stepth → does (.ptpMessage m t) y) ∧
        (y.op = .stop → y.eth.ptp.stepen = true → 1000 * y.eth.ptp.stepth < m.offset.natAbs → does (.ptpMessage m t) (y.ptpStep m.offset)))) ∧
    (p.length = 1 → k ≤ 1 → let x := c.ethPort k
      s.Carries q 0xE00 (.ethStatus q p) (c.reply q 0xE00 0x0E00 ([BitVec.ofNat 8 x.stat, BitVec.ofNat 8 x.cfg.pcp] ++ leBytes 2 x.cfg.vlan ++
        leBytes 6 (Config.mac k).toNat ++ leBytes 2 x.cfg.mtu ++ wordBytes x.cfg.ip ++ wordBytes x.cfg.mask ++ wordBytes x.cfg.gw))) ∧
    (p.length = 20 → k ≤ 1 → (p.getD 1 0).toNat ≤ 1 → (ethCfgOf p).vlan ≤ 4094 → (ethCfgOf p).pcp ≤ 7 → 576 ≤ (ethCfgOf p).mtu →
      (ethCfgOf p).mtu ≤ 1500 → badHost (ethCfgOf p).ip (ethCfgOf p).mask = false →
      s.Carries q 0xE01 (.ethConfig q p) ((c.setEthPort k { c.ethPort k with next := some (ethCfgOf p) }).reply q 0xE01 0x0E00 [])) ∧
    (p.length = 8 → k ≤ 1 → (p.getD 1 0).toNat ≤ 127 → 1 ≤ field p 4 4 → field p 4 4 ≤ 1000000 →
      c.eth.ptp.port = some k → c.eth.ptp.domain = (p.getD 1 0).toNat →
      s.Carries q 0xE02 (.ptpConfig q p) (({ c with eth := { c.eth with
        ptp := ⟨some k, (p.getD 1 0).toNat, (p.getD 2 0).getLsbD 0, field p 4 4⟩ } } : State).reply q 0xE02 0x0E00 [])) ∧
    (p = [] → s.Carries q 0xE03 (.ptpStatus q p) (c.reply q 0xE03 0x0E00 ([BitVec.ofNat 8 c.eth.state, 0, 0, 0] ++
      leBytes 8 (BitVec.ofInt 64 c.eth.offset).toNat ++ leBytes 4 c.eth.delay ++ leBytes 4 (BitVec.ofInt 32 c.eth.ppb).toNat ++
      leBytes 8 c.eth.master))) ∧
    (p.length = 2 → k ≤ 1 → s.Carries q 0xE04 (.ethCounters q p)
      ((if (p.getD 1 0).getLsbD 0 then (ethCounters k).foldl (fun s a => s.wr a 0) c else c).reply q 0xE04 0x0E00 (regsBytes c (ethCounters k))))
end

