-- ==== Sys2Proof/Laws/Sparse.lean ====
section
/-! SUPPORT. What the sparse maps do: reading after a write, and that every operation on them keeps the
canonical form (rising keys, no entry at its default). -/

namespace Sys2Proof.Machine

variable {α : Type}

theorem sget_sdel_self (d : α) (m : Sparse α) (k : Nat) : sget d (sdel m k) k = d := by
  induction m with
  | nil => rfl
  | cons e r ih =>
    obtain ⟨j, v⟩ := e
    by_cases h : j = k <;> simp [sdel, sget, h, ih]

theorem sget_sdel_other (d : α) (m : Sparse α) {k j : Nat} (h : j ≠ k) :
    sget d (sdel m k) j = sget d m j := by
  induction m with
  | nil => rfl
  | cons e r ih =>
    obtain ⟨i, v⟩ := e
    by_cases hi : i = k
    · have : i ≠ j := fun e => h (e ▸ hi)
      simp [sdel, sget, hi, ih, Ne.symm h]
    · simp only [sdel, if_neg hi, sget, ih]

theorem sget_sins_self (d : α) (m : Sparse α) (k : Nat) (v : α) : sget d (sins m k v) k = v := by
  induction m with
  | nil => simp [sins, sget]
  | cons e r ih =>
    obtain ⟨j, w⟩ := e
    unfold sins
    split
    · simp [sget]
    · split
      · simp [sget]
      · simp [sget, *]

theorem sget_sins_other (d : α) (m : Sparse α) {k j : Nat} (v : α) (h : j ≠ k) :
    sget d (sins m k v) j = sget d m j := by
  induction m with
  | nil => simp [sins, sget, Ne.symm h]
  | cons e r ih =>
    obtain ⟨i, w⟩ := e
    unfold sins
    split
    · simp [sget, Ne.symm h]
    · split
      · rename_i hi
        simp [sget, Ne.symm h, sget_sdel_other d r h, hi]
      · by_cases hj : i = j <;> simp [sget, hj, ih]

variable [DecidableEq α]

/-- Reading the key a value was put at gives the value. -/
@[simp] theorem sget_sput_self (d : α) (m : Sparse α) (k : Nat) (v : α) : sget d (sput d m k v) k = v := by
  unfold sput
  split
  · rename_i h; rw [sget_sdel_self, h]
  · exact sget_sins_self d m k v

/-- Putting a value at a key leaves every other key. -/
theorem sget_sput_other (d e : α) (m : Sparse α) {k j : Nat} (v : α) (h : j ≠ k) :
    sget d (sput e m k v) j = sget d m j := by
  unfold sput
  split
  · exact sget_sdel_other d m h
  · exact sget_sins_other d m v h

/-- One entry put into a map: what every key reads as afterwards. -/
theorem sget_sput (d : α) (m : Sparse α) (k j : Nat) (v : α) :
    sget d (sput d m k v) j = if j = k then v else sget d m j := by
  split
  · rename_i h; rw [h, sget_sput_self]
  · rename_i h; exact sget_sput_other d d m v h

/-! ### The canonical form -/

/-- The two halves of the canonical form. -/
theorem swfBy_iff (d : Nat → α) (m : Sparse α) :
    swfBy d m = true ↔ (m.map Prod.fst).Pairwise (· < ·) ∧ ∀ e ∈ m, e.2 ≠ d e.1 := by
  simp [swfBy]

theorem swfBy_nil (d : Nat → α) : swfBy d [] = true := by simp [swfBy]

theorem swfBy_filter {d : Nat → α} {m : Sparse α} (p : Nat × α → Bool) (h : swfBy d m = true) :
    swfBy d (m.filter p) = true := by
  rw [swfBy_iff] at *
  refine ⟨h.1.sublist (List.Sublist.map _ (List.filter_sublist)), fun e he => h.2 e ?_⟩
  exact (List.mem_filter.1 he).1

theorem swfBy_skeep {d : Nat → α} {m : Sparse α} (p : Nat → Bool) (h : swfBy d m = true) :
    swfBy d (skeep m p) = true := swfBy_filter _ h

omit [DecidableEq α] in
theorem sdel_eq_filter (m : Sparse α) (k : Nat) : sdel m k = m.filter fun e => !decide (e.1 = k) := by
  induction m with
  | nil => rfl
  | cons e r ih =>
    obtain ⟨j, v⟩ := e
    by_cases h : j = k <;> simp [sdel, h, ih]

theorem swfBy_sdel {d : Nat → α} {m : Sparse α} (k : Nat) (h : swfBy d m = true) :
    swfBy d (sdel m k) = true := by
  rw [sdel_eq_filter]; exact swfBy_filter _ h

omit [DecidableEq α] in
theorem mem_sins {m : Sparse α} {k : Nat} {v : α} {e : Nat × α} (h : e ∈ sins m k v) : e = (k, v) ∨ e ∈ m := by
  induction m with
  | nil => simpa [sins] using h
  | cons x r ih =>
    obtain ⟨j, w⟩ := x
    unfold sins at h
    split at h
    · simpa using h
    · split at h
      · rw [sdel_eq_filter] at h
        rcases List.mem_cons.1 h with h | h
        · exact .inl h
        · exact .inr (List.mem_cons_of_mem _ (List.mem_filter.1 h).1)
      · rcases List.mem_cons.1 h with h | h
        · exact .inr (h ▸ List.mem_cons_self ..)
        · rcases ih h with h | h
          · exact .inl h
          · exact .inr (List.mem_cons_of_mem _ h)

omit [DecidableEq α] in
theorem sins_keys_sorted {m : Sparse α} (k : Nat) (v : α) (h : (m.map Prod.fst).Pairwise (· < ·)) :
    ((sins m k v).map Prod.fst).Pairwise (· < ·) := by
  induction m with
  | nil => simp [sins]
  | cons x r ih =>
    obtain ⟨j, w⟩ := x
    rw [List.map_cons, List.pairwise_cons] at h
    obtain ⟨hj, hr⟩ := h
    unfold sins
    split
    · rename_i hk
      rw [List.map_cons, List.pairwise_cons]
      refine ⟨fun a ha => ?_, by rw [List.map_cons, List.pairwise_cons]; exact ⟨hj, hr⟩⟩
      rw [List.map_cons] at ha
      rcases List.mem_cons.1 ha with rfl | ha
      · exact hk
      · exact Nat.lt_trans hk (hj a ha)
    · split
      · rename_i hk
        subst hk
        rw [List.map_cons, List.pairwise_cons, sdel_eq_filter]
        refine ⟨fun a ha => hj a ?_, hr.sublist (List.Sublist.map _ List.filter_sublist)⟩
        obtain ⟨e, he, rfl⟩ := List.mem_map.1 ha
        exact List.mem_map_of_mem (List.mem_filter.1 he).1
      · rename_i h1 h2
        rw [List.map_cons, List.pairwise_cons]
        refine ⟨fun a ha => ?_, ih hr⟩
        obtain ⟨e, he, rfl⟩ := List.mem_map.1 ha
        rcases mem_sins he with rfl | he
        · show j < k; omega
        · exact hj _ (List.mem_map_of_mem he)

theorem swfBy_sput {d : Nat → α} {m : Sparse α} (k : Nat) (v : α) (h : swfBy d m = true) :
    swfBy d (sput (d k) m k v) = true := by
  unfold sput
  split
  · exact swfBy_sdel k h
  · rename_i hv
    rw [swfBy_iff] at *
    refine ⟨sins_keys_sorted k v h.1, fun e he => ?_⟩
    rcases mem_sins he with rfl | he
    · exact hv
    · exact h.2 e he

/-- Many writes keep the form. -/
theorem swfBy_fold_sput {d : Nat → α} {m : Sparse α} (l : List (Nat × α)) (h : swfBy d m = true) :
    swfBy d (l.foldl (fun m e => sput (d e.1) m e.1 e.2) m) = true := by
  induction l generalizing m with
  | nil => exact h
  | cons e l ih => exact ih (swfBy_sput _ _ h)

theorem swf_nil (d : α) : swf d [] = true := swfBy_nil _

theorem swf_sput {d : α} {m : Sparse α} (k : Nat) (v : α) (h : swf d m = true) :
    swf d (sput d m k v) = true := swfBy_sput (d := fun _ => d) k v h

theorem swf_skeep {d : α} {m : Sparse α} (p : Nat → Bool) (h : swf d m = true) :
    swf d (skeep m p) = true := swfBy_skeep p h

/-! ### The memories (R5, R18) -/

/-- Bytes put into a memory keep its canonical form. -/
theorem swf_memPut {m : Sparse Byte} (a : Nat) (bs : Bytes) (h : swf 0 m = true) : swf 0 (memPut m a bs) = true := by
  induction bs generalizing m a with
  | nil => exact h
  | cons b bs ih => exact ih _ (swf_sput _ _ h)

/-- Runs of bytes put into a memory one after another keep its canonical form. -/
theorem swf_fold_memPut {β : Type} {m : Sparse Byte} {l : List β} (k : β → Nat) (b : β → Bytes) (h : swf 0 m = true) :
    swf 0 (l.foldl (fun m x => memPut m (k x) (b x)) m) = true := by
  induction l generalizing m with
  | nil => exact h
  | cons x l ih => exact ih (swf_memPut _ _ h)

/-- Masked cells put into an image keep its canonical form. -/
theorem swf_imgPut {m : Sparse Byte} (cs : ImgCells) (h : swf 0 m = true) : swf 0 (imgPut m cs) = true := by
  unfold imgPut
  induction cs generalizing m with
  | nil => exact h
  | cons c cs ih => exact ih (swf_sput _ _ h)

/-- Every byte of a memory after bytes were put into it. -/
theorem sget_memPut (m : Sparse Byte) (a : Nat) (bs : Bytes) (k : Nat) :
    sget 0 (memPut m a bs) k = if a ≤ k ∧ k < a + bs.length then bs.getD (k - a) 0 else sget 0 m k := by
  induction bs generalizing m a with
  | nil => simp [memPut]
  | cons b bs ih =>
    rw [memPut, ih, sget_sput]
    by_cases h1 : k = a
    · subst h1; simp
    · by_cases h2 : a + 1 ≤ k ∧ k < a + 1 + bs.length
      · rw [if_pos h2, if_pos (by simp; omega)]
        obtain ⟨n, hn⟩ : ∃ n, k - a = n + 1 := ⟨k - a - 1, by omega⟩
        rw [hn, List.getD_cons_succ]
        congr 1; omega
      · rw [if_neg h2, if_neg h1, if_neg (by simp; omega)]

end Sys2Proof.Machine
end

