-- ==== Sys2Proof/Laws/Keeps.lean ====
section
/-! SUPPORT. What one command never does, as a relation between the state before and after, and how the
forms definitions are built from keep it. The files Keeps<Module> say it of every function. -/

namespace Sys2Proof.Machine

/-- From `s` to `t` the queue of waiting commands stays, the invariant is kept, and no free value and no
nonce is read a second time. -/
structure Keeps (s t : State) : Prop where
  pending : t.pending = s.pending
  free    : s.freeN ≤ t.freeN
  nonces  : s.hpi.nonces ≤ t.hpi.nonces
  inv     : s.Inv → t.Inv

theorem Keeps.refl (s : State) : Keeps s s := ⟨rfl, Nat.le_refl _, Nat.le_refl _, id⟩

theorem Keeps.trans {a b c : State} (h : Keeps a b) (k : Keeps b c) : Keeps a c :=
  ⟨k.pending.trans h.pending, Nat.le_trans h.free k.free, Nat.le_trans h.nonces k.nonces, k.inv ∘ h.inv⟩

/-- A change of fields that the relation does not look at. -/
theorem keeps_mk {a s : State} {x_power : Power} {x_op : OpState} {x_role : Role} {x_dtime : Nat} {x_utick : Nat} {x_uRem : Nat} {x_live : Sparse Word} {x_commits : List Commit} {x_latches : List (Reader × Nat × Word)} {x_fcause : Option Nat} {x_restart : Option Nat} {x_se : Se} {x_hpi : Hpi} {x_queues : Sparse Queue} {x_qWaits : List QWait} {x_dmas : Sparse Dma} {x_evr : Evr} {x_miu : Miu} {x_rsm : Rsm} {x_twl : Twl} {x_ixe : Ixe} {x_fbp : Sparse Fbp} {x_stn : Sparse Stn} {x_fio : Fio} {x_rtc : Rtc} {x_wdt : Wdt} {x_fwu : Fwu} {x_eth : Eth} {x_pwr : Pwr} {x_jtag : Option Word} {x_freeN : Nat}
    (h : Keeps a s) (hf : s.freeN ≤ x_freeN) (hn : s.hpi.nonces ≤ x_hpi.nonces)
    (hs : s.sessionsWf = true → (x_hpi.sessions.map (·.slot)).Nodup ∧ ∀ x ∈ x_hpi.sessions, x.slot < 8)
    (hq : s.evr.hq.length ≤ 64 → x_evr.hq.length ≤ 64) :
    Keeps a (State.mk s.pending x_power x_op x_role x_dtime x_utick x_uRem s.regs x_live x_commits x_latches x_fcause x_restart s.pm s.dm s.mram s.inImg s.outImg x_se x_hpi x_queues x_qWaits x_dmas x_evr x_miu x_rsm x_twl x_ixe x_fbp x_stn x_fio x_rtc x_wdt x_fwu x_eth x_pwr x_jtag x_freeN) :=
  h.trans ⟨rfl, hf, hn, fun i => ⟨i.1, i.2.1, by
    have := hs i.2.2.1
    simpa [State.sessionsWf] using this, by
    have := hq (by simpa [State.holdingWf] using i.2.2.2)
    simpa [State.holdingWf] using this⟩⟩

/-- As `keeps_mk`, for a change that touches the register map or a memory. -/
theorem keeps_all {a s : State} {x_power : Power} {x_op : OpState} {x_role : Role} {x_dtime : Nat} {x_utick : Nat} {x_uRem : Nat} {x_regs : Sparse Word} {x_live : Sparse Word} {x_commits : List Commit} {x_latches : List (Reader × Nat × Word)} {x_fcause : Option Nat} {x_restart : Option Nat} {x_pm : Sparse Byte} {x_dm : Sparse Byte} {x_mram : Sparse Byte} {x_inImg : Sparse Byte} {x_outImg : Sparse Byte} {x_se : Se} {x_hpi : Hpi} {x_queues : Sparse Queue} {x_qWaits : List QWait} {x_dmas : Sparse Dma} {x_evr : Evr} {x_miu : Miu} {x_rsm : Rsm} {x_twl : Twl} {x_ixe : Ixe} {x_fbp : Sparse Fbp} {x_stn : Sparse Stn} {x_fio : Fio} {x_rtc : Rtc} {x_wdt : Wdt} {x_fwu : Fwu} {x_eth : Eth} {x_pwr : Pwr} {x_jtag : Option Word} {x_freeN : Nat}
    (h : Keeps a s) (hf : s.freeN ≤ x_freeN) (hn : s.hpi.nonces ≤ x_hpi.nonces)
    (hs : s.sessionsWf = true → (x_hpi.sessions.map (·.slot)).Nodup ∧ ∀ x ∈ x_hpi.sessions, x.slot < 8)
    (hq : s.evr.hq.length ≤ 64 → x_evr.hq.length ≤ 64)
    (hr : swfBy resetVal s.regs = true → swfBy resetVal x_regs = true)
    (h1 : swf 0 s.pm = true → swf 0 x_pm = true) (h2 : swf 0 s.dm = true → swf 0 x_dm = true)
    (h3 : swf 0 s.mram = true → swf 0 x_mram = true) (h4 : swf 0 s.inImg = true → swf 0 x_inImg = true)
    (h5 : swf 0 s.outImg = true → swf 0 x_outImg = true) :
    Keeps a (State.mk s.pending x_power x_op x_role x_dtime x_utick x_uRem x_regs x_live x_commits x_latches x_fcause x_restart x_pm x_dm x_mram x_inImg x_outImg x_se x_hpi x_queues x_qWaits x_dmas x_evr x_miu x_rsm x_twl x_ixe x_fbp x_stn x_fio x_rtc x_wdt x_fwu x_eth x_pwr x_jtag x_freeN) :=
  h.trans ⟨rfl, hf, hn, fun i => ⟨by
    have := i.1
    simp only [Memory.wf, Bool.and_eq_true] at this ⊢
    exact ⟨⟨⟨⟨h1 this.1.1.1.1, h2 this.1.1.1.2⟩, h3 this.1.1.2⟩, h4 this.1.2⟩, h5 this.2⟩, hr i.2.1, by
    have := hs i.2.2.1
    simpa [State.sessionsWf] using this, by
    have := hq (by simpa [State.holdingWf] using i.2.2.2)
    simpa [State.holdingWf] using this⟩⟩

/-- Sessions that stay keep their slots. -/
theorem slots_same {s : State} {l : List Session} (e : l = s.hpi.sessions) (h : s.sessionsWf = true) :
    (l.map (·.slot)).Nodup ∧ ∀ x ∈ l, x.slot < 8 := by
  subst e; simpa [State.sessionsWf] using h

/-- Fewer sessions keep their slots. -/
theorem slots_filter {s : State} (p : Session → Bool) (h : s.sessionsWf = true) :
    ((s.hpi.sessions.filter p).map (·.slot)).Nodup ∧ ∀ x ∈ s.hpi.sessions.filter p, x.slot < 8 := by
  obtain ⟨h1, h2⟩ := slots_same rfl h
  exact ⟨h1.sublist (List.Sublist.map _ List.filter_sublist), fun x hx => h2 x (List.mem_filter.1 hx).1⟩

/-- A change of the register map and of the memories. -/
theorem keeps_mem {a s t : State} (h : Keeps a s) (hp : t.pending = s.pending) (hf : t.freeN = s.freeN)
    (hh : t.hpi = s.hpi) (he : t.evr.hq = s.evr.hq)
    (hr : s.regsWf = true → t.regsWf = true) (hm : Memory.wf s = true → Memory.wf t = true) : Keeps a t :=
  h.trans ⟨hp, Nat.le_of_eq hf.symm, by rw [hh], fun i => ⟨hm i.1, hr i.2.1, by
    have := i.2.2.1
    simpa [State.sessionsWf, hh] using this, by
    have := i.2.2.2
    simpa [State.holdingWf, he] using this⟩⟩

/-! ### The forms of definitions -/

theorem keeps_ite {a s t : State} {c : Prop} [Decidable c] (h1 : Keeps a s) (h2 : Keeps a t) :
    Keeps a (if c then s else t) := by
  split <;> assumption

theorem keeps_ite_snd {α : Type} {a : State} {p q : α × State} {c : Prop} [Decidable c] (h1 : Keeps a p.2)
    (h2 : Keeps a q.2) : Keeps a (if c then p else q).2 := by
  split <;> assumption

theorem keeps_when {a s : State} {b : Bool} {f : State → State} (h : Keeps a s)
    (hf : ∀ t, Keeps a t → Keeps a (f t)) : Keeps a (s.when b f) := by
  unfold State.when
  split
  · exact hf s h
  · exact h

theorem keeps_foldl {α : Type} {a s : State} {l : List α} {f : State → α → State} (h : Keeps a s)
    (hf : ∀ t x, Keeps a t → Keeps a (f t x)) : Keeps a (l.foldl f s) := by
  induction l generalizing s with
  | nil => exact h
  | cons x l ih => exact ih (hf _ _ h)

/-- A fold that carries a value beside the state. -/
theorem keeps_foldl_snd {α β : Type} {a : State} {l : List α} {f : β × State → α → β × State} {p : β × State}
    (h : Keeps a p.2) (hf : ∀ q x, Keeps a q.2 → Keeps a (f q x).2) : Keeps a (l.foldl f p).2 := by
  induction l generalizing p with
  | nil => exact h
  | cons x l ih => exact ih (hf _ _ h)

theorem keeps_foldl_fst {α β : Type} {a : State} {l : List α} {f : State × β → α → State × β} {p : State × β}
    (h : Keeps a p.1) (hf : ∀ q x, Keeps a q.1 → Keeps a (f q x).1) : Keeps a (l.foldl f p).1 := by
  induction l generalizing p with
  | nil => exact h
  | cons x l ih => exact ih (hf _ _ h)

theorem keeps_id {a s : State} (h : Keeps a s) : Keeps a (id s) := h

theorem keeps_pair {α : Type} {a s : State} {x : α} (h : Keeps a s) : Keeps a (x, s).2 := h

/-- The state a pattern takes out of a pair. -/
theorem keeps_of_pair {α : Type} {a s : State} {p : α × State} {x : α} (e : p = (x, s)) (h : Keeps a p.2) :
    Keeps a s := by subst e; exact h

theorem keeps_of_triple {α β : Type} {a s : State} {p : α × β × State} {x : α} {y : β} (e : p = (x, y, s))
    (h : Keeps a p.2.2) : Keeps a s := by subst e; exact h

/-- A meaning that answers a next state, keeping what a command keeps. -/
structure KeepsOut (a : State) (o : Host.Outcome State Fault Refusal) : Prop where
  next : ∀ t, o = .next t → Keeps a t

theorem keepsOut_next {a s : State} (h : Keeps a s) : KeepsOut a (.next s) :=
  ⟨fun t e => by injection e with e; exact e ▸ h⟩

theorem keepsOut_fault {a : State} {f : Fault} : KeepsOut a (.fault f) :=
  ⟨fun t e => by cases e⟩

theorem keepsOut_ite {a : State} {o p : Host.Outcome State Fault Refusal} {c : Prop} [Decidable c]
    (h1 : KeepsOut a o) (h2 : KeepsOut a p) : KeepsOut a (if c then o else p) := by
  split <;> assumption

/-- What an SE instruction does keeps it. -/
def KeepsRes (a : State) : SeRes → Prop
  | .next _ s _ => Keeps a s
  | .trap _ _ _ => True
  | .bad _ s => Keeps a s

theorem keepsRes_ite {a : State} {r q : SeRes} {c : Prop} [Decidable c]
    (h1 : KeepsRes a r) (h2 : KeepsRes a q) : KeepsRes a (if c then r else q) := by
  split <;> assumption

theorem keepsRes_next {a s : State} {g : Ctx → Ctx} {j : Option Nat} (h : Keeps a s) : KeepsRes a (.next g s j) := h

theorem keepsRes_bad {a s : State} {k : Nat} (h : Keeps a s) : KeepsRes a (.bad k s) := h

theorem keepsRes_illegal {a : State} : KeepsRes a illegal := trivial

theorem keepsRes_stackTrap {a : State} : KeepsRes a stackTrap := trivial

theorem keepsRes_trap {a : State} {c d e : Nat} : KeepsRes a (.trap c d e) := trivial

end Sys2Proof.Machine
end

