-- ==== Sys2Proof/Laws/KeepsOps.lean ====
section
/-! SUPPORT. What no command does (Laws.Keeps), said of every function of Machine.Ops. -/

namespace Sys2Proof.Machine

theorem State.wr_keeps {a v0 : State} {v1 v2} (h : Keeps a v0) : Keeps a (v0.wr v1 v2) :=
  keeps_mem h rfl rfl rfl rfl (fun i => swfBy_sput _ _ i) id

theorem State.setFld_keeps {a : State} {v0 v1 v2 v3 v4} (h0 : Keeps a v0) : Keeps a (State.setFld v0 v1 v2 v3 v4) := by
  unfold State.setFld
  repeat' first
    | with_reducible assumption
    | intro _
    | with_reducible apply State.wr_keeps

theorem State.addCnt_keeps {a : State} {v0 v1 v2} (h0 : Keeps a v0) : Keeps a (State.addCnt v0 v1 v2) := by
  unfold State.addCnt
  repeat' first
    | with_reducible assumption
    | intro _
    | with_reducible apply State.wr_keeps

theorem State.inc_keeps {a : State} {v0 v1} (h0 : Keeps a v0) : Keeps a (State.inc v0 v1) := by
  unfold State.inc
  repeat' first
    | with_reducible assumption
    | intro _
    | with_reducible apply State.addCnt_keeps

theorem State.incFld_keeps {a : State} {v0 v1 v2 v3} (h0 : Keeps a v0) : Keeps a (State.incFld v0 v1 v2 v3) := by
  unfold State.incFld
  repeat' first
    | with_reducible assumption
    | intro _
    | with_reducible apply State.setFld_keeps

theorem State.setBit_keeps {a : State} {v0 v1 v2 v3} (h0 : Keeps a v0) : Keeps a (State.setBit v0 v1 v2 v3) := by
  unfold State.setBit
  repeat' first
    | with_reducible assumption
    | intro _
    | with_reducible apply State.setFld_keeps

theorem State.clearAll_keeps {a : State} {v0 v1} (h0 : Keeps a v0) : Keeps a (State.clearAll v0 v1) := by
  unfold State.clearAll
  repeat' first
    | with_reducible assumption
    | intro _
    | with_reducible apply State.wr_keeps
    | with_reducible apply keeps_foldl

theorem State.wrs_keeps {a v0 : State} {v1 v2} (h : Keeps a v0) : Keeps a (v0.wrs v1 v2) := by
  induction v2 generalizing v0 v1 with
  | nil => exact h
  | cons w ws ih => exact ih (State.wr_keeps h)

theorem State.setLatch_keeps {a : State} {v0 v1 v2 v3} (h0 : Keeps a v0) : Keeps a (State.setLatch v0 v1 v2 v3) := by
  unfold State.setLatch
  repeat' first
    | with_reducible assumption
    | exact Nat.le_refl _
    | exact slots_same rfl
    | exact id
    | intro _
    | with_reducible refine keeps_mk ?_ ?_ ?_ ?_ ?_

theorem State.at_keeps {a : State} {v0 v1} (h0 : Keeps a v0) : Keeps a (State.at v0 v1) := by
  unfold State.at
  repeat' first
    | with_reducible assumption
    | exact Nat.le_refl _
    | exact slots_same rfl
    | exact id
    | intro _
    | with_reducible apply keeps_ite
    | dsimp only
    | split
    | with_reducible refine keeps_mk ?_ ?_ ?_ ?_ ?_

theorem State.stepTime_keeps {a : State} {v0 v1} (h0 : Keeps a v0) : Keeps a (State.stepTime v0 v1) := by
  unfold State.stepTime
  repeat' first
    | with_reducible assumption
    | exact Nat.le_refl _
    | exact slots_same rfl
    | exact id
    | intro _
    | dsimp only
    | with_reducible refine keeps_mk ?_ ?_ ?_ ?_ ?_

theorem State.free_keeps {a v0 : State} (h : Keeps a v0) : Keeps a v0.free.2 := by
  unfold State.free
  exact keeps_mk h (Nat.le_succ _) (Nat.le_refl _) (slots_same rfl) id

theorem State.evSuppress_keeps {a : State} {v0 v1} (h0 : Keeps a v0) : Keeps a (State.evSuppress v0 v1) := by
  unfold State.evSuppress
  repeat' first
    | with_reducible assumption
    | exact Nat.le_refl _
    | exact slots_same rfl
    | exact id
    | intro _
    | with_reducible apply State.inc_keeps
    | dsimp only
    | with_reducible refine keeps_mk ?_ ?_ ?_ ?_ ?_

theorem State.takeSubseq_keeps {a : State} {v0 v1} (h0 : Keeps a v0) : Keeps a (State.takeSubseq v0 v1).2 := by
  unfold State.takeSubseq
  repeat' first
    | with_reducible assumption
    | exact Nat.le_refl _
    | exact slots_same rfl
    | exact id
    | intro _
    | dsimp only
    | with_reducible refine keeps_mk ?_ ?_ ?_ ?_ ?_

theorem State.evHold_keeps {a v0 : State} {v1 v2} (h : Keeps a v0) : Keeps a (v0.evHold v1 v2) := by
  unfold State.evHold
  have k : Keeps a (v0.takeSubseq v1).2 := State.takeSubseq_keeps h
  generalize v0.takeSubseq v1 = p at *
  obtain ⟨n, s⟩ := p
  dsimp only
  split
  · rename_i hlt
    refine keeps_mk k (Nat.le_refl _) (Nat.le_refl _) (slots_same rfl) fun _ => ?_
    simpa using hlt
  · exact keeps_mk (State.inc_keeps k) (Nat.le_refl _) (Nat.le_refl _) (slots_same rfl) id

theorem State.event_keeps {a : State} {v0 v1 v2} (h0 : Keeps a v0) : Keeps a (State.event v0 v1 v2) := by
  unfold State.event
  repeat' first
    | with_reducible assumption
    | exact Nat.le_refl _
    | exact slots_same rfl
    | exact id
    | intro _
    | with_reducible apply State.evHold_keeps
    | with_reducible apply State.evSuppress_keeps
    | with_reducible apply keeps_ite
    | dsimp only
    | split
    | with_reducible refine keeps_mk ?_ ?_ ?_ ?_ ?_

theorem State.ev_keeps {a : State} {v0 v1 v2} (h0 : Keeps a v0) : Keeps a (State.ev v0 v1 v2) := by
  unfold State.ev
  repeat' first
    | with_reducible assumption
    | intro _
    | with_reducible apply State.event_keeps

theorem State.setCtx_keeps {a : State} {v0 v1 v2} (h0 : Keeps a v0) : Keeps a (State.setCtx v0 v1 v2) := by
  unfold State.setCtx
  repeat' first
    | with_reducible assumption
    | exact Nat.le_refl _
    | exact slots_same rfl
    | exact id
    | intro _
    | with_reducible refine keeps_mk ?_ ?_ ?_ ?_ ?_

theorem State.onCtx_keeps {a : State} {v0 v1 v2} (h0 : Keeps a v0) : Keeps a (State.onCtx v0 v1 v2) := by
  unfold State.onCtx
  repeat' first
    | with_reducible assumption
    | intro _
    | with_reducible apply State.setCtx_keeps

theorem State.setQueue_keeps {a : State} {v0 v1 v2} (h0 : Keeps a v0) : Keeps a (State.setQueue v0 v1 v2) := by
  unfold State.setQueue
  repeat' first
    | with_reducible assumption
    | exact Nat.le_refl _
    | exact slots_same rfl
    | exact id
    | intro _
    | with_reducible refine keeps_mk ?_ ?_ ?_ ?_ ?_

theorem State.parHeal_keeps {a : State} {v0 v1} (h0 : Keeps a v0) : Keeps a (State.parHeal v0 v1) := by
  unfold State.parHeal
  repeat' first
    | with_reducible assumption
    | exact Nat.le_refl _
    | exact slots_same rfl
    | exact id
    | intro _
    | with_reducible apply keeps_ite
    | split
    | with_reducible refine keeps_mk ?_ ?_ ?_ ?_ ?_

theorem State.onSe_keeps {a : State} {v0 v1} (h0 : Keeps a v0) : Keeps a (State.onSe v0 v1) := by
  unfold State.onSe
  repeat' first
    | with_reducible assumption
    | exact Nat.le_refl _
    | exact slots_same rfl
    | exact id
    | intro _
    | with_reducible refine keeps_mk ?_ ?_ ?_ ?_ ?_

end Sys2Proof.Machine
end

