-- ==== Sys2Proof/Laws/KeepsCmd.lean ====
section
/-! SUPPORT. What no command does (Laws.Keeps), said of every function of Machine.Cmd. -/

namespace Sys2Proof.Machine

theorem State.rxFrame_keeps {a : State} {v0 v1} (h0 : Keeps a v0) : Keeps a (State.rxFrame v0 v1) := by
  unfold State.rxFrame
  repeat' first
    | with_reducible assumption
    | intro _
    | with_reducible apply State.inc_keeps
    | with_reducible apply keeps_when

theorem State.txFrames_keeps {a : State} {v0 v1 v2} (h0 : Keeps a v0) : Keeps a (State.txFrames v0 v1 v2) := by
  unfold State.txFrames
  repeat' first
    | with_reducible assumption
    | intro _
    | with_reducible apply State.addCnt_keeps
    | with_reducible apply keeps_when

theorem State.send_keeps {a : State} {v0 v1} (h0 : Keeps a v0) : Keeps a (State.send v0 v1) := by
  unfold State.send
  repeat' first
    | with_reducible assumption
    | exact Nat.le_refl _
    | exact slots_same rfl
    | exact id
    | intro _
    | with_reducible apply State.txFrames_keeps
    | dsimp only
    | split
    | with_reducible refine keeps_mk ?_ ?_ ?_ ?_ ?_

theorem State.setSession_keeps {a v0 : State} {v1} (h : Keeps a v0) : Keeps a (v0.setSession v1) := by
  unfold State.setSession
  refine keeps_mk h (Nat.le_refl _) (Nat.le_refl _) (fun w => ?_) id
  obtain ⟨h1, h2⟩ := slots_same rfl w
  have e : (v0.hpi.sessions.map fun y => if y.slot = v1.slot then v1 else y).map (·.slot) =
      v0.hpi.sessions.map (·.slot) := by
    rw [List.map_map]
    refine List.map_congr_left fun y _ => ?_
    simp only [Function.comp]
    split <;> simp [*]
  refine ⟨by simpa [e] using h1, fun x hx => ?_⟩
  have hm : x.slot ∈ v0.hpi.sessions.map (·.slot) := e ▸ List.mem_map_of_mem hx
  obtain ⟨y, hy, hy2⟩ := List.mem_map.1 hm
  exact hy2 ▸ h2 y hy

theorem State.closeSession_keeps {a : State} {v0 v1} (h0 : Keeps a v0) : Keeps a (State.closeSession v0 v1) := by
  unfold State.closeSession
  repeat' first
    | with_reducible assumption
    | exact Nat.le_refl _
    | exact slots_same rfl
    | exact id
    | exact slots_filter _
    | intro _
    | with_reducible refine keeps_mk ?_ ?_ ?_ ?_ ?_

theorem State.cacheReply_keeps {a : State} {v0 v1 v2} (h0 : Keeps a v0) : Keeps a (State.cacheReply v0 v1 v2) := by
  unfold State.cacheReply
  repeat' first
    | with_reducible assumption
    | intro _
    | with_reducible apply State.setSession_keeps
    | split

theorem State.useLimit_keeps {a : State} {v0 v1} (h0 : Keeps a v0) : Keeps a (State.useLimit v0 v1) := by
  unfold State.useLimit
  repeat' first
    | with_reducible assumption
    | intro _
    | with_reducible apply State.ev_keeps
    | with_reducible apply State.closeSession_keeps
    | with_reducible apply keeps_ite
    | split

theorem State.reply_keeps {a : State} {v0 v1 v2 v3 v4 v5} (h0 : Keeps a v0) : Keeps a (State.reply v0 v1 v2 v3 v4 v5) := by
  unfold State.reply
  repeat' first
    | with_reducible assumption
    | intro _
    | with_reducible apply State.inc_keeps
    | with_reducible apply State.cacheReply_keeps
    | with_reducible apply State.send_keeps
    | with_reducible apply State.useLimit_keeps
    | with_reducible apply keeps_when

theorem State.ok_keeps {a : State} {v0 v1 v2 v3} (h0 : Keeps a v0) : Keeps a (State.ok v0 v1 v2 v3) := by
  unfold State.ok
  repeat' first
    | with_reducible assumption
    | intro _
    | with_reducible apply State.reply_keeps

theorem State.fail_keeps {a : State} {v0 v1 v2 v3 v4} (h0 : Keeps a v0) : Keeps a (State.fail v0 v1 v2 v3 v4) := by
  unfold State.fail
  repeat' first
    | with_reducible assumption
    | intro _
    | with_reducible apply State.reply_keeps

theorem State.accept_keeps {a : State} {v0 v1 v2 v3} (h0 : Keeps a v0) : Keeps a (State.accept v0 v1 v2 v3) := by
  unfold State.accept
  repeat' first
    | with_reducible assumption
    | exact Nat.le_refl _
    | exact slots_same rfl
    | exact id
    | intro _
    | with_reducible apply State.reply_keeps
    | dsimp only
    | with_reducible refine keeps_mk ?_ ?_ ?_ ?_ ?_

theorem State.notice_keeps {a : State} {v0 v1 v2 v3} (h0 : Keeps a v0) : Keeps a (State.notice v0 v1 v2 v3) := by
  unfold State.notice
  repeat' first
    | with_reducible assumption
    | exact Nat.le_refl _
    | exact slots_same rfl
    | exact id
    | intro _
    | with_reducible apply State.useLimit_keeps
    | with_reducible apply State.send_keeps
    | with_reducible apply State.cacheReply_keeps
    | with_reducible apply keeps_ite
    | dsimp only
    | split
    | with_reducible refine keeps_mk ?_ ?_ ?_ ?_ ?_

theorem State.noticeAll_keeps {a : State} {v0 v1 v2 v3} (h0 : Keeps a v0) : Keeps a (State.noticeAll v0 v1 v2 v3) := by
  unfold State.noticeAll
  repeat' first
    | with_reducible assumption
    | intro _
    | with_reducible apply State.notice_keeps
    | with_reducible apply keeps_foldl

theorem State.unwait_keeps {a : State} {v0 v1} (h0 : Keeps a v0) : Keeps a (State.unwait v0 v1) := by
  unfold State.unwait
  repeat' first
    | with_reducible assumption
    | exact Nat.le_refl _
    | exact slots_same rfl
    | exact id
    | intro _
    | with_reducible refine keeps_mk ?_ ?_ ?_ ?_ ?_

theorem State.wait_keeps {a : State} {v0 v1 v2 v3} (h0 : Keeps a v0) : Keeps a (State.wait v0 v1 v2 v3) := by
  unfold State.wait
  repeat' first
    | with_reducible assumption
    | exact Nat.le_refl _
    | exact slots_same rfl
    | exact id
    | intro _
    | with_reducible apply keeps_ite
    | split
    | with_reducible refine keeps_mk ?_ ?_ ?_ ?_ ?_

theorem State.start_keeps {a : State} {v0 v1 v2 v3 v4} (h0 : Keeps a v0) (h4 : ∀ t0, Keeps a t0 → Keeps a (v4 t0)) : Keeps a (State.start v0 v1 v2 v3 v4) := by
  unfold State.start
  repeat' first
    | with_reducible assumption
    | exact Nat.le_refl _
    | exact slots_same rfl
    | exact id
    | intro _
    | with_reducible apply h4
    | with_reducible apply State.wait_keeps
    | with_reducible apply State.reply_keeps
    | with_reducible apply State.unwait_keeps
    | with_reducible apply keeps_ite
    | dsimp only
    | split
    | with_reducible refine keeps_mk ?_ ?_ ?_ ?_ ?_

theorem State.reWait_keeps {a : State} {v0 v1 v2 v3} (h0 : Keeps a v0) : Keeps a (State.reWait v0 v1 v2 v3) := by
  unfold State.reWait
  repeat' first
    | with_reducible assumption
    | exact Nat.le_refl _
    | exact slots_same rfl
    | exact id
    | intro _
    | with_reducible refine keeps_mk ?_ ?_ ?_ ?_ ?_

theorem State.startLen_keeps {a : State} {v0 v1 v2 v3 v4 v5} (h0 : Keeps a v0) (h5 : ∀ t0, Keeps a t0 → Keeps a (v5 t0)) : Keeps a (State.startLen v0 v1 v2 v3 v4 v5) := by
  unfold State.startLen
  repeat' first
    | with_reducible assumption
    | intro _
    | with_reducible apply h5
    | with_reducible apply State.start_keeps
    | with_reducible apply State.fail_keeps
    | with_reducible apply keeps_ite

theorem State.refuse_keeps {a : State} {v0 v1 v2 v3 v4} (h0 : Keeps a v0) : Keeps a (State.refuse v0 v1 v2 v3 v4) := by
  unfold State.refuse
  repeat' first
    | with_reducible assumption
    | intro _
    | with_reducible apply State.inc_keeps
    | with_reducible apply State.send_keeps
    | with_reducible apply keeps_ite
    | with_reducible apply keeps_when

theorem State.authFail_keeps {a : State} {v0 v1 v2 v3} (h0 : Keeps a v0) : Keeps a (State.authFail v0 v1 v2 v3) := by
  unfold State.authFail
  repeat' first
    | with_reducible assumption
    | intro _
    | with_reducible apply State.refuse_keeps
    | with_reducible apply State.ev_keeps
    | with_reducible apply State.inc_keeps
    | with_reducible apply State.closeSession_keeps
    | with_reducible apply State.setSession_keeps
    | with_reducible apply keeps_ite
    | dsimp only
    | split

theorem State.takeIn_keeps {a : State} {v0 v1 v2 v3} (h0 : Keeps a v0) : Keeps a (State.takeIn v0 v1 v2 v3) := by
  unfold State.takeIn
  repeat' first
    | with_reducible assumption
    | exact Nat.le_refl _
    | exact slots_same rfl
    | exact id
    | intro _
    | with_reducible apply State.reply_keeps
    | with_reducible apply State.setSession_keeps
    | with_reducible apply keeps_ite
    | dsimp only
    | split
    | with_reducible refine keeps_mk ?_ ?_ ?_ ?_ ?_

theorem State.repeatOr_keeps {a : State} {v0 v1 v2 v3 v4 v5} (h0 : Keeps a v0) (h5 : ∀ t0, Keeps a t0 → Keeps a (v5 t0)) : Keeps a (State.repeatOr v0 v1 v2 v3 v4 v5) := by
  unfold State.repeatOr
  repeat' first
    | with_reducible assumption
    | intro _
    | with_reducible apply h5
    | with_reducible apply State.takeIn_keeps
    | with_reducible apply State.inc_keeps
    | with_reducible apply State.setSession_keeps
    | with_reducible apply State.send_keeps
    | with_reducible apply State.reply_keeps
    | with_reducible apply keeps_ite
    | with_reducible apply keeps_when
    | dsimp only
    | split

theorem State.authStep_keeps {a : State} {v0 v1 v2 v3} (h0 : Keeps a v0) : Keeps a (State.authStep v0 v1 v2 v3) := by
  unfold State.authStep
  repeat' first
    | with_reducible assumption
    | intro _
    | with_reducible apply State.repeatOr_keeps
    | with_reducible apply State.authFail_keeps
    | with_reducible apply State.setSession_keeps
    | with_reducible apply keeps_ite
    | with_reducible apply keeps_id
    | dsimp only
    | split

theorem State.receive_keeps {a : State} {v0 v1 v2} (h0 : Keeps a v0) : Keeps a (State.receive v0 v1 v2) := by
  unfold State.receive
  repeat' first
    | with_reducible assumption
    | intro _
    | with_reducible apply State.ev_keeps
    | with_reducible apply State.inc_keeps
    | with_reducible apply State.refuse_keeps
    | with_reducible apply State.authStep_keeps
    | with_reducible apply keeps_ite

theorem execPacketReceived_keeps {a : State} {v0 v1 v2 v3} (h3 : Keeps a v3) : KeepsOut a (execPacketReceived v0 v1 v2 v3) := by
  unfold execPacketReceived
  repeat' first
    | with_reducible assumption
    | intro _
    | with_reducible apply keepsOut_next
    | with_reducible apply keepsOut_ite
    | with_reducible apply State.at_keeps
    | with_reducible apply State.receive_keeps
    | with_reducible apply keeps_ite

theorem execSessionIdleClose_keeps {a : State} {v0 v1 v2} (h2 : Keeps a v2) : KeepsOut a (execSessionIdleClose v0 v1 v2) := by
  unfold execSessionIdleClose
  repeat' first
    | with_reducible assumption
    | intro _
    | with_reducible apply keepsOut_next
    | with_reducible apply keepsOut_ite
    | with_reducible apply State.at_keeps
    | with_reducible apply State.ev_keeps
    | with_reducible apply State.closeSession_keeps
    | with_reducible apply keeps_ite
    | dsimp only
    | split

theorem State.spiBegin_keeps {a : State} {v0} (h0 : Keeps a v0) : Keeps a (State.spiBegin v0) := by
  unfold State.spiBegin
  repeat' first
    | with_reducible assumption
    | exact Nat.le_refl _
    | exact slots_same rfl
    | exact id
    | intro _
    | with_reducible refine keeps_mk ?_ ?_ ?_ ?_ ?_

theorem execSpiStatus_keeps {a : State} {v0} (h0 : Keeps a v0) : KeepsOut a (execSpiStatus v0) := by
  unfold execSpiStatus
  repeat' first
    | with_reducible assumption
    | intro _
    | with_reducible apply keepsOut_next
    | with_reducible apply keepsOut_ite
    | with_reducible apply State.spiBegin_keeps

theorem execSpiReservedCode_keeps {a : State} {v0 v1 v2} (h2 : Keeps a v2) : KeepsOut a (execSpiReservedCode v0 v1 v2) := by
  unfold execSpiReservedCode
  repeat' first
    | with_reducible assumption
    | exact Nat.le_refl _
    | exact slots_same rfl
    | exact id
    | intro _
    | with_reducible apply keepsOut_next
    | with_reducible apply keepsOut_ite
    | with_reducible apply State.spiBegin_keeps
    | with_reducible apply keeps_ite
    | dsimp only
    | split
    | with_reducible refine keeps_mk ?_ ?_ ?_ ?_ ?_

theorem State.spiTake_keeps {a v1 : State} {v0 v2} (h : Keeps a v1) : Keeps a (State.spiTake v0 v1 v2).1 := by
  induction v0 generalizing v1 v2 with
  | zero => exact h
  | succ n ih =>
    unfold State.spiTake
    repeat' first
      | with_reducible assumption
      | with_reducible apply ih
      | with_reducible apply State.receive_keeps
      | dsimp only
      | split

theorem execSpiWrite_keeps {a : State} {v0 v1 v2} (h2 : Keeps a v2) : KeepsOut a (execSpiWrite v0 v1 v2) := by
  unfold execSpiWrite
  repeat' first
    | with_reducible assumption
    | exact Nat.le_refl _
    | exact slots_same rfl
    | exact id
    | intro _
    | with_reducible apply keepsOut_next
    | with_reducible apply keepsOut_ite
    | with_reducible apply State.spiBegin_keeps
    | with_reducible apply State.at_keeps
    | with_reducible apply State.ev_keeps
    | with_reducible apply State.inc_keeps
    | with_reducible apply State.spiTake_keeps
    | with_reducible apply keeps_ite
    | dsimp only
    | split
    | with_reducible refine keeps_mk ?_ ?_ ?_ ?_ ?_

theorem execSpiRead_keeps {a : State} {v0 v1} (h1 : Keeps a v1) : KeepsOut a (execSpiRead v0 v1) := by
  unfold execSpiRead
  repeat' first
    | with_reducible assumption
    | exact Nat.le_refl _
    | exact slots_same rfl
    | exact id
    | intro _
    | with_reducible apply keepsOut_next
    | with_reducible apply keepsOut_ite
    | with_reducible apply State.spiBegin_keeps
    | with_reducible apply keeps_ite
    | dsimp only
    | split
    | with_reducible refine keeps_mk ?_ ?_ ?_ ?_ ?_

theorem State.udpPayload_keeps {a : State} {v0 v1 v2} (h0 : Keeps a v0) : Keeps a (State.udpPayload v0 v1 v2) := by
  unfold State.udpPayload
  repeat' first
    | with_reducible assumption
    | intro _
    | with_reducible apply State.inc_keeps
    | with_reducible apply State.receive_keeps
    | with_reducible apply keeps_ite

theorem State.ethDiscard_keeps {a : State} {v0 v1} (h0 : Keeps a v0) : Keeps a (State.ethDiscard v0 v1) := by
  unfold State.ethDiscard
  repeat' first
    | with_reducible assumption
    | intro _
    | with_reducible apply State.inc_keeps

theorem execUdpDatagram_keeps {a : State} {v0 v1 v2 v3 v4} (h4 : Keeps a v4) : KeepsOut a (execUdpDatagram v0 v1 v2 v3 v4) := by
  unfold execUdpDatagram
  repeat' first
    | with_reducible assumption
    | intro _
    | with_reducible apply keepsOut_next
    | with_reducible apply keepsOut_ite
    | with_reducible apply State.at_keeps
    | with_reducible apply State.ethDiscard_keeps
    | with_reducible apply State.rxFrame_keeps
    | with_reducible apply State.udpPayload_keeps
    | with_reducible apply keeps_ite

theorem cmdSysPing_keeps {a : State} {v0 v1 v2} (h2 : Keeps a v2) : Keeps a (cmdSysPing v0 v1 v2) := by
  unfold cmdSysPing
  repeat' first
    | with_reducible assumption
    | intro _
    | with_reducible apply State.start_keeps
    | with_reducible apply State.ok_keeps
    | with_reducible apply State.fail_keeps
    | with_reducible apply keeps_ite

theorem cmdSysIdent_keeps {a : State} {v0 v1 v2} (h2 : Keeps a v2) : Keeps a (cmdSysIdent v0 v1 v2) := by
  unfold cmdSysIdent
  repeat' first
    | with_reducible assumption
    | intro _
    | with_reducible apply State.startLen_keeps
    | with_reducible apply State.ok_keeps

theorem cmdSysStatus_keeps {a : State} {v0 v1 v2} (h2 : Keeps a v2) : Keeps a (cmdSysStatus v0 v1 v2) := by
  unfold cmdSysStatus
  repeat' first
    | with_reducible assumption
    | intro _
    | with_reducible apply State.startLen_keeps
    | with_reducible apply State.ok_keeps

theorem State.openSession_keeps {a v0 : State} {v1 v2 v3 v4 v5} (h : Keeps a v0)
    (hf : ∀ x ∈ v0.hpi.sessions, x.slot ≠ v2) (h8 : v2 < 8) : Keeps a (v0.openSession v1 v2 v3 v4 v5) := by
  unfold State.openSession
  refine State.ok_keeps (keeps_mk h (Nat.le_refl _) (Nat.le_add_right _ _) (fun w => ?_) id)
  obtain ⟨h1, h2⟩ := slots_same rfl w
  refine ⟨?_, fun x hx => ?_⟩
  · rw [List.map_append, List.nodup_append]
    refine ⟨h1, by simp, fun i hi j hj => ?_⟩
    obtain ⟨x, hx, rfl⟩ := List.mem_map.1 hi
    simp only [List.map_cons, List.map_nil, List.mem_singleton] at hj
    exact hj ▸ hf x hx
  · rcases List.mem_append.1 hx with hx | hx
    · exact h2 x hx
    · rw [List.mem_singleton.1 hx]; exact h8

/-- The free slot is below 8 and no session has it. -/
theorem State.freeSlot_spec {s : State} {i : Nat} (e : s.freeSlot = some i) :
    i < 8 ∧ ∀ x ∈ s.hpi.sessions, x.slot ≠ i := by
  unfold State.freeSlot at e
  have h1 := List.mem_of_find?_eq_some e
  have h2 := List.find?_some e
  simp only [List.all_eq_true, decide_eq_true_eq] at h2
  exact ⟨List.mem_range.1 h1, h2⟩

theorem cmdSysSessionOpen_keeps {a v2 : State} {v0 v1} (h : Keeps a v2) : Keeps a (cmdSysSessionOpen v0 v1 v2) := by
  unfold cmdSysSessionOpen
  refine State.start_keeps h fun t k => ?_
  dsimp only
  refine keeps_ite (State.fail_keeps k) (keeps_ite (State.fail_keeps k) (keeps_ite (State.fail_keeps k) ?_))
  split
  · exact State.fail_keeps k
  · rename_i i e
    exact State.openSession_keeps k (State.freeSlot_spec e).2 (State.freeSlot_spec e).1

theorem cmdSysSessionClose_keeps {a : State} {v0 v1 v2} (h2 : Keeps a v2) : Keeps a (cmdSysSessionClose v0 v1 v2) := by
  unfold cmdSysSessionClose
  repeat' first
    | with_reducible assumption
    | intro _
    | with_reducible apply State.startLen_keeps
    | with_reducible apply State.fail_keeps
    | with_reducible apply State.closeSession_keeps
    | with_reducible apply State.ok_keeps
    | with_reducible apply keeps_ite

theorem cmdSysRestart_keeps {a : State} {v0 v1 v2} (h2 : Keeps a v2) : Keeps a (cmdSysRestart v0 v1 v2) := by
  unfold cmdSysRestart
  repeat' first
    | with_reducible assumption
    | exact Nat.le_refl _
    | exact slots_same rfl
    | exact id
    | intro _
    | with_reducible apply State.startLen_keeps
    | with_reducible apply State.fail_keeps
    | with_reducible apply State.ok_keeps
    | with_reducible apply keeps_ite
    | split
    | with_reducible refine keeps_mk ?_ ?_ ?_ ?_ ?_

theorem State.setLock_keeps {a : State} {v0 v1 v2 v3} (h0 : Keeps a v0) : Keeps a (State.setLock v0 v1 v2 v3) := by
  unfold State.setLock
  repeat' first
    | with_reducible assumption
    | exact Nat.le_refl _
    | exact slots_same rfl
    | exact id
    | intro _
    | with_reducible apply State.fail_keeps
    | with_reducible apply State.ok_keeps
    | with_reducible apply State.ev_keeps
    | with_reducible apply keeps_ite
    | split
    | with_reducible refine keeps_mk ?_ ?_ ?_ ?_ ?_

theorem cmdSysLockSet_keeps {a : State} {v0 v1 v2} (h2 : Keeps a v2) : Keeps a (cmdSysLockSet v0 v1 v2) := by
  unfold cmdSysLockSet
  repeat' first
    | with_reducible assumption
    | intro _
    | with_reducible apply State.startLen_keeps
    | with_reducible apply State.setLock_keeps

theorem cmdSysLockClear_keeps {a : State} {v0 v1 v2} (h2 : Keeps a v2) : Keeps a (cmdSysLockClear v0 v1 v2) := by
  unfold cmdSysLockClear
  repeat' first
    | with_reducible assumption
    | intro _
    | with_reducible apply State.startLen_keeps
    | with_reducible apply State.setLock_keeps

theorem cmdSysKeySet_keeps {a : State} {v0 v1 v2} (h2 : Keeps a v2) : Keeps a (cmdSysKeySet v0 v1 v2) := by
  unfold cmdSysKeySet
  repeat' first
    | with_reducible assumption
    | exact Nat.le_refl _
    | exact slots_same rfl
    | exact id
    | exact slots_filter _
    | intro _
    | with_reducible apply State.startLen_keeps
    | with_reducible apply State.fail_keeps
    | with_reducible apply State.ok_keeps
    | with_reducible apply State.ev_keeps
    | with_reducible apply keeps_ite
    | dsimp only
    | split
    | with_reducible refine keeps_mk ?_ ?_ ?_ ?_ ?_

theorem cmdSysCounters_keeps {a : State} {v0 v1 v2} (h2 : Keeps a v2) : Keeps a (cmdSysCounters v0 v1 v2) := by
  unfold cmdSysCounters
  repeat' first
    | with_reducible assumption
    | intro _
    | with_reducible apply State.startLen_keeps
    | with_reducible apply State.clearAll_keeps
    | with_reducible apply State.ok_keeps
    | with_reducible apply keeps_when

theorem State.hpiClr_keeps {a : State} {v0 v1} (h0 : Keeps a v0) : Keeps a (State.hpiClr v0 v1) := by
  unfold State.hpiClr
  repeat' first
    | with_reducible assumption
    | intro _
    | with_reducible apply State.clearAll_keeps
    | with_reducible apply keeps_when

theorem execHpiClr_keeps {a : State} {v0 v1} (h1 : Keeps a v1) : KeepsOut a (execHpiClr v0 v1) := by
  unfold execHpiClr
  repeat' first
    | with_reducible assumption
    | intro _
    | with_reducible apply keepsOut_next
    | with_reducible apply keepsOut_ite
    | with_reducible apply State.hpiClr_keeps

theorem execSysPing_keeps {a : State} {v0 v1 v2} (h2 : Keeps a v2) : KeepsOut a (execSysPing v0 v1 v2) := by
  unfold execSysPing
  repeat' first
    | with_reducible assumption
    | intro _
    | with_reducible apply keepsOut_next
    | with_reducible apply keepsOut_ite
    | with_reducible apply cmdSysPing_keeps

theorem execSysIdent_keeps {a : State} {v0 v1 v2} (h2 : Keeps a v2) : KeepsOut a (execSysIdent v0 v1 v2) := by
  unfold execSysIdent
  repeat' first
    | with_reducible assumption
    | intro _
    | with_reducible apply keepsOut_next
    | with_reducible apply keepsOut_ite
    | with_reducible apply cmdSysIdent_keeps

theorem execSysStatus_keeps {a : State} {v0 v1 v2} (h2 : Keeps a v2) : KeepsOut a (execSysStatus v0 v1 v2) := by
  unfold execSysStatus
  repeat' first
    | with_reducible assumption
    | intro _
    | with_reducible apply keepsOut_next
    | with_reducible apply keepsOut_ite
    | with_reducible apply cmdSysStatus_keeps

theorem execSysSessionOpen_keeps {a : State} {v0 v1 v2} (h2 : Keeps a v2) : KeepsOut a (execSysSessionOpen v0 v1 v2) := by
  unfold execSysSessionOpen
  repeat' first
    | with_reducible assumption
    | intro _
    | with_reducible apply keepsOut_next
    | with_reducible apply keepsOut_ite
    | with_reducible apply cmdSysSessionOpen_keeps

theorem execSysSessionClose_keeps {a : State} {v0 v1 v2} (h2 : Keeps a v2) : KeepsOut a (execSysSessionClose v0 v1 v2) := by
  unfold execSysSessionClose
  repeat' first
    | with_reducible assumption
    | intro _
    | with_reducible apply keepsOut_next
    | with_reducible apply keepsOut_ite
    | with_reducible apply cmdSysSessionClose_keeps

theorem execSysRestart_keeps {a : State} {v0 v1 v2} (h2 : Keeps a v2) : KeepsOut a (execSysRestart v0 v1 v2) := by
  unfold execSysRestart
  repeat' first
    | with_reducible assumption
    | intro _
    | with_reducible apply keepsOut_next
    | with_reducible apply keepsOut_ite
    | with_reducible apply cmdSysRestart_keeps

theorem execSysLockSet_keeps {a : State} {v0 v1 v2} (h2 : Keeps a v2) : KeepsOut a (execSysLockSet v0 v1 v2) := by
  unfold execSysLockSet
  repeat' first
    | with_reducible assumption
    | intro _
    | with_reducible apply keepsOut_next
    | with_reducible apply keepsOut_ite
    | with_reducible apply cmdSysLockSet_keeps

theorem execSysLockClear_keeps {a : State} {v0 v1 v2} (h2 : Keeps a v2) : KeepsOut a (execSysLockClear v0 v1 v2) := by
  unfold execSysLockClear
  repeat' first
    | with_reducible assumption
    | intro _
    | with_reducible apply keepsOut_next
    | with_reducible apply keepsOut_ite
    | with_reducible apply cmdSysLockClear_keeps

theorem execSysKeySet_keeps {a : State} {v0 v1 v2} (h2 : Keeps a v2) : KeepsOut a (execSysKeySet v0 v1 v2) := by
  unfold execSysKeySet
  repeat' first
    | with_reducible assumption
    | intro _
    | with_reducible apply keepsOut_next
    | with_reducible apply keepsOut_ite
    | with_reducible apply cmdSysKeySet_keeps

theorem execSysCounters_keeps {a : State} {v0 v1 v2} (h2 : Keeps a v2) : KeepsOut a (execSysCounters v0 v1 v2) := by
  unfold execSysCounters
  repeat' first
    | with_reducible assumption
    | intro _
    | with_reducible apply keepsOut_next
    | with_reducible apply keepsOut_ite
    | with_reducible apply cmdSysCounters_keeps

end Sys2Proof.Machine
end

