-- ==== Sys2Proof/Laws/KeepsEth.lean ====
section
/-! SUPPORT. What no command does (Laws.Keeps), said of every function of Machine.Eth. -/

namespace Sys2Proof.Machine

theorem State.udpWhole_keeps {a : State} {v0 v1 v2} (h0 : Keeps a v0) : Keeps a (State.udpWhole v0 v1 v2) := by
  unfold State.udpWhole
  repeat' first
    | with_reducible assumption
    | intro _
    | with_reducible apply State.udpPayload_keeps
    | with_reducible apply keeps_ite

theorem State.dropWhole_keeps {a : State} {v0 v1 v2 v3} (h0 : Keeps a v0) : Keeps a (State.dropWhole v0 v1 v2 v3) := by
  unfold State.dropWhole
  repeat' first
    | with_reducible assumption
    | exact Nat.le_refl _
    | exact slots_same rfl
    | exact id
    | intro _
    | with_reducible apply keeps_ite
    | dsimp only
    | split
    | with_reducible refine keeps_mk ?_ ?_ ?_ ?_ ?_

theorem State.addPart_keeps {a : State} {v0 v1 v2 v3 v4} (h0 : Keeps a v0) : Keeps a (State.addPart v0 v1 v2 v3 v4) := by
  unfold State.addPart
  repeat' first
    | with_reducible assumption
    | exact Nat.le_refl _
    | exact slots_same rfl
    | exact id
    | intro _
    | with_reducible apply State.udpWhole_keeps
    | with_reducible apply keeps_ite
    | dsimp only
    | split
    | with_reducible refine keeps_mk ?_ ?_ ?_ ?_ ?_

theorem execIpFragment_keeps {a : State} {v0 v1 v2 v3 v4 v5 v6} (h6 : Keeps a v6) : KeepsOut a (execIpFragment v0 v1 v2 v3 v4 v5 v6) := by
  unfold execIpFragment
  repeat' first
    | with_reducible assumption
    | intro _
    | with_reducible apply keepsOut_next
    | with_reducible apply keepsOut_ite
    | with_reducible apply State.at_keeps
    | with_reducible apply State.ethDiscard_keeps
    | with_reducible apply State.rxFrame_keeps
    | with_reducible apply State.dropWhole_keeps
    | with_reducible apply State.addPart_keeps
    | with_reducible apply keeps_ite
    | dsimp only
    | split

theorem execFragmentTimeout_keeps {a : State} {v0 v1 v2 v3} (h3 : Keeps a v3) : KeepsOut a (execFragmentTimeout v0 v1 v2 v3) := by
  unfold execFragmentTimeout
  repeat' first
    | with_reducible assumption
    | intro _
    | with_reducible apply keepsOut_next
    | with_reducible apply keepsOut_ite
    | with_reducible apply State.at_keeps
    | with_reducible apply State.ev_keeps
    | with_reducible apply State.inc_keeps
    | with_reducible apply State.dropWhole_keeps
    | with_reducible apply keeps_ite
    | dsimp only
    | split

theorem State.setEthPort_keeps {a : State} {v0 v1 v2} (h0 : Keeps a v0) : Keeps a (State.setEthPort v0 v1 v2) := by
  unfold State.setEthPort
  repeat' first
    | with_reducible assumption
    | exact Nat.le_refl _
    | exact slots_same rfl
    | exact id
    | intro _
    | with_reducible apply keeps_ite
    | split
    | with_reducible refine keeps_mk ?_ ?_ ?_ ?_ ?_

theorem State.ethChange_keeps {a : State} {v0 v1 v2} (h0 : Keeps a v0) : Keeps a (State.ethChange v0 v1 v2) := by
  unfold State.ethChange
  repeat' first
    | with_reducible assumption
    | intro _
    | with_reducible apply State.setEthPort_keeps
    | with_reducible apply State.ev_keeps
    | with_reducible apply keeps_when

theorem execEthLinkChange_keeps {a : State} {v0 v1 v2 v3 v4} (h4 : Keeps a v4) : KeepsOut a (execEthLinkChange v0 v1 v2 v3 v4) := by
  unfold execEthLinkChange
  repeat' first
    | with_reducible assumption
    | intro _
    | with_reducible apply keepsOut_next
    | with_reducible apply keepsOut_ite
    | with_reducible apply State.ethChange_keeps
    | with_reducible apply keeps_ite

theorem State.ethAnswer_keeps {a : State} {v0 v1 v2 v3} (h0 : Keeps a v0) : Keeps a (State.ethAnswer v0 v1 v2 v3) := by
  unfold State.ethAnswer
  repeat' first
    | with_reducible assumption
    | exact Nat.le_refl _
    | exact slots_same rfl
    | exact id
    | intro _
    | with_reducible apply State.txFrames_keeps
    | with_reducible apply State.rxFrame_keeps
    | dsimp only
    | with_reducible refine keeps_mk ?_ ?_ ?_ ?_ ?_

theorem execArpRequest_keeps {a : State} {v0 v1 v2} (h2 : Keeps a v2) : KeepsOut a (execArpRequest v0 v1 v2) := by
  unfold execArpRequest
  repeat' first
    | with_reducible assumption
    | intro _
    | with_reducible apply keepsOut_next
    | with_reducible apply keepsOut_ite
    | with_reducible apply State.inc_keeps
    | with_reducible apply State.ethAnswer_keeps
    | with_reducible apply State.ethDiscard_keeps
    | with_reducible apply keeps_ite

theorem execIcmpEcho_keeps {a : State} {v0 v1 v2 v3} (h3 : Keeps a v3) : KeepsOut a (execIcmpEcho v0 v1 v2 v3) := by
  unfold execIcmpEcho
  repeat' first
    | with_reducible assumption
    | intro _
    | with_reducible apply keepsOut_next
    | with_reducible apply keepsOut_ite
    | with_reducible apply State.ethAnswer_keeps
    | with_reducible apply State.ethDiscard_keeps
    | with_reducible apply keeps_ite

theorem execEthFrameDropped_keeps {a : State} {v0 v1} (h1 : Keeps a v1) : KeepsOut a (execEthFrameDropped v0 v1) := by
  unfold execEthFrameDropped
  repeat' first
    | with_reducible assumption
    | intro _
    | with_reducible apply keepsOut_next
    | with_reducible apply keepsOut_ite
    | with_reducible apply State.ev_keeps
    | with_reducible apply State.inc_keeps
    | with_reducible apply keeps_ite

theorem execEthFrameDiscarded_keeps {a : State} {v0 v1 v2} (h2 : Keeps a v2) : KeepsOut a (execEthFrameDiscarded v0 v1 v2) := by
  unfold execEthFrameDiscarded
  repeat' first
    | with_reducible assumption
    | intro _
    | with_reducible apply keepsOut_next
    | with_reducible apply keepsOut_ite
    | with_reducible apply State.inc_keeps
    | with_reducible apply State.ethDiscard_keeps
    | with_reducible apply keeps_ite

theorem State.ethClr_keeps {a : State} {v0 v1 v2} (h0 : Keeps a v0) : Keeps a (State.ethClr v0 v1 v2) := by
  unfold State.ethClr
  repeat' first
    | with_reducible assumption
    | intro _
    | with_reducible apply State.clearAll_keeps
    | with_reducible apply keeps_when

theorem execEthnClr_keeps {a : State} {v0 v1 v2} (h2 : Keeps a v2) : KeepsOut a (execEthnClr v0 v1 v2) := by
  unfold execEthnClr
  repeat' first
    | with_reducible assumption
    | intro _
    | with_reducible apply keepsOut_next
    | with_reducible apply keepsOut_ite
    | with_reducible apply State.ethClr_keeps
    | with_reducible apply keeps_ite

theorem State.servo_keeps {a : State} {v0 v1} (h0 : Keeps a v0) : Keeps a (State.servo v0 v1) := by
  unfold State.servo
  repeat' first
    | with_reducible assumption
    | exact Nat.le_refl _
    | exact slots_same rfl
    | exact id
    | intro _
    | with_reducible apply State.ev_keeps
    | with_reducible apply keeps_ite
    | split
    | with_reducible refine keeps_mk ?_ ?_ ?_ ?_ ?_

theorem State.ptpStep_keeps {a : State} {v0 v1} (h0 : Keeps a v0) : Keeps a (State.ptpStep v0 v1) := by
  unfold State.ptpStep
  repeat' first
    | with_reducible assumption
    | exact Nat.le_refl _
    | exact slots_same rfl
    | exact id
    | intro _
    | with_reducible apply State.stepTime_keeps
    | with_reducible apply State.event_keeps
    | dsimp only
    | with_reducible refine keeps_mk ?_ ?_ ?_ ?_ ?_

theorem execPtpMessage_keeps {a : State} {v0 v1 v2} (h2 : Keeps a v2) : KeepsOut a (execPtpMessage v0 v1 v2) := by
  unfold execPtpMessage
  repeat' first
    | with_reducible assumption
    | exact Nat.le_refl _
    | exact slots_same rfl
    | exact id
    | intro _
    | with_reducible apply keepsOut_next
    | with_reducible apply keepsOut_ite
    | with_reducible apply State.at_keeps
    | with_reducible apply State.rxFrame_keeps
    | with_reducible apply State.servo_keeps
    | with_reducible apply State.ptpStep_keeps
    | with_reducible apply keeps_ite
    | dsimp only
    | split
    | with_reducible refine keeps_mk ?_ ?_ ?_ ?_ ?_

theorem cmdEthStatus_keeps {a : State} {v0 v1 v2} (h2 : Keeps a v2) : Keeps a (cmdEthStatus v0 v1 v2) := by
  unfold cmdEthStatus
  repeat' first
    | with_reducible assumption
    | intro _
    | with_reducible apply State.startLen_keeps
    | with_reducible apply State.fail_keeps
    | with_reducible apply State.ok_keeps
    | with_reducible apply keeps_ite

theorem cmdEthConfig_keeps {a : State} {v0 v1 v2} (h2 : Keeps a v2) : Keeps a (cmdEthConfig v0 v1 v2) := by
  unfold cmdEthConfig
  repeat' first
    | with_reducible assumption
    | intro _
    | with_reducible apply State.startLen_keeps
    | with_reducible apply State.fail_keeps
    | with_reducible apply State.ok_keeps
    | with_reducible apply State.setEthPort_keeps
    | with_reducible apply keeps_ite

theorem State.ethTick_keeps {a : State} {v0} (h0 : Keeps a v0) : Keeps a (State.ethTick v0) := by
  unfold State.ethTick
  repeat' first
    | with_reducible assumption
    | intro _
    | with_reducible apply State.ethChange_keeps
    | with_reducible apply keeps_foldl
    | split

theorem cmdPtpConfig_keeps {a : State} {v0 v1 v2} (h2 : Keeps a v2) : Keeps a (cmdPtpConfig v0 v1 v2) := by
  unfold cmdPtpConfig
  repeat' first
    | with_reducible assumption
    | exact Nat.le_refl _
    | exact slots_same rfl
    | exact id
    | intro _
    | with_reducible apply State.startLen_keeps
    | with_reducible apply State.fail_keeps
    | with_reducible apply State.servo_keeps
    | with_reducible apply State.ok_keeps
    | with_reducible apply keeps_ite
    | dsimp only
    | split
    | with_reducible refine keeps_mk ?_ ?_ ?_ ?_ ?_

theorem cmdPtpStatus_keeps {a : State} {v0 v1 v2} (h2 : Keeps a v2) : Keeps a (cmdPtpStatus v0 v1 v2) := by
  unfold cmdPtpStatus
  repeat' first
    | with_reducible assumption
    | intro _
    | with_reducible apply State.startLen_keeps
    | with_reducible apply State.ok_keeps

theorem cmdEthCounters_keeps {a : State} {v0 v1 v2} (h2 : Keeps a v2) : Keeps a (cmdEthCounters v0 v1 v2) := by
  unfold cmdEthCounters
  repeat' first
    | with_reducible assumption
    | intro _
    | with_reducible apply State.startLen_keeps
    | with_reducible apply State.fail_keeps
    | with_reducible apply State.ok_keeps
    | with_reducible apply State.clearAll_keeps
    | with_reducible apply keeps_ite
    | with_reducible apply keeps_when

theorem execEthStatus_keeps {a : State} {v0 v1 v2} (h2 : Keeps a v2) : KeepsOut a (execEthStatus v0 v1 v2) := by
  unfold execEthStatus
  repeat' first
    | with_reducible assumption
    | intro _
    | with_reducible apply keepsOut_next
    | with_reducible apply keepsOut_ite
    | with_reducible apply cmdEthStatus_keeps

theorem execEthConfig_keeps {a : State} {v0 v1 v2} (h2 : Keeps a v2) : KeepsOut a (execEthConfig v0 v1 v2) := by
  unfold execEthConfig
  repeat' first
    | with_reducible assumption
    | intro _
    | with_reducible apply keepsOut_next
    | with_reducible apply keepsOut_ite
    | with_reducible apply cmdEthConfig_keeps

theorem execPtpConfig_keeps {a : State} {v0 v1 v2} (h2 : Keeps a v2) : KeepsOut a (execPtpConfig v0 v1 v2) := by
  unfold execPtpConfig
  repeat' first
    | with_reducible assumption
    | intro _
    | with_reducible apply keepsOut_next
    | with_reducible apply keepsOut_ite
    | with_reducible apply cmdPtpConfig_keeps

theorem execPtpStatus_keeps {a : State} {v0 v1 v2} (h2 : Keeps a v2) : KeepsOut a (execPtpStatus v0 v1 v2) := by
  unfold execPtpStatus
  repeat' first
    | with_reducible assumption
    | intro _
    | with_reducible apply keepsOut_next
    | with_reducible apply keepsOut_ite
    | with_reducible apply cmdPtpStatus_keeps

theorem execEthCounters_keeps {a : State} {v0 v1 v2} (h2 : Keeps a v2) : KeepsOut a (execEthCounters v0 v1 v2) := by
  unfold execEthCounters
  repeat' first
    | with_reducible assumption
    | intro _
    | with_reducible apply keepsOut_next
    | with_reducible apply keepsOut_ite
    | with_reducible apply cmdEthCounters_keeps

end Sys2Proof.Machine
end

