-- ==== Sys2Proof/Laws/KeepsShaft.lean ====
section
/-! SUPPORT. What no command does (Laws.Keeps), said of every function of Machine.Shaft. -/

namespace Sys2Proof.Machine

theorem State.setShaft_keeps {a : State} {v0 v1 v2} (h0 : Keeps a v0) : Keeps a (State.setShaft v0 v1 v2) := by
  unfold State.setShaft
  repeat' first
    | with_reducible assumption
    | exact Nat.le_refl _
    | exact slots_same rfl
    | exact id
    | intro _
    | with_reducible refine keeps_mk ?_ ?_ ?_ ?_ ?_

theorem State.setStamp_keeps {a : State} {v0 v1 v2} (h0 : Keeps a v0) : Keeps a (State.setStamp v0 v1 v2) := by
  unfold State.setStamp
  repeat' first
    | with_reducible assumption
    | intro _
    | with_reducible apply State.wr_keeps

theorem State.boundary_keeps {a : State} {v0 v1 v2 v3} (h0 : Keeps a v0) : Keeps a (State.boundary v0 v1 v2 v3) := by
  unfold State.boundary
  repeat' first
    | with_reducible assumption
    | intro _
    | with_reducible apply State.wr_keeps
    | with_reducible apply State.setStamp_keeps
    | with_reducible apply State.setBit_keeps
    | with_reducible apply State.setShaft_keeps
    | with_reducible apply keeps_ite

theorem State.shaftPulse_keeps {a : State} {v0 v1 v2} (h0 : Keeps a v0) : Keeps a (State.shaftPulse v0 v1 v2) := by
  unfold State.shaftPulse
  repeat' first
    | with_reducible assumption
    | intro _
    | with_reducible apply State.ev_keeps
    | with_reducible apply State.incFld_keeps
    | with_reducible apply State.setBit_keeps
    | with_reducible apply State.boundary_keeps
    | with_reducible apply State.setShaft_keeps
    | with_reducible apply keeps_ite
    | with_reducible apply keeps_when

theorem execShaftStall_keeps {a : State} {v0 v1 v2} (h2 : Keeps a v2) : KeepsOut a (execShaftStall v0 v1 v2) := by
  unfold execShaftStall
  repeat' first
    | with_reducible assumption
    | intro _
    | with_reducible apply keepsOut_next
    | with_reducible apply keepsOut_ite
    | with_reducible apply State.at_keeps
    | with_reducible apply State.setBit_keeps
    | with_reducible apply State.wr_keeps
    | with_reducible apply State.ev_keeps
    | with_reducible apply keeps_ite

theorem State.shaftReset_keeps {a : State} {v0 v1} (h0 : Keeps a v0) : Keeps a (State.shaftReset v0 v1) := by
  unfold State.shaftReset
  repeat' first
    | with_reducible assumption
    | intro _
    | with_reducible apply State.wr_keeps
    | with_reducible apply State.setShaft_keeps
    | with_reducible apply State.setStamp_keeps

end Sys2Proof.Machine
end

