-- ==== Sys2Proof/Laws/KeepsMiu.lean ====
section
/-! SUPPORT. What no command does (Laws.Keeps), said of every function of Machine.Miu. -/

namespace Sys2Proof.Machine

theorem State.setRaw_keeps {a : State} {v0 v1 v2} (h0 : Keeps a v0) : Keeps a (State.setRaw v0 v1 v2) := by
  unfold State.setRaw
  repeat' first
    | with_reducible assumption
    | exact Nat.le_refl _
    | exact slots_same rfl
    | exact id
    | exact swf_memPut _ _
    | exact swf_imgPut _
    | exact swf_sput _ _
    | exact swfBy_sput _ _
    | exact swf_skeep _
    | exact swfBy_skeep _
    | exact fun _ => swf_nil _
    | exact fun _ => swfBy_nil _
    | exact swf_fold_memPut _ _
    | intro _
    | with_reducible apply State.wr_keeps
    | split
    | with_reducible refine keeps_all ?_ ?_ ?_ ?_ ?_ ?_ ?_ ?_ ?_ ?_ ?_

theorem State.miuErr_keeps {a : State} {v0 v1 v2 v3 v4 v5 v6} (h0 : Keeps a v0) : Keeps a (State.miuErr v0 v1 v2 v3 v4 v5 v6) := by
  unfold State.miuErr
  repeat' first
    | with_reducible assumption
    | intro _
    | with_reducible apply State.wr_keeps

theorem State.unrebuildable_keeps {a : State} {v0 v1 v2 v3 v4 v5 v6} (h0 : Keeps a v0) : Keeps a (State.unrebuildable v0 v1 v2 v3 v4 v5 v6) := by
  unfold State.unrebuildable
  repeat' first
    | with_reducible assumption
    | intro _
    | with_reducible apply State.miuErr_keeps
    | with_reducible apply State.wr_keeps
    | with_reducible apply State.ev_keeps
    | with_reducible apply State.inc_keeps
    | with_reducible apply keeps_when

theorem State.unrebRead_keeps {a : State} {v0 v1 v2} (h0 : Keeps a v0) : Keeps a (State.unrebRead v0 v1 v2) := by
  unfold State.unrebRead
  repeat' first
    | with_reducible assumption
    | intro _
    | with_reducible apply State.unrebuildable_keeps

theorem State.countRebuild_keeps {a : State} {v0 v1 v2} (h0 : Keeps a v0) : Keeps a (State.countRebuild v0 v1 v2) := by
  unfold State.countRebuild
  repeat' first
    | with_reducible assumption
    | exact Nat.le_refl _
    | exact slots_same rfl
    | exact id
    | intro _
    | with_reducible apply State.ev_keeps
    | with_reducible apply State.wr_keeps
    | with_reducible apply State.inc_keeps
    | dsimp only
    | with_reducible refine keeps_mk ?_ ?_ ?_ ?_ ?_

theorem State.readMem_keeps {a : State} {v0 v1} (h0 : Keeps a v0) : Keeps a (State.readMem v0 v1).2 := by
  unfold State.readMem
  repeat' first
    | with_reducible assumption
    | intro _
    | dsimp only
    | with_reducible apply State.countRebuild_keeps
    | with_reducible apply keeps_ite
    | with_reducible apply keeps_ite_snd
    | refine keeps_of_pair (by assumption) ?_
    | refine keeps_of_triple (by assumption) ?_
    | split

theorem State.readWord_keeps {a : State} {v0 v1 v2} (h0 : Keeps a v0) : Keeps a (State.readWord v0 v1 v2).2 := by
  unfold State.readWord
  repeat' first
    | with_reducible assumption
    | intro _
    | dsimp only
    | with_reducible apply State.readMem_keeps
    | with_reducible apply State.unrebRead_keeps
    | refine keeps_of_pair (by assumption) ?_
    | refine keeps_of_triple (by assumption) ?_
    | split

theorem State.readWords_keeps {a v0 : State} {v1 v2 v3} (h : Keeps a v0) : Keeps a (v0.readWords v1 v2 v3).2 := by
  induction v3 generalizing v0 v2 with
  | zero => exact h
  | succ n ih =>
    unfold State.readWords
    repeat' first
      | assumption
      | with_reducible apply ih
      | with_reducible apply State.readWord_keeps
      | dsimp only
      | refine keeps_of_pair (by assumption) ?_
      | split

theorem State.readBytes_keeps {a : State} {v0 v1 v2 v3} (h0 : Keeps a v0) : Keeps a (State.readBytes v0 v1 v2 v3).2 := by
  unfold State.readBytes
  repeat' first
    | with_reducible assumption
    | intro _
    | dsimp only
    | with_reducible apply State.readWords_keeps
    | with_reducible apply keeps_ite
    | with_reducible apply keeps_ite_snd
    | refine keeps_of_pair (by assumption) ?_
    | refine keeps_of_triple (by assumption) ?_
    | split

theorem State.forgetWord_keeps {a : State} {v0 v1} (h0 : Keeps a v0) : Keeps a (State.forgetWord v0 v1) := by
  unfold State.forgetWord
  repeat' first
    | with_reducible assumption
    | exact Nat.le_refl _
    | exact slots_same rfl
    | exact id
    | intro _
    | with_reducible refine keeps_mk ?_ ?_ ?_ ?_ ?_

theorem State.discard_keeps {a : State} {v0 v1 v2 v3 v4} (h0 : Keeps a v0) : Keeps a (State.discard v0 v1 v2 v3 v4) := by
  unfold State.discard
  repeat' first
    | with_reducible assumption
    | intro _
    | with_reducible apply State.ev_keeps
    | with_reducible apply State.miuErr_keeps
    | with_reducible apply State.inc_keeps

theorem State.writeWord_keeps {a : State} {v0 v1 v2 v3 v4 v5} (h0 : Keeps a v0) : Keeps a (State.writeWord v0 v1 v2 v3 v4 v5) := by
  unfold State.writeWord
  repeat' first
    | with_reducible assumption
    | exact Nat.le_refl _
    | exact slots_same rfl
    | exact id
    | intro _
    | with_reducible apply State.setRaw_keeps
    | with_reducible apply State.forgetWord_keeps
    | with_reducible apply State.discard_keeps
    | with_reducible apply State.countRebuild_keeps
    | with_reducible apply keeps_ite
    | with_reducible apply keeps_when
    | dsimp only
    | split
    | with_reducible refine keeps_mk ?_ ?_ ?_ ?_ ?_

theorem State.flushEntry_keeps {a : State} {v0 v1} (h0 : Keeps a v0) : Keeps a (State.flushEntry v0 v1) := by
  unfold State.flushEntry
  repeat' first
    | with_reducible assumption
    | exact Nat.le_refl _
    | exact slots_same rfl
    | exact id
    | intro _
    | dsimp only
    | with_reducible apply State.discard_keeps
    | with_reducible apply State.readMem_keeps
    | with_reducible apply State.writeWord_keeps
    | with_reducible apply keeps_ite
    | with_reducible apply keeps_ite_snd
    | refine keeps_of_pair (by assumption) ?_
    | refine keeps_of_triple (by assumption) ?_
    | split
    | with_reducible refine keeps_mk ?_ ?_ ?_ ?_ ?_

theorem State.fence_keeps {a : State} {v0} (h0 : Keeps a v0) : Keeps a (State.fence v0) := by
  unfold State.fence
  repeat' first
    | with_reducible assumption
    | intro _
    | with_reducible apply State.flushEntry_keeps
    | with_reducible apply keeps_foldl

theorem State.writePart_keeps {a : State} {v0 v1 v2 v3} (h0 : Keeps a v0) : Keeps a (State.writePart v0 v1 v2 v3) := by
  unfold State.writePart
  repeat' first
    | with_reducible assumption
    | exact Nat.le_refl _
    | exact slots_same rfl
    | exact id
    | intro _
    | with_reducible apply State.writeWord_keeps
    | with_reducible apply State.setRaw_keeps
    | with_reducible apply State.forgetWord_keeps
    | with_reducible apply State.flushEntry_keeps
    | with_reducible apply keeps_ite
    | dsimp only
    | split
    | with_reducible refine keeps_mk ?_ ?_ ?_ ?_ ?_

theorem State.writeBytes_keeps {a : State} {v0 v1 v2 v3} (h0 : Keeps a v0) : Keeps a (State.writeBytes v0 v1 v2 v3) := by
  unfold State.writeBytes
  repeat' first
    | with_reducible assumption
    | exact Nat.le_refl _
    | exact slots_same rfl
    | exact id
    | exact swf_memPut _ _
    | exact swf_imgPut _
    | exact swf_sput _ _
    | exact swfBy_sput _ _
    | exact swf_skeep _
    | exact swfBy_skeep _
    | exact fun _ => swf_nil _
    | exact fun _ => swfBy_nil _
    | exact swf_fold_memPut _ _
    | intro _
    | with_reducible apply State.writePart_keeps
    | with_reducible apply keeps_ite
    | with_reducible apply keeps_foldl
    | dsimp only
    | split
    | with_reducible refine keeps_all ?_ ?_ ?_ ?_ ?_ ?_ ?_ ?_ ?_ ?_ ?_

theorem State.dmRead_keeps {a : State} {v0 v1 v2 v3} (h0 : Keeps a v0) : Keeps a (State.dmRead v0 v1 v2 v3).2 := by
  unfold State.dmRead
  repeat' first
    | with_reducible assumption
    | intro _
    | dsimp only
    | with_reducible apply State.readBytes_keeps

theorem State.dmWrite_keeps {a : State} {v0 v1 v2 v3} (h0 : Keeps a v0) : Keeps a (State.dmWrite v0 v1 v2 v3) := by
  unfold State.dmWrite
  repeat' first
    | with_reducible assumption
    | intro _
    | with_reducible apply State.writeBytes_keeps

theorem execSpliceFlush_keeps {a : State} {v0 v1} (h1 : Keeps a v1) : KeepsOut a (execSpliceFlush v0 v1) := by
  unfold execSpliceFlush
  repeat' first
    | with_reducible assumption
    | intro _
    | with_reducible apply keepsOut_next
    | with_reducible apply keepsOut_ite
    | with_reducible apply State.flushEntry_keeps
    | split

end Sys2Proof.Machine
end

