-- ==== Sys2Proof/Laws/KeepsRsm.lean ====
section
/-! SUPPORT. What no command does (Laws.Keeps), said of every function of Machine.Rsm. -/

namespace Sys2Proof.Machine

theorem swf_wrapPut {m : Sparse Byte} (page off : Nat) (bs : Bytes) (h : swf 0 m = true) :
    swf 0 (wrapPut m page off bs) = true := by
  unfold wrapPut
  induction List.range bs.length generalizing m with
  | nil => exact h
  | cons i l ih => exact ih (swf_sput _ _ h)

theorem State.mramRaw_keeps {a v0 : State} {v1 v2 v3} (h : Keeps a v0) : Keeps a (v0.mramRaw v1 v2 v3) := by
  unfold State.mramRaw
  exact keeps_all h (Nat.le_refl _) (Nat.le_refl _) (slots_same rfl) id id id id (swf_wrapPut _ _ _) id id

theorem State.mramUnreadable_keeps {a : State} {v0 v1 v2} (h0 : Keeps a v0) : Keeps a (State.mramUnreadable v0 v1 v2) := by
  unfold State.mramUnreadable
  repeat' first
    | with_reducible assumption
    | intro _
    | with_reducible apply State.ev_keeps
    | with_reducible apply State.wr_keeps

theorem State.rsmDrop_keeps {a : State} {v0} (h0 : Keeps a v0) : Keeps a (State.rsmDrop v0) := by
  unfold State.rsmDrop
  repeat' first
    | with_reducible assumption
    | intro _
    | with_reducible apply State.inc_keeps

theorem State.journal_keeps {a : State} {v0 v1 v2 v3} (h0 : Keeps a v0) : Keeps a (State.journal v0 v1 v2 v3) := by
  unfold State.journal
  repeat' first
    | with_reducible assumption
    | intro _
    | with_reducible apply State.mramRaw_keeps

theorem State.energyWrite_keeps {a : State} {v0 v1 v2 v3} (h0 : Keeps a v0) : Keeps a (State.energyWrite v0 v1 v2 v3) := by
  unfold State.energyWrite
  repeat' first
    | with_reducible assumption
    | intro _
    | with_reducible apply State.journal_keeps
    | with_reducible apply State.ev_keeps
    | with_reducible apply State.inc_keeps
    | with_reducible apply State.setBit_keeps
    | with_reducible apply keeps_ite

theorem State.sysWrite_keeps {a : State} {v0 v1 v2} (h0 : Keeps a v0) : Keeps a (State.sysWrite v0 v1 v2) := by
  unfold State.sysWrite
  repeat' first
    | with_reducible assumption
    | intro _
    | with_reducible apply State.rsmDrop_keeps
    | with_reducible apply State.energyWrite_keeps
    | with_reducible apply keeps_ite

theorem State.setEpoch_keeps {a : State} {v0 v1} (h0 : Keeps a v0) : Keeps a (State.setEpoch v0 v1) := by
  unfold State.setEpoch
  repeat' first
    | with_reducible assumption
    | intro _
    | with_reducible apply State.sysWrite_keeps

theorem State.recordReport_keeps {a : State} {v0 v1 v2} (h0 : Keeps a v0) : Keeps a (State.recordReport v0 v1 v2) := by
  unfold State.recordReport
  repeat' first
    | with_reducible assumption
    | intro _
    | with_reducible apply State.mramUnreadable_keeps
    | with_reducible apply State.ev_keeps
    | with_reducible apply State.inc_keeps
    | with_reducible apply State.setBit_keeps
    | with_reducible apply keeps_foldl
    | dsimp only
    | split

theorem State.recordWrite_keeps {a : State} {v0 v1 v2 v3 v4} (h0 : Keeps a v0) : Keeps a (State.recordWrite v0 v1 v2 v3 v4) := by
  unfold State.recordWrite
  repeat' first
    | with_reducible assumption
    | intro _
    | with_reducible apply State.mramRaw_keeps
    | with_reducible apply keeps_ite
    | dsimp only
    | split

theorem State.mramBurst_keeps {a : State} {v0 v1 v2 v3} (h0 : Keeps a v0) : Keeps a (State.mramBurst v0 v1 v2 v3) := by
  unfold State.mramBurst
  repeat' first
    | with_reducible assumption
    | intro _
    | with_reducible apply State.rsmDrop_keeps
    | with_reducible apply State.mramRaw_keeps
    | with_reducible apply State.energyWrite_keeps
    | with_reducible apply State.recordWrite_keeps
    | with_reducible apply keeps_ite
    | split

theorem State.mramWrite_keeps {a : State} {v0 v1 v2} (h0 : Keeps a v0) : Keeps a (State.mramWrite v0 v1 v2) := by
  unfold State.mramWrite
  repeat' first
    | with_reducible assumption
    | intro _
    | with_reducible apply State.mramBurst_keeps
    | with_reducible apply keeps_ite
    | with_reducible apply keeps_foldl

theorem State.freeBytes_keeps {a v0 : State} {v1} (h : Keeps a v0) : Keeps a (v0.freeBytes v1).2 := by
  induction v1 generalizing v0 with
  | zero => exact h
  | succ n ih => exact ih (State.free_keeps h)

theorem State.mramRead_keeps {a : State} {v0 v1 v2} (h0 : Keeps a v0) : Keeps a (State.mramRead v0 v1 v2).2 := by
  unfold State.mramRead
  repeat' first
    | with_reducible assumption
    | intro _
    | dsimp only
    | with_reducible apply State.mramUnreadable_keeps
    | with_reducible apply State.freeBytes_keeps
    | with_reducible apply State.recordReport_keeps
    | with_reducible apply keeps_ite
    | with_reducible apply keeps_ite_snd
    | refine keeps_of_pair (by assumption) ?_
    | refine keeps_of_triple (by assumption) ?_
    | split

theorem State.modeBurst_keeps {a : State} {v0 v1 v2 v3} (h0 : Keeps a v0) : Keeps a (State.modeBurst v0 v1 v2 v3) := by
  unfold State.modeBurst
  repeat' first
    | with_reducible assumption
    | intro _
    | with_reducible apply State.mramBurst_keeps
    | with_reducible apply keeps_ite
    | split

theorem execEnergyBurst_keeps {a : State} {v0 v1 v2} (h2 : Keeps a v2) : KeepsOut a (execEnergyBurst v0 v1 v2) := by
  unfold execEnergyBurst
  repeat' first
    | with_reducible assumption
    | intro _
    | with_reducible apply keepsOut_next
    | with_reducible apply keepsOut_ite
    | with_reducible apply State.modeBurst_keeps

theorem execTwinCopyBurst_keeps {a : State} {v0 v1 v2} (h2 : Keeps a v2) : KeepsOut a (execTwinCopyBurst v0 v1 v2) := by
  unfold execTwinCopyBurst
  repeat' first
    | with_reducible assumption
    | intro _
    | with_reducible apply keepsOut_next
    | with_reducible apply keepsOut_ite
    | with_reducible apply State.modeBurst_keeps

theorem execTwinCopyRead_keeps {a : State} {v0 v1} (h1 : Keeps a v1) : KeepsOut a (execTwinCopyRead v0 v1) := by
  unfold execTwinCopyRead
  repeat' first
    | with_reducible assumption
    | intro _
    | dsimp only
    | with_reducible apply keepsOut_next
    | with_reducible apply keepsOut_ite
    | with_reducible apply State.mramRead_keeps
    | with_reducible apply keeps_ite
    | with_reducible apply keeps_ite_snd
    | refine keeps_of_pair (by assumption) ?_
    | refine keeps_of_triple (by assumption) ?_
    | split

theorem State.retainBytes_keeps {a v0 : State} {v1 v2} (h : Keeps a v0) : Keeps a (v0.retainBytes v1 v2).2 := by
  induction v2 generalizing v0 v1 with
  | zero => exact h
  | succ n ih =>
    unfold State.retainBytes
    have k := State.readWord_keeps (v1 := MemReader.mgcOwn) (v2 := dmBase + v1) h
    generalize v0.readWord MemReader.mgcOwn (dmBase + v1) = p at *
    obtain ⟨w, s⟩ := p
    cases w with
    | none => exact ih (State.ev_keeps (State.setBit_keeps k))
    | some d => exact ih k

theorem State.retainData_keeps {a v0 : State} {v1 v2} (h : Keeps a v0) : Keeps a (v0.retainData v1 v2).2 := by
  unfold State.retainData
  refine keeps_foldl_snd h fun q r hq => ?_
  have k := State.retainBytes_keeps (v1 := r.start) (v2 := r.len / 8) hq
  exact keeps_all k (Nat.le_refl _) (Nat.le_refl _) (slots_same rfl) id id id id (swf_memPut _ _) id id

theorem State.setReport_keeps {a : State} {v0 v1} (h0 : Keeps a v0) : Keeps a (State.setReport v0 v1) := by
  unfold State.setReport
  repeat' first
    | with_reducible assumption
    | intro _
    | with_reducible apply State.mramUnreadable_keeps
    | with_reducible apply keeps_when
    | dsimp only
    | split

theorem State.retainCopy_keeps {a : State} {v0 v1} (h0 : Keeps a v0) : Keeps a (State.retainCopy v0 v1) := by
  unfold State.retainCopy
  repeat' first
    | with_reducible assumption
    | exact Nat.le_refl _
    | exact slots_same rfl
    | exact id
    | intro _
    | dsimp only
    | with_reducible apply State.setReport_keeps
    | with_reducible apply State.mramRaw_keeps
    | with_reducible apply State.retainData_keeps
    | with_reducible apply State.wr_keeps
    | with_reducible apply State.ev_keeps
    | with_reducible apply State.setBit_keeps
    | with_reducible apply keeps_ite
    | with_reducible apply keeps_ite_snd
    | refine keeps_of_pair (by assumption) ?_
    | refine keeps_of_triple (by assumption) ?_
    | split
    | with_reducible refine keeps_mk ?_ ?_ ?_ ?_ ?_

theorem execRetainCopyEnd_keeps {a : State} {v0 v1} (h1 : Keeps a v1) : KeepsOut a (execRetainCopyEnd v0 v1) := by
  unfold execRetainCopyEnd
  repeat' first
    | with_reducible assumption
    | intro _
    | with_reducible apply keepsOut_next
    | with_reducible apply keepsOut_ite
    | with_reducible apply State.retainCopy_keeps
    | with_reducible apply keeps_ite

theorem State.retainBegin_keeps {a : State} {v0} (h0 : Keeps a v0) : Keeps a (State.retainBegin v0) := by
  unfold State.retainBegin
  repeat' first
    | with_reducible assumption
    | exact Nat.le_refl _
    | exact slots_same rfl
    | exact id
    | intro _
    | with_reducible apply keeps_ite
    | split
    | with_reducible refine keeps_mk ?_ ?_ ?_ ?_ ?_

theorem State.replaySlot_keeps {a v0 : State} {v1} (h : Keeps a v0) : Keeps a (v0.replaySlot v1) := by
  have hd : ∀ t : State, Keeps a t → Keeps a { t with mram := sput 0 t.mram (slotOff v1 + 16) 0x3C } := fun t k =>
    keeps_all k (Nat.le_refl _) (Nat.le_refl _) (slots_same rfl) id id id id (swf_sput _ _) id id
  unfold State.replaySlot
  extract_lets o st page off len d ok done
  refine keeps_ite (keeps_ite ?_ ?_) (keeps_ite h (keeps_ite (hd _ h) ?_))
  · exact State.ev_keeps (State.incFld_keeps (hd _ (State.mramRaw_keeps h)))
  · exact State.mramUnreadable_keeps (hd _ h)
  · exact State.ev_keeps (State.incFld_keeps (hd _ h))

theorem State.replay_keeps {a : State} {v0} (h0 : Keeps a v0) : Keeps a (State.replay v0) := by
  unfold State.replay
  repeat' first
    | with_reducible assumption
    | intro _
    | with_reducible apply State.replaySlot_keeps
    | with_reducible apply keeps_foldl

theorem State.classify_keeps {a : State} {v0} (h0 : Keeps a v0) : Keeps a (State.classify v0) := by
  unfold State.classify
  repeat' first
    | with_reducible assumption
    | intro _
    | with_reducible apply State.setReport_keeps
    | with_reducible apply State.ev_keeps
    | with_reducible apply State.setFld_keeps
    | with_reducible apply State.wr_keeps
    | with_reducible apply State.sysWrite_keeps
    | with_reducible apply keeps_ite
    | dsimp only
    | split

theorem State.restore_keeps {a : State} {v0} (h0 : Keeps a v0) : Keeps a (State.restore v0) := by
  unfold State.restore
  repeat' first
    | with_reducible assumption
    | exact Nat.le_refl _
    | exact slots_same rfl
    | exact id
    | intro _
    | with_reducible apply State.dmWrite_keeps
    | with_reducible apply State.start_keeps
    | with_reducible apply keeps_ite
    | with_reducible apply keeps_foldl
    | dsimp only
    | split
    | with_reducible refine keeps_mk ?_ ?_ ?_ ?_ ?_

theorem State.refreshPage_keeps {a : State} {v0 v1} (h0 : Keeps a v0) : Keeps a (State.refreshPage v0 v1) := by
  unfold State.refreshPage
  repeat' first
    | with_reducible assumption
    | exact Nat.le_refl _
    | exact slots_same rfl
    | exact id
    | intro _
    | with_reducible apply State.ev_keeps
    | with_reducible apply State.inc_keeps
    | with_reducible apply State.journal_keeps
    | with_reducible apply keeps_ite
    | split
    | with_reducible refine keeps_mk ?_ ?_ ?_ ?_ ?_

theorem State.marginRead_keeps {a : State} {v0 v1 v2} (h0 : Keeps a v0) : Keeps a (State.marginRead v0 v1 v2) := by
  unfold State.marginRead
  repeat' first
    | with_reducible assumption
    | exact Nat.le_refl _
    | exact slots_same rfl
    | exact id
    | intro _
    | with_reducible apply State.refreshPage_keeps
    | with_reducible apply State.ev_keeps
    | with_reducible apply State.inc_keeps
    | with_reducible apply keeps_ite
    | with_reducible apply keeps_foldl
    | dsimp only
    | split
    | with_reducible refine keeps_mk ?_ ?_ ?_ ?_ ?_

theorem execMarginRead_keeps {a : State} {v0 v1 v2} (h2 : Keeps a v2) : KeepsOut a (execMarginRead v0 v1 v2) := by
  unfold execMarginRead
  repeat' first
    | with_reducible assumption
    | intro _
    | with_reducible apply keepsOut_next
    | with_reducible apply keepsOut_ite
    | with_reducible apply State.marginRead_keeps

theorem State.rsmClr_keeps {a : State} {v0 v1} (h0 : Keeps a v0) : Keeps a (State.rsmClr v0 v1) := by
  unfold State.rsmClr
  repeat' first
    | with_reducible assumption
    | intro _
    | with_reducible apply State.clearAll_keeps
    | with_reducible apply keeps_when

theorem execRsmClr_keeps {a : State} {v0 v1} (h1 : Keeps a v1) : KeepsOut a (execRsmClr v0 v1) := by
  unfold execRsmClr
  repeat' first
    | with_reducible assumption
    | intro _
    | with_reducible apply keepsOut_next
    | with_reducible apply keepsOut_ite
    | with_reducible apply State.rsmClr_keeps

theorem cmdRsmStatus_keeps {a : State} {v0 v1 v2} (h2 : Keeps a v2) : Keeps a (cmdRsmStatus v0 v1 v2) := by
  unfold cmdRsmStatus
  repeat' first
    | with_reducible assumption
    | intro _
    | with_reducible apply State.startLen_keeps
    | with_reducible apply State.ok_keeps
    | with_reducible apply State.rsmClr_keeps

theorem State.rsmFormat_keeps {a : State} {v0 v1} (h0 : Keeps a v0) : Keeps a (State.rsmFormat v0 v1) := by
  unfold State.rsmFormat
  repeat' first
    | with_reducible assumption
    | intro _
    | with_reducible apply State.energyWrite_keeps
    | with_reducible apply State.mramRaw_keeps
    | with_reducible apply keeps_ite
    | with_reducible apply keeps_foldl

theorem cmdRsmFormat_keeps {a : State} {v0 v1 v2} (h2 : Keeps a v2) : Keeps a (cmdRsmFormat v0 v1 v2) := by
  unfold cmdRsmFormat
  repeat' first
    | with_reducible assumption
    | intro _
    | with_reducible apply State.startLen_keeps
    | with_reducible apply State.fail_keeps
    | with_reducible apply State.rsmFormat_keeps
    | with_reducible apply State.accept_keeps
    | with_reducible apply State.noticeAll_keeps
    | with_reducible apply keeps_ite

theorem cmdRsmRetainClear_keeps {a : State} {v0 v1 v2} (h2 : Keeps a v2) : Keeps a (cmdRsmRetainClear v0 v1 v2) := by
  unfold cmdRsmRetainClear
  repeat' first
    | with_reducible assumption
    | intro _
    | with_reducible apply State.startLen_keeps
    | with_reducible apply State.fail_keeps
    | with_reducible apply State.ok_keeps
    | with_reducible apply State.mramRaw_keeps
    | with_reducible apply keeps_ite

theorem execRsmStatus_keeps {a : State} {v0 v1 v2} (h2 : Keeps a v2) : KeepsOut a (execRsmStatus v0 v1 v2) := by
  unfold execRsmStatus
  repeat' first
    | with_reducible assumption
    | intro _
    | with_reducible apply keepsOut_next
    | with_reducible apply keepsOut_ite
    | with_reducible apply cmdRsmStatus_keeps

theorem execRsmFormat_keeps {a : State} {v0 v1 v2} (h2 : Keeps a v2) : KeepsOut a (execRsmFormat v0 v1 v2) := by
  unfold execRsmFormat
  repeat' first
    | with_reducible assumption
    | intro _
    | with_reducible apply keepsOut_next
    | with_reducible apply keepsOut_ite
    | with_reducible apply cmdRsmFormat_keeps

theorem execRsmRetainClear_keeps {a : State} {v0 v1 v2} (h2 : Keeps a v2) : KeepsOut a (execRsmRetainClear v0 v1 v2) := by
  unfold execRsmRetainClear
  repeat' first
    | with_reducible assumption
    | intro _
    | with_reducible apply keepsOut_next
    | with_reducible apply keepsOut_ite
    | with_reducible apply cmdRsmRetainClear_keeps

end Sys2Proof.Machine
end

