-- ==== Sys2Proof/Laws/KeepsQue.lean ====
section
/-! SUPPORT. What no command does (Laws.Keeps), said of every function of Machine.Que. -/

namespace Sys2Proof.Machine

theorem State.raise_keeps {a : State} {v0 v1} (h0 : Keeps a v0) : Keeps a (State.raise v0 v1) := by
  unfold State.raise
  repeat' first
    | with_reducible assumption
    | exact Nat.le_refl _
    | exact slots_same rfl
    | exact id
    | intro _
    | with_reducible refine keeps_mk ?_ ?_ ?_ ?_ ?_

theorem State.qTrig_keeps {a : State} {v0 v1 v2} (h0 : Keeps a v0) : Keeps a (State.qTrig v0 v1 v2) := by
  unfold State.qTrig
  repeat' first
    | with_reducible assumption
    | intro _
    | with_reducible apply State.raise_keeps
    | with_reducible apply keeps_when

theorem State.qWord_keeps {a : State} {v0 v1 v2 v3 v4} (h0 : Keeps a v0) : Keeps a (State.qWord v0 v1 v2 v3 v4) := by
  unfold State.qWord
  repeat' first
    | with_reducible assumption
    | intro _
    | with_reducible apply State.dmWrite_keeps

theorem State.qDrop_keeps {a : State} {v0 v1} (h0 : Keeps a v0) : Keeps a (State.qDrop v0 v1) := by
  unfold State.qDrop
  repeat' first
    | with_reducible assumption
    | intro _
    | with_reducible apply State.setQueue_keeps
    | with_reducible apply State.ev_keeps
    | with_reducible apply keeps_when

theorem State.qCloseRaw_keeps {a : State} {v0 v1 v2} (h0 : Keeps a v0) : Keeps a (State.qCloseRaw v0 v1 v2) := by
  unfold State.qCloseRaw
  repeat' first
    | with_reducible assumption
    | intro _
    | with_reducible apply State.qWord_keeps
    | with_reducible apply State.qTrig_keeps
    | with_reducible apply State.setQueue_keeps
    | dsimp only
    | split

theorem State.qTruncEv_keeps {a : State} {v0 v1 v2} (h0 : Keeps a v0) : Keeps a (State.qTruncEv v0 v1 v2) := by
  unfold State.qTruncEv
  repeat' first
    | with_reducible assumption
    | intro _
    | with_reducible apply State.ev_keeps

theorem State.qPush_keeps {a : State} {v0 v1 v2 v3} (h0 : Keeps a v0) : Keeps a (State.qPush v0 v1 v2 v3).2 := by
  unfold State.qPush
  repeat' first
    | with_reducible assumption
    | intro _
    | dsimp only
    | with_reducible apply State.qTruncEv_keeps
    | with_reducible apply State.qCloseRaw_keeps
    | with_reducible apply State.qDrop_keeps
    | with_reducible apply State.setQueue_keeps
    | with_reducible apply State.qWord_keeps
    | with_reducible apply State.qTrig_keeps
    | with_reducible apply keeps_ite
    | with_reducible apply keeps_ite_snd
    | refine keeps_of_pair (by assumption) ?_
    | refine keeps_of_triple (by assumption) ?_
    | split

theorem State.qOpen_keeps {a : State} {v0 v1 v2} (h0 : Keeps a v0) : Keeps a (State.qOpen v0 v1 v2).2 := by
  unfold State.qOpen
  repeat' first
    | with_reducible assumption
    | intro _
    | dsimp only
    | with_reducible apply State.qDrop_keeps
    | with_reducible apply State.setQueue_keeps
    | with_reducible apply keeps_ite
    | with_reducible apply keeps_ite_snd

theorem State.qCountRefused_keeps {a : State} {v0} (h0 : Keeps a v0) : Keeps a (State.qCountRefused v0) := by
  unfold State.qCountRefused
  repeat' first
    | with_reducible assumption
    | intro _
    | with_reducible apply State.inc_keeps

theorem State.qPushAll_keeps {a v0 : State} {v1 v2 v3} (h : Keeps a v0) : Keeps a (v0.qPushAll v1 v2 v3).2.2 := by
  induction v3 generalizing v0 with
  | nil => exact h
  | cons w ws ih =>
    unfold State.qPushAll
    split
    · rename_i e
      exact ih (keeps_of_pair e (State.qPush_keeps h))
    · rename_i e
      exact keeps_of_pair e (State.qPush_keeps h)

theorem State.qPacket_keeps {a : State} {v0 v1 v2 v3} (h0 : Keeps a v0) : Keeps a (State.qPacket v0 v1 v2 v3).2.2 := by
  unfold State.qPacket
  repeat' first
    | with_reducible assumption
    | intro _
    | dsimp only
    | with_reducible apply State.qOpen_keeps
    | with_reducible apply State.qPushAll_keeps
    | with_reducible apply State.qCloseRaw_keeps
    | refine keeps_of_pair (by assumption) ?_
    | refine keeps_of_triple (by assumption) ?_
    | split

theorem State.qPop_keeps {a : State} {v0 v1 v2} (h0 : Keeps a v0) : Keeps a (State.qPop v0 v1 v2).2 := by
  unfold State.qPop
  repeat' first
    | with_reducible assumption
    | intro _
    | dsimp only
    | with_reducible apply State.dmRead_keeps
    | with_reducible apply State.setQueue_keeps
    | with_reducible apply keeps_ite
    | with_reducible apply keeps_ite_snd
    | refine keeps_of_pair (by assumption) ?_
    | refine keeps_of_triple (by assumption) ?_
    | split

theorem State.rxQloss_keeps {a : State} {v0 v1} (h0 : Keeps a v0) : Keeps a (State.rxQloss v0 v1) := by
  unfold State.rxQloss
  repeat' first
    | with_reducible assumption
    | intro _
    | with_reducible apply State.ev_keeps
    | with_reducible apply State.inc_keeps

theorem State.qFrame_keeps {a : State} {v0 v1} (h0 : Keeps a v0) : Keeps a (State.qFrame v0 v1) := by
  unfold State.qFrame
  repeat' first
    | with_reducible assumption
    | intro _
    | dsimp only
    | with_reducible apply State.qPacket_keeps
    | with_reducible apply State.raise_keeps
    | with_reducible apply State.rxQloss_keeps
    | refine keeps_of_pair (by assumption) ?_
    | refine keeps_of_triple (by assumption) ?_
    | split

theorem State.qFrameOrWait_keeps {a : State} {v0 v1} (h0 : Keeps a v0) : Keeps a (State.qFrameOrWait v0 v1) := by
  unfold State.qFrameOrWait
  repeat' first
    | with_reducible assumption
    | exact Nat.le_refl _
    | exact slots_same rfl
    | exact id
    | intro _
    | with_reducible apply State.qCountRefused_keeps
    | with_reducible apply State.qFrame_keeps
    | with_reducible apply keeps_ite
    | dsimp only
    | split
    | with_reducible refine keeps_mk ?_ ?_ ?_ ?_ ?_

theorem State.quePushRun_keeps {a : State} {v0 v1 v2} (h0 : Keeps a v0) : Keeps a (State.quePushRun v0 v1 v2) := by
  unfold State.quePushRun
  repeat' first
    | with_reducible assumption
    | intro _
    | dsimp only
    | with_reducible apply State.fail_keeps
    | with_reducible apply State.qPushAll_keeps
    | with_reducible apply State.ok_keeps
    | with_reducible apply keeps_ite

theorem State.quePacketRun_keeps {a : State} {v0 v1 v2} (h0 : Keeps a v0) : Keeps a (State.quePacketRun v0 v1 v2) := by
  unfold State.quePacketRun
  repeat' first
    | with_reducible assumption
    | intro _
    | dsimp only
    | with_reducible apply State.fail_keeps
    | with_reducible apply State.qPacket_keeps
    | with_reducible apply State.ok_keeps
    | with_reducible apply keeps_ite
    | with_reducible apply keeps_ite_snd
    | refine keeps_of_pair (by assumption) ?_
    | refine keeps_of_triple (by assumption) ?_
    | split

theorem State.quePushResume_keeps {a : State} {v0 v1} (h0 : Keeps a v0) : Keeps a (State.quePushResume v0 v1) := by
  unfold State.quePushResume
  repeat' first
    | with_reducible assumption
    | exact Nat.le_refl _
    | exact slots_same rfl
    | exact id
    | intro _
    | with_reducible apply State.quePushRun_keeps
    | with_reducible apply State.quePacketRun_keeps
    | with_reducible apply keeps_ite
    | dsimp only
    | split
    | with_reducible refine keeps_mk ?_ ?_ ?_ ?_ ?_

theorem State.qResume_keeps {a : State} {v0 v1} (h0 : Keeps a v0) : Keeps a (State.qResume v0 v1) := by
  unfold State.qResume
  repeat' first
    | with_reducible assumption
    | exact Nat.le_refl _
    | exact slots_same rfl
    | exact id
    | intro _
    | with_reducible apply State.qFrame_keeps
    | with_reducible apply State.quePushResume_keeps
    | with_reducible apply keeps_ite
    | with_reducible apply keeps_foldl
    | dsimp only
    | split
    | with_reducible refine keeps_mk ?_ ?_ ?_ ?_ ?_

theorem State.qClose_keeps {a : State} {v0 v1 v2} (h0 : Keeps a v0) : Keeps a (State.qClose v0 v1 v2) := by
  unfold State.qClose
  repeat' first
    | with_reducible assumption
    | intro _
    | with_reducible apply State.qResume_keeps
    | with_reducible apply State.qCloseRaw_keeps

theorem State.qPushResume_keeps {a : State} {v0 v1 v2 v3} (h0 : Keeps a v0) : Keeps a (State.qPushResume v0 v1 v2 v3).2 := by
  unfold State.qPushResume
  repeat' first
    | with_reducible assumption
    | intro _
    | dsimp only
    | with_reducible apply State.qPush_keeps
    | with_reducible apply State.qResume_keeps
    | refine keeps_of_pair (by assumption) ?_
    | refine keeps_of_triple (by assumption) ?_
    | split

theorem State.mgcPush_keeps {a : State} {v0 v1 v2 v3} (h0 : Keeps a v0) : Keeps a (State.mgcPush v0 v1 v2 v3) := by
  unfold State.mgcPush
  repeat' first
    | with_reducible assumption
    | exact Nat.le_refl _
    | exact slots_same rfl
    | exact id
    | intro _
    | with_reducible apply State.fail_keeps
    | with_reducible apply State.qCountRefused_keeps
    | with_reducible apply State.quePushRun_keeps
    | with_reducible apply State.quePacketRun_keeps
    | with_reducible apply keeps_ite
    | dsimp only
    | split
    | with_reducible refine keeps_mk ?_ ?_ ?_ ?_ ?_

theorem cmdQuePush_keeps {a : State} {v0 v1 v2} (h2 : Keeps a v2) : Keeps a (cmdQuePush v0 v1 v2) := by
  unfold cmdQuePush
  repeat' first
    | with_reducible assumption
    | intro _
    | with_reducible apply State.start_keeps
    | with_reducible apply State.reWait_keeps
    | with_reducible apply State.mgcPush_keeps
    | with_reducible apply keeps_ite

theorem cmdQuePushPacket_keeps {a : State} {v0 v1 v2} (h2 : Keeps a v2) : Keeps a (cmdQuePushPacket v0 v1 v2) := by
  unfold cmdQuePushPacket
  repeat' first
    | with_reducible assumption
    | intro _
    | with_reducible apply State.start_keeps
    | with_reducible apply State.reWait_keeps
    | with_reducible apply State.mgcPush_keeps
    | with_reducible apply keeps_ite

theorem execQuePushWaitTimeout_keeps {a : State} {v0 v1 v2} (h2 : Keeps a v2) : KeepsOut a (execQuePushWaitTimeout v0 v1 v2) := by
  unfold execQuePushWaitTimeout
  repeat' first
    | with_reducible assumption
    | exact Nat.le_refl _
    | exact slots_same rfl
    | exact id
    | intro _
    | with_reducible apply keepsOut_next
    | with_reducible apply keepsOut_ite
    | with_reducible apply State.at_keeps
    | with_reducible apply State.fail_keeps
    | with_reducible apply keeps_ite
    | dsimp only
    | split
    | with_reducible refine keeps_mk ?_ ?_ ?_ ?_ ?_

theorem cmdQueStatus_keeps {a : State} {v0 v1 v2} (h2 : Keeps a v2) : Keeps a (cmdQueStatus v0 v1 v2) := by
  unfold cmdQueStatus
  repeat' first
    | with_reducible assumption
    | intro _
    | with_reducible apply State.startLen_keeps
    | with_reducible apply State.ok_keeps

theorem State.quePopAll_keeps {a v0 : State} {v1 v2 v3} (h : Keeps a v0) : Keeps a (v0.quePopAll v1 v2 v3).2.2 := by
  induction v3 generalizing v0 with
  | zero => exact h
  | succ n ih =>
    unfold State.quePopAll
    repeat' first
      | assumption
      | with_reducible apply ih
      | with_reducible apply State.qPop_keeps
      | dsimp only
      | refine keeps_of_pair (by assumption) ?_
      | split

theorem cmdQuePop_keeps {a : State} {v0 v1 v2} (h2 : Keeps a v2) : Keeps a (cmdQuePop v0 v1 v2) := by
  unfold cmdQuePop
  repeat' first
    | with_reducible assumption
    | intro _
    | dsimp only
    | with_reducible apply State.startLen_keeps
    | with_reducible apply State.fail_keeps
    | with_reducible apply State.reWait_keeps
    | with_reducible apply State.quePopAll_keeps
    | with_reducible apply State.reply_keeps
    | with_reducible apply keeps_ite

theorem State.qEmpty_keeps {a : State} {v0 v1} (h0 : Keeps a v0) : Keeps a (State.qEmpty v0 v1) := by
  unfold State.qEmpty
  repeat' first
    | with_reducible assumption
    | intro _
    | with_reducible apply State.setQueue_keeps

theorem cmdQueClear_keeps {a : State} {v0 v1 v2} (h2 : Keeps a v2) : Keeps a (cmdQueClear v0 v1 v2) := by
  unfold cmdQueClear
  repeat' first
    | with_reducible assumption
    | intro _
    | with_reducible apply State.startLen_keeps
    | with_reducible apply State.fail_keeps
    | with_reducible apply State.ok_keeps
    | with_reducible apply State.qEmpty_keeps
    | with_reducible apply keeps_ite
    | with_reducible apply keeps_foldl

theorem State.qnPush_keeps {a : State} {v0 v1 v2} (h0 : Keeps a v0) : Keeps a (State.qnPush v0 v1 v2) := by
  unfold State.qnPush
  repeat' first
    | with_reducible assumption
    | intro _
    | dsimp only
    | with_reducible apply State.qPush_keeps
    | with_reducible apply State.qCountRefused_keeps
    | refine keeps_of_pair (by assumption) ?_
    | refine keeps_of_triple (by assumption) ?_
    | split

theorem State.holdAccess_keeps {a : State} {v0 v1} (h0 : Keeps a v0) : Keeps a (State.holdAccess v0 v1) := by
  unfold State.holdAccess
  repeat' first
    | with_reducible assumption
    | exact Nat.le_refl _
    | exact slots_same rfl
    | exact id
    | intro _
    | with_reducible refine keeps_mk ?_ ?_ ?_ ?_ ?_

theorem execQnpush_keeps {a : State} {v0 v1 v2} (h2 : Keeps a v2) : KeepsOut a (execQnpush v0 v1 v2) := by
  unfold execQnpush
  repeat' first
    | with_reducible assumption
    | intro _
    | with_reducible apply keepsOut_next
    | with_reducible apply keepsOut_ite
    | with_reducible apply State.holdAccess_keeps
    | with_reducible apply State.qnPush_keeps
    | with_reducible apply State.qPush_keeps
    | with_reducible apply keeps_ite

theorem State.qDataLo_keeps {a : State} {v0 v1 v2} (h0 : Keeps a v0) : Keeps a (State.qDataLo v0 v1 v2).2 := by
  unfold State.qDataLo
  repeat' first
    | with_reducible assumption
    | intro _
    | dsimp only
    | with_reducible apply State.qPop_keeps
    | with_reducible apply State.setLatch_keeps
    | refine keeps_of_pair (by assumption) ?_
    | refine keeps_of_triple (by assumption) ?_
    | split

theorem execQndataLoRead_keeps {a : State} {v0 v1 v2} (h2 : Keeps a v2) : KeepsOut a (execQndataLoRead v0 v1 v2) := by
  unfold execQndataLoRead
  repeat' first
    | with_reducible assumption
    | intro _
    | dsimp only
    | with_reducible apply keepsOut_next
    | with_reducible apply keepsOut_ite
    | with_reducible apply State.holdAccess_keeps
    | with_reducible apply State.qDataLo_keeps
    | with_reducible apply keeps_ite

theorem execRxQueueWaitTimeout_keeps {a : State} {v0 v1} (h1 : Keeps a v1) : KeepsOut a (execRxQueueWaitTimeout v0 v1) := by
  unfold execRxQueueWaitTimeout
  repeat' first
    | with_reducible assumption
    | exact Nat.le_refl _
    | exact slots_same rfl
    | exact id
    | intro _
    | with_reducible apply keepsOut_next
    | with_reducible apply keepsOut_ite
    | with_reducible apply State.at_keeps
    | with_reducible apply State.rxQloss_keeps
    | dsimp only
    | split
    | with_reducible refine keeps_mk ?_ ?_ ?_ ?_ ?_

theorem execQueStatus_keeps {a : State} {v0 v1 v2} (h2 : Keeps a v2) : KeepsOut a (execQueStatus v0 v1 v2) := by
  unfold execQueStatus
  repeat' first
    | with_reducible assumption
    | intro _
    | with_reducible apply keepsOut_next
    | with_reducible apply keepsOut_ite
    | with_reducible apply cmdQueStatus_keeps

theorem execQuePop_keeps {a : State} {v0 v1 v2} (h2 : Keeps a v2) : KeepsOut a (execQuePop v0 v1 v2) := by
  unfold execQuePop
  repeat' first
    | with_reducible assumption
    | intro _
    | with_reducible apply keepsOut_next
    | with_reducible apply keepsOut_ite
    | with_reducible apply cmdQuePop_keeps

theorem execQuePush_keeps {a : State} {v0 v1 v2} (h2 : Keeps a v2) : KeepsOut a (execQuePush v0 v1 v2) := by
  unfold execQuePush
  repeat' first
    | with_reducible assumption
    | intro _
    | with_reducible apply keepsOut_next
    | with_reducible apply keepsOut_ite
    | with_reducible apply cmdQuePush_keeps

theorem execQuePushPacket_keeps {a : State} {v0 v1 v2} (h2 : Keeps a v2) : KeepsOut a (execQuePushPacket v0 v1 v2) := by
  unfold execQuePushPacket
  repeat' first
    | with_reducible assumption
    | intro _
    | with_reducible apply keepsOut_next
    | with_reducible apply keepsOut_ite
    | with_reducible apply cmdQuePushPacket_keeps

theorem execQueClear_keeps {a : State} {v0 v1 v2} (h2 : Keeps a v2) : KeepsOut a (execQueClear v0 v1 v2) := by
  unfold execQueClear
  repeat' first
    | with_reducible assumption
    | intro _
    | with_reducible apply keepsOut_next
    | with_reducible apply keepsOut_ite
    | with_reducible apply cmdQueClear_keeps

end Sys2Proof.Machine
end

