-- ==== Sys2Proof/Laws/KeepsSeRelease.lean ====
section
/-! SUPPORT. What no command does (Laws.Keeps), said of every function of Machine.SeRelease. -/

namespace Sys2Proof.Machine

theorem State.dispatch_keeps {a : State} {v0} (h0 : Keeps a v0) : Keeps a (State.dispatch v0) := by
  unfold State.dispatch
  repeat' first
    | with_reducible assumption
    | exact Nat.le_refl _
    | exact slots_same rfl
    | exact id
    | intro _
    | with_reducible apply State.onCtx_keeps
    | with_reducible apply keeps_ite
    | dsimp only
    | split
    | with_reducible refine keeps_mk ?_ ?_ ?_ ?_ ?_

theorem State.release_keeps {a : State} {v0 v1} (h0 : Keeps a v0) : Keeps a (State.release v0 v1) := by
  unfold State.release
  repeat' first
    | with_reducible assumption
    | exact Nat.le_refl _
    | exact slots_same rfl
    | exact id
    | intro _
    | with_reducible apply State.setCtx_keeps
    | with_reducible apply keeps_ite
    | with_reducible apply keeps_when
    | dsimp only
    | split
    | with_reducible refine keeps_mk ?_ ?_ ?_ ?_ ?_

theorem State.releaseOrHold_keeps {a : State} {v0 v1} (h0 : Keeps a v0) : Keeps a (State.releaseOrHold v0 v1) := by
  unfold State.releaseOrHold
  repeat' first
    | with_reducible assumption
    | intro _
    | with_reducible apply State.dispatch_keeps
    | with_reducible apply State.onCtx_keeps
    | with_reducible apply State.release_keeps
    | with_reducible apply keeps_ite

theorem State.pendOrMerge_keeps {a : State} {v0 v1} (h0 : Keeps a v0) : Keeps a (State.pendOrMerge v0 v1) := by
  unfold State.pendOrMerge
  repeat' first
    | with_reducible assumption
    | intro _
    | with_reducible apply State.ev_keeps
    | with_reducible apply State.onCtx_keeps
    | with_reducible apply keeps_ite

theorem State.userTrig_keeps {a : State} {v0 v1} (h0 : Keeps a v0) : Keeps a (State.userTrig v0 v1) := by
  unfold State.userTrig
  repeat' first
    | with_reducible assumption
    | intro _
    | with_reducible apply State.pendOrMerge_keeps
    | with_reducible apply State.releaseOrHold_keeps
    | with_reducible apply keeps_ite

theorem State.sysTrig_keeps {a : State} {v0 v1 v2} (h0 : Keeps a v0) : Keeps a (State.sysTrig v0 v1 v2) := by
  unfold State.sysTrig
  repeat' first
    | with_reducible assumption
    | intro _
    | with_reducible apply State.wr_keeps
    | with_reducible apply State.pendOrMerge_keeps
    | with_reducible apply State.releaseOrHold_keeps
    | with_reducible apply keeps_ite

theorem State.skipRelease_keeps {a : State} {v0 v1} (h0 : Keeps a v0) : Keeps a (State.skipRelease v0 v1) := by
  unfold State.skipRelease
  repeat' first
    | with_reducible assumption
    | intro _
    | with_reducible apply State.ev_keeps
    | with_reducible apply State.onCtx_keeps
    | with_reducible apply State.sysTrig_keeps
    | with_reducible apply keeps_ite

theorem State.due_keeps {a : State} {v0 v1} (h0 : Keeps a v0) : Keeps a (State.due v0 v1) := by
  unfold State.due
  repeat' first
    | with_reducible assumption
    | exact Nat.le_refl _
    | exact slots_same rfl
    | exact id
    | intro _
    | with_reducible apply State.releaseOrHold_keeps
    | with_reducible apply State.onCtx_keeps
    | with_reducible apply State.skipRelease_keeps
    | with_reducible apply keeps_ite
    | split
    | with_reducible refine keeps_mk ?_ ?_ ?_ ?_ ?_

theorem State.gridTick_keeps {a : State} {v0} (h0 : Keeps a v0) : Keeps a (State.gridTick v0) := by
  unfold State.gridTick
  repeat' first
    | with_reducible assumption
    | exact Nat.le_refl _
    | exact slots_same rfl
    | exact id
    | intro _
    | with_reducible apply State.due_keeps
    | with_reducible apply keeps_ite
    | with_reducible apply keeps_foldl
    | dsimp only
    | split
    | with_reducible refine keeps_mk ?_ ?_ ?_ ?_ ?_

theorem execTriggerArrival_keeps {a : State} {v0 v1 v2} (h2 : Keeps a v2) : KeepsOut a (execTriggerArrival v0 v1 v2) := by
  unfold execTriggerArrival
  repeat' first
    | with_reducible assumption
    | exact Nat.le_refl _
    | exact slots_same rfl
    | exact id
    | intro _
    | with_reducible apply keepsOut_next
    | with_reducible apply keepsOut_ite
    | with_reducible apply State.at_keeps
    | with_reducible apply State.userTrig_keeps
    | with_reducible apply keeps_ite
    | with_reducible apply keeps_foldl
    | dsimp only
    | split
    | with_reducible refine keeps_mk ?_ ?_ ?_ ?_ ?_

theorem execSeSwtrig_keeps {a : State} {v0 v1} (h1 : Keeps a v1) : KeepsOut a (execSeSwtrig v0 v1) := by
  unfold execSeSwtrig
  repeat' first
    | with_reducible assumption
    | intro _
    | with_reducible apply keepsOut_next
    | with_reducible apply keepsOut_ite
    | with_reducible apply State.userTrig_keeps

theorem State.lossTrig_keeps {a : State} {v0 v1 v2} (h0 : Keeps a v0) : Keeps a (State.lossTrig v0 v1 v2) := by
  unfold State.lossTrig
  repeat' first
    | with_reducible assumption
    | exact Nat.le_refl _
    | exact slots_same rfl
    | exact id
    | intro _
    | with_reducible apply State.sysTrig_keeps
    | with_reducible apply keeps_when
    | dsimp only
    | with_reducible refine keeps_mk ?_ ?_ ?_ ?_ ?_

theorem State.setLat_keeps {a : State} {v0 v1} (h0 : Keeps a v0) : Keeps a (State.setLat v0 v1) := by
  unfold State.setLat
  repeat' first
    | with_reducible assumption
    | intro _
    | with_reducible apply State.wr_keeps

theorem State.imgApply_keeps {a : State} {v0 v1} (h0 : Keeps a v0) : Keeps a (State.imgApply v0 v1) := by
  unfold State.imgApply
  repeat' first
    | with_reducible assumption
    | exact Nat.le_refl _
    | exact slots_same rfl
    | exact id
    | exact swf_memPut _ _
    | exact swf_imgPut _
    | exact swf_sput _ _
    | exact swfBy_sput _ _
    | exact swf_skeep _
    | exact swfBy_skeep _
    | exact fun _ => swf_nil _
    | exact fun _ => swfBy_nil _
    | exact swf_fold_memPut _ _
    | intro _
    | with_reducible apply State.setLat_keeps
    | with_reducible apply State.lossTrig_keeps
    | dsimp only
    | split
    | with_reducible refine keeps_all ?_ ?_ ?_ ?_ ?_ ?_ ?_ ?_ ?_ ?_ ?_

theorem State.imgArrive_keeps {a : State} {v0 v1} (h0 : Keeps a v0) : Keeps a (State.imgArrive v0 v1) := by
  unfold State.imgArrive
  repeat' first
    | with_reducible assumption
    | exact Nat.le_refl _
    | exact slots_same rfl
    | exact id
    | intro _
    | with_reducible apply keeps_ite
    | split
    | with_reducible refine keeps_mk ?_ ?_ ?_ ?_ ?_

theorem State.imgWrite_keeps {a : State} {v0 v1} (h0 : Keeps a v0) : Keeps a (State.imgWrite v0 v1) := by
  unfold State.imgWrite
  repeat' first
    | with_reducible assumption
    | intro _
    | with_reducible apply State.imgApply_keeps
    | with_reducible apply State.imgArrive_keeps
    | with_reducible apply keeps_ite

theorem State.imgTurn_keeps {a : State} {v0 v1} (h0 : Keeps a v0) : Keeps a (State.imgTurn v0 v1) := by
  unfold State.imgTurn
  repeat' first
    | with_reducible assumption
    | exact Nat.le_refl _
    | exact slots_same rfl
    | exact id
    | intro _
    | with_reducible apply State.imgArrive_keeps
    | split
    | with_reducible refine keeps_mk ?_ ?_ ?_ ?_ ?_

theorem execImageWrite_keeps {a : State} {v0 v1} (h1 : Keeps a v1) : KeepsOut a (execImageWrite v0 v1) := by
  unfold execImageWrite
  repeat' first
    | with_reducible assumption
    | exact Nat.le_refl _
    | exact slots_same rfl
    | exact id
    | intro _
    | with_reducible apply keepsOut_next
    | with_reducible apply keepsOut_ite
    | with_reducible apply State.at_keeps
    | with_reducible apply State.imgTurn_keeps
    | with_reducible apply State.imgApply_keeps
    | with_reducible apply keeps_ite
    | dsimp only
    | split
    | with_reducible refine keeps_mk ?_ ?_ ?_ ?_ ?_

theorem execSnapshotCopyStart_keeps {a : State} {v0 v1} (h1 : Keeps a v1) : KeepsOut a (execSnapshotCopyStart v0 v1) := by
  unfold execSnapshotCopyStart
  repeat' first
    | with_reducible assumption
    | exact Nat.le_refl _
    | exact slots_same rfl
    | exact id
    | intro _
    | with_reducible apply keepsOut_next
    | with_reducible apply keepsOut_ite
    | with_reducible apply State.dmWrite_keeps
    | with_reducible apply State.send_keeps
    | with_reducible apply keeps_ite
    | dsimp only
    | split
    | with_reducible refine keeps_mk ?_ ?_ ?_ ?_ ?_

end Sys2Proof.Machine
end

