-- ==== Sys2Proof/Laws/KeepsPorts.lean ====
section
/-! SUPPORT. What no command does (Laws.Keeps), said of every function of Machine.Ports. -/

namespace Sys2Proof.Machine

theorem State.setPort_keeps {a : State} {v0 v1 v2} (h0 : Keeps a v0) : Keeps a (State.setPort v0 v1 v2) := by
  unfold State.setPort
  repeat' first
    | with_reducible assumption
    | exact Nat.le_refl _
    | exact slots_same rfl
    | exact id
    | intro _
    | with_reducible refine keeps_mk ?_ ?_ ?_ ?_ ?_

theorem State.onPort_keeps {a : State} {v0 v1 v2} (h0 : Keeps a v0) : Keeps a (State.onPort v0 v1 v2) := by
  unfold State.onPort
  repeat' first
    | with_reducible assumption
    | intro _
    | with_reducible apply State.setPort_keeps

theorem State.putSummary_keeps {a : State} {v0 v1} (h0 : Keeps a v0) : Keeps a (State.putSummary v0 v1) := by
  unfold State.putSummary
  repeat' first
    | with_reducible assumption
    | intro _
    | with_reducible apply State.imgWrite_keeps

theorem State.syncForced_keeps {a : State} {v0 v1} (h0 : Keeps a v0) : Keeps a (State.syncForced v0 v1) := by
  unfold State.syncForced
  repeat' first
    | with_reducible assumption
    | intro _
    | with_reducible apply State.putSummary_keeps
    | with_reducible apply State.setBit_keeps
    | with_reducible apply keeps_ite

theorem State.idleForced_keeps {a : State} {v0 v1} (h0 : Keeps a v0) : Keeps a (State.idleForced v0 v1) := by
  unfold State.idleForced
  repeat' first
    | with_reducible assumption
    | intro _
    | with_reducible apply State.syncForced_keeps
    | with_reducible apply keeps_when

theorem State.frameEnd_keeps {a : State} {v0 v1} (h0 : Keeps a v0) : Keeps a (State.frameEnd v0 v1) := by
  unfold State.frameEnd
  repeat' first
    | with_reducible assumption
    | intro _
    | with_reducible apply State.idleForced_keeps
    | with_reducible apply State.onPort_keeps
    | with_reducible apply keeps_ite

theorem State.idlePorts_keeps {a : State} {v0} (h0 : Keeps a v0) : Keeps a (State.idlePorts v0) := by
  unfold State.idlePorts
  repeat' first
    | with_reducible assumption
    | intro _
    | with_reducible apply State.idleForced_keeps
    | with_reducible apply keeps_foldl

end Sys2Proof.Machine
end

