-- ==== Sys2Proof/Laws/KeepsRoles.lean ====
section
/-! SUPPORT. What no command does (Laws.Keeps), said of every function of Machine.Roles. -/

namespace Sys2Proof.Machine

theorem State.twlSend_keeps {a : State} {v0 v1} (h0 : Keeps a v0) : Keeps a (State.twlSend v0 v1) := by
  unfold State.twlSend
  repeat' first
    | with_reducible assumption
    | exact Nat.le_refl _
    | exact slots_same rfl
    | exact id
    | intro _
    | with_reducible apply State.replay_keeps
    | with_reducible apply keeps_ite
    | split
    | with_reducible refine keeps_mk ?_ ?_ ?_ ?_ ?_

theorem State.twlCtrl_keeps {a : State} {v0 v1 v2 v3} (h0 : Keeps a v0) : Keeps a (State.twlCtrl v0 v1 v2 v3) := by
  unfold State.twlCtrl
  repeat' first
    | with_reducible assumption
    | intro _
    | with_reducible apply State.twlSend_keeps

theorem State.raiseEpoch_keeps {a : State} {v0} (h0 : Keeps a v0) : Keeps a (State.raiseEpoch v0) := by
  unfold State.raiseEpoch
  repeat' first
    | with_reducible assumption
    | intro _
    | with_reducible apply State.ev_keeps
    | with_reducible apply State.setEpoch_keeps

theorem State.sendCap_keeps {a : State} {v0} (h0 : Keeps a v0) : Keeps a (State.sendCap v0) := by
  unfold State.sendCap
  repeat' first
    | with_reducible assumption
    | exact Nat.le_refl _
    | exact slots_same rfl
    | exact id
    | intro _
    | with_reducible apply State.twlSend_keeps
    | with_reducible apply keeps_ite
    | split
    | with_reducible refine keeps_mk ?_ ?_ ?_ ?_ ?_

theorem State.setLast_keeps {a : State} {v0 v1} (h0 : Keeps a v0) : Keeps a (State.setLast v0 v1) := by
  unfold State.setLast
  repeat' first
    | with_reducible assumption
    | intro _
    | with_reducible apply State.setFld_keeps

theorem State.setChamber_keeps {a : State} {v0 v1} (h0 : Keeps a v0) : Keeps a (State.setChamber v0 v1) := by
  unfold State.setChamber
  repeat' first
    | with_reducible assumption
    | exact Nat.le_refl _
    | exact slots_same rfl
    | exact id
    | intro _
    | with_reducible apply State.sendCap_keeps
    | with_reducible apply State.setFld_keeps
    | with_reducible refine keeps_mk ?_ ?_ ?_ ?_ ?_

theorem State.swapNotice_keeps {a : State} {v0 v1} (h0 : Keeps a v0) : Keeps a (State.swapNotice v0 v1) := by
  unfold State.swapNotice
  repeat' first
    | with_reducible assumption
    | intro _
    | with_reducible apply State.noticeAll_keeps

theorem State.disarm_keeps {a : State} {v0 v1} (h0 : Keeps a v0) : Keeps a (State.disarm v0 v1) := by
  unfold State.disarm
  repeat' first
    | with_reducible assumption
    | exact Nat.le_refl _
    | exact slots_same rfl
    | exact id
    | intro _
    | with_reducible apply State.setChamber_keeps
    | with_reducible apply State.setLast_keeps
    | with_reducible apply State.swapNotice_keeps
    | dsimp only
    | with_reducible refine keeps_mk ?_ ?_ ?_ ?_ ?_

theorem State.abandonSwap_keeps {a : State} {v0 v1} (h0 : Keeps a v0) : Keeps a (State.abandonSwap v0 v1) := by
  unfold State.abandonSwap
  repeat' first
    | with_reducible assumption
    | intro _
    | with_reducible apply State.ev_keeps
    | with_reducible apply State.disarm_keeps
    | with_reducible apply keeps_ite

theorem State.addReq32_keeps {a : State} {v0} (h0 : Keeps a v0) : Keeps a (State.addReq32 v0) := by
  unfold State.addReq32
  repeat' first
    | with_reducible assumption
    | intro _
    | with_reducible apply State.setFld_keeps
    | with_reducible apply keeps_foldl

theorem State.detachStop_keeps {a : State} {v0} (h0 : Keeps a v0) : Keeps a (State.detachStop v0) := by
  unfold State.detachStop
  repeat' first
    | with_reducible assumption
    | exact Nat.le_refl _
    | exact slots_same rfl
    | exact id
    | intro _
    | with_reducible apply State.onCtx_keeps
    | with_reducible apply keeps_ite
    | dsimp only
    | split
    | with_reducible refine keeps_mk ?_ ?_ ?_ ?_ ?_

theorem State.setRole_keeps {a v0 : State} {v1} (h : Keeps a v0) : Keeps a (v0.setRole v1) := by
  unfold State.setRole
  refine keeps_ite h ?_
  refine State.sendCap_keeps (keeps_when (keeps_when (State.sysTrig_keeps (State.ev_keeps (State.abandonSwap_keeps
    (State.idlePorts_keeps (keeps_mk (keeps_when h fun _ k => State.addReq32_keeps k) (Nat.le_refl _) (Nat.le_refl _)
      (slots_same rfl) id)))))
    fun _ k => State.detachStop_keeps k) fun _ k => keeps_foldl k fun _ _ k => keeps_ite (State.releaseOrHold_keeps k) k)

theorem State.goAlone_keeps {a : State} {v0} (h0 : Keeps a v0) : Keeps a (State.goAlone v0) := by
  unfold State.goAlone
  repeat' first
    | with_reducible assumption
    | intro _
    | with_reducible apply State.setRole_keeps
    | with_reducible apply State.raiseEpoch_keeps

theorem State.joinStart_keeps {a : State} {v0} (h0 : Keeps a v0) : Keeps a (State.joinStart v0) := by
  unfold State.joinStart
  repeat' first
    | with_reducible assumption
    | exact Nat.le_refl _
    | exact slots_same rfl
    | exact id
    | intro _
    | with_reducible apply State.setRole_keeps
    | with_reducible apply State.ev_keeps
    | with_reducible apply State.twlCtrl_keeps
    | dsimp only
    | with_reducible refine keeps_mk ?_ ?_ ?_ ?_ ?_

theorem State.autoJoin_keeps {a : State} {v0} (h0 : Keeps a v0) : Keeps a (State.autoJoin v0) := by
  unfold State.autoJoin
  repeat' first
    | with_reducible assumption
    | intro _
    | with_reducible apply State.joinStart_keeps
    | with_reducible apply State.wait_keeps
    | with_reducible apply keeps_ite

theorem State.switchEnd_keeps {a : State} {v0 v1} (h0 : Keeps a v0) : Keeps a (State.switchEnd v0 v1) := by
  unfold State.switchEnd
  repeat' first
    | with_reducible assumption
    | exact Nat.le_refl _
    | exact slots_same rfl
    | exact id
    | intro _
    | with_reducible apply State.noticeAll_keeps
    | dsimp only
    | with_reducible refine keeps_mk ?_ ?_ ?_ ?_ ?_

theorem State.joinFail_keeps {a : State} {v0 v1} (h0 : Keeps a v0) : Keeps a (State.joinFail v0 v1) := by
  unfold State.joinFail
  repeat' first
    | with_reducible assumption
    | intro _
    | with_reducible apply State.ev_keeps
    | with_reducible apply State.wr_keeps
    | with_reducible apply State.setRole_keeps
    | with_reducible apply State.noticeAll_keeps
    | with_reducible apply keeps_ite

theorem State.leaveTwin_keeps {a : State} {v0} (h0 : Keeps a v0) : Keeps a (State.leaveTwin v0) := by
  unfold State.leaveTwin
  repeat' first
    | with_reducible assumption
    | intro _
    | with_reducible apply State.twlCtrl_keeps
    | with_reducible apply State.switchEnd_keeps
    | with_reducible apply State.setRole_keeps
    | with_reducible apply keeps_ite
    | with_reducible apply keeps_when

end Sys2Proof.Machine
end

