-- ==== Sys2Proof/Laws/KeepsSeSched.lean ====
section
/-! SUPPORT. What no command does (Laws.Keeps), said of every function of Machine.SeSched. -/

namespace Sys2Proof.Machine

theorem State.seStop_keeps {a : State} {v0} (h0 : Keeps a v0) : Keeps a (State.seStop v0) := by
  unfold State.seStop
  repeat' first
    | with_reducible assumption
    | exact Nat.le_refl _
    | exact slots_same rfl
    | exact id
    | intro _
    | with_reducible apply State.onCtx_keeps
    | dsimp only
    | split
    | with_reducible refine keeps_mk ?_ ?_ ?_ ?_ ?_

theorem State.enterFault_keeps {a : State} {v0 v1} (h0 : Keeps a v0) : Keeps a (State.enterFault v0 v1) := by
  unfold State.enterFault
  repeat' first
    | with_reducible assumption
    | exact Nat.le_refl _
    | exact slots_same rfl
    | exact id
    | intro _
    | with_reducible apply State.seStop_keeps
    | with_reducible apply State.leaveTwin_keeps
    | with_reducible apply State.abandonSwap_keeps
    | with_reducible apply State.noticeAll_keeps
    | with_reducible apply State.sendCap_keeps
    | with_reducible apply State.retainBegin_keeps
    | with_reducible apply keeps_ite
    | with_reducible apply keeps_when
    | dsimp only
    | split
    | with_reducible refine keeps_mk ?_ ?_ ?_ ?_ ?_

theorem State.sysFail_keeps {a : State} {v0 v1 v2} (h0 : Keeps a v0) : Keeps a (State.sysFail v0 v1 v2) := by
  unfold State.sysFail
  repeat' first
    | with_reducible assumption
    | intro _
    | with_reducible apply State.enterFault_keeps
    | with_reducible apply State.ev_keeps

theorem State.closeOpen_keeps {a : State} {v0 v1 v2} (h0 : Keeps a v0) : Keeps a (State.closeOpen v0 v1 v2) := by
  unfold State.closeOpen
  repeat' first
    | with_reducible assumption
    | intro _
    | with_reducible apply State.qClose_keeps
    | with_reducible apply State.qTruncEv_keeps
    | with_reducible apply keeps_ite
    | with_reducible apply keeps_when
    | with_reducible apply keeps_foldl

theorem State.abort_keeps {a : State} {v0 v1} (h0 : Keeps a v0) : Keeps a (State.abort v0 v1) := by
  unfold State.abort
  repeat' first
    | with_reducible assumption
    | exact Nat.le_refl _
    | exact slots_same rfl
    | exact id
    | intro _
    | with_reducible apply State.closeOpen_keeps
    | with_reducible apply State.onCtx_keeps
    | with_reducible apply State.dispatch_keeps
    | with_reducible apply State.releaseOrHold_keeps
    | with_reducible apply keeps_ite
    | with_reducible apply keeps_when
    | dsimp only
    | split
    | with_reducible refine keeps_mk ?_ ?_ ?_ ?_ ?_

theorem State.restart0_keeps {a : State} {v0} (h0 : Keeps a v0) : Keeps a (State.restart0 v0) := by
  unfold State.restart0
  repeat' first
    | with_reducible assumption
    | intro _
    | with_reducible apply State.onCtx_keeps

theorem State.integrity_keeps {a : State} {v0 v1 v2} (h0 : Keeps a v0) : Keeps a (State.integrity v0 v1 v2) := by
  unfold State.integrity
  repeat' first
    | with_reducible assumption
    | intro _
    | with_reducible apply State.dispatch_keeps
    | with_reducible apply State.sysTrig_keeps
    | with_reducible apply State.restart0_keeps
    | with_reducible apply State.sysFail_keeps
    | with_reducible apply State.abort_keeps
    | with_reducible apply State.ev_keeps
    | with_reducible apply keeps_ite

theorem State.trap_keeps {a : State} {v0 v1 v2 v3 v4} (h0 : Keeps a v0) : Keeps a (State.trap v0 v1 v2 v3 v4) := by
  unfold State.trap
  repeat' first
    | with_reducible assumption
    | intro _
    | with_reducible apply State.wr_keeps
    | with_reducible apply State.ev_keeps
    | with_reducible apply State.inc_keeps
    | with_reducible apply State.restart0_keeps
    | with_reducible apply State.sysFail_keeps
    | with_reducible apply State.abort_keeps
    | with_reducible apply keeps_ite

theorem State.propose_keeps {a : State} {v0} (h0 : Keeps a v0) : Keeps a (State.propose v0) := by
  unfold State.propose
  repeat' first
    | with_reducible assumption
    | exact Nat.le_refl _
    | exact slots_same rfl
    | exact id
    | intro _
    | with_reducible apply State.twlCtrl_keeps
    | with_reducible apply keeps_ite
    | dsimp only
    | split
    | with_reducible refine keeps_mk ?_ ?_ ?_ ?_ ?_

theorem State.endHolds_keeps {a : State} {v0} (h0 : Keeps a v0) : Keeps a (State.endHolds v0) := by
  unfold State.endHolds
  repeat' first
    | with_reducible assumption
    | exact Nat.le_refl _
    | exact slots_same rfl
    | exact id
    | intro _
    | with_reducible apply State.release_keeps
    | with_reducible apply State.onCtx_keeps
    | with_reducible apply keeps_ite
    | with_reducible apply keeps_when
    | with_reducible apply keeps_foldl
    | dsimp only
    | split
    | with_reducible refine keeps_mk ?_ ?_ ?_ ?_ ?_

theorem State.start0_keeps {a : State} {v0} (h0 : Keeps a v0) : Keeps a (State.start0 v0) := by
  unfold State.start0
  repeat' first
    | with_reducible assumption
    | intro _
    | with_reducible apply State.dispatch_keeps
    | with_reducible apply State.onCtx_keeps

theorem State.ctx7Done_keeps {a : State} {v0} (h0 : Keeps a v0) : Keeps a (State.ctx7Done v0) := by
  unfold State.ctx7Done
  repeat' first
    | with_reducible assumption
    | exact Nat.le_refl _
    | exact slots_same rfl
    | exact id
    | intro _
    | with_reducible apply State.releaseOrHold_keeps
    | with_reducible apply State.start0_keeps
    | with_reducible apply keeps_ite
    | with_reducible apply keeps_when
    | with_reducible apply keeps_foldl
    | dsimp only
    | split
    | with_reducible refine keeps_mk ?_ ?_ ?_ ?_ ?_

theorem State.mirrorClose_keeps {a : State} {v0 v1} (h0 : Keeps a v0) : Keeps a (State.mirrorClose v0 v1) := by
  unfold State.mirrorClose
  repeat' first
    | with_reducible assumption
    | exact Nat.le_refl _
    | exact slots_same rfl
    | exact id
    | intro _
    | with_reducible apply State.onCtx_keeps
    | with_reducible apply State.send_keeps
    | with_reducible apply keeps_ite
    | dsimp only
    | split
    | with_reducible refine keeps_mk ?_ ?_ ?_ ?_ ?_

theorem State.wdtCtxMark_keeps {a : State} {v0 v1} (h0 : Keeps a v0) : Keeps a (State.wdtCtxMark v0 v1) := by
  unfold State.wdtCtxMark
  repeat' first
    | with_reducible assumption
    | exact Nat.le_refl _
    | exact slots_same rfl
    | exact id
    | intro _
    | with_reducible apply keeps_ite
    | dsimp only
    | split
    | with_reducible refine keeps_mk ?_ ?_ ?_ ?_ ?_

theorem State.complete_keeps {a : State} {v0 v1} (h0 : Keeps a v0) : Keeps a (State.complete v0 v1) := by
  unfold State.complete
  repeat' first
    | with_reducible assumption
    | intro _
    | with_reducible apply State.setCtx_keeps
    | with_reducible apply State.wdtCtxMark_keeps
    | with_reducible apply State.mirrorClose_keeps
    | with_reducible apply State.endHolds_keeps
    | with_reducible apply State.ctx7Done_keeps
    | with_reducible apply State.retainBegin_keeps
    | with_reducible apply State.seStop_keeps
    | with_reducible apply State.propose_keeps
    | with_reducible apply State.dispatch_keeps
    | with_reducible apply State.releaseOrHold_keeps
    | with_reducible apply keeps_ite
    | with_reducible apply keeps_when

theorem execSnapshotCopyEnd_keeps {a : State} {v0 v1 v2} (h2 : Keeps a v2) : KeepsOut a (execSnapshotCopyEnd v0 v1 v2) := by
  unfold execSnapshotCopyEnd
  repeat' first
    | with_reducible assumption
    | exact Nat.le_refl _
    | exact slots_same rfl
    | exact id
    | intro _
    | with_reducible apply keepsOut_next
    | with_reducible apply keepsOut_ite
    | with_reducible apply State.dispatch_keeps
    | with_reducible apply State.onCtx_keeps
    | with_reducible apply State.integrity_keeps
    | with_reducible apply State.ev_keeps
    | with_reducible apply State.miuErr_keeps
    | with_reducible apply keeps_ite
    | dsimp only
    | split
    | with_reducible refine keeps_mk ?_ ?_ ?_ ?_ ?_

theorem State.publish_keeps {a : State} {v0 v1 v2} (h0 : Keeps a v0) : Keeps a (State.publish v0 v1 v2) := by
  unfold State.publish
  repeat' first
    | with_reducible assumption
    | exact Nat.le_refl _
    | exact slots_same rfl
    | exact id
    | exact swf_memPut _ _
    | exact swf_imgPut _
    | exact swf_sput _ _
    | exact swfBy_sput _ _
    | exact swf_skeep _
    | exact swfBy_skeep _
    | exact fun _ => swf_nil _
    | exact fun _ => swfBy_nil _
    | exact swf_fold_memPut _ _
    | intro _
    | with_reducible apply keeps_foldl
    | dsimp only
    | with_reducible refine keeps_all ?_ ?_ ?_ ?_ ?_ ?_ ?_ ?_ ?_ ?_ ?_

theorem execPublicationEnd_keeps {a : State} {v0 v1 v2} (h2 : Keeps a v2) : KeepsOut a (execPublicationEnd v0 v1 v2) := by
  unfold execPublicationEnd
  repeat' first
    | with_reducible assumption
    | intro _
    | dsimp only
    | with_reducible apply keepsOut_next
    | with_reducible apply keepsOut_ite
    | with_reducible apply State.at_keeps
    | with_reducible apply State.dmRead_keeps
    | with_reducible apply State.integrity_keeps
    | with_reducible apply State.complete_keeps
    | with_reducible apply State.publish_keeps
    | with_reducible apply keeps_ite
    | with_reducible apply keeps_ite_snd
    | refine keeps_of_pair (by assumption) ?_
    | refine keeps_of_triple (by assumption) ?_
    | split

theorem execImageCopyRepair_keeps {a : State} {v0 v1 v2} (h2 : Keeps a v2) : KeepsOut a (execImageCopyRepair v0 v1 v2) := by
  unfold execImageCopyRepair
  repeat' first
    | with_reducible assumption
    | intro _
    | with_reducible apply keepsOut_next
    | with_reducible apply keepsOut_ite
    | with_reducible apply State.ev_keeps
    | with_reducible apply State.inc_keeps

theorem State.clrTime_keeps {a : State} {v0} (h0 : Keeps a v0) : Keeps a (State.clrTime v0) := by
  unfold State.clrTime
  repeat' first
    | with_reducible assumption
    | exact Nat.le_refl _
    | exact slots_same rfl
    | exact id
    | intro _
    | with_reducible refine keeps_mk ?_ ?_ ?_ ?_ ?_

theorem State.clrOvr_keeps {a : State} {v0} (h0 : Keeps a v0) : Keeps a (State.clrOvr v0) := by
  unfold State.clrOvr
  repeat' first
    | with_reducible assumption
    | exact Nat.le_refl _
    | exact slots_same rfl
    | exact id
    | intro _
    | with_reducible refine keeps_mk ?_ ?_ ?_ ?_ ?_

theorem execSeCtrlClrTime_keeps {a : State} {v0} (h0 : Keeps a v0) : KeepsOut a (execSeCtrlClrTime v0) := by
  unfold execSeCtrlClrTime
  repeat' first
    | with_reducible assumption
    | intro _
    | with_reducible apply keepsOut_next
    | with_reducible apply keepsOut_ite
    | with_reducible apply State.clrTime_keeps

theorem execSeCtrlClrOvr_keeps {a : State} {v0} (h0 : Keeps a v0) : KeepsOut a (execSeCtrlClrOvr v0) := by
  unfold execSeCtrlClrOvr
  repeat' first
    | with_reducible assumption
    | intro _
    | with_reducible apply keepsOut_next
    | with_reducible apply keepsOut_ite
    | with_reducible apply State.clrOvr_keeps

theorem execSeHotWrite_keeps {a : State} {v0 v1 v2} (h2 : Keeps a v2) : KeepsOut a (execSeHotWrite v0 v1 v2) := by
  unfold execSeHotWrite
  repeat' first
    | with_reducible assumption
    | intro _
    | with_reducible apply keepsOut_next
    | with_reducible apply keepsOut_ite
    | with_reducible apply State.parHeal_keeps
    | with_reducible apply State.wr_keeps
    | with_reducible apply keeps_ite

end Sys2Proof.Machine
end

