-- ==== Sys2Proof/Laws/KeepsSeState.lean ====
section
/-! SUPPORT. What no command does (Laws.Keeps), said of every function of Machine.SeState. -/

namespace Sys2Proof.Machine

theorem State.quietCtxs_keeps {a : State} {v0 v1} (h0 : Keeps a v0) : Keeps a (State.quietCtxs v0 v1) := by
  unfold State.quietCtxs
  repeat' first
    | with_reducible assumption
    | exact Nat.le_refl _
    | exact slots_same rfl
    | exact id
    | intro _
    | with_reducible apply keeps_ite
    | split
    | with_reducible refine keeps_mk ?_ ?_ ?_ ?_ ?_

theorem State.stateReached_keeps {a : State} {v0} (h0 : Keeps a v0) : Keeps a (State.stateReached v0) := by
  unfold State.stateReached
  repeat' first
    | with_reducible assumption
    | intro _
    | with_reducible apply State.sendCap_keeps
    | with_reducible apply State.noticeAll_keeps

theorem State.enterStop_keeps {a : State} {v0} (h0 : Keeps a v0) : Keeps a (State.enterStop v0) := by
  unfold State.enterStop
  repeat' first
    | with_reducible assumption
    | exact Nat.le_refl _
    | exact slots_same rfl
    | exact id
    | exact swf_memPut _ _
    | exact swf_imgPut _
    | exact swf_sput _ _
    | exact swfBy_sput _ _
    | exact swf_skeep _
    | exact swfBy_skeep _
    | exact fun _ => swf_nil _
    | exact fun _ => swfBy_nil _
    | exact swf_fold_memPut _ _
    | intro _
    | with_reducible apply State.quietCtxs_keeps
    | with_reducible apply State.stateReached_keeps
    | dsimp only
    | with_reducible refine keeps_all ?_ ?_ ?_ ?_ ?_ ?_ ?_ ?_ ?_ ?_ ?_

theorem State.closeWindow_keeps {a : State} {v0} (h0 : Keeps a v0) : Keeps a (State.closeWindow v0) := by
  unfold State.closeWindow
  repeat' first
    | with_reducible assumption
    | intro _
    | with_reducible apply State.ev_keeps
    | with_reducible apply State.setBit_keeps
    | with_reducible apply State.setFld_keeps
    | with_reducible apply keeps_ite

theorem State.leaveStop_keeps {a : State} {v0} (h0 : Keeps a v0) : Keeps a (State.leaveStop v0) := by
  unfold State.leaveStop
  repeat' first
    | with_reducible assumption
    | intro _
    | with_reducible apply State.setBit_keeps
    | with_reducible apply State.closeWindow_keeps

theorem State.enterHold_keeps {a : State} {v0} (h0 : Keeps a v0) : Keeps a (State.enterHold v0) := by
  unfold State.enterHold
  repeat' first
    | with_reducible assumption
    | exact Nat.le_refl _
    | exact slots_same rfl
    | exact id
    | intro _
    | with_reducible apply State.quietCtxs_keeps
    | with_reducible apply State.leaveStop_keeps
    | with_reducible apply State.stateReached_keeps
    | dsimp only
    | with_reducible refine keeps_mk ?_ ?_ ?_ ?_ ?_

theorem State.clearForRun_keeps {a v0 : State} (h : Keeps a v0) : Keeps a v0.clearForRun := by
  unfold State.clearForRun
  exact keeps_all h (Nat.le_refl _) (Nat.le_refl _) (slots_same rfl) id (swfBy_skeep _) id id id id (swf_memPut _ _)

theorem State.enterRun_keeps {a : State} {v0} (h0 : Keeps a v0) : Keeps a (State.enterRun v0) := by
  unfold State.enterRun
  repeat' first
    | with_reducible assumption
    | exact Nat.le_refl _
    | exact slots_same rfl
    | exact id
    | intro _
    | with_reducible apply State.quietCtxs_keeps
    | with_reducible apply State.leaveStop_keeps
    | with_reducible apply State.clearForRun_keeps
    | with_reducible apply State.wr_keeps
    | with_reducible apply State.release_keeps
    | with_reducible apply State.ctx7Done_keeps
    | with_reducible apply State.start0_keeps
    | with_reducible apply State.stateReached_keeps
    | with_reducible apply keeps_ite
    | with_reducible apply keeps_when
    | dsimp only
    | split
    | with_reducible refine keeps_mk ?_ ?_ ?_ ?_ ?_

theorem State.reach_keeps {a : State} {v0 v1} (h0 : Keeps a v0) : Keeps a (State.reach v0 v1) := by
  unfold State.reach
  repeat' first
    | with_reducible assumption
    | intro _
    | with_reducible apply State.enterStop_keeps
    | with_reducible apply State.enterHold_keeps
    | with_reducible apply State.enterRun_keeps
    | with_reducible apply keeps_ite
    | split

theorem State.leaveRun_keeps {a : State} {v0 v1} (h0 : Keeps a v0) : Keeps a (State.leaveRun v0 v1) := by
  unfold State.leaveRun
  repeat' first
    | with_reducible assumption
    | exact Nat.le_refl _
    | exact slots_same rfl
    | exact id
    | intro _
    | with_reducible apply State.onCtx_keeps
    | with_reducible apply State.dispatch_keeps
    | with_reducible apply keeps_ite
    | with_reducible apply keeps_when
    | with_reducible apply keeps_foldl
    | dsimp only
    | split
    | with_reducible refine keeps_mk ?_ ?_ ?_ ?_ ?_

theorem execStateChangeApply_keeps {a : State} {v0 v1} (h1 : Keeps a v1) : KeepsOut a (execStateChangeApply v0 v1) := by
  unfold execStateChangeApply
  repeat' first
    | with_reducible assumption
    | exact Nat.le_refl _
    | exact slots_same rfl
    | exact id
    | intro _
    | with_reducible apply keepsOut_next
    | with_reducible apply keepsOut_ite
    | with_reducible apply State.at_keeps
    | with_reducible apply State.reach_keeps
    | with_reducible apply State.leaveRun_keeps
    | with_reducible apply keeps_ite
    | dsimp only
    | split
    | with_reducible refine keeps_mk ?_ ?_ ?_ ?_ ?_

theorem execRunExitComplete_keeps {a : State} {v0 v1} (h1 : Keeps a v1) : KeepsOut a (execRunExitComplete v0 v1) := by
  unfold execRunExitComplete
  repeat' first
    | with_reducible assumption
    | intro _
    | with_reducible apply keepsOut_next
    | with_reducible apply keepsOut_ite
    | with_reducible apply State.at_keeps
    | with_reducible apply State.reach_keeps
    | with_reducible apply keeps_ite
    | dsimp only
    | split

theorem State.abandonInst_keeps {a : State} {v0 v1} (h0 : Keeps a v0) : Keeps a (State.abandonInst v0 v1) := by
  unfold State.abandonInst
  repeat' first
    | with_reducible assumption
    | intro _
    | with_reducible apply State.closeOpen_keeps
    | with_reducible apply State.ev_keeps
    | with_reducible apply State.onCtx_keeps

theorem execRunExitAbandon_keeps {a : State} {v0 v1} (h1 : Keeps a v1) : KeepsOut a (execRunExitAbandon v0 v1) := by
  unfold execRunExitAbandon
  repeat' first
    | with_reducible assumption
    | intro _
    | with_reducible apply keepsOut_next
    | with_reducible apply keepsOut_ite
    | with_reducible apply State.at_keeps
    | with_reducible apply State.reach_keeps
    | with_reducible apply State.abandonInst_keeps
    | with_reducible apply keeps_ite
    | with_reducible apply keeps_foldl
    | dsimp only
    | split

theorem State.ctx4End_keeps {a : State} {v0} (h0 : Keeps a v0) : Keeps a (State.ctx4End v0) := by
  unfold State.ctx4End
  repeat' first
    | with_reducible assumption
    | intro _
    | with_reducible apply State.retainBegin_keeps
    | with_reducible apply State.seStop_keeps

theorem State.startCtx4_keeps {a : State} {v0} (h0 : Keeps a v0) : Keeps a (State.startCtx4 v0) := by
  unfold State.startCtx4
  repeat' first
    | with_reducible assumption
    | exact Nat.le_refl _
    | exact slots_same rfl
    | exact id
    | intro _
    | with_reducible apply State.retainBegin_keeps
    | with_reducible apply State.onCtx_keeps
    | with_reducible apply State.wr_keeps
    | with_reducible apply State.release_keeps
    | with_reducible apply State.ctx4End_keeps
    | with_reducible apply keeps_ite
    | dsimp only
    | split
    | with_reducible refine keeps_mk ?_ ?_ ?_ ?_ ?_

theorem execCtx4Timeout_keeps {a : State} {v0 v1} (h1 : Keeps a v1) : KeepsOut a (execCtx4Timeout v0 v1) := by
  unfold execCtx4Timeout
  repeat' first
    | with_reducible assumption
    | intro _
    | with_reducible apply keepsOut_next
    | with_reducible apply keepsOut_ite
    | with_reducible apply State.at_keeps
    | with_reducible apply State.ctx4End_keeps
    | with_reducible apply State.closeOpen_keeps
    | with_reducible apply keeps_ite
    | dsimp only
    | split

theorem State.sendTick_keeps {a : State} {v0} (h0 : Keeps a v0) : Keeps a (State.sendTick v0) := by
  unfold State.sendTick
  repeat' first
    | with_reducible assumption
    | intro _
    | with_reducible apply State.twlSend_keeps
    | with_reducible apply keeps_when

theorem execGridTick_keeps {a : State} {v0 v1} (h1 : Keeps a v1) : KeepsOut a (execGridTick v0 v1) := by
  unfold execGridTick
  repeat' first
    | with_reducible assumption
    | exact Nat.le_refl _
    | exact slots_same rfl
    | exact id
    | intro _
    | with_reducible apply keepsOut_next
    | with_reducible apply keepsOut_ite
    | with_reducible apply State.at_keeps
    | with_reducible apply State.goAlone_keeps
    | with_reducible apply State.propose_keeps
    | with_reducible apply State.gridTick_keeps
    | with_reducible apply State.sendTick_keeps
    | with_reducible apply keeps_ite
    | dsimp only
    | split
    | with_reducible refine keeps_mk ?_ ?_ ?_ ?_ ?_

theorem State.stateSet_keeps {a : State} {v0 v1} (h0 : Keeps a v0) : Keeps a (State.stateSet v0 v1) := by
  unfold State.stateSet
  repeat' first
    | with_reducible assumption
    | exact Nat.le_refl _
    | exact slots_same rfl
    | exact id
    | intro _
    | with_reducible apply State.twlCtrl_keeps
    | with_reducible apply State.leaveRun_keeps
    | with_reducible apply keeps_ite
    | dsimp only
    | split
    | with_reducible refine keeps_mk ?_ ?_ ?_ ?_ ?_

theorem cmdSysStateSet_keeps {a : State} {v0 v1 v2} (h2 : Keeps a v2) : Keeps a (cmdSysStateSet v0 v1 v2) := by
  unfold cmdSysStateSet
  repeat' first
    | with_reducible assumption
    | intro _
    | with_reducible apply State.startLen_keeps
    | with_reducible apply State.fail_keeps
    | with_reducible apply State.ok_keeps
    | with_reducible apply State.stateSet_keeps
    | with_reducible apply State.accept_keeps
    | with_reducible apply keeps_ite
    | split

theorem execSysStateSet_keeps {a : State} {v0 v1 v2} (h2 : Keeps a v2) : KeepsOut a (execSysStateSet v0 v1 v2) := by
  unfold execSysStateSet
  repeat' first
    | with_reducible assumption
    | intro _
    | with_reducible apply keepsOut_next
    | with_reducible apply keepsOut_ite
    | with_reducible apply cmdSysStateSet_keeps

end Sys2Proof.Machine
end

