-- ==== Sys2Proof/Laws/KeepsSeConfig.lean ====
section
/-! SUPPORT. What no command does (Laws.Keeps), said of every function of Machine.SeConfig. -/

namespace Sys2Proof.Machine

theorem State.loadTasks_keeps {a v0 : State} {v1} (h : Keeps a v0) : Keeps a (v0.loadTasks v1) := by
  unfold State.loadTasks
  refine keeps_foldl h fun t n ht => keeps_foldl ht fun u k hu => keeps_ite hu ?_
  exact keeps_all hu (Nat.le_refl _) (Nat.le_refl _) (slots_same rfl) id (swfBy_sput _ _) id id id id id

end Sys2Proof.Machine
end

