-- ==== Sys2Proof/Laws/KeepsSwap.lean ====
section
/-! SUPPORT. What no command does (Laws.Keeps), said of every function of Machine.Swap. -/

namespace Sys2Proof.Machine

theorem State.moveSrc_keeps {a v0 : State} {v1 v2} (h : Keeps a v0) : Keeps a (v0.moveSrc v1 v2).2 := by
  induction v2 generalizing v0 v1 with
  | zero => exact h
  | succ n ih =>
    unfold State.moveSrc
    have k := State.readWord_keeps (v1 := MemReader.swapMove) (v2 := dmBase + v1) h
    generalize v0.readWord MemReader.swapMove (dmBase + v1) = p at *
    obtain ⟨w, s⟩ := p
    cases w with
    | none => exact ih (State.ev_keeps (State.setBit_keeps (keeps_ite k (State.wr_keeps k))))
    | some d => exact ih k

theorem State.moveRec_keeps {a : State} {v0 v1} (h0 : Keeps a v0) : Keeps a (State.moveRec v0 v1) := by
  unfold State.moveRec
  repeat' first
    | with_reducible assumption
    | intro _
    | dsimp only
    | with_reducible apply State.moveSrc_keeps
    | with_reducible apply State.dmWrite_keeps
    | with_reducible apply keeps_ite

theorem State.releaseHeld_keeps {a : State} {v0} (h0 : Keeps a v0) : Keeps a (State.releaseHeld v0) := by
  unfold State.releaseHeld
  repeat' first
    | with_reducible assumption
    | intro _
    | with_reducible apply State.onCtx_keeps
    | with_reducible apply State.releaseOrHold_keeps
    | with_reducible apply keeps_ite
    | with_reducible apply keeps_foldl

theorem State.swapSteps_keeps {a v0 : State} {v1} (h : Keeps a v0) : Keeps a (v0.swapSteps v1) := by
  unfold State.swapSteps
  refine State.wrs_keeps (State.setBit_keeps (keeps_mk (State.loadTasks_keeps (keeps_all
    (keeps_foldl (keeps_foldl (keeps_mk h (Nat.le_refl _) (Nat.le_refl _) (slots_same rfl) id)
      fun _ _ k => State.moveRec_keeps k) fun _ _ k => State.dmWrite_keeps k)
    (Nat.le_refl _) (Nat.le_refl _) (slots_same rfl) id id id id id id (swf_fold_memPut _ _)))
    (Nat.le_refl _) (Nat.le_refl _) (slots_same rfl) id))

theorem State.swapCtx0_keeps {a : State} {v0} (h0 : Keeps a v0) : Keeps a (State.swapCtx0 v0) := by
  unfold State.swapCtx0
  repeat' first
    | with_reducible assumption
    | exact Nat.le_refl _
    | exact slots_same rfl
    | exact id
    | intro _
    | with_reducible apply State.start0_keeps
    | with_reducible apply State.restart0_keeps
    | with_reducible apply State.onCtx_keeps
    | with_reducible apply keeps_ite
    | dsimp only
    | split
    | with_reducible refine keeps_mk ?_ ?_ ?_ ?_ ?_

theorem State.swapFinish_keeps {a : State} {v0} (h0 : Keeps a v0) : Keeps a (State.swapFinish v0) := by
  unfold State.swapFinish
  repeat' first
    | with_reducible assumption
    | exact Nat.le_refl _
    | exact slots_same rfl
    | exact id
    | intro _
    | with_reducible apply State.swapSteps_keeps
    | with_reducible apply State.setFld_keeps
    | with_reducible apply State.setChamber_keeps
    | with_reducible apply State.setLast_keeps
    | with_reducible apply State.swapCtx0_keeps
    | with_reducible apply State.dispatch_keeps
    | with_reducible apply State.releaseHeld_keeps
    | with_reducible apply State.ev_keeps
    | with_reducible apply State.autoJoin_keeps
    | with_reducible apply State.swapNotice_keeps
    | with_reducible apply State.startCtx4_keeps
    | with_reducible apply keeps_ite
    | dsimp only
    | split
    | with_reducible refine keeps_mk ?_ ?_ ?_ ?_ ?_

theorem State.swapBegin_keeps {a : State} {v0} (h0 : Keeps a v0) : Keeps a (State.swapBegin v0) := by
  unfold State.swapBegin
  repeat' first
    | with_reducible assumption
    | exact Nat.le_refl _
    | exact slots_same rfl
    | exact id
    | intro _
    | with_reducible apply State.fence_keeps
    | with_reducible apply State.setChamber_keeps
    | with_reducible apply State.setBit_keeps
    | dsimp only
    | with_reducible refine keeps_mk ?_ ?_ ?_ ?_ ?_

theorem execSwapStart_keeps {a : State} {v0 v1} (h1 : Keeps a v1) : KeepsOut a (execSwapStart v0 v1) := by
  unfold execSwapStart
  repeat' first
    | with_reducible assumption
    | intro _
    | with_reducible apply keepsOut_next
    | with_reducible apply keepsOut_ite
    | with_reducible apply State.at_keeps
    | with_reducible apply State.swapBegin_keeps
    | with_reducible apply keeps_ite

theorem execSwapTimeout_keeps {a : State} {v0 v1} (h1 : Keeps a v1) : KeepsOut a (execSwapTimeout v0 v1) := by
  unfold execSwapTimeout
  repeat' first
    | with_reducible assumption
    | intro _
    | with_reducible apply keepsOut_next
    | with_reducible apply keepsOut_ite
    | with_reducible apply State.at_keeps
    | with_reducible apply State.abandonSwap_keeps
    | with_reducible apply keeps_ite

theorem execSwapAttemptLapse_keeps {a : State} {v0 v1} (h1 : Keeps a v1) : KeepsOut a (execSwapAttemptLapse v0 v1) := by
  unfold execSwapAttemptLapse
  repeat' first
    | with_reducible assumption
    | exact Nat.le_refl _
    | exact slots_same rfl
    | exact id
    | intro _
    | with_reducible apply keepsOut_next
    | with_reducible apply keepsOut_ite
    | with_reducible apply State.at_keeps
    | with_reducible apply State.dispatch_keeps
    | with_reducible apply State.releaseHeld_keeps
    | with_reducible apply keeps_ite
    | dsimp only
    | split
    | with_reducible refine keeps_mk ?_ ?_ ?_ ?_ ?_

theorem cmdSeChamberOpen_keeps {a : State} {v0 v1 v2} (h2 : Keeps a v2) : Keeps a (cmdSeChamberOpen v0 v1 v2) := by
  unfold cmdSeChamberOpen
  repeat' first
    | with_reducible assumption
    | intro _
    | with_reducible apply State.startLen_keeps
    | with_reducible apply State.ok_keeps
    | with_reducible apply State.setChamber_keeps
    | with_reducible apply State.fail_keeps
    | split

theorem cmdSeChamberWrite_keeps {a : State} {v0 v1 v2} (h2 : Keeps a v2) : Keeps a (cmdSeChamberWrite v0 v1 v2) := by
  unfold cmdSeChamberWrite
  repeat' first
    | with_reducible assumption
    | intro _
    | with_reducible apply State.start_keeps
    | with_reducible apply State.fail_keeps
    | with_reducible apply State.ok_keeps
    | with_reducible apply State.writeBytes_keeps
    | with_reducible apply keeps_ite

theorem cmdSeChamberClose_keeps {a : State} {v0 v1 v2} (h2 : Keeps a v2) : Keeps a (cmdSeChamberClose v0 v1 v2) := by
  unfold cmdSeChamberClose
  repeat' first
    | with_reducible assumption
    | intro _
    | with_reducible apply State.startLen_keeps
    | with_reducible apply State.fail_keeps
    | with_reducible apply State.setChamber_keeps
    | with_reducible apply State.accept_keeps
    | with_reducible apply keeps_ite

theorem execChamberCheckEnd_keeps {a : State} {v0} (h0 : Keeps a v0) : KeepsOut a (execChamberCheckEnd v0) := by
  unfold execChamberCheckEnd
  repeat' first
    | with_reducible assumption
    | intro _
    | with_reducible apply keepsOut_next
    | with_reducible apply keepsOut_ite
    | with_reducible apply State.noticeAll_keeps
    | with_reducible apply State.setChamber_keeps
    | with_reducible apply State.unrebRead_keeps
    | with_reducible apply State.wr_keeps
    | with_reducible apply State.wrs_keeps
    | with_reducible apply State.fail_keeps
    | with_reducible apply keeps_ite
    | dsimp only
    | split

theorem State.twinCheck_keeps {a : State} {v0} (h0 : Keeps a v0) : Keeps a (State.twinCheck v0).2 := by
  unfold State.twinCheck
  repeat' first
    | with_reducible assumption
    | intro _
    | dsimp only
    | with_reducible apply State.free_keeps

theorem State.arm_keeps {a : State} {v0 v1 v2} (h0 : Keeps a v0) : Keeps a (State.arm v0 v1 v2) := by
  unfold State.arm
  repeat' first
    | with_reducible assumption
    | exact Nat.le_refl _
    | exact slots_same rfl
    | exact id
    | intro _
    | with_reducible apply State.setChamber_keeps
    | with_reducible apply State.accept_keeps
    | with_reducible apply State.ev_keeps
    | with_reducible apply State.setFld_keeps
    | dsimp only
    | with_reducible refine keeps_mk ?_ ?_ ?_ ?_ ?_

theorem cmdSeSwapArm_keeps {a : State} {v0 v1 v2} (h2 : Keeps a v2) : Keeps a (cmdSeSwapArm v0 v1 v2) := by
  unfold cmdSeSwapArm
  repeat' first
    | with_reducible assumption
    | intro _
    | dsimp only
    | with_reducible apply State.startLen_keeps
    | with_reducible apply State.fail_keeps
    | with_reducible apply State.twinCheck_keeps
    | with_reducible apply State.arm_keeps
    | with_reducible apply State.ev_keeps
    | with_reducible apply keeps_ite
    | with_reducible apply keeps_ite_snd
    | refine keeps_of_pair (by assumption) ?_
    | refine keeps_of_triple (by assumption) ?_
    | split

theorem cmdSeSwapDisarm_keeps {a : State} {v0 v1 v2} (h2 : Keeps a v2) : Keeps a (cmdSeSwapDisarm v0 v1 v2) := by
  unfold cmdSeSwapDisarm
  repeat' first
    | with_reducible assumption
    | intro _
    | with_reducible apply State.startLen_keeps
    | with_reducible apply State.ok_keeps
    | with_reducible apply State.disarm_keeps
    | with_reducible apply State.fail_keeps
    | split

theorem cmdSeSwapStatus_keeps {a : State} {v0 v1 v2} (h2 : Keeps a v2) : Keeps a (cmdSeSwapStatus v0 v1 v2) := by
  unfold cmdSeSwapStatus
  repeat' first
    | with_reducible assumption
    | intro _
    | with_reducible apply State.startLen_keeps
    | with_reducible apply State.ok_keeps

theorem execSeChamberOpen_keeps {a : State} {v0 v1 v2} (h2 : Keeps a v2) : KeepsOut a (execSeChamberOpen v0 v1 v2) := by
  unfold execSeChamberOpen
  repeat' first
    | with_reducible assumption
    | intro _
    | with_reducible apply keepsOut_next
    | with_reducible apply keepsOut_ite
    | with_reducible apply cmdSeChamberOpen_keeps

theorem execSeChamberWrite_keeps {a : State} {v0 v1 v2} (h2 : Keeps a v2) : KeepsOut a (execSeChamberWrite v0 v1 v2) := by
  unfold execSeChamberWrite
  repeat' first
    | with_reducible assumption
    | intro _
    | with_reducible apply keepsOut_next
    | with_reducible apply keepsOut_ite
    | with_reducible apply cmdSeChamberWrite_keeps

theorem execSeChamberClose_keeps {a : State} {v0 v1 v2} (h2 : Keeps a v2) : KeepsOut a (execSeChamberClose v0 v1 v2) := by
  unfold execSeChamberClose
  repeat' first
    | with_reducible assumption
    | intro _
    | with_reducible apply keepsOut_next
    | with_reducible apply keepsOut_ite
    | with_reducible apply cmdSeChamberClose_keeps

theorem execSeSwapArm_keeps {a : State} {v0 v1 v2} (h2 : Keeps a v2) : KeepsOut a (execSeSwapArm v0 v1 v2) := by
  unfold execSeSwapArm
  repeat' first
    | with_reducible assumption
    | intro _
    | with_reducible apply keepsOut_next
    | with_reducible apply keepsOut_ite
    | with_reducible apply cmdSeSwapArm_keeps

theorem execSeSwapDisarm_keeps {a : State} {v0 v1 v2} (h2 : Keeps a v2) : KeepsOut a (execSeSwapDisarm v0 v1 v2) := by
  unfold execSeSwapDisarm
  repeat' first
    | with_reducible assumption
    | intro _
    | with_reducible apply keepsOut_next
    | with_reducible apply keepsOut_ite
    | with_reducible apply cmdSeSwapDisarm_keeps

theorem execSeSwapStatus_keeps {a : State} {v0 v1 v2} (h2 : Keeps a v2) : KeepsOut a (execSeSwapStatus v0 v1 v2) := by
  unfold execSeSwapStatus
  repeat' first
    | with_reducible assumption
    | intro _
    | with_reducible apply keepsOut_next
    | with_reducible apply keepsOut_ite
    | with_reducible apply cmdSeSwapStatus_keeps

end Sys2Proof.Machine
end

