-- ==== Sys2Proof/Laws/KeepsOperands.lean ====
section
/-! SUPPORT. What no command does (Laws.Keeps), said of every function of Machine.Operands. -/

namespace Sys2Proof.Machine

theorem State.seRun_keeps {a v0 : State} {v1 v2} (h : Keeps a v0)
    (hf : ∀ t n c, Keeps a t → KeepsRes a (v2 t n c)) : Keeps a (v0.seRun v1 v2) := by
  unfold State.seRun
  split
  · exact h
  · rename_i n e
    have k := hf v0 n (v0.ctx n) h
    dsimp only
    generalize v2 v0 n (v0.ctx n) = r at *
    cases r with
    | next g s j => exact State.onCtx_keeps k
    | trap c d t => exact State.trap_keeps h
    | bad c s => exact State.integrity_keeps k

theorem seExec_keeps {a : State} {v0 v1 v2} (h1 : ∀ t0 t1 t2, Keeps a t0 → KeepsRes a (v1 t0 t1 t2)) (h2 : Keeps a v2) : KeepsOut a (seExec v0 v1 v2) := by
  unfold seExec
  repeat' first
    | with_reducible assumption
    | intro _
    | with_reducible apply h1
    | with_reducible apply keepsOut_next
    | with_reducible apply keepsOut_ite
    | with_reducible apply State.seRun_keeps

theorem addrCheck_keeps {a : State} {v0 v1 v2 v3} (h3 : KeepsRes a v3) : KeepsRes a (addrCheck v0 v1 v2 v3) := by
  unfold addrCheck
  repeat' first
    | with_reducible assumption
    | intro _
    | with_reducible apply State.trap_keeps
    | with_reducible apply keeps_ite
    | with_reducible apply keepsRes_next
    | with_reducible apply keepsRes_bad
    | with_reducible apply keepsRes_trap
    | with_reducible apply keepsRes_illegal
    | with_reducible apply keepsRes_stackTrap
    | with_reducible apply keepsRes_ite

theorem withBit_keeps {a : State} {v0 v1 v2 v3} (h0 : Keeps a v0) (h3 : ∀ t0 t1, Keeps a t0 → KeepsRes a (v3 t0 t1)) : KeepsRes a (withBit v0 v1 v2 v3) := by
  unfold withBit
  repeat' first
    | with_reducible assumption
    | intro _
    | with_reducible apply h3
    | dsimp only
    | with_reducible apply State.dmRead_keeps
    | with_reducible apply State.trap_keeps
    | with_reducible apply keeps_ite
    | with_reducible apply keeps_ite_snd
    | with_reducible apply keepsRes_next
    | with_reducible apply keepsRes_bad
    | with_reducible apply keepsRes_trap
    | with_reducible apply keepsRes_illegal
    | with_reducible apply keepsRes_stackTrap
    | with_reducible apply keepsRes_ite
    | refine keeps_of_pair (by assumption) ?_
    | refine keeps_of_triple (by assumption) ?_
    | split

theorem State.markDirty_keeps {a : State} {v0 v1 v2 v3} (h0 : Keeps a v0) : Keeps a (State.markDirty v0 v1 v2 v3) := by
  unfold State.markDirty
  repeat' first
    | with_reducible assumption
    | intro _
    | with_reducible apply State.onCtx_keeps
    | with_reducible apply keeps_ite

theorem State.seStore_keeps {a : State} {v0 v1 v2 v3} (h0 : Keeps a v0) : Keeps a (State.seStore v0 v1 v2 v3) := by
  unfold State.seStore
  repeat' first
    | with_reducible assumption
    | intro _
    | with_reducible apply State.dmWrite_keeps
    | with_reducible apply State.markDirty_keeps

theorem putBit_keeps {a : State} {v0 v1 v2 v3 v4 v5} (h0 : Keeps a v0) : KeepsRes a (putBit v0 v1 v2 v3 v4 v5) := by
  unfold putBit
  repeat' first
    | with_reducible assumption
    | intro _
    | with_reducible apply State.parHeal_keeps
    | with_reducible apply State.setBit_keeps
    | with_reducible apply State.seStore_keeps
    | with_reducible apply State.trap_keeps
    | with_reducible apply keeps_ite
    | with_reducible apply keepsRes_next
    | with_reducible apply keepsRes_bad
    | with_reducible apply keepsRes_trap
    | with_reducible apply keepsRes_illegal
    | with_reducible apply keepsRes_stackTrap
    | with_reducible apply keepsRes_ite
    | dsimp only
    | split

theorem checkBit_keeps {a : State} {v0 v1 v2 v3} (h0 : Keeps a v0) : KeepsRes a (checkBit v0 v1 v2 v3) := by
  unfold checkBit
  repeat' first
    | with_reducible assumption
    | intro _
    | with_reducible apply State.trap_keeps
    | with_reducible apply keeps_ite
    | with_reducible apply keepsRes_next
    | with_reducible apply keepsRes_bad
    | with_reducible apply keepsRes_trap
    | with_reducible apply keepsRes_illegal
    | with_reducible apply keepsRes_stackTrap
    | with_reducible apply keepsRes_ite
    | split

end Sys2Proof.Machine
end

