-- ==== Sys2Proof/Laws/KeepsSeBit.lean ====
section
/-! SUPPORT. What no command does (Laws.Keeps), said of every function of Machine.SeBit. -/

namespace Sys2Proof.Machine

theorem bitLoad_keeps {a : State} {v0 v1 v2 v3 v4} (h4 : Keeps a v4) : Keeps a (bitLoad v0 v1 v2 v3 v4) := by
  unfold bitLoad
  repeat' first
    | with_reducible assumption
    | intro _
    | with_reducible apply State.seRun_keeps
    | with_reducible apply withBit_keeps
    | with_reducible apply keeps_ite
    | with_reducible apply keepsRes_next
    | with_reducible apply keepsRes_bad
    | with_reducible apply keepsRes_trap
    | with_reducible apply keepsRes_illegal
    | with_reducible apply keepsRes_stackTrap
    | with_reducible apply keepsRes_ite

theorem bitStore_keeps {a : State} {v0 v1 v2 v3} (h3 : Keeps a v3) : Keeps a (bitStore v0 v1 v2 v3) := by
  unfold bitStore
  repeat' first
    | with_reducible assumption
    | intro _
    | with_reducible apply State.seRun_keeps
    | with_reducible apply putBit_keeps
    | with_reducible apply keeps_ite
    | with_reducible apply keepsRes_next
    | with_reducible apply keepsRes_bad
    | with_reducible apply keepsRes_trap
    | with_reducible apply keepsRes_illegal
    | with_reducible apply keepsRes_stackTrap
    | with_reducible apply keepsRes_ite

theorem bitCond_keeps {a : State} {v0 v1 v2 v3} (h3 : Keeps a v3) : Keeps a (bitCond v0 v1 v2 v3) := by
  unfold bitCond
  repeat' first
    | with_reducible assumption
    | intro _
    | with_reducible apply State.seRun_keeps
    | with_reducible apply putBit_keeps
    | with_reducible apply checkBit_keeps
    | with_reducible apply keeps_ite
    | with_reducible apply keepsRes_next
    | with_reducible apply keepsRes_bad
    | with_reducible apply keepsRes_trap
    | with_reducible apply keepsRes_illegal
    | with_reducible apply keepsRes_stackTrap
    | with_reducible apply keepsRes_ite

theorem execBitLd_keeps {a : State} {v0 v1} (h1 : Keeps a v1) : KeepsOut a (execBitLd v0 v1) := by
  unfold execBitLd
  repeat' first
    | with_reducible assumption
    | intro _
    | with_reducible apply keepsOut_next
    | with_reducible apply keepsOut_ite
    | with_reducible apply bitLoad_keeps

theorem execBitLdn_keeps {a : State} {v0 v1} (h1 : Keeps a v1) : KeepsOut a (execBitLdn v0 v1) := by
  unfold execBitLdn
  repeat' first
    | with_reducible assumption
    | intro _
    | with_reducible apply keepsOut_next
    | with_reducible apply keepsOut_ite
    | with_reducible apply bitLoad_keeps

theorem execBitAnd_keeps {a : State} {v0 v1} (h1 : Keeps a v1) : KeepsOut a (execBitAnd v0 v1) := by
  unfold execBitAnd
  repeat' first
    | with_reducible assumption
    | intro _
    | with_reducible apply keepsOut_next
    | with_reducible apply keepsOut_ite
    | with_reducible apply bitLoad_keeps

theorem execBitAndn_keeps {a : State} {v0 v1} (h1 : Keeps a v1) : KeepsOut a (execBitAndn v0 v1) := by
  unfold execBitAndn
  repeat' first
    | with_reducible assumption
    | intro _
    | with_reducible apply keepsOut_next
    | with_reducible apply keepsOut_ite
    | with_reducible apply bitLoad_keeps

theorem execBitOr_keeps {a : State} {v0 v1} (h1 : Keeps a v1) : KeepsOut a (execBitOr v0 v1) := by
  unfold execBitOr
  repeat' first
    | with_reducible assumption
    | intro _
    | with_reducible apply keepsOut_next
    | with_reducible apply keepsOut_ite
    | with_reducible apply bitLoad_keeps

theorem execBitOrn_keeps {a : State} {v0 v1} (h1 : Keeps a v1) : KeepsOut a (execBitOrn v0 v1) := by
  unfold execBitOrn
  repeat' first
    | with_reducible assumption
    | intro _
    | with_reducible apply keepsOut_next
    | with_reducible apply keepsOut_ite
    | with_reducible apply bitLoad_keeps

theorem execBitXor_keeps {a : State} {v0 v1} (h1 : Keeps a v1) : KeepsOut a (execBitXor v0 v1) := by
  unfold execBitXor
  repeat' first
    | with_reducible assumption
    | intro _
    | with_reducible apply keepsOut_next
    | with_reducible apply keepsOut_ite
    | with_reducible apply bitLoad_keeps

theorem execBitXorn_keeps {a : State} {v0 v1} (h1 : Keeps a v1) : KeepsOut a (execBitXorn v0 v1) := by
  unfold execBitXorn
  repeat' first
    | with_reducible assumption
    | intro _
    | with_reducible apply keepsOut_next
    | with_reducible apply keepsOut_ite
    | with_reducible apply bitLoad_keeps

theorem execBitSt_keeps {a : State} {v0 v1} (h1 : Keeps a v1) : KeepsOut a (execBitSt v0 v1) := by
  unfold execBitSt
  repeat' first
    | with_reducible assumption
    | intro _
    | with_reducible apply keepsOut_next
    | with_reducible apply keepsOut_ite
    | with_reducible apply bitStore_keeps

theorem execBitStn_keeps {a : State} {v0 v1} (h1 : Keeps a v1) : KeepsOut a (execBitStn v0 v1) := by
  unfold execBitStn
  repeat' first
    | with_reducible assumption
    | intro _
    | with_reducible apply keepsOut_next
    | with_reducible apply keepsOut_ite
    | with_reducible apply bitStore_keeps

theorem execBitStp_keeps {a : State} {v0 v1} (h1 : Keeps a v1) : KeepsOut a (execBitStp v0 v1) := by
  unfold execBitStp
  repeat' first
    | with_reducible assumption
    | intro _
    | with_reducible apply keepsOut_next
    | with_reducible apply keepsOut_ite
    | with_reducible apply bitStore_keeps

theorem execBitSet_keeps {a : State} {v0 v1} (h1 : Keeps a v1) : KeepsOut a (execBitSet v0 v1) := by
  unfold execBitSet
  repeat' first
    | with_reducible assumption
    | intro _
    | with_reducible apply keepsOut_next
    | with_reducible apply keepsOut_ite
    | with_reducible apply bitCond_keeps

theorem execBitRst_keeps {a : State} {v0 v1} (h1 : Keeps a v1) : KeepsOut a (execBitRst v0 v1) := by
  unfold execBitRst
  repeat' first
    | with_reducible assumption
    | intro _
    | with_reducible apply keepsOut_next
    | with_reducible apply keepsOut_ite
    | with_reducible apply bitCond_keeps

theorem execBitSetp_keeps {a : State} {v0 v1} (h1 : Keeps a v1) : KeepsOut a (execBitSetp v0 v1) := by
  unfold execBitSetp
  repeat' first
    | with_reducible assumption
    | intro _
    | with_reducible apply keepsOut_next
    | with_reducible apply keepsOut_ite
    | with_reducible apply bitCond_keeps

theorem execBitRstp_keeps {a : State} {v0 v1} (h1 : Keeps a v1) : KeepsOut a (execBitRstp v0 v1) := by
  unfold execBitRstp
  repeat' first
    | with_reducible assumption
    | intro _
    | with_reducible apply keepsOut_next
    | with_reducible apply keepsOut_ite
    | with_reducible apply bitCond_keeps

theorem stkOp_keeps {a : State} {v0 v1 v2 v3} (h3 : Keeps a v3) : Keeps a (stkOp v0 v1 v2 v3) := by
  unfold stkOp
  repeat' first
    | with_reducible assumption
    | intro _
    | with_reducible apply State.seRun_keeps
    | with_reducible apply keeps_ite
    | with_reducible apply keepsRes_next
    | with_reducible apply keepsRes_bad
    | with_reducible apply keepsRes_trap
    | with_reducible apply keepsRes_illegal
    | with_reducible apply keepsRes_stackTrap
    | with_reducible apply keepsRes_ite

theorem execPush0_keeps {a : State} {v0} (h0 : Keeps a v0) : KeepsOut a (execPush0 v0) := by
  unfold execPush0
  repeat' first
    | with_reducible assumption
    | intro _
    | with_reducible apply keepsOut_next
    | with_reducible apply keepsOut_ite
    | with_reducible apply stkOp_keeps

theorem execPush1_keeps {a : State} {v0} (h0 : Keeps a v0) : KeepsOut a (execPush1 v0) := by
  unfold execPush1
  repeat' first
    | with_reducible assumption
    | intro _
    | with_reducible apply keepsOut_next
    | with_reducible apply keepsOut_ite
    | with_reducible apply stkOp_keeps

theorem execStkNot_keeps {a : State} {v0} (h0 : Keeps a v0) : KeepsOut a (execStkNot v0) := by
  unfold execStkNot
  repeat' first
    | with_reducible assumption
    | intro _
    | with_reducible apply keepsOut_next
    | with_reducible apply keepsOut_ite
    | with_reducible apply stkOp_keeps

theorem execDup_keeps {a : State} {v0} (h0 : Keeps a v0) : KeepsOut a (execDup v0) := by
  unfold execDup
  repeat' first
    | with_reducible assumption
    | intro _
    | with_reducible apply keepsOut_next
    | with_reducible apply keepsOut_ite
    | with_reducible apply stkOp_keeps

theorem execPop_keeps {a : State} {v0} (h0 : Keeps a v0) : KeepsOut a (execPop v0) := by
  unfold execPop
  repeat' first
    | with_reducible assumption
    | intro _
    | with_reducible apply keepsOut_next
    | with_reducible apply keepsOut_ite
    | with_reducible apply stkOp_keeps

theorem execAnds_keeps {a : State} {v0} (h0 : Keeps a v0) : KeepsOut a (execAnds v0) := by
  unfold execAnds
  repeat' first
    | with_reducible assumption
    | intro _
    | with_reducible apply keepsOut_next
    | with_reducible apply keepsOut_ite
    | with_reducible apply stkOp_keeps

theorem execOrs_keeps {a : State} {v0} (h0 : Keeps a v0) : KeepsOut a (execOrs v0) := by
  unfold execOrs
  repeat' first
    | with_reducible assumption
    | intro _
    | with_reducible apply keepsOut_next
    | with_reducible apply keepsOut_ite
    | with_reducible apply stkOp_keeps

theorem execXors_keeps {a : State} {v0} (h0 : Keeps a v0) : KeepsOut a (execXors v0) := by
  unfold execXors
  repeat' first
    | with_reducible assumption
    | intro _
    | with_reducible apply keepsOut_next
    | with_reducible apply keepsOut_ite
    | with_reducible apply stkOp_keeps

theorem execSwap_keeps {a : State} {v0} (h0 : Keeps a v0) : KeepsOut a (execSwap v0) := by
  unfold execSwap
  repeat' first
    | with_reducible assumption
    | intro _
    | with_reducible apply keepsOut_next
    | with_reducible apply keepsOut_ite
    | with_reducible apply stkOp_keeps

theorem execStkClr_keeps {a : State} {v0} (h0 : Keeps a v0) : KeepsOut a (execStkClr v0) := by
  unfold execStkClr
  repeat' first
    | with_reducible assumption
    | intro _
    | with_reducible apply keepsOut_next
    | with_reducible apply keepsOut_ite
    | with_reducible apply stkOp_keeps

theorem execPushc_keeps {a : State} {v0 v1} (h1 : Keeps a v1) : KeepsOut a (execPushc v0 v1) := by
  unfold execPushc
  repeat' first
    | with_reducible assumption
    | intro _
    | with_reducible apply keepsOut_next
    | with_reducible apply keepsOut_ite
    | with_reducible apply seExec_keeps
    | with_reducible apply keeps_ite
    | with_reducible apply keepsRes_next
    | with_reducible apply keepsRes_bad
    | with_reducible apply keepsRes_trap
    | with_reducible apply keepsRes_illegal
    | with_reducible apply keepsRes_stackTrap
    | with_reducible apply keepsRes_ite
    | split

theorem State.bankHalf_keeps {a : State} {v0 v1} (h0 : Keeps a v0) : Keeps a (State.bankHalf v0 v1).2 := by
  unfold State.bankHalf
  repeat' first
    | with_reducible assumption
    | intro _
    | dsimp only
    | with_reducible apply State.readBytes_keeps
    | refine keeps_of_pair (by assumption) ?_
    | refine keeps_of_triple (by assumption) ?_
    | split

theorem fetchNat_keeps {a v2 : State} {v0 v1} (h : Keeps a v2) : Keeps a (fetchNat v0 v1 v2).2 := by
  induction v0 generalizing v1 v2 with
  | zero => exact h
  | succ n ih =>
    unfold fetchNat
    repeat' first
      | with_reducible assumption
      | with_reducible apply ih
      | with_reducible apply State.bankHalf_keeps
      | dsimp only
      | refine keeps_of_pair (by assumption) ?_
      | split

theorem litVals_keeps {a v0 : State} {v1} (h : Keeps a v0) : Keeps a (litVals v0 v1).2 := by
  induction v1 generalizing v0 with
  | nil => exact h
  | cons l ls ih =>
    cases l <;> unfold litVals
    all_goals
      repeat' first
        | with_reducible assumption
        | with_reducible apply ih
        | with_reducible apply State.dmRead_keeps
        | dsimp only
        | refine keeps_of_pair (by assumption) ?_
        | split

/-- A fetch of a part of an entry keeps it. -/
def KeepsFetched {α : Type} (a : State) : Fetched α → Prop
  | .ok _ _ s => Keeps a s
  | .wrong => True
  | .dark s => Keeps a s

theorem fetchLits_keeps {a v2 : State} {v0 v1} (h : Keeps a v2) : KeepsFetched a (fetchLits v0 v1 v2) := by
  induction v0 generalizing v1 v2 with
  | zero => exact h
  | succ n ih =>
    unfold fetchLits
    split
    · rename_i e
      exact keeps_of_pair e (State.bankHalf_keeps h)
    · rename_i x t e
      have k := keeps_of_pair e (State.bankHalf_keeps h)
      split
      · split
        · trivial
        · have k2 := ih (v1 := v1 + 2) k
          generalize fetchLits n (v1 + 2) t = r at *
          cases r <;> exact k2
      · split
        · trivial
        · split
          · rename_i e2
            exact keeps_of_pair e2 (State.bankHalf_keeps k)
          · rename_i y u e2
            have k2 := ih (v1 := v1 + 4) (keeps_of_pair e2 (State.bankHalf_keeps k))
            generalize fetchLits n (v1 + 4) u = r at *
            cases r <;> exact k2

theorem fetchTerms_keeps {a v2 : State} {v0 v1} (h : Keeps a v2) : KeepsFetched a (fetchTerms v0 v1 v2) := by
  induction v0 generalizing v1 v2 with
  | zero => exact h
  | succ n ih =>
    unfold fetchTerms
    split
    · rename_i e
      exact keeps_of_pair e (fetchNat_keeps h)
    · rename_i x t e
      have k2 := ih (v1 := v1 + 16) (keeps_of_pair e (fetchNat_keeps h))
      generalize fetchTerms n (v1 + 16) t = r at *
      cases r <;> exact k2

theorem knot_keeps {a v4 : State} {v0 v1 v2 v3} (h : Keeps a v4) : Keeps a (knot v0 v1 v2 v3 v4) := by
  unfold knot
  refine State.seRun_keeps h fun t n c k => ?_
  split
  · trivial
  · split
    · rename_i e
      exact keeps_of_pair e (fetchNat_keeps k)
    · rename_i hd s e
      have k1 := keeps_of_pair e (fetchNat_keeps k)
      dsimp only
      split
      · trivial
      · have k2 := fetchLits_keeps (v0 := hd % 128) (v1 := v0.toNat * 32 + 4) k1
        generalize fetchLits (hd % 128) (v0.toNat * 32 + 4) s = r at *
        cases r with
        | dark u => exact k2
        | wrong => trivial
        | ok ls off u =>
          dsimp only
          have k3 := fetchTerms_keeps (v0 := hd / 256 % 16) (v1 := if off % 4 = 0 then off else off + 2) k2
          generalize fetchTerms (hd / 256 % 16) (if off % 4 = 0 then off else off + 2) u = r at *
          cases r with
          | dark w => exact k3
          | wrong => trivial
          | ok terms o w =>
            dsimp only
            split
            · trivial
            · split
              · rename_i e2
                exact keeps_of_pair e2 (litVals_keeps k3)
              · rename_i e2
                exact keeps_of_pair e2 (litVals_keeps k3)

theorem execKnotPush_keeps {a : State} {v0 v1} (h1 : Keeps a v1) : KeepsOut a (execKnotPush v0 v1) := by
  unfold execKnotPush
  repeat' first
    | with_reducible assumption
    | intro _
    | with_reducible apply keepsOut_next
    | with_reducible apply keepsOut_ite
    | with_reducible apply knot_keeps

theorem execKnotAnd_keeps {a : State} {v0 v1} (h1 : Keeps a v1) : KeepsOut a (execKnotAnd v0 v1) := by
  unfold execKnotAnd
  repeat' first
    | with_reducible assumption
    | intro _
    | with_reducible apply keepsOut_next
    | with_reducible apply keepsOut_ite
    | with_reducible apply knot_keeps

theorem execKnotOr_keeps {a : State} {v0 v1} (h1 : Keeps a v1) : KeepsOut a (execKnotOr v0 v1) := by
  unfold execKnotOr
  repeat' first
    | with_reducible assumption
    | intro _
    | with_reducible apply keepsOut_next
    | with_reducible apply keepsOut_ite
    | with_reducible apply knot_keeps

theorem edgeOp_keeps {a : State} {v0 v1 v2} (h2 : Keeps a v2) : Keeps a (edgeOp v0 v1 v2) := by
  unfold edgeOp
  repeat' first
    | with_reducible assumption
    | exact Nat.le_refl _
    | exact slots_same rfl
    | exact id
    | intro _
    | with_reducible apply State.seRun_keeps
    | with_reducible apply keeps_ite
    | with_reducible apply keepsRes_next
    | with_reducible apply keepsRes_bad
    | with_reducible apply keepsRes_trap
    | with_reducible apply keepsRes_illegal
    | with_reducible apply keepsRes_stackTrap
    | with_reducible apply keepsRes_ite
    | dsimp only
    | split
    | with_reducible refine keeps_mk ?_ ?_ ?_ ?_ ?_

theorem execEdgeRising_keeps {a : State} {v0 v1} (h1 : Keeps a v1) : KeepsOut a (execEdgeRising v0 v1) := by
  unfold execEdgeRising
  repeat' first
    | with_reducible assumption
    | intro _
    | with_reducible apply keepsOut_next
    | with_reducible apply keepsOut_ite
    | with_reducible apply edgeOp_keeps

theorem execEdgeFalling_keeps {a : State} {v0 v1} (h1 : Keeps a v1) : KeepsOut a (execEdgeFalling v0 v1) := by
  unfold execEdgeFalling
  repeat' first
    | with_reducible assumption
    | intro _
    | with_reducible apply keepsOut_next
    | with_reducible apply keepsOut_ite
    | with_reducible apply edgeOp_keeps

theorem execEdgeBoth_keeps {a : State} {v0 v1} (h1 : Keeps a v1) : KeepsOut a (execEdgeBoth v0 v1) := by
  unfold execEdgeBoth
  repeat' first
    | with_reducible assumption
    | intro _
    | with_reducible apply keepsOut_next
    | with_reducible apply keepsOut_ite
    | with_reducible apply edgeOp_keeps

theorem execUnprime_keeps {a : State} {v0 v1} (h1 : Keeps a v1) : KeepsOut a (execUnprime v0 v1) := by
  unfold execUnprime
  repeat' first
    | with_reducible assumption
    | exact Nat.le_refl _
    | exact slots_same rfl
    | exact id
    | intro _
    | with_reducible apply keepsOut_next
    | with_reducible apply keepsOut_ite
    | with_reducible apply seExec_keeps
    | with_reducible apply State.parHeal_keeps
    | with_reducible apply keepsRes_next
    | with_reducible apply keepsRes_bad
    | with_reducible apply keepsRes_trap
    | with_reducible apply keepsRes_illegal
    | with_reducible apply keepsRes_stackTrap
    | with_reducible apply keeps_id
    | with_reducible refine keeps_mk ?_ ?_ ?_ ?_ ?_

theorem State.setTimer_keeps {a : State} {v0 v1 v2} (h0 : Keeps a v0) : Keeps a (State.setTimer v0 v1 v2) := by
  unfold State.setTimer
  repeat' first
    | with_reducible assumption
    | exact Nat.le_refl _
    | exact slots_same rfl
    | exact id
    | intro _
    | with_reducible apply State.parHeal_keeps
    | with_reducible refine keeps_mk ?_ ?_ ?_ ?_ ?_

theorem timOp_keeps {a : State} {v0 v1 v2 v3} (h3 : Keeps a v3) : Keeps a (timOp v0 v1 v2 v3) := by
  unfold timOp
  repeat' first
    | with_reducible assumption
    | intro _
    | with_reducible apply State.seRun_keeps
    | with_reducible apply State.at_keeps
    | with_reducible apply State.setTimer_keeps
    | with_reducible apply State.onCtx_keeps
    | with_reducible apply keeps_ite
    | with_reducible apply keepsRes_next
    | with_reducible apply keepsRes_bad
    | with_reducible apply keepsRes_trap
    | with_reducible apply keepsRes_illegal
    | with_reducible apply keepsRes_stackTrap
    | with_reducible apply keepsRes_ite

theorem execTimTon_keeps {a : State} {v0 v1 v2} (h2 : Keeps a v2) : KeepsOut a (execTimTon v0 v1 v2) := by
  unfold execTimTon
  repeat' first
    | with_reducible assumption
    | intro _
    | with_reducible apply keepsOut_next
    | with_reducible apply keepsOut_ite
    | with_reducible apply timOp_keeps

theorem execTimTof_keeps {a : State} {v0 v1 v2} (h2 : Keeps a v2) : KeepsOut a (execTimTof v0 v1 v2) := by
  unfold execTimTof
  repeat' first
    | with_reducible assumption
    | intro _
    | with_reducible apply keepsOut_next
    | with_reducible apply keepsOut_ite
    | with_reducible apply timOp_keeps

theorem execTimTp_keeps {a : State} {v0 v1 v2} (h2 : Keeps a v2) : KeepsOut a (execTimTp v0 v1 v2) := by
  unfold execTimTp
  repeat' first
    | with_reducible assumption
    | intro _
    | with_reducible apply keepsOut_next
    | with_reducible apply keepsOut_ite
    | with_reducible apply timOp_keeps

theorem execTrst_keeps {a : State} {v0 v1 v2} (h2 : Keeps a v2) : KeepsOut a (execTrst v0 v1 v2) := by
  unfold execTrst
  repeat' first
    | with_reducible assumption
    | intro _
    | with_reducible apply keepsOut_next
    | with_reducible apply keepsOut_ite
    | with_reducible apply seExec_keeps
    | with_reducible apply State.setTimer_keeps
    | with_reducible apply State.onCtx_keeps
    | with_reducible apply keeps_ite
    | with_reducible apply keepsRes_next

end Sys2Proof.Machine
end

