-- ==== Sys2Proof/Laws/KeepsSeAlu.lean ====
section
/-! SUPPORT. What no command does (Laws.Keeps), said of every function of Machine.SeAlu. -/

namespace Sys2Proof.Machine

theorem alu3_keeps {a : State} {v0 v1 v2 v3 v4 v5 v6} (h6 : Keeps a v6) : Keeps a (alu3 v0 v1 v2 v3 v4 v5 v6) := by
  unfold alu3
  repeat' first
    | with_reducible assumption
    | intro _
    | with_reducible apply State.seRun_keeps
    | with_reducible apply keeps_ite
    | with_reducible apply keepsRes_next
    | with_reducible apply keepsRes_bad
    | with_reducible apply keepsRes_trap
    | with_reducible apply keepsRes_illegal
    | with_reducible apply keepsRes_stackTrap
    | with_reducible apply keepsRes_ite

theorem aluShift_keeps {a : State} {v0 v1 v2 v3 v4 v5 v6} (h6 : Keeps a v6) : Keeps a (aluShift v0 v1 v2 v3 v4 v5 v6) := by
  unfold aluShift
  repeat' first
    | with_reducible assumption
    | intro _
    | with_reducible apply State.seRun_keeps
    | with_reducible apply keeps_ite
    | with_reducible apply keepsRes_next
    | with_reducible apply keepsRes_bad
    | with_reducible apply keepsRes_trap
    | with_reducible apply keepsRes_illegal
    | with_reducible apply keepsRes_stackTrap
    | with_reducible apply keepsRes_ite

theorem alu2_keeps {a : State} {v0 v1 v2 v3 v4 v5} (h5 : Keeps a v5) : Keeps a (alu2 v0 v1 v2 v3 v4 v5) := by
  unfold alu2
  repeat' first
    | with_reducible assumption
    | intro _
    | with_reducible apply State.seRun_keeps
    | with_reducible apply keeps_ite
    | with_reducible apply keepsRes_next
    | with_reducible apply keepsRes_bad
    | with_reducible apply keepsRes_trap
    | with_reducible apply keepsRes_illegal
    | with_reducible apply keepsRes_stackTrap
    | with_reducible apply keepsRes_ite

theorem execAluAdd_keeps {a : State} {v0 v1 v2 v3 v4 v5} (h5 : Keeps a v5) : KeepsOut a (execAluAdd v0 v1 v2 v3 v4 v5) := by
  unfold execAluAdd
  repeat' first
    | with_reducible assumption
    | intro _
    | with_reducible apply keepsOut_next
    | with_reducible apply keepsOut_ite
    | with_reducible apply alu3_keeps

theorem execAluSub_keeps {a : State} {v0 v1 v2 v3 v4 v5} (h5 : Keeps a v5) : KeepsOut a (execAluSub v0 v1 v2 v3 v4 v5) := by
  unfold execAluSub
  repeat' first
    | with_reducible assumption
    | intro _
    | with_reducible apply keepsOut_next
    | with_reducible apply keepsOut_ite
    | with_reducible apply alu3_keeps

theorem execAluAnd_keeps {a : State} {v0 v1 v2 v3 v4 v5} (h5 : Keeps a v5) : KeepsOut a (execAluAnd v0 v1 v2 v3 v4 v5) := by
  unfold execAluAnd
  repeat' first
    | with_reducible assumption
    | intro _
    | with_reducible apply keepsOut_next
    | with_reducible apply keepsOut_ite
    | with_reducible apply alu3_keeps

theorem execAluOr_keeps {a : State} {v0 v1 v2 v3 v4 v5} (h5 : Keeps a v5) : KeepsOut a (execAluOr v0 v1 v2 v3 v4 v5) := by
  unfold execAluOr
  repeat' first
    | with_reducible assumption
    | intro _
    | with_reducible apply keepsOut_next
    | with_reducible apply keepsOut_ite
    | with_reducible apply alu3_keeps

theorem execAluXor_keeps {a : State} {v0 v1 v2 v3 v4 v5} (h5 : Keeps a v5) : KeepsOut a (execAluXor v0 v1 v2 v3 v4 v5) := by
  unfold execAluXor
  repeat' first
    | with_reducible assumption
    | intro _
    | with_reducible apply keepsOut_next
    | with_reducible apply keepsOut_ite
    | with_reducible apply alu3_keeps

theorem execAluMul_keeps {a : State} {v0 v1 v2 v3 v4 v5} (h5 : Keeps a v5) : KeepsOut a (execAluMul v0 v1 v2 v3 v4 v5) := by
  unfold execAluMul
  repeat' first
    | with_reducible assumption
    | intro _
    | with_reducible apply keepsOut_next
    | with_reducible apply keepsOut_ite
    | with_reducible apply alu3_keeps

theorem execAluMulh_keeps {a : State} {v0 v1 v2 v3 v4 v5} (h5 : Keeps a v5) : KeepsOut a (execAluMulh v0 v1 v2 v3 v4 v5) := by
  unfold execAluMulh
  repeat' first
    | with_reducible assumption
    | intro _
    | with_reducible apply keepsOut_next
    | with_reducible apply keepsOut_ite
    | with_reducible apply alu3_keeps

theorem execAluDiv_keeps {a : State} {v0 v1 v2 v3 v4 v5} (h5 : Keeps a v5) : KeepsOut a (execAluDiv v0 v1 v2 v3 v4 v5) := by
  unfold execAluDiv
  repeat' first
    | with_reducible assumption
    | intro _
    | with_reducible apply keepsOut_next
    | with_reducible apply keepsOut_ite
    | with_reducible apply alu3_keeps

theorem execAluRem_keeps {a : State} {v0 v1 v2 v3 v4 v5} (h5 : Keeps a v5) : KeepsOut a (execAluRem v0 v1 v2 v3 v4 v5) := by
  unfold execAluRem
  repeat' first
    | with_reducible assumption
    | intro _
    | with_reducible apply keepsOut_next
    | with_reducible apply keepsOut_ite
    | with_reducible apply alu3_keeps

theorem execAluMin_keeps {a : State} {v0 v1 v2 v3 v4 v5} (h5 : Keeps a v5) : KeepsOut a (execAluMin v0 v1 v2 v3 v4 v5) := by
  unfold execAluMin
  repeat' first
    | with_reducible assumption
    | intro _
    | with_reducible apply keepsOut_next
    | with_reducible apply keepsOut_ite
    | with_reducible apply alu3_keeps

theorem execAluMax_keeps {a : State} {v0 v1 v2 v3 v4 v5} (h5 : Keeps a v5) : KeepsOut a (execAluMax v0 v1 v2 v3 v4 v5) := by
  unfold execAluMax
  repeat' first
    | with_reducible assumption
    | intro _
    | with_reducible apply keepsOut_next
    | with_reducible apply keepsOut_ite
    | with_reducible apply alu3_keeps

theorem execAluShl_keeps {a : State} {v0 v1 v2 v3 v4 v5} (h5 : Keeps a v5) : KeepsOut a (execAluShl v0 v1 v2 v3 v4 v5) := by
  unfold execAluShl
  repeat' first
    | with_reducible assumption
    | intro _
    | with_reducible apply keepsOut_next
    | with_reducible apply keepsOut_ite
    | with_reducible apply aluShift_keeps

theorem execAluShr_keeps {a : State} {v0 v1 v2 v3 v4 v5} (h5 : Keeps a v5) : KeepsOut a (execAluShr v0 v1 v2 v3 v4 v5) := by
  unfold execAluShr
  repeat' first
    | with_reducible assumption
    | intro _
    | with_reducible apply keepsOut_next
    | with_reducible apply keepsOut_ite
    | with_reducible apply aluShift_keeps

theorem execAluSar_keeps {a : State} {v0 v1 v2 v3 v4 v5} (h5 : Keeps a v5) : KeepsOut a (execAluSar v0 v1 v2 v3 v4 v5) := by
  unfold execAluSar
  repeat' first
    | with_reducible assumption
    | intro _
    | with_reducible apply keepsOut_next
    | with_reducible apply keepsOut_ite
    | with_reducible apply aluShift_keeps

theorem execAluRol_keeps {a : State} {v0 v1 v2 v3 v4 v5} (h5 : Keeps a v5) : KeepsOut a (execAluRol v0 v1 v2 v3 v4 v5) := by
  unfold execAluRol
  repeat' first
    | with_reducible assumption
    | intro _
    | with_reducible apply keepsOut_next
    | with_reducible apply keepsOut_ite
    | with_reducible apply aluShift_keeps

theorem execAluRor_keeps {a : State} {v0 v1 v2 v3 v4 v5} (h5 : Keeps a v5) : KeepsOut a (execAluRor v0 v1 v2 v3 v4 v5) := by
  unfold execAluRor
  repeat' first
    | with_reducible assumption
    | intro _
    | with_reducible apply keepsOut_next
    | with_reducible apply keepsOut_ite
    | with_reducible apply aluShift_keeps

theorem execAluCmp_keeps {a : State} {v0 v1 v2 v3 v4} (h4 : Keeps a v4) : KeepsOut a (execAluCmp v0 v1 v2 v3 v4) := by
  unfold execAluCmp
  repeat' first
    | with_reducible assumption
    | intro _
    | with_reducible apply keepsOut_next
    | with_reducible apply keepsOut_ite
    | with_reducible apply seExec_keeps
    | with_reducible apply keeps_ite
    | with_reducible apply keepsRes_next
    | with_reducible apply keepsRes_bad
    | with_reducible apply keepsRes_trap
    | with_reducible apply keepsRes_illegal
    | with_reducible apply keepsRes_stackTrap
    | with_reducible apply keepsRes_ite

theorem execAluMov_keeps {a : State} {v0 v1 v2 v3 v4} (h4 : Keeps a v4) : KeepsOut a (execAluMov v0 v1 v2 v3 v4) := by
  unfold execAluMov
  repeat' first
    | with_reducible assumption
    | intro _
    | with_reducible apply keepsOut_next
    | with_reducible apply keepsOut_ite
    | with_reducible apply alu2_keeps

theorem execAluNot_keeps {a : State} {v0 v1 v2 v3 v4} (h4 : Keeps a v4) : KeepsOut a (execAluNot v0 v1 v2 v3 v4) := by
  unfold execAluNot
  repeat' first
    | with_reducible assumption
    | intro _
    | with_reducible apply keepsOut_next
    | with_reducible apply keepsOut_ite
    | with_reducible apply alu2_keeps

theorem execAluNeg_keeps {a : State} {v0 v1 v2 v3 v4} (h4 : Keeps a v4) : KeepsOut a (execAluNeg v0 v1 v2 v3 v4) := by
  unfold execAluNeg
  repeat' first
    | with_reducible assumption
    | intro _
    | with_reducible apply keepsOut_next
    | with_reducible apply keepsOut_ite
    | with_reducible apply alu2_keeps

theorem execAluAbs_keeps {a : State} {v0 v1 v2 v3 v4} (h4 : Keeps a v4) : KeepsOut a (execAluAbs v0 v1 v2 v3 v4) := by
  unfold execAluAbs
  repeat' first
    | with_reducible assumption
    | intro _
    | with_reducible apply keepsOut_next
    | with_reducible apply keepsOut_ite
    | with_reducible apply alu2_keeps

theorem execAluSel_keeps {a : State} {v0 v1 v2 v3 v4 v5} (h5 : Keeps a v5) : KeepsOut a (execAluSel v0 v1 v2 v3 v4 v5) := by
  unfold execAluSel
  repeat' first
    | with_reducible assumption
    | intro _
    | with_reducible apply keepsOut_next
    | with_reducible apply keepsOut_ite
    | with_reducible apply seExec_keeps
    | with_reducible apply keeps_ite
    | with_reducible apply keepsRes_next
    | with_reducible apply keepsRes_bad
    | with_reducible apply keepsRes_trap
    | with_reducible apply keepsRes_illegal
    | with_reducible apply keepsRes_stackTrap
    | with_reducible apply keepsRes_ite

theorem aluImm_keeps {a : State} {v0 v1 v2 v3} (h3 : Keeps a v3) : Keeps a (aluImm v0 v1 v2 v3) := by
  unfold aluImm
  repeat' first
    | with_reducible assumption
    | intro _
    | with_reducible apply State.seRun_keeps
    | with_reducible apply keepsRes_next

theorem shiftImm_keeps {a : State} {v0 v1 v2 v3} (h3 : Keeps a v3) : Keeps a (shiftImm v0 v1 v2 v3) := by
  unfold shiftImm
  repeat' first
    | with_reducible assumption
    | intro _
    | with_reducible apply State.seRun_keeps
    | with_reducible apply aluImm_keeps
    | with_reducible apply keeps_ite
    | with_reducible apply keepsRes_next
    | with_reducible apply keepsRes_bad
    | with_reducible apply keepsRes_trap
    | with_reducible apply keepsRes_illegal

theorem execAddi_keeps {a : State} {v0 v1 v2} (h2 : Keeps a v2) : KeepsOut a (execAddi v0 v1 v2) := by
  unfold execAddi
  repeat' first
    | with_reducible assumption
    | intro _
    | with_reducible apply keepsOut_next
    | with_reducible apply keepsOut_ite
    | with_reducible apply aluImm_keeps

theorem execAndi_keeps {a : State} {v0 v1 v2} (h2 : Keeps a v2) : KeepsOut a (execAndi v0 v1 v2) := by
  unfold execAndi
  repeat' first
    | with_reducible assumption
    | intro _
    | with_reducible apply keepsOut_next
    | with_reducible apply keepsOut_ite
    | with_reducible apply aluImm_keeps

theorem execOri_keeps {a : State} {v0 v1 v2} (h2 : Keeps a v2) : KeepsOut a (execOri v0 v1 v2) := by
  unfold execOri
  repeat' first
    | with_reducible assumption
    | intro _
    | with_reducible apply keepsOut_next
    | with_reducible apply keepsOut_ite
    | with_reducible apply aluImm_keeps

theorem execXori_keeps {a : State} {v0 v1 v2} (h2 : Keeps a v2) : KeepsOut a (execXori v0 v1 v2) := by
  unfold execXori
  repeat' first
    | with_reducible assumption
    | intro _
    | with_reducible apply keepsOut_next
    | with_reducible apply keepsOut_ite
    | with_reducible apply aluImm_keeps

theorem execShli_keeps {a : State} {v0 v1 v2} (h2 : Keeps a v2) : KeepsOut a (execShli v0 v1 v2) := by
  unfold execShli
  repeat' first
    | with_reducible assumption
    | intro _
    | with_reducible apply keepsOut_next
    | with_reducible apply keepsOut_ite
    | with_reducible apply shiftImm_keeps

theorem execShri_keeps {a : State} {v0 v1 v2} (h2 : Keeps a v2) : KeepsOut a (execShri v0 v1 v2) := by
  unfold execShri
  repeat' first
    | with_reducible assumption
    | intro _
    | with_reducible apply keepsOut_next
    | with_reducible apply keepsOut_ite
    | with_reducible apply shiftImm_keeps

theorem execSari_keeps {a : State} {v0 v1 v2} (h2 : Keeps a v2) : KeepsOut a (execSari v0 v1 v2) := by
  unfold execSari
  repeat' first
    | with_reducible assumption
    | intro _
    | with_reducible apply keepsOut_next
    | with_reducible apply keepsOut_ite
    | with_reducible apply shiftImm_keeps

theorem execMuli_keeps {a : State} {v0 v1 v2} (h2 : Keeps a v2) : KeepsOut a (execMuli v0 v1 v2) := by
  unfold execMuli
  repeat' first
    | with_reducible assumption
    | intro _
    | with_reducible apply keepsOut_next
    | with_reducible apply keepsOut_ite
    | with_reducible apply aluImm_keeps

theorem execCmpi_keeps {a : State} {v0 v1 v2} (h2 : Keeps a v2) : KeepsOut a (execCmpi v0 v1 v2) := by
  unfold execCmpi
  repeat' first
    | with_reducible assumption
    | intro _
    | with_reducible apply keepsOut_next
    | with_reducible apply keepsOut_ite
    | with_reducible apply seExec_keeps
    | with_reducible apply keepsRes_next

theorem execLdil_keeps {a : State} {v0 v1 v2} (h2 : Keeps a v2) : KeepsOut a (execLdil v0 v1 v2) := by
  unfold execLdil
  repeat' first
    | with_reducible assumption
    | intro _
    | with_reducible apply keepsOut_next
    | with_reducible apply keepsOut_ite
    | with_reducible apply seExec_keeps
    | with_reducible apply keepsRes_next

theorem execLdih_keeps {a : State} {v0 v1 v2} (h2 : Keeps a v2) : KeepsOut a (execLdih v0 v1 v2) := by
  unfold execLdih
  repeat' first
    | with_reducible assumption
    | intro _
    | with_reducible apply keepsOut_next
    | with_reducible apply keepsOut_ite
    | with_reducible apply seExec_keeps
    | with_reducible apply keepsRes_next

theorem execLdi_keeps {a : State} {v0 v1 v2} (h2 : Keeps a v2) : KeepsOut a (execLdi v0 v1 v2) := by
  unfold execLdi
  repeat' first
    | with_reducible assumption
    | intro _
    | with_reducible apply keepsOut_next
    | with_reducible apply keepsOut_ite
    | with_reducible apply seExec_keeps
    | with_reducible apply keepsRes_next

end Sys2Proof.Machine
end

