-- ==== Sys2Proof/Laws/KeepsSeFp.lean ====
section
/-! SUPPORT. What no command does (Laws.Keeps), said of every function of Machine.SeFp. -/

namespace Sys2Proof.Machine

theorem fpOp_keeps {a : State} {v0 v1 v2} (h2 : Keeps a v2) : Keeps a (fpOp v0 v1 v2) := by
  unfold fpOp
  repeat' first
    | with_reducible assumption
    | intro _
    | with_reducible apply State.seRun_keeps
    | with_reducible apply keeps_ite
    | with_reducible apply keepsRes_next
    | with_reducible apply keepsRes_bad
    | with_reducible apply keepsRes_trap
    | with_reducible apply keepsRes_illegal
    | with_reducible apply keepsRes_stackTrap
    | with_reducible apply keepsRes_ite

theorem fp3_keeps {a : State} {v0 v1 v2 v3 v4 v5} (h5 : Keeps a v5) : Keeps a (fp3 v0 v1 v2 v3 v4 v5) := by
  unfold fp3
  repeat' first
    | with_reducible assumption
    | intro _
    | with_reducible apply fpOp_keeps

theorem fp2_keeps {a : State} {v0 v1 v2 v3 v4} (h4 : Keeps a v4) : Keeps a (fp2 v0 v1 v2 v3 v4) := by
  unfold fp2
  repeat' first
    | with_reducible assumption
    | intro _
    | with_reducible apply fpOp_keeps

theorem fpInt_keeps {a : State} {v0 v1 v2 v3 v4 v5} (h5 : Keeps a v5) : Keeps a (fpInt v0 v1 v2 v3 v4 v5) := by
  unfold fpInt
  repeat' first
    | with_reducible assumption
    | intro _
    | with_reducible apply fpOp_keeps

theorem execFadd_keeps {a : State} {v0 v1 v2 v3 v4} (h4 : Keeps a v4) : KeepsOut a (execFadd v0 v1 v2 v3 v4) := by
  unfold execFadd
  repeat' first
    | with_reducible assumption
    | intro _
    | with_reducible apply keepsOut_next
    | with_reducible apply keepsOut_ite
    | with_reducible apply fp3_keeps

theorem execFsub_keeps {a : State} {v0 v1 v2 v3 v4} (h4 : Keeps a v4) : KeepsOut a (execFsub v0 v1 v2 v3 v4) := by
  unfold execFsub
  repeat' first
    | with_reducible assumption
    | intro _
    | with_reducible apply keepsOut_next
    | with_reducible apply keepsOut_ite
    | with_reducible apply fp3_keeps

theorem execFmul_keeps {a : State} {v0 v1 v2 v3 v4} (h4 : Keeps a v4) : KeepsOut a (execFmul v0 v1 v2 v3 v4) := by
  unfold execFmul
  repeat' first
    | with_reducible assumption
    | intro _
    | with_reducible apply keepsOut_next
    | with_reducible apply keepsOut_ite
    | with_reducible apply fp3_keeps

theorem execFdiv_keeps {a : State} {v0 v1 v2 v3 v4} (h4 : Keeps a v4) : KeepsOut a (execFdiv v0 v1 v2 v3 v4) := by
  unfold execFdiv
  repeat' first
    | with_reducible assumption
    | intro _
    | with_reducible apply keepsOut_next
    | with_reducible apply keepsOut_ite
    | with_reducible apply fp3_keeps

theorem execFmin_keeps {a : State} {v0 v1 v2 v3 v4} (h4 : Keeps a v4) : KeepsOut a (execFmin v0 v1 v2 v3 v4) := by
  unfold execFmin
  repeat' first
    | with_reducible assumption
    | intro _
    | with_reducible apply keepsOut_next
    | with_reducible apply keepsOut_ite
    | with_reducible apply fp3_keeps

theorem execFmax_keeps {a : State} {v0 v1 v2 v3 v4} (h4 : Keeps a v4) : KeepsOut a (execFmax v0 v1 v2 v3 v4) := by
  unfold execFmax
  repeat' first
    | with_reducible assumption
    | intro _
    | with_reducible apply keepsOut_next
    | with_reducible apply keepsOut_ite
    | with_reducible apply fp3_keeps

theorem execFsqrt_keeps {a : State} {v0 v1 v2 v3} (h3 : Keeps a v3) : KeepsOut a (execFsqrt v0 v1 v2 v3) := by
  unfold execFsqrt
  repeat' first
    | with_reducible assumption
    | intro _
    | with_reducible apply keepsOut_next
    | with_reducible apply keepsOut_ite
    | with_reducible apply fp2_keeps

theorem execFabs_keeps {a : State} {v0 v1 v2 v3} (h3 : Keeps a v3) : KeepsOut a (execFabs v0 v1 v2 v3) := by
  unfold execFabs
  repeat' first
    | with_reducible assumption
    | intro _
    | with_reducible apply keepsOut_next
    | with_reducible apply keepsOut_ite
    | with_reducible apply fp2_keeps

theorem execFneg_keeps {a : State} {v0 v1 v2 v3} (h3 : Keeps a v3) : KeepsOut a (execFneg v0 v1 v2 v3) := by
  unfold execFneg
  repeat' first
    | with_reducible assumption
    | intro _
    | with_reducible apply keepsOut_next
    | with_reducible apply keepsOut_ite
    | with_reducible apply fp2_keeps

theorem execFcmp_keeps {a : State} {v0 v1 v2 v3} (h3 : Keeps a v3) : KeepsOut a (execFcmp v0 v1 v2 v3) := by
  unfold execFcmp
  repeat' first
    | with_reducible assumption
    | intro _
    | with_reducible apply keepsOut_next
    | with_reducible apply keepsOut_ite
    | with_reducible apply fpOp_keeps

theorem execFcvti_keeps {a : State} {v0 v1 v2 v3} (h3 : Keeps a v3) : KeepsOut a (execFcvti v0 v1 v2 v3) := by
  unfold execFcvti
  repeat' first
    | with_reducible assumption
    | intro _
    | with_reducible apply keepsOut_next
    | with_reducible apply keepsOut_ite
    | with_reducible apply fpInt_keeps

theorem execFcvtl_keeps {a : State} {v0 v1 v2 v3} (h3 : Keeps a v3) : KeepsOut a (execFcvtl v0 v1 v2 v3) := by
  unfold execFcvtl
  repeat' first
    | with_reducible assumption
    | intro _
    | with_reducible apply keepsOut_next
    | with_reducible apply keepsOut_ite
    | with_reducible apply fpInt_keeps

theorem execFtrunc_keeps {a : State} {v0 v1 v2 v3} (h3 : Keeps a v3) : KeepsOut a (execFtrunc v0 v1 v2 v3) := by
  unfold execFtrunc
  repeat' first
    | with_reducible assumption
    | intro _
    | with_reducible apply keepsOut_next
    | with_reducible apply keepsOut_ite
    | with_reducible apply fpInt_keeps

theorem execFcvtf_keeps {a : State} {v0 v1 v2 v3} (h3 : Keeps a v3) : KeepsOut a (execFcvtf v0 v1 v2 v3) := by
  unfold execFcvtf
  repeat' first
    | with_reducible assumption
    | intro _
    | with_reducible apply keepsOut_next
    | with_reducible apply keepsOut_ite
    | with_reducible apply fpOp_keeps

theorem execFcvtlf_keeps {a : State} {v0 v1 v2 v3} (h3 : Keeps a v3) : KeepsOut a (execFcvtlf v0 v1 v2 v3) := by
  unfold execFcvtlf
  repeat' first
    | with_reducible assumption
    | intro _
    | with_reducible apply keepsOut_next
    | with_reducible apply keepsOut_ite
    | with_reducible apply fpOp_keeps

theorem execFcvtp_keeps {a : State} {v0 v1 v2 v3} (h3 : Keeps a v3) : KeepsOut a (execFcvtp v0 v1 v2 v3) := by
  unfold execFcvtp
  repeat' first
    | with_reducible assumption
    | intro _
    | with_reducible apply keepsOut_next
    | with_reducible apply keepsOut_ite
    | with_reducible apply fpOp_keeps

end Sys2Proof.Machine
end

