-- ==== Sys2Proof/Laws/KeepsSeMem.lean ====
section
/-! SUPPORT. What no command does (Laws.Keeps), said of every function of Machine.SeMem. -/

namespace Sys2Proof.Machine

theorem loadAt_keeps {a : State} {v0 v1 v2 v3 v4} (h4 : Keeps a v4) : KeepsRes a (loadAt v0 v1 v2 v3 v4) := by
  unfold loadAt
  repeat' first
    | with_reducible assumption
    | intro _
    | dsimp only
    | with_reducible apply addrCheck_keeps
    | with_reducible apply State.dmRead_keeps
    | with_reducible apply keeps_ite
    | with_reducible apply keeps_ite_snd
    | with_reducible apply keepsRes_next
    | with_reducible apply keepsRes_bad
    | with_reducible apply keepsRes_trap
    | with_reducible apply keepsRes_illegal
    | with_reducible apply keepsRes_stackTrap
    | with_reducible apply keepsRes_ite
    | refine keeps_of_pair (by assumption) ?_
    | refine keeps_of_triple (by assumption) ?_
    | split

theorem storeAt_keeps {a : State} {v0 v1 v2 v3 v4 v5} (h5 : Keeps a v5) : KeepsRes a (storeAt v0 v1 v2 v3 v4 v5) := by
  unfold storeAt
  repeat' first
    | with_reducible assumption
    | intro _
    | with_reducible apply addrCheck_keeps
    | with_reducible apply State.seStore_keeps
    | with_reducible apply keeps_ite
    | with_reducible apply keepsRes_next
    | with_reducible apply keepsRes_bad
    | with_reducible apply keepsRes_trap
    | with_reducible apply keepsRes_illegal
    | with_reducible apply keepsRes_stackTrap
    | with_reducible apply keepsRes_ite

theorem execLdb_keeps {a : State} {v0 v1 v2 v3} (h3 : Keeps a v3) : KeepsOut a (execLdb v0 v1 v2 v3) := by
  unfold execLdb
  repeat' first
    | with_reducible assumption
    | intro _
    | with_reducible apply keepsOut_next
    | with_reducible apply keepsOut_ite
    | with_reducible apply seExec_keeps
    | with_reducible apply loadAt_keeps

theorem execLdbs_keeps {a : State} {v0 v1 v2 v3} (h3 : Keeps a v3) : KeepsOut a (execLdbs v0 v1 v2 v3) := by
  unfold execLdbs
  repeat' first
    | with_reducible assumption
    | intro _
    | with_reducible apply keepsOut_next
    | with_reducible apply keepsOut_ite
    | with_reducible apply seExec_keeps
    | with_reducible apply loadAt_keeps

theorem execLdh_keeps {a : State} {v0 v1 v2 v3} (h3 : Keeps a v3) : KeepsOut a (execLdh v0 v1 v2 v3) := by
  unfold execLdh
  repeat' first
    | with_reducible assumption
    | intro _
    | with_reducible apply keepsOut_next
    | with_reducible apply keepsOut_ite
    | with_reducible apply seExec_keeps
    | with_reducible apply loadAt_keeps

theorem execLdhs_keeps {a : State} {v0 v1 v2 v3} (h3 : Keeps a v3) : KeepsOut a (execLdhs v0 v1 v2 v3) := by
  unfold execLdhs
  repeat' first
    | with_reducible assumption
    | intro _
    | with_reducible apply keepsOut_next
    | with_reducible apply keepsOut_ite
    | with_reducible apply seExec_keeps
    | with_reducible apply loadAt_keeps

theorem execLdw_keeps {a : State} {v0 v1 v2 v3} (h3 : Keeps a v3) : KeepsOut a (execLdw v0 v1 v2 v3) := by
  unfold execLdw
  repeat' first
    | with_reducible assumption
    | intro _
    | with_reducible apply keepsOut_next
    | with_reducible apply keepsOut_ite
    | with_reducible apply seExec_keeps
    | with_reducible apply loadAt_keeps

theorem execLdd_keeps {a : State} {v0 v1 v2 v3} (h3 : Keeps a v3) : KeepsOut a (execLdd v0 v1 v2 v3) := by
  unfold execLdd
  repeat' first
    | with_reducible assumption
    | intro _
    | with_reducible apply keepsOut_next
    | with_reducible apply keepsOut_ite
    | with_reducible apply seExec_keeps
    | with_reducible apply loadAt_keeps

theorem execStb_keeps {a : State} {v0 v1 v2 v3} (h3 : Keeps a v3) : KeepsOut a (execStb v0 v1 v2 v3) := by
  unfold execStb
  repeat' first
    | with_reducible assumption
    | intro _
    | with_reducible apply keepsOut_next
    | with_reducible apply keepsOut_ite
    | with_reducible apply seExec_keeps
    | with_reducible apply storeAt_keeps

theorem execSth_keeps {a : State} {v0 v1 v2 v3} (h3 : Keeps a v3) : KeepsOut a (execSth v0 v1 v2 v3) := by
  unfold execSth
  repeat' first
    | with_reducible assumption
    | intro _
    | with_reducible apply keepsOut_next
    | with_reducible apply keepsOut_ite
    | with_reducible apply seExec_keeps
    | with_reducible apply storeAt_keeps

theorem execStw_keeps {a : State} {v0 v1 v2 v3} (h3 : Keeps a v3) : KeepsOut a (execStw v0 v1 v2 v3) := by
  unfold execStw
  repeat' first
    | with_reducible assumption
    | intro _
    | with_reducible apply keepsOut_next
    | with_reducible apply keepsOut_ite
    | with_reducible apply seExec_keeps
    | with_reducible apply storeAt_keeps

theorem execStd_keeps {a : State} {v0 v1 v2 v3} (h3 : Keeps a v3) : KeepsOut a (execStd v0 v1 v2 v3) := by
  unfold execStd
  repeat' first
    | with_reducible assumption
    | intro _
    | with_reducible apply keepsOut_next
    | with_reducible apply keepsOut_ite
    | with_reducible apply seExec_keeps
    | with_reducible apply storeAt_keeps

theorem execLdx_keeps {a : State} {v0 v1 v2 v3} (h3 : Keeps a v3) : KeepsOut a (execLdx v0 v1 v2 v3) := by
  unfold execLdx
  repeat' first
    | with_reducible assumption
    | intro _
    | with_reducible apply keepsOut_next
    | with_reducible apply keepsOut_ite
    | with_reducible apply seExec_keeps
    | with_reducible apply loadAt_keeps
    | with_reducible apply keepsRes_next
    | with_reducible apply keepsRes_bad
    | with_reducible apply keepsRes_trap
    | with_reducible apply keepsRes_illegal
    | with_reducible apply keepsRes_stackTrap
    | split

theorem execStx_keeps {a : State} {v0 v1 v2 v3} (h3 : Keeps a v3) : KeepsOut a (execStx v0 v1 v2 v3) := by
  unfold execStx
  repeat' first
    | with_reducible assumption
    | intro _
    | with_reducible apply keepsOut_next
    | with_reducible apply keepsOut_ite
    | with_reducible apply seExec_keeps
    | with_reducible apply storeAt_keeps
    | with_reducible apply keepsRes_next
    | with_reducible apply keepsRes_bad
    | with_reducible apply keepsRes_trap
    | with_reducible apply keepsRes_illegal
    | with_reducible apply keepsRes_stackTrap
    | split

theorem runCheck_keeps {a : State} {v0 v1 v2} (h2 : KeepsRes a v2) : KeepsRes a (runCheck v0 v1 v2) := by
  unfold runCheck
  repeat' first
    | with_reducible assumption
    | intro _
    | with_reducible apply State.trap_keeps
    | with_reducible apply keepsRes_next
    | with_reducible apply keepsRes_bad
    | with_reducible apply keepsRes_trap
    | with_reducible apply keepsRes_illegal
    | with_reducible apply keepsRes_stackTrap
    | split

theorem blkOp_keeps {a : State} {v0 v1 v2 v3 v4 v5 v6} (h6 : Keeps a v6) : KeepsRes a (blkOp v0 v1 v2 v3 v4 v5 v6) := by
  unfold blkOp
  repeat' first
    | with_reducible assumption
    | intro _
    | dsimp only
    | with_reducible apply State.dmRead_keeps
    | with_reducible apply State.seStore_keeps
    | with_reducible apply keeps_ite
    | with_reducible apply keeps_ite_snd
    | with_reducible apply keepsRes_next
    | with_reducible apply keepsRes_bad
    | with_reducible apply keepsRes_trap
    | with_reducible apply keepsRes_illegal
    | with_reducible apply keepsRes_stackTrap
    | with_reducible apply keepsRes_ite
    | with_reducible apply keeps_id
    | refine keeps_of_pair (by assumption) ?_
    | refine keeps_of_triple (by assumption) ?_
    | split

theorem execMovb_keeps {a : State} {v0 v1 v2 v3} (h3 : Keeps a v3) : KeepsOut a (execMovb v0 v1 v2 v3) := by
  unfold execMovb
  repeat' first
    | with_reducible assumption
    | intro _
    | with_reducible apply keepsOut_next
    | with_reducible apply keepsOut_ite
    | with_reducible apply seExec_keeps
    | with_reducible apply runCheck_keeps
    | with_reducible apply blkOp_keeps

theorem execFillb_keeps {a : State} {v0 v1 v2 v3} (h3 : Keeps a v3) : KeepsOut a (execFillb v0 v1 v2 v3) := by
  unfold execFillb
  repeat' first
    | with_reducible assumption
    | intro _
    | with_reducible apply keepsOut_next
    | with_reducible apply keepsOut_ite
    | with_reducible apply seExec_keeps
    | with_reducible apply runCheck_keeps
    | with_reducible apply blkOp_keeps

end Sys2Proof.Machine
end

