-- ==== Sys2Proof/Laws/KeepsFbp.lean ====
section
/-! SUPPORT. What no command does (Laws.Keeps), said of every function of Machine.Fbp. -/

namespace Sys2Proof.Machine

theorem State.fbpEv_keeps {a : State} {v0 v1 v2} (h0 : Keeps a v0) : Keeps a (State.fbpEv v0 v1 v2) := by
  unfold State.fbpEv
  repeat' first
    | with_reducible assumption
    | intro _
    | with_reducible apply State.ev_keeps

theorem State.fbpBufEv_keeps {a : State} {v0 v1 v2 v3} (h0 : Keeps a v0) : Keeps a (State.fbpBufEv v0 v1 v2 v3) := by
  unfold State.fbpBufEv
  repeat' first
    | with_reducible assumption
    | intro _
    | with_reducible apply State.ev_keeps

theorem State.setTxf_keeps {a : State} {v0 v1 v2 v3} (h0 : Keeps a v0) : Keeps a (State.setTxf v0 v1 v2 v3) := by
  unfold State.setTxf
  repeat' first
    | with_reducible assumption
    | intro _
    | with_reducible apply State.onPort_keeps
    | with_reducible apply State.setFld_keeps
    | with_reducible apply keeps_ite

theorem State.placeTx_keeps {a : State} {v0 v1 v2 v3} (h0 : Keeps a v0) : Keeps a (State.placeTx v0 v1 v2 v3) := by
  unfold State.placeTx
  repeat' first
    | with_reducible assumption
    | intro _
    | with_reducible apply State.setTxf_keeps
    | with_reducible apply State.setFld_keeps
    | with_reducible apply keeps_ite

theorem State.sendNotice_keeps {a : State} {v0 v1 v2 v3} (h0 : Keeps a v0) : Keeps a (State.sendNotice v0 v1 v2 v3) := by
  unfold State.sendNotice
  repeat' first
    | with_reducible assumption
    | intro _
    | with_reducible apply State.notice_keeps
    | split

theorem State.finishTx_keeps {a : State} {v0 v1 v2 v3} (h0 : Keeps a v0) : Keeps a (State.finishTx v0 v1 v2 v3) := by
  unfold State.finishTx
  repeat' first
    | with_reducible assumption
    | intro _
    | with_reducible apply State.setTxf_keeps
    | with_reducible apply State.setFld_keeps
    | with_reducible apply State.onPort_keeps
    | with_reducible apply State.sendNotice_keeps
    | with_reducible apply State.placeTx_keeps
    | with_reducible apply keeps_ite
    | with_reducible apply keeps_when

theorem State.staleTx_keeps {a : State} {v0 v1 v2} (h0 : Keeps a v0) : Keeps a (State.staleTx v0 v1 v2) := by
  unfold State.staleTx
  repeat' first
    | with_reducible assumption
    | intro _
    | with_reducible apply State.fbpBufEv_keeps
    | with_reducible apply State.inc_keeps
    | with_reducible apply State.finishTx_keeps

theorem State.failTx_keeps {a : State} {v0 v1 v2 v3} (h0 : Keeps a v0) : Keeps a (State.failTx v0 v1 v2 v3) := by
  unfold State.failTx
  repeat' first
    | with_reducible assumption
    | intro _
    | with_reducible apply State.fbpBufEv_keeps
    | with_reducible apply State.inc_keeps
    | with_reducible apply State.finishTx_keeps

theorem State.seqTaken_keeps {a : State} {v0 v1 v2} (h0 : Keeps a v0) : Keeps a (State.seqTaken v0 v1 v2) := by
  unfold State.seqTaken
  repeat' first
    | with_reducible assumption
    | intro _
    | with_reducible apply State.setFld_keeps
    | with_reducible apply keeps_id
    | split

theorem State.twinHeader_keeps {a : State} {v0 v1 v2} (h0 : Keeps a v0) : Keeps a (State.twinHeader v0 v1 v2).2 := by
  unfold State.twinHeader
  repeat' first
    | with_reducible assumption
    | intro _
    | dsimp only
    | with_reducible apply State.seqTaken_keeps

theorem State.txSource_keeps {a : State} {v0 v1 v2 v3 v4} (h0 : Keeps a v0) : Keeps a (State.txSource v0 v1 v2 v3 v4).2 := by
  unfold State.txSource
  repeat' first
    | with_reducible assumption
    | intro _
    | dsimp only
    | with_reducible apply State.dmRead_keeps
    | with_reducible apply keeps_ite
    | with_reducible apply keeps_ite_snd

theorem State.bufTaken_keeps {a : State} {v0 v1 v2} (h0 : Keeps a v0) : Keeps a (State.bufTaken v0 v1 v2) := by
  unfold State.bufTaken
  repeat' first
    | with_reducible assumption
    | intro _
    | with_reducible apply State.seqTaken_keeps
    | with_reducible apply keeps_when

theorem State.takeTx_keeps {a : State} {v0 v1 v2} (h0 : Keeps a v0) : Keeps a (State.takeTx v0 v1 v2).2 := by
  unfold State.takeTx
  repeat' first
    | with_reducible assumption
    | intro _
    | dsimp only
    | with_reducible apply State.txSource_keeps
    | with_reducible apply State.bufTaken_keeps
    | with_reducible apply keeps_ite
    | with_reducible apply keeps_ite_snd
    | with_reducible apply keeps_id
    | refine keeps_of_pair (by assumption) ?_
    | refine keeps_of_triple (by assumption) ?_
    | split

theorem State.loadTx_keeps {a : State} {v0 v1 v2 v3} (h0 : Keeps a v0) : Keeps a (State.loadTx v0 v1 v2 v3) := by
  unfold State.loadTx
  repeat' first
    | with_reducible assumption
    | intro _
    | with_reducible apply State.placeTx_keeps
    | with_reducible apply State.staleTx_keeps
    | with_reducible apply State.onPort_keeps
    | split

theorem State.loadFail_keeps {a : State} {v0 v1 v2} (h0 : Keeps a v0) : Keeps a (State.loadFail v0 v1 v2) := by
  unfold State.loadFail
  repeat' first
    | with_reducible assumption
    | intro _
    | with_reducible apply State.bufTaken_keeps
    | with_reducible apply State.staleTx_keeps
    | with_reducible apply State.fbpBufEv_keeps
    | with_reducible apply State.inc_keeps
    | with_reducible apply State.setFld_keeps
    | with_reducible apply keeps_when

theorem State.loadBuf_keeps {a : State} {v0 v1 v2 v3 v4} (h0 : Keeps a v0) : Keeps a (State.loadBuf v0 v1 v2 v3 v4) := by
  unfold State.loadBuf
  repeat' first
    | with_reducible assumption
    | intro _
    | dsimp only
    | with_reducible apply State.bufTaken_keeps
    | with_reducible apply State.takeTx_keeps
    | with_reducible apply State.loadTx_keeps
    | with_reducible apply State.loadFail_keeps
    | with_reducible apply keeps_ite
    | with_reducible apply keeps_ite_snd
    | refine keeps_of_pair (by assumption) ?_
    | refine keeps_of_triple (by assumption) ?_
    | split

theorem State.loadUnread_keeps {a : State} {v0 v1 v2 v3} (h0 : Keeps a v0) : Keeps a (State.loadUnread v0 v1 v2 v3) := by
  unfold State.loadUnread
  repeat' first
    | with_reducible assumption
    | intro _
    | with_reducible apply State.loadFail_keeps
    | with_reducible apply State.ev_keeps
    | with_reducible apply State.miuErr_keeps

theorem State.refMessage_keeps {a : State} {v0 v1 v2} (h0 : Keeps a v0) : Keeps a (State.refMessage v0 v1 v2).2 := by
  unfold State.refMessage
  repeat' first
    | with_reducible assumption
    | intro _
    | dsimp only
    | with_reducible apply State.twinHeader_keeps
    | with_reducible apply State.onPort_keeps

theorem execLoadInstant_keeps {a : State} {v0 v1 v2 v3 v4} (h4 : Keeps a v4) : KeepsOut a (execLoadInstant v0 v1 v2 v3 v4) := by
  unfold execLoadInstant
  repeat' first
    | with_reducible assumption
    | intro _
    | dsimp only
    | with_reducible apply keepsOut_next
    | with_reducible apply keepsOut_ite
    | with_reducible apply State.at_keeps
    | with_reducible apply State.refMessage_keeps
    | with_reducible apply State.loadTx_keeps
    | with_reducible apply State.loadUnread_keeps
    | with_reducible apply State.loadBuf_keeps
    | with_reducible apply State.start_keeps
    | with_reducible apply keeps_ite
    | with_reducible apply keeps_ite_snd
    | refine keeps_of_pair (by assumption) ?_
    | refine keeps_of_triple (by assumption) ?_
    | split

theorem State.tdcMeasure_keeps {a : State} {v0 v1 v2} (h0 : Keeps a v0) : Keeps a (State.tdcMeasure v0 v1 v2) := by
  unfold State.tdcMeasure
  repeat' first
    | with_reducible assumption
    | intro _
    | dsimp only
    | with_reducible apply State.free_keeps
    | with_reducible apply State.setFld_keeps
    | with_reducible apply State.fbpEv_keeps
    | with_reducible apply State.setBit_keeps
    | with_reducible apply keeps_ite

theorem execFrameStart_keeps {a : State} {v0 v1 v2 v3} (h3 : Keeps a v3) : KeepsOut a (execFrameStart v0 v1 v2 v3) := by
  unfold execFrameStart
  repeat' first
    | with_reducible assumption
    | intro _
    | with_reducible apply keepsOut_next
    | with_reducible apply keepsOut_ite
    | with_reducible apply State.idleForced_keeps
    | with_reducible apply State.at_keeps
    | with_reducible apply State.setTxf_keeps
    | with_reducible apply State.setFld_keeps
    | with_reducible apply State.onPort_keeps
    | with_reducible apply keeps_ite
    | with_reducible apply keeps_when

theorem State.setErrc_keeps {a : State} {v0 v1 v2 v3} (h0 : Keeps a v0) : Keeps a (State.setErrc v0 v1 v2 v3) := by
  unfold State.setErrc
  repeat' first
    | with_reducible assumption
    | intro _
    | with_reducible apply State.setFld_keeps

theorem State.startRecovery_keeps {a : State} {v0 v1} (h0 : Keeps a v0) : Keeps a (State.startRecovery v0 v1) := by
  unfold State.startRecovery
  repeat' first
    | with_reducible assumption
    | intro _
    | with_reducible apply State.setFld_keeps
    | with_reducible apply State.setBit_keeps
    | with_reducible apply keeps_ite

theorem State.errUpdate_keeps {a : State} {v0 v1} (h0 : Keeps a v0) : Keeps a (State.errUpdate v0 v1) := by
  unfold State.errUpdate
  repeat' first
    | with_reducible assumption
    | intro _
    | with_reducible apply State.putSummary_keeps
    | with_reducible apply State.fbpEv_keeps
    | with_reducible apply State.inc_keeps
    | with_reducible apply State.setFld_keeps
    | with_reducible apply State.onPort_keeps
    | with_reducible apply State.startRecovery_keeps
    | with_reducible apply keeps_ite
    | with_reducible apply keeps_when

theorem State.recOk_keeps {a : State} {v0 v1} (h0 : Keeps a v0) : Keeps a (State.recOk v0 v1) := by
  unfold State.recOk
  repeat' first
    | with_reducible assumption
    | intro _
    | with_reducible apply State.errUpdate_keeps
    | with_reducible apply State.setErrc_keeps
    | with_reducible apply keeps_ite

theorem State.attemptError_keeps {a : State} {v0 v1} (h0 : Keeps a v0) : Keeps a (State.attemptError v0 v1) := by
  unfold State.attemptError
  repeat' first
    | with_reducible assumption
    | intro _
    | with_reducible apply State.onPort_keeps
    | with_reducible apply State.failTx_keeps
    | with_reducible apply State.finishTx_keeps
    | with_reducible apply State.setTxf_keeps
    | with_reducible apply keeps_ite
    | dsimp only
    | split

theorem State.tdcAtError_keeps {a : State} {v0 v1 v2} (h0 : Keeps a v0) : Keeps a (State.tdcAtError v0 v1 v2) := by
  unfold State.tdcAtError
  repeat' first
    | with_reducible assumption
    | intro _
    | dsimp only
    | with_reducible apply State.tdcMeasure_keeps
    | with_reducible apply State.free_keeps
    | with_reducible apply keeps_ite
    | with_reducible apply keeps_ite_snd
    | with_reducible apply keeps_when
    | refine keeps_of_pair (by assumption) ?_
    | refine keeps_of_triple (by assumption) ?_
    | split

theorem execBusError_keeps {a : State} {v0 v1 v2 v3} (h3 : Keeps a v3) : KeepsOut a (execBusError v0 v1 v2 v3) := by
  unfold execBusError
  repeat' first
    | with_reducible assumption
    | intro _
    | with_reducible apply keepsOut_next
    | with_reducible apply keepsOut_ite
    | with_reducible apply State.at_keeps
    | with_reducible apply State.setFld_keeps
    | with_reducible apply State.frameEnd_keeps
    | with_reducible apply State.attemptError_keeps
    | with_reducible apply State.tdcAtError_keeps
    | with_reducible apply State.onPort_keeps
    | with_reducible apply State.errUpdate_keeps
    | with_reducible apply State.setErrc_keeps
    | with_reducible apply keeps_ite
    | with_reducible apply keeps_when

theorem execArbitrationLost_keeps {a : State} {v0 v1} (h1 : Keeps a v1) : KeepsOut a (execArbitrationLost v0 v1) := by
  unfold execArbitrationLost
  repeat' first
    | with_reducible assumption
    | intro _
    | with_reducible apply keepsOut_next
    | with_reducible apply keepsOut_ite
    | with_reducible apply State.onPort_keeps
    | with_reducible apply State.finishTx_keeps
    | with_reducible apply State.staleTx_keeps
    | with_reducible apply State.setTxf_keeps
    | with_reducible apply keeps_ite
    | dsimp only
    | split

theorem State.deliver_keeps {a : State} {v0 v1 v2 v3} (h0 : Keeps a v0) : Keeps a (State.deliver v0 v1 v2 v3) := by
  unfold State.deliver
  repeat' first
    | with_reducible assumption
    | intro _
    | with_reducible apply State.inc_keeps
    | with_reducible apply State.onPort_keeps
    | with_reducible apply State.qFrameOrWait_keeps
    | dsimp only
    | split

theorem execFrameReceived_keeps {a : State} {v0 v1 v2 v3} (h3 : Keeps a v3) : KeepsOut a (execFrameReceived v0 v1 v2 v3) := by
  unfold execFrameReceived
  repeat' first
    | with_reducible assumption
    | intro _
    | with_reducible apply keepsOut_next
    | with_reducible apply keepsOut_ite
    | with_reducible apply State.frameEnd_keeps
    | with_reducible apply State.at_keeps
    | with_reducible apply State.fbpEv_keeps
    | with_reducible apply State.inc_keeps
    | with_reducible apply State.setBit_keeps
    | with_reducible apply State.setFld_keeps
    | with_reducible apply State.errUpdate_keeps
    | with_reducible apply State.setErrc_keeps
    | with_reducible apply State.onPort_keeps
    | with_reducible apply State.recOk_keeps
    | with_reducible apply State.deliver_keeps
    | with_reducible apply keeps_ite
    | with_reducible apply keeps_when

theorem execFrameSent_keeps {a : State} {v0 v1 v2} (h2 : Keeps a v2) : KeepsOut a (execFrameSent v0 v1 v2) := by
  unfold execFrameSent
  repeat' first
    | with_reducible assumption
    | intro _
    | with_reducible apply keepsOut_next
    | with_reducible apply keepsOut_ite
    | with_reducible apply State.at_keeps
    | with_reducible apply State.tdcMeasure_keeps
    | with_reducible apply State.finishTx_keeps
    | with_reducible apply State.inc_keeps
    | with_reducible apply State.errUpdate_keeps
    | with_reducible apply State.setErrc_keeps
    | with_reducible apply State.onPort_keeps
    | with_reducible apply State.deliver_keeps
    | with_reducible apply State.frameEnd_keeps
    | with_reducible apply keeps_ite
    | with_reducible apply keeps_when
    | dsimp only
    | split

theorem execSuspendEnd_keeps {a : State} {v0 v1} (h1 : Keeps a v1) : KeepsOut a (execSuspendEnd v0 v1) := by
  unfold execSuspendEnd
  repeat' first
    | with_reducible assumption
    | intro _
    | with_reducible apply keepsOut_next
    | with_reducible apply keepsOut_ite
    | with_reducible apply State.onPort_keeps
    | with_reducible apply keeps_ite

theorem State.recoverySeq_keeps {a : State} {v0 v1} (h0 : Keeps a v0) : Keeps a (State.recoverySeq v0 v1) := by
  unfold State.recoverySeq
  repeat' first
    | with_reducible assumption
    | intro _
    | with_reducible apply State.setFld_keeps
    | with_reducible apply keeps_ite

theorem execIntegrationEnd_keeps {a : State} {v0 v1} (h1 : Keeps a v1) : KeepsOut a (execIntegrationEnd v0 v1) := by
  unfold execIntegrationEnd
  repeat' first
    | with_reducible assumption
    | intro _
    | with_reducible apply keepsOut_next
    | with_reducible apply keepsOut_ite
    | with_reducible apply State.recoverySeq_keeps
    | with_reducible apply State.onPort_keeps
    | with_reducible apply State.setBit_keeps
    | with_reducible apply keeps_ite

theorem execBusoffRecoveryEnd_keeps {a : State} {v0 v1} (h1 : Keeps a v1) : KeepsOut a (execBusoffRecoveryEnd v0 v1) := by
  unfold execBusoffRecoveryEnd
  repeat' first
    | with_reducible assumption
    | intro _
    | with_reducible apply keepsOut_next
    | with_reducible apply keepsOut_ite
    | with_reducible apply State.setFld_keeps
    | with_reducible apply State.setErrc_keeps
    | with_reducible apply State.putSummary_keeps
    | with_reducible apply State.fbpEv_keeps
    | with_reducible apply keeps_ite

theorem execDominantTimeout_keeps {a : State} {v0 v1} (h1 : Keeps a v1) : KeepsOut a (execDominantTimeout v0 v1) := by
  unfold execDominantTimeout
  repeat' first
    | with_reducible assumption
    | intro _
    | with_reducible apply keepsOut_next
    | with_reducible apply keepsOut_ite
    | with_reducible apply State.fbpEv_keeps
    | with_reducible apply State.setBit_keeps
    | with_reducible apply keeps_ite

theorem State.twinBurst_keeps {a : State} {v0 v1 v2} (h0 : Keeps a v0) : Keeps a (State.twinBurst v0 v1 v2).2 := by
  unfold State.twinBurst
  repeat' first
    | with_reducible assumption
    | intro _
    | dsimp only
    | with_reducible apply State.free_keeps
    | with_reducible apply keeps_ite
    | with_reducible apply keeps_ite_snd

theorem execWindowStart_keeps {a : State} {v0 v1 v2 v3} (h3 : Keeps a v3) : KeepsOut a (execWindowStart v0 v1 v2 v3) := by
  unfold execWindowStart
  repeat' first
    | with_reducible assumption
    | intro _
    | dsimp only
    | with_reducible apply keepsOut_next
    | with_reducible apply keepsOut_ite
    | with_reducible apply State.at_keeps
    | with_reducible apply State.onPort_keeps
    | with_reducible apply State.twinBurst_keeps
    | with_reducible apply keeps_ite
    | with_reducible apply keeps_ite_snd
    | refine keeps_of_pair (by assumption) ?_
    | refine keeps_of_triple (by assumption) ?_
    | split

theorem execWindowEnd_keeps {a : State} {v0 v1 v2 v3} (h3 : Keeps a v3) : KeepsOut a (execWindowEnd v0 v1 v2 v3) := by
  unfold execWindowEnd
  repeat' first
    | with_reducible assumption
    | intro _
    | with_reducible apply keepsOut_next
    | with_reducible apply keepsOut_ite
    | with_reducible apply State.at_keeps
    | with_reducible apply State.onPort_keeps
    | with_reducible apply State.staleTx_keeps
    | with_reducible apply keeps_ite
    | with_reducible apply keeps_foldl

theorem State.tdrEnd_keeps {a : State} {v0 v1 v2} (h0 : Keeps a v0) : Keeps a (State.tdrEnd v0 v1 v2) := by
  unfold State.tdrEnd
  repeat' first
    | with_reducible assumption
    | intro _
    | with_reducible apply State.onPort_keeps
    | with_reducible apply State.fbpEv_keeps
    | with_reducible apply State.setFld_keeps
    | with_reducible apply State.notice_keeps
    | with_reducible apply keeps_ite
    | dsimp only
    | split

theorem State.tdrResult_keeps {a : State} {v0 v1 v2} (h0 : Keeps a v0) : Keeps a (State.tdrResult v0 v1 v2) := by
  unfold State.tdrResult
  repeat' first
    | with_reducible assumption
    | intro _
    | with_reducible apply State.wr_keeps
    | with_reducible apply keeps_ite
    | with_reducible apply keeps_foldl

theorem execTdrBurstEnd_keeps {a : State} {v0 v1 v2 v3} (h3 : Keeps a v3) : KeepsOut a (execTdrBurstEnd v0 v1 v2 v3) := by
  unfold execTdrBurstEnd
  repeat' first
    | with_reducible assumption
    | intro _
    | with_reducible apply keepsOut_next
    | with_reducible apply keepsOut_ite
    | with_reducible apply State.onPort_keeps
    | with_reducible apply State.incFld_keeps
    | with_reducible apply State.setFld_keeps
    | with_reducible apply State.tdrEnd_keeps
    | with_reducible apply State.tdrResult_keeps
    | with_reducible apply keeps_ite

theorem execTdrTimeout_keeps {a : State} {v0 v1} (h1 : Keeps a v1) : KeepsOut a (execTdrTimeout v0 v1) := by
  unfold execTdrTimeout
  repeat' first
    | with_reducible assumption
    | intro _
    | with_reducible apply keepsOut_next
    | with_reducible apply keepsOut_ite
    | with_reducible apply State.at_keeps
    | with_reducible apply State.tdrEnd_keeps
    | with_reducible apply keeps_ite
    | dsimp only
    | split

theorem State.txRequest_keeps {a : State} {v0 v1 v2} (h0 : Keeps a v0) : Keeps a (State.txRequest v0 v1 v2) := by
  unfold State.txRequest
  repeat' first
    | with_reducible assumption
    | intro _
    | dsimp only
    | with_reducible apply State.inc_keeps
    | with_reducible apply State.takeTx_keeps
    | with_reducible apply State.placeTx_keeps
    | with_reducible apply keeps_ite
    | with_reducible apply keeps_ite_snd
    | refine keeps_of_pair (by assumption) ?_
    | refine keeps_of_triple (by assumption) ?_
    | split

theorem State.txCancel_keeps {a : State} {v0 v1 v2 v3} (h0 : Keeps a v0) : Keeps a (State.txCancel v0 v1 v2 v3) := by
  unfold State.txCancel
  repeat' first
    | with_reducible assumption
    | intro _
    | with_reducible apply State.finishTx_keeps
    | with_reducible apply State.onPort_keeps
    | split

theorem execFbpnTxreq_keeps {a : State} {v0 v1 v2 v3} (h3 : Keeps a v3) : KeepsOut a (execFbpnTxreq v0 v1 v2 v3) := by
  unfold execFbpnTxreq
  repeat' first
    | with_reducible assumption
    | intro _
    | with_reducible apply keepsOut_next
    | with_reducible apply keepsOut_ite
    | with_reducible apply State.txRequest_keeps
    | with_reducible apply keeps_ite
    | with_reducible apply keeps_foldl

theorem execFbpnTxcan_keeps {a : State} {v0 v1 v2 v3} (h3 : Keeps a v3) : KeepsOut a (execFbpnTxcan v0 v1 v2 v3) := by
  unfold execFbpnTxcan
  repeat' first
    | with_reducible assumption
    | intro _
    | with_reducible apply keepsOut_next
    | with_reducible apply keepsOut_ite
    | with_reducible apply State.txCancel_keeps
    | with_reducible apply keeps_ite
    | with_reducible apply keeps_foldl

theorem execFbpnRecover_keeps {a : State} {v0 v1 v2} (h2 : Keeps a v2) : KeepsOut a (execFbpnRecover v0 v1 v2) := by
  unfold execFbpnRecover
  repeat' first
    | with_reducible assumption
    | intro _
    | with_reducible apply keepsOut_next
    | with_reducible apply keepsOut_ite
    | with_reducible apply State.startRecovery_keeps
    | with_reducible apply keeps_ite

theorem State.fbpClr_keeps {a : State} {v0 v1 v2} (h0 : Keeps a v0) : Keeps a (State.fbpClr v0 v1 v2) := by
  unfold State.fbpClr
  repeat' first
    | with_reducible assumption
    | intro _
    | with_reducible apply State.clearAll_keeps
    | with_reducible apply keeps_when

theorem execFbpnClr_keeps {a : State} {v0 v1 v2} (h2 : Keeps a v2) : KeepsOut a (execFbpnClr v0 v1 v2) := by
  unfold execFbpnClr
  repeat' first
    | with_reducible assumption
    | intro _
    | with_reducible apply keepsOut_next
    | with_reducible apply keepsOut_ite
    | with_reducible apply State.fbpClr_keeps
    | with_reducible apply keeps_ite

theorem cmdFbpStatus_keeps {a : State} {v0 v1 v2} (h2 : Keeps a v2) : Keeps a (cmdFbpStatus v0 v1 v2) := by
  unfold cmdFbpStatus
  repeat' first
    | with_reducible assumption
    | intro _
    | with_reducible apply State.startLen_keeps
    | with_reducible apply State.ok_keeps

theorem cmdFbpRecover_keeps {a : State} {v0 v1 v2} (h2 : Keeps a v2) : Keeps a (cmdFbpRecover v0 v1 v2) := by
  unfold cmdFbpRecover
  repeat' first
    | with_reducible assumption
    | intro _
    | with_reducible apply State.startLen_keeps
    | with_reducible apply State.fail_keeps
    | with_reducible apply State.ok_keeps
    | with_reducible apply State.startRecovery_keeps
    | with_reducible apply keeps_ite

theorem cmdFbpSend_keeps {a : State} {v0 v1 v2} (h2 : Keeps a v2) : Keeps a (cmdFbpSend v0 v1 v2) := by
  unfold cmdFbpSend
  repeat' first
    | with_reducible assumption
    | intro _
    | dsimp only
    | with_reducible apply State.start_keeps
    | with_reducible apply State.fail_keeps
    | with_reducible apply State.inc_keeps
    | with_reducible apply State.twinHeader_keeps
    | with_reducible apply State.placeTx_keeps
    | with_reducible apply State.accept_keeps
    | with_reducible apply keeps_ite
    | with_reducible apply keeps_ite_snd

theorem execFbpSendTimeout_keeps {a : State} {v0 v1 v2} (h2 : Keeps a v2) : KeepsOut a (execFbpSendTimeout v0 v1 v2) := by
  unfold execFbpSendTimeout
  repeat' first
    | with_reducible assumption
    | intro _
    | with_reducible apply keepsOut_next
    | with_reducible apply keepsOut_ite
    | with_reducible apply State.at_keeps
    | with_reducible apply State.sendNotice_keeps
    | with_reducible apply State.onPort_keeps
    | with_reducible apply State.finishTx_keeps
    | with_reducible apply keeps_ite
    | dsimp only
    | split

theorem cmdFbpCancel_keeps {a : State} {v0 v1 v2} (h2 : Keeps a v2) : Keeps a (cmdFbpCancel v0 v1 v2) := by
  unfold cmdFbpCancel
  repeat' first
    | with_reducible assumption
    | intro _
    | with_reducible apply State.startLen_keeps
    | with_reducible apply State.fail_keeps
    | with_reducible apply State.ok_keeps
    | with_reducible apply State.txCancel_keeps
    | with_reducible apply keeps_ite

theorem cmdFbpTdr_keeps {a : State} {v0 v1 v2} (h2 : Keeps a v2) : Keeps a (cmdFbpTdr v0 v1 v2) := by
  unfold cmdFbpTdr
  repeat' first
    | with_reducible assumption
    | intro _
    | with_reducible apply State.startLen_keeps
    | with_reducible apply State.fail_keeps
    | with_reducible apply State.wr_keeps
    | with_reducible apply State.accept_keeps
    | with_reducible apply State.onPort_keeps
    | with_reducible apply keeps_ite

theorem cmdFbpCounters_keeps {a : State} {v0 v1 v2} (h2 : Keeps a v2) : Keeps a (cmdFbpCounters v0 v1 v2) := by
  unfold cmdFbpCounters
  repeat' first
    | with_reducible assumption
    | intro _
    | with_reducible apply State.startLen_keeps
    | with_reducible apply State.fail_keeps
    | with_reducible apply State.ok_keeps
    | with_reducible apply State.clearAll_keeps
    | with_reducible apply keeps_ite
    | with_reducible apply keeps_when

theorem execFbpStatus_keeps {a : State} {v0 v1 v2} (h2 : Keeps a v2) : KeepsOut a (execFbpStatus v0 v1 v2) := by
  unfold execFbpStatus
  repeat' first
    | with_reducible assumption
    | intro _
    | with_reducible apply keepsOut_next
    | with_reducible apply keepsOut_ite
    | with_reducible apply cmdFbpStatus_keeps

theorem execFbpRecover_keeps {a : State} {v0 v1 v2} (h2 : Keeps a v2) : KeepsOut a (execFbpRecover v0 v1 v2) := by
  unfold execFbpRecover
  repeat' first
    | with_reducible assumption
    | intro _
    | with_reducible apply keepsOut_next
    | with_reducible apply keepsOut_ite
    | with_reducible apply cmdFbpRecover_keeps

theorem execFbpSend_keeps {a : State} {v0 v1 v2} (h2 : Keeps a v2) : KeepsOut a (execFbpSend v0 v1 v2) := by
  unfold execFbpSend
  repeat' first
    | with_reducible assumption
    | intro _
    | with_reducible apply keepsOut_next
    | with_reducible apply keepsOut_ite
    | with_reducible apply cmdFbpSend_keeps

theorem execFbpCancel_keeps {a : State} {v0 v1 v2} (h2 : Keeps a v2) : KeepsOut a (execFbpCancel v0 v1 v2) := by
  unfold execFbpCancel
  repeat' first
    | with_reducible assumption
    | intro _
    | with_reducible apply keepsOut_next
    | with_reducible apply keepsOut_ite
    | with_reducible apply cmdFbpCancel_keeps

theorem execFbpTdr_keeps {a : State} {v0 v1 v2} (h2 : Keeps a v2) : KeepsOut a (execFbpTdr v0 v1 v2) := by
  unfold execFbpTdr
  repeat' first
    | with_reducible assumption
    | intro _
    | with_reducible apply keepsOut_next
    | with_reducible apply keepsOut_ite
    | with_reducible apply cmdFbpTdr_keeps

theorem execFbpCounters_keeps {a : State} {v0 v1 v2} (h2 : Keeps a v2) : KeepsOut a (execFbpCounters v0 v1 v2) := by
  unfold execFbpCounters
  repeat' first
    | with_reducible assumption
    | intro _
    | with_reducible apply keepsOut_next
    | with_reducible apply keepsOut_ite
    | with_reducible apply cmdFbpCounters_keeps

end Sys2Proof.Machine
end

