-- ==== Sys2Proof/Laws/KeepsIxe.lean ====
section
/-! SUPPORT. What no command does (Laws.Keeps), said of every function of Machine.Ixe. -/

namespace Sys2Proof.Machine

theorem State.failGroup_keeps {a : State} {v0 v1} (h0 : Keeps a v0) : Keeps a (State.failGroup v0 v1) := by
  unfold State.failGroup
  repeat' first
    | with_reducible assumption
    | exact Nat.le_refl _
    | exact slots_same rfl
    | exact id
    | intro _
    | with_reducible apply State.ev_keeps
    | with_reducible refine keeps_mk ?_ ?_ ?_ ?_ ?_

theorem State.evalGroup_keeps {a : State} {v0 v1} (h0 : Keeps a v0) : Keeps a (State.evalGroup v0 v1) := by
  unfold State.evalGroup
  repeat' first
    | with_reducible assumption
    | exact Nat.le_refl _
    | exact slots_same rfl
    | exact id
    | intro _
    | dsimp only
    | with_reducible apply State.readBytes_keeps
    | with_reducible apply State.failGroup_keeps
    | with_reducible apply keeps_ite
    | with_reducible apply keeps_ite_snd
    | refine keeps_of_pair (by assumption) ?_
    | refine keeps_of_triple (by assumption) ?_
    | split
    | with_reducible refine keeps_mk ?_ ?_ ?_ ?_ ?_

theorem State.nibbleEvents_keeps {a : State} {v0 v1 v2 v3} (h0 : Keeps a v0) : Keeps a (State.nibbleEvents v0 v1 v2 v3) := by
  unfold State.nibbleEvents
  repeat' first
    | with_reducible assumption
    | intro _
    | with_reducible apply State.ev_keeps
    | with_reducible apply keeps_when

theorem State.groupEvent_keeps {a : State} {v0 v1 v2 v3} (h0 : Keeps a v0) : Keeps a (State.groupEvent v0 v1 v2 v3) := by
  unfold State.groupEvent
  repeat' first
    | with_reducible assumption
    | intro _
    | with_reducible apply State.ev_keeps
    | with_reducible apply keeps_ite

theorem State.putStatus_keeps {a : State} {v0 v1 v2 v3 v4 v5} (h0 : Keeps a v0) : Keeps a (State.putStatus v0 v1 v2 v3 v4 v5) := by
  unfold State.putStatus
  repeat' first
    | with_reducible assumption
    | intro _
    | with_reducible apply State.setFld_keeps
    | with_reducible apply State.evalGroup_keeps
    | with_reducible apply State.nibbleEvents_keeps
    | with_reducible apply State.groupEvent_keeps
    | with_reducible apply State.imgWrite_keeps
    | with_reducible apply keeps_ite
    | with_reducible apply keeps_foldl

theorem State.groupLost_keeps {a : State} {v0 v1} (h0 : Keeps a v0) : Keeps a (State.groupLost v0 v1) := by
  unfold State.groupLost
  repeat' first
    | with_reducible assumption
    | intro _
    | with_reducible apply State.failGroup_keeps
    | with_reducible apply State.imgWrite_keeps
    | with_reducible apply State.groupEvent_keeps
    | with_reducible apply keeps_ite

theorem State.drawStatus_keeps {a : State} {v0} (h0 : Keeps a v0) : Keeps a (State.drawStatus v0) := by
  unfold State.drawStatus
  repeat' first
    | with_reducible assumption
    | intro _
    | with_reducible apply State.imgWrite_keeps
    | with_reducible apply keeps_ite

theorem State.staleClear_keeps {a : State} {v0 v1} (h0 : Keeps a v0) : Keeps a (State.staleClear v0 v1) := by
  unfold State.staleClear
  repeat' first
    | with_reducible assumption
    | intro _
    | with_reducible apply State.wr_keeps
    | with_reducible apply State.setFld_keeps
    | with_reducible apply keeps_foldl

theorem State.ptLapse_keeps {a : State} {v0 v1 v2} (h0 : Keeps a v0) : Keeps a (State.ptLapse v0 v1 v2) := by
  unfold State.ptLapse
  repeat' first
    | with_reducible assumption
    | intro _
    | with_reducible apply State.staleClear_keeps
    | with_reducible apply State.putStatus_keeps
    | with_reducible apply keeps_ite
    | with_reducible apply keeps_when

theorem State.ptFail_keeps {a : State} {v0 v1} (h0 : Keeps a v0) : Keeps a (State.ptFail v0 v1) := by
  unfold State.ptFail
  repeat' first
    | with_reducible assumption
    | intro _
    | with_reducible apply State.ptLapse_keeps
    | with_reducible apply State.ev_keeps
    | with_reducible apply State.setBit_keeps

theorem State.profileFail_keeps {a : State} {v0 v1} (h0 : Keeps a v0) : Keeps a (State.profileFail v0 v1) := by
  unfold State.profileFail
  repeat' first
    | with_reducible assumption
    | intro _
    | with_reducible apply State.ptFail_keeps
    | with_reducible apply keeps_foldl

theorem State.stepFeature_keeps {a v0 t : State} {v1 v2 v3 v4} (h : Keeps a v0)
    (e : State.stepFeature v0 v1 v2 v3 v4 = some t) : Keeps a t := by
  unfold State.stepFeature at e
  have k := State.readBytes_keeps (v1 := MemReader.ixe) (v2 := featAddr v2 v3) (v3 := 64) h
  generalize v0.readBytes MemReader.ixe (featAddr v2 v3) 64 = p at *
  obtain ⟨b, s⟩ := p
  cases b with
  | none => cases e
  | some bs =>
    injection e with e
    exact e ▸ keeps_when (State.writeBytes_keeps k) fun _ k => State.ev_keeps k

theorem State.readFlags_keeps {a v0 t : State} {v1 v2} (h : Keeps a v0) (e : State.readFlags v0 v1 v2 = some t) :
    Keeps a t := by
  unfold State.readFlags at e
  have k := State.readBytes_keeps (v1 := MemReader.ixe) (v2 := featAddr v1 v2 + 8) (v3 := 4) h
  generalize v0.readBytes MemReader.ixe (featAddr v1 v2 + 8) 4 = p at *
  obtain ⟨b, s⟩ := p
  cases b with
  | none => cases e
  | some bs => injection e with e; exact e ▸ k

theorem State.stepFeatures_keeps {a v0 t : State} {v1 v2 v3 v4} (h : Keeps a v0)
    (e : State.stepFeatures v0 v1 v2 v3 v4 = some t) : Keeps a t := by
  induction v4 generalizing v0 with
  | nil => injection e with e; exact e ▸ h
  | cons f fs ih =>
    unfold State.stepFeatures at e
    split at e
    · split at e
      · rename_i e2
        refine ih ?_ e
        split at e2
        · exact State.readFlags_keeps h e2
        · exact State.stepFeature_keeps h e2
      · cases e
    · exact ih h e

theorem State.countGap_keeps {a : State} {v0 v1 v2} (h0 : Keeps a v0) : Keeps a (State.countGap v0 v1 v2) := by
  unfold State.countGap
  repeat' first
    | with_reducible assumption
    | intro _
    | with_reducible apply State.ev_keeps
    | with_reducible apply State.addCnt_keeps
    | with_reducible apply keeps_when

theorem State.rateRoll_keeps {a : State} {v0} (h0 : Keeps a v0) : Keeps a (State.rateRoll v0) := by
  unfold State.rateRoll
  repeat' first
    | with_reducible assumption
    | exact Nat.le_refl _
    | exact slots_same rfl
    | exact id
    | intro _
    | with_reducible apply State.wr_keeps
    | with_reducible apply keeps_ite
    | dsimp only
    | split
    | with_reducible refine keeps_mk ?_ ?_ ?_ ?_ ?_

theorem State.evalRecord_keeps {a v0 : State} {v1 v2 v3} (h : Keeps a v0) : Keeps a (v0.evalRecord v1 v2 v3) := by
  unfold State.evalRecord
  extract_lets last dt prof bin c
  have k := State.readBytes_keeps (v1 := MemReader.ixe) (v2 := Addr.ixeProfile00 prof) (v3 := 256) h
  generalize v0.readBytes MemReader.ixe (Addr.ixeProfile00 prof) 256 = p at *
  obtain ⟨b, s⟩ := p
  cases b with
  | none => exact State.profileFail_keeps k
  | some bs =>
    dsimp only
    split
    · exact State.ptFail_keeps (State.unrebRead_keeps k)
    · rename_i t e
      have k2 := State.stepFeatures_keeps (State.countGap_keeps k) e
      have k3 := State.rateRoll_keeps (keeps_when (b := bin.isNone) (f := fun s => s.inc Addr.ixeNobin)
        (State.inc_keeps (v1 := Addr.ixeRecords) k2) fun _ k => State.inc_keeps k)
      refine keeps_ite (State.setLat_keeps ?_) (State.putStatus_keeps ?_) <;>
      exact keeps_ite (State.ev_keeps (keeps_mk (State.writeBytes_keeps (keeps_mk k3 (Nat.le_refl _) (Nat.le_refl _)
        (slots_same rfl) id)) (Nat.le_refl _) (Nat.le_refl _) (slots_same rfl) id)) (State.writeBytes_keeps
        (keeps_mk k3 (Nat.le_refl _) (Nat.le_refl _) (slots_same rfl) id))

theorem State.takeRecord_keeps {a : State} {v0 v1} (h0 : Keeps a v0) : Keeps a (State.takeRecord v0 v1) := by
  unfold State.takeRecord
  repeat' first
    | with_reducible assumption
    | intro _
    | dsimp only
    | with_reducible apply State.inc_keeps
    | with_reducible apply State.readBytes_keeps
    | with_reducible apply State.ptFail_keeps
    | with_reducible apply State.ev_keeps
    | with_reducible apply State.evalRecord_keeps
    | with_reducible apply keeps_ite
    | with_reducible apply keeps_ite_snd
    | refine keeps_of_pair (by assumption) ?_
    | refine keeps_of_triple (by assumption) ?_
    | split

theorem State.ixePush_keeps {a : State} {v0 v1} (h0 : Keeps a v0) : Keeps a (State.ixePush v0 v1) := by
  unfold State.ixePush
  repeat' first
    | with_reducible assumption
    | exact Nat.le_refl _
    | exact slots_same rfl
    | exact id
    | intro _
    | with_reducible apply State.setFld_keeps
    | dsimp only
    | with_reducible refine keeps_mk ?_ ?_ ?_ ?_ ?_

theorem execIxeRecord_keeps {a : State} {v0 v1} (h1 : Keeps a v1) : KeepsOut a (execIxeRecord v0 v1) := by
  unfold execIxeRecord
  repeat' first
    | with_reducible assumption
    | exact Nat.le_refl _
    | exact slots_same rfl
    | exact id
    | intro _
    | with_reducible apply keepsOut_next
    | with_reducible apply keepsOut_ite
    | with_reducible apply State.at_keeps
    | with_reducible apply State.takeRecord_keeps
    | dsimp only
    | split
    | with_reducible refine keeps_mk ?_ ?_ ?_ ?_ ?_

theorem execIxeTimeoutCheck_keeps {a : State} {v0 v1} (h1 : Keeps a v1) : KeepsOut a (execIxeTimeoutCheck v0 v1) := by
  unfold execIxeTimeoutCheck
  repeat' first
    | with_reducible assumption
    | exact Nat.le_refl _
    | exact slots_same rfl
    | exact id
    | intro _
    | with_reducible apply keepsOut_next
    | with_reducible apply keepsOut_ite
    | with_reducible apply State.at_keeps
    | with_reducible apply State.ptLapse_keeps
    | with_reducible apply State.ev_keeps
    | with_reducible apply keeps_ite
    | with_reducible apply keeps_foldl
    | dsimp only
    | split
    | with_reducible refine keeps_mk ?_ ?_ ?_ ?_ ?_

theorem State.ixeApply_keeps {a : State} {v0 v1} (h0 : Keeps a v0) : Keeps a (State.ixeApply v0 v1) := by
  unfold State.ixeApply
  repeat' first
    | with_reducible assumption
    | exact Nat.le_refl _
    | exact slots_same rfl
    | exact id
    | intro _
    | with_reducible apply State.setBit_keeps
    | with_reducible apply State.putStatus_keeps
    | with_reducible apply State.ptFail_keeps
    | with_reducible apply State.unrebRead_keeps
    | with_reducible apply keeps_ite
    | with_reducible apply keeps_foldl
    | dsimp only
    | split
    | with_reducible refine keeps_mk ?_ ?_ ?_ ?_ ?_

theorem State.ixeClr_keeps {a : State} {v0 v1} (h0 : Keeps a v0) : Keeps a (State.ixeClr v0 v1) := by
  unfold State.ixeClr
  repeat' first
    | with_reducible assumption
    | intro _
    | with_reducible apply State.setFld_keeps
    | with_reducible apply State.clearAll_keeps
    | with_reducible apply keeps_when

theorem execIxeClr_keeps {a : State} {v0 v1} (h1 : Keeps a v1) : KeepsOut a (execIxeClr v0 v1) := by
  unfold execIxeClr
  repeat' first
    | with_reducible assumption
    | intro _
    | with_reducible apply keepsOut_next
    | with_reducible apply keepsOut_ite
    | with_reducible apply State.ixeClr_keeps

theorem cmdIxeStatusRead_keeps {a : State} {v0 v1 v2} (h2 : Keeps a v2) : Keeps a (cmdIxeStatusRead v0 v1 v2) := by
  unfold cmdIxeStatusRead
  repeat' first
    | with_reducible assumption
    | intro _
    | with_reducible apply State.startLen_keeps
    | with_reducible apply State.fail_keeps
    | with_reducible apply State.ok_keeps
    | with_reducible apply keeps_ite

theorem cmdIxePointRead_keeps {a : State} {v0 v1 v2} (h2 : Keeps a v2) : Keeps a (cmdIxePointRead v0 v1 v2) := by
  unfold cmdIxePointRead
  repeat' first
    | with_reducible assumption
    | intro _
    | dsimp only
    | with_reducible apply State.startLen_keeps
    | with_reducible apply State.fail_keeps
    | with_reducible apply State.readBytes_keeps
    | with_reducible apply State.reply_keeps
    | with_reducible apply State.ok_keeps
    | with_reducible apply keeps_ite
    | with_reducible apply keeps_ite_snd
    | refine keeps_of_pair (by assumption) ?_
    | refine keeps_of_triple (by assumption) ?_
    | split

theorem State.ixePut_keeps {a : State} {v0 v1 v2} (h0 : Keeps a v0) : Keeps a (State.ixePut v0 v1 v2) := by
  unfold State.ixePut
  repeat' first
    | with_reducible assumption
    | intro _
    | with_reducible apply State.writeBytes_keeps

theorem State.ixePutBin_keeps {a : State} {v0 v1 v2 v3 v4 v5 v6} (h0 : Keeps a v0) : Keeps a (State.ixePutBin v0 v1 v2 v3 v4 v5 v6) := by
  unfold State.ixePutBin
  repeat' first
    | with_reducible assumption
    | intro _
    | with_reducible apply State.ixePut_keeps

theorem cmdIxeBaselineReset_keeps {a : State} {v0 v1 v2} (h2 : Keeps a v2) : Keeps a (cmdIxeBaselineReset v0 v1 v2) := by
  unfold cmdIxeBaselineReset
  repeat' first
    | with_reducible assumption
    | intro _
    | with_reducible apply State.startLen_keeps
    | with_reducible apply State.fail_keeps
    | with_reducible apply State.ok_keeps
    | with_reducible apply State.ixePutBin_keeps
    | with_reducible apply keeps_ite
    | with_reducible apply keeps_foldl

theorem cmdIxeBaselineLoad_keeps {a : State} {v0 v1 v2} (h2 : Keeps a v2) : Keeps a (cmdIxeBaselineLoad v0 v1 v2) := by
  unfold cmdIxeBaselineLoad
  repeat' first
    | with_reducible assumption
    | intro _
    | with_reducible apply State.startLen_keeps
    | with_reducible apply State.fail_keeps
    | with_reducible apply State.ok_keeps
    | with_reducible apply State.ixePutBin_keeps
    | with_reducible apply keeps_ite

theorem cmdIxeStateClear_keeps {a : State} {v0 v1 v2} (h2 : Keeps a v2) : Keeps a (cmdIxeStateClear v0 v1 v2) := by
  unfold cmdIxeStateClear
  repeat' first
    | with_reducible assumption
    | intro _
    | with_reducible apply State.startLen_keeps
    | with_reducible apply State.fail_keeps
    | with_reducible apply State.ok_keeps
    | with_reducible apply State.writeBytes_keeps
    | with_reducible apply keeps_ite
    | with_reducible apply keeps_foldl

theorem cmdIxeCounters_keeps {a : State} {v0 v1 v2} (h2 : Keeps a v2) : Keeps a (cmdIxeCounters v0 v1 v2) := by
  unfold cmdIxeCounters
  repeat' first
    | with_reducible assumption
    | intro _
    | with_reducible apply State.startLen_keeps
    | with_reducible apply State.ok_keeps
    | with_reducible apply State.clearAll_keeps
    | with_reducible apply keeps_when

theorem execIxeStatusRead_keeps {a : State} {v0 v1 v2} (h2 : Keeps a v2) : KeepsOut a (execIxeStatusRead v0 v1 v2) := by
  unfold execIxeStatusRead
  repeat' first
    | with_reducible assumption
    | intro _
    | with_reducible apply keepsOut_next
    | with_reducible apply keepsOut_ite
    | with_reducible apply cmdIxeStatusRead_keeps

theorem execIxePointRead_keeps {a : State} {v0 v1 v2} (h2 : Keeps a v2) : KeepsOut a (execIxePointRead v0 v1 v2) := by
  unfold execIxePointRead
  repeat' first
    | with_reducible assumption
    | intro _
    | with_reducible apply keepsOut_next
    | with_reducible apply keepsOut_ite
    | with_reducible apply cmdIxePointRead_keeps

theorem execIxeBaselineReset_keeps {a : State} {v0 v1 v2} (h2 : Keeps a v2) : KeepsOut a (execIxeBaselineReset v0 v1 v2) := by
  unfold execIxeBaselineReset
  repeat' first
    | with_reducible assumption
    | intro _
    | with_reducible apply keepsOut_next
    | with_reducible apply keepsOut_ite
    | with_reducible apply cmdIxeBaselineReset_keeps

theorem execIxeBaselineLoad_keeps {a : State} {v0 v1 v2} (h2 : Keeps a v2) : KeepsOut a (execIxeBaselineLoad v0 v1 v2) := by
  unfold execIxeBaselineLoad
  repeat' first
    | with_reducible assumption
    | intro _
    | with_reducible apply keepsOut_next
    | with_reducible apply keepsOut_ite
    | with_reducible apply cmdIxeBaselineLoad_keeps

theorem execIxeStateClear_keeps {a : State} {v0 v1 v2} (h2 : Keeps a v2) : KeepsOut a (execIxeStateClear v0 v1 v2) := by
  unfold execIxeStateClear
  repeat' first
    | with_reducible assumption
    | intro _
    | with_reducible apply keepsOut_next
    | with_reducible apply keepsOut_ite
    | with_reducible apply cmdIxeStateClear_keeps

theorem execIxeCounters_keeps {a : State} {v0 v1 v2} (h2 : Keeps a v2) : KeepsOut a (execIxeCounters v0 v1 v2) := by
  unfold execIxeCounters
  repeat' first
    | with_reducible assumption
    | intro _
    | with_reducible apply keepsOut_next
    | with_reducible apply keepsOut_ite
    | with_reducible apply cmdIxeCounters_keeps

end Sys2Proof.Machine
end

