-- ==== Sys2Proof/Laws/KeepsStn.lean ====
section
/-! SUPPORT. What no command does (Laws.Keeps), said of every function of Machine.Stn. -/

namespace Sys2Proof.Machine

theorem State.setStation_keeps {a : State} {v0 v1 v2} (h0 : Keeps a v0) : Keeps a (State.setStation v0 v1 v2) := by
  unfold State.setStation
  repeat' first
    | with_reducible assumption
    | exact Nat.le_refl _
    | exact slots_same rfl
    | exact id
    | intro _
    | with_reducible refine keeps_mk ?_ ?_ ?_ ?_ ?_

theorem State.onStn_keeps {a : State} {v0 v1 v2} (h0 : Keeps a v0) : Keeps a (State.onStn v0 v1 v2) := by
  unfold State.onStn
  repeat' first
    | with_reducible assumption
    | intro _
    | with_reducible apply State.setStation_keeps

theorem State.stnEv_keeps {a : State} {v0 v1 v2 v3} (h0 : Keeps a v0) : Keeps a (State.stnEv v0 v1 v2 v3) := by
  unfold State.stnEv
  repeat' first
    | with_reducible assumption
    | intro _
    | with_reducible apply State.ev_keeps

theorem State.stnSync_keeps {a : State} {v0 v1} (h0 : Keeps a v0) : Keeps a (State.stnSync v0 v1) := by
  unfold State.stnSync
  repeat' first
    | with_reducible assumption
    | intro _
    | with_reducible apply State.twlSend_keeps
    | with_reducible apply keeps_when

theorem State.stnSet_keeps {a : State} {v0 v1 v2 v3 v4} (h0 : Keeps a v0) : Keeps a (State.stnSet v0 v1 v2 v3 v4) := by
  unfold State.stnSet
  repeat' first
    | with_reducible assumption
    | intro _
    | with_reducible apply State.setFld_keeps
    | with_reducible apply State.onStn_keeps
    | with_reducible apply State.stnSync_keeps
    | with_reducible apply State.imgWrite_keeps
    | with_reducible apply keeps_when

theorem State.stnFrameOut_keeps {a : State} {v0 v1 v2 v3 v4} (h0 : Keeps a v0) : Keeps a (State.stnFrameOut v0 v1 v2 v3 v4) := by
  unfold State.stnFrameOut
  repeat' first
    | with_reducible assumption
    | intro _
    | with_reducible apply State.inc_keeps
    | with_reducible apply State.onPort_keeps
    | with_reducible apply State.placeTx_keeps
    | with_reducible apply keeps_ite
    | with_reducible apply keeps_id
    | dsimp only
    | split

theorem State.mgmtSend_keeps {a : State} {v0 v1 v2} (h0 : Keeps a v0) : Keeps a (State.mgmtSend v0 v1 v2) := by
  unfold State.mgmtSend
  repeat' first
    | with_reducible assumption
    | intro _
    | with_reducible apply State.twlSend_keeps
    | with_reducible apply State.stnFrameOut_keeps
    | with_reducible apply State.seqTaken_keeps
    | with_reducible apply State.onStn_keeps
    | with_reducible apply keeps_when

theorem State.mgmtStart_keeps {a : State} {v0 v1 v2 v3 v4} (h0 : Keeps a v0) : Keeps a (State.mgmtStart v0 v1 v2 v3 v4) := by
  unfold State.mgmtStart
  repeat' first
    | with_reducible assumption
    | intro _
    | with_reducible apply State.onStn_keeps
    | with_reducible apply State.mgmtSend_keeps

theorem State.mgmtNotice_keeps {a : State} {v0 v1 v2 v3 v4} (h0 : Keeps a v0) : Keeps a (State.mgmtNotice v0 v1 v2 v3 v4) := by
  unfold State.mgmtNotice
  repeat' first
    | with_reducible assumption
    | intro _
    | with_reducible apply State.notice_keeps
    | split

theorem State.imgNext_keeps {a : State} {v0 v1} (h0 : Keeps a v0) : Keeps a (State.imgNext v0 v1) := by
  unfold State.imgNext
  repeat' first
    | with_reducible assumption
    | intro _
    | with_reducible apply State.mgmtStart_keeps
    | with_reducible apply keeps_ite
    | split

theorem State.imgEnd_keeps {a : State} {v0 v1 v2} (h0 : Keeps a v0) : Keeps a (State.imgEnd v0 v1 v2) := by
  unfold State.imgEnd
  repeat' first
    | with_reducible assumption
    | exact Nat.le_refl _
    | exact slots_same rfl
    | exact id
    | intro _
    | with_reducible apply State.ev_keeps
    | with_reducible apply State.noticeAll_keeps
    | with_reducible apply State.imgNext_keeps
    | with_reducible apply keeps_ite
    | with_reducible apply keeps_when
    | dsimp only
    | split
    | with_reducible refine keeps_mk ?_ ?_ ?_ ?_ ?_

theorem State.imgLost_keeps {a : State} {v0 v1 v2} (h0 : Keeps a v0) : Keeps a (State.imgLost v0 v1 v2) := by
  unfold State.imgLost
  repeat' first
    | with_reducible assumption
    | intro _
    | with_reducible apply State.imgEnd_keeps
    | split

theorem State.imgStep_keeps {a : State} {v0 v1 v2 v3 v4} (h0 : Keeps a v0) : Keeps a (State.imgStep v0 v1 v2 v3 v4) := by
  unfold State.imgStep
  repeat' first
    | with_reducible assumption
    | exact Nat.le_refl _
    | exact slots_same rfl
    | exact id
    | intro _
    | with_reducible apply State.imgNext_keeps
    | with_reducible apply State.imgEnd_keeps
    | with_reducible apply keeps_ite
    | dsimp only
    | split
    | with_reducible refine keeps_mk ?_ ?_ ?_ ?_ ?_

theorem State.mgmtDrop_keeps {a : State} {v0 v1} (h0 : Keeps a v0) : Keeps a (State.mgmtDrop v0 v1) := by
  unfold State.mgmtDrop
  repeat' first
    | with_reducible assumption
    | intro _
    | with_reducible apply State.txCancel_keeps
    | with_reducible apply State.onStn_keeps
    | with_reducible apply State.mgmtNotice_keeps
    | with_reducible apply State.imgLost_keeps
    | with_reducible apply keeps_ite
    | dsimp only
    | split

theorem State.joinFailStep_keeps {a : State} {v0 v1 v2} (h0 : Keeps a v0) : Keeps a (State.joinFailStep v0 v1 v2) := by
  unfold State.joinFailStep
  repeat' first
    | with_reducible assumption
    | intro _
    | with_reducible apply State.stnSet_keeps
    | with_reducible apply State.stnEv_keeps
    | with_reducible apply keeps_ite
    | with_reducible apply keeps_when

theorem State.joinStep_keeps {a : State} {v0 v1 v2 v3 v4} (h0 : Keeps a v0) : Keeps a (State.joinStep v0 v1 v2 v3 v4) := by
  unfold State.joinStep
  repeat' first
    | with_reducible assumption
    | intro _
    | with_reducible apply State.joinFailStep_keeps
    | with_reducible apply State.onStn_keeps
    | with_reducible apply State.mgmtStart_keeps
    | with_reducible apply State.stnSet_keeps
    | with_reducible apply State.stnEv_keeps
    | with_reducible apply State.setFld_keeps
    | with_reducible apply keeps_ite

theorem State.response_keeps {a : State} {v0 v1 v2} (h0 : Keeps a v0) : Keeps a (State.response v0 v1 v2) := by
  unfold State.response
  repeat' first
    | with_reducible assumption
    | intro _
    | with_reducible apply State.txCancel_keeps
    | with_reducible apply State.onStn_keeps
    | with_reducible apply State.imgNext_keeps
    | with_reducible apply State.mgmtNotice_keeps
    | with_reducible apply State.imgStep_keeps
    | with_reducible apply State.joinStep_keeps
    | with_reducible apply keeps_ite
    | dsimp only
    | split

theorem execMgmtResponseTimeout_keeps {a : State} {v0 v1 v2 v3} (h3 : Keeps a v3) : KeepsOut a (execMgmtResponseTimeout v0 v1 v2 v3) := by
  unfold execMgmtResponseTimeout
  repeat' first
    | with_reducible assumption
    | intro _
    | with_reducible apply keepsOut_next
    | with_reducible apply keepsOut_ite
    | with_reducible apply State.at_keeps
    | with_reducible apply State.mgmtSend_keeps
    | with_reducible apply State.txCancel_keeps
    | with_reducible apply State.onStn_keeps
    | with_reducible apply State.imgNext_keeps
    | with_reducible apply State.mgmtNotice_keeps
    | with_reducible apply State.imgLost_keeps
    | with_reducible apply State.joinFailStep_keeps
    | with_reducible apply keeps_ite
    | dsimp only
    | split

theorem execJoinPoll_keeps {a : State} {v0 v1 v2 v3} (h3 : Keeps a v3) : KeepsOut a (execJoinPoll v0 v1 v2 v3) := by
  unfold execJoinPoll
  repeat' first
    | with_reducible assumption
    | intro _
    | with_reducible apply keepsOut_next
    | with_reducible apply keepsOut_ite
    | with_reducible apply State.at_keeps
    | with_reducible apply State.mgmtStart_keeps
    | with_reducible apply State.onStn_keeps
    | with_reducible apply State.due_keeps
    | with_reducible apply keeps_ite

theorem execWaitfirstTimeout_keeps {a : State} {v0 v1 v2} (h2 : Keeps a v2) : KeepsOut a (execWaitfirstTimeout v0 v1 v2) := by
  unfold execWaitfirstTimeout
  repeat' first
    | with_reducible assumption
    | intro _
    | with_reducible apply keepsOut_next
    | with_reducible apply keepsOut_ite
    | with_reducible apply State.at_keeps
    | with_reducible apply State.stnEv_keeps
    | with_reducible apply State.stnSet_keeps
    | with_reducible apply keeps_ite

theorem State.substitutes_keeps {a : State} {v0 v1} (h0 : Keeps a v0) : Keeps a (State.substitutes v0 v1).2 := by
  unfold State.substitutes
  repeat' first
    | with_reducible assumption
    | intro _
    | dsimp only
    | with_reducible apply State.dmRead_keeps
    | refine keeps_of_pair (by assumption) ?_
    | refine keeps_of_triple (by assumption) ?_
    | split

theorem State.stnLose_keeps {a : State} {v0 v1} (h0 : Keeps a v0) : Keeps a (State.stnLose v0 v1) := by
  unfold State.stnLose
  repeat' first
    | with_reducible assumption
    | intro _
    | dsimp only
    | with_reducible apply State.substitutes_keeps
    | with_reducible apply State.onStn_keeps
    | with_reducible apply State.stnEv_keeps
    | with_reducible apply State.inc_keeps
    | with_reducible apply State.incFld_keeps
    | with_reducible apply State.stnSet_keeps

theorem State.stnMiss_keeps {a : State} {v0 v1 v2} (h0 : Keeps a v0) : Keeps a (State.stnMiss v0 v1 v2) := by
  unfold State.stnMiss
  repeat' first
    | with_reducible assumption
    | intro _
    | with_reducible apply State.setFld_keeps
    | with_reducible apply State.stnLose_keeps
    | with_reducible apply keeps_ite

theorem State.stnActive_keeps {a : State} {v0 v1 v2} (h0 : Keeps a v0) : Keeps a (State.stnActive v0 v1 v2) := by
  unfold State.stnActive
  repeat' first
    | with_reducible assumption
    | intro _
    | with_reducible apply State.setFld_keeps
    | with_reducible apply State.onStn_keeps
    | with_reducible apply State.stnEv_keeps
    | with_reducible apply State.incFld_keeps
    | with_reducible apply State.stnSet_keeps
    | with_reducible apply keeps_ite

theorem State.stnArrive_keeps {a : State} {v0 v1 v2 v3 v4 v5} (h0 : Keeps a v0) : Keeps a (State.stnArrive v0 v1 v2 v3 v4 v5) := by
  unfold State.stnArrive
  repeat' first
    | with_reducible assumption
    | intro _
    | with_reducible apply State.stnActive_keeps
    | with_reducible apply State.imgWrite_keeps
    | with_reducible apply State.onPort_keeps
    | with_reducible apply keeps_ite
    | with_reducible apply keeps_when

theorem execKeepalivePeriodEnd_keeps {a : State} {v0 v1 v2 v3} (h3 : Keeps a v3) : KeepsOut a (execKeepalivePeriodEnd v0 v1 v2 v3) := by
  unfold execKeepalivePeriodEnd
  repeat' first
    | with_reducible assumption
    | intro _
    | with_reducible apply keepsOut_next
    | with_reducible apply keepsOut_ite
    | with_reducible apply State.at_keeps
    | with_reducible apply State.stnFrameOut_keeps
    | with_reducible apply State.onPort_keeps
    | with_reducible apply State.onStn_keeps
    | with_reducible apply State.stnMiss_keeps
    | with_reducible apply keeps_ite

theorem State.stnEventFrame_keeps {a : State} {v0 v1 v2 v3 v4} (h0 : Keeps a v0) : Keeps a (State.stnEventFrame v0 v1 v2 v3 v4) := by
  unfold State.stnEventFrame
  repeat' first
    | with_reducible assumption
    | intro _
    | with_reducible apply State.stnArrive_keeps
    | with_reducible apply State.onStn_keeps
    | with_reducible apply State.qFrameOrWait_keeps
    | with_reducible apply State.raise_keeps
    | with_reducible apply keeps_ite
    | dsimp only
    | split

theorem State.headFrame_keeps {a : State} {v0 v1 v2} (h0 : Keeps a v0) : Keeps a (State.headFrame v0 v1 v2) := by
  unfold State.headFrame
  repeat' first
    | with_reducible assumption
    | intro _
    | with_reducible apply State.inc_keeps
    | with_reducible apply State.ev_keeps
    | with_reducible apply State.onStn_keeps
    | with_reducible apply State.stnEv_keeps
    | with_reducible apply State.incFld_keeps
    | with_reducible apply State.stnArrive_keeps
    | with_reducible apply State.ixePush_keeps
    | with_reducible apply State.stnEventFrame_keeps
    | with_reducible apply State.response_keeps
    | with_reducible apply keeps_ite
    | with_reducible apply keeps_id
    | dsimp only
    | split

theorem State.refAccepted_keeps {a : State} {v0 v1 v2 v3} (h0 : Keeps a v0) : Keeps a (State.refAccepted v0 v1 v2 v3) := by
  unfold State.refAccepted
  repeat' first
    | with_reducible assumption
    | intro _
    | with_reducible apply State.onPort_keeps
    | with_reducible apply State.setFld_keeps
    | with_reducible apply State.imgWrite_keeps
    | with_reducible apply State.putSummary_keeps
    | with_reducible apply State.setBit_keeps
    | with_reducible apply keeps_ite
    | with_reducible apply keeps_when

theorem State.outAccepted_keeps {a : State} {v0 v1 v2} (h0 : Keeps a v0) : Keeps a (State.outAccepted v0 v1 v2) := by
  unfold State.outAccepted
  repeat' first
    | with_reducible assumption
    | intro _
    | with_reducible apply State.onPort_keeps
    | with_reducible apply State.stnEv_keeps
    | with_reducible apply State.inc_keeps
    | with_reducible apply State.incFld_keeps
    | with_reducible apply State.stnSet_keeps
    | with_reducible apply State.onStn_keeps
    | with_reducible apply State.imgWrite_keeps
    | with_reducible apply keeps_ite

theorem State.failSafe_keeps {a : State} {v0 v1} (h0 : Keeps a v0) : Keeps a (State.failSafe v0 v1) := by
  unfold State.failSafe
  repeat' first
    | with_reducible assumption
    | intro _
    | dsimp only
    | with_reducible apply State.substitutes_keeps
    | with_reducible apply State.stnSet_keeps
    | with_reducible apply State.onStn_keeps
    | with_reducible apply keeps_ite

theorem State.execRequest_keeps {a : State} {v0 v1 v2 v3} (h0 : Keeps a v0) : Keeps a (State.execRequest v0 v1 v2 v3).2.2 := by
  unfold State.execRequest
  repeat' first
    | with_reducible assumption
    | intro _
    | dsimp only
    | with_reducible apply State.onPort_keeps
    | with_reducible apply State.stnSet_keeps
    | with_reducible apply State.failSafe_keeps
    | with_reducible apply State.setFld_keeps
    | with_reducible apply keeps_ite
    | with_reducible apply keeps_ite_snd
    | refine keeps_of_pair (by assumption) ?_
    | refine keeps_of_triple (by assumption) ?_
    | split

theorem State.reqAccepted_keeps {a : State} {v0 v1 v2} (h0 : Keeps a v0) : Keeps a (State.reqAccepted v0 v1 v2) := by
  unfold State.reqAccepted
  repeat' first
    | with_reducible assumption
    | intro _
    | dsimp only
    | with_reducible apply State.stnFrameOut_keeps
    | with_reducible apply State.execRequest_keeps
    | with_reducible apply State.onPort_keeps
    | with_reducible apply keeps_ite
    | with_reducible apply keeps_ite_snd
    | with_reducible apply keeps_id
    | refine keeps_of_pair (by assumption) ?_
    | refine keeps_of_triple (by assumption) ?_
    | split

theorem State.stationFrame_keeps {a : State} {v0 v1 v2} (h0 : Keeps a v0) : Keeps a (State.stationFrame v0 v1 v2) := by
  unfold State.stationFrame
  repeat' first
    | with_reducible assumption
    | intro _
    | with_reducible apply State.setPort_keeps
    | with_reducible apply State.refAccepted_keeps
    | with_reducible apply State.outAccepted_keeps
    | with_reducible apply State.reqAccepted_keeps
    | with_reducible apply keeps_ite
    | with_reducible apply keeps_id
    | dsimp only
    | split

theorem execStnFrame_keeps {a : State} {v0 v1 v2} (h2 : Keeps a v2) : KeepsOut a (execStnFrame v0 v1 v2) := by
  unfold execStnFrame
  repeat' first
    | with_reducible assumption
    | intro _
    | with_reducible apply keepsOut_next
    | with_reducible apply keepsOut_ite
    | with_reducible apply State.at_keeps
    | with_reducible apply State.onPort_keeps
    | with_reducible apply State.stationFrame_keeps
    | with_reducible apply State.headFrame_keeps
    | with_reducible apply keeps_ite
    | dsimp only
    | split

theorem execStationRefLost_keeps {a : State} {v0 v1} (h1 : Keeps a v1) : KeepsOut a (execStationRefLost v0 v1) := by
  unfold execStationRefLost
  repeat' first
    | with_reducible assumption
    | intro _
    | with_reducible apply keepsOut_next
    | with_reducible apply keepsOut_ite
    | with_reducible apply State.at_keeps
    | with_reducible apply State.putSummary_keeps
    | with_reducible apply State.fbpEv_keeps
    | with_reducible apply State.setBit_keeps
    | with_reducible apply keeps_ite

theorem execStationHoldExpired_keeps {a : State} {v0 v1 v2} (h2 : Keeps a v2) : KeepsOut a (execStationHoldExpired v0 v1 v2) := by
  unfold execStationHoldExpired
  repeat' first
    | with_reducible assumption
    | intro _
    | with_reducible apply keepsOut_next
    | with_reducible apply keepsOut_ite
    | with_reducible apply State.at_keeps
    | with_reducible apply State.fbpEv_keeps
    | with_reducible apply State.failSafe_keeps
    | with_reducible apply keeps_ite

theorem State.cycleMisses_keeps {a : State} {v0 v1 v2} (h0 : Keeps a v0) : Keeps a (State.cycleMisses v0 v1 v2) := by
  unfold State.cycleMisses
  repeat' first
    | with_reducible assumption
    | intro _
    | with_reducible apply State.stnMiss_keeps
    | with_reducible apply keeps_ite
    | with_reducible apply keeps_foldl

theorem execStnClr_keeps {a : State} {v0 v1 v2} (h2 : Keeps a v2) : KeepsOut a (execStnClr v0 v1 v2) := by
  unfold execStnClr
  repeat' first
    | with_reducible assumption
    | intro _
    | with_reducible apply keepsOut_next
    | with_reducible apply keepsOut_ite
    | with_reducible apply State.clearAll_keeps
    | with_reducible apply keeps_ite

theorem cmdStnStatus_keeps {a : State} {v0 v1 v2} (h2 : Keeps a v2) : Keeps a (cmdStnStatus v0 v1 v2) := by
  unfold cmdStnStatus
  repeat' first
    | with_reducible assumption
    | intro _
    | with_reducible apply State.startLen_keeps
    | with_reducible apply State.fail_keeps
    | with_reducible apply State.ok_keeps
    | with_reducible apply keeps_ite

theorem State.stnTarget_keeps {a : State} {v0 v1 v2 v3 v4} (h0 : Keeps a v0) (h4 : ∀ t0, Keeps a (v4 t0)) : Keeps a (State.stnTarget v0 v1 v2 v3 v4) := by
  unfold State.stnTarget
  repeat' first
    | with_reducible assumption
    | intro _
    | with_reducible apply h4
    | with_reducible apply State.fail_keeps
    | with_reducible apply keeps_ite

theorem State.stnAbsent_keeps {a : State} {v0 v1} (h0 : Keeps a v0) : Keeps a (State.stnAbsent v0 v1) := by
  unfold State.stnAbsent
  repeat' first
    | with_reducible assumption
    | intro _
    | with_reducible apply State.onStn_keeps
    | with_reducible apply State.mgmtDrop_keeps
    | with_reducible apply State.stnSet_keeps
    | with_reducible apply State.setFld_keeps

theorem cmdStnRejoin_keeps {a : State} {v0 v1 v2} (h2 : Keeps a v2) : Keeps a (cmdStnRejoin v0 v1 v2) := by
  unfold cmdStnRejoin
  repeat' first
    | with_reducible assumption
    | intro _
    | with_reducible apply State.startLen_keeps
    | with_reducible apply State.stnTarget_keeps
    | with_reducible apply State.ok_keeps
    | with_reducible apply State.stnAbsent_keeps

theorem cmdStnMgmt_keeps {a : State} {v0 v1 v2} (h2 : Keeps a v2) : Keeps a (cmdStnMgmt v0 v1 v2) := by
  unfold cmdStnMgmt
  repeat' first
    | with_reducible assumption
    | intro _
    | with_reducible apply State.start_keeps
    | with_reducible apply State.fail_keeps
    | with_reducible apply State.mgmtStart_keeps
    | with_reducible apply State.accept_keeps
    | with_reducible apply keeps_ite

theorem cmdStnStop_keeps {a : State} {v0 v1 v2} (h2 : Keeps a v2) : Keeps a (cmdStnStop v0 v1 v2) := by
  unfold cmdStnStop
  repeat' first
    | with_reducible assumption
    | intro _
    | with_reducible apply State.startLen_keeps
    | with_reducible apply State.stnTarget_keeps
    | with_reducible apply State.ok_keeps
    | with_reducible apply State.mgmtStart_keeps
    | with_reducible apply State.stnAbsent_keeps

theorem cmdStnCounters_keeps {a : State} {v0 v1 v2} (h2 : Keeps a v2) : Keeps a (cmdStnCounters v0 v1 v2) := by
  unfold cmdStnCounters
  repeat' first
    | with_reducible assumption
    | intro _
    | with_reducible apply State.startLen_keeps
    | with_reducible apply State.fail_keeps
    | with_reducible apply State.ok_keeps
    | with_reducible apply State.clearAll_keeps
    | with_reducible apply keeps_ite
    | with_reducible apply keeps_when

theorem execStnStatus_keeps {a : State} {v0 v1 v2} (h2 : Keeps a v2) : KeepsOut a (execStnStatus v0 v1 v2) := by
  unfold execStnStatus
  repeat' first
    | with_reducible assumption
    | intro _
    | with_reducible apply keepsOut_next
    | with_reducible apply keepsOut_ite
    | with_reducible apply cmdStnStatus_keeps

theorem execStnRejoin_keeps {a : State} {v0 v1 v2} (h2 : Keeps a v2) : KeepsOut a (execStnRejoin v0 v1 v2) := by
  unfold execStnRejoin
  repeat' first
    | with_reducible assumption
    | intro _
    | with_reducible apply keepsOut_next
    | with_reducible apply keepsOut_ite
    | with_reducible apply cmdStnRejoin_keeps

theorem execStnMgmt_keeps {a : State} {v0 v1 v2} (h2 : Keeps a v2) : KeepsOut a (execStnMgmt v0 v1 v2) := by
  unfold execStnMgmt
  repeat' first
    | with_reducible assumption
    | intro _
    | with_reducible apply keepsOut_next
    | with_reducible apply keepsOut_ite
    | with_reducible apply cmdStnMgmt_keeps

theorem execStnStop_keeps {a : State} {v0 v1 v2} (h2 : Keeps a v2) : KeepsOut a (execStnStop v0 v1 v2) := by
  unfold execStnStop
  repeat' first
    | with_reducible assumption
    | intro _
    | with_reducible apply keepsOut_next
    | with_reducible apply keepsOut_ite
    | with_reducible apply cmdStnStop_keeps

theorem execStnCounters_keeps {a : State} {v0 v1 v2} (h2 : Keeps a v2) : KeepsOut a (execStnCounters v0 v1 v2) := by
  unfold execStnCounters
  repeat' first
    | with_reducible assumption
    | intro _
    | with_reducible apply keepsOut_next
    | with_reducible apply keepsOut_ite
    | with_reducible apply cmdStnCounters_keeps

end Sys2Proof.Machine
end

