-- ==== Sys2Proof/Laws/KeepsFbpCfg.lean ====
section
/-! SUPPORT. What no command does (Laws.Keeps), said of every function of Machine.FbpCfg. -/

namespace Sys2Proof.Machine

theorem State.portOff_keeps {a : State} {v0 v1} (h0 : Keeps a v0) : Keeps a (State.portOff v0 v1) := by
  unfold State.portOff
  repeat' first
    | with_reducible assumption
    | intro _
    | with_reducible apply State.setTxf_keeps
    | with_reducible apply State.onPort_keeps
    | with_reducible apply State.putSummary_keeps
    | with_reducible apply State.setFld_keeps
    | with_reducible apply State.wr_keeps
    | dsimp only
    | split

theorem State.fbpApply_keeps {a : State} {v0 v1 v2} (h0 : Keeps a v0) : Keeps a (State.fbpApply v0 v1 v2) := by
  unfold State.fbpApply
  repeat' first
    | with_reducible assumption
    | intro _
    | with_reducible apply State.portOff_keeps
    | with_reducible apply State.setBit_keeps
    | with_reducible apply State.onPort_keeps
    | with_reducible apply State.syncForced_keeps
    | with_reducible apply keeps_when

theorem State.stnApply_keeps {a : State} {v0 v1 v2} (h0 : Keeps a v0) : Keeps a (State.stnApply v0 v1 v2) := by
  unfold State.stnApply
  repeat' first
    | with_reducible assumption
    | intro _
    | with_reducible apply State.onStn_keeps
    | with_reducible apply State.mgmtDrop_keeps
    | with_reducible apply State.stnSync_keeps
    | with_reducible apply State.setFld_keeps
    | with_reducible apply State.imgWrite_keeps
    | with_reducible apply State.due_keeps
    | with_reducible apply keeps_ite
    | with_reducible apply keeps_foldl

end Sys2Proof.Machine
end

