-- ==== Sys2Proof/Laws/KeepsFio.lean ====
section
/-! SUPPORT. What no command does (Laws.Keeps), said of every function of Machine.Fio. -/

namespace Sys2Proof.Machine

theorem State.onFch_keeps {a : State} {v0 v1 v2} (h0 : Keeps a v0) : Keeps a (State.onFch v0 v1 v2) := by
  unfold State.onFch
  repeat' first
    | with_reducible assumption
    | exact Nat.le_refl _
    | exact slots_same rfl
    | exact id
    | intro _
    | with_reducible refine keeps_mk ?_ ?_ ?_ ?_ ?_

theorem State.setValue_keeps {a : State} {v0 v1 v2 v3} (h0 : Keeps a v0) : Keeps a (State.setValue v0 v1 v2 v3) := by
  unfold State.setValue
  repeat' first
    | with_reducible assumption
    | intro _
    | with_reducible apply State.setBit_keeps

theorem State.putDiag_keeps {a : State} {v0 v1 v2} (h0 : Keeps a v0) : Keeps a (State.putDiag v0 v1 v2) := by
  unfold State.putDiag
  repeat' first
    | with_reducible assumption
    | intro _
    | with_reducible apply State.setFld_keeps
    | with_reducible apply State.incFld_keeps
    | with_reducible apply State.sysTrig_keeps
    | with_reducible apply State.ev_keeps
    | with_reducible apply keeps_ite
    | with_reducible apply keeps_when
    | with_reducible apply keeps_foldl

theorem State.updDiag_keeps {a : State} {v0 v1} (h0 : Keeps a v0) : Keeps a (State.updDiag v0 v1) := by
  unfold State.updDiag
  repeat' first
    | with_reducible assumption
    | intro _
    | with_reducible apply State.putDiag_keeps

theorem State.switchOne_keeps {a : State} {v0 v1 v2} (h0 : Keeps a v0) : Keeps a (State.switchOne v0 v1 v2) := by
  unfold State.switchOne
  repeat' first
    | with_reducible assumption
    | intro _
    | with_reducible apply State.setBit_keeps
    | with_reducible apply State.inc_keeps
    | with_reducible apply State.onFch_keeps
    | with_reducible apply keeps_ite
    | with_reducible apply keeps_when

theorem State.driveSet_keeps {a : State} {v0 v1} (h0 : Keeps a v0) : Keeps a (State.driveSet v0 v1) := by
  unfold State.driveSet
  repeat' first
    | with_reducible assumption
    | intro _
    | with_reducible apply State.switchOne_keeps
    | with_reducible apply keeps_foldl

theorem State.outputsOff_keeps {a : State} {v0} (h0 : Keeps a v0) : Keeps a (State.outputsOff v0) := by
  unfold State.outputsOff
  repeat' first
    | with_reducible assumption
    | intro _
    | with_reducible apply State.switchOne_keeps
    | with_reducible apply keeps_foldl

theorem State.filter_keeps {a : State} {v0 v1 v2} (h0 : Keeps a v0) : Keeps a (State.filter v0 v1 v2) := by
  unfold State.filter
  repeat' first
    | with_reducible assumption
    | intro _
    | with_reducible apply State.onFch_keeps
    | with_reducible apply State.setValue_keeps
    | with_reducible apply keeps_ite

theorem State.sampleSet_keeps {a : State} {v0 v1 v2 v3} (h0 : Keeps a v0) : Keeps a (State.sampleSet v0 v1 v2 v3) := by
  unfold State.sampleSet
  repeat' first
    | with_reducible assumption
    | intro _
    | with_reducible apply State.filter_keeps
    | with_reducible apply State.setValue_keeps
    | with_reducible apply State.onFch_keeps
    | with_reducible apply State.putDiag_keeps
    | with_reducible apply keeps_ite
    | with_reducible apply keeps_when
    | with_reducible apply keeps_foldl

theorem State.sampleCh_keeps {a : State} {v0 v1 v2 v3} (h0 : Keeps a v0) : Keeps a (State.sampleCh v0 v1 v2 v3) := by
  unfold State.sampleCh
  repeat' first
    | with_reducible assumption
    | intro _
    | with_reducible apply State.setBit_keeps
    | with_reducible apply State.updDiag_keeps
    | with_reducible apply State.filter_keeps
    | with_reducible apply State.setValue_keeps
    | with_reducible apply State.onFch_keeps
    | with_reducible apply State.setFld_keeps
    | with_reducible apply State.sampleSet_keeps
    | with_reducible apply keeps_ite
    | dsimp only
    | split

theorem State.groupAck_keeps {a : State} {v0 v1} (h0 : Keeps a v0) : Keeps a (State.groupAck v0 v1) := by
  unfold State.groupAck
  repeat' first
    | with_reducible assumption
    | intro _
    | with_reducible apply State.ev_keeps
    | with_reducible apply State.setBit_keeps
    | with_reducible apply keeps_ite

theorem State.diagClear_keeps {a : State} {v0 v1} (h0 : Keeps a v0) : Keeps a (State.diagClear v0 v1) := by
  unfold State.diagClear
  repeat' first
    | with_reducible assumption
    | intro _
    | with_reducible apply State.updDiag_keeps
    | with_reducible apply State.onFch_keeps
    | with_reducible apply keeps_ite

theorem State.takeLine_keeps {a : State} {v0 v1} (h0 : Keeps a v0) : Keeps a (State.takeLine v0 v1) := by
  unfold State.takeLine
  repeat' first
    | with_reducible assumption
    | exact Nat.le_refl _
    | exact slots_same rfl
    | exact id
    | intro _
    | with_reducible apply State.groupAck_keeps
    | with_reducible apply State.diagClear_keeps
    | with_reducible apply keeps_ite
    | with_reducible apply keeps_foldl
    | dsimp only
    | split
    | with_reducible refine keeps_mk ?_ ?_ ?_ ?_ ?_

theorem State.offEffects_keeps {a : State} {v0 v1} (h0 : Keeps a v0) : Keeps a (State.offEffects v0 v1) := by
  unfold State.offEffects
  repeat' first
    | with_reducible assumption
    | exact Nat.le_refl _
    | exact slots_same rfl
    | exact id
    | intro _
    | with_reducible apply State.switchOne_keeps
    | with_reducible apply State.setValue_keeps
    | with_reducible apply State.updDiag_keeps
    | with_reducible apply State.sysTrig_keeps
    | with_reducible apply State.ev_keeps
    | with_reducible apply State.filter_keeps
    | with_reducible apply keeps_ite
    | with_reducible apply keeps_when
    | with_reducible apply keeps_foldl
    | dsimp only
    | split
    | with_reducible refine keeps_mk ?_ ?_ ?_ ?_ ?_

theorem State.fioPut_keeps {a : State} {v0 v1} (h0 : Keeps a v0) : Keeps a (State.fioPut v0 v1) := by
  unfold State.fioPut
  repeat' first
    | with_reducible assumption
    | intro _
    | with_reducible apply State.onFch_keeps
    | with_reducible apply State.imgWrite_keeps
    | with_reducible apply State.filter_keeps
    | with_reducible apply keeps_ite
    | with_reducible apply keeps_foldl

theorem State.grpSums_keeps {a : State} {v0} (h0 : Keeps a v0) : Keeps a (State.grpSums v0) := by
  unfold State.grpSums
  repeat' first
    | with_reducible assumption
    | intro _
    | with_reducible apply State.setFld_keeps
    | with_reducible apply keeps_foldl

theorem State.takeImage_keeps {a : State} {v0 v1} (h0 : Keeps a v0) : Keeps a (State.takeImage v0 v1) := by
  unfold State.takeImage
  repeat' first
    | with_reducible assumption
    | exact Nat.le_refl _
    | exact slots_same rfl
    | exact id
    | intro _
    | with_reducible apply State.ev_keeps
    | with_reducible apply State.miuErr_keeps
    | with_reducible apply State.takeLine_keeps
    | with_reducible apply keeps_ite
    | dsimp only
    | split
    | with_reducible refine keeps_mk ?_ ?_ ?_ ?_ ?_

theorem State.fioTick_keeps {a : State} {v0 v1} (h0 : Keeps a v0) : Keeps a (State.fioTick v0 v1) := by
  unfold State.fioTick
  repeat' first
    | with_reducible assumption
    | exact Nat.le_refl _
    | exact slots_same rfl
    | exact id
    | intro _
    | with_reducible apply State.ev_keeps
    | with_reducible apply State.sampleCh_keeps
    | with_reducible apply State.takeImage_keeps
    | with_reducible apply State.grpSums_keeps
    | with_reducible apply State.offEffects_keeps
    | with_reducible apply State.driveSet_keeps
    | with_reducible apply State.setValue_keeps
    | with_reducible apply State.fioPut_keeps
    | with_reducible apply keeps_ite
    | with_reducible apply keeps_when
    | with_reducible apply keeps_foldl
    | dsimp only
    | split
    | with_reducible refine keeps_mk ?_ ?_ ?_ ?_ ?_

theorem execDieLinkLoss_keeps {a : State} {v0 v1} (h1 : Keeps a v1) : KeepsOut a (execDieLinkLoss v0 v1) := by
  unfold execDieLinkLoss
  repeat' first
    | with_reducible assumption
    | exact Nat.le_refl _
    | exact slots_same rfl
    | exact id
    | intro _
    | with_reducible apply keepsOut_next
    | with_reducible apply keepsOut_ite
    | with_reducible apply State.at_keeps
    | with_reducible apply State.enterFault_keeps
    | with_reducible apply State.outputsOff_keeps
    | with_reducible apply keeps_ite
    | dsimp only
    | split
    | with_reducible refine keeps_mk ?_ ?_ ?_ ?_ ?_

theorem execGroupLow_keeps {a : State} {v0 v1} (h1 : Keeps a v1) : KeepsOut a (execGroupLow v0 v1) := by
  unfold execGroupLow
  repeat' first
    | with_reducible assumption
    | intro _
    | with_reducible apply keepsOut_next
    | with_reducible apply keepsOut_ite
    | with_reducible apply State.sysTrig_keeps
    | with_reducible apply State.ev_keeps
    | with_reducible apply State.incFld_keeps
    | with_reducible apply State.setBit_keeps
    | with_reducible apply keeps_ite

theorem execGroupOff_keeps {a : State} {v0 v1} (h1 : Keeps a v1) : KeepsOut a (execGroupOff v0 v1) := by
  unfold execGroupOff
  repeat' first
    | with_reducible assumption
    | exact Nat.le_refl _
    | exact slots_same rfl
    | exact id
    | intro _
    | with_reducible apply keepsOut_next
    | with_reducible apply keepsOut_ite
    | with_reducible apply State.incFld_keeps
    | with_reducible apply State.setBit_keeps
    | with_reducible apply keeps_ite
    | dsimp only
    | split
    | with_reducible refine keeps_mk ?_ ?_ ?_ ?_ ?_

theorem execGroupRecovery_keeps {a v1 : State} {v0} (h : Keeps a v1) : KeepsOut a (execGroupRecovery v0 v1) := by
  unfold execGroupRecovery
  refine keepsOut_next (keeps_ite ?_ h)
  refine State.ev_keeps (keeps_when (keeps_when (keeps_mk (State.setBit_keeps (State.setBit_keeps h))
    (Nat.le_refl _) (Nat.le_refl _) (slots_same rfl) id) fun _ k => ?_) fun _ k => State.setBit_keeps k)
  exact keeps_foldl k fun _ _ k => State.onFch_keeps k

theorem execGrpgAck_keeps {a : State} {v0 v1 v2} (h2 : Keeps a v2) : KeepsOut a (execGrpgAck v0 v1 v2) := by
  unfold execGrpgAck
  repeat' first
    | with_reducible assumption
    | intro _
    | with_reducible apply keepsOut_next
    | with_reducible apply keepsOut_ite
    | with_reducible apply State.groupAck_keeps
    | with_reducible apply keeps_when

theorem execChnDiagclr_keeps {a : State} {v0 v1 v2} (h2 : Keeps a v2) : KeepsOut a (execChnDiagclr v0 v1 v2) := by
  unfold execChnDiagclr
  repeat' first
    | with_reducible assumption
    | intro _
    | with_reducible apply keepsOut_next
    | with_reducible apply keepsOut_ite
    | with_reducible apply State.diagClear_keeps
    | with_reducible apply keeps_when

theorem State.fioSweep_keeps {a : State} {v0 v1 v2} (h0 : Keeps a v0) : Keeps a (State.fioSweep v0 v1 v2) := by
  unfold State.fioSweep
  repeat' first
    | with_reducible assumption
    | exact Nat.le_refl _
    | exact slots_same rfl
    | exact id
    | intro _
    | with_reducible apply State.setFld_keeps
    | with_reducible apply State.setBit_keeps
    | with_reducible apply State.ev_keeps
    | with_reducible apply keeps_ite
    | with_reducible apply keeps_when
    | with_reducible apply keeps_foldl
    | dsimp only
    | split
    | with_reducible refine keeps_mk ?_ ?_ ?_ ?_ ?_

theorem execThermalShutdown_keeps {a : State} {v0 v1} (h1 : Keeps a v1) : KeepsOut a (execThermalShutdown v0 v1) := by
  unfold execThermalShutdown
  repeat' first
    | with_reducible assumption
    | intro _
    | with_reducible apply keepsOut_next
    | with_reducible apply keepsOut_ite
    | with_reducible apply State.onFch_keeps
    | with_reducible apply State.updDiag_keeps
    | with_reducible apply State.driveSet_keeps
    | with_reducible apply keeps_ite

theorem execShortRetry_keeps {a : State} {v0 v1 v2} (h2 : Keeps a v2) : KeepsOut a (execShortRetry v0 v1 v2) := by
  unfold execShortRetry
  repeat' first
    | with_reducible assumption
    | intro _
    | with_reducible apply keepsOut_next
    | with_reducible apply keepsOut_ite
    | with_reducible apply State.at_keeps
    | with_reducible apply State.driveSet_keeps
    | with_reducible apply State.onFch_keeps
    | with_reducible apply keeps_ite

theorem execChannelOvertemp_keeps {a : State} {v0 v1} (h1 : Keeps a v1) : KeepsOut a (execChannelOvertemp v0 v1) := by
  unfold execChannelOvertemp
  repeat' first
    | with_reducible assumption
    | intro _
    | with_reducible apply keepsOut_next
    | with_reducible apply keepsOut_ite
    | with_reducible apply State.updDiag_keeps
    | with_reducible apply State.driveSet_keeps
    | with_reducible apply State.onFch_keeps
    | with_reducible apply keeps_ite

theorem execChannelCooled_keeps {a : State} {v0 v1 v2} (h2 : Keeps a v2) : KeepsOut a (execChannelCooled v0 v1 v2) := by
  unfold execChannelCooled
  repeat' first
    | with_reducible assumption
    | intro _
    | with_reducible apply keepsOut_next
    | with_reducible apply keepsOut_ite
    | with_reducible apply State.at_keeps
    | with_reducible apply State.updDiag_keeps
    | with_reducible apply State.driveSet_keeps
    | with_reducible apply State.onFch_keeps
    | with_reducible apply keeps_ite

theorem State.fitOr_keeps {a : State} {v0 v1 v2 v3} (h0 : Keeps a v0) : Keeps a (State.fitOr v0 v1 v2 v3) := by
  unfold State.fitOr
  repeat' first
    | with_reducible assumption
    | intro _
    | dsimp only
    | with_reducible apply State.setFld_keeps
    | with_reducible apply State.free_keeps
    | with_reducible apply keeps_ite

theorem State.loadR_keeps {a : State} {v0 v1 v2} (h0 : Keeps a v0) : Keeps a (State.loadR v0 v1 v2) := by
  unfold State.loadR
  repeat' first
    | with_reducible assumption
    | intro _
    | dsimp only
    | with_reducible apply State.free_keeps
    | with_reducible apply State.setFld_keeps
    | with_reducible apply State.fitOr_keeps
    | with_reducible apply keeps_ite

theorem execLoadMeasurement_keeps {a : State} {v0 v1 v2} (h2 : Keeps a v2) : KeepsOut a (execLoadMeasurement v0 v1 v2) := by
  unfold execLoadMeasurement
  repeat' first
    | with_reducible assumption
    | intro _
    | with_reducible apply keepsOut_next
    | with_reducible apply keepsOut_ite
    | with_reducible apply State.setFld_keeps
    | with_reducible apply State.loadR_keeps
    | with_reducible apply State.wr_keeps
    | with_reducible apply State.fitOr_keeps
    | with_reducible apply keeps_ite
    | with_reducible apply keeps_foldl

theorem State.fioApply_keeps {a : State} {v0 v1} (h0 : Keeps a v0) : Keeps a (State.fioApply v0 v1) := by
  unfold State.fioApply
  repeat' first
    | with_reducible assumption
    | intro _
    | with_reducible apply State.onFch_keeps
    | with_reducible apply State.setValue_keeps
    | with_reducible apply State.setFld_keeps
    | with_reducible apply State.switchOne_keeps
    | with_reducible apply State.setBit_keeps
    | with_reducible apply State.wr_keeps
    | with_reducible apply keeps_ite
    | with_reducible apply keeps_when
    | with_reducible apply keeps_foldl

theorem cmdFioStatus_keeps {a : State} {v0 v1 v2} (h2 : Keeps a v2) : Keeps a (cmdFioStatus v0 v1 v2) := by
  unfold cmdFioStatus
  repeat' first
    | with_reducible assumption
    | intro _
    | with_reducible apply State.startLen_keeps
    | with_reducible apply State.ok_keeps

theorem cmdFioGroupAck_keeps {a : State} {v0 v1 v2} (h2 : Keeps a v2) : Keeps a (cmdFioGroupAck v0 v1 v2) := by
  unfold cmdFioGroupAck
  repeat' first
    | with_reducible assumption
    | intro _
    | with_reducible apply State.startLen_keeps
    | with_reducible apply State.fail_keeps
    | with_reducible apply State.ok_keeps
    | with_reducible apply State.groupAck_keeps
    | with_reducible apply keeps_ite

theorem cmdFioDiagClear_keeps {a : State} {v0 v1 v2} (h2 : Keeps a v2) : Keeps a (cmdFioDiagClear v0 v1 v2) := by
  unfold cmdFioDiagClear
  repeat' first
    | with_reducible assumption
    | intro _
    | with_reducible apply State.startLen_keeps
    | with_reducible apply State.fail_keeps
    | with_reducible apply State.ok_keeps
    | with_reducible apply State.diagClear_keeps
    | with_reducible apply keeps_ite

theorem cmdFioLoadRead_keeps {a : State} {v0 v1 v2} (h2 : Keeps a v2) : Keeps a (cmdFioLoadRead v0 v1 v2) := by
  unfold cmdFioLoadRead
  repeat' first
    | with_reducible assumption
    | intro _
    | with_reducible apply State.startLen_keeps
    | with_reducible apply State.ok_keeps

theorem execFioStatus_keeps {a : State} {v0 v1 v2} (h2 : Keeps a v2) : KeepsOut a (execFioStatus v0 v1 v2) := by
  unfold execFioStatus
  repeat' first
    | with_reducible assumption
    | intro _
    | with_reducible apply keepsOut_next
    | with_reducible apply keepsOut_ite
    | with_reducible apply cmdFioStatus_keeps

theorem execFioGroupAck_keeps {a : State} {v0 v1 v2} (h2 : Keeps a v2) : KeepsOut a (execFioGroupAck v0 v1 v2) := by
  unfold execFioGroupAck
  repeat' first
    | with_reducible assumption
    | intro _
    | with_reducible apply keepsOut_next
    | with_reducible apply keepsOut_ite
    | with_reducible apply cmdFioGroupAck_keeps

theorem execFioDiagClear_keeps {a : State} {v0 v1 v2} (h2 : Keeps a v2) : KeepsOut a (execFioDiagClear v0 v1 v2) := by
  unfold execFioDiagClear
  repeat' first
    | with_reducible assumption
    | intro _
    | with_reducible apply keepsOut_next
    | with_reducible apply keepsOut_ite
    | with_reducible apply cmdFioDiagClear_keeps

theorem execFioLoadRead_keeps {a : State} {v0 v1 v2} (h2 : Keeps a v2) : KeepsOut a (execFioLoadRead v0 v1 v2) := by
  unfold execFioLoadRead
  repeat' first
    | with_reducible assumption
    | intro _
    | with_reducible apply keepsOut_next
    | with_reducible apply keepsOut_ite
    | with_reducible apply cmdFioLoadRead_keeps

end Sys2Proof.Machine
end

