-- ==== Sys2Proof/Laws/KeepsTwin.lean ====
section
/-! SUPPORT. What no command does (Laws.Keeps), said of every function of Machine.Twin. -/

namespace Sys2Proof.Machine

theorem State.shaftTake_keeps {a : State} {v0 v1 v2} (h0 : Keeps a v0) : Keeps a (State.shaftTake v0 v1 v2) := by
  unfold State.shaftTake
  repeat' first
    | with_reducible assumption
    | exact Nat.le_refl _
    | exact slots_same rfl
    | exact id
    | intro _
    | with_reducible apply State.wr_keeps
    | with_reducible apply State.setShaft_keeps
    | with_reducible apply State.ev_keeps
    | with_reducible apply State.inc_keeps
    | with_reducible apply keeps_ite
    | dsimp only
    | split
    | with_reducible refine keeps_mk ?_ ?_ ?_ ?_ ?_

theorem State.tachShaft_keeps {a : State} {v0 v1 v2} (h0 : Keeps a v0) : Keeps a (State.tachShaft v0 v1 v2) := by
  unfold State.tachShaft
  repeat' first
    | with_reducible assumption
    | intro _
    | with_reducible apply State.shaftPulse_keeps
    | with_reducible apply State.shaftTake_keeps
    | with_reducible apply State.twlSend_keeps
    | with_reducible apply keeps_when

theorem execTachEdge_keeps {a : State} {v0 v1 v2 v3} (h3 : Keeps a v3) : KeepsOut a (execTachEdge v0 v1 v2 v3) := by
  unfold execTachEdge
  repeat' first
    | with_reducible assumption
    | intro _
    | with_reducible apply keepsOut_next
    | with_reducible apply keepsOut_ite
    | with_reducible apply State.at_keeps
    | with_reducible apply State.wr_keeps
    | with_reducible apply State.tachShaft_keeps
    | with_reducible apply keeps_ite
    | with_reducible apply keeps_when
    | with_reducible apply keeps_foldl

theorem State.takeCap_keeps {a : State} {v0 v1} (h0 : Keeps a v0) : Keeps a (State.takeCap v0 v1) := by
  unfold State.takeCap
  repeat' first
    | with_reducible assumption
    | exact Nat.le_refl _
    | exact slots_same rfl
    | exact id
    | intro _
    | with_reducible refine keeps_mk ?_ ?_ ?_ ?_ ?_

theorem State.cycDiscard_keeps {a : State} {v0} (h0 : Keeps a v0) : Keeps a (State.cycDiscard v0) := by
  unfold State.cycDiscard
  repeat' first
    | with_reducible assumption
    | exact Nat.le_refl _
    | exact slots_same rfl
    | exact id
    | intro _
    | with_reducible apply State.ev_keeps
    | with_reducible apply State.inc_keeps
    | split
    | with_reducible refine keeps_mk ?_ ?_ ?_ ?_ ?_

theorem State.linkClear_keeps {a : State} {v0 v1} (h0 : Keeps a v0) : Keeps a (State.linkClear v0 v1) := by
  unfold State.linkClear
  repeat' first
    | with_reducible assumption
    | exact Nat.le_refl _
    | exact slots_same rfl
    | exact id
    | intro _
    | with_reducible apply State.replay_keeps
    | with_reducible refine keeps_mk ?_ ?_ ?_ ?_ ?_

theorem State.joinOver_keeps {a : State} {v0} (h0 : Keeps a v0) : Keeps a (State.joinOver v0) := by
  unfold State.joinOver
  repeat' first
    | with_reducible assumption
    | exact Nat.le_refl _
    | exact slots_same rfl
    | exact id
    | intro _
    | with_reducible apply State.send_keeps
    | with_reducible refine keeps_mk ?_ ?_ ?_ ?_ ?_

theorem State.lostRole_keeps {a : State} {v0} (h0 : Keeps a v0) : Keeps a (State.lostRole v0) := by
  unfold State.lostRole
  repeat' first
    | with_reducible assumption
    | exact Nat.le_refl _
    | exact slots_same rfl
    | exact id
    | intro _
    | with_reducible apply State.switchEnd_keeps
    | with_reducible apply State.goAlone_keeps
    | with_reducible apply State.setRole_keeps
    | with_reducible apply State.joinFail_keeps
    | with_reducible apply State.joinOver_keeps
    | with_reducible apply keeps_ite
    | with_reducible apply keeps_when
    | dsimp only
    | split
    | with_reducible refine keeps_mk ?_ ?_ ?_ ?_ ?_

theorem State.twlLost_keeps {a : State} {v0 v1} (h0 : Keeps a v0) : Keeps a (State.twlLost v0 v1) := by
  unfold State.twlLost
  repeat' first
    | with_reducible assumption
    | intro _
    | with_reducible apply State.ev_keeps
    | with_reducible apply State.inc_keeps
    | with_reducible apply State.linkClear_keeps
    | with_reducible apply State.cycDiscard_keeps
    | with_reducible apply State.lostRole_keeps
    | with_reducible apply keeps_ite
    | with_reducible apply keeps_when

theorem execTowlineLockLost_keeps {a : State} {v0 v1 v2} (h2 : Keeps a v2) : KeepsOut a (execTowlineLockLost v0 v1 v2) := by
  unfold execTowlineLockLost
  repeat' first
    | with_reducible assumption
    | intro _
    | with_reducible apply keepsOut_next
    | with_reducible apply keepsOut_ite
    | with_reducible apply State.at_keeps
    | with_reducible apply State.twlLost_keeps
    | with_reducible apply keeps_ite

theorem execTickTimeout_keeps {a : State} {v0 v1} (h1 : Keeps a v1) : KeepsOut a (execTickTimeout v0 v1) := by
  unfold execTickTimeout
  repeat' first
    | with_reducible assumption
    | intro _
    | with_reducible apply keepsOut_next
    | with_reducible apply keepsOut_ite
    | with_reducible apply State.at_keeps
    | with_reducible apply State.twlLost_keeps
    | with_reducible apply keeps_ite

theorem State.leaveSeen_keeps {a : State} {v0} (h0 : Keeps a v0) : Keeps a (State.leaveSeen v0) := by
  unfold State.leaveSeen
  repeat' first
    | with_reducible assumption
    | exact Nat.le_refl _
    | exact slots_same rfl
    | exact id
    | intro _
    | with_reducible apply State.setRole_keeps
    | with_reducible apply State.switchEnd_keeps
    | with_reducible apply State.joinFail_keeps
    | with_reducible apply State.joinOver_keeps
    | with_reducible apply keeps_when
    | dsimp only
    | split
    | with_reducible refine keeps_mk ?_ ?_ ?_ ?_ ?_

theorem State.good_keeps {a : State} {v0} (h0 : Keeps a v0) : Keeps a (State.good v0) := by
  unfold State.good
  repeat' first
    | with_reducible assumption
    | exact Nat.le_refl _
    | exact slots_same rfl
    | exact id
    | intro _
    | with_reducible apply State.twlSend_keeps
    | dsimp only
    | with_reducible refine keeps_mk ?_ ?_ ?_ ?_ ?_

theorem State.onFrame_keeps {a : State} {v0 v1} (h0 : Keeps a v0) (h1 : ∀ t0, Keeps a t0 → Keeps a (v1 t0)) : Keeps a (State.onFrame v0 v1) := by
  unfold State.onFrame
  repeat' first
    | with_reducible assumption
    | intro _
    | with_reducible apply h1
    | with_reducible apply State.good_keeps
    | with_reducible apply keeps_ite

theorem execLeave_keeps {a : State} {v0 v1} (h1 : Keeps a v1) : KeepsOut a (execLeave v0 v1) := by
  unfold execLeave
  repeat' first
    | with_reducible assumption
    | intro _
    | with_reducible apply keepsOut_next
    | with_reducible apply keepsOut_ite
    | with_reducible apply State.onFrame_keeps
    | with_reducible apply State.at_keeps
    | with_reducible apply State.leaveSeen_keeps

theorem execPaliLost_keeps {a : State} {v0 v1} (h1 : Keeps a v1) : KeepsOut a (execPaliLost v0 v1) := by
  unfold execPaliLost
  repeat' first
    | with_reducible assumption
    | exact Nat.le_refl _
    | exact slots_same rfl
    | exact id
    | intro _
    | with_reducible apply keepsOut_next
    | with_reducible apply keepsOut_ite
    | with_reducible apply State.at_keeps
    | with_reducible apply State.ev_keeps
    | with_reducible apply State.inc_keeps
    | with_reducible apply State.twlCtrl_keeps
    | with_reducible apply keeps_ite
    | with_reducible apply keeps_when
    | dsimp only
    | split
    | with_reducible refine keeps_mk ?_ ?_ ?_ ?_ ?_

theorem execPaliAlive_keeps {a : State} {v0} (h0 : Keeps a v0) : KeepsOut a (execPaliAlive v0) := by
  unfold execPaliAlive
  repeat' first
    | with_reducible assumption
    | exact Nat.le_refl _
    | exact slots_same rfl
    | exact id
    | intro _
    | with_reducible apply keepsOut_next
    | with_reducible apply keepsOut_ite
    | with_reducible apply State.ev_keeps
    | with_reducible apply keeps_ite
    | split
    | with_reducible refine keeps_mk ?_ ?_ ?_ ?_ ?_

theorem State.paliFaulty_keeps {a : State} {v0} (h0 : Keeps a v0) : Keeps a (State.paliFaulty v0) := by
  unfold State.paliFaulty
  repeat' first
    | with_reducible assumption
    | exact Nat.le_refl _
    | exact slots_same rfl
    | exact id
    | intro _
    | with_reducible apply State.ev_keeps
    | with_reducible refine keeps_mk ?_ ?_ ?_ ?_ ?_

theorem execPaliq_keeps {a : State} {v0} (h0 : Keeps a v0) : KeepsOut a (execPaliq v0) := by
  unfold execPaliq
  repeat' first
    | with_reducible assumption
    | intro _
    | with_reducible apply keepsOut_next
    | with_reducible apply keepsOut_ite
    | with_reducible apply State.onFrame_keeps
    | with_reducible apply State.twlCtrl_keeps
    | with_reducible apply State.paliFaulty_keeps
    | with_reducible apply keeps_when

theorem execPalians_keeps {a : State} {v0 v1 v2} (h2 : Keeps a v2) : KeepsOut a (execPalians v0 v1 v2) := by
  unfold execPalians
  repeat' first
    | with_reducible assumption
    | exact Nat.le_refl _
    | exact slots_same rfl
    | exact id
    | intro _
    | with_reducible apply keepsOut_next
    | with_reducible apply keepsOut_ite
    | with_reducible apply State.onFrame_keeps
    | with_reducible apply State.at_keeps
    | with_reducible apply State.paliFaulty_keeps
    | with_reducible apply State.leaveSeen_keeps
    | with_reducible apply keeps_ite
    | dsimp only
    | split
    | with_reducible refine keeps_mk ?_ ?_ ?_ ?_ ?_

theorem execPaliqTimeout_keeps {a : State} {v0 v1} (h1 : Keeps a v1) : KeepsOut a (execPaliqTimeout v0 v1) := by
  unfold execPaliqTimeout
  repeat' first
    | with_reducible assumption
    | exact Nat.le_refl _
    | exact slots_same rfl
    | exact id
    | intro _
    | with_reducible apply keepsOut_next
    | with_reducible apply keepsOut_ite
    | with_reducible apply State.at_keeps
    | with_reducible apply State.leaveSeen_keeps
    | with_reducible apply keeps_ite
    | dsimp only
    | split
    | with_reducible refine keeps_mk ?_ ?_ ?_ ?_ ?_

theorem execTrainingAttempt_keeps {a : State} {v0 v1} (h1 : Keeps a v1) : KeepsOut a (execTrainingAttempt v0 v1) := by
  unfold execTrainingAttempt
  repeat' first
    | with_reducible assumption
    | exact Nat.le_refl _
    | exact slots_same rfl
    | exact id
    | intro _
    | with_reducible apply keepsOut_next
    | with_reducible apply keepsOut_ite
    | with_reducible apply State.ev_keeps
    | with_reducible apply State.ok_keeps
    | with_reducible apply keeps_ite
    | with_reducible apply keeps_when
    | dsimp only
    | split
    | with_reducible refine keeps_mk ?_ ?_ ?_ ?_ ?_

theorem State.startOutcome_keeps {a : State} {v0} (h0 : Keeps a v0) : Keeps a (State.startOutcome v0) := by
  unfold State.startOutcome
  repeat' first
    | with_reducible assumption
    | exact Nat.le_refl _
    | exact slots_same rfl
    | exact id
    | intro _
    | with_reducible apply State.autoJoin_keeps
    | with_reducible apply State.setRole_keeps
    | with_reducible apply State.goAlone_keeps
    | with_reducible apply State.wait_keeps
    | with_reducible apply keeps_ite
    | dsimp only
    | split
    | with_reducible refine keeps_mk ?_ ?_ ?_ ?_ ?_

theorem State.soloDecide_keeps {a : State} {v0 v1} (h0 : Keeps a v0) : Keeps a (State.soloDecide v0 v1) := by
  unfold State.soloDecide
  repeat' first
    | with_reducible assumption
    | intro _
    | with_reducible apply State.joinOver_keeps
    | with_reducible apply State.setRole_keeps
    | with_reducible apply State.ev_keeps
    | with_reducible apply State.autoJoin_keeps
    | with_reducible apply keeps_ite
    | with_reducible apply keeps_when

theorem State.swapMismatch_keeps {a : State} {v0} (h0 : Keeps a v0) : Keeps a (State.swapMismatch v0) := by
  unfold State.swapMismatch
  repeat' first
    | with_reducible assumption
    | exact Nat.le_refl _
    | exact slots_same rfl
    | exact id
    | intro _
    | with_reducible apply State.ev_keeps
    | with_reducible apply keeps_when
    | dsimp only
    | split
    | with_reducible refine keeps_mk ?_ ?_ ?_ ?_ ?_

theorem execTowlineUp_keeps {a : State} {v0 v1 v2 v3 v4} (h4 : Keeps a v4) : KeepsOut a (execTowlineUp v0 v1 v2 v3 v4) := by
  unfold execTowlineUp
  repeat' first
    | with_reducible assumption
    | exact Nat.le_refl _
    | exact slots_same rfl
    | exact id
    | intro _
    | with_reducible apply keepsOut_next
    | with_reducible apply keepsOut_ite
    | with_reducible apply State.at_keeps
    | with_reducible apply State.wr_keeps
    | with_reducible apply State.linkClear_keeps
    | with_reducible apply State.ev_keeps
    | with_reducible apply State.sendCap_keeps
    | with_reducible apply State.event_keeps
    | with_reducible apply State.takeCap_keeps
    | with_reducible apply State.swapMismatch_keeps
    | with_reducible apply State.startOutcome_keeps
    | with_reducible apply State.soloDecide_keeps
    | with_reducible apply State.wait_keeps
    | with_reducible apply keeps_ite
    | dsimp only
    | split
    | with_reducible refine keeps_mk ?_ ?_ ?_ ?_ ?_

theorem execSolowaitExpired_keeps {a : State} {v0 v1} (h1 : Keeps a v1) : KeepsOut a (execSolowaitExpired v0 v1) := by
  unfold execSolowaitExpired
  repeat' first
    | with_reducible assumption
    | intro _
    | with_reducible apply keepsOut_next
    | with_reducible apply keepsOut_ite
    | with_reducible apply State.at_keeps
    | with_reducible apply State.startOutcome_keeps
    | with_reducible apply State.wait_keeps
    | with_reducible apply keeps_ite
    | dsimp only
    | split

theorem State.followArm_keeps {a : State} {v0 v1} (h0 : Keeps a v0) : Keeps a (State.followArm v0 v1) := by
  unfold State.followArm
  repeat' first
    | with_reducible assumption
    | intro _
    | with_reducible apply State.ev_keeps
    | with_reducible apply State.setChamber_keeps
    | with_reducible apply State.disarm_keeps
    | with_reducible apply State.abandonSwap_keeps
    | with_reducible apply keeps_ite

theorem execTwlCap_keeps {a : State} {v0 v1 v2} (h2 : Keeps a v2) : KeepsOut a (execTwlCap v0 v1 v2) := by
  unfold execTwlCap
  repeat' first
    | with_reducible assumption
    | intro _
    | with_reducible apply keepsOut_next
    | with_reducible apply keepsOut_ite
    | with_reducible apply State.onFrame_keeps
    | with_reducible apply State.at_keeps
    | with_reducible apply State.ev_keeps
    | with_reducible apply State.linkClear_keeps
    | with_reducible apply State.takeCap_keeps
    | with_reducible apply State.abandonSwap_keeps
    | with_reducible apply State.joinFail_keeps
    | with_reducible apply State.followArm_keeps
    | with_reducible apply State.leaveTwin_keeps
    | with_reducible apply State.soloDecide_keeps
    | with_reducible apply keeps_ite
    | with_reducible apply keeps_when
    | dsimp only
    | split

theorem State.alignTime_keeps {a : State} {v0 v1} (h0 : Keeps a v0) : Keeps a (State.alignTime v0 v1) := by
  unfold State.alignTime
  repeat' first
    | with_reducible assumption
    | intro _
    | with_reducible apply State.at_keeps
    | with_reducible apply State.stepTime_keeps
    | with_reducible apply keeps_ite

theorem execTwlTick_keeps {a : State} {v0 v1} (h1 : Keeps a v1) : KeepsOut a (execTwlTick v0 v1) := by
  unfold execTwlTick
  repeat' first
    | with_reducible assumption
    | exact Nat.le_refl _
    | exact slots_same rfl
    | exact id
    | intro _
    | with_reducible apply keepsOut_next
    | with_reducible apply keepsOut_ite
    | with_reducible apply State.alignTime_keeps
    | with_reducible apply keeps_ite
    | dsimp only
    | split
    | with_reducible refine keeps_mk ?_ ?_ ?_ ?_ ?_

theorem execTwlAck_keeps {a : State} {v0 v1 v2 v3} (h3 : Keeps a v3) : KeepsOut a (execTwlAck v0 v1 v2 v3) := by
  unfold execTwlAck
  repeat' first
    | with_reducible assumption
    | exact Nat.le_refl _
    | exact slots_same rfl
    | exact id
    | intro _
    | with_reducible apply keepsOut_next
    | with_reducible apply keepsOut_ite
    | with_reducible apply State.addCnt_keeps
    | with_reducible apply State.replay_keeps
    | with_reducible apply keeps_ite
    | with_reducible apply keeps_when
    | dsimp only
    | split
    | with_reducible refine keeps_mk ?_ ?_ ?_ ?_ ?_

theorem execTwlEcho_keeps {a : State} {v0 v1 v2} (h2 : Keeps a v2) : KeepsOut a (execTwlEcho v0 v1 v2) := by
  unfold execTwlEcho
  repeat' first
    | with_reducible assumption
    | intro _
    | with_reducible apply keepsOut_next
    | with_reducible apply keepsOut_ite
    | with_reducible apply State.twlSend_keeps
    | with_reducible apply keeps_ite

theorem execTwlBadFrame_keeps {a : State} {v0} (h0 : Keeps a v0) : KeepsOut a (execTwlBadFrame v0) := by
  unfold execTwlBadFrame
  repeat' first
    | with_reducible assumption
    | intro _
    | with_reducible apply keepsOut_next
    | with_reducible apply keepsOut_ite
    | with_reducible apply State.twlSend_keeps
    | with_reducible apply State.inc_keeps
    | with_reducible apply keeps_ite

theorem execTwlReservedFrame_keeps {a : State} {v0 v1} (h1 : Keeps a v1) : KeepsOut a (execTwlReservedFrame v0 v1) := by
  unfold execTwlReservedFrame
  repeat' first
    | with_reducible assumption
    | intro _
    | with_reducible apply keepsOut_next
    | with_reducible apply keepsOut_ite
    | with_reducible apply State.inc_keeps
    | with_reducible apply keeps_ite

theorem execPropose_keeps {a : State} {v0 v1 v2 v3} (h3 : Keeps a v3) : KeepsOut a (execPropose v0 v1 v2 v3) := by
  unfold execPropose
  repeat' first
    | with_reducible assumption
    | exact Nat.le_refl _
    | exact slots_same rfl
    | exact id
    | intro _
    | with_reducible apply keepsOut_next
    | with_reducible apply keepsOut_ite
    | with_reducible apply State.onFrame_keeps
    | with_reducible apply State.at_keeps
    | with_reducible apply State.twlCtrl_keeps
    | with_reducible apply keeps_ite
    | dsimp only
    | split
    | with_reducible refine keeps_mk ?_ ?_ ?_ ?_ ?_

theorem execReady_keeps {a : State} {v0 v1 v2 v3} (h3 : Keeps a v3) : KeepsOut a (execReady v0 v1 v2 v3) := by
  unfold execReady
  repeat' first
    | with_reducible assumption
    | exact Nat.le_refl _
    | exact slots_same rfl
    | exact id
    | intro _
    | with_reducible apply keepsOut_next
    | with_reducible apply keepsOut_ite
    | with_reducible apply State.onFrame_keeps
    | with_reducible apply State.at_keeps
    | with_reducible apply State.twlCtrl_keeps
    | with_reducible apply keeps_ite
    | split
    | with_reducible refine keeps_mk ?_ ?_ ?_ ?_ ?_

theorem execDecline_keeps {a : State} {v0 v1} (h1 : Keeps a v1) : KeepsOut a (execDecline v0 v1) := by
  unfold execDecline
  repeat' first
    | with_reducible assumption
    | exact Nat.le_refl _
    | exact slots_same rfl
    | exact id
    | intro _
    | with_reducible apply keepsOut_next
    | with_reducible apply keepsOut_ite
    | with_reducible apply State.onFrame_keeps
    | with_reducible apply State.ev_keeps
    | with_reducible apply State.incFld_keeps
    | with_reducible apply keeps_ite
    | with_reducible apply keeps_when
    | dsimp only
    | split
    | with_reducible refine keeps_mk ?_ ?_ ?_ ?_ ?_

theorem execGo_keeps {a : State} {v0 v1 v2} (h2 : Keeps a v2) : KeepsOut a (execGo v0 v1 v2) := by
  unfold execGo
  repeat' first
    | with_reducible assumption
    | exact Nat.le_refl _
    | exact slots_same rfl
    | exact id
    | intro _
    | with_reducible apply keepsOut_next
    | with_reducible apply keepsOut_ite
    | with_reducible apply State.onFrame_keeps
    | with_reducible apply keeps_ite
    | split
    | with_reducible refine keeps_mk ?_ ?_ ?_ ?_ ?_

theorem execTwlState_keeps {a : State} {v0 v1 v2} (h2 : Keeps a v2) : KeepsOut a (execTwlState v0 v1 v2) := by
  unfold execTwlState
  repeat' first
    | with_reducible assumption
    | exact Nat.le_refl _
    | exact slots_same rfl
    | exact id
    | intro _
    | with_reducible apply keepsOut_next
    | with_reducible apply keepsOut_ite
    | with_reducible apply State.onFrame_keeps
    | with_reducible apply keeps_ite
    | split
    | with_reducible refine keeps_mk ?_ ?_ ?_ ?_ ?_

theorem execSwitchoverInstant_keeps {a : State} {v0 v1} (h1 : Keeps a v1) : KeepsOut a (execSwitchoverInstant v0 v1) := by
  unfold execSwitchoverInstant
  repeat' first
    | with_reducible assumption
    | exact Nat.le_refl _
    | exact slots_same rfl
    | exact id
    | intro _
    | with_reducible apply keepsOut_next
    | with_reducible apply keepsOut_ite
    | with_reducible apply State.at_keeps
    | with_reducible apply State.raiseEpoch_keeps
    | with_reducible apply State.setRole_keeps
    | with_reducible apply State.noticeAll_keeps
    | with_reducible apply State.dispatch_keeps
    | with_reducible apply State.releaseHeld_keeps
    | with_reducible apply State.leaveTwin_keeps
    | with_reducible apply State.send_keeps
    | with_reducible apply keeps_ite
    | dsimp only
    | split
    | with_reducible refine keeps_mk ?_ ?_ ?_ ?_ ?_

theorem execSwitchoverTimeout_keeps {a : State} {v0 v1} (h1 : Keeps a v1) : KeepsOut a (execSwitchoverTimeout v0 v1) := by
  unfold execSwitchoverTimeout
  repeat' first
    | with_reducible assumption
    | intro _
    | with_reducible apply keepsOut_next
    | with_reducible apply keepsOut_ite
    | with_reducible apply State.at_keeps
    | with_reducible apply State.switchEnd_keeps
    | with_reducible apply keeps_ite
    | dsimp only
    | split

theorem State.putTimer_keeps {a : State} {v0 v1} (h0 : Keeps a v0) : Keeps a (State.putTimer v0 v1) := by
  unfold State.putTimer
  repeat' first
    | with_reducible assumption
    | intro _
    | with_reducible apply State.setTimer_keeps
    | with_reducible apply State.start_keeps
    | with_reducible apply keeps_ite

theorem State.mirBlock_keeps {a : State} {v0 v1} (h0 : Keeps a v0) : Keeps a (State.mirBlock v0 v1).2 := by
  unfold State.mirBlock
  generalize List.range 8 = l
  generalize e : List.foldl _ _ l = p
  suffices k : Keeps a p.2 by
    obtain ⟨d, s⟩ := p
    exact k
  subst e
  refine keeps_foldl_snd h0 fun q x hq => ?_
  have k : Keeps a (q.2.readWord .mirror (dmBase + v1 + 8 * x)).2 := State.readWord_keeps hq
  generalize q.2.readWord .mirror (dmBase + v1 + 8 * x) = r at k
  obtain ⟨o, s⟩ := r
  cases o <;> exact k

theorem State.setLastKib_keeps {a : State} {v0 v1} (h0 : Keeps a v0) : Keeps a (State.setLastKib v0 v1) := by
  unfold State.setLastKib
  repeat' first
    | with_reducible assumption
    | intro _
    | with_reducible apply State.setFld_keeps

theorem execMirrorReadDone_keeps {a : State} {v0 v1 v2} (h2 : Keeps a v2) : KeepsOut a (execMirrorReadDone v0 v1 v2) := by
  unfold execMirrorReadDone
  extract_lets s
  have h : Keeps a s := State.at_keeps h2
  clear_value s
  refine keepsOut_next ?_
  split
  · exact h
  · rename_i c rest _
    refine keeps_ite h ?_
    extract_lets s1 s2
    have k1 : Keeps a s1 := keeps_mk h (Nat.le_refl _) (Nat.le_refl _) (slots_same rfl) id
    clear_value s1
    have k2 : Keeps a s2 := State.twlSend_keeps k1
    clear_value s2
    generalize e : List.foldl _ _ c.blocks = p
    have k3 : Keeps a p.2 := by
      subst e
      refine keeps_foldl_snd k2 fun q x hq => ?_
      have k := State.mirBlock_keeps (v1 := x) hq
      generalize q.2.mirBlock x = r at k
      obtain ⟨b, s⟩ := r
      exact k
    obtain ⟨bs, s3⟩ := p
    exact State.setFld_keeps (State.setLastKib_keeps (State.twlSend_keeps
      (keeps_foldl (keeps_foldl k3 fun t x ht => State.twlSend_keeps ht) fun t x ht => State.twlSend_keeps ht)))

theorem execMirBegin_keeps {a : State} {v0 v1 v2 v3} (h3 : Keeps a v3) : KeepsOut a (execMirBegin v0 v1 v2 v3) := by
  unfold execMirBegin
  repeat' first
    | with_reducible assumption
    | exact Nat.le_refl _
    | exact slots_same rfl
    | exact id
    | intro _
    | with_reducible apply keepsOut_next
    | with_reducible apply keepsOut_ite
    | with_reducible apply State.onFrame_keeps
    | with_reducible apply State.cycDiscard_keeps
    | with_reducible apply keeps_ite
    | dsimp only
    | split
    | with_reducible refine keeps_mk ?_ ?_ ?_ ?_ ?_

theorem execMirData_keeps {a : State} {v0 v1} (h1 : Keeps a v1) : KeepsOut a (execMirData v0 v1) := by
  unfold execMirData
  repeat' first
    | with_reducible assumption
    | exact Nat.le_refl _
    | exact slots_same rfl
    | exact id
    | intro _
    | with_reducible apply keepsOut_next
    | with_reducible apply keepsOut_ite
    | with_reducible apply State.onFrame_keeps
    | with_reducible refine keeps_mk ?_ ?_ ?_ ?_ ?_

theorem execMirTimer_keeps {a : State} {v0 v1} (h1 : Keeps a v1) : KeepsOut a (execMirTimer v0 v1) := by
  unfold execMirTimer
  repeat' first
    | with_reducible assumption
    | exact Nat.le_refl _
    | exact slots_same rfl
    | exact id
    | intro _
    | with_reducible apply keepsOut_next
    | with_reducible apply keepsOut_ite
    | with_reducible apply State.onFrame_keeps
    | with_reducible refine keeps_mk ?_ ?_ ?_ ?_ ?_

theorem State.applyCycle_keeps {a : State} {v0 v1} (h0 : Keeps a v0) : Keeps a (State.applyCycle v0 v1) := by
  unfold State.applyCycle
  repeat' first
    | with_reducible assumption
    | intro _
    | with_reducible apply State.dmWrite_keeps
    | with_reducible apply State.setLastKib_keeps
    | with_reducible apply State.putTimer_keeps
    | with_reducible apply keeps_foldl

theorem execMirEnd_keeps {a : State} {v0 v1 v2 v3} (h3 : Keeps a v3) : KeepsOut a (execMirEnd v0 v1 v2 v3) := by
  unfold execMirEnd
  repeat' first
    | with_reducible assumption
    | exact Nat.le_refl _
    | exact slots_same rfl
    | exact id
    | intro _
    | with_reducible apply keepsOut_next
    | with_reducible apply keepsOut_ite
    | with_reducible apply State.onFrame_keeps
    | with_reducible apply State.applyCycle_keeps
    | with_reducible apply State.cycDiscard_keeps
    | with_reducible apply keeps_ite
    | dsimp only
    | split
    | with_reducible refine keeps_mk ?_ ?_ ?_ ?_ ?_

theorem State.releaseWaiting_keeps {a : State} {v0 v1} (h0 : Keeps a v0) : Keeps a (State.releaseWaiting v0 v1) := by
  unfold State.releaseWaiting
  repeat' first
    | with_reducible assumption
    | exact Nat.le_refl _
    | exact slots_same rfl
    | exact id
    | intro _
    | with_reducible apply State.releaseOrHold_keeps
    | with_reducible apply State.filter_keeps
    | with_reducible apply keeps_ite
    | split
    | with_reducible refine keeps_mk ?_ ?_ ?_ ?_ ?_

theorem execMirrorApply_keeps {a : State} {v0 v1 v2} (h2 : Keeps a v2) : KeepsOut a (execMirrorApply v0 v1 v2) := by
  unfold execMirrorApply
  repeat' first
    | with_reducible assumption
    | exact Nat.le_refl _
    | exact slots_same rfl
    | exact id
    | intro _
    | with_reducible apply keepsOut_next
    | with_reducible apply keepsOut_ite
    | with_reducible apply State.at_keeps
    | with_reducible apply State.releaseWaiting_keeps
    | with_reducible apply State.applyCycle_keeps
    | with_reducible apply keeps_ite
    | dsimp only
    | split
    | with_reducible refine keeps_mk ?_ ?_ ?_ ?_ ?_

theorem execTrackingReleaseSkip_keeps {a : State} {v0 v1 v2} (h2 : Keeps a v2) : KeepsOut a (execTrackingReleaseSkip v0 v1 v2) := by
  unfold execTrackingReleaseSkip
  repeat' first
    | with_reducible assumption
    | exact Nat.le_refl _
    | exact slots_same rfl
    | exact id
    | intro _
    | with_reducible apply keepsOut_next
    | with_reducible apply keepsOut_ite
    | with_reducible apply State.at_keeps
    | with_reducible apply State.skipRelease_keeps
    | with_reducible apply State.filter_keeps
    | with_reducible apply keeps_ite
    | dsimp only
    | split
    | with_reducible refine keeps_mk ?_ ?_ ?_ ?_ ?_

theorem execJoinreq_keeps {a : State} {v0} (h0 : Keeps a v0) : KeepsOut a (execJoinreq v0) := by
  unfold execJoinreq
  repeat' first
    | with_reducible assumption
    | exact Nat.le_refl _
    | exact slots_same rfl
    | exact id
    | intro _
    | with_reducible apply keepsOut_next
    | with_reducible apply keepsOut_ite
    | with_reducible apply State.onFrame_keeps
    | with_reducible apply State.twlSend_keeps
    | with_reducible apply keeps_ite
    | with_reducible apply keeps_foldl
    | dsimp only
    | split
    | with_reducible refine keeps_mk ?_ ?_ ?_ ?_ ?_

theorem State.snapWord_keeps {a : State} {v0 v1 v2} (h0 : Keeps a v0) : Keeps a (State.snapWord v0 v1 v2) := by
  unfold State.snapWord
  repeat' first
    | with_reducible assumption
    | exact Nat.le_refl _
    | exact slots_same rfl
    | exact id
    | intro _
    | with_reducible apply State.wr_keeps
    | with_reducible apply keeps_ite
    | dsimp only
    | split
    | with_reducible refine keeps_mk ?_ ?_ ?_ ?_ ?_

theorem State.snapIxe_keeps {a : State} {v0 v1 v2} (h0 : Keeps a v0) : Keeps a (State.snapIxe v0 v1 v2) := by
  unfold State.snapIxe
  repeat' first
    | with_reducible assumption
    | intro _
    | with_reducible apply State.snapWord_keeps
    | with_reducible apply State.setFld_keeps
    | with_reducible apply State.putStatus_keeps
    | with_reducible apply State.at_keeps
    | with_reducible apply keeps_ite
    | with_reducible apply keeps_foldl

theorem State.snapPut_keeps {a : State} {v0 v1} (h0 : Keeps a v0) : Keeps a (State.snapPut v0 v1) := by
  unfold State.snapPut
  repeat' first
    | with_reducible assumption
    | exact Nat.le_refl _
    | exact slots_same rfl
    | exact id
    | intro _
    | with_reducible apply State.setEpoch_keeps
    | with_reducible apply State.setFld_keeps
    | with_reducible apply State.wr_keeps
    | with_reducible apply State.snapWord_keeps
    | with_reducible apply State.imgWrite_keeps
    | with_reducible apply State.putTimer_keeps
    | with_reducible apply State.setStamp_keeps
    | with_reducible apply State.setShaft_keeps
    | with_reducible apply State.dmWrite_keeps
    | with_reducible apply State.writeBytes_keeps
    | with_reducible apply State.snapIxe_keeps
    | with_reducible apply keeps_ite
    | with_reducible apply keeps_foldl
    | dsimp only
    | split
    | with_reducible refine keeps_mk ?_ ?_ ?_ ?_ ?_

theorem execSnap_keeps {a : State} {v0 v1} (h1 : Keeps a v1) : KeepsOut a (execSnap v0 v1) := by
  unfold execSnap
  repeat' first
    | with_reducible assumption
    | intro _
    | with_reducible apply keepsOut_next
    | with_reducible apply keepsOut_ite
    | with_reducible apply State.onFrame_keeps
    | with_reducible apply State.snapPut_keeps
    | with_reducible apply keeps_ite

theorem State.joinOp_keeps {a : State} {v0 v1} (h0 : Keeps a v0) : Keeps a (State.joinOp v0 v1) := by
  unfold State.joinOp
  repeat' first
    | with_reducible assumption
    | exact Nat.le_refl _
    | exact slots_same rfl
    | exact id
    | intro _
    | with_reducible apply State.quietCtxs_keeps
    | with_reducible apply State.leaveStop_keeps
    | with_reducible apply State.start0_keeps
    | with_reducible apply keeps_when
    | dsimp only
    | split
    | with_reducible refine keeps_mk ?_ ?_ ?_ ?_ ?_

theorem execSnapEnd_keeps {a : State} {v0 v1 v2 v3} (h3 : Keeps a v3) : KeepsOut a (execSnapEnd v0 v1 v2 v3) := by
  unfold execSnapEnd
  repeat' first
    | with_reducible assumption
    | exact Nat.le_refl _
    | exact slots_same rfl
    | exact id
    | intro _
    | with_reducible apply keepsOut_next
    | with_reducible apply keepsOut_ite
    | with_reducible apply State.onFrame_keeps
    | with_reducible apply State.at_keeps
    | with_reducible apply State.sendCap_keeps
    | with_reducible apply State.joinOp_keeps
    | with_reducible apply keeps_ite
    | dsimp only
    | split
    | with_reducible refine keeps_mk ?_ ?_ ?_ ?_ ?_

theorem execTrackPhaseEnd_keeps {a : State} {v0 v1} (h1 : Keeps a v1) : KeepsOut a (execTrackPhaseEnd v0 v1) := by
  unfold execTrackPhaseEnd
  repeat' first
    | with_reducible assumption
    | exact Nat.le_refl _
    | exact slots_same rfl
    | exact id
    | intro _
    | with_reducible apply keepsOut_next
    | with_reducible apply keepsOut_ite
    | with_reducible apply State.at_keeps
    | with_reducible apply State.twlCtrl_keeps
    | with_reducible apply State.send_keeps
    | with_reducible apply keeps_ite
    | dsimp only
    | split
    | with_reducible refine keeps_mk ?_ ?_ ?_ ?_ ?_

theorem execEnter_keeps {a : State} {v0 v1} (h1 : Keeps a v1) : KeepsOut a (execEnter v0 v1) := by
  unfold execEnter
  repeat' first
    | with_reducible assumption
    | exact Nat.le_refl _
    | exact slots_same rfl
    | exact id
    | intro _
    | with_reducible apply keepsOut_next
    | with_reducible apply keepsOut_ite
    | with_reducible apply State.onFrame_keeps
    | with_reducible apply keeps_ite
    | split
    | with_reducible refine keeps_mk ?_ ?_ ?_ ?_ ?_

theorem execEntryInstant_keeps {a : State} {v0 v1} (h1 : Keeps a v1) : KeepsOut a (execEntryInstant v0 v1) := by
  unfold execEntryInstant
  repeat' first
    | with_reducible assumption
    | exact Nat.le_refl _
    | exact slots_same rfl
    | exact id
    | intro _
    | with_reducible apply keepsOut_next
    | with_reducible apply keepsOut_ite
    | with_reducible apply State.at_keeps
    | with_reducible apply State.noticeAll_keeps
    | with_reducible apply State.setRole_keeps
    | with_reducible apply State.ev_keeps
    | with_reducible apply keeps_ite
    | dsimp only
    | split
    | with_reducible refine keeps_mk ?_ ?_ ?_ ?_ ?_

theorem execStnsync_keeps {a : State} {v0 v1 v2 v3 v4} (h4 : Keeps a v4) : KeepsOut a (execStnsync v0 v1 v2 v3 v4) := by
  unfold execStnsync
  repeat' first
    | with_reducible assumption
    | intro _
    | with_reducible apply keepsOut_next
    | with_reducible apply keepsOut_ite
    | with_reducible apply State.onFrame_keeps
    | with_reducible apply State.setFld_keeps
    | with_reducible apply State.stnSet_keeps
    | with_reducible apply State.onStn_keeps
    | with_reducible apply keeps_ite

theorem execTwlReq_keeps {a : State} {v0 v1 v2 v3 v4 v5} (h5 : Keeps a v5) : KeepsOut a (execTwlReq v0 v1 v2 v3 v4 v5) := by
  unfold execTwlReq
  repeat' first
    | with_reducible assumption
    | intro _
    | with_reducible apply keepsOut_next
    | with_reducible apply keepsOut_ite
    | with_reducible apply State.onFrame_keeps
    | with_reducible apply State.setFld_keeps
    | with_reducible apply State.onStn_keeps
    | with_reducible apply State.stnFrameOut_keeps
    | with_reducible apply keeps_ite

theorem execTwlShaft_keeps {a : State} {v0 v1 v2 v3} (h3 : Keeps a v3) : KeepsOut a (execTwlShaft v0 v1 v2 v3) := by
  unfold execTwlShaft
  repeat' first
    | with_reducible assumption
    | exact Nat.le_refl _
    | exact slots_same rfl
    | exact id
    | intro _
    | with_reducible apply keepsOut_next
    | with_reducible apply keepsOut_ite
    | with_reducible apply State.onFrame_keeps
    | with_reducible apply State.ok_keeps
    | with_reducible apply keeps_ite
    | with_reducible apply keeps_foldl
    | dsimp only
    | split
    | with_reducible refine keeps_mk ?_ ?_ ?_ ?_ ?_

theorem State.twlApply_keeps {a : State} {v0 v1} (h0 : Keeps a v0) : Keeps a (State.twlApply v0 v1) := by
  unfold State.twlApply
  repeat' first
    | with_reducible assumption
    | intro _
    | with_reducible apply State.autoJoin_keeps
    | with_reducible apply State.sendCap_keeps
    | with_reducible apply State.setRole_keeps
    | with_reducible apply State.linkClear_keeps
    | with_reducible apply keeps_ite

theorem State.twlClr_keeps {a : State} {v0 v1} (h0 : Keeps a v0) : Keeps a (State.twlClr v0 v1) := by
  unfold State.twlClr
  repeat' first
    | with_reducible assumption
    | intro _
    | with_reducible apply State.setFld_keeps
    | with_reducible apply State.clearAll_keeps
    | with_reducible apply keeps_when

theorem execTwlClr_keeps {a : State} {v0 v1} (h1 : Keeps a v1) : KeepsOut a (execTwlClr v0 v1) := by
  unfold execTwlClr
  repeat' first
    | with_reducible assumption
    | intro _
    | with_reducible apply keepsOut_next
    | with_reducible apply keepsOut_ite
    | with_reducible apply State.twlClr_keeps

theorem cmdTwlStatus_keeps {a : State} {v0 v1 v2} (h2 : Keeps a v2) : Keeps a (cmdTwlStatus v0 v1 v2) := by
  unfold cmdTwlStatus
  repeat' first
    | with_reducible assumption
    | intro _
    | with_reducible apply State.startLen_keeps
    | with_reducible apply State.ok_keeps

theorem cmdTwlJoin_keeps {a : State} {v0 v1 v2} (h2 : Keeps a v2) : Keeps a (cmdTwlJoin v0 v1 v2) := by
  unfold cmdTwlJoin
  repeat' first
    | with_reducible assumption
    | intro _
    | with_reducible apply State.startLen_keeps
    | with_reducible apply State.fail_keeps
    | with_reducible apply State.ev_keeps
    | with_reducible apply State.wr_keeps
    | with_reducible apply State.joinStart_keeps
    | with_reducible apply State.accept_keeps
    | with_reducible apply keeps_ite
    | split

theorem State.switchStart_keeps {a : State} {v0 v1} (h0 : Keeps a v0) : Keeps a (State.switchStart v0 v1) := by
  unfold State.switchStart
  repeat' first
    | with_reducible assumption
    | exact Nat.le_refl _
    | exact slots_same rfl
    | exact id
    | intro _
    | with_reducible apply State.propose_keeps
    | with_reducible refine keeps_mk ?_ ?_ ?_ ?_ ?_

theorem cmdTwlDetach_keeps {a : State} {v0 v1 v2} (h2 : Keeps a v2) : Keeps a (cmdTwlDetach v0 v1 v2) := by
  unfold cmdTwlDetach
  repeat' first
    | with_reducible assumption
    | intro _
    | with_reducible apply State.startLen_keeps
    | with_reducible apply State.noticeAll_keeps
    | with_reducible apply State.leaveTwin_keeps
    | with_reducible apply State.accept_keeps
    | with_reducible apply State.fail_keeps
    | with_reducible apply State.switchStart_keeps
    | with_reducible apply keeps_ite
    | split

theorem cmdTwlSwitchover_keeps {a : State} {v0 v1 v2} (h2 : Keeps a v2) : Keeps a (cmdTwlSwitchover v0 v1 v2) := by
  unfold cmdTwlSwitchover
  repeat' first
    | with_reducible assumption
    | intro _
    | with_reducible apply State.startLen_keeps
    | with_reducible apply State.fail_keeps
    | with_reducible apply State.switchStart_keeps
    | with_reducible apply State.accept_keeps
    | with_reducible apply keeps_ite

theorem cmdTwlGoSolo_keeps {a : State} {v0 v1 v2} (h2 : Keeps a v2) : Keeps a (cmdTwlGoSolo v0 v1 v2) := by
  unfold cmdTwlGoSolo
  repeat' first
    | with_reducible assumption
    | exact Nat.le_refl _
    | exact slots_same rfl
    | exact id
    | intro _
    | with_reducible apply State.startLen_keeps
    | with_reducible apply State.ok_keeps
    | with_reducible apply State.goAlone_keeps
    | with_reducible apply State.fail_keeps
    | with_reducible apply State.wait_keeps
    | with_reducible apply keeps_ite
    | split
    | with_reducible refine keeps_mk ?_ ?_ ?_ ?_ ?_

theorem cmdTwlEpochSet_keeps {a : State} {v0 v1 v2} (h2 : Keeps a v2) : Keeps a (cmdTwlEpochSet v0 v1 v2) := by
  unfold cmdTwlEpochSet
  repeat' first
    | with_reducible assumption
    | intro _
    | with_reducible apply State.startLen_keeps
    | with_reducible apply State.fail_keeps
    | with_reducible apply State.ok_keeps
    | with_reducible apply State.sendCap_keeps
    | with_reducible apply State.setEpoch_keeps
    | with_reducible apply keeps_ite

theorem cmdTwlCounters_keeps {a : State} {v0 v1 v2} (h2 : Keeps a v2) : Keeps a (cmdTwlCounters v0 v1 v2) := by
  unfold cmdTwlCounters
  repeat' first
    | with_reducible assumption
    | intro _
    | with_reducible apply State.startLen_keeps
    | with_reducible apply State.ok_keeps
    | with_reducible apply State.clearAll_keeps
    | with_reducible apply keeps_when

theorem execTwlStatus_keeps {a : State} {v0 v1 v2} (h2 : Keeps a v2) : KeepsOut a (execTwlStatus v0 v1 v2) := by
  unfold execTwlStatus
  repeat' first
    | with_reducible assumption
    | intro _
    | with_reducible apply keepsOut_next
    | with_reducible apply keepsOut_ite
    | with_reducible apply cmdTwlStatus_keeps

theorem execTwlJoin_keeps {a : State} {v0 v1 v2} (h2 : Keeps a v2) : KeepsOut a (execTwlJoin v0 v1 v2) := by
  unfold execTwlJoin
  repeat' first
    | with_reducible assumption
    | intro _
    | with_reducible apply keepsOut_next
    | with_reducible apply keepsOut_ite
    | with_reducible apply cmdTwlJoin_keeps

theorem execTwlDetach_keeps {a : State} {v0 v1 v2} (h2 : Keeps a v2) : KeepsOut a (execTwlDetach v0 v1 v2) := by
  unfold execTwlDetach
  repeat' first
    | with_reducible assumption
    | intro _
    | with_reducible apply keepsOut_next
    | with_reducible apply keepsOut_ite
    | with_reducible apply cmdTwlDetach_keeps

theorem execTwlSwitchover_keeps {a : State} {v0 v1 v2} (h2 : Keeps a v2) : KeepsOut a (execTwlSwitchover v0 v1 v2) := by
  unfold execTwlSwitchover
  repeat' first
    | with_reducible assumption
    | intro _
    | with_reducible apply keepsOut_next
    | with_reducible apply keepsOut_ite
    | with_reducible apply cmdTwlSwitchover_keeps

theorem execTwlGoSolo_keeps {a : State} {v0 v1 v2} (h2 : Keeps a v2) : KeepsOut a (execTwlGoSolo v0 v1 v2) := by
  unfold execTwlGoSolo
  repeat' first
    | with_reducible assumption
    | intro _
    | with_reducible apply keepsOut_next
    | with_reducible apply keepsOut_ite
    | with_reducible apply cmdTwlGoSolo_keeps

theorem execTwlEpochSet_keeps {a : State} {v0 v1 v2} (h2 : Keeps a v2) : KeepsOut a (execTwlEpochSet v0 v1 v2) := by
  unfold execTwlEpochSet
  repeat' first
    | with_reducible assumption
    | intro _
    | with_reducible apply keepsOut_next
    | with_reducible apply keepsOut_ite
    | with_reducible apply cmdTwlEpochSet_keeps

theorem execTwlCounters_keeps {a : State} {v0 v1 v2} (h2 : Keeps a v2) : KeepsOut a (execTwlCounters v0 v1 v2) := by
  unfold execTwlCounters
  repeat' first
    | with_reducible assumption
    | intro _
    | with_reducible apply keepsOut_next
    | with_reducible apply keepsOut_ite
    | with_reducible apply cmdTwlCounters_keeps

end Sys2Proof.Machine
end

