-- ==== Sys2Proof/Laws/KeepsMiuCmd.lean ====
section
/-! SUPPORT. What no command does (Laws.Keeps), said of every function of Machine.MiuCmd. -/

namespace Sys2Proof.Machine

theorem State.dmaClose_keeps {a : State} {v0 v1} (h0 : Keeps a v0) : Keeps a (State.dmaClose v0 v1) := by
  unfold State.dmaClose
  repeat' first
    | with_reducible assumption
    | intro _
    | with_reducible apply State.qClose_keeps
    | with_reducible apply keeps_when

theorem State.dmaEnd_keeps {a : State} {v0 v1 v2 v3} (h0 : Keeps a v0) : Keeps a (State.dmaEnd v0 v1 v2 v3) := by
  unfold State.dmaEnd
  repeat' first
    | with_reducible assumption
    | exact Nat.le_refl _
    | exact slots_same rfl
    | exact id
    | intro _
    | with_reducible apply State.fence_keeps
    | with_reducible apply State.wr_keeps
    | dsimp only
    | with_reducible refine keeps_mk ?_ ?_ ?_ ?_ ?_

theorem State.dmaHalt_keeps {a : State} {v0 v1 v2 v3} (h0 : Keeps a v0) : Keeps a (State.dmaHalt v0 v1 v2 v3) := by
  unfold State.dmaHalt
  repeat' first
    | with_reducible assumption
    | intro _
    | with_reducible apply State.wr_keeps
    | with_reducible apply State.dmaClose_keeps
    | with_reducible apply State.ev_keeps
    | with_reducible apply State.dmaEnd_keeps

theorem State.dmaLost_keeps {a : State} {v0 v1 v2} (h0 : Keeps a v0) : Keeps a (State.dmaLost v0 v1 v2) := by
  unfold State.dmaLost
  repeat' first
    | with_reducible assumption
    | intro _
    | with_reducible apply State.dmaHalt_keeps
    | with_reducible apply State.ev_keeps

theorem State.ixeLost_keeps {a : State} {v0 v1} (h0 : Keeps a v0) : Keeps a (State.ixeLost v0 v1) := by
  unfold State.ixeLost
  repeat' first
    | with_reducible assumption
    | intro _
    | with_reducible apply State.groupLost_keeps
    | with_reducible apply State.profileFail_keeps
    | with_reducible apply State.ptFail_keeps
    | with_reducible apply keeps_ite

theorem State.readFailed_keeps {a : State} {v0 v1 v2} (h0 : Keeps a v0) : Keeps a (State.readFailed v0 v1 v2) := by
  unfold State.readFailed
  repeat' first
    | with_reducible assumption
    | intro _
    | with_reducible apply State.integrity_keeps
    | with_reducible apply State.dmaLost_keeps
    | with_reducible apply State.enterFault_keeps
    | with_reducible apply State.ev_keeps
    | with_reducible apply State.ixeLost_keeps
    | with_reducible apply State.inc_keeps
    | with_reducible apply State.failTx_keeps
    | with_reducible apply keeps_ite
    | with_reducible apply keeps_when
    | split

theorem execRebuildEnd_keeps {a : State} {v0 v1 v2 v3} (h3 : Keeps a v3) : KeepsOut a (execRebuildEnd v0 v1 v2 v3) := by
  unfold execRebuildEnd
  repeat' first
    | with_reducible assumption
    | exact Nat.le_refl _
    | exact slots_same rfl
    | exact id
    | intro _
    | dsimp only
    | with_reducible apply keepsOut_next
    | with_reducible apply keepsOut_ite
    | with_reducible apply State.readFailed_keeps
    | with_reducible apply State.readWord_keeps
    | with_reducible apply State.countRebuild_keeps
    | with_reducible apply State.free_keeps
    | with_reducible apply State.unrebuildable_keeps
    | with_reducible apply State.filter_keeps
    | with_reducible apply keeps_ite
    | with_reducible apply keeps_ite_snd
    | refine keeps_of_pair (by assumption) ?_
    | refine keeps_of_triple (by assumption) ?_
    | split
    | with_reducible refine keeps_mk ?_ ?_ ?_ ?_ ?_

theorem State.miuTestWr_keeps {a : State} {v0 v1} (h0 : Keeps a v0) : Keeps a (State.miuTestWr v0 v1) := by
  unfold State.miuTestWr
  repeat' first
    | with_reducible assumption
    | intro _
    | with_reducible apply State.event_keeps
    | with_reducible apply State.setBit_keeps
    | with_reducible apply State.wr_keeps
    | with_reducible apply State.fence_keeps
    | with_reducible apply State.ev_keeps
    | with_reducible apply keeps_ite
    | with_reducible apply keeps_when

theorem execMiuTestWrite_keeps {a : State} {v0 v1} (h1 : Keeps a v1) : KeepsOut a (execMiuTestWrite v0 v1) := by
  unfold execMiuTestWrite
  repeat' first
    | with_reducible assumption
    | intro _
    | with_reducible apply keepsOut_next
    | with_reducible apply keepsOut_ite
    | with_reducible apply State.miuTestWr_keeps

theorem State.miuClear_keeps {a : State} {v0 v1} (h0 : Keeps a v0) : Keeps a (State.miuClear v0 v1) := by
  unfold State.miuClear
  repeat' first
    | with_reducible assumption
    | intro _
    | with_reducible apply State.clearAll_keeps
    | with_reducible apply keeps_when

theorem execMiuClr_keeps {a : State} {v0 v1} (h1 : Keeps a v1) : KeepsOut a (execMiuClr v0 v1) := by
  unfold execMiuClr
  repeat' first
    | with_reducible assumption
    | intro _
    | with_reducible apply keepsOut_next
    | with_reducible apply keepsOut_ite
    | with_reducible apply State.miuClear_keeps

theorem cmdMiuStatus_keeps {a : State} {v0 v1 v2} (h2 : Keeps a v2) : Keeps a (cmdMiuStatus v0 v1 v2) := by
  unfold cmdMiuStatus
  repeat' first
    | with_reducible assumption
    | intro _
    | with_reducible apply State.startLen_keeps
    | with_reducible apply State.ok_keeps
    | with_reducible apply State.miuClear_keeps

theorem State.setItem_keeps {a : State} {v0 v1 v2 v3 v4} (h0 : Keeps a v0) : Keeps a (State.setItem v0 v1 v2 v3 v4) := by
  unfold State.setItem
  repeat' first
    | with_reducible assumption
    | exact Nat.le_refl _
    | exact slots_same rfl
    | exact id
    | intro _
    | with_reducible apply State.setRaw_keeps
    | with_reducible apply State.filter_keeps
    | dsimp only
    | split
    | with_reducible refine keeps_mk ?_ ?_ ?_ ?_ ?_

theorem cmdMiuRawRead_keeps {a : State} {v0 v1 v2} (h2 : Keeps a v2) : Keeps a (cmdMiuRawRead v0 v1 v2) := by
  unfold cmdMiuRawRead
  repeat' first
    | with_reducible assumption
    | intro _
    | with_reducible apply State.startLen_keeps
    | with_reducible apply State.fail_keeps
    | with_reducible apply State.reWait_keeps
    | with_reducible apply State.ok_keeps
    | with_reducible apply keeps_ite

theorem cmdMiuRawWrite_keeps {a : State} {v0 v1 v2} (h2 : Keeps a v2) : Keeps a (cmdMiuRawWrite v0 v1 v2) := by
  unfold cmdMiuRawWrite
  repeat' first
    | with_reducible assumption
    | intro _
    | with_reducible apply State.startLen_keeps
    | with_reducible apply State.fail_keeps
    | with_reducible apply State.reWait_keeps
    | with_reducible apply State.flushEntry_keeps
    | with_reducible apply State.ok_keeps
    | with_reducible apply State.setItem_keeps
    | with_reducible apply keeps_ite
    | dsimp only
    | split

theorem cmdMiuScrub_keeps {a : State} {v0 v1 v2} (h2 : Keeps a v2) : Keeps a (cmdMiuScrub v0 v1 v2) := by
  unfold cmdMiuScrub
  repeat' first
    | with_reducible assumption
    | exact Nat.le_refl _
    | exact slots_same rfl
    | exact id
    | intro _
    | with_reducible apply State.startLen_keeps
    | with_reducible apply State.fail_keeps
    | with_reducible apply State.accept_keeps
    | with_reducible apply State.noticeAll_keeps
    | with_reducible apply State.ev_keeps
    | with_reducible apply State.setFld_keeps
    | with_reducible apply keeps_ite
    | dsimp only
    | split
    | with_reducible refine keeps_mk ?_ ?_ ?_ ?_ ?_

theorem cmdMiuScrubAbort_keeps {a : State} {v0 v1 v2} (h2 : Keeps a v2) : Keeps a (cmdMiuScrubAbort v0 v1 v2) := by
  unfold cmdMiuScrubAbort
  repeat' first
    | with_reducible assumption
    | exact Nat.le_refl _
    | exact slots_same rfl
    | exact id
    | intro _
    | with_reducible apply State.startLen_keeps
    | with_reducible apply State.ok_keeps
    | with_reducible apply State.abort_keeps
    | with_reducible refine keeps_mk ?_ ?_ ?_ ?_ ?_

theorem State.forgetCache_keeps {a : State} {v0 v1} (h0 : Keeps a v0) : Keeps a (State.forgetCache v0 v1) := by
  unfold State.forgetCache
  repeat' first
    | with_reducible assumption
    | exact Nat.le_refl _
    | exact slots_same rfl
    | exact id
    | intro _
    | with_reducible apply State.filter_keeps
    | with_reducible refine keeps_mk ?_ ?_ ?_ ?_ ?_

theorem State.scrubRepair_keeps {a : State} {v0 v1 v2} (h0 : Keeps a v0) : Keeps a (State.scrubRepair v0 v1 v2) := by
  unfold State.scrubRepair
  repeat' first
    | with_reducible assumption
    | exact Nat.le_refl _
    | exact slots_same rfl
    | exact id
    | intro _
    | with_reducible apply State.wr_keeps
    | with_reducible apply State.inc_keeps
    | with_reducible apply State.setRaw_keeps
    | with_reducible apply State.forgetCache_keeps
    | with_reducible apply State.ev_keeps
    | with_reducible apply State.addCnt_keeps
    | with_reducible apply State.filter_keeps
    | with_reducible apply keeps_foldl
    | dsimp only
    | with_reducible refine keeps_mk ?_ ?_ ?_ ?_ ?_

theorem State.scrubReinit_keeps {a : State} {v0 v1} (h0 : Keeps a v0) : Keeps a (State.scrubReinit v0 v1) := by
  unfold State.scrubReinit
  repeat' first
    | with_reducible assumption
    | exact Nat.le_refl _
    | exact slots_same rfl
    | exact id
    | intro _
    | with_reducible apply State.setRaw_keeps
    | with_reducible apply State.ev_keeps
    | with_reducible apply State.filter_keeps
    | with_reducible apply keeps_foldl
    | dsimp only
    | with_reducible refine keeps_mk ?_ ?_ ?_ ?_ ?_

theorem State.scrubLost_keeps {a : State} {v0 v1 v2} (h0 : Keeps a v0) : Keeps a (State.scrubLost v0 v1 v2).2 := by
  unfold State.scrubLost
  repeat' first
    | with_reducible assumption
    | intro _
    | dsimp only
    | with_reducible apply State.unrebuildable_keeps
    | with_reducible apply State.scrubReinit_keeps
    | with_reducible apply keeps_ite
    | with_reducible apply keeps_ite_snd
    | with_reducible apply keeps_when

theorem State.scrubPass_keeps {a : State} {v0 v1 v2 v3} (h0 : Keeps a v0) : Keeps a (State.scrubPass v0 v1 v2 v3).2 := by
  unfold State.scrubPass
  repeat' first
    | with_reducible assumption
    | intro _
    | dsimp only
    | with_reducible apply State.scrubRepair_keeps
    | with_reducible apply State.scrubLost_keeps
    | with_reducible apply keeps_ite
    | with_reducible apply keeps_ite_snd
    | refine keeps_of_pair (by assumption) ?_
    | refine keeps_of_triple (by assumption) ?_
    | split

theorem State.scrubEnd_keeps {a : State} {v0 v1} (h0 : Keeps a v0) : Keeps a (State.scrubEnd v0 v1) := by
  unfold State.scrubEnd
  repeat' first
    | with_reducible assumption
    | exact Nat.le_refl _
    | exact slots_same rfl
    | exact id
    | intro _
    | with_reducible apply State.noticeAll_keeps
    | with_reducible apply State.ev_keeps
    | with_reducible apply State.setFld_keeps
    | with_reducible apply State.abort_keeps
    | with_reducible apply keeps_ite
    | dsimp only
    | split
    | with_reducible refine keeps_mk ?_ ?_ ?_ ?_ ?_

theorem execScrubPage_keeps {a : State} {v0 v1} (h1 : Keeps a v1) : KeepsOut a (execScrubPage v0 v1) := by
  unfold execScrubPage
  repeat' first
    | with_reducible assumption
    | exact Nat.le_refl _
    | exact slots_same rfl
    | exact id
    | intro _
    | dsimp only
    | with_reducible apply keepsOut_next
    | with_reducible apply keepsOut_ite
    | with_reducible apply State.scrubEnd_keeps
    | with_reducible apply State.scrubPass_keeps
    | with_reducible apply State.abort_keeps
    | with_reducible apply keeps_ite
    | with_reducible apply keeps_ite_snd
    | refine keeps_of_pair (by assumption) ?_
    | refine keeps_of_triple (by assumption) ?_
    | split
    | with_reducible refine keeps_mk ?_ ?_ ?_ ?_ ?_

theorem execMiuStatus_keeps {a : State} {v0 v1 v2} (h2 : Keeps a v2) : KeepsOut a (execMiuStatus v0 v1 v2) := by
  unfold execMiuStatus
  repeat' first
    | with_reducible assumption
    | intro _
    | with_reducible apply keepsOut_next
    | with_reducible apply keepsOut_ite
    | with_reducible apply cmdMiuStatus_keeps

theorem execMiuScrub_keeps {a : State} {v0 v1 v2} (h2 : Keeps a v2) : KeepsOut a (execMiuScrub v0 v1 v2) := by
  unfold execMiuScrub
  repeat' first
    | with_reducible assumption
    | intro _
    | with_reducible apply keepsOut_next
    | with_reducible apply keepsOut_ite
    | with_reducible apply cmdMiuScrub_keeps

theorem execMiuScrubAbort_keeps {a : State} {v0 v1 v2} (h2 : Keeps a v2) : KeepsOut a (execMiuScrubAbort v0 v1 v2) := by
  unfold execMiuScrubAbort
  repeat' first
    | with_reducible assumption
    | intro _
    | with_reducible apply keepsOut_next
    | with_reducible apply keepsOut_ite
    | with_reducible apply cmdMiuScrubAbort_keeps

theorem execMiuRawRead_keeps {a : State} {v0 v1 v2} (h2 : Keeps a v2) : KeepsOut a (execMiuRawRead v0 v1 v2) := by
  unfold execMiuRawRead
  repeat' first
    | with_reducible assumption
    | intro _
    | with_reducible apply keepsOut_next
    | with_reducible apply keepsOut_ite
    | with_reducible apply cmdMiuRawRead_keeps

theorem execMiuRawWrite_keeps {a : State} {v0 v1 v2} (h2 : Keeps a v2) : KeepsOut a (execMiuRawWrite v0 v1 v2) := by
  unfold execMiuRawWrite
  repeat' first
    | with_reducible assumption
    | intro _
    | with_reducible apply keepsOut_next
    | with_reducible apply keepsOut_ite
    | with_reducible apply cmdMiuRawWrite_keeps

end Sys2Proof.Machine
end

