-- ==== Sys2Proof/Laws/KeepsEvr.lean ====
section
/-! SUPPORT. What no command does (Laws.Keeps), said of every function of Machine.Evr. -/

namespace Sys2Proof.Machine

theorem State.ringWrite_keeps {a : State} {v0 v1} (h0 : Keeps a v0) : Keeps a (State.ringWrite v0 v1) := by
  unfold State.ringWrite
  repeat' first
    | with_reducible assumption
    | exact Nat.le_refl _
    | exact slots_same rfl
    | exact id
    | intro _
    | with_reducible apply State.wr_keeps
    | with_reducible apply State.rsmDrop_keeps
    | with_reducible apply State.mramRaw_keeps
    | with_reducible apply State.filter_keeps
    | with_reducible apply keeps_ite
    | dsimp only
    | split
    | with_reducible refine keeps_mk ?_ ?_ ?_ ?_ ?_

theorem State.slotUnread_keeps {a : State} {v0 v1} (h0 : Keeps a v0) : Keeps a (State.slotUnread v0 v1) := by
  unfold State.slotUnread
  repeat' first
    | with_reducible assumption
    | intro _
    | with_reducible apply State.mramUnreadable_keeps
    | split

theorem State.reportSlot_keeps {a : State} {v0 v1} (h0 : Keeps a v0) : Keeps a (State.reportSlot v0 v1) := by
  unfold State.reportSlot
  repeat' first
    | with_reducible assumption
    | exact Nat.le_refl _
    | exact slots_same rfl
    | exact id
    | intro _
    | with_reducible apply State.slotUnread_keeps
    | with_reducible apply State.ev_keeps
    | with_reducible apply keeps_ite
    | dsimp only
    | split
    | with_reducible refine keeps_mk ?_ ?_ ?_ ?_ ?_

theorem State.ringScan_keeps {a : State} {v0} (h0 : Keeps a v0) : Keeps a (State.ringScan v0) := by
  unfold State.ringScan
  repeat' first
    | with_reducible assumption
    | intro _
    | with_reducible apply State.wr_keeps
    | with_reducible apply State.reportSlot_keeps
    | with_reducible apply keeps_ite
    | with_reducible apply keeps_foldl

theorem State.reportLost_keeps {a : State} {v0} (h0 : Keeps a v0) : Keeps a (State.reportLost v0) := by
  unfold State.reportLost
  repeat' first
    | with_reducible assumption
    | exact Nat.le_refl _
    | exact slots_same rfl
    | exact id
    | intro _
    | with_reducible apply State.evHold_keeps
    | with_reducible apply keeps_ite
    | dsimp only
    | split
    | with_reducible refine keeps_mk ?_ ?_ ?_ ?_ ?_

theorem State.ringClear_keeps {a : State} {v0} (h0 : Keeps a v0) : Keeps a (State.ringClear v0) := by
  unfold State.ringClear
  repeat' first
    | with_reducible assumption
    | exact Nat.le_refl _
    | exact slots_same rfl
    | exact id
    | exact swf_memPut _ _
    | exact swf_imgPut _
    | exact swf_sput _ _
    | exact swfBy_sput _ _
    | exact swf_skeep _
    | exact swfBy_skeep _
    | exact fun _ => swf_nil _
    | exact fun _ => swfBy_nil _
    | exact swf_fold_memPut _ _
    | intro _
    | with_reducible apply State.rsmDrop_keeps
    | with_reducible apply State.filter_keeps
    | with_reducible apply keeps_ite
    | dsimp only
    | split
    | with_reducible refine keeps_all ?_ ?_ ?_ ?_ ?_ ?_ ?_ ?_ ?_ ?_ ?_

theorem State.drainStep_keeps {a : State} {v0} (h0 : Keeps a v0) : Keeps a (State.drainStep v0) := by
  unfold State.drainStep
  repeat' first
    | with_reducible assumption
    | exact Nat.le_refl _
    | exact slots_same rfl
    | exact id
    | intro _
    | with_reducible apply State.ev_keeps
    | with_reducible apply keeps_ite
    | split
    | with_reducible refine keeps_mk ?_ ?_ ?_ ?_ ?_

theorem execEventRecordWrite_keeps {a : State} {v0} (h0 : Keeps a v0) : KeepsOut a (execEventRecordWrite v0) := by
  unfold execEventRecordWrite
  refine keepsOut_next ?_
  split
  · exact h0
  · rename_i r rest e
    refine keeps_ite h0 ?_
    extract_lets _ s t
    have k : Keeps a s := keeps_mk h0 (Nat.le_refl _) (Nat.le_refl _) (slots_same rfl) fun i => by
      rw [e] at i
      exact Nat.le_of_succ_le i
    clear_value s
    have kt : Keeps a t :=
      keeps_ite (State.noticeAll_keeps (State.ringWrite_keeps (State.ringClear_keeps k))) (State.ringWrite_keeps k)
    exact State.reportLost_keeps (State.drainStep_keeps kt)

theorem execRateWindowStart_keeps {a : State} {v0 v1 v2} (h2 : Keeps a v2) : KeepsOut a (execRateWindowStart v0 v1 v2) := by
  unfold execRateWindowStart
  repeat' first
    | with_reducible assumption
    | exact Nat.le_refl _
    | exact slots_same rfl
    | exact id
    | intro _
    | with_reducible apply keepsOut_next
    | with_reducible apply keepsOut_ite
    | with_reducible apply State.at_keeps
    | with_reducible apply keeps_ite
    | dsimp only
    | split
    | with_reducible refine keeps_mk ?_ ?_ ?_ ?_ ?_

theorem State.evrApply_keeps {a : State} {v0 v1} (h0 : Keeps a v0) : Keeps a (State.evrApply v0 v1) := by
  unfold State.evrApply
  repeat' first
    | with_reducible assumption
    | exact Nat.le_refl _
    | exact slots_same rfl
    | exact id
    | intro _
    | with_reducible refine keeps_mk ?_ ?_ ?_ ?_ ?_

theorem State.evrFreeze_keeps {a : State} {v0} (h0 : Keeps a v0) : Keeps a (State.evrFreeze v0) := by
  unfold State.evrFreeze
  repeat' first
    | with_reducible assumption
    | exact Nat.le_refl _
    | exact slots_same rfl
    | exact id
    | intro _
    | with_reducible apply State.ev_keeps
    | with_reducible apply keeps_when
    | dsimp only
    | with_reducible refine keeps_mk ?_ ?_ ?_ ?_ ?_

theorem State.evrUnfreeze_keeps {a : State} {v0} (h0 : Keeps a v0) : Keeps a (State.evrUnfreeze v0) := by
  unfold State.evrUnfreeze
  repeat' first
    | with_reducible assumption
    | exact Nat.le_refl _
    | exact slots_same rfl
    | exact id
    | intro _
    | with_reducible apply State.ev_keeps
    | with_reducible apply keeps_ite
    | with_reducible apply keeps_when
    | dsimp only
    | split
    | with_reducible refine keeps_mk ?_ ?_ ?_ ?_ ?_

theorem execFreezeTimeout_keeps {a : State} {v0 v1} (h1 : Keeps a v1) : KeepsOut a (execFreezeTimeout v0 v1) := by
  unfold execFreezeTimeout
  repeat' first
    | with_reducible assumption
    | intro _
    | with_reducible apply keepsOut_next
    | with_reducible apply keepsOut_ite
    | with_reducible apply State.at_keeps
    | with_reducible apply State.ev_keeps
    | with_reducible apply State.evrUnfreeze_keeps
    | with_reducible apply keeps_ite

theorem State.evrCtrlWr_keeps {a : State} {v0 v1} (h0 : Keeps a v0) : Keeps a (State.evrCtrlWr v0 v1) := by
  unfold State.evrCtrlWr
  repeat' first
    | with_reducible assumption
    | intro _
    | with_reducible apply State.evrFreeze_keeps
    | with_reducible apply State.evrUnfreeze_keeps
    | with_reducible apply keeps_ite

theorem execEvrCtrlFreeze_keeps {a : State} {v0 v1} (h1 : Keeps a v1) : KeepsOut a (execEvrCtrlFreeze v0 v1) := by
  unfold execEvrCtrlFreeze
  repeat' first
    | with_reducible assumption
    | intro _
    | with_reducible apply keepsOut_next
    | with_reducible apply keepsOut_ite
    | with_reducible apply State.evrCtrlWr_keeps
    | with_reducible apply State.at_keeps

theorem execEvrCtrlUnfreeze_keeps {a : State} {v0} (h0 : Keeps a v0) : KeepsOut a (execEvrCtrlUnfreeze v0) := by
  unfold execEvrCtrlUnfreeze
  repeat' first
    | with_reducible assumption
    | intro _
    | with_reducible apply keepsOut_next
    | with_reducible apply keepsOut_ite
    | with_reducible apply State.evrCtrlWr_keeps

theorem State.evrClrWr_keeps {a : State} {v0 v1} (h0 : Keeps a v0) : Keeps a (State.evrClrWr v0 v1) := by
  unfold State.evrClrWr
  repeat' first
    | with_reducible assumption
    | exact Nat.le_refl _
    | exact slots_same rfl
    | exact id
    | exact swf_memPut _ _
    | exact swf_imgPut _
    | exact swf_sput _ _
    | exact swfBy_sput _ _
    | exact swf_skeep _
    | exact swfBy_skeep _
    | exact fun _ => swf_nil _
    | exact fun _ => swfBy_nil _
    | exact swf_fold_memPut _ _
    | intro _
    | with_reducible apply keeps_ite
    | split
    | with_reducible refine keeps_all ?_ ?_ ?_ ?_ ?_ ?_ ?_ ?_ ?_ ?_ ?_

theorem execEvrClr_keeps {a : State} {v0 v1} (h1 : Keeps a v1) : KeepsOut a (execEvrClr v0 v1) := by
  unfold execEvrClr
  repeat' first
    | with_reducible assumption
    | intro _
    | with_reducible apply keepsOut_next
    | with_reducible apply keepsOut_ite
    | with_reducible apply State.evrClrWr_keeps

theorem cmdEvrStatus_keeps {a : State} {v0 v1 v2} (h2 : Keeps a v2) : Keeps a (cmdEvrStatus v0 v1 v2) := by
  unfold cmdEvrStatus
  repeat' first
    | with_reducible assumption
    | intro _
    | with_reducible apply State.startLen_keeps
    | with_reducible apply State.ok_keeps

theorem State.evrScan_keeps {a : State} {v0 v1 v2 v3} (h1 : Keeps a v1) : Keeps a (State.evrScan v0 v1 v2 v3).2.2 := by
  induction v0 generalizing v1 v2 v3 with
  | zero => exact h1
  | succ n ih =>
    unfold State.evrScan
    split
    · exact h1
    · exact ih (State.reportSlot_keeps h1)

theorem cmdEvrRead_keeps {a : State} {v0 v1 v2} (h2 : Keeps a v2) : Keeps a (cmdEvrRead v0 v1 v2) := by
  unfold cmdEvrRead
  refine State.startLen_keeps h2 fun t ht => ?_
  extract_lets fr n rseq d m
  clear_value m d rseq
  refine keeps_ite (State.fail_keeps ht) (keeps_ite (State.ok_keeps ht) ?_)
  generalize (rseq + 2 ^ 32 - m) % 2 ^ 32 = x
  have k := State.evrScan_keeps (v0 := m) (v2 := x) (v3 := n) ht
  generalize State.evrScan m t x n = p at k
  obtain ⟨nx, r, s⟩ := p
  exact State.ok_keeps k

theorem cmdEvrFreeze_keeps {a : State} {v0 v1 v2} (h2 : Keeps a v2) : Keeps a (cmdEvrFreeze v0 v1 v2) := by
  unfold cmdEvrFreeze
  repeat' first
    | with_reducible assumption
    | intro _
    | with_reducible apply State.startLen_keeps
    | with_reducible apply State.ok_keeps
    | with_reducible apply State.evrFreeze_keeps

theorem cmdEvrUnfreeze_keeps {a : State} {v0 v1 v2} (h2 : Keeps a v2) : Keeps a (cmdEvrUnfreeze v0 v1 v2) := by
  unfold cmdEvrUnfreeze
  repeat' first
    | with_reducible assumption
    | intro _
    | with_reducible apply State.startLen_keeps
    | with_reducible apply State.ok_keeps
    | with_reducible apply State.evrUnfreeze_keeps

theorem cmdEvrClear_keeps {a : State} {v0 v1 v2} (h2 : Keeps a v2) : Keeps a (cmdEvrClear v0 v1 v2) := by
  unfold cmdEvrClear
  repeat' first
    | with_reducible assumption
    | intro _
    | with_reducible apply State.startLen_keeps
    | with_reducible apply State.fail_keeps
    | with_reducible apply State.accept_keeps
    | with_reducible apply keeps_ite

theorem State.evrClearPlace_keeps {a : State} {v0} (h0 : Keeps a v0) : Keeps a (State.evrClearPlace v0) := by
  unfold State.evrClearPlace
  repeat' first
    | with_reducible assumption
    | exact Nat.le_refl _
    | exact slots_same rfl
    | exact id
    | intro _
    | with_reducible apply State.evHold_keeps
    | with_reducible apply keeps_ite
    | dsimp only
    | split
    | with_reducible refine keeps_mk ?_ ?_ ?_ ?_ ?_

theorem execEvrStatus_keeps {a : State} {v0 v1 v2} (h2 : Keeps a v2) : KeepsOut a (execEvrStatus v0 v1 v2) := by
  unfold execEvrStatus
  repeat' first
    | with_reducible assumption
    | intro _
    | with_reducible apply keepsOut_next
    | with_reducible apply keepsOut_ite
    | with_reducible apply cmdEvrStatus_keeps

theorem execEvrRead_keeps {a : State} {v0 v1 v2} (h2 : Keeps a v2) : KeepsOut a (execEvrRead v0 v1 v2) := by
  unfold execEvrRead
  repeat' first
    | with_reducible assumption
    | intro _
    | with_reducible apply keepsOut_next
    | with_reducible apply keepsOut_ite
    | with_reducible apply cmdEvrRead_keeps

theorem execEvrFreeze_keeps {a : State} {v0 v1 v2} (h2 : Keeps a v2) : KeepsOut a (execEvrFreeze v0 v1 v2) := by
  unfold execEvrFreeze
  repeat' first
    | with_reducible assumption
    | intro _
    | with_reducible apply keepsOut_next
    | with_reducible apply keepsOut_ite
    | with_reducible apply cmdEvrFreeze_keeps

theorem execEvrUnfreeze_keeps {a : State} {v0 v1 v2} (h2 : Keeps a v2) : KeepsOut a (execEvrUnfreeze v0 v1 v2) := by
  unfold execEvrUnfreeze
  repeat' first
    | with_reducible assumption
    | intro _
    | with_reducible apply keepsOut_next
    | with_reducible apply keepsOut_ite
    | with_reducible apply cmdEvrUnfreeze_keeps

theorem execEvrClear_keeps {a : State} {v0 v1 v2} (h2 : Keeps a v2) : KeepsOut a (execEvrClear v0 v1 v2) := by
  unfold execEvrClear
  repeat' first
    | with_reducible assumption
    | intro _
    | with_reducible apply keepsOut_next
    | with_reducible apply keepsOut_ite
    | with_reducible apply cmdEvrClear_keeps

end Sys2Proof.Machine
end

