-- ==== Sys2Proof/Laws/KeepsCommit.lean ====
section
/-! SUPPORT. What no command does (Laws.Keeps), said of every function of Machine.Commit. -/

namespace Sys2Proof.Machine

theorem State.commitReq_keeps {a : State} {v0 v1} (h0 : Keeps a v0) : Keeps a (State.commitReq v0 v1) := by
  unfold State.commitReq
  repeat' first
    | with_reducible assumption
    | exact Nat.le_refl _
    | exact slots_same rfl
    | exact id
    | intro _
    | with_reducible apply keeps_ite
    | split
    | with_reducible refine keeps_mk ?_ ?_ ?_ ?_ ?_

theorem State.commitDone_keeps {a : State} {v0 v1 v2 v3} (h0 : Keeps a v0) : Keeps a (State.commitDone v0 v1 v2 v3) := by
  unfold State.commitDone
  repeat' first
    | with_reducible assumption
    | exact Nat.le_refl _
    | exact slots_same rfl
    | exact id
    | intro _
    | with_reducible apply State.notice_keeps
    | with_reducible apply State.commitReq_keeps
    | with_reducible apply State.filter_keeps
    | with_reducible apply keeps_ite
    | with_reducible apply keeps_foldl
    | dsimp only
    | split
    | with_reducible refine keeps_mk ?_ ?_ ?_ ?_ ?_

theorem State.commitReject_keeps {a : State} {v0 v1 v2 v3} (h0 : Keeps a v0) : Keeps a (State.commitReject v0 v1 v2 v3) := by
  unfold State.commitReject
  repeat' first
    | with_reducible assumption
    | intro _
    | with_reducible apply State.ev_keeps
    | with_reducible apply State.setBit_keeps
    | with_reducible apply State.commitDone_keeps
    | with_reducible apply State.noticeAll_keeps
    | with_reducible apply keeps_ite
    | with_reducible apply keeps_when

theorem State.commitWr_keeps {a : State} {v0 v1} (h0 : Keeps a v0) : Keeps a (State.commitWr v0 v1) := by
  unfold State.commitWr
  repeat' first
    | with_reducible assumption
    | intro _
    | with_reducible apply State.commitReject_keeps
    | with_reducible apply State.commitReq_keeps
    | with_reducible apply keeps_ite

theorem execCommitWrite_keeps {a : State} {v0 v1} (h1 : Keeps a v1) : KeepsOut a (execCommitWrite v0 v1) := by
  unfold execCommitWrite
  repeat' first
    | with_reducible assumption
    | intro _
    | with_reducible apply keepsOut_next
    | with_reducible apply keepsOut_ite
    | with_reducible apply State.commitWr_keeps
    | split

theorem execCommitTimeout_keeps {a : State} {v0 v1 v2} (h2 : Keeps a v2) : KeepsOut a (execCommitTimeout v0 v1 v2) := by
  unfold execCommitTimeout
  repeat' first
    | with_reducible assumption
    | intro _
    | with_reducible apply keepsOut_next
    | with_reducible apply keepsOut_ite
    | with_reducible apply State.at_keeps
    | with_reducible apply State.commitReject_keeps
    | with_reducible apply keeps_ite
    | dsimp only
    | split

theorem State.putLive_keeps {a : State} {v0 v1} (h0 : Keeps a v0) : Keeps a (State.putLive v0 v1) := by
  unfold State.putLive
  repeat' first
    | with_reducible assumption
    | exact Nat.le_refl _
    | exact slots_same rfl
    | exact id
    | intro _
    | with_reducible apply keeps_foldl
    | with_reducible refine keeps_mk ?_ ?_ ?_ ?_ ?_

end Sys2Proof.Machine
end

