-- ==== Sys2Proof/Laws/KeepsRtc.lean ====
section
/-! SUPPORT. What no command does (Laws.Keeps), said of every function of Machine.Rtc. -/

namespace Sys2Proof.Machine

theorem State.setCalendar_keeps {a : State} {v0 v1 v2 v3 v4 v5 v6} (h0 : Keeps a v0) : Keeps a (State.setCalendar v0 v1 v2 v3 v4 v5 v6) := by
  unfold State.setCalendar
  repeat' first
    | with_reducible assumption
    | intro _
    | with_reducible apply State.wrs_keeps

theorem State.newSecond_keeps {a : State} {v0} (h0 : Keeps a v0) : Keeps a (State.newSecond v0) := by
  unfold State.newSecond
  repeat' first
    | with_reducible assumption
    | intro _
    | with_reducible apply State.wr_keeps

theorem State.rollOver_keeps {a : State} {v0} (h0 : Keeps a v0) : Keeps a (State.rollOver v0) := by
  unfold State.rollOver
  repeat' first
    | with_reducible assumption
    | intro _
    | with_reducible apply State.setCalendar_keeps
    | with_reducible apply keeps_ite

theorem execRtcSecond_keeps {a : State} {v0 v1} (h1 : Keeps a v1) : KeepsOut a (execRtcSecond v0 v1) := by
  unfold execRtcSecond
  repeat' first
    | with_reducible assumption
    | intro _
    | with_reducible apply keepsOut_next
    | with_reducible apply keepsOut_ite
    | with_reducible apply State.at_keeps
    | with_reducible apply State.newSecond_keeps
    | with_reducible apply State.rollOver_keeps
    | with_reducible apply keeps_ite

theorem execTrimWindow_keeps {a : State} {v0} (h0 : Keeps a v0) : KeepsOut a (execTrimWindow v0) := by
  unfold execTrimWindow
  repeat' first
    | with_reducible assumption
    | exact Nat.le_refl _
    | exact slots_same rfl
    | exact id
    | intro _
    | with_reducible apply keepsOut_next
    | with_reducible apply keepsOut_ite
    | with_reducible refine keeps_mk ?_ ?_ ?_ ?_ ?_

theorem State.thaw_keeps {a : State} {v0 v1} (h0 : Keeps a v0) : Keeps a (State.thaw v0 v1) := by
  unfold State.thaw
  repeat' first
    | with_reducible assumption
    | exact Nat.le_refl _
    | exact slots_same rfl
    | exact id
    | intro _
    | with_reducible apply State.filter_keeps
    | with_reducible refine keeps_mk ?_ ?_ ?_ ?_ ?_

theorem State.rtcRead_keeps {a : State} {v0 v1 v2} (h0 : Keeps a v0) : Keeps a (State.rtcRead v0 v1 v2).2 := by
  unfold State.rtcRead
  repeat' first
    | with_reducible assumption
    | exact Nat.le_refl _
    | exact slots_same rfl
    | exact id
    | intro _
    | dsimp only
    | with_reducible apply State.thaw_keeps
    | with_reducible apply keeps_ite
    | with_reducible apply keeps_ite_snd
    | refine keeps_of_pair (by assumption) ?_
    | refine keeps_of_triple (by assumption) ?_
    | split
    | with_reducible refine keeps_mk ?_ ?_ ?_ ?_ ?_

theorem execRtcShadowRead_keeps {a : State} {v0 v1 v2 v3} (h3 : Keeps a v3) : KeepsOut a (execRtcShadowRead v0 v1 v2 v3) := by
  unfold execRtcShadowRead
  repeat' first
    | with_reducible assumption
    | intro _
    | dsimp only
    | with_reducible apply keepsOut_next
    | with_reducible apply keepsOut_ite
    | with_reducible apply State.at_keeps
    | with_reducible apply State.rtcRead_keeps
    | with_reducible apply keeps_ite

theorem execRtcFreezeTimeout_keeps {a : State} {v0 v1 v2} (h2 : Keeps a v2) : KeepsOut a (execRtcFreezeTimeout v0 v1 v2) := by
  unfold execRtcFreezeTimeout
  repeat' first
    | with_reducible assumption
    | intro _
    | with_reducible apply keepsOut_next
    | with_reducible apply keepsOut_ite
    | with_reducible apply State.at_keeps
    | with_reducible apply State.thaw_keeps
    | with_reducible apply keeps_ite

theorem State.pairLo_keeps {a : State} {v0 v1 v2 v3 v4} (h0 : Keeps a v0) : Keeps a (State.pairLo v0 v1 v2 v3 v4).2 := by
  unfold State.pairLo
  repeat' first
    | with_reducible assumption
    | intro _
    | dsimp only
    | with_reducible apply State.setLatch_keeps

theorem State.rtcRegRead_keeps {a : State} {v0 v1 v2} (h0 : Keeps a v0) : Keeps a (State.rtcRegRead v0 v1 v2).2 := by
  unfold State.rtcRegRead
  repeat' first
    | with_reducible assumption
    | intro _
    | dsimp only
    | with_reducible apply State.rtcRead_keeps
    | with_reducible apply State.pairLo_keeps
    | with_reducible apply keeps_ite
    | with_reducible apply keeps_ite_snd

theorem State.dtimeRead_keeps {a : State} {v0 v1 v2} (h0 : Keeps a v0) : Keeps a (State.dtimeRead v0 v1 v2).2 := by
  unfold State.dtimeRead
  repeat' first
    | with_reducible assumption
    | intro _
    | dsimp only
    | with_reducible apply State.pairLo_keeps
    | with_reducible apply keeps_ite
    | with_reducible apply keeps_ite_snd

theorem State.rtcApply_keeps {a : State} {v0} (h0 : Keeps a v0) : Keeps a (State.rtcApply v0) := by
  unfold State.rtcApply
  repeat' first
    | with_reducible assumption
    | intro _
    | with_reducible apply State.newSecond_keeps
    | with_reducible apply State.setCalendar_keeps
    | with_reducible apply State.event_keeps
    | with_reducible apply State.setBit_keeps
    | with_reducible apply State.noticeAll_keeps

theorem execRtcLostSet_keeps {a : State} {v0} (h0 : Keeps a v0) : KeepsOut a (execRtcLostSet v0) := by
  unfold execRtcLostSet
  repeat' first
    | with_reducible assumption
    | exact Nat.le_refl _
    | exact slots_same rfl
    | exact id
    | exact swf_memPut _ _
    | exact swf_imgPut _
    | exact swf_sput _ _
    | exact swfBy_sput _ _
    | exact swf_skeep _
    | exact swfBy_skeep _
    | exact fun _ => swf_nil _
    | exact fun _ => swfBy_nil _
    | exact swf_fold_memPut _ _
    | intro _
    | with_reducible apply keepsOut_next
    | with_reducible apply keepsOut_ite
    | with_reducible refine keeps_all ?_ ?_ ?_ ?_ ?_ ?_ ?_ ?_ ?_ ?_ ?_

theorem execAoSourceSwitch_keeps {a : State} {v0 v1} (h1 : Keeps a v1) : KeepsOut a (execAoSourceSwitch v0 v1) := by
  unfold execAoSourceSwitch
  repeat' first
    | with_reducible assumption
    | intro _
    | with_reducible apply keepsOut_next
    | with_reducible apply keepsOut_ite
    | with_reducible apply State.setBit_keeps

theorem execBatlowSet_keeps {a : State} {v0} (h0 : Keeps a v0) : KeepsOut a (execBatlowSet v0) := by
  unfold execBatlowSet
  repeat' first
    | with_reducible assumption
    | intro _
    | with_reducible apply keepsOut_next
    | with_reducible apply keepsOut_ite
    | with_reducible apply State.ev_keeps
    | with_reducible apply State.setBit_keeps
    | with_reducible apply keeps_ite

theorem execBatlowClear_keeps {a : State} {v0} (h0 : Keeps a v0) : KeepsOut a (execBatlowClear v0) := by
  unfold execBatlowClear
  repeat' first
    | with_reducible assumption
    | intro _
    | with_reducible apply keepsOut_next
    | with_reducible apply keepsOut_ite
    | with_reducible apply State.setBit_keeps

theorem execChargerCutOff_keeps {a : State} {v0 v1} (h1 : Keeps a v1) : KeepsOut a (execChargerCutOff v0 v1) := by
  unfold execChargerCutOff
  repeat' first
    | with_reducible assumption
    | exact Nat.le_refl _
    | exact slots_same rfl
    | exact id
    | intro _
    | with_reducible apply keepsOut_next
    | with_reducible apply keepsOut_ite
    | with_reducible refine keeps_mk ?_ ?_ ?_ ?_ ?_

theorem State.rtcTrimWr_keeps {a : State} {v0 v1} (h0 : Keeps a v0) : Keeps a (State.rtcTrimWr v0 v1) := by
  unfold State.rtcTrimWr
  repeat' first
    | with_reducible assumption
    | intro _
    | with_reducible apply State.wr_keeps
    | with_reducible apply keeps_ite

theorem State.rtcChgWr_keeps {a : State} {v0 v1} (h0 : Keeps a v0) : Keeps a (State.rtcChgWr v0 v1) := by
  unfold State.rtcChgWr
  repeat' first
    | with_reducible assumption
    | intro _
    | with_reducible apply State.wr_keeps
    | with_reducible apply keeps_ite

theorem State.wdtNewPeriod_keeps {a : State} {v0} (h0 : Keeps a v0) : Keeps a (State.wdtNewPeriod v0) := by
  unfold State.wdtNewPeriod
  repeat' first
    | with_reducible assumption
    | exact Nat.le_refl _
    | exact slots_same rfl
    | exact id
    | intro _
    | with_reducible apply State.wr_keeps
    | with_reducible apply State.start_keeps
    | with_reducible apply keeps_foldl
    | dsimp only
    | with_reducible refine keeps_mk ?_ ?_ ?_ ?_ ?_

theorem State.wdtService_keeps {a : State} {v0} (h0 : Keeps a v0) : Keeps a (State.wdtService v0).2 := by
  unfold State.wdtService
  repeat' first
    | with_reducible assumption
    | exact Nat.le_refl _
    | exact slots_same rfl
    | exact id
    | intro _
    | dsimp only
    | with_reducible apply State.ev_keeps
    | with_reducible apply State.inc_keeps
    | with_reducible apply State.wdtNewPeriod_keeps
    | with_reducible apply keeps_ite
    | with_reducible apply keeps_ite_snd
    | with_reducible apply keeps_when
    | refine keeps_of_pair (by assumption) ?_
    | refine keeps_of_triple (by assumption) ?_
    | split
    | with_reducible refine keeps_mk ?_ ?_ ?_ ?_ ?_

theorem State.setKeyStep_keeps {a : State} {v0 v1} (h0 : Keeps a v0) : Keeps a (State.setKeyStep v0 v1) := by
  unfold State.setKeyStep
  repeat' first
    | with_reducible assumption
    | exact Nat.le_refl _
    | exact slots_same rfl
    | exact id
    | intro _
    | with_reducible refine keeps_mk ?_ ?_ ?_ ?_ ?_

theorem State.wdtKey_keeps {a : State} {v0 v1} (h0 : Keeps a v0) : Keeps a (State.wdtKey v0 v1).2 := by
  unfold State.wdtKey
  repeat' first
    | with_reducible assumption
    | intro _
    | dsimp only
    | with_reducible apply State.setKeyStep_keeps
    | with_reducible apply State.wdtService_keeps
    | with_reducible apply State.ev_keeps
    | with_reducible apply State.inc_keeps
    | with_reducible apply keeps_ite
    | with_reducible apply keeps_ite_snd

theorem execWdtKeyWrite_keeps {a : State} {v0 v1} (h1 : Keeps a v1) : KeepsOut a (execWdtKeyWrite v0 v1) := by
  unfold execWdtKeyWrite
  repeat' first
    | with_reducible assumption
    | intro _
    | dsimp only
    | with_reducible apply keepsOut_next
    | with_reducible apply keepsOut_ite
    | with_reducible apply State.wdtKey_keeps

theorem State.wdtMark_keeps {a : State} {v0 v1} (h0 : Keeps a v0) : Keeps a (State.wdtMark v0 v1) := by
  unfold State.wdtMark
  repeat' first
    | with_reducible assumption
    | exact Nat.le_refl _
    | exact slots_same rfl
    | exact id
    | intro _
    | with_reducible apply keeps_ite
    | split
    | with_reducible refine keeps_mk ?_ ?_ ?_ ?_ ?_

theorem State.wdtCheckinWr_keeps {a : State} {v0 v1} (h0 : Keeps a v0) : Keeps a (State.wdtCheckinWr v0 v1) := by
  unfold State.wdtCheckinWr
  repeat' first
    | with_reducible assumption
    | intro _
    | with_reducible apply State.wdtMark_keeps
    | with_reducible apply keeps_ite

theorem execWdtCheckinWrite_keeps {a : State} {v0 v1} (h1 : Keeps a v1) : KeepsOut a (execWdtCheckinWrite v0 v1) := by
  unfold execWdtCheckinWrite
  repeat' first
    | with_reducible assumption
    | intro _
    | with_reducible apply keepsOut_next
    | with_reducible apply keepsOut_ite
    | with_reducible apply State.wdtCheckinWr_keeps

theorem State.wdtConfig_keeps {a : State} {v0 v1 v2} (h0 : Keeps a v0) : Keeps a (State.wdtConfig v0 v1 v2) := by
  unfold State.wdtConfig
  repeat' first
    | with_reducible assumption
    | exact Nat.le_refl _
    | exact slots_same rfl
    | exact id
    | intro _
    | with_reducible apply State.ev_keeps
    | with_reducible apply State.inc_keeps
    | with_reducible apply keeps_ite
    | split
    | with_reducible refine keeps_mk ?_ ?_ ?_ ?_ ?_

theorem execWdtConfigWrite_keeps {a : State} {v0 v1 v2} (h2 : Keeps a v2) : KeepsOut a (execWdtConfigWrite v0 v1 v2) := by
  unfold execWdtConfigWrite
  repeat' first
    | with_reducible assumption
    | intro _
    | with_reducible apply keepsOut_next
    | with_reducible apply keepsOut_ite
    | with_reducible apply State.wdtConfig_keeps

theorem State.wdtFirmware_keeps {a : State} {v0} (h0 : Keeps a v0) : Keeps a (State.wdtFirmware v0) := by
  unfold State.wdtFirmware
  repeat' first
    | with_reducible assumption
    | intro _
    | dsimp only
    | with_reducible apply State.wdtKey_keeps
    | with_reducible apply keeps_ite

theorem cmdRtcRead_keeps {a : State} {v0 v1 v2} (h2 : Keeps a v2) : Keeps a (cmdRtcRead v0 v1 v2) := by
  unfold cmdRtcRead
  repeat' first
    | with_reducible assumption
    | intro _
    | with_reducible apply State.startLen_keeps
    | with_reducible apply State.ok_keeps
    | with_reducible apply State.thaw_keeps

theorem cmdRtcSet_keeps {a : State} {v0 v1 v2} (h2 : Keeps a v2) : Keeps a (cmdRtcSet v0 v1 v2) := by
  unfold cmdRtcSet
  repeat' first
    | with_reducible assumption
    | intro _
    | with_reducible apply State.startLen_keeps
    | with_reducible apply State.wr_keeps
    | with_reducible apply State.commitReq_keeps
    | with_reducible apply State.accept_keeps

theorem cmdRtcTrim_keeps {a : State} {v0 v1 v2} (h2 : Keeps a v2) : Keeps a (cmdRtcTrim v0 v1 v2) := by
  unfold cmdRtcTrim
  repeat' first
    | with_reducible assumption
    | intro _
    | with_reducible apply State.startLen_keeps
    | with_reducible apply State.fail_keeps
    | with_reducible apply State.ok_keeps
    | with_reducible apply State.rtcTrimWr_keeps
    | with_reducible apply keeps_ite

theorem cmdWdtStatus_keeps {a : State} {v0 v1 v2} (h2 : Keeps a v2) : Keeps a (cmdWdtStatus v0 v1 v2) := by
  unfold cmdWdtStatus
  repeat' first
    | with_reducible assumption
    | intro _
    | with_reducible apply State.startLen_keeps
    | with_reducible apply State.ok_keeps

theorem cmdWdtService_keeps {a : State} {v0 v1 v2} (h2 : Keeps a v2) : Keeps a (cmdWdtService v0 v1 v2) := by
  unfold cmdWdtService
  repeat' first
    | with_reducible assumption
    | intro _
    | dsimp only
    | with_reducible apply State.startLen_keeps
    | with_reducible apply State.fail_keeps
    | with_reducible apply State.wdtKey_keeps
    | with_reducible apply State.ok_keeps
    | with_reducible apply keeps_ite

theorem cmdWdtCheckin_keeps {a : State} {v0 v1 v2} (h2 : Keeps a v2) : Keeps a (cmdWdtCheckin v0 v1 v2) := by
  unfold cmdWdtCheckin
  repeat' first
    | with_reducible assumption
    | intro _
    | with_reducible apply State.startLen_keeps
    | with_reducible apply State.fail_keeps
    | with_reducible apply State.ok_keeps
    | with_reducible apply State.wdtMark_keeps
    | with_reducible apply keeps_ite

theorem execRtcRead_keeps {a : State} {v0 v1 v2} (h2 : Keeps a v2) : KeepsOut a (execRtcRead v0 v1 v2) := by
  unfold execRtcRead
  repeat' first
    | with_reducible assumption
    | intro _
    | with_reducible apply keepsOut_next
    | with_reducible apply keepsOut_ite
    | with_reducible apply cmdRtcRead_keeps

theorem execRtcSet_keeps {a : State} {v0 v1 v2} (h2 : Keeps a v2) : KeepsOut a (execRtcSet v0 v1 v2) := by
  unfold execRtcSet
  repeat' first
    | with_reducible assumption
    | intro _
    | with_reducible apply keepsOut_next
    | with_reducible apply keepsOut_ite
    | with_reducible apply cmdRtcSet_keeps

theorem execRtcTrim_keeps {a : State} {v0 v1 v2} (h2 : Keeps a v2) : KeepsOut a (execRtcTrim v0 v1 v2) := by
  unfold execRtcTrim
  repeat' first
    | with_reducible assumption
    | intro _
    | with_reducible apply keepsOut_next
    | with_reducible apply keepsOut_ite
    | with_reducible apply cmdRtcTrim_keeps

theorem execWdtStatus_keeps {a : State} {v0 v1 v2} (h2 : Keeps a v2) : KeepsOut a (execWdtStatus v0 v1 v2) := by
  unfold execWdtStatus
  repeat' first
    | with_reducible assumption
    | intro _
    | with_reducible apply keepsOut_next
    | with_reducible apply keepsOut_ite
    | with_reducible apply cmdWdtStatus_keeps

theorem execWdtService_keeps {a : State} {v0 v1 v2} (h2 : Keeps a v2) : KeepsOut a (execWdtService v0 v1 v2) := by
  unfold execWdtService
  repeat' first
    | with_reducible assumption
    | intro _
    | with_reducible apply keepsOut_next
    | with_reducible apply keepsOut_ite
    | with_reducible apply cmdWdtService_keeps

theorem execWdtCheckin_keeps {a : State} {v0 v1 v2} (h2 : Keeps a v2) : KeepsOut a (execWdtCheckin v0 v1 v2) := by
  unfold execWdtCheckin
  repeat' first
    | with_reducible assumption
    | intro _
    | with_reducible apply keepsOut_next
    | with_reducible apply keepsOut_ite
    | with_reducible apply cmdWdtCheckin_keeps

end Sys2Proof.Machine
end

