-- ==== Sys2Proof/Laws/KeepsDma.lean ====
section
/-! SUPPORT. What no command does (Laws.Keeps), said of every function of Machine.Dma. -/

namespace Sys2Proof.Machine

theorem State.setDma_keeps {a : State} {v0 v1 v2} (h0 : Keeps a v0) : Keeps a (State.setDma v0 v1 v2) := by
  unfold State.setDma
  repeat' first
    | with_reducible assumption
    | exact Nat.le_refl _
    | exact slots_same rfl
    | exact id
    | intro _
    | with_reducible refine keeps_mk ?_ ?_ ?_ ?_ ?_

theorem State.dmaStart_keeps {a : State} {v0 v1} (h0 : Keeps a v0) : Keeps a (State.dmaStart v0 v1) := by
  unfold State.dmaStart
  repeat' first
    | with_reducible assumption
    | intro _
    | with_reducible apply State.wr_keeps
    | with_reducible apply State.dmaEnd_keeps
    | with_reducible apply State.setDma_keeps
    | with_reducible apply keeps_ite

theorem execDmacGoStart_keeps {a : State} {v0 v1} (h1 : Keeps a v1) : KeepsOut a (execDmacGoStart v0 v1) := by
  unfold execDmacGoStart
  repeat' first
    | with_reducible assumption
    | intro _
    | with_reducible apply keepsOut_next
    | with_reducible apply keepsOut_ite
    | with_reducible apply State.dmaStart_keeps
    | with_reducible apply keeps_ite

theorem State.dmaStop_keeps {a : State} {v0 v1} (h0 : Keeps a v0) : Keeps a (State.dmaStop v0 v1) := by
  unfold State.dmaStop
  repeat' first
    | with_reducible assumption
    | intro _
    | with_reducible apply State.dmaHalt_keeps
    | with_reducible apply keeps_ite

theorem execDmacGoStop_keeps {a : State} {v0 v1} (h1 : Keeps a v1) : KeepsOut a (execDmacGoStop v0 v1) := by
  unfold execDmacGoStop
  repeat' first
    | with_reducible assumption
    | intro _
    | with_reducible apply keepsOut_next
    | with_reducible apply keepsOut_ite
    | with_reducible apply State.dmaStop_keeps
    | with_reducible apply keeps_ite

theorem State.dmaGo_keeps {a : State} {v0 v1 v2} (h0 : Keeps a v0) : Keeps a (State.dmaGo v0 v1 v2) := by
  unfold State.dmaGo
  repeat' first
    | with_reducible assumption
    | intro _
    | with_reducible apply State.dmaStop_keeps
    | with_reducible apply State.dmaStart_keeps
    | with_reducible apply keeps_when

theorem State.dmaRead_keeps {a : State} {v0 v1 v2} (h0 : Keeps a v0) : Keeps a (State.dmaRead v0 v1 v2).2 := by
  unfold State.dmaRead
  repeat' first
    | with_reducible assumption
    | intro _
    | dsimp only
    | with_reducible apply State.dtimeRead_keeps
    | with_reducible apply State.rtcRegRead_keeps
    | with_reducible apply State.readBytes_keeps
    | with_reducible apply State.mramRead_keeps
    | with_reducible apply State.ok_keeps
    | with_reducible apply keeps_ite
    | with_reducible apply keeps_ite_snd
    | refine keeps_of_pair (by assumption) ?_
    | refine keeps_of_triple (by assumption) ?_
    | split

theorem State.dmaFail_keeps {a : State} {v0 v1 v2 v3} (h0 : Keeps a v0) : Keeps a (State.dmaFail v0 v1 v2 v3) := by
  unfold State.dmaFail
  repeat' first
    | with_reducible assumption
    | intro _
    | with_reducible apply State.dmaLost_keeps
    | with_reducible apply State.dmaHalt_keeps
    | with_reducible apply keeps_ite

theorem State.dmaIssue_keeps {a : State} {v0 v1} (h0 : Keeps a v0) : Keeps a (State.dmaIssue v0 v1) := by
  unfold State.dmaIssue
  repeat' first
    | with_reducible assumption
    | intro _
    | with_reducible apply State.mramWrite_keeps
    | with_reducible apply State.setDma_keeps
    | with_reducible apply State.setFld_keeps
    | with_reducible apply keeps_ite
    | dsimp only
    | split

theorem State.dmaDone_keeps {a : State} {v0 v1} (h0 : Keeps a v0) : Keeps a (State.dmaDone v0 v1) := by
  unfold State.dmaDone
  repeat' first
    | with_reducible assumption
    | intro _
    | with_reducible apply State.dmaIssue_keeps
    | with_reducible apply State.qClose_keeps
    | with_reducible apply State.dmaEnd_keeps
    | with_reducible apply keeps_when

theorem State.dmaPut_keeps {a : State} {v0 v1 v2 v3 v4} (h0 : Keeps a v0) : Keeps a (State.dmaPut v0 v1 v2 v3 v4) := by
  unfold State.dmaPut
  repeat' first
    | with_reducible assumption
    | intro _
    | with_reducible apply State.writeBytes_keeps
    | with_reducible apply State.setFld_keeps
    | with_reducible apply State.setDma_keeps
    | with_reducible apply State.dmaIssue_keeps
    | with_reducible apply keeps_ite

theorem State.dmaWait_keeps {a : State} {v0 v1} (h0 : Keeps a v0) : Keeps a (State.dmaWait v0 v1) := by
  unfold State.dmaWait
  repeat' first
    | with_reducible assumption
    | intro _
    | with_reducible apply State.qCountRefused_keeps
    | with_reducible apply State.setDma_keeps
    | with_reducible apply keeps_ite

theorem State.dmaCopy_keeps {a : State} {v0 v1} (h0 : Keeps a v0) : Keeps a (State.dmaCopy v0 v1).2 := by
  unfold State.dmaCopy
  repeat' first
    | with_reducible assumption
    | intro _
    | dsimp only
    | with_reducible apply State.dmaRead_keeps
    | with_reducible apply State.dmaFail_keeps
    | with_reducible apply State.dmaPut_keeps
    | with_reducible apply State.dmaHalt_keeps
    | with_reducible apply State.ok_keeps
    | with_reducible apply keeps_ite
    | with_reducible apply keeps_ite_snd
    | refine keeps_of_pair (by assumption) ?_
    | refine keeps_of_triple (by assumption) ?_
    | split

theorem State.dmaToQueue_keeps {a : State} {v0 v1} (h0 : Keeps a v0) : Keeps a (State.dmaToQueue v0 v1).2 := by
  unfold State.dmaToQueue
  repeat' first
    | with_reducible assumption
    | intro _
    | dsimp only
    | with_reducible apply State.dmaWait_keeps
    | with_reducible apply State.qOpen_keeps
    | with_reducible apply State.dmaHalt_keeps
    | with_reducible apply State.setDma_keeps
    | with_reducible apply State.dmaRead_keeps
    | with_reducible apply State.dmaFail_keeps
    | with_reducible apply State.qPushResume_keeps
    | with_reducible apply State.dmaDone_keeps
    | with_reducible apply State.setFld_keeps
    | with_reducible apply State.ok_keeps
    | with_reducible apply keeps_ite
    | with_reducible apply keeps_ite_snd
    | refine keeps_of_pair (by assumption) ?_
    | refine keeps_of_triple (by assumption) ?_
    | split

theorem State.dmaFromQueue_keeps {a : State} {v0 v1} (h0 : Keeps a v0) : Keeps a (State.dmaFromQueue v0 v1).2 := by
  unfold State.dmaFromQueue
  repeat' first
    | with_reducible assumption
    | intro _
    | dsimp only
    | with_reducible apply State.dmaHalt_keeps
    | with_reducible apply State.qPop_keeps
    | with_reducible apply State.dmaLost_keeps
    | with_reducible apply State.dmaDone_keeps
    | with_reducible apply State.dmaPut_keeps
    | with_reducible apply keeps_ite
    | with_reducible apply keeps_ite_snd
    | refine keeps_of_pair (by assumption) ?_
    | refine keeps_of_triple (by assumption) ?_
    | split

theorem State.dmaTurn_keeps {a : State} {v0 v1 v2} (h1 : Keeps a v1) : Keeps a (State.dmaTurn v0 v1 v2) := by
  induction v0 generalizing v1 with
  | zero => exact h1
  | succ n ih =>
    unfold State.dmaTurn
    split
    · exact h1
    split
    · exact State.dmaDone_keeps h1
    have k1 := State.dmaCopy_keeps (v1 := v2) h1
    have k2 := State.dmaToQueue_keeps (v1 := v2) h1
    have k3 := State.dmaFromQueue_keeps (v1 := v2) h1
    generalize v1.dmaCopy v2 = p1 at k1 ⊢
    generalize v1.dmaToQueue v2 = p2 at k2 ⊢
    generalize v1.dmaFromQueue v2 = p3 at k3 ⊢
    rcases v1.dmaKind v2 with _ | _ | m
    · exact keeps_ite (ih k1) k1
    · exact keeps_ite (ih k2) k2
    · exact keeps_ite (ih k3) k3

theorem execDmaBurst_keeps {a : State} {v0 v1} (h1 : Keeps a v1) : KeepsOut a (execDmaBurst v0 v1) := by
  unfold execDmaBurst
  repeat' first
    | with_reducible assumption
    | intro _
    | with_reducible apply keepsOut_next
    | with_reducible apply keepsOut_ite
    | with_reducible apply State.setDma_keeps
    | with_reducible apply State.dmaHalt_keeps
    | with_reducible apply State.dmaTurn_keeps
    | with_reducible apply State.dmaDone_keeps
    | with_reducible apply keeps_ite
    | dsimp only
    | split

theorem State.queApply_keeps {a : State} {v0 v1} (h0 : Keeps a v0) : Keeps a (State.queApply v0 v1) := by
  unfold State.queApply
  repeat' first
    | with_reducible assumption
    | intro _
    | with_reducible apply State.qEmpty_keeps
    | with_reducible apply State.filter_keeps
    | with_reducible apply keeps_foldl

end Sys2Proof.Machine
end

