-- ==== Sys2Proof/Laws/KeepsFwu.lean ====
section
/-! SUPPORT. What no command does (Laws.Keeps), said of every function of Machine.Fwu. -/

namespace Sys2Proof.Machine

theorem State.writeSlotRec_keeps {a : State} {v0 v1} (h0 : Keeps a v0) : Keeps a (State.writeSlotRec v0 v1) := by
  unfold State.writeSlotRec
  repeat' first
    | with_reducible assumption
    | exact Nat.le_refl _
    | exact slots_same rfl
    | exact id
    | intro _
    | with_reducible apply keeps_ite
    | dsimp only
    | split
    | with_reducible refine keeps_mk ?_ ?_ ?_ ?_ ?_

theorem State.setSlot_keeps {a : State} {v0 v1 v2} (h0 : Keeps a v0) : Keeps a (State.setSlot v0 v1 v2) := by
  unfold State.setSlot
  repeat' first
    | with_reducible assumption
    | exact Nat.le_refl _
    | exact slots_same rfl
    | exact id
    | intro _
    | with_reducible apply keeps_ite
    | split
    | with_reducible refine keeps_mk ?_ ?_ ?_ ?_ ?_

theorem State.updRefuse_keeps {a : State} {v0 v1 v2 v3} (h0 : Keeps a v0) : Keeps a (State.updRefuse v0 v1 v2 v3) := by
  unfold State.updRefuse
  repeat' first
    | with_reducible assumption
    | intro _
    | with_reducible apply State.fail_keeps
    | with_reducible apply State.ev_keeps

theorem State.imgStart_keeps {a : State} {v0 v1} (h0 : Keeps a v0) : Keeps a (State.imgStart v0 v1) := by
  unfold State.imgStart
  repeat' first
    | with_reducible assumption
    | exact Nat.le_refl _
    | exact slots_same rfl
    | exact id
    | intro _
    | with_reducible apply State.imgNext_keeps
    | with_reducible apply keeps_foldl
    | dsimp only
    | with_reducible refine keeps_mk ?_ ?_ ?_ ?_ ?_

theorem State.imgStop_keeps {a : State} {v0} (h0 : Keeps a v0) : Keeps a (State.imgStop v0) := by
  unfold State.imgStop
  repeat' first
    | with_reducible assumption
    | exact Nat.le_refl _
    | exact slots_same rfl
    | exact id
    | intro _
    | with_reducible apply State.noticeAll_keeps
    | with_reducible apply State.filter_keeps
    | dsimp only
    | with_reducible refine keeps_mk ?_ ?_ ?_ ?_ ?_

theorem cmdUpdBegin_keeps {a : State} {v0 v1 v2} (h2 : Keeps a v2) : Keeps a (cmdUpdBegin v0 v1 v2) := by
  unfold cmdUpdBegin
  repeat' first
    | with_reducible assumption
    | exact Nat.le_refl _
    | exact slots_same rfl
    | exact id
    | intro _
    | with_reducible apply State.start_keeps
    | with_reducible apply State.fail_keeps
    | with_reducible apply State.updRefuse_keeps
    | with_reducible apply State.event_keeps
    | with_reducible apply State.accept_keeps
    | with_reducible apply State.imgStop_keeps
    | with_reducible apply keeps_ite
    | dsimp only
    | split
    | with_reducible refine keeps_mk ?_ ?_ ?_ ?_ ?_

theorem execEraseDone_keeps {a : State} {v0} (h0 : Keeps a v0) : KeepsOut a (execEraseDone v0) := by
  unfold execEraseDone
  repeat' first
    | with_reducible assumption
    | exact Nat.le_refl _
    | exact slots_same rfl
    | exact id
    | intro _
    | with_reducible apply keepsOut_next
    | with_reducible apply keepsOut_ite
    | with_reducible apply State.noticeAll_keeps
    | with_reducible apply keeps_ite
    | split
    | with_reducible refine keeps_mk ?_ ?_ ?_ ?_ ?_

theorem cmdUpdData_keeps {a : State} {v0 v1 v2} (h2 : Keeps a v2) : Keeps a (cmdUpdData v0 v1 v2) := by
  unfold cmdUpdData
  repeat' first
    | with_reducible assumption
    | exact Nat.le_refl _
    | exact slots_same rfl
    | exact id
    | intro _
    | with_reducible apply State.start_keeps
    | with_reducible apply State.fail_keeps
    | with_reducible apply State.ok_keeps
    | with_reducible apply keeps_ite
    | dsimp only
    | split
    | with_reducible refine keeps_mk ?_ ?_ ?_ ?_ ?_

theorem cmdUpdVerify_keeps {a : State} {v0 v1 v2} (h2 : Keeps a v2) : Keeps a (cmdUpdVerify v0 v1 v2) := by
  unfold cmdUpdVerify
  repeat' first
    | with_reducible assumption
    | exact Nat.le_refl _
    | exact slots_same rfl
    | exact id
    | intro _
    | with_reducible apply State.startLen_keeps
    | with_reducible apply State.fail_keeps
    | with_reducible apply State.accept_keeps
    | with_reducible apply State.setSlot_keeps
    | with_reducible apply State.imgStart_keeps
    | with_reducible apply keeps_ite
    | dsimp only
    | split
    | with_reducible refine keeps_mk ?_ ?_ ?_ ?_ ?_

theorem execVerifyDone_keeps {a : State} {v0} (h0 : Keeps a v0) : KeepsOut a (execVerifyDone v0) := by
  unfold execVerifyDone
  repeat' first
    | with_reducible assumption
    | exact Nat.le_refl _
    | exact slots_same rfl
    | exact id
    | intro _
    | with_reducible apply keepsOut_next
    | with_reducible apply keepsOut_ite
    | with_reducible apply State.noticeAll_keeps
    | with_reducible apply State.ev_keeps
    | with_reducible apply keeps_ite
    | dsimp only
    | split
    | with_reducible refine keeps_mk ?_ ?_ ?_ ?_ ?_

theorem State.updRestart_keeps {a : State} {v0} (h0 : Keeps a v0) : Keeps a (State.updRestart v0) := by
  unfold State.updRestart
  repeat' first
    | with_reducible assumption
    | exact Nat.le_refl _
    | exact slots_same rfl
    | exact id
    | intro _
    | with_reducible refine keeps_mk ?_ ?_ ?_ ?_ ?_

theorem cmdUpdActivate_keeps {a : State} {v0 v1 v2} (h2 : Keeps a v2) : Keeps a (cmdUpdActivate v0 v1 v2) := by
  unfold cmdUpdActivate
  repeat' first
    | with_reducible assumption
    | exact Nat.le_refl _
    | exact slots_same rfl
    | exact id
    | intro _
    | with_reducible apply State.startLen_keeps
    | with_reducible apply State.fail_keeps
    | with_reducible apply State.writeSlotRec_keeps
    | with_reducible apply State.updRestart_keeps
    | with_reducible apply State.ev_keeps
    | with_reducible apply State.ok_keeps
    | with_reducible apply keeps_ite
    | dsimp only
    | split
    | with_reducible refine keeps_mk ?_ ?_ ?_ ?_ ?_

theorem State.confirm_keeps {a : State} {v0} (h0 : Keeps a v0) : Keeps a (State.confirm v0) := by
  unfold State.confirm
  repeat' first
    | with_reducible assumption
    | exact Nat.le_refl _
    | exact slots_same rfl
    | exact id
    | intro _
    | with_reducible apply State.writeSlotRec_keeps
    | with_reducible apply State.ev_keeps
    | dsimp only
    | split
    | with_reducible refine keeps_mk ?_ ?_ ?_ ?_ ?_

theorem cmdUpdConfirm_keeps {a : State} {v0 v1 v2} (h2 : Keeps a v2) : Keeps a (cmdUpdConfirm v0 v1 v2) := by
  unfold cmdUpdConfirm
  repeat' first
    | with_reducible assumption
    | intro _
    | with_reducible apply State.startLen_keeps
    | with_reducible apply State.fail_keeps
    | with_reducible apply State.ok_keeps
    | with_reducible apply State.confirm_keeps
    | with_reducible apply keeps_ite

theorem execSelfConfirm_keeps {a : State} {v0 v1} (h1 : Keeps a v1) : KeepsOut a (execSelfConfirm v0 v1) := by
  unfold execSelfConfirm
  repeat' first
    | with_reducible assumption
    | intro _
    | with_reducible apply keepsOut_next
    | with_reducible apply keepsOut_ite
    | with_reducible apply State.at_keeps
    | with_reducible apply State.confirm_keeps
    | with_reducible apply keeps_ite

theorem State.otherSlot_keeps {a : State} {v0 v1} (h0 : Keeps a v0) : Keeps a (State.otherSlot v0 v1) := by
  unfold State.otherSlot
  repeat' first
    | with_reducible assumption
    | exact Nat.le_refl _
    | exact slots_same rfl
    | exact id
    | intro _
    | with_reducible apply State.writeSlotRec_keeps
    | dsimp only
    | split
    | with_reducible refine keeps_mk ?_ ?_ ?_ ?_ ?_

theorem cmdUpdRevert_keeps {a : State} {v0 v1 v2} (h2 : Keeps a v2) : Keeps a (cmdUpdRevert v0 v1 v2) := by
  unfold cmdUpdRevert
  repeat' first
    | with_reducible assumption
    | intro _
    | with_reducible apply State.startLen_keeps
    | with_reducible apply State.fail_keeps
    | with_reducible apply State.updRestart_keeps
    | with_reducible apply State.ok_keeps
    | with_reducible apply State.ev_keeps
    | with_reducible apply State.otherSlot_keeps
    | with_reducible apply keeps_ite

theorem execTrialTimeout_keeps {a : State} {v0 v1} (h1 : Keeps a v1) : KeepsOut a (execTrialTimeout v0 v1) := by
  unfold execTrialTimeout
  repeat' first
    | with_reducible assumption
    | exact Nat.le_refl _
    | exact slots_same rfl
    | exact id
    | intro _
    | with_reducible apply keepsOut_next
    | with_reducible apply keepsOut_ite
    | with_reducible apply State.at_keeps
    | with_reducible apply State.updRestart_keeps
    | with_reducible apply State.ev_keeps
    | with_reducible apply State.otherSlot_keeps
    | with_reducible apply State.leaveRun_keeps
    | with_reducible apply keeps_ite
    | dsimp only
    | split
    | with_reducible refine keeps_mk ?_ ?_ ?_ ?_ ?_

theorem cmdUpdAbort_keeps {a : State} {v0 v1 v2} (h2 : Keeps a v2) : Keeps a (cmdUpdAbort v0 v1 v2) := by
  unfold cmdUpdAbort
  repeat' first
    | with_reducible assumption
    | exact Nat.le_refl _
    | exact slots_same rfl
    | exact id
    | intro _
    | with_reducible apply State.startLen_keeps
    | with_reducible apply State.fail_keeps
    | with_reducible apply State.ok_keeps
    | with_reducible apply State.imgStop_keeps
    | with_reducible apply keeps_ite
    | dsimp only
    | split
    | with_reducible refine keeps_mk ?_ ?_ ?_ ?_ ?_

theorem cmdUpdStationActivate_keeps {a : State} {v0 v1 v2} (h2 : Keeps a v2) : Keeps a (cmdUpdStationActivate v0 v1 v2) := by
  unfold cmdUpdStationActivate
  repeat' first
    | with_reducible assumption
    | exact Nat.le_refl _
    | exact slots_same rfl
    | exact id
    | intro _
    | with_reducible apply State.startLen_keeps
    | with_reducible apply State.fail_keeps
    | with_reducible apply State.accept_keeps
    | with_reducible apply State.noticeAll_keeps
    | with_reducible apply State.imgStart_keeps
    | with_reducible apply keeps_ite
    | dsimp only
    | split
    | with_reducible refine keeps_mk ?_ ?_ ?_ ?_ ?_

theorem cmdUpdStatus_keeps {a : State} {v0 v1 v2} (h2 : Keeps a v2) : Keeps a (cmdUpdStatus v0 v1 v2) := by
  unfold cmdUpdStatus
  repeat' first
    | with_reducible assumption
    | intro _
    | with_reducible apply State.startLen_keeps
    | with_reducible apply State.ok_keeps

theorem execUpdBegin_keeps {a : State} {v0 v1 v2} (h2 : Keeps a v2) : KeepsOut a (execUpdBegin v0 v1 v2) := by
  unfold execUpdBegin
  repeat' first
    | with_reducible assumption
    | intro _
    | with_reducible apply keepsOut_next
    | with_reducible apply keepsOut_ite
    | with_reducible apply cmdUpdBegin_keeps

theorem execUpdData_keeps {a : State} {v0 v1 v2} (h2 : Keeps a v2) : KeepsOut a (execUpdData v0 v1 v2) := by
  unfold execUpdData
  repeat' first
    | with_reducible assumption
    | intro _
    | with_reducible apply keepsOut_next
    | with_reducible apply keepsOut_ite
    | with_reducible apply cmdUpdData_keeps

theorem execUpdVerify_keeps {a : State} {v0 v1 v2} (h2 : Keeps a v2) : KeepsOut a (execUpdVerify v0 v1 v2) := by
  unfold execUpdVerify
  repeat' first
    | with_reducible assumption
    | intro _
    | with_reducible apply keepsOut_next
    | with_reducible apply keepsOut_ite
    | with_reducible apply cmdUpdVerify_keeps

theorem execUpdActivate_keeps {a : State} {v0 v1 v2} (h2 : Keeps a v2) : KeepsOut a (execUpdActivate v0 v1 v2) := by
  unfold execUpdActivate
  repeat' first
    | with_reducible assumption
    | intro _
    | with_reducible apply keepsOut_next
    | with_reducible apply keepsOut_ite
    | with_reducible apply cmdUpdActivate_keeps

theorem execUpdConfirm_keeps {a : State} {v0 v1 v2} (h2 : Keeps a v2) : KeepsOut a (execUpdConfirm v0 v1 v2) := by
  unfold execUpdConfirm
  repeat' first
    | with_reducible assumption
    | intro _
    | with_reducible apply keepsOut_next
    | with_reducible apply keepsOut_ite
    | with_reducible apply cmdUpdConfirm_keeps

theorem execUpdRevert_keeps {a : State} {v0 v1 v2} (h2 : Keeps a v2) : KeepsOut a (execUpdRevert v0 v1 v2) := by
  unfold execUpdRevert
  repeat' first
    | with_reducible assumption
    | intro _
    | with_reducible apply keepsOut_next
    | with_reducible apply keepsOut_ite
    | with_reducible apply cmdUpdRevert_keeps

theorem execUpdStatus_keeps {a : State} {v0 v1 v2} (h2 : Keeps a v2) : KeepsOut a (execUpdStatus v0 v1 v2) := by
  unfold execUpdStatus
  repeat' first
    | with_reducible assumption
    | intro _
    | with_reducible apply keepsOut_next
    | with_reducible apply keepsOut_ite
    | with_reducible apply cmdUpdStatus_keeps

theorem execUpdAbort_keeps {a : State} {v0 v1 v2} (h2 : Keeps a v2) : KeepsOut a (execUpdAbort v0 v1 v2) := by
  unfold execUpdAbort
  repeat' first
    | with_reducible assumption
    | intro _
    | with_reducible apply keepsOut_next
    | with_reducible apply keepsOut_ite
    | with_reducible apply cmdUpdAbort_keeps

theorem execUpdStationActivate_keeps {a : State} {v0 v1 v2} (h2 : Keeps a v2) : KeepsOut a (execUpdStationActivate v0 v1 v2) := by
  unfold execUpdStationActivate
  repeat' first
    | with_reducible assumption
    | intro _
    | with_reducible apply keepsOut_next
    | with_reducible apply keepsOut_ite
    | with_reducible apply cmdUpdStationActivate_keeps

end Sys2Proof.Machine
end

