-- ==== Sys2Proof/Laws/KeepsRegCfg.lean ====
section
/-! SUPPORT. What no command does (Laws.Keeps), said of every function of Machine.RegCfg. -/

namespace Sys2Proof.Machine

theorem State.seApply_keeps {a : State} {v0 v1} (h0 : Keeps a v0) : Keeps a (State.seApply v0 v1) := by
  unfold State.seApply
  extract_lets s was t _ u
  have hs : Keeps a s := keeps_foldl h0 fun t n ht => State.setFld_keeps (State.shaftReset_keeps ht)
  clear_value s
  have ht : Keeps a t := keeps_foldl hs fun t n ht => State.onCtx_keeps ht
  clear_value t
  have hu : Keeps a u := keeps_ite (keeps_mk ht (Nat.le_refl _) (Nat.le_refl _) (slots_same rfl) id) ht
  clear_value u
  exact State.dispatch_keeps (keeps_when hu fun t ht => State.start0_keeps ht)

theorem State.blockApply_keeps {a : State} {v0 v1 v2} (h0 : Keeps a v0) : Keeps a (State.blockApply v0 v1 v2) := by
  unfold State.blockApply
  repeat' first
    | with_reducible assumption
    | intro _
    | with_reducible apply State.seApply_keeps
    | with_reducible apply State.ixeApply_keeps
    | with_reducible apply State.fbpApply_keeps
    | with_reducible apply State.stnApply_keeps
    | with_reducible apply State.fioApply_keeps
    | with_reducible apply State.twlApply_keeps
    | with_reducible apply State.evrApply_keeps
    | with_reducible apply State.rtcApply_keeps
    | with_reducible apply State.queApply_keeps
    | split

theorem State.commitRun_keeps {a : State} {v0 v1} (h0 : Keeps a v0) : Keeps a (State.commitRun v0 v1) := by
  unfold State.commitRun
  repeat' first
    | with_reducible assumption
    | intro _
    | with_reducible apply State.commitReject_keeps
    | with_reducible apply State.commitDone_keeps
    | with_reducible apply State.blockApply_keeps
    | with_reducible apply State.putLive_keeps
    | split

theorem State.commitAt_keeps {a : State} {v0 v1} (h0 : Keeps a v0) : Keeps a (State.commitAt v0 v1) := by
  unfold State.commitAt
  repeat' first
    | with_reducible assumption
    | intro _
    | with_reducible apply State.commitRun_keeps
    | split

theorem State.tickCommits_keeps {a : State} {v0} (h0 : Keeps a v0) : Keeps a (State.tickCommits v0) := by
  unfold State.tickCommits
  repeat' first
    | with_reducible assumption
    | intro _
    | with_reducible apply State.commitAt_keeps
    | with_reducible apply keeps_ite
    | with_reducible apply keeps_foldl

theorem execCommitApply_keeps {a : State} {v0 v1 v2} (h2 : Keeps a v2) : KeepsOut a (execCommitApply v0 v1 v2) := by
  unfold execCommitApply
  repeat' first
    | with_reducible assumption
    | intro _
    | with_reducible apply keepsOut_next
    | with_reducible apply keepsOut_ite
    | with_reducible apply State.at_keeps
    | with_reducible apply State.commitRun_keeps
    | with_reducible apply keeps_ite
    | dsimp only
    | split

theorem execOutputUpdateTick_keeps {a : State} {v0 v1 v2} (h2 : Keeps a v2) : KeepsOut a (execOutputUpdateTick v0 v1 v2) := by
  unfold execOutputUpdateTick
  repeat' first
    | with_reducible assumption
    | exact Nat.le_refl _
    | exact slots_same rfl
    | exact id
    | intro _
    | with_reducible apply keepsOut_next
    | with_reducible apply keepsOut_ite
    | with_reducible apply State.at_keeps
    | with_reducible apply State.commitAt_keeps
    | with_reducible apply State.fioTick_keeps
    | with_reducible apply keeps_ite
    | dsimp only
    | split
    | with_reducible refine keeps_mk ?_ ?_ ?_ ?_ ?_

theorem State.cycleBegin_keeps {a : State} {v0 v1 v2} (h0 : Keeps a v0) : Keeps a (State.cycleBegin v0 v1 v2) := by
  unfold State.cycleBegin
  repeat' first
    | with_reducible assumption
    | intro _
    | with_reducible apply State.setFld_keeps
    | with_reducible apply State.onPort_keeps
    | with_reducible apply keeps_when

theorem execBasicCycleEnd_keeps {a : State} {v0 v1 v2} (h2 : Keeps a v2) : KeepsOut a (execBasicCycleEnd v0 v1 v2) := by
  unfold execBasicCycleEnd
  repeat' first
    | with_reducible assumption
    | intro _
    | with_reducible apply keepsOut_next
    | with_reducible apply keepsOut_ite
    | with_reducible apply State.at_keeps
    | with_reducible apply State.cycleMisses_keeps
    | with_reducible apply State.syncForced_keeps
    | with_reducible apply State.commitAt_keeps
    | with_reducible apply State.onPort_keeps
    | with_reducible apply State.cycleBegin_keeps
    | with_reducible apply keeps_ite
    | dsimp only
    | split

end Sys2Proof.Machine
end

