-- ==== Sys2Proof/Laws/KeepsReset.lean ====
section
/-! SUPPORT. What no command does (Laws.Keeps), said of every function of Machine.Reset. -/

namespace Sys2Proof.Machine

theorem State.deviceReset_keeps {a v0 : State} {v1 v2 v3 v4} (h0 : Keeps a v0) : Keeps a (State.deviceReset v0 v1 v2 v3 v4) := by
  unfold State.deviceReset
  refine State.wr_keeps (h0.trans ⟨rfl, Nat.le_refl _, Nat.le_refl _, fun i => ?_⟩)
  obtain ⟨m, r, -, -⟩ := i
  refine ⟨?_, ?_, rfl, rfl⟩
  · simp only [Memory.wf, Bool.and_eq_true] at m ⊢
    exact ⟨⟨⟨⟨rfl, rfl⟩, m.1.1.2⟩, rfl⟩, rfl⟩
  · dsimp only [State.regsWf]
    exact swfBy_skeep _ r

theorem State.latchCause_keeps {a : State} {v0 v1} (h0 : Keeps a v0) : Keeps a (State.latchCause v0 v1) := by
  unfold State.latchCause
  repeat' first
    | with_reducible assumption
    | exact Nat.le_refl _
    | exact slots_same rfl
    | exact id
    | intro _
    | with_reducible refine keeps_mk ?_ ?_ ?_ ?_ ?_

theorem State.strapReset_keeps {a : State} {v0 v1 v2 v3} (h0 : Keeps a v0) : Keeps a (State.strapReset v0 v1 v2 v3) := by
  unfold State.strapReset
  repeat' first
    | with_reducible assumption
    | exact Nat.le_refl _
    | exact slots_same rfl
    | exact id
    | intro _
    | with_reducible apply State.deviceReset_keeps
    | with_reducible apply keeps_ite
    | dsimp only
    | split
    | with_reducible refine keeps_mk ?_ ?_ ?_ ?_ ?_

theorem execPowerOnReset_keeps {a : State} {v0 v1} (h1 : Keeps a v1) : KeepsOut a (execPowerOnReset v0 v1) := by
  unfold execPowerOnReset
  repeat' first
    | with_reducible assumption
    | intro _
    | with_reducible apply keepsOut_next
    | with_reducible apply keepsOut_ite
    | with_reducible apply State.strapReset_keeps
    | with_reducible apply State.latchCause_keeps

theorem execPinReset_keeps {a v2 : State} {v0 v1} (h2 : Keeps a v2) : KeepsOut a (execPinReset v0 v1 v2) := by
  unfold execPinReset
  exact keepsOut_ite (keepsOut_next h2)
    (keepsOut_ite keepsOut_fault (keepsOut_next (State.strapReset_keeps (State.latchCause_keeps h2))))

theorem execClockFailure_keeps {a : State} {v0 v1} (h1 : Keeps a v1) : KeepsOut a (execClockFailure v0 v1) := by
  unfold execClockFailure
  repeat' first
    | with_reducible assumption
    | exact Nat.le_refl _
    | exact slots_same rfl
    | exact id
    | intro _
    | with_reducible apply keepsOut_next
    | with_reducible apply keepsOut_ite
    | with_reducible apply State.strapReset_keeps
    | with_reducible apply State.latchCause_keeps
    | dsimp only
    | with_reducible refine keeps_mk ?_ ?_ ?_ ?_ ?_

theorem State.beforeRestart_keeps {a : State} {v0} (h0 : Keeps a v0) : Keeps a (State.beforeRestart v0) := by
  unfold State.beforeRestart
  repeat' first
    | with_reducible assumption
    | intro _
    | dsimp only
    | with_reducible apply State.leaveTwin_keeps
    | with_reducible apply State.free_keeps
    | with_reducible apply State.retainCopy_keeps
    | with_reducible apply keeps_ite

theorem execDeviceRestart_keeps {a : State} {v0 v1} (h1 : Keeps a v1) : KeepsOut a (execDeviceRestart v0 v1) := by
  unfold execDeviceRestart
  repeat' first
    | with_reducible assumption
    | intro _
    | with_reducible apply keepsOut_next
    | with_reducible apply keepsOut_ite
    | with_reducible apply State.at_keeps
    | with_reducible apply State.strapReset_keeps
    | with_reducible apply State.beforeRestart_keeps
    | with_reducible apply keeps_ite

theorem execPowerfailRestart_keeps {a : State} {v0 v1} (h1 : Keeps a v1) : KeepsOut a (execPowerfailRestart v0 v1) := by
  unfold execPowerfailRestart
  repeat' first
    | with_reducible assumption
    | intro _
    | with_reducible apply keepsOut_next
    | with_reducible apply keepsOut_ite
    | with_reducible apply State.strapReset_keeps
    | with_reducible apply State.latchCause_keeps
    | with_reducible apply keeps_ite

theorem execMainPowerLoss_keeps {a : State} {v0 v1} (h1 : Keeps a v1) : KeepsOut a (execMainPowerLoss v0 v1) := by
  unfold execMainPowerLoss
  repeat' first
    | with_reducible assumption
    | exact Nat.le_refl _
    | exact slots_same rfl
    | exact id
    | exact swf_memPut _ _
    | exact swf_imgPut _
    | exact swf_sput _ _
    | exact swfBy_sput _ _
    | exact swf_skeep _
    | exact swfBy_skeep _
    | exact fun _ => swf_nil _
    | exact fun _ => swfBy_nil _
    | exact swf_fold_memPut _ _
    | intro _
    | with_reducible apply keepsOut_next
    | with_reducible apply keepsOut_ite
    | with_reducible apply State.deviceReset_keeps
    | with_reducible apply State.latchCause_keeps
    | with_reducible apply State.setFld_keeps
    | with_reducible apply State.setBit_keeps
    | with_reducible apply keeps_ite
    | dsimp only
    | split
    | with_reducible refine keeps_all ?_ ?_ ?_ ?_ ?_ ?_ ?_ ?_ ?_ ?_ ?_

theorem execWdtPeriodEnd_keeps {a : State} {v0 v1} (h1 : Keeps a v1) : KeepsOut a (execWdtPeriodEnd v0 v1) := by
  unfold execWdtPeriodEnd
  repeat' first
    | with_reducible assumption
    | exact Nat.le_refl _
    | exact slots_same rfl
    | exact id
    | intro _
    | with_reducible apply keepsOut_next
    | with_reducible apply keepsOut_ite
    | with_reducible apply State.at_keeps
    | with_reducible apply State.deviceReset_keeps
    | with_reducible apply State.latchCause_keeps
    | with_reducible apply State.wdtNewPeriod_keeps
    | with_reducible apply State.inc_keeps
    | with_reducible apply State.sysTrig_keeps
    | with_reducible apply State.event_keeps
    | with_reducible apply keeps_ite
    | dsimp only
    | split
    | with_reducible refine keeps_mk ?_ ?_ ?_ ?_ ?_

theorem State.enterRecovery_keeps {a : State} {v0 v1} (h0 : Keeps a v0) : Keeps a (State.enterRecovery v0 v1) := by
  unfold State.enterRecovery
  repeat' first
    | with_reducible assumption
    | exact Nat.le_refl _
    | exact slots_same rfl
    | exact id
    | intro _
    | with_reducible apply State.ringScan_keeps
    | with_reducible apply State.ev_keeps
    | dsimp only
    | with_reducible refine keeps_mk ?_ ?_ ?_ ?_ ?_

theorem State.fallback_keeps {a : State} {v0 v1} (h0 : Keeps a v0) : Keeps a (State.fallback v0 v1) := by
  unfold State.fallback
  repeat' first
    | with_reducible assumption
    | intro _
    | with_reducible apply State.ev_keeps
    | with_reducible apply State.otherSlot_keeps

theorem State.bootCopy_keeps {a : State} {v0 v1} (h0 : Keeps a v0) : Keeps a (State.bootCopy v0 v1).2 := by
  unfold State.bootCopy
  repeat' first
    | with_reducible assumption
    | exact Nat.le_refl _
    | exact slots_same rfl
    | exact id
    | intro _
    | dsimp only
    | with_reducible apply State.setSlot_keeps
    | with_reducible apply State.ev_keeps
    | with_reducible apply State.writeSlotRec_keeps
    | with_reducible apply State.free_keeps
    | with_reducible apply State.filter_keeps
    | with_reducible apply keeps_ite
    | with_reducible apply keeps_ite_snd
    | refine keeps_of_pair (by assumption) ?_
    | refine keeps_of_triple (by assumption) ?_
    | split
    | with_reducible refine keeps_mk ?_ ?_ ?_ ?_ ?_

theorem State.bootTry_keeps {a : State} {v0 v1} (h0 : Keeps a v0) : Keeps a (State.bootTry v0 v1) := by
  unfold State.bootTry
  repeat' first
    | with_reducible assumption
    | exact Nat.le_refl _
    | exact slots_same rfl
    | exact id
    | intro _
    | dsimp only
    | with_reducible apply State.ev_keeps
    | with_reducible apply State.bootCopy_keeps
    | with_reducible apply State.fallback_keeps
    | with_reducible apply State.writeSlotRec_keeps
    | with_reducible apply keeps_ite
    | with_reducible apply keeps_ite_snd
    | refine keeps_of_pair (by assumption) ?_
    | refine keeps_of_triple (by assumption) ?_
    | split
    | with_reducible refine keeps_mk ?_ ?_ ?_ ?_ ?_

theorem State.bootSlot_keeps {a : State} {v0} (h0 : Keeps a v0) : Keeps a (State.bootSlot v0).2 := by
  unfold State.bootSlot
  repeat' first
    | with_reducible assumption
    | intro _
    | dsimp only
    | with_reducible apply State.bootTry_keeps
    | with_reducible apply keeps_ite
    | with_reducible apply keeps_ite_snd
    | refine keeps_of_pair (by assumption) ?_
    | refine keeps_of_triple (by assumption) ?_
    | split

theorem State.loadVersions_keeps {a : State} {v0} (h0 : Keeps a v0) : Keeps a (State.loadVersions v0) := by
  unfold State.loadVersions
  repeat' first
    | with_reducible assumption
    | intro _
    | with_reducible apply State.wr_keeps
    | split

theorem State.setArea_keeps {a : State} {v0 v1 v2} (h0 : Keeps a v0) : Keeps a (State.setArea v0 v1 v2) := by
  unfold State.setArea
  repeat' first
    | with_reducible assumption
    | exact Nat.le_refl _
    | exact slots_same rfl
    | exact id
    | intro _
    | with_reducible apply keeps_ite
    | split
    | with_reducible refine keeps_mk ?_ ?_ ?_ ?_ ?_

theorem State.migrate_keeps {a : State} {v0} (h0 : Keeps a v0) : Keeps a (State.migrate v0) := by
  unfold State.migrate
  repeat' first
    | with_reducible assumption
    | exact Nat.le_refl _
    | exact slots_same rfl
    | exact id
    | intro _
    | dsimp only
    | with_reducible apply State.free_keeps
    | with_reducible apply State.setArea_keeps
    | with_reducible apply State.ev_keeps
    | with_reducible apply keeps_ite
    | with_reducible apply keeps_ite_snd
    | refine keeps_of_pair (by assumption) ?_
    | refine keeps_of_triple (by assumption) ?_
    | split
    | with_reducible refine keeps_mk ?_ ?_ ?_ ?_ ?_

theorem State.loadSettings_keeps {a v0 : State} (h0 : Keeps a v0) : Keeps a (State.loadSettings v0) := by
  unfold State.loadSettings
  split
  · exact h0
  · dsimp only
    exact keeps_foldl (keeps_all h0 (Nat.le_refl _) (Nat.le_refl _) (slots_same rfl) id
      (fun r => swfBy_fold_sput _ (swfBy_skeep _ r)) id id id id id) fun t b ht => State.blockApply_keeps ht

theorem State.loadProgram_keeps {a v0 : State} (h0 : Keeps a v0) : Keeps a (State.loadProgram v0) := by
  unfold State.loadProgram
  split
  · exact State.ev_keeps h0
  · rename_i x _
    generalize e : ({ v0 with pm := memPut [] 0 x.img } : State) = s
    have hs : Keeps a s := by
      subst e
      exact keeps_all h0 (Nat.le_refl _) (Nat.le_refl _) (slots_same rfl) id id
        (fun _ => swf_memPut _ _ (by decide)) id id id id
    dsimp only
    split
    · exact State.ev_keeps (keeps_all hs (Nat.le_refl _) (Nat.le_refl _) (slots_same rfl) id
        (fun r => swfBy_fold_sput _ r) id id id id id)
    · exact State.event_keeps (keeps_mk (State.wrs_keeps (State.loadTasks_keeps hs))
        (Nat.le_refl _) (Nat.le_refl _) (slots_same rfl) id)

theorem State.continueCounters_keeps {a : State} {v0} (h0 : Keeps a v0) : Keeps a (State.continueCounters v0) := by
  unfold State.continueCounters
  repeat' first
    | with_reducible assumption
    | exact Nat.le_refl _
    | exact slots_same rfl
    | exact id
    | intro _
    | with_reducible apply State.wr_keeps
    | with_reducible apply keeps_ite
    | with_reducible apply keeps_foldl
    | dsimp only
    | split
    | with_reducible refine keeps_mk ?_ ?_ ?_ ?_ ?_

theorem State.startEvents_keeps {a : State} {v0} (h0 : Keeps a v0) : Keeps a (State.startEvents v0) := by
  unfold State.startEvents
  repeat' first
    | with_reducible assumption
    | exact Nat.le_refl _
    | exact slots_same rfl
    | exact id
    | intro _
    | with_reducible apply State.ev_keeps
    | with_reducible apply State.event_keeps
    | with_reducible apply keeps_when
    | dsimp only
    | with_reducible refine keeps_mk ?_ ?_ ?_ ?_ ?_

theorem State.startRole_keeps {a : State} {v0} (h0 : Keeps a v0) : Keeps a (State.startRole v0) := by
  unfold State.startRole
  repeat' first
    | with_reducible assumption
    | exact Nat.le_refl _
    | exact slots_same rfl
    | exact id
    | intro _
    | with_reducible apply State.raiseEpoch_keeps
    | with_reducible apply State.syncForced_keeps
    | with_reducible apply State.startOutcome_keeps
    | with_reducible apply State.wait_keeps
    | with_reducible apply keeps_ite
    | with_reducible apply keeps_foldl
    | dsimp only
    | split
    | with_reducible refine keeps_mk ?_ ?_ ?_ ?_ ?_

theorem State.startStop_keeps {a : State} {v0} (h0 : Keeps a v0) : Keeps a (State.startStop v0) := by
  unfold State.startStop
  repeat' first
    | with_reducible assumption
    | exact Nat.le_refl _
    | exact slots_same rfl
    | exact id
    | intro _
    | with_reducible apply State.stepTime_keeps
    | with_reducible apply State.startRole_keeps
    | with_reducible apply State.event_keeps
    | with_reducible apply keeps_ite
    | dsimp only
    | split
    | with_reducible refine keeps_mk ?_ ?_ ?_ ?_ ?_

theorem State.startScrub_keeps {a : State} {v0} (h0 : Keeps a v0) : Keeps a (State.startScrub v0) := by
  unfold State.startScrub
  repeat' first
    | with_reducible assumption
    | exact Nat.le_refl _
    | exact slots_same rfl
    | exact id
    | intro _
    | with_reducible apply State.setFld_keeps
    | with_reducible apply keeps_ite
    | dsimp only
    | split
    | with_reducible refine keeps_mk ?_ ?_ ?_ ?_ ?_

theorem State.startPower_keeps {a : State} {v0} (h0 : Keeps a v0) : Keeps a (State.startPower v0) := by
  unfold State.startPower
  repeat' first
    | with_reducible assumption
    | intro _
    | with_reducible apply State.wr_keeps
    | with_reducible apply State.setBit_keeps

theorem State.startEnd_keeps {a : State} {v0} (h0 : Keeps a v0) : Keeps a (State.startEnd v0) := by
  unfold State.startEnd
  generalize v0.sysAreaBad = l
  cases l with
  | nil => exact State.startScrub_keeps (State.startStop_keeps h0)
  | cons w l => exact State.enterFault_keeps (State.mramUnreadable_keeps h0)

theorem State.startRun_keeps {a : State} {v0} (h0 : Keeps a v0) : Keeps a (State.startRun v0) :=
  State.startEnd_keeps (State.restore_keeps (State.continueCounters_keeps (State.loadProgram_keeps
    (State.drawStatus_keeps (State.loadSettings_keeps (State.migrate_keeps (State.classify_keeps (State.startEvents_keeps
      (State.ringScan_keeps (State.replay_keeps (State.loadVersions_keeps (State.startPower_keeps h0))))))))))))

theorem execStartUp_keeps {a v1 : State} {v0} (h1 : Keeps a v1) : KeepsOut a (execStartUp v0 v1) := by
  unfold execStartUp
  refine keepsOut_next (keeps_ite h1 ?_)
  extract_lets s _ t
  have ht : Keeps a t.bootSlot.2 :=
    State.bootSlot_keeps (keeps_mk (State.at_keeps h1) (Nat.le_refl _) (Nat.le_refl _) (slots_same rfl) id)
  clear_value t
  generalize t.bootSlot = p at ht
  obtain ⟨c, u⟩ := p
  cases c with
  | none => exact State.startRun_keeps ht
  | some c => exact State.enterRecovery_keeps ht

end Sys2Proof.Machine
end

