-- ==== Sys2Proof/Laws/KeepsPower.lean ====
section
/-! SUPPORT. What no command does (Laws.Keeps), said of every function of Machine.Power. -/

namespace Sys2Proof.Machine

theorem State.powerFail_keeps {a : State} {v0} (h0 : Keeps a v0) : Keeps a (State.powerFail v0) := by
  unfold State.powerFail
  repeat' first
    | with_reducible assumption
    | intro _
    | with_reducible apply State.event_keeps
    | with_reducible apply State.inc_keeps
    | with_reducible apply State.setBit_keeps
    | with_reducible apply State.leaveTwin_keeps
    | with_reducible apply State.abandonSwap_keeps
    | with_reducible apply State.onSe_keeps
    | with_reducible apply State.startCtx4_keeps
    | with_reducible apply keeps_ite

theorem execPowerFailWarning_keeps {a : State} {v0 v1} (h1 : Keeps a v1) : KeepsOut a (execPowerFailWarning v0 v1) := by
  unfold execPowerFailWarning
  repeat' first
    | with_reducible assumption
    | intro _
    | with_reducible apply keepsOut_next
    | with_reducible apply keepsOut_ite
    | with_reducible apply State.powerFail_keeps
    | with_reducible apply State.at_keeps

theorem execX32Stopped_keeps {a : State} {v0} (h0 : Keeps a v0) : KeepsOut a (execX32Stopped v0) := by
  unfold execX32Stopped
  repeat' first
    | with_reducible assumption
    | exact Nat.le_refl _
    | exact slots_same rfl
    | exact id
    | intro _
    | with_reducible apply keepsOut_next
    | with_reducible apply keepsOut_ite
    | with_reducible apply State.ev_keeps
    | with_reducible apply State.setBit_keeps
    | with_reducible apply keeps_ite
    | split
    | with_reducible refine keeps_mk ?_ ?_ ?_ ?_ ?_

theorem execX32Resumed_keeps {a : State} {v0} (h0 : Keeps a v0) : KeepsOut a (execX32Resumed v0) := by
  unfold execX32Resumed
  repeat' first
    | with_reducible assumption
    | exact Nat.le_refl _
    | exact slots_same rfl
    | exact id
    | intro _
    | with_reducible apply keepsOut_next
    | with_reducible apply keepsOut_ite
    | with_reducible apply State.setBit_keeps
    | with_reducible refine keeps_mk ?_ ?_ ?_ ?_ ?_

theorem execVcanLow_keeps {a : State} {v0} (h0 : Keeps a v0) : KeepsOut a (execVcanLow v0) := by
  unfold execVcanLow
  repeat' first
    | with_reducible assumption
    | intro _
    | with_reducible apply keepsOut_next
    | with_reducible apply keepsOut_ite
    | with_reducible apply State.ev_keeps
    | with_reducible apply State.setBit_keeps
    | with_reducible apply keeps_ite

theorem execVcanRestored_keeps {a : State} {v0} (h0 : Keeps a v0) : KeepsOut a (execVcanRestored v0) := by
  unfold execVcanRestored
  repeat' first
    | with_reducible assumption
    | intro _
    | with_reducible apply keepsOut_next
    | with_reducible apply keepsOut_ite
    | with_reducible apply State.setBit_keeps

theorem State.measure_keeps {a : State} {v0 v1} (h0 : Keeps a v0) : Keeps a (State.measure v0 v1) := by
  unfold State.measure
  repeat' first
    | with_reducible assumption
    | intro _
    | with_reducible apply State.setFld_keeps
    | with_reducible apply State.wr_keeps

theorem State.energyCheck_keeps {a : State} {v0 v1} (h0 : Keeps a v0) : Keeps a (State.energyCheck v0 v1) := by
  unfold State.energyCheck
  repeat' first
    | with_reducible assumption
    | intro _
    | with_reducible apply State.setBit_keeps

theorem State.thermal_keeps {a : State} {v0 v1} (h0 : Keeps a v0) : Keeps a (State.thermal v0 v1) := by
  unfold State.thermal
  repeat' first
    | with_reducible assumption
    | exact Nat.le_refl _
    | exact slots_same rfl
    | exact id
    | intro _
    | with_reducible apply State.setBit_keeps
    | with_reducible apply State.event_keeps
    | with_reducible apply State.enterFault_keeps
    | with_reducible apply keeps_ite
    | with_reducible apply keeps_when
    | dsimp only
    | split
    | with_reducible refine keeps_mk ?_ ?_ ?_ ?_ ?_

theorem execTelemetrySweep_keeps {a : State} {v0 v1 v2} (h2 : Keeps a v2) : KeepsOut a (execTelemetrySweep v0 v1 v2) := by
  unfold execTelemetrySweep
  repeat' first
    | with_reducible assumption
    | intro _
    | with_reducible apply keepsOut_next
    | with_reducible apply keepsOut_ite
    | with_reducible apply State.fioSweep_keeps
    | with_reducible apply State.thermal_keeps
    | with_reducible apply State.energyCheck_keeps
    | with_reducible apply State.measure_keeps
    | with_reducible apply State.at_keeps

theorem State.storeRefuse_keeps {a : State} {v0} (h0 : Keeps a v0) : Keeps a (State.storeRefuse v0) := by
  unfold State.storeRefuse
  repeat' first
    | with_reducible assumption
    | intro _
    | with_reducible apply State.incFld_keeps

theorem State.storeStart_keeps {a : State} {v0 v1 v2} (h0 : Keeps a v0) : Keeps a (State.storeStart v0 v1 v2) := by
  unfold State.storeStart
  repeat' first
    | with_reducible assumption
    | exact Nat.le_refl _
    | exact slots_same rfl
    | exact id
    | intro _
    | with_reducible apply State.setFld_keeps
    | dsimp only
    | with_reducible refine keeps_mk ?_ ?_ ?_ ?_ ?_

theorem State.storeWr_keeps {a : State} {v0 v1} (h0 : Keeps a v0) : Keeps a (State.storeWr v0 v1) := by
  unfold State.storeWr
  repeat' first
    | with_reducible assumption
    | exact Nat.le_refl _
    | exact slots_same rfl
    | exact id
    | intro _
    | with_reducible apply State.storeRefuse_keeps
    | with_reducible apply State.storeStart_keeps
    | with_reducible apply keeps_ite
    | dsimp only
    | split
    | with_reducible refine keeps_mk ?_ ?_ ?_ ?_ ?_

theorem execStoreRunningProgram_keeps {a : State} {v0} (h0 : Keeps a v0) : KeepsOut a (execStoreRunningProgram v0) := by
  unfold execStoreRunningProgram
  repeat' first
    | with_reducible assumption
    | intro _
    | with_reducible apply keepsOut_next
    | with_reducible apply keepsOut_ite
    | with_reducible apply State.storeWr_keeps

theorem execStoreLoadedChamber_keeps {a : State} {v0} (h0 : Keeps a v0) : KeepsOut a (execStoreLoadedChamber v0) := by
  unfold execStoreLoadedChamber
  repeat' first
    | with_reducible assumption
    | intro _
    | with_reducible apply keepsOut_next
    | with_reducible apply keepsOut_ite
    | with_reducible apply State.storeWr_keeps

theorem execStoreConfiguration_keeps {a : State} {v0} (h0 : Keeps a v0) : KeepsOut a (execStoreConfiguration v0) := by
  unfold execStoreConfiguration
  repeat' first
    | with_reducible assumption
    | intro _
    | with_reducible apply keepsOut_next
    | with_reducible apply keepsOut_ite
    | with_reducible apply State.storeWr_keeps

theorem State.storePut_keeps {a : State} {v0 v1} (h0 : Keeps a v0) : Keeps a (State.storePut v0 v1) := by
  unfold State.storePut
  repeat' first
    | with_reducible assumption
    | exact Nat.le_refl _
    | exact slots_same rfl
    | exact id
    | intro _
    | with_reducible apply keeps_ite
    | dsimp only
    | split
    | with_reducible refine keeps_mk ?_ ?_ ?_ ?_ ?_

theorem execStoreDone_keeps {a : State} {v0 v1} (h1 : Keeps a v1) : KeepsOut a (execStoreDone v0 v1) := by
  unfold execStoreDone
  repeat' first
    | with_reducible assumption
    | exact Nat.le_refl _
    | exact slots_same rfl
    | exact id
    | intro _
    | with_reducible apply keepsOut_next
    | with_reducible apply keepsOut_ite
    | with_reducible apply State.setFld_keeps
    | with_reducible apply State.ev_keeps
    | with_reducible apply State.storePut_keeps
    | with_reducible apply State.ok_keeps
    | with_reducible apply keeps_ite
    | dsimp only
    | split
    | with_reducible refine keeps_mk ?_ ?_ ?_ ?_ ?_

end Sys2Proof.Machine
end

