-- ==== Sys2Proof/Laws/KeepsSeCtrl.lean ====
section
/-! SUPPORT. What no command does (Laws.Keeps), said of every function of Machine.SeCtrl. -/

namespace Sys2Proof.Machine

theorem execBr_keeps {a : State} {v0 v1 v2} (h2 : Keeps a v2) : KeepsOut a (execBr v0 v1 v2) := by
  unfold execBr
  repeat' first
    | with_reducible assumption
    | intro _
    | with_reducible apply keepsOut_next
    | with_reducible apply keepsOut_ite
    | with_reducible apply seExec_keeps
    | with_reducible apply keeps_ite
    | with_reducible apply keepsRes_next
    | with_reducible apply keepsRes_bad
    | with_reducible apply keepsRes_trap
    | with_reducible apply keepsRes_illegal
    | with_reducible apply keepsRes_stackTrap
    | with_reducible apply keepsRes_ite
    | with_reducible apply keeps_id
    | split

theorem execCall_keeps {a : State} {v0 v1 v2} (h2 : Keeps a v2) : KeepsOut a (execCall v0 v1 v2) := by
  unfold execCall
  repeat' first
    | with_reducible assumption
    | intro _
    | with_reducible apply keepsOut_next
    | with_reducible apply keepsOut_ite
    | with_reducible apply seExec_keeps
    | with_reducible apply keepsRes_next

theorem execJr_keeps {a : State} {v0 v1} (h1 : Keeps a v1) : KeepsOut a (execJr v0 v1) := by
  unfold execJr
  repeat' first
    | with_reducible assumption
    | intro _
    | with_reducible apply keepsOut_next
    | with_reducible apply keepsOut_ite
    | with_reducible apply seExec_keeps
    | with_reducible apply keepsRes_next

theorem execCallr_keeps {a : State} {v0 v1 v2} (h2 : Keeps a v2) : KeepsOut a (execCallr v0 v1 v2) := by
  unfold execCallr
  repeat' first
    | with_reducible assumption
    | intro _
    | with_reducible apply keepsOut_next
    | with_reducible apply keepsOut_ite
    | with_reducible apply seExec_keeps
    | with_reducible apply keepsRes_next

theorem execNop_keeps {a : State} {v0} (h0 : Keeps a v0) : KeepsOut a (execNop v0) := by
  unfold execNop
  repeat' first
    | with_reducible assumption
    | intro _
    | with_reducible apply keepsOut_next
    | with_reducible apply keepsOut_ite
    | with_reducible apply seExec_keeps
    | with_reducible apply keepsRes_next

theorem execFence_keeps {a : State} {v0} (h0 : Keeps a v0) : KeepsOut a (execFence v0) := by
  unfold execFence
  repeat' first
    | with_reducible assumption
    | intro _
    | with_reducible apply keepsOut_next
    | with_reducible apply keepsOut_ite
    | with_reducible apply seExec_keeps
    | with_reducible apply State.fence_keeps
    | with_reducible apply keepsRes_next

theorem execTrapInsn_keeps {a : State} {v0 v1} (h1 : Keeps a v1) : KeepsOut a (execTrapInsn v0 v1) := by
  unfold execTrapInsn
  repeat' first
    | with_reducible assumption
    | intro _
    | with_reducible apply keepsOut_next
    | with_reducible apply keepsOut_ite
    | with_reducible apply seExec_keeps
    | with_reducible apply State.trap_keeps
    | with_reducible apply keepsRes_next
    | with_reducible apply keepsRes_bad
    | with_reducible apply keepsRes_trap

theorem State.endInstance_keeps {a : State} {v0 v1} (h0 : Keeps a v0) : Keeps a (State.endInstance v0 v1) := by
  unfold State.endInstance
  repeat' first
    | with_reducible assumption
    | intro _
    | with_reducible apply State.closeOpen_keeps
    | with_reducible apply State.fence_keeps
    | with_reducible apply State.restart0_keeps
    | with_reducible apply State.onCtx_keeps
    | with_reducible apply State.complete_keeps
    | with_reducible apply State.dispatch_keeps
    | with_reducible apply keeps_ite

theorem execEndInsn_keeps {a : State} {v0 v1} (h1 : Keeps a v1) : KeepsOut a (execEndInsn v0 v1) := by
  unfold execEndInsn
  repeat' first
    | with_reducible assumption
    | intro _
    | with_reducible apply keepsOut_next
    | with_reducible apply keepsOut_ite
    | with_reducible apply State.at_keeps
    | with_reducible apply State.endInstance_keeps
    | dsimp only
    | split

theorem execQpush_keeps {a : State} {v0 v1 v2} (h2 : Keeps a v2) : KeepsOut a (execQpush v0 v1 v2) := by
  unfold execQpush
  repeat' first
    | with_reducible assumption
    | intro _
    | dsimp only
    | with_reducible apply keepsOut_next
    | with_reducible apply keepsOut_ite
    | with_reducible apply seExec_keeps
    | with_reducible apply State.qPushResume_keeps
    | with_reducible apply State.qCountRefused_keeps
    | with_reducible apply keeps_ite
    | with_reducible apply keeps_ite_snd
    | with_reducible apply keepsRes_next
    | with_reducible apply keepsRes_bad
    | with_reducible apply keepsRes_trap
    | with_reducible apply keepsRes_illegal
    | with_reducible apply keepsRes_stackTrap
    | with_reducible apply keepsRes_ite
    | refine keeps_of_pair (by assumption) ?_
    | refine keeps_of_triple (by assumption) ?_
    | split

theorem execQpop_keeps {a : State} {v0 v1 v2} (h2 : Keeps a v2) : KeepsOut a (execQpop v0 v1 v2) := by
  unfold execQpop
  repeat' first
    | with_reducible assumption
    | intro _
    | dsimp only
    | with_reducible apply keepsOut_next
    | with_reducible apply keepsOut_ite
    | with_reducible apply seExec_keeps
    | with_reducible apply State.qPop_keeps
    | with_reducible apply keeps_ite
    | with_reducible apply keeps_ite_snd
    | with_reducible apply keepsRes_next
    | with_reducible apply keepsRes_bad
    | with_reducible apply keepsRes_trap
    | with_reducible apply keepsRes_illegal
    | with_reducible apply keepsRes_stackTrap
    | with_reducible apply keepsRes_ite
    | refine keeps_of_pair (by assumption) ?_
    | refine keeps_of_triple (by assumption) ?_
    | split

theorem execQopen_keeps {a : State} {v0 v1} (h1 : Keeps a v1) : KeepsOut a (execQopen v0 v1) := by
  unfold execQopen
  repeat' first
    | with_reducible assumption
    | intro _
    | dsimp only
    | with_reducible apply keepsOut_next
    | with_reducible apply keepsOut_ite
    | with_reducible apply seExec_keeps
    | with_reducible apply State.qOpen_keeps
    | with_reducible apply State.qCountRefused_keeps
    | with_reducible apply keepsRes_next
    | with_reducible apply keepsRes_bad
    | with_reducible apply keepsRes_trap
    | with_reducible apply keepsRes_illegal
    | with_reducible apply keepsRes_stackTrap
    | with_reducible apply keeps_when
    | refine keeps_of_pair (by assumption) ?_
    | refine keeps_of_triple (by assumption) ?_
    | split

theorem execQclose_keeps {a : State} {v0 v1} (h1 : Keeps a v1) : KeepsOut a (execQclose v0 v1) := by
  unfold execQclose
  repeat' first
    | with_reducible assumption
    | intro _
    | with_reducible apply keepsOut_next
    | with_reducible apply keepsOut_ite
    | with_reducible apply seExec_keeps
    | with_reducible apply State.qClose_keeps
    | with_reducible apply State.filter_keeps
    | with_reducible apply keeps_ite
    | with_reducible apply keepsRes_next
    | with_reducible apply keepsRes_bad
    | with_reducible apply keepsRes_trap
    | with_reducible apply keepsRes_illegal
    | with_reducible apply keepsRes_stackTrap
    | with_reducible apply keepsRes_ite

theorem execQlvl_keeps {a : State} {v0 v1 v2} (h2 : Keeps a v2) : KeepsOut a (execQlvl v0 v1 v2) := by
  unfold execQlvl
  repeat' first
    | with_reducible assumption
    | intro _
    | with_reducible apply keepsOut_next
    | with_reducible apply keepsOut_ite
    | with_reducible apply seExec_keeps
    | with_reducible apply keepsRes_next

theorem execEvt_keeps {a : State} {v0 v1 v2} (h2 : Keeps a v2) : KeepsOut a (execEvt v0 v1 v2) := by
  unfold execEvt
  repeat' first
    | with_reducible assumption
    | intro _
    | with_reducible apply keepsOut_next
    | with_reducible apply keepsOut_ite
    | with_reducible apply seExec_keeps
    | with_reducible apply State.event_keeps
    | with_reducible apply keepsRes_next

theorem execTrig_keeps {a : State} {v0 v1} (h1 : Keeps a v1) : KeepsOut a (execTrig v0 v1) := by
  unfold execTrig
  repeat' first
    | with_reducible assumption
    | intro _
    | with_reducible apply keepsOut_next
    | with_reducible apply keepsOut_ite
    | with_reducible apply seExec_keeps
    | with_reducible apply State.userTrig_keeps
    | with_reducible apply keepsRes_next

theorem State.sysrShaft_keeps {a : State} {v0 v1 v2 v3} (h0 : Keeps a v0) : Keeps a (State.sysrShaft v0 v1 v2 v3).2 := by
  unfold State.sysrShaft
  repeat' first
    | with_reducible assumption
    | intro _
    | dsimp only
    | with_reducible apply State.setLatch_keeps
    | refine keeps_of_pair (by assumption) ?_
    | refine keeps_of_triple (by assumption) ?_
    | split

theorem State.sysrVal_keeps {a : State} {v0 v1 v2 v3} (h0 : Keeps a v0) : Keeps a (State.sysrVal v0 v1 v2 v3).2 := by
  unfold State.sysrVal
  repeat' first
    | with_reducible assumption
    | intro _
    | dsimp only
    | with_reducible apply State.sysrShaft_keeps
    | with_reducible apply State.setLatch_keeps
    | with_reducible apply keeps_ite
    | with_reducible apply keeps_ite_snd
    | refine keeps_of_pair (by assumption) ?_
    | refine keeps_of_triple (by assumption) ?_
    | split

theorem execSysr_keeps {a : State} {v0 v1 v2 v3} (h3 : Keeps a v3) : KeepsOut a (execSysr v0 v1 v2 v3) := by
  unfold execSysr
  repeat' first
    | with_reducible assumption
    | intro _
    | dsimp only
    | with_reducible apply keepsOut_next
    | with_reducible apply keepsOut_ite
    | with_reducible apply seExec_keeps
    | with_reducible apply State.sysrVal_keeps
    | with_reducible apply State.at_keeps
    | with_reducible apply keepsRes_next

theorem execSysw_keeps {a : State} {v0 v1 v2} (h2 : Keeps a v2) : KeepsOut a (execSysw v0 v1 v2) := by
  unfold execSysw
  repeat' first
    | with_reducible assumption
    | intro _
    | with_reducible apply keepsOut_next
    | with_reducible apply keepsOut_ite
    | with_reducible apply seExec_keeps
    | with_reducible apply keeps_ite
    | with_reducible apply keepsRes_next
    | with_reducible apply keepsRes_bad
    | with_reducible apply keepsRes_trap
    | with_reducible apply keepsRes_illegal
    | with_reducible apply keepsRes_stackTrap
    | with_reducible apply keepsRes_ite

theorem execReservedInstruction_keeps {a : State} {v0 v1 v2} (h2 : Keeps a v2) : KeepsOut a (execReservedInstruction v0 v1 v2) := by
  unfold execReservedInstruction
  repeat' first
    | with_reducible assumption
    | intro _
    | with_reducible apply keepsOut_next
    | with_reducible apply keepsOut_ite
    | with_reducible apply State.seRun_keeps
    | with_reducible apply keeps_ite
    | with_reducible apply keepsRes_next
    | with_reducible apply keepsRes_bad
    | with_reducible apply keepsRes_trap
    | with_reducible apply keepsRes_illegal

theorem cmdSeTaskStatus_keeps {a : State} {v0 v1 v2} (h2 : Keeps a v2) : Keeps a (cmdSeTaskStatus v0 v1 v2) := by
  unfold cmdSeTaskStatus
  repeat' first
    | with_reducible assumption
    | intro _
    | with_reducible apply State.startLen_keeps
    | with_reducible apply State.ok_keeps

theorem cmdSeTrigger_keeps {a : State} {v0 v1 v2} (h2 : Keeps a v2) : Keeps a (cmdSeTrigger v0 v1 v2) := by
  unfold cmdSeTrigger
  repeat' first
    | with_reducible assumption
    | intro _
    | with_reducible apply State.startLen_keeps
    | with_reducible apply State.fail_keeps
    | with_reducible apply State.ok_keeps
    | with_reducible apply State.userTrig_keeps
    | with_reducible apply keeps_ite

theorem cmdSeClearStats_keeps {a : State} {v0 v1 v2} (h2 : Keeps a v2) : Keeps a (cmdSeClearStats v0 v1 v2) := by
  unfold cmdSeClearStats
  repeat' first
    | with_reducible assumption
    | intro _
    | with_reducible apply State.startLen_keeps
    | with_reducible apply State.ok_keeps
    | with_reducible apply State.clrTime_keeps
    | with_reducible apply State.clrOvr_keeps
    | with_reducible apply keeps_when

theorem cmdSeShaftRead_keeps {a : State} {v0 v1 v2} (h2 : Keeps a v2) : Keeps a (cmdSeShaftRead v0 v1 v2) := by
  unfold cmdSeShaftRead
  repeat' first
    | with_reducible assumption
    | intro _
    | with_reducible apply State.startLen_keeps
    | with_reducible apply State.ok_keeps

theorem execSeTaskStatus_keeps {a : State} {v0 v1 v2} (h2 : Keeps a v2) : KeepsOut a (execSeTaskStatus v0 v1 v2) := by
  unfold execSeTaskStatus
  repeat' first
    | with_reducible assumption
    | intro _
    | with_reducible apply keepsOut_next
    | with_reducible apply keepsOut_ite
    | with_reducible apply cmdSeTaskStatus_keeps

theorem execSeTrigger_keeps {a : State} {v0 v1 v2} (h2 : Keeps a v2) : KeepsOut a (execSeTrigger v0 v1 v2) := by
  unfold execSeTrigger
  repeat' first
    | with_reducible assumption
    | intro _
    | with_reducible apply keepsOut_next
    | with_reducible apply keepsOut_ite
    | with_reducible apply cmdSeTrigger_keeps

theorem execSeClearStats_keeps {a : State} {v0 v1 v2} (h2 : Keeps a v2) : KeepsOut a (execSeClearStats v0 v1 v2) := by
  unfold execSeClearStats
  repeat' first
    | with_reducible assumption
    | intro _
    | with_reducible apply keepsOut_next
    | with_reducible apply keepsOut_ite
    | with_reducible apply cmdSeClearStats_keeps

theorem execSeShaftRead_keeps {a : State} {v0 v1 v2} (h2 : Keeps a v2) : KeepsOut a (execSeShaftRead v0 v1 v2) := by
  unfold execSeShaftRead
  repeat' first
    | with_reducible assumption
    | intro _
    | with_reducible apply keepsOut_next
    | with_reducible apply keepsOut_ite
    | with_reducible apply cmdSeShaftRead_keeps

end Sys2Proof.Machine
end

