-- ==== Sys2Proof/Laws/KeepsRegs.lean ====
section
/-! SUPPORT. What no command does (Laws.Keeps), said of every function of Machine.Regs. -/

namespace Sys2Proof.Machine

theorem State.seStatusReg_keeps {a : State} {v0} (h0 : Keeps a v0) : Keeps a (State.seStatusReg v0).2 := by
  unfold State.seStatusReg
  repeat' first
    | with_reducible assumption
    | intro _
    | dsimp only
    | with_reducible apply State.free_keeps

theorem State.edgeWr_keeps {a : State} {v0 v1} (h0 : Keeps a v0) : Keeps a (State.edgeWr v0 v1) := by
  unfold State.edgeWr
  repeat' first
    | with_reducible assumption
    | exact Nat.le_refl _
    | exact slots_same rfl
    | exact id
    | intro _
    | with_reducible apply State.parHeal_keeps
    | with_reducible apply keeps_foldl
    | dsimp only
    | with_reducible refine keeps_mk ?_ ?_ ?_ ?_ ?_

theorem State.tmbWr_keeps {a : State} {v0 v1 v2} (h0 : Keeps a v0) : Keeps a (State.tmbWr v0 v1 v2) := by
  unfold State.tmbWr
  repeat' first
    | with_reducible assumption
    | intro _
    | with_reducible apply State.parHeal_keeps
    | with_reducible apply State.setTimer_keeps
    | with_reducible apply State.start_keeps
    | with_reducible apply keeps_ite

theorem State.readSe_keeps {a : State} {v0 v1} (h0 : Keeps a v0) : Keeps a (State.readSe v0 v1).2 := by
  unfold State.readSe
  repeat' first
    | with_reducible assumption
    | intro _
    | dsimp only
    | with_reducible apply State.seStatusReg_keeps
    | with_reducible apply keeps_ite
    | with_reducible apply keeps_ite_snd

theorem State.readQue_keeps {a : State} {v0 v1 v2} (h0 : Keeps a v0) : Keeps a (State.readQue v0 v1 v2).2 := by
  unfold State.readQue
  repeat' first
    | with_reducible assumption
    | intro _
    | dsimp only
    | with_reducible apply State.qDataLo_keeps
    | with_reducible apply keeps_ite
    | with_reducible apply keeps_ite_snd

theorem State.readReg_keeps {a : State} {v0 v1 v2} (h0 : Keeps a v0) : Keeps a (State.readReg v0 v1 v2).2 := by
  unfold State.readReg
  repeat' first
    | with_reducible assumption
    | intro _
    | dsimp only
    | with_reducible apply State.dtimeRead_keeps
    | with_reducible apply State.rtcRegRead_keeps
    | with_reducible apply State.readQue_keeps
    | with_reducible apply State.setLatch_keeps
    | with_reducible apply State.readSe_keeps
    | with_reducible apply keeps_ite
    | with_reducible apply keeps_ite_snd
    | refine keeps_of_pair (by assumption) ?_
    | refine keeps_of_triple (by assumption) ?_
    | split

theorem execLoRegisterRead_keeps {a : State} {v0 v1 v2} (h2 : Keeps a v2) : KeepsOut a (execLoRegisterRead v0 v1 v2) := by
  unfold execLoRegisterRead
  repeat' first
    | with_reducible assumption
    | intro _
    | dsimp only
    | with_reducible apply keepsOut_next
    | with_reducible apply keepsOut_ite
    | with_reducible apply State.holdAccess_keeps
    | with_reducible apply State.readReg_keeps
    | with_reducible apply keeps_ite

/-- Every state an option may hold keeps it. -/
structure KeepsOpt (a : State) (o : Option State) : Prop where
  some : ∀ t, o = .some t → Keeps a t

theorem keepsOpt_some {a s : State} (h : Keeps a s) : KeepsOpt a (some s) := ⟨fun t e => by
  injection e with e
  exact e ▸ h⟩

theorem keepsOpt_none {a : State} : KeepsOpt a none := ⟨fun t e => by cases e⟩

theorem keepsOpt_ite {a : State} {o p : Option State} {c : Prop} [Decidable c] (h1 : KeepsOpt a o)
    (h2 : KeepsOpt a p) : KeepsOpt a (if c then o else p) := by
  split <;> assumption

theorem State.writeHook_keeps {a v0 : State} {v1 v2} (h0 : Keeps a v0) : KeepsOpt a (State.writeHook v0 v1 v2) := by
  unfold State.writeHook
  extract_lets n o m
  repeat' first
    | with_reducible assumption
    | with_reducible exact keepsOpt_none
    | intro _
    | with_reducible apply keepsOpt_ite
    | with_reducible apply keepsOpt_some
    | with_reducible apply keeps_when
    | with_reducible apply keeps_foldl
    | with_reducible apply State.hpiClr_keeps
    | with_reducible apply State.ethClr_keeps
    | with_reducible apply State.storeWr_keeps
    | with_reducible apply State.clrTime_keeps
    | with_reducible apply State.clrOvr_keeps
    | with_reducible apply State.userTrig_keeps
    | with_reducible apply State.edgeWr_keeps
    | with_reducible apply State.tmbWr_keeps
    | with_reducible apply State.ixeClr_keeps
    | with_reducible apply State.startRecovery_keeps
    | with_reducible apply State.txRequest_keeps
    | with_reducible apply State.txCancel_keeps
    | with_reducible apply State.fbpClr_keeps
    | with_reducible apply State.clearAll_keeps
    | with_reducible apply State.diagClear_keeps
    | with_reducible apply State.groupAck_keeps
    | with_reducible apply State.twlClr_keeps
    | with_reducible apply State.miuTestWr_keeps
    | with_reducible apply State.miuClear_keeps
    | with_reducible apply State.rsmClr_keeps
    | with_reducible apply State.evrCtrlWr_keeps
    | with_reducible apply State.evrClrWr_keeps
    | with_reducible apply State.rtcTrimWr_keeps
    | with_reducible apply State.rtcChgWr_keeps
    | with_reducible apply State.wdtKey_keeps
    | with_reducible apply State.wdtCheckinWr_keeps
    | with_reducible apply State.wdtConfig_keeps
    | with_reducible apply State.setQueue_keeps
    | with_reducible apply State.qnPush_keeps
    | with_reducible apply State.dmaGo_keeps

theorem State.writeReg_keeps {a v0 : State} {v1 v2} (h0 : Keeps a v0) : Keeps a (State.writeReg v0 v1 v2) := by
  unfold State.writeReg
  split
  · exact h0
  refine keeps_ite ?_ (keeps_ite h0 ?_)
  · split
    · exact State.commitWr_keeps h0
    · exact h0
  · split
    · rename_i e
      exact (State.writeHook_keeps h0).some _ e
    · exact State.wr_keeps h0

theorem State.mgcRead_keeps {a : State} {v0 v1} (h0 : Keeps a v0) : Keeps a (State.mgcRead v0 v1).2 := by
  unfold State.mgcRead
  repeat' first
    | with_reducible assumption
    | intro _
    | dsimp only
    | with_reducible apply State.readReg_keeps
    | with_reducible apply State.mramRead_keeps
    | with_reducible apply State.readBytes_keeps
    | with_reducible apply State.ok_keeps
    | with_reducible apply keeps_ite
    | with_reducible apply keeps_ite_snd
    | refine keeps_of_pair (by assumption) ?_
    | refine keeps_of_triple (by assumption) ?_
    | split

theorem State.memWr_keeps {a : State} {v0 v1 v2} (h0 : Keeps a v0) : Keeps a (State.memWr v0 v1 v2).2 := by
  unfold State.memWr
  repeat' first
    | with_reducible assumption
    | intro _
    | dsimp only
    | with_reducible apply State.discard_keeps
    | with_reducible apply State.writeBytes_keeps
    | with_reducible apply keeps_ite
    | with_reducible apply keeps_ite_snd
    | refine keeps_of_pair (by assumption) ?_
    | refine keeps_of_triple (by assumption) ?_
    | split

theorem State.mgcWrite_keeps {a : State} {v0 v1 v2} (h0 : Keeps a v0) : Keeps a (State.mgcWrite v0 v1 v2).2 := by
  unfold State.mgcWrite
  repeat' first
    | with_reducible assumption
    | intro _
    | dsimp only
    | with_reducible apply State.writeReg_keeps
    | with_reducible apply State.mramWrite_keeps
    | with_reducible apply State.memWr_keeps
    | with_reducible apply keeps_ite
    | with_reducible apply keeps_ite_snd
    | refine keeps_of_pair (by assumption) ?_
    | refine keeps_of_triple (by assumption) ?_
    | split

theorem execRegisterWrite_keeps {a : State} {v0 v1 v2} (h2 : Keeps a v2) : KeepsOut a (execRegisterWrite v0 v1 v2) := by
  unfold execRegisterWrite
  repeat' first
    | with_reducible assumption
    | intro _
    | with_reducible apply keepsOut_next
    | with_reducible apply keepsOut_ite
    | with_reducible apply State.holdAccess_keeps
    | with_reducible apply State.writeReg_keeps
    | with_reducible apply keeps_ite

theorem State.jtagAccess_keeps {a : State} {v0 v1 v2} (h0 : Keeps a v0) : Keeps a (State.jtagAccess v0 v1 v2) := by
  unfold State.jtagAccess
  repeat' first
    | with_reducible assumption
    | exact Nat.le_refl _
    | exact slots_same rfl
    | exact id
    | intro _
    | dsimp only
    | with_reducible apply State.mgcWrite_keeps
    | with_reducible apply State.mgcRead_keeps
    | with_reducible apply State.ok_keeps
    | with_reducible apply State.wr_keeps
    | with_reducible apply keeps_ite
    | with_reducible apply keeps_ite_snd
    | refine keeps_of_pair (by assumption) ?_
    | refine keeps_of_triple (by assumption) ?_
    | split
    | with_reducible refine keeps_mk ?_ ?_ ?_ ?_ ?_

theorem execJtagDebugAccess_keeps {a : State} {v0 v1 v2} (h2 : Keeps a v2) : KeepsOut a (execJtagDebugAccess v0 v1 v2) := by
  unfold execJtagDebugAccess
  repeat' first
    | with_reducible assumption
    | intro _
    | with_reducible apply keepsOut_next
    | with_reducible apply keepsOut_ite
    | with_reducible apply State.holdAccess_keeps
    | with_reducible apply State.jtagAccess_keeps
    | with_reducible apply State.wr_keeps
    | with_reducible apply keeps_ite

theorem State.heldAccess_keeps {a v0 : State} {v1} (h0 : Keeps a v0) : Keeps a (State.heldAccess v0 v1) := by
  cases v1 with
  | write x v => exact State.writeReg_keeps h0
  | lo r x => exact State.readReg_keeps h0
  | jtag x w => exact State.jtagAccess_keeps h0

theorem execSwapEnd_keeps {a : State} {v0 v1} (h1 : Keeps a v1) : KeepsOut a (execSwapEnd v0 v1) := by
  unfold execSwapEnd
  repeat' first
    | with_reducible assumption
    | exact Nat.le_refl _
    | exact slots_same rfl
    | exact id
    | intro _
    | with_reducible apply keepsOut_next
    | with_reducible apply keepsOut_ite
    | with_reducible apply State.at_keeps
    | with_reducible apply State.heldAccess_keeps
    | with_reducible apply State.swapFinish_keeps
    | with_reducible apply keeps_ite
    | with_reducible apply keeps_foldl
    | dsimp only
    | split
    | with_reducible refine keeps_mk ?_ ?_ ?_ ?_ ?_

theorem execJtagTapReset_keeps {a : State} {v0} (h0 : Keeps a v0) : KeepsOut a (execJtagTapReset v0) := by
  unfold execJtagTapReset
  repeat' first
    | with_reducible assumption
    | exact Nat.le_refl _
    | exact slots_same rfl
    | exact id
    | intro _
    | with_reducible apply keepsOut_next
    | with_reducible apply keepsOut_ite
    | with_reducible refine keeps_mk ?_ ?_ ?_ ?_ ?_

end Sys2Proof.Machine
end

