-- ==== Sys2Proof/Laws/KeepsRegCmd.lean ====
section
/-! SUPPORT. What no command does (Laws.Keeps), said of every function of Machine.RegCmd. -/

namespace Sys2Proof.Machine

theorem State.regRefuse_keeps {a : State} {v0 v1 v2 v3} (h0 : Keeps a v0) : Keeps a (State.regRefuse v0 v1 v2 v3) := by
  unfold State.regRefuse
  repeat' first
    | with_reducible assumption
    | intro _
    | with_reducible apply State.fail_keeps

theorem State.regReads_keeps {a v0 : State} {v1} (h0 : Keeps a v0) : Keeps a (State.regReads v0 v1).2.2 := by
  induction v1 generalizing v0 with
  | nil => exact h0
  | cons x xs ih =>
    unfold State.regReads
    have k := State.mgcRead_keeps (v1 := x) h0
    generalize v0.mgcRead x = p at k
    obtain ⟨r, s⟩ := p
    cases r with
    | error e => exact k
    | ok w => exact ih k

theorem State.replyReads_keeps {a : State} {v0 v1 v2 v3} (h0 : Keeps a v0) : Keeps a (State.replyReads v0 v1 v2 v3) := by
  unfold State.replyReads
  repeat' first
    | with_reducible assumption
    | intro _
    | dsimp only
    | with_reducible apply State.regReads_keeps
    | with_reducible apply State.ok_keeps
    | with_reducible apply State.reply_keeps
    | refine keeps_of_pair (by assumption) ?_
    | refine keeps_of_triple (by assumption) ?_
    | split

theorem State.regWrites_keeps {a v0 : State} {v1 v2} (h0 : Keeps a v0) : Keeps a (State.regWrites v0 v1 v2).2.2 := by
  induction v2 generalizing v0 v1 with
  | nil => exact h0
  | cons w ws ih =>
    unfold State.regWrites
    have k := State.mgcWrite_keeps (v1 := v1) (v2 := w) h0
    generalize v0.mgcWrite v1 w = p at k
    obtain ⟨b, s⟩ := p
    cases b with
    | false => exact k
    | true => exact ih k

theorem State.regWriteRun_keeps {a : State} {v0 v1 v2} (h0 : Keeps a v0) : Keeps a (State.regWriteRun v0 v1 v2).2.2 := by
  unfold State.regWriteRun
  repeat' first
    | with_reducible assumption
    | intro _
    | dsimp only
    | with_reducible apply State.mramWrite_keeps
    | with_reducible apply State.regWrites_keeps
    | refine keeps_of_pair (by assumption) ?_
    | refine keeps_of_triple (by assumption) ?_
    | split

theorem State.regStart_keeps {a : State} {v0 v1 v2 v3 v4 v5} (h0 : Keeps a v0) (h5 : ∀ t0, Keeps a t0 → Keeps a (v5 t0)) : Keeps a (State.regStart v0 v1 v2 v3 v4 v5) := by
  unfold State.regStart
  repeat' first
    | with_reducible assumption
    | intro _
    | with_reducible apply h5
    | with_reducible apply State.reWait_keeps
    | with_reducible apply keeps_ite

theorem cmdRegRead_keeps {a : State} {v0 v1 v2} (h2 : Keeps a v2) : Keeps a (cmdRegRead v0 v1 v2) := by
  unfold cmdRegRead
  repeat' first
    | with_reducible assumption
    | intro _
    | with_reducible apply State.startLen_keeps
    | with_reducible apply State.fail_keeps
    | with_reducible apply State.regRefuse_keeps
    | with_reducible apply State.regStart_keeps
    | with_reducible apply State.replyReads_keeps
    | with_reducible apply keeps_ite
    | dsimp only
    | split

theorem cmdRegWrite_keeps {a : State} {v0 v1 v2} (h2 : Keeps a v2) : Keeps a (cmdRegWrite v0 v1 v2) := by
  unfold cmdRegWrite
  repeat' first
    | with_reducible assumption
    | intro _
    | dsimp only
    | with_reducible apply State.start_keeps
    | with_reducible apply State.fail_keeps
    | with_reducible apply State.regRefuse_keeps
    | with_reducible apply State.ok_keeps
    | with_reducible apply State.regStart_keeps
    | with_reducible apply State.regWriteRun_keeps
    | with_reducible apply State.reply_keeps
    | with_reducible apply keeps_ite
    | with_reducible apply keeps_ite_snd
    | refine keeps_of_pair (by assumption) ?_
    | refine keeps_of_triple (by assumption) ?_
    | split

theorem cmdRegModify_keeps {a : State} {v0 v1 v2} (h2 : Keeps a v2) : Keeps a (cmdRegModify v0 v1 v2) := by
  unfold cmdRegModify
  repeat' first
    | with_reducible assumption
    | intro _
    | dsimp only
    | with_reducible apply State.startLen_keeps
    | with_reducible apply State.regRefuse_keeps
    | with_reducible apply State.fail_keeps
    | with_reducible apply State.regStart_keeps
    | with_reducible apply State.mgcRead_keeps
    | with_reducible apply State.reply_keeps
    | with_reducible apply State.mgcWrite_keeps
    | with_reducible apply State.ok_keeps
    | with_reducible apply keeps_ite
    | with_reducible apply keeps_ite_snd
    | refine keeps_of_pair (by assumption) ?_
    | refine keeps_of_triple (by assumption) ?_
    | split

theorem cmdRegListRead_keeps {a : State} {v0 v1 v2} (h2 : Keeps a v2) : Keeps a (cmdRegListRead v0 v1 v2) := by
  unfold cmdRegListRead
  repeat' first
    | with_reducible assumption
    | intro _
    | with_reducible apply State.start_keeps
    | with_reducible apply State.fail_keeps
    | with_reducible apply State.regRefuse_keeps
    | with_reducible apply State.regStart_keeps
    | with_reducible apply State.replyReads_keeps
    | with_reducible apply keeps_ite
    | dsimp only
    | split

theorem cmdRegCommit_keeps {a : State} {v0 v1 v2} (h2 : Keeps a v2) : Keeps a (cmdRegCommit v0 v1 v2) := by
  unfold cmdRegCommit
  repeat' first
    | with_reducible assumption
    | intro _
    | with_reducible apply State.startLen_keeps
    | with_reducible apply State.regRefuse_keeps
    | with_reducible apply State.fail_keeps
    | with_reducible apply State.accept_keeps
    | with_reducible apply State.commitWr_keeps
    | with_reducible apply keeps_ite
    | dsimp only
    | split

theorem State.pollEnd_keeps {a : State} {v0 v1 v2 v3} (h0 : Keeps a v0) : Keeps a (State.pollEnd v0 v1 v2 v3) := by
  unfold State.pollEnd
  repeat' first
    | with_reducible assumption
    | intro _
    | with_reducible apply State.notice_keeps

theorem State.pollStep_keeps {a : State} {v0 v1} (h0 : Keeps a v0) : Keeps a (State.pollStep v0 v1) := by
  unfold State.pollStep
  repeat' first
    | with_reducible assumption
    | exact Nat.le_refl _
    | exact slots_same rfl
    | exact id
    | intro _
    | dsimp only
    | with_reducible apply State.mgcRead_keeps
    | with_reducible apply State.notice_keeps
    | with_reducible apply State.pollEnd_keeps
    | with_reducible apply State.ok_keeps
    | with_reducible apply keeps_ite
    | with_reducible apply keeps_ite_snd
    | refine keeps_of_pair (by assumption) ?_
    | refine keeps_of_triple (by assumption) ?_
    | split
    | with_reducible refine keeps_mk ?_ ?_ ?_ ?_ ?_

theorem cmdRegPoll_keeps {a : State} {v0 v1 v2} (h2 : Keeps a v2) : Keeps a (cmdRegPoll v0 v1 v2) := by
  unfold cmdRegPoll
  repeat' first
    | with_reducible assumption
    | intro _
    | with_reducible apply State.startLen_keeps
    | with_reducible apply State.fail_keeps
    | with_reducible apply State.regRefuse_keeps
    | with_reducible apply State.accept_keeps
    | with_reducible apply State.pollStep_keeps
    | with_reducible apply keeps_ite
    | dsimp only
    | split

theorem State.polls_keeps {a : State} {v0} (h0 : Keeps a v0) : Keeps a (State.polls v0) := by
  unfold State.polls
  repeat' first
    | with_reducible assumption
    | intro _
    | with_reducible apply State.pollStep_keeps
    | with_reducible apply keeps_foldl

theorem execRegPollTimeout_keeps {a : State} {v0 v1 v2} (h2 : Keeps a v2) : KeepsOut a (execRegPollTimeout v0 v1 v2) := by
  unfold execRegPollTimeout
  repeat' first
    | with_reducible assumption
    | intro _
    | with_reducible apply keepsOut_next
    | with_reducible apply keepsOut_ite
    | with_reducible apply State.at_keeps
    | with_reducible apply State.pollEnd_keeps
    | with_reducible apply keeps_ite
    | dsimp only
    | split

theorem execRegRead_keeps {a : State} {v0 v1 v2} (h2 : Keeps a v2) : KeepsOut a (execRegRead v0 v1 v2) := by
  unfold execRegRead
  repeat' first
    | with_reducible assumption
    | intro _
    | with_reducible apply keepsOut_next
    | with_reducible apply keepsOut_ite
    | with_reducible apply cmdRegRead_keeps

theorem execRegWrite_keeps {a : State} {v0 v1 v2} (h2 : Keeps a v2) : KeepsOut a (execRegWrite v0 v1 v2) := by
  unfold execRegWrite
  repeat' first
    | with_reducible assumption
    | intro _
    | with_reducible apply keepsOut_next
    | with_reducible apply keepsOut_ite
    | with_reducible apply cmdRegWrite_keeps

theorem execRegModify_keeps {a : State} {v0 v1 v2} (h2 : Keeps a v2) : KeepsOut a (execRegModify v0 v1 v2) := by
  unfold execRegModify
  repeat' first
    | with_reducible assumption
    | intro _
    | with_reducible apply keepsOut_next
    | with_reducible apply keepsOut_ite
    | with_reducible apply cmdRegModify_keeps

theorem execRegListRead_keeps {a : State} {v0 v1 v2} (h2 : Keeps a v2) : KeepsOut a (execRegListRead v0 v1 v2) := by
  unfold execRegListRead
  repeat' first
    | with_reducible assumption
    | intro _
    | with_reducible apply keepsOut_next
    | with_reducible apply keepsOut_ite
    | with_reducible apply cmdRegListRead_keeps

theorem execRegCommit_keeps {a : State} {v0 v1 v2} (h2 : Keeps a v2) : KeepsOut a (execRegCommit v0 v1 v2) := by
  unfold execRegCommit
  repeat' first
    | with_reducible assumption
    | intro _
    | with_reducible apply keepsOut_next
    | with_reducible apply keepsOut_ite
    | with_reducible apply cmdRegCommit_keeps

theorem execRegPoll_keeps {a : State} {v0 v1 v2} (h2 : Keeps a v2) : KeepsOut a (execRegPoll v0 v1 v2) := by
  unfold execRegPoll
  repeat' first
    | with_reducible assumption
    | intro _
    | with_reducible apply keepsOut_next
    | with_reducible apply keepsOut_ite
    | with_reducible apply cmdRegPoll_keeps

end Sys2Proof.Machine
end

