-- ==== Sys2Proof/Laws/KeepsMgmt.lean ====
section
/-! SUPPORT. What no command does (Laws.Keeps), said of every function of Machine.Mgmt. -/

namespace Sys2Proof.Machine

/-- Every meaning of the table keeps it. -/
theorem meaningsLow_keep {a : State} : ∀ e ∈ meaningsLow, ∀ q p s, Keeps a s → Keeps a (e.2 q p s) := by
  unfold meaningsLow
  repeat' refine List.forall_mem_cons.2 ⟨?_, ?_⟩
  · exact fun q p s h => cmdSysPing_keeps h
  · exact fun q p s h => cmdSysIdent_keeps h
  · exact fun q p s h => cmdSysStatus_keeps h
  · exact fun q p s h => cmdSysSessionOpen_keeps h
  · exact fun q p s h => cmdSysSessionClose_keeps h
  · exact fun q p s h => cmdSysStateSet_keeps h
  · exact fun q p s h => cmdSysRestart_keeps h
  · exact fun q p s h => cmdSysLockSet_keeps h
  · exact fun q p s h => cmdSysLockClear_keeps h
  · exact fun q p s h => cmdSysKeySet_keeps h
  · exact fun q p s h => cmdSysCounters_keeps h
  · exact fun q p s h => cmdRegRead_keeps h
  · exact fun q p s h => cmdRegWrite_keeps h
  · exact fun q p s h => cmdRegModify_keeps h
  · exact fun q p s h => cmdRegListRead_keeps h
  · exact fun q p s h => cmdRegCommit_keeps h
  · exact fun q p s h => cmdRegPoll_keeps h
  · exact fun q p s h => cmdSeTaskStatus_keeps h
  · exact fun q p s h => cmdSeTrigger_keeps h
  · exact fun q p s h => cmdSeClearStats_keeps h
  · exact fun q p s h => cmdSeShaftRead_keeps h
  · exact fun q p s h => cmdSeChamberOpen_keeps h
  · exact fun q p s h => cmdSeChamberWrite_keeps h
  · exact fun q p s h => cmdSeChamberClose_keeps h
  · exact fun q p s h => cmdSeSwapArm_keeps h
  · exact fun q p s h => cmdSeSwapDisarm_keeps h
  · exact fun q p s h => cmdSeSwapStatus_keeps h
  · exact fun q p s h => cmdIxeStatusRead_keeps h
  · exact fun q p s h => cmdIxePointRead_keeps h
  · exact fun q p s h => cmdIxeBaselineReset_keeps h
  · exact fun q p s h => cmdIxeBaselineLoad_keeps h
  · exact fun q p s h => cmdIxeStateClear_keeps h
  · exact fun q p s h => cmdIxeCounters_keeps h
  · exact fun q p s h => cmdFbpStatus_keeps h
  · exact fun q p s h => cmdFbpRecover_keeps h
  · exact fun q p s h => cmdFbpSend_keeps h
  · exact fun q p s h => cmdFbpCancel_keeps h
  · exact fun q p s h => cmdFbpTdr_keeps h
  · exact fun q p s h => cmdFbpCounters_keeps h
  · exact fun q p s h => cmdStnStatus_keeps h
  · exact fun q p s h => cmdStnRejoin_keeps h
  · exact fun q p s h => cmdStnMgmt_keeps h
  · exact fun q p s h => cmdStnStop_keeps h
  · exact fun q p s h => cmdStnCounters_keeps h
  · exact fun q p s h => cmdFioStatus_keeps h
  · exact fun q p s h => cmdFioGroupAck_keeps h
  · exact fun q p s h => cmdFioDiagClear_keeps h
  · exact fun q p s h => cmdFioLoadRead_keeps h
  · exact fun _ h => by cases h

/-- Every meaning of the table keeps it. -/
theorem meaningsHigh_keep {a : State} : ∀ e ∈ meaningsHigh, ∀ q p s, Keeps a s → Keeps a (e.2 q p s) := by
  unfold meaningsHigh
  repeat' refine List.forall_mem_cons.2 ⟨?_, ?_⟩
  · exact fun q p s h => cmdTwlStatus_keeps h
  · exact fun q p s h => cmdTwlJoin_keeps h
  · exact fun q p s h => cmdTwlDetach_keeps h
  · exact fun q p s h => cmdTwlSwitchover_keeps h
  · exact fun q p s h => cmdTwlGoSolo_keeps h
  · exact fun q p s h => cmdTwlEpochSet_keeps h
  · exact fun q p s h => cmdTwlCounters_keeps h
  · exact fun q p s h => cmdMiuStatus_keeps h
  · exact fun q p s h => cmdMiuScrub_keeps h
  · exact fun q p s h => cmdMiuScrubAbort_keeps h
  · exact fun q p s h => cmdMiuRawRead_keeps h
  · exact fun q p s h => cmdMiuRawWrite_keeps h
  · exact fun q p s h => cmdRsmStatus_keeps h
  · exact fun q p s h => cmdRsmFormat_keeps h
  · exact fun q p s h => cmdRsmRetainClear_keeps h
  · exact fun q p s h => cmdEvrStatus_keeps h
  · exact fun q p s h => cmdEvrRead_keeps h
  · exact fun q p s h => cmdEvrFreeze_keeps h
  · exact fun q p s h => cmdEvrUnfreeze_keeps h
  · exact fun q p s h => cmdEvrClear_keeps h
  · exact fun q p s h => cmdRtcRead_keeps h
  · exact fun q p s h => cmdRtcSet_keeps h
  · exact fun q p s h => cmdRtcTrim_keeps h
  · exact fun q p s h => cmdWdtStatus_keeps h
  · exact fun q p s h => cmdWdtService_keeps h
  · exact fun q p s h => cmdWdtCheckin_keeps h
  · exact fun q p s h => cmdUpdBegin_keeps h
  · exact fun q p s h => cmdUpdData_keeps h
  · exact fun q p s h => cmdUpdVerify_keeps h
  · exact fun q p s h => cmdUpdActivate_keeps h
  · exact fun q p s h => cmdUpdConfirm_keeps h
  · exact fun q p s h => cmdUpdRevert_keeps h
  · exact fun q p s h => cmdUpdStatus_keeps h
  · exact fun q p s h => cmdUpdAbort_keeps h
  · exact fun q p s h => cmdUpdStationActivate_keeps h
  · exact fun q p s h => cmdQueStatus_keeps h
  · exact fun q p s h => cmdQuePop_keeps h
  · exact fun q p s h => cmdQuePush_keeps h
  · exact fun q p s h => cmdQuePushPacket_keeps h
  · exact fun q p s h => cmdQueClear_keeps h
  · exact fun q p s h => cmdEthStatus_keeps h
  · exact fun q p s h => cmdEthConfig_keeps h
  · exact fun q p s h => cmdPtpConfig_keeps h
  · exact fun q p s h => cmdPtpStatus_keeps h
  · exact fun q p s h => cmdEthCounters_keeps h
  · exact fun _ h => by cases h

theorem State.startCmd_keeps {a v0 : State} {v1} (h0 : Keeps a v0) : Keeps a (State.startCmd v0 v1) := by
  unfold State.startCmd
  split
  · rename_i e he
    have hm := List.mem_of_find?_eq_some he
    rcases List.mem_append.1 hm with hm | hm
    · exact meaningsLow_keep e hm _ _ _ h0
    · exact meaningsHigh_keep e hm _ _ _ h0
  · exact h0

theorem State.startWaiting_keeps {a : State} {v0} (h0 : Keeps a v0) : Keeps a (State.startWaiting v0) := by
  unfold State.startWaiting
  repeat' first
    | with_reducible assumption
    | intro _
    | with_reducible apply State.startCmd_keeps
    | with_reducible apply keeps_foldl

theorem State.autorun_keeps {a : State} {v0} (h0 : Keeps a v0) : Keeps a (State.autorun v0) := by
  unfold State.autorun
  repeat' first
    | with_reducible assumption
    | exact Nat.le_refl _
    | exact slots_same rfl
    | exact id
    | intro _
    | with_reducible apply State.reach_keeps
    | with_reducible apply State.wait_keeps
    | with_reducible apply keeps_ite
    | with_reducible apply keeps_when
    | dsimp only
    | split
    | with_reducible refine keeps_mk ?_ ?_ ?_ ?_ ?_

theorem execManagementTick_keeps {a : State} {v0 v1} (h1 : Keeps a v1) : KeepsOut a (execManagementTick v0 v1) := by
  unfold execManagementTick
  repeat' first
    | with_reducible assumption
    | intro _
    | with_reducible apply keepsOut_next
    | with_reducible apply keepsOut_ite
    | with_reducible apply State.at_keeps
    | with_reducible apply State.wr_keeps
    | with_reducible apply State.autorun_keeps
    | with_reducible apply State.wdtFirmware_keeps
    | with_reducible apply State.startWaiting_keeps
    | with_reducible apply State.polls_keeps
    | with_reducible apply State.evrClearPlace_keeps
    | with_reducible apply State.ethTick_keeps
    | with_reducible apply State.tickCommits_keeps

end Sys2Proof.Machine
end

