-- ==== Sys2Proof/Laws/KeepsDispatch.lean ====
section
/-! SUPPORT. What no command does (Laws.Keeps), said of every function of Machine.Dispatch. -/

namespace Sys2Proof.Machine

/-- What every command keeps. -/
theorem exec_keeps {a s : State} (i : Instr) (h : Keeps a s) : KeepsOut a (exec i s) := by
  cases i with
  | packetReceived _ _ _ => exact execPacketReceived_keeps h
  | sessionIdleClose _ _ => exact execSessionIdleClose_keeps h
  | spiStatus => exact execSpiStatus_keeps h
  | spiWrite _ _ => exact execSpiWrite_keeps h
  | spiRead _ => exact execSpiRead_keeps h
  | spiReservedCode _ _ => exact execSpiReservedCode_keeps h
  | udpDatagram _ _ _ _ => exact execUdpDatagram_keeps h
  | ipFragment _ _ _ _ _ _ => exact execIpFragment_keeps h
  | fragmentTimeout _ _ _ => exact execFragmentTimeout_keeps h
  | sysPing _ _ => exact execSysPing_keeps h
  | sysIdent _ _ => exact execSysIdent_keeps h
  | sysStatus _ _ => exact execSysStatus_keeps h
  | sysSessionOpen _ _ => exact execSysSessionOpen_keeps h
  | sysSessionClose _ _ => exact execSysSessionClose_keeps h
  | sysStateSet _ _ => exact execSysStateSet_keeps h
  | sysRestart _ _ => exact execSysRestart_keeps h
  | sysLockSet _ _ => exact execSysLockSet_keeps h
  | sysLockClear _ _ => exact execSysLockClear_keeps h
  | sysKeySet _ _ => exact execSysKeySet_keeps h
  | sysCounters _ _ => exact execSysCounters_keeps h
  | regRead _ _ => exact execRegRead_keeps h
  | regWrite _ _ => exact execRegWrite_keeps h
  | regModify _ _ => exact execRegModify_keeps h
  | regListRead _ _ => exact execRegListRead_keeps h
  | regCommit _ _ => exact execRegCommit_keeps h
  | regPoll _ _ => exact execRegPoll_keeps h
  | regPollTimeout _ _ => exact execRegPollTimeout_keeps h
  | commitWrite _ => exact execCommitWrite_keeps h
  | commitApply _ _ => exact execCommitApply_keeps h
  | commitTimeout _ _ => exact execCommitTimeout_keeps h
  | queStatus _ _ => exact execQueStatus_keeps h
  | quePop _ _ => exact execQuePop_keeps h
  | quePush _ _ => exact execQuePush_keeps h
  | quePushPacket _ _ => exact execQuePushPacket_keeps h
  | queClear _ _ => exact execQueClear_keeps h
  | quePushWaitTimeout _ _ => exact execQuePushWaitTimeout_keeps h
  | managementTick _ => exact execManagementTick_keeps h
  | dieLinkLoss _ => exact execDieLinkLoss_keeps h
  | outputUpdateTick _ _ => exact execOutputUpdateTick_keeps h
  | gridTick _ => exact execGridTick_keeps h
  | triggerArrival _ _ => exact execTriggerArrival_keeps h
  | snapshotCopyStart _ => exact execSnapshotCopyStart_keeps h
  | snapshotCopyEnd _ _ => exact execSnapshotCopyEnd_keeps h
  | imageWrite _ => exact execImageWrite_keeps h
  | publicationEnd _ _ => exact execPublicationEnd_keeps h
  | imageCopyRepair out _ => exact execImageCopyRepair_keeps (v0 := out) h
  | seSwtrig _ => exact execSeSwtrig_keeps h
  | seCtrlClrTime => exact execSeCtrlClrTime_keeps h
  | seCtrlClrOvr => exact execSeCtrlClrOvr_keeps h
  | seHotWrite _ _ => exact execSeHotWrite_keeps h
  | stateChangeApply _ => exact execStateChangeApply_keeps h
  | runExitComplete _ => exact execRunExitComplete_keeps h
  | runExitAbandon _ => exact execRunExitAbandon_keeps h
  | ctx4Timeout _ => exact execCtx4Timeout_keeps h
  | retainCopyEnd _ => exact execRetainCopyEnd_keeps h
  | tachEdge _ _ _ => exact execTachEdge_keeps h
  | shaftStall _ _ => exact execShaftStall_keeps h
  | seTaskStatus _ _ => exact execSeTaskStatus_keeps h
  | seTrigger _ _ => exact execSeTrigger_keeps h
  | seClearStats _ _ => exact execSeClearStats_keeps h
  | seShaftRead _ _ => exact execSeShaftRead_keeps h
  | bitLd _ => exact execBitLd_keeps h
  | bitLdn _ => exact execBitLdn_keeps h
  | bitAnd _ => exact execBitAnd_keeps h
  | bitAndn _ => exact execBitAndn_keeps h
  | bitOr _ => exact execBitOr_keeps h
  | bitOrn _ => exact execBitOrn_keeps h
  | bitXor _ => exact execBitXor_keeps h
  | bitXorn _ => exact execBitXorn_keeps h
  | bitSt _ => exact execBitSt_keeps h
  | bitStn _ => exact execBitStn_keeps h
  | bitStp _ => exact execBitStp_keeps h
  | bitSet _ => exact execBitSet_keeps h
  | bitRst _ => exact execBitRst_keeps h
  | bitSetp _ => exact execBitSetp_keeps h
  | bitRstp _ => exact execBitRstp_keeps h
  | push0 => exact execPush0_keeps h
  | push1 => exact execPush1_keeps h
  | stkNot => exact execStkNot_keeps h
  | dup => exact execDup_keeps h
  | pop => exact execPop_keeps h
  | ands => exact execAnds_keeps h
  | ors => exact execOrs_keeps h
  | xors => exact execXors_keeps h
  | swap => exact execSwap_keeps h
  | pushc _ => exact execPushc_keeps h
  | stkClr => exact execStkClr_keeps h
  | knotPush _ => exact execKnotPush_keeps h
  | knotAnd _ => exact execKnotAnd_keeps h
  | knotOr _ => exact execKnotOr_keeps h
  | edgeRising _ => exact execEdgeRising_keeps h
  | edgeFalling _ => exact execEdgeFalling_keeps h
  | edgeBoth _ => exact execEdgeBoth_keeps h
  | unprime _ => exact execUnprime_keeps h
  | timTon _ _ => exact execTimTon_keeps h
  | timTof _ _ => exact execTimTof_keeps h
  | timTp _ _ => exact execTimTp_keeps h
  | trst _ _ => exact execTrst_keeps h
  | aluAdd _ _ _ _ _ => exact execAluAdd_keeps h
  | aluSub _ _ _ _ _ => exact execAluSub_keeps h
  | aluAnd _ _ _ _ _ => exact execAluAnd_keeps h
  | aluOr _ _ _ _ _ => exact execAluOr_keeps h
  | aluXor _ _ _ _ _ => exact execAluXor_keeps h
  | aluShl _ _ _ _ _ => exact execAluShl_keeps h
  | aluShr _ _ _ _ _ => exact execAluShr_keeps h
  | aluSar _ _ _ _ _ => exact execAluSar_keeps h
  | aluRol _ _ _ _ _ => exact execAluRol_keeps h
  | aluRor _ _ _ _ _ => exact execAluRor_keeps h
  | aluMul _ _ _ _ _ => exact execAluMul_keeps h
  | aluMulh _ _ _ _ _ => exact execAluMulh_keeps h
  | aluDiv _ _ _ _ _ => exact execAluDiv_keeps h
  | aluRem _ _ _ _ _ => exact execAluRem_keeps h
  | aluMin _ _ _ _ _ => exact execAluMin_keeps h
  | aluMax _ _ _ _ _ => exact execAluMax_keeps h
  | aluCmp _ _ _ _ => exact execAluCmp_keeps h
  | aluMov _ _ _ _ => exact execAluMov_keeps h
  | aluNot _ _ _ _ => exact execAluNot_keeps h
  | aluNeg _ _ _ _ => exact execAluNeg_keeps h
  | aluAbs _ _ _ _ => exact execAluAbs_keeps h
  | aluSel _ _ _ _ _ => exact execAluSel_keeps h
  | addi _ _ => exact execAddi_keeps h
  | andi _ _ => exact execAndi_keeps h
  | ori _ _ => exact execOri_keeps h
  | xori _ _ => exact execXori_keeps h
  | shli _ _ => exact execShli_keeps h
  | shri _ _ => exact execShri_keeps h
  | sari _ _ => exact execSari_keeps h
  | cmpi _ _ => exact execCmpi_keeps h
  | ldil _ _ => exact execLdil_keeps h
  | ldih _ _ => exact execLdih_keeps h
  | muli _ _ => exact execMuli_keeps h
  | ldi _ _ => exact execLdi_keeps h
  | ldb _ _ _ => exact execLdb_keeps h
  | ldbs _ _ _ => exact execLdbs_keeps h
  | ldh _ _ _ => exact execLdh_keeps h
  | ldhs _ _ _ => exact execLdhs_keeps h
  | ldw _ _ _ => exact execLdw_keeps h
  | ldd _ _ _ => exact execLdd_keeps h
  | stb _ _ _ => exact execStb_keeps h
  | sth _ _ _ => exact execSth_keeps h
  | stw _ _ _ => exact execStw_keeps h
  | std _ _ _ => exact execStd_keeps h
  | ldx _ _ _ => exact execLdx_keeps h
  | stx _ _ _ => exact execStx_keeps h
  | movb _ _ _ => exact execMovb_keeps h
  | fillb _ _ _ => exact execFillb_keeps h
  | fadd _ _ _ _ => exact execFadd_keeps h
  | fsub _ _ _ _ => exact execFsub_keeps h
  | fmul _ _ _ _ => exact execFmul_keeps h
  | fdiv _ _ _ _ => exact execFdiv_keeps h
  | fsqrt _ _ _ => exact execFsqrt_keeps h
  | fmin _ _ _ _ => exact execFmin_keeps h
  | fmax _ _ _ _ => exact execFmax_keeps h
  | fabs _ _ _ => exact execFabs_keeps h
  | fneg _ _ _ => exact execFneg_keeps h
  | fcmp _ _ _ => exact execFcmp_keeps h
  | fcvti _ _ _ => exact execFcvti_keeps h
  | fcvtf _ _ _ => exact execFcvtf_keeps h
  | fcvtl _ _ _ => exact execFcvtl_keeps h
  | fcvtlf _ _ _ => exact execFcvtlf_keeps h
  | fcvtp _ _ _ => exact execFcvtp_keeps h
  | ftrunc _ _ _ => exact execFtrunc_keeps h
  | br _ _ => exact execBr_keeps h
  | call _ _ => exact execCall_keeps h
  | jr _ => exact execJr_keeps h
  | callr _ _ => exact execCallr_keeps h
  | nop => exact execNop_keeps h
  | endInsn _ => exact execEndInsn_keeps h
  | trapInsn _ => exact execTrapInsn_keeps h
  | fence => exact execFence_keeps h
  | qpush _ _ => exact execQpush_keeps h
  | qpop _ _ => exact execQpop_keeps h
  | qopen _ => exact execQopen_keeps h
  | qclose _ => exact execQclose_keeps h
  | qlvl _ _ => exact execQlvl_keeps h
  | evt _ _ => exact execEvt_keeps h
  | trig _ => exact execTrig_keeps h
  | sysr _ _ _ => exact execSysr_keeps h
  | sysw _ _ => exact execSysw_keeps h
  | reservedInstruction _ _ => exact execReservedInstruction_keeps h
  | seChamberOpen _ _ => exact execSeChamberOpen_keeps h
  | seChamberWrite _ _ => exact execSeChamberWrite_keeps h
  | seChamberClose _ _ => exact execSeChamberClose_keeps h
  | chamberCheckEnd => exact execChamberCheckEnd_keeps h
  | seSwapArm _ _ => exact execSeSwapArm_keeps h
  | seSwapDisarm _ _ => exact execSeSwapDisarm_keeps h
  | seSwapStatus _ _ => exact execSeSwapStatus_keeps h
  | swapStart _ => exact execSwapStart_keeps h
  | swapEnd _ => exact execSwapEnd_keeps h
  | swapTimeout _ => exact execSwapTimeout_keeps h
  | swapAttemptLapse _ => exact execSwapAttemptLapse_keeps h
  | ixeRecord _ => exact execIxeRecord_keeps h
  | ixeTimeoutCheck _ => exact execIxeTimeoutCheck_keeps h
  | ixeStatusRead _ _ => exact execIxeStatusRead_keeps h
  | ixePointRead _ _ => exact execIxePointRead_keeps h
  | ixeBaselineReset _ _ => exact execIxeBaselineReset_keeps h
  | ixeBaselineLoad _ _ => exact execIxeBaselineLoad_keeps h
  | ixeStateClear _ _ => exact execIxeStateClear_keeps h
  | ixeCounters _ _ => exact execIxeCounters_keeps h
  | ixeClr _ => exact execIxeClr_keeps h
  | frameReceived _ _ _ => exact execFrameReceived_keeps h
  | rxQueueWaitTimeout _ => exact execRxQueueWaitTimeout_keeps h
  | frameStart _ _ _ => exact execFrameStart_keeps h
  | frameSent _ _ => exact execFrameSent_keeps h
  | arbitrationLost _ => exact execArbitrationLost_keeps h
  | busError _ _ _ => exact execBusError_keeps h
  | suspendEnd _ => exact execSuspendEnd_keeps h
  | integrationEnd _ => exact execIntegrationEnd_keeps h
  | busoffRecoveryEnd _ => exact execBusoffRecoveryEnd_keeps h
  | dominantTimeout _ => exact execDominantTimeout_keeps h
  | basicCycleEnd _ _ => exact execBasicCycleEnd_keeps h
  | windowStart _ _ _ => exact execWindowStart_keeps h
  | windowEnd _ _ _ => exact execWindowEnd_keeps h
  | loadInstant _ _ _ _ => exact execLoadInstant_keeps h
  | tdrBurstEnd _ _ _ => exact execTdrBurstEnd_keeps h
  | tdrTimeout _ => exact execTdrTimeout_keeps h
  | stationRefLost _ => exact execStationRefLost_keeps h
  | stationHoldExpired _ _ => exact execStationHoldExpired_keeps h
  | fbpnTxreq _ _ _ => exact execFbpnTxreq_keeps h
  | fbpnTxcan _ _ _ => exact execFbpnTxcan_keeps h
  | fbpnRecover _ _ => exact execFbpnRecover_keeps h
  | fbpnClr _ _ => exact execFbpnClr_keeps h
  | fbpStatus _ _ => exact execFbpStatus_keeps h
  | fbpRecover _ _ => exact execFbpRecover_keeps h
  | fbpSend _ _ => exact execFbpSend_keeps h
  | fbpSendTimeout _ _ => exact execFbpSendTimeout_keeps h
  | fbpCancel _ _ => exact execFbpCancel_keeps h
  | fbpTdr _ _ => exact execFbpTdr_keeps h
  | fbpCounters _ _ => exact execFbpCounters_keeps h
  | stnFrame _ _ => exact execStnFrame_keeps h
  | mgmtResponseTimeout _ _ _ => exact execMgmtResponseTimeout_keeps h
  | joinPoll _ _ _ => exact execJoinPoll_keeps h
  | waitfirstTimeout _ _ => exact execWaitfirstTimeout_keeps h
  | keepalivePeriodEnd _ _ _ => exact execKeepalivePeriodEnd_keeps h
  | stnClr _ _ => exact execStnClr_keeps h
  | stnStatus _ _ => exact execStnStatus_keeps h
  | stnRejoin _ _ => exact execStnRejoin_keeps h
  | stnMgmt _ _ => exact execStnMgmt_keeps h
  | stnStop _ _ => exact execStnStop_keeps h
  | stnCounters _ _ => exact execStnCounters_keeps h
  | groupLow _ => exact execGroupLow_keeps h
  | groupOff _ => exact execGroupOff_keeps h
  | groupRecovery _ => exact execGroupRecovery_keeps h
  | grpgAck _ _ => exact execGrpgAck_keeps h
  | chnDiagclr _ _ => exact execChnDiagclr_keeps h
  | thermalShutdown _ => exact execThermalShutdown_keeps h
  | shortRetry _ _ => exact execShortRetry_keeps h
  | channelOvertemp _ => exact execChannelOvertemp_keeps h
  | channelCooled _ _ => exact execChannelCooled_keeps h
  | loadMeasurement _ _ => exact execLoadMeasurement_keeps h
  | fioStatus _ _ => exact execFioStatus_keeps h
  | fioGroupAck _ _ => exact execFioGroupAck_keeps h
  | fioDiagClear _ _ => exact execFioDiagClear_keeps h
  | fioLoadRead _ _ => exact execFioLoadRead_keeps h
  | telemetrySweep _ _ => exact execTelemetrySweep_keeps h
  | paliLost _ => exact execPaliLost_keeps h
  | paliAlive => exact execPaliAlive_keeps h
  | paliqTimeout _ => exact execPaliqTimeout_keeps h
  | towlineLockLost _ _ => exact execTowlineLockLost_keeps h
  | tickTimeout _ => exact execTickTimeout_keeps h
  | trainingAttempt _ => exact execTrainingAttempt_keeps h
  | towlineUp _ _ _ _ => exact execTowlineUp_keeps h
  | solowaitExpired _ => exact execSolowaitExpired_keeps h
  | twlTick _ => exact execTwlTick_keeps h
  | twlAck _ _ _ => exact execTwlAck_keeps h
  | twlEcho _ _ => exact execTwlEcho_keeps h
  | twlCap _ _ => exact execTwlCap_keeps h
  | twlBadFrame => exact execTwlBadFrame_keeps h
  | twlReservedFrame _ => exact execTwlReservedFrame_keeps h
  | propose _ _ _ => exact execPropose_keeps h
  | ready _ _ _ => exact execReady_keeps h
  | decline _ => exact execDecline_keeps h
  | go _ _ => exact execGo_keeps h
  | twlState _ _ => exact execTwlState_keeps h
  | leave _ => exact execLeave_keeps h
  | enter _ => exact execEnter_keeps h
  | joinreq => exact execJoinreq_keeps h
  | paliq => exact execPaliq_keeps h
  | palians _ _ => exact execPalians_keeps h
  | mirBegin _ _ _ => exact execMirBegin_keeps h
  | mirData _ => exact execMirData_keeps h
  | mirTimer _ => exact execMirTimer_keeps h
  | mirEnd _ _ _ => exact execMirEnd_keeps h
  | mirrorApply _ _ => exact execMirrorApply_keeps h
  | trackingReleaseSkip _ _ => exact execTrackingReleaseSkip_keeps h
  | mirrorReadDone _ _ => exact execMirrorReadDone_keeps h
  | snap _ => exact execSnap_keeps h
  | snapEnd _ _ _ => exact execSnapEnd_keeps h
  | trackPhaseEnd _ => exact execTrackPhaseEnd_keeps h
  | entryInstant _ => exact execEntryInstant_keeps h
  | stnsync _ _ _ w => exact execStnsync_keeps (v3 := w) h
  | twlReq _ _ _ _ _ => exact execTwlReq_keeps h
  | twlShaft _ _ _ => exact execTwlShaft_keeps h
  | switchoverInstant _ => exact execSwitchoverInstant_keeps h
  | twlClr _ => exact execTwlClr_keeps h
  | twlStatus _ _ => exact execTwlStatus_keeps h
  | twlJoin _ _ => exact execTwlJoin_keeps h
  | twlDetach _ _ => exact execTwlDetach_keeps h
  | twlSwitchover _ _ => exact execTwlSwitchover_keeps h
  | twlGoSolo _ _ => exact execTwlGoSolo_keeps h
  | twlEpochSet _ _ => exact execTwlEpochSet_keeps h
  | twlCounters _ _ => exact execTwlCounters_keeps h
  | rebuildEnd _ _ _ => exact execRebuildEnd_keeps h
  | spliceFlush _ => exact execSpliceFlush_keeps h
  | scrubPage _ => exact execScrubPage_keeps h
  | miuTestWrite _ => exact execMiuTestWrite_keeps h
  | miuClr _ => exact execMiuClr_keeps h
  | miuStatus _ _ => exact execMiuStatus_keeps h
  | miuScrub _ _ => exact execMiuScrub_keeps h
  | miuScrubAbort _ _ => exact execMiuScrubAbort_keeps h
  | miuRawRead _ _ => exact execMiuRawRead_keeps h
  | miuRawWrite _ _ => exact execMiuRawWrite_keeps h
  | energyBurst _ _ => exact execEnergyBurst_keeps h
  | twinCopyBurst _ _ => exact execTwinCopyBurst_keeps h
  | twinCopyRead _ => exact execTwinCopyRead_keeps h
  | marginRead _ _ => exact execMarginRead_keeps h
  | rsmClr _ => exact execRsmClr_keeps h
  | rsmStatus _ _ => exact execRsmStatus_keeps h
  | rsmFormat _ _ => exact execRsmFormat_keeps h
  | rsmRetainClear _ _ => exact execRsmRetainClear_keeps h
  | eventRecordWrite => exact execEventRecordWrite_keeps h
  | rateWindowStart _ _ => exact execRateWindowStart_keeps h
  | freezeTimeout _ => exact execFreezeTimeout_keeps h
  | evrCtrlFreeze _ => exact execEvrCtrlFreeze_keeps h
  | evrCtrlUnfreeze => exact execEvrCtrlUnfreeze_keeps h
  | evrClr _ => exact execEvrClr_keeps h
  | evrStatus _ _ => exact execEvrStatus_keeps h
  | evrRead _ _ => exact execEvrRead_keeps h
  | evrFreeze _ _ => exact execEvrFreeze_keeps h
  | evrUnfreeze _ _ => exact execEvrUnfreeze_keeps h
  | evrClear _ _ => exact execEvrClear_keeps h
  | qnpush _ _ => exact execQnpush_keeps h
  | qndataLoRead _ _ => exact execQndataLoRead_keeps h
  | dmacGoStart _ => exact execDmacGoStart_keeps h
  | dmacGoStop _ => exact execDmacGoStop_keeps h
  | dmaBurst _ => exact execDmaBurst_keeps h
  | rtcSecond _ => exact execRtcSecond_keeps h
  | trimWindow => exact execTrimWindow_keeps h
  | rtcShadowRead _ _ _ => exact execRtcShadowRead_keeps h
  | rtcFreezeTimeout _ _ => exact execRtcFreezeTimeout_keeps h
  | loRegisterRead _ _ => exact execLoRegisterRead_keeps h
  | rtcLostSet => exact execRtcLostSet_keeps h
  | aoSourceSwitch _ => exact execAoSourceSwitch_keeps h
  | batlowSet => exact execBatlowSet_keeps h
  | batlowClear => exact execBatlowClear_keeps h
  | wdtKeyWrite _ => exact execWdtKeyWrite_keeps h
  | wdtCheckinWrite _ => exact execWdtCheckinWrite_keeps h
  | wdtConfigWrite _ _ => exact execWdtConfigWrite_keeps h
  | wdtPeriodEnd _ => exact execWdtPeriodEnd_keeps h
  | rtcRead _ _ => exact execRtcRead_keeps h
  | rtcSet _ _ => exact execRtcSet_keeps h
  | rtcTrim _ _ => exact execRtcTrim_keeps h
  | wdtStatus _ _ => exact execWdtStatus_keeps h
  | wdtService _ _ => exact execWdtService_keeps h
  | wdtCheckin _ _ => exact execWdtCheckin_keeps h
  | updBegin _ _ => exact execUpdBegin_keeps h
  | eraseDone => exact execEraseDone_keeps h
  | updData _ _ => exact execUpdData_keeps h
  | updVerify _ _ => exact execUpdVerify_keeps h
  | verifyDone => exact execVerifyDone_keeps h
  | updActivate _ _ => exact execUpdActivate_keeps h
  | updConfirm _ _ => exact execUpdConfirm_keeps h
  | updRevert _ _ => exact execUpdRevert_keeps h
  | updStatus _ _ => exact execUpdStatus_keeps h
  | updAbort _ _ => exact execUpdAbort_keeps h
  | updStationActivate _ _ => exact execUpdStationActivate_keeps h
  | trialTimeout _ => exact execTrialTimeout_keeps h
  | selfConfirm _ => exact execSelfConfirm_keeps h
  | powerOnReset _ => exact execPowerOnReset_keeps h
  | pinReset _ _ => exact execPinReset_keeps h
  | clockFailure _ => exact execClockFailure_keeps h
  | x32Stopped => exact execX32Stopped_keeps h
  | deviceRestart _ => exact execDeviceRestart_keeps h
  | mainPowerLoss _ => exact execMainPowerLoss_keeps h
  | startUp _ => exact execStartUp_keeps h
  | powerFailWarning _ => exact execPowerFailWarning_keeps h
  | powerfailRestart _ => exact execPowerfailRestart_keeps h
  | vcanLow => exact execVcanLow_keeps h
  | vcanRestored => exact execVcanRestored_keeps h
  | storeRunningProgram => exact execStoreRunningProgram_keeps h
  | storeLoadedChamber => exact execStoreLoadedChamber_keeps h
  | storeConfiguration => exact execStoreConfiguration_keeps h
  | storeDone _ => exact execStoreDone_keeps h
  | ethLinkChange _ _ _ _ => exact execEthLinkChange_keeps h
  | arpRequest _ _ => exact execArpRequest_keeps h
  | icmpEcho _ _ _ => exact execIcmpEcho_keeps h
  | ptpMessage _ _ => exact execPtpMessage_keeps h
  | ethFrameDropped _ => exact execEthFrameDropped_keeps h
  | ethStatus _ _ => exact execEthStatus_keeps h
  | ethConfig _ _ => exact execEthConfig_keeps h
  | ptpConfig _ _ => exact execPtpConfig_keeps h
  | ptpStatus _ _ => exact execPtpStatus_keeps h
  | ethCounters _ _ => exact execEthCounters_keeps h
  | hpiClr _ => exact execHpiClr_keeps h
  | ethnClr _ _ => exact execEthnClr_keeps h
  | jtagDebugAccess _ _ => exact execJtagDebugAccess_keeps h
  | registerWrite _ _ => exact execRegisterWrite_keeps h
  | switchoverTimeout _ => exact execSwitchoverTimeout_keeps h
  | ethFrameDiscarded _ _ => exact execEthFrameDiscarded_keeps h
  | x32Resumed => exact execX32Resumed_keeps h
  | jtagTapReset => exact execJtagTapReset_keeps h
  | chargerCutOff _ => exact execChargerCutOff_keeps h

end Sys2Proof.Machine
end

