-- ==== Sys2Proof/Laws/State.lean ====
section
/-! SUPPORT. What each shared update leaves unchanged, field by field, and what it reads back: no later proof
unfolds a record update. -/

namespace Sys2Proof.Machine

variable (s : State)

/-! ### A register written -/

@[simp] theorem State.wr_pending (a : Nat) (v : Word) : (s.wr a v).pending = s.pending := rfl
@[simp] theorem State.wr_power (a : Nat) (v : Word) : (s.wr a v).power = s.power := rfl
@[simp] theorem State.wr_op (a : Nat) (v : Word) : (s.wr a v).op = s.op := rfl
@[simp] theorem State.wr_role (a : Nat) (v : Word) : (s.wr a v).role = s.role := rfl
@[simp] theorem State.wr_dtime (a : Nat) (v : Word) : (s.wr a v).dtime = s.dtime := rfl
@[simp] theorem State.wr_utick (a : Nat) (v : Word) : (s.wr a v).utick = s.utick := rfl
@[simp] theorem State.wr_uRem (a : Nat) (v : Word) : (s.wr a v).uRem = s.uRem := rfl
@[simp] theorem State.wr_live (a : Nat) (v : Word) : (s.wr a v).live = s.live := rfl
@[simp] theorem State.wr_commits (a : Nat) (v : Word) : (s.wr a v).commits = s.commits := rfl
@[simp] theorem State.wr_latches (a : Nat) (v : Word) : (s.wr a v).latches = s.latches := rfl
@[simp] theorem State.wr_fcause (a : Nat) (v : Word) : (s.wr a v).fcause = s.fcause := rfl
@[simp] theorem State.wr_restart (a : Nat) (v : Word) : (s.wr a v).restart = s.restart := rfl
@[simp] theorem State.wr_pm (a : Nat) (v : Word) : (s.wr a v).pm = s.pm := rfl
@[simp] theorem State.wr_dm (a : Nat) (v : Word) : (s.wr a v).dm = s.dm := rfl
@[simp] theorem State.wr_mram (a : Nat) (v : Word) : (s.wr a v).mram = s.mram := rfl
@[simp] theorem State.wr_inImg (a : Nat) (v : Word) : (s.wr a v).inImg = s.inImg := rfl
@[simp] theorem State.wr_outImg (a : Nat) (v : Word) : (s.wr a v).outImg = s.outImg := rfl
@[simp] theorem State.wr_se (a : Nat) (v : Word) : (s.wr a v).se = s.se := rfl
@[simp] theorem State.wr_hpi (a : Nat) (v : Word) : (s.wr a v).hpi = s.hpi := rfl
@[simp] theorem State.wr_queues (a : Nat) (v : Word) : (s.wr a v).queues = s.queues := rfl
@[simp] theorem State.wr_qWaits (a : Nat) (v : Word) : (s.wr a v).qWaits = s.qWaits := rfl
@[simp] theorem State.wr_dmas (a : Nat) (v : Word) : (s.wr a v).dmas = s.dmas := rfl
@[simp] theorem State.wr_evr (a : Nat) (v : Word) : (s.wr a v).evr = s.evr := rfl
@[simp] theorem State.wr_miu (a : Nat) (v : Word) : (s.wr a v).miu = s.miu := rfl
@[simp] theorem State.wr_rsm (a : Nat) (v : Word) : (s.wr a v).rsm = s.rsm := rfl
@[simp] theorem State.wr_twl (a : Nat) (v : Word) : (s.wr a v).twl = s.twl := rfl
@[simp] theorem State.wr_ixe (a : Nat) (v : Word) : (s.wr a v).ixe = s.ixe := rfl
@[simp] theorem State.wr_fbp (a : Nat) (v : Word) : (s.wr a v).fbp = s.fbp := rfl
@[simp] theorem State.wr_stn (a : Nat) (v : Word) : (s.wr a v).stn = s.stn := rfl
@[simp] theorem State.wr_fio (a : Nat) (v : Word) : (s.wr a v).fio = s.fio := rfl
@[simp] theorem State.wr_rtc (a : Nat) (v : Word) : (s.wr a v).rtc = s.rtc := rfl
@[simp] theorem State.wr_wdt (a : Nat) (v : Word) : (s.wr a v).wdt = s.wdt := rfl
@[simp] theorem State.wr_fwu (a : Nat) (v : Word) : (s.wr a v).fwu = s.fwu := rfl
@[simp] theorem State.wr_eth (a : Nat) (v : Word) : (s.wr a v).eth = s.eth := rfl
@[simp] theorem State.wr_pwr (a : Nat) (v : Word) : (s.wr a v).pwr = s.pwr := rfl
@[simp] theorem State.wr_jtag (a : Nat) (v : Word) : (s.wr a v).jtag = s.jtag := rfl
@[simp] theorem State.wr_freeN (a : Nat) (v : Word) : (s.wr a v).freeN = s.freeN := rfl

/-! ### `setFld` -/

@[simp] theorem State.setFld_pending (a hi lo v : Nat) : (s.setFld a hi lo v).pending = s.pending := rfl
@[simp] theorem State.setFld_power (a hi lo v : Nat) : (s.setFld a hi lo v).power = s.power := rfl
@[simp] theorem State.setFld_op (a hi lo v : Nat) : (s.setFld a hi lo v).op = s.op := rfl
@[simp] theorem State.setFld_role (a hi lo v : Nat) : (s.setFld a hi lo v).role = s.role := rfl
@[simp] theorem State.setFld_dtime (a hi lo v : Nat) : (s.setFld a hi lo v).dtime = s.dtime := rfl
@[simp] theorem State.setFld_utick (a hi lo v : Nat) : (s.setFld a hi lo v).utick = s.utick := rfl
@[simp] theorem State.setFld_uRem (a hi lo v : Nat) : (s.setFld a hi lo v).uRem = s.uRem := rfl
@[simp] theorem State.setFld_live (a hi lo v : Nat) : (s.setFld a hi lo v).live = s.live := rfl
@[simp] theorem State.setFld_commits (a hi lo v : Nat) : (s.setFld a hi lo v).commits = s.commits := rfl
@[simp] theorem State.setFld_latches (a hi lo v : Nat) : (s.setFld a hi lo v).latches = s.latches := rfl
@[simp] theorem State.setFld_fcause (a hi lo v : Nat) : (s.setFld a hi lo v).fcause = s.fcause := rfl
@[simp] theorem State.setFld_restart (a hi lo v : Nat) : (s.setFld a hi lo v).restart = s.restart := rfl
@[simp] theorem State.setFld_pm (a hi lo v : Nat) : (s.setFld a hi lo v).pm = s.pm := rfl
@[simp] theorem State.setFld_dm (a hi lo v : Nat) : (s.setFld a hi lo v).dm = s.dm := rfl
@[simp] theorem State.setFld_mram (a hi lo v : Nat) : (s.setFld a hi lo v).mram = s.mram := rfl
@[simp] theorem State.setFld_inImg (a hi lo v : Nat) : (s.setFld a hi lo v).inImg = s.inImg := rfl
@[simp] theorem State.setFld_outImg (a hi lo v : Nat) : (s.setFld a hi lo v).outImg = s.outImg := rfl
@[simp] theorem State.setFld_se (a hi lo v : Nat) : (s.setFld a hi lo v).se = s.se := rfl
@[simp] theorem State.setFld_hpi (a hi lo v : Nat) : (s.setFld a hi lo v).hpi = s.hpi := rfl
@[simp] theorem State.setFld_queues (a hi lo v : Nat) : (s.setFld a hi lo v).queues = s.queues := rfl
@[simp] theorem State.setFld_qWaits (a hi lo v : Nat) : (s.setFld a hi lo v).qWaits = s.qWaits := rfl
@[simp] theorem State.setFld_dmas (a hi lo v : Nat) : (s.setFld a hi lo v).dmas = s.dmas := rfl
@[simp] theorem State.setFld_evr (a hi lo v : Nat) : (s.setFld a hi lo v).evr = s.evr := rfl
@[simp] theorem State.setFld_miu (a hi lo v : Nat) : (s.setFld a hi lo v).miu = s.miu := rfl
@[simp] theorem State.setFld_rsm (a hi lo v : Nat) : (s.setFld a hi lo v).rsm = s.rsm := rfl
@[simp] theorem State.setFld_twl (a hi lo v : Nat) : (s.setFld a hi lo v).twl = s.twl := rfl
@[simp] theorem State.setFld_ixe (a hi lo v : Nat) : (s.setFld a hi lo v).ixe = s.ixe := rfl
@[simp] theorem State.setFld_fbp (a hi lo v : Nat) : (s.setFld a hi lo v).fbp = s.fbp := rfl
@[simp] theorem State.setFld_stn (a hi lo v : Nat) : (s.setFld a hi lo v).stn = s.stn := rfl
@[simp] theorem State.setFld_fio (a hi lo v : Nat) : (s.setFld a hi lo v).fio = s.fio := rfl
@[simp] theorem State.setFld_rtc (a hi lo v : Nat) : (s.setFld a hi lo v).rtc = s.rtc := rfl
@[simp] theorem State.setFld_wdt (a hi lo v : Nat) : (s.setFld a hi lo v).wdt = s.wdt := rfl
@[simp] theorem State.setFld_fwu (a hi lo v : Nat) : (s.setFld a hi lo v).fwu = s.fwu := rfl
@[simp] theorem State.setFld_eth (a hi lo v : Nat) : (s.setFld a hi lo v).eth = s.eth := rfl
@[simp] theorem State.setFld_pwr (a hi lo v : Nat) : (s.setFld a hi lo v).pwr = s.pwr := rfl
@[simp] theorem State.setFld_jtag (a hi lo v : Nat) : (s.setFld a hi lo v).jtag = s.jtag := rfl
@[simp] theorem State.setFld_freeN (a hi lo v : Nat) : (s.setFld a hi lo v).freeN = s.freeN := rfl

/-! ### `addCnt` -/

@[simp] theorem State.addCnt_pending (a n : Nat) : (s.addCnt a n).pending = s.pending := rfl
@[simp] theorem State.addCnt_power (a n : Nat) : (s.addCnt a n).power = s.power := rfl
@[simp] theorem State.addCnt_op (a n : Nat) : (s.addCnt a n).op = s.op := rfl
@[simp] theorem State.addCnt_role (a n : Nat) : (s.addCnt a n).role = s.role := rfl
@[simp] theorem State.addCnt_dtime (a n : Nat) : (s.addCnt a n).dtime = s.dtime := rfl
@[simp] theorem State.addCnt_utick (a n : Nat) : (s.addCnt a n).utick = s.utick := rfl
@[simp] theorem State.addCnt_uRem (a n : Nat) : (s.addCnt a n).uRem = s.uRem := rfl
@[simp] theorem State.addCnt_live (a n : Nat) : (s.addCnt a n).live = s.live := rfl
@[simp] theorem State.addCnt_commits (a n : Nat) : (s.addCnt a n).commits = s.commits := rfl
@[simp] theorem State.addCnt_latches (a n : Nat) : (s.addCnt a n).latches = s.latches := rfl
@[simp] theorem State.addCnt_fcause (a n : Nat) : (s.addCnt a n).fcause = s.fcause := rfl
@[simp] theorem State.addCnt_restart (a n : Nat) : (s.addCnt a n).restart = s.restart := rfl
@[simp] theorem State.addCnt_pm (a n : Nat) : (s.addCnt a n).pm = s.pm := rfl
@[simp] theorem State.addCnt_dm (a n : Nat) : (s.addCnt a n).dm = s.dm := rfl
@[simp] theorem State.addCnt_mram (a n : Nat) : (s.addCnt a n).mram = s.mram := rfl
@[simp] theorem State.addCnt_inImg (a n : Nat) : (s.addCnt a n).inImg = s.inImg := rfl
@[simp] theorem State.addCnt_outImg (a n : Nat) : (s.addCnt a n).outImg = s.outImg := rfl
@[simp] theorem State.addCnt_se (a n : Nat) : (s.addCnt a n).se = s.se := rfl
@[simp] theorem State.addCnt_hpi (a n : Nat) : (s.addCnt a n).hpi = s.hpi := rfl
@[simp] theorem State.addCnt_queues (a n : Nat) : (s.addCnt a n).queues = s.queues := rfl
@[simp] theorem State.addCnt_qWaits (a n : Nat) : (s.addCnt a n).qWaits = s.qWaits := rfl
@[simp] theorem State.addCnt_dmas (a n : Nat) : (s.addCnt a n).dmas = s.dmas := rfl
@[simp] theorem State.addCnt_evr (a n : Nat) : (s.addCnt a n).evr = s.evr := rfl
@[simp] theorem State.addCnt_miu (a n : Nat) : (s.addCnt a n).miu = s.miu := rfl
@[simp] theorem State.addCnt_rsm (a n : Nat) : (s.addCnt a n).rsm = s.rsm := rfl
@[simp] theorem State.addCnt_twl (a n : Nat) : (s.addCnt a n).twl = s.twl := rfl
@[simp] theorem State.addCnt_ixe (a n : Nat) : (s.addCnt a n).ixe = s.ixe := rfl
@[simp] theorem State.addCnt_fbp (a n : Nat) : (s.addCnt a n).fbp = s.fbp := rfl
@[simp] theorem State.addCnt_stn (a n : Nat) : (s.addCnt a n).stn = s.stn := rfl
@[simp] theorem State.addCnt_fio (a n : Nat) : (s.addCnt a n).fio = s.fio := rfl
@[simp] theorem State.addCnt_rtc (a n : Nat) : (s.addCnt a n).rtc = s.rtc := rfl
@[simp] theorem State.addCnt_wdt (a n : Nat) : (s.addCnt a n).wdt = s.wdt := rfl
@[simp] theorem State.addCnt_fwu (a n : Nat) : (s.addCnt a n).fwu = s.fwu := rfl
@[simp] theorem State.addCnt_eth (a n : Nat) : (s.addCnt a n).eth = s.eth := rfl
@[simp] theorem State.addCnt_pwr (a n : Nat) : (s.addCnt a n).pwr = s.pwr := rfl
@[simp] theorem State.addCnt_jtag (a n : Nat) : (s.addCnt a n).jtag = s.jtag := rfl
@[simp] theorem State.addCnt_freeN (a n : Nat) : (s.addCnt a n).freeN = s.freeN := rfl

/-! ### `inc` -/

@[simp] theorem State.inc_pending (a : Nat) : (s.inc a).pending = s.pending := rfl
@[simp] theorem State.inc_power (a : Nat) : (s.inc a).power = s.power := rfl
@[simp] theorem State.inc_op (a : Nat) : (s.inc a).op = s.op := rfl
@[simp] theorem State.inc_role (a : Nat) : (s.inc a).role = s.role := rfl
@[simp] theorem State.inc_dtime (a : Nat) : (s.inc a).dtime = s.dtime := rfl
@[simp] theorem State.inc_utick (a : Nat) : (s.inc a).utick = s.utick := rfl
@[simp] theorem State.inc_uRem (a : Nat) : (s.inc a).uRem = s.uRem := rfl
@[simp] theorem State.inc_live (a : Nat) : (s.inc a).live = s.live := rfl
@[simp] theorem State.inc_commits (a : Nat) : (s.inc a).commits = s.commits := rfl
@[simp] theorem State.inc_latches (a : Nat) : (s.inc a).latches = s.latches := rfl
@[simp] theorem State.inc_fcause (a : Nat) : (s.inc a).fcause = s.fcause := rfl
@[simp] theorem State.inc_restart (a : Nat) : (s.inc a).restart = s.restart := rfl
@[simp] theorem State.inc_pm (a : Nat) : (s.inc a).pm = s.pm := rfl
@[simp] theorem State.inc_dm (a : Nat) : (s.inc a).dm = s.dm := rfl
@[simp] theorem State.inc_mram (a : Nat) : (s.inc a).mram = s.mram := rfl
@[simp] theorem State.inc_inImg (a : Nat) : (s.inc a).inImg = s.inImg := rfl
@[simp] theorem State.inc_outImg (a : Nat) : (s.inc a).outImg = s.outImg := rfl
@[simp] theorem State.inc_se (a : Nat) : (s.inc a).se = s.se := rfl
@[simp] theorem State.inc_hpi (a : Nat) : (s.inc a).hpi = s.hpi := rfl
@[simp] theorem State.inc_queues (a : Nat) : (s.inc a).queues = s.queues := rfl
@[simp] theorem State.inc_qWaits (a : Nat) : (s.inc a).qWaits = s.qWaits := rfl
@[simp] theorem State.inc_dmas (a : Nat) : (s.inc a).dmas = s.dmas := rfl
@[simp] theorem State.inc_evr (a : Nat) : (s.inc a).evr = s.evr := rfl
@[simp] theorem State.inc_miu (a : Nat) : (s.inc a).miu = s.miu := rfl
@[simp] theorem State.inc_rsm (a : Nat) : (s.inc a).rsm = s.rsm := rfl
@[simp] theorem State.inc_twl (a : Nat) : (s.inc a).twl = s.twl := rfl
@[simp] theorem State.inc_ixe (a : Nat) : (s.inc a).ixe = s.ixe := rfl
@[simp] theorem State.inc_fbp (a : Nat) : (s.inc a).fbp = s.fbp := rfl
@[simp] theorem State.inc_stn (a : Nat) : (s.inc a).stn = s.stn := rfl
@[simp] theorem State.inc_fio (a : Nat) : (s.inc a).fio = s.fio := rfl
@[simp] theorem State.inc_rtc (a : Nat) : (s.inc a).rtc = s.rtc := rfl
@[simp] theorem State.inc_wdt (a : Nat) : (s.inc a).wdt = s.wdt := rfl
@[simp] theorem State.inc_fwu (a : Nat) : (s.inc a).fwu = s.fwu := rfl
@[simp] theorem State.inc_eth (a : Nat) : (s.inc a).eth = s.eth := rfl
@[simp] theorem State.inc_pwr (a : Nat) : (s.inc a).pwr = s.pwr := rfl
@[simp] theorem State.inc_jtag (a : Nat) : (s.inc a).jtag = s.jtag := rfl
@[simp] theorem State.inc_freeN (a : Nat) : (s.inc a).freeN = s.freeN := rfl

/-! ### `incFld` -/

@[simp] theorem State.incFld_pending (a hi lo : Nat) : (s.incFld a hi lo).pending = s.pending := rfl
@[simp] theorem State.incFld_power (a hi lo : Nat) : (s.incFld a hi lo).power = s.power := rfl
@[simp] theorem State.incFld_op (a hi lo : Nat) : (s.incFld a hi lo).op = s.op := rfl
@[simp] theorem State.incFld_role (a hi lo : Nat) : (s.incFld a hi lo).role = s.role := rfl
@[simp] theorem State.incFld_dtime (a hi lo : Nat) : (s.incFld a hi lo).dtime = s.dtime := rfl
@[simp] theorem State.incFld_utick (a hi lo : Nat) : (s.incFld a hi lo).utick = s.utick := rfl
@[simp] theorem State.incFld_uRem (a hi lo : Nat) : (s.incFld a hi lo).uRem = s.uRem := rfl
@[simp] theorem State.incFld_live (a hi lo : Nat) : (s.incFld a hi lo).live = s.live := rfl
@[simp] theorem State.incFld_commits (a hi lo : Nat) : (s.incFld a hi lo).commits = s.commits := rfl
@[simp] theorem State.incFld_latches (a hi lo : Nat) : (s.incFld a hi lo).latches = s.latches := rfl
@[simp] theorem State.incFld_fcause (a hi lo : Nat) : (s.incFld a hi lo).fcause = s.fcause := rfl
@[simp] theorem State.incFld_restart (a hi lo : Nat) : (s.incFld a hi lo).restart = s.restart := rfl
@[simp] theorem State.incFld_pm (a hi lo : Nat) : (s.incFld a hi lo).pm = s.pm := rfl
@[simp] theorem State.incFld_dm (a hi lo : Nat) : (s.incFld a hi lo).dm = s.dm := rfl
@[simp] theorem State.incFld_mram (a hi lo : Nat) : (s.incFld a hi lo).mram = s.mram := rfl
@[simp] theorem State.incFld_inImg (a hi lo : Nat) : (s.incFld a hi lo).inImg = s.inImg := rfl
@[simp] theorem State.incFld_outImg (a hi lo : Nat) : (s.incFld a hi lo).outImg = s.outImg := rfl
@[simp] theorem State.incFld_se (a hi lo : Nat) : (s.incFld a hi lo).se = s.se := rfl
@[simp] theorem State.incFld_hpi (a hi lo : Nat) : (s.incFld a hi lo).hpi = s.hpi := rfl
@[simp] theorem State.incFld_queues (a hi lo : Nat) : (s.incFld a hi lo).queues = s.queues := rfl
@[simp] theorem State.incFld_qWaits (a hi lo : Nat) : (s.incFld a hi lo).qWaits = s.qWaits := rfl
@[simp] theorem State.incFld_dmas (a hi lo : Nat) : (s.incFld a hi lo).dmas = s.dmas := rfl
@[simp] theorem State.incFld_evr (a hi lo : Nat) : (s.incFld a hi lo).evr = s.evr := rfl
@[simp] theorem State.incFld_miu (a hi lo : Nat) : (s.incFld a hi lo).miu = s.miu := rfl
@[simp] theorem State.incFld_rsm (a hi lo : Nat) : (s.incFld a hi lo).rsm = s.rsm := rfl
@[simp] theorem State.incFld_twl (a hi lo : Nat) : (s.incFld a hi lo).twl = s.twl := rfl
@[simp] theorem State.incFld_ixe (a hi lo : Nat) : (s.incFld a hi lo).ixe = s.ixe := rfl
@[simp] theorem State.incFld_fbp (a hi lo : Nat) : (s.incFld a hi lo).fbp = s.fbp := rfl
@[simp] theorem State.incFld_stn (a hi lo : Nat) : (s.incFld a hi lo).stn = s.stn := rfl
@[simp] theorem State.incFld_fio (a hi lo : Nat) : (s.incFld a hi lo).fio = s.fio := rfl
@[simp] theorem State.incFld_rtc (a hi lo : Nat) : (s.incFld a hi lo).rtc = s.rtc := rfl
@[simp] theorem State.incFld_wdt (a hi lo : Nat) : (s.incFld a hi lo).wdt = s.wdt := rfl
@[simp] theorem State.incFld_fwu (a hi lo : Nat) : (s.incFld a hi lo).fwu = s.fwu := rfl
@[simp] theorem State.incFld_eth (a hi lo : Nat) : (s.incFld a hi lo).eth = s.eth := rfl
@[simp] theorem State.incFld_pwr (a hi lo : Nat) : (s.incFld a hi lo).pwr = s.pwr := rfl
@[simp] theorem State.incFld_jtag (a hi lo : Nat) : (s.incFld a hi lo).jtag = s.jtag := rfl
@[simp] theorem State.incFld_freeN (a hi lo : Nat) : (s.incFld a hi lo).freeN = s.freeN := rfl

/-! ### `setBit` -/

@[simp] theorem State.setBit_pending (a i : Nat) (b : Bool) : (s.setBit a i b).pending = s.pending := rfl
@[simp] theorem State.setBit_power (a i : Nat) (b : Bool) : (s.setBit a i b).power = s.power := rfl
@[simp] theorem State.setBit_op (a i : Nat) (b : Bool) : (s.setBit a i b).op = s.op := rfl
@[simp] theorem State.setBit_role (a i : Nat) (b : Bool) : (s.setBit a i b).role = s.role := rfl
@[simp] theorem State.setBit_dtime (a i : Nat) (b : Bool) : (s.setBit a i b).dtime = s.dtime := rfl
@[simp] theorem State.setBit_utick (a i : Nat) (b : Bool) : (s.setBit a i b).utick = s.utick := rfl
@[simp] theorem State.setBit_uRem (a i : Nat) (b : Bool) : (s.setBit a i b).uRem = s.uRem := rfl
@[simp] theorem State.setBit_live (a i : Nat) (b : Bool) : (s.setBit a i b).live = s.live := rfl
@[simp] theorem State.setBit_commits (a i : Nat) (b : Bool) : (s.setBit a i b).commits = s.commits := rfl
@[simp] theorem State.setBit_latches (a i : Nat) (b : Bool) : (s.setBit a i b).latches = s.latches := rfl
@[simp] theorem State.setBit_fcause (a i : Nat) (b : Bool) : (s.setBit a i b).fcause = s.fcause := rfl
@[simp] theorem State.setBit_restart (a i : Nat) (b : Bool) : (s.setBit a i b).restart = s.restart := rfl
@[simp] theorem State.setBit_pm (a i : Nat) (b : Bool) : (s.setBit a i b).pm = s.pm := rfl
@[simp] theorem State.setBit_dm (a i : Nat) (b : Bool) : (s.setBit a i b).dm = s.dm := rfl
@[simp] theorem State.setBit_mram (a i : Nat) (b : Bool) : (s.setBit a i b).mram = s.mram := rfl
@[simp] theorem State.setBit_inImg (a i : Nat) (b : Bool) : (s.setBit a i b).inImg = s.inImg := rfl
@[simp] theorem State.setBit_outImg (a i : Nat) (b : Bool) : (s.setBit a i b).outImg = s.outImg := rfl
@[simp] theorem State.setBit_se (a i : Nat) (b : Bool) : (s.setBit a i b).se = s.se := rfl
@[simp] theorem State.setBit_hpi (a i : Nat) (b : Bool) : (s.setBit a i b).hpi = s.hpi := rfl
@[simp] theorem State.setBit_queues (a i : Nat) (b : Bool) : (s.setBit a i b).queues = s.queues := rfl
@[simp] theorem State.setBit_qWaits (a i : Nat) (b : Bool) : (s.setBit a i b).qWaits = s.qWaits := rfl
@[simp] theorem State.setBit_dmas (a i : Nat) (b : Bool) : (s.setBit a i b).dmas = s.dmas := rfl
@[simp] theorem State.setBit_evr (a i : Nat) (b : Bool) : (s.setBit a i b).evr = s.evr := rfl
@[simp] theorem State.setBit_miu (a i : Nat) (b : Bool) : (s.setBit a i b).miu = s.miu := rfl
@[simp] theorem State.setBit_rsm (a i : Nat) (b : Bool) : (s.setBit a i b).rsm = s.rsm := rfl
@[simp] theorem State.setBit_twl (a i : Nat) (b : Bool) : (s.setBit a i b).twl = s.twl := rfl
@[simp] theorem State.setBit_ixe (a i : Nat) (b : Bool) : (s.setBit a i b).ixe = s.ixe := rfl
@[simp] theorem State.setBit_fbp (a i : Nat) (b : Bool) : (s.setBit a i b).fbp = s.fbp := rfl
@[simp] theorem State.setBit_stn (a i : Nat) (b : Bool) : (s.setBit a i b).stn = s.stn := rfl
@[simp] theorem State.setBit_fio (a i : Nat) (b : Bool) : (s.setBit a i b).fio = s.fio := rfl
@[simp] theorem State.setBit_rtc (a i : Nat) (b : Bool) : (s.setBit a i b).rtc = s.rtc := rfl
@[simp] theorem State.setBit_wdt (a i : Nat) (b : Bool) : (s.setBit a i b).wdt = s.wdt := rfl
@[simp] theorem State.setBit_fwu (a i : Nat) (b : Bool) : (s.setBit a i b).fwu = s.fwu := rfl
@[simp] theorem State.setBit_eth (a i : Nat) (b : Bool) : (s.setBit a i b).eth = s.eth := rfl
@[simp] theorem State.setBit_pwr (a i : Nat) (b : Bool) : (s.setBit a i b).pwr = s.pwr := rfl
@[simp] theorem State.setBit_jtag (a i : Nat) (b : Bool) : (s.setBit a i b).jtag = s.jtag := rfl
@[simp] theorem State.setBit_freeN (a i : Nat) (b : Bool) : (s.setBit a i b).freeN = s.freeN := rfl

/-! ### A latch -/

@[simp] theorem State.setLatch_pending (r : Reader) (a : Nat) (v : Word) : (s.setLatch r a v).pending = s.pending := rfl
@[simp] theorem State.setLatch_power (r : Reader) (a : Nat) (v : Word) : (s.setLatch r a v).power = s.power := rfl
@[simp] theorem State.setLatch_op (r : Reader) (a : Nat) (v : Word) : (s.setLatch r a v).op = s.op := rfl
@[simp] theorem State.setLatch_role (r : Reader) (a : Nat) (v : Word) : (s.setLatch r a v).role = s.role := rfl
@[simp] theorem State.setLatch_dtime (r : Reader) (a : Nat) (v : Word) : (s.setLatch r a v).dtime = s.dtime := rfl
@[simp] theorem State.setLatch_utick (r : Reader) (a : Nat) (v : Word) : (s.setLatch r a v).utick = s.utick := rfl
@[simp] theorem State.setLatch_uRem (r : Reader) (a : Nat) (v : Word) : (s.setLatch r a v).uRem = s.uRem := rfl
@[simp] theorem State.setLatch_regs (r : Reader) (a : Nat) (v : Word) : (s.setLatch r a v).regs = s.regs := rfl
@[simp] theorem State.setLatch_live (r : Reader) (a : Nat) (v : Word) : (s.setLatch r a v).live = s.live := rfl
@[simp] theorem State.setLatch_commits (r : Reader) (a : Nat) (v : Word) : (s.setLatch r a v).commits = s.commits := rfl
@[simp] theorem State.setLatch_fcause (r : Reader) (a : Nat) (v : Word) : (s.setLatch r a v).fcause = s.fcause := rfl
@[simp] theorem State.setLatch_restart (r : Reader) (a : Nat) (v : Word) : (s.setLatch r a v).restart = s.restart := rfl
@[simp] theorem State.setLatch_pm (r : Reader) (a : Nat) (v : Word) : (s.setLatch r a v).pm = s.pm := rfl
@[simp] theorem State.setLatch_dm (r : Reader) (a : Nat) (v : Word) : (s.setLatch r a v).dm = s.dm := rfl
@[simp] theorem State.setLatch_mram (r : Reader) (a : Nat) (v : Word) : (s.setLatch r a v).mram = s.mram := rfl
@[simp] theorem State.setLatch_inImg (r : Reader) (a : Nat) (v : Word) : (s.setLatch r a v).inImg = s.inImg := rfl
@[simp] theorem State.setLatch_outImg (r : Reader) (a : Nat) (v : Word) : (s.setLatch r a v).outImg = s.outImg := rfl
@[simp] theorem State.setLatch_se (r : Reader) (a : Nat) (v : Word) : (s.setLatch r a v).se = s.se := rfl
@[simp] theorem State.setLatch_hpi (r : Reader) (a : Nat) (v : Word) : (s.setLatch r a v).hpi = s.hpi := rfl
@[simp] theorem State.setLatch_queues (r : Reader) (a : Nat) (v : Word) : (s.setLatch r a v).queues = s.queues := rfl
@[simp] theorem State.setLatch_qWaits (r : Reader) (a : Nat) (v : Word) : (s.setLatch r a v).qWaits = s.qWaits := rfl
@[simp] theorem State.setLatch_dmas (r : Reader) (a : Nat) (v : Word) : (s.setLatch r a v).dmas = s.dmas := rfl
@[simp] theorem State.setLatch_evr (r : Reader) (a : Nat) (v : Word) : (s.setLatch r a v).evr = s.evr := rfl
@[simp] theorem State.setLatch_miu (r : Reader) (a : Nat) (v : Word) : (s.setLatch r a v).miu = s.miu := rfl
@[simp] theorem State.setLatch_rsm (r : Reader) (a : Nat) (v : Word) : (s.setLatch r a v).rsm = s.rsm := rfl
@[simp] theorem State.setLatch_twl (r : Reader) (a : Nat) (v : Word) : (s.setLatch r a v).twl = s.twl := rfl
@[simp] theorem State.setLatch_ixe (r : Reader) (a : Nat) (v : Word) : (s.setLatch r a v).ixe = s.ixe := rfl
@[simp] theorem State.setLatch_fbp (r : Reader) (a : Nat) (v : Word) : (s.setLatch r a v).fbp = s.fbp := rfl
@[simp] theorem State.setLatch_stn (r : Reader) (a : Nat) (v : Word) : (s.setLatch r a v).stn = s.stn := rfl
@[simp] theorem State.setLatch_fio (r : Reader) (a : Nat) (v : Word) : (s.setLatch r a v).fio = s.fio := rfl
@[simp] theorem State.setLatch_rtc (r : Reader) (a : Nat) (v : Word) : (s.setLatch r a v).rtc = s.rtc := rfl
@[simp] theorem State.setLatch_wdt (r : Reader) (a : Nat) (v : Word) : (s.setLatch r a v).wdt = s.wdt := rfl
@[simp] theorem State.setLatch_fwu (r : Reader) (a : Nat) (v : Word) : (s.setLatch r a v).fwu = s.fwu := rfl
@[simp] theorem State.setLatch_eth (r : Reader) (a : Nat) (v : Word) : (s.setLatch r a v).eth = s.eth := rfl
@[simp] theorem State.setLatch_pwr (r : Reader) (a : Nat) (v : Word) : (s.setLatch r a v).pwr = s.pwr := rfl
@[simp] theorem State.setLatch_jtag (r : Reader) (a : Nat) (v : Word) : (s.setLatch r a v).jtag = s.jtag := rfl
@[simp] theorem State.setLatch_freeN (r : Reader) (a : Nat) (v : Word) : (s.setLatch r a v).freeN = s.freeN := rfl

/-! ### A context -/

@[simp] theorem State.setCtx_pending (n : Nat) (c : Ctx) : (s.setCtx n c).pending = s.pending := rfl
@[simp] theorem State.setCtx_power (n : Nat) (c : Ctx) : (s.setCtx n c).power = s.power := rfl
@[simp] theorem State.setCtx_op (n : Nat) (c : Ctx) : (s.setCtx n c).op = s.op := rfl
@[simp] theorem State.setCtx_role (n : Nat) (c : Ctx) : (s.setCtx n c).role = s.role := rfl
@[simp] theorem State.setCtx_dtime (n : Nat) (c : Ctx) : (s.setCtx n c).dtime = s.dtime := rfl
@[simp] theorem State.setCtx_utick (n : Nat) (c : Ctx) : (s.setCtx n c).utick = s.utick := rfl
@[simp] theorem State.setCtx_uRem (n : Nat) (c : Ctx) : (s.setCtx n c).uRem = s.uRem := rfl
@[simp] theorem State.setCtx_regs (n : Nat) (c : Ctx) : (s.setCtx n c).regs = s.regs := rfl
@[simp] theorem State.setCtx_live (n : Nat) (c : Ctx) : (s.setCtx n c).live = s.live := rfl
@[simp] theorem State.setCtx_commits (n : Nat) (c : Ctx) : (s.setCtx n c).commits = s.commits := rfl
@[simp] theorem State.setCtx_latches (n : Nat) (c : Ctx) : (s.setCtx n c).latches = s.latches := rfl
@[simp] theorem State.setCtx_fcause (n : Nat) (c : Ctx) : (s.setCtx n c).fcause = s.fcause := rfl
@[simp] theorem State.setCtx_restart (n : Nat) (c : Ctx) : (s.setCtx n c).restart = s.restart := rfl
@[simp] theorem State.setCtx_pm (n : Nat) (c : Ctx) : (s.setCtx n c).pm = s.pm := rfl
@[simp] theorem State.setCtx_dm (n : Nat) (c : Ctx) : (s.setCtx n c).dm = s.dm := rfl
@[simp] theorem State.setCtx_mram (n : Nat) (c : Ctx) : (s.setCtx n c).mram = s.mram := rfl
@[simp] theorem State.setCtx_inImg (n : Nat) (c : Ctx) : (s.setCtx n c).inImg = s.inImg := rfl
@[simp] theorem State.setCtx_outImg (n : Nat) (c : Ctx) : (s.setCtx n c).outImg = s.outImg := rfl
@[simp] theorem State.setCtx_hpi (n : Nat) (c : Ctx) : (s.setCtx n c).hpi = s.hpi := rfl
@[simp] theorem State.setCtx_queues (n : Nat) (c : Ctx) : (s.setCtx n c).queues = s.queues := rfl
@[simp] theorem State.setCtx_qWaits (n : Nat) (c : Ctx) : (s.setCtx n c).qWaits = s.qWaits := rfl
@[simp] theorem State.setCtx_dmas (n : Nat) (c : Ctx) : (s.setCtx n c).dmas = s.dmas := rfl
@[simp] theorem State.setCtx_evr (n : Nat) (c : Ctx) : (s.setCtx n c).evr = s.evr := rfl
@[simp] theorem State.setCtx_miu (n : Nat) (c : Ctx) : (s.setCtx n c).miu = s.miu := rfl
@[simp] theorem State.setCtx_rsm (n : Nat) (c : Ctx) : (s.setCtx n c).rsm = s.rsm := rfl
@[simp] theorem State.setCtx_twl (n : Nat) (c : Ctx) : (s.setCtx n c).twl = s.twl := rfl
@[simp] theorem State.setCtx_ixe (n : Nat) (c : Ctx) : (s.setCtx n c).ixe = s.ixe := rfl
@[simp] theorem State.setCtx_fbp (n : Nat) (c : Ctx) : (s.setCtx n c).fbp = s.fbp := rfl
@[simp] theorem State.setCtx_stn (n : Nat) (c : Ctx) : (s.setCtx n c).stn = s.stn := rfl
@[simp] theorem State.setCtx_fio (n : Nat) (c : Ctx) : (s.setCtx n c).fio = s.fio := rfl
@[simp] theorem State.setCtx_rtc (n : Nat) (c : Ctx) : (s.setCtx n c).rtc = s.rtc := rfl
@[simp] theorem State.setCtx_wdt (n : Nat) (c : Ctx) : (s.setCtx n c).wdt = s.wdt := rfl
@[simp] theorem State.setCtx_fwu (n : Nat) (c : Ctx) : (s.setCtx n c).fwu = s.fwu := rfl
@[simp] theorem State.setCtx_eth (n : Nat) (c : Ctx) : (s.setCtx n c).eth = s.eth := rfl
@[simp] theorem State.setCtx_pwr (n : Nat) (c : Ctx) : (s.setCtx n c).pwr = s.pwr := rfl
@[simp] theorem State.setCtx_jtag (n : Nat) (c : Ctx) : (s.setCtx n c).jtag = s.jtag := rfl
@[simp] theorem State.setCtx_freeN (n : Nat) (c : Ctx) : (s.setCtx n c).freeN = s.freeN := rfl

/-! ### A context changed -/

@[simp] theorem State.onCtx_pending (n : Nat) (f : Ctx → Ctx) : (s.onCtx n f).pending = s.pending := rfl
@[simp] theorem State.onCtx_power (n : Nat) (f : Ctx → Ctx) : (s.onCtx n f).power = s.power := rfl
@[simp] theorem State.onCtx_op (n : Nat) (f : Ctx → Ctx) : (s.onCtx n f).op = s.op := rfl
@[simp] theorem State.onCtx_role (n : Nat) (f : Ctx → Ctx) : (s.onCtx n f).role = s.role := rfl
@[simp] theorem State.onCtx_dtime (n : Nat) (f : Ctx → Ctx) : (s.onCtx n f).dtime = s.dtime := rfl
@[simp] theorem State.onCtx_utick (n : Nat) (f : Ctx → Ctx) : (s.onCtx n f).utick = s.utick := rfl
@[simp] theorem State.onCtx_uRem (n : Nat) (f : Ctx → Ctx) : (s.onCtx n f).uRem = s.uRem := rfl
@[simp] theorem State.onCtx_regs (n : Nat) (f : Ctx → Ctx) : (s.onCtx n f).regs = s.regs := rfl
@[simp] theorem State.onCtx_live (n : Nat) (f : Ctx → Ctx) : (s.onCtx n f).live = s.live := rfl
@[simp] theorem State.onCtx_commits (n : Nat) (f : Ctx → Ctx) : (s.onCtx n f).commits = s.commits := rfl
@[simp] theorem State.onCtx_latches (n : Nat) (f : Ctx → Ctx) : (s.onCtx n f).latches = s.latches := rfl
@[simp] theorem State.onCtx_fcause (n : Nat) (f : Ctx → Ctx) : (s.onCtx n f).fcause = s.fcause := rfl
@[simp] theorem State.onCtx_restart (n : Nat) (f : Ctx → Ctx) : (s.onCtx n f).restart = s.restart := rfl
@[simp] theorem State.onCtx_pm (n : Nat) (f : Ctx → Ctx) : (s.onCtx n f).pm = s.pm := rfl
@[simp] theorem State.onCtx_dm (n : Nat) (f : Ctx → Ctx) : (s.onCtx n f).dm = s.dm := rfl
@[simp] theorem State.onCtx_mram (n : Nat) (f : Ctx → Ctx) : (s.onCtx n f).mram = s.mram := rfl
@[simp] theorem State.onCtx_inImg (n : Nat) (f : Ctx → Ctx) : (s.onCtx n f).inImg = s.inImg := rfl
@[simp] theorem State.onCtx_outImg (n : Nat) (f : Ctx → Ctx) : (s.onCtx n f).outImg = s.outImg := rfl
@[simp] theorem State.onCtx_hpi (n : Nat) (f : Ctx → Ctx) : (s.onCtx n f).hpi = s.hpi := rfl
@[simp] theorem State.onCtx_queues (n : Nat) (f : Ctx → Ctx) : (s.onCtx n f).queues = s.queues := rfl
@[simp] theorem State.onCtx_qWaits (n : Nat) (f : Ctx → Ctx) : (s.onCtx n f).qWaits = s.qWaits := rfl
@[simp] theorem State.onCtx_dmas (n : Nat) (f : Ctx → Ctx) : (s.onCtx n f).dmas = s.dmas := rfl
@[simp] theorem State.onCtx_evr (n : Nat) (f : Ctx → Ctx) : (s.onCtx n f).evr = s.evr := rfl
@[simp] theorem State.onCtx_miu (n : Nat) (f : Ctx → Ctx) : (s.onCtx n f).miu = s.miu := rfl
@[simp] theorem State.onCtx_rsm (n : Nat) (f : Ctx → Ctx) : (s.onCtx n f).rsm = s.rsm := rfl
@[simp] theorem State.onCtx_twl (n : Nat) (f : Ctx → Ctx) : (s.onCtx n f).twl = s.twl := rfl
@[simp] theorem State.onCtx_ixe (n : Nat) (f : Ctx → Ctx) : (s.onCtx n f).ixe = s.ixe := rfl
@[simp] theorem State.onCtx_fbp (n : Nat) (f : Ctx → Ctx) : (s.onCtx n f).fbp = s.fbp := rfl
@[simp] theorem State.onCtx_stn (n : Nat) (f : Ctx → Ctx) : (s.onCtx n f).stn = s.stn := rfl
@[simp] theorem State.onCtx_fio (n : Nat) (f : Ctx → Ctx) : (s.onCtx n f).fio = s.fio := rfl
@[simp] theorem State.onCtx_rtc (n : Nat) (f : Ctx → Ctx) : (s.onCtx n f).rtc = s.rtc := rfl
@[simp] theorem State.onCtx_wdt (n : Nat) (f : Ctx → Ctx) : (s.onCtx n f).wdt = s.wdt := rfl
@[simp] theorem State.onCtx_fwu (n : Nat) (f : Ctx → Ctx) : (s.onCtx n f).fwu = s.fwu := rfl
@[simp] theorem State.onCtx_eth (n : Nat) (f : Ctx → Ctx) : (s.onCtx n f).eth = s.eth := rfl
@[simp] theorem State.onCtx_pwr (n : Nat) (f : Ctx → Ctx) : (s.onCtx n f).pwr = s.pwr := rfl
@[simp] theorem State.onCtx_jtag (n : Nat) (f : Ctx → Ctx) : (s.onCtx n f).jtag = s.jtag := rfl
@[simp] theorem State.onCtx_freeN (n : Nat) (f : Ctx → Ctx) : (s.onCtx n f).freeN = s.freeN := rfl

/-! ### A queue -/

@[simp] theorem State.setQueue_pending (n : Nat) (q : Queue) : (s.setQueue n q).pending = s.pending := rfl
@[simp] theorem State.setQueue_power (n : Nat) (q : Queue) : (s.setQueue n q).power = s.power := rfl
@[simp] theorem State.setQueue_op (n : Nat) (q : Queue) : (s.setQueue n q).op = s.op := rfl
@[simp] theorem State.setQueue_role (n : Nat) (q : Queue) : (s.setQueue n q).role = s.role := rfl
@[simp] theorem State.setQueue_dtime (n : Nat) (q : Queue) : (s.setQueue n q).dtime = s.dtime := rfl
@[simp] theorem State.setQueue_utick (n : Nat) (q : Queue) : (s.setQueue n q).utick = s.utick := rfl
@[simp] theorem State.setQueue_uRem (n : Nat) (q : Queue) : (s.setQueue n q).uRem = s.uRem := rfl
@[simp] theorem State.setQueue_regs (n : Nat) (q : Queue) : (s.setQueue n q).regs = s.regs := rfl
@[simp] theorem State.setQueue_live (n : Nat) (q : Queue) : (s.setQueue n q).live = s.live := rfl
@[simp] theorem State.setQueue_commits (n : Nat) (q : Queue) : (s.setQueue n q).commits = s.commits := rfl
@[simp] theorem State.setQueue_latches (n : Nat) (q : Queue) : (s.setQueue n q).latches = s.latches := rfl
@[simp] theorem State.setQueue_fcause (n : Nat) (q : Queue) : (s.setQueue n q).fcause = s.fcause := rfl
@[simp] theorem State.setQueue_restart (n : Nat) (q : Queue) : (s.setQueue n q).restart = s.restart := rfl
@[simp] theorem State.setQueue_pm (n : Nat) (q : Queue) : (s.setQueue n q).pm = s.pm := rfl
@[simp] theorem State.setQueue_dm (n : Nat) (q : Queue) : (s.setQueue n q).dm = s.dm := rfl
@[simp] theorem State.setQueue_mram (n : Nat) (q : Queue) : (s.setQueue n q).mram = s.mram := rfl
@[simp] theorem State.setQueue_inImg (n : Nat) (q : Queue) : (s.setQueue n q).inImg = s.inImg := rfl
@[simp] theorem State.setQueue_outImg (n : Nat) (q : Queue) : (s.setQueue n q).outImg = s.outImg := rfl
@[simp] theorem State.setQueue_se (n : Nat) (q : Queue) : (s.setQueue n q).se = s.se := rfl
@[simp] theorem State.setQueue_hpi (n : Nat) (q : Queue) : (s.setQueue n q).hpi = s.hpi := rfl
@[simp] theorem State.setQueue_qWaits (n : Nat) (q : Queue) : (s.setQueue n q).qWaits = s.qWaits := rfl
@[simp] theorem State.setQueue_dmas (n : Nat) (q : Queue) : (s.setQueue n q).dmas = s.dmas := rfl
@[simp] theorem State.setQueue_evr (n : Nat) (q : Queue) : (s.setQueue n q).evr = s.evr := rfl
@[simp] theorem State.setQueue_miu (n : Nat) (q : Queue) : (s.setQueue n q).miu = s.miu := rfl
@[simp] theorem State.setQueue_rsm (n : Nat) (q : Queue) : (s.setQueue n q).rsm = s.rsm := rfl
@[simp] theorem State.setQueue_twl (n : Nat) (q : Queue) : (s.setQueue n q).twl = s.twl := rfl
@[simp] theorem State.setQueue_ixe (n : Nat) (q : Queue) : (s.setQueue n q).ixe = s.ixe := rfl
@[simp] theorem State.setQueue_fbp (n : Nat) (q : Queue) : (s.setQueue n q).fbp = s.fbp := rfl
@[simp] theorem State.setQueue_stn (n : Nat) (q : Queue) : (s.setQueue n q).stn = s.stn := rfl
@[simp] theorem State.setQueue_fio (n : Nat) (q : Queue) : (s.setQueue n q).fio = s.fio := rfl
@[simp] theorem State.setQueue_rtc (n : Nat) (q : Queue) : (s.setQueue n q).rtc = s.rtc := rfl
@[simp] theorem State.setQueue_wdt (n : Nat) (q : Queue) : (s.setQueue n q).wdt = s.wdt := rfl
@[simp] theorem State.setQueue_fwu (n : Nat) (q : Queue) : (s.setQueue n q).fwu = s.fwu := rfl
@[simp] theorem State.setQueue_eth (n : Nat) (q : Queue) : (s.setQueue n q).eth = s.eth := rfl
@[simp] theorem State.setQueue_pwr (n : Nat) (q : Queue) : (s.setQueue n q).pwr = s.pwr := rfl
@[simp] theorem State.setQueue_jtag (n : Nat) (q : Queue) : (s.setQueue n q).jtag = s.jtag := rfl
@[simp] theorem State.setQueue_freeN (n : Nat) (q : Queue) : (s.setQueue n q).freeN = s.freeN := rfl

/-! ### A trigger raised -/

@[simp] theorem State.raise_pending (t : Trigger) : (s.raise t).pending = s.pending := rfl
@[simp] theorem State.raise_power (t : Trigger) : (s.raise t).power = s.power := rfl
@[simp] theorem State.raise_op (t : Trigger) : (s.raise t).op = s.op := rfl
@[simp] theorem State.raise_role (t : Trigger) : (s.raise t).role = s.role := rfl
@[simp] theorem State.raise_dtime (t : Trigger) : (s.raise t).dtime = s.dtime := rfl
@[simp] theorem State.raise_utick (t : Trigger) : (s.raise t).utick = s.utick := rfl
@[simp] theorem State.raise_uRem (t : Trigger) : (s.raise t).uRem = s.uRem := rfl
@[simp] theorem State.raise_regs (t : Trigger) : (s.raise t).regs = s.regs := rfl
@[simp] theorem State.raise_live (t : Trigger) : (s.raise t).live = s.live := rfl
@[simp] theorem State.raise_commits (t : Trigger) : (s.raise t).commits = s.commits := rfl
@[simp] theorem State.raise_latches (t : Trigger) : (s.raise t).latches = s.latches := rfl
@[simp] theorem State.raise_fcause (t : Trigger) : (s.raise t).fcause = s.fcause := rfl
@[simp] theorem State.raise_restart (t : Trigger) : (s.raise t).restart = s.restart := rfl
@[simp] theorem State.raise_pm (t : Trigger) : (s.raise t).pm = s.pm := rfl
@[simp] theorem State.raise_dm (t : Trigger) : (s.raise t).dm = s.dm := rfl
@[simp] theorem State.raise_mram (t : Trigger) : (s.raise t).mram = s.mram := rfl
@[simp] theorem State.raise_inImg (t : Trigger) : (s.raise t).inImg = s.inImg := rfl
@[simp] theorem State.raise_outImg (t : Trigger) : (s.raise t).outImg = s.outImg := rfl
@[simp] theorem State.raise_hpi (t : Trigger) : (s.raise t).hpi = s.hpi := rfl
@[simp] theorem State.raise_queues (t : Trigger) : (s.raise t).queues = s.queues := rfl
@[simp] theorem State.raise_qWaits (t : Trigger) : (s.raise t).qWaits = s.qWaits := rfl
@[simp] theorem State.raise_dmas (t : Trigger) : (s.raise t).dmas = s.dmas := rfl
@[simp] theorem State.raise_evr (t : Trigger) : (s.raise t).evr = s.evr := rfl
@[simp] theorem State.raise_miu (t : Trigger) : (s.raise t).miu = s.miu := rfl
@[simp] theorem State.raise_rsm (t : Trigger) : (s.raise t).rsm = s.rsm := rfl
@[simp] theorem State.raise_twl (t : Trigger) : (s.raise t).twl = s.twl := rfl
@[simp] theorem State.raise_ixe (t : Trigger) : (s.raise t).ixe = s.ixe := rfl
@[simp] theorem State.raise_fbp (t : Trigger) : (s.raise t).fbp = s.fbp := rfl
@[simp] theorem State.raise_stn (t : Trigger) : (s.raise t).stn = s.stn := rfl
@[simp] theorem State.raise_fio (t : Trigger) : (s.raise t).fio = s.fio := rfl
@[simp] theorem State.raise_rtc (t : Trigger) : (s.raise t).rtc = s.rtc := rfl
@[simp] theorem State.raise_wdt (t : Trigger) : (s.raise t).wdt = s.wdt := rfl
@[simp] theorem State.raise_fwu (t : Trigger) : (s.raise t).fwu = s.fwu := rfl
@[simp] theorem State.raise_eth (t : Trigger) : (s.raise t).eth = s.eth := rfl
@[simp] theorem State.raise_pwr (t : Trigger) : (s.raise t).pwr = s.pwr := rfl
@[simp] theorem State.raise_jtag (t : Trigger) : (s.raise t).jtag = s.jtag := rfl
@[simp] theorem State.raise_freeN (t : Trigger) : (s.raise t).freeN = s.freeN := rfl

/-! ### A waiting command taken -/

@[simp] theorem State.unwait_pending (q : Req) : (s.unwait q).pending = s.pending := rfl
@[simp] theorem State.unwait_power (q : Req) : (s.unwait q).power = s.power := rfl
@[simp] theorem State.unwait_op (q : Req) : (s.unwait q).op = s.op := rfl
@[simp] theorem State.unwait_role (q : Req) : (s.unwait q).role = s.role := rfl
@[simp] theorem State.unwait_dtime (q : Req) : (s.unwait q).dtime = s.dtime := rfl
@[simp] theorem State.unwait_utick (q : Req) : (s.unwait q).utick = s.utick := rfl
@[simp] theorem State.unwait_uRem (q : Req) : (s.unwait q).uRem = s.uRem := rfl
@[simp] theorem State.unwait_regs (q : Req) : (s.unwait q).regs = s.regs := rfl
@[simp] theorem State.unwait_live (q : Req) : (s.unwait q).live = s.live := rfl
@[simp] theorem State.unwait_commits (q : Req) : (s.unwait q).commits = s.commits := rfl
@[simp] theorem State.unwait_latches (q : Req) : (s.unwait q).latches = s.latches := rfl
@[simp] theorem State.unwait_fcause (q : Req) : (s.unwait q).fcause = s.fcause := rfl
@[simp] theorem State.unwait_restart (q : Req) : (s.unwait q).restart = s.restart := rfl
@[simp] theorem State.unwait_pm (q : Req) : (s.unwait q).pm = s.pm := rfl
@[simp] theorem State.unwait_dm (q : Req) : (s.unwait q).dm = s.dm := rfl
@[simp] theorem State.unwait_mram (q : Req) : (s.unwait q).mram = s.mram := rfl
@[simp] theorem State.unwait_inImg (q : Req) : (s.unwait q).inImg = s.inImg := rfl
@[simp] theorem State.unwait_outImg (q : Req) : (s.unwait q).outImg = s.outImg := rfl
@[simp] theorem State.unwait_se (q : Req) : (s.unwait q).se = s.se := rfl
@[simp] theorem State.unwait_queues (q : Req) : (s.unwait q).queues = s.queues := rfl
@[simp] theorem State.unwait_qWaits (q : Req) : (s.unwait q).qWaits = s.qWaits := rfl
@[simp] theorem State.unwait_dmas (q : Req) : (s.unwait q).dmas = s.dmas := rfl
@[simp] theorem State.unwait_evr (q : Req) : (s.unwait q).evr = s.evr := rfl
@[simp] theorem State.unwait_miu (q : Req) : (s.unwait q).miu = s.miu := rfl
@[simp] theorem State.unwait_rsm (q : Req) : (s.unwait q).rsm = s.rsm := rfl
@[simp] theorem State.unwait_twl (q : Req) : (s.unwait q).twl = s.twl := rfl
@[simp] theorem State.unwait_ixe (q : Req) : (s.unwait q).ixe = s.ixe := rfl
@[simp] theorem State.unwait_fbp (q : Req) : (s.unwait q).fbp = s.fbp := rfl
@[simp] theorem State.unwait_stn (q : Req) : (s.unwait q).stn = s.stn := rfl
@[simp] theorem State.unwait_fio (q : Req) : (s.unwait q).fio = s.fio := rfl
@[simp] theorem State.unwait_rtc (q : Req) : (s.unwait q).rtc = s.rtc := rfl
@[simp] theorem State.unwait_wdt (q : Req) : (s.unwait q).wdt = s.wdt := rfl
@[simp] theorem State.unwait_fwu (q : Req) : (s.unwait q).fwu = s.fwu := rfl
@[simp] theorem State.unwait_eth (q : Req) : (s.unwait q).eth = s.eth := rfl
@[simp] theorem State.unwait_pwr (q : Req) : (s.unwait q).pwr = s.pwr := rfl
@[simp] theorem State.unwait_jtag (q : Req) : (s.unwait q).jtag = s.jtag := rfl
@[simp] theorem State.unwait_freeN (q : Req) : (s.unwait q).freeN = s.freeN := rfl

/-! ### A session replaced -/

@[simp] theorem State.setSession_pending (x : Session) : (s.setSession x).pending = s.pending := rfl
@[simp] theorem State.setSession_power (x : Session) : (s.setSession x).power = s.power := rfl
@[simp] theorem State.setSession_op (x : Session) : (s.setSession x).op = s.op := rfl
@[simp] theorem State.setSession_role (x : Session) : (s.setSession x).role = s.role := rfl
@[simp] theorem State.setSession_dtime (x : Session) : (s.setSession x).dtime = s.dtime := rfl
@[simp] theorem State.setSession_utick (x : Session) : (s.setSession x).utick = s.utick := rfl
@[simp] theorem State.setSession_uRem (x : Session) : (s.setSession x).uRem = s.uRem := rfl
@[simp] theorem State.setSession_regs (x : Session) : (s.setSession x).regs = s.regs := rfl
@[simp] theorem State.setSession_live (x : Session) : (s.setSession x).live = s.live := rfl
@[simp] theorem State.setSession_commits (x : Session) : (s.setSession x).commits = s.commits := rfl
@[simp] theorem State.setSession_latches (x : Session) : (s.setSession x).latches = s.latches := rfl
@[simp] theorem State.setSession_fcause (x : Session) : (s.setSession x).fcause = s.fcause := rfl
@[simp] theorem State.setSession_restart (x : Session) : (s.setSession x).restart = s.restart := rfl
@[simp] theorem State.setSession_pm (x : Session) : (s.setSession x).pm = s.pm := rfl
@[simp] theorem State.setSession_dm (x : Session) : (s.setSession x).dm = s.dm := rfl
@[simp] theorem State.setSession_mram (x : Session) : (s.setSession x).mram = s.mram := rfl
@[simp] theorem State.setSession_inImg (x : Session) : (s.setSession x).inImg = s.inImg := rfl
@[simp] theorem State.setSession_outImg (x : Session) : (s.setSession x).outImg = s.outImg := rfl
@[simp] theorem State.setSession_se (x : Session) : (s.setSession x).se = s.se := rfl
@[simp] theorem State.setSession_queues (x : Session) : (s.setSession x).queues = s.queues := rfl
@[simp] theorem State.setSession_qWaits (x : Session) : (s.setSession x).qWaits = s.qWaits := rfl
@[simp] theorem State.setSession_dmas (x : Session) : (s.setSession x).dmas = s.dmas := rfl
@[simp] theorem State.setSession_evr (x : Session) : (s.setSession x).evr = s.evr := rfl
@[simp] theorem State.setSession_miu (x : Session) : (s.setSession x).miu = s.miu := rfl
@[simp] theorem State.setSession_rsm (x : Session) : (s.setSession x).rsm = s.rsm := rfl
@[simp] theorem State.setSession_twl (x : Session) : (s.setSession x).twl = s.twl := rfl
@[simp] theorem State.setSession_ixe (x : Session) : (s.setSession x).ixe = s.ixe := rfl
@[simp] theorem State.setSession_fbp (x : Session) : (s.setSession x).fbp = s.fbp := rfl
@[simp] theorem State.setSession_stn (x : Session) : (s.setSession x).stn = s.stn := rfl
@[simp] theorem State.setSession_fio (x : Session) : (s.setSession x).fio = s.fio := rfl
@[simp] theorem State.setSession_rtc (x : Session) : (s.setSession x).rtc = s.rtc := rfl
@[simp] theorem State.setSession_wdt (x : Session) : (s.setSession x).wdt = s.wdt := rfl
@[simp] theorem State.setSession_fwu (x : Session) : (s.setSession x).fwu = s.fwu := rfl
@[simp] theorem State.setSession_eth (x : Session) : (s.setSession x).eth = s.eth := rfl
@[simp] theorem State.setSession_pwr (x : Session) : (s.setSession x).pwr = s.pwr := rfl
@[simp] theorem State.setSession_jtag (x : Session) : (s.setSession x).jtag = s.jtag := rfl
@[simp] theorem State.setSession_freeN (x : Session) : (s.setSession x).freeN = s.freeN := rfl

/-! ### A session closed -/

@[simp] theorem State.closeSession_pending (h : BitVec 32) : (s.closeSession h).pending = s.pending := rfl
@[simp] theorem State.closeSession_power (h : BitVec 32) : (s.closeSession h).power = s.power := rfl
@[simp] theorem State.closeSession_op (h : BitVec 32) : (s.closeSession h).op = s.op := rfl
@[simp] theorem State.closeSession_role (h : BitVec 32) : (s.closeSession h).role = s.role := rfl
@[simp] theorem State.closeSession_dtime (h : BitVec 32) : (s.closeSession h).dtime = s.dtime := rfl
@[simp] theorem State.closeSession_utick (h : BitVec 32) : (s.closeSession h).utick = s.utick := rfl
@[simp] theorem State.closeSession_uRem (h : BitVec 32) : (s.closeSession h).uRem = s.uRem := rfl
@[simp] theorem State.closeSession_regs (h : BitVec 32) : (s.closeSession h).regs = s.regs := rfl
@[simp] theorem State.closeSession_live (h : BitVec 32) : (s.closeSession h).live = s.live := rfl
@[simp] theorem State.closeSession_commits (h : BitVec 32) : (s.closeSession h).commits = s.commits := rfl
@[simp] theorem State.closeSession_latches (h : BitVec 32) : (s.closeSession h).latches = s.latches := rfl
@[simp] theorem State.closeSession_fcause (h : BitVec 32) : (s.closeSession h).fcause = s.fcause := rfl
@[simp] theorem State.closeSession_restart (h : BitVec 32) : (s.closeSession h).restart = s.restart := rfl
@[simp] theorem State.closeSession_pm (h : BitVec 32) : (s.closeSession h).pm = s.pm := rfl
@[simp] theorem State.closeSession_dm (h : BitVec 32) : (s.closeSession h).dm = s.dm := rfl
@[simp] theorem State.closeSession_mram (h : BitVec 32) : (s.closeSession h).mram = s.mram := rfl
@[simp] theorem State.closeSession_inImg (h : BitVec 32) : (s.closeSession h).inImg = s.inImg := rfl
@[simp] theorem State.closeSession_outImg (h : BitVec 32) : (s.closeSession h).outImg = s.outImg := rfl
@[simp] theorem State.closeSession_se (h : BitVec 32) : (s.closeSession h).se = s.se := rfl
@[simp] theorem State.closeSession_queues (h : BitVec 32) : (s.closeSession h).queues = s.queues := rfl
@[simp] theorem State.closeSession_qWaits (h : BitVec 32) : (s.closeSession h).qWaits = s.qWaits := rfl
@[simp] theorem State.closeSession_dmas (h : BitVec 32) : (s.closeSession h).dmas = s.dmas := rfl
@[simp] theorem State.closeSession_evr (h : BitVec 32) : (s.closeSession h).evr = s.evr := rfl
@[simp] theorem State.closeSession_miu (h : BitVec 32) : (s.closeSession h).miu = s.miu := rfl
@[simp] theorem State.closeSession_rsm (h : BitVec 32) : (s.closeSession h).rsm = s.rsm := rfl
@[simp] theorem State.closeSession_twl (h : BitVec 32) : (s.closeSession h).twl = s.twl := rfl
@[simp] theorem State.closeSession_ixe (h : BitVec 32) : (s.closeSession h).ixe = s.ixe := rfl
@[simp] theorem State.closeSession_fbp (h : BitVec 32) : (s.closeSession h).fbp = s.fbp := rfl
@[simp] theorem State.closeSession_stn (h : BitVec 32) : (s.closeSession h).stn = s.stn := rfl
@[simp] theorem State.closeSession_fio (h : BitVec 32) : (s.closeSession h).fio = s.fio := rfl
@[simp] theorem State.closeSession_rtc (h : BitVec 32) : (s.closeSession h).rtc = s.rtc := rfl
@[simp] theorem State.closeSession_wdt (h : BitVec 32) : (s.closeSession h).wdt = s.wdt := rfl
@[simp] theorem State.closeSession_fwu (h : BitVec 32) : (s.closeSession h).fwu = s.fwu := rfl
@[simp] theorem State.closeSession_eth (h : BitVec 32) : (s.closeSession h).eth = s.eth := rfl
@[simp] theorem State.closeSession_pwr (h : BitVec 32) : (s.closeSession h).pwr = s.pwr := rfl
@[simp] theorem State.closeSession_jtag (h : BitVec 32) : (s.closeSession h).jtag = s.jtag := rfl
@[simp] theorem State.closeSession_freeN (h : BitVec 32) : (s.closeSession h).freeN = s.freeN := rfl

/-! ### An event -/

/-- An event that passed its rate limit reaches the recorder, or counts as lost. -/
theorem State.evHold_eq (code : Nat) (d : Word) : ∃ r e, s.evHold code d = { s with regs := r, evr := e } := by
  unfold State.evHold State.takeSubseq
  dsimp only
  split <;> exact ⟨_, _, rfl⟩

/-- An event reaches the registers and the recorder only. -/
theorem State.event_eq (code : Nat) (d : Word) : ∃ r e, s.event code d = { s with regs := r, evr := e } := by
  unfold State.event
  split
  · dsimp only
    split
    · exact s.evHold_eq code d
    · obtain ⟨r, e, h⟩ := State.evHold_eq { s with evr := { s.evr with
        used := supd 0 s.evr.used (budgetKey (s.rateWord code) code d) (· + 1) } } code d
      exact ⟨r, e, h⟩
  · unfold State.evSuppress State.inc State.addCnt State.wr
    exact ⟨_, _, rfl⟩

@[simp] theorem State.event_pending (code : Nat) (d : Word) : (s.event code d).pending = s.pending := by
  obtain ⟨_, _, h⟩ := s.event_eq code d; exact (congrArg State.pending h).trans rfl
@[simp] theorem State.event_power (code : Nat) (d : Word) : (s.event code d).power = s.power := by
  obtain ⟨_, _, h⟩ := s.event_eq code d; exact (congrArg State.power h).trans rfl
@[simp] theorem State.event_op (code : Nat) (d : Word) : (s.event code d).op = s.op := by
  obtain ⟨_, _, h⟩ := s.event_eq code d; exact (congrArg State.op h).trans rfl
@[simp] theorem State.event_role (code : Nat) (d : Word) : (s.event code d).role = s.role := by
  obtain ⟨_, _, h⟩ := s.event_eq code d; exact (congrArg State.role h).trans rfl
@[simp] theorem State.event_dtime (code : Nat) (d : Word) : (s.event code d).dtime = s.dtime := by
  obtain ⟨_, _, h⟩ := s.event_eq code d; exact (congrArg State.dtime h).trans rfl
@[simp] theorem State.event_utick (code : Nat) (d : Word) : (s.event code d).utick = s.utick := by
  obtain ⟨_, _, h⟩ := s.event_eq code d; exact (congrArg State.utick h).trans rfl
@[simp] theorem State.event_uRem (code : Nat) (d : Word) : (s.event code d).uRem = s.uRem := by
  obtain ⟨_, _, h⟩ := s.event_eq code d; exact (congrArg State.uRem h).trans rfl
@[simp] theorem State.event_live (code : Nat) (d : Word) : (s.event code d).live = s.live := by
  obtain ⟨_, _, h⟩ := s.event_eq code d; exact (congrArg State.live h).trans rfl
@[simp] theorem State.event_commits (code : Nat) (d : Word) : (s.event code d).commits = s.commits := by
  obtain ⟨_, _, h⟩ := s.event_eq code d; exact (congrArg State.commits h).trans rfl
@[simp] theorem State.event_latches (code : Nat) (d : Word) : (s.event code d).latches = s.latches := by
  obtain ⟨_, _, h⟩ := s.event_eq code d; exact (congrArg State.latches h).trans rfl
@[simp] theorem State.event_fcause (code : Nat) (d : Word) : (s.event code d).fcause = s.fcause := by
  obtain ⟨_, _, h⟩ := s.event_eq code d; exact (congrArg State.fcause h).trans rfl
@[simp] theorem State.event_restart (code : Nat) (d : Word) : (s.event code d).restart = s.restart := by
  obtain ⟨_, _, h⟩ := s.event_eq code d; exact (congrArg State.restart h).trans rfl
@[simp] theorem State.event_pm (code : Nat) (d : Word) : (s.event code d).pm = s.pm := by
  obtain ⟨_, _, h⟩ := s.event_eq code d; exact (congrArg State.pm h).trans rfl
@[simp] theorem State.event_dm (code : Nat) (d : Word) : (s.event code d).dm = s.dm := by
  obtain ⟨_, _, h⟩ := s.event_eq code d; exact (congrArg State.dm h).trans rfl
@[simp] theorem State.event_mram (code : Nat) (d : Word) : (s.event code d).mram = s.mram := by
  obtain ⟨_, _, h⟩ := s.event_eq code d; exact (congrArg State.mram h).trans rfl
@[simp] theorem State.event_inImg (code : Nat) (d : Word) : (s.event code d).inImg = s.inImg := by
  obtain ⟨_, _, h⟩ := s.event_eq code d; exact (congrArg State.inImg h).trans rfl
@[simp] theorem State.event_outImg (code : Nat) (d : Word) : (s.event code d).outImg = s.outImg := by
  obtain ⟨_, _, h⟩ := s.event_eq code d; exact (congrArg State.outImg h).trans rfl
@[simp] theorem State.event_se (code : Nat) (d : Word) : (s.event code d).se = s.se := by
  obtain ⟨_, _, h⟩ := s.event_eq code d; exact (congrArg State.se h).trans rfl
@[simp] theorem State.event_hpi (code : Nat) (d : Word) : (s.event code d).hpi = s.hpi := by
  obtain ⟨_, _, h⟩ := s.event_eq code d; exact (congrArg State.hpi h).trans rfl
@[simp] theorem State.event_queues (code : Nat) (d : Word) : (s.event code d).queues = s.queues := by
  obtain ⟨_, _, h⟩ := s.event_eq code d; exact (congrArg State.queues h).trans rfl
@[simp] theorem State.event_qWaits (code : Nat) (d : Word) : (s.event code d).qWaits = s.qWaits := by
  obtain ⟨_, _, h⟩ := s.event_eq code d; exact (congrArg State.qWaits h).trans rfl
@[simp] theorem State.event_dmas (code : Nat) (d : Word) : (s.event code d).dmas = s.dmas := by
  obtain ⟨_, _, h⟩ := s.event_eq code d; exact (congrArg State.dmas h).trans rfl
@[simp] theorem State.event_miu (code : Nat) (d : Word) : (s.event code d).miu = s.miu := by
  obtain ⟨_, _, h⟩ := s.event_eq code d; exact (congrArg State.miu h).trans rfl
@[simp] theorem State.event_rsm (code : Nat) (d : Word) : (s.event code d).rsm = s.rsm := by
  obtain ⟨_, _, h⟩ := s.event_eq code d; exact (congrArg State.rsm h).trans rfl
@[simp] theorem State.event_twl (code : Nat) (d : Word) : (s.event code d).twl = s.twl := by
  obtain ⟨_, _, h⟩ := s.event_eq code d; exact (congrArg State.twl h).trans rfl
@[simp] theorem State.event_ixe (code : Nat) (d : Word) : (s.event code d).ixe = s.ixe := by
  obtain ⟨_, _, h⟩ := s.event_eq code d; exact (congrArg State.ixe h).trans rfl
@[simp] theorem State.event_fbp (code : Nat) (d : Word) : (s.event code d).fbp = s.fbp := by
  obtain ⟨_, _, h⟩ := s.event_eq code d; exact (congrArg State.fbp h).trans rfl
@[simp] theorem State.event_stn (code : Nat) (d : Word) : (s.event code d).stn = s.stn := by
  obtain ⟨_, _, h⟩ := s.event_eq code d; exact (congrArg State.stn h).trans rfl
@[simp] theorem State.event_fio (code : Nat) (d : Word) : (s.event code d).fio = s.fio := by
  obtain ⟨_, _, h⟩ := s.event_eq code d; exact (congrArg State.fio h).trans rfl
@[simp] theorem State.event_rtc (code : Nat) (d : Word) : (s.event code d).rtc = s.rtc := by
  obtain ⟨_, _, h⟩ := s.event_eq code d; exact (congrArg State.rtc h).trans rfl
@[simp] theorem State.event_wdt (code : Nat) (d : Word) : (s.event code d).wdt = s.wdt := by
  obtain ⟨_, _, h⟩ := s.event_eq code d; exact (congrArg State.wdt h).trans rfl
@[simp] theorem State.event_fwu (code : Nat) (d : Word) : (s.event code d).fwu = s.fwu := by
  obtain ⟨_, _, h⟩ := s.event_eq code d; exact (congrArg State.fwu h).trans rfl
@[simp] theorem State.event_eth (code : Nat) (d : Word) : (s.event code d).eth = s.eth := by
  obtain ⟨_, _, h⟩ := s.event_eq code d; exact (congrArg State.eth h).trans rfl
@[simp] theorem State.event_pwr (code : Nat) (d : Word) : (s.event code d).pwr = s.pwr := by
  obtain ⟨_, _, h⟩ := s.event_eq code d; exact (congrArg State.pwr h).trans rfl
@[simp] theorem State.event_jtag (code : Nat) (d : Word) : (s.event code d).jtag = s.jtag := by
  obtain ⟨_, _, h⟩ := s.event_eq code d; exact (congrArg State.jtag h).trans rfl
@[simp] theorem State.event_freeN (code : Nat) (d : Word) : (s.event code d).freeN = s.freeN := by
  obtain ⟨_, _, h⟩ := s.event_eq code d; exact (congrArg State.freeN h).trans rfl
@[simp] theorem State.ev_pending (code d : Nat) : (s.ev code d).pending = s.pending := s.event_pending code _
@[simp] theorem State.ev_power (code d : Nat) : (s.ev code d).power = s.power := s.event_power code _
@[simp] theorem State.ev_op (code d : Nat) : (s.ev code d).op = s.op := s.event_op code _
@[simp] theorem State.ev_role (code d : Nat) : (s.ev code d).role = s.role := s.event_role code _
@[simp] theorem State.ev_dtime (code d : Nat) : (s.ev code d).dtime = s.dtime := s.event_dtime code _
@[simp] theorem State.ev_utick (code d : Nat) : (s.ev code d).utick = s.utick := s.event_utick code _
@[simp] theorem State.ev_uRem (code d : Nat) : (s.ev code d).uRem = s.uRem := s.event_uRem code _
@[simp] theorem State.ev_live (code d : Nat) : (s.ev code d).live = s.live := s.event_live code _
@[simp] theorem State.ev_commits (code d : Nat) : (s.ev code d).commits = s.commits := s.event_commits code _
@[simp] theorem State.ev_latches (code d : Nat) : (s.ev code d).latches = s.latches := s.event_latches code _
@[simp] theorem State.ev_fcause (code d : Nat) : (s.ev code d).fcause = s.fcause := s.event_fcause code _
@[simp] theorem State.ev_restart (code d : Nat) : (s.ev code d).restart = s.restart := s.event_restart code _
@[simp] theorem State.ev_pm (code d : Nat) : (s.ev code d).pm = s.pm := s.event_pm code _
@[simp] theorem State.ev_dm (code d : Nat) : (s.ev code d).dm = s.dm := s.event_dm code _
@[simp] theorem State.ev_mram (code d : Nat) : (s.ev code d).mram = s.mram := s.event_mram code _
@[simp] theorem State.ev_inImg (code d : Nat) : (s.ev code d).inImg = s.inImg := s.event_inImg code _
@[simp] theorem State.ev_outImg (code d : Nat) : (s.ev code d).outImg = s.outImg := s.event_outImg code _
@[simp] theorem State.ev_se (code d : Nat) : (s.ev code d).se = s.se := s.event_se code _
@[simp] theorem State.ev_hpi (code d : Nat) : (s.ev code d).hpi = s.hpi := s.event_hpi code _
@[simp] theorem State.ev_queues (code d : Nat) : (s.ev code d).queues = s.queues := s.event_queues code _
@[simp] theorem State.ev_qWaits (code d : Nat) : (s.ev code d).qWaits = s.qWaits := s.event_qWaits code _
@[simp] theorem State.ev_dmas (code d : Nat) : (s.ev code d).dmas = s.dmas := s.event_dmas code _
@[simp] theorem State.ev_miu (code d : Nat) : (s.ev code d).miu = s.miu := s.event_miu code _
@[simp] theorem State.ev_rsm (code d : Nat) : (s.ev code d).rsm = s.rsm := s.event_rsm code _
@[simp] theorem State.ev_twl (code d : Nat) : (s.ev code d).twl = s.twl := s.event_twl code _
@[simp] theorem State.ev_ixe (code d : Nat) : (s.ev code d).ixe = s.ixe := s.event_ixe code _
@[simp] theorem State.ev_fbp (code d : Nat) : (s.ev code d).fbp = s.fbp := s.event_fbp code _
@[simp] theorem State.ev_stn (code d : Nat) : (s.ev code d).stn = s.stn := s.event_stn code _
@[simp] theorem State.ev_fio (code d : Nat) : (s.ev code d).fio = s.fio := s.event_fio code _
@[simp] theorem State.ev_rtc (code d : Nat) : (s.ev code d).rtc = s.rtc := s.event_rtc code _
@[simp] theorem State.ev_wdt (code d : Nat) : (s.ev code d).wdt = s.wdt := s.event_wdt code _
@[simp] theorem State.ev_fwu (code d : Nat) : (s.ev code d).fwu = s.fwu := s.event_fwu code _
@[simp] theorem State.ev_eth (code d : Nat) : (s.ev code d).eth = s.eth := s.event_eth code _
@[simp] theorem State.ev_pwr (code d : Nat) : (s.ev code d).pwr = s.pwr := s.event_pwr code _
@[simp] theorem State.ev_jtag (code d : Nat) : (s.ev code d).jtag = s.jtag := s.event_jtag code _
@[simp] theorem State.ev_freeN (code d : Nat) : (s.ev code d).freeN = s.freeN := s.event_freeN code _

/-! ### Device time -/

/-- Device time moves only itself and the undisciplined count with it. -/
theorem State.at_eq (t : Nat) : ∃ d u r, s.at t = { s with dtime := d, utick := u, uRem := r } := by
  unfold State.at
  dsimp only
  split
  · exact ⟨_, _, _, rfl⟩
  · exact ⟨s.dtime, s.utick, s.uRem, rfl⟩

@[simp] theorem State.at_pending (t : Nat) : (s.at t).pending = s.pending := by
  obtain ⟨_, _, _, h⟩ := s.at_eq t; exact (congrArg State.pending h).trans rfl
@[simp] theorem State.at_power (t : Nat) : (s.at t).power = s.power := by
  obtain ⟨_, _, _, h⟩ := s.at_eq t; exact (congrArg State.power h).trans rfl
@[simp] theorem State.at_op (t : Nat) : (s.at t).op = s.op := by
  obtain ⟨_, _, _, h⟩ := s.at_eq t; exact (congrArg State.op h).trans rfl
@[simp] theorem State.at_role (t : Nat) : (s.at t).role = s.role := by
  obtain ⟨_, _, _, h⟩ := s.at_eq t; exact (congrArg State.role h).trans rfl
@[simp] theorem State.at_regs (t : Nat) : (s.at t).regs = s.regs := by
  obtain ⟨_, _, _, h⟩ := s.at_eq t; exact (congrArg State.regs h).trans rfl
@[simp] theorem State.at_live (t : Nat) : (s.at t).live = s.live := by
  obtain ⟨_, _, _, h⟩ := s.at_eq t; exact (congrArg State.live h).trans rfl
@[simp] theorem State.at_commits (t : Nat) : (s.at t).commits = s.commits := by
  obtain ⟨_, _, _, h⟩ := s.at_eq t; exact (congrArg State.commits h).trans rfl
@[simp] theorem State.at_latches (t : Nat) : (s.at t).latches = s.latches := by
  obtain ⟨_, _, _, h⟩ := s.at_eq t; exact (congrArg State.latches h).trans rfl
@[simp] theorem State.at_fcause (t : Nat) : (s.at t).fcause = s.fcause := by
  obtain ⟨_, _, _, h⟩ := s.at_eq t; exact (congrArg State.fcause h).trans rfl
@[simp] theorem State.at_restart (t : Nat) : (s.at t).restart = s.restart := by
  obtain ⟨_, _, _, h⟩ := s.at_eq t; exact (congrArg State.restart h).trans rfl
@[simp] theorem State.at_pm (t : Nat) : (s.at t).pm = s.pm := by
  obtain ⟨_, _, _, h⟩ := s.at_eq t; exact (congrArg State.pm h).trans rfl
@[simp] theorem State.at_dm (t : Nat) : (s.at t).dm = s.dm := by
  obtain ⟨_, _, _, h⟩ := s.at_eq t; exact (congrArg State.dm h).trans rfl
@[simp] theorem State.at_mram (t : Nat) : (s.at t).mram = s.mram := by
  obtain ⟨_, _, _, h⟩ := s.at_eq t; exact (congrArg State.mram h).trans rfl
@[simp] theorem State.at_inImg (t : Nat) : (s.at t).inImg = s.inImg := by
  obtain ⟨_, _, _, h⟩ := s.at_eq t; exact (congrArg State.inImg h).trans rfl
@[simp] theorem State.at_outImg (t : Nat) : (s.at t).outImg = s.outImg := by
  obtain ⟨_, _, _, h⟩ := s.at_eq t; exact (congrArg State.outImg h).trans rfl
@[simp] theorem State.at_se (t : Nat) : (s.at t).se = s.se := by
  obtain ⟨_, _, _, h⟩ := s.at_eq t; exact (congrArg State.se h).trans rfl
@[simp] theorem State.at_hpi (t : Nat) : (s.at t).hpi = s.hpi := by
  obtain ⟨_, _, _, h⟩ := s.at_eq t; exact (congrArg State.hpi h).trans rfl
@[simp] theorem State.at_queues (t : Nat) : (s.at t).queues = s.queues := by
  obtain ⟨_, _, _, h⟩ := s.at_eq t; exact (congrArg State.queues h).trans rfl
@[simp] theorem State.at_qWaits (t : Nat) : (s.at t).qWaits = s.qWaits := by
  obtain ⟨_, _, _, h⟩ := s.at_eq t; exact (congrArg State.qWaits h).trans rfl
@[simp] theorem State.at_dmas (t : Nat) : (s.at t).dmas = s.dmas := by
  obtain ⟨_, _, _, h⟩ := s.at_eq t; exact (congrArg State.dmas h).trans rfl
@[simp] theorem State.at_evr (t : Nat) : (s.at t).evr = s.evr := by
  obtain ⟨_, _, _, h⟩ := s.at_eq t; exact (congrArg State.evr h).trans rfl
@[simp] theorem State.at_miu (t : Nat) : (s.at t).miu = s.miu := by
  obtain ⟨_, _, _, h⟩ := s.at_eq t; exact (congrArg State.miu h).trans rfl
@[simp] theorem State.at_rsm (t : Nat) : (s.at t).rsm = s.rsm := by
  obtain ⟨_, _, _, h⟩ := s.at_eq t; exact (congrArg State.rsm h).trans rfl
@[simp] theorem State.at_twl (t : Nat) : (s.at t).twl = s.twl := by
  obtain ⟨_, _, _, h⟩ := s.at_eq t; exact (congrArg State.twl h).trans rfl
@[simp] theorem State.at_ixe (t : Nat) : (s.at t).ixe = s.ixe := by
  obtain ⟨_, _, _, h⟩ := s.at_eq t; exact (congrArg State.ixe h).trans rfl
@[simp] theorem State.at_fbp (t : Nat) : (s.at t).fbp = s.fbp := by
  obtain ⟨_, _, _, h⟩ := s.at_eq t; exact (congrArg State.fbp h).trans rfl
@[simp] theorem State.at_stn (t : Nat) : (s.at t).stn = s.stn := by
  obtain ⟨_, _, _, h⟩ := s.at_eq t; exact (congrArg State.stn h).trans rfl
@[simp] theorem State.at_fio (t : Nat) : (s.at t).fio = s.fio := by
  obtain ⟨_, _, _, h⟩ := s.at_eq t; exact (congrArg State.fio h).trans rfl
@[simp] theorem State.at_rtc (t : Nat) : (s.at t).rtc = s.rtc := by
  obtain ⟨_, _, _, h⟩ := s.at_eq t; exact (congrArg State.rtc h).trans rfl
@[simp] theorem State.at_wdt (t : Nat) : (s.at t).wdt = s.wdt := by
  obtain ⟨_, _, _, h⟩ := s.at_eq t; exact (congrArg State.wdt h).trans rfl
@[simp] theorem State.at_fwu (t : Nat) : (s.at t).fwu = s.fwu := by
  obtain ⟨_, _, _, h⟩ := s.at_eq t; exact (congrArg State.fwu h).trans rfl
@[simp] theorem State.at_eth (t : Nat) : (s.at t).eth = s.eth := by
  obtain ⟨_, _, _, h⟩ := s.at_eq t; exact (congrArg State.eth h).trans rfl
@[simp] theorem State.at_pwr (t : Nat) : (s.at t).pwr = s.pwr := by
  obtain ⟨_, _, _, h⟩ := s.at_eq t; exact (congrArg State.pwr h).trans rfl
@[simp] theorem State.at_jtag (t : Nat) : (s.at t).jtag = s.jtag := by
  obtain ⟨_, _, _, h⟩ := s.at_eq t; exact (congrArg State.jtag h).trans rfl
@[simp] theorem State.at_freeN (t : Nat) : (s.at t).freeN = s.freeN := by
  obtain ⟨_, _, _, h⟩ := s.at_eq t; exact (congrArg State.freeN h).trans rfl

/-! ### Reading back -/

@[simp] theorem State.rd_wr_self (a : Nat) (v : Word) : (s.wr a v).rd a = v := sget_sput_self _ _ _ _

theorem State.rd_wr_other {a b : Nat} (v : Word) (h : b ≠ a) : (s.wr a v).rd b = s.rd b :=
  sget_sput_other _ _ _ v h

@[simp] theorem State.ctx_setCtx_self (n : Nat) (c : Ctx) : (s.setCtx n c).ctx n = c := sget_sput_self _ _ _ _

theorem State.ctx_setCtx_other {n m : Nat} (c : Ctx) (h : m ≠ n) : (s.setCtx n c).ctx m = s.ctx m :=
  sget_sput_other _ _ _ c h

@[simp] theorem State.queue_setQueue_self (n : Nat) (q : Queue) : (s.setQueue n q).queue n = q :=
  sget_sput_self _ _ _ _

theorem State.queue_setQueue_other {n m : Nat} (q : Queue) (h : m ≠ n) : (s.setQueue n q).queue m = s.queue m :=
  sget_sput_other _ _ _ q h

@[simp] theorem State.setCtx_active (n : Nat) (c : Ctx) : (s.setCtx n c).se.active = s.se.active := rfl

@[simp] theorem State.rd_setCtx (n : Nat) (c : Ctx) (a : Nat) : (s.setCtx n c).rd a = s.rd a := rfl

@[simp] theorem State.lv_setCtx (n : Nat) (c : Ctx) (a : Nat) : (s.setCtx n c).lv a = s.lv a := rfl

@[simp] theorem State.lv_wr (a : Nat) (v : Word) (b : Nat) : (s.wr a v).lv b = s.lv b := rfl

end Sys2Proof.Machine
end

