-- ==== Sys2Proof/Laws/Machine.lean ====
section
/-! SUPPORT. What the shared operations do, said once: how an instruction of the executing context ends, what a
memory access leaves unchanged, how a host command starts and is answered. -/

namespace Sys2Proof.Machine

/-- An instruction that goes on, with its operands read from the executing context. -/
theorem seRun_next {s : State} {n : Nat} {c : Ctx} (h : s.Runs n c) (len : Nat) (f : State → Nat → Ctx → SeRes)
    {g : Ctx → Ctx} {t : State} (e : f s n c = .next g t none) :
    s.seRun len f = t.onCtx n fun c' => { g c' with pc := (c.pc + len) % 0x800000 } := by
  obtain ⟨ha, hc⟩ := h
  subst hc
  simp only [State.seRun, ha, e]

theorem seRun_trap {s : State} {n : Nat} {c : Ctx} (h : s.Runs n c) (len : Nat) (f : State → Nat → Ctx → SeRes)
    {k a d : Nat} (e : f s n c = .trap k a d) : s.seRun len f = s.trap n k a d := by
  obtain ⟨ha, hc⟩ := h
  subst hc
  simp only [State.seRun, ha, e]

theorem onCtx_runs {s : State} {n : Nat} {c : Ctx} (h : s.Runs n c) (f : Ctx → Ctx) :
    s.onCtx n f = s.setCtx n (f c) := by
  rw [State.onCtx, h.2]


theorem countRebuild_se (s : State) (a : Nat) (d : BitVec 64) : (s.countRebuild a d).se = s.se := by
  unfold State.countRebuild; simp

theorem when_se {s : State} {b : Bool} {f : State → State} (h : ∀ t : State, (f t).se = t.se) : (s.when b f).se = s.se := by
  unfold State.when; split
  · exact h s
  · rfl

theorem miuErr_se (s : State) (a b c d : Nat) (e : Bool) (f : Nat) : (s.miuErr a b c d e f).se = s.se := by
  unfold State.miuErr
  rw [State.wr_se, State.wr_se]

theorem unreb_se (s : State) (src unit ctx flagged : Nat) (synd : Bool) (a : Nat) :
    (s.unrebuildable src unit ctx flagged synd a).se = s.se := by
  unfold State.unrebuildable
  refine (State.ev_se _ _ _).trans ((State.inc_se _ _).trans ((when_se ?_).trans (miuErr_se _ _ _ _ _ _ _)))
  intro t
  exact State.wr_se t _ _

theorem unrebRead_se (s : State) (rd : MemReader) (a : Nat) : (s.unrebRead rd a).se = s.se :=
  unreb_se _ _ _ _ _ _ _

theorem readMem_se (s : State) (a : Nat) : (s.readMem a).2.se = s.se := by
  unfold State.readMem
  split
  · rfl
  split
  · rfl
  split
  · exact countRebuild_se _ _ _
  · rfl

theorem readWord_se (s : State) (rd : MemReader) (a : Nat) : (s.readWord rd a).2.se = s.se := by
  unfold State.readWord
  have k := readMem_se s a
  generalize s.readMem a = p at k
  obtain ⟨o, t⟩ := p
  cases o with
  | none => exact (unrebRead_se _ _ _).trans k
  | some d =>
    dsimp only
    split <;> exact k

theorem readWords_se (s : State) (rd : MemReader) (a n : Nat) : (s.readWords rd a n).2.se = s.se := by
  induction n generalizing s a with
  | zero => rfl
  | succ n ih =>
    unfold State.readWords
    have k := readWord_se s rd a
    generalize s.readWord rd a = p at k
    obtain ⟨o, t⟩ := p
    cases o with
    | none => exact k
    | some d =>
      dsimp only
      have k2 := ih t (a + 8)
      generalize t.readWords rd (a + 8) n = q at k2
      obtain ⟨o2, u⟩ := q
      cases o2 <;> exact k2.trans k

theorem readBytes_se (s : State) (rd : MemReader) (a n : Nat) : (s.readBytes rd a n).2.se = s.se := by
  unfold State.readBytes
  split
  · rfl
  split
  · rfl
  dsimp only
  have k := readWords_se s rd (a / 8 * 8) ((a + n - a / 8 * 8 + 7) / 8)
  generalize s.readWords rd (a / 8 * 8) ((a + n - a / 8 * 8 + 7) / 8) = p at k
  obtain ⟨o, t⟩ := p
  cases o <;> exact k

theorem runs_of_se {s t : State} {n : Nat} {c : Ctx} (h : s.Runs n c) (e : t.se = s.se) : t.Runs n c := by
  unfold State.Runs State.ctx at *
  rw [e]; exact h

theorem dmRead_runs {s t : State} {rd : MemReader} {a k n : Nat} {o : Option Bytes} {c : Ctx} (h : s.Runs n c)
    (e : s.dmRead rd a k = (o, t)) : t.Runs n c := by
  refine runs_of_se h ?_
  have := readBytes_se s rd (dmBase + a) k
  unfold State.dmRead at e
  rw [e] at this
  exact this

theorem dispAddr_eq (b d : Nat) (k : Nat) (hk2 : k ≤ 32) :
    dispAddr b k d = (b + widen k d) % 2 ^ 32 := by
  unfold dispAddr ofS toS widen
  have h2 : (2:Nat) ^ k ≤ 2 ^ 32 := Nat.pow_le_pow_right (by decide) hk2
  have e1 : (2 : Int) ^ k = ((2 ^ k : Nat) : Int) := by push_cast; rfl
  have e2 : (2 : Int) ^ 32 = ((2 ^ 32 : Nat) : Int) := by decide
  rw [e1, e2]
  generalize (2 : Nat) ^ k = m at *
  split <;> omega


theorem foldl_se {α : Type} (l : List α) (f : State → α → State) (h : ∀ t x, (f t x).se = t.se) (s : State) :
    (l.foldl f s).se = s.se := by
  induction l generalizing s with
  | nil => rfl
  | cons x l ih => exact (ih _).trans (h _ _)

theorem setRaw_se' (s : State) (a : Nat) (v : BitVec 64) : (s.setRaw a v).se = s.se := by
  unfold State.setRaw
  split
  · rfl
  · rfl
  · exact (State.wr_se _ _ _).trans (State.wr_se _ _ _)
  · rfl

theorem discard_se (s : State) (a b c d : Nat) : (s.discard a b c d).se = s.se := by
  unfold State.discard
  exact (State.ev_se _ _ _).trans ((miuErr_se _ _ _ _ _ _ _).trans (State.inc_se _ _))

theorem writeWord_se (s : State) (a b c d : Nat) (v : BitVec 64) : (s.writeWord a b c d v).se = s.se := by
  unfold State.writeWord
  dsimp only
  split
  · exact setRaw_se' _ _ _
  split
  · exact discard_se _ _ _ _ _
  · exact (setRaw_se' _ _ _).trans (when_se (s := s) fun t => countRebuild_se t _ _)

theorem flushEntry_se (s : State) (e : Splice) : (s.flushEntry e).se = s.se := by
  unfold State.flushEntry
  extract_lets _ t
  split
  · exact discard_se _ _ _ _ _
  · have k := readMem_se t e.addr
    generalize t.readMem e.addr = p at k
    obtain ⟨o, u⟩ := p
    cases o with
    | none => exact (discard_se _ _ _ _ _).trans k
    | some d => exact (writeWord_se _ _ _ _ _ _).trans k

theorem flushOldest_se (s : State) (l : List Splice) :
    (match l with | e :: _ => s.flushEntry e | [] => s).se = s.se := by
  cases l with
  | nil => rfl
  | cons e _ => exact flushEntry_se s e

theorem writePart_se (s : State) (rd : MemReader) (a : Nat) (p : List (Option Byte)) : (s.writePart rd a p).se = s.se := by
  unfold State.writePart
  split
  · exact writeWord_se _ _ _ _ _ _
  split
  · rfl
  split
  · exact setRaw_se' _ _ _
  extract_lets mine t _
  have : t.se = s.se := by
    subst t
    split
    · exact flushOldest_se s mine
    · rfl
  exact this

theorem writeBytes_se (s : State) (rd : MemReader) (a : Nat) (bs : Bytes) : (s.writeBytes rd a bs).se = s.se := by
  unfold State.writeBytes
  split
  · rfl
  · exact foldl_se _ _ (fun t x => writePart_se _ _ _ _) _

theorem seStore_ctx (s : State) (n a : Nat) (bs : Bytes) :
    ∃ l, (s.seStore n a bs).ctx n = { s.ctx n with dirty := l } := by
  have h : (s.seStore n a bs).ctx n = (s.markDirty n a bs.length).ctx n := by
    unfold State.seStore State.dmWrite State.ctx
    rw [writeBytes_se]
  rw [h]
  unfold State.markDirty
  extract_lets l
  split
  · exact ⟨_, rfl⟩
  · exact ⟨_, State.ctx_setCtx_self _ _ _⟩

end Sys2Proof.Machine
end

