-- ==== Sys2Proof/WellFormed.lean ====
section
/-! DEFINITION. Well-formed commands: every operand within the range the spec gives it. What a command does with an
operand outside its range is in its meaning; the sender of a command keeps to these ranges. -/

namespace Sys2Proof

/-- A UDP source: port 0 or 1, a UDP port number, and a VLAN identifier (R44, R593). -/
def udpOk (x : UdpSource) : Bool := x.eth < 2 && x.port < 65536 && x.vlan < 4096

/-- A transport (R44). -/
def viaOk : Transport → Bool
  | .spi => true
  | .udp x => udpOk x

/-- A block with a COMMIT register (R72). -/
def blkOk : Block → Bool
  | .fbp n => n < 16
  | .stn n => n < 16
  | .pwr | .se | .ixe | .fio | .twl | .rsm | .evr | .rtc | .que => true

/-- The operands of TIM: UNIT 3 is reserved (R153, R155). -/
def timOk (x : TimOperand) : Bool := x.unit ≠ 3

/-- A CAN frame: identifier and data length of its format (R269). -/
def frameOk (f : CanFrame) : Bool :=
  f.id < (if f.ide then 536870912 else 2048) && f.dlc < 16 && f.data.length ≤ 64

/-- A reader with latches of its own (R611). -/
def readerOk : Reader → Bool
  | .mgc => true
  | .dma c => c < 32
  | .ctx n => n < 160

/-- A reader of protected memory (R427). -/
def memReaderOk : MemReader → Bool
  | .dma c => c < 32
  | .fbp port buf => port < 16 && buf < 256
  | .seFetch | .seData | .mgcCommand | .mgcOwn | .ixe | .swapMove | .mirror => true

/-- A source of image writes (R640). -/
def imgSrcOk : ImgSource → Bool
  | .stn port => port < 16
  | .fio | .ixeRecord | .ixeTimeout => true

/-- A trigger with a defined source (R101). -/
def trigOk (t : Trigger) : Bool := t.src ≤ 5 && t.sel < 8192 && 18 ≤ t.cond && t.cond ≤ 21

/-- A sweep with one supply and one temperature for each field group (R362, R571). -/
def telemetryOk (m : Telemetry) : Bool := m.vfld.length = 6 && m.tgrp.length = 6

/-- Block records of MIR_DATA: 64-byte blocks of DM (R393). -/
def blocksOk (bs : Blocks) : Bool := bs.all fun b => b.1 % 64 = 0 && b.1 < 8388608 && b.2.length = 16

/-- Every operand is within its range. -/
def Instr.wf (i : Instr) : Bool :=
  match i with
  | .packetReceived via _ _ => viaOk via
  | .sessionIdleClose slot _ => decide (slot < 8)
  | .spiStatus => true
  | .spiWrite _ _ => true
  | .spiRead _ => true
  | .spiReservedCode _ _ => true
  | .udpDatagram src _ _ _ => udpOk src
  | .ipFragment src ident off _ _ _ => udpOk src && decide (ident < 65536) && decide (off < 65536)
  | .fragmentTimeout src ident _ => udpOk src && decide (ident < 65536)
  | .sysPing _ p => decide (p.length ≤ 4080)
  | .sysIdent _ p => decide (p.length ≤ 4080)
  | .sysStatus _ p => decide (p.length ≤ 4080)
  | .sysSessionOpen _ p => decide (p.length ≤ 4080)
  | .sysSessionClose _ p => decide (p.length ≤ 4080)
  | .sysStateSet _ p => decide (p.length ≤ 4080)
  | .sysRestart _ p => decide (p.length ≤ 4080)
  | .sysLockSet _ p => decide (p.length ≤ 4080)
  | .sysLockClear _ p => decide (p.length ≤ 4080)
  | .sysKeySet _ p => decide (p.length ≤ 4080)
  | .sysCounters _ p => decide (p.length ≤ 4080)
  | .regRead _ p => decide (p.length ≤ 4080)
  | .regWrite _ p => decide (p.length ≤ 4080)
  | .regModify _ p => decide (p.length ≤ 4080)
  | .regListRead _ p => decide (p.length ≤ 4080)
  | .regCommit _ p => decide (p.length ≤ 4080)
  | .regPoll _ p => decide (p.length ≤ 4080)
  | .regPollTimeout _ _ => true
  | .commitWrite addr => decide (addr < 4294967296)
  | .commitApply blk _ => blkOk blk
  | .commitTimeout blk _ => blkOk blk
  | .queStatus _ p => decide (p.length ≤ 4080)
  | .quePop _ p => decide (p.length ≤ 4080)
  | .quePush _ p => decide (p.length ≤ 4080)
  | .quePushPacket _ p => decide (p.length ≤ 4080)
  | .queClear _ p => decide (p.length ≤ 4080)
  | .quePushWaitTimeout _ _ => true
  | .managementTick _ => true
  | .dieLinkLoss _ => true
  | .outputUpdateTick _ _ => true
  | .gridTick _ => true
  | .triggerArrival trg _ => trigOk trg
  | .snapshotCopyStart ctx => decide (ctx < 160)
  | .snapshotCopyEnd ctx _ => decide (ctx < 160)
  | .imageWrite src => imgSrcOk src.val
  | .publicationEnd ctx _ => decide (ctx < 160)
  | .imageCopyRepair _ _ => true
  | .seSwtrig _ => true
  | .seCtrlClrTime => true
  | .seCtrlClrOvr => true
  | .seHotWrite n _ => decide (n < 256)
  | .stateChangeApply _ => true
  | .runExitComplete _ => true
  | .runExitAbandon _ => true
  | .ctx4Timeout _ => true
  | .retainCopyEnd _ => true
  | .tachEdge ch _ _ => decide (ch < 48)
  | .shaftStall sh _ => decide (sh < 32)
  | .seTaskStatus _ p => decide (p.length ≤ 4080)
  | .seTrigger _ p => decide (p.length ≤ 4080)
  | .seClearStats _ p => decide (p.length ≤ 4080)
  | .seShaftRead _ p => decide (p.length ≤ 4080)
  | .bitLd _ => true
  | .bitLdn _ => true
  | .bitAnd _ => true
  | .bitAndn _ => true
  | .bitOr _ => true
  | .bitOrn _ => true
  | .bitXor _ => true
  | .bitXorn _ => true
  | .bitSt _ => true
  | .bitStn _ => true
  | .bitStp _ => true
  | .bitSet _ => true
  | .bitRst _ => true
  | .bitSetp _ => true
  | .bitRstp _ => true
  | .push0 => true
  | .push1 => true
  | .stkNot => true
  | .dup => true
  | .pop => true
  | .ands => true
  | .ors => true
  | .xors => true
  | .swap => true
  | .pushc _ => true
  | .stkClr => true
  | .knotPush _ => true
  | .knotAnd _ => true
  | .knotOr _ => true
  | .edgeRising _ => true
  | .edgeFalling _ => true
  | .edgeBoth _ => true
  | .unprime _ => true
  | .timTon op _ => timOk op
  | .timTof op _ => timOk op
  | .timTp op _ => timOk op
  | .trst _ _ => true
  | .aluAdd _ _ _ _ _ => true
  | .aluSub _ _ _ _ _ => true
  | .aluAnd _ _ _ _ _ => true
  | .aluOr _ _ _ _ _ => true
  | .aluXor _ _ _ _ _ => true
  | .aluShl _ _ _ _ _ => true
  | .aluShr _ _ _ _ _ => true
  | .aluSar _ _ _ _ _ => true
  | .aluRol _ _ _ _ _ => true
  | .aluRor _ _ _ _ _ => true
  | .aluMul _ _ _ _ _ => true
  | .aluMulh _ _ _ _ _ => true
  | .aluDiv _ _ _ _ _ => true
  | .aluRem _ _ _ _ _ => true
  | .aluMin _ _ _ _ _ => true
  | .aluMax _ _ _ _ _ => true
  | .aluCmp _ _ _ _ => true
  | .aluMov _ _ _ _ => true
  | .aluNot _ _ _ _ => true
  | .aluNeg _ _ _ _ => true
  | .aluAbs _ _ _ _ => true
  | .aluSel _ _ _ _ _ => true
  | .addi _ _ => true
  | .andi _ _ => true
  | .ori _ _ => true
  | .xori _ _ => true
  | .shli _ _ => true
  | .shri _ _ => true
  | .sari _ _ => true
  | .cmpi _ _ => true
  | .ldil _ _ => true
  | .ldih _ _ => true
  | .muli _ _ => true
  | .ldi _ _ => true
  | .ldb _ _ _ => true
  | .ldbs _ _ _ => true
  | .ldh _ _ _ => true
  | .ldhs _ _ _ => true
  | .ldw _ _ _ => true
  | .ldd _ _ _ => true
  | .stb _ _ _ => true
  | .sth _ _ _ => true
  | .stw _ _ _ => true
  | .std _ _ _ => true
  | .ldx _ _ _ => true
  | .stx _ _ _ => true
  | .movb _ _ _ => true
  | .fillb _ _ _ => true
  | .fadd _ _ _ _ => true
  | .fsub _ _ _ _ => true
  | .fmul _ _ _ _ => true
  | .fdiv _ _ _ _ => true
  | .fsqrt _ _ _ => true
  | .fmin _ _ _ _ => true
  | .fmax _ _ _ _ => true
  | .fabs _ _ _ => true
  | .fneg _ _ _ => true
  | .fcmp _ _ _ => true
  | .fcvti _ _ _ => true
  | .fcvtf _ _ _ => true
  | .fcvtl _ _ _ => true
  | .fcvtlf _ _ _ => true
  | .fcvtp _ _ _ => true
  | .ftrunc _ _ _ => true
  | .br _ _ => true
  | .call _ _ => true
  | .jr _ => true
  | .callr _ _ => true
  | .nop => true
  | .endInsn _ => true
  | .trapInsn _ => true
  | .fence => true
  | .qpush _ _ => true
  | .qpop _ _ => true
  | .qopen _ => true
  | .qclose _ => true
  | .qlvl _ _ => true
  | .evt _ _ => true
  | .trig _ => true
  | .sysr _ _ _ => true
  | .sysw _ _ => true
  | .reservedInstruction _ _ => true
  | .seChamberOpen _ p => decide (p.length ≤ 4080)
  | .seChamberWrite _ p => decide (p.length ≤ 4080)
  | .seChamberClose _ p => decide (p.length ≤ 4080)
  | .chamberCheckEnd => true
  | .seSwapArm _ p => decide (p.length ≤ 4080)
  | .seSwapDisarm _ p => decide (p.length ≤ 4080)
  | .seSwapStatus _ p => decide (p.length ≤ 4080)
  | .swapStart _ => true
  | .swapEnd _ => true
  | .swapTimeout _ => true
  | .swapAttemptLapse _ => true
  | .ixeRecord _ => true
  | .ixeTimeoutCheck _ => true
  | .ixeStatusRead _ p => decide (p.length ≤ 4080)
  | .ixePointRead _ p => decide (p.length ≤ 4080)
  | .ixeBaselineReset _ p => decide (p.length ≤ 4080)
  | .ixeBaselineLoad _ p => decide (p.length ≤ 4080)
  | .ixeStateClear _ p => decide (p.length ≤ 4080)
  | .ixeCounters _ p => decide (p.length ≤ 4080)
  | .ixeClr _ => true
  | .frameReceived port f _ => decide (port < 16) && frameOk f
  | .rxQueueWaitTimeout port => decide (port.val < 16)
  | .frameStart port buf _ => decide (port < 16) && decide (buf < 256)
  | .frameSent port _ => decide (port < 16)
  | .arbitrationLost port => decide (port < 16)
  | .busError port _ _ => decide (port < 16)
  | .suspendEnd port => decide (port < 16)
  | .integrationEnd port => decide (port < 16)
  | .busoffRecoveryEnd port => decide (port < 16)
  | .dominantTimeout port => decide (port < 16)
  | .basicCycleEnd port _ => decide (port < 16)
  | .windowStart port w _ => decide (port < 16) && decide (w < 32)
  | .windowEnd port w _ => decide (port < 16) && decide (w < 32)
  | .loadInstant port w _ _ => decide (port < 16) && decide (w < 32)
  | .tdrBurstEnd port _ _ => decide (port < 16)
  | .tdrTimeout port => decide (port.val < 16)
  | .stationRefLost port => decide (port.val < 16)
  | .stationHoldExpired port _ => decide (port < 16)
  | .fbpnTxreq port _ _ => decide (port < 16)
  | .fbpnTxcan port _ _ => decide (port < 16)
  | .fbpnRecover port _ => decide (port < 16)
  | .fbpnClr port _ => decide (port < 16)
  | .fbpStatus _ p => decide (p.length ≤ 4080)
  | .fbpRecover _ p => decide (p.length ≤ 4080)
  | .fbpSend _ p => decide (p.length ≤ 4080)
  | .fbpSendTimeout port buf => decide (port < 16) && decide (buf.val < 256)
  | .fbpCancel _ p => decide (p.length ≤ 4080)
  | .fbpTdr _ p => decide (p.length ≤ 4080)
  | .fbpCounters _ p => decide (p.length ≤ 4080)
  | .stnFrame port _ => decide (port < 16)
  | .mgmtResponseTimeout port stn _ => decide (port < 16) && decide (stn < 96)
  | .joinPoll port stn _ => decide (port < 16) && decide (stn < 96)
  | .waitfirstTimeout port stn => decide (port < 16) && decide (stn.val < 96)
  | .keepalivePeriodEnd port stn _ => decide (port < 16) && decide (stn < 96)
  | .stnClr port _ => decide (port < 16)
  | .stnStatus _ p => decide (p.length ≤ 4080)
  | .stnRejoin _ p => decide (p.length ≤ 4080)
  | .stnMgmt _ p => decide (p.length ≤ 4080)
  | .stnStop _ p => decide (p.length ≤ 4080)
  | .stnCounters _ p => decide (p.length ≤ 4080)
  | .groupLow g => decide (g < 6)
  | .groupOff g => decide (g < 6)
  | .groupRecovery g => decide (g < 6)
  | .grpgAck g _ => decide (g < 6)
  | .chnDiagclr ch _ => decide (ch < 48)
  | .thermalShutdown ch => decide (ch < 48)
  | .shortRetry ch _ => decide (ch < 48)
  | .channelOvertemp ch => decide (ch < 48)
  | .channelCooled ch _ => decide (ch < 48)
  | .loadMeasurement ch _ => decide (ch < 48)
  | .fioStatus _ p => decide (p.length ≤ 4080)
  | .fioGroupAck _ p => decide (p.length ≤ 4080)
  | .fioDiagClear _ p => decide (p.length ≤ 4080)
  | .fioLoadRead _ p => decide (p.length ≤ 4080)
  | .telemetrySweep _ m => telemetryOk m
  | .paliLost _ => true
  | .paliAlive => true
  | .paliqTimeout _ => true
  | .towlineLockLost _ _ => true
  | .tickTimeout _ => true
  | .trainingAttempt _ => true
  | .towlineUp _ _ cap _ => decide (cap.length ≤ 64)
  | .solowaitExpired _ => true
  | .twlTick time => decide (time < 18446744073709551616)
  | .twlAck _ _ _ => true
  | .twlEcho _ _ => true
  | .twlCap cap _ => decide (cap.length ≤ 64)
  | .twlBadFrame => true
  | .twlReservedFrame _ => true
  | .propose _ _ _ => true
  | .ready _ _ _ => true
  | .decline _ => true
  | .go _ _ => true
  | .twlState _ _ => true
  | .leave _ => true
  | .enter _ => true
  | .joinreq => true
  | .paliq => true
  | .palians _ _ => true
  | .mirBegin ctx _ _ => decide (ctx < 160)
  | .mirData blocks => blocksOk blocks
  | .mirTimer _ => true
  | .mirEnd ctx _ _ => decide (ctx < 160)
  | .mirrorApply ctx _ => decide (ctx < 160)
  | .trackingReleaseSkip ctx _ => decide (ctx < 160)
  | .mirrorReadDone ctx _ => decide (ctx < 160)
  | .snap _ => true
  | .snapEnd _ _ _ => true
  | .trackPhaseEnd _ => true
  | .entryInstant _ => true
  | .stnsync port stn _ _ => decide (port < 16) && decide (stn < 96)
  | .twlReq port stn _ _ data => decide (port < 16) && decide (stn < 96) && decide (data.length ≤ 58)
  | .twlShaft sh _ _ => decide (sh < 32)
  | .switchoverInstant _ => true
  | .twlClr _ => true
  | .twlStatus _ p => decide (p.length ≤ 4080)
  | .twlJoin _ p => decide (p.length ≤ 4080)
  | .twlDetach _ p => decide (p.length ≤ 4080)
  | .twlSwitchover _ p => decide (p.length ≤ 4080)
  | .twlGoSolo _ p => decide (p.length ≤ 4080)
  | .twlEpochSet _ p => decide (p.length ≤ 4080)
  | .twlCounters _ p => decide (p.length ≤ 4080)
  | .rebuildEnd rd addr _ => memReaderOk rd && decide (addr < 4294967296)
  | .spliceFlush mem => decide (mem < 3)
  | .scrubPage _ => true
  | .miuTestWrite _ => true
  | .miuClr _ => true
  | .miuStatus _ p => decide (p.length ≤ 4080)
  | .miuScrub _ p => decide (p.length ≤ 4080)
  | .miuScrubAbort _ p => decide (p.length ≤ 4080)
  | .miuRawRead _ p => decide (p.length ≤ 4080)
  | .miuRawWrite _ p => decide (p.length ≤ 4080)
  | .energyBurst addr data => decide (addr < 4294967296) && decide (1 ≤ data.length && data.length ≤ 256)
  | .twinCopyBurst addr data => decide (addr < 4294967296) && decide (1 ≤ data.length && data.length ≤ 256)
  | .twinCopyRead addr => decide (addr < 4294967296)
  | .marginRead _ _ => true
  | .rsmClr _ => true
  | .rsmStatus _ p => decide (p.length ≤ 4080)
  | .rsmFormat _ p => decide (p.length ≤ 4080)
  | .rsmRetainClear _ p => decide (p.length ≤ 4080)
  | .eventRecordWrite => true
  | .rateWindowStart win _ => decide (win < 2)
  | .freezeTimeout _ => true
  | .evrCtrlFreeze _ => true
  | .evrCtrlUnfreeze => true
  | .evrClr _ => true
  | .evrStatus _ p => decide (p.length ≤ 4080)
  | .evrRead _ p => decide (p.length ≤ 4080)
  | .evrFreeze _ p => decide (p.length ≤ 4080)
  | .evrUnfreeze _ p => decide (p.length ≤ 4080)
  | .evrClear _ p => decide (p.length ≤ 4080)
  | .qnpush n _ => decide (n < 32)
  | .qndataLoRead rd n => readerOk rd && decide (n < 32)
  | .dmacGoStart c => decide (c < 32)
  | .dmacGoStop c => decide (c < 32)
  | .dmaBurst c => decide (c < 32)
  | .rtcSecond _ => true
  | .trimWindow => true
  | .rtcShadowRead rd r _ => readerOk rd && decide (r < 7)
  | .rtcFreezeTimeout rd _ => readerOk rd
  | .loRegisterRead rd addr => readerOk rd && decide (addr < 4294967296)
  | .rtcLostSet => true
  | .aoSourceSwitch _ => true
  | .batlowSet => true
  | .batlowClear => true
  | .wdtKeyWrite _ => true
  | .wdtCheckinWrite _ => true
  | .wdtConfigWrite off _ => decide (off < 4096)
  | .wdtPeriodEnd _ => true
  | .rtcRead _ p => decide (p.length ≤ 4080)
  | .rtcSet _ p => decide (p.length ≤ 4080)
  | .rtcTrim _ p => decide (p.length ≤ 4080)
  | .wdtStatus _ p => decide (p.length ≤ 4080)
  | .wdtService _ p => decide (p.length ≤ 4080)
  | .wdtCheckin _ p => decide (p.length ≤ 4080)
  | .updBegin _ p => decide (p.length ≤ 4080)
  | .eraseDone => true
  | .updData _ p => decide (p.length ≤ 4080)
  | .updVerify _ p => decide (p.length ≤ 4080)
  | .verifyDone => true
  | .updActivate _ p => decide (p.length ≤ 4080)
  | .updConfirm _ p => decide (p.length ≤ 4080)
  | .updRevert _ p => decide (p.length ≤ 4080)
  | .updStatus _ p => decide (p.length ≤ 4080)
  | .updAbort _ p => decide (p.length ≤ 4080)
  | .updStationActivate _ p => decide (p.length ≤ 4080)
  | .trialTimeout _ => true
  | .selfConfirm _ => true
  | .powerOnReset _ => true
  | .pinReset _ _ => true
  | .clockFailure _ => true
  | .x32Stopped => true
  | .deviceRestart _ => true
  | .mainPowerLoss _ => true
  | .startUp _ => true
  | .powerFailWarning _ => true
  | .powerfailRestart _ => true
  | .vcanLow => true
  | .vcanRestored => true
  | .storeRunningProgram => true
  | .storeLoadedChamber => true
  | .storeConfiguration => true
  | .storeDone _ => true
  | .ethLinkChange port _ _ _ => decide (port < 2)
  | .arpRequest port _ => decide (port < 2)
  | .icmpEcho port _ _ => decide (port < 2)
  | .ptpMessage m _ => decide (m.state ≤ 3)
  | .ethFrameDropped port => decide (port < 2)
  | .ethStatus _ p => decide (p.length ≤ 4080)
  | .ethConfig _ p => decide (p.length ≤ 4080)
  | .ptpConfig _ p => decide (p.length ≤ 4080)
  | .ptpStatus _ p => decide (p.length ≤ 4080)
  | .ethCounters _ p => decide (p.length ≤ 4080)
  | .hpiClr _ => true
  | .ethnClr port _ => decide (port < 2)
  | .jtagDebugAccess addr _ => decide (addr < 4294967296)
  | .registerWrite addr _ => decide (addr < 4294967296)
  | .switchoverTimeout _ => true
  | .ethFrameDiscarded port _ => decide (port < 2)
  | .x32Resumed => true
  | .jtagTapReset => true
  | .chargerCutOff _ => true

end Sys2Proof
end

