-- ==== Sys2Proof/Tests/Slice0.lean ====
section
/-! SUPPORT. The author's own tests: commands that are not well-formed, values that the spec's examples work out, and
for each statement of Certificates/Slice0/Obligations.lean states and operands that meet the hypotheses of its
clauses, at a boundary value where a range has one. Each clause's witness repeats the clause's bindings and says by a
Bool that its hypotheses hold together. -/

namespace Sys2Proof.Tests

open Sys2Proof Sys2Proof.Machine

section

set_option maxRecDepth 4000
set_option linter.unusedVariables false
set_option Elab.async false

/-! ### States -/

/-- The state after reset in STOP. -/
def base : State := { State.reset with op := .stop }
/-- A request over SPI without a session. -/
def rq : Req := ⟨.spi, 0, 1, false, 0⟩
/-- A classic CAN frame without data. -/
def fr0 : CanFrame := ⟨0, false, false, false, false, false, false, 0, [], 0⟩
/-- A telemetry sweep of nominal supplies. -/
def tele : Telemetry := ⟨24000, 12000, 5000, 900, 3300, 1800, 1800, 5000, 3000,
  List.replicate 6 24000, 400, 400, List.replicate 6 400⟩
/-- A sample of the field side with a good link. -/
def smp0 : FioSample := ⟨true, false, 0, 0, 0, [], none⟩
/-- Context 16 executes and holds `c`. -/
def runs (c : Ctx) : State :=
  ({ base with op := .run, se := { base.se with active := some 16 } } : State).setCtx 16 c
/-- A running context with the stack `l`. -/
def ctxOf (l : List Bool) : Ctx := { st := .running, stk := l }
/-- A committed value of a STAGED register. -/
def lvw (s : State) (a : Nat) (v : Word) : State := { s with live := sput (resetVal a) s.live a v }
/-- Queue `k` enabled with 8 words in DM from 0, `o` open, and `n` words in it. -/
def qon (s : State) (k : Nat) (o : Option (Nat × Nat)) (n : Nat) : State :=
  let s := lvw (lvw s (Addr.qCfg k) 1) (Addr.qDepth k) 8
  s.setQueue k { s.queue k with opened := o, marks := List.replicate n {} }
/-- Context `n` enabled as an event task. -/
def evTask (s : State) (n : Nat) : State := lvw s (Addr.ctxCtrl n) 0x100
/-- An open plain session with handle 8. -/
def plain : Session := ⟨0, 8, .spi, 0, false, [], 0, 0, 0, none, 0, []⟩
/-- The state after reset in STOP with an open plain session. -/
def withSession : State := { base with hpi := { base.hpi with sessions := [plain] } }
/-- The session, authenticated. -/
def withAuth : State :=
  let k : Bytes := List.replicate 32 1
  { base with hpi := { base.hpi with sessions := [{ plain with auth := true, ks := k }], ownerKey := some k } }
/-- An SPI packet without data and with the right checks: version, session, opcode. -/
def pkt (ver ses op : Nat) : Bytes :=
  let h : Bytes := [0x53, 0x47, BitVec.ofNat 8 ver, 0] ++ leBytes 2 op ++ leBytes 2 1 ++ leBytes 4 ses ++ leBytes 2 0
  let h := h ++ leBytes 2 (crc16 h).toNat
  h ++ leBytes 4 (crc32c h).toNat
/-- The header of an SPI packet with the right HCRC: flags, LENGTH, version, session, opcode; and a PCRC over it. -/
def pktF (fl : Byte) (len ver ses op : Nat) : Bytes :=
  let h : Bytes := [0x53, 0x47, BitVec.ofNat 8 ver, fl] ++ leBytes 2 op ++ leBytes 2 1 ++ leBytes 4 ses ++ leBytes 2 len
  let h := h ++ leBytes 2 (crc16 h).toNat
  h ++ leBytes 4 (crc32c h).toNat
/-- The state after reset in STOP while a Lock Swap runs. -/
def swp : State := { base with se := { base.se with swap := { base.se.swap with chamber := .swapping } } }
/-- Three words of the first DM page are flagged: the page cannot be rebuilt. -/
def damaged : State :=
  { base with miu := { base.miu with chk := [(dmBase, 1), (dmBase + 8, 1), (dmBase + 16, 1)] } }
/-- Point `p` enabled in STOP and a record `d` of port `port` in the queue; the IXE runs. -/
def ixs (d : Bytes) (p port : Nat) : State :=
  let s := lvw (lvw base Addr.ixeCtrl 1) (Addr.ixePoint00 p) 1
  { s with ixe := { s.ixe with inq := [⟨d, port, 0, 0⟩] } }
/-- A record context without a bin. -/
def rc0 : RecCtx := ⟨0, none, 0, 2, 0, 0, 0, ⟨1, 0, 0, 0, 0, 0, 0, 0, 0, 0⟩⟩
/-- Port 15 in mode RUNNING with a matrix of one basic cycle of 1 ms. -/
def fbps : State := lvw (lvw (lvw base (Addr.fbpCtrl 15) 1) (Addr.fbpTtCfg 15) 1) (Addr.fbpTtBclen 15) 1000
/-- A frame of class `c` from station 95 with data `d` waits at port 15; the station is enabled. -/
def frx (c : Nat) (d : Bytes) : State :=
  let s := lvw base (Addr.stnEntryW0 (96 * 15 + 95)) 1
  let f : CanFrame := { fr0 with id := 256 * c + 190, fdf := true, dlc := dlcFor d.length, data := d }
  s.onPort 15 fun x => { x with rx := [⟨f, 0, 0⟩] }
/-- Station 95 of port 15 is enabled, the port joins, and the station is in state `st`. -/
def stns (st : Nat) : State :=
  let s := lvw (lvw base (Addr.stnEntryW0 (96 * 15 + 95)) 1) (Addr.stnPctrl 15) 0x100
  s.setFld (Addr.stnEntryW5 (96 * 15 + 95)) 2 0 st
/-- An exchange of station 95 of port 15 after `n` tries. -/
def stnx (st op n : Nat) (host : Bool) : State :=
  (stns st).onStn (96 * 15 + 95) fun y => { y with x := some ⟨op, 1, [], n, 0, host⟩ }
/-- Channel `n` in mode OUTPUT. -/
def outp (n : Nat) : State := lvw base (Addr.chCfg n) 2
/-- The towline is up in role `r`. -/
def upl (r : Role) : State := { base with role := r, twl := { base.twl with link := .up } }
/-- Page `p` of MRAM as a valid copy of zeros with SEQ 0. -/
def copyCells (p : Nat) : Sparse Byte :=
  let c := leBytes 4 (crc32c (List.replicate 252 0)).toNat
  ((List.range 4).map fun i => (256 * p + 252 + i, c.getD i 0)).filter fun e => e.2 ≠ 0
/-- A valid copy in MRAM page 2594, none in 2595. -/
def copies : State := { base with mram := copyCells 2594 }
/-- Valid copies with one SEQ in pages 2594 and 2595. -/
def twoCopies : State := { base with mram := copyCells 2594 ++ copyCells 2595 }
/-- A request of that session. -/
def rs : Req := ⟨.spi, 8, 1, false, 0⟩

/-! ### Commands that are not well-formed -/

/-- A payload beyond 4,080 bytes (R36), for each host opcode. -/
theorem test_wf_payload : [Instr.sysPing, .sysIdent, .sysStatus, .sysSessionOpen, .sysSessionClose, .sysStateSet, .sysRestart,
    .sysLockSet, .sysLockClear, .sysKeySet, .sysCounters, .regRead, .regWrite, .regModify, .regListRead, .regCommit, .regPoll,
    .queStatus, .quePop, .quePush, .quePushPacket, .queClear, .seTaskStatus, .seTrigger, .seClearStats, .seShaftRead,
    .seChamberOpen, .seChamberWrite, .seChamberClose, .seSwapArm, .seSwapDisarm, .seSwapStatus, .ixeStatusRead, .ixePointRead,
    .ixeBaselineReset, .ixeBaselineLoad, .ixeStateClear, .ixeCounters, .fbpStatus, .fbpRecover, .fbpSend, .fbpCancel, .fbpTdr,
    .fbpCounters, .stnStatus, .stnRejoin, .stnMgmt, .stnStop, .stnCounters, .fioStatus, .fioGroupAck, .fioDiagClear,
    .fioLoadRead, .twlStatus, .twlJoin, .twlDetach, .twlSwitchover, .twlGoSolo, .twlEpochSet, .twlCounters, .miuStatus,
    .miuScrub, .miuScrubAbort, .miuRawRead, .miuRawWrite, .rsmStatus, .rsmFormat, .rsmRetainClear, .evrStatus, .evrRead,
    .evrFreeze, .evrUnfreeze, .evrClear, .rtcRead, .rtcSet, .rtcTrim, .wdtStatus, .wdtService, .wdtCheckin, .updBegin,
    .updData, .updVerify, .updActivate, .updConfirm, .updRevert, .updStatus, .updAbort, .updStationActivate, .ethStatus,
    .ethConfig, .ptpConfig, .ptpStatus, .ethCounters].all (fun f => !(f rq (List.replicate 4081 0)).wf) = true := by
  decide +kernel

/-- An operand beyond its range, for each check on the operands of a host event or a core event. -/
theorem test_wf_host_and_core : [
    Instr.packetReceived (.udp ⟨2, 0, 700, 0⟩) [] 0, .sessionIdleClose 8 0, .udpDatagram ⟨0, 0, 65536, 0⟩ .good [] 0,
    .ipFragment ⟨0, 0, 700, 4096⟩ 0 0 false [] 0, .ipFragment ⟨0, 0, 700, 0⟩ 65536 0 false [] 0,
    .ipFragment ⟨0, 0, 700, 0⟩ 0 65536 false [] 0, .fragmentTimeout ⟨2, 0, 700, 0⟩ 0 0, .fragmentTimeout ⟨0, 0, 700, 0⟩ 65536 0,
    .commitWrite 4294967296, .commitApply (.fbp 16) 0, .commitTimeout (.stn 16) 0, .triggerArrival ⟨6, 0, 18⟩ 0,
    .triggerArrival ⟨1, 8192, 18⟩ 0, .triggerArrival ⟨1, 0, 22⟩ 0, .snapshotCopyStart 160, .snapshotCopyEnd 160 none,
    .imageWrite ⟨.stn 16, 0⟩, .publicationEnd 160 0, .seHotWrite 256 0, .tachEdge 48 true 0, .shaftStall 32 0,
    .timTon ⟨3, .ext 0, 0, 0⟩ 0, .timTof ⟨3, .ext 0, 0, 0⟩ 0, .timTp ⟨3, .ext 0, 0, 0⟩ 0,
    .rebuildEnd (.dma 32) 0 true, .rebuildEnd (.fbp 16 0) 0 true, .rebuildEnd .ixe 4294967296 true, .spliceFlush 3,
    .energyBurst 4294967296 [0], .energyBurst 0 [], .twinCopyBurst 4294967296 [0], .twinCopyBurst 0 (List.replicate 257 0),
    .twinCopyRead 4294967296, .rateWindowStart 2 0, .qnpush 32 0, .qndataLoRead (.ctx 160) 0, .qndataLoRead .mgc 32,
    .dmacGoStart 32, .dmacGoStop 32, .dmaBurst 32, .rtcShadowRead (.dma 32) 0 0, .rtcShadowRead .mgc 7 0,
    .rtcFreezeTimeout (.ctx 160) 0, .loRegisterRead (.dma 32) 0, .loRegisterRead .mgc 4294967296, .wdtConfigWrite 4096 0,
    .ethLinkChange 2 true 0 false, .arpRequest 2 0, .icmpEcho 2 0 [], .ptpMessage ⟨4, 0, 0, 0, 0⟩ 0, .ethFrameDropped 2,
    .ethnClr 2 0, .jtagDebugAccess 4294967296 none, .registerWrite 4294967296 0, .ethFrameDiscarded 2 0].all (fun i => !i.wf) =
    true := by decide +kernel

/-- An operand beyond its range, for each check on the operands of a field, station or twin event. -/
theorem test_wf_field_and_twin : [
    Instr.frameReceived 16 fr0 0, .frameReceived 0 { fr0 with id := 2048 } 0, .frameReceived 0 { fr0 with dlc := 16 } 0,
    .frameReceived 0 { fr0 with data := List.replicate 65 0 } 0, .rxQueueWaitTimeout ⟨16, 0⟩, .frameStart 16 0 0, .frameStart 0 256 0,
    .frameSent 16 0, .arbitrationLost 16, .busError 16 ⟨1, false, .receiver⟩ 0, .suspendEnd 16, .integrationEnd 16,
    .busoffRecoveryEnd 16, .dominantTimeout 16, .basicCycleEnd 16 0, .windowStart 16 0 0, .windowStart 0 32 0, .windowEnd 16 0 0,
    .windowEnd 0 32 0, .loadInstant 16 0 0 none, .loadInstant 0 32 0 none, .tdrBurstEnd 16 false ⟨0, []⟩, .tdrTimeout ⟨16, 0⟩,
    .stationRefLost ⟨16, 0⟩, .stationHoldExpired 16 0, .fbpnTxreq 16 false 0, .fbpnTxcan 16 false 0, .fbpnRecover 16 0, .fbpnClr 16 0,
    .fbpSendTimeout 16 ⟨0, 0⟩, .fbpSendTimeout 0 ⟨256, 0⟩, .stnFrame 16 0, .mgmtResponseTimeout 16 0 0, .mgmtResponseTimeout 0 96 0,
    .joinPoll 16 0 0, .joinPoll 0 96 0, .waitfirstTimeout 16 ⟨0, 0⟩, .waitfirstTimeout 0 ⟨96, 0⟩, .keepalivePeriodEnd 16 0 0,
    .keepalivePeriodEnd 0 96 0, .stnClr 16 0, .groupLow 6, .groupOff 6, .groupRecovery 6, .grpgAck 6 0, .chnDiagclr 48 0,
    .thermalShutdown 48, .shortRetry 48 0, .channelOvertemp 48, .channelCooled 48 0, .loadMeasurement 48 ⟨0, 0, false, false⟩,
    .telemetrySweep 0 { tele with vfld := [] }, .telemetrySweep 0 { tele with tgrp := [] }, .towlineUp 0 0 (List.replicate 65 0) 0,
    .twlTick 18446744073709551616, .twlCap (List.replicate 65 0) 0, .mirBegin 160 false 0, .mirData [(1, List.replicate 16 0)],
    .mirData [(8388608, List.replicate 16 0)], .mirData [(0, [])], .mirEnd 160 0 0, .mirrorApply 160 0, .trackingReleaseSkip 160 0,
    .mirrorReadDone 160 0, .stnsync 16 0 0 0, .stnsync 0 96 0 0, .twlReq 16 0 0 0 [], .twlReq 0 96 0 0 [],
    .twlReq 0 0 0 0 (List.replicate 59 0), .twlShaft 32 0 0].all (fun i => !i.wf) = true := by decide +kernel

/-! ### Values the spec works out -/

/-- The register offsets of FBP port 5 and of field channel 10 (chapter 01's example). -/
theorem test_spec_addresses : Addr.fbpCtrl 5 = 0x41400 ∧ Addr.chCfg 10 = 0x60280 := by decide

/-- The check values of HCRC and PCRC over the ASCII digits 1 to 9 (R37). -/
theorem test_spec_packet_checks : (let b := (List.range 9).map fun i => BitVec.ofNat 8 (0x31 + i);
    crc16 b = 0x29B1 ∧ crc32c b = 0xE3069283) := by decide +kernel

/-- A data word of zeros has the check 0xDB (chapter 12's example). -/
theorem test_spec_word_check : wordCheck 0 = 0xDB := by decide +kernel

/-- The felt roll: PHASE 11.78 ms after the third pulse of a revolution of 94.25 ms is 40,960 with PPR = 4 (R127). -/
theorem test_spec_phase : phaseAt { pulse := 2, acc := 2, last := 0, delta := 23560000 } 4 11780000 = 40960 := by decide

/-- The swap of 150,684 bytes: MIGKIB = 148 (R191). -/
theorem test_spec_migkib : migKib ([⟨0, 1, 0, 0, 0, 120000⟩, ⟨0, 2, 0, 0, 0, 30000⟩, ⟨0, 5, 0, 0, 0, 64⟩] ++
    List.replicate 40 ⟨0, 3, 0, 0, 0, 0⟩ ++ List.replicate 300 ⟨0, 4, 0, 0, 0, 0⟩) = 148 := by decide +kernel

/-- Worst-case durations: 137.6 µs of a 48-byte FD frame at 1 and 5 Mbit/s, 270 µs of a classical 8-byte frame at
500 kbit/s (R261), in units of 0.5 ns. -/
theorem test_spec_frame_times : (let nbt : Word := BitVec.ofNat 32 (1 + 63 * 64 + 16 * 32768);
    let slow : Word := BitVec.ofNat 32 (2 + 63 * 64 + 16 * 32768);
    let dbt : Word := BitVec.ofNat 32 (1 + 12 * 32 + 3 * 2048);
    worstHalfNs nbt dbt false true true 14 = 275200 ∧ worstHalfNs slow dbt false false false 8 = 540000) := by decide +kernel

/-- The reduced record of point 1,203: its header fields and the code of band 5 (R213). -/
theorem test_spec_record_header : (let d : Bytes := [0xB3, 0xA4, 9, 0, 2, 0, 0, 0x20];
    field d 0 8 % 8192 = 1203 ∧ field d 0 8 / 2 ^ 13 % 256 = 77 ∧ field d 0 8 / 2 ^ 21 % 2 ^ 24 = 4096 ∧ field d 0 8 / 2 ^ 45 = 65536) := by
  decide +kernel

/-- The nibble of point 1,203 lies in bits 7:4 of byte 29 of line 972 (R229). -/
theorem test_spec_nibble : (nibbleCell 1203 0xF).1 = 64 * 972 + 29 ∧ (nibbleCell 1203 0xF).2.2 = 0xF0 := by decide +kernel

/-- The calender roll on SH3: bins of 94.25 ms, 141.37167 ms and 90.00 ms, and no bin below 50 ms (R222). -/
theorem test_spec_bins : (
    let s := lvw (lvw base (Addr.ixeShEdge 12) 5000000) (Addr.ixeShEdge 13) 7000000;
    let s := lvw (lvw s (Addr.ixeShEdge 14) 9000000) (Addr.ixeShEdge 15) 12000000;
    [9425000, 14137167, 9000000, 4999999].map (s.binOf 3) = [some 2, some 3, some 2, none]) := by decide +kernel

/-- The configuration of the bearing-defect example: 0.25 s, bin 2, ADAPT, NMIN 64, NWIN 4,096, 2 s and 600 s. -/
def defectCtx : RecCtx := ⟨0x3E800000, some 2, 2, 64, 4096, 0x40000000, 0x44160000,
  ⟨3, 2, 0, 0x3F800000, 0x40400000, 0x40C00000, 0x3F000000, 0x40000000, 0x3F000000, 0x3F000000⟩⟩
/-- Its feature before record 1: averages 52.40, N = 64, M2 = 40.32. -/
def defect0 : Feature := 
  { fast := 0x4251999A, slow := 0x4251999A, lcode := 25240, alert := false, danger := false, trend := false, init := true, histA := 0, histD := 0, bins := [⟨0, 0, 0⟩, ⟨0, 0, 0⟩, ⟨0x4251999A, 0x422147AE, 64⟩, ⟨0, 0, 0⟩] }
/-- The feature after records 1 to `n`. -/
def defectAfter (n : Nat) : Feature :=
  ([25510, 25560, 26120, 26200].take n).foldl (fun x c => (evalFeature defectCtx 0x42700000 0x42840000 x c).1) defect0
/-- Histories, flags and N after each of the four records (chapter 07's table). -/
theorem test_spec_bearing_defect : (List.range 4).map (fun k => let x := defectAfter (k + 1)
      (x.histA, x.histD, x.alert, x.danger, x.trend, (x.bins.getD 2 ⟨0, 0, 0⟩).n)) =
    [(1, 0, false, false, false, 65), (3, 0, true, false, false, 65), (7, 1, true, false, false, 65),
     (7, 3, true, true, true, 65)] := by decide +kernel

/-- The cable of port 6: 48.4 ohm and RLOAD = 250 are BOTH_ENDS, and the reflection lies at 92.5 m (R285, R286). -/
theorem test_spec_cable : termStat 484 250 = termStat 600 0 ∧ reflections 5000 ⟨484, [(925, 120)]⟩ = [(925, 120)] ∧
    (reflWord 5000 (925, 120)).toNat / 2 ^ 30 = 2 ∧ (reflWord 5000 (925, 120)).toNat % 65536 = 925 := by decide +kernel

/-- The rung of chapter 04's example as PM bytes: NLIT = 7, NTERM = 4. -/
def rung : Bytes := leBytes 4 0x407 ++ ([0x8008, 0x020C, 0x8008, 0x0231, 0x8008, 0x0235, 0x8008, 0x0005, 0x8008, 0x0006, 0x8108, 0x0000,
  0x0029, 0x0000].flatMap (leBytes 2)) ++ ([0x01, 0x00, 0x06, 0x00, 0x18, 0x10, 0x60, 0x40].flatMap (leBytes 8))
/-- A context that executes with the rung at PM 0x40000 and DM bytes `d`. -/
def rungState (d : Sparse Byte) : State :=
  { runs {} with dm := d, pm := memPut [] 0x40000 rung }
/-- TRIP of the rung with DM bytes `d`. -/
def trip (d : Sparse Byte) : Option (List Bool) :=
  match exec (.knotPush 0x2000) (rungState d) with
  | .next t => some (t.ctx 16).stk
  | _ => none
/-- Nothing; MANUAL; MANUAL with BYPASS; one DANGER; both; the vote; the latch. -/
theorem test_spec_rung : [trip [], trip [(0x10000, 0x20)], trip [(0x10000, 0x60)], trip [(0x10046, 0x02)], trip [(0x10046, 0x22)],
    trip [(0x10041, 0x10)], trip [(0x210000, 1)]] =
    [some [false], some [true], some [false], some [false], some [true], some [true], some [true]] := by decide +kernel

/-! ### Words of the spec's encodings -/

/-- The SE instruction that a word and its extension spell. -/
def spells (w ext : Nat) (i : Instr) : Bool := decodeTableWord 64 (w + ext * 2 ^ 32) = some i

/-- CTRL, BIT in its four operand spaces, STK, KNOT, EDGE and TIM (R139, R140, R142, R147, R151, R155, R174). -/
theorem test_decode_bits : (spells 0 0 .nop && spells 0x00400000 0 (.endInsn 0) && spells 0x00801234 0 (.trapInsn 0x1234) &&
    spells 0x00C00000 0 .fence && spells 0x04001FFF 0 (.bitLd (.hot 8191)) && spells 0x0693BFFF 0 (.bitStp (.dmBased 3 5 0x1FFF)) &&
    spells 0x076F001F 0 (.bitSetp (.reg 15 31)) && spells 0x04700000 0x03FFFFFF (.bitLdn (.dmAbs 0x3FFFFFF)) &&
    spells 0x0A400003 0 (.pushc 3) && spells 0x0D000005 0 (.knotAnd 5) && spells 0x1200FFFF 0 (.edgeBoth 0xFFFF) &&
    spells 0x13000000 0 (.unprime 0) && spells 0x15A13FFF 1500 (.timTof ⟨2, .ext 1500, 9, 8191⟩ 0)) = true := by decide +kernel

/-- ALU, ALUI, LDI, FP, loads, stores and blocks (R159, R162, R163, R164, R167, R168, R170). -/
theorem test_decode_data : (spells 0x201123A0 0 (.aluSub 1 2 3 2 true) && spells 0x26BCFFFF 0 (.muli 15 0xFFFF) &&
    spells 0x29C00000 0xDEADBEEF (.ldi 7 0xDEADBEEF) && spells 0x40324680 0 (.fdiv 2 4 6 true) &&
    spells 0x32A7FFF8 0 (.ldd 4 15 0x7FF8) && spells 0x34090001 0 (.stb 1 2 1) && spells 0x3A4C0000 0x100 (.stx 4 3 0x100) &&
    spells 0x3C123000 0 (.movb 1 2 3) && spells 0x3D123000 0 (.fillb 1 2 3)) = true := by decide +kernel

/-- Branches, queues, events and system registers, and words with a reserved FN or a reserved bit
(R138, R172, R173, R175, R178, R179, R180). -/
theorem test_decode_control : (spells 0x533FFFFF 0 (.br 12 0x3FFFFF) && spells 0x57C00002 0 (.call 15 2) && spells 0x580F0000 0 (.jr 15) &&
    spells 0x59EF0000 0 (.callr 14 15) && spells 0x607E4000 0 (.qpop 31 2) && spells 0x67CC0000 0 (.evt 15 3) &&
    spells 0x6800009F 0 (.trig 159) && spells 0x6C200101 0 (.sysr 1 0x101 0) && spells 0x6E200000 0 (.sysw 1 0) &&
    spells 0x01000000 0 (.reservedInstruction 0x01000000 0) && spells 0x68000100 0 (.reservedInstruction 0x68000100 0)) = true := by
  decide +kernel

/-- The command bytes of the SPI port (R63). -/
theorem test_decode_spi : decodeTableWord 8 1 = some .spiStatus ∧ decodeTableWord 8 2 = some (.spiWrite [] 0) ∧
    decodeTableWord 8 3 = some (.spiRead 0) ∧ decodeTableWord 8 0x7F = some (.spiReservedCode 0x7F 0) ∧ decodeTableWord 16 0 = none := by
  decide +kernel

/-! ### The hypotheses of the statements are met -/

/-- The clauses of BitLoadsAndStackFunctions. -/
theorem test_hyps_BitLoadsAndStackFunctions : [
    (let n : Nat := 16;
     let c : Ctx := ctxOf [true];
     let s : State := (let s := runs (ctxOf [true]); { s with se := { s.se with parBad := [0] } });
     decide ((s.se.active = some n ∧ s.ctx n = c) ∧ True) &&
     let i : BitVec 13 := (0 : BitVec 13);
     decide (s.parOk (hotUnit i.toNat) = false ∧ 1 ≤ c.stk.length ∧ c.stk.length ≤ 31)),
    (let n : Nat := 16;
     let c : Ctx := ctxOf [true];
     let s : State := runs (ctxOf [true]);
     decide ((s.se.active = some n ∧ s.ctx n = c) ∧ c.stk.length ≤ 31) &&
     let k := 4; (match c.cond k with | some b => true | _ => false)),
    (let n : Nat := 16;
     let c : Ctx := ctxOf [true];
     let s : State := runs (ctxOf [true]); decide ((s.se.active = some n ∧ s.ctx n = c) ∧ c.stk.length ≤ 32)),
    (let n : Nat := 16;
     let c : Ctx := ctxOf [true];
     let s : State := runs (ctxOf [true]);
     decide ((s.se.active = some n ∧ s.ctx n = c)) &&
     (match c.stk with | x :: r => decide (r.length ≤ 31 ∧ r.length ≤ 30) | _ => false)),
    (let n : Nat := 16;
     let c : Ctx := ctxOf [true, false];
     let s : State := runs (ctxOf [true, false]);
     decide ((s.se.active = some n ∧ s.ctx n = c)) &&
     (match c.stk with | x :: y :: r => decide (r.length ≤ 30) | _ => false))].all id = true := by decide +kernel

/-- The clauses of KnotEvaluatesItsEntry. -/
theorem test_hyps_KnotEvaluatesItsEntry : [
    (let n : Nat := 16;
     let c : Ctx := ctxOf [true];
     let line : BitVec 18 := 0;
     let s : State := ({ runs (ctxOf [true]) with pm := [(0, 65)] } : State);
     decide ((s.se.active = some n ∧ s.ctx n = c)) &&
     (match fetchNat 2 (line.toNat * 32) s with
      | (some hd, s1) =>
           decide ((64 < hd % 128 ∨ 8 < hd / 256 % 16 ∨ hd / 128 % 2 = 1 ∨ 0x2000 ≤ hd) ∧ c.stk.length ≤ 31)
      | _ => false)),
    (let n : Nat := 16;
     let c : Ctx := ctxOf [true];
     let line : BitVec 18 := 0;
     let s : State := ({ runs (ctxOf [true]) with pm := [(0, 65)] } : State);
     decide ((s.se.active = some n ∧ s.ctx n = c)) &&
     (match fetchNat 2 (line.toNat * 32) s with
      | (some hd, s1) =>
           decide ((64 < hd % 128 ∨ 8 < hd / 256 % 16 ∨ hd / 128 % 2 = 1 ∨ 0x2000 ≤ hd) ∧ 1 ≤ c.stk.length ∧
                 c.stk.length ≤ 32)
      | _ => false))].all id = true := by decide +kernel

/-- The clauses of EdgesAndTimersFollowTheirCells. -/
theorem test_hyps_EdgesAndTimersFollowTheirCells : [
    (let n : Nat := 16;
     let c : Ctx := ctxOf [true];
     let cell : BitVec 16 := 5;
     let s : State := runs (ctxOf [true]);
     decide ((s.se.active = some n ∧ s.ctx n = c)) &&
     (match c.stk with | x :: r => decide (r.length ≤ 31 ∧ s.parOk (edgeUnit cell.toNat) = true) | _ => false)),
    (let n : Nat := 16;
     let c : Ctx := ctxOf [true];
     let cell : BitVec 16 := 5;
     let s : State := (let s := runs (ctxOf [true]); { s with se := { s.se with parBad := [0x1000] } });
     decide ((s.se.active = some n ∧ s.ctx n = c) ∧ 1 ≤ c.stk.length ∧ c.stk.length ≤ 32 ∧ s.parOk (edgeUnit
           cell.toNat) = false)),
    (let n : Nat := 16;
     let c : Ctx := ctxOf [true];
     let op : TimOperand := ⟨1, .ext 5, 2, 7⟩;
     let s : State := runs (ctxOf [true]);
     decide ((s.se.active = some n ∧ s.ctx n = c)) &&
     (match c.stk with | x :: r => decide (r.length ≤ 31 ∧ op.unit ≠ 3) | _ => false))].all id = true := by decide +kernel

/-- The clauses of TrapsOfStackPairsAndAddresses. -/
theorem test_hyps_TrapsOfStackPairsAndAddresses : [
    (let n : Nat := 16;
     let c : Ctx := ctxOf [];
     let s : State := runs (ctxOf []);
     decide ((s.se.active = some n ∧ s.ctx n = c)) &&
     let i := .ands;
     (match stackNeed i with
      | some (lo, push) =>
           decide ((c.stk.length < lo ∨ (push = true ∧ 32 ≤ c.stk.length)))
      | _ => false)),
    (let n : Nat := 16;
     let c : Ctx := ctxOf [];
     let s : State := runs (ctxOf []);
     decide ((s.se.active = some n ∧ s.ctx n = c)) &&
     let op := (⟨1, .ext 5, 2, 7⟩ : TimOperand); decide (c.stk = [] ∧ op.unit ≠ 3)),
    (let n : Nat := 16;
     let c : Ctx := ctxOf [];
     let s : State := runs (ctxOf []);
     decide ((s.se.active = some n ∧ s.ctx n = c)) &&
     let op := (⟨3, .ext 5, 2, 7⟩ : TimOperand); decide (op.unit = 3)),
    (let n : Nat := 16;
     let c : Ctx := ctxOf [];
     let i : Instr := .ldd 3 0 0;
     let r : Reg := 3;
     let s : State := runs (ctxOf []); decide ((s.se.active = some n ∧ s.ctx n = c) ∧ r ∈ pairsOf i ∧ r.val % 2 = 1)),
    (let n : Nat := 16;
     let c : Ctx := ctxOf [];
     let i : Instr := .ldx 4 1 0x7FFFFE;
     let s : State := runs (ctxOf []);
     decide ((s.se.active = some n ∧ s.ctx n = c)) &&
     (match accessOf c i with | some (a, k) => decide (0x800000 < a + k) | _ => false)),
    (let n : Nat := 16;
     let c : Ctx := ctxOf [];
     let i : Instr := .ldx 4 1 6;
     let s : State := runs (ctxOf []);
     decide ((s.se.active = some n ∧ s.ctx n = c)) &&
     (match accessOf c i with | some (a, k) => decide (a + k ≤ 0x800000 ∧ a % k ≠ 0) | _ => false))].all id = true := by decide +kernel

/-- The clauses of TrapsAreRecordedAndInstancesEnd. -/
theorem test_hyps_TrapsAreRecordedAndInstancesEnd : [
    (let n : Nat := 16;
     let c : Ctx := ctxOf []; let s : State := runs (ctxOf []); decide ((s.se.active = some n ∧ s.ctx n = c))),
    (let n : Nat := 16;
     let c : Ctx := ctxOf [];
     let s : State := runs (ctxOf []);
     decide ((s.se.active = some n ∧ s.ctx n = c)) &&
     let w := 0x0400FFFF; let ext := 0; decide (reservedWord w ext = true)),
    (let n : Nat := 16;
     let c : Ctx := ctxOf [];
     let s : State := runs (ctxOf []);
     decide ((s.se.active = some n ∧ s.ctx n = c)) && let w := 0; let ext := 0; decide (reservedWord w ext = false)),
    (let n : Nat := 16;
     let c : Ctx := ctxOf []; let s : State := runs (ctxOf []); decide ((s.se.active = some n ∧ s.ctx n = c)))].all id = true := by decide +kernel

/-- The clauses of AdditionAndLogicSetTheirFlags. -/
theorem test_hyps_AdditionAndLogicSetTheirFlags : [
    (let n : Nat := 16;
     let c : Ctx := ctxOf [];
     let rd : Reg := 2;
     let ra : Reg := 2;
     let rb : Reg := 2;
     let w : BitVec 2 := 3;
     let s : State := runs (ctxOf []);
     decide ((s.se.active = some n ∧ s.ctx n = c) ∧ (w = 3 → ∀ r ∈ [rd, ra, rb], r.val % 2 = 0))),
    (let n : Nat := 16;
     let c : Ctx := ctxOf [];
     let ra : Reg := 2;
     let rb : Reg := 2;
     let w : BitVec 2 := 3;
     let s : State := runs (ctxOf []);
     decide ((s.se.active = some n ∧ s.ctx n = c) ∧ (w = 3 → ∀ r ∈ [ra, rb], r.val % 2 = 0))),
    (let n : Nat := 16;
     let c : Ctx := ctxOf [];
     let rd : Reg := 2;
     let ra : Reg := 2;
     let w : BitVec 2 := 3;
     let s : State := runs (ctxOf []);
     decide ((s.se.active = some n ∧ s.ctx n = c) ∧ (w = 3 → ∀ r ∈ [rd, ra], r.val % 2 = 0))),
    (let n : Nat := 16;
     let c : Ctx := ctxOf [];
     let rd : Reg := 2;
     let ra : Reg := 2;
     let rb : Reg := 2;
     let w : BitVec 2 := 3;
     let s : State := runs (ctxOf []);
     decide ((s.se.active = some n ∧ s.ctx n = c) ∧ (w = 3 → ∀ r ∈ [rd, ra, rb], r.val % 2 = 0))),
    (let n : Nat := 16;
     let c : Ctx := ctxOf [];
     let rd : Reg := 2;
     let ra : Reg := 2;
     let w : BitVec 2 := 3;
     let s : State := runs (ctxOf []);
     decide ((s.se.active = some n ∧ s.ctx n = c) ∧ (w = 3 → ∀ r ∈ [rd, ra], r.val % 2 = 0)))].all id = true := by decide +kernel

/-- The clauses of ShiftsAndRotationsMoveBits. -/
theorem test_hyps_ShiftsAndRotationsMoveBits : [
    (let n : Nat := 16;
     let c : Ctx := ctxOf [];
     let rd : Reg := 2;
     let ra : Reg := 2;
     let rb : Reg := 2;
     let w : BitVec 2 := 3;
     let s : State := runs (ctxOf []);
     decide ((s.se.active = some n ∧ s.ctx n = c) ∧ (w = 3 → ∀ r ∈ [rd, ra, rb], r.val % 2 = 0))),
    (let n : Nat := 16;
     let c : Ctx := ctxOf [];
     let imm : BitVec 16 := 5;
     let s : State := runs (ctxOf []);
     decide ((s.se.active = some n ∧ s.ctx n = c)) && (let i := imm.toNat; decide (i < 32))),
    (let n : Nat := 16;
     let c : Ctx := ctxOf [];
     let imm : BitVec 16 := 32;
     let s : State := runs (ctxOf []);
     decide ((s.se.active = some n ∧ s.ctx n = c)) && (let i := imm.toNat; decide (32 ≤ i)))].all id = true := by decide +kernel

/-- The clauses of MultiplyDivideAndSelect. -/
theorem test_hyps_MultiplyDivideAndSelect : [
    (let n : Nat := 16;
     let c : Ctx := (ctxOf []).setReg 4 7;
     let rd : Reg := 2;
     let ra : Reg := 2;
     let rb : Reg := 4;
     let w : BitVec 2 := 2;
     let s : State := runs ((ctxOf []).setReg 4 7);
     decide ((s.se.active = some n ∧ s.ctx n = c)) &&
     (let y := c.src w rb; decide ((w = 3 → ∀ r ∈ [rd, ra, rb], r.val % 2 = 0) ∧ y ≠ 0))),
    (let n : Nat := 16;
     let c : Ctx := ctxOf [];
     let rd : Reg := 2;
     let ra : Reg := 2;
     let rb : Reg := 2;
     let w : BitVec 2 := 2;
     let s : State := runs (ctxOf []);
     decide ((s.se.active = some n ∧ s.ctx n = c)) &&
     (let y := c.src w rb; decide ((w = 3 → ∀ r ∈ [rd, ra, rb], r.val % 2 = 0) ∧ y = 0))),
    (let n : Nat := 16;
     let c : Ctx := ctxOf [];
     let rd : Reg := 2;
     let ra : Reg := 2;
     let rb : Reg := 2;
     let w : BitVec 2 := 2;
     let sg : Bool := false;
     let s : State := runs (ctxOf []);
     decide ((s.se.active = some n ∧ s.ctx n = c)) &&
     (let b := 8 * 2 ^ w.toNat;
      (let x := c.src w ra;
       (let y := c.src w rb;
        (let X := numOf sg b x;
         (let Y := numOf sg b y; decide ((w = 3 → ∀ r ∈ [rd, ra, rb], r.val % 2 = 0) ∧ X ≤ Y))))))),
    (let n : Nat := 16;
     let c : Ctx := (ctxOf []).setReg 2 7;
     let rd : Reg := 2;
     let ra : Reg := 2;
     let rb : Reg := 4;
     let w : BitVec 2 := 2;
     let sg : Bool := false;
     let s : State := runs ((ctxOf []).setReg 2 7);
     decide ((s.se.active = some n ∧ s.ctx n = c)) &&
     (let b := 8 * 2 ^ w.toNat;
      (let x := c.src w ra;
       (let y := c.src w rb;
        (let X := numOf sg b x;
         (let Y := numOf sg b y; decide ((w = 3 → ∀ r ∈ [rd, ra, rb], r.val % 2 = 0) ∧ Y < X))))))),
    (let n : Nat := 16;
     let c : Ctx := ctxOf [true];
     let rd : Reg := 2;
     let ra : Reg := 2;
     let rb : Reg := 2;
     let w : BitVec 2 := 2;
     let s : State := runs (ctxOf [true]);
     decide ((s.se.active = some n ∧ s.ctx n = c) ∧ (w = 3 → ∀ r ∈ [rd, ra, rb], r.val % 2 = 0)) &&
     (match c.stk with | t :: q => decide (q.length ≤ 31) | _ => false)),
    (let n : Nat := 16;
     let c : Ctx := ctxOf [];
     let rd : Reg := 2;
     let ra : Reg := 2;
     let rb : Reg := 2;
     let w : BitVec 2 := 2;
     let s : State := runs (ctxOf []);
     decide ((s.se.active = some n ∧ s.ctx n = c) ∧ (w = 3 → ∀ r ∈ [rd, ra, rb], r.val % 2 = 0) ∧ c.stk = [])),
    (let n : Nat := 16;
     let c : Ctx := ctxOf [];
     let rd : Reg := 2;
     let ra : Reg := 2;
     let w : BitVec 2 := 2;
     let sg : Bool := false;
     let s : State := runs (ctxOf []);
     decide ((s.se.active = some n ∧ s.ctx n = c) ∧ (w = 3 → ∀ r ∈ [rd, ra], r.val % 2 = 0) ∧ sg = false)),
    (let n : Nat := 16;
     let c : Ctx := ctxOf [];
     let rd : Reg := 2;
     let ra : Reg := 2;
     let w : BitVec 2 := 2;
     let sg : Bool := true;
     let s : State := runs (ctxOf []);
     decide ((s.se.active = some n ∧ s.ctx n = c) ∧ (w = 3 → ∀ r ∈ [rd, ra], r.val % 2 = 0) ∧ sg = true))].all id = true := by decide +kernel

/-- The clauses of LoadsWriteTheirRegister. -/
theorem test_hyps_LoadsWriteTheirRegister : [
    (let n : Nat := 16;
     let c : Ctx := ctxOf [];
     let rd : Reg := 2;
     let s : State := runs (ctxOf []); decide ((s.se.active = some n ∧ s.ctx n = c) ∧ rd.val % 2 = 0))].all id = true := by decide +kernel

/-- The clauses of StoresWriteTheirBytesOnly. -/
theorem test_hyps_StoresWriteTheirBytesOnly : [
    (let n : Nat := 16;
     let c : Ctx := ctxOf [];
     let rd : Reg := 2;
     let s : State := runs (ctxOf []); decide ((s.se.active = some n ∧ s.ctx n = c) ∧ rd.val % 2 = 0)),
    (let n : Nat := 16;
     let c : Ctx := ctxOf [];
     let s : State := runs (ctxOf []);
     decide ((s.se.active = some n ∧ s.ctx n = c)) && let f : BitVec 3 := 1; decide ((f = 1 ∨ f = 3 ∨ f = 6 ∨ f = 7)))].all id = true := by decide +kernel

/-- The clauses of BlockMovesAndFillsCompleteInDm. -/
theorem test_hyps_BlockMovesAndFillsCompleteInDm : [
    (let n : Nat := 16;
     let c : Ctx := ((ctxOf []).setReg 4 7).setReg 2 0x7FFFFC;
     let rd : Reg := 2;
     let rb : Reg := 4;
     let s : State := runs (((ctxOf []).setReg 4 7).setReg 2 0x7FFFFC);
     decide ((s.se.active = some n ∧ s.ctx n = c)) &&
     (let d := c.reg rd;
      (let len := c.reg rb; (let inside (x : Nat) : Prop := len = 0 ∨ x + len ≤ 0x800000; decide (¬inside d))))),
    (let n : Nat := 16;
     let c : Ctx := ((ctxOf []).setReg 4 7).setReg 3 0x7FFFFC;
     let rd : Reg := 2;
     let ra : Reg := 3;
     let rb : Reg := 4;
     let s : State := runs (((ctxOf []).setReg 4 7).setReg 3 0x7FFFFC);
     decide ((s.se.active = some n ∧ s.ctx n = c)) &&
     (let d := c.reg rd;
      (let a := c.reg ra;
       (let len := c.reg rb;
        (let inside (x : Nat) : Prop := len = 0 ∨ x + len ≤ 0x800000; decide (inside d ∧ ¬inside a)))))),
    (let n : Nat := 16;
     let c : Ctx := ((ctxOf []).setReg 4 7).setReg 2 4;
     let rd : Reg := 2;
     let ra : Reg := 3;
     let rb : Reg := 4;
     let s : State := runs (((ctxOf []).setReg 4 7).setReg 2 4);
     decide ((s.se.active = some n ∧ s.ctx n = c)) &&
     (let d := c.reg rd;
      (let a := c.reg ra;
       (let len := c.reg rb;
        (let inside (x : Nat) : Prop := len = 0 ∨ x + len ≤ 0x800000; decide (inside d ∧ d % 8 ≠ 0 ∧ inside a)))))),
    (let n : Nat := 16;
     let c : Ctx := ((ctxOf []).setReg 4 7).setReg 3 4;
     let rd : Reg := 2;
     let ra : Reg := 3;
     let rb : Reg := 4;
     let s : State := runs (((ctxOf []).setReg 4 7).setReg 3 4);
     decide ((s.se.active = some n ∧ s.ctx n = c)) &&
     (let d := c.reg rd;
      (let a := c.reg ra;
       (let len := c.reg rb;
        (let inside (x : Nat) : Prop := len = 0 ∨ x + len ≤ 0x800000;
         decide (inside d ∧ inside a ∧ d % 8 = 0 ∧ a % 8 ≠ 0)))))),
    (let n : Nat := 16;
     let c : Ctx := ctxOf [];
     let rd : Reg := 2;
     let ra : Reg := 3;
     let rb : Reg := 4;
     let s : State := runs (ctxOf []);
     decide ((s.se.active = some n ∧ s.ctx n = c)) &&
     (let d := c.reg rd; (let a := c.reg ra; (let len := c.reg rb; decide (len = 0 ∧ d % 8 = 0 ∧ a % 8 = 0))))),
    (let n : Nat := 16;
     let c : Ctx := (ctxOf []).setReg 4 7;
     let rd : Reg := 2;
     let ra : Reg := 3;
     let rb : Reg := 4;
     let s : State := runs ((ctxOf []).setReg 4 7);
     decide ((s.se.active = some n ∧ s.ctx n = c)) &&
     (let d := c.reg rd;
      (let a := c.reg ra;
       (let len := c.reg rb;
        (let m := min 8 len;
         (let inside (x : Nat) : Prop := len = 0 ∨ x + len ≤ 0x800000;
          decide (0 < len ∧ inside d ∧ d % 8 = 0 ∧ inside a ∧ a % 8 = 0) &&
          (match s.dmRead .seData a m with | (some bs, t) => true | _ => false))))))),
    (let n : Nat := 16;
     let c : Ctx := (ctxOf []).setReg 4 7;
     let rd : Reg := 2;
     let ra : Reg := 3;
     let rb : Reg := 4;
     let s : State := (let s := runs ((ctxOf []).setReg 4 7); { s with miu := damaged.miu });
     decide ((s.se.active = some n ∧ s.ctx n = c)) &&
     (let d := c.reg rd;
      (let a := c.reg ra;
       (let len := c.reg rb;
        (let m := min 8 len;
         (let inside (x : Nat) : Prop := len = 0 ∨ x + len ≤ 0x800000;
          decide (0 < len ∧ inside d ∧ d % 8 = 0 ∧ inside a ∧ a % 8 = 0) &&
          (match s.dmRead .seData a m with | (none, t) => true | _ => false))))))),
    (let n : Nat := 16;
     let c : Ctx := (ctxOf []).setReg 4 7;
     let rd : Reg := 2;
     let ra : Reg := 3;
     let rb : Reg := 4;
     let s : State := runs ((ctxOf []).setReg 4 7);
     decide ((s.se.active = some n ∧ s.ctx n = c)) &&
     (let d := c.reg rd;
      (let a := c.reg ra;
       (let len := c.reg rb;
        (let inside (x : Nat) : Prop := len = 0 ∨ x + len ≤ 0x800000;
         decide (0 < len ∧ inside d ∧ d % 8 = 0 ∧ inside a ∧ a % 8 = 0 ∧ s.miu = {})))))),
    (let n : Nat := 16;
     let c : Ctx := (ctxOf []).setReg 4 7;
     let rd : Reg := 2;
     let rb : Reg := 4;
     let s : State := runs ((ctxOf []).setReg 4 7);
     decide ((s.se.active = some n ∧ s.ctx n = c)) &&
     (let d := c.reg rd;
      (let len := c.reg rb;
       (let inside (x : Nat) : Prop := len = 0 ∨ x + len ≤ 0x800000;
        decide (0 < len ∧ inside d ∧ d % 8 = 0 ∧ s.miu = {})))))].all id = true := by decide +kernel

/-- The clauses of FloatingPointWritesResultAndStickyFlags. -/
theorem test_hyps_FloatingPointWritesResultAndStickyFlags : [
    (let n : Nat := 16;
     let c : Ctx := ctxOf [];
     let rd : Reg := 2;
     let ra : Reg := 2;
     let rb : Reg := 2;
     let p : Bool := true;
     let s : State := runs (ctxOf []);
     decide ((s.se.active = some n ∧ s.ctx n = c)) &&
     (let even (l : List (Bool × Reg)) : Prop := ∀ e ∈ l, e.1 = true → e.2.val % 2 = 0;
      decide (even [(p, rd), (p, ra), (p, rb)]))),
    (let n : Nat := 16;
     let c : Ctx := ctxOf [];
     let rd : Reg := 2;
     let ra : Reg := 2;
     let p : Bool := true;
     let s : State := runs (ctxOf []);
     decide ((s.se.active = some n ∧ s.ctx n = c)) &&
     (let even (l : List (Bool × Reg)) : Prop := ∀ e ∈ l, e.1 = true → e.2.val % 2 = 0;
      decide (even [(p, rd), (p, ra)]))),
    (let n : Nat := 16;
     let c : Ctx := ctxOf [];
     let ra : Reg := 2;
     let rb : Reg := 2;
     let p : Bool := true;
     let s : State := runs (ctxOf []);
     decide ((s.se.active = some n ∧ s.ctx n = c)) &&
     (let even (l : List (Bool × Reg)) : Prop := ∀ e ∈ l, e.1 = true → e.2.val % 2 = 0;
      decide (even [(p, ra), (p, rb)]))),
    (let n : Nat := 16;
     let c : Ctx := ctxOf [];
     let ra : Reg := 2;
     let p : Bool := true;
     let s : State := runs (ctxOf []);
     decide ((s.se.active = some n ∧ s.ctx n = c)) &&
     (let even (l : List (Bool × Reg)) : Prop := ∀ e ∈ l, e.1 = true → e.2.val % 2 = 0; decide (even [(p, ra)]))),
    (let n : Nat := 16;
     let c : Ctx := ctxOf [];
     let rd : Reg := 2;
     let ra : Reg := 2;
     let p : Bool := true;
     let s : State := runs (ctxOf []);
     decide ((s.se.active = some n ∧ s.ctx n = c)) &&
     (let even (l : List (Bool × Reg)) : Prop := ∀ e ∈ l, e.1 = true → e.2.val % 2 = 0;
      decide (even [(true, rd), (p, ra)]))),
    (let n : Nat := 16;
     let c : Ctx := ctxOf [];
     let rd : Reg := 2;
     let p : Bool := true;
     let s : State := runs (ctxOf []);
     decide ((s.se.active = some n ∧ s.ctx n = c)) &&
     (let even (l : List (Bool × Reg)) : Prop := ∀ e ∈ l, e.1 = true → e.2.val % 2 = 0; decide (even [(p, rd)]))),
    (let n : Nat := 16;
     let c : Ctx := ctxOf [];
     let rd : Reg := 2;
     let ra : Reg := 2;
     let p : Bool := true;
     let s : State := runs (ctxOf []);
     decide ((s.se.active = some n ∧ s.ctx n = c)) &&
     (let even (l : List (Bool × Reg)) : Prop := ∀ e ∈ l, e.1 = true → e.2.val % 2 = 0;
      decide (even [(p, rd), (true, ra)]))),
    (let n : Nat := 16;
     let c : Ctx := ctxOf [];
     let rd : Reg := 2;
     let ra : Reg := 2;
     let p : Bool := true;
     let s : State := runs (ctxOf []);
     decide ((s.se.active = some n ∧ s.ctx n = c)) &&
     (let even (l : List (Bool × Reg)) : Prop := ∀ e ∈ l, e.1 = true → e.2.val % 2 = 0;
      decide (even [(p, rd), (!p, ra)])))].all id = true := by decide +kernel

/-- The clauses of BranchesAndCallsSetThePc. -/
theorem test_hyps_BranchesAndCallsSetThePc : [
    (let n : Nat := 16;
     let c : Ctx := ctxOf [true];
     let k : BitVec 4 := 1;
     let s : State := runs (ctxOf [true]);
     decide ((s.se.active = some n ∧ s.ctx n = c) ∧ (k = 1 ∨ k = 2 → c.stk ≠ [])))].all id = true := by decide +kernel

/-- The clauses of QueueInstructionsOfAContext. -/
theorem test_hyps_QueueInstructionsOfAContext : [
    (let n : Nat := 16;
     let c : Ctx := { ctxOf [] with cut := [3] };
     let q : BitVec 5 := 3;
     let s : State := runs { ctxOf [] with cut := [3] };
     decide ((s.se.active = some n ∧ s.ctx n = c)) && (let k := q.toNat; decide ((k ∈ c.cut ∨ k + 32 ∈ c.cut)))),
    (let n : Nat := 16;
     let c : Ctx := ctxOf [];
     let q : BitVec 5 := 3;
     let s : State := runs (ctxOf []);
     decide ((s.se.active = some n ∧ s.ctx n = c)) &&
     (let k := q.toNat; decide (k ∉ c.cut ∧ k + 32 ∉ c.cut ∧ s.qEn k = false))),
    (let n : Nat := 16;
     let c : Ctx := ctxOf [];
     let q : BitVec 5 := 3;
     let s : State := qon (runs (ctxOf [])) 3 none 0;
     decide ((s.se.active = some n ∧ s.ctx n = c)) &&
     (let k := q.toNat;
      (let e := s.queue k;
       decide (k ∉ c.cut ∧ k + 32 ∉ c.cut ∧ s.qEn k = true ∧ e.opened = none ∧ e.used < s.qDepth k)))),
    (let n : Nat := 16;
     let c : Ctx := ctxOf [];
     let q : BitVec 5 := 3;
     let s : State := qon (runs (ctxOf [])) 3 (some (0x50, 2)) 2;
     decide ((s.se.active = some n ∧ s.ctx n = c)) &&
     (let k := q.toNat;
      (let e := s.queue k;
       (let src := 0x40 + n;
        decide (k ∉ c.cut ∧ k + 32 ∉ c.cut ∧ s.qEn k = true) &&
        (match e.opened with | some (src, m) => decide (m < 65535 ∧ e.used < s.qDepth k) | _ => false))))),
    (let n : Nat := 16;
     let c : Ctx := ctxOf [];
     let q : BitVec 5 := 3;
     let s : State := qon (runs (ctxOf [])) 3 none 8;
     decide ((s.se.active = some n ∧ s.ctx n = c)) &&
     (let k := q.toNat;
      (let e := s.queue k;
       decide (k ∉ c.cut ∧ k + 32 ∉ c.cut ∧ s.qEn k = true ∧ e.opened = none ∧ s.qDepth k ≤ e.used)))),
    (let n : Nat := 16;
     let c : Ctx := ctxOf [];
     let q : BitVec 5 := 3;
     let s : State := qon (runs (ctxOf [])) 3 (some (0x51, 2)) 2;
     decide ((s.se.active = some n ∧ s.ctx n = c)) &&
     (let k := q.toNat;
      (let e := s.queue k;
       (let src := 0x40 + n;
        decide (k ∉ c.cut ∧ k + 32 ∉ c.cut ∧ s.qEn k = true) &&
        (match e.opened with | some (o, m) => decide (o ≠ src) | _ => false))))),
    (let n : Nat := 16;
     let c : Ctx := ctxOf [];
     let q : BitVec 5 := 3;
     let s : State := qon (runs (ctxOf [])) 3 (some (0x50, 2)) 8;
     decide ((s.se.active = some n ∧ s.ctx n = c)) &&
     (let k := q.toNat;
      (let e := s.queue k;
       (let src := 0x40 + n;
        decide (k ∉ c.cut ∧ k + 32 ∉ c.cut ∧ s.qEn k = true) &&
        (match e.opened with | some (src, m) => decide (m < 65535 ∧ s.qDepth k ≤ e.used) | _ => false))))),
    (let n : Nat := 16;
     let c : Ctx := ctxOf [];
     let q : BitVec 5 := 3;
     let s : State := runs (ctxOf []);
     decide ((s.se.active = some n ∧ s.ctx n = c)) && (let k := q.toNat; decide (s.qEn k = false))),
    (let n : Nat := 16;
     let c : Ctx := ctxOf [];
     let q : BitVec 5 := 3;
     let s : State := qon (runs (ctxOf [])) 3 none 0;
     decide ((s.se.active = some n ∧ s.ctx n = c)) &&
     (let k := q.toNat; (let e := s.queue k; decide (s.qEn k = true ∧ e.opened = none ∧ e.used < s.qDepth k)))),
    (let n : Nat := 16;
     let c : Ctx := ctxOf [];
     let q : BitVec 5 := 3;
     let s : State := qon (runs (ctxOf [])) 3 none 8;
     decide ((s.se.active = some n ∧ s.ctx n = c)) &&
     (let k := q.toNat; (let e := s.queue k; decide (s.qEn k = true ∧ e.opened = none ∧ s.qDepth k ≤ e.used)))),
    (let n : Nat := 16;
     let c : Ctx := ctxOf [];
     let q : BitVec 5 := 3;
     let s : State := qon (runs (ctxOf [])) 3 (some (0x50, 2)) 2;
     decide ((s.se.active = some n ∧ s.ctx n = c)) &&
     (let k := q.toNat;
      (let e := s.queue k;
       (let src := 0x40 + n; decide (s.qEn k = true) && (match e.opened with | some (src, m) => true | _ => false))))),
    (let n : Nat := 16;
     let c : Ctx := ctxOf [];
     let q : BitVec 5 := 3;
     let s : State := qon (runs (ctxOf [])) 3 (some (0x51, 2)) 2;
     decide ((s.se.active = some n ∧ s.ctx n = c)) &&
     (let k := q.toNat;
      (let e := s.queue k;
       (let src := 0x40 + n;
        decide (s.qEn k = true) && (match e.opened with | some (o, m) => decide (o ≠ src) | _ => false))))),
    (let n : Nat := 16;
     let c : Ctx := ctxOf [];
     let q : BitVec 5 := 3;
     let rx : Reg := 2;
     let s : State := qon (runs (ctxOf [])) 3 none 0;
     decide ((s.se.active = some n ∧ s.ctx n = c)) &&
     (let k := q.toNat; (let e := s.queue k; decide (rx.val % 2 = 0 ∧ (s.qEn k = false ∨ e.marks = []))))),
    (let n : Nat := 16;
     let c : Ctx := ctxOf [];
     let q : BitVec 5 := 3;
     let rx : Reg := 2;
     let s : State := qon (runs (ctxOf [])) 3 none 1;
     decide ((s.se.active = some n ∧ s.ctx n = c)) &&
     (let k := q.toNat;
      (let e := s.queue k;
       decide (rx.val % 2 = 0 ∧ s.qEn k = true) &&
       (match e.marks with
        | m :: ms =>
             decide (m.remain < 65536) &&
             (match s.dmRead .seData (s.qBase k + 4 * (e.rd % s.qDepth k)) 4 with
              | (some bs, t) =>
                   decide (bs.length = 4)
              | _ => false)
        | _ => false)))),
    (let n : Nat := 16;
     let c : Ctx := { ctxOf [] with cut := [3] };
     let q : BitVec 5 := 3;
     let s : State := runs { ctxOf [] with cut := [3] };
     decide ((s.se.active = some n ∧ s.ctx n = c)) && (let k := q.toNat; decide (k ∈ c.cut))),
    (let n : Nat := 16;
     let c : Ctx := ctxOf [];
     let q : BitVec 5 := 3;
     let s : State := qon (runs (ctxOf [])) 3 (some (0x50, 2)) 2;
     decide ((s.se.active = some n ∧ s.ctx n = c)) &&
     (let k := q.toNat;
      (let e := s.queue k;
       (let src := 0x40 + n; decide (k ∉ c.cut) && (match e.opened with | some (src, m) => true | _ => false))))),
    (let n : Nat := 16;
     let c : Ctx := ctxOf [];
     let q : BitVec 5 := 3;
     let s : State := qon (runs (ctxOf [])) 3 none 0;
     decide ((s.se.active = some n ∧ s.ctx n = c)) &&
     (let k := q.toNat; (let e := s.queue k; decide (k ∉ c.cut ∧ e.opened = none))))].all id = true := by decide +kernel

/-- The clauses of EventsTriggersAndSystemRegisters. -/
theorem test_hyps_EventsTriggersAndSystemRegisters : [
    (let n : Nat := 16;
     let c : Ctx := ctxOf []; let s : State := runs (ctxOf []); decide ((s.se.active = some n ∧ s.ctx n = c))),
    (let n : Nat := 16;
     let c : Ctx := ctxOf [];
     let s : State := runs (ctxOf []);
     decide ((s.se.active = some n ∧ s.ctx n = c)) && let k : BitVec 8 := 0; decide (s.userEvent k.toNat = false)),
    (let n : Nat := 16;
     let c : Ctx := ctxOf [];
     let s : State := evTask (runs (ctxOf [])) 20;
     decide ((s.se.active = some n ∧ s.ctx n = c)) && let k : BitVec 8 := 20; decide (s.userEvent k.toNat = true)),
    (let n : Nat := 16;
     let c : Ctx := ctxOf [];
     let s : State := runs (ctxOf []);
     decide ((s.se.active = some n ∧ s.ctx n = c)) &&
     let k := 11; decide (10 ≤ k ∧ (k < 0x100 ∨ 0x200 ≤ k) ∧ k < 0x400)),
    (let n : Nat := 16;
     let c : Ctx := ctxOf [];
     let s : State := runs (ctxOf []); decide ((s.se.active = some n ∧ s.ctx n = c)) && let m := 0; decide (m < 32)),
    (let n : Nat := 16;
     let c : Ctx := ctxOf []; let s : State := runs (ctxOf []); decide ((s.se.active = some n ∧ s.ctx n = c))),
    (let n : Nat := 16;
     let c : Ctx := ctxOf [];
     let s : State := runs (ctxOf []); decide ((s.se.active = some n ∧ s.ctx n = c)) && let k := 1; decide (k ≠ 0))].all id = true := by decide +kernel

/-- The clauses of HostOpcodesAreStartedAndAnswered. -/
theorem test_hyps_HostOpcodesAreStartedAndAnswered : [
    (let i : Instr := .sysPing rs [];
     let s : State := ({ base with hpi := { base.hpi with waiting := [⟨0, { rs with tag := 7 }, []⟩] } } : State);
     (match hostOp i with | some (op, len, q, p) => decide (s.blocked q op = true) | _ => false)),
    (let i : Instr := .sysLockSet rq [];
     let s : State := base.setBit Addr.rsmStat 1 true;
     (match hostOp i with
      | some (op, len, q, p) =>
           decide (s.blocked q op = false ∧ s.locked op = true)
      | _ => false)),
    (let i : Instr := .sysIdent rq [1];
     let s : State := base;
     (match hostOp i with
      | some (op, len, q, p) =>
           (match len with
            | some n =>
                 decide (p.length ≠ n ∧ (s.blocked q op = false ∧ s.locked op = false))
            | _ => false)
      | _ => false)),
    (let status : Nat := 0; decide (status ≠ 0x31)),
    (let status : Nat := 0x31; decide (status = 0x31)),
    (let q : Req := rq; decide (q.via = .spi)),
    (let q : Req := (⟨.udp ⟨0, 0, 700, 0⟩, 0, 1, false, 0⟩ : Req); (match q.via with | .udp x => true | _ => false)),
    (let q : Req := rs;
     let s : State :=
           { withSession with hpi := { withSession.hpi with sessions := [{ plain with auth := true, accepted := 32768 }] } };
     (match s.session q.session with
      | some x =>
           decide (x.auth = true ∧ 32768 ≤ x.accepted ∧ s.unanswered q.session = false)
      | _ => false)),
    (let q : Req := rs;
     let long : Bool := false;
     let s : State := withSession;
     decide ((s.session q.session).all (fun z => !z.auth) = true) &&
     (match s.session q.session with | some x => decide (long = false) | _ => false))].all id = true := by decide +kernel

/-- The clauses of SystemOpcodesAndCountersAnswer. -/
theorem test_hyps_SystemOpcodesAndCountersAnswer : [
    (let q : Req := rq;
     let p : Bytes := [];
     let s : State := base; decide (p.length ≤ 4076 ∧ (s.blocked q 0 = false ∧ s.locked 0 = false))),
    (let q : Req := rq;
     let p : Bytes := List.replicate 4077 0;
     let s : State := base; decide (4076 < p.length ∧ (s.blocked q 0 = false ∧ s.locked 0 = false))),
    (let q : Req := rs;
     let p : Bytes := [];
     let s : State := base; decide (p = [] ∧ q.session ≠ 0 ∧ (s.blocked q 4 = false ∧ s.locked 4 = false))),
    (let q : Req := rq;
     let p : Bytes := [];
     let s : State := base; decide (p = [] ∧ q.session = 0 ∧ (s.blocked q 4 = false ∧ s.locked 4 = false))),
    (let q : Req := rq;
     let p : Bytes := [1] ++ List.replicate 19 0;
     let s : State := { base with hpi := { base.hpi with ownerKey := none } };
     (let u := s.carry q;
      let m := 1;
      decide (p.length = (if m = 1 then 20 else 4) ∧ (p.getD 0 0).toNat = m ∧ m ≤ 1 ∧ m = 1 ∧ u.hpi.ownerKey = none
            ∧ (s.blocked q 3 = false ∧ s.locked 3 = false)))),
    (let q : Req := rq;
     let p : Bytes := List.replicate 4 0;
     let s : State :=
           { withSession with hpi := { withSession.hpi with sessions := (List.range 8).map fun i => { plain with slot := i } } };
     (let u := s.carry q;
      let m := 0;
      decide (p.length = (if m = 1 then 20 else 4) ∧ (p.getD 0 0).toNat = m ∧ m ≤ 1 ∧ (m = 1 → u.hpi.ownerKey ≠
            none) ∧ (List.range 8).all (fun i => u.hpi.sessions.any fun x => decide (x.slot = i)) = true ∧
            (s.blocked q 3 = false ∧ s.locked 3 = false)))),
    (let q : Req := rq;
     let p : Bytes := [0, 0, 0, 0];
     let s : State := base;
     (let u := s.carry q;
      let m := 0;
      decide (p.length = (if m = 1 then 20 else 4) ∧ (p.getD 0 0).toNat = m ∧ m ≤ 1) &&
      let i := 0;
      decide ((m = 1 → u.hpi.ownerKey ≠ none) ∧ i < 8 ∧ (∀ x ∈ u.hpi.sessions, x.slot ≠ i) ∧ (∀ j, j < i → ∃ x ∈
            u.hpi.sessions, x.slot = j) ∧ (s.blocked q 3 = false ∧ s.locked 3 = false)))),
    (let q : Req := rq;
     let p : Bytes := [0];
     let s : State := base;
     (let u := s.carry q;
      decide (p = [0] ∧ u.op ≠ .run ∧ u.op ≠ .hold ∧ (s.blocked q 6 = false ∧ s.locked 6 = false)))),
    (let q : Req := rq;
     let p : Bytes := [0];
     let s : State := { base with op := .run };
     (let u := s.carry q;
      decide (p = [0] ∧ (u.op = .run ∨ u.op = .hold) ∧ (s.blocked q 6 = false ∧ s.locked 6 = false))))].all id = true := by decide +kernel

/-- The clauses of OwnerLockAndKey. -/
theorem test_hyps_OwnerLockAndKey : [
    (let q : Req := { rs with via := .spi };
     let p : Bytes := [];
     let s : State := withAuth;
     (let u := s.carry q; decide (p = [] ∧ u.authed q.session = true ∧ (s.blocked q 7 = false ∧ s.locked 7 = false)))),
    (let q : Req := rq;
     let p : Bytes := [];
     let s : State := base;
     (let u := s.carry q;
      decide (p = [] ∧ u.authed q.session = false ∧ (s.blocked q 7 = false ∧ s.locked 7 = false)))),
    (let q : Req := (⟨.udp ⟨0, 0, 700, 0⟩, 0, 1, false, 0⟩ : Req);
     let p : Bytes := List.replicate 32 0;
     let s : State := base; decide (p.length = 32 ∧ q.via ≠ .spi ∧ (s.blocked q 9 = false ∧ s.locked 9 = false))),
    (let q : Req := rq;
     let p : Bytes := List.replicate 32 0;
     let s : State := ({ base with hpi := { base.hpi with ownerKey := some [] } } : State);
     (let u := s.carry q;
      decide (p.length = 32 ∧ q.via = .spi ∧ u.hpi.ownerKey ≠ none ∧ u.authed q.session = false ∧ (s.blocked q 9 =
            false ∧ s.locked 9 = false)))),
    (let q : Req := rq;
     let p : Bytes := List.replicate 32 0;
     let s : State := base;
     (let u := s.carry q;
      decide (p.length = 32 ∧ q.via = .spi ∧ (u.hpi.ownerKey = none ∨ u.authed q.session = true) ∧ (s.blocked q 9 =
            false ∧ s.locked 9 = false))))].all id = true := by decide +kernel

/-- The clauses of PacketsAndTransfersOfTheHostPorts. -/
theorem test_hyps_PacketsAndTransfersOfTheHostPorts : [
    (let via : Transport := .spi; decide (via = .spi)),
    (let via : Transport := .udp ⟨1, 0, 700, 0⟩;
     let t : Nat := 0;
     let s : State := base; (match via with | .udp x => decide ((s.at t).ethOpen x.eth = false) | _ => false)),
    (let b : Bytes := [];
     (let good : Prop := 16 ≤ b.length ∧ b.take 2 = [0x53, 0x47] ∧ field b 14 2 = (crc16 (b.take 14)).toNat;
      decide (¬good))),
    (let b : Bytes := pktF 8 0 1 0 256;
     (let k := parsePkt b;
      (let good : Prop := 16 ≤ b.length ∧ b.take 2 = [0x53, 0x47] ∧ field b 14 2 = (crc16 (b.take 14)).toNat;
       decide (good ∧ k.flags.getLsbD 3 = true)))),
    (let b : Bytes := pkt 2 0 0;
     (let k := parsePkt b;
      (let good : Prop := 16 ≤ b.length ∧ b.take 2 = [0x53, 0x47] ∧ field b 14 2 = (crc16 (b.take 14)).toNat;
       (let plain : Prop := good ∧ k.flags.getLsbD 3 = false; decide (plain ∧ b.getD 2 0 ≠ 1))))),
    (let b : Bytes := pktF 0 4081 1 0 0;
     (let k := parsePkt b;
      (let good : Prop := 16 ≤ b.length ∧ b.take 2 = [0x53, 0x47] ∧ field b 14 2 = (crc16 (b.take 14)).toNat;
       (let plain : Prop := good ∧ k.flags.getLsbD 3 = false; decide (plain ∧ b.getD 2 0 = 1 ∧ 4080 < k.len))))),
    (let b : Bytes := (pkt 1 0 256).take 16 ++ [0, 0, 0, 0];
     (let k := parsePkt b;
      (let good : Prop := 16 ≤ b.length ∧ b.take 2 = [0x53, 0x47] ∧ field b 14 2 = (crc16 (b.take 14)).toNat;
       (let plain : Prop := good ∧ k.flags.getLsbD 3 = false;
        decide (plain ∧ b.getD 2 0 = 1 ∧ k.len ≤ 4080 ∧ k.pcrc ≠ crc32c (b.take (16 + k.len))))))),
    (let via : Transport := .spi;
     let b : Bytes := pkt 1 0 256;
     (let k := parsePkt b;
      (let good : Prop := 16 ≤ b.length ∧ b.take 2 = [0x53, 0x47] ∧ field b 14 2 = (crc16 (b.take 14)).toNat;
       (let plain : Prop := good ∧ k.flags.getLsbD 3 = false;
        (let sound : Prop := plain ∧ b.getD 2 0 = 1 ∧ k.len ≤ 4080 ∧ k.pcrc = crc32c (b.take (16 + k.len));
         let u : State := base;
         decide (sound ∧ u.boundSession k.session via = none ∧ ¬(k.session = 0 ∧ k.op ≤ 3))))))),
    (let via : Transport := .spi;
     let b : Bytes := pkt 1 0 3;
     (let k := parsePkt b;
      (let good : Prop := 16 ≤ b.length ∧ b.take 2 = [0x53, 0x47] ∧ field b 14 2 = (crc16 (b.take 14)).toNat;
       (let plain : Prop := good ∧ k.flags.getLsbD 3 = false;
        (let sound : Prop := plain ∧ b.getD 2 0 = 1 ∧ k.len ≤ 4080 ∧ k.pcrc = crc32c (b.take (16 + k.len));
         let u : State := base;
         decide (sound ∧ k.session = 0 ∧ k.op ≤ 3 ∧ u.boundSession 0 via = none ∧ u.session 0 = none ∧ (u.op ≠
               .recovery ∧ u.op ≠ .boot ∧ u.locked k.op = false ∧ u.outstanding < 64))))))),
    (let via : Transport := .spi;
     let b : Bytes := pktF 1 0 1 8 0 ++ List.replicate 16 0;
     (let k := parsePkt b;
      (let q : Req := ⟨via, k.session, k.tag, k.flags.getLsbD 2, k.pcrc⟩;
       (let auth := k.flags.getLsbD 0;
        (let good : Prop := 16 ≤ b.length ∧ b.take 2 = [0x53, 0x47] ∧ field b 14 2 = (crc16 (b.take 14)).toNat;
         (let plain : Prop := good ∧ k.flags.getLsbD 3 = false;
          (let sound : Prop := plain ∧ b.getD 2 0 = 1 ∧ k.len ≤ 4080 ∧ k.pcrc = crc32c (b.take (16 + k.len));
           let u : State := withSession;
           decide (sound) &&
           (match u.boundSession k.session via with
            | some x =>
                 (let mac := k.mac = (hmac x.ks (b.take (20 + k.len))).take 16;
                  (let fits : Prop := if x.auth then auth = true ∧ mac ∧ (tagOk x k.tag.toNat = true ∨
                         u.isRepeat q x = true) else auth = false;
                   decide (¬fits ∧ x.fails + 1 < 8)))
            | _ => false)))))))),
    (let via : Transport := .spi;
     let b : Bytes := pktF 1 0 1 8 0 ++ List.replicate 16 0;
     (let k := parsePkt b;
      (let q : Req := ⟨via, k.session, k.tag, k.flags.getLsbD 2, k.pcrc⟩;
       (let auth := k.flags.getLsbD 0;
        (let good : Prop := 16 ≤ b.length ∧ b.take 2 = [0x53, 0x47] ∧ field b 14 2 = (crc16 (b.take 14)).toNat;
         (let plain : Prop := good ∧ k.flags.getLsbD 3 = false;
          (let sound : Prop := plain ∧ b.getD 2 0 = 1 ∧ k.len ≤ 4080 ∧ k.pcrc = crc32c (b.take (16 + k.len));
           let u : State :=
                 ({ base with hpi := { base.hpi with sessions := [{ Sys2Proof.Tests.plain with fails := 7 }] } }
                 : State);
           decide (sound) &&
           (match u.boundSession k.session via with
            | some x =>
                 (let mac := k.mac = (hmac x.ks (b.take (20 + k.len))).take 16;
                  (let fits : Prop := if x.auth then auth = true ∧ mac ∧ (tagOk x k.tag.toNat = true ∨
                         u.isRepeat q x = true) else auth = false;
                   decide (¬fits ∧ 8 ≤ x.fails + 1)))
            | _ => false)))))))),
    (let via : Transport := .spi;
     let b : Bytes := pkt 1 8 0;
     (let k := parsePkt b;
      (let q : Req := ⟨via, k.session, k.tag, k.flags.getLsbD 2, k.pcrc⟩;
       (let auth := k.flags.getLsbD 0;
        (let good : Prop := 16 ≤ b.length ∧ b.take 2 = [0x53, 0x47] ∧ field b 14 2 = (crc16 (b.take 14)).toNat;
         (let plain : Prop := good ∧ k.flags.getLsbD 3 = false;
          (let sound : Prop := plain ∧ b.getD 2 0 = 1 ∧ k.len ≤ 4080 ∧ k.pcrc = crc32c (b.take (16 + k.len));
           let u : State :=
                 ({ base with hpi := { base.hpi with sessions := [{ Sys2Proof.Tests.plain with cache := [⟨1, (parsePkt (pkt 1 8 0)).pcrc, ⟨1, .spi, 8, 0, 1, 8, 0, [], none⟩⟩] }] } }
                 : State);
           decide (sound) &&
           (match u.boundSession k.session via with
            | some x =>
                 (let mac := k.mac = (hmac x.ks (b.take (20 + k.len))).take 16;
                  (let fits : Prop := if x.auth then auth = true ∧ mac ∧ (tagOk x k.tag.toNat = true ∨
                         u.isRepeat q x = true) else auth = false;
                   decide (fits) &&
                   (match x.cache.find? (fun c => c.tag = k.tag && c.pcrc = k.pcrc) with
                    | some c =>
                         decide (q.noReply = false)
                    | _ => false)))
            | _ => false)))))))),
    (let via : Transport := .spi;
     let b : Bytes := pkt 1 8 0;
     (let k := parsePkt b;
      (let q : Req := ⟨via, k.session, k.tag, k.flags.getLsbD 2, k.pcrc⟩;
       (let auth := k.flags.getLsbD 0;
        (let good : Prop := 16 ≤ b.length ∧ b.take 2 = [0x53, 0x47] ∧ field b 14 2 = (crc16 (b.take 14)).toNat;
         (let plain : Prop := good ∧ k.flags.getLsbD 3 = false;
          (let sound : Prop := plain ∧ b.getD 2 0 = 1 ∧ k.len ≤ 4080 ∧ k.pcrc = crc32c (b.take (16 + k.len));
           let u : State := withSession;
           decide (sound) &&
           (match u.boundSession k.session via with
            | some x =>
                 (let mac := k.mac = (hmac x.ks (b.take (20 + k.len))).take 16;
                  (let fits : Prop := if x.auth then auth = true ∧ mac ∧ (tagOk x k.tag.toNat = true ∨
                         u.isRepeat q x = true) else auth = false;
                   decide (fits ∧ u.isRepeat q x = false ∧ u.session k.session = some x ∧ (u.op ≠ .recovery ∧
                         u.op ≠ .boot ∧ u.locked k.op = false ∧ u.outstanding < 64)) &&
                   (match opClass k.op with
                    | some w =>
                         decide ((u.hpi.ownerLock = true → (w = true → x.auth = true) ∧ k.op ≠ 0x0C00 ∧ k.op
                               ≠ 0x0C03) ∧ (x.auth = true → x.accepted < 32768))
                    | _ => false)))
            | _ => false)))))))),
    (let t : Nat := 0;
     let s : State := base; (let u := s.at t; let slot := 0; decide (u.hpi.sessions.find? (·.slot = slot) = none))),
    (let t : Nat := 0;
     let s : State := withSession;
     (let u := s.at t;
      let slot := 0; (match u.hpi.sessions.find? (·.slot = slot) with | some x => true | _ => false))),
    (let code : Byte := 0; decide ((code = 0 ∨ 3 < code.toNat))),
    (let s : State := { base with hpi := { base.hpi with spiQ := [] } }; decide (s.hpi.spiQ = [])),
    (let s : State := ({ base with hpi := { base.hpi with spiQ := [⟨1, .spi, 0, 0, 1, 0, 0, [], none⟩] } } : State);
     (match s.hpi.spiQ with | r :: rest => true | _ => false)),
    (let x : Bytes := []; decide (x.length < 16)),
    (let x : Bytes := List.replicate 16 0;
     (let good : Prop := x.take 2 = [0x53, 0x47] ∧ field x 14 2 = (crc16 (x.take 14)).toNat;
      decide (16 ≤ x.length ∧ ¬good))),
    (let x : Bytes := pktF 0 4081 1 0 0;
     (let k := parsePkt x;
      (let good : Prop := x.take 2 = [0x53, 0x47] ∧ field x 14 2 = (crc16 (x.take 14)).toNat;
       (let long : Prop := 4080 < k.len ∧ k.flags.getLsbD 3 = false ∧ x.getD 2 0 = 1;
        decide (16 ≤ x.length ∧ good ∧ long))))),
    (let x : Bytes := (pktF 0 1 1 0 0).take 16;
     (let k := parsePkt x;
      (let good : Prop := x.take 2 = [0x53, 0x47] ∧ field x 14 2 = (crc16 (x.take 14)).toNat;
       (let long : Prop := 4080 < k.len ∧ k.flags.getLsbD 3 = false ∧ x.getD 2 0 = 1;
        (let len := 20 + k.len + (if k.flags.getLsbD 0 then 16 else 0);
         decide (16 ≤ x.length ∧ good ∧ ¬long ∧ x.length < len)))))),
    (let x : Bytes := pkt 1 0 0;
     (let k := parsePkt x;
      (let good : Prop := x.take 2 = [0x53, 0x47] ∧ field x 14 2 = (crc16 (x.take 14)).toNat;
       (let long : Prop := 4080 < k.len ∧ k.flags.getLsbD 3 = false ∧ x.getD 2 0 = 1;
        (let len := 20 + k.len + (if k.flags.getLsbD 0 then 16 else 0);
         decide (16 ≤ x.length ∧ good ∧ ¬long ∧ len ≤ x.length))))))].all id = true := by decide +kernel

/-- The clauses of RegisterOpcodesReadWriteAndPoll. -/
theorem test_hyps_RegisterOpcodesReadWriteAndPoll : [
    (let q : Req := rq;
     let p : Bytes := leBytes 4 0xFFFC ++ leBytes 4 1;
     let s : State := base;
     (let a := field p 0 4;
      (let n := field p 4 2;
       decide (p.length = 8 ∧ n ≤ 1019) &&
       (match badRange a n with
        | some b =>
             decide ((s.blocked q 0x100 = false ∧ s.locked 0x100 = false))
        | _ => false)))),
    (let q : Req := rq;
     let p : Bytes := leBytes 4 dmBase ++ leBytes 4 1;
     let s : State := swp;
     (let u := s.carry q;
      (let a := field p 0 4;
       (let n := field p 4 2;
        (let addrs := rangeAddrs a n;
         decide (p.length = 8 ∧ n ≤ 1019 ∧ badRange a n = none ∧ addrs.any u.mgcWaits = true ∧ (s.blocked q 0x100
               = false ∧ s.locked 0x100 = false))))))),
    (let q : Req := rq;
     let p : Bytes := leBytes 4 0x100 ++ leBytes 4 1;
     let s : State := base;
     (let u := s.carry q;
      (let a := field p 0 4;
       (let n := field p 4 2;
        (let addrs := rangeAddrs a n;
         decide (p.length = 8 ∧ n ≤ 1019 ∧ badRange a n = none ∧ addrs.any u.mgcWaits = false) &&
         (match u.regReads addrs with
          | (b, none, t) =>
               decide ((s.blocked q 0x100 = false ∧ s.locked 0x100 = false))
          | _ => false)))))),
    (let q : Req := rq;
     let p : Bytes := leBytes 4 dmBase ++ leBytes 4 1;
     let s : State :=
           ({ base with miu := { base.miu with pdev := [(dmBase, 1)], chk := [(dmBase, 1), (dmBase + 8, 1)] } } :
           State);
     (let u := s.carry q;
      (let a := field p 0 4;
       (let n := field p 4 2;
        (let addrs := rangeAddrs a n;
         decide (p.length = 8 ∧ n ≤ 1019 ∧ badRange a n = none ∧ addrs.any u.mgcWaits = false) &&
         (match u.regReads addrs with
          | (b, some e, t) =>
               decide ((s.blocked q 0x100 = false ∧ s.locked 0x100 = false))
          | _ => false)))))),
    (let x : Nat := dmBase; let v : State := damaged; (match v.mgcRead x with | (.error e, t) => true | _ => false)),
    (let x : Nat := 0x100;
     let xs : Nats := [];
     let v : State := base;
     (match v.mgcRead x with | (.ok w, t) => (let (b, e, z) := t.regReads xs; true) | _ => false)),
    (let q : Req := rq;
     let p : Bytes := leBytes 4 0xFFFC ++ leBytes 4 1 ++ leBytes 4 0;
     let s : State := base;
     (let a := field p 0 4;
      (let n := field p 4 2;
       decide (p.length = 8 + 4 * n ∧ 0 < n) &&
       (match badRange a n with
        | some b =>
             decide ((s.blocked q 0x101 = false ∧ s.locked 0x101 = false))
        | _ => false)))),
    (let q : Req := rq;
     let p : Bytes := leBytes 4 pmBase ++ leBytes 4 1 ++ leBytes 4 0;
     let s : State := { base with op := .run };
     (let u := s.carry q;
      (let a := field p 0 4;
       (let n := field p 4 2;
        decide (p.length = 8 + 4 * n ∧ 0 < n ∧ badRange a n = none ∧ u.pmRefused a (4 * n) = true ∧ (s.blocked q
              0x101 = false ∧ s.locked 0x101 = false)))))),
    (let q : Req := rq;
     let p : Bytes := leBytes 4 dmBase ++ leBytes 4 1 ++ leBytes 4 7;
     let s : State := base;
     (let u := s.carry q;
      (let a := field p 0 4;
       (let n := field p 4 2;
        (let addrs := rangeAddrs a n;
         decide (p.length = 8 + 4 * n ∧ 0 < n ∧ badRange a n = none ∧ u.pmRefused a (4 * n) = false ∧ addrs.any
               u.mgcWaits = false) &&
         (match u.regWriteRun a (toWords (p.drop 8)) with
          | (k, true, t) =>
               decide ((s.blocked q 0x101 = false ∧ s.locked 0x101 = false))
          | _ => false)))))),
    (let q : Req := rq;
     let p : Bytes := leBytes 4 dmBase ++ leBytes 4 1 ++ leBytes 4 7;
     let s : State := damaged;
     (let u := s.carry q;
      (let a := field p 0 4;
       (let n := field p 4 2;
        (let addrs := rangeAddrs a n;
         decide (p.length = 8 + 4 * n ∧ 0 < n ∧ badRange a n = none ∧ u.pmRefused a (4 * n) = false ∧ addrs.any
               u.mgcWaits = false) &&
         (match u.regWriteRun a (toWords (p.drop 8)) with
          | (k, false, t) =>
               decide ((s.blocked q 0x101 = false ∧ s.locked 0x101 = false))
          | _ => false)))))),
    (let x : Nat := dmBase;
     let w : Word := (0 : Word);
     let v : State := damaged;
     decide (mramOff x = none) && (match v.mgcWrite x w with | (false, t) => true | _ => false)),
    (let x : Nat := dmBase;
     let w : Word := (0 : Word);
     let ws : Words := [];
     let v : State := base;
     decide (mramOff x = none ∧ mramOff (x + 4) = none) &&
     (match v.mgcWrite x w with | (true, t) => (let (k, ok, z) := t.regWriteRun (x + 4) ws; true) | _ => false)),
    (let q : Req := rq;
     let p : Bytes := leBytes 4 0xFFFC ++ List.replicate 8 0;
     let s : State := base;
     (let a := field p 0 4;
      decide (p.length = 12) &&
      (match badRange a 1 with
       | some b =>
            decide ((s.blocked q 0x102 = false ∧ s.locked 0x102 = false))
       | _ => false))),
    (let q : Req := rq;
     let p : Bytes := leBytes 4 4104 ++ leBytes 4 1 ++ leBytes 4 0;
     let s : State := base;
     (let a := field p 0 4;
      decide (p.length = 12 ∧ badRange a 1 = none ∧ noModify a = true ∧ (s.blocked q 0x102 = false ∧ s.locked 0x102
            = false)))),
    (let q : Req := rq;
     let p : Bytes := leBytes 4 dmBase ++ leBytes 4 1 ++ leBytes 4 0;
     let s : State := base;
     (let u := s.carry q;
      (let a := field p 0 4;
       decide (p.length = 12 ∧ badRange a 1 = none ∧ noModify a = false ∧ u.pmRefused a 4 = false ∧ u.mgcWaits a =
             false) &&
       (match u.mgcRead a with
        | (.ok old, t) =>
             (match t.mgcWrite a ((old &&& ~~~wordAt p 4) ||| (wordAt p 8 &&& wordAt p 4)) with
              | (true, v) =>
                   decide ((s.blocked q 0x102 = false ∧ s.locked 0x102 = false))
              | _ => false)
        | _ => false)))),
    (let q : Req := rq;
     let p : Bytes := leBytes 4 0xFFFC;
     let s : State := base;
     decide (p.length % 4 = 0 ∧ p.length ≤ 4 * 1019) &&
     (let l := (toWords p).map BitVec.toNat;
      (match badAddr l with | some b => decide ((s.blocked q 0x103 = false ∧ s.locked 0x103 = false)) | _ => false))),
    (let q : Req := rq;
     let p : Bytes := leBytes 4 dmBase;
     let s : State := base;
     (let u := s.carry q;
      decide (p.length % 4 = 0 ∧ p.length ≤ 4 * 1019) &&
      (let l := (toWords p).map BitVec.toNat;
       decide (badAddr l = none ∧ l.any u.mgcWaits = false) &&
       (match u.regReads l with
        | (b, none, t) =>
             decide ((s.blocked q 0x103 = false ∧ s.locked 0x103 = false))
        | _ => false)))),
    (let q : Req := rq;
     let p : Bytes := leBytes 4 dmBase;
     let s : State := base;
     (let a := field p 0 4;
      decide (p.length = 4 ∧ badRange a 1 = none ∧ commitBlock a = none ∧ (s.blocked q 0x104 = false ∧ s.locked
            0x104 = false)))),
    (let q : Req := rq;
     let p : Bytes := leBytes 4 4104;
     let s : State := base;
     (let u := s.carry q;
      (let a := field p 0 4;
       decide (p.length = 4 ∧ badRange a 1 = none) &&
       (match commitBlock a with
        | some b =>
             decide (u.commitOf b = none ∧ (s.blocked q 0x104 = false ∧ s.locked 0x104 = false))
        | _ => false)))),
    (let q : Req := rq;
     let p : Bytes := leBytes 4 4104;
     let s : State := ({ base with commits := [⟨.pwr, [], 0⟩] } : State);
     (let u := s.carry q;
      (let a := field p 0 4;
       decide (p.length = 4 ∧ badRange a 1 = none) &&
       (match commitBlock a with
        | some b =>
             (match u.commitOf b with
              | some c =>
                   decide ((s.blocked q 0x104 = false ∧ s.locked 0x104 = false))
              | _ => false)
        | _ => false)))),
    (let q : Req := rq;
     let p : Bytes := leBytes 4 dmBase ++ List.replicate 12 0;
     let s : State := base;
     (let u := s.carry q;
      (let a := field p 0 4;
       decide (p.length = 16 ∧ badRange a 1 = none ∧ field p 12 2 ≤ 60000 ∧ u.hpi.longs = [] ∧ u.mgcWaits a =
             false) &&
       (let ms := field p 12 2;
        (let args := [a, field p 4 4, field p 8 4, u.utick + 100000 * ms, 0];
         (let w := u.accept q 0x105 args;
          (match w.mgcRead a with
           | (.ok v, t) =>
                decide (t.utick = u.utick ∧ v &&& wordAt p 4 = wordAt p 8 ∧ (s.blocked q 0x105 = false ∧
                      s.locked 0x105 = false))
           | _ => false))))))),
    (let q : Req := rq;
     let p : Bytes := leBytes 4 dmBase ++ List.replicate 4 255 ++ leBytes 4 1 ++ List.replicate 4 0;
     let s : State := base;
     (let u := s.carry q;
      (let a := field p 0 4;
       decide (p.length = 16 ∧ badRange a 1 = none ∧ field p 12 2 ≤ 60000 ∧ u.hpi.longs = [] ∧ u.mgcWaits a =
             false) &&
       (let ms := field p 12 2;
        (let args := [a, field p 4 4, field p 8 4, u.utick + 100000 * ms, 0];
         (let w := u.accept q 0x105 args;
          (match w.mgcRead a with
           | (.ok v, t) =>
                decide (t.utick = u.utick ∧ v &&& wordAt p 4 ≠ wordAt p 8 ∧ ms = 0 ∧ (s.blocked q 0x105 = false
                      ∧ s.locked 0x105 = false))
           | _ => false))))))),
    (let q : Req := rq;
     let p : Bytes := leBytes 4 dmBase ++ List.replicate 4 255 ++ leBytes 4 1 ++ [5, 0, 0, 0];
     let s : State := base;
     (let u := s.carry q;
      (let a := field p 0 4;
       decide (p.length = 16 ∧ badRange a 1 = none ∧ field p 12 2 ≤ 60000 ∧ u.hpi.longs = [] ∧ u.mgcWaits a =
             false) &&
       (let ms := field p 12 2;
        (let args := [a, field p 4 4, field p 8 4, u.utick + 100000 * ms, 0];
         (let w := u.accept q 0x105 args;
          (match w.mgcRead a with
           | (.ok v, t) =>
                decide (t.utick = u.utick ∧ v &&& wordAt p 4 ≠ wordAt p 8 ∧ ms ≠ 0 ∧ (s.blocked q 0x105 = false
                      ∧ s.locked 0x105 = false))
           | _ => false))))))),
    (let q : Req := rq;
     let s : State := ({ base with hpi := { base.hpi with longs := [⟨0x105, rq, [0, 0, 0, 0, 0], 0⟩] } } : State);
     let t : Nat := 0;
     (let v := s.at t;
      (match (v.longsOf 0x105).find? (fun l => l.req = q) with
       | some l =>
            decide (l.args.getD 3 0 ≤ v.utick)
       | _ => false))),
    (let q : Req := rq;
     let s : State := ({ base with hpi := { base.hpi with longs := [⟨0x105, rq, [0, 0, 0, 5, 0], 0⟩] } } : State);
     let t : Nat := 0;
     (let v := s.at t;
      (match (v.longsOf 0x105).find? (fun l => l.req = q) with
       | some l =>
            decide (v.utick < l.args.getD 3 0)
       | _ => false)))].all id = true := by decide +kernel

/-- The clauses of RegisterAccessesFollowTheirTypes. -/
theorem test_hyps_RegisterAccessesFollowTheirTypes : [
    (let a : Nat := 0x20000; let s : State := swp; decide (mapped a = true ∧ a < 0x100000 ∧ s.mgcWaits a = true)),
    (let a : Nat := 92;
     let s : State := base; decide (mapped a = true ∧ a < 0x100000 ∧ s.mgcWaits a = false ∧ regRow a = none)),
    (let a : Nat := 4104;
     let s : State := base;
     decide (mapped a = true ∧ a < 0x100000 ∧ s.mgcWaits a = false) &&
     (match regRow a with
      | some r =>
           decide (r.commit = true) && (match commitBlock a with | some b => true | _ => false)
      | _ => false)),
    (let a : Nat := 65620;
     let s : State := { base with op := .run };
     decide (mapped a = true ∧ a < 0x100000 ∧ s.mgcWaits a = false) &&
     (match regRow a with | some r => decide (r.commit = false ∧ r.stop = true ∧ s.op ≠ .stop) | _ => false)),
    (let a : Nat := 4096;
     let v : Word := 0;
     let s : State := base;
     decide (mapped a = true ∧ a < 0x100000 ∧ s.mgcWaits a = false) &&
     (match regRow a with
      | some r =>
           decide (r.commit = false ∧ (r.stop = false ∨ s.op = .stop) ∧ s.writeHook a v = none)
      | _ => false)),
    (let a : Nat := 65552;
     let v : Word := 0;
     let s : State := base;
     decide (mapped a = true ∧ a < 0x100000 ∧ s.mgcWaits a = false) &&
     (match regRow a with
      | some r =>
           decide (r.commit = false ∧ (r.stop = false ∨ s.op = .stop)) &&
           (match s.writeHook a v with | some t => true | _ => false)
      | _ => false)),
    (let n := 0; decide (n < 32)),
    (let n := 0; decide (n < 16)),
    (let a := 0xFFFC; decide (pairHi a = none)),
    (let s : State := ({ base with hpi := { base.hpi with ownerLock := true } } : State);
     decide (s.hpi.ownerLock = true)),
    (let s : State := swp; let a := 0x20000; decide (s.hpi.ownerLock = false ∧ mapped a = true ∧ s.mgcWaits a = true)),
    (let s : State := base;
     let a := dmBase;
     decide (s.hpi.ownerLock = false ∧ mapped a = true ∧ s.mgcWaits a = false) &&
     (match s.mgcRead a with | (.ok w, t) => true | _ => false)),
    (let s : State := base;
     let a := dmBase;
     let v := (0 : Word);
     decide (s.hpi.ownerLock = false ∧ mapped a = true ∧ s.mgcWaits a = false ∧ (memOf a ≠ 0 ∨ s.pmRefused a 4 =
           false)) &&
     (let (ok, t) := s.mgcWrite a v; true)),
    (let s : State := { base with op := .run };
     let a := pmBase; decide (memOf a = 0 ∧ s.pmRefused a 4 = true ∧ s.mgcWaits a = false))].all id = true := by decide +kernel

/-- The clauses of CommitsApplyWholeOrReject. -/
theorem test_hyps_CommitsApplyWholeOrReject : [
    (let b : Block := .pwr;
     let a : Nat := 4104;
     let s : State := base;
     decide (commitBlock a = some b ∧ s.commitOf b = none ∧ ¬(b = .se ∧ (s.se.swap.chamber = .armed ∨
           s.se.swap.chamber = .swapping)))),
    (let b : Block := .se;
     let a : Nat := 65544;
     let s : State := ({ base with se := { base.se with swap := { base.se.swap with chamber := .armed } } } : State);
     decide (commitBlock a = some b ∧ b = .se ∧ s.commitOf b = none ∧ (s.se.swap.chamber = .armed ∨ s.se.swap.chamber
           = .swapping))),
    (let b : Block := .ixe;
     let t : Nat := 0;
     let s : State := ({ base with commits := [⟨.ixe, [], 0⟩] } : State);
     (let u := s.at t; (match u.commitOf b with | some c => decide (b = .ixe) | _ => false))),
    (let b : Block := .pwr;
     let t : Nat := 0;
     let s : State := ({ base with commits := [⟨.pwr, [], 0⟩] } : State);
     (let u := s.at t; (match u.commitOf b with | some c => decide (b = .pwr) | _ => false))),
    (let b : Block := .pwr; let t : Nat := 0; let s : State := base; (let u := s.at t; decide (u.commitOf b = none))),
    (let b : Block := .pwr;
     let t : Nat := 0;
     let s : State := ({ base with commits := [⟨.pwr, [(Addr.pwrCfg, 41)], 0⟩] } : State);
     (let u := s.at t;
      (match u.commitOf b with
       | some c =>
            (match u.blockCheck c.blk c.staged with | some e => true | _ => false)
       | _ => false))),
    (let b : Block := .pwr;
     let t : Nat := 0;
     let s : State := ({ base with commits := [⟨.pwr, [], 0⟩] } : State);
     (let u := s.at t;
      (match u.commitOf b with | some c => decide (u.blockCheck c.blk c.staged = none) | _ => false))),
    (let b : Block := .pwr;
     let t : Nat := 10000000000;
     let s : State := ({ base with commits := [⟨.pwr, [], 0⟩] } : State);
     (let u := s.at t; (match u.commitOf b with | some c => decide (c.t + 1000000000 ≤ u.utick) | _ => false))),
    (let b : Block := .pwr;
     let t : Nat := 0;
     let s : State := ({ base with commits := [⟨.pwr, [], 0⟩] } : State);
     (let u := s.at t; (match u.commitOf b with | some c => decide (u.utick < c.t + 1000000000) | _ => false)))].all id = true := by decide +kernel

/-- The clauses of AWriteToAPendingCommitIsIgnored. -/
theorem test_hyps_AWriteToAPendingCommitIsIgnored : [
    (let a : Nat := 4104;
     let b : Block := .pwr;
     let s : State := ({ base with commits := [⟨.pwr, [], 0⟩] } : State);
     decide (commitBlock a = some b) && (match s.commitOf b with | some c => true | _ => false))].all id = true := by decide +kernel

/-- The clauses of ACommitReplacesItsGroupOnly. -/
theorem test_hyps_ACommitReplacesItsGroupOnly : [
    (let c : Commit := (⟨.ixe, [], 0⟩ : Commit);
     let a : Nat := 0;
     decide ((∀ e ∈ c.staged, inGroup c.blk e.1 = true) ∧ (c.staged.map Prod.fst).Nodup ∧ inGroup c.blk a = false)),
    (let c : Commit := (⟨.ixe, [], 0⟩ : Commit);
     let a : Nat := 0x30000;
     decide ((∀ e ∈ c.staged, inGroup c.blk e.1 = true) ∧ (c.staged.map Prod.fst).Nodup ∧ inGroup c.blk a = true))].all id = true := by decide +kernel

/-- The clauses of ManagementTickStartsWaitingCommands. -/
theorem test_hyps_ManagementTickStartsWaitingCommands : [
    (let c : Cmd := ⟨0, rq, []⟩;
     decide (c.opcode = 0x0000 ∧ (base.blocked c.req 0 = false ∧ base.locked 0 = false) ∧ c.data.length ≤ 4076))].all id = true := by decide +kernel

/-- The clauses of HardwareQueuesPushAndPop. -/
theorem test_hyps_HardwareQueuesPushAndPop : [
    (let q : Req := rq;
     let p : Bytes := [3, 0, 1, 0];
     let s : State := swp;
     (let u := s.carry q;
      (let n := (p.getD 0 0).toNat;
       decide (p.length = 4 ∧ n ≤ 31 ∧ (p.getD 1 0).toNat ≤ 1 ∧ field p 2 2 ≤ 509 ∧ u.swapping = true ∧ (s.blocked
             q 0xD01 = false ∧ s.locked 0xD01 = false))))),
    (let q : Req := rq;
     let p : Bytes := [3, 0, 1, 0];
     let s : State := base;
     (let u := s.carry q;
      (let n := (p.getD 0 0).toNat;
       decide (p.length = 4 ∧ n ≤ 31 ∧ (p.getD 1 0).toNat ≤ 1 ∧ field p 2 2 ≤ 509 ∧ u.swapping = false) &&
       (match u.quePopAll n (p.getD 1 0).toNat (field p 2 2) with
        | (true, vs, t) =>
             decide ((s.blocked q 0xD01 = false ∧ s.locked 0xD01 = false))
        | _ => false)))),
    (let q : Req := rq;
     let p : Bytes := [3, 0, 1, 0];
     let s : State := qon damaged 3 none 1;
     (let u := s.carry q;
      (let n := (p.getD 0 0).toNat;
       decide (p.length = 4 ∧ n ≤ 31 ∧ (p.getD 1 0).toNat ≤ 1 ∧ field p 2 2 ≤ 509 ∧ u.swapping = false) &&
       (match u.quePopAll n (p.getD 1 0).toNat (field p 2 2) with
        | (false, vs, t) =>
             decide ((s.blocked q 0xD01 = false ∧ s.locked 0xD01 = false))
        | _ => false)))),
    (let q : Req := rq;
     let p : Bytes := List.replicate 4 0;
     let s : State := base;
     (let u := s.carry q;
      (let mask := (List.range 32).filter (field p 0 4).testBit;
       decide (p.length = 4 ∧ (∀ k ∈ mask, (u.queue k).opened = none ∧ u.qHasDma k = false) ∧ (s.blocked q 0xD04 =
             false ∧ s.locked 0xD04 = false))))),
    (let q : Req := rq;
     let p : Bytes := [8, 0, 0, 0];
     let s : State := qon base 3 (some (0xF0, 0)) 0;
     (let u := s.carry q;
      (let mask := (List.range 32).filter (field p 0 4).testBit;
       decide (p.length = 4 ∧ (∃ k ∈ mask, (u.queue k).opened ≠ none ∨ u.qHasDma k = true) ∧ (s.blocked q 0xD04 =
             false ∧ s.locked 0xD04 = false))))),
    (let q : Req := rq;
     let s : State := swp;
     (let u := s.carry q; decide (u.swapping = true ∧ (s.blocked q 0xD02 = false ∧ s.locked 0xD02 = false)))),
    (let q : Req := rq;
     let p : Bytes := [3, 0, 0, 0];
     let s : State := qon base 3 (some (0xF1, 0)) 0;
     (let u := s.carry q;
      (let n := (p.getD 0 0).toNat;
       (let lenOk := 4 ≤ p.length ∧ p.length % 4 = 0 ∧ p.length ≤ 4 + 4 * 1018;
        decide (lenOk ∧ n ≤ 31 ∧ u.swapping = false ∧ u.qForeign n 0xF0 = true ∧ (s.blocked q 0xD02 = false ∧
              s.locked 0xD02 = false)))))),
    (let q : Req := rq;
     let p : Bytes := [3, 0, 0, 0];
     let s : State := base;
     (let u := s.carry q;
      (let n := (p.getD 0 0).toNat;
       (let lenOk := 4 ≤ p.length ∧ p.length % 4 = 0 ∧ p.length ≤ 4 + 4 * 1018;
        decide (lenOk ∧ n ≤ 31 ∧ u.swapping = false ∧ u.qForeign n 0xF0 = false ∧ u.qEn n = false ∧ (s.blocked q
              0xD02 = false ∧ s.locked 0xD02 = false)))))),
    (let q : Req := rq;
     let p : Bytes := [3, 0, 0, 0, 1, 2, 3, 4];
     let s : State := qon base 3 none 0;
     (let u := s.carry q;
      (let n := (p.getD 0 0).toNat;
       (let ws := toWords (p.drop 4);
        (let lenOk := 4 ≤ p.length ∧ p.length % 4 = 0 ∧ p.length ≤ 4 + 4 * 1018;
         decide (lenOk ∧ n ≤ 31 ∧ u.swapping = false ∧ u.qForeign n 0xF0 = false ∧ u.qEn n = true) &&
         (match u.qPushAll n 0xF0 ws with
          | (k, .done, t) =>
               decide ((s.blocked q 0xD02 = false ∧ s.locked 0xD02 = false))
          | _ => false)))))),
    (let q : Req := rq;
     let p : Bytes := [3, 0, 0, 0, 1, 2, 3, 4];
     let s : State := qon base 3 none 8;
     (let u := s.carry q;
      (let n := (p.getD 0 0).toNat;
       (let ws := toWords (p.drop 4);
        (let lenOk := 4 ≤ p.length ∧ p.length % 4 = 0 ∧ p.length ≤ 4 + 4 * 1018;
         decide (lenOk ∧ n ≤ 31 ∧ u.swapping = false ∧ u.qForeign n 0xF0 = false ∧ u.qEn n = true) &&
         (let (k, r, t) := u.qPushAll n 0xF0 ws;
          decide (r ≠ .done ∧ (s.blocked q 0xD02 = false ∧ s.locked 0xD02 = false)))))))),
    (let q : Req := rq;
     let p : Bytes := [3, 0, 0, 0, 1, 2, 3, 4];
     let s : State := qon base 3 none 0;
     (let u := s.carry q;
      (let n := (p.getD 0 0).toNat;
       (let ws := toWords (p.drop 4);
        (let lenOk := 4 ≤ p.length ∧ p.length % 4 = 0 ∧ p.length ≤ 4 + 4 * 1018;
         decide (lenOk ∧ n ≤ 31 ∧ u.swapping = false ∧ u.qForeign n 0xF0 = false ∧ u.qEn n = true) &&
         (match u.qPacket n 0xF0 ws with
          | (k, .done, t) =>
               decide ((s.blocked q 0xD03 = false ∧ s.locked 0xD03 = false))
          | _ => false)))))),
    (let q : Req := rq;
     let p : Bytes := [3, 0, 0, 0, 1, 2, 3, 4, 1, 2, 3, 4];
     let s : State := qon base 3 none 7;
     (let u := s.carry q;
      (let n := (p.getD 0 0).toNat;
       (let ws := toWords (p.drop 4);
        (let lenOk := 4 ≤ p.length ∧ p.length % 4 = 0 ∧ p.length ≤ 4 + 4 * 1018;
         decide (lenOk ∧ n ≤ 31 ∧ u.swapping = false ∧ u.qForeign n 0xF0 = false ∧ u.qEn n = true) &&
         (match u.qPacket n 0xF0 ws with
          | (k, .truncated, t) =>
               decide ((s.blocked q 0xD03 = false ∧ s.locked 0xD03 = false))
          | _ => false)))))),
    (let q : Req := rq;
     let s : State := ({ base with hpi := { base.hpi with longs := [⟨0xD02, rq, [3], 0⟩] } } : State);
     let t : Nat := 0;
     (let v := s.at t;
      (match v.hpi.longs.find? (fun l => (l.opcode = 0xD02 || l.opcode = 0xD03) && l.req = q) with
       | some l =>
            decide (v.utick < l.t + 100)
       | _ => false))),
    (let q : Req := rq;
     let s : State := ({ base with hpi := { base.hpi with longs := [⟨0xD02, rq, [3], 0⟩] } } : State);
     let t : Nat := 1000;
     (let v := s.at t;
      (match v.hpi.longs.find? (fun l => (l.opcode = 0xD02 || l.opcode = 0xD03) && l.req = q) with
       | some l =>
            decide (l.t + 100 ≤ v.utick)
       | _ => false))),
    (let n : Nat := 31; let s : State := swp; decide (n < 32 ∧ s.swapping = true)),
    (let n : Nat := 31; let s : State := base; decide (n < 32 ∧ s.swapping = false ∧ s.qEn n = false)),
    (let n : Nat := 31;
     let s : State := qon base 31 none 7;
     decide (n < 32) &&
     (let e := s.queue n; decide (s.swapping = false ∧ s.qEn n = true ∧ e.opened = none ∧ e.used < s.qDepth n))),
    (let n : Nat := 31;
     let s : State := (let s := qon base 31 none 8; s.setQueue 31 { s.queue 31 with overrun := true });
     decide (n < 32) &&
     (let e := s.queue n;
      decide (s.swapping = false ∧ s.qEn n = true ∧ e.opened = none ∧ s.qDepth n ≤ e.used ∧ e.overrun = true))),
    (let n : Nat := 31;
     let s : State := qon base 31 none 8;
     decide (n < 32) &&
     (let e := s.queue n;
      decide (s.swapping = false ∧ s.qEn n = true ∧ e.opened = none ∧ s.qDepth n ≤ e.used ∧ e.overrun = false))),
    (let n : Nat := 31;
     let s : State := qon base 31 (some (0xF1, 8)) 8;
     decide (n < 32) &&
     (let e := s.queue n;
      decide (s.swapping = false ∧ s.qEn n = true) &&
      (match e.opened with | some (o, m) => decide (o ≠ 0xF0) | _ => false))),
    (let n : Nat := 31;
     let s : State := qon base 31 none 0;
     decide (n < 32) && (let e := s.queue n; decide (s.swapping = false ∧ s.qEn n = true ∧ e.marks = []))),
    (let n : Nat := 31;
     let rd : Reader := .mgc;
     let s : State := qon base 31 none 1;
     decide (n < 32) &&
     (let e := s.queue n;
      decide (s.swapping = false ∧ s.qEn n = true) &&
      (match e.marks with
       | m :: ms =>
            decide (m.remain < 65536) &&
            (match s.dmRead (readerWho rd) (s.qBase n + 4 * (e.rd % s.qDepth n)) 4 with
             | (some bs, t) =>
                  decide (bs.length = 4)
             | _ => false)
       | _ => false))),
    (let n : Nat := 31;
     let s : State := ({ base with qWaits := [⟨3, 0, 0, [], none, 0⟩] } : State);
     decide (n < 32) &&
     (let u (t : Nat) : State := s.at t;
      let port := 3;
      let t := 1000;
      (match (u t).qWaits.find? (fun w => w.port = port && w.t + 100 ≤ (u t).utick) with
       | some w =>
            true
       | _ => false))),
    (let n : Nat := 31;
     let s : State := ({ base with qWaits := [⟨3, 0, 0, [], none, 0⟩] } : State);
     decide (n < 32) &&
     (let u (t : Nat) : State := s.at t;
      let port := 3;
      let t := 0; decide ((u t).qWaits.find? (fun w => w.port = port && w.t + 100 ≤ (u t).utick) = none)))].all id = true := by decide +kernel

/-- The clauses of DmaChannelsStartStopAndMove. -/
theorem test_hyps_DmaChannelsStartStopAndMove : [
    (let c : Nat := 31;
     let s : State := (lvw base (Addr.dmaCfg 31) 1).wr (Addr.dmaLen 31) 1;
     decide (c < 32 ∧ s.dmaActive c = false ∧ s.lf (Addr.dmaCfg c) 0 0 = 1 ∧ s.fld (Addr.dmaLen c) 23 0 ≠ 0)),
    (let c : Nat := 0; let s : State := base; decide (c < 32 ∧ (s.dmaActive c = true ∨ s.lf (Addr.dmaCfg c) 0 0 = 0))),
    (let c : Nat := 31;
     let s : State := ({ base.wr (Addr.dmaStat 31) 1 with dmas := [(31, {})] } : State);
     decide (c < 32 ∧ s.dmaActive c = true)),
    (let c : Nat := 0;
     let s : State := { base with se := { base.se with swap := { base.se.swap with chamber := .swapping } } };
     decide (c < 32 ∧ s.se.swap.chamber = .swapping)),
    (let c : Nat := 31;
     let s : State :=
           ({ base.wr (Addr.dmaStat 31) 1 with dmas := [(31, { src := dmBase, dst := dmBase + 64, len := 4 })] } :
           State);
     decide (c < 32) &&
     let k := 0;
     let src := 0;
     let dst := 64;
     let len := 4;
     decide (s.dmaActive c = true ∧ s.se.swap.chamber ≠ .swapping ∧ s.miu = {} ∧ s.dmaKind c = 0 ∧ (s.dma c).src =
           dmBase + src ∧ (s.dma c).dst = dmBase + dst ∧ (s.dma c).len = len ∧ (s.dma c).gather = [] ∧ (s.dma
           c).opened = false ∧ src % 4 = 0 ∧ dst % 4 = 0 ∧ src + 4 * len ≤ 0x800000 ∧ dst + 4 * len ≤ 0x800000 ∧ (src
           + 4 * len ≤ dst ∨ dst + 4 * len ≤ src) ∧ s.fld (Addr.dmaCount c) 23 0 = k ∧ k < len))].all id = true := by decide +kernel

/-- The clauses of MemoryIntegrityEventsAndOpcodes. -/
theorem test_hyps_MemoryIntegrityEventsAndOpcodes : [
    (let a : Nat := dmBase;
     let s : State := runs (ctxOf []);
     decide (memOf a ≠ 3 ∧ a % 8 = 0 ∧ sget 0 s.miu.chk a = 0) &&
     (match s.se.active with | some n => true | _ => false)),
    (let s : State := base; (let (k, u) := s.free; true)),
    (let a : Nat := 0x20000;
     let s : State := base; decide (memOf (a / 8 * 8) = 3) && (match s.parUnit a with | some k => true | _ => false)),
    (let v : Word := 0;
     let s : State := { base with op := .run }; decide ((s.op ≠ .stop ∨ bitsOf v 2 1 = 3 ∨ 64 < bitsOf v 31 25))),
    (let v : Word := 0x02000000;
     let s : State := { base with op := .stop };
     decide (s.op = .stop ∧ bitsOf v 2 1 ≠ 3 ∧ 1 ≤ bitsOf v 31 25 ∧ bitsOf v 31 25 ≤ 64)),
    (let s : State := base; let m := 0; decide (s.miu.splice.find? (fun e => memOf e.addr = m) = none)),
    (let s : State :=
           ({ base with miu := { base.miu with splice := [⟨dmBase, List.replicate 8 none, .mgcCommand⟩] } } : State);
     let m := memOf dmBase;
     (match s.miu.splice.find? (fun z => memOf z.addr = m) with
      | some e =>
           decide (s.pageBad (pageOf e.addr) = false) &&
           (match ({ s with miu := { s.miu with splice := s.miu.splice.filter (·.addr ≠ e.addr) } } : State).readMem
                 e.addr with
            | (some d, t) =>
                 true
            | _ => false)
      | _ => false)),
    (let q : Req := rq;
     let p : Bytes := leBytes 4 pmBase ++ [0, 1, 0, 0];
     let s : State := ((base.wr Addr.miuTest 0x02000000).setBit Addr.miuStat 2 true);
     (let u := s.carry q;
      (let a := field p 0 4;
       (let what := field p 4 1;
        decide (p.length = 8 ∧ what = 0 ∧ field p 5 1 ≤ 254 ∧ u.bit Addr.miuStat 2 = true ∧ u.inTest 0 a (field p
              5 1) = true ∧ u.swapping = false ∧ (s.blocked q 0x803 = false ∧ s.locked 0x803 = false)))))),
    (let q : Req := rq;
     let p : Bytes := leBytes 4 pmBase ++ [0, 3, 0, 0] ++ List.replicate 12 0;
     let s : State := ((base.wr Addr.miuTest 0x02000000).setBit Addr.miuStat 2 true);
     (let u := s.carry q;
      (let a := field p 0 4;
       (let what := field p 4 1;
        decide (p.length = 20 ∧ what = 0 ∧ field p 5 1 % 4 = 3 ∧ u.bit Addr.miuStat 2 = true ∧ u.inTest 0 a 1 =
              true ∧ u.miu.splice = [] ∧ u.pmRefused a 8 = false ∧ u.swapping = false ∧ (s.blocked q 0x804 = false
              ∧ s.locked 0x804 = false)))))),
    (let q : Req := rq;
     let p : Bytes := leBytes 4 dmBase ++ leBytes 4 4096 ++ [0, 0, 0, 0];
     let s : State := { base with miu := { base.miu with scrub := none } };
     (let u := s.carry q;
      (let a := field p 0 4;
       (let n := field p 4 4;
        decide (p.length = 12 ∧ oneWindow a n = true ∧ n ≠ 0 ∧ (p.getD 8 0).getLsbD 0 = false ∧ u.miu.scrub = none
              ∧ (s.blocked q 0x801 = false ∧ s.locked 0x801 = false)))))),
    (let q : Req := rq;
     let p : Bytes := leBytes 4 dmBase ++ leBytes 4 4096 ++ [0, 0, 0, 0];
     let s : State := ({ base with miu := { base.miu with scrub := some ⟨[], 0, false, 0, 0, 0, 0, 0, 0, false⟩ } } :
           State);
     (let u := s.carry q;
      (let a := field p 0 4;
       (let n := field p 4 4;
        decide (p.length = 12 ∧ oneWindow a n = true ∧ (p.getD 8 0).getLsbD 0 = false ∧ u.miu.scrub ≠ none ∧
              (s.blocked q 0x801 = false ∧ s.locked 0x801 = false)))))),
    (let q : Req := rq;
     let p : Bytes := [];
     let s : State := base; decide (p = [] ∧ (s.blocked q 0x802 = false ∧ s.locked 0x802 = false))),
    (let s : State := { base with miu := { base.miu with scrub := none } }; decide (s.miu.scrub = none)),
    (let s : State :=
           ({ base with miu := { base.miu with scrub := some ⟨[dmBase, dmBase + 512], 0, false, 0, 0, 0, 0, 0, 0, false⟩ } }
           : State);
     (match s.miu.scrub with
      | some k =>
           (match k.pages with
            | page :: next :: rest =>
                 decide (k.abort = false ∧ s.pageClean page = true ∧ sget 0 s.miu.pdev page = 0 ∧ sget 0 s.miu.qdev
                       page = 0 ∧ k.pass < 3)
            | _ => false)
      | _ => false)),
    (let s : State :=
           ({ base with miu := { base.miu with scrub := some ⟨[dmBase], 0, false, 0, 0, 0, 0, 0, 0, false⟩ } } :
           State);
     (match s.miu.scrub with
      | some k =>
           (match k.pages with
            | [page] =>
                 decide (k.abort = false ∧ s.pageClean page = true ∧ sget 0 s.miu.pdev page = 0 ∧ sget 0 s.miu.qdev
                       page = 0)
            | _ => false)
      | _ => false))].all id = true := by decide +kernel

/-- The clauses of EventRecorderAndItsOpcodes. -/
theorem test_hyps_EventRecorderAndItsOpcodes : [
    (let s : State := { base with evr := { base.evr with hq := [] } }; decide ((s.evr.hq = [] ∨ s.evr.frozen = true))),
    (let s : State := ({ base with evr := { base.evr with hq := [⟨0, 1, 0, 0, 0, 0⟩] } } : State);
     (match s.evr.hq with
      | r :: rest =>
           decide (s.evr.frozen = false ∧ s.evr.drain = none ∧ s.evr.lost = 0 ∧ s.wlock = false ∧ r.code ≠ 0x285)
      | _ => false)),
    (let t : Nat := 0; let win := 0; decide (winNs win ≠ 0 ∧ t % winNs win = 0)),
    (let t : Nat := 0;
     let s : State := { base with evr := { base.evr with frozen := false } };
     (let u := s.at t; decide (u.evr.frozen = false))),
    (let s : State := { base with evr := { base.evr with frozen := false } }; decide (s.evr.frozen = false)),
    (let s : State := { base with evr := { base.evr with frozen := true, hq := [] } };
     decide (s.evr.frozen = true ∧ s.evr.hq = [])),
    (let s : State := ({ base with evr := { base.evr with frozen := true, hq := [⟨0, 1, 0, 0, 0, 0⟩] } } : State);
     decide (s.evr.frozen = true ∧ s.evr.hq ≠ [])),
    (let t : Nat := 10000000000;
     let s : State := ({ base with evr := { base.evr with frozen := true } } : State);
     (let u := s.at t; decide (u.evr.frozen = true ∧ u.evr.frozenAt + 1000000000 ≤ u.utick))),
    (let t : Nat := 0;
     let s : State := { base with evr := { base.evr with frozen := false } };
     (let u := s.at t; decide ((u.evr.frozen = false ∨ u.utick < u.evr.frozenAt + 1000000000)))),
    (let q : Req := rq;
     let p : Bytes := [];
     let s : State := { base with op := .stop };
     (let u := s.carry q; decide (p = [] ∧ u.op = .stop ∧ (s.blocked q 0xA04 = false ∧ s.locked 0xA04 = false)))),
    (let q : Req := rq;
     let p : Bytes := [];
     let s : State := { base with op := .run };
     (let u := s.carry q; decide (p = [] ∧ u.op ≠ .stop ∧ (s.blocked q 0xA04 = false ∧ s.locked 0xA04 = false)))),
    (let q : Req := rq;
     let p : Bytes := leBytes 4 0 ++ [128, 0, 0, 0];
     let s : State := base;
     decide (p.length = 8 ∧ 127 < field p 4 1 ∧ (s.blocked q 0xA01 = false ∧ s.locked 0xA01 = false))),
    (let q : Req := rq;
     let p : Bytes := List.replicate 8 0;
     let s : State := base;
     (let u := s.carry q;
      decide (p.length = 8 ∧ field p 4 1 ≤ 127 ∧ field p 0 4 = u.rdN Addr.evrRseq ∧ (s.blocked q 0xA01 = false ∧
            s.locked 0xA01 = false)))),
    (let q : Req := rq;
     let p : Bytes := leBytes 4 0 ++ [127, 0, 0, 0];
     let s : State := (let s := base.wr Addr.evrRseq 1; let b : Bytes := List.replicate 29 0;
           { s with mram := (((List.range 2).map fun i => (8192 + 29 + i, (leBytes 2 (crc16 b).toNat).getD i 0)).filter fun e => e.2 ≠ 0) ++ [(8192 + 31, 0xA5)] });
     (let u := s.carry q;
      decide (p.length = 8 ∧ 1 ≤ field p 4 1 ∧ field p 4 1 ≤ 127) &&
      (let x := field p 0 4;
       decide (u.rdN Addr.evrRseq = x + 1 ∧ u.slotFlagged (x % 4096) = false ∧ u.slotRseq (x % 4096) = some x ∧
             (s.blocked q 0xA01 = false ∧ s.locked 0xA01 = false))))),
    (let q : Req := rq;
     let p : Bytes := leBytes 4 0 ++ [127, 0, 0, 0];
     let s : State := base.wr Addr.evrRseq 1;
     (let u := s.carry q;
      decide (p.length = 8 ∧ 1 ≤ field p 4 1 ∧ field p 4 1 ≤ 127) &&
      (let x := field p 0 4;
       decide (u.rdN Addr.evrRseq = x + 1 ∧ u.slotFlagged (x % 4096) = false ∧ u.slotRseq (x % 4096) ≠ some x ∧
             (s.blocked q 0xA01 = false ∧ s.locked 0xA01 = false)))))].all id = true := by decide +kernel

/-- The clauses of TasksAreTriggeredAndReleased. -/
theorem test_hyps_TasksAreTriggeredAndReleased : [
    (let v : Word := 0; let s : State := base; decide (s.userEvent (bitsOf v 7 0) = false)),
    (let n : Nat := 20;
     let v : Word := 20;
     let s : State := (let s := evTask base 20; { s with op := .run });
     decide (bitsOf v 7 0 = n ∧ s.userEvent n = true ∧ s.op = .run ∧ s.se.leaving = none ∧ s.se.pfail = false ∧
           s.se.starting = false ∧ s.trigHeld = false ∧ s.se.holds = [] ∧ s.twl.jphase ≠ 2) &&
     (let c := s.ctx n; decide ((c.st = .waiting ∨ c.st = .disabled)))),
    (let n : Nat := 20;
     let v : Word := 20;
     let s : State := (let s := evTask base 20; ({ s with op := .run } : State).setCtx 20 { st := .running });
     decide (bitsOf v 7 0 = n ∧ s.userEvent n = true ∧ s.op = .run ∧ s.se.leaving = none ∧ s.se.pfail = false ∧
           s.se.starting = false ∧ s.trigHeld = false ∧ s.se.holds = [] ∧ s.twl.jphase ≠ 2) &&
     (let c := s.ctx n; decide (c.st ≠ .waiting ∧ c.st ≠ .disabled ∧ c.pend = false))),
    (let n : Nat := 20;
     let v : Word := 20;
     let s : State := (let s := evTask base 20; ({ s with op := .run } : State).setCtx 20
           { st := .running, pend := true });
     decide (bitsOf v 7 0 = n ∧ s.userEvent n = true ∧ s.op = .run ∧ s.se.leaving = none ∧ s.se.pfail = false ∧
           s.se.starting = false ∧ s.trigHeld = false ∧ s.se.holds = [] ∧ s.twl.jphase ≠ 2) &&
     (let c := s.ctx n; decide (c.st ≠ .waiting ∧ c.st ≠ .disabled ∧ c.pend = true))),
    (let t : Nat := 5; decide (t % 10000 ≠ 0)),
    (let t : Nat := 0;
     let s : State :=
           { base with role := .solo, twl := { base.twl with jphase := 0 }, op := .run, se := { base.se with starting := false, leaving := none, pfail := false } };
     (let u := s.at t;
      decide (t % 10000 = 0 ∧ u.role = .solo ∧ u.twl.jphase = 0 ∧ u.op = .run ∧ u.se.starting = false ∧ u.se.leaving
            = none ∧ u.se.pfail = false))),
    (let t : Nat := 0;
     let s : State :=
           { base with role := .solo, twl := { base.twl with jphase := 0 }, op := .run, se := { base.se with starting := true } };
     (let u := s.at t;
      decide (t % 10000 = 0 ∧ u.role = .solo ∧ u.twl.jphase = 0 ∧ u.op = .run ∧ u.se.starting = true))),
    (let t : Nat := 0;
     let s : State := { base with role := .solo, twl := { base.twl with jphase := 0 }, op := .stop };
     (let u := s.at t; decide (t % 10000 = 0 ∧ u.role = .solo ∧ u.twl.jphase = 0 ∧ (u.op = .stop ∨ u.op = .hold)))),
    (let t : Nat := 0;
     let g : Trigger := ⟨1, 0, 18⟩;
     let s : State := base;
     (let u := s.at t; decide (u.se.trigQ.find? (fun x => crossingOf x = crossingOf g) ≠ some g))),
    (let t : Nat := 0;
     let g : Trigger := ⟨1, 0, 18⟩;
     let s : State := ({ base with se := { base.se with trigQ := [⟨1, 0, 18⟩] } } : State);
     (let u := s.at t; decide (u.se.trigQ.find? (fun x => crossingOf x = crossingOf g) = some g)))].all id = true := by decide +kernel

/-- The clauses of SnapshotsAndPublications. -/
theorem test_hyps_SnapshotsAndPublications : [
    (let n : Nat := 20;
     let s : State := ({ base with se := { base.se with copyQ := [20] } } : State);
     decide (s.se.copying = none ∧ s.se.imgWaits = [] ∧ s.nextCopy = some n ∧ (∀ m ∈ s.twl.send, m.ctx ≠ n))),
    (let s : State := ({ base with se := { base.se with copying := some 20 } } : State); decide (s.se.copying ≠ none)),
    (let n : Nat := 20;
     let s : State := ({ base with se := { base.se with copying := some 20 } } : State);
     decide (s.se.copying = some n)),
    (let n : Nat := 20; let s : State := base; decide (s.se.copying ≠ some n)),
    (let s : State := ({ base with se := { base.se with imgWaits := [{ src := .fio, cells := [] }] } } : State);
     let t := 0;
     (let u := s.at t;
      (match u.se.imgWaits with
       | w :: ws =>
            decide (u.se.copying = none ∧ w.lost = none ∧ w.lat = none ∧ (∀ x ∈ u.se.imgBack, x.src ≠ w.src))
       | _ => false))),
    (let s : State := base; let t := 0; (let u := s.at t; decide ((u.se.copying ≠ none ∨ u.se.imgWaits = [])))),
    (let s : State := ({ base with se := { base.se with imgWaits := [{ src := .fio, cells := [] }] } } : State);
     let t := 0;
     (let u := s.at t;
      let src := ImgSource.ixeRecord; (match u.se.imgWaits with | w :: ws => decide (w.src ≠ src) | _ => false))),
    (let n : Nat := 20;
     let t : Nat := 0; let s : State := base; (let u := s.at t; decide ((u.ctx n).st ≠ .publishing))),
    (let n : Nat := 20;
     let t : Nat := 0;
     let s : State := base.setCtx 20 { st := .publishing };
     (let u := s.at t;
      (let ls := u.mapLines n true;
       decide ((u.ctx n).st = .publishing ∧ u.op ≠ .fault) &&
       (match u.dmRead .seData (u.lf (Addr.ctxBuf n) 26 16 * 4096) (64 * ls.length) with
        | (some d, v) =>
             true
        | _ => false)))),
    (let n : Nat := 20;
     let t : Nat := 0;
     let s : State := (lvw damaged (Addr.seMap 20 32) 1).setCtx 20 { st := .publishing };
     (let u := s.at t;
      (let ls := u.mapLines n true;
       decide ((u.ctx n).st = .publishing ∧ u.op ≠ .fault) &&
       (match u.dmRead .seData (u.lf (Addr.ctxBuf n) 26 16 * 4096) (64 * ls.length) with
        | (none, v) =>
             true
        | _ => false)))),
    (let n : Nat := 20;
     let t : Nat := 0;
     let s : State := lvw base (Addr.seMap 20 32) 1;
     (let u := s.at t;
      (let ls := u.mapLines n true;
       let d : Bytes := List.replicate 64 1;
       decide (ls.Nodup ∧ d.length = 64 * ls.length) && let i := 0; let j := 63; decide (i < ls.length ∧ j < 64)))),
    (let n : Nat := 20;
     let t : Nat := 0;
     let s : State := base;
     (let u := s.at t;
      (let ls := u.mapLines n true;
       let d : Bytes := []; decide (ls.Nodup ∧ d.length = 64 * ls.length) && let x := 0; decide (x / 64 ∉ ls))))].all id = true := by decide +kernel

/-- The clauses of ScanEngineOpcodesAndRegisters. -/
theorem test_hyps_ScanEngineOpcodesAndRegisters : [
    (let n : Nat := 0; decide (n < 256)),
    (let s : State := base; decide ((s.se.ctxs.map Prod.fst).Nodup)),
    (let q : Req := rq;
     let p : Bytes := List.replicate 20 0;
     let s : State := base; decide (p.length = 20 ∧ (s.blocked q 0x200 = false ∧ s.locked 0x200 = false))),
    (let q : Req := rq;
     let b : Byte := 0;
     let s : State := base;
     decide ((b.toNat < 16 ∨ 159 < b.toNat) ∧ (s.blocked q 0x201 = false ∧ s.locked 0x201 = false))),
    (let q : Req := rq;
     let b : Byte := 159;
     let s : State := base;
     (let u := s.carry q;
      decide (16 ≤ b.toNat ∧ b.toNat ≤ 159 ∧ (u.userEvent b.toNat = false ∨ u.op ≠ .run) ∧ (s.blocked q 0x201 =
            false ∧ s.locked 0x201 = false)))),
    (let q : Req := rq;
     let b : Byte := 159;
     let s : State := (let s := evTask base 159; { s with op := .run });
     (let u := s.carry q;
      decide (16 ≤ b.toNat ∧ b.toNat ≤ 159 ∧ u.userEvent b.toNat = true ∧ u.op = .run ∧ (s.blocked q 0x201 = false ∧
            s.locked 0x201 = false)))),
    (let q : Req := rq;
     let p : Bytes := List.replicate 4 0;
     let s : State := base; decide (p.length = 4 ∧ (s.blocked q 0x203 = false ∧ s.locked 0x203 = false)))].all id = true := by decide +kernel

/-- The clauses of StateChangesAreRequestedAndReached. -/
theorem test_hyps_StateChangesAreRequestedAndReached : [
    (let q : Req := rq;
     let b : Byte := 4;
     let target : OpState := .hold;
     let s : State := { base with op := .boot };
     (let u := s.carry q;
      decide (((b.toNat = 2 ∧ target = .stop) ∨ (b.toNat = 3 ∧ target = .run) ∨ (b.toNat = 4 ∧ target = .hold)) ∧
            (u.op = .fault ∨ u.op = .recovery ∨ u.op = .boot)))),
    (let q : Req := rq;
     let b : Byte := 4;
     let target : OpState := .hold;
     let s : State := { base with role := .tracking };
     (let u := s.carry q;
      decide (((b.toNat = 2 ∧ target = .stop) ∨ (b.toNat = 3 ∧ target = .run) ∨ (b.toNat = 4 ∧ target = .hold)) ∧
            (u.op = .stop ∨ u.op = .run ∨ u.op = .hold) ∧ (u.role = .tracking ∨ u.role = .joining)))),
    (let q : Req := rq;
     let b : Byte := 3;
     let target : OpState := .run;
     let s : State :=
           { base with op := .stop, role := .solo, fwu := { base.fwu with setinc := false }, se := { base.se with program := false } };
     (let u := s.carry q;
      decide (((b.toNat = 2 ∧ target = .stop) ∨ (b.toNat = 3 ∧ target = .run) ∨ (b.toNat = 4 ∧ target = .hold)) ∧
            (u.op = .stop ∨ u.op = .run ∨ u.op = .hold) ∧ u.role = .solo ∧ u.fwu.setinc = false ∧ target = .run ∧
            u.se.program = false))),
    (let q : Req := rq;
     let b : Byte := 4;
     let target : OpState := .hold;
     let s : State := ({ base with se := { base.se with change := some ⟨.run, 0⟩ } } : State);
     (let u := s.carry q;
      decide (((b.toNat = 2 ∧ target = .stop) ∨ (b.toNat = 3 ∧ target = .run) ∨ (b.toNat = 4 ∧ target = .hold)) ∧
            (u.op = .stop ∨ u.op = .run ∨ u.op = .hold) ∧ u.role = .solo ∧ u.fwu.setinc = false ∧ (target ≠ .run ∨
            u.se.program = true) ∧ u.changing = true))),
    (let q : Req := rq;
     let b : Byte := 4;
     let target : OpState := .hold;
     let s : State := { base with op := .hold };
     (let u := s.carry q;
      decide (((b.toNat = 2 ∧ target = .stop) ∨ (b.toNat = 3 ∧ target = .run) ∨ (b.toNat = 4 ∧ target = .hold)) ∧
            (u.op = .stop ∨ u.op = .run ∨ u.op = .hold) ∧ u.role = .solo ∧ u.fwu.setinc = false ∧ (target ≠ .run ∨
            u.se.program = true) ∧ u.changing = false ∧ u.op = target))),
    (let q : Req := rq;
     let b : Byte := 4;
     let target : OpState := .hold;
     let s : State := { base with op := .run };
     (let u := s.carry q;
      decide (((b.toNat = 2 ∧ target = .stop) ∨ (b.toNat = 3 ∧ target = .run) ∨ (b.toNat = 4 ∧ target = .hold)) ∧
            (u.op = .stop ∨ u.op = .run ∨ u.op = .hold) ∧ u.role = .solo ∧ u.fwu.setinc = false ∧ (target ≠ .run ∨
            u.se.program = true) ∧ u.changing = false ∧ u.op ≠ target ∧ u.op = .run))),
    (let q : Req := rq;
     let b : Byte := 3;
     let target : OpState := .run;
     let s : State := ({ base with se := { base.se with program := true } } : State);
     (let u := s.carry q;
      decide (((b.toNat = 2 ∧ target = .stop) ∨ (b.toNat = 3 ∧ target = .run) ∨ (b.toNat = 4 ∧ target = .hold)) ∧
            (u.op = .stop ∨ u.op = .run ∨ u.op = .hold) ∧ u.role = .solo ∧ u.fwu.setinc = false ∧ (target ≠ .run ∨
            u.se.program = true) ∧ u.changing = false ∧ u.op ≠ target ∧ u.op ≠ .run))),
    (let t : Nat := 0;
     let s : State := { base with se := { base.se with pfail := true } };
     (let u := s.at t; decide (u.se.pfail = true))),
    (let t : Nat := 0;
     let s : State := ({ base with se := { base.se with change := some ⟨.run, 0⟩ } } : State);
     (let u := s.at t; (match u.se.change with | some c => decide (u.se.pfail = false ∧ u.op ≠ .fault) | _ => false))),
    (let t : Nat := 0;
     let s : State := { base with se := { base.se with change := none }, twl := { base.twl with pairReq := none } };
     (let u := s.at t; decide (u.se.change = none ∧ u.twl.pairReq = none))),
    (let t : Nat := 100000000;
     let s : State := ({ base with op := .run, se := { base.se with leaving := some ⟨.stop, 0⟩ } } : State);
     (let u := s.at t;
      (match u.se.leaving with
       | some l =>
            decide (u.op = .run ∧ u.se.pfail = false ∧ u.activeInst = [])
       | _ => false))),
    (let t : Nat := 0; let s : State := base; (let u := s.at t; decide ((u.activeInst ≠ [] ∨ u.se.leaving = none)))),
    (let t : Nat := 0;
     let s : State := ({ base with op := .run, se := { base.se with leaving := some ⟨.stop, 0⟩ } } : State);
     (let u := s.at t; (match u.se.leaving with | some l => decide (u.utick < l.t + 10000000) | _ => false))),
    (let t : Nat := 100000000;
     let s : State := ({ base with op := .run, se := { base.se with leaving := some ⟨.stop, 0⟩ } } : State);
     (let u := s.at t;
      (match u.se.leaving with
       | some l =>
            decide (u.op = .run ∧ u.se.pfail = false ∧ l.t + 10000000 ≤ u.utick)
       | _ => false))),
    (let t : Nat := 2000000;
     let s : State := ({ base with se := { base.se with pfail := true, ctx4At := some 0 } } : State);
     (let u := s.at t;
      (match u.se.ctx4At with | some t0 => decide (u.se.pfail = true ∧ t0 + 200000 ≤ u.utick) | _ => false))),
    (let t : Nat := 0;
     let s : State := { base with se := { base.se with pfail := false } };
     (let u := s.at t; decide (u.se.pfail = false))),
    (let s : State := { base with role := .solo, hpi := { base.hpi with longs := [] } };
     decide (s.role = .solo ∧ s.hpi.longs = [])),
    (let s : State := { base with role := .solo, hpi := { base.hpi with longs := [] } };
     decide (s.role = .solo ∧ s.hpi.longs = [])),
    (let s : State :=
           { base with role := .solo, hpi := { base.hpi with longs := [] }, se := { base.se with fresh := true } };
     decide (s.role = .solo ∧ s.hpi.longs = [] ∧ s.se.fresh = true ∧ (s.se.tmb.map Prod.fst).Nodup ∧ (s.live = []))
           &&
     let n := 255; decide (n < 256)),
    (let s : State :=
           { base with role := .solo, hpi := { base.hpi with longs := [] }, se := { base.se with fresh := true } };
     decide (s.role = .solo ∧ s.hpi.longs = [] ∧ s.se.fresh = true ∧ (s.se.tmb.map Prod.fst).Nodup ∧ (s.live = [])))].all id = true := by decide +kernel

/-- The clauses of TheChamberIsLoadedAndArmed. -/
theorem test_hyps_TheChamberIsLoadedAndArmed : [
    (let q : Req := rq;
     let p : Bytes := [];
     let s : State := { base with se := { base.se with swap := { base.se.swap with chamber := .empty } } };
     (let u := s.carry q;
      (let ch := u.se.swap.chamber;
       decide (p = [] ∧ (ch = .empty ∨ ch = .loaded) ∧ (s.blocked q 0x210 = false ∧ s.locked 0x210 = false))))),
    (let q : Req := rq;
     let p : Bytes := [];
     let s : State := ({ base with se := { base.se with swap := { base.se.swap with chamber := .open } } } : State);
     (let u := s.carry q;
      (let ch := u.se.swap.chamber;
       decide (p = [] ∧ ch = .open ∧ (s.blocked q 0x210 = false ∧ s.locked 0x210 = false))))),
    (let q : Req := rq;
     let p : Bytes := [];
     let s : State := ({ base with se := { base.se with swap := { base.se.swap with chamber := .swapping } } } :
           State);
     (let u := s.carry q;
      (let ch := u.se.swap.chamber;
       decide (p = [] ∧ (ch = .closing ∨ ch = .armed ∨ ch = .swapping) ∧ (s.blocked q 0x210 = false ∧ s.locked
             0x210 = false))))),
    (let q : Req := rq;
     let p : Bytes := [];
     let s : State := base;
     (let u := s.carry q;
      (let ch := u.se.swap.chamber;
       decide (p = [] ∧ ch ≠ .open ∧ (s.blocked q 0x212 = false ∧ s.locked 0x212 = false))))),
    (let q : Req := rq;
     let p : Bytes := leBytes 4 0x7FFFF8 ++ leBytes 4 0 ++ List.replicate 8 0;
     let s : State := base;
     (let u := s.carry q;
      (let ch := u.se.swap.chamber;
       (let n := p.length - 8;
        decide (8 ≤ p.length ∧ n % 8 = 0 ∧ n ≤ 4072 ∧ ch ≠ .open ∧ (s.blocked q 0x211 = false ∧ s.locked 0x211 =
              false)))))),
    (let q : Req := rq;
     let p : Bytes := leBytes 4 0x7FFFFC ++ leBytes 4 0 ++ List.replicate 8 0;
     let s : State := ({ base with se := { base.se with swap := { base.se.swap with chamber := .open } } } : State);
     (let u := s.carry q;
      (let ch := u.se.swap.chamber;
       (let off := field p 0 4;
        (let n := p.length - 8;
         decide (8 ≤ p.length ∧ n % 8 = 0 ∧ n ≤ 4072 ∧ ch = .open ∧ (off % 8 ≠ 0 ∨ 0x800000 < off + n) ∧
               (s.blocked q 0x211 = false ∧ s.locked 0x211 = false))))))),
    (let q : Req := rq;
     let p : Bytes := leBytes 4 0x7FFFF8 ++ leBytes 4 0 ++ List.replicate 8 0;
     let s : State := ({ base with se := { base.se with swap := { base.se.swap with chamber := .open } } } : State);
     (let u := s.carry q;
      (let ch := u.se.swap.chamber;
       (let off := field p 0 4;
        (let n := p.length - 8;
         decide (8 ≤ p.length ∧ n % 8 = 0 ∧ n ≤ 4072 ∧ ch = .open ∧ off % 8 = 0 ∧ off + n ≤ 0x800000 ∧ (s.blocked
               q 0x211 = false ∧ s.locked 0x211 = false))))))),
    (let s : State := base; decide (s.se.swap.chamber ≠ .closing)),
    (let s : State := { base with se := { base.se with swap := { base.se.swap with chamber := .closing } } };
     decide (s.se.swap.chamber = .closing ∧ s.imageLost s.chamberImage = none) &&
     (match s.chamberImage.fail with | some o => true | _ => false)),
    (let q : Req := rq;
     let p : Bytes := [60, 0, 0, 0];
     let s : State := { base with op := .fault };
     (let u := s.carry q;
      (let t := (p.getD 0 0).toNat;
       (let free := u.op = .stop ∨ u.op = .run ∨ u.op = .hold;
        decide (p.length = 4 ∧ 1 ≤ t ∧ t ≤ 60 ∧ ¬free ∧ (s.blocked q 0x213 = false ∧ s.locked 0x213 = false)))))),
    (let q : Req := rq;
     let p : Bytes := [60, 0, 0, 0];
     let s : State := { base with role := .joining };
     (let u := s.carry q;
      (let t := (p.getD 0 0).toNat;
       (let free := u.op = .stop ∨ u.op = .run ∨ u.op = .hold;
        (let decides := u.role ≠ .tracking ∧ u.role ≠ .joining;
         decide (p.length = 4 ∧ 1 ≤ t ∧ t ≤ 60 ∧ free ∧ ¬decides ∧ (s.blocked q 0x213 = false ∧ s.locked 0x213 =
               false))))))),
    (let q : Req := rq;
     let p : Bytes := [60, 0, 0, 0];
     let s : State := ({ base with se := { base.se with swap := { base.se.swap with chamber := .armed } } } : State);
     (let u := s.carry q;
      (let ch := u.se.swap.chamber;
       (let t := (p.getD 0 0).toNat;
        (let free := u.op = .stop ∨ u.op = .run ∨ u.op = .hold;
         (let decides := u.role ≠ .tracking ∧ u.role ≠ .joining;
          decide (p.length = 4 ∧ 1 ≤ t ∧ t ≤ 60 ∧ free ∧ decides ∧ (ch = .armed ∨ ch = .swapping) ∧ (s.blocked q
                0x213 = false ∧ s.locked 0x213 = false)))))))),
    (let q : Req := rq;
     let p : Bytes := [60, 0, 0, 0];
     let s : State := { base with se := { base.se with swap := { base.se.swap with chamber := .empty } } };
     (let u := s.carry q;
      (let ch := u.se.swap.chamber;
       (let t := (p.getD 0 0).toNat;
        (let free := u.op = .stop ∨ u.op = .run ∨ u.op = .hold;
         (let decides := u.role ≠ .tracking ∧ u.role ≠ .joining;
          decide (p.length = 4 ∧ 1 ≤ t ∧ t ≤ 60 ∧ free ∧ decides ∧ (ch = .empty ∨ ch = .open ∨ ch = .closing) ∧
                (s.blocked q 0x213 = false ∧ s.locked 0x213 = false)))))))),
    (let q : Req := rq;
     let p : Bytes := [60, 0, 0, 0];
     let s : State :=
           ({ base with commits := [⟨.se, [], 0⟩], se := { base.se with swap := { base.se.swap with chamber := .loaded } } }
           : State);
     (let u := s.carry q;
      (let ch := u.se.swap.chamber;
       (let t := (p.getD 0 0).toNat;
        (let free := u.op = .stop ∨ u.op = .run ∨ u.op = .hold;
         (let decides := u.role ≠ .tracking ∧ u.role ≠ .joining;
          decide (p.length = 4 ∧ 1 ≤ t ∧ t ≤ 60 ∧ free ∧ decides ∧ ch = .loaded ∧ (∃ c ∈ u.commits, c.blk = .se)
                ∧ (s.blocked q 0x213 = false ∧ s.locked 0x213 = false)))))))),
    (let q : Req := rq;
     let p : Bytes := [60, 0, 0, 0];
     let s : State := ({ base with se := { base.se with swap := { base.se.swap with chamber := .loaded } } } :
           State);
     (let u := s.carry q;
      (let ch := u.se.swap.chamber;
       (let t := (p.getD 0 0).toNat;
        (let free := u.op = .stop ∨ u.op = .run ∨ u.op = .hold;
         (let decides := u.role ≠ .tracking ∧ u.role ≠ .joining;
          decide (p.length = 4 ∧ 1 ≤ t ∧ t ≤ 60 ∧ free ∧ decides ∧ u.role ≠ .primary ∧ ch = .loaded ∧ (∀ c ∈
                u.commits, c.blk ≠ .se) ∧ (s.blocked q 0x213 = false ∧ s.locked 0x213 = false)))))))),
    (let q : Req := rq;
     let p : Bytes := [];
     let s : State := ({ base with se := { base.se with swap := { base.se.swap with chamber := .armed } } } : State);
     (let u := s.carry q;
      (let ch := u.se.swap.chamber;
       decide (p = [] ∧ ch = .armed ∧ (s.blocked q 0x214 = false ∧ s.locked 0x214 = false))))),
    (let q : Req := rq;
     let p : Bytes := [];
     let s : State := ({ base with se := { base.se with swap := { base.se.swap with chamber := .swapping } } } :
           State);
     (let u := s.carry q;
      (let ch := u.se.swap.chamber;
       decide (p = [] ∧ ch = .swapping ∧ (s.blocked q 0x214 = false ∧ s.locked 0x214 = false))))),
    (let q : Req := rq;
     let p : Bytes := [];
     let s : State := base;
     (let u := s.carry q;
      (let ch := u.se.swap.chamber;
       decide (p = [] ∧ ch ≠ .armed ∧ ch ≠ .swapping ∧ (s.blocked q 0x214 = false ∧ s.locked 0x214 = false)))))].all id = true := by decide +kernel

/-- The clauses of SwapsStartAtSlackPointsAndEnd. -/
theorem test_hyps_SwapsStartAtSlackPointsAndEnd : [
    (let t : Nat := 0;
     let s : State := ({ base with se := { base.se with swap := { base.se.swap with chamber := .armed } } } : State);
     (let u := s.at t;
      (let w := u.se.swap;
       decide (w.chamber = .armed ∧ u.role = .solo ∧ u.se.pfail = false ∧ (u.op = .stop ∨ u.op = .hold ∨ (u.op =
             .run ∧ u.slack u.tSw = true)))))),
    (let t : Nat := 0;
     let s : State :=
           ({ base with op := .run, se := { base.se with copyQ := [16], swap := { base.se.swap with chamber := .armed } } }
           : State);
     (let u := s.at t;
      (let w := u.se.swap; decide (w.chamber = .armed ∧ u.role = .solo ∧ u.op = .run ∧ u.slack u.tSw = false)))),
    (let t : Nat := 0; let s : State := base; (let u := s.at t; (let w := u.se.swap; decide (w.chamber ≠ .swapping)))),
    (let t : Nat := 0;
     let s : State := ({ base with se := { base.se with swap := { base.se.swap with chamber := .swapping } } } :
           State);
     (let u := s.at t; (let w := u.se.swap; decide (w.chamber = .swapping)))),
    (let t : Nat := 0;
     let s : State := { base with se := { base.se with swap := { base.se.swap with chamber := .armed } } };
     (let u := s.at t;
      (let w := u.se.swap;
       decide (w.chamber = .armed ∧ u.role ≠ .tracking ∧ w.armT + w.timeout * 100000000 ≤ u.utick)))),
    (let t : Nat := 0;
     let s : State := base;
     (let u := s.at t;
      (let w := u.se.swap;
       decide ((w.chamber ≠ .armed ∨ u.role = .tracking ∨ u.utick < w.armT + w.timeout * 100000000))))),
    (let t : Nat := 0;
     let s : State := { base with twl := { base.twl with exch := none } };
     (let u := s.at t; decide (u.twl.exch = none))),
    (let t : Nat := 0;
     let s : State :=
           ({ base with se := { base.se with g := 5 }, twl := { base.twl with exch := some ⟨0, 5, false⟩ } } :
           State);
     (let u := s.at t;
      (match u.twl.exch with | some e => decide (((e.go = false ∧ e.gs ≤ u.se.g) ∨ e.gs < u.se.g)) | _ => false))),
    (let t : Nat := 0;
     let s : State :=
           ({ base with se := { base.se with g := 5 }, twl := { base.twl with exch := some ⟨0, 5, true⟩ } } : State);
     (let u := s.at t;
      (match u.twl.exch with | some e => decide ((u.se.g < e.gs ∨ (e.go = true ∧ u.se.g = e.gs))) | _ => false))),
    (let t : Nat := 999999;
     let s : State := (lvw (lvw base (Addr.shCfg 31) 60) (Addr.shLim 31) 0x10000).setBit (Addr.shStat 31) 1 false;
     (let u := s.at t;
      let n := 31;
      decide (n < 32 ∧ u.ppr n ≠ 0 ∧ u.lf (Addr.shLim n) 31 16 ≠ 0 ∧ u.shStopped n = false ∧ u.utick < (u.shaft
            n).since + u.lf (Addr.shLim n) 31 16 * 100000))),
    (let t : Nat := 1000000;
     let s : State := (lvw (lvw base (Addr.shCfg 31) 60) (Addr.shLim 31) 0x10000).setBit (Addr.shStat 31) 1 false;
     (let u := s.at t;
      let n := 31;
      decide (n < 32 ∧ u.ppr n ≠ 0 ∧ u.lf (Addr.shLim n) 31 16 ≠ 0 ∧ u.shStopped n = false ∧ (u.shaft n).since +
            u.lf (Addr.shLim n) 31 16 * 100000 ≤ u.utick)))].all id = true := by decide +kernel

/-- The clauses of AnArmedSwapIsAbandonedAfterItsTimeout. -/
theorem test_hyps_AnArmedSwapIsAbandonedAfterItsTimeout : [
    (let t : Nat := 0;
     let s : State := { base with se := { base.se with swap := { base.se.swap with chamber := .armed } } };
     (let u := s.at t;
      decide (u.se.swap.chamber = .armed ∧ u.role ≠ .tracking ∧ u.se.swap.armT + u.se.swap.timeout * 100000000 ≤
            u.utick))),
    (let t : Nat := 0;
     let s : State := { base with role := .tracking }; (let u := s.at t; decide (u.role = .tracking)))].all id = true := by decide +kernel

/-- The clauses of IndicatorRecordsAndOpcodes. -/
theorem test_hyps_IndicatorRecordsAndOpcodes : [
    (let t : Nat := 0;
     let s : State := { base with ixe := { base.ixe with inq := [] } }; (let u := s.at t; decide (u.ixe.inq = []))),
    (let t : Nat := 0;
     let s : State := ixs (leBytes 2 6144 ++ List.replicate 46 0) 6143 0;
     (let u := s.at t;
      (match u.ixe.inq with
       | r :: rest =>
            (let w : State := { u with ixe := { u.ixe with inq := rest } };
             (let p := field r.data 0 8 % 8192;
              decide ((p ≥ 6144 ∨ w.ptEn p = false ∨ w.ptFailed p = true ∨ w.ixeRuns = false))))
       | _ => false))),
    (let t : Nat := 0;
     let s : State := ixs (leBytes 2 6143 ++ List.replicate 46 0) 6143 1;
     (let u := s.at t;
      (match u.ixe.inq with
       | r :: rest =>
            (let w : State := { u with ixe := { u.ixe with inq := rest } };
             (let p := field r.data 0 8 % 8192;
              decide (p < 6144 ∧ w.ptEn p = true ∧ w.ptFailed p = false ∧ w.ixeRuns = true) &&
              (match w.readBytes .ixe (Addr.ixePoint00 p) 64 with
               | (some bs, x) =>
                    (let named := x.lf (Addr.ixePoint08 p) 3 0 = r.port ∧ x.lf (Addr.ixePoint08 p) 10 4 = r.stn;
                     decide (¬named))
               | _ => false)))
       | _ => false))),
    (let t : Nat := 0;
     let s : State := (ixs (leBytes 2 6143 ++ List.replicate 46 0) 6143 0).setBit (Addr.ixePoint20 6143) 3 true;
     (let u := s.at t;
      (match u.ixe.inq with
       | r :: rest =>
            (let w : State := { u with ixe := { u.ixe with inq := rest } };
             (let p := field r.data 0 8 % 8192;
              (let seq := field r.data 0 8 / 2 ^ 13 % 256;
               decide (p < 6144 ∧ w.ptEn p = true ∧ w.ptFailed p = false ∧ w.ixeRuns = true) &&
               (match w.readBytes .ixe (Addr.ixePoint00 p) 64 with
                | (some bs, x) =>
                     (let named := x.lf (Addr.ixePoint08 p) 3 0 = r.port ∧ x.lf (Addr.ixePoint08 p) 10 4 =
                            r.stn;
                      (let any := x.ptValid p = false ∨ x.ixe.anySeq.contains p = true;
                       (let d := (seq + 256 - x.fld (Addr.ixePoint20 p) 15 8) % 256;
                        decide (named ∧ ¬any ∧ (d = 0 ∨ 128 ≤ d)))))
                | _ => false))))
       | _ => false))),
    (let t : Nat := 0;
     let s : State := (ixs (leBytes 2 (6143 + 2 * 8192) ++ List.replicate 46 0) 6143 0).setBit (Addr.ixePoint20 6143)
           3 true;
     (let u := s.at t;
      (match u.ixe.inq with
       | r :: rest =>
            (let w : State := { u with ixe := { u.ixe with inq := rest } };
             (let p := field r.data 0 8 % 8192;
              (let seq := field r.data 0 8 / 2 ^ 13 % 256;
               decide (p < 6144 ∧ w.ptEn p = true ∧ w.ptFailed p = false ∧ w.ixeRuns = true) &&
               (match w.readBytes .ixe (Addr.ixePoint00 p) 64 with
                | (some bs, x) =>
                     (let named := x.lf (Addr.ixePoint08 p) 3 0 = r.port ∧ x.lf (Addr.ixePoint08 p) 10 4 =
                            r.stn;
                      (let any := x.ptValid p = false ∨ x.ixe.anySeq.contains p = true;
                       (let d := (seq + 256 - x.fld (Addr.ixePoint20 p) 15 8) % 256;
                        decide (named ∧ ¬any ∧ 1 < d ∧ d < 128))))
                | _ => false))))
       | _ => false))),
    (let t : Nat := 0;
     let s : State := ixs (leBytes 2 6143 ++ List.replicate 46 0) 6143 0;
     (let u := s.at t;
      (match u.ixe.inq with
       | r :: rest =>
            (let w : State := { u with ixe := { u.ixe with inq := rest } };
             (let p := field r.data 0 8 % 8192;
              (let seq := field r.data 0 8 / 2 ^ 13 % 256;
               decide (p < 6144 ∧ w.ptEn p = true ∧ w.ptFailed p = false ∧ w.ixeRuns = true) &&
               (match w.readBytes .ixe (Addr.ixePoint00 p) 64 with
                | (some bs, x) =>
                     (let named := x.lf (Addr.ixePoint08 p) 3 0 = r.port ∧ x.lf (Addr.ixePoint08 p) 10 4 =
                            r.stn;
                      (let any := x.ptValid p = false ∨ x.ixe.anySeq.contains p = true;
                       (let d := (seq + 256 - x.fld (Addr.ixePoint20 p) 15 8) % 256;
                        decide (named ∧ (any ∨ d = 1)))))
                | _ => false))))
       | _ => false))),
    (let n := 1; decide (0 < n)),
    (let t : Nat := 0;
     let s : State := { base with op := .fault };
     (let u := s.at t; decide (u.op ≠ .stop ∧ u.op ≠ .run ∧ u.op ≠ .hold))),
    (let t : Nat := 0;
     let s : State := { base with op := .stop };
     (let u := s.at t; decide ((u.op = .stop ∨ u.op = .run ∨ u.op = .hold)))),
    (let q : Req := rq;
     let p : Bytes := List.replicate 2 0;
     let s : State := base;
     (let f := (p.getD 0 0).toNat;
      (let k := (p.getD 1 0).toNat;
       decide (p.length = 2 ∧ f ≤ 63 ∧ k ≤ 63 ∧ f + k ≤ 64 ∧ (s.blocked q 0x300 = false ∧ s.locked 0x300 = false))))),
    (let q : Req := rq;
     let p : Bytes := [1, 64];
     let s : State := base;
     (let f := (p.getD 0 0).toNat;
      (let k := (p.getD 1 0).toNat;
       decide (p.length = 2 ∧ (64 ≤ f ∨ 64 ≤ k ∨ 64 < f + k) ∧ (s.blocked q 0x300 = false ∧ s.locked 0x300 =
             false))))),
    (let q : Req := rq;
     let p : Bytes := List.replicate 2 0;
     let s : State := base;
     (let u := s.carry q;
      (let n := field p 0 2;
       (let feat (x : Nat) : Nat := 0x30000000 + 1280 * n + 64 * x;
        decide (p.length = 2 ∧ n ≤ 6143) &&
        (match u.readBytes .mgcCommand (Addr.ixePoint20 n) 32 with
         | (some st, x) =>
              (match x.readBytes .mgcCommand (feat 0) 1280 with
               | (some fs, y) =>
                    decide ((s.blocked q 0x301 = false ∧ s.locked 0x301 = false))
               | _ => false)
         | _ => false))))),
    (let q : Req := rq;
     let p : Bytes := List.replicate 2 0;
     let s : State := base;
     (let u := s.carry q;
      (let n := field p 0 2;
       decide (p.length = 2 ∧ n ≤ 6143 ∧ u.ptEn n = false ∧ (s.blocked q 0x304 = false ∧ s.locked 0x304 = false))))),
    (let q : Req := rq;
     let p : Bytes := leBytes 2 6144;
     let s : State := base;
     (let n := field p 0 2; decide (p.length = 2 ∧ 6143 < n ∧ (s.blocked q 0x301 = false ∧ s.locked 0x301 = false)))),
    (let q : Req := rq;
     let p : Bytes := leBytes 2 6143;
     let s : State := lvw base (Addr.ixePoint00 6143) 1;
     (let u := s.carry q;
      (let n := field p 0 2;
       decide (p.length = 2 ∧ n ≤ 6143 ∧ u.ptEn n = true ∧ (s.blocked q 0x304 = false ∧ s.locked 0x304 = false))))),
    (let q : Req := rq;
     let p : Bytes := leBytes 2 6143 ++ List.replicate 6 0;
     let s : State := lvw base (Addr.ixePoint00 6143) 1;
     (let u := s.carry q;
      (let n := field p 0 2;
       decide (p.length = 8 ∧ n ≤ 6143 ∧ u.ptEn n = true ∧ (s.blocked q 0x302 = false ∧ s.locked 0x302 = false))))),
    (let q : Req := rq;
     let p : Bytes := List.replicate 8 0;
     let s : State := base;
     (let u := s.carry q;
      (let n := field p 0 2;
       decide (p.length = 8 ∧ n ≤ 6143 ∧ u.ptEn n = false ∧ (s.blocked q 0x302 = false ∧ s.locked 0x302 = false))))),
    (let q : Req := rq;
     let p : Bytes := leBytes 2 6143 ++ [19, 3] ++ List.replicate 12 0;
     let s : State := lvw base (Addr.ixePoint00 6143) 1;
     (let u := s.carry q;
      (let n := field p 0 2;
       decide (p.length = 16 ∧ n ≤ 6143 ∧ field p 2 1 ≤ 19 ∧ field p 3 1 ≤ 3 ∧ field p 12 4 ≤ 16777215 ∧ field p 4
             4 % 2 ^ 31 < 0x7F800000 ∧ field p 8 4 < 0x7F800000 ∧ u.ptEn n = true ∧ (s.blocked q 0x303 = false ∧
             s.locked 0x303 = false))))),
    (let q : Req := rq;
     let p : Bytes := List.replicate 16 0;
     let s : State := base;
     (let u := s.carry q;
      (let n := field p 0 2;
       decide (p.length = 16 ∧ n ≤ 6143 ∧ field p 2 1 ≤ 19 ∧ field p 3 1 ≤ 3 ∧ field p 12 4 ≤ 16777215 ∧ field p 4
             4 % 2 ^ 31 < 0x7F800000 ∧ field p 8 4 < 0x7F800000 ∧ u.ptEn n = false ∧ (s.blocked q 0x303 = false ∧
             s.locked 0x303 = false)))))].all id = true := by decide +kernel

/-- The clauses of AFeatureMovesItsAveragesHistoriesAndBaseline. -/
theorem test_hyps_AFeatureMovesItsAveragesHistoriesAndBaseline : [
    (let x : Feature := ({ featureOf [] with init := false } : Feature); decide (x.init = false)),
    (let x : Feature := ({ featureOf [] with init := true } : Feature); decide (x.init = true)),
    (let c : RecCtx := ({ rc0 with lim := { rc0.lim with nhist := 16 } } : RecCtx);
     let i := 14; decide (i + 1 < c.lim.nhist)),
    (let c : RecCtx := rc0; decide (c.bin = none)),
    (let c : RecCtx := ({ rc0 with bin := some 3 } : RecCtx); let i := 3; let j := 0; decide (c.bin = some i ∧ j ≠ i)),
    (let c : RecCtx := { rc0 with mode := 1 };
     let absA : Nat := 0;
     let absD : Nat := 0;
     let x : Feature := ({ featureOf [] with init := false } : Feature);
     let code : Nat := 0;
     (let y := (evalFeature c absA absD x code).1;
      decide ((c.mode = 1 ∨ (c.mode = 2 ∧ (y.alert = true ∨ y.danger = true)))))),
    (let c : RecCtx := ({ rc0 with bin := some 3 } : RecCtx);
     let x : Feature := ({ featureOf [] with init := false } : Feature);
     let i := 3; decide (c.bin = some i ∧ i < x.bins.length ∧ c.mode = 0 ∧ (x.bins.getD i ⟨0, 0, 0⟩).n < 16777215))].all id = true := by decide +kernel

/-- The clauses of FramesAreRequestedStartedAndFinished. -/
theorem test_hyps_FramesAreRequestedStartedAndFinished : [
    (let n : Nat := 15;
     let b : Nat := 63;
     let s : State := lvw fbps (Addr.fbpTxbufW1 15 63) 0x10;
     decide (n < 16 ∧ b < 64 ∧ s.txUnused n b = false ∧ (s.txd n b).m = true ∧ (s.txf n b).st = 0 ∧ s.fbpMode n = 1 ∧
           s.errState n ≠ 2) &&
     (match s.takeTx n b with | (some fr, x) => true | _ => false)),
    (let n : Nat := 15;
     let b : Nat := 63;
     let s : State := fbps;
     decide (n < 16 ∧ b < 64 ∧ (s.txUnused n b = true ∨ (s.txd n b).m = false ∨ (s.txf n b).st ≠ 0 ∨ s.fbpMode n ≠
           1))),
    (let n : Nat := 15; let b : Nat := 63; let s : State := fbps; decide (n < 16 ∧ b < 64 ∧ (s.txf n b).st = 0)),
    (let n : Nat := 15;
     let b : Nat := 63; let s : State := fbps.setTxf 15 63 { st := 1 }; decide (n < 16 ∧ b < 64 ∧ (s.txf n b).st = 1)),
    (let n : Nat := 15;
     let b : Nat := 63; let s : State := fbps.setTxf 15 63 { st := 2 }; decide (n < 16 ∧ b < 64 ∧ (s.txf n b).st = 2)),
    (let n : Nat := 15;
     let b : Nat := 63;
     let t : Nat := 0;
     let s : State := fbps.setTxf 15 63 { st := 1, till := 1000000000 };
     decide (n < 16 ∧ b < 64) &&
     (let u := s.at t;
      (let f := u.txf n b;
       decide (u.ncyc n ≠ 0 ∧ u.maySend n = true ∧ u.mayStart n b t = true ∧ (f.m = false ∨ u.bestM n t = some b))))),
    (let n : Nat := 15;
     let b : Nat := 63;
     let t : Nat := 0;
     let s : State := fbps;
     decide (n < 16 ∧ b < 64) && (let u := s.at t; decide (u.ncyc n ≠ 0 ∧ u.mayStart n b t = false))),
    (let n : Nat := 15;
     let b : Nat := 63;
     let t : Nat := 0;
     let s : State := fbps;
     decide (n < 16 ∧ b < 64) && (let u := s.at t; decide ((s.port n).active = none ∧ (u.port n).active = none))),
    (let n : Nat := 15;
     let b : Nat := 63;
     let s : State := fbps.onPort 15 fun x => { x with active := some 63, late := [63] };
     decide (n < 16 ∧ b < 64 ∧ (s.port n).active = some b ∧ (s.port n).late.contains b = true)),
    (let n : Nat := 15;
     let b : Nat := 63;
     let s : State := (fbps.onPort 15 fun x => { x with active := some 63 }).setTxf 15 63 { st := 2, m := true };
     decide (n < 16 ∧ b < 64 ∧ (s.port n).active = some b ∧ (s.port n).late.contains b = false ∧ (s.txf n b).m =
           true)),
    (let n : Nat := 15;
     let b : Nat := 63;
     let s : State := (fbps.onPort 15 fun x => { x with active := some 63 }).setTxf 15 63 { st := 2, past := true };
     decide (n < 16 ∧ b < 64 ∧ (s.port n).active = some b ∧ (s.port n).late.contains b = false ∧ (s.txf n b).m =
           false ∧ ((s.txf n b).past = true ∨ sget {} (s.port n).load b ≠ {}))),
    (let n : Nat := 15;
     let b : Nat := 63;
     let t : Nat := 0;
     let s : State := (fbps.onPort 15 fun x => { x with active := some 63 }).setTxf 15 63 { st := 2 };
     decide (n < 16 ∧ b < 64) && (let u := s.at t; decide ((u.port n).active = some b ∧ u.errState n = 0))),
    (let n : Nat := 15;
     let b : Nat := 63;
     let t : Nat := 0;
     let s : State := lvw (lvw fbps (Addr.fbpTtWinW0 15 31) 0x10000) (Addr.fbpTtWinW1 15 31) 0x102;
     decide (n < 16 ∧ b < 64) &&
     (let u := s.at t;
      let k := 31;
      decide (k < 32) &&
      (let d := u.win n k;
       decide (d.len ≠ 0 ∧ u.fbpMode n ≠ 0 ∧ u.op ≠ .fault ∧ (u.stnMode n = false ∨ (u.port n).smActive = true)) &&
       (match u.cycleAt n (t + 5000) with | some (c, t0) => decide (d.occurs c = false) | _ => false)))),
    (let n : Nat := 15;
     let b : Nat := 63;
     let t : Nat := 0;
     let s : State := lvw (lvw fbps (Addr.fbpTtWinW0 15 31) 0x10000) (Addr.fbpTtWinW1 15 31) 2;
     decide (n < 16 ∧ b < 64) &&
     (let u := s.at t;
      let k := 31;
      decide (k < 32) &&
      (let d := u.win n k;
       decide (d.len ≠ 0 ∧ u.fbpMode n ≠ 0 ∧ u.op ≠ .fault ∧ (u.stnMode n = false ∨ (u.port n).smActive = true)) &&
       (match u.cycleAt n (t + 5000) with | some (c, t0) => decide (d.occurs c = true ∧ d.ty = 2) | _ => false)))),
    (let n : Nat := 15;
     let b : Nat := 63;
     let t : Nat := 0;
     let s : State := lvw (lvw (lvw fbps (Addr.fbpTtWinW0 15 31) 0x10000) (Addr.fbpTtWinW1 15 31) 2) (Addr.fbpTxbufW1
           15 0) 0xF;
     decide (n < 16 ∧ b < 64) &&
     (let u := s.at t;
      let k := 31;
      decide (k < 32) &&
      (let d := u.win n k;
       decide (d.len ≠ 0 ∧ u.fbpMode n ≠ 0 ∧ u.op ≠ .fault ∧ (u.stnMode n = false ∨ (u.port n).smActive = true)) &&
       (match u.cycleAt n (t + 5000) with
        | some (c, t0) =>
             let off := 0; decide (d.occurs c = true ∧ d.ty = 2 ∧ u.txTouches n (d.served c) off = true)
        | _ => false)))),
    (let n : Nat := 15; let b : Nat := 63; decide (n < 16 ∧ b < 64)),
    (let n : Nat := 15;
     let b : Nat := 63;
     let t : Nat := 0;
     let s : State := lvw (lvw fbps (Addr.fbpTtWinW0 15 31) 0x10000) (Addr.fbpTtWinW1 15 31) 2;
     decide (n < 16 ∧ b < 64) &&
     (let u := s.at t;
      let k := 31;
      decide (k < 32 ∧ (u.win n k).len ≠ 0 ∧ u.fbpMode n ≠ 0) &&
      (match u.cycleAt n t with | some (c, t0) => decide ((u.win n k).typeIn c ≠ 0) | _ => false))),
    (let n : Nat := 15;
     let b : Nat := 63;
     let t : Nat := 0;
     let s : State := lvw (lvw fbps (Addr.fbpTtWinW0 15 31) 0x10000) (Addr.fbpTtWinW1 15 31) 0;
     decide (n < 16 ∧ b < 64) &&
     (let u := s.at t;
      let k := 31;
      decide (k < 32 ∧ (u.win n k).len ≠ 0 ∧ u.fbpMode n ≠ 0) &&
      (match u.cycleAt n t with | some (c, t0) => decide ((u.win n k).typeIn c = 0 ∧ u.role = .solo) | _ => false))),
    (let n : Nat := 15; let b : Nat := 63; decide (n < 16 ∧ b < 64) && let k := 31; decide (k < 32))].all id = true := by decide +kernel

/-- The clauses of PortsReceiveConfineErrorsAndAnswer. -/
theorem test_hyps_PortsReceiveConfineErrorsAndAnswer : [
    (let n : Nat := 15;
     let t : Nat := 0;
     let f : CanFrame := { fr0 with fdf := true, resRecessive := true };
     let s : State := lvw fbps (Addr.fbpCtrl 15) 0x41;
     decide (n < 16) &&
     (let u := s.at t;
      (let x := u.frameEnd n;
       decide (x.onBus n = true ∧ x.fbpMode n ≠ 4 ∧ f.fdf = true ∧ f.resRecessive = true ∧ x.lf (Addr.fbpCtrl n) 6
             6 = 1)))),
    (let n : Nat := 15;
     let t : Nat := 0;
     let f : CanFrame := fr0;
     let s : State := fbps;
     decide (n < 16) &&
     (let u := s.at t;
      (let x := u.frameEnd n;
       decide (x.onBus n = true ∧ x.fbpMode n ≠ 4 ∧ (f.fdf = false ∨ f.resRecessive = false) ∧ (f.rtr = false ∨
             f.fdf = true))))),
    (let n : Nat := 15;
     let t : Nat := 0;
     let f : CanFrame := { fr0 with rtr := true };
     let s : State := fbps;
     decide (n < 16) &&
     (let u := s.at t;
      (let x := u.frameEnd n; decide (x.onBus n = true ∧ x.fbpMode n ≠ 4 ∧ f.fdf = false ∧ f.rtr = true)))),
    (let n : Nat := 15;
     let t : Nat := 0;
     let s : State := base; decide (n < 16) && (let u := s.at t; (let x := u.frameEnd n; decide (x.onBus n = false)))),
    (let n : Nat := 15;
     let t : Nat := 0; let s : State := base; decide (n < 16) && (let u := s.at t; decide (u.onBus n = false))),
    (let n : Nat := 15;
     let t : Nat := 0;
     let e : BusError := (⟨1, false, .receiver⟩ : BusError);
     let s : State := fbps;
     decide (n < 16) &&
     (let u := s.at t;
      decide (u.onBus n = true ∧ u.fbpMode n = 1 ∧ (u.port n).active = none ∧ e.role = .receiver ∧ e.dataPhase =
            false) &&
      (let v := (u.setFld (Addr.fbpStat n) 10 8 e.code).frameEnd n; decide (v.fbpMode n = 1)))),
    (let n : Nat := 15;
     let s : State := ((base.setBit (Addr.fbpStat n) 2 false) : State);
     decide (n < 16 ∧ s.errState n ≠ 2 ∧ s.bit (Addr.fbpStat n) 2 = false)),
    (let n : Nat := 15;
     let s : State := (base.setBit (Addr.fbpStat 15) 1 true).setBit (Addr.fbpStat 15) 2 true;
     decide (n < 16 ∧ s.errState n = 2 ∧ s.bit (Addr.fbpStat n) 2 = true ∧ s.fld (Addr.fbpErrc n) 31 24 < 127)),
    (let n : Nat := 15;
     let s : State := base; decide (n < 16 ∧ (s.errState n ≠ 2 ∨ s.bit (Addr.fbpStat n) 2 = false))),
    (let n : Nat := 15;
     let s : State := (base.setBit (Addr.fbpStat 15) 1 true);
     decide (n < 16 ∧ s.errState n = 2 ∧ s.bit (Addr.fbpStat n) 2 = false)),
    (let n : Nat := 15; decide (n < 16) && let v : Word := 0; decide (v.getLsbD 0 = false)),
    (let n : Nat := 15; decide (n < 16) && let v : Word := (1 : Word); decide (v.getLsbD 0 = true)),
    (let n : Nat := 15;
     let t : Nat := 0;
     let s : State := lvw base (Addr.fbpCtrl 15) 0x10;
     decide (n < 16) &&
     (let u := s.at t; decide (u.stnMode n = true ∧ u.bit (Addr.fbpStat n) 5 = false ∧ u.refGone n = true))),
    (let n : Nat := 15;
     let t : Nat := 0;
     let s : State := base.onPort 15 fun x => { x with cyc := some (0, 0) };
     decide (n < 16) && (let u := s.at t; (match (u.port n).cyc with | some (c, t0) => true | _ => false))),
    (let n : Nat := 15;
     let t : Nat := 0;
     let s : State := base;
     decide (n < 16) && (let u := s.at t; decide ((u.stnMode n = false ∨ u.refGone n = false)))),
    (let n : Nat := 15;
     let t : Nat := 0; let s : State := base; decide (n < 16) && (let u := s.at t; decide (u.stnMode n = false))),
    (let n : Nat := 15;
     let t : Nat := 1000000;
     let s : State := lvw base (Addr.fbpCtrl 15) 0x10010;
     decide (n < 16) &&
     (let u := s.at t;
      decide (u.stnMode n = true ∧ u.lf (Addr.fbpCtrl n) 31 16 ≠ 0 ∧ (u.port n).lastOut + u.lf (Addr.fbpCtrl n) 31
            16 * 100000 ≤ u.utick ∧ (u.station (u.ownStn n)).lost = false))),
    (let n : Nat := 15;
     let t : Nat := 0; let s : State := base; decide (n < 16) && (let u := s.at t; decide (u.cycleEnds n = false))),
    (let n : Nat := 15;
     let t : Nat := 0;
     let s : State := { fbps with commits := [⟨.fbp 15, [(Addr.fbpCtrl 15, 0)], 0⟩] };
     decide (n < 16) &&
     (let u := s.at t;
      (let x := u.frameEnd n;
       decide (u.cycleEnds n = true ∧ u.stnMode n = false ∧ (u.port n).cyc = none) &&
       (let v := (((u.commitAt (.fbp n)).commitAt (.stn n)).syncForced n).onPort n fun x => if 32 ≤ x.calN then
              { x with calN := x.calN - 32, calDone := x.calDone + 1 } else x;
        decide ((v.stnMode n = true ∨ v.cycleEnds n = false)))))),
    (let n : Nat := 15;
     let t : Nat := 0;
     let s : State := fbps;
     decide (n < 16) &&
     (let u := s.at t;
      (let x := u.frameEnd n;
       decide (u.cycleEnds n = true ∧ u.stnMode n = false ∧ (u.port n).cyc = none) &&
       (let v := (((u.commitAt (.fbp n)).commitAt (.stn n)).syncForced n).onPort n fun x => if 32 ≤ x.calN then
              { x with calN := x.calN - 32, calDone := x.calDone + 1 } else x;
        decide (v.stnMode n = false ∧ v.cycleEnds n = true))))),
    (let n : Nat := 15; decide (n < 16)),
    (let q : Req := rq;
     let p : Bytes := [15, 63];
     let s : State := lvw base (Addr.fbpTxbufW1 15 63) 0x80;
     (let u := s.carry q;
      (let k := (p.getD 0 0).toNat;
       (let i := (p.getD 1 0).toNat;
        decide (p.length = 2 ∧ k ≤ 15 ∧ i ≤ 63 ∧ (u.txd k i).own = true ∧ (s.blocked q 0x403 = false ∧ s.locked
              0x403 = false)))))),
    (let q : Req := rq;
     let p : Bytes := List.replicate 2 0;
     let s : State := base;
     (let u := s.carry q;
      (let k := (p.getD 0 0).toNat;
       (let i := (p.getD 1 0).toNat;
        decide (p.length = 2 ∧ (15 < k ∨ 63 < i ∨ (u.txd k i).own = false) ∧ (s.blocked q 0x403 = false ∧ s.locked
              0x403 = false)))))),
    (let q : Req := rq;
     let b : Byte := 15;
     let s : State := (base.setBit (Addr.fbpStat 15) 1 true);
     (let u := s.carry q;
      decide (b.toNat ≤ 15 ∧ u.errState b.toNat = 2 ∧ (s.blocked q 0x401 = false ∧ s.locked 0x401 = false)))),
    (let q : Req := rq;
     let b : Byte := 0;
     let s : State := base;
     (let u := s.carry q;
      decide (b.toNat ≤ 15 ∧ u.errState b.toNat ≠ 2 ∧ (s.blocked q 0x401 = false ∧ s.locked 0x401 = false)))),
    (let q : Req := rq;
     let b : Byte := 15;
     let s : State := (lvw base (Addr.fbpCtrl 15) 1).wr (Addr.fbpTdrCfg 15) 3500;
     (let u := s.carry q;
      decide (b.toNat ≤ 15 ∧ 3500 ≤ u.fld (Addr.fbpTdrCfg b.toNat) 15 0 ∧ u.fld (Addr.fbpTdrCfg b.toNat) 15 0 ≤ 8000
            ∧ (u.tdrBarred b.toNat = true ∨ (u.ncyc b.toNat = 0 ∧ u.fbpMode b.toNat ≠ 0)) ∧ (s.blocked q 0x404 =
            false ∧ s.locked 0x404 = false)))),
    (let q : Req := rq;
     let b : Byte := 15;
     let s : State := (fbps.wr (Addr.fbpTdrCfg 15) 3500).onPort 15 fun x => { x with tdr := some 0 };
     (let u := s.carry q;
      decide (b.toNat ≤ 15 ∧ 3500 ≤ u.fld (Addr.fbpTdrCfg b.toNat) 15 0 ∧ u.fld (Addr.fbpTdrCfg b.toNat) 15 0 ≤ 8000
            ∧ u.tdrBarred b.toNat = false ∧ (u.ncyc b.toNat ≠ 0 ∨ u.fbpMode b.toNat = 0) ∧ (u.port
            b.toNat).tdr.isSome = true ∧ (s.blocked q 0x404 = false ∧ s.locked 0x404 = false)))),
    (let q : Req := rq;
     let b : Byte := 15;
     let s : State := base;
     (let u := s.carry q;
      decide (b.toNat ≤ 15 ∧ 3500 ≤ u.fld (Addr.fbpTdrCfg b.toNat) 15 0 ∧ u.fld (Addr.fbpTdrCfg b.toNat) 15 0 ≤ 8000
            ∧ u.tdrBarred b.toNat = false ∧ (u.ncyc b.toNat ≠ 0 ∨ u.fbpMode b.toNat = 0) ∧ (u.port b.toNat).tdr =
            none ∧ (s.blocked q 0x404 = false ∧ s.locked 0x404 = false)))),
    (let q : Req := rq;
     let p : Bytes := [15, 63] ++ List.replicate 10 0;
     let s : State := fbps;
     (let u := s.carry q;
      (let k := (p.getD 0 0).toNat;
       (let i := (p.getD 1 0).toNat;
        (let w0 := wordAt p 4;
         (let dlc := (p.getD 8 0).toNat;
          (let d := u.txd k i;
           decide (p.length = 12 + dlcBytes (w0.getLsbD 30) dlc ∧ dlc ≤ 15 ∧ k ≤ 15 ∧ i ≤ 63 ∧ (w0.getLsbD 31 =
                 true → w0.getLsbD 30 = true) ∧ (d.m = false ∨ d.own = false) ∧ (s.blocked q 0x402 = false ∧
                 s.locked 0x402 = false))))))))),
    (let q : Req := rq;
     let p : Bytes := [15, 63] ++ List.replicate 10 0;
     let s : State := (lvw fbps (Addr.fbpTxbufW1 15 63) 0x90).setTxf 15 63 { st := 1 };
     (let u := s.carry q;
      (let k := (p.getD 0 0).toNat;
       (let i := (p.getD 1 0).toNat;
        (let w0 := wordAt p 4;
         (let dlc := (p.getD 8 0).toNat;
          (let d := u.txd k i;
           decide (p.length = 12 + dlcBytes (w0.getLsbD 30) dlc ∧ dlc ≤ 15 ∧ k ≤ 15 ∧ i ≤ 63 ∧ (w0.getLsbD 31 =
                 true → w0.getLsbD 30 = true) ∧ d.m = true ∧ d.own = true ∧ (u.txf k i).st ≠ 0 ∧ (s.blocked q
                 0x402 = false ∧ s.locked 0x402 = false))))))))),
    (let q : Req := rq;
     let p : Bytes := [15, 63] ++ List.replicate 10 0;
     let s : State := (lvw base (Addr.fbpTxbufW1 15 63) 0x90);
     (let u := s.carry q;
      (let k := (p.getD 0 0).toNat;
       (let i := (p.getD 1 0).toNat;
        (let w0 := wordAt p 4;
         (let dlc := (p.getD 8 0).toNat;
          (let d := u.txd k i;
           decide (p.length = 12 + dlcBytes (w0.getLsbD 30) dlc ∧ dlc ≤ 15 ∧ k ≤ 15 ∧ i ≤ 63 ∧ (w0.getLsbD 31 =
                 true → w0.getLsbD 30 = true) ∧ d.m = true ∧ d.own = true ∧ (u.txf k i).st = 0 ∧ u.fbpMode k ≠
                 1 ∧ (s.blocked q 0x402 = false ∧ s.locked 0x402 = false))))))))),
    (let q : Req := rq;
     let p : Bytes := [15, 63] ++ List.replicate 10 0;
     let s : State := lvw fbps (Addr.fbpTxbufW1 15 63) 0x90;
     (let u := s.carry q;
      (let k := (p.getD 0 0).toNat;
       (let i := (p.getD 1 0).toNat;
        (let w0 := wordAt p 4;
         (let dlc := (p.getD 8 0).toNat;
          (let d := u.txd k i;
           decide (p.length = 12 + dlcBytes (w0.getLsbD 30) dlc ∧ dlc ≤ 15 ∧ k ≤ 15 ∧ i ≤ 63 ∧ (w0.getLsbD 31 =
                 true → w0.getLsbD 30 = true) ∧ d.m = true ∧ d.own = true ∧ (u.txf k i).st = 0 ∧ u.fbpMode k =
                 1 ∧ u.errState k ≠ 2 ∧ d.twh = false ∧ (s.blocked q 0x402 = false ∧ s.locked 0x402 = false))))))))),
    (let n : Nat := 15;
     let t : Nat := 10000000000;
     let s : State := (let s := fbps.setTxf 15 63 { st := 2 };
           { s with hpi := { s.hpi with longs := [⟨0x402, rq, [15, 63], 0⟩] } });
     (let v := s.at t;
      let x := 63;
      decide ((v.longsOf 0x402).any (fun l => l.args = [n, x] && l.t + 1000000000 ≤ v.utick) = true ∧ (v.txf n x).st
            = 2))),
    (let n : Nat := 15;
     let t : Nat := 10000000000;
     let s : State := (let s := fbps; { s with hpi := { s.hpi with longs := [⟨0x402, rq, [15, 63], 0⟩] } });
     (let v := s.at t;
      let x := 63;
      decide ((v.longsOf 0x402).any (fun l => l.args = [n, x] && l.t + 1000000000 ≤ v.utick) = true ∧ (v.txf n x).st
            ≠ 2))),
    (let n : Nat := 15; let t : Nat := 0; let s : State := base; (let v := s.at t; decide ((v.port n).tdr = none))),
    (let n : Nat := 15;
     let t : Nat := 10000000000;
     let s : State := fbps.onPort 15 fun x => { x with tdr := some 0 };
     (let v := s.at t; (match (v.port n).tdr with | some t0 => decide (t0 + 1000000000 ≤ v.utick) | _ => false))),
    (let n : Nat := 15;
     let t : Nat := 0;
     let s : State := fbps.onPort 15 fun x => { x with tdr := some 0 };
     (let v := s.at t; (match (v.port n).tdr with | some t0 => decide (v.utick < t0 + 1000000000) | _ => false))),
    (let n : Nat := 15;
     let s : State := base;
     decide (((s.port n).tdr = none ∨ ((s.port n).burst = false ∧ (s.ncyc n ≠ 0 ∨ s.fbpMode n ≠ 0))))),
    (let n : Nat := 15;
     let s : State := fbps.onPort 15 fun x => { x with tdr := some 0, burst := true };
     decide ((s.port n).tdr.isSome = true ∧ ((s.port n).burst = true ∨ (s.ncyc n = 0 ∧ s.fbpMode n = 0))) &&
     (let v := s.onPort n fun x => { x with burst := false };
      (let w := v.setFld (Addr.fbpTdrStat n) 22 16 (v.fld (Addr.fbpTdrStat n) 22 16 + 1);
       decide (w.fld (Addr.fbpTdrStat n) 22 16 < 64)))),
    (let n : Nat := 15;
     let s : State := (fbps.onPort 15 fun x => { x with tdr := some 0, burst := true }).setFld (Addr.fbpTdrStat 15)
           22 16 63;
     decide ((s.port n).tdr.isSome = true ∧ ((s.port n).burst = true ∨ (s.ncyc n = 0 ∧ s.fbpMode n = 0))) &&
     (let v := s.onPort n fun x => { x with burst := false };
      (let w := v.setFld (Addr.fbpTdrStat n) 22 16 (v.fld (Addr.fbpTdrStat n) 22 16 + 1);
       decide (64 ≤ w.fld (Addr.fbpTdrStat n) 22 16))))].all id = true := by decide +kernel

/-- The clauses of StationFramesReachTheirDestination. -/
theorem test_hyps_StationFramesReachTheirDestination : [
    (let n : Nat := 15; let t : Nat := 0; let s : State := base; (let u := s.at t; decide ((u.port n).rx = []))),
    (let n : Nat := 15;
     let t : Nat := 0;
     let s : State := frx 7 [];
     (let u := s.at t;
      (match (u.port n).rx with
       | r :: rest =>
            decide (r.f.ide = false ∧ u.stnMode n = false) && (let c := r.f.id / 256 % 8; decide (c = 7))
       | _ => false))),
    (let n : Nat := 15;
     let t : Nat := 0;
     let s : State := frx 5 [];
     (let u := s.at t;
      (match (u.port n).rx with
       | r :: rest =>
            decide (r.f.ide = false ∧ u.stnMode n = false) &&
            (let c := r.f.id / 256 % 8; decide ((c = 0 ∨ c = 1 ∨ c = 5)))
       | _ => false))),
    (let n : Nat := 15;
     let t : Nat := 0;
     let s : State := (frx 2 []).onPort 15 fun x => { x with rx := [⟨{ fr0 with id := 2 * 256 + 192 }, 0, 0⟩] };
     (let u := s.at t;
      (match (u.port n).rx with
       | r :: rest =>
            decide (r.f.ide = false ∧ u.stnMode n = false) &&
            (let v := u.onPort n fun x => { x with rx := rest };
             (let c := r.f.id / 256 % 8;
              (let stn := r.f.id / 2 % 128;
               (let k := 96 * n + stn; decide (2 ≤ c ∧ c ≠ 5 ∧ c ≠ 7 ∧ (95 < stn ∨ v.stnEn k = false))))))
       | _ => false))),
    (let n : Nat := 15;
     let t : Nat := 0;
     let s : State := frx 2 [1];
     (let u := s.at t;
      (match (u.port n).rx with
       | r :: rest =>
            decide (r.f.ide = false ∧ u.stnMode n = false) &&
            (let v := u.onPort n fun x => { x with rx := rest };
             (let c := r.f.id / 256 % 8;
              (let stn := r.f.id / 2 % 128;
               (let k := 96 * n + stn;
                (let d := slice r.f.data 0 (dlcBytes r.f.fdf r.f.dlc);
                 decide (stn ≤ 95 ∧ v.stnEn k = true) &&
                 (let w := v.onStn k fun y => { y with heard := true };
                  decide (c = 2 ∧ d.length ≠ dlcBytes true (dlcFor (w.inLen k)))))))))
       | _ => false))),
    (let n : Nat := 15;
     let t : Nat := 0;
     let s : State := (let s := lvw (frx 2 [1]) (Addr.stnEntryW0 (96 * 15 + 95)) 0x101; s.setFld (Addr.stnEntryW5 (96
           * 15 + 95)) 2 0 5);
     (let u := s.at t;
      (match (u.port n).rx with
       | r :: rest =>
            decide (r.f.ide = false ∧ u.stnMode n = false) &&
            (let v := u.onPort n fun x => { x with rx := rest };
             (let c := r.f.id / 256 % 8;
              (let stn := r.f.id / 2 % 128;
               (let k := 96 * n + stn;
                (let d := slice r.f.data 0 (dlcBytes r.f.fdf r.f.dlc);
                 decide (stn ≤ 95 ∧ v.stnEn k = true) &&
                 (let w := v.onStn k fun y => { y with heard := true };
                  decide (c = 2 ∧ d.length = dlcBytes true (dlcFor (w.inLen k)) ∧ d.take (w.inLen k) ≠ [] ∧
                        w.stnState k ≠ 4 ∧ w.stnState k ≠ 6)))))))
       | _ => false))),
    (let n : Nat := 15;
     let t : Nat := 0;
     let s : State := frx 3 [1];
     (let u := s.at t;
      (match (u.port n).rx with
       | r :: rest =>
            decide (r.f.ide = false ∧ u.stnMode n = false) &&
            (let v := u.onPort n fun x => { x with rx := rest };
             (let c := r.f.id / 256 % 8;
              (let stn := r.f.id / 2 % 128;
               (let k := 96 * n + stn;
                (let d := slice r.f.data 0 (dlcBytes r.f.fdf r.f.dlc);
                 decide (stn ≤ 95 ∧ v.stnEn k = true ∧ c = 3 ∧ d.length ≠ 48))))))
       | _ => false))),
    (let n : Nat := 15;
     let t : Nat := 0;
     let s : State := (frx 3 (List.replicate 48 1)).setFld (Addr.stnEntryW5 (96 * 15 + 95)) 2 0 5;
     (let u := s.at t;
      (match (u.port n).rx with
       | r :: rest =>
            decide (r.f.ide = false ∧ u.stnMode n = false) &&
            (let v := u.onPort n fun x => { x with rx := rest };
             (let c := r.f.id / 256 % 8;
              (let stn := r.f.id / 2 % 128;
               (let k := 96 * n + stn;
                (let d := slice r.f.data 0 (dlcBytes r.f.fdf r.f.dlc);
                 decide (stn ≤ 95 ∧ v.stnEn k = true) &&
                 (let w := v.onStn k fun y => { y with heard := true };
                  decide (c = 3 ∧ d.length = 48 ∧ w.stnState k ≠ 4 ∧ w.stnState k ≠ 6)))))))
       | _ => false))),
    (let n : Nat := 15;
     let t : Nat := 0;
     let s : State := frx 4 [];
     (let u := s.at t;
      (match (u.port n).rx with
       | r :: rest =>
            decide (r.f.ide = false ∧ u.stnMode n = false) &&
            (let v := u.onPort n fun x => { x with rx := rest };
             (let c := r.f.id / 256 % 8;
              (let stn := r.f.id / 2 % 128;
               (let k := 96 * n + stn;
                (let d := slice r.f.data 0 (dlcBytes r.f.fdf r.f.dlc);
                 decide (stn ≤ 95 ∧ v.stnEn k = true ∧ c = 4 ∧ d = []))))))
       | _ => false))),
    (let n : Nat := 15;
     let t : Nat := 0;
     let s : State := (stns 4).onPort 15 fun x => { x with rx := ((frx 4 [0]).port 15).rx };
     (let u := s.at t;
      (match (u.port n).rx with
       | r :: rest =>
            decide (r.f.ide = false ∧ u.stnMode n = false) &&
            (let v := u.onPort n fun x => { x with rx := rest };
             (let c := r.f.id / 256 % 8;
              (let stn := r.f.id / 2 % 128;
               (let k := 96 * n + stn;
                (let d := slice r.f.data 0 (dlcBytes r.f.fdf r.f.dlc);
                 decide (stn ≤ 95 ∧ v.stnEn k = true) &&
                 (let w := v.onStn k fun y => { y with heard := true };
                  decide (c = 4 ∧ d = [0] ∧ w.stnState k = 4 ∧ w.joinsRun n = true)))))))
       | _ => false))),
    (let n : Nat := 15;
     let t : Nat := 0;
     let s : State := (stns 5).onPort 15 fun x => { x with rx := ((frx 4 [0]).port 15).rx };
     (let u := s.at t;
      (match (u.port n).rx with
       | r :: rest =>
            decide (r.f.ide = false ∧ u.stnMode n = false) &&
            (let v := u.onPort n fun x => { x with rx := rest };
             (let c := r.f.id / 256 % 8;
              (let stn := r.f.id / 2 % 128;
               (let k := 96 * n + stn;
                (let d := slice r.f.data 0 (dlcBytes r.f.fdf r.f.dlc);
                 decide (stn ≤ 95 ∧ v.stnEn k = true) &&
                 (let w := v.onStn k fun y => { y with heard := true };
                  decide (c = 4 ∧ d = [0] ∧ w.stnState k ≠ 4 ∧ w.stnState k ≠ 6)))))))
       | _ => false))),
    (let s := frx 4 [1];
     (match (s.port 15).rx with
      | r :: _ =>
           decide (r.f.ide = false ∧ s.stnMode 15 = false ∧ r.f.id / 2 % 128 ≤ 95 ∧ s.stnEn (96 * 15 + r.f.id / 2 %
                 128) = true ∧ r.f.id / 256 % 8 = 4 ∧ slice r.f.data 0 (dlcBytes r.f.fdf r.f.dlc) = [1])
      | [] => false)),
    (let n : Nat := 15;
     let t : Nat := 0;
     let s : State := frx 4 [2];
     (let u := s.at t;
      (match (u.port n).rx with
       | r :: rest =>
            decide (r.f.ide = false ∧ u.stnMode n = false) &&
            (let v := u.onPort n fun x => { x with rx := rest };
             (let c := r.f.id / 256 % 8;
              (let stn := r.f.id / 2 % 128;
               (let k := 96 * n + stn;
                (let d := slice r.f.data 0 (dlcBytes r.f.fdf r.f.dlc);
                 decide (stn ≤ 95 ∧ v.stnEn k = true) &&
                 (let w := v.onStn k fun y => { y with heard := true };
                  decide (c = 4) &&
                  (match d with
                   | b :: rest =>
                        decide (1 < b.toNat ∧ w.lf (Addr.stnPctrl n) 5 5 = 0)
                   | _ => false)))))))
       | _ => false))),
    (let n : Nat := 15;
     let t : Nat := 0;
     let s : State := frx 6 [2];
     (let u := s.at t;
      (match (u.port n).rx with
       | r :: rest =>
            decide (r.f.ide = false ∧ u.stnMode n = false) &&
            (let v := u.onPort n fun x => { x with rx := rest };
             (let c := r.f.id / 256 % 8;
              (let stn := r.f.id / 2 % 128;
               (let k := 96 * n + stn;
                decide (stn ≤ 95 ∧ v.stnEn k = true) &&
                (let w := v.onStn k fun y => { y with heard := true }; decide (c = 6 ∧ (w.station k).x = none))))))
       | _ => false)))].all id = true := by decide +kernel

/-- The clauses of StationsJoinAreLostAndAnswer. -/
theorem test_hyps_StationsJoinAreLostAndAnswer : [
    (let n : Nat := 15;
     let stn : Nat := 95;
     let t : Nat := 0;
     let s : State := (stns 1).onStn (96 * 15 + 95) fun y => { y with hello := true };
     decide (n < 16 ∧ stn < 96) &&
     (let u := s.at t;
      (let k := 96 * n + stn;
       (let x := u.station k;
        (let may := u.joinsRun n = true ∧ u.stnEn k = true ∧ (u.stnState k = 1 ∨ u.stnState k = 6) ∧ x.x = none ∧
               (x.hello = true ∨ x.due ≤ u.utick);
         decide (may)))))),
    (let n : Nat := 15;
     let stn : Nat := 95;
     let t : Nat := 0;
     let s : State := base;
     decide (n < 16 ∧ stn < 96) &&
     (let u := s.at t;
      (let k := 96 * n + stn;
       (let x := u.station k;
        (let may := u.joinsRun n = true ∧ u.stnEn k = true ∧ (u.stnState k = 1 ∨ u.stnState k = 6) ∧ x.x = none ∧
               (x.hello = true ∨ x.due ≤ u.utick);
         decide (¬may)))))),
    (let n : Nat := 15;
     let stn : Nat := 95;
     let t : Nat := 0;
     let s : State := base;
     decide (n < 16 ∧ stn < 96) &&
     (let u := s.at t; (let k := 96 * n + stn; (let x := u.station k; decide (x.x = none))))),
    (let n : Nat := 15;
     let stn : Nat := 95;
     let t : Nat := 0;
     let s : State := stnx 2 1 1 false;
     decide (n < 16 ∧ stn < 96) &&
     (let u := s.at t;
      (let k := 96 * n + stn;
       (let x := u.station k;
        (match x.x with
         | some m =>
              decide ((10 * u.utick < 10 * m.t + u.rspt n ∨ (m.joins = true ∧ u.joinsRun n = false)))
         | _ => false))))),
    (let n : Nat := 15;
     let stn : Nat := 95;
     let t : Nat := 20000000;
     let s : State := stnx 2 1 2 false;
     decide (n < 16 ∧ stn < 96) &&
     (let u := s.at t;
      (let k := 96 * n + stn;
       (let x := u.station k;
        (match x.x with
         | some m =>
              decide (10 * m.t + u.rspt n ≤ 10 * u.utick ∧ (m.joins = false ∨ u.joinsRun n = true) ∧ m.tries < 3)
         | _ => false))))),
    (let n : Nat := 15;
     let stn : Nat := 95;
     let t : Nat := 20000000;
     let s : State := stnx 2 1 3 true;
     decide (n < 16 ∧ stn < 96) &&
     (let u := s.at t;
      (let k := 96 * n + stn;
       (let x := u.station k;
        (match x.x with
         | some m =>
              decide (10 * m.t + u.rspt n ≤ 10 * u.utick ∧ (m.joins = false ∨ u.joinsRun n = true) ∧ 3 ≤ m.tries ∧
                    m.host = true)
         | _ => false))))),
    (let n : Nat := 15;
     let stn : Nat := 95;
     let t : Nat := 20000000;
     let s : State := stnx 2 1 3 false;
     decide (n < 16 ∧ stn < 96) &&
     (let u := s.at t;
      (let k := 96 * n + stn;
       (let x := u.station k;
        (match x.x with
         | some m =>
              decide (10 * m.t + u.rspt n ≤ 10 * u.utick ∧ (m.joins = false ∨ u.joinsRun n = true) ∧ 3 ≤ m.tries ∧
                    m.host = false ∧ m.op < 0x40 ∧ m.op ≠ 3)
         | _ => false))))),
    (let n : Nat := 15;
     let stn : Nat := 95;
     let t : Nat := 20000000;
     let s : State := stnx 2 3 3 false;
     decide (n < 16 ∧ stn < 96) &&
     (let u := s.at t;
      (let k := 96 * n + stn;
       (let x := u.station k;
        (match x.x with
         | some m =>
              decide (10 * m.t + u.rspt n ≤ 10 * u.utick ∧ (m.joins = false ∨ u.joinsRun n = true) ∧ 3 ≤ m.tries ∧
                    m.host = false ∧ m.op = 3)
         | _ => false))))),
    (let n : Nat := 15;
     let stn : Nat := 95;
     let t : Nat := 100000000;
     let s : State := stns 4;
     decide (n < 16 ∧ stn < 96) &&
     (let u := s.at t;
      (let k := 96 * n + stn;
       (let x := u.station k;
        (let due := u.joinsRun n = true ∧ u.stnState k = 4 ∧ u.waitFirst k ≤ 10 * (u.utick - x.first);
         decide (due)))))),
    (let n : Nat := 15;
     let stn : Nat := 95;
     let t : Nat := 0;
     let s : State := stns 4;
     decide (n < 16 ∧ stn < 96) &&
     (let u := s.at t;
      (let k := 96 * n + stn;
       (let x := u.station k;
        (let due := u.joinsRun n = true ∧ u.stnState k = 4 ∧ u.waitFirst k ≤ 10 * (u.utick - x.first);
         decide (¬due)))))),
    (let n : Nat := 15;
     let stn : Nat := 95;
     let t : Nat := 0;
     let s : State := base;
     decide (n < 16 ∧ stn < 96) &&
     (let u := s.at t; (let k := 96 * n + stn; decide (u.stnMode n = false ∧ (u.kaper k = 0 ∨ u.stnEn k = false))))),
    (let n : Nat := 15;
     let stn : Nat := 95;
     let t : Nat := 0;
     let s : State := lvw base (Addr.fbpCtrl 15) 0x10;
     decide (n < 16 ∧ stn < 96) &&
     (let u := s.at t;
      decide (u.stnMode n = true ∧ ((u.port n).smActive = false ∨ (u.port n).claimSet.kaper = 0 ∨ u.lf (Addr.fbpCtrl
            n) 15 8 ≠ stn)))),
    (let n : Nat := 15;
     let stn : Nat := 95;
     let t : Nat := 0;
     let s : State := (lvw base (Addr.fbpCtrl 15) 0x5F10).onPort 15 fun x =>
           { x with smActive := true, claimSet := { kaper := 5 } };
     decide (n < 16 ∧ stn < 96) &&
     (let u := s.at t;
      decide (u.stnMode n = true ∧ (u.port n).smActive = true ∧ (u.port n).claimSet.kaper ≠ 0 ∧ u.lf (Addr.fbpCtrl
            n) 15 8 = stn))),
    (let n : Nat := 15;
     let stn : Nat := 95;
     let t : Nat := 0;
     let s : State := (let s := lvw (lvw fbps (Addr.stnEntryW0 (96 * 15 + 95)) 1) (Addr.stnEntryW3 (96 * 15 + 95)) 1;
           lvw (lvw s (Addr.fbpTtWinW0 15 31) 0x10000) (Addr.fbpTtWinW1 15 31) (3 + 95 * 65536));
     decide (n < 16 ∧ stn < 96) &&
     (let u := s.at t;
      (let k := 96 * n + stn; decide (u.kaper k ≠ 0 ∧ u.stnEn k = true ∧ u.stnMode n = false ∧ u.hasRx k = true)))),
    (let n : Nat := 15;
     let stn : Nat := 95;
     let t : Nat := 0;
     let s : State := (let s := lvw (stns 5) (Addr.stnEntryW3 (96 * 15 + 95)) 1; lvw s (Addr.stnEntryW0 (96 * 15 +
           95)) 0x11);
     decide (n < 16 ∧ stn < 96) &&
     (let u := s.at t;
      (let k := 96 * n + stn;
       (let x := u.station k;
        decide (u.kaper k ≠ 0 ∧ u.stnEn k = true ∧ u.stnMode n = false ∧ u.hasRx k = false ∧ u.stnState k = 5 ∧
              u.lossN k ≠ 0 ∧ x.heard = false))))),
    (let n : Nat := 15;
     let stn : Nat := 95;
     let s : State := stns 1;
     decide (n < 16 ∧ stn < 96) &&
     (let k := 96 * n + stn;
      let m := (⟨1, 1, [], 1, 0, false⟩ : Mgmt);
      decide (m.op = 1 ∧ m.host = false ∧ (s.stnState k = 1 ∨ s.stnState k = 6)))),
    (let n : Nat := 15;
     let stn : Nat := 95;
     let s : State := stns 2;
     decide (n < 16 ∧ stn < 96) &&
     (let k := 96 * n + stn;
      let m := (⟨1, 1, [], 1, 0, false⟩ : Mgmt);
      decide (m.op = 1 ∧ m.host = false ∧ s.stnState k = 2 ∧ s.capReason k (s.station k).cap0 ≠ 0))),
    (let n : Nat := 15;
     let stn : Nat := 95;
     let s : State := (stns 2).onStn (96 * 15 + 95) fun y => { y with cap0 := [1, 0] ++ List.replicate 46 0 };
     decide (n < 16 ∧ stn < 96) &&
     (let k := 96 * n + stn;
      let m := (⟨1, 1, [], 1, 0, false⟩ : Mgmt);
      decide (m.op = 1 ∧ m.host = false ∧ s.stnState k = 2 ∧ s.capReason k (s.station k).cap0 = 0))),
    (let n : Nat := 15;
     let stn : Nat := 95;
     let s : State := stns 3;
     decide (n < 16 ∧ stn < 96) &&
     (let k := 96 * n + stn; let m := (⟨2, 1, [], 1, 0, false⟩ : Mgmt); decide (m.op = 2 ∧ s.stnState k = 3))),
    (let q : Req := rq;
     let p : Bytes := List.replicate 3 0;
     let s : State := base;
     (let n := (p.getD 0 0).toNat;
      (let i := (p.getD 1 0).toNat;
       decide (p.length = 3) &&
       (let c := (p.getD 2 0).toNat;
        decide (n ≤ 15 ∧ i + c ≤ 96 ∧ (s.blocked q 0x500 = false ∧ s.locked 0x500 = false)))))),
    (let q : Req := rq;
     let p : Bytes := [15, 95, 2];
     let s : State := base;
     (let n := (p.getD 0 0).toNat;
      (let i := (p.getD 1 0).toNat;
       decide (p.length = 3) &&
       (let c := (p.getD 2 0).toNat;
        decide ((15 < n ∨ 96 < i + c) ∧ (s.blocked q 0x500 = false ∧ s.locked 0x500 = false)))))),
    (let q : Req := rq;
     let p : Bytes := List.replicate 2 0;
     let s : State := { base with role := .solo };
     (let u := s.carry q;
      (let n := (p.getD 0 0).toNat;
       (let i := (p.getD 1 0).toNat;
        (let k := 96 * n + i;
         decide (p.length = 2 ∧ n ≤ 15 ∧ i ≤ 95 ∧ (u.role = .solo ∨ u.role = .primary) ∧ u.stnEn k = false ∧
               (s.blocked q 0x501 = false ∧ s.locked 0x501 = false))))))),
    (let q : Req := rq;
     let p : Bytes := [15, 95];
     let s : State := stns 5;
     (let u := s.carry q;
      (let n := (p.getD 0 0).toNat;
       (let i := (p.getD 1 0).toNat;
        (let k := 96 * n + i;
         decide (p.length = 2 ∧ n ≤ 15 ∧ i ≤ 95 ∧ (u.role = .solo ∨ u.role = .primary) ∧ u.stnEn k = true ∧
               (s.blocked q 0x501 = false ∧ s.locked 0x501 = false))))))),
    (let q : Req := rq;
     let p : Bytes := List.replicate 2 0;
     let s : State := { base with role := .tracking };
     (let u := s.carry q;
      (let n := (p.getD 0 0).toNat;
       (let i := (p.getD 1 0).toNat;
        decide (p.length = 2 ∧ n ≤ 15 ∧ i ≤ 95 ∧ (u.role = .tracking ∨ u.role = .joining ∨ u.role = .detached) ∧
              (s.blocked q 0x501 = false ∧ s.locked 0x501 = false)))))),
    (let q : Req := rq;
     let p : Bytes := [16, 0];
     let s : State := base;
     (let n := (p.getD 0 0).toNat;
      decide (p.length = 2 ∧ 15 < n ∧ (s.blocked q 0x504 = false ∧ s.locked 0x504 = false)))),
    (let q : Req := rq;
     let p : Bytes := [15, 95, 16, 0];
     let s : State := stns 1;
     (let u := s.carry q;
      (let n := (p.getD 0 0).toNat;
       (let i := (p.getD 1 0).toNat;
        (let k := 96 * n + i;
         decide (4 ≤ p.length ∧ p.length ≤ 60 ∧ n ≤ 15 ∧ i ≤ 95 ∧ (u.role = .solo ∨ u.role = .primary)) &&
         (let op := (p.getD 2 0).toNat;
          decide ((op = 1 ∨ 15 < op) ∧ u.stnState k ≠ 5 ∧ (s.blocked q 0x502 = false ∧ s.locked 0x502 = false)))))))),
    (let q : Req := rq;
     let p : Bytes := [15, 95, 16, 0];
     let s : State := stnx 5 1 1 false;
     (let u := s.carry q;
      (let n := (p.getD 0 0).toNat;
       (let i := (p.getD 1 0).toNat;
        (let k := 96 * n + i;
         decide (4 ≤ p.length ∧ p.length ≤ 60 ∧ n ≤ 15 ∧ i ≤ 95 ∧ (u.role = .solo ∨ u.role = .primary)) &&
         (let op := (p.getD 2 0).toNat;
          decide ((op = 1 ∨ 15 < op) ∧ u.stnState k = 5 ∧ (u.station k).x ≠ none ∧ (s.blocked q 0x502 = false ∧
                s.locked 0x502 = false)))))))),
    (let q : Req := rq;
     let p : Bytes := [15, 95, 1, 0] ++ List.replicate 56 0;
     let s : State := stns 5;
     (let u := s.carry q;
      (let n := (p.getD 0 0).toNat;
       (let i := (p.getD 1 0).toNat;
        (let k := 96 * n + i;
         decide (4 ≤ p.length ∧ p.length ≤ 60 ∧ n ≤ 15 ∧ i ≤ 95 ∧ (u.role = .solo ∨ u.role = .primary)) &&
         (let op := (p.getD 2 0).toNat;
          decide ((op = 1 ∨ 15 < op) ∧ u.stnState k = 5 ∧ (u.station k).x = none ∧ (s.blocked q 0x502 = false ∧
                s.locked 0x502 = false)))))))),
    (let v : Word := (1 : Word); let m := 15; decide (m < 16 ∧ v.getLsbD 0 = true)),
    (let v : Word := (0 : Word); decide (v.getLsbD 0 = false))].all id = true := by decide +kernel

/-- The clauses of FieldTicksSampleFilterAndDrive. -/
theorem test_hyps_FieldTicksSampleFilterAndDrive : [
    (let t : Nat := 5; let n : Nat := 47; decide (n < 48 ∧ onGrid t = false)),
    (let t : Nat := 0; let n : Nat := 47; decide (n < 48 ∧ onGrid t = true)),
    (let t : Nat := 0;
     let n : Nat := 47;
     let s : State := { base with fio := { base.fio with takeNew := false }, role := .tracking };
     decide (n < 48) && (let u := s.at t; decide (u.fio.takeNew = false ∧ u.role = .tracking))),
    (let n : Nat := 47;
     let smp : FioSample := smp0; decide (n < 48 ∧ smp.badWord = none ∧ (smp.crcOk = true ∨ smp.again = true))),
    (let t : Nat := 0;
     let n : Nat := 47;
     let smp : FioSample := (⟨false, false, 0, 0, 0, [], none⟩ : FioSample);
     let s : State := { base with fio := { base.fio with linkSeen := true } };
     decide (n < 48) &&
     (let u := s.at t; decide (smp.badWord = none ∧ smp.crcOk = false ∧ smp.again = false ∧ u.fio.linkSeen = true))),
    (let t : Nat := 0;
     let n : Nat := 47; let s : State := base; decide (n < 48) && (let u := s.at t; decide (u.fio.linkBad < 3))),
    (let t : Nat := 0;
     let n : Nat := 47;
     let s : State := ({ base with fio := { base.fio with linkBad := 3 } } : State);
     decide (n < 48) && (let u := s.at t; decide (3 ≤ u.fio.linkBad))),
    (let n : Nat := 47;
     let v : Bool := false;
     let s : State := lvw base (Addr.chCfg 47) 0x40;
     decide (n < 48) &&
     (let x := s.fch n;
      (let c := if v = x.cand then min (x.cnt + 1) 15 else 1; decide (c < s.lf (Addr.chCfg n) 8 5)))),
    (let n : Nat := 47;
     let v : Bool := false;
     let s : State := base;
     decide (n < 48) &&
     (let x := s.fch n;
      (let c := if v = x.cand then min (x.cnt + 1) 15 else 1; decide (s.lf (Addr.chCfg n) 8 5 ≤ c)))),
    (let n : Nat := 47; decide (n < 48) && let k := 1; decide (k < 2)),
    (let n : Nat := 47; decide (n < 48) && let k := 2; decide (2 ≤ k)),
    (let n : Nat := 47;
     let s : State := (let s := lvw base (Addr.chCfg 47) 0x2002;
           { s with op := .run, fio := { s.fio with cmd := 2 ^ 47 } });
     decide (n < 48 ∧ s.drvWant n = true ∧ s.chPaired n = true)),
    (let n : Nat := 47; let s : State := base; decide (n < 48) && (let on := s.chDrv n; true)),
    (let n : Nat := 47; let s : State := base; decide (n < 48 ∧ s.chDrv n = false))].all id = true := by decide +kernel

/-- The clauses of FieldEventsAndOpcodes. -/
theorem test_hyps_FieldEventsAndOpcodes : [
    (let g : Nat := 5;
     let ch : Nat := 47;
     let s : State := ((base.setBit (Addr.grpStat g) 1 false) : State);
     decide (g < 6 ∧ ch < 48 ∧ s.bit (Addr.grpStat g) 1 = false)),
    (let g : Nat := 5;
     let ch : Nat := 47;
     let s : State := (((base.setBit (Addr.grpStat g) 0 false).setBit (Addr.grpStat g) 1 false) : State);
     decide (g < 6 ∧ ch < 48 ∧ s.bit (Addr.grpStat g) 0 = false ∧ s.bit (Addr.grpStat g) 1 = false)),
    (let g : Nat := 5;
     let ch : Nat := 47;
     let s : State := (((base.setBit (Addr.grpStat g) 0 true).setBit (Addr.grpStat g) 1 false) : State);
     decide (g < 6 ∧ ch < 48 ∧ s.bit (Addr.grpStat g) 0 = true ∧ s.bit (Addr.grpStat g) 1 = false)),
    (let g : Nat := 5;
     let ch : Nat := 47;
     let s : State := ((base.setBit (Addr.grpStat g) 1 true) : State);
     decide (g < 6 ∧ ch < 48 ∧ s.bit (Addr.grpStat g) 1 = true)),
    (let g : Nat := 5; let ch : Nat := 47; let v : Word := 0; decide (g < 6 ∧ ch < 48 ∧ v.getLsbD 0 = false)),
    (let g : Nat := 5;
     let ch : Nat := 47;
     let v : Word := 1;
     let s : State := ((base.setBit (Addr.grpStat g) 2 true) : State);
     decide (g < 6 ∧ ch < 48 ∧ v.getLsbD 0 = true ∧ s.bit (Addr.grpStat g) 2 = true)),
    (let g : Nat := 5;
     let ch : Nat := 47;
     let v : Word := 1;
     let s : State := ((base.setBit (Addr.grpStat g) 2 false) : State);
     decide (g < 6 ∧ ch < 48 ∧ v.getLsbD 0 = true ∧ s.bit (Addr.grpStat g) 2 = false)),
    (let g : Nat := 5;
     let ch : Nat := 47;
     let v : Word := 1;
     let s : State := outp 47;
     decide (g < 6 ∧ ch < 48 ∧ v.getLsbD 0 = true ∧ s.chOut ch = true) &&
     (let l := s.leader ch; decide ((s.fch l).held = false))),
    (let g : Nat := 5;
     let ch : Nat := 47;
     let v : Word := 1;
     let s : State := (outp 47).onFch 47 fun x => { x with held := true };
     decide (g < 6 ∧ ch < 48 ∧ v.getLsbD 0 = true ∧ s.chOut ch = true) &&
     (let l := s.leader ch; decide ((s.fch l).held = true ∧ s.lf (Addr.chCfg l) 31 24 = 0))),
    (let g : Nat := 5;
     let ch : Nat := 47; let s : State := base; decide (g < 6 ∧ ch < 48 ∧ (s.chOut ch = false ∨ s.chDrv ch = false))),
    (let g : Nat := 5;
     let ch : Nat := 47;
     let s : State := (outp 47).setBit (Addr.chStat 47) 2 true;
     decide (g < 6 ∧ ch < 48 ∧ s.chOut ch = true ∧ s.chDrv ch = true)),
    (let g : Nat := 5;
     let ch : Nat := 47;
     let t : Nat := 0;
     let s : State := outp 47;
     decide (g < 6 ∧ ch < 48) &&
     (let u := s.at t;
      decide (u.chOut ch = true) &&
      (let l := u.leader ch;
       (let r := u.lf (Addr.chCfg l) 31 24;
        decide (((u.fch l).held = false ∨ r = 0 ∨ u.utick < (u.fch l).offAt + r * 1000000)))))),
    (let g : Nat := 5;
     let ch : Nat := 47;
     let t : Nat := 10000000;
     let s : State := (lvw base (Addr.chCfg 47) 0x01000002).onFch 47 fun x => { x with held := true };
     decide (g < 6 ∧ ch < 48) &&
     (let u := s.at t;
      decide (u.chOut ch = true) &&
      (let l := u.leader ch;
       (let r := u.lf (Addr.chCfg l) 31 24;
        decide ((u.fch l).held = true ∧ r ≠ 0 ∧ (u.fch l).offAt + r * 1000000 ≤ u.utick))))),
    (let g : Nat := 5;
     let ch : Nat := 47;
     let t : Nat := 0;
     let s : State := outp 47;
     decide (g < 6 ∧ ch < 48) &&
     (let u := s.at t; decide (u.chOut ch = true) && (let l := u.leader ch; decide ((u.fch l).hot = false)))),
    (let g : Nat := 5;
     let ch : Nat := 47;
     let t : Nat := 0;
     let s : State := (outp 47).onFch 47 fun x => { x with hot := true };
     decide (g < 6 ∧ ch < 48) &&
     (let u := s.at t; decide (u.chOut ch = true) && (let l := u.leader ch; decide ((u.fch l).hot = true)))),
    (let g : Nat := 5;
     let ch : Nat := 47;
     let t : Nat := 0; let s : State := base; decide (g < 6 ∧ ch < 48) && (let u := s.at t; decide (u.chMode ch ≠ 4))),
    (let g : Nat := 5;
     let ch : Nat := 47;
     let t : Nat := 0;
     let s : State := lvw base (Addr.chCfg 47) 4;
     decide (g < 6 ∧ ch < 48) && (let u := s.at t; decide (u.chMode ch = 4))),
    (let g : Nat := 5;
     let ch : Nat := 47;
     let s : State := base; decide (g < 6 ∧ ch < 48 ∧ (s.chOut ch = false ∨ s.lf (Addr.chLm (s.leader ch)) 0 0 = 0))),
    (let g : Nat := 5;
     let ch : Nat := 47;
     let m : LoadSample := (⟨0, 1500, true, false⟩ : LoadSample);
     let s : State := lvw (outp 47) (Addr.chLm 47) 1;
     decide (g < 6 ∧ ch < 48 ∧ s.chOut ch = true ∧ s.lf (Addr.chLm (s.leader ch)) 0 0 = 1 ∧ (m.inLimit = true ∨
           m.offBefore = true ∨ m.iA < 100))),
    (let q : Req := rq;
     let p : Bytes := List.replicate 8 0;
     let s : State := base; decide (p.length = 8 ∧ (s.blocked q 0x600 = false ∧ s.locked 0x600 = false))),
    (let q : Req := rq;
     let b : Byte := 5;
     let s : State := ((base.setBit (Addr.grpStat b.toNat) 2 true) : State);
     (let u := s.carry q;
      decide (b.toNat ≤ 5 ∧ u.bit (Addr.grpStat b.toNat) 2 = true ∧ (s.blocked q 0x601 = false ∧ s.locked 0x601 =
            false)))),
    (let q : Req := rq;
     let b : Byte := 5;
     let s : State := ((base.setBit (Addr.grpStat b.toNat) 2 false) : State);
     (let u := s.carry q;
      decide (b.toNat ≤ 5 ∧ u.bit (Addr.grpStat b.toNat) 2 = false ∧ (s.blocked q 0x601 = false ∧ s.locked 0x601 =
            false)))),
    (let q : Req := rq;
     let b : Byte := 6;
     let s : State := base; decide (5 < b.toNat ∧ (s.blocked q 0x601 = false ∧ s.locked 0x601 = false))),
    (let q : Req := rq;
     let b : Byte := 0;
     let s : State := base; decide (b.toNat ≤ 47 ∧ (s.blocked q 0x602 = false ∧ s.locked 0x602 = false))),
    (let q : Req := rq;
     let b : Byte := 48;
     let s : State := base; decide (47 < b.toNat ∧ (s.blocked q 0x602 = false ∧ s.locked 0x602 = false)))].all id = true := by decide +kernel

/-- The clauses of TheTowlineAndPeerAliveAreWatched. -/
theorem test_hyps_TheTowlineAndPeerAliveAreWatched : [
    (let s : State := lvw base Addr.twlCfg 1;
     decide (s.pairOn = true ∧ (s.twl.link = .down ∨ s.twl.link = .training))),
    (let s : State := base; decide ((s.pairOn = false ∨ s.twl.link = .up ∨ s.twl.link = .conflict))),
    (let t : Nat := 0;
     let cap : Words := [0];
     let s : State := lvw base Addr.twlCfg 1;
     (let u := s.at t;
      (let link (s : State) (l : Link) : State :=
             { s with twl := { s.twl with link := l, peer := none, capSent := none, paliq := none, replay := [], repeats := 0, fseq := 0, rseq := 0, sent := none } };
       let d := 0;
       let k := 0;
       decide (u.pairOn = true ∧ (u.twl.link = .down ∨ u.twl.link = .training)) &&
       (let x := (link u .up).wr Addr.twlDelay (BitVec.ofNat 32 (min d 0xFFFF + min k 0xFF * 65536));
        (let y : State := { x with twl := { x.twl with fails := 0, lastTick := x.dtime } };
         decide (bitsOf (cap.getD 0 0) 8 8 = y.unitN)))))),
    (let t : Nat := 0;
     let cap : Words := [0x100];
     let s : State := lvw base Addr.twlCfg 1;
     (let u := s.at t;
      (let link (s : State) (l : Link) : State :=
             { s with twl := { s.twl with link := l, peer := none, capSent := none, paliq := none, replay := [], repeats := 0, fseq := 0, rseq := 0, sent := none } };
       let d := 0;
       let k := 0;
       decide (u.pairOn = true ∧ (u.twl.link = .down ∨ u.twl.link = .training)) &&
       (let x := (link u .up).wr Addr.twlDelay (BitVec.ofNat 32 (min d 0xFFFF + min k 0xFF * 65536));
        (let y : State := { x with twl := { x.twl with fails := 0, lastTick := x.dtime } };
         decide (bitsOf (cap.getD 0 0) 8 8 ≠ y.unitN)))))),
    (let s : State := { base with twl := { base.twl with link := .up }, role := .tracking };
     decide (s.twl.link = .up ∧ (s.role = .tracking ∨ s.role = .joining))),
    (let s : State := base; decide (s.role ≠ .tracking ∧ s.role ≠ .joining)),
    (let s : State := { base with twl := { base.twl with link := .up, replay := [(255, .tick 0)] } };
     decide (s.twl.link = .up ∧ s.twl.replay = ([] : List (Nat × TwlFrame)) ++ ((255 : BitVec 8).toNat, .tick 0) ::
           [])),
    (let s : State := { base with twl := { base.twl with link := .training } }; decide (s.twl.link = .training)),
    (let s : State := base; decide (s.twl.link ≠ .training)),
    (let s : State := { base with twl := { base.twl with link := .down } }; decide (s.twl.link = .down)),
    (let s : State := upl .solo; decide (s.twl.link ≠ .down)),
    (let t : Nat := 0;
     let s : State := { base with twl := { base.twl with link := .up } };
     (let u := s.at t; decide (u.twl.link = .up) && let r := 0; decide ((r = false ∨ 3 ≤ u.twl.repeats)))),
    (let t : Nat := 0;
     let s : State := { base with twl := { base.twl with link := .down } };
     (let u := s.at t; decide ((u.twl.link = .down ∨ u.twl.link = .training)))),
    (let t : Nat := 0; let s : State := base; (let u := s.at t; decide (u.twl.repeats < 3))),
    (let t : Nat := 25000;
     let s : State := upl .tracking;
     (let u := s.at t; decide ((u.role = .tracking ∨ u.role = .joining) ∧ u.twl.lastTick + 25000 ≤ u.dtime))),
    (let t : Nat := 0; let s : State := base; (let u := s.at t; decide (u.dtime < u.twl.lastTick + 25000))),
    (let t : Nat := 0;
     let s : State := { base with twl := { base.twl with wait := none } };
     (let u := s.at t; decide (u.twl.wait = none))),
    (let t : Nat := 0;
     let s : State := ({ base with twl := { base.twl with wait := some 0 } } : State);
     (let u := s.at t; (match u.twl.wait with | some w => decide (w ≤ u.utick) | _ => false))),
    (let t : Nat := 0;
     let s : State := ({ base with twl := { base.twl with wait := some 5 } } : State);
     (let u := s.at t; (match u.twl.wait with | some w => decide (u.utick < w) | _ => false))),
    (let t : Nat := 0;
     let s : State := { base with twl := { base.twl with pali := false } };
     (let u := s.at t; decide (u.twl.pali = false))),
    (let t : Nat := 0;
     let s : State := { base with twl := { base.twl with pali := true, calm := true } };
     (let u := s.at t; decide (u.twl.pali = true ∧ u.twl.calm = true))),
    (let t : Nat := 0;
     let s : State := { base with twl := { base.twl with pali := true, calm := false }, role := .tracking };
     (let u := s.at t; decide (u.twl.pali = true ∧ u.twl.calm = false ∧ u.twl.link ≠ .up ∧ u.role = .tracking))),
    (let s : State := { base with twl := { base.twl with pali := true } }; decide (s.twl.pali = true)),
    (let s : State := { base with twl := { base.twl with pali := false } }; decide (s.twl.pali = false)),
    (let s : State := base; decide (s.twl.link ≠ .up)),
    (let s : State := { base with twl := { base.twl with link := .up } };
     decide (s.twl.link = .up ∧ s.good.twl.palo = false)),
    (let s : State := (let b := upl .solo; { b with twl := { b.twl with palo := true } });
     decide (s.twl.link = .up ∧ s.good.twl.palo = true)),
    (let t : Nat := 0;
     let s : State := { base with twl := { base.twl with link := .up, paliq := none } };
     (let u := s.at t; decide (u.twl.link = .up) && (let g := u.good; decide (g.twl.paliq = none)))),
    (let t : Nat := 200000;
     let s : State := ({ base with twl := { base.twl with link := .up, paliq := some 0 } } : State);
     (let u := s.at t;
      decide (u.twl.link = .up) &&
      (let g := u.good; (match g.twl.paliq with | some t0 => decide (t0 + 10000 < g.utick) | _ => false)))),
    (let t : Nat := 0;
     let s : State := ({ base with twl := { base.twl with link := .up, paliq := some 0 } } : State);
     (let u := s.at t;
      decide (u.twl.link = .up) &&
      (let g := u.good; (match g.twl.paliq with | some t0 => decide (g.utick ≤ t0 + 10000) | _ => false)))),
    (let t : Nat := 100000;
     let s : State := ({ base with twl := { base.twl with link := .up, paliq := some 0 } } : State);
     (let u := s.at t; (match u.twl.paliq with | some t0 => decide (t0 + 10000 ≤ u.utick) | _ => false))),
    (let t : Nat := 0;
     let s : State := ({ base with twl := { base.twl with link := .up, paliq := some 0 } } : State);
     (let u := s.at t; (match u.twl.paliq with | some t0 => decide (u.utick < t0 + 10000) | _ => false))),
    (let t : Nat := 0;
     let s : State := { base with twl := { base.twl with paliq := none } };
     (let u := s.at t; decide (u.twl.paliq = none))),
    (let s : State := { base with role := .detached }; decide (s.role = .detached)),
    (let s : State := { base with role := .tracking }; decide (s.role = .tracking))].all id = true := by decide +kernel

/-- The clauses of ThePairAgreesAndAnswers. -/
theorem test_hyps_ThePairAgreesAndAnswers : [
    (let s : State := base; decide (s.twl.link ≠ .up)),
    (let t : Nat := 0;
     let arg : Nat := 0;
     let s : State := { base with twl := { base.twl with link := .up } };
     (let u := s.at t; (let h := u.good; decide (u.twl.link = .up ∧ (h.role ≠ .tracking ∨ 1 < arg))))),
    (let t : Nat := 0;
     let arg : Nat := 0;
     let gs : Nat := 0;
     let s : State := { base with twl := { base.twl with link := .up }, role := .tracking };
     (let u := s.at t; (let h := u.good; decide (u.twl.link = .up ∧ h.role = .tracking ∧ arg ≤ 1 ∧ gs ≤ h.se.g)))),
    (let t : Nat := 0;
     let gs : Nat := 1;
     let s : State := upl .tracking;
     (let u := s.at t;
      (let h := u.good;
       decide (u.twl.link = .up ∧ h.role = .tracking ∧ h.se.g < gs ∧ h.twl.done = [] ∧ h.twl.cyc = none ∧ h.slack
             (h.se.gT + 10000 * (gs - h.se.g) - h.dtime + 20000) = true)))),
    (let t : Nat := 0;
     let gs : Nat := 5;
     let s : State := (let s := upl .tracking;
           { s with se := { s.se with swap := { s.se.swap with chamber := .armed } } });
     (let u := s.at t;
      (let h := u.good;
       decide (u.twl.link = .up ∧ h.role = .tracking ∧ h.se.g < gs ∧ h.se.swap.chamber = .armed ∧ h.se.pfail =
             false ∧ h.slack (h.se.gT + 10000 * (gs - h.se.g) - h.dtime + h.tSw) = true)))),
    (let t : Nat := 0;
     let gs : Nat := 0;
     let s : State := { base with twl := { base.twl with link := .up } };
     (let u := s.at t; (let h := u.good; decide (u.twl.link = .up ∧ gs ≤ h.se.g)))),
    (let t : Nat := 0;
     let arg : Nat := 0;
     let gs : Nat := 5;
     let s : State := (let s := upl .primary; { s with twl := { s.twl with exch := some ⟨0, 5, false⟩ } });
     (let u := s.at t;
      (let h := u.good;
       decide (u.twl.link = .up ∧ h.role = .primary ∧ h.se.g < gs ∧ h.twl.exch = some ⟨arg, gs, false⟩)))),
    (let t : Nat := 0;
     let s : State := { base with twl := { base.twl with link := .up, exch := none } };
     (let u := s.at t; (let h := u.good; decide (u.twl.link = .up ∧ h.twl.exch = none)))),
    (let t : Nat := 0;
     let cap : Words := [];
     let s : State := { base with twl := { base.twl with link := .up } };
     (let u := s.at t; (let h := u.good; decide (u.twl.link = .up ∧ bitsOf (cap.getD 0 0) 8 8 = h.unitN)))),
    (let t : Nat := 0;
     let cap : Words := [0x100];
     let s : State := (let b := upl .primary; { b with twl := { b.twl with peer := some [0] } });
     (let u := s.at t;
      (let h := u.good;
       decide (u.twl.link = .up ∧ bitsOf (cap.getD 0 0) 8 8 ≠ h.unitN ∧ h.role = .primary ∧ (h.takeCap
             cap).peerRole = h.peerRole)))),
    (let t : Nat := 0;
     let cap : Words := (0x100 : Word) :: List.replicate 15 0;
     let s : State := (let s := upl .tracking;
           { s with twl := { s.twl with peer := some (0x100 :: List.replicate 15 0) } });
     (let u := s.at t;
      (let h := u.good;
       decide (u.twl.link = .up ∧ bitsOf (cap.getD 0 0) 8 8 ≠ h.unitN ∧ h.role = .tracking ∧ (h.takeCap
             cap).peerRole = h.peerRole ∧ (h.takeCap cap).sameDigest = true)))),
    (let gs : Nat := 5;
     let s : State := (let b := upl .primary; { b with twl := { b.twl with exch := some ⟨1, 5, false⟩ } });
     (let g := s.good; decide (s.twl.link = .up ∧ g.role = .primary ∧ g.twl.exch = some ⟨1, gs, false⟩))),
    (let gs : Nat := 5;
     let s : State := (let b := upl .primary; { b with twl := { b.twl with exch := some ⟨0, 5, false⟩ } });
     (let g := s.good; decide (s.twl.link = .up ∧ g.role = .primary ∧ g.twl.exch = some ⟨0, gs, false⟩))),
    (let s : State := { base with twl := { base.twl with link := .up } };
     (let g := s.good; decide (s.twl.link = .up ∧ g.role ≠ .primary))),
    (let arg : Nat := 0;
     let gs : Nat := 5;
     let s : State := (let s := upl .tracking; { s with twl := { s.twl with exch := some ⟨0, 5, false⟩ } });
     (let g := s.good;
      decide (s.twl.link = .up ∧ g.role = .tracking ∧ g.se.g < gs) &&
      (match g.twl.exch with | some ⟨arg0, gs0, b⟩ => decide (arg0 = arg ∧ gs0 = gs) | _ => false))),
    (let gs : Nat := 0;
     let s : State := { base with twl := { base.twl with link := .up } };
     (let g := s.good; decide (s.twl.link = .up ∧ gs ≤ g.se.g))),
    (let s : State := { base with twl := { base.twl with link := .up, exch := none } };
     (let g := s.good; decide (s.twl.link = .up ∧ g.twl.exch = none))),
    (let arg : Nat := 4;
     let s : State := upl .tracking;
     (let g := s.good;
      decide (s.twl.link = .up ∧ (g.role = .tracking ∨ g.role = .joining)) &&
      (match stateOf arg with | some o => true | _ => false))),
    (let arg : Nat := 0;
     let s : State := { base with twl := { base.twl with link := .up } };
     decide (s.twl.link = .up ∧ stateOf arg = none)),
    (let t : Nat := 0;
     let s : State := { base with twl := { base.twl with exch := none } };
     (let u := s.at t; decide (u.twl.exch = none))),
    (let t : Nat := 0;
     let gs : Nat := 5;
     let s : State := (let s := upl .tracking; { s with twl := { s.twl with exch := some ⟨1, 5, true⟩ } });
     (let u := s.at t; decide (u.twl.exch = some ⟨1, gs, true⟩ ∧ u.se.g < gs))),
    (let t : Nat := 0;
     let gs : Nat := 0;
     let s : State := (let s := upl .tracking; { s with twl := { s.twl with exch := some ⟨1, 0, true⟩ } });
     (let u := s.at t;
      (let exch (s : State) (e : Option Exch) : State := { s with twl := { s.twl with exch := e } };
       decide (u.twl.exch = some ⟨1, gs, true⟩ ∧ gs ≤ u.se.g) &&
       (let x := (exch u none).raiseEpoch; decide (x.role = .tracking))))),
    (let t : Nat := 0;
     let gs : Nat := 0;
     let s : State := (let s := upl .primary; { s with twl := { s.twl with exch := some ⟨1, 0, true⟩ } });
     (let u := s.at t;
      (let exch (s : State) (e : Option Exch) : State := { s with twl := { s.twl with exch := e } };
       decide (u.twl.exch = some ⟨1, gs, true⟩ ∧ gs ≤ u.se.g) &&
       (let x := (exch u none).raiseEpoch; decide (x.role = .primary ∧ x.twl.switch.any (·.detach) = false))))),
    (let t : Nat := 0;
     let s : State := { base with twl := { base.twl with switch := none } };
     (let u := s.at t; decide (u.twl.switch = none))),
    (let t : Nat := 10000000000;
     let s : State := ({ base with twl := { base.twl with switch := some ⟨0, false⟩ } } : State);
     (let u := s.at t;
      (match u.twl.switch with | some w => decide (w.t + 1000000000 ≤ u.utick ∧ u.twl.exch = none) | _ => false))),
    (let t : Nat := 0;
     let s : State := ({ base with twl := { base.twl with switch := some ⟨0, false⟩ } } : State);
     (let u := s.at t; (match u.twl.switch with | some w => decide (u.utick < w.t + 1000000000) | _ => false))),
    (let q : Req := rq;
     let p : Bytes := [];
     let s : State := base;
     (let u := s.carry q;
      decide (p = [] ∧ u.role ≠ .detached ∧ (s.blocked q 0x701 = false ∧ s.locked 0x701 = false)))),
    (let q : Req := rq;
     let p : Bytes := [];
     let s : State := { base with role := .detached };
     (let u := s.carry q;
      decide (p = [] ∧ u.role = .detached ∧ (u.twl.link ≠ .up ∨ u.peerRole = 0)) &&
      (match u.joinReason with
       | some r =>
            decide ((s.blocked q 0x701 = false ∧ s.locked 0x701 = false))
       | _ => false))),
    (let q : Req := rq;
     let p : Bytes := [];
     let s : State := (let b := lvw base Addr.twlStage 0x10000;
           { b with role := .detached, twl := { b.twl with link := .up, peer := some [1, 0, 0, 0, 0, 0, 0, 0, 0, 0, 0, 0, 0, 0] } });
     (let u := s.carry q;
      decide (p = [] ∧ u.role = .detached ∧ (u.twl.link ≠ .up ∨ u.peerRole = 0) ∧ u.joinReason = none ∧ (s.blocked q
            0x701 = false ∧ s.locked 0x701 = false)))),
    (let q : Req := rq;
     let p : Bytes := [];
     let s : State := { base with role := .tracking };
     (let u := s.carry q;
      decide (p = [] ∧ u.role = .tracking ∧ (s.blocked q 0x702 = false ∧ s.locked 0x702 = false)))),
    (let q : Req := rq;
     let p : Bytes := [];
     let s : State := (let b := upl .primary; { b with twl := { b.twl with switch := some ⟨0, false⟩ } });
     (let u := s.carry q;
      decide (p = [] ∧ u.role = .primary ∧ u.twl.switch.isSome = true ∧ (s.blocked q 0x702 = false ∧ s.locked 0x702
            = false)))),
    (let q : Req := rq;
     let p : Bytes := [];
     let s : State := { base with role := .primary, twl := { base.twl with switch := none } };
     (let u := s.carry q;
      decide (p = [] ∧ u.role = .primary ∧ u.twl.switch = none ∧ (s.blocked q 0x702 = false ∧ s.locked 0x702 =
            false)))),
    (let q : Req := rq;
     let p : Bytes := [];
     let s : State := { base with role := .solo };
     (let u := s.carry q;
      decide (p = [] ∧ (u.role = .solo ∨ u.role = .detached ∨ u.role = .joining) ∧ (s.blocked q 0x702 = false ∧
            s.locked 0x702 = false)))),
    (let q : Req := rq;
     let p : Bytes := [];
     let s : State := base;
     (let u := s.carry q; decide (p = [] ∧ u.role ≠ .primary ∧ (s.blocked q 0x703 = false ∧ s.locked 0x703 = false)))),
    (let q : Req := rq;
     let p : Bytes := [];
     let s : State := { base with role := .detached, twl := { base.twl with link := .down, pali := false } };
     (let u := s.carry q;
      decide (p = [] ∧ u.role = .detached ∧ (u.twl.link = .down ∨ u.twl.link = .conflict) ∧ u.twl.pali = false ∧
            (s.blocked q 0x704 = false ∧ s.locked 0x704 = false)))),
    (let q : Req := rq;
     let p : Bytes := [];
     let s : State := base;
     (let u := s.carry q;
      decide (p = [] ∧ (u.role ≠ .detached ∨ u.twl.link = .up ∨ u.twl.pali = true) ∧ (s.blocked q 0x704 = false ∧
            s.locked 0x704 = false)))),
    (let q : Req := rq;
     let p : Bytes := leBytes 4 32768;
     let s : State := base;
     decide (p.length = 4 ∧ 32767 < field p 0 2 ∧ (s.blocked q 0x705 = false ∧ s.locked 0x705 = false))),
    (let q : Req := rq;
     let p : Bytes := List.replicate 4 0;
     let s : State := { base with op := .stop, role := .solo };
     (let u := s.carry q;
      decide (p.length = 4 ∧ field p 0 2 ≤ 32767 ∧ u.op = .stop ∧ (u.role = .solo ∨ u.role = .detached) ∧ (s.blocked
            q 0x705 = false ∧ s.locked 0x705 = false)))),
    (let q : Req := rq;
     let p : Bytes := leBytes 4 32767;
     let s : State := { base with op := .run };
     (let u := s.carry q;
      decide (p.length = 4 ∧ field p 0 2 ≤ 32767 ∧ u.op ≠ .stop ∧ (s.blocked q 0x705 = false ∧ s.locked 0x705 =
            false))))].all id = true := by decide +kernel

/-- The clauses of MirrorCyclesAreCollectedAndApplied. -/
theorem test_hyps_MirrorCyclesAreCollectedAndApplied : [
    (let s : State := { base with twl := { base.twl with link := .up, cyc := none }, role := .tracking };
     (let g := s.good; decide (s.twl.link = .up ∧ g.role = .tracking ∧ g.twl.cyc = none))),
    (let ctx : Nat := 20;
     let nb : Nat := 0;
     let nt : Nat := 0;
     let s : State := (let b := upl .tracking; { b with twl := { b.twl with cyc := some ⟨20, none, [], []⟩ } });
     (let g := s.good;
      decide (s.twl.link = .up) &&
      (match g.twl.cyc with
       | some c =>
            decide (c.ctx = ctx ∧ c.blocks.length = nb ∧ c.timers.length = nt ∧ g.role = .tracking)
       | _ => false))),
    (let ctx : Nat := 20;
     let nb : Nat := 1;
     let nt : Nat := 0;
     let s : State := (let b := upl .tracking; { b with twl := { b.twl with cyc := some ⟨20, none, [], []⟩ } });
     (let g := s.good;
      decide (s.twl.link = .up) &&
      (match g.twl.cyc with
       | some c =>
            decide ((c.ctx ≠ ctx ∨ c.blocks.length ≠ nb ∨ c.timers.length ≠ nt))
       | _ => false))),
    (let s : State := base; decide (s.twl.link ≠ .up)),
    (let ctx : Nat := 20;
     let t : Nat := 0;
     let s : State := base; (let u := s.at t; decide (u.twl.done.find? (fun z => z.ctx = ctx) = none))),
    (let ctx : Nat := 20;
     let t : Nat := 0;
     let s : State := (let b := upl .tracking; ({ b with twl := { b.twl with done := [⟨20, none, [], []⟩] } } :
           State).setCtx 20 { st := .running });
     (let u := s.at t;
      (match u.twl.done.find? (fun z => z.ctx = ctx) with
       | some c =>
            decide ((u.ctx ctx).st ≠ .waiting ∧ (u.ctx ctx).st ≠ .disabled)
       | _ => false))),
    (let ctx : Nat := 20;
     let t : Nat := 0;
     let s : State := (let b := upl .tracking; { b with twl := { b.twl with done := [⟨20, none, [], []⟩] } });
     (let u := s.at t;
      (match u.twl.done.find? (fun z => z.ctx = ctx) with
       | some c =>
            decide (((u.ctx ctx).st = .waiting ∨ (u.ctx ctx).st = .disabled))
       | _ => false))),
    (let s : State := (let b := upl .tracking;
           { b with twl := { b.twl with waitRel := [(20, 3)], announced := [(20, 4)] } });
     decide (s.twl.waitRel.find? (fun e => e.1 = 20) = some (20, 3) ∧ sget 0 s.twl.announced 20 = 3 + 1)),
    (let s : State := (let b := upl .tracking; { b with dtime := 2000, twl := { b.twl with waitRel := [(20, 0)] } });
     decide (s.twl.waitRel.find? (fun e => e.1 = 20) = some (20, 0) ∧ sget 0 s.twl.announced 20 ≠ 0 + 1 ∧ s.se.gT +
           2000 ≤ s.dtime + 10000 * (s.se.g - 0))),
    (let ctx : Nat := 20;
     let t : Nat := 0;
     let s : State := base; (let u := s.at t; decide (u.twl.waitRel.find? (fun e => e.1 = ctx) = none))),
    (let t : Nat := 0;
     let s : State := { base with twl := { base.twl with send := [] } }; (let u := s.at t; decide (u.twl.send = []))),
    (let ctx : Nat := 20;
     let t : Nat := 0;
     let s : State := ({ base with twl := { base.twl with send := [⟨21, none, [], [], 0⟩] } } : State);
     (let u := s.at t; (match u.twl.send with | c :: rest => decide (c.ctx ≠ ctx) | _ => false))),
    (let ctx : Nat := 21;
     let t : Nat := 0;
     let s : State := ({ base with twl := { base.twl with send := [⟨21, none, [], [], 0⟩] } } : State);
     (let u := s.at t;
      (match u.twl.send with
       | c :: rest =>
            decide (c.ctx = ctx ∧ c.blocks = [] ∧ c.timers = [] ∧ c.next = none)
       | _ => false)))].all id = true := by decide +kernel

/-- The clauses of AJoinTakesTheSnapshotAndEnters. -/
theorem test_hyps_AJoinTakesTheSnapshotAndEnters : [
    (let s : State := { base with twl := { base.twl with link := .up, jphase := 0 }, role := .solo };
     (let g := s.good; decide (s.twl.link = .up ∧ g.role = .solo ∧ g.twl.jphase = 0))),
    (let s : State := upl .tracking;
     (let g := s.good; decide (s.twl.link = .up ∧ (g.role ≠ .solo ∨ g.twl.jphase ≠ 0)))),
    (let s : State := { base with twl := { base.twl with link := .up } };
     (let g := s.good; decide (s.twl.link = .up ∧ g.role ≠ .joining))),
    (let t : Nat := 0;
     let s : State := { base with twl := { base.twl with link := .up, jphase := 1 }, role := .joining };
     (let u := s.at t; (let h := u.good; decide (u.twl.link = .up ∧ h.role = .joining ∧ h.twl.jphase = 1)))),
    (let t : Nat := 0;
     let s : State := { base with twl := { base.twl with link := .up } };
     (let u := s.at t; (let h := u.good; decide (u.twl.link = .up ∧ h.role ≠ .joining)))),
    (let s : State := { base with twl := { base.twl with link := .up, jphase := 2 }, role := .joining };
     (let g := s.good; decide (s.twl.link = .up ∧ g.role = .joining ∧ g.twl.jphase = 2))),
    (let t : Nat := 0;
     let s : State := { base with role := .solo, twl := { base.twl with jphase := 2 } };
     (let u := s.at t; decide (u.role = .solo ∧ u.twl.jphase = 2 ∧ u.op ≠ .run))),
    (let t : Nat := 0; let s : State := base; (let u := s.at t; decide ((u.role ≠ .solo ∨ u.twl.jphase ≠ 2)))),
    (let t : Nat := 0;
     let s : State := { base with twl := { base.twl with te := none } }; (let u := s.at t; decide (u.twl.te = none))),
    (let t : Nat := 10;
     let s : State := ({ base with twl := { base.twl with te := some 10, jphase := 3, link := .up } } : State);
     (let u := s.at t;
      (match u.twl.te with | some e => decide (e ≤ u.dtime ∧ u.twl.jphase = 3 ∧ u.role = .solo) | _ => false))),
    (let t : Nat := 10;
     let s : State := ({ base with role := .joining, twl := { base.twl with te := some 10, jphase := 3 } } : State);
     (let u := s.at t;
      (match u.twl.te with | some e => decide (e ≤ u.dtime ∧ u.twl.jphase = 3 ∧ u.role = .joining) | _ => false))),
    (let t : Nat := 4;
     let s : State := ({ base with twl := { base.twl with te := some 5, jphase := 3 } } : State);
     (let u := s.at t; (match u.twl.te with | some e => decide (u.dtime < e) | _ => false))),
    (let port : Nat := 15;
     let stn : Nat := 95;
     let w5 : Word := 6;
     let s : State := upl .tracking;
     (let g := s.good; decide (s.twl.link = .up ∧ g.role = .tracking ∧ port < 16 ∧ stn < 96 ∧ bitsOf w5 2 0 = 6))),
    (let s : State := { base with twl := { base.twl with link := .up }, role := .solo };
     (let g := s.good; decide (s.twl.link = .up ∧ (g.role = .solo ∨ g.role = .primary)))),
    (let s : State := lvw (upl .tracking) (Addr.shCfg 31) 60;
     (let g := s.good;
      decide (s.twl.link = .up ∧ g.role = .tracking) &&
      let n := 31; decide (n < 32 ∧ g.ppr n ≠ 0 ∧ (g.shaft n).acc = 0 ∧ (g.shaft n).hist = [])))].all id = true := by decide +kernel

/-- The clauses of RetentionMemoryWritesItsPages. -/
theorem test_hyps_RetentionMemoryWritesItsPages : [
    (let off : Nat := 2594 * 256;
     let d : Bytes := [];
     let s : State := lvw (base.setBit Addr.pwrStat 1 true) (Addr.rsmRegA 15) (2594 + 2 * 65536);
     (let page := off / 256;
      decide (off < mramSize ∧ 2594 ≤ page ∧ s.wlock = false ∧ s.rsmRaw = false ∧ d.length ≤ 256) &&
      (match s.regionOf page with
       | some r =>
            decide (r.wp = false ∧ r.twin = false ∧ s.energyOk = true)
       | _ => false))),
    (let off : Nat := 2594 * 256;
     let d : Bytes := [];
     let s : State := lvw base (Addr.rsmRegA 15) (2594 + 2 * 65536);
     (let page := off / 256;
      decide (off < mramSize ∧ 2594 ≤ page ∧ s.wlock = false ∧ s.rsmRaw = false ∧ d.length ≤ 256) &&
      (match s.regionOf page with
       | some r =>
            decide (r.wp = false ∧ r.twin = false ∧ s.energyOk = false)
       | _ => false))),
    (let off : Nat := 2594 * 256;
     let d : Bytes := [];
     let s : State := lvw (lvw copies (Addr.rsmRegA 15) (2594 + 2 * 65536)) (Addr.rsmRegB 15) 1;
     (let page := off / 256;
      decide (off < mramSize ∧ 2594 ≤ page ∧ s.wlock = false ∧ s.rsmRaw = false ∧ d.length ≤ 256) &&
      (match s.regionOf page with
       | some r =>
            decide (r.wp = false ∧ r.twin = true ∧ page < r.base + r.n / 2) &&
            (match s.chosen page (page + r.n / 2) with | (some c, false) => true | _ => false)
       | _ => false))),
    (let s : State := copies;
     let x := 2594; let y := 2595; decide (x ≠ y ∧ s.copyValid x = true ∧ s.copyValid y = false)),
    decide ((0 : Nat) ≠ 1 ∧ twoCopies.copyValid 2594 = true ∧ twoCopies.copyValid 2595 = true ∧ twoCopies.copySeq 2594
          = twoCopies.copySeq 2595),
    (let s : State := { base with rsm := { base.rsm with retain := none } }; decide (s.rsm.retain = none)),
    (let s : State := ({ base with rsm := { base.rsm with retain := some 0 } } : State); decide (s.rsm.retain ≠ none)),
    (let s : State := { base with rsm := { base.rsm with again := [], reread := [] } };
     decide (s.rsm.again = [] ∧ s.rsm.reread = [])),
    (let s : State := ({ base with rsm := { base.rsm with reread := [3] } } : State);
     decide (s.rsm.again = []) && (match s.rsm.reread with | pg :: rest => true | _ => false)),
    (let q : Req := rq;
     let b : Byte := 16;
     let s : State := base; decide (15 < b.toNat ∧ (s.blocked q 0x901 = false ∧ s.locked 0x901 = false))),
    (let q : Req := rq;
     let b : Byte := 15;
     let s : State := { base with op := .run };
     (let u := s.carry q;
      decide (b.toNat ≤ 15 ∧ u.op ≠ .stop ∧ (s.blocked q 0x901 = false ∧ s.locked 0x901 = false)))),
    (let q : Req := rq;
     let b : Byte := 0;
     let s : State := { base with op := .stop };
     (let u := s.carry q;
      decide (b.toNat ≤ 15 ∧ u.op = .stop ∧ (s.blocked q 0x901 = false ∧ s.locked 0x901 = false)))),
    (let q : Req := rq;
     let p : Bytes := [];
     let s : State := { base with op := .run };
     (let u := s.carry q; decide (p = [] ∧ u.op ≠ .stop ∧ (s.blocked q 0x902 = false ∧ s.locked 0x902 = false)))),
    (let q : Req := rq;
     let p : Bytes := [];
     let s : State := { base with op := .stop };
     (let u := s.carry q; decide (p = [] ∧ u.op = .stop ∧ (s.blocked q 0x902 = false ∧ s.locked 0x902 = false))))].all id = true := by decide +kernel

/-- The clauses of TheClockCountsAndIsReadFrozen. -/
theorem test_hyps_TheClockCountsAndIsReadFrozen : [
    (let t : Nat := 0;
     let s : State := { base with pwr := { base.pwr with x32 := false } };
     (let u := s.at t; decide (u.pwr.x32 = false))),
    (let t : Nat := 0;
     let s : State := { base with pwr := { base.pwr with x32 := true } };
     (let u := s.at t; (let f (a : Nat) : Nat := u.rdN a; decide (u.pwr.x32 = true ∧ f Addr.rtcSec < 59)))),
    (let t : Nat := 0;
     let s : State := base.wr Addr.rtcSec 59;
     (let u := s.at t;
      (let f (a : Nat) : Nat := u.rdN a; decide (u.pwr.x32 = true ∧ f Addr.rtcSec = 59 ∧ f Addr.rtcMin < 59)))),
    (let t : Nat := 0;
     let s : State := ((base.wr Addr.rtcSec 59).wr Addr.rtcMin 59).wr Addr.rtcHour 23;
     (let u := s.at t;
      (let f (a : Nat) : Nat := u.rdN a;
       decide (u.pwr.x32 = true ∧ f Addr.rtcSec = 59 ∧ f Addr.rtcMin = 59 ∧ f Addr.rtcHour = 23)))),
    (let y := 2199; let m := 12; let d := 30; decide (dateOk y m d = true ∧ (y, m, d) ≠ (2199, 12, 31))),
    (let k := 0; decide (k < 7)),
    (let t : Nat := 0;
     let rd : Reader := .mgc;
     let s : State := base; (let u := s.at t; decide (5 < 6 ∧ (rd = Reader.mgc) ∧ u.shadowOf rd = none))),
    (let t : Nat := 0;
     let rd : Reader := .mgc;
     let s : State := ({ base with rtc := { base.rtc with shadows := [(.mgc, 0, [])] } } : State);
     (let u := s.at t; decide ((rd = Reader.mgc) ∧ u.shadowOf rd ≠ none ∧ 5 < 6))),
    (let t : Nat := 0;
     let rd : Reader := .mgc; let s : State := base; (let u := s.at t; decide (u.shadowOf rd = none))),
    (let s : State := ((base.setBit Addr.rtcStat 3 true) : State); decide (s.bit Addr.rtcStat 3 = true)),
    (let s : State := ((base.setBit Addr.rtcStat 3 false) : State); decide (s.bit Addr.rtcStat 3 = false)),
    (let q : Req := rq;
     let p : Bytes := [];
     let s : State := base;
     (let c := s.carry q;
      decide (p = [] ∧ c.shadowOf .mgc = none ∧ (s.blocked q 0xB00 = false ∧ s.locked 0xB00 = false)))),
    (let q : Req := rq;
     let p : Bytes := List.replicate 8 0;
     let s : State := base;
     decide (p.length = 8 ∧ field p 6 1 ≤ 59 ∧ field p 5 1 ≤ 59 ∧ field p 4 1 ≤ 23 ∧ field p 3 1 ≤ 31 ∧ field p 2 1 ≤
           12 ∧ field p 0 2 ≤ 2199 ∧ (s.blocked q 0xB01 = false ∧ s.locked 0xB01 = false))),
    (let q : Req := rq;
     let p : Bytes := List.replicate 2 0;
     let s : State := base;
     decide (p.length = 2 ∧ field p 0 2 ≤ 2047 ∧ (s.blocked q 0xB02 = false ∧ s.locked 0xB02 = false))),
    (let q : Req := rq;
     let p : Bytes := leBytes 2 63488;
     let s : State := base;
     decide (p.length = 2 ∧ 2047 < field p 0 2 ∧ field p 0 2 < 63489 ∧ (s.blocked q 0xB02 = false ∧ s.locked 0xB02 =
           false)))].all id = true := by decide +kernel

/-- The clauses of TheWatchdogIsServedWarnsAndResets. -/
theorem test_hyps_TheWatchdogIsServedWarnsAndResets : [
    (let v : Word := 0x5A3C; (let k := bitsOf v 15 0; decide (k = 0x5A3C))),
    (let v : Word := 0;
     let s : State := base; (let k := bitsOf v 15 0; decide (k ≠ 0x5A3C ∧ (k ≠ 0xC3A5 ∨ s.wdt.keyStep = false)))),
    (let v : Word := 0xC3A5;
     let b : Byte := 0;
     let s : State := ({ base.setBit Addr.wdtSloten 15 true with wdt := { base.wdt with keyStep := true } } : State);
     (let k := bitsOf v 15 0;
      (let step (s : State) (b : Bool) : State := { s with wdt := { s.wdt with keyStep := b } };
       decide (k = 0xC3A5 ∧ s.wdt.keyStep = true) && (let x := step s false; decide (x.wdtUnmarked ≠ 0))))),
    (let v : Word := 0xC3A5;
     let b : Byte := 0;
     let s : State := ({ base with wdt := { base.wdt with keyStep := true } } : State);
     (let k := bitsOf v 15 0;
      (let step (s : State) (b : Bool) : State := { s with wdt := { s.wdt with keyStep := b } };
       decide (k = 0xC3A5 ∧ s.wdt.keyStep = true) && (let x := step s false; decide (x.wdtUnmarked = 0))))),
    decide ((List.range 16).all fun i => !(base.setBit Addr.wdtSloten 15 true).bit Addr.wdtSloten i || i = 15),
    (let v : Word := 15;
     let s : State := base.wr (Addr.wdtSlot 15) 1;
     (let slot := bitsOf v 3 0; decide (s.fld (Addr.wdtSlot slot) 1 0 ≠ 0))),
    (let v : Word := 15;
     let s : State := base;
     (let slot := bitsOf v 3 0; decide (s.fld (Addr.wdtSlot slot) 1 0 = 0 ∧ s.wdt.marks.contains slot = false))),
    (let off : Nat := 0;
     let s : State := base;
     decide ((off = 0 ∨ off = 4 ∨ (0x40 ≤ off ∧ off < 0x80 ∧ off % 4 = 0)) ∧ s.wdtOpen = false)),
    (let v : Word := 14;
     let off : Nat := 0;
     let s : State := { base with utick := 1000000000 };
     decide ((off = 0 ∨ off = 4 ∨ (0x40 ≤ off ∧ off < 0x80 ∧ off % 4 = 0)) ∧ s.wdtOpen = true ∧ off = 0 ∧ 13 < bitsOf
           v 3 0)),
    (let v : Word := 13;
     let off : Nat := 0;
     let s : State := { base with utick := 1000000000 };
     decide ((off = 0 ∨ off = 4 ∨ (0x40 ≤ off ∧ off < 0x80 ∧ off % 4 = 0)) ∧ s.wdtOpen = true ∧ off = 0 ∧ bitsOf v 3
           0 ≤ 13)),
    (let t : Nat := 0;
     let s : State := base; (let u := s.at t; decide (u.wdtElapsed < 2 ^ (10 + u.fld Addr.wdtCfg 3 0)))),
    (let t : Nat := 1024000;
     let s : State := (let s := base.setFld Addr.wdtCfg 3 0 0; { s with wdt := { s.wdt with warn := true } });
     (let u := s.at t; decide (2 ^ (10 + u.fld Addr.wdtCfg 3 0) ≤ u.wdtElapsed ∧ u.wdt.warn = true))),
    (let t : Nat := 1024000;
     let s : State := (let s := base.setFld Addr.wdtCfg 3 0 0; { s with wdt := { s.wdt with warn := false } });
     (let u := s.at t; decide (2 ^ (10 + u.fld Addr.wdtCfg 3 0) ≤ u.wdtElapsed ∧ u.wdt.warn = false))),
    (let q : Req := rq;
     let p : Bytes := [];
     let s : State := ((base.setFld Addr.wdtCfg 4 4 1) : State);
     (let c := s.carry q;
      decide (p = [] ∧ c.fld Addr.wdtCfg 4 4 = 1 ∧ (s.blocked q 0xB04 = false ∧ s.locked 0xB04 = false)))),
    (let q : Req := rq;
     let p : Bytes := [];
     let b : Byte := 0;
     let s : State := (base.setBit Addr.wdtSloten 15 true).setBit Addr.wdtCfg 4 false;
     (let c := s.carry q;
      (let step (s : State) (b : Bool) : State := { s with wdt := { s.wdt with keyStep := b } };
       decide (p = [] ∧ c.fld Addr.wdtCfg 4 4 = 0) &&
       (let x := (step (step c true) false);
        decide (x.wdtUnmarked ≠ 0 ∧ (s.blocked q 0xB04 = false ∧ s.locked 0xB04 = false)))))),
    (let q : Req := rq;
     let p : Bytes := [];
     let b : Byte := 0;
     let s : State := ((base.setFld Addr.wdtCfg 4 4 0) : State);
     (let c := s.carry q;
      (let step (s : State) (b : Bool) : State := { s with wdt := { s.wdt with keyStep := b } };
       decide (p = [] ∧ c.fld Addr.wdtCfg 4 4 = 0) &&
       (let x := (step (step c true) false);
        decide (x.wdtUnmarked = 0 ∧ x.wdt.warn = false ∧ (s.blocked q 0xB04 = false ∧ s.locked 0xB04 = false)))))),
    (let q : Req := rq;
     let b : Byte := 16;
     let s : State := base; decide (15 < b.toNat ∧ (s.blocked q 0xB05 = false ∧ s.locked 0xB05 = false))),
    (let q : Req := rq;
     let b : Byte := 15;
     let s : State := base.wr (Addr.wdtSlot 15) 1;
     (let c := s.carry q;
      decide (b.toNat ≤ 15 ∧ c.fld (Addr.wdtSlot b.toNat) 1 0 ≠ 0 ∧ (s.blocked q 0xB05 = false ∧ s.locked 0xB05 =
            false)))),
    (let q : Req := rq;
     let b : Byte := 0;
     let s : State := ((base.setFld (Addr.wdtSlot b.toNat) 1 0 0) : State);
     (let c := s.carry q;
      decide (b.toNat ≤ 15 ∧ c.fld (Addr.wdtSlot b.toNat) 1 0 = 0 ∧ (s.blocked q 0xB05 = false ∧ s.locked 0xB05 =
            false))))].all id = true := by decide +kernel

/-- The clauses of AServiceRestartsThePeriodAndClearsMarks. -/
theorem test_hyps_AServiceRestartsThePeriodAndClearsMarks : [
    (let v : Word := 0xC3A5;
     let s : State := { base with wdt := { base.wdt with keyStep := true } };
     decide (bitsOf v 15 0 = 0xC3A5 ∧ s.wdt.keyStep = true ∧ s.wdtUnmarked = 0)),
    (let q : Req := rq;
     let s : State := ((base.setFld Addr.wdtCfg 4 4 0) : State);
     decide ((s.blocked q 0xB04 = false ∧ s.locked 0xB04 = false) ∧ s.fld Addr.wdtCfg 4 4 = 0 ∧ s.wdtUnmarked = 0)),
    (let s : State := { base.setBit Addr.wdtCfg 4 true with utick := 1000000000 };
     decide (s.fld Addr.wdtCfg 4 4 = 1 ∧ s.wdtOpen = true ∧ s.wdtUnmarked = 0))].all id = true := by decide +kernel

/-- The clauses of SuppliesAndResets. -/
theorem test_hyps_SuppliesAndResets : [
    (let t : Nat := 0;
     let s : State := ((base.setBit Addr.pwrStat 0 true) : State);
     (let u := s.at t; decide (u.bit Addr.pwrStat 0 = true))),
    (let t : Nat := 0;
     let s : State := ((base.setBit Addr.pwrStat 0 false) : State);
     (let u := s.at t; decide (u.bit Addr.pwrStat 0 = false))),
    (let s : State := { base with pwr := { base.pwr with x32 := false } }; decide (s.pwr.x32 = false)),
    (let s : State := { base with pwr := { base.pwr with x32 := true } }; decide (s.pwr.x32 = true)),
    (let s : State := ((base.setBit Addr.pwrStat 2 true) : State); decide (s.bit Addr.pwrStat 2 = true)),
    (let s : State := ((base.setBit Addr.pwrStat 2 false) : State); decide (s.bit Addr.pwrStat 2 = false)),
    (let m : Telemetry := { tele with tlog := 1350 };
     let s : State := ({ base with pwr := { base.pwr with hot := true } } : State);
     decide (1350 ≤ m.tlog ∧ s.pwr.hot = true ∧ s.op ≠ .fault)),
    (let m : Telemetry := tele; decide (max m.tlog m.thv < 1200)),
    (let s : State := ({ base with fwu := { base.fwu with storeOp := some (.image 0 0 []) } } : State);
     (let idle := s.fwu.storeOp = none ∧ s.fwu.st ≠ .erasing ∧ s.fwu.st ≠ .verifying ∧ s.fwu.st ≠ .activating;
      decide (¬idle ∧ s.fwu.storeOp ≠ none))),
    (let s : State := { base with se := { base.se with swap := { base.se.swap with chamber := .loaded } } };
     (let idle := s.fwu.storeOp = none ∧ s.fwu.st ≠ .erasing ∧ s.fwu.st ≠ .verifying ∧ s.fwu.st ≠ .activating;
      decide (idle ∧ s.se.swap.chamber = .loaded))),
    (let s : State := base;
     (let idle := s.fwu.storeOp = none ∧ s.fwu.st ≠ .erasing ∧ s.fwu.st ≠ .verifying ∧ s.fwu.st ≠ .activating;
      decide (idle ∧ s.se.swap.chamber ≠ .loaded))),
    (let s : State := { base with fwu := { base.fwu with storeOp := none } }; decide (s.fwu.storeOp = none)),
    (let op : Nat := 0;
     let s : State := ({ base with fwu := { base.fwu with storeOp := some (.image 0 0 []) } } : State);
     (match s.fwu.storeOp with | some x => decide (s.fld Addr.storeStat 3 2 = op) | _ => false)),
    (let st : Straps := ⟨false, false, false⟩; let ns : Nat := 1000; decide (st.tmode = false ∧ 1000 ≤ ns)),
    (let ns : Nat := 0; decide (ns < 100)),
    (let ns : Nat := 999; decide (100 ≤ ns ∧ ns < 1000)),
    (let st : Straps := (⟨false, false, true⟩ : Straps); decide (st.tmode = true)),
    (let s : State := (base.setBit Addr.rsmStat 1 true).setBit Addr.pwrStat 0 true;
     decide (s.wlock = true ∧ s.bit Addr.pwrStat 0 = true)),
    (let s : State := base; decide ((s.wlock = false ∨ s.bit Addr.pwrStat 0 = false))),
    (let t : Nat := 0; let s : State := base; (let u := s.at t; decide (u.restartDue = false))),
    (let t : Nat := 0;
     let s : State := ({ base with restart := some 0 } : State); (let u := s.at t; decide (u.restartDue = true))),
    (let t : Nat := 0;
     let s : State := ({ base with restart := some 0 } : State);
     (let u := s.at t; (match u.restart with | some n => decide (u.fwu.fellBack = false) | _ => false))),
    (let t : Nat := 0; let s : State := { base with restart := none }; (let u := s.at t; decide (u.restart = none))),
    (let t : Nat := 0;
     let s : State := { base with fwu := { base.fwu with fellBack := true }, op := .run };
     (let u := s.at t; decide (u.fwu.fellBack = true ∧ (u.op = .run ∨ u.op = .hold)))),
    (let s : State := base; decide ((s.op ≠ .boot ∨ s.power ≠ .on))),
    (let t : Nat := 0;
     let s : State := (let s := base.setBit Addr.rstCause 9 true; { s with op := .boot });
     (let u := s.at t;
      (let v : State := { u with pwr := { u.pwr with rstout := true } };
       decide (s.op = .boot ∧ s.power = .on) && (match v.bootSlot with | (some k, w) => true | _ => false)))),
    (let t : Nat := 0;
     let s : State := { base with op := .boot, power := .on };
     (let u := s.at t;
      (let v : State := { u with pwr := { u.pwr with rstout := true } };
       decide (s.op = .boot ∧ s.power = .on) && (match v.bootSlot with | (none, w) => true | _ => false)))),
    (let t : Nat := 0;
     let s : State := (let s := base.setBit Addr.rstCause 9 true; { s with op := .boot });
     (let u := s.at t;
      (let v : State := { u with pwr := { u.pwr with rstout := true } };
       decide (s.op = .boot ∧ s.power = .on ∧ v.bit Addr.rstCause 9 = true)))),
    (let t : Nat := 0;
     let s : State := ({ base with op := .boot, fwu := { base.fwu with rec0 := none, slot0 := none } } : State);
     (let u := s.at t;
      (let v : State := { u with pwr := { u.pwr with rstout := true } };
       decide (s.op = .boot ∧ s.power = .on ∧ v.bit Addr.rstCause 9 = false ∧ v.slotRec = none ∧ v.fwu.slot0 = none
             ∧ v.fwu.slot1 = none))))].all id = true := by decide +kernel

/-- The clauses of FirmwareIsStagedTriedAndConfirmed. -/
theorem test_hyps_FirmwareIsStagedTriedAndConfirmed : [
    (let q : Req := rq;
     let p : Bytes := List.replicate 128 0;
     let s : State := { base with op := .run };
     (let u := s.carry q;
      decide (p.length = 128 + 64 * npart p ∧ u.updRoleBad = true ∧ (s.blocked q 0xC00 = false ∧ s.locked 0xC00 =
            false)))),
    (let q : Req := rq;
     let p : Bytes := List.replicate 128 0;
     let s : State := { base with op := .boot };
     (let u := s.carry q;
      decide (p.length = 128 + 64 * npart p ∧ u.updRoleBad = false ∧ u.updStateBad = true ∧ (s.blocked q 0xC00 =
            false ∧ s.locked 0xC00 = false)))),
    (let q : Req := rq;
     let p : Bytes := List.replicate 128 0;
     let s : State := base;
     (let u := s.carry q;
      decide (p.length = 128 + 64 * npart p ∧ u.updRoleBad = false ∧ u.updStateBad = false ∧ u.updEnergyBad = true ∧
            (s.blocked q 0xC00 = false ∧ s.locked 0xC00 = false)))),
    (let q : Req := rq;
     let p : Bytes := List.replicate 128 0;
     let s : State := (let s := base.setBit Addr.pwrStat 1 true; { s with fwu := { s.fwu with st := .verifying } });
     (let u := s.carry q;
      (let busy := u.fwu.st = .erasing ∨ u.fwu.st = .verifying ∨ u.fwu.st = .activating;
       decide (p.length = 128 + 64 * npart p ∧ u.updRoleBad = false ∧ u.updStateBad = false ∧ u.updEnergyBad =
             false ∧ busy ∧ (s.blocked q 0xC00 = false ∧ s.locked 0xC00 = false))))),
    (let q : Req := rq;
     let p : Bytes := List.replicate 128 0;
     let s : State := base.setBit Addr.pwrStat 1 true;
     (let u := s.carry q;
      (let busy := u.fwu.st = .erasing ∨ u.fwu.st = .verifying ∨ u.fwu.st = .activating;
       decide (p.length = 128 + 64 * npart p ∧ u.updRoleBad = false ∧ u.updStateBad = false ∧ u.updEnergyBad =
             false ∧ ¬busy) &&
       let r := 1; decide (u.headReason p = r ∧ r ≠ 0 ∧ (s.blocked q 0xC00 = false ∧ s.locked 0xC00 = false))))),
    (let s : State := { base with fwu := { base.fwu with st := .erasing } }; decide (s.fwu.st = .erasing)),
    (let s : State := base; decide (s.fwu.st ≠ .erasing)),
    (let q : Req := rq;
     let p : Bytes := List.replicate 4 0;
     let s : State := base;
     (let u := s.carry q;
      decide (4 ≤ p.length ∧ p.length ≤ 4076 ∧ u.fwu.st ≠ .receiving ∧ (s.blocked q 0xC01 = false ∧ s.locked 0xC01 =
            false)))),
    (let q : Req := rq;
     let p : Bytes := [1, 0, 0, 0];
     let s : State := ({ base with fwu := { base.fwu with st := .receiving } } : State);
     (let u := s.carry q;
      decide (4 ≤ p.length ∧ p.length ≤ 4076) &&
      (let n := u.fwu.data.length;
       decide (u.fwu.st = .receiving ∧ field p 0 4 ≠ n ∧ (s.blocked q 0xC01 = false ∧ s.locked 0xC01 = false))))),
    (let q : Req := rq;
     let p : Bytes := List.replicate 5 0;
     let s : State :=
           ({ base with fwu := { base.fwu with st := .receiving, buf := 65536, head := some (List.replicate 28 0 ++ leBytes 4 1) } }
           : State);
     (let u := s.carry q;
      decide (4 ≤ p.length ∧ p.length ≤ 4076) &&
      (let d := p.drop 4;
       (let n := u.fwu.data.length;
        decide (u.fwu.st = .receiving ∧ field p 0 4 = n ∧ n + d.length ≤ dataLen (u.fwu.head.getD []) ∧ d ≠ [] ∧
              65536 < u.progLevel + d.length ∧ (s.blocked q 0xC01 = false ∧ s.locked 0xC01 = false)))))),
    (let q : Req := rq;
     let p : Bytes := List.replicate 5 0;
     let s : State :=
           ({ base with fwu := { base.fwu with st := .receiving, buf := 65535, head := some (List.replicate 28 0 ++ leBytes 4 1) } }
           : State);
     (let u := s.carry q;
      decide (4 ≤ p.length ∧ p.length ≤ 4076) &&
      (let d := p.drop 4;
       (let n := u.fwu.data.length;
        decide (u.fwu.st = .receiving ∧ field p 0 4 = n ∧ n + d.length ≤ dataLen (u.fwu.head.getD []) ∧ d ≠ [] ∧
              u.progLevel + d.length ≤ 65536 ∧ (s.blocked q 0xC01 = false ∧ s.locked 0xC01 = false)))))),
    (let q : Req := rq;
     let p : Bytes := [];
     let s : State := base;
     (let u := s.carry q;
      decide (p = [] ∧ (u.fwu.st ≠ .receiving ∨ u.fwu.data.length ≠ dataLen (u.fwu.head.getD [])) ∧ (s.blocked q
            0xC02 = false ∧ s.locked 0xC02 = false)))),
    (let q : Req := rq;
     let p : Bytes := [];
     let s : State :=
           ({ base with fwu := { base.fwu with st := .receiving, head := some (List.replicate 24 0 ++ leBytes 4 1 ++ leBytes 4 0 ++ List.replicate 96 0) } }
           : State);
     (let u := s.carry q;
      decide (p = [] ∧ u.fwu.st = .receiving ∧ u.fwu.data.length = dataLen (u.fwu.head.getD [])) &&
      (match u.badPart with | some e => decide ((s.blocked q 0xC02 = false ∧ s.locked 0xC02 = false)) | _ => false))),
    (let q : Req := rq;
     let p : Bytes := [];
     let s : State := base;
     (let u := s.carry q;
      decide (p = [] ∧ (u.inTrial = false ∨ u.fwu.setinc = true) ∧ (s.blocked q 0xC04 = false ∧ s.locked 0xC04 =
            false)))),
    (let q : Req := rq;
     let p : Bytes := [];
     let s : State := ({ base with fwu := { base.fwu with rec0 := some { trial := true } } } : State);
     (let u := s.carry q;
      decide (p = [] ∧ u.inTrial = true ∧ u.fwu.setinc = false ∧ (s.blocked q 0xC04 = false ∧ s.locked 0xC04 =
            false)))),
    (let q : Req := rq;
     let p : Bytes := [];
     let s : State := { base with op := .run };
     (let u := s.carry q;
      decide (p = [] ∧ u.updRoleBad = true ∧ (s.blocked q 0xC05 = false ∧ s.locked 0xC05 = false)))),
    (let q : Req := rq;
     let p : Bytes := [];
     let s : State := base;
     (let u := s.carry q;
      decide (p = [] ∧ u.updRoleBad = false ∧ u.slotImg (1 - u.fwu.run) = none ∧ (s.blocked q 0xC05 = false ∧
            s.locked 0xC05 = false)))),
    (let q : Req := rq;
     let p : Bytes := [];
     let s : State := ({ base with fwu := { base.fwu with slot1 := some .factory } } : State);
     (let u := s.carry q;
      decide (p = [] ∧ u.updRoleBad = false ∧ u.slotImg (1 - u.fwu.run) ≠ none ∧ (s.blocked q 0xC05 = false ∧
            s.locked 0xC05 = false)))),
    (let q : Req := rq;
     let p : Bytes := [];
     let s : State := ({ base with fwu := { base.fwu with st := .activating } } : State);
     (let u := s.carry q;
      (let busy := u.fwu.st = .erasing ∨ u.fwu.st = .verifying ∨ u.fwu.st = .activating;
       decide (p = [] ∧ busy ∧ (s.blocked q 0xC07 = false ∧ s.locked 0xC07 = false))))),
    (let q : Req := rq;
     let p : Bytes := [];
     let s : State := { base with fwu := { base.fwu with st := .idle } };
     (let u := s.carry q; decide (p = [] ∧ u.fwu.st = .idle ∧ (s.blocked q 0xC07 = false ∧ s.locked 0xC07 = false)))),
    (let q : Req := rq;
     let p : Bytes := [];
     let s : State := { base with fwu := { base.fwu with st := .receiving } };
     (let u := s.carry q;
      decide (p = [] ∧ (u.fwu.st = .receiving ∨ u.fwu.st = .verified) ∧ (s.blocked q 0xC07 = false ∧ s.locked 0xC07
            = false)))),
    (let s : State := base; decide ((s.fwu.st ≠ .verifying ∨ s.fwu.jobs ≠ []))),
    (let s : State := ({ base with fwu := { base.fwu with st := .verifying, bad := some 0 } } : State);
     decide (s.fwu.st = .verifying ∧ s.fwu.jobs = []) && (match s.fwu.bad with | some e => true | _ => false)),
    (let s : State := { base with fwu := { base.fwu with st := .verifying, jobs := [], bad := none } };
     decide (s.fwu.st = .verifying ∧ s.fwu.jobs = [] ∧ s.fwu.bad = none)),
    (let q : Req := rq;
     let p : Bytes := [60, 0, 0, 0];
     let s : State := base.setBit Addr.pwrStat 1 true;
     (let u := s.carry q;
      decide (p.length = 4 ∧ 1 ≤ field p 0 1 ∧ field p 0 1 ≤ 60 ∧ u.updRoleBad = false ∧ u.updEnergyBad = false ∧
            (u.updStateBad = true ∨ u.fwu.st ≠ .verified) ∧ (s.blocked q 0xC03 = false ∧ s.locked 0xC03 = false)))),
    (let q : Req := rq;
     let p : Bytes := [60, 0, 0, 0];
     let s : State := (let s := base.setBit Addr.pwrStat 1 true; { s with fwu := { s.fwu with st := .verified } });
     (let u := s.carry q;
      decide (p.length = 4 ∧ 1 ≤ field p 0 1 ∧ field p 0 1 ≤ 60 ∧ u.updRoleBad = false ∧ u.updEnergyBad = false ∧
            u.updStateBad = false ∧ u.fwu.st = .verified ∧ u.se.swap.chamber ≠ .armed ∧ u.se.swap.chamber ≠
            .swapping ∧ u.miu.scrub = none) &&
      (match u.slotRec with | some r => decide ((s.blocked q 0xC03 = false ∧ s.locked 0xC03 = false)) | _ => false))),
    (let q : Req := rq;
     let p : Bytes := List.replicate 2 0;
     let s : State := { base with fwu := { base.fwu with mark := false } };
     (let u := s.carry q;
      decide (p.length = 2 ∧ u.fwu.mark = false ∧ (s.blocked q 0xC08 = false ∧ s.locked 0xC08 = false)))),
    (let q : Req := rq;
     let p : Bytes := List.replicate 2 0;
     let s : State := { base with fwu := { base.fwu with mark := true }, role := .tracking };
     (let u := s.carry q;
      decide (p.length = 2 ∧ u.fwu.mark = true ∧ (u.role = .tracking ∨ u.role = .joining) ∧ (s.blocked q 0xC08 =
            false ∧ s.locked 0xC08 = false)))),
    (let q : Req := rq;
     let p : Bytes := List.replicate 2 0;
     let s : State := { base with fwu := { base.fwu with mark := true }, role := .solo };
     (let u := s.carry q;
      decide (p.length = 2 ∧ u.fwu.mark = true ∧ (u.role = .solo ∨ u.role = .primary) ∧ u.longsOf 0xC08 = [] ∧
            u.imgJobs (field p 0 2) 0x43 = [] ∧ (s.blocked q 0xC08 = false ∧ s.locked 0xC08 = false)))),
    (let t : Nat := 0;
     let s : State := ({ base with fwu := { base.fwu with rec0 := none } } : State);
     (let v := s.at t; decide (v.slotRec = none))),
    (let t : Nat := 0;
     let s : State := base;
     (let v := s.at t;
      (match v.slotRec with
       | some r =>
            decide ((r.trial = false ∨ v.op = .boot ∨ v.op = .recovery ∨ v.utick < r.confwin * 6000000000))
       | _ => false))),
    (let t : Nat := 60000000000;
     let s : State := ({ base with fwu := { base.fwu with rec0 := some { trial := true } } } : State);
     (let v := s.at t;
      (match v.slotRec with
       | some r =>
            decide (r.trial = true ∧ (v.op = .stop ∨ v.op = .run) ∧ r.confwin * 6000000000 ≤ v.utick) &&
            (let x := ((v.otherSlot 2).ev 0x308 1).updRestart;
             (let y : State := { x with fwu := { x.fwu with fellBack := true } }; decide (y.op = .stop)))
       | _ => false))),
    (let t : Nat := 60000000000;
     let s : State := ({ base with op := .run, fwu := { base.fwu with rec0 := some { trial := true } } } : State);
     (let v := s.at t;
      (match v.slotRec with
       | some r =>
            decide (r.trial = true ∧ (v.op = .stop ∨ v.op = .run) ∧ r.confwin * 6000000000 ≤ v.utick) &&
            (let x := ((v.otherSlot 2).ev 0x308 1).updRestart;
             (let y : State := { x with fwu := { x.fwu with fellBack := true } }; decide (y.op = .run)))
       | _ => false))),
    (let t : Nat := 0;
     let s : State :=
           ({ base with utick := 6000000000, fwu := { base.fwu with rec0 := some { trial := true, autoconf := true } } }
           : State);
     (let v := s.at t;
      (match v.slotRec with
       | some r =>
            decide (r.trial = true ∧ r.autoconf = true ∧ v.fwu.setinc = false ∧ (v.op = .stop ∨ v.op = .run ∨ v.op =
                  .hold) ∧ v.fwu.upAt + 6000000000 ≤ v.utick)
       | _ => false))),
    (let t : Nat := 0;
     let s : State := base;
     (let v := s.at t;
      (match v.slotRec with
       | some r =>
            decide ((r.trial = false ∨ r.autoconf = false ∨ v.fwu.setinc = true))
       | _ => false)))].all id = true := by decide +kernel

/-- The clauses of EthernetPortsAnswerAndDisciplineTime. -/
theorem test_hyps_EthernetPortsAnswerAndDisciplineTime : [
    (let src : UdpSource := ⟨0, 0, 700, 0⟩;
     let b : Bytes := [];
     let t : Nat := 0;
     let s : State := base;
     (let u := s.at t; decide (u.ethOpen src.eth = true ∧ src.vlan = (u.ethCfg src.eth).vlan ∧ b.length < 16))),
    (let src : UdpSource := ⟨0, 0, 700, 0⟩;
     let b : Bytes := pkt 1 0 0;
     let t : Nat := 0;
     let s : State := base;
     (let u := s.at t;
      decide (u.ethOpen src.eth = true ∧ src.vlan = (u.ethCfg src.eth).vlan ∧ 16 ≤ b.length ∧ b.length = 20 +
            (parsePkt b).len + (if (parsePkt b).flags.getLsbD 0 then 16 else 0)))),
    (let src : UdpSource := ⟨0, 0, 700, 0⟩;
     let b : Bytes := [];
     let t : Nat := 0;
     let id : Nat := 0;
     let off : Nat := 5000;
     let s : State := base;
     (let u := s.at t;
      (let w := u.rxFrame src.eth;
       decide (u.ethOpen src.eth = true ∧ src.vlan = (u.ethCfg src.eth).vlan ∧ w.hpi.dropped.contains (src, id) =
             false ∧ 4124 < off + b.length)))),
    (let src : UdpSource := ⟨0, 0, 700, 0⟩;
     let t : Nat := 0;
     let id : Nat := 0;
     let s : State := ({ base with hpi := { base.hpi with dropped := [(⟨0, 0, 700, 0⟩, 0)] } } : State);
     (let u := s.at t;
      (let w := u.rxFrame src.eth;
       decide (u.ethOpen src.eth = true ∧ src.vlan = (u.ethCfg src.eth).vlan ∧ w.hpi.dropped.contains (src, id) =
             true)))),
    (let src : UdpSource := ⟨0, 0, 700, 0⟩;
     let b : Bytes := [];
     let t : Nat := 0;
     let id : Nat := 0;
     let off : Nat := 0;
     let s : State := base;
     (let u := s.at t;
      (let w := u.rxFrame src.eth;
       decide (u.ethOpen src.eth = true ∧ src.vlan = (u.ethCfg src.eth).vlan ∧ w.hpi.dropped.contains (src, id) =
             false ∧ off + b.length ≤ 4124 ∧ w.hpi.reasm = [])))),
    (let src : UdpSource := (⟨0, 0, 700, 5⟩ : UdpSource);
     let t : Nat := 0;
     let s : State := base; (let u := s.at t; decide (u.ethOpen src.eth = true ∧ src.vlan ≠ (u.ethCfg src.eth).vlan))),
    (let src : UdpSource := (⟨1, 0, 700, 0⟩ : UdpSource);
     let t : Nat := 0; let s : State := base; (let u := s.at t; decide (u.ethOpen src.eth = false))),
    (let t : Nat := 0; let s : State := { base with op := .recovery }; (let u := s.at t; decide (u.op = .recovery))),
    (let t : Nat := 0; let s : State := base; (let u := s.at t; decide (u.op ≠ .recovery))),
    (let src : UdpSource := ⟨0, 0, 700, 0⟩;
     let t : Nat := 0;
     let id : Nat := 0;
     let s : State := ({ base with hpi := { base.hpi with reasm := [⟨⟨0, 0, 700, 0⟩, 0, [], none, 0⟩] } } : State);
     (let u := s.at t;
      (match u.hpi.reasm.find? (fun r => decide (r.src = src) && decide (r.ident = id)) with
       | some r =>
            decide (u.utick < r.t + 25000000)
       | _ => false))),
    (let src : UdpSource := ⟨0, 0, 700, 0⟩;
     let t : Nat := 250000000;
     let id : Nat := 0;
     let s : State := ({ base with hpi := { base.hpi with reasm := [⟨⟨0, 0, 700, 0⟩, 0, [], none, 0⟩] } } : State);
     (let u := s.at t;
      (match u.hpi.reasm.find? (fun r => decide (r.src = src) && decide (r.ident = id)) with
       | some r =>
            decide (r.t + 25000000 ≤ u.utick)
       | _ => false))),
    (let n : Nat := 0; decide (n < 2)),
    (let n : Nat := 0;
     let ip : Word := 0xC0A83D3C;
     let s : State := base; decide (n < 2) && (let cfg := s.ethCfg n; decide (s.ethOpen n = true ∧ cfg.ip = ip))),
    (let n : Nat := 0;
     let ip : Word := 0;
     let s : State := base; decide (n < 2) && (let cfg := s.ethCfg n; decide (s.ethOpen n = true ∧ cfg.ip ≠ ip))),
    (let n : Nat := 1; let s : State := base; decide (n < 2 ∧ s.ethOpen n = false)),
    (let t : Nat := 0;
     let s : State := { base with eth := { base.eth with ptp := { base.eth.ptp with port := none } } };
     (let u := s.at t; decide (u.eth.ptp.port = none))),
    (let t : Nat := 0;
     let s : State := ({ base with eth := { base.eth with ptp := { base.eth.ptp with port := some 1 } } } : State);
     (let u := s.at t; (match u.eth.ptp.port with | some e => decide (u.ethOpen e = false) | _ => false))),
    (let t : Nat := 0;
     let s : State :=
           ({ base with role := .tracking, eth := { base.eth with ptp := { base.eth.ptp with port := some 0 } } } :
           State);
     (let u := s.at t;
      (match u.eth.ptp.port with
       | some e =>
            decide (u.ethOpen e = true) && (let x := u.rxFrame e; decide ((x.role = .tracking ∨ x.role = .joining)))
       | _ => false))),
    (let t : Nat := 0;
     let m : PtpSync := ⟨0, 0, 0, 0, 0⟩;
     let s : State := ({ base with eth := { base.eth with ptp := { base.eth.ptp with port := some 0 } } } : State);
     (let u := s.at t;
      (match u.eth.ptp.port with
       | some e =>
            decide (u.ethOpen e = true) &&
            (let x := u.rxFrame e;
             decide (x.role ≠ .tracking ∧ x.role ≠ .joining) &&
             (let y :=
                    ({ x with eth := { x.eth with offset := m.offset, delay := m.delay, ppb := max (-100000) (min 100000 m.ppb), master := m.master } }
                    : State).servo (m.state % 4);
              decide ((y.op ≠ .stop ∨ y.eth.ptp.stepen = false ∨ m.offset.natAbs ≤ 1000 * y.eth.ptp.stepth))))
       | _ => false))),
    (let t : Nat := 0;
     let m : PtpSync := (⟨1, 1000000000, 0, 0, 0⟩ : PtpSync);
     let s : State :=
           ({ base with eth := { base.eth with ptp := { base.eth.ptp with port := some 0, stepen := true } } } :
           State);
     (let u := s.at t;
      (match u.eth.ptp.port with
       | some e =>
            decide (u.ethOpen e = true) &&
            (let x := u.rxFrame e;
             decide (x.role ≠ .tracking ∧ x.role ≠ .joining) &&
             (let y :=
                    ({ x with eth := { x.eth with offset := m.offset, delay := m.delay, ppb := max (-100000) (min 100000 m.ppb), master := m.master } }
                    : State).servo (m.state % 4);
              decide (y.op = .stop ∧ y.eth.ptp.stepen = true ∧ 1000 * y.eth.ptp.stepth < m.offset.natAbs)))
       | _ => false))),
    (let q : Req := rq;
     let p : Bytes := List.replicate 1 0;
     let s : State := base;
     (let k := (p.getD 0 0).toNat;
      decide (p.length = 1 ∧ k ≤ 1 ∧ (s.blocked q 0xE00 = false ∧ s.locked 0xE00 = false)))),
    (let q : Req := rq;
     let p : Bytes := [1, 1] ++ leBytes 2 4094 ++ [7, 0] ++ leBytes 2 1500 ++ leBytes 4 0xC0A83D3C ++ leBytes 4
           0xFFFFFF00 ++ leBytes 4 0;
     let s : State := base;
     (let k := (p.getD 0 0).toNat;
      decide (p.length = 20 ∧ k ≤ 1 ∧ (p.getD 1 0).toNat ≤ 1 ∧ (ethCfgOf p).vlan ≤ 4094 ∧ (ethCfgOf p).pcp ≤ 7 ∧ 576
            ≤ (ethCfgOf p).mtu ∧ (ethCfgOf p).mtu ≤ 1500 ∧ badHost (ethCfgOf p).ip (ethCfgOf p).mask = false ∧
            (s.blocked q 0xE01 = false ∧ s.locked 0xE01 = false)))),
    (let q : Req := rq;
     let p : Bytes := [1, 127, 0, 0] ++ leBytes 4 1000000;
     let s : State :=
           ({ base with eth := { base.eth with ptp := { base.eth.ptp with port := some 1, domain := 127 } } } :
           State);
     (let c := s.carry q;
      (let k := (p.getD 0 0).toNat;
       decide (p.length = 8 ∧ k ≤ 1 ∧ (p.getD 1 0).toNat ≤ 127 ∧ 1 ≤ field p 4 4 ∧ field p 4 4 ≤ 1000000 ∧
             c.eth.ptp.port = some k ∧ c.eth.ptp.domain = (p.getD 1 0).toNat ∧ (s.blocked q 0xE02 = false ∧
             s.locked 0xE02 = false))))),
    (let q : Req := rq;
     let p : Bytes := [];
     let s : State := base; decide (p = [] ∧ (s.blocked q 0xE03 = false ∧ s.locked 0xE03 = false))),
    (let q : Req := rq;
     let p : Bytes := List.replicate 2 0;
     let s : State := base;
     (let k := (p.getD 0 0).toNat;
      decide (p.length = 2 ∧ k ≤ 1 ∧ (s.blocked q 0xE04 = false ∧ s.locked 0xE04 = false))))].all id = true := by decide +kernel

/-- An operand bit that reads 0 before LD and before AND. -/
theorem test_hyps_BitLoads : (runs (ctxOf [])).Runs 16 (ctxOf []) ∧
    (runs (ctxOf [])).BitReads (ctxOf []) (.reg 1 31) false (runs (ctxOf [])) ∧
    (runs (ctxOf [true])).Runs 16 (ctxOf [true]) ∧
    (runs (ctxOf [true])).BitReads (ctxOf [true]) (.hot 8191) false (runs (ctxOf [true])) := by
  refine ⟨⟨?_, ?_⟩, ⟨?_, ?_⟩, ⟨?_, ?_⟩, ⟨?_, ?_⟩⟩ <;> decide +kernel

/-- An operand bit that ST, STN, SET and RST write. -/
theorem test_hyps_BitStoresWriteOneBit : (runs (ctxOf [true])).Runs 16 (ctxOf [true]) ∧ (ctxOf [true]).stk = true :: [] ∧
    (∀ v, ∃ t d, (runs (ctxOf [true])).BitWrites 16 (ctxOf [true]) (.hot 8191) v t d) ∧
    (runs (ctxOf [false])).Runs 16 (ctxOf [false]) ∧ (ctxOf [false]).stk = false :: [] ∧
    ∃ t d, (runs (ctxOf [false])).BitWrites 16 (ctxOf [false]) (.reg 1 31) false t d :=
  ⟨⟨rfl, rfl⟩, rfl, fun _ => ⟨_, _, rfl, rfl⟩, ⟨rfl, rfl⟩, rfl, _, _, rfl, rfl⟩

/-- An entry of zeros: no literal, no term, the value 0. -/
theorem test_hyps_KnotReads : (runs (ctxOf [true])).Runs 16 (ctxOf [true]) ∧
    ∃ t, (runs (ctxOf [true])).KnotReads 0 false t := by
  refine ⟨⟨rfl, rfl⟩, (runs (ctxOf [true])), 0, runs (ctxOf [true]), [], 4, runs (ctxOf [true]), [], 4, runs (ctxOf [true]), [],
    ?_, by decide, by decide, by decide, by decide, rfl, rfl, by simp, by decide, by simp, ?_, by decide +kernel⟩ <;> decide +kernel

/-- The state after reset meets the invariant, and a step from it answers a state. -/
theorem test_hyps_EveryStepKeepsTheInvariant : State.reset.Inv ∧ step State.reset = .next State.reset := by
  refine ⟨⟨?_, ?_, ?_, ?_⟩, rfl⟩ <;> decide +kernel

/-- A command that is no PIN_RESET, and PIN_RESET with 99 ns and with 1 µs. -/
theorem test_hyps_EveryCommand : (∀ ns straps, Instr.pop = .pinReset ns straps → ¬(100 ≤ ns ∧ ns < 1000)) ∧
    ∀ n, n = 99 ∨ n = 1000 → ∀ ns straps, Instr.pinReset n ⟨false, false, false⟩ = .pinReset ns straps → ¬(100 ≤ ns ∧ ns < 1000) := by
  refine ⟨fun _ _ h => Instr.noConfusion h, fun n hn ns straps h => ?_⟩
  injection h with h _
  omega

/-- A reader that is the MGC is no context. -/
theorem test_hyps_RtcReader : ∀ n, Reader.mgc ≠ .ctx n := fun _ h => Reader.noConfusion h

/-- A package of five parts of 1 byte for every silicon revision, with a signature of zeros. -/
def pkg5 : Bytes :=
  leBytes 4 0x57464753 ++ leBytes 4 1 ++ leBytes 4 0x6160 ++ leBytes 2 0 ++ leBytes 2 65535 ++ leBytes 4 0 ++ leBytes 4 0 ++ leBytes 4 5 ++
    leBytes 4 1025 ++ List.replicate 32 0 ++
    ((List.range 5).flatMap fun i => leBytes 4 (i + 1) ++ leBytes 8 0 ++ leBytes 4 1 ++ leBytes 4 (256 * i) ++ List.replicate 44 0) ++
    List.replicate 64 0
/-- STOP with the energy for an update. -/
def energy : State := base.setBit Addr.pwrStat 1 true

/-- A package whose header passes and whose signature does not, for any vendor key; its manifest is consistent. What
makes a signature pass depends on the vendor key alone, which no state shows. -/
theorem test_hyps_UpdBegin : pkg5.length = 128 + 64 * npart pkg5 ∧ (energy.carry rq).updRoleBad = false ∧
    (energy.carry rq).updStateBad = false ∧ (energy.carry rq).updEnergyBad = false ∧ (energy.carry rq).fwu.st = .idle ∧
    (energy.carry rq).headReason pkg5 = 0 ∧
    ecdsaOk (Config.vendorKey (field pkg5 0x21 1)) (sha256 (signedPart pkg5)) (pkg5.drop (pkg5.length - 64)) = false ∧
    manifestOk pkg5 = true ∧ (energy.carry rq).role ≠ .tracking := by
  have h0 : field pkg5 0 4 = 0x57464753 := by decide +kernel
  have h1 : field pkg5 4 4 = 1 := by decide +kernel
  have h2 : field pkg5 8 4 = 0x6160 := by decide +kernel
  have h3 : field pkg5 0x0C 2 = 0 := by decide +kernel
  have h4 : field pkg5 0x0E 2 = 65535 := by decide +kernel
  have h5 : field pkg5 0x14 4 = 0 := by decide +kernel
  have h6 : field pkg5 0x21 1 = 0 := by decide +kernel
  have h7 : beNat ((pkg5.drop (pkg5.length - 64)).take 32) = 0 := by decide +kernel
  refine ⟨by decide +kernel, by decide +kernel, by decide +kernel, by decide +kernel, by decide +kernel, ?_, ?_, by decide +kernel,
    by decide +kernel⟩
  · have hr : Config.sirev.toNat < 65536 := Config.sirev.isLt
    have : ¬ 65535 < Config.sirev.toNat := by omega
    simp [State.headReason, h0, h1, h2, h3, h4, h5, h6, this]
  · simp [ecdsaOk, h7]

end

end Sys2Proof.Tests
end

