-- ==== Sys2Proof/Proofs/PendingCommit.lean ====
section
/-! SUPPORT. A write to a COMMIT register comes down to the commit request of its block whichever way it arrives, and
a commit that is PENDING ignores the request (R8). -/

namespace Sys2Proof.Machine

/-! ### The COMMIT registers in the register map (R609) -/

/-- The addresses of the COMMIT registers: the blocks of the unit, then the 16 ports and the 16 stations. -/
def commitAddrs : List Nat :=
  [.pwr, .se, .ixe, .fio, .twl, .rsm, .evr, .rtc, .que].map commitAddr ++
    (List.range 16).map Addr.fbpCommit ++ (List.range 16).map Addr.stnCommit

theorem commitAddr_mem_commitAddrs {b : Block} (hb : blockOk b = true) : commitAddr b ∈ commitAddrs := by
  cases b with
  | fbp n | stn n =>
    have hn : n < 16 := of_decide_eq_true hb
    simp [commitAddrs, commitAddr, hn]
  | _ => simp [commitAddrs]

theorem mem_commitAddrs_of_commitBlock {a : Nat} {b : Block} (h : commitBlock a = some b) : a ∈ commitAddrs := by
  unfold commitBlock at h
  split at h
  case h_1 b' _ =>
    obtain ⟨⟨rfl, hok⟩, -⟩ : (commitAddr b' = a ∧ blockOk b' = true) ∧ b' = b := by simpa using h
    exact commitAddr_mem_commitAddrs hok
  case h_2 => contradiction

theorem lt_of_mem_commitAddrs : ∀ {a : Nat}, a ∈ commitAddrs → a < 0x100000 := by decide

theorem mapped_of_mem_commitAddrs : ∀ {a : Nat}, a ∈ commitAddrs → mapped a = true := by decide

/-- The register table gives every COMMIT register a row and marks it as one. -/
theorem regRow_of_mem_commitAddrs : ∀ {a : Nat}, a ∈ commitAddrs → (regRow a).any (·.commit) = true := by decide

/-- A running Lock Swap holds no access to a COMMIT register (R197). -/
theorem State.mgcWaits_of_mem_commitAddrs (s : State) {a : Nat} (ha : a ∈ commitAddrs) : s.mgcWaits a = false := by
  rw [State.mgcWaits, Bool.and_eq_false_iff]
  right
  revert a
  decide

/-! ### Every writer of a COMMIT register requests the commit of its block (R7, R71) -/

theorem exec_commitWrite (a : Nat) (s : State) : exec (.commitWrite a) s = execCommitWrite a s := rfl

theorem exec_registerWrite (a : Nat) (v : Word) (s : State) :
    exec (.registerWrite a v) s = execRegisterWrite a v s := rfl

section
variable (s : State) {a : Nat} {b : Block} (h : commitBlock a = some b)
include h

theorem State.writeReg_commitBlock (v : Word) : s.writeReg a v = s.commitWr b := by
  obtain ⟨row, hrow, hcommit⟩ :=
    (Option.any_eq_true _ _).mp (regRow_of_mem_commitAddrs (mem_commitAddrs_of_commitBlock h))
  simp [State.writeReg, hrow, hcommit, h]

theorem exec_commitWrite_commitBlock : exec (.commitWrite a) s = .next (s.commitWr b) := by
  simp [exec_commitWrite, execCommitWrite, h]

theorem exec_registerWrite_commitBlock (v : Word) : exec (.registerWrite a v) s = .next (s.commitWr b) := by
  have ha := mem_commitAddrs_of_commitBlock h
  simp [exec_registerWrite, execRegisterWrite, mapped_of_mem_commitAddrs ha, lt_of_mem_commitAddrs ha,
    s.mgcWaits_of_mem_commitAddrs ha, s.writeReg_commitBlock h]

theorem State.mgcWrite_commitBlock (v : Word) : s.mgcWrite a v = (true, s.commitWr b) := by
  simp [State.mgcWrite, lt_of_mem_commitAddrs (mem_commitAddrs_of_commitBlock h), s.writeReg_commitBlock h]

end

/-- While the block's commit is PENDING the request changes nothing (R8), a swap that is ARMED or SWAPPING included. -/
theorem State.commitWr_of_pending {s : State} {b : Block} {c : Commit} (h : s.commitOf b = some c) :
    s.commitWr b = s := by
  simp [State.commitWr, h]

/-- Settles O28: each writer comes down to `commitWr`, which ignores the write while the commit is PENDING. -/
theorem aWriteToAPendingCommitIsIgnored : Obligations.AWriteToAPendingCommitIsIgnored := by
  intro s a v b c hblock hpending
  rw [exec_commitWrite_commitBlock s hblock, exec_registerWrite_commitBlock s hblock, s.mgcWrite_commitBlock hblock,
    State.commitWr_of_pending hpending]
  exact ⟨rfl, rfl, rfl⟩

end Sys2Proof.Machine
end

