-- ==== Sys2Proof/Proofs/OwnerLockAndKey.lean ====
section
/-! SUPPORT. A host opcode with a payload of exact length, once nothing holds it back, carries out its own effect on
the carrying state; for the opcodes of the owner lock and the owner key that effect goes by the session (R53, R54). -/

namespace Sys2Proof.Machine

/-! ### A started host command with a payload of exact length (R42, R55, R569) -/

theorem State.start_of_starts {s : State} {q : Req} {op : Nat} (h : s.Starts q op) (p : Bytes) (f : State → State) :
    s.start op q p f = (f (s.carry q)).idle := by
  obtain ⟨hblocked, hlocked⟩ := h
  simp [State.start, hblocked, hlocked, State.carry, State.idle]

theorem State.startLen_of_starts {s : State} {q : Req} {op n : Nat} {p : Bytes} (h : s.Starts q op)
    (hp : p.length = n) (f : State → State) : s.startLen op n q p f = (f (s.carry q)).idle := by
  simp [State.startLen, State.start_of_starts h, hp]

/-- An opcode whose execution is `startLen` of `f` carries out `f` on a payload of its length. -/
theorem State.carries_of_startLen {s : State} {q : Req} {op n : Nat} {p : Bytes} {i : Instr} {f : State → State}
    (hi : exec i s = .next (s.startLen op n q p f)) (hp : p.length = n) : s.Carries q op i (f (s.carry q)) := by
  intro hstarts
  rw [hi, State.startLen_of_starts hstarts hp]

/-! ### The owner lock (R53) -/

theorem exec_sysLockSet (q : Req) (p : Bytes) (s : State) :
    exec (.sysLockSet q p) s = .next (s.startLen 7 0 q p (·.setLock q 7 true)) := rfl

theorem exec_sysLockClear (q : Req) (p : Bytes) (s : State) :
    exec (.sysLockClear q p) s = .next (s.startLen 8 0 q p (·.setLock q 8 false)) := rfl

theorem State.setLock_of_authed {s : State} {q : Req} (h : s.authed q.session = true) (op : Nat) (b : Bool) :
    s.setLock q op b =
      (({ s with hpi := { s.hpi with ownerLock := b } } : State).ev (if b then 0x003 else 0x004) 0).ok q op := by
  simp [State.setLock, h]

theorem State.setLock_of_not_authed {s : State} {q : Req} (h : s.authed q.session = false) (op : Nat) (b : Bool) :
    s.setLock q op b = s.fail q op 0x40 := by
  simp [State.setLock, h]

section
variable (s : State) (q : Req)

theorem State.carries_sysLockSet : s.Carries q 7 (.sysLockSet q []) ((s.carry q).setLock q 7 true) :=
  State.carries_of_startLen (exec_sysLockSet q [] s) rfl

theorem State.carries_sysLockClear : s.Carries q 8 (.sysLockClear q []) ((s.carry q).setLock q 8 false) :=
  State.carries_of_startLen (exec_sysLockClear q [] s) rfl

end

/-! ### The owner key (R54) -/

/-- The key `p` held, and every authenticated session but that of `q` closed. -/
def State.holdKey (s : State) (q : Req) (p : Bytes) : State :=
  { s with hpi := { s.hpi with
    ownerKey := some p, sessions := s.hpi.sessions.filter fun x => !x.auth || x.handle = q.session } }

/-- What SYS_KEY_SET does once it is carried out with a key `p` (`exec_sysKeySet`). -/
def State.setKey (s : State) (q : Req) (p : Bytes) : State :=
  if q.via ≠ .spi then s.fail q 9 0x20
  else if s.hpi.ownerKey.isSome && !s.authed q.session then s.fail q 9 0x40
  else ((s.holdKey q p).ev 0x005 0).ok q 9

theorem exec_sysKeySet (q : Req) (p : Bytes) (s : State) :
    exec (.sysKeySet q p) s = .next (s.startLen 9 32 q p (·.setKey q p)) := rfl

theorem State.carries_sysKeySet (s : State) (q : Req) {p : Bytes} (hp : p.length = 32) :
    s.Carries q 9 (.sysKeySet q p) ((s.carry q).setKey q p) :=
  State.carries_of_startLen (exec_sysKeySet q p s) hp

section
variable {s : State} {q : Req} (p : Bytes)

theorem State.setKey_of_not_spi (h : q.via ≠ .spi) : s.setKey q p = s.fail q 9 0x20 := by
  simp [State.setKey, h]

theorem State.setKey_of_key_of_not_authed (hvia : q.via = .spi) (hkey : s.hpi.ownerKey ≠ none)
    (hauth : s.authed q.session = false) : s.setKey q p = s.fail q 9 0x40 := by
  simp [State.setKey, hvia, Option.isSome_iff_ne_none.mpr hkey, hauth]

theorem State.setKey_of_no_key_or_authed (hvia : q.via = .spi)
    (h : s.hpi.ownerKey = none ∨ s.authed q.session = true) :
    s.setKey q p = ((s.holdKey q p).ev 0x005 0).ok q 9 := by
  have hallowed : (s.hpi.ownerKey.isSome && !s.authed q.session) = false := by
    rcases h with hkey | hauth
    · simp [hkey]
    · simp [hauth]
  simp [State.setKey, hvia, hallowed]

end

/-- Settles O23: each opcode carries out `setLock` or `setKey`, whose branches are the cases of R53 and R54. -/
theorem ownerLockAndKey : Obligations.OwnerLockAndKey := by
  intro s q p u lock
  constructor
  · rintro rfl
    have hset := s.carries_sysLockSet q
    have hclear := s.carries_sysLockClear q
    refine ⟨fun hauth => ?_, fun hauth => ?_⟩
    · rw [State.setLock_of_authed hauth] at hset hclear
      exact ⟨hset, hclear⟩
    · rw [State.setLock_of_not_authed hauth] at hset hclear
      exact ⟨hset, hclear⟩
  · intro hp
    have hkeySet := s.carries_sysKeySet q hp
    refine ⟨fun hvia => ?_, fun hvia hkey hauth => ?_, fun hvia h => ?_⟩
    · rwa [State.setKey_of_not_spi p hvia] at hkeySet
    · rwa [State.setKey_of_key_of_not_authed p hvia hkey hauth] at hkeySet
    · rwa [State.setKey_of_no_key_or_authed p hvia h] at hkeySet

end Sys2Proof.Machine
end

