-- ==== Sys2Proof/Proofs/WatchdogService.lean ====
section
/-! SUPPORT. A service that finds every enabled slot marked restarts the watchdog, whichever way the two keys reach
WDT_KEY: written by the host, by WDT_SERVICE or by the firmware (R520, R521, R523, R524). -/

namespace Sys2Proof.Machine

/-! ### What a service that takes place leaves (R523) -/

/-- The watchdog right after a service: the period at 0, no mark, no warning phase, and EV 0x2C1 as the last event when
the service came after a warning. -/
def State.Served (warned : Bool) (t : State) : Prop :=
  t.wdtElapsed = 0 ∧ t.wdt.marks = [] ∧ t.wdt.warn = false ∧ (warned = true → ∃ y : State, t = y.ev 0x2C1 0)

/-- A new period outside the warning phase. -/
def State.wdtCalmPeriod (s : State) : State := { s.wdtNewPeriod with wdt := { s.wdtNewPeriod.wdt with warn := false } }

/-- What a service that takes place does (`wdtService_of_marked`). -/
def State.wdtRestart (s : State) : State := s.wdtCalmPeriod.when s.wdt.warn (·.ev 0x2C1 0)

section
variable (s : State)

@[simp] theorem State.wdtElapsed_ev (code data : Nat) : (s.ev code data).wdtElapsed = s.wdtElapsed := by
  simp [State.wdtElapsed]

@[simp] theorem State.wdtElapsed_wdtCalmPeriod : s.wdtCalmPeriod.wdtElapsed = 0 := by
  simp [State.wdtElapsed, State.wdtCalmPeriod, State.wdtNewPeriod]

@[simp] theorem State.wdtCalmPeriod_marks : s.wdtCalmPeriod.wdt.marks = [] := rfl

@[simp] theorem State.wdtCalmPeriod_warn : s.wdtCalmPeriod.wdt.warn = false := rfl

theorem State.wdtRestart_of_warn (h : s.wdt.warn = true) : s.wdtRestart = s.wdtCalmPeriod.ev 0x2C1 0 := by
  simp [State.wdtRestart, State.when, h]

theorem State.wdtRestart_of_not_warn (h : s.wdt.warn = false) : s.wdtRestart = s.wdtCalmPeriod := by
  simp [State.wdtRestart, State.when, h]

theorem State.served_wdtRestart : s.wdtRestart.Served s.wdt.warn := by
  cases hwarn : s.wdt.warn with
  | true =>
    rw [s.wdtRestart_of_warn hwarn]
    exact ⟨by simp, by simp, by simp, fun _ => ⟨s.wdtCalmPeriod, rfl⟩⟩
  | false =>
    rw [s.wdtRestart_of_not_warn hwarn]
    exact ⟨by simp, by simp, by simp, nofun⟩

end

/-! ### The two keys (R520, R521) -/

@[simp] theorem State.wdtUnmarked_setKeyStep (s : State) (b : Bool) :
    (s.setKeyStep b).wdtUnmarked = s.wdtUnmarked := rfl

theorem State.wdtKey_first (s : State) {v : Word} (hkey : bitsOf v 15 0 = 0x5A3C) :
    s.wdtKey v = (false, s.setKeyStep true) := by
  simp [State.wdtKey, hkey]

section
variable {s : State} (hmarked : s.wdtUnmarked = 0)
include hmarked

theorem State.wdtService_of_marked : s.wdtService = (true, s.wdtRestart) := by
  simp [State.wdtService, hmarked, State.wdtRestart, State.wdtCalmPeriod]

theorem State.wdtKey_second {v : Word} (hkey : bitsOf v 15 0 = 0xC3A5) (hstep : s.wdt.keyStep = true) :
    s.wdtKey v = (true, (s.setKeyStep false).wdtRestart) := by
  have hservice : (s.setKeyStep false).wdtService = (true, (s.setKeyStep false).wdtRestart) :=
    State.wdtService_of_marked ((s.wdtUnmarked_setKeyStep false).trans hmarked)
  simp [State.wdtKey, hkey, hstep, hservice]

/-- Both keys, one after the other, serve the watchdog. -/
theorem State.wdtKey_first_second :
    (s.wdtKey 0x5A3C).2.wdtKey 0xC3A5 = (true, ((s.setKeyStep true).setKeyStep false).wdtRestart) := by
  rw [s.wdtKey_first (by decide)]
  have hkey : bitsOf (0xC3A5 : Word) 15 0 = 0xC3A5 := by decide
  exact State.wdtKey_second ((s.wdtUnmarked_setKeyStep true).trans hmarked) hkey rfl

end

/-! ### Who writes them (R524, R531) -/

theorem exec_wdtKeyWrite (v : Word) (s : State) : exec (.wdtKeyWrite v) s = .next (s.wdtKey v).2 := rfl

theorem exec_wdtService (q : Req) (p : Bytes) (s : State) :
    exec (.wdtService q p) s = .next (cmdWdtService q p s) := rfl

@[simp] theorem State.fld_carry (s : State) (q : Req) (a hi lo : Nat) : (s.carry q).fld a hi lo = s.fld a hi lo := rfl

@[simp] theorem State.wdtUnmarked_carry (s : State) (q : Req) : (s.carry q).wdtUnmarked = s.wdtUnmarked := rfl

section
variable {s : State} (hmarked : s.wdtUnmarked = 0)
include hmarked

theorem State.carries_wdtService {q : Req} (hhost : s.fld Addr.wdtCfg 4 4 = 0) :
    s.Carries q 0xB04 (.wdtService q [])
      (((((s.carry q).setKeyStep true).setKeyStep false).wdtRestart).reply q 0xB04 0x0B00 []) := by
  intro hstarts
  have hcarried : (s.carry q).fld Addr.wdtCfg 4 4 ≠ 1 := by
    rw [State.fld_carry, hhost]
    decide
  have hkeys := State.wdtKey_first_second ((s.wdtUnmarked_carry q).trans hmarked)
  rw [exec_wdtService, cmdWdtService, State.startLen_of_starts (n := 0) hstarts rfl, if_neg hcarried, hkeys]
  rfl

theorem State.wdtFirmware_of_open (hfirmware : s.fld Addr.wdtCfg 4 4 = 1) (hopen : s.wdtOpen = true) :
    s.wdtFirmware = ((s.setKeyStep true).setKeyStep false).wdtRestart := by
  rw [State.wdtFirmware, if_pos (by simp [hfirmware, hopen, hmarked]), State.wdtKey_first_second hmarked]

end

/-- Settles O57: by key, by command and by the firmware a service ends in `wdtRestart` of a state that is still in the
warning phase if `s` is. -/
theorem aServiceRestartsThePeriodAndClearsMarks : Obligations.AServiceRestartsThePeriodAndClearsMarks := by
  intro s q v served
  refine ⟨fun hkey hstep hmarked => ?_, fun hstarts hhost hmarked => ?_, fun hfirmware hopen hmarked => ?_⟩
  · rw [exec_wdtKeyWrite, State.wdtKey_second hmarked hkey hstep]
    exact ⟨_, rfl, State.served_wdtRestart _⟩
  · exact ⟨_, State.carries_wdtService hmarked hhost hstarts, State.served_wdtRestart _⟩
  · rw [State.wdtFirmware_of_open hmarked hfirmware hopen]
    exact State.served_wdtRestart _

end Sys2Proof.Machine
end

