-- ==== Sys2Proof/Proofs/Step.lean ====
section
/-! SUPPORT. What every step keeps, whatever command it runs: `exec_keeps` holds of every command, and every command but
one pulse on PORST_N answers a next state. -/

namespace Sys2Proof.Machine

theorem step_nil {s : State} (h : s.pending = []) : step s = .next s := by
  simp [step, h]

theorem step_cons {s : State} {c : Instr} {rest : List Instr} (h : s.pending = c :: rest) :
    step s = exec c { s with pending := rest } := by
  simp [step, h]

/-- Settles O1: `step` is `exec` of the front command by definition. -/
theorem stepRunsTheFrontCommand : Obligations.StepRunsTheFrontCommand :=
  fun _ _ _ => step_cons rfl

/-- Settles O2: nothing is held, no session is open and every memory is empty. -/
theorem resetMeetsTheInvariant : Obligations.ResetMeetsTheInvariant := by
  refine ⟨?memories, ?registers, ?sessions, ?held⟩
  case memories => simp [Memory.wf, State.reset, swf_nil]
  case registers => exact swfBy_nil _
  case sessions => simp [State.sessionsWf, State.reset]
  case held => simp [State.holdingWf, State.reset]

/-- The invariant does not look at the queue of waiting commands. -/
theorem State.Inv.setPending {s : State} (h : s.Inv) (l : List Instr) : State.Inv { s with pending := l } := h

/-- Settles O3: the front command keeps the invariant by `exec_keeps`, and an idle step changes nothing. -/
theorem everyStepKeepsTheInvariant : Obligations.EveryStepKeepsTheInvariant := by
  intro s t hinv hstep
  cases hpending : s.pending with
  | nil =>
    obtain rfl : s = t := by simpa [step_nil hpending] using hstep
    exact hinv
  | cons c rest =>
    rw [step_cons hpending] at hstep
    exact ((exec_keeps c (Keeps.refl _)).next t hstep).inv (hinv.setPending rest)

/-! ### Every command answers (R634) -/

theorem execGridTick_answers (t : Nat) (s : State) : ∃ u, execGridTick t s = .next u := by
  unfold execGridTick
  dsimp only
  split
  · exact ⟨_, rfl⟩
  · exact ⟨_, rfl⟩

theorem execPinReset_answers {ns : Nat} (h : ¬(100 ≤ ns ∧ ns < 1000)) (straps : Straps) (s : State) :
    ∃ u, execPinReset ns straps s = .next u := by
  unfold execPinReset
  split
  · exact ⟨_, rfl⟩
  · rw [if_neg (by omega)]
    exact ⟨_, rfl⟩

/-- Every command answers a next state but the low pulse on PORST_N whose effect R634 leaves open. -/
theorem exec_answers (i : Instr) (s : State) (h : ∀ ns straps, i = .pinReset ns straps → ¬(100 ≤ ns ∧ ns < 1000)) :
    ∃ t, exec i s = .next t := by
  cases i with
  | pinReset ns straps => exact execPinReset_answers (h ns straps rfl) straps s
  | gridTick t => exact execGridTick_answers t s
  | _ => exact ⟨_, rfl⟩

/-- Settles O4: `exec_answers` gives the next state, and `exec_keeps` what it leaves. -/
theorem everyCommandAnswersAndNeverRereadsFreeValues : Obligations.EveryCommandAnswersAndNeverRereadsFreeValues := by
  intro i s h
  obtain ⟨t, ht⟩ := exec_answers i s h
  obtain ⟨hpending, hfree, hnonces, -⟩ := (exec_keeps i (Keeps.refl s)).next t ht
  exact ⟨t, ht, hpending, hfree, hnonces⟩

end Sys2Proof.Machine
end

