-- ==== Sys2Proof/Proofs/SeRun.lean ====
section
/-! SUPPORT. How an SE instruction ends in its context: it goes on behind itself, jumps, traps, or does not get its
data. The proofs about instructions cite these and do not unfold `seRun` (R131 to R138, R181). -/

namespace Sys2Proof.Machine

/-- The outcome of a command whose meaning is a next state, from the state it answers. -/
theorem next_congr {s t : State} (h : s = t) : (.next s : Host.Outcome State Fault Refusal) = .next t :=
  congrArg _ h

section
variable {s t : State} {n : Nat} {c : Ctx} (h : s.Runs n c) {f : State → Nat → Ctx → SeRes}
include h

theorem State.Runs.ctx_eq : s.ctx n = c := h.2

theorem State.Runs.at (t : Nat) : (s.at t).Runs n c := runs_of_se h (State.at_se s t)

/-- An instruction that goes on with `t`, in which the context may have changed but not its PC. -/
theorem seRun_went_of (len : Nat) {g : Ctx → Ctx} (e : f s n c = .next g t none) (hpc : (g (t.ctx n)).pc = c.pc) :
    s.seRun len f = t.went n len (g (t.ctx n)) := by
  rw [seRun_next h len f e, State.onCtx, State.went, hpc]

/-- An instruction that goes on with the context as it was. -/
theorem seRun_went (len : Nat) {g : Ctx → Ctx} (ht : t.Runs n c) (e : f s n c = .next g t none) (hpc : (g c).pc = c.pc) :
    s.seRun len f = t.went n len (g c) := by
  have hctx := ht.ctx_eq
  rw [seRun_went_of h len e (by rw [hctx, hpc]), hctx]

theorem seRun_jumped (len a : Nat) {g : Ctx → Ctx} (ht : t.Runs n c) (e : f s n c = .next g t (some a)) :
    s.seRun len f = t.jumped n a (g c) := by
  obtain ⟨hactive, rfl⟩ := h
  simp only [State.seRun, hactive, e, State.onCtx, State.jumped, ht.ctx_eq]

theorem seRun_bad (len : Nat) {k : Nat} (e : f s n c = .bad k t) : s.seRun len f = t.integrity n k := by
  obtain ⟨hactive, rfl⟩ := h
  simp only [State.seRun, hactive, e]

end

/-! ### The stack depth (R140, R143) -/

theorem Ctx.deep_iff (c : Ctx) (lo hi : Nat) : c.deep lo hi = true ↔ lo ≤ c.stk.length ∧ c.stk.length ≤ hi := by
  simp [Ctx.deep]

theorem Ctx.not_deep_iff (c : Ctx) (lo hi : Nat) : c.deep lo hi = false ↔ c.stk.length < lo ∨ hi < c.stk.length := by
  rw [← Bool.not_eq_true, Ctx.deep_iff]
  omega

theorem Ctx.deep_cons {c : Ctx} {x : Bool} {r : List Bool} (h : c.stk = x :: r) {lo hi : Nat} (hlo : lo ≤ r.length + 1)
    (hhi : r.length + 1 ≤ hi) : c.deep lo hi = true := by
  simp [Ctx.deep_iff, h, hlo, hhi]

theorem Ctx.deep_cons_cons {c : Ctx} {x y : Bool} {r : List Bool} (h : c.stk = x :: y :: r) (hr : r.length ≤ 30) :
    c.deep 2 32 = true := by
  rw [Ctx.deep_iff, h]
  simp only [List.length_cons]
  omega

end Sys2Proof.Machine
end

