-- ==== Sys2Proof/Proofs/BitInstructions.lean ====
section
/-! SUPPORT. The BIT and STK instructions: a bit load is its stack function over the operand bit, a bit store its
operand bit written, and a STK instruction its stack function (R139 to R143). -/

namespace Sys2Proof.Machine

/-! ### The operand bit read (R139) -/

theorem not_beyondDm {a k : Nat} (h : a + k ≤ 0x800000) : beyondDm a k = false := by
  simp only [beyondDm, dmSize, decide_eq_false_iff_not]
  omega

theorem not_beyondDm_byte {a : Nat} (h : a < 0x800000) : beyondDm a 1 = false :=
  not_beyondDm h

theorem BitOperandDm_dmBased (c : Ctx) (rb : Reg) (bit : BitVec 3) (disp : BitVec 13) :
    BitOperandDm c (.dmBased rb bit disp) = some ((c.reg rb + widen 13 disp.toNat) % 2 ^ 32, bit.toNat) := by
  simp only [BitOperandDm, dispAddr_eq _ _ 13 (by decide)]

/-- A bit address of 26 bits lies inside DM. -/
theorem bitAddr_lt_dm (ba : BitVec 26) : ba.toNat / 8 + 1 ≤ 0x800000 := by
  have := ba.isLt
  omega

section
variable {s t : State} {n : Nat} {c : Ctx} {o : BitOperand} {b : Bool}

theorem State.BitReads.runs (h : s.Runs n c) (hb : s.BitReads c o b t) : t.Runs n c := by
  cases o with
  | hot i =>
    obtain ⟨-, rfl, -⟩ := hb
    exact h
  | reg rb bit =>
    obtain ⟨-, rfl⟩ := hb
    exact h
  | dmBased rb bit disp =>
    obtain ⟨-, x, hread, -⟩ := hb
    exact dmRead_runs h hread
  | dmAbs ba =>
    obtain ⟨x, hread, -⟩ := hb
    exact dmRead_runs h hread

/-- An operand bit that can be read is handed on. -/
theorem withBit_of_bitReads (hb : s.BitReads c o b t) (k : State → Bool → SeRes) : withBit s c o k = k t b := by
  cases o with
  | hot i =>
    obtain ⟨rfl, rfl, hpar⟩ := hb
    simp [withBit, State.hotRead, State.hotBit, hpar]
  | reg rb bit =>
    obtain ⟨rfl, rfl⟩ := hb
    rfl
  | dmBased rb bit disp =>
    obtain ⟨hin, x, hread, rfl⟩ := hb
    simp [withBit, BitOperandDm_dmBased, not_beyondDm_byte hin, hread, -Nat.reducePow]
  | dmAbs ba =>
    obtain ⟨x, hread, rfl⟩ := hb
    simp [withBit, BitOperandDm, not_beyondDm (bitAddr_lt_dm ba), hread]

theorem withBit_of_parity_wrong {i : BitVec 13} (hpar : s.parOk (hotUnit i.toNat) = false)
    (k : State → Bool → SeRes) : withBit s c (.hot i) k = .bad 1 s := by
  simp [withBit, State.hotRead, hpar]

/-! ### BIT loads (R140) -/

theorem bitLoad_of_bitReads (h : s.Runs n c) (hb : s.BitReads c o b t) {lo hi : Nat} (hdeep : c.deep lo hi = true)
    (f : Bool → List Bool → List Bool) :
    bitLoad o lo hi f s = t.went n (bitLen o) { c with stk := f b c.stk } :=
  seRun_went h _ (g := fun c => { c with stk := f b c.stk }) (hb.runs h)
    (by simp only [hdeep, withBit_of_bitReads hb]; rfl) rfl

theorem bitLoad_of_parity_wrong (h : s.Runs n c) {i : BitVec 13} (hpar : s.parOk (hotUnit i.toNat) = false)
    {lo hi : Nat} (hdeep : c.deep lo hi = true) (f : Bool → List Bool → List Bool) :
    bitLoad (.hot i) lo hi f s = s.integrity n 1 :=
  seRun_bad h _ (by simp only [hdeep, withBit_of_parity_wrong hpar]; rfl)

/-- A load that combines the top with the operand bit. -/
theorem bitLoad_topWith (h : s.Runs n c) (hb : s.BitReads c o b t) {x : Bool} {r : List Bool} (hstk : c.stk = x :: r)
    (hr : r.length ≤ 31) (f : Bool → Bool → Bool) :
    bitLoad o 1 32 (topWith f) s = t.went n (bitLen o) { c with stk := f x b :: r } := by
  rw [bitLoad_of_bitReads h hb (Ctx.deep_cons hstk (by omega) (by omega)), hstk]
  rfl

end

/-! ### STK functions (R142) -/

section
variable {s : State} {n : Nat} {c : Ctx} (h : s.Runs n c)
include h

theorem stkOp_went {lo hi : Nat} (hdeep : c.deep lo hi = true) (f : List Bool → List Bool) :
    stkOp lo hi f s = s.went n 4 { c with stk := f c.stk } :=
  seRun_went h _ (g := fun c => { c with stk := f c.stk }) h (by simp only [hdeep]; rfl) rfl

theorem execPushc_went {k : BitVec 4} {b : Bool} (hcond : c.cond k = some b) (hdeep : c.deep 0 31 = true) :
    exec (.pushc k) s = .next (s.went n 4 { c with stk := b :: c.stk }) :=
  next_congr <| seRun_went h _ (g := fun c => { c with stk := b :: c.stk }) h (by simp only [hdeep, hcond]; rfl) rfl

end

/-- Settles O5. -/
theorem bitLoadsAndStackFunctions : Obligations.BitLoadsAndStackFunctions := by
  constructor
  · intro s t n c o b h hb
    refine ⟨fun hlen => ?_, fun x r hstk hr => ?_, fun i hpar hlo hhi => ?_⟩
    · have hdeep := (c.deep_iff 0 31).mpr ⟨by omega, hlen⟩
      exact ⟨next_congr (bitLoad_of_bitReads h hb hdeep _), next_congr (bitLoad_of_bitReads h hb hdeep _)⟩
    · have combined (f : Bool → Bool → Bool) := next_congr (bitLoad_topWith h hb hstk hr f)
      exact ⟨combined _, combined _, combined _, combined _, combined _, combined _⟩
    · have hpush := (c.deep_iff 0 31).mpr ⟨by omega, hhi⟩
      have htop := (c.deep_iff 1 32).mpr ⟨hlo, by omega⟩
      have bad {lo hi : Nat} (hdeep : c.deep lo hi = true) (f : Bool → List Bool → List Bool) :=
        next_congr (bitLoad_of_parity_wrong h hpar hdeep f)
      simp only [List.forall_mem_cons]
      exact ⟨bad hpush _, bad hpush _, bad htop _, bad htop _, bad htop _, bad htop _, bad htop _, bad htop _,
        List.forall_mem_nil _⟩
  · intro s n c h
    have run {lo hi : Nat} (hdeep : c.deep lo hi = true) (f : List Bool → List Bool) :=
      next_congr (stkOp_went h hdeep f)
    refine ⟨fun hlen => ?_, fun hlen => ?_, fun x r hstk hr => ?_, fun x y r hstk hr => ?_⟩
    · have hdeep := (c.deep_iff 0 31).mpr ⟨by omega, hlen⟩
      exact ⟨run hdeep _, run hdeep _, fun k b hcond => execPushc_went h hcond hdeep⟩
    · exact run ((c.deep_iff 0 32).mpr ⟨by omega, hlen⟩) _
    · rw [hstk] at run
      have hdeep : c.deep 1 32 = true := Ctx.deep_cons hstk (by omega) (by omega)
      exact ⟨run hdeep _, run hdeep _, fun hdup => run (Ctx.deep_cons hstk (by omega) (by omega)) _⟩
    · rw [hstk] at run
      have hdeep := Ctx.deep_cons_cons hstk hr
      exact ⟨run hdeep _, run hdeep _, run hdeep _, run hdeep _⟩

/-! ### The operand bit written (R139, R141) -/

theorem State.parHeal_ctx (s : State) (u n : Nat) : (s.parHeal u).ctx n = s.ctx n := by
  unfold State.parHeal
  split
  · rfl
  · rfl

@[simp] theorem State.setBit_ctx (s : State) (a i : Nat) (b : Bool) (n : Nat) : (s.setBit a i b).ctx n = s.ctx n := rfl

/-- One bit of a 32-bit number replaced, by its quotients. -/
theorem toNat_setBits_bit (x : Word) (k : Nat) (v : Bool) :
    x.toNat - bitsOf x k k * 2 ^ k + b2n v % 2 * 2 ^ k = x.toNat / 2 ^ (k + 1) * 2 ^ (k + 1) + b2n v * 2 ^ k + x.toNat % 2 ^ k := by
  have hv : b2n v % 2 = b2n v := by cases v <;> rfl
  have hbit : bitsOf x k k = x.toNat / 2 ^ k % 2 := by simp [bitsOf]
  have hlow := Nat.div_add_mod x.toNat (2 ^ k)
  have hhigh := Nat.div_add_mod (x.toNat / 2 ^ k) 2
  rw [hv, hbit, pow_succ, ← Nat.div_div_eq_div_mul]
  generalize x.toNat / 2 ^ k / 2 = high at *
  generalize x.toNat / 2 ^ k % 2 = bit at *
  rw [← hhigh] at hlow
  generalize x.toNat % 2 ^ k = low at *
  have : x.toNat = high * (2 ^ k * 2) + low + bit * 2 ^ k := by rw [← hlow]; ring
  omega

theorem Ctx.setReg_setBits (c : Ctx) (r : Reg) (k : BitVec 5) (v : Bool) :
    c.setReg r (setBits (BitVec.ofNat 32 (c.reg r)) k.toNat k.toNat (b2n v)).toNat =
      c.setReg r (c.reg r / 2 ^ (k.toNat + 1) * 2 ^ (k.toNat + 1) + b2n v * 2 ^ k.toNat + c.reg r % 2 ^ k.toNat) := by
  have h := toNat_setBits_bit (c.g.getD r.val 0) k.toNat v
  simp only [Ctx.setReg, Ctx.reg, BitVec.ofNat_toNat, BitVec.setWidth_eq, setBits, Nat.add_sub_cancel_left, pow_one, h]

section
variable {s t : State} {n : Nat} {c d : Ctx} {o : BitOperand} {v : Bool}

/-- A bit store leaves the PC and the stack. -/
theorem State.BitWrites.pc_stk (h : s.Runs n c) (hw : s.BitWrites n c o v t d) : d.pc = c.pc ∧ d.stk = c.stk := by
  have stored (a : Nat) (bs : Bytes) : ((s.seStore n a bs).ctx n).pc = c.pc ∧ ((s.seStore n a bs).ctx n).stk = c.stk := by
    obtain ⟨l, hl⟩ := seStore_ctx s n a bs
    rw [hl, h.ctx_eq]
    exact ⟨rfl, rfl⟩
  cases o with
  | hot i =>
    obtain ⟨-, rfl⟩ := hw
    exact ⟨rfl, rfl⟩
  | reg rb bit =>
    obtain ⟨-, rfl⟩ := hw
    exact ⟨rfl, rfl⟩
  | dmBased rb bit disp =>
    obtain ⟨-, rfl, rfl⟩ := hw
    exact stored _ _
  | dmAbs ba =>
    obtain ⟨rfl, rfl⟩ := hw
    exact stored _ _

theorem putBit_of_bitWrites (h : s.Runs n c) (hw : s.BitWrites n c o v t d) (g : Ctx → Ctx) :
    ∃ g', putBit s n c o v g = .next g' t none ∧ g' (t.ctx n) = g d := by
  cases o with
  | hot i =>
    obtain ⟨rfl, rfl⟩ := hw
    exact ⟨g, rfl, by rw [State.parHeal_ctx, State.setBit_ctx, h.ctx_eq]⟩
  | reg rb bit =>
    obtain ⟨rfl, rfl⟩ := hw
    exact ⟨_, rfl, by rw [h.ctx_eq, Ctx.setReg_setBits]⟩
  | dmBased rb bit disp =>
    obtain ⟨hin, rfl, rfl⟩ := hw
    exact ⟨g, by simp [putBit, BitOperandDm_dmBased, not_beyondDm_byte hin, -Nat.reducePow], rfl⟩
  | dmAbs ba =>
    obtain ⟨rfl, rfl⟩ := hw
    exact ⟨g, by simp [putBit, BitOperandDm, not_beyondDm (bitAddr_lt_dm ba)], rfl⟩

theorem checkBit_of_bitWrites (hw : s.BitWrites n c o v t d) (g : Ctx → Ctx) : checkBit s c o g = .next g s none := by
  cases o with
  | hot i => rfl
  | reg rb bit => rfl
  | dmBased rb bit disp =>
    obtain ⟨hin, -⟩ := hw
    simp [checkBit, BitOperandDm_dmBased, not_beyondDm_byte hin, -Nat.reducePow]
  | dmAbs ba => simp [checkBit, BitOperandDm, not_beyondDm (bitAddr_lt_dm ba)]

/-! ### BIT stores (R140, R141) -/

/-- The context behind a bit store: popped by a P form. -/
def Ctx.popIf (p : Bool) (c : Ctx) : Ctx := if p then { c with stk := c.stk.tail } else c

@[simp] theorem Ctx.popIf_pc (p : Bool) (c : Ctx) : (c.popIf p).pc = c.pc := by
  cases p <;> rfl

theorem Ctx.popIf_false (c : Ctx) : c.popIf false = c := rfl

theorem Ctx.popIf_true {c : Ctx} {x : Bool} {r : List Bool} (h : c.stk = x :: r) : c.popIf true = { c with stk := r } := by
  simp [Ctx.popIf, h]

section
variable (h : s.Runs n c) {x : Bool} {r : List Bool} (hstk : c.stk = x :: r) (hr : r.length ≤ 31)
include h hstk hr

theorem bitStore_of_bitWrites (p : Bool) (f : Bool → Bool) (hw : s.BitWrites n c o (f x) t d) :
    bitStore o p f s = t.went n (bitLen o) (d.popIf p) := by
  obtain ⟨g, hput, hg⟩ := putBit_of_bitWrites h hw (Ctx.popIf p)
  have hdeep : c.deep 1 32 = true := Ctx.deep_cons hstk (by omega) (by omega)
  have htop : c.top = x := by simp [Ctx.top, hstk]
  rw [← hg]
  refine seRun_went_of h _ (by simp only [hdeep, htop]; exact hput) ?_
  rw [hg, Ctx.popIf_pc, (hw.pc_stk h).1]

theorem bitCond_of_bitWrites (p v : Bool) (hw : s.BitWrites n c o v t d) (hx : x = true) :
    bitCond o p v s = t.went n (bitLen o) (d.popIf p) := by
  obtain ⟨g, hput, hg⟩ := putBit_of_bitWrites h hw (Ctx.popIf p)
  have hdeep : c.deep 1 32 = true := Ctx.deep_cons hstk (by omega) (by omega)
  have htop : c.top = true := by simp [Ctx.top, hstk, hx]
  rw [← hg]
  refine seRun_went_of h _ (by simp only [hdeep, htop]; exact hput) ?_
  rw [hg, Ctx.popIf_pc, (hw.pc_stk h).1]

theorem bitCond_of_top_false (p v : Bool) {w : Bool} (hw : s.BitWrites n c o w t d) (hx : x = false) :
    bitCond o p v s = s.went n (bitLen o) (c.popIf p) := by
  have hdeep : c.deep 1 32 = true := Ctx.deep_cons hstk (by omega) (by omega)
  have htop : c.top = false := by simp [Ctx.top, hstk, hx]
  exact seRun_went h _ h (by simp only [hdeep, htop]; exact checkBit_of_bitWrites hw (Ctx.popIf p)) (Ctx.popIf_pc p c)

end

end

/-- Settles O6. -/
theorem bitStoresWriteOneBit : Obligations.BitStoresWriteOneBit := by
  intro s n c o x r h hstk hr
  have pop {v : Bool} {t : State} {d : Ctx} (hw : s.BitWrites n c o v t d) : d.popIf true = { d with stk := r } :=
    Ctx.popIf_true ((hw.pc_stk h).2.trans hstk)
  refine ⟨fun t d hw => ⟨?_, ?_⟩, fun t d hw => ?_, fun t d hw hx => ⟨?_, ?_⟩, fun t d hw hx => ⟨?_, ?_⟩,
    fun t d v hw hx => ?_⟩
  · exact next_congr (bitStore_of_bitWrites h hstk hr false id hw)
  · rw [← pop hw]
    exact next_congr (bitStore_of_bitWrites h hstk hr true id hw)
  · exact next_congr (bitStore_of_bitWrites h hstk hr false (! ·) hw)
  · exact next_congr (bitCond_of_bitWrites h hstk hr false true hw hx)
  · rw [← pop hw]
    exact next_congr (bitCond_of_bitWrites h hstk hr true true hw hx)
  · exact next_congr (bitCond_of_bitWrites h hstk hr false false hw hx)
  · rw [← pop hw]
    exact next_congr (bitCond_of_bitWrites h hstk hr true false hw hx)
  · have skip (p v : Bool) := next_congr (bitCond_of_top_false h hstk hr p v hw hx)
    rw [← Ctx.popIf_true hstk]
    exact ⟨skip false true, skip false false, skip true true, skip true false⟩

end Sys2Proof.Machine
end

