-- ==== Sys2Proof/Proofs/Knots.lean ====
section
/-! SUPPORT. A KNOT fetches its entry, reads its literals and combines the value of its terms with the stack; fetching
and reading leave the contexts alone (R145 to R150). -/

namespace Sys2Proof.Machine

/-! ### What fetching an entry leaves (R145, R146) -/

theorem State.bankHalf_se (s : State) (off : Nat) : (s.bankHalf off).2.se = s.se := by
  have hread := readBytes_se s .seFetch (s.bankBase + off % 0x800000) 2
  unfold State.bankHalf
  split
  next e => rwa [e] at hread
  next e => rwa [e] at hread

theorem fetchNat_se (k off : Nat) (s : State) : (fetchNat k off s).2.se = s.se := by
  induction k generalizing off s with
  | zero => rfl
  | succ k ih =>
    have hhalf := s.bankHalf_se off
    unfold fetchNat
    split
    next t e => rwa [e] at hhalf
    next v t e =>
      rw [e] at hhalf
      have hrest := (ih (off + 2) t).trans hhalf
      split
      next v' u e' => rwa [e'] at hrest
      next => exact hrest

theorem fetchLits_se {k off off' : Nat} {s t : State} {ls : List Lit} (e : fetchLits k off s = .ok ls off' t) :
    t.se = s.se := by
  induction k generalizing off s ls with
  | zero => simp_all [fetchLits]
  | succ k ih =>
    have hhalf := s.bankHalf_se off
    unfold fetchLits at e
    split at e
    next => contradiction
    next h1 s1 e1 =>
      rw [e1] at hhalf
      split at e
      next =>
        split at e
        next => contradiction
        next =>
          split at e
          next ls' o s2 e2 =>
            obtain ⟨-, rfl, rfl⟩ := by simpa using e
            rw [ih e2, hhalf]
          next hno => exact (hno _ _ _ e).elim
      next =>
        split at e
        next => contradiction
        next =>
          have hlow := s1.bankHalf_se (off + 2)
          split at e
          next => contradiction
          next l s2 e2 =>
            rw [e2] at hlow
            split at e
            next ls' o s3 e3 =>
              obtain ⟨-, rfl, rfl⟩ := by simpa using e
              rw [ih e3, hlow, hhalf]
            next hno => exact (hno _ _ _ e).elim

theorem fetchTerms_se {k off off' : Nat} {s t : State} {ts : List (Nat × Nat)} (e : fetchTerms k off s = .ok ts off' t) :
    t.se = s.se := by
  induction k generalizing off s ts with
  | zero => simp_all [fetchTerms]
  | succ k ih =>
    have hnat := fetchNat_se 8 off s
    unfold fetchTerms at e
    split at e
    next => contradiction
    next v s1 e1 =>
      rw [e1] at hnat
      split at e
      next ts' o s2 e2 =>
        obtain ⟨-, rfl, rfl⟩ := by simpa using e
        rw [ih e2, hnat]
      next hno => exact (hno _ _ _ e).elim

theorem litVals_se (s : State) (ls : List Lit) : (litVals s ls).2.se = s.se := by
  induction ls generalizing s with
  | nil => rfl
  | cons l ls ih =>
    cases l with
    | hot i =>
      unfold litVals
      split
      next => rfl
      next b e =>
        have hrest := ih s
        split
        next bs t e' => rwa [e'] at hrest
        next => exact hrest
    | dm ba =>
      have hread := readBytes_se s .seData (dmBase + ba / 8) 1
      unfold litVals
      split
      next t e =>
        rw [State.dmRead] at e
        rwa [e] at hread
      next x t e =>
        rw [State.dmRead] at e
        rw [e] at hread
        have hrest := (ih t).trans hread
        split
        next bs u e' => rwa [e'] at hrest
        next => exact hrest

/-! ### The value of an entry (R146, R147) -/

theorem termVal_iff (vs : List Bool) (inc neg : Nat) : termVal vs inc neg = true ↔
    ∀ i < vs.length, inc.testBit i = true → (vs.getD i false ^^ neg.testBit i) = true := by
  simp only [termVal, List.all_eq_true, List.mem_range, Bool.or_eq_true, Bool.not_eq_true', ← Bool.not_eq_true,
    imp_iff_not_or]

section
variable {s : State} {n : Nat} {c : Ctx} (h : s.Runs n c) {line : BitVec 18}
include h

theorem knot_of_knotReads {v : Bool} {t : State} (hv : s.KnotReads line v t) {lo hi : Nat}
    (hdeep : c.deep lo hi = true) (f : Bool → List Bool → List Bool) :
    knot line lo hi f s = t.went n 4 { c with stk := f v c.stk } := by
  obtain ⟨hd, s1, ls, off, s2, terms, off2, s3, vs, ehead, hlit, hterm, hres, hhigh, elits, eterms, hinc, hwords, hdm,
    evals, hval⟩ := hv
  have hse : t.se = s.se := by
    have h1 := fetchNat_se 2 (line.toNat * 32) s
    have h4 := litVals_se s3 ls
    rw [ehead] at h1
    rw [evals] at h4
    exact ((h4.trans (fetchTerms_se eterms)).trans (fetchLits_se elits)).trans h1
  have hv : (terms.any (fun x => termVal vs x.1 x.2) != decide (hd / 0x1000 % 2 = 1)) = v := by
    have hinv : hd.testBit 12 = decide (hd / 0x1000 % 2 = 1) := by simp [Nat.testBit_eq_decide_div_mod_eq]
    rw [Bool.eq_iff_iff, hval, ← hinv]
    simp only [← termVal_iff, ← List.any_eq_true]
    cases terms.any _ <;> cases hd.testBit 12 <;> decide
  refine seRun_went h 4 (g := fun c => { c with stk := f v c.stk }) (runs_of_se h hse) ?_ rfl
  have hhead : ¬(64 < hd % 128 ∨ 8 < hd / 256 % 16 ∨ hd / 128 % 2 ≠ 0 ∨ 0x2000 ≤ hd) := by omega
  simp only [hdeep, ehead, elits, eterms]
  rw [if_neg (by decide), if_neg (by simpa [or_assoc] using hhead), if_neg ?fits, evals]
  case fits =>
    simp only [Bool.or_eq_true, not_or, Bool.not_eq_true, List.any_eq_false, decide_eq_true_eq]
    refine ⟨⟨fun x hx => Nat.not_le.mpr (hinc x hx), by omega⟩, fun l hl => ?_⟩
    cases l with
    | hot i => simp
    | dm ba => simpa [dmSize] using hdm ba hl
  simp only [hv]

theorem knot_of_bad_header {hd : Nat} {s1 : State} (ehead : fetchNat 2 (line.toNat * 32) s = (some hd, s1))
    (hbad : 64 < hd % 128 ∨ 8 < hd / 256 % 16 ∨ hd / 128 % 2 = 1 ∨ 0x2000 ≤ hd) {lo hi : Nat}
    (hdeep : c.deep lo hi = true) (f : Bool → List Bool → List Bool) : knot line lo hi f s = s.trap n 5 line.toNat 0 := by
  refine seRun_trap h 4 _ ?_
  have hhead : 64 < hd % 128 ∨ 8 < hd / 256 % 16 ∨ hd / 128 % 2 ≠ 0 ∨ 0x2000 ≤ hd := by omega
  simp only [hdeep, ehead]
  rw [if_neg (by decide), if_pos (by simpa [or_assoc] using hhead)]

end

/-- Settles O7. -/
theorem knotEvaluatesItsEntry : Obligations.KnotEvaluatesItsEntry := by
  intro s n c line h
  refine ⟨fun v t hv => ⟨fun hlen => ?_, fun x r hstk hr => ?_⟩, fun hd s1 ehead hbad => ⟨fun hlen => ?_, fun hlo hhi => ?_⟩⟩
  · exact next_congr (knot_of_knotReads h hv ((c.deep_iff 0 31).mpr ⟨by omega, hlen⟩) _)
  · have combined (f : Bool → Bool → Bool) :=
      knot_of_knotReads h hv (Ctx.deep_cons (lo := 1) (hi := 32) hstk (by omega) (by omega)) (topWith f)
    simp only [hstk] at combined
    exact ⟨next_congr (combined _), next_congr (combined _)⟩
  · exact next_congr (knot_of_bad_header h ehead hbad ((c.deep_iff 0 31).mpr ⟨by omega, hlen⟩) _)
  · have hdeep := (c.deep_iff 1 32).mpr ⟨hlo, hhi⟩
    exact ⟨next_congr (knot_of_bad_header h ehead hbad hdeep _), next_congr (knot_of_bad_header h ehead hbad hdeep _)⟩

end Sys2Proof.Machine
end

