-- ==== Sys2Proof/Proofs/EdgesAndTimers.lean ====
section
/-! SUPPORT. EDGE and UNPRIME on their cell, TIM and TRST on their timer entry: what each writes back, and the three
timer rules of R155 as functions of the fresh entry (R151, R153 to R156). -/

namespace Sys2Proof.Machine

/-! ### Edge cells (R151) -/

/-- The edge cell `cell` with PREV and PRIMED. -/
def State.putEdge (s : State) (cell : Nat) (v : BitVec 2) : State :=
  { s with se := { s.se with edge := sput 0 s.se.edge cell v } }

section
variable {s : State} {n : Nat} {c : Ctx} (h : s.Runs n c) (cell : BitVec 16)
include h

theorem State.Runs.putEdge (k : Nat) (v : BitVec 2) : (s.putEdge k v).Runs n c := h

theorem edgeOp_went {x : Bool} {r : List Bool} (hstk : c.stk = x :: r) (hr : r.length ≤ 31)
    (hpar : s.parOk (edgeUnit cell.toNat) = true) (f : Bool → Bool → Bool) :
    edgeOp cell f s = (s.putEdge cell.toNat (if x then 3 else 2)).went n 4 { c with stk :=
      ((sget 0 s.se.edge cell.toNat).getLsbD 1 && f x ((sget 0 s.se.edge cell.toNat).getLsbD 0)) :: r } := by
  have hdeep : c.deep 1 32 = true := Ctx.deep_cons hstk (by omega) (by omega)
  have htop : c.top = x := by simp [Ctx.top, hstk]
  have hset (b : Bool) : c.setTop b = { c with stk := b :: r } := by simp [Ctx.setTop, hstk]
  rw [← hset]
  refine seRun_went h 4 (g := fun c => c.setTop _) (h.putEdge _ _) ?_ rfl
  simp only [hdeep, hpar, htop]
  rfl

theorem edgeOp_of_parity_wrong (hlo : 1 ≤ c.stk.length) (hhi : c.stk.length ≤ 32)
    (hpar : s.parOk (edgeUnit cell.toNat) = false) (f : Bool → Bool → Bool) : edgeOp cell f s = s.integrity n 1 := by
  have hdeep := (c.deep_iff 1 32).mpr ⟨hlo, hhi⟩
  exact seRun_bad h 4 (by simp only [hdeep, hpar]; rfl)

theorem State.Runs.parHeal (u : Nat) : (s.parHeal u).Runs n c := by
  unfold State.parHeal
  split
  · exact h
  · exact h

theorem exec_unprime : exec (.unprime cell) s =
    .next (((s.putEdge cell.toNat 0).parHeal (edgeUnit cell.toNat)).went n 4 c) :=
  next_congr (seRun_went h 4 (g := id) ((h.putEdge _ _).parHeal _) rfl rfl)

end

/-! ### Timer entries (R153) -/

theorem State.timer_at (s : State) (t k : Nat) : (s.at t).timer k = s.timer k := by
  rw [State.timer, State.at_se]
  rfl

theorem State.parHeal_eq (s : State) (u : Nat) :
    s.parHeal u = { s with se := { s.se with parBad := s.se.parBad.filter (· ≠ u) } } := by
  unfold State.parHeal
  split
  next hempty =>
    have hfilter : s.se.parBad.filter (· ≠ u) = s.se.parBad := by
      rw [List.isEmpty_iff.mp hempty]
      rfl
    rw [hfilter]
  next => rfl

/-- Timer `k` written back by an instruction of context `n`, which marks it when it is mirrored (R391). -/
def State.writeTimer (s : State) (n k : Nat) (e : Timer) : State :=
  if e.mir && e ≠ s.timer k then (s.setTimer k e).onCtx n fun c => { c with dirtyT := addNew c.dirtyT [k] }
  else s.setTimer k e

section
variable (s : State) (n k : Nat) (e : Timer)

theorem State.setTimer_eq : s.setTimer k e = { s with se := { s.se with
    tmb := sput {} s.se.tmb k e, parBad := s.se.parBad.filter (· ≠ tmbUnit k) } } := by
  rw [State.setTimer, State.parHeal_eq]

@[simp] theorem State.setTimer_ctx (m : Nat) : (s.setTimer k e).ctx m = s.ctx m := by
  rw [State.setTimer_eq]
  rfl

theorem State.writeTimer_ctx : ∃ l, (s.writeTimer n k e).ctx n = { s.ctx n with dirtyT := l } := by
  unfold State.writeTimer
  split
  · exact ⟨_, by rw [State.onCtx, State.ctx_setCtx_self, State.setTimer_ctx]⟩
  · exact ⟨_, State.setTimer_ctx s k e n⟩

theorem State.writeTimer_ctx_other {m : Nat} (hm : m ≠ n) : (s.writeTimer n k e).ctx m = s.ctx m := by
  unfold State.writeTimer
  split
  · rw [State.onCtx, State.ctx_setCtx_other _ _ hm, State.setTimer_ctx]
  · exact State.setTimer_ctx s k e m

theorem State.writeTimer_eq : ∃ cs, s.writeTimer n k e = { s with se := { s.se with
    ctxs := cs, tmb := sput {} s.se.tmb k e, parBad := s.se.parBad.filter (· ≠ tmbUnit k) } } := by
  unfold State.writeTimer
  rw [State.setTimer_eq]
  split
  · exact ⟨_, rfl⟩
  · exact ⟨_, rfl⟩

/-- Timer `k` and the context written: nothing else changes. -/
theorem State.onlyTimers_writeTimer (d : Ctx) : s.OnlyTimers n k ((s.writeTimer n k e).setCtx n d) := by
  refine ⟨fun m hm => ?_, ?_⟩
  · rw [State.ctx_setCtx_other _ _ hm, State.writeTimer_ctx_other s n k e hm]
  · obtain ⟨cs, hcs⟩ := s.writeTimer_eq n k e
    rw [hcs]
    rfl

theorem State.timer_writeTimer_self (d : Ctx) : ((s.writeTimer n k e).setCtx n d).timer k = e := by
  obtain ⟨cs, hcs⟩ := s.writeTimer_eq n k e
  rw [hcs]
  exact sget_sput_self _ _ _ _

theorem State.timer_writeTimer_other (d : Ctx) {j : Nat} (hj : j ≠ k) :
    ((s.writeTimer n k e).setCtx n d).timer j = s.timer j := by
  obtain ⟨cs, hcs⟩ := s.writeTimer_eq n k e
  rw [hcs]
  exact sget_sput_other _ _ _ _ hj

end

/-! ### The timer rules (R154, R155) -/

@[simp] theorem Timer.elapsed_stop (e : Timer) (tick : Nat) : e.stop.elapsed tick = 0 := by
  simp [Timer.elapsed, Timer.stop]

@[simp] theorem Timer.elapsed_go (e : Timer) (tick : Nat) : (e.go tick).elapsed tick = 0 := by
  simp [Timer.elapsed, Timer.go]

/-- The entry takes IN; ELAPSED does not look at it. -/
def Timer.takes (e : Timer) (inp : Bool) : Timer := { e with inp := inp }

@[simp] theorem Timer.elapsed_takes (e : Timer) (inp : Bool) (tick : Nat) : (e.takes inp).elapsed tick = e.elapsed tick := rfl

@[simp] theorem Timer.run_takes (e : Timer) (inp : Bool) : (e.takes inp).run = e.run := rfl

@[simp] theorem Timer.run_stop (e : Timer) : e.stop.run = false := rfl

@[simp] theorem Timer.run_go (e : Timer) (tick : Nat) : (e.go tick).run = true := rfl

/-- TON: runs while IN is 1. -/
def Timer.ton (o : Timer) (tick : Nat) (inp : Bool) : Timer :=
  if !inp then o.stop else if !o.run then o.go tick else o

/-- TOF: stops at IN = 1 and starts at its falling edge. -/
def Timer.tof (o : Timer) (tick : Nat) (inp : Bool) : Timer :=
  if inp then o.stop else if o.inp then o.go tick else o

/-- TP: starts at the rising edge of IN, and stops once PT has passed and IN is 0. -/
def Timer.tp (o : Timer) (pt tick : Nat) (inp : Bool) : Timer :=
  if !o.run && inp && !o.inp then o.go tick
  else if o.run && !inp && pt ≤ o.elapsed tick then o.stop else o

section
variable (e : Timer) (unit pt tick : Nat) (inp : Bool)

theorem fresh_eq (mode : Nat) :
    (if e.mode ≠ mode || e.unit ≠ unit then { e.stop with mode := mode, unit := unit, inp := false } else e) =
      freshTimer e mode unit := by
  unfold freshTimer
  by_cases hmode : e.mode = mode <;> by_cases hunit : e.unit = unit <;> simp [hmode, hunit, Timer.stop]

theorem timCall_ton : timCall e 1 unit pt tick inp =
    let d := ((freshTimer e 1 unit).ton tick inp).takes inp
    (d, inp && pt ≤ d.elapsed tick, min (d.elapsed tick) pt) := by
  simp only [timCall, fresh_eq]
  rfl

theorem timCall_tof : timCall e 2 unit pt tick inp =
    let d := ((freshTimer e 2 unit).tof tick inp).takes inp
    (d, inp || (d.run && d.elapsed tick < pt), min (d.elapsed tick) pt) := by
  simp only [timCall, fresh_eq]
  rfl

theorem timCall_tp : timCall e 3 unit pt tick inp =
    let d := ((freshTimer e 3 unit).tp pt tick inp).takes inp
    (d, d.run && d.elapsed tick < pt, min (d.elapsed tick) pt) := by
  simp only [timCall, fresh_eq]
  rfl

theorem freshTimer_fields (mode : Nat) : (freshTimer e mode unit).mode = mode ∧ (freshTimer e mode unit).unit = unit ∧
    (freshTimer e mode unit).mir = e.mir := by
  unfold freshTimer
  split
  next hsame => exact ⟨hsame.1, hsame.2, rfl⟩
  next => exact ⟨rfl, rfl, rfl⟩

end

section
variable (o : Timer) (pt tick : Nat)

theorem Timer.ton_false : o.ton tick false = o.stop := rfl

theorem Timer.run_ton_true : (o.ton tick true).run = true := by
  cases hrun : o.run <;> simp [Timer.ton, hrun]

theorem Timer.elapsed_ton_true : (o.ton tick true).elapsed tick = if o.run then o.elapsed tick else 0 := by
  cases hrun : o.run <;> simp [Timer.ton, hrun]

theorem Timer.tof_true : o.tof tick true = o.stop := rfl

theorem Timer.tof_false_of_inp (h : o.inp = true) : o.tof tick false = o.go tick := by
  simp [Timer.tof, h]

theorem Timer.tof_false_of_not_inp (h : o.inp = false) : o.tof tick false = o := by
  simp [Timer.tof, h]

section
variable {o pt tick} {inp : Bool}

theorem Timer.tp_rising (hrun : o.run = false) (hinp : inp = true) (hprev : o.inp = false) :
    o.tp pt tick inp = o.go tick := by
  simp [Timer.tp, hrun, hinp, hprev]

theorem Timer.tp_over (hrun : o.run = true) (hinp : inp = false) (hover : pt ≤ o.elapsed tick) :
    o.tp pt tick inp = o.stop := by
  simp [Timer.tp, hrun, hinp, hover]

theorem Timer.tp_idle (hrun : o.run = false) (h : inp = false ∨ o.inp = true) : o.tp pt tick inp = o := by
  rcases h with h | h <;> simp [Timer.tp, hrun, h]

theorem Timer.tp_running (hrun : o.run = true) (h : inp = true ∨ o.elapsed tick < pt) : o.tp pt tick inp = o := by
  rcases h with h | h <;> simp [Timer.tp, hrun, h]

end

variable (inp : Bool)

/-- What no timer rule changes of its entry. -/
def Timer.SameSetup (o e : Timer) : Prop := e.mode = o.mode ∧ e.unit = o.unit ∧ e.mir = o.mir

theorem Timer.SameSetup.refl : o.SameSetup o := ⟨rfl, rfl, rfl⟩
theorem Timer.SameSetup.stop : o.SameSetup o.stop := ⟨rfl, rfl, rfl⟩
theorem Timer.SameSetup.go : o.SameSetup (o.go tick) := ⟨rfl, rfl, rfl⟩

theorem Timer.SameSetup.ite {a b : Timer} {p : Prop} [Decidable p] (ha : o.SameSetup a) (hb : o.SameSetup b) :
    o.SameSetup (if p then a else b) := by
  split
  · exact ha
  · exact hb

theorem Timer.sameSetup_ton : o.SameSetup (o.ton tick inp) :=
  .ite _ (.stop _) (.ite _ (.go _ _) (.refl _))

theorem Timer.sameSetup_tof : o.SameSetup (o.tof tick inp) :=
  .ite _ (.stop _) (.ite _ (.go _ _) (.refl _))

theorem Timer.sameSetup_tp : o.SameSetup (o.tp pt tick inp) :=
  .ite _ (.go _ _) (.ite _ (.stop _) (.refl _))

end

/-! ### TIM and TRST (R155, R156) -/

/-- The preset of a TIM instruction: Ga or its extension word. -/
def presetOf (c : Ctx) (op : TimOperand) : Nat :=
  match op.pt with
  | .reg ra => c.reg ra
  | .ext v => v.toNat

/-- The length of a TIM instruction: an extension word holds its preset. -/
def timLen (op : TimOperand) : Nat :=
  match op.pt with
  | .reg _ => 4
  | .ext _ => 8

section
variable {s : State} {n : Nat} {c : Ctx} (h : s.Runs n c)
include h

theorem writeTimer_ctx_of_runs (k : Nat) (e : Timer) : ∃ l, (s.writeTimer n k e).ctx n = { c with dirtyT := l } := by
  obtain ⟨l, hl⟩ := s.writeTimer_ctx n k e
  exact ⟨l, by rw [hl, h.ctx_eq]⟩

/-- What an instruction leaves that writes timer `k` back as `e` and goes on with its stack and Gr changed. -/
theorem writeTimer_went (k : Nat) (e : Timer) (len : Nat) (g : Ctx → Ctx)
    (hg : ∀ d, (g d).pc = d.pc) :
    ∃ u l, (s.writeTimer n k e).went n len (g ((s.writeTimer n k e).ctx n)) = u ∧ s.OnlyTimers n k u ∧ u.timer k = e ∧
      (∀ j, j ≠ k → u.timer j = s.timer j) ∧
      u.ctx n = { g { c with dirtyT := l } with pc := (c.pc + len) % 0x800000 } := by
  obtain ⟨l, hl⟩ := writeTimer_ctx_of_runs h k e
  refine ⟨_, l, rfl, s.onlyTimers_writeTimer n k e _, s.timer_writeTimer_self n k e _,
    fun j hj => s.timer_writeTimer_other n k e _ hj, ?_⟩
  rw [State.went, State.ctx_setCtx_self, hl, hg]

end

theorem exec_trst {s : State} {n : Nat} {c : Ctx} (h : s.Runs n c) (rd : Reg) (k : BitVec 13) :
    ∃ u l, exec (.trst rd k) s = .next u ∧ s.OnlyTimers n k.toNat u ∧
      u.timer k.toNat = (s.timer k.toNat).stop.takes false ∧ (∀ j, j ≠ k.toNat → u.timer j = s.timer j) ∧
      u.ctx n = ({ c with dirtyT := l, pc := (c.pc + 4) % 0x800000 } : Ctx).setReg rd 0 := by
  obtain ⟨l, hl⟩ := writeTimer_ctx_of_runs h k.toNat ((s.timer k.toNat).stop.takes false)
  obtain ⟨u, l', hw, honly, htimer, hother, hctx⟩ :=
    writeTimer_went h k.toNat ((s.timer k.toNat).stop.takes false) 4 (fun d => d.setReg rd 0) (fun _ => rfl)
  refine ⟨u, l', next_congr (Eq.trans ?_ hw), honly, htimer, hother, hctx⟩
  exact seRun_went_of h 4 (g := fun d => d.setReg rd 0) rfl (by rw [hl]; rfl)

section
variable {s : State} {n : Nat} {c : Ctx} (h : s.Runs n c) {op : TimOperand} (t : Nat) {x : Bool} {r : List Bool}
  (hstk : c.stk = x :: r) (hr : r.length ≤ 31) (hunit : op.unit ≠ 3)
include h hstk hr hunit

theorem timOp_of_parity_wrong (mode : Nat) (hpar : s.parOk (tmbUnit op.timer.toNat) = false) :
    timOp mode op t s = (s.at t).integrity n 1 := by
  have hdeep : c.deep 1 32 = true := Ctx.deep_cons hstk (by omega) (by omega)
  have hpar' : (s.at t).parOk (tmbUnit op.timer.toNat) = false := by rwa [State.parOk, State.at_se]
  unfold timOp
  refine seRun_bad (h.at t) _ ?_
  simp only [hunit, hdeep, hpar']
  rfl

theorem timOp_went {mode : Nat} {e : Timer} {q : Bool} {et : Nat} (hpar : s.parOk (tmbUnit op.timer.toNat) = true)
    (hcall : timCall (s.timer op.timer.toNat) mode op.unit.toNat (presetOf c op) (s.at t).utick x = (e, q, et)) :
    timOp mode op t s = ((s.at t).writeTimer n op.timer.toNat e).went n (timLen op)
      (((((s.at t).writeTimer n op.timer.toNat e).ctx n).setTop q).setReg op.rd et) := by
  have hdeep : c.deep 1 32 = true := Ctx.deep_cons hstk (by omega) (by omega)
  have htop : c.top = x := by simp [Ctx.top, hstk]
  have hpar' : (s.at t).parOk (tmbUnit op.timer.toNat) = true := by rwa [State.parOk, State.at_se]
  have htimer : (s.at t).timer op.timer.toNat = s.timer op.timer.toNat := State.timer_at _ _ _
  obtain ⟨l, hl⟩ := writeTimer_ctx_of_runs (h.at t) op.timer.toNat e
  unfold timOp
  refine seRun_went_of (h.at t) _ (g := fun c => (c.setTop q).setReg op.rd et) ?_ (by rw [hl]; rfl)
  rw [← htimer, ← htop, presetOf] at hcall
  simp only [hunit, hdeep, hpar']
  erw [hcall]
  rfl

/-- A TIM call in entry mode `mode`, from what its rule leaves of the entry. -/
theorem timOp_call {mode : Nat} {d : Timer} {q : Bool} (hpar : s.parOk (tmbUnit op.timer.toNat) = true)
    (hsame : (freshTimer (s.timer op.timer.toNat) mode op.unit.toNat).SameSetup d)
    (hcall : timCall (s.timer op.timer.toNat) mode op.unit.toNat (presetOf c op) (s.at t).utick x =
      (d.takes x, q, min ((d.takes x).elapsed (s.at t).utick) (presetOf c op))) :
    ∃ u l, timOp mode op t s = u ∧ (s.at t).OnlyTimers n op.timer.toNat u ∧ u.timer op.timer.toNat = d.takes x ∧
      (∀ k, k ≠ op.timer.toNat → u.timer k = s.timer k) ∧
      u.ctx n = ({ c with stk := q :: r, dirtyT := l, pc := (c.pc + timLen op) % 0x800000 } : Ctx).setReg op.rd
        (min ((d.takes x).elapsed (s.at t).utick) (presetOf c op)) ∧
      (d.takes x).mode = mode ∧ (d.takes x).unit = op.unit.toNat ∧ (d.takes x).inp = x ∧
      (d.takes x).mir = (s.timer op.timer.toNat).mir := by
  obtain ⟨hmode, hu, hmir⟩ := hsame
  obtain ⟨hmode', hu', hmir'⟩ := freshTimer_fields (s.timer op.timer.toNat) op.unit.toNat mode
  obtain ⟨u, l, hw, honly, htimer, hother, hctx⟩ := writeTimer_went (h.at t) op.timer.toNat (d.takes x) (timLen op)
    (fun d' => (d'.setTop q).setReg op.rd (min ((d.takes x).elapsed (s.at t).utick) (presetOf c op))) (fun _ => rfl)
  refine ⟨u, l, (timOp_went h t hstk hr hunit hpar hcall).trans hw, honly, htimer, fun k hk => ?_, ?_,
    hmode.trans hmode', hu.trans hu', rfl, hmir.trans hmir'⟩
  · rw [hother k hk, State.timer_at]
  · rw [hctx, Ctx.setTop, hstk]
    rfl

end

/-- Settles O8. -/
theorem edgesAndTimersFollowTheirCells : Obligations.EdgesAndTimersFollowTheirCells := by
  constructor
  · intro s n c cell h
    refine ⟨fun x r hstk hr hpar => ?_, fun hlo hhi hpar => ?_, exec_unprime h cell⟩
    · have run (f : Bool → Bool → Bool) := next_congr (edgeOp_went h cell hstk hr hpar f)
      exact ⟨run _, run _, run _⟩
    · have bad (f : Bool → Bool → Bool) := next_congr (edgeOp_of_parity_wrong h cell hlo hhi hpar f)
      simp only [List.forall_mem_cons]
      exact ⟨bad _, bad _, bad _, List.forall_mem_nil _⟩
  · intro s n c op t x r h hstk hr hunit pt len now call
    have bad (mode : Nat) (hpar : s.parOk (tmbUnit op.timer.toNat) = false) :=
      next_congr (timOp_of_parity_wrong h t hstk hr hunit mode hpar)
    refine ⟨⟨bad 1, fun hpar => ?ton⟩, ⟨bad 2, fun hpar => ?tof⟩, ⟨bad 3, fun hpar => ?tp⟩, fun rd k => ?trst⟩
    case ton =>
      obtain ⟨u, l, hu, honly, htimer, hother, hctx, hmode, hunit', hinp, hmir⟩ :=
        timOp_call h t hstk hr hunit hpar (Timer.sameSetup_ton _ _ _) (timCall_ton _ _ _ _ _)
      refine ⟨u, _, _, l, next_congr hu, honly, htimer, hother, hctx, hmode, hunit', hinp, hmir, ?_, ?_, rfl⟩
      · rintro rfl
        exact ⟨rfl, Timer.elapsed_stop _ _⟩
      · rintro rfl
        exact ⟨Timer.run_ton_true _ _, Timer.elapsed_ton_true _ _⟩
    case tof =>
      obtain ⟨u, l, hu, honly, htimer, hother, hctx, hmode, hunit', hinp, hmir⟩ :=
        timOp_call h t hstk hr hunit hpar (Timer.sameSetup_tof _ _ _) (timCall_tof _ _ _ _ _)
      refine ⟨u, _, _, l, next_congr hu, honly, htimer, hother, hctx, hmode, hunit', hinp, hmir, ?_, ?_, ?_, rfl⟩
      · rintro rfl
        exact ⟨rfl, Timer.elapsed_stop _ _⟩
      · rintro rfl hprev
        rw [Timer.tof_false_of_inp _ _ hprev]
        exact ⟨rfl, Timer.elapsed_go _ _⟩
      · rintro rfl hprev
        rw [Timer.tof_false_of_not_inp _ _ hprev]
        exact ⟨rfl, rfl⟩
    case tp =>
      obtain ⟨u, l, hu, honly, htimer, hother, hctx, hmode, hunit', hinp, hmir⟩ :=
        timOp_call h t hstk hr hunit hpar (Timer.sameSetup_tp _ _ _ _) (timCall_tp _ _ _ _ _)
      refine ⟨u, _, _, l, next_congr hu, honly, htimer, hother, hctx, hmode, hunit', hinp, hmir, fun hrun hx hprev => ?_, fun hrun hx hover => ?_, fun hrun hidle => ?_, fun hrun hstill => ?_, rfl⟩
      · rw [Timer.tp_rising hrun hx hprev]
        exact ⟨rfl, Timer.elapsed_go _ _⟩
      · rw [Timer.tp_over (pt := presetOf c op) (tick := (s.at t).utick) hrun hx hover]
        exact ⟨rfl, Timer.elapsed_stop _ _⟩
      · rw [Timer.tp_idle hrun hidle]
        exact ⟨hrun, rfl⟩
      · rw [Timer.tp_running (pt := presetOf c op) (tick := (s.at t).utick) hrun hstill]
        exact ⟨hrun, rfl⟩
    case trst =>
      obtain ⟨u, l, hu, honly, htimer, hother, hctx⟩ := exec_trst h rd k
      exact ⟨u, _, l, hu, honly, htimer, hother, rfl, rfl, Timer.elapsed_stop _ _, rfl, rfl, rfl, hctx⟩

end Sys2Proof.Machine
end

