-- ==== Sys2Proof/Proofs/SeTraps.lean ====
section
/-! SUPPORT. The checks an SE instruction makes before it does anything: its stack depth, its pair registers, its DM
address; each kind of instruction traps where its check fails (R138, R143, R164, R169, R181). -/

namespace Sys2Proof.Machine

/-! ### The stack depth (R143) -/

/-- Too few entries, or no room for one more. -/
theorem Ctx.not_deep_of_need (c : Ctx) {lo : Nat} {push : Bool}
    (hbad : c.stk.length < lo ∨ (push = true ∧ 32 ≤ c.stk.length)) : c.deep lo (if push then 31 else 32) = false := by
  rw [Ctx.not_deep_iff]
  rcases hbad with hfew | ⟨rfl, hfull⟩
  · exact .inl hfew
  · exact .inr (by simp; omega)

section
variable {s : State} {n : Nat} {c : Ctx} (h : s.Runs n c)
include h

section
variable {lo hi : Nat} (hdeep : c.deep lo hi = false)
include hdeep

theorem bitLoad_stackTrap (o : BitOperand) (f : Bool → List Bool → List Bool) :
    bitLoad o lo hi f s = s.trap n 2 0 0 :=
  seRun_trap h _ _ (by simp only [hdeep]; rfl)

theorem stkOp_stackTrap (f : List Bool → List Bool) : stkOp lo hi f s = s.trap n 2 0 0 :=
  seRun_trap h _ _ (by simp only [hdeep]; rfl)

theorem knot_stackTrap (line : BitVec 18) (f : Bool → List Bool → List Bool) :
    knot line lo hi f s = s.trap n 2 0 0 :=
  seRun_trap h _ _ (by simp only [hdeep]; rfl)

end

section
variable (hdeep : c.deep 1 32 = false)
include hdeep

theorem bitStore_stackTrap (o : BitOperand) (p : Bool) (f : Bool → Bool) : bitStore o p f s = s.trap n 2 0 0 :=
  seRun_trap h _ _ (by simp only [hdeep]; rfl)

theorem bitCond_stackTrap (o : BitOperand) (p v : Bool) : bitCond o p v s = s.trap n 2 0 0 :=
  seRun_trap h _ _ (by simp only [hdeep]; rfl)

theorem edgeOp_stackTrap (cell : BitVec 16) (f : Bool → Bool → Bool) : edgeOp cell f s = s.trap n 2 0 0 :=
  seRun_trap h _ _ (by simp only [hdeep]; rfl)

end

omit h in
theorem Ctx.cond_of_empty (hstk : c.stk = []) {k : BitVec 4} (hk : k = 1 ∨ k = 2) : c.cond k = none := by
  rcases hk with rfl | rfl <;> simp [Ctx.cond, hstk]

theorem execPushc_stackTrap {k : BitVec 4} (hbad : c.deep 0 31 = false ∨ c.cond k = none) :
    exec (.pushc k) s = .next (s.trap n 2 0 0) := by
  refine next_congr (seRun_trap h 4 _ ?_)
  cases hdeep : c.deep 0 31 with
  | false => rfl
  | true => rw [hbad.resolve_left (by simp [hdeep])]; rfl

theorem execBr_stackTrap {k : BitVec 4} (hcond : c.cond k = none) (off : BitVec 22) :
    exec (.br k off) s = .next (s.trap n 2 0 0) :=
  next_congr (seRun_trap h 4 _ (by simp only [hcond]; rfl))

end

/-- An instruction that finds too few entries, or would push a 33rd, raises the STACK trap (R143). -/
theorem exec_stackTrap {s : State} {n : Nat} {c : Ctx} (h : s.Runs n c) {i : Instr} {lo : Nat} {push : Bool}
    (hneed : stackNeed i = some (lo, push)) (hbad : c.stk.length < lo ∨ (push = true ∧ 32 ≤ c.stk.length)) :
    exec i s = .next (s.trap n 2 0 0) := by
  cases i with
  | bitLd _ | bitLdn _ | bitAnd _ | bitAndn _ | bitOr _ | bitOrn _ | bitXor _ | bitXorn _ =>
    cases hneed
    exact next_congr (bitLoad_stackTrap h (c.not_deep_of_need hbad) _ _)
  | bitSt _ | bitStn _ | bitStp _ =>
    cases hneed
    exact next_congr (bitStore_stackTrap h (c.not_deep_of_need hbad) _ _ _)
  | bitSet _ | bitRst _ | bitSetp _ | bitRstp _ =>
    cases hneed
    exact next_congr (bitCond_stackTrap h (c.not_deep_of_need hbad) _ _ _)
  | push0 | push1 | stkNot | dup | pop | ands | ors | xors | swap =>
    cases hneed
    exact next_congr (stkOp_stackTrap h (c.not_deep_of_need hbad) _)
  | knotPush _ | knotAnd _ | knotOr _ =>
    cases hneed
    exact next_congr (knot_stackTrap h (c.not_deep_of_need hbad) _ _)
  | edgeRising _ | edgeFalling _ | edgeBoth _ =>
    cases hneed
    exact next_congr (edgeOp_stackTrap h (c.not_deep_of_need hbad) _ _)
  | pushc k =>
    cases hneed
    refine execPushc_stackTrap h ?_
    rcases hbad with hfew | ⟨-, hfull⟩
    · split at hfew
      next hk => exact .inr (Ctx.cond_of_empty (List.length_eq_zero_iff.mp (by omega)) hk)
      next => omega
    · exact .inl ((c.not_deep_iff _ _).mpr (by omega))
  | br k off =>
    simp only [stackNeed] at hneed
    split at hneed
    next hk =>
      cases hneed
      exact execBr_stackTrap h (Ctx.cond_of_empty (List.length_eq_zero_iff.mp (by simpa using hbad)) hk) off
    next => contradiction
  | _ => simp [stackNeed] at hneed

/-! ### Pair registers (R138, R164) -/

theorem oddReg_of_odd {r : Reg} (hr : r.val % 2 = 1) : oddReg r = true := by
  simpa [oddReg] using hr

theorem oddAt_of_mem {w : BitVec 2} {r : Reg} {rs : List Reg} (hr : r.val % 2 = 1) (hmem : r ∈ if w = 3 then rs else []) :
    oddAt w rs = true := by
  split at hmem
  next hw => simp only [oddAt, hw, decide_true, Bool.true_and, List.any_eq_true]; exact ⟨r, hmem, oddReg_of_odd hr⟩
  next => contradiction

section
variable {s : State} {n : Nat} {c : Ctx} (h : s.Runs n c)
include h

section
variable {rd ra rb : Reg} {w : BitVec 2} (sg : Bool)

theorem alu3_illegal (hodd : oddAt w [rd, ra, rb] = true) (f : Nat → Nat → Nat → Flags4 → AluOut) :
    alu3 rd ra rb w sg f s = s.trap n 1 0 0 :=
  seRun_trap h _ _ (by simp only [hodd]; rfl)

theorem aluShift_illegal (hodd : oddAt w [rd, ra, rb] = true) (f : Nat → Nat → Nat → Flags4 → AluOut) :
    aluShift rd ra rb w sg f s = s.trap n 1 0 0 :=
  seRun_trap h _ _ (by simp only [hodd]; rfl)

theorem alu2_illegal (hodd : oddAt w [rd, ra] = true) (f : Nat → Nat → Flags4 → AluOut) :
    alu2 rd ra w sg f s = s.trap n 1 0 0 :=
  seRun_trap h _ _ (by simp only [hodd]; rfl)

theorem execAluCmp_illegal (hodd : oddAt w [ra, rb] = true) : exec (.aluCmp ra rb w sg) s = .next (s.trap n 1 0 0) :=
  next_congr (seRun_trap h 4 _ (by simp only [hodd]; rfl))

theorem execAluSel_illegal (hodd : oddAt w [rd, ra, rb] = true) :
    exec (.aluSel rd ra rb w sg) s = .next (s.trap n 1 0 0) :=
  next_congr (seRun_trap h 4 _ (by simp only [hodd]; rfl))

end

theorem fpOp_illegal {pairs : List (Bool × Reg)} {r : Reg} (hmem : (true, r) ∈ pairs) (hr : r.val % 2 = 1)
    (g : Ctx → Ctx) : fpOp pairs g s = s.trap n 1 0 0 := by
  have hodd : (pairs.any fun e => e.1 && oddReg e.2) = true := List.any_eq_true.mpr ⟨_, hmem, oddReg_of_odd hr⟩
  exact seRun_trap h _ _ (by simp only [hodd]; rfl)

end

section
variable {r : Reg} (hr : r.val % 2 = 1)
include hr

theorem loadAt_illegal (a : Nat) (sg : Bool) (t : State) : loadAt r a 8 sg t = illegal := by
  simp [loadAt, oddReg_of_odd hr]

theorem storeAt_illegal (m : Nat) (d : Ctx) (a : Nat) (t : State) : storeAt m d r a 8 t = illegal := by
  simp [storeAt, oddReg_of_odd hr]

end

/-- An odd register where an instruction names a pair raises ILLEGAL (R138). -/
theorem exec_illegal_of_odd {s : State} {n : Nat} {c : Ctx} (h : s.Runs n c) {i : Instr} {r : Reg}
    (hmem : r ∈ pairsOf i) (hr : r.val % 2 = 1) : exec i s = .next (s.trap n 1 0 0) := by
  have mem_of_pairs {p : Bool} {rs : List Reg} (hmem : r ∈ if p then rs else []) : p = true ∧ r ∈ rs := by
    split at hmem
    next hp => exact ⟨hp, hmem⟩
    next => contradiction
  cases i with
  | aluAdd _ _ _ _ _ | aluSub _ _ _ _ _ | aluAnd _ _ _ _ _ | aluOr _ _ _ _ _ | aluXor _ _ _ _ _ | aluMul _ _ _ _ _
  | aluMulh _ _ _ _ _ | aluDiv _ _ _ _ _ | aluRem _ _ _ _ _ | aluMin _ _ _ _ _ | aluMax _ _ _ _ _ =>
    exact next_congr (alu3_illegal h _ (oddAt_of_mem hr hmem) _)
  | aluShl _ _ _ _ _ | aluShr _ _ _ _ _ | aluSar _ _ _ _ _ | aluRol _ _ _ _ _ | aluRor _ _ _ _ _ =>
    exact next_congr (aluShift_illegal h _ (oddAt_of_mem hr hmem) _)
  | aluMov _ _ _ _ | aluNot _ _ _ _ | aluNeg _ _ _ _ | aluAbs _ _ _ _ =>
    exact next_congr (alu2_illegal h _ (oddAt_of_mem hr hmem) _)
  | aluSel _ _ _ _ _ => exact execAluSel_illegal h _ (oddAt_of_mem hr hmem)
  | aluCmp _ _ _ _ => exact execAluCmp_illegal h _ (oddAt_of_mem hr hmem)
  | fadd _ _ _ _ | fsub _ _ _ _ | fmul _ _ _ _ | fdiv _ _ _ _ | fmin _ _ _ _ | fmax _ _ _ _ | fsqrt _ _ _ | fabs _ _ _
  | fneg _ _ _ | fcmp _ _ _ | fcvti _ _ _ | ftrunc _ _ _ | fcvtf _ _ _ =>
    obtain ⟨rfl, hin⟩ := mem_of_pairs hmem
    exact next_congr (fpOp_illegal h (by simpa using hin) hr _)
  | fcvtl _ _ p | fcvtlf _ _ p | fcvtp _ _ p =>
    cases p <;> exact next_congr (fpOp_illegal h (by simpa [pairsOf] using hmem) hr _)
  | ldd rd rb disp =>
    obtain rfl : r = rd := by simpa [pairsOf] using hmem
    exact next_congr (seRun_trap h 4 _ (loadAt_illegal hr _ _ _))
  | std rd rb disp =>
    obtain rfl : r = rd := by simpa [pairsOf] using hmem
    exact next_congr (seRun_trap h 4 _ (storeAt_illegal hr _ _ _ _))
  | ldx f rd a =>
    obtain ⟨rfl, rfl⟩ : f = 5 ∧ r = rd := by simpa [pairsOf, and_comm] using hmem
    exact next_congr (seRun_trap h 8 _ (loadAt_illegal hr _ _ _))
  | stx f rd a =>
    obtain ⟨rfl, rfl⟩ : f = 5 ∧ r = rd := by simpa [pairsOf, and_comm] using hmem
    exact next_congr (seRun_trap h 8 _ (storeAt_illegal hr _ _ _ _))
  | qpop q rx =>
    obtain rfl : r = rx := by simpa [pairsOf] using hmem
    exact next_congr (seRun_trap h 4 _ (by simp only [oddReg_of_odd hr]; rfl))
  | _ => simp [pairsOf] at hmem

/-! ### DM addresses (R169) -/

/-- The trap of a bad DM address: ADDR beyond DM, ALIGN inside it. -/
def dmTrap (a k : Nat) : Nat := if 0x800000 < a + k then 3 else 4

theorem addrCheck_trap {a k : Nat} (hbad : 0x800000 < a + k ∨ a % k ≠ 0) (r : SeRes) :
    addrCheck a k k r = .trap (dmTrap a k) a 0 := by
  unfold addrCheck dmTrap beyondDm dmSize
  by_cases hbeyond : 0x800000 < a + k
  · simp [hbeyond]
  · simp [hbeyond, hbad.resolve_left hbeyond]

theorem addrCheck_ok {a k : Nat} (hin : a + k ≤ 0x800000) (halign : a % k = 0) (r : SeRes) : addrCheck a k k r = r := by
  simp [addrCheck, not_beyondDm hin, halign]

theorem memAddr_eq_based (c : Ctx) (rb : Reg) (disp : BitVec 15) : memAddr c rb disp = c.based rb disp :=
  dispAddr_eq _ _ 15 (by decide)

section
variable {rd : Reg} {k : Nat} (heven : k = 8 → rd.val % 2 = 0)
include heven

theorem not_pair_odd : (k = 8 && oddReg rd) = false := by
  by_cases hk : k = 8
  · simp [hk, oddReg, heven hk]
  · simp [hk]

variable {a : Nat} (hbad : 0x800000 < a + k ∨ a % k ≠ 0)
include hbad

theorem loadAt_trap (sg : Bool) (t : State) : loadAt rd a k sg t = .trap (dmTrap a k) a 0 := by
  rw [loadAt, not_pair_odd heven]
  exact addrCheck_trap hbad _

theorem storeAt_trap (m : Nat) (d : Ctx) (t : State) : storeAt m d rd a k t = .trap (dmTrap a k) a 0 := by
  rw [storeAt, not_pair_odd heven]
  exact addrCheck_trap hbad _

end

theorem fn_cases (f : BitVec 3) : f = 0 ∨ f = 1 ∨ f = 2 ∨ f = 3 ∨ f = 4 ∨ f = 5 ∨ f = 6 ∨ f = 7 := by
  revert f
  decide

/-- LDX with an FN of a load is that load at its address (R168). -/
theorem exec_ldx {f : BitVec 3} {rd : Reg} {k : Nat} (hw : accessOf.loadWidth f rd = some k) (addr : Word) (s : State) :
    (k = 8 → rd.val % 2 = 0) ∧
      exec (.ldx f rd addr) s = .next (s.seRun 8 fun s _ _ => loadAt rd addr.toNat k (f = 1 ∨ f = 3) s) := by
  have narrow {j : Nat} (hj : j ≠ 8) : j = 8 → rd.val % 2 = 0 := fun h8 => (hj h8).elim
  rcases fn_cases f with rfl | rfl | rfl | rfl | rfl | rfl | rfl | rfl
  · cases hw; exact ⟨narrow (by decide), rfl⟩
  · cases hw; exact ⟨narrow (by decide), rfl⟩
  · cases hw; exact ⟨narrow (by decide), rfl⟩
  · cases hw; exact ⟨narrow (by decide), rfl⟩
  · cases hw; exact ⟨narrow (by decide), rfl⟩
  · obtain ⟨heven, rfl⟩ : rd.val % 2 = 0 ∧ 8 = k := by simpa [accessOf.loadWidth] using hw
    exact ⟨fun _ => heven, rfl⟩
  · simp [accessOf.loadWidth] at hw
  · simp [accessOf.loadWidth] at hw

/-- STX with an FN of a store is that store at its address (R168). -/
theorem exec_stx {f : BitVec 3} {rd : Reg} {k : Nat} (hw : accessOf.storeWidth f rd = some k) (addr : Word) (s : State) :
    (k = 8 → rd.val % 2 = 0) ∧
      exec (.stx f rd addr) s = .next (s.seRun 8 fun s m c => storeAt m c rd addr.toNat k s) := by
  have narrow {j : Nat} (hj : j ≠ 8) : j = 8 → rd.val % 2 = 0 := fun h8 => (hj h8).elim
  rcases fn_cases f with rfl | rfl | rfl | rfl | rfl | rfl | rfl | rfl
  · cases hw; exact ⟨narrow (by decide), rfl⟩
  · simp [accessOf.storeWidth] at hw
  · cases hw; exact ⟨narrow (by decide), rfl⟩
  · simp [accessOf.storeWidth] at hw
  · cases hw; exact ⟨narrow (by decide), rfl⟩
  · obtain ⟨heven, rfl⟩ : rd.val % 2 = 0 ∧ 8 = k := by simpa [accessOf.storeWidth] using hw
    exact ⟨fun _ => heven, rfl⟩
  · simp [accessOf.storeWidth] at hw
  · simp [accessOf.storeWidth] at hw

/-- A load or store of a bad DM address traps (R169, R181). -/
theorem exec_dmTrap {s : State} {n : Nat} {c : Ctx} (h : s.Runs n c) {i : Instr} {a k : Nat}
    (hacc : accessOf c i = some (a, k)) (hbad : 0x800000 < a + k ∨ a % k ≠ 0) :
    exec i s = .next (s.trap n (dmTrap a k) a 0) := by
  cases i with
  | ldb rd rb disp | ldbs rd rb disp | ldh rd rb disp | ldhs rd rb disp | ldw rd rb disp =>
    cases hacc
    refine next_congr (seRun_trap h 4 _ ?_)
    simp only [memAddr_eq_based]
    exact loadAt_trap (by simp) hbad _ _
  | stb rd rb disp | sth rd rb disp | stw rd rb disp =>
    cases hacc
    refine next_congr (seRun_trap h 4 _ ?_)
    simp only [memAddr_eq_based]
    exact storeAt_trap (by simp) hbad _ _ _
  | ldd rd rb disp =>
    obtain ⟨heven, rfl, rfl⟩ : rd.val % 2 = 0 ∧ c.based rb disp = a ∧ 8 = k := by simpa [accessOf] using hacc
    refine next_congr (seRun_trap h 4 _ ?_)
    simp only [memAddr_eq_based]
    exact loadAt_trap (fun _ => heven) hbad _ _
  | std rd rb disp =>
    obtain ⟨heven, rfl, rfl⟩ : rd.val % 2 = 0 ∧ c.based rb disp = a ∧ 8 = k := by simpa [accessOf] using hacc
    refine next_congr (seRun_trap h 4 _ ?_)
    simp only [memAddr_eq_based]
    exact storeAt_trap (fun _ => heven) hbad _ _ _
  | ldx f rd addr =>
    obtain ⟨_, hw, rfl, rfl⟩ : ∃ w, accessOf.loadWidth f rd = some w ∧ addr.toNat = a ∧ w = k := by
      simpa [accessOf] using hacc
    obtain ⟨heven, hexec⟩ := exec_ldx hw addr s
    rw [hexec]
    exact next_congr (seRun_trap h 8 _ (loadAt_trap heven hbad _ _))
  | stx f rd addr =>
    obtain ⟨_, hw, rfl, rfl⟩ : ∃ w, accessOf.storeWidth f rd = some w ∧ addr.toNat = a ∧ w = k := by
      simpa [accessOf] using hacc
    obtain ⟨heven, hexec⟩ := exec_stx hw addr s
    rw [hexec]
    exact next_congr (seRun_trap h 8 _ (storeAt_trap heven hbad _ _ _))
  | _ => simp [accessOf] at hacc

/-! ### TIM (R155) -/

section
variable {s : State} {n : Nat} {c : Ctx} (h : s.Runs n c) (op : TimOperand) (t mode : Nat)
include h

theorem timOp_stackTrap (hunit : op.unit ≠ 3) (hstk : c.stk = []) : timOp mode op t s = (s.at t).trap n 2 0 0 := by
  have hdeep : c.deep 1 32 = false := by simp [Ctx.deep, hstk]
  unfold timOp
  exact seRun_trap (h.at t) _ _ (by simp only [hunit, hdeep]; rfl)

theorem timOp_illegal (hunit : op.unit = 3) : timOp mode op t s = (s.at t).trap n 1 0 0 := by
  unfold timOp
  exact seRun_trap (h.at t) _ _ (by simp only [hunit]; rfl)

end

/-- Settles O9. -/
theorem trapsOfStackPairsAndAddresses : Obligations.TrapsOfStackPairsAndAddresses := by
  refine ⟨fun s n c h => ⟨fun i lo push hneed hbad => exec_stackTrap h hneed hbad, fun op t hstk hunit => ?_,
    fun op t hunit => ?_⟩, fun s n c i r h hmem hr => exec_illegal_of_odd h hmem hr,
    fun s n c i a k h hacc => ⟨fun hbeyond => ?_, fun hin halign => ?_⟩⟩
  · have trap (mode : Nat) := next_congr (timOp_stackTrap h op t mode hunit hstk)
    exact ⟨trap 1, trap 2, trap 3⟩
  · have trap (mode : Nat) := next_congr (timOp_illegal h op t mode hunit)
    exact ⟨trap 1, trap 2, trap 3⟩
  · rw [exec_dmTrap h hacc (.inl hbeyond), dmTrap, if_pos hbeyond]
  · rw [exec_dmTrap h hacc (.inr halign), dmTrap, if_neg (by omega)]

end Sys2Proof.Machine
end

