-- ==== Sys2Proof/Proofs/IntegerArithmetic.lean ====
section
/-! SUPPORT. The integer operations of an instruction at width W, each as its result and its four flags: what the
unsigned operands say of the sum, the difference, the product and the quotient of their values (R159 to R163). -/

namespace Sys2Proof.Machine

/-! ### Values of `b` bits -/

theorem testBit_top {b r : Nat} (hb : 0 < b) (hr : r < 2 ^ b) : r.testBit (b - 1) = decide (2 ^ (b - 1) ≤ r) := by
  obtain ⟨k, rfl⟩ := Nat.exists_eq_add_of_lt hb
  simp only [Nat.zero_add, Nat.add_sub_cancel] at *
  rw [Nat.testBit_eq_decide_div_mod_eq]
  have hlt : r / 2 ^ k < 2 := Nat.div_lt_of_lt_mul (by rwa [← pow_succ])
  have hpos := Nat.two_pow_pos k
  rcases Nat.lt_or_ge r (2 ^ k) with hsmall | hbig
  · simp [Nat.div_eq_of_lt hsmall, Nat.not_le.mpr hsmall]
  · have := Nat.div_pos hbig hpos
    have hone : r / 2 ^ k = 1 := by omega
    simp [hone, hbig]

theorem two_pow_pred {b : Nat} (hb : 0 < b) : 2 ^ b = 2 * 2 ^ (b - 1) := by
  obtain ⟨k, rfl⟩ := Nat.exists_eq_add_of_lt hb
  simp [pow_succ, mul_comm]

/-- A remainder below twice the modulus. -/
theorem mod_of_lt_two_mul {x m : Nat} (h : x < 2 * m) : x % m = if x < m then x else x - m := by
  split
  next hx => exact Nat.mod_eq_of_lt hx
  next hx =>
    rw [Nat.mod_eq_sub_mod (Nat.not_lt.mp hx)]
    exact Nat.mod_eq_of_lt (by omega)

theorem toS_eq (b x : Nat) : toS b x = if x < 2 ^ (b - 1) then (x : Int) else (x : Int) - ((2 ^ b : Nat) : Int) := by
  simp [toS]

theorem valOf_eq_numOf (sg : Bool) (b x : Nat) : valOf sg b x = numOf sg b x := by
  cases sg with
  | false => simp [valOf, numOf]
  | true =>
    by_cases hx : x < 2 ^ (b - 1)
    · simp [valOf, numOf, toS, hx, Nat.not_le.mpr hx]
    · simp [valOf, numOf, toS, hx, Nat.not_lt.mp hx]

theorem ofS_lt (b : Nat) (p : Int) : ofS b p < 2 ^ b := by
  have hpos : (0 : Int) < 2 ^ b := by positivity
  have := Int.emod_lt_of_pos p hpos
  have := Int.emod_nonneg p hpos.ne'
  unfold ofS
  zify
  omega

theorem coe_ofS (b : Nat) (p : Int) : (ofS b p : Int) = p % 2 ^ b :=
  Int.toNat_of_nonneg (Int.emod_nonneg p (by positivity))

theorem dvd_ofS_sub (b : Nat) (p : Int) : (2 ^ b : Int) ∣ (ofS b p : Int) - p := by
  rw [coe_ofS, Int.emod_def]
  exact ⟨-(p / 2 ^ b), by ring⟩

/-- A number is read back from its `b` bits exactly when it fits them. -/
theorem valOf_ofS_iff {b : Nat} (hb : 0 < b) (sg : Bool) (p : Int) : valOf sg b (ofS b p) = p ↔ Fits sg b p := by
  have hm : (2 ^ b : Int) = 2 * 2 ^ (b - 1) := mod_cast two_pow_pred hb
  have hpos : (0 : Int) < 2 ^ (b - 1) := by positivity
  have hcoe := coe_ofS b p
  have hnonneg := Int.emod_nonneg p (show (2 ^ b : Int) ≠ 0 by positivity)
  have hlt := Int.emod_lt_of_pos p (show (0 : Int) < 2 ^ b by positivity)
  have exact_of_bounds {q : Int} (h0 : 0 ≤ q) (h1 : q < 2 ^ b) : q % 2 ^ b = q := Int.emod_eq_of_lt h0 h1
  cases sg with
  | false =>
    simp only [valOf, Fits, Bool.false_eq_true, if_false, hcoe]
    exact ⟨fun h => ⟨h ▸ hnonneg, h ▸ hlt⟩, fun h => exact_of_bounds h.1 h.2⟩
  | true =>
    simp only [valOf, Fits, if_true, toS]
    have hcast : (ofS b p < 2 ^ (b - 1)) ↔ p % 2 ^ b < 2 ^ (b - 1) := by
      rw [← hcoe]
      exact_mod_cast Iff.rfl
    rw [hcoe]
    simp only [hcast]
    constructor
    · intro h
      split at h <;> omega
    · rintro ⟨hlo, hhi⟩
      rcases lt_or_ge p 0 with hneg | hge
      · have hmod : p % 2 ^ b = p + 2 ^ b := by
          rw [← Int.add_emod_right]
          exact exact_of_bounds (by omega) (by omega)
        rw [hmod, if_neg (by omega)]
        omega
      · rw [exact_of_bounds hge (by omega), if_pos hhi]

/-! ### Operands (R159, R162) -/

theorem widthOf_cases (w : BitVec 2) : widthOf w = 8 ∨ widthOf w = 16 ∨ widthOf w = 32 ∨ widthOf w = 64 := by
  revert w
  decide

theorem widthOf_pos (w : BitVec 2) : 0 < widthOf w := by
  rcases widthOf_cases w with h | h | h | h <;> omega

theorem Ctx.reg_lt (c : Ctx) (r : Reg) : c.reg r < 2 ^ 32 := BitVec.isLt _

theorem Ctx.regHi_lt (c : Ctx) (r : Reg) : c.regHi r < 2 ^ 32 := BitVec.isLt _

theorem Ctx.pair_lt (c : Ctx) (r : Reg) : c.pair r < 2 ^ 64 := by
  have := c.reg_lt r
  have := c.regHi_lt r
  unfold Ctx.pair
  omega

theorem Ctx.src_lt (c : Ctx) (w : BitVec 2) (r : Reg) : c.src w r < 2 ^ widthOf w := by
  unfold Ctx.src
  split
  next hw => rw [hw]; exact c.pair_lt r
  next => exact Nat.mod_lt _ (Nat.two_pow_pos _)

theorem widen_lt {k : Nat} (hk2 : k ≤ 32) {x : Nat} (hx : x < 2 ^ k) : widen k x < 2 ^ 32 := by
  have h2 : (2 : Nat) ^ k ≤ 2 ^ 32 := Nat.pow_le_pow_right (by decide) hk2
  unfold widen
  split <;> omega

theorem immS_eq_widen (imm : BitVec 16) : immS imm = widen 16 imm.toNat := by
  have h := dispAddr_eq 0 imm.toNat 16 (by decide)
  rw [Nat.zero_add, Nat.mod_eq_of_lt (widen_lt (by decide) imm.isLt)] at h
  rw [← h]
  simp [dispAddr, immS]

theorem valOf_immS (imm : BitVec 16) : valOf true 32 (immS imm) = numOf true 16 imm.toNat := by
  rw [immS_eq_widen, valOf_eq_numOf]
  have hlt := imm.isLt
  generalize imm.toNat = i at *
  by_cases hi : i < 32768
  · simp [numOf, widen, hi, Nat.not_le.mpr hi, show ¬2147483648 ≤ i by omega]
  · have hwide : widen 16 i = i + 4294901760 := by
      rw [widen, if_neg (by omega)]
      omega
    simp [numOf, hwide, Nat.not_lt.mp hi, show 2147483648 ≤ i + 4294901760 by omega]
    ring

/-! ### The operations with their flags (R159 to R162) -/

/-- A result whose N is its top bit, as the statements write it. -/
theorem znOf_eq {b r : Nat} (hb : 0 < b) (hr : r < 2 ^ b) (f : Flags4) :
    znOf b r f = { f with z := r = 0, n := decide (2 ^ (b - 1) ≤ r) } := by
  rw [znOf, testBit_top hb hr]

section
variable {b h x y : Nat} (hb : 0 < b) (hh : h = 2 ^ (b - 1)) (hx : x < 2 ^ b) (hy : y < 2 ^ b) (f : Flags4)
include hb hh hx hy

/-- ADD: V when the operands agree in sign and the sum does not. -/
theorem aluAdd_eq {sum : Nat} (hs : sum = (x + y) % 2 ^ b) : aluAdd b x y f =
    ⟨sum, ⟨sum = 0, h ≤ sum, 2 ^ b ≤ x + y, decide ((h ≤ x ↔ h ≤ y) ∧ ¬(h ≤ sum ↔ h ≤ x))⟩, false⟩ := by
  have hsum : sum = if x + y < 2 ^ b then x + y else x + y - 2 ^ b := hs.trans (mod_of_lt_two_mul (by omega))
  have hlt : sum < 2 ^ b := hs ▸ Nat.mod_lt _ (Nat.two_pow_pos b)
  have hm : 2 ^ b = 2 * h := hh ▸ two_pow_pred hb
  have hv : (toS b sum ≠ toS b x + toS b y) ↔ ((h ≤ x ↔ h ≤ y) ∧ ¬(h ≤ sum ↔ h ≤ x)) := by
    simp only [toS_eq, ← hh, hm] at *
    split at hsum <;> (repeat' split) <;> omega
  simp only [aluAdd, ← hs, znOf_eq hb hlt, hv, ← hh]

/-- SUB and CMP: V when the operands differ in sign and the difference takes the sign of the second. -/
theorem aluSub_eq {diff : Nat} (hd : diff = (x + 2 ^ b - y) % 2 ^ b) : aluSub b x y f =
    ⟨diff, ⟨diff = 0, h ≤ diff, y ≤ x, decide (¬(h ≤ x ↔ h ≤ y) ∧ ¬(h ≤ diff ↔ h ≤ x))⟩, false⟩ := by
  have hdiff : diff = if x + 2 ^ b - y < 2 ^ b then x + 2 ^ b - y else x + 2 ^ b - y - 2 ^ b :=
    hd.trans (mod_of_lt_two_mul (by omega))
  have hlt : diff < 2 ^ b := hd ▸ Nat.mod_lt _ (Nat.two_pow_pos b)
  have hm : 2 ^ b = 2 * h := hh ▸ two_pow_pred hb
  have hv : (toS b diff ≠ toS b x - toS b y) ↔ (¬(h ≤ x ↔ h ≤ y) ∧ ¬(h ≤ diff ↔ h ≤ x)) := by
    simp only [toS_eq, ← hh, hm] at *
    split at hdiff <;> (repeat' split) <;> omega
  simp only [aluSub, ← hd, znOf_eq hb hlt, hv, ← hh]

end

section
variable {b x : Nat} (hb : 0 < b) (hx : x < 2 ^ b) (f : Flags4)
include hb hx

/-- NEG: no borrow from 0 alone, and V at the most negative number. -/
theorem aluNeg_eq {h neg : Nat} (hh : h = 2 ^ (b - 1)) (hneg : neg = (2 ^ b - x) % 2 ^ b) :
    aluNeg b x f = ⟨neg, ⟨x = 0, h ≤ neg, x = 0, x = h⟩, false⟩ := by
  have hm : 2 ^ b = 2 * h := hh ▸ two_pow_pred hb
  have hpos : 0 < h := hh ▸ Nat.two_pow_pos _
  have hcases : neg = if 2 ^ b - x < 2 ^ b then 2 ^ b - x else 2 ^ b - x - 2 ^ b :=
    hneg.trans (mod_of_lt_two_mul (by omega))
  have hz : (neg = 0) ↔ (x = 0) := by split at hcases <;> omega
  have hc : (x ≤ 0) ↔ (x = 0) := by omega
  have hv : (¬(h ≤ 0 ↔ h ≤ x) ∧ ¬(h ≤ neg ↔ h ≤ 0)) ↔ x = h := by split at hcases <;> omega
  rw [aluNeg, aluSub_eq (diff := neg) hb hh (Nat.two_pow_pos b) hx f (by rwa [Nat.zero_add])]
  simp only [hz, hc, hv]

theorem aluBits_eq : aluBits b x f = ⟨x, ⟨x = 0, decide (2 ^ (b - 1) ≤ x), false, false⟩, false⟩ := by
  rw [aluBits, znOf_eq hb hx]

theorem bitsZn_eq {op : Nat → Nat → Nat} {y z : Nat} (he : op y z = x) :
    bitsZn op b y z f = ⟨x, ⟨x = 0, decide (2 ^ (b - 1) ≤ x), f.c, f.v⟩, false⟩ := by
  rw [bitsZn, he, znOf_eq hb hx]

theorem aluNot_eq : aluNot b x f =
    ⟨2 ^ b - 1 - x, ⟨x = 2 ^ b - 1, decide (x < 2 ^ (b - 1)), f.c, f.v⟩, false⟩ := by
  have hm := two_pow_pred hb
  have hz : 2 ^ b - 1 - x = 0 ↔ x = 2 ^ b - 1 := by omega
  have hn : 2 ^ (b - 1) ≤ 2 ^ b - 1 - x ↔ x < 2 ^ (b - 1) := by omega
  show AluOut.mk (2 ^ b - 1 - x) (znOf b (2 ^ b - 1 - x) f) false = _
  rw [znOf_eq hb (by omega)]
  simp only [hz, hn]

theorem aluAbs_unsigned : aluAbs false b x f = ⟨x, ⟨x = 0, decide (2 ^ (b - 1) ≤ x), f.c, false⟩, false⟩ := by
  show AluOut.mk x { znOf b x f with v := false } false = _
  rw [znOf_eq hb hx]

/-- The absolute value of a signed operand fits the width unsigned; V at the most negative number. -/
theorem aluAbs_signed : ∃ r : Nat, (r : Int) = |numOf true b x| ∧
    aluAbs true b x f = ⟨r, ⟨r = 0, decide (2 ^ (b - 1) ≤ r), f.c, x = 2 ^ (b - 1)⟩, false⟩ := by
  have hlt : (toS b x).natAbs < 2 ^ b := by
    have := Nat.two_pow_pos (b - 1)
    rw [toS_eq]
    split <;> omega
  refine ⟨(toS b x).natAbs, ?_, ?_⟩
  · rw [Int.natCast_natAbs, ← valOf_eq_numOf]
    rfl
  · show AluOut.mk ((toS b x).natAbs % 2 ^ b)
      { znOf b ((toS b x).natAbs % 2 ^ b) f with v := x = 2 ^ (b - 1) } false = _
    rw [Nat.mod_eq_of_lt hlt, znOf_eq hb hlt]

end

/-! ### Products and quotients (R159, R161) -/

section
variable {b : Nat} (hb : 0 < b) (sg : Bool) (x y : Nat) (f : Flags4)
include hb

/-- A wrapped result and the V that says whether the exact one fits. -/
theorem ofS_fits (p : Int) : ∃ (r : Nat) (v : Bool), r < 2 ^ b ∧ (2 ^ b : Int) ∣ (r : Int) - p ∧ (v = false ↔ Fits sg b p) ∧
    r = ofS b p ∧ v = decide (valOf sg b r ≠ p) := by
  refine ⟨_, _, ofS_lt b p, dvd_ofS_sub b p, ?_, rfl, rfl⟩
  rw [decide_eq_false_iff_not, not_not, valOf_ofS_iff hb]

theorem aluMul_eq : ∃ (r : Nat) (v : Bool), r < 2 ^ b ∧ (2 ^ b : Int) ∣ (r : Int) - numOf sg b x * numOf sg b y ∧
    (v = false ↔ Fits sg b (numOf sg b x * numOf sg b y)) ∧
    aluMul sg b x y f = ⟨r, ⟨r = 0, decide (2 ^ (b - 1) ≤ r), false, v⟩, false⟩ := by
  obtain ⟨r, v, hlt, hdvd, hv, hr, hveq⟩ := ofS_fits hb sg (numOf sg b x * numOf sg b y)
  refine ⟨r, v, hlt, hdvd, hv, ?_⟩
  simp only [aluMul, valOf_eq_numOf sg b x, valOf_eq_numOf sg b y, ← hr, ← hveq, znOf_eq hb hlt]

theorem aluMulh_eq : ∃ r : Nat, r < 2 ^ b ∧ (2 ^ b : Int) ∣ (r : Int) - numOf sg b x * numOf sg b y / 2 ^ b ∧
    aluMulh sg b x y f = ⟨r, ⟨r = 0, decide (2 ^ (b - 1) ≤ r), false, false⟩, false⟩ := by
  refine ⟨_, ofS_lt b _, dvd_ofS_sub b _, ?_⟩
  simp only [aluMulh, valOf_eq_numOf, aluBits_eq hb (ofS_lt b _)]

theorem aluDiv_eq (hy : y ≠ 0) : ∃ (r : Nat) (v : Bool), r < 2 ^ b ∧
    (2 ^ b : Int) ∣ (r : Int) - Int.tdiv (numOf sg b x) (numOf sg b y) ∧
    (v = false ↔ Fits sg b (Int.tdiv (numOf sg b x) (numOf sg b y))) ∧
    aluDiv sg b x y f = ⟨r, ⟨r = 0, decide (2 ^ (b - 1) ≤ r), f.c, v⟩, false⟩ := by
  obtain ⟨r, v, hlt, hdvd, hv, hr, hveq⟩ := ofS_fits hb sg (Int.tdiv (numOf sg b x) (numOf sg b y))
  refine ⟨r, v, hlt, hdvd, hv, ?_⟩
  simp only [aluDiv, if_neg hy, valOf_eq_numOf sg b x, valOf_eq_numOf sg b y, ← hr, ← hveq, znOf_eq hb hlt]

theorem aluRem_eq (hy : y ≠ 0) : ∃ r : Nat, r < 2 ^ b ∧
    (2 ^ b : Int) ∣ (r : Int) - Int.tmod (numOf sg b x) (numOf sg b y) ∧
    aluRem sg b x y f = ⟨r, ⟨r = 0, decide (2 ^ (b - 1) ≤ r), f.c, f.v⟩, false⟩ := by
  refine ⟨_, ofS_lt b _, dvd_ofS_sub b _, ?_⟩
  simp only [aluRem, if_neg hy, valOf_eq_numOf, znOf_eq hb (ofS_lt b _)]

omit hb in
theorem aluDiv_zero : aluDiv sg b x 0 f = ⟨0, ⟨true, false, f.c, false⟩, true⟩ := by
  simp [aluDiv, znOf]

theorem aluRem_zero (hx : x < 2 ^ b) :
    aluRem sg b x 0 f = ⟨x, ⟨x = 0, decide (2 ^ (b - 1) ≤ x), f.c, false⟩, true⟩ := by
  simp [aluRem, znOf_eq hb hx]

section
variable {x y} (hx : x < 2 ^ b) (hy : y < 2 ^ b)
include hx hy

/-- MIN and MAX of the operands in their order, and in the other. -/
theorem aluMinMax_eq :
    (numOf sg b x ≤ numOf sg b y →
      aluMin sg b x y f = ⟨x, ⟨x = 0, decide (2 ^ (b - 1) ≤ x), f.c, f.v⟩, false⟩ ∧
      aluMax sg b x y f = ⟨y, ⟨y = 0, decide (2 ^ (b - 1) ≤ y), f.c, f.v⟩, false⟩) ∧
    (numOf sg b y < numOf sg b x →
      aluMin sg b x y f = ⟨y, ⟨y = 0, decide (2 ^ (b - 1) ≤ y), f.c, f.v⟩, false⟩ ∧
      aluMax sg b x y f = ⟨x, ⟨x = 0, decide (2 ^ (b - 1) ≤ x), f.c, f.v⟩, false⟩) := by
  simp only [aluMin, aluMax, valOf_eq_numOf, ← znOf_eq hb hx, ← znOf_eq hb hy]
  exact ⟨fun hle => by simp [hle], fun hlt => by simp [not_le.mpr hlt]⟩

end

end

/-! ### Shifts and rotations, bit by bit (R160) -/

section
variable {b x : Nat} (hx : x < 2 ^ b) (k : Nat)

theorem testBit_shl {j : Nat} (hj : j < b) : (x * 2 ^ k % 2 ^ b).testBit j = (decide (k ≤ j) && x.testBit (j - k)) := by
  simp [Nat.testBit_mod_two_pow, Nat.testBit_mul_two_pow, hj]

include hx

theorem testBit_of_le {j : Nat} (hj : b ≤ j) : x.testBit j = false :=
  Nat.testBit_lt_two_pow (hx.trans_le (Nat.pow_le_pow_right (by decide) hj))

/-- Shifting the sign bits in: a bit at or above the top is the top bit. -/
theorem testBit_sar (hb : 0 < b) {j : Nat} (hj : j < b) :
    (ofS b (toS b x / 2 ^ (min k b))).testBit j = x.testBit (min (j + k) (b - 1)) := by
  generalize hm : min k b = m
  have hm2 := two_pow_pred hb
  have htop := testBit_top hb hx
  by_cases hpos : x < 2 ^ (b - 1)
  · have hq : ofS b (toS b x / 2 ^ m) = x / 2 ^ m := by
      have hle : x / 2 ^ m ≤ x := Nat.div_le_self _ _
      have hcast : (x : Int) / 2 ^ m = ((x / 2 ^ m : Nat) : Int) := by push_cast; rfl
      rw [toS, if_pos hpos, hcast]
      zify
      rw [coe_ofS]
      exact Int.emod_eq_of_lt (by positivity) (by exact_mod_cast hle.trans_lt hx)
    have hclear {i : Nat} (hi : b - 1 ≤ i) : x.testBit i = false := testBit_of_le hpos hi
    rw [hq, Nat.testBit_div_two_pow]
    by_cases hin : j + k < b - 1
    · rw [Nat.min_eq_left hin.le, ← hm, Nat.min_eq_left (by omega)]
    · rw [Nat.min_eq_right (by omega), hclear le_rfl, hclear (by omega)]
  · have hge : 2 ^ (b - 1) ≤ x := Nat.not_lt.mp hpos
    obtain ⟨y, hy⟩ : ∃ y, x = 2 ^ b - (y + 1) := ⟨2 ^ b - 1 - x, by omega⟩
    have hylt : y < 2 ^ b := by omega
    have hqlt : y / 2 ^ m < 2 ^ b := (Nat.div_le_self _ _).trans_lt hylt
    have hval : toS b x = Int.negSucc y := by rw [toS_eq, if_neg hpos]; omega
    have hq : ofS b (toS b x / 2 ^ m) = 2 ^ b - (y / 2 ^ m + 1) := by
      have hcast : (y : Int).ediv (2 ^ m) = ((y / 2 ^ m : Nat) : Int) := by push_cast; rfl
      have hpow : (2 ^ b : Int) = ((2 ^ b : Nat) : Int) := by push_cast; rfl
      rw [hval, Int.negSucc_ediv _ (by positivity), hcast]
      generalize y / 2 ^ m = q at *
      refine Int.natCast_inj.mp ?_
      rw [coe_ofS, hpow, ← Int.add_emod_right, Int.emod_eq_of_lt (by omega) (by omega)]
      omega
    rw [hq, Nat.testBit_two_pow_sub_succ hqlt, Nat.testBit_div_two_pow, hy, Nat.testBit_two_pow_sub_succ hylt]
    have htopy : y.testBit (b - 1) = false := by
      rw [hy, Nat.testBit_two_pow_sub_succ hylt] at htop
      simp only [show b - 1 < b by omega, decide_true, Bool.true_and, ← hy, hge] at htop
      simpa using htop
    have hclear {i : Nat} (hi : b ≤ i) : y.testBit i = false := testBit_of_le hylt hi
    by_cases hin : j + k < b - 1
    · rw [Nat.min_eq_left hin.le, ← hm, Nat.min_eq_left (show k ≤ b by omega)]
      simp [hj, show j + k < b by omega]
    · rw [Nat.min_eq_right (by omega), htopy]
      by_cases htop' : j + m = b - 1
      · simp [hj, hb, htop', htopy]
      · simp [hj, hb, hclear (show b ≤ j + m by omega)]

/-- A rotation moves bit `j` up by the count, around the width. -/
theorem testBit_rol (hb : 0 < b) {j : Nat} (hj : j < b) :
    ((x * 2 ^ (k % b) + x / 2 ^ (b - k % b)) % 2 ^ b).testBit ((j + k) % b) = x.testBit j := by
  have hk : k % b < b := Nat.mod_lt _ hb
  have hpos : (j + k) % b = if j + k % b < b then j + k % b else j + k % b - b := by
    rw [← Nat.add_mod_mod]
    exact mod_of_lt_two_mul (by omega)
  generalize k % b = m at *
  have hlow : x / 2 ^ (b - m) < 2 ^ m := by
    apply Nat.div_lt_of_lt_mul
    rwa [← pow_add, Nat.sub_add_cancel hk.le]
  have hbit (i : Nat) (hi : i < b) : ((x * 2 ^ m + x / 2 ^ (b - m)) % 2 ^ b).testBit i =
      if i < m then x.testBit (i + (b - m)) else x.testBit (i - m) := by
    rw [Nat.testBit_mod_two_pow, mul_comm, Nat.testBit_two_pow_mul_add _ hlow, Nat.testBit_div_two_pow]
    simp [hi]
  rw [hpos]
  split
  next hin =>
    rw [hbit _ hin, if_neg (by omega), Nat.add_sub_cancel]
  next hout =>
    rw [hbit _ (by omega), if_pos (by omega)]
    congr 1
    omega

omit hx in
/-- A rotation to the right by `k` is one to the left by what `k` lacks of the width. -/
theorem ror_position (hb : 0 < b) {j : Nat} (hj : j < b) : ((j + k) % b + (b - k % b) % b) % b = j := by
  have hk : k % b < b := Nat.mod_lt _ hb
  rw [← Nat.add_mod, ← Nat.mod_add_mod (j + k), ← Nat.add_mod_mod j k, Nat.mod_add_mod]
  rw [show j + k % b + (b - k % b) = j + b by omega, Nat.add_mod_right, Nat.mod_eq_of_lt hj]

end

end Sys2Proof.Machine
end

