-- ==== Sys2Proof/Proofs/IntegerInstructions.lean ====
section
/-! SUPPORT. The instructions ALU, ALUI and LDI: each reads its operands, takes the result and flags of its operation, and
goes on (R159 to R163). -/

namespace Sys2Proof.Machine

/-! ### Flags of the status word (R133) -/

theorem b2n_getLsbD (w : Word) (i : Nat) : b2n (w.getLsbD i) = w.toNat / 2 ^ i % 2 := by
  rw [BitVec.getLsbD, Nat.testBit_eq_decide_div_mod_eq, b2n]
  split <;> simp_all

theorem withFlags_flagsOf (w : Word) : withFlags w (flagsOf w) = w := by
  have hw := w.isLt
  apply BitVec.eq_of_toNat_eq
  simp only [withFlags, flagsOf, setBits, bitsOf, b2n_getLsbD, BitVec.toNat_ofNat]
  omega

/-! ### How an integer instruction ends -/

theorem Ctx.dst_pc (c : Ctx) (w : BitVec 2) (sg : Bool) (r : Reg) (v : Nat) : (c.dst w sg r v).pc = c.pc := by
  unfold Ctx.dst
  split
  · rfl
  · split <;> rfl

theorem Ctx.aluOut_pc (c : Ctx) (w : BitVec 2) (sg : Bool) (rd : Option Reg) (o : AluOut) :
    (c.aluOut w sg rd o).pc = c.pc := by
  cases rd with
  | none => rfl
  | some r => exact Ctx.dst_pc _ _ _ _ _

theorem Ctx.aluOut_some (c : Ctx) (w : BitVec 2) (sg : Bool) (rd : Reg) (r : Nat) (z n cy v : Bool) :
    c.aluOut w sg (some rd) ⟨r, ⟨z, n, cy, v⟩, false⟩ = c.result w sg rd r z n cy v := rfl

/-- The result of a division by zero is written with DZ set (R161). -/
theorem Ctx.aluOut_dz (c : Ctx) (w : BitVec 2) (sg : Bool) (rd : Reg) (r : Nat) (z n cy v : Bool) :
    c.aluOut w sg (some rd) ⟨r, ⟨z, n, cy, v⟩, true⟩ =
      ({ c.flagged z n cy v with sw := sticky (c.flagged z n cy v).sw 4 } : Ctx).dst w sg rd r := rfl

theorem Ctx.aluOut_none (c : Ctx) (w : BitVec 2) (sg : Bool) (r : Nat) (z n cy v : Bool) :
    c.aluOut w sg none ⟨r, ⟨z, n, cy, v⟩, false⟩ = c.flagged z n cy v := rfl

theorem oddAt_of_pairsEven {w : BitVec 2} {rs : List Reg} (h : PairsEven w rs) : oddAt w rs = false := by
  by_cases hw : w = 3
  · simp only [oddAt, hw, decide_true, Bool.true_and, List.any_eq_false, oddReg, decide_eq_true_eq]
    intro r hr
    have := h hw r hr
    omega
  · simp only [oddAt, hw, decide_false, Bool.false_and]

section
variable {s : State} {n : Nat} {c : Ctx} (h : s.Runs n c)
include h

section
variable {rd ra rb : Reg} {w : BitVec 2} (sg : Bool)

theorem alu3_went (heven : PairsEven w [rd, ra, rb]) {f : Nat → Nat → Nat → Flags4 → AluOut} {o : AluOut}
    (ho : f (widthOf w) (c.src w ra) (c.src w rb) (flagsOf c.sw) = o) :
    alu3 rd ra rb w sg f s = s.went n 4 (c.aluOut w sg (some rd) o) := by
  subst ho
  exact seRun_went h 4 (g := fun c => c.aluOut w sg (some rd) (f (widthOf w) (c.src w ra) (c.src w rb) (flagsOf c.sw))) h
    (by simp only [oddAt_of_pairsEven heven]; rfl) (Ctx.aluOut_pc _ _ _ _ _)

theorem aluShift_went (heven : PairsEven w [rd, ra, rb]) {f : Nat → Nat → Nat → Flags4 → AluOut} {o : AluOut}
    (ho : f (widthOf w) (c.src w ra) (c.reg rb % 64) (flagsOf c.sw) = o) :
    aluShift rd ra rb w sg f s = s.went n 4 (c.aluOut w sg (some rd) o) := by
  subst ho
  exact seRun_went h 4 (g := fun c => c.aluOut w sg (some rd) (f (widthOf w) (c.src w ra) (c.reg rb % 64) (flagsOf c.sw))) h
    (by simp only [oddAt_of_pairsEven heven]; rfl) (Ctx.aluOut_pc _ _ _ _ _)

theorem alu2_went (heven : PairsEven w [rd, ra]) {f : Nat → Nat → Flags4 → AluOut} {o : AluOut}
    (ho : f (widthOf w) (c.src w ra) (flagsOf c.sw) = o) :
    alu2 rd ra w sg f s = s.went n 4 (c.aluOut w sg (some rd) o) := by
  subst ho
  exact seRun_went h 4 (g := fun c => c.aluOut w sg (some rd) (f (widthOf w) (c.src w ra) (flagsOf c.sw))) h
    (by simp only [oddAt_of_pairsEven heven]; rfl) (Ctx.aluOut_pc _ _ _ _ _)

section
variable {r : Nat} {z nn cy v : Bool}

theorem alu3_divideByZero (heven : PairsEven w [rd, ra, rb]) {f : Nat → Nat → Nat → Flags4 → AluOut}
    (ho : f (widthOf w) (c.src w ra) (c.src w rb) (flagsOf c.sw) = ⟨r, ⟨z, nn, cy, v⟩, true⟩) :
    alu3 rd ra rb w sg f s =
      s.went n 4 (({ c.flagged z nn cy v with sw := sticky (c.flagged z nn cy v).sw 4 } : Ctx).dst w sg rd r) :=
  (alu3_went h sg heven ho).trans (by rw [Ctx.aluOut_dz])

theorem alu3_result (heven : PairsEven w [rd, ra, rb]) {f : Nat → Nat → Nat → Flags4 → AluOut}
    (ho : f (widthOf w) (c.src w ra) (c.src w rb) (flagsOf c.sw) = ⟨r, ⟨z, nn, cy, v⟩, false⟩) :
    alu3 rd ra rb w sg f s = s.went n 4 (c.result w sg rd r z nn cy v) :=
  (alu3_went h sg heven ho).trans (by rw [Ctx.aluOut_some])

theorem aluShift_result (heven : PairsEven w [rd, ra, rb]) {f : Nat → Nat → Nat → Flags4 → AluOut}
    (ho : f (widthOf w) (c.src w ra) (c.reg rb % 64) (flagsOf c.sw) = ⟨r, ⟨z, nn, cy, v⟩, false⟩) :
    aluShift rd ra rb w sg f s = s.went n 4 (c.result w sg rd r z nn cy v) :=
  (aluShift_went h sg heven ho).trans (by rw [Ctx.aluOut_some])

theorem alu2_result (heven : PairsEven w [rd, ra]) {f : Nat → Nat → Flags4 → AluOut}
    (ho : f (widthOf w) (c.src w ra) (flagsOf c.sw) = ⟨r, ⟨z, nn, cy, v⟩, false⟩) :
    alu2 rd ra w sg f s = s.went n 4 (c.result w sg rd r z nn cy v) :=
  (alu2_went h sg heven ho).trans (by rw [Ctx.aluOut_some])

theorem exec_aluCmp (heven : PairsEven w [ra, rb])
    (ho : aluSub (widthOf w) (c.src w ra) (c.src w rb) (flagsOf c.sw) = ⟨r, ⟨z, nn, cy, v⟩, false⟩) :
    exec (.aluCmp ra rb w sg) s = .next (s.went n 4 (c.flagged z nn cy v)) := by
  rw [← Ctx.aluOut_none c w sg r, ← ho]
  exact next_congr (seRun_went h 4
    (g := fun c => c.aluOut w sg none (aluSub (widthOf w) (c.src w ra) (c.src w rb) (flagsOf c.sw))) h
    (by simp only [oddAt_of_pairsEven heven]; rfl) (Ctx.aluOut_pc _ _ _ _ _))

end

theorem exec_aluSel (heven : PairsEven w [rd, ra, rb]) {t : Bool} {q : List Bool} (hstk : c.stk = t :: q)
    (hq : q.length ≤ 31) : exec (.aluSel rd ra rb w sg) s =
      .next (s.went n 4 { c.dst w sg rd (if t then c.src w ra else c.src w rb) with stk := q }) := by
  have hdeep : c.deep 1 32 = true := Ctx.deep_cons hstk (by omega) (by omega)
  have hsrc : c.src w (if c.top then ra else rb) = if t then c.src w ra else c.src w rb := by
    simp only [Ctx.top, hstk, List.headD_cons]
    split <;> rfl
  have hnext : ({ c.dst w sg rd (c.src w (if c.top then ra else rb)) with stk := c.stk.tail } : Ctx) =
      { c.dst w sg rd (if t then c.src w ra else c.src w rb) with stk := q } := by
    rw [hsrc, hstk]
    rfl
  rw [← hnext]
  exact next_congr (seRun_went h 4
    (g := fun c => { c.dst w sg rd (c.src w (if c.top then ra else rb)) with stk := c.stk.tail }) h
    (by simp only [oddAt_of_pairsEven heven, hdeep]; rfl) (Ctx.dst_pc _ _ _ _ _))

theorem exec_aluSel_stackTrap (heven : PairsEven w [rd, ra, rb]) (hstk : c.stk = []) :
    exec (.aluSel rd ra rb w sg) s = .next (s.trap n 2 0 0) := by
  have hdeep : c.deep 1 32 = false := by simp [Ctx.deep, hstk]
  exact next_congr (seRun_trap h 4 _ (by simp only [oddAt_of_pairsEven heven, hdeep]; rfl))

end

theorem aluImm_went (rd : Reg) {y : Nat} {f : Nat → Nat → Nat → Flags4 → AluOut} {o : AluOut}
    (ho : f 32 (c.reg rd) y (flagsOf c.sw) = o) : aluImm rd y f s = s.went n 4 (c.aluOut 2 false (some rd) o) := by
  subst ho
  exact seRun_went h 4 (g := fun c => c.aluOut 2 false (some rd) (f 32 (c.reg rd) y (flagsOf c.sw))) h rfl
    (Ctx.aluOut_pc _ _ _ _ _)

section
variable {r : Nat} {z nn cy v : Bool}

theorem aluImm_result (rd : Reg) {y' y : Nat} (hy : y' = y) {f : Nat → Nat → Nat → Flags4 → AluOut}
    (ho : f 32 (c.reg rd) y (flagsOf c.sw) = ⟨r, ⟨z, nn, cy, v⟩, false⟩) :
    aluImm rd y' f s = s.went n 4 (c.result 2 false rd r z nn cy v) := by
  rw [hy, aluImm_went h rd ho, Ctx.aluOut_some]

theorem shiftImm_result (rd : Reg) {imm : BitVec 16} (himm : imm.toNat < 32) {f : Nat → Nat → Nat → Flags4 → AluOut}
    (ho : f 32 (c.reg rd) imm.toNat (flagsOf c.sw) = ⟨r, ⟨z, nn, cy, v⟩, false⟩) :
    shiftImm rd imm f s = s.went n 4 (c.result 2 false rd r z nn cy v) := by
  rw [shiftImm, if_neg (by omega)]
  exact aluImm_result h rd rfl ho

theorem exec_cmpi (rd : Reg) {imm : BitVec 16} {y : Nat} (hy : immS imm = y)
    (ho : aluSub 32 (c.reg rd) y (flagsOf c.sw) = ⟨r, ⟨z, nn, cy, v⟩, false⟩) :
    exec (.cmpi rd imm) s = .next (s.went n 4 (c.flagged z nn cy v)) := by
  subst hy
  rw [← Ctx.aluOut_none c 2 false r, ← ho]
  exact next_congr (seRun_went h 4
    (g := fun c => c.aluOut 2 false none (aluSub 32 (c.reg rd) (immS imm) (flagsOf c.sw))) h rfl
    (Ctx.aluOut_pc _ _ _ _ _))

end

theorem shiftImm_illegal (rd : Reg) {imm : BitVec 16} (himm : 32 ≤ imm.toNat) (f : Nat → Nat → Nat → Flags4 → AluOut) :
    shiftImm rd imm f s = s.trap n 1 0 0 := by
  rw [shiftImm, if_pos himm]
  exact seRun_trap h 4 _ rfl

theorem exec_aluMov {rd ra : Reg} {w : BitVec 2} (sg : Bool) (heven : PairsEven w [rd, ra]) :
    exec (.aluMov rd ra w sg) s = .next (s.went n 4 (c.dst w sg rd (c.src w ra))) := by
  have hmov := alu2_went h (w := w) sg heven (f := fun _ x f => ⟨x, f, false⟩) rfl
  have hflags : c.aluOut w sg (some rd) ⟨c.src w ra, flagsOf c.sw, false⟩ =
      ({ c with sw := withFlags c.sw (flagsOf c.sw) } : Ctx).dst w sg rd (c.src w ra) := rfl
  rw [hflags, withFlags_flagsOf] at hmov
  exact next_congr hmov

theorem exec_ldil (rd : Reg) (imm : BitVec 16) :
    exec (.ldil rd imm) s = .next (s.went n 4 (c.setReg rd imm.toNat)) :=
  next_congr (seRun_went h 4 (g := fun c => c.setReg rd imm.toNat) h rfl rfl)

theorem exec_ldih (rd : Reg) (imm : BitVec 16) :
    exec (.ldih rd imm) s = .next (s.went n 4 (c.setReg rd (imm.toNat * 65536 + c.reg rd % 65536))) := by
  rw [Nat.add_comm (imm.toNat * 65536)]
  exact next_congr (seRun_went h 4 (g := fun c => c.setReg rd (c.reg rd % 65536 + imm.toNat * 65536)) h rfl rfl)

theorem exec_ldi (rd : Reg) (v : Word) : exec (.ldi rd v) s = .next (s.went n 8 (c.setReg rd v.toNat)) :=
  next_congr (seRun_went h 8 (g := fun c => c.setReg rd v.toNat) h rfl rfl)

end

theorem aluRol_eq (b x k : Nat) (f : Flags4) : aluRol b x k f =
    ⟨(x * 2 ^ (k % b) + x / 2 ^ (b - k % b)) % 2 ^ b, ⟨(x * 2 ^ (k % b) + x / 2 ^ (b - k % b)) % 2 ^ b = 0,
      ((x * 2 ^ (k % b) + x / 2 ^ (b - k % b)) % 2 ^ b).testBit (b - 1), f.c, f.v⟩, false⟩ := rfl

/-- Settles O11. -/
theorem additionAndLogicSetTheirFlags : Obligations.AdditionAndLogicSetTheirFlags := by
  constructor
  · intro s n c rd ra rb w sg imm h b half x y sum diff neg g i sumI diffI
    have hb : 0 < b := widthOf_pos w
    have hx : x < 2 ^ b := c.src_lt w ra
    have hy : y < 2 ^ b := c.src_lt w rb
    have hg : g < 2 ^ 32 := c.reg_lt rd
    have hi : i < 2 ^ 32 := widen_lt (by decide) imm.isLt
    have himm : immS imm = i := immS_eq_widen imm
    have hadd := aluAdd_eq (h := half) (sum := sum) hb rfl hx hy (flagsOf c.sw) rfl
    have hsub := aluSub_eq (h := half) (diff := diff) hb rfl hx hy (flagsOf c.sw) rfl
    have hneg := aluNeg_eq (h := half) (neg := neg) hb hx (flagsOf c.sw) rfl rfl
    have haddI := aluAdd_eq (b := 32) (h := 2 ^ 31) (sum := sumI) (by decide) rfl hg hi (flagsOf c.sw) rfl
    have hsubI := aluSub_eq (b := 32) (h := 2 ^ 31) (diff := diffI) (by decide) rfl hg hi (flagsOf c.sw) rfl
    refine ⟨fun heven => ⟨?_, ?_⟩, fun heven => ?_, fun heven => ?_, ?_, ?_⟩
    · exact next_congr (alu3_result h sg heven hadd)
    · exact next_congr (alu3_result h sg heven hsub)
    · exact exec_aluCmp h sg heven hsub
    · exact next_congr (alu2_result h sg heven hneg)
    · exact next_congr (aluImm_result h rd himm haddI)
    · exact exec_cmpi h rd himm hsubI
  · intro s n c rd ra rb w sg imm v h b x y g i
    have hb : 0 < b := widthOf_pos w
    have hx : x < 2 ^ b := c.src_lt w ra
    have hy : y < 2 ^ b := c.src_lt w rb
    have hg : g < 2 ^ 32 := c.reg_lt rd
    have hi16 : i < 2 ^ 16 := imm.isLt
    have hi : i < 2 ^ 32 := hi16.trans (by decide)
    have hand := aluBits_eq hb (Nat.and_lt_two_pow x hy) (flagsOf c.sw)
    have hor := aluBits_eq hb (Nat.or_lt_two_pow hx hy) (flagsOf c.sw)
    have hxor := aluBits_eq hb (Nat.xor_lt_two_pow hx hy) (flagsOf c.sw)
    have hnot := aluNot_eq hb hx (flagsOf c.sw)
    have handI := bitsZn_eq (b := 32) (op := (· &&& ·)) (by decide) (Nat.and_lt_two_pow g hi) (flagsOf c.sw) rfl
    have horI := bitsZn_eq (b := 32) (op := (· ||| ·)) (by decide) (Nat.or_lt_two_pow hg hi) (flagsOf c.sw) rfl
    have hxorI := bitsZn_eq (b := 32) (op := (· ^^^ ·)) (by decide) (Nat.xor_lt_two_pow hg hi) (flagsOf c.sw) rfl
    have hhalf : decide (2 ^ (32 - 1) ≤ g &&& i) = false := by
      have : g &&& i < 2 ^ 16 := Nat.and_lt_two_pow g hi16
      simp only [decide_eq_false_iff_not]
      omega
    have hsame : (g ^^^ i = 0) ↔ g = i := Nat.xor_eq_zero_iff
    have hi31 : i.testBit 31 = false := testBit_of_le hi16 (by decide)
    have hhalfOr : decide (2 ^ (32 - 1) ≤ g ||| i) = decide (2 ^ 31 ≤ g) := by
      rw [← testBit_top (by decide) (Nat.or_lt_two_pow hg hi), Nat.testBit_or, hi31, Bool.or_false,
        testBit_top (b := 32) (by decide) hg]
    have hhalfXor : decide (2 ^ (32 - 1) ≤ g ^^^ i) = decide (2 ^ 31 ≤ g) := by
      rw [← testBit_top (by decide) (Nat.xor_lt_two_pow hg hi), Nat.testBit_xor, hi31, Bool.xor_false,
        testBit_top (b := 32) (by decide) hg]
    rw [hhalf] at handI
    rw [hhalfOr] at horI
    simp only [hsame, hhalfXor] at hxorI
    refine ⟨fun heven => ⟨?_, ?_, ?_⟩, fun heven => ⟨?_, exec_aluMov h sg heven⟩, ?_, ?_, ?_, exec_ldil h rd imm,
      exec_ldih h rd imm, exec_ldi h rd v⟩
    · exact next_congr (alu3_result h sg heven hand)
    · exact next_congr (alu3_result h sg heven hor)
    · exact next_congr (alu3_result h sg heven hxor)
    · exact next_congr (alu2_result h sg heven hnot)
    · exact next_congr (aluImm_result h rd rfl handI)
    · exact next_congr (aluImm_result h rd rfl horI)
    · exact next_congr (aluImm_result h rd rfl hxorI)

/-- Settles O12. -/
theorem shiftsAndRotationsMoveBits : Obligations.ShiftsAndRotationsMoveBits := by
  intro s n c rd ra rb w sg imm h b x k g i res resI
  have hb : 0 < b := widthOf_pos w
  have hx : x < 2 ^ b := c.src_lt w ra
  have hg : g < 2 ^ 32 := c.reg_lt rd
  refine ⟨fun heven => ⟨?shl, ?shr, ?sar, ?rol, ?ror⟩, fun himm => ⟨?shli, ?shri, ?sari⟩,
    fun himm => ⟨next_congr (shiftImm_illegal h rd himm _), next_congr (shiftImm_illegal h rd himm _),
      next_congr (shiftImm_illegal h rd himm _)⟩⟩
  case shl =>
    refine ⟨x * 2 ^ k % 2 ^ b, Nat.mod_lt _ (Nat.two_pow_pos b), fun j hj => testBit_shl k hj, ?_⟩
    have hshl : aluShl b x k (flagsOf c.sw) = ⟨x * 2 ^ k % 2 ^ b, ⟨x * 2 ^ k % 2 ^ b = 0,
        (x * 2 ^ k % 2 ^ b).testBit (b - 1), decide (1 ≤ k ∧ k ≤ b) && x.testBit (b - k), c.overflow⟩, false⟩ := by
      rw [Bool.decide_and]
      rfl
    exact next_congr (aluShift_result h sg heven hshl)
  case shr =>
    refine ⟨x / 2 ^ k, (Nat.div_le_self _ _).trans_lt hx, fun j => Nat.testBit_div_two_pow x j, ?_⟩
    have hshr : aluShr b x k (flagsOf c.sw) = ⟨x / 2 ^ k, ⟨x / 2 ^ k = 0, (x / 2 ^ k).testBit (b - 1),
        decide (1 ≤ k) && x.testBit (k - 1), c.overflow⟩, false⟩ := rfl
    exact next_congr (aluShift_result h sg heven hshr)
  case sar =>
    refine ⟨_, ofS_lt b _, fun j hj => testBit_sar hx k hb hj, ?_⟩
    have hsar : aluSar b x k (flagsOf c.sw) = ⟨ofS b (toS b x / 2 ^ min k b), ⟨ofS b (toS b x / 2 ^ min k b) = 0,
        (ofS b (toS b x / 2 ^ min k b)).testBit (b - 1), decide (1 ≤ k) && x.testBit (min (k - 1) (b - 1)),
        c.overflow⟩, false⟩ := rfl
    exact next_congr (aluShift_result h sg heven hsar)
  case rol =>
    refine ⟨_, Nat.mod_lt _ (Nat.two_pow_pos b), fun j hj => testBit_rol hx k hb hj, ?_⟩
    exact next_congr (aluShift_result h sg heven (aluRol_eq b x k _))
  case ror =>
    refine ⟨(x * 2 ^ ((b - k % b) % b % b) + x / 2 ^ (b - (b - k % b) % b % b)) % 2 ^ b, Nat.mod_lt _ (Nat.two_pow_pos b),
      fun j hj => ?_, ?ends⟩
    case ends => exact next_congr (aluShift_result h sg heven (aluRol_eq b x ((b - k % b) % b) _))
    have hbit := testBit_rol hx ((b - k % b) % b) hb (Nat.mod_lt (j + k) hb)
    rwa [ror_position k hb hj] at hbit
  case shli =>
    have hshl : aluShl 32 g i (flagsOf c.sw) = ⟨g * 2 ^ i % 2 ^ 32, ⟨g * 2 ^ i % 2 ^ 32 = 0,
        (g * 2 ^ i % 2 ^ 32).testBit 31, decide (1 ≤ i) && g.testBit (32 - i), c.overflow⟩, false⟩ := by
      have hle : decide (i ≤ 32) = true := decide_eq_true (by omega)
      simp only [aluShl, hle, Bool.and_true]
      rfl
    exact next_congr (shiftImm_result h rd himm hshl)
  case shri =>
    have hshr : aluShr 32 g i (flagsOf c.sw) = ⟨g / 2 ^ i, ⟨g / 2 ^ i = 0, (g / 2 ^ i).testBit 31,
        decide (1 ≤ i) && g.testBit (i - 1), c.overflow⟩, false⟩ := rfl
    exact next_congr (shiftImm_result h rd himm hshr)
  case sari =>
    refine ⟨_, ofS_lt 32 _, fun j hj => testBit_sar hg i (by decide) hj, ?_⟩
    have hsar : aluSar 32 g i (flagsOf c.sw) = ⟨ofS 32 (toS 32 g / 2 ^ min i 32), ⟨ofS 32 (toS 32 g / 2 ^ min i 32) = 0,
        (ofS 32 (toS 32 g / 2 ^ min i 32)).testBit 31, decide (1 ≤ i) && g.testBit (i - 1), c.overflow⟩, false⟩ := by
      have hmin : min (i - 1) (32 - 1) = i - 1 := Nat.min_eq_left (by omega)
      simp only [aluSar, hmin]
      rfl
    exact next_congr (shiftImm_result h rd himm hsar)

/-- MULI keeps C (R162). -/
theorem muliOut_eq (x : Nat) (imm : BitVec 16) (f : Flags4) : ∃ (r : Nat) (v : Bool), r < 2 ^ 32 ∧
    (2 ^ 32 : Int) ∣ (r : Int) - numOf true 32 x * numOf true 16 imm.toNat ∧
    (v = false ↔ Fits true 32 (numOf true 32 x * numOf true 16 imm.toNat)) ∧
    muliOut 32 x (immS imm) f = ⟨r, ⟨r = 0, decide (2 ^ (32 - 1) ≤ r), f.c, v⟩, false⟩ := by
  have himm : numOf true 32 (immS imm) = numOf true 16 imm.toNat := by
    rw [← valOf_eq_numOf, valOf_immS]
  have hmul := aluMul_eq (b := 32) (by decide) true x (immS imm) f
  rw [himm] at hmul
  obtain ⟨r, v, hlt, hdvd, hv, heq⟩ := hmul
  exact ⟨r, v, hlt, hdvd, hv, by rw [muliOut, heq]⟩

/-- Settles O13. -/
theorem multiplyDivideAndSelect : Obligations.MultiplyDivideAndSelect := by
  intro s n c rd ra rb w sg imm h b x y X Y neg dz
  have hb : 0 < b := widthOf_pos w
  have hx : x < 2 ^ b := c.src_lt w ra
  have hy : y < 2 ^ b := c.src_lt w rb
  have hminMax := aluMinMax_eq (b := widthOf w) hb sg (flagsOf c.sw) hx hy
  refine ⟨fun heven => ⟨?mul, ?mulh, fun hy0 => ?div, fun hy0 => ?rem, fun hy0 => ⟨?divZero, ?remZero⟩,
    fun hle => ?le, fun hlt => ?lt, fun t q hstk hq => exec_aluSel h sg heven hstk hq,
    exec_aluSel_stackTrap h sg heven⟩, fun heven => ⟨?absU, ?absS⟩, ?muli⟩
  case mul =>
    obtain ⟨r, v, hlt, hdvd, hv, ho⟩ := aluMul_eq (b := widthOf w) hb sg x y (flagsOf c.sw)
    exact ⟨r, v, hlt, hdvd, hv, next_congr (alu3_result h sg heven ho)⟩
  case mulh =>
    obtain ⟨r, hlt, hdvd, ho⟩ := aluMulh_eq (b := widthOf w) hb sg x y (flagsOf c.sw)
    exact ⟨r, hlt, hdvd, next_congr (alu3_result h sg heven ho)⟩
  case div =>
    obtain ⟨r, v, hlt, hdvd, hv, ho⟩ := aluDiv_eq (b := widthOf w) hb sg x y (flagsOf c.sw) hy0
    exact ⟨r, v, hlt, hdvd, hv, next_congr (alu3_result h sg heven ho)⟩
  case rem =>
    obtain ⟨r, hlt, hdvd, ho⟩ := aluRem_eq (b := widthOf w) hb sg x y (flagsOf c.sw) hy0
    exact ⟨r, hlt, hdvd, next_congr (alu3_result h sg heven ho)⟩
  case divZero =>
    have ho : aluDiv sg (widthOf w) x y (flagsOf c.sw) = ⟨0, ⟨true, false, c.carry, false⟩, true⟩ := by
      rw [hy0]
      exact aluDiv_zero sg x (flagsOf c.sw)
    exact next_congr (alu3_divideByZero h sg heven ho)
  case remZero =>
    have ho : aluRem sg (widthOf w) x y (flagsOf c.sw) = ⟨x, ⟨x = 0, neg x, c.carry, false⟩, true⟩ := by
      rw [hy0]
      exact aluRem_zero hb sg x (flagsOf c.sw) hx
    exact next_congr (alu3_divideByZero h sg heven ho)
  case le =>
    obtain ⟨hmin, hmax⟩ := hminMax.1 hle
    exact ⟨next_congr (alu3_result h sg heven hmin), next_congr (alu3_result h sg heven hmax)⟩
  case lt =>
    obtain ⟨hmin, hmax⟩ := hminMax.2 hlt
    exact ⟨next_congr (alu3_result h sg heven hmin), next_congr (alu3_result h sg heven hmax)⟩
  case absU =>
    rintro rfl
    exact next_congr (alu2_result h false heven (aluAbs_unsigned (b := widthOf w) hb hx (flagsOf c.sw)))
  case absS =>
    rintro rfl
    obtain ⟨r, hr, ho⟩ := aluAbs_signed (b := widthOf w) hb hx (flagsOf c.sw)
    exact ⟨r, hr, next_congr (alu2_result h true heven ho)⟩
  case muli =>
    obtain ⟨r, v, hlt, hdvd, hv, ho⟩ := muliOut_eq (c.reg rd) imm (flagsOf c.sw)
    exact ⟨r, v, hlt, hdvd, hv, next_congr (aluImm_result h rd rfl ho)⟩

end Sys2Proof.Machine
end

