-- ==== Sys2Proof/Proofs/LoadsAndStores.lean ====
section
/-! SUPPORT. Loads, stores and block moves: the register a load writes, the bytes a store writes, and one element of
MOVB and FILLB (R167 to R171). -/

namespace Sys2Proof.Machine

/-! ### What a load writes (R167) -/

theorem Ctx.setReg_mod (c : Ctx) (r : Reg) (v : Nat) : c.setReg r (v % 2 ^ 32) = c.setReg r v := by
  have hof : BitVec.ofNat 32 (v % 2 ^ 32) = BitVec.ofNat 32 v := BitVec.eq_of_toNat_eq (by simp)
  rw [Ctx.setReg, Ctx.setReg, hof]

/-- The context after a load of `k` bytes of value `v`. -/
def Ctx.loaded (c : Ctx) (rd : Reg) (k : Nat) (sg : Bool) (v : Nat) : Ctx :=
  if k = 8 then c.setPair rd v else c.setReg rd (if sg then ofS 32 (toS (8 * k) v) else v)

theorem Ctx.loaded_pc (c : Ctx) (rd : Reg) (k : Nat) (sg : Bool) (v : Nat) : (c.loaded rd k sg v).pc = c.pc := by
  unfold Ctx.loaded
  split <;> rfl

theorem Ctx.loaded_unsigned (c : Ctx) (rd : Reg) {k : Nat} (hk : k ≠ 8) (v : Nat) :
    c.loaded rd k false v = c.setReg rd v := if_neg hk

theorem Ctx.loaded_signed (c : Ctx) (rd : Reg) {k : Nat} (hk : k ≤ 4) (v : Nat) :
    c.loaded rd k true v = c.setReg rd (widen (8 * k) v) := by
  have hdisp : ofS 32 (toS (8 * k) v) = dispAddr 0 (8 * k) v := by simp [dispAddr]
  rw [Ctx.loaded, if_neg (by omega), if_pos rfl, hdisp, dispAddr_eq _ _ _ (by omega), Nat.zero_add, Ctx.setReg_mod]

section
variable {s : State} {n : Nat} {c : Ctx} (h : s.Runs n c) {rd : Reg} {a k : Nat} (heven : k = 8 → rd.val % 2 = 0)
  (hin : a + k ≤ 0x800000) (halign : a % k = 0)
include heven hin halign

theorem loadAt_of_read (sg : Bool) {bs : Bytes} {t : State} (hread : s.dmRead .seData a k = (some bs, t)) :
    loadAt rd a k sg s = .next (fun c => c.loaded rd k sg (leNat bs)) t none := by
  rw [loadAt, not_pair_odd heven, addrCheck_ok hin halign, hread]
  rfl

theorem loadAt_of_unreadable (sg : Bool) {t : State} (hread : s.dmRead .seData a k = (none, t)) :
    loadAt rd a k sg s = .bad 1 t := by
  rw [loadAt, not_pair_odd heven, addrCheck_ok hin halign, hread]
  rfl

theorem storeAt_ok (d : Ctx) (t : State) : storeAt n d rd a k t =
    .next id (t.seStore n a (leBytes k (if k = 8 then d.pair rd else d.reg rd))) none := by
  rw [storeAt, not_pair_odd heven, addrCheck_ok hin halign]
  rfl

include h

/-- A load that gets its bytes writes its register; one that does not is an integrity error. -/
theorem seRun_load (len : Nat) (sg : Bool) {f : State → Nat → Ctx → SeRes} (hf : f s n c = loadAt rd a k sg s) :
    (∀ bs t, s.dmRead .seData a k = (some bs, t) → s.seRun len f = t.went n len (c.loaded rd k sg (leNat bs))) ∧
    (∀ t, s.dmRead .seData a k = (none, t) → s.seRun len f = t.integrity n 1) := by
  refine ⟨fun bs t hread => ?_, fun t hread => ?_⟩
  · exact seRun_went h len (g := fun c => c.loaded rd k sg (leNat bs)) (dmRead_runs h hread)
      (hf.trans (loadAt_of_read heven hin halign sg hread)) (Ctx.loaded_pc _ _ _ _ _)
  · exact seRun_bad h len (hf.trans (loadAt_of_unreadable heven hin halign sg hread))

end

section
variable {s : State} {n : Nat} {c : Ctx} (h : s.Runs n c) {rd rb : Reg} {disp : BitVec 15} {addr : Word} {k : Nat}
include h

/-- The clauses of a load whose two outcomes `seRun_load` gives. -/
theorem exec_load {i : Instr} {len a : Nat} {sg : Bool} (heven : k = 8 → rd.val % 2 = 0)
    {f : State → Nat → Ctx → SeRes} (hexec : exec i s = .next (s.seRun len f)) (hf : f s n c = loadAt rd a k sg s)
    {d : Nat → Ctx} (hd : ∀ v, d v = c.loaded rd k sg v) (hin : a + k ≤ 0x800000) (halign : a % k = 0) :
    (∀ bs t, s.dmRead .seData a k = (some bs, t) → exec i s = .next (t.went n len (d (leNat bs)))) ∧
    (∀ t, s.dmRead .seData a k = (none, t) → exec i s = .next (t.integrity n 1)) := by
  obtain ⟨hgot, hlost⟩ := seRun_load h heven hin halign len sg hf
  exact ⟨fun bs t hread => by rw [hexec, hgot bs t hread, hd], fun t hread => by rw [hexec, hlost t hread]⟩

theorem exec_ldx_load {f : BitVec 3} {sg : Bool} (hw : accessOf.loadWidth f rd = some k)
    (hsg : decide (f = 1 ∨ f = 3) = sg) {d : Nat → Ctx} (hd : ∀ v, d v = c.loaded rd k sg v)
    (hin : addr.toNat + k ≤ 0x800000) (halign : addr.toNat % k = 0) :
    (∀ bs t, s.dmRead .seData addr.toNat k = (some bs, t) →
      exec (.ldx f rd addr) s = .next (t.went n 8 (d (leNat bs)))) ∧
    (∀ t, s.dmRead .seData addr.toNat k = (none, t) → exec (.ldx f rd addr) s = .next (t.integrity n 1)) := by
  obtain ⟨heven, hexec⟩ := exec_ldx hw addr s
  exact exec_load h heven hexec (by rw [hsg]) hd hin halign

end

/-- Settles O14. -/
theorem loadsWriteTheirRegister : Obligations.LoadsWriteTheirRegister := by
  intro s n c rd rb disp addr h loads a x
  have narrow {k : Nat} (hk : k ≠ 8) : k = 8 → rd.val % 2 = 0 := fun h8 => (hk h8).elim
  have plain {k : Nat} (hk : k ≠ 8) (v : Nat) : c.setReg rd v = c.loaded rd k false v := (c.loaded_unsigned rd hk v).symm
  have signed {k : Nat} (hk : k ≤ 4) (v : Nat) : c.setReg rd (widen (8 * k) v) = c.loaded rd k true v :=
    (c.loaded_signed rd hk v).symm
  have based (k : Nat) (sg : Bool) : loadAt rd (memAddr c rb disp) k sg s = loadAt rd a k sg s := by
    rw [memAddr_eq_based]
  refine ⟨?ldb, ?ldbs, ?ldh, ?ldhs, ?ldw, fun heven => ?ldd, ?ldx0, ?ldx1, ?ldx2, ?ldx3, ?ldx4, fun heven => ?ldx5,
    next_congr (seRun_trap h 8 _ rfl), next_congr (seRun_trap h 8 _ rfl)⟩
  case ldb => exact exec_load h (narrow (by decide)) rfl (based 1 false) (plain (by decide))
  case ldbs => exact exec_load h (narrow (by decide)) rfl (based 1 true) (signed (k := 1) (by decide))
  case ldh => exact exec_load h (narrow (by decide)) rfl (based 2 false) (plain (by decide))
  case ldhs => exact exec_load h (narrow (by decide)) rfl (based 2 true) (signed (k := 2) (by decide))
  case ldw => exact exec_load h (narrow (by decide)) rfl (based 4 false) (plain (by decide))
  case ldd => exact exec_load h (fun _ => heven) rfl (based 8 false) (fun _ => rfl)
  case ldx0 => exact exec_ldx_load h rfl rfl (plain (by decide))
  case ldx1 => exact exec_ldx_load h (sg := true) rfl rfl (signed (k := 1) (by decide))
  case ldx2 => exact exec_ldx_load h rfl rfl (plain (by decide))
  case ldx3 => exact exec_ldx_load h (sg := true) rfl rfl (signed (k := 2) (by decide))
  case ldx4 => exact exec_ldx_load h rfl rfl (plain (by decide))
  case ldx5 =>
    have hw : accessOf.loadWidth 5 rd = some 8 := by simp [accessOf.loadWidth, heven]
    exact exec_ldx_load h hw rfl (fun _ => rfl)

/-! ### A store that pushes a word out of the rebuild cache (R424)

The obligation says that a byte of another page reads as before. A store over a damaged word rebuilds it, the rebuild
takes an entry of the rebuild cache, and the entry it pushes out can be the last good copy of a word whose own page can
no longer be rebuilt. -/

/-- Context 0 executes. Word 0 of DM is damaged and can be rebuilt; three words of the next page are damaged, and the
oldest of the eight entries of the full rebuild cache holds the first of them. -/
def fullRebuildCache : State :=
  { se := { active := some 0 }
    miu := {
      chk := [(dmBase, wordCheck 0 ^^^ wordCheck 0xFF), (dmBase + 512, 1), (dmBase + 520, 1), (dmBase + 528, 1)]
      pdev := [(dmBase, 0xFF)]
      qdev := [(dmBase, 0xFF)]
      cache := [(dmBase + 1024, 1), (dmBase + 1536, 1), (dmBase + 2048, 1), (dmBase + 2560, 1), (dmBase + 3072, 1),
        (dmBase + 3584, 1), (dmBase + 4096, 1), (dmBase + 512, 0x11)] } }

theorem fullRebuildCache_before : fullRebuildCache.dmByteNow 512 = 0x11 := by decide

theorem fullRebuildCache_after : (fullRebuildCache.seStore 0 0 (leBytes 8 0)).dmByteNow 512 = 0 := by decide +kernel

/-- Refutes O15: the store of a pair at DM address 0 rebuilds the damaged word there, which pushes the word at 512 out
of the rebuild cache; its page cannot be rebuilt, so the byte at 512 no longer reads as before. -/
theorem not_storesWriteTheirBytesOnly : ¬ Obligations.StoresWriteTheirBytesOnly := by
  intro hstores
  have hruns : fullRebuildCache.Runs 0 {} := ⟨rfl, rfl⟩
  obtain ⟨-, -, -, -, -, -, -, hpair, -⟩ := hstores fullRebuildCache 0 {} 0 0 0 0 hruns
  obtain ⟨-, -, hframe⟩ := hpair rfl (by decide) rfl
  have hsame := (hframe rfl).1 512 (by decide) (by decide) (by decide)
  have hafter := fullRebuildCache_after.symm.trans (hsame.trans fullRebuildCache_before)
  exact absurd hafter (by decide)

end Sys2Proof.Machine
end

