-- ==== Sys2Proof/Proofs/BlockMoves.lean ====
section
/-! SUPPORT. MOVB and FILLB: the checks of the whole run, one element a row, and its bytes in an undamaged DM
(R169 to R171). -/

namespace Sys2Proof.Machine

/-! ### DM without damage -/

theorem memOf_dm {a : Nat} (ha : a < 0x800000) : memOf (dmBase + a) = 1 := by
  simp only [memOf, dmBase, Bool.and_eq_true, decide_eq_true_eq]
  rw [if_neg (by omega), if_pos (by omega)]

section
variable {s : State} (hundamaged : s.Undamaged) (n : Nat) {a : Nat}
include hundamaged

theorem State.Undamaged.dmRead_eq (rd : MemReader) (ha : a < 0x800000) (k : Nat) :
    s.dmRead rd a k = (some (memBytes s.dm a k), s) := by
  obtain ⟨hchk, -, -, hsplice, -⟩ := hundamaged
  have hmem := memOf_dm ha
  rw [State.dmRead, State.readBytes, if_pos (by simp [hchk, hsplice, hmem]), Nat.add_sub_cancel_left]

theorem State.Undamaged.dmWrite_eq (rd : MemReader) (ha : a < 0x800000) (bs : Bytes) :
    s.dmWrite rd a bs = { s with dm := memPut s.dm a bs } := by
  obtain ⟨hchk, hpchk, hqchk, hsplice, hcache⟩ := hundamaged
  have hmem := memOf_dm ha
  rw [State.dmWrite, State.writeBytes, if_pos (by simp [hchk, hpchk, hqchk, hsplice, hcache, hmem]),
    Nat.add_sub_cancel_left]

end

/-- Marking the mirrored blocks of a store changes the dirty list of its context only (R391). -/
theorem markDirty_eq (s : State) (n a len : Nat) : s.markDirty n a len = s ∨
    ∃ l, s.markDirty n a len = s.setCtx n { s.ctx n with dirty := l } := by
  unfold State.markDirty
  extract_lets bs
  split
  · exact .inl rfl
  · exact .inr ⟨_, rfl⟩

theorem markDirty_onlyStored (s : State) (n a len : Nat) : s.OnlyStored n (s.markDirty n a len) ∧
    (s.markDirty n a len).dm = s.dm ∧ (s.markDirty n a len).miu = s.miu := by
  rcases markDirty_eq s n a len with heq | ⟨l, heq⟩
  · rw [heq]
    exact ⟨⟨fun _ _ => rfl, ⟨_, rfl⟩, rfl⟩, rfl, rfl⟩
  · rw [heq]
    exact ⟨⟨fun m hm => State.ctx_setCtx_other _ _ hm, ⟨l, State.ctx_setCtx_self _ _ _⟩, rfl⟩, rfl, rfl⟩

/-- A store into an undamaged DM puts its bytes there and changes nothing else. -/
theorem State.Undamaged.seStore_stored {s : State} (hundamaged : s.Undamaged) (n : Nat) {a : Nat} (ha : a < 0x800000)
    (bs : Bytes) : s.OnlyStored n (s.seStore n a bs) ∧ (s.seStore n a bs).dm = memPut s.dm a bs := by
  obtain ⟨⟨hother, hown, hrest⟩, hdm, hmiu⟩ := markDirty_onlyStored s n a bs.length
  have hclean : (s.markDirty n a bs.length).Undamaged := by rwa [State.Undamaged, hmiu]
  rw [State.seStore, hclean.dmWrite_eq _ ha, hdm]
  refine ⟨⟨hother, hown, ?_⟩, rfl⟩
  rw [hrest]

/-! ### The checks of the whole run (R169, R170, R181) -/

/-- A run of `len` bytes from `x` stays inside DM. -/
def runInside (len x : Nat) : Prop := len = 0 ∨ x + len ≤ 0x800000

theorem runBeyond_iff (len x : Nat) : (len ≠ 0 && beyondDm x len) = true ↔ ¬runInside len x := by
  simp only [runInside, beyondDm, dmSize, Bool.and_eq_true, decide_eq_true_eq, ne_eq]
  omega

section
variable {x y len : Nat} (k : SeRes)

theorem runCheck_beyond_head (as : Nats) (hx : ¬runInside len x) :
    runCheck (x :: as) len k = .trap 3 (firstBeyond x) 0 := by
  have hbad := (runBeyond_iff len x).mpr hx
  simp only [runCheck, List.find?_cons, hbad]

theorem runCheck_beyond_second (hx : runInside len x) (hy : ¬runInside len y) :
    runCheck [x, y] len k = .trap 3 (firstBeyond y) 0 := by
  have hgood : (len ≠ 0 && beyondDm x len) = false := by rw [← Bool.not_eq_true, runBeyond_iff]; simpa using hx
  have hbad := (runBeyond_iff len y).mpr hy
  simp only [runCheck, List.find?_cons, hgood, hbad]

theorem noneBeyond {as : Nats} (hin : ∀ x ∈ as, runInside len x) :
    as.find? (fun a => len ≠ 0 && beyondDm a len) = none := by
  rw [List.find?_eq_none]
  intro z hz
  rw [runBeyond_iff]
  simpa using hin z hz

section
variable (hx : runInside len x)
include hx

theorem runCheck_one : runCheck [x] len k = if x % 8 = 0 then k else .trap 4 x 0 := by
  unfold runCheck
  rw [noneBeyond (by simpa using hx)]
  by_cases hx8 : x % 8 = 0 <;> simp [hx8]

theorem runCheck_two (hy : runInside len y) : runCheck [x, y] len k =
    if x % 8 = 0 then (if y % 8 = 0 then k else .trap 4 y 0) else .trap 4 x 0 := by
  unfold runCheck
  rw [noneBeyond (by simpa using ⟨hx, hy⟩)]
  by_cases hx8 : x % 8 = 0
  · by_cases hy8 : y % 8 = 0 <;> simp [hx8, hy8]
  · simp [hx8]

end

end

/-! ### One element (R170, R171) -/

theorem Ctx.setReg_pc (c : Ctx) (r : Reg) (v : Nat) : (c.setReg r v).pc = c.pc := rfl

/-- The state behind an element of `m` bytes stored in `t`: the registers moved on, and the PC moved on when none is
left. -/
def State.elementDone (t : State) (n : Nat) (c : Ctx) (rd ra rb : Reg) (copy : Bool) (m : Nat) : State :=
  t.setCtx n { (t.ctx n).blkNext rd ra rb copy m with
    pc := if (c.blkNext rd ra rb copy m).reg rb = 0 then (c.pc + 4) % 0x800000 else c.pc / 4 * 4 % 0x800000 }

section
variable {s : State} {n : Nat} {c : Ctx} (h : s.Runs n c) (rd ra rb : Reg) {f : State → Nat → Ctx → SeRes}
include h

theorem seRun_nothingLeft (copy : Bool) (hf : f s n c = blkOp n c rd ra rb copy s) (hlen : c.reg rb = 0) :
    s.seRun 4 f = s.went n 4 c :=
  seRun_went h 4 (g := id) h (hf.trans (by simp [blkOp, hlen])) rfl

/-- An element whose bytes are `bs`, read leaving `t`. -/
theorem seRun_element (copy : Bool) {t : State}
    (hf : f s n c = .next (·.blkNext rd ra rb copy (min 8 (c.reg rb))) t
      (if (c.blkNext rd ra rb copy (min 8 (c.reg rb))).reg rb = 0 then none else some c.pc)) :
    s.seRun 4 f = t.elementDone n c rd ra rb copy (min 8 (c.reg rb)) := by
  obtain ⟨hactive, rfl⟩ := h
  by_cases hdone : ((s.ctx n).blkNext rd ra rb copy (min 8 ((s.ctx n).reg rb))).reg rb = 0
  · simp only [State.seRun, hactive, hf, State.elementDone, State.onCtx, if_pos hdone]
  · simp only [State.seRun, hactive, hf, State.elementDone, State.onCtx, if_neg hdone]

end

theorem blkOp_copy {s : State} {n : Nat} {c : Ctx} (rd ra rb : Reg) (hlen : 0 < c.reg rb) {bs : Bytes} {t : State}
    (hread : s.dmRead .seData (c.reg ra) (min 8 (c.reg rb)) = (some bs, t)) : blkOp n c rd ra rb true s =
      .next (·.blkNext rd ra rb true (min 8 (c.reg rb))) (t.seStore n (c.reg rd) bs)
        (if (c.blkNext rd ra rb true (min 8 (c.reg rb))).reg rb = 0 then none else some c.pc) := by
  have hm : min 8 (c.reg rb) ≠ 0 := by omega
  simp only [blkOp, if_neg hm, if_pos, hread]

theorem blkOp_unreadable {s : State} {n : Nat} {c : Ctx} (rd ra rb : Reg) (hlen : 0 < c.reg rb) {t : State}
    (hread : s.dmRead .seData (c.reg ra) (min 8 (c.reg rb)) = (none, t)) : blkOp n c rd ra rb true s = .bad 1 t := by
  have hm : min 8 (c.reg rb) ≠ 0 := by omega
  simp only [blkOp, if_neg hm, if_pos, hread]

theorem blkOp_fill {s : State} {n : Nat} {c : Ctx} (rd ra rb : Reg) (hlen : 0 < c.reg rb) :
    blkOp n c rd ra rb false s = .next (·.blkNext rd ra rb false (min 8 (c.reg rb)))
      (s.seStore n (c.reg rd) (List.replicate (min 8 (c.reg rb)) (BitVec.ofNat 8 (c.reg ra))))
      (if (c.blkNext rd ra rb false (min 8 (c.reg rb))).reg rb = 0 then none else some c.pc) := by
  have hm : min 8 (c.reg rb) ≠ 0 := by omega
  simp only [blkOp, if_neg hm]
  rfl

/-- What an element of `bs` leaves in an undamaged DM: its bytes, and every other byte as it was. -/
theorem State.Undamaged.element_stored {s : State} (hundamaged : s.Undamaged) (n : Nat) {d m : Nat} (hd : d < 0x800000)
    {bs : Bytes} (hbs : bs.length = m) {v : Nat → Byte} (hv : ∀ j, j < m → bs.getD j 0 = v j) :
    s.OnlyStored n (s.seStore n d bs) ∧ (∀ j, j < m → sget 0 (s.seStore n d bs).dm (d + j) = v j) ∧
      ∀ x, x < d ∨ d + m ≤ x → sget 0 (s.seStore n d bs).dm x = sget 0 s.dm x := by
  obtain ⟨honly, hdm⟩ := hundamaged.seStore_stored n hd bs
  refine ⟨honly, fun j hj => ?_, fun x hx => ?_⟩
  · rw [hdm, sget_memPut, if_pos (by omega), Nat.add_sub_cancel_left, hv j hj]
  · rw [hdm, sget_memPut, if_neg (by omega)]

theorem memBytes_getD (m : Sparse Byte) (a k : Nat) {j : Nat} (hj : j < k) : (memBytes m a k).getD j 0 = sget 0 m (a + j) := by
  simp [memBytes, List.getD, hj]

/-- Settles O16. -/
theorem blockMovesAndFillsCompleteInDm : Obligations.BlockMovesAndFillsCompleteInDm := by
  intro s n c rd ra rb h d a len m inside beyond element after bytes
  have hdlt (hlen : 0 < len) (hd : inside d) : d < 0x800000 := by rcases hd with hzero | hle <;> omega
  have halt (hlen : 0 < len) (ha : inside a) : a < 0x800000 := by rcases ha with hzero | hle <;> omega
  have movbRuns (hd : inside d) (ha : inside a) (hd8 : d % 8 = 0) (ha8 : a % 8 = 0) :
      runCheck [d, a] len (blkOp n c rd ra rb true s) = blkOp n c rd ra rb true s := by
    rw [runCheck_two _ hd ha, if_pos hd8, if_pos ha8]
  have fillbRuns (hd : inside d) (hd8 : d % 8 = 0) :
      runCheck [d] len (blkOp n c rd ra rb false s) = blkOp n c rd ra rb false s := by
    rw [runCheck_one _ hd, if_pos hd8]
  have moved (hlen : 0 < len) (hd : inside d) (ha : inside a) (hd8 : d % 8 = 0) (ha8 : a % 8 = 0) {bs : Bytes} {t : State}
      (hread : s.dmRead .seData a m = (some bs, t)) : exec (.movb rd ra rb) s = .next (after true (t.seStore n d bs)) :=
    next_congr (seRun_element h rd ra rb true ((movbRuns hd ha hd8 ha8).trans (blkOp_copy rd ra rb hlen hread)))
  have filled (hlen : 0 < len) (hd : inside d) (hd8 : d % 8 = 0) :
      exec (.fillb rd ra rb) s = .next (after false (s.seStore n d (List.replicate m (BitVec.ofNat 8 a)))) :=
    next_congr (seRun_element h rd ra rb false ((fillbRuns hd hd8).trans (blkOp_fill rd ra rb hlen)))
  refine ⟨fun hd => ⟨?dOut, ?dOutFill⟩, fun hd ha => ?aOut, fun hd hd8 => ⟨fun ha => ?dOff, ?dOffFill⟩,
    fun hd ha hd8 ha8 => ?aOff, fun hlen hd8 => ⟨fun ha8 => ?none, ?noneFill⟩,
    fun hlen hd hd8 => ⟨fun ha ha8 => ⟨fun bs t => moved hlen hd ha hd8 ha8, fun t hread => ?lost, fun hclean => ?move⟩,
      filled hlen hd hd8, fun hclean => ?fill⟩⟩
  case dOut => exact next_congr (seRun_trap h 4 _ (runCheck_beyond_head _ _ hd))
  case dOutFill => exact next_congr (seRun_trap h 4 _ (runCheck_beyond_head _ _ hd))
  case aOut => exact next_congr (seRun_trap h 4 _ (runCheck_beyond_second _ hd ha))
  case dOff => exact next_congr (seRun_trap h 4 _ ((runCheck_two _ hd ha).trans (if_neg hd8)))
  case dOffFill => exact next_congr (seRun_trap h 4 _ ((runCheck_one _ hd).trans (if_neg hd8)))
  case aOff =>
    exact next_congr (seRun_trap h 4 _ ((runCheck_two _ hd ha).trans ((if_pos hd8).trans (if_neg ha8))))
  case none => exact next_congr (seRun_nothingLeft h rd ra rb true (movbRuns (.inl hlen) (.inl hlen) hd8 ha8) hlen)
  case noneFill => exact next_congr (seRun_nothingLeft h rd ra rb false (fillbRuns (.inl hlen) hd8) hlen)
  case lost =>
    exact next_congr (seRun_bad h 4 ((movbRuns hd ha hd8 ha8).trans (blkOp_unreadable rd ra rb hlen hread)))
  case move =>
    refine ⟨_, moved hlen hd ha hd8 ha8 (hclean.dmRead_eq _ (halt hlen ha) m), ?_⟩
    exact hclean.element_stored n (hdlt hlen hd) (by simp [memBytes]) fun j hj => memBytes_getD _ _ _ hj
  case fill =>
    refine ⟨_, filled hlen hd hd8, ?_⟩
    exact hclean.element_stored n (hdlt hlen hd) List.length_replicate fun j hj => by simp [List.getD, hj]

end Sys2Proof.Machine
end

