-- ==== Sys2Proof/Proofs/FloatingPointInstructions.lean ====
section
/-! SUPPORT. Floating-point instructions: each puts its result in its register or pair and its exceptions in the sticky
flags (R164 to R166). -/

namespace Sys2Proof.Machine

theorem toS_eq_numOf (b x : Nat) : toS b x = numOf true b x := valOf_eq_numOf true b x

/-- The context with a floating-point or integer result and its exceptions. -/
def Ctx.fput (c : Ctx) (wide : Bool) (rd : Reg) (r : Nat × Nat) : Ctx :=
  ({ c with sw := c.sw ||| BitVec.ofNat 32 (r.2 * 256) } : Ctx).fdst wide rd r.1

theorem Ctx.fdst_fexc (c : Ctx) (wide : Bool) (rd : Reg) (r : Nat × Nat) :
    (c.fdst wide rd r.1).fexc r.2 = c.fput wide rd r := by
  cases wide <;> rfl

theorem Ctx.fput_pc (c : Ctx) (wide : Bool) (rd : Reg) (r : Nat × Nat) : (c.fput wide rd r).pc = c.pc := by
  cases wide <;> rfl

section
variable {s : State} {n : Nat} {c : Ctx} (h : s.Runs n c) {pairs : List (Bool × Reg)}
  (heven : ∀ e ∈ pairs, e.1 = true → e.2.val % 2 = 0)
include h heven

theorem fpOp_went {g : Ctx → Ctx} (hpc : (g c).pc = c.pc) : fpOp pairs g s = s.went n 4 (g c) := by
  have hnone : (pairs.any fun e => e.1 && oddReg e.2) = false := by
    simp only [List.any_eq_false, Bool.and_eq_true, oddReg, decide_eq_true_eq, not_and]
    intro e he hwide
    simp [heven e he hwide]
  exact seRun_went h 4 (g := g) h (by simp only [hnone]; rfl) hpc

/-- An operation that puts a result and its exceptions in Gd. -/
theorem fpOp_put (wide : Bool) (rd : Reg) {r : Nat × Nat} {g : Ctx → Ctx} (hg : g c = c.fput wide rd r) :
    fpOp pairs g s = s.went n 4 (c.fput wide rd r) := by
  rw [← hg]
  exact fpOp_went h heven (by rw [hg, Ctx.fput_pc])

end

section
variable {s : State} {n : Nat} {c : Ctx} (h : s.Runs n c) (rd : Reg) {ra rb : Reg} {p : Bool}
include h

theorem fp3_put (heven : ∀ e ∈ [(p, rd), (p, ra), (p, rb)], e.1 = true → e.2.val % 2 = 0)
    (f : Fmt → Nat → Nat → Nat × Nat) :
    fp3 rd ra rb p f s = s.went n 4 (c.fput p rd (f (fmtOf p) (c.fsrc p ra) (c.fsrc p rb))) :=
  fpOp_put h heven p rd (Ctx.fdst_fexc c p rd _)

theorem fp2_put (heven : ∀ e ∈ [(p, rd), (p, ra)], e.1 = true → e.2.val % 2 = 0) (f : Fmt → Nat → Nat × Nat) :
    fp2 rd ra p f s = s.went n 4 (c.fput p rd (f (fmtOf p) (c.fsrc p ra))) :=
  fpOp_put h heven p rd (Ctx.fdst_fexc c p rd _)

theorem exec_fcvtf (heven : ∀ e ∈ [(p, rd)], e.1 = true → e.2.val % 2 = 0) :
    exec (.fcvtf rd ra p) s = .next (s.went n 4 (c.fput p rd (fOfInt (fmtOf p) (toS 32 (c.reg ra))))) := by
  refine next_congr (fpOp_put h heven p rd ?_)
  rcases fOfInt (fmtOf p) (toS 32 (c.reg ra)) with ⟨v, e⟩
  exact Ctx.fdst_fexc c p rd (v, e)

theorem exec_fcvtlf (heven : ∀ e ∈ [(p, rd), (true, ra)], e.1 = true → e.2.val % 2 = 0) :
    exec (.fcvtlf rd ra p) s = .next (s.went n 4 (c.fput p rd (fOfInt (fmtOf p) (toS 64 (c.pair ra))))) := by
  refine next_congr (fpOp_put h heven p rd ?_)
  rcases fOfInt (fmtOf p) (toS 64 (c.pair ra)) with ⟨v, e⟩
  exact Ctx.fdst_fexc c p rd (v, e)

theorem exec_fcvtp (heven : ∀ e ∈ [(p, rd), (!p, ra)], e.1 = true → e.2.val % 2 = 0) :
    exec (.fcvtp rd ra p) s = .next (s.went n 4 (c.fput p rd (fConv (fmtOf !p) (fmtOf p) (c.fsrc (!p) ra)))) := by
  refine next_congr (fpOp_put h heven p rd ?_)
  rcases fConv (fmtOf !p) (fmtOf p) (c.fsrc (!p) ra) with ⟨v, e⟩
  exact Ctx.fdst_fexc c p rd (v, e)

theorem fpInt_put {w : Nat} (heven : ∀ e ∈ [(decide (w = 64), rd), (p, ra)], e.1 = true → e.2.val % 2 = 0)
    (trunc : Bool) : fpInt rd ra p w trunc s = s.went n 4 (c.fput (w = 64) rd
      (ofS w (fToInt (fmtOf p) w trunc (c.fsrc p ra)).1, (fToInt (fmtOf p) w trunc (c.fsrc p ra)).2)) := by
  refine fpOp_put h heven (w = 64) rd ?_
  rcases fToInt (fmtOf p) w trunc (c.fsrc p ra) with ⟨v, e⟩
  exact Ctx.fdst_fexc c (w = 64) rd (ofS w v, e)

end

/-- The context after FCMP: the four flags of the comparison and its exceptions (R166). -/
def Ctx.compared (c : Ctx) (f : Fmt) (x y : Nat) : Ctx :=
  let ((z, n, ge, v), e) := fCmp f x y
  ({ c with sw := withFlags c.sw ⟨z, n, ge, v⟩ } : Ctx).fexc e

theorem Ctx.compared_eq (c : Ctx) {f : Fmt} {x y : Nat} {z n ge v : Bool} {e : Nat} (h : fCmp f x y = ((z, n, ge, v), e)) :
    c.compared f x y = { c with sw := withFlags c.sw ⟨z, n, ge, v⟩ ||| BitVec.ofNat 32 (e * 256) } := by
  rw [Ctx.compared, h]
  rfl

theorem Ctx.compared_pc (c : Ctx) (f : Fmt) (x y : Nat) : (c.compared f x y).pc = c.pc := by
  rcases hcmp : fCmp f x y with ⟨⟨z, l, ge, v⟩, e⟩
  rw [Ctx.compared_eq c hcmp]

theorem fcmp_went {s : State} {n : Nat} {c : Ctx} (h : s.Runs n c) {ra rb : Reg} {p : Bool}
    (heven : ∀ e ∈ [(p, ra), (p, rb)], e.1 = true → e.2.val % 2 = 0) :
    fpOp [(p, ra), (p, rb)] (fun c => c.compared (fmtOf p) (c.fsrc p ra) (c.fsrc p rb)) s =
      s.went n 4 (c.compared (fmtOf p) (c.fsrc p ra) (c.fsrc p rb)) :=
  fpOp_went h heven (g := fun c => c.compared (fmtOf p) (c.fsrc p ra) (c.fsrc p rb)) (Ctx.compared_pc _ _ _ _)

/-- Settles O17: an operation writes its result and its exceptions by `Ctx.fput`, a comparison by `Ctx.compared`. -/
theorem floatingPointWritesResultAndStickyFlags : Obligations.FloatingPointWritesResultAndStickyFlags := by
  intro s n c rd ra rb p h even x y f put int
  have narrow (he : even [(p, ra)]) : even [(decide (32 = 64), rd), (p, ra)] := by
    intro e hmem hwide
    rcases List.mem_cons.mp hmem with rfl | hmem
    · simp at hwide
    · exact he e hmem hwide
  refine ⟨fun he => ⟨?_, ?_, ?_, ?_, ?_, ?_⟩, fun he => ⟨?_, ?_, ?_⟩, fun he => ?_,
    fun he => ⟨?_, ?_⟩, fun he => ?_, fun he => ?_, fun he => ?_, fun he => ?_⟩
  · exact next_congr (fp3_put h rd he fAdd)
  · exact next_congr (fp3_put h rd he fSub)
  · exact next_congr (fp3_put h rd he fMul)
  · exact next_congr (fp3_put h rd he fDiv)
  · exact next_congr (fp3_put h rd he fun f => fMinMax f false)
  · exact next_congr (fp3_put h rd he fun f => fMinMax f true)
  · exact next_congr (fp2_put h rd he fSqrt)
  · exact next_congr (fp2_put h rd he fun f x => (fMag f x, 0))
  · exact next_congr (fp2_put h rd he fun f x => (fNegBits f x, 0))
  · rcases hcmp : fCmp f x y with ⟨⟨z, l, ge, v⟩, e⟩
    refine ⟨z, l, ge, v, e, rfl, ?_⟩
    rw [← Ctx.compared_eq c hcmp]
    exact next_congr (fcmp_went h he)
  · exact next_congr (fpInt_put h rd (narrow he) false)
  · exact next_congr (fpInt_put h rd (narrow he) true)
  · exact next_congr (fpInt_put h rd (w := 64) he false)
  · rw [← toS_eq_numOf]
    exact exec_fcvtf h rd he
  · rw [← toS_eq_numOf]
    exact exec_fcvtlf h rd he
  · exact exec_fcvtp h rd he

end Sys2Proof.Machine
end

