-- ==== Sys2Proof/Proofs/ControlInstructions.lean ====
section
/-! SUPPORT. Branches and calls, traps, NOP, FENCE and END, events, triggers and system registers (R172 to R174, R178 to
R181). -/

namespace Sys2Proof.Machine

/-! ### Branches and calls (R172, R173) -/

/-- The sixteen conditions of the context, in the order of their codes (R172). -/
def Ctx.conds (c : Ctx) : List Bool :=
  let z := c.sw.getLsbD 0
  let l := c.sw.getLsbD 1
  let cy := c.sw.getLsbD 2
  let v := c.sw.getLsbD 3
  [true, c.stk.headD false, !c.stk.headD false, z, !z, cy, !cy, cy && !z, !cy || z, l ^^ v,
    !(l ^^ v), !z && !(l ^^ v), z || (l ^^ v), l, v, c.sw.getLsbD 4]

theorem condFlags_getD {m : Nat} (hlt : m < 16) (h1 : m ≠ 1) (h2 : m ≠ 2) (z l cy v dz t u : Bool) :
    condFlags m ⟨z, l, cy, v⟩ dz = [true, t, u, z, !z, cy, !cy, cy && !z, !cy || z, l ^^ v,
      !(l ^^ v), !z && !(l ^^ v), z || (l ^^ v), l, v, dz].getD m false := by
  have hsame : (l == v) = !(l ^^ v) := by cases l <;> cases v <;> rfl
  interval_cases m <;> simp_all [condFlags]

theorem Ctx.cond_eq (c : Ctx) (k : BitVec 4) (hstk : k = 1 ∨ k = 2 → c.stk ≠ []) :
    c.cond k = some (c.conds.getD k.toNat false) := by
  by_cases hk : k = 1 ∨ k = 2
  · have hne : c.stk.isEmpty = false := by simpa using hstk hk
    rcases hk with rfl | rfl
    · simp [Ctx.cond, Ctx.conds, Ctx.top, hne]
    · simp [Ctx.cond, Ctx.conds, Ctx.top, hne]
  · rw [not_or] at hk
    have hflags : c.cond k = some (condFlags k.toNat (flagsOf c.sw) (c.sw.getLsbD 4)) := by
      unfold Ctx.cond
      split
      · exact absurd (BitVec.eq_of_toNat_eq ‹k.toNat = 1›) hk.1
      · exact absurd (BitVec.eq_of_toNat_eq ‹k.toNat = 2›) hk.2
      · rfl
    rw [hflags, flagsOf]
    have hlt := k.isLt
    have h1 : k.toNat ≠ 1 := fun h => hk.1 (BitVec.eq_of_toNat_eq h)
    have h2 : k.toNat ≠ 2 := fun h => hk.2 (BitVec.eq_of_toNat_eq h)
    rw [condFlags_getD hlt h1 h2 _ _ _ _ _ c.top (!c.top)]
    rfl

section
variable {s : State} {n : Nat} {c : Ctx} (h : s.Runs n c)
include h

theorem exec_br {k : BitVec 4} (hstk : k = 1 ∨ k = 2 → c.stk ≠ []) (off : BitVec 22) : exec (.br k off) s =
    .next (if c.conds.getD k.toNat false then s.jumped n (relTarget c.pc off) c else s.went n 4 c) := by
  have hcond := c.cond_eq k hstk
  by_cases htaken : c.conds.getD k.toNat false
  · rw [if_pos htaken]
    refine next_congr (seRun_jumped h 4 _ (g := id) h ?_)
    simp only [hcond, htaken, if_true]
  · rw [if_neg htaken]
    refine next_congr (seRun_went h 4 (g := id) h ?_ rfl)
    simp only [hcond, htaken, Bool.false_eq_true, if_false]

theorem exec_call (rd : Reg) (off : BitVec 22) : exec (.call rd off) s =
    .next (s.jumped n (relTarget c.pc off) (c.setReg rd ((c.pc + 4) % 0x800000))) :=
  next_congr (seRun_jumped h 4 _ (g := fun d => d.setReg rd ((c.pc + 4) % 0x800000)) h rfl)

theorem exec_jr (ra : Reg) : exec (.jr ra) s = .next (s.jumped n (c.reg ra) c) :=
  next_congr (seRun_jumped h 4 _ (g := id) h rfl)

theorem exec_callr (rd ra : Reg) : exec (.callr rd ra) s =
    .next (s.jumped n (c.reg ra) (c.setReg rd ((c.pc + 4) % 0x800000))) :=
  next_congr (seRun_jumped h 4 _ (g := fun d => d.setReg rd ((c.pc + 4) % 0x800000)) h rfl)

end

theorem relTarget_eq (pc : Nat) (off : BitVec 22) : relTarget pc off = (pc + widen 24 (4 * off.toNat)) % 2 ^ 32 := by
  rw [relTarget, dispAddr_eq _ _ _ (by decide), Nat.mul_comm]

/-- Settles O18. -/
theorem branchesAndCallsSetThePc : Obligations.BranchesAndCallsSetThePc := by
  intro s n c rd ra k off h z l cy v conds target hstk
  have htarget : relTarget c.pc off = target := relTarget_eq c.pc off
  rw [← htarget]
  exact ⟨exec_br h hstk off, exec_call h rd off, exec_jr h ra, exec_callr h rd ra⟩

/-! ### Traps (R181) -/

/-- The trap registers, the count and EV 0x085. -/
def State.trapRecorded (s : State) (n : Nat) (c : Ctx) (cause addr code : Nat) : State :=
  ((((s.wr Addr.seTrap (BitVec.ofNat 32 (cause + n * 256 + code * 65536))).wr Addr.seTrapPc (BitVec.ofNat 32 c.pc)).wr
    Addr.seTrapAddr (BitVec.ofNat 32 addr)).inc Addr.seTrapCnt).ev 0x085 (cause + n * 256 + code * 65536)

theorem State.trapRecorded_se (s : State) (n : Nat) (c : Ctx) (cause addr code : Nat) :
    (s.trapRecorded n c cause addr code).se = s.se := by simp [State.trapRecorded]

theorem State.trapRecorded_live (s : State) (n : Nat) (c : Ctx) (cause addr code : Nat) :
    (s.trapRecorded n c cause addr code).live = s.live := by simp [State.trapRecorded]

theorem trap_eq {s : State} {n : Nat} {c : Ctx} (h : s.Runs n c) (cause addr code : Nat) :
    s.trap n cause addr code = if n = 0 then (s.trapRecorded n c cause addr code).setCtx 0
        { c with pc := (bitsOf (s.lv (Addr.ctxEntry 0)) 22 2) * 4, stk := [], sw := 0, cut := [], first := false }
      else if n < 8 then ((s.trapRecorded n c cause addr code).ev 0x086 (n + cause * 256)).enterFault 0x086
      else (s.trapRecorded n c cause addr code).abort n := by
  have hrec := runs_of_se h (s.trapRecorded_se n c cause addr code)
  have hlive := s.trapRecorded_live n c cause addr code
  obtain ⟨-, rfl⟩ := h
  show (if n = 0 then (s.trapRecorded n (s.ctx n) cause addr code).restart0
    else if n < 8 then (s.trapRecorded n (s.ctx n) cause addr code).sysFail n cause
    else (s.trapRecorded n (s.ctx n) cause addr code).abort n) = _
  by_cases hn : n = 0
  · subst hn
    simp only [if_pos, State.restart0, onCtx_runs hrec, State.ctxEntry, State.lf, State.lv, hlive]
  · simp only [if_neg hn, State.sysFail]

/-! ### FENCE and END (R134, R174, R430) -/

theorem State.miuErr_miu (s : State) (a b c d : Nat) (e : Bool) (f : Nat) : (s.miuErr a b c d e f).miu = s.miu := by
  unfold State.miuErr
  rw [State.wr_miu, State.wr_miu]

theorem State.discard_miu (s : State) (src unit ctx a : Nat) : (s.discard src unit ctx a).miu = s.miu := by
  unfold State.discard
  exact (State.ev_miu _ _ _).trans ((State.miuErr_miu _ _ _ _ _ _ _).trans (State.inc_miu _ _))

theorem State.setRaw_miu (s : State) (a : Nat) (v : BitVec 64) : (s.setRaw a v).miu = s.miu := by
  unfold State.setRaw
  split <;> rfl

theorem State.countRebuild_splice (s : State) (a : Nat) (d : BitVec 64) : (s.countRebuild a d).miu.splice = s.miu.splice := by
  simp [State.countRebuild]

theorem State.when_countRebuild_splice (s : State) (b : Bool) (a : Nat) (d : BitVec 64) :
    (s.when b (·.countRebuild a d)).miu.splice = s.miu.splice := by
  unfold State.when
  split
  · exact s.countRebuild_splice a d
  · rfl

theorem State.readMem_splice (s : State) (a : Nat) : (s.readMem a).2.miu.splice = s.miu.splice := by
  unfold State.readMem
  split
  · rfl
  split
  · rfl
  split
  · exact s.countRebuild_splice _ _
  · rfl

theorem State.writeWord_splice (s : State) (src unit ctx a : Nat) (v : BitVec 64) :
    (s.writeWord src unit ctx a v).miu.splice = s.miu.splice.filter (·.addr ≠ a) := by
  unfold State.writeWord
  extract_lets page
  split
  · rw [State.setRaw_miu]
    rfl
  · split
    · rw [State.discard_miu]
      rfl
    · dsimp only
      rw [State.setRaw_miu]
      exact congrArg _ (s.when_countRebuild_splice _ _ _)

/-- A flushed entry is gone from the splice buffer, and no other. -/
theorem State.flushEntry_splice (s : State) (e : Splice) :
    (s.flushEntry e).miu.splice = s.miu.splice.filter (·.addr ≠ e.addr) := by
  unfold State.flushEntry
  extract_lets _ t
  have ht : t.miu.splice = s.miu.splice.filter (·.addr ≠ e.addr) := rfl
  have hread := t.readMem_splice e.addr
  split
  · rw [State.discard_miu, ht]
  · rcases hp : t.readMem e.addr with ⟨o, u⟩
    rw [hp] at hread
    cases o with
    | none => exact (congrArg _ (State.discard_miu _ _ _ _ _)).trans (hread.trans ht)
    | some d =>
      refine (State.writeWord_splice u _ _ _ _ _).trans ?_
      rw [show u.miu.splice = _ from hread.trans ht, List.filter_filter]
      simp

theorem foldl_flushEntry_splice (l : List Splice) (s : State) (hl : ∀ x ∈ s.miu.splice, x ∈ l) :
    (l.foldl (fun s e => s.flushEntry e) s).miu.splice = [] := by
  induction l generalizing s with
  | nil => exact List.eq_nil_iff_forall_not_mem.mpr fun x hx => List.not_mem_nil (hl x hx)
  | cons e l ih =>
    refine ih (s.flushEntry e) fun x hx => ?_
    rw [State.flushEntry_splice, List.mem_filter] at hx
    obtain ⟨hmem, hne⟩ := hx
    refine (List.mem_cons.mp (hl x hmem)).resolve_left fun heq => ?_
    simp [heq] at hne

/-- A fence leaves no splice entry (R430). -/
theorem State.fence_splice (s : State) : s.fence.miu.splice = [] := foldl_flushEntry_splice _ s fun _ hx => hx

theorem State.fence_se (s : State) : s.fence.se = s.se := foldl_se _ _ (fun t e => flushEntry_se t e) s

/-- Settles O10. -/
theorem trapsAreRecordedAndInstancesEnd : Obligations.TrapsAreRecordedAndInstancesEnd := by
  constructor
  · intro s n c h recorded after
    refine ⟨fun code => ?_, fun w ext hw => ?_, fun w ext hw => ?_⟩
    · exact next_congr ((seRun_trap h 4 _ rfl).trans (trap_eq h 6 0 code.toNat))
    · have hexec : exec (.reservedInstruction w ext) s = .next (s.seRun 4 fun _ _ _ => illegal) :=
        congrArg Host.Outcome.next (if_pos hw)
      rw [hexec]
      exact next_congr ((seRun_trap h 4 _ rfl).trans (trap_eq h 1 0 0))
    · exact congrArg Host.Outcome.next (if_neg (by simp [hw]))
  · intro s n c h
    have hfence : s.fence.Runs n c := runs_of_se h s.fence_se
    refine ⟨next_congr (seRun_went h 4 (g := id) h rfl rfl),
      ⟨_, next_congr (seRun_went h 4 (g := id) hfence rfl rfl), ?_, ?_⟩, fun t => ?_⟩
    · exact s.fence_splice
    · simp only [State.went, State.setCtx, s.fence_se, id]
    · intro u
      have hactive : (s.at t).se.active = some n := (h.at t).1
      have hexec : exec (.endInsn t) s = .next ((s.at t).endInstance n) := by
        show Host.Outcome.next (match (s.at t).se.active with | some m => (s.at t).endInstance m | none => s.at t) = _
        rw [hactive]
      rw [hexec]
      simp only [State.endInstance, List.isEmpty_iff]
      rfl

end Sys2Proof.Machine
end

