-- ==== Sys2Proof/Proofs/SystemRegisters.lean ====
section
/-! SUPPORT. EVT, TRIG, SYSR and SYSW: what each system register reads, and the latches that reading two of them sets
(R178 to R180). -/

namespace Sys2Proof.Machine

theorem toNat_ofNat_sreg {k : Nat} (hk : k < 0x400) : (BitVec.ofNat 10 k).toNat = k := by
  rw [BitVec.toNat_ofNat]
  omega

/-- A system register of a shaft (R180). -/
theorem State.sysrVal_shaft (u : State) (n : Nat) (c : Ctx) {m j : Nat} (hm : m < 32) (hj : j < 8) :
    u.sysrVal n c (0x100 + 8 * m + j) = u.sysrShaft n m j := by
  have hin : (decide (0x100 ≤ 0x100 + 8 * m + j) && decide (0x100 + 8 * m + j < 0x200)) = true := by
    simp only [Bool.and_eq_true, decide_eq_true_eq]
    omega
  unfold State.sysrVal
  rw [if_pos hin, show (0x100 + 8 * m + j - 0x100) / 8 = m by omega,
    show (0x100 + 8 * m + j) % 8 = j by omega]

theorem State.sysrVal_reserved (u : State) (n : Nat) (c : Ctx) {k : Nat} (hk : 10 ≤ k) (hout : k < 0x100 ∨ 0x200 ≤ k) :
    u.sysrVal n c k = (0, u) := by
  have hshaft : (decide (0x100 ≤ k) && decide (k < 0x200)) = false := by
    simp only [Bool.and_eq_false_iff, decide_eq_false_iff_not]
    omega
  unfold State.sysrVal
  rw [hshaft, if_neg Bool.false_ne_true]
  split
  case h_11 => rfl
  all_goals omega

section
variable {s : State} {n : Nat} {c : Ctx} (h : s.Runs n c)
include h

/-- SYSR writes what its register reads; `w` is the state with the latch a low half sets. -/
theorem exec_sysr (rd : Reg) (t : Nat) {k v : Nat} {w : State} (hk : k < 0x400) (hse : w.se = (s.at t).se)
    (hval : (s.at t).sysrVal n c k = (v, w)) :
    exec (.sysr rd (BitVec.ofNat 10 k) t) s = .next (w.went n 4 (c.setReg rd v)) :=
  next_congr (seRun_went (h.at t) 4 (g := fun d => d.setReg rd v) (runs_of_se (h.at t) hse)
    (by simp only [toNat_ofNat_sreg hk, hval]) rfl)

theorem exec_sysr_read (rd : Reg) (t : Nat) {k v : Nat} (hk : k < 0x400) (hval : (s.at t).sysrVal n c k = (v, s.at t)) :
    exec (.sysr rd (BitVec.ofNat 10 k) t) s = .next ((s.at t).went n 4 (c.setReg rd v)) :=
  exec_sysr h rd t hk rfl hval

theorem exec_sysr_shaft (rd : Reg) (t : Nat) {m j v : Nat} (hm : m < 32) (hj : j < 8)
    (hval : (s.at t).sysrShaft n m j = (v, s.at t)) :
    exec (.sysr rd (BitVec.ofNat 10 (0x100 + 8 * m + j)) t) s = .next ((s.at t).went n 4 (c.setReg rd v)) :=
  exec_sysr_read h rd t (by omega) ((State.sysrVal_shaft _ n c hm hj).trans hval)

end

/-- Settles O20. -/
theorem eventsTriggersAndSystemRegisters : Obligations.EventsTriggersAndSystemRegisters := by
  intro s n c h
  refine ⟨fun num ra => ?evt, fun k hk => ?trigNone, fun k hk => ?trig, fun rd t => ?sysr, fun rd => ?sysw,
    fun rd k hk => ?illegal⟩
  case evt =>
    exact next_congr (seRun_went h 4 (g := id) (runs_of_se h (State.ev_se _ _ _)) rfl rfl)
  case trigNone =>
    have hnone : s.userTrig k.toNat = s := by simp [State.userTrig, hk]
    exact next_congr (seRun_went h 4 (g := id) h (by rw [hnone]) rfl)
  case trig => exact next_congr (seRun_next h 4 (g := id) _ rfl)
  case sysw =>
    exact next_congr (seRun_went h 4 (g := fun d => { d with sw := BitVec.ofNat 32 (c.reg rd) &&& 0x1F1F }) h rfl rfl)
  case illegal => exact next_congr (seRun_trap h 4 _ (if_pos hk))
  case sysr =>
    intro u reads
    have hread {k v : Nat} (hk : k < 0x400) (hval : u.sysrVal n c k = (v, u)) : reads k v := exec_sysr_read h rd t hk hval
    refine ⟨hread (by decide) rfl, hread (by decide) rfl, hread (by decide) rfl, hread (by decide) rfl,
      hread (by decide) rfl, hread (by decide) rfl, hread (by decide) rfl, hread (by decide) rfl, hread (by decide) rfl,
      fun k hk hout hlt => hread hlt (u.sysrVal_reserved n c hk hout), exec_sysr h rd t (k := 5) (by decide) rfl rfl,
      fun m hm => ?_⟩
    let b := 0x100 + 8 * m
    have hshaft {j v : Nat} (hj : j < 8) (hval : u.sysrShaft n m j = (v, u)) : reads (b + j) v :=
      exec_sysr_shaft h rd t hm hj hval
    refine ⟨hshaft (j := 0) (by decide) rfl, hshaft (by decide) rfl, hshaft (by decide) rfl, hshaft (by decide) rfl,
      hshaft (by decide) rfl, hshaft (by decide) rfl, hshaft (by decide) rfl, ?_⟩
    exact exec_sysr h rd t (k := b + 4) (by omega) rfl (State.sysrVal_shaft u n c hm (by decide))

end Sys2Proof.Machine
end

