-- ==== Sys2Proof/Proofs/QueueInstructions.lean ====
section
/-! SUPPORT. What a push, an open and a pop of a hardware queue do, and the queue instructions of a context (R175, R176,
R487 to R493). -/

namespace Sys2Proof.Machine

/-! ### Pushes and opens (R489 to R493) -/

section
variable (s : State) (k src : Nat) (w : Word)

theorem State.qPush_disabled (hen : s.qEn k = false) : s.qPush k src w = (.disabled, s) := by
  simp [State.qPush, hen]

theorem State.qOpen_disabled (hen : s.qEn k = false) : s.qOpen k src = (.disabled, s) := by
  simp [State.qOpen, hen]

section
variable (hen : s.qEn k = true)
include hen

section
variable (hopen : (s.queue k).opened = none)
include hopen

/-- A loose word goes into a ring with room. -/
theorem State.qPush_loose (hroom : (s.queue k).used < s.qDepth k) : s.qPush k src w =
    (.done, ((s.qWord k (s.queue k).used src w).setQueue k
      { s.queue k with marks := (s.queue k).marks ++ [⟨false, false, 0⟩] }).qTrig k (s.queue k).marks.isEmpty) := by
  simp only [State.qPush, hen, hopen, Bool.not_true, Bool.false_eq_true, if_false, if_neg (Nat.not_le.mpr hroom)]

theorem State.qPush_full (hfull : s.qDepth k ≤ (s.queue k).used) : s.qPush k src w = (.dropped, s.qDrop k) := by
  simp only [State.qPush, hen, hopen, Bool.not_true, Bool.false_eq_true, if_false, if_pos hfull]

theorem State.qOpen_room (hroom : (s.queue k).used < s.qDepth k) :
    s.qOpen k src = (.done, s.setQueue k { s.queue k with opened := some (src, 0) }) := by
  simp only [State.qOpen, hen, hopen, Bool.not_true, Bool.false_eq_true, if_false, Option.isSome_none,
    if_neg (Nat.not_le.mpr hroom)]

theorem State.qOpen_full (hfull : s.qDepth k ≤ (s.queue k).used) : s.qOpen k src = (.dropped, s.qDrop k) := by
  simp only [State.qOpen, hen, hopen, Bool.not_true, Bool.false_eq_true, if_false, Option.isSome_none, if_pos hfull]

end

theorem State.qPush_foreign {o m : Nat} (hopen : (s.queue k).opened = some (o, m)) (ho : o ≠ src) :
    s.qPush k src w = (.refused, s) := by
  simp only [State.qPush, hen, hopen, Bool.not_true, Bool.false_eq_true, if_false, if_pos ho]

theorem State.qOpen_refused {o m : Nat} (hopen : (s.queue k).opened = some (o, m)) : s.qOpen k src = (.refused, s) := by
  simp only [State.qOpen, hen, hopen, Bool.not_true, Bool.false_eq_true, if_false, Option.isSome_some, if_true]

section
variable {m : Nat} (hopen : (s.queue k).opened = some (src, m)) (hm : m < 65535)
include hopen hm

/-- A word goes into the packet its producer has open. -/
theorem State.qPush_packet (hroom : (s.queue k).used < s.qDepth k) : s.qPush k src w =
    (.done, (s.qWord k (s.queue k).used src w).setQueue k { s.queue k with opened := some (src, m + 1) }) := by
  simp only [State.qPush, hen, hopen, Bool.not_true, Bool.false_eq_true, if_false, ne_eq, not_true_eq_false,
    if_neg (Nat.not_le.mpr hm), if_neg (Nat.not_le.mpr hroom)]

theorem State.qPush_cut (hfull : s.qDepth k ≤ (s.queue k).used) : s.qPush k src w =
    (.truncated, ((s.qCloseRaw k true).qDrop k).ev 0x341 (k + src * 256)) := by
  simp only [State.qPush, hen, hopen, Bool.not_true, Bool.false_eq_true, if_false, ne_eq, not_true_eq_false,
    if_neg (Nat.not_le.mpr hm), if_pos hfull]
  rfl

end

end

/-- Another producer's packet is what makes a producer wait or be refused (R491). -/
theorem State.qForeign_iff : s.qForeign k src = true ↔ s.qEn k = true ∧ ∃ o m, (s.queue k).opened = some (o, m) ∧ o ≠ src := by
  unfold State.qForeign
  rcases (s.queue k).opened with _ | ⟨o, m⟩
  · simp
  · simp

end

/-! ### Pops (R487, R488) -/

section
variable (s : State) (who : MemReader) (k : Nat)

theorem State.qPop_nothing (hnone : s.qEn k = false ∨ (s.queue k).marks = []) : s.qPop who k = (some 0, s) := by
  rcases hnone with hen | hmarks
  · simp [State.qPop, hen]
  · simp [State.qPop, hmarks]

/-- QDATA of a popped word: its data, its position, its queue, HEAD, LAST and VALID (R487). -/
def qData (k : Nat) (m : QMark) (bs : Bytes) : Nat :=
  leNat bs + m.remain * 2 ^ 32 + k * 2 ^ 48 + b2n m.head * 2 ^ 61 + b2n m.last * 2 ^ 62 + 2 ^ 63

theorem qData_valid (k : Nat) (m : QMark) (bs : Bytes) : decide (qData k m bs < 2 ^ 63) = false :=
  decide_eq_false (by unfold qData; omega)

variable {m : QMark} {ms : List QMark} (hen : s.qEn k = true) (hmarks : (s.queue k).marks = m :: ms)
include hen hmarks

theorem State.qPop_word (hm : m.remain < 65536) {bs : Bytes} {t : State}
    (hread : s.dmRead who (s.qBase k + 4 * ((s.queue k).rd % s.qDepth k)) 4 = (some bs, t)) : s.qPop who k =
      (some (qData k m bs), t.setQueue k { s.queue k with marks := ms, rd := ((s.queue k).rd + 1) % t.qDepth k }) := by
  simp only [State.qPop, hen, hmarks, hread, Bool.not_true, Bool.false_eq_true, if_false, Nat.mod_eq_of_lt hm, qData]

end

/-! ### The instructions (R175, R176) -/

section
variable {s t : State} {n : Nat} {c : Ctx} (h : s.Runs n c) (q : BitVec 5)
include h

section
variable (rx : Reg)

theorem exec_qpush_cut (hcut : q.toNat ∈ c.cut ∨ q.toNat + 32 ∈ c.cut) : exec (.qpush q rx) s =
    .next (s.onCtx n fun d => { d.setC false with pc := (c.pc + 4) % 0x800000 }) := by
  have hcontains : (c.cut.contains q.toNat || c.cut.contains (q.toNat + 32)) = true := by simpa using hcut
  exact next_congr (seRun_next h 4 (g := (·.setC false)) _ (by simp only [hcontains]; rfl))

section
variable (hcut : q.toNat ∉ c.cut) (hcut' : q.toNat + 32 ∉ c.cut)
include hcut hcut'

omit h in
theorem not_cut : (c.cut.contains q.toNat || c.cut.contains (q.toNat + 32)) = false := by simp [hcut, hcut']

theorem exec_qpush_done (hpush : s.qPush q.toNat (0x40 + n) (BitVec.ofNat 32 (c.reg rx)) = (.done, t)) :
    exec (.qpush q rx) s = .next (t.onCtx n fun d => { d.setC true with pc := (c.pc + 4) % 0x800000 }) :=
  next_congr (seRun_next h 4 (g := (·.setC true)) _
    (by simp only [not_cut q hcut hcut', State.qPushResume, ctxSrc, hpush]; rfl))

theorem exec_qpush_lost {r : PushRes} (hr : r = .disabled ∨ r = .dropped)
    (hpush : s.qPush q.toNat (0x40 + n) (BitVec.ofNat 32 (c.reg rx)) = (r, t)) :
    exec (.qpush q rx) s = .next (t.onCtx n fun d => { d.setC false with pc := (c.pc + 4) % 0x800000 }) := by
  rcases hr with rfl | rfl
  · exact next_congr (seRun_next h 4 (g := (·.setC false)) _
      (by simp only [not_cut q hcut hcut', State.qPushResume, ctxSrc, hpush]; rfl))
  · exact next_congr (seRun_next h 4 (g := (·.setC false)) _
      (by simp only [not_cut q hcut hcut', State.qPushResume, ctxSrc, hpush]; rfl))

theorem exec_qpush_refused (hpush : s.qPush q.toNat (0x40 + n) (BitVec.ofNat 32 (c.reg rx)) = (.refused, t)) :
    exec (.qpush q rx) s =
      .next ((t.inc Addr.queRefused).onCtx n fun d => { d.setC false with pc := (c.pc + 4) % 0x800000 }) :=
  next_congr (seRun_next h 4 (g := (·.setC false)) _
    (by simp only [not_cut q hcut hcut', State.qPushResume, ctxSrc, hpush]; rfl))

theorem exec_qpush_truncated (hpush : s.qPush q.toNat (0x40 + n) (BitVec.ofNat 32 (c.reg rx)) = (.truncated, t)) :
    exec (.qpush q rx) s = .next ((t.qResume q.toNat).onCtx n fun d =>
      { d.setC false with cut := q.toNat :: d.cut, pc := (c.pc + 4) % 0x800000 }) :=
  next_congr (seRun_next h 4 (g := fun d => { d.setC false with cut := q.toNat :: d.cut }) _
    (by simp only [not_cut q hcut hcut', State.qPushResume, ctxSrc, hpush]; rfl))

end

theorem exec_qlvl : exec (.qlvl q rx) s = .next (s.went n 4
    ((c.setReg rx (s.queue q.toNat).marks.length).setZ ((s.queue q.toNat).marks = []))) := by
  have hzero : decide ((s.queue q.toNat).marks = []) = decide ((s.queue q.toNat).marks.length = 0) :=
    decide_eq_decide.mpr List.length_eq_zero_iff.symm
  rw [hzero]
  exact next_congr (seRun_went h 4 (g := fun d => (d.setReg rx (s.queue q.toNat).marks.length).setZ
    (decide ((s.queue q.toNat).marks.length = 0))) h rfl rfl)

theorem exec_qpop (heven : rx.val % 2 = 0) {v : Nat} {z : Bool} (hz : decide (v < 2 ^ 63) = z) (ht : t.Runs n c)
    (hpop : s.qPop .seData q.toNat = (some v, t)) :
    exec (.qpop q rx) s = .next (t.went n 4 ((c.setPair rx v).setZ z)) := by
  subst hz
  have hodd : oddReg rx = false := by simp [oddReg, heven]
  exact next_congr (seRun_went h 4 (g := fun d => (d.setPair rx v).setZ (decide (v < 2 ^ 63))) ht
    (by simp only [hodd, hpop, Bool.false_eq_true, if_false]) rfl)

end

theorem exec_qopen_done (hopen : s.qOpen q.toNat (0x40 + n) = (.done, t)) :
    exec (.qopen q) s = .next (t.onCtx n fun d => { d.setC true with pc := (c.pc + 4) % 0x800000 }) :=
  next_congr (seRun_next h 4 (g := (·.setC true)) _ (by simp only [ctxSrc, hopen]))

theorem exec_qopen_lost {r : PushRes} (hr : r = .disabled ∨ r = .dropped) (hopen : s.qOpen q.toNat (0x40 + n) = (r, t)) :
    exec (.qopen q) s = .next (t.onCtx n fun d => { d.setC false with pc := (c.pc + 4) % 0x800000 }) := by
  rcases hr with rfl | rfl
  · exact next_congr (seRun_next h 4 (g := (·.setC false)) _ (by simp only [ctxSrc, hopen]))
  · exact next_congr (seRun_next h 4 (g := (·.setC false)) _ (by simp only [ctxSrc, hopen]))

theorem exec_qopen_refused (hopen : s.qOpen q.toNat (0x40 + n) = (.refused, t)) : exec (.qopen q) s =
    .next ((t.when (t.qForeign q.toNat (0x40 + n)) (·.inc Addr.queRefused)).onCtx n fun d =>
      { d.setC false with pc := (c.pc + 4) % 0x800000 }) :=
  next_congr (seRun_next h 4 (g := (·.setC false)) _ (by simp only [ctxSrc, hopen]; rfl))

theorem exec_qclose_cut (hcut : q.toNat ∈ c.cut) : exec (.qclose q) s =
    .next (s.went n 4 { c.setC false with cut := (q.toNat + 32) :: c.cut.filter (· ≠ q.toNat) }) := by
  have hcontains : c.cut.contains q.toNat = true := by simpa using hcut
  exact next_congr (seRun_went h 4
    (g := fun d => { d.setC false with cut := (q.toNat + 32) :: d.cut.filter (· ≠ q.toNat) }) h
    (by simp only [hcontains]; rfl) rfl)

theorem exec_qclose_own (hcut : q.toNat ∉ c.cut) {m : Nat} (hopen : (s.queue q.toNat).opened = some (0x40 + n, m)) :
    exec (.qclose q) s =
      .next ((s.qClose q.toNat false).onCtx n fun d => { d.setC true with pc := (c.pc + 4) % 0x800000 }) := by
  have hcontains : c.cut.contains q.toNat = false := by simpa using hcut
  have hown : (s.queue q.toNat).opened.any (·.1 = ctxSrc n) = true := by simp [hopen, ctxSrc]
  exact next_congr (seRun_next h 4 (g := (·.setC true)) _
    (by simp only [hcontains, hown, Bool.false_eq_true, if_false, if_true]))

theorem exec_qclose_none (hcut : q.toNat ∉ c.cut) (hopen : ∀ m, (s.queue q.toNat).opened ≠ some (0x40 + n, m)) :
    exec (.qclose q) s = .next (s.went n 4 (c.setC false)) := by
  have hcontains : c.cut.contains q.toNat = false := by simpa using hcut
  have hown : (s.queue q.toNat).opened.any (·.1 = ctxSrc n) = false := by
    rcases hx : (s.queue q.toNat).opened with _ | ⟨o, m⟩
    · rfl
    · simp only [Option.any_some, decide_eq_false_iff_not]
      rintro rfl
      exact hopen m hx
  exact next_congr (seRun_went h 4 (g := (·.setC false)) h
    (by simp only [hcontains, hown, Bool.false_eq_true, if_false]) rfl)

end

/-- Settles O19. -/
theorem queueInstructionsOfAContext : Obligations.QueueInstructionsOfAContext := by
  constructor
  · intro s n c q rx h k e src w done
    refine ⟨exec_qpush_cut h q rx, fun hc hc' => ⟨fun hen => ?_, fun hen hopen hroom => ?_, fun m hen hopen hm hroom => ?_,
      fun hen hopen hfull => ?_, fun o m hen hopen ho => ?_, fun m hen hopen hm hfull => ?_⟩, fun hen => ?_,
      fun hen hopen hroom => ?_, fun hen hopen hfull => ?_, fun m hen hopen => ?_, fun o m hen hopen ho => ?_⟩
    · exact exec_qpush_lost h q rx hc hc' (.inl rfl) (s.qPush_disabled k src w hen)
    · exact exec_qpush_done h q rx hc hc' (s.qPush_loose k src w hen hopen hroom)
    · exact exec_qpush_done h q rx hc hc' (s.qPush_packet k src w hen hopen hm hroom)
    · exact exec_qpush_lost h q rx hc hc' (.inr rfl) (s.qPush_full k src w hen hopen hfull)
    · exact exec_qpush_refused h q rx hc hc' (s.qPush_foreign k src w hen hopen ho)
    · exact exec_qpush_truncated h q rx hc hc' (s.qPush_cut k src w hen hopen hm hfull)
    · exact exec_qopen_lost h q (.inl rfl) (s.qOpen_disabled k src hen)
    · exact exec_qopen_done h q (s.qOpen_room k src hen hopen hroom)
    · exact exec_qopen_lost h q (.inr rfl) (s.qOpen_full k src hen hopen hfull)
    · have hown : s.qForeign k src = false := by
        rw [← Bool.not_eq_true, s.qForeign_iff]
        rintro ⟨-, o, m', hx, ho⟩
        exact ho (congrArg Prod.fst (Option.some.inj (hx.symm.trans hopen)))
      have hrefused := exec_qopen_refused h q (s.qOpen_refused k src hen hopen)
      rwa [hown] at hrefused
    · have hforeign : s.qForeign k src = true := (s.qForeign_iff k src).mpr ⟨hen, o, m, hopen, ho⟩
      have hrefused := exec_qopen_refused h q (s.qOpen_refused k src hen hopen)
      rwa [hforeign] at hrefused
  · intro s n c q rx h k e src
    refine ⟨fun heven => ⟨fun hnone => ?_, fun m ms bs t hen hmarks hm hbs hread => ?_⟩, exec_qlvl h q rx,
      exec_qclose_cut h q, fun hc => ⟨fun m => exec_qclose_own h q hc, exec_qclose_none h q hc⟩⟩
    · exact exec_qpop h q rx heven (by decide) h (s.qPop_nothing .seData k hnone)
    · have hword := s.qPop_word .seData k hen hmarks hm hread
      have hruns : (t.setQueue k { s.queue k with marks := ms, rd := ((s.queue k).rd + 1) % t.qDepth k }).Runs n c :=
        runs_of_se (dmRead_runs h hread) rfl
      exact exec_qpop h q rx heven (qData_valid k m bs) hruns hword

end Sys2Proof.Machine
end

