-- ==== Sys2Proof/Proofs/IndicatorFeatures.lean ====
section
/-! SUPPORT. One feature of an indicator record: where its averages, histories and baseline go (R224). -/

namespace Sys2Proof.Machine

theorem shiftHist_lt (h : Nat) (c : Bool) (n : Nat) : shiftHist h c n < 2 ^ n := Nat.mod_lt _ (Nat.two_pow_pos n)

/-- The older bits of a history move up by one. -/
theorem shiftHist_testBit (h : Nat) (c : Bool) {n i : Nat} (hi : i + 1 < n) :
    (shiftHist h c n).testBit (i + 1) = h.testBit i := by
  have hhalf : (h * 2 + b2n c) / 2 = h := by
    have hbit : b2n c < 2 := by cases c <;> decide
    omega
  rw [shiftHist, Nat.testBit_mod_two_pow, Nat.testBit_succ, hhalf]
  simp [hi]

/-- A feature after a record whose two conditions are `ca` and `cd`. -/
def Feature.moved (x : Feature) (c : RecCtx) (code : Nat) (ca cd trend : Bool) (bins : List IxeBin) : Feature :=
  { x with
    fast := if x.init then gAdd x.fast (gMul (weight c.dts c.tauF) (gSub (levelOf code) x.fast)) else levelOf code
    slow := if x.init then gAdd x.slow (gMul (weight c.dts c.tauS) (gSub (levelOf code) x.slow)) else levelOf code
    histA := shiftHist x.histA ca c.lim.nhist
    histD := shiftHist x.histD cd c.lim.nhist
    alert := c.lim.k ≤ popHist (shiftHist x.histA ca c.lim.nhist)
    danger := c.lim.k ≤ popHist (shiftHist x.histD cd c.lim.nhist)
    trend := trend
    init := true
    lcode := code
    bins := bins }

/-- A record learns: in MODE 0, and in MODE 2 without ALERT and DANGER. -/
def RecCtx.learns (c : RecCtx) (x : Feature) : Prop := c.mode = 0 ∨ (c.mode = 2 ∧ x.alert = false ∧ x.danger = false)

/-- The baseline bins of a feature that has become `y`: the bin of a record that learns has moved, and no other. -/
def BinsMoved (c : RecCtx) (old : List IxeBin) (y : Feature) : Prop :=
  (c.bin = none → y.bins = old) ∧ (¬c.learns y → y.bins = old) ∧
  ∀ i, c.bin = some i → c.learns y → ∃ v, y.bins =
    old.set i (learn (old.getD i ⟨0, 0, 0⟩) v (if c.mode = 2 then c.nwin else 16777215) c.nmin).1

/-- What evaluating a feature makes of it. -/
theorem evalFeature_moved (c : RecCtx) (absA absD : Nat) (x : Feature) (code : Nat) : ∃ ca cd trend bins,
    (evalFeature c absA absD x code).1 = x.moved c code ca cd trend bins ∧
    BinsMoved c x.bins (x.moved c code ca cd trend bins) := by
  unfold evalFeature
  extract_lets v fast slow y b sd z ca cd ha hd alert danger d trend learns
  have hlearns (bins : List IxeBin) : learns = true ↔ c.learns (x.moved c code ca cd trend bins) := by
    simp only [learns, Bool.or_eq_true, Bool.and_eq_true, decide_eq_true_eq, Bool.not_eq_true', and_assoc]
    rfl
  cases hbin : c.bin with
  | none => exact ⟨ca, cd, trend, x.bins, rfl, fun _ => rfl, fun _ => rfl, fun i hi => by simp [hbin] at hi⟩
  | some i =>
    have hb : b = x.bins.getD i ⟨0, 0, 0⟩ := by simp only [b, hbin]
    have hsome : c.bin ≠ none := by simp [hbin]
    by_cases hl : learns = true
    · refine ⟨ca, cd, trend, _, by simp only [hl, if_true]; rfl, fun h => absurd h hsome,
        fun h => absurd ((hlearns _).mp hl) h, fun j hj _ => ⟨y, ?_⟩⟩
      obtain rfl : i = j := Option.some.inj (hbin.symm.trans hj)
      rw [← hb]
      rfl
    · exact ⟨ca, cd, trend, x.bins, by simp only [hl]; rfl, fun _ => rfl, fun _ => rfl,
        fun j _ h => absurd ((hlearns _).mpr h) hl⟩

/-- A bin below its limit counts the record. -/
theorem learn_counts {b : IxeBin} (v : Nat) (ncap nmin : Nat) (h : b.n < ncap) : (learn b v ncap nmin).1.n = b.n + 1 := by
  rw [learn, if_pos h]

theorem getD_set_same (l : List IxeBin) {i : Nat} (hi : i < l.length) (b d : IxeBin) : (l.set i b).getD i d = b := by
  simp [List.getD, hi]

theorem getD_set_other (l : List IxeBin) {i j : Nat} (h : j ≠ i) (b d : IxeBin) :
    (l.set i b).getD j d = l.getD j d := by
  simp [List.getD, List.getElem?_set_ne h.symm]

/-- Settles O43. -/
theorem aFeatureMovesItsAveragesHistoriesAndBaseline : Obligations.AFeatureMovesItsAveragesHistoriesAndBaseline := by
  intro c absA absD x code y v bits
  obtain ⟨ca, cd, trend, bins, hy, hnone, hkept, hlearnt⟩ := evalFeature_moved c absA absD x code
  have hy' : y = x.moved c code ca cd trend bins := hy
  clear_value y
  subst hy'
  have hmode0 (h : c.mode = 0) : c.learns (x.moved c code ca cd trend bins) := .inl h
  refine ⟨rfl, rfl, fun hinit => ?first, fun hinit => ?later, ⟨shiftHist_lt _ _ _, shiftHist_lt _ _ _⟩,
    fun i hi => ⟨shiftHist_testBit _ _ hi, shiftHist_testBit _ _ hi⟩, decide_eq_true_iff, decide_eq_true_iff, hnone,
    ?length, fun i j hbin hj => ?other, fun hmode => hkept ?still, fun i hbin hi hmode hn => ?counted⟩
  case first => exact ⟨by simp only [Feature.moved, hinit]; rfl, by simp only [Feature.moved, hinit]; rfl⟩
  case later => exact ⟨by simp only [Feature.moved, hinit, if_true, v], by simp only [Feature.moved, hinit, if_true, v]⟩
  case length =>
    by_cases hl : c.learns (x.moved c code ca cd trend bins)
    · cases hbin : c.bin with
      | none => rw [hnone hbin]
      | some i =>
        obtain ⟨w, hw⟩ := hlearnt i hbin hl
        rw [hw, List.length_set]
    · rw [hkept hl]
  case other =>
    by_cases hl : c.learns (x.moved c code ca cd trend bins)
    · obtain ⟨w, hw⟩ := hlearnt i hbin hl
      rw [hw, getD_set_other _ hj]
    · rw [hkept hl]
  case still =>
    rintro (h0 | ⟨h2, hA, hD⟩)
    · rcases hmode with h1 | ⟨h2, -⟩ <;> omega
    · rcases hmode with h1 | ⟨-, hor⟩
      · omega
      · simp [hA, hD] at hor
  case counted =>
    obtain ⟨w, hw⟩ := hlearnt i hbin (hmode0 hmode)
    have hcap : (if c.mode = 2 then c.nwin else 16777215) = 16777215 := if_neg (by omega)
    rw [hw, getD_set_same _ hi, hcap, learn_counts _ _ _ hn]

end Sys2Proof.Machine
end

