-- ==== Sys2Proof/Proofs/RegisterFields.lean ====
section
/-! SUPPORT. A field of a register after a field of it was written: the same field, one above it, one below it. -/

namespace Sys2Proof.Machine

section
variable (w : Word) {hi lo : Nat} (v : Nat) (hlo : lo ≤ hi) (hhi : hi < 32)
include hlo hhi

/-- A word with a field replaced: what lies above the field, the field, and what lies below it. -/
theorem toNat_setBits : (setBits w hi lo v).toNat = 2 ^ lo * (2 ^ (hi + 1 - lo) * (w.toNat / 2 ^ lo / 2 ^ (hi + 1 - lo)) +
    v % 2 ^ (hi + 1 - lo)) + w.toNat % 2 ^ lo := by
  have hA : 0 < 2 ^ lo := Nat.two_pow_pos lo
  have hM : 0 < 2 ^ (hi + 1 - lo) := Nat.two_pow_pos _
  have hW : w.toNat < 2 ^ lo * 2 ^ (hi + 1 - lo) * 2 ^ (31 - hi) := by
    rw [← pow_add, ← pow_add, show lo + (hi + 1 - lo) + (31 - hi) = 32 by omega]
    exact w.isLt
  have h32 : (2 : Nat) ^ 32 = 2 ^ lo * 2 ^ (hi + 1 - lo) * 2 ^ (31 - hi) := by
    rw [← pow_add, ← pow_add, show lo + (hi + 1 - lo) + (31 - hi) = 32 by omega]
  unfold setBits bitsOf
  rw [BitVec.toNat_ofNat, h32]
  generalize w.toNat = W at *
  generalize 2 ^ lo = A at *
  generalize 2 ^ (hi + 1 - lo) = M at *
  generalize 2 ^ (31 - hi) = T at *
  have hv : v % M < M := Nat.mod_lt _ hM
  have hr : W % A < A := Nat.mod_lt _ hA
  have hWA := Nat.div_add_mod W A
  have hWM := Nat.div_add_mod (W / A) M
  have hp : W / A / M < T := by
    rw [Nat.div_div_eq_div_mul]
    exact Nat.div_lt_of_lt_mul hW
  generalize W / A / M = p at *
  generalize W / A % M = k at *
  generalize W % A = r at *
  generalize v % M = u at *
  have hval : W - k * A + u * A = A * (M * p + u) + r := by
    rw [← hWA, ← hWM, Nat.mul_add A (M * p) k, Nat.mul_add A (M * p) u, Nat.mul_comm k A, Nat.mul_comm u A]
    omega
  rw [hval]
  apply Nat.mod_eq_of_lt
  calc A * (M * p + u) + r < A * (M * p + u) + A := by omega
    _ = A * (M * p + u + 1) := by ring
    _ ≤ A * (M * T) := by
      apply Nat.mul_le_mul_left
      calc M * p + u + 1 ≤ M * p + M := by omega
        _ = M * (p + 1) := by ring
        _ ≤ M * T := Nat.mul_le_mul_left _ hp
    _ = A * M * T := by ring

theorem bitsOf_setBits_same : bitsOf (setBits w hi lo v) hi lo = v % 2 ^ (hi + 1 - lo) := by
  rw [bitsOf, toNat_setBits w v hlo hhi, Nat.mul_add_div (Nat.two_pow_pos lo),
    Nat.div_eq_of_lt (Nat.mod_lt _ (Nat.two_pow_pos lo)), Nat.add_zero, Nat.mul_add_mod, Nat.mod_mod]

/-- A field below the one written. -/
theorem bitsOf_setBits_below {hi' lo' : Nat} (h : hi' < lo) (hlo' : lo' ≤ hi') :
    bitsOf (setBits w hi lo v) hi' lo' = bitsOf w hi' lo' := by
  have hdvd : 2 ^ (hi' + 1) ∣ 2 ^ lo := Nat.pow_dvd_pow 2 h
  have hpow : 2 ^ lo' * 2 ^ (hi' + 1 - lo') = 2 ^ (hi' + 1) := by rw [← pow_add, show lo' + (hi' + 1 - lo') = hi' + 1 by omega]
  have hmod : (setBits w hi lo v).toNat % 2 ^ lo = w.toNat % 2 ^ lo := by
    rw [toNat_setBits w v hlo hhi, Nat.mul_add_mod, Nat.mod_mod]
  rw [bitsOf, bitsOf, ← Nat.mod_mul_right_div_self, ← Nat.mod_mul_right_div_self, hpow,
    ← Nat.mod_mod_of_dvd (setBits w hi lo v).toNat hdvd, hmod, Nat.mod_mod_of_dvd _ hdvd]

/-- A field above the one written. -/
theorem bitsOf_setBits_above {hi' lo' : Nat} (h : hi < lo') : bitsOf (setBits w hi lo v) hi' lo' = bitsOf w hi' lo' := by
  have hpow : 2 ^ lo' = 2 ^ lo * 2 ^ (hi + 1 - lo) * 2 ^ (lo' - (hi + 1)) := by
    rw [← pow_add, ← pow_add, show lo + (hi + 1 - lo) + (lo' - (hi + 1)) = lo' by omega]
  have hdiv : (setBits w hi lo v).toNat / 2 ^ lo / 2 ^ (hi + 1 - lo) = w.toNat / 2 ^ lo / 2 ^ (hi + 1 - lo) := by
    rw [toNat_setBits w v hlo hhi, Nat.mul_add_div (Nat.two_pow_pos lo),
      Nat.div_eq_of_lt (Nat.mod_lt _ (Nat.two_pow_pos lo)), Nat.add_zero, Nat.mul_add_div (Nat.two_pow_pos _),
      Nat.div_eq_of_lt (Nat.mod_lt _ (Nat.two_pow_pos _)), Nat.add_zero]
  simp only [bitsOf, hpow, ← Nat.div_div_eq_div_mul, hdiv]

end

section
variable (s : State) (a : Nat) {hi lo : Nat} (v : Nat)

theorem State.fld_setFld_same (hlo : lo ≤ hi) (hhi : hi < 32) : (s.setFld a hi lo v).fld a hi lo = v % 2 ^ (hi + 1 - lo) := by
  rw [State.fld, State.setFld, State.rd_wr_self, bitsOf_setBits_same _ v hlo hhi]

theorem State.fld_setFld_below (hlo : lo ≤ hi) (hhi : hi < 32) {hi' lo' : Nat} (h : hi' < lo) (hlo' : lo' ≤ hi') :
    (s.setFld a hi lo v).fld a hi' lo' = s.fld a hi' lo' := by
  rw [State.fld, State.setFld, State.rd_wr_self, bitsOf_setBits_below _ v hlo hhi h hlo', State.fld]

theorem State.fld_setFld_above (hlo : lo ≤ hi) (hhi : hi < 32) {hi' lo' : Nat} (h : hi < lo') :
    (s.setFld a hi lo v).fld a hi' lo' = s.fld a hi' lo' := by
  rw [State.fld, State.setFld, State.rd_wr_self, bitsOf_setBits_above _ v hlo hhi h, State.fld]

theorem State.fld_congr {s t : State} {a : Nat} (h : t.rd a = s.rd a) (hi lo : Nat) : t.fld a hi lo = s.fld a hi lo := by
  rw [State.fld, State.fld, h]

end

end Sys2Proof.Machine
end

