-- ==== Sys2Proof/Proofs/Replies.lean ====
section
/-! SUPPORT. What events, replies and notices leave as it is: everything but the command interface, the recorder and a
few counters (R50, R58, R77, R476). -/

namespace Sys2Proof.Machine

/-! ### Events -/

/-- An event reaches, of the registers, the counts of suppressed and lost records only. -/
theorem State.event_rd (s : State) (code : Nat) (d : Word) {a : Nat} (h1 : a ≠ Addr.evrRateW1 code) (h2 : a ≠ Addr.evrSupp)
    (h3 : a ≠ Addr.evrLost) : (s.event code d).rd a = s.rd a := by
  have hhold (t : State) : (t.evHold code d).rd a = t.rd a := by
    unfold State.evHold
    dsimp only
    split
    · rfl
    · exact State.rd_wr_other _ _ h3
  unfold State.event
  split
  · dsimp only
    split
    · exact hhold s
    · exact hhold _
  · exact (State.rd_wr_other _ _ h2).trans (State.rd_wr_other _ _ h1)

theorem State.ev_rd (s : State) (code d : Nat) {a : Nat} (h1 : a ≠ Addr.evrRateW1 code) (h2 : a ≠ Addr.evrSupp)
    (h3 : a ≠ Addr.evrLost) : (s.ev code d).rd a = s.rd a := s.event_rd code _ h1 h2 h3

/-! ### Replies and notices -/

/-- Between `s` and `t` only registers, the command interface and the recorder may differ. -/
def State.OnlyReplied (s t : State) : Prop := t = { s with regs := t.regs, hpi := t.hpi, evr := t.evr }

theorem State.OnlyReplied.rfl {s : State} : s.OnlyReplied s := Eq.refl s

theorem State.OnlyReplied.trans {s t u : State} (h : s.OnlyReplied t) (h' : t.OnlyReplied u) : s.OnlyReplied u := by
  unfold State.OnlyReplied at *
  rw [h', h]

theorem State.OnlyReplied.ev (s : State) (code d : Nat) : s.OnlyReplied (s.ev code d) := by
  obtain ⟨r, e, h⟩ := s.event_eq code (BitVec.ofNat 32 d)
  rw [State.ev, h]
  exact Eq.refl _

theorem State.OnlyReplied.when {s : State} {f : State → State} (b : Bool) (h : s.OnlyReplied (f s)) :
    s.OnlyReplied (s.when b f) := by
  unfold State.when
  split
  · exact h
  · exact .rfl

theorem State.OnlyReplied.send (s : State) (r : Reply) : s.OnlyReplied (s.send r) := by
  unfold State.send
  split
  · exact Eq.refl _
  next x _ =>
    have hframes (k : Nat) : s.OnlyReplied (s.txFrames x.eth k) := State.OnlyReplied.when _ (Eq.refl _)
    exact (hframes _).trans (Eq.refl _)

theorem State.OnlyReplied.cacheReply (s : State) (q : Req) (r : Reply) : s.OnlyReplied (s.cacheReply q r) := by
  unfold State.cacheReply
  split
  · exact Eq.refl _
  · exact .rfl

theorem State.OnlyReplied.useLimit (s : State) (h : BitVec 32) : s.OnlyReplied (s.useLimit h) := by
  unfold State.useLimit
  split
  · split
    · exact State.OnlyReplied.trans (t := s.closeSession h) (Eq.refl _) (.ev _ _ _)
    · exact .rfl
  · exact .rfl

theorem State.OnlyReplied.reply (s : State) (q : Req) (op status : Nat) (data : Bytes) (long : Bool) :
    s.OnlyReplied (s.reply q op status data long) :=
  ((State.OnlyReplied.when (f := (·.inc Addr.hpiBusy)) _ (Eq.refl _)).trans
    ((State.OnlyReplied.when _ (.cacheReply _ _ _)).trans (State.OnlyReplied.when _ (.send _ _)))).trans (.useLimit _ _)

theorem State.OnlyReplied.notice (s : State) (l : Long) (status : Nat) (data : Bytes) :
    s.OnlyReplied (s.notice l status data) := by
  unfold State.notice
  dsimp only
  split
  · exact Eq.refl _
  · exact State.OnlyReplied.trans (t := { s with hpi := { s.hpi with longs := s.hpi.longs.filter (· ≠ l) } }) (Eq.refl _)
      (((State.OnlyReplied.cacheReply _ _ _).trans (.send _ _)).trans (.useLimit _ _))

theorem State.OnlyReplied.foldl {α : Type} (l : List α) {f : State → α → State} (h : ∀ t x, State.OnlyReplied t (f t x))
    (s : State) : s.OnlyReplied (l.foldl f s) := by
  induction l generalizing s with
  | nil => exact .rfl
  | cons x l ih => exact (h s x).trans (ih _)

theorem State.OnlyReplied.noticeAll (s : State) (op status : Nat) (data : Bytes) :
    s.OnlyReplied (s.noticeAll op status data) :=
  .foldl _ (fun t l => .notice t l status data) s

/-- The registers a reply or notice may count in. -/
def replyRegs : Nats := [Addr.ethTxok 0, Addr.ethTxok 1, Addr.evrRateW1 0x007, Addr.evrSupp, Addr.evrLost]

section
variable (s : State) {a : Nat} (ha : a ∉ replyRegs)
include ha

theorem State.send_rd (r : Reply) : (s.send r).rd a = s.rd a := by
  simp only [replyRegs, List.mem_cons, List.not_mem_nil, or_false, not_or] at ha
  unfold State.send
  split
  · rfl
  next x _ =>
    unfold State.txFrames State.when
    split
    next hlt =>
      have hport : x.eth = 0 ∨ x.eth = 1 := by
        have := of_decide_eq_true hlt
        omega
      have hne : a ≠ Addr.ethTxok x.eth := by rcases hport with h | h <;> rw [h] <;> tauto
      exact State.rd_wr_other _ _ hne
    · rfl

omit ha in
theorem State.cacheReply_rd (q : Req) (r : Reply) : (s.cacheReply q r).rd a = s.rd a := by
  unfold State.cacheReply
  split <;> rfl

theorem State.useLimit_rd (h : BitVec 32) : (s.useLimit h).rd a = s.rd a := by
  simp only [replyRegs, List.mem_cons, List.not_mem_nil, or_false, not_or] at ha
  obtain ⟨-, -, hrate, hsupp, hlost⟩ := ha
  unfold State.useLimit
  split
  · split
    · exact State.ev_rd _ _ _ hrate hsupp hlost
    · rfl
  · rfl

theorem State.notice_rd (l : Long) (status : Nat) (data : Bytes) : (s.notice l status data).rd a = s.rd a := by
  unfold State.notice
  dsimp only
  split
  · rfl
  · exact (State.useLimit_rd _ ha _).trans ((State.send_rd _ ha _).trans (State.cacheReply_rd _ _ _))

theorem State.noticeAll_rd (op status : Nat) (data : Bytes) : (s.noticeAll op status data).rd a = s.rd a := by
  unfold State.noticeAll
  generalize s.longsOf op = l
  induction l generalizing s with
  | nil => rfl
  | cons x l ih => exact (ih _).trans (s.notice_rd ha x status data)

end

theorem State.when_rd (s : State) (b : Bool) {f : State → State} {a : Nat} (h : (f s).rd a = s.rd a) :
    (s.when b f).rd a = s.rd a := by
  unfold State.when
  split
  · exact h
  · rfl

theorem State.reply_rd (s : State) (q : Req) (op status : Nat) (data : Bytes) (long : Bool) {a : Nat} (ha : a ∉ replyRegs)
    (hbusy : a = Addr.hpiBusy → status ≠ 0x31) : (s.reply q op status data long).rd a = s.rd a := by
  refine (State.useLimit_rd _ ha _).trans ((State.when_rd _ _ (State.send_rd _ ha _)).trans
    ((State.when_rd _ _ (State.cacheReply_rd _ _ _)).trans ?_))
  unfold State.when
  split
  next h =>
    have hstatus : status = 0x31 := of_decide_eq_true h
    exact State.rd_wr_other _ _ fun he => hbusy he hstatus
  · rfl

end Sys2Proof.Machine
end

