-- ==== Sys2Proof/Proofs/CommittedGroups.lean ====
section
/-! SUPPORT. Committed values after a commit (R9), and the armed swap that is abandoned after its time-out (R195). -/

namespace Sys2Proof.Machine

/-! ### Looking a key up in a map -/

section
variable {α : Type} (m : Sparse α) (a : Nat)

theorem find?_skeep {p : Nat → Bool} (h : p a = true) :
    (skeep m p).find? (fun e => e.1 = a) = m.find? (fun e => e.1 = a) := by
  rw [skeep, List.find?_filter]
  congr 1
  funext e
  by_cases he : e.1 = a
  · simp [he, h]
  · simp [he]

theorem find?_skeep_none {p : Nat → Bool} (h : p a = false) : (skeep m p).find? (fun e => e.1 = a) = none := by
  rw [List.find?_eq_none]
  intro e he
  obtain ⟨-, hp⟩ := List.mem_filter.mp he
  simp only [decide_eq_true_eq]
  rintro rfl
  simp [h] at hp

theorem find?_sdel_other {k : Nat} (h : k ≠ a) : (sdel m k).find? (fun e => e.1 = a) = m.find? (fun e => e.1 = a) := by
  rw [sdel_eq_filter]
  exact find?_skeep (p := fun j => !decide (j = k)) m a (by simpa using h.symm)

theorem find?_sins_self (v : α) : (sins m a v).find? (fun e => e.1 = a) = some (a, v) := by
  induction m with
  | nil => simp [sins]
  | cons e r ih =>
    obtain ⟨j, w⟩ := e
    unfold sins
    split
    · simp
    · split
      · simp
      next hj => rw [List.find?_cons_of_neg (by simpa using hj), ih]

theorem find?_sins_other {k : Nat} (v : α) (h : k ≠ a) :
    (sins m k v).find? (fun e => e.1 = a) = m.find? (fun e => e.1 = a) := by
  induction m with
  | nil => simp [sins, h]
  | cons e r ih =>
    obtain ⟨j, w⟩ := e
    unfold sins
    split
    · rw [List.find?_cons_of_neg (by simpa using h)]
    · split
      next hj =>
        subst hj
        rw [List.find?_cons_of_neg (by simpa using h), List.find?_cons_of_neg (by simpa using h), find?_sdel_other r a h]
      · simp only [List.find?_cons, ih]

/-- Entries put over a map, each key once: their key reads the entry, every other key what it read before. -/
theorem find?_foldl_sins (l : List (Nat × α)) (hnodup : (l.map Prod.fst).Nodup) :
    (l.foldl (fun m e => sins m e.1 e.2) m).find? (fun e => e.1 = a) =
      (l.find? (fun e => e.1 = a)).or (m.find? (fun e => e.1 = a)) := by
  induction l generalizing m with
  | nil => rfl
  | cons e l ih =>
    rw [List.map_cons, List.nodup_cons] at hnodup
    obtain ⟨hfresh, hrest⟩ := hnodup
    rw [List.foldl_cons, ih _ hrest]
    by_cases he : e.1 = a
    · have hlater : l.find? (fun x => x.1 = a) = none := by
        rw [List.find?_eq_none]
        intro x hx
        simp only [decide_eq_true_eq]
        exact fun hxa => hfresh (List.mem_map.mpr ⟨x, hx, hxa.trans he.symm⟩)
      rw [List.find?_cons_of_pos (by simpa using he), hlater, ← he, find?_sins_self]
      rfl
    · rw [List.find?_cons_of_neg (by simpa using he), find?_sins_other _ _ _ he]

end

/-- Settles O29. -/
theorem aCommitReplacesItsGroupOnly : Obligations.ACommitReplacesItsGroupOnly := by
  intro s c a hgroup hnodup
  have hlive : (s.putLive c).live = c.staged.foldl (fun m e => sins m e.1 e.2) (skeep s.live fun a => !inGroup c.blk a) := rfl
  rw [hlive, find?_foldl_sins _ _ _ hnodup]
  refine ⟨fun hout => ?_, fun hin => ?_⟩
  · have hnone : c.staged.find? (fun e => e.1 = a) = none := by
      rw [List.find?_eq_none]
      intro e he
      simp only [decide_eq_true_eq]
      rintro rfl
      simp [hgroup e he] at hout
    rw [hnone, Option.none_or, find?_skeep _ _ (by simpa using hout)]
  · rw [find?_skeep_none _ _ (by simpa using hin), Option.or_none]

/-! ### The armed swap (R195) -/

/-- Sending over the towline changes the towline's part only. -/
theorem State.twlSend_eq (s : State) (f : TwlFrame) : s.twlSend f = { s with twl := (s.twlSend f).twl } := by
  unfold State.twlSend
  split
  · rfl
  · split <;> rfl

theorem State.sendCap_eq (s : State) : s.sendCap = { s with twl := s.sendCap.twl } := by
  unfold State.sendCap
  split
  · exact State.twlSend_eq _ _
  · rfl

theorem State.setChamber_rd (s : State) (c : Chamber) (a : Nat) : (s.setChamber c).rd a = (s.setFld Addr.seSwapStat 2 0 c.code).rd a := by
  unfold State.setChamber
  rw [State.sendCap_eq]
  rfl

theorem State.setChamber_se (s : State) (c : Chamber) :
    (s.setChamber c).se = { s.se with swap := { s.se.swap with chamber := c } } := by
  unfold State.setChamber
  rw [State.sendCap_eq]
  rfl

theorem State.setChamber_pm (s : State) (c : Chamber) : (s.setChamber c).pm = s.pm := by
  unfold State.setChamber
  rw [State.sendCap_eq]
  rfl

/-- What an armed swap that ends without a swap leaves, and what becomes of its chamber and LAST. -/
theorem State.disarm_spec (s : State) {outcome : Nat} (ho : outcome < 256) :
    (s.disarm outcome).se = { s.se with swap := { s.se.swap with chamber := .loaded } } ∧ (s.disarm outcome).pm = s.pm ∧
    (s.disarm outcome).fld Addr.seSwapStat 23 16 = outcome ∧
    (s.disarm outcome).fld Addr.seSwapStat 8 8 = s.fld Addr.seSwapStat 8 8 := by
  unfold State.disarm
  extract_lets t _ u
  have honly : u.OnlyReplied (u.swapNotice 0) := .noticeAll _ _ _ _
  have hrd : (u.swapNotice 0).rd Addr.seSwapStat = ((s.setLast outcome).setFld Addr.seSwapStat 2 0 3).rd Addr.seSwapStat :=
    (State.noticeAll_rd _ (a := Addr.seSwapStat) (by decide) _ _ _).trans (State.setChamber_rd _ .loaded _)
  refine ⟨?_, ?_, ?_, ?_⟩
  · rw [honly]
    exact State.setChamber_se _ _
  · rw [honly]
    exact State.setChamber_pm _ _
  · rw [State.fld_congr hrd, State.fld_setFld_above _ _ _ (by decide) (by decide) (by decide), State.setLast,
      State.fld_setFld_same _ _ _ (by decide) (by decide)]
    exact Nat.mod_eq_of_lt ho
  · rw [State.fld_congr hrd, State.fld_setFld_above _ _ _ (by decide) (by decide) (by decide), State.setLast,
      State.fld_setFld_below _ _ _ (by decide) (by decide) (by decide) (by decide)]

/-- Settles O41. -/
theorem anArmedSwapIsAbandonedAfterItsTimeout : Obligations.AnArmedSwapIsAbandonedAfterItsTimeout := by
  intro s t u
  refine ⟨fun harmed hrole hlate => ?_, fun hrole => ?_⟩
  · obtain ⟨hse, hpm, hlast, hbank⟩ := u.disarm_spec (outcome := 2) (by decide)
    have hexec : exec (.swapTimeout t) s = .next ((u.disarm 2).ev 0x091 2) := by
      have hdue : (decide (u.role ≠ .tracking) && decide (u.se.swap.chamber = .armed) &&
          decide (u.se.swap.armT + u.se.swap.timeout * 100000000 ≤ u.utick)) = true := by simp [hrole, harmed, hlate]
      have habandon : u.abandonSwap 2 = (u.disarm 2).ev 0x091 2 := if_pos harmed
      rw [← habandon]
      exact congrArg Host.Outcome.next (if_pos hdue)
    refine ⟨u.disarm 2, hexec, ?_, hlast, hpm, hbank, ?_, ?_, ?_⟩
    · rw [State.ev_se, hse]
    · rw [hse]
    · rw [hse]
    · rw [hse]
  · have hidle : (decide (u.role ≠ .tracking) && decide (u.se.swap.chamber = .armed) &&
        decide (u.se.swap.armT + u.se.swap.timeout * 100000000 ≤ u.utick)) = false := by simp [hrole]
    exact congrArg Host.Outcome.next (if_neg (by rw [hidle]; exact Bool.false_ne_true))

end Sys2Proof.Machine
end

