-- ==== Sys2Proof/Proofs/HostCommands.lean ====
section
/-! SUPPORT. Every host opcode starts the same way, and every reply leaves the same way (R36, R42, R45, R48, R50, R55,
R69, R77, R569). -/

namespace Sys2Proof.Machine

/-! ### How a host opcode starts (R42, R55, R569) -/

theorem starts_of_startLen {i : Instr} {s : State} {op k : Nat} {q : Req} {p : Bytes} {f : State → State}
    (h : exec i s = .next (s.startLen op k q p f)) : ∃ g : State → State, exec i s = .next (s.start op q p g) ∧
      ∀ n, some k = some n → p.length ≠ n → ∀ t : State, g t = t.fail q op 0x10 := by
  refine ⟨_, h, fun n hn hne t => ?_⟩
  cases hn
  exact if_neg hne

/-- A host opcode is a `start` of its effect; one of an exact length refuses another. -/
theorem exec_of_hostOp {i : Instr} {op : Nat} {len : Option Nat} {q : Req} {p : Bytes}
    (h : hostOp i = some (op, len, q, p)) (s : State) : ∃ f : State → State, exec i s = .next (s.start op q p f) ∧
      ∀ n, len = some n → p.length ≠ n → ∀ t : State, f t = t.fail q op 0x10 := by
  cases i with
  | sysIdent _ _ | sysStatus _ _ | sysSessionClose _ _ | sysStateSet _ _ | sysRestart _ _ | sysLockSet _ _
  | sysLockClear _ _ | sysKeySet _ _ | sysCounters _ _ | regRead _ _ | regModify _ _ | regCommit _ _ | regPoll _ _
  | queStatus _ _ | quePop _ _ | queClear _ _ | seTaskStatus _ _ | seTrigger _ _ | seClearStats _ _
  | seShaftRead _ _ | seChamberOpen _ _ | seChamberClose _ _ | seSwapArm _ _ | seSwapDisarm _ _ | seSwapStatus _ _
  | ixeStatusRead _ _ | ixePointRead _ _ | ixeBaselineReset _ _ | ixeBaselineLoad _ _ | ixeStateClear _ _
  | ixeCounters _ _ | fbpStatus _ _ | fbpRecover _ _ | fbpCancel _ _ | fbpTdr _ _ | fbpCounters _ _ | stnStatus _ _
  | stnRejoin _ _ | stnStop _ _ | stnCounters _ _ | fioStatus _ _ | fioGroupAck _ _ | fioDiagClear _ _
  | fioLoadRead _ _ | twlStatus _ _ | twlJoin _ _ | twlDetach _ _ | twlSwitchover _ _ | twlGoSolo _ _
  | twlEpochSet _ _ | twlCounters _ _ | miuStatus _ _ | miuScrub _ _ | miuScrubAbort _ _ | miuRawRead _ _
  | miuRawWrite _ _ | rsmStatus _ _ | rsmFormat _ _ | rsmRetainClear _ _ | evrStatus _ _ | evrRead _ _
  | evrFreeze _ _ | evrUnfreeze _ _ | evrClear _ _ | rtcRead _ _ | rtcSet _ _ | rtcTrim _ _ | wdtStatus _ _
  | wdtService _ _ | wdtCheckin _ _ | updVerify _ _ | updActivate _ _ | updConfirm _ _ | updRevert _ _
  | updStatus _ _ | updAbort _ _ | updStationActivate _ _ | ethStatus _ _ | ethConfig _ _ | ptpConfig _ _
  | ptpStatus _ _ | ethCounters _ _ =>
    cases h
    exact starts_of_startLen rfl
  | sysPing _ _ | sysSessionOpen _ _ | regWrite _ _ | regListRead _ _ | quePush _ _ | quePushPacket _ _
  | seChamberWrite _ _ | fbpSend _ _ | stnMgmt _ _ | updBegin _ _ | updData _ _ =>
    cases h
    exact ⟨_, rfl, nofun⟩
  | _ => cases h

/-- What an opcode of an exact payload length carries out, written in another way. -/
theorem State.carries_of_startLen_eq {s t : State} {q : Req} {op n : Nat} {p : Bytes} {i : Instr} {f : State → State}
    (hi : exec i s = .next (s.startLen op n q p f)) (hp : p.length = n) (hf : f (s.carry q) = t) :
    s.Carries q op i t := hf ▸ State.carries_of_startLen hi hp

/-- As `carries_of_startLen_eq`, for an opcode that looks at its payload's length itself. -/
theorem State.carries_of_start_eq {s t : State} {q : Req} {op : Nat} {p : Bytes} {i : Instr} {f : State → State}
    (hi : exec i s = .next (s.start op q p f)) (hf : f (s.carry q) = t) : s.Carries q op i t := by
  intro hstarts
  rw [hi, State.start_of_starts hstarts, hf]

/-! ### How a reply leaves (R36, R45, R48, R50, R60, R69, R77) -/

theorem State.session_setSession {s : State} {h : BitVec 32} {x y : Session} (hx : s.session h = some x)
    (hslot : y.slot = x.slot) (hhandle : y.handle = x.handle) : (s.setSession y).session h = some y := by
  have hxh : x.handle = h := by simpa using List.find?_some hx
  have hyh : decide (y.handle = h) = true := by simpa [hhandle] using hxh
  have hfind : s.hpi.sessions.find? (·.handle = h) = some x := hx
  show (s.hpi.sessions.map fun z => if z.slot = y.slot then y else z).find? (·.handle = h) = some y
  generalize s.hpi.sessions = l at hfind
  induction l with
  | nil => cases hfind
  | cons z l ih =>
    rw [List.map_cons]
    by_cases hz : z.slot = y.slot
    · rw [if_pos hz, List.find?_cons_of_pos (p := fun z : Session => decide (z.handle = h)) hyh]
    · rw [if_neg hz]
      by_cases hzh : z.handle = h
      · rw [List.find?_cons_of_pos (by simpa using hzh)] at hfind
        cases hfind
        exact absurd hslot.symm hz
      · rw [List.find?_cons_of_neg (by simpa using hzh)] at hfind ⊢
        exact ih hfind

/-- A reply as it is queued: FLAGS carry AUTH, LONG and REPLY, and an authenticated session gives the MAC. -/
def State.replyOf (s : State) (q : Req) (op status : Nat) (data : Bytes) (long : Bool) : Reply :=
  ⟨1, q.via, BitVec.ofNat 8 (b2n (s.sessKey q.session).isSome + 2 * b2n long + 8), op, q.tag, q.session, status, data,
    s.sessKey q.session⟩

/-- The state in which a reply has been counted and cached. -/
def State.replyCached (s : State) (q : Req) (op status : Nat) (data : Bytes) (long : Bool) : State :=
  (s.when (status = 0x0031) (·.inc Addr.hpiBusy)).when (!long) (·.cacheReply q (s.replyOf q op status data long))

/-- The state in which a reply has been counted, cached and queued. -/
def State.replySent (s : State) (q : Req) (op status : Nat) (data : Bytes) (long : Bool) : State :=
  (s.replyCached q op status data long).when (!(q.noReply && status % 256 ≤ 1)) (·.send (s.replyOf q op status data long))

section
variable (s : State) (q : Req) (op status : Nat) (data : Bytes) (long : Bool)

theorem State.reply_eq : s.reply q op status data long = (s.replySent q op status data long).useLimit q.session := rfl

theorem State.busy_hpi : (s.when (status = 0x0031) (·.inc Addr.hpiBusy)).hpi = s.hpi := by
  unfold State.when
  split <;> rfl

theorem State.cacheReply_hpi (r : Reply) : (s.cacheReply q r).hpi =
    { s.hpi with sessions := (s.cacheReply q r).hpi.sessions } := by
  unfold State.cacheReply
  split <;> rfl

theorem State.cacheReply_eq (r : Reply) : s.cacheReply q r = { s with hpi := (s.cacheReply q r).hpi } := by
  unfold State.cacheReply
  split <;> rfl

/-- Counting and caching leave all of the command interface but the sessions. -/
theorem State.replyCached_hpi : (s.replyCached q op status data long).hpi =
    { s.hpi with sessions := (s.replyCached q op status data long).hpi.sessions } := by
  have hbusy := s.busy_hpi status
  unfold State.replyCached
  generalize s.when (status = 0x0031) (·.inc Addr.hpiBusy) = t at *
  unfold State.when
  split
  · rw [t.cacheReply_hpi, hbusy]
  · rw [hbusy]

theorem State.send_hpi (r : Reply) : (s.send r).hpi =
    { s.hpi with spiQ := (s.send r).hpi.spiQ, udpOut := (s.send r).hpi.udpOut } := by
  unfold State.send
  split
  · rfl
  · dsimp only
    unfold State.txFrames State.when
    split <;> rfl

/-- Queueing leaves all of the command interface but the two queues. -/
theorem State.replySent_hpi : (s.replySent q op status data long).hpi =
    { (s.replyCached q op status data long).hpi with
      spiQ := (s.replySent q op status data long).hpi.spiQ, udpOut := (s.replySent q op status data long).hpi.udpOut } := by
  unfold State.replySent
  generalize s.replyCached q op status data long = t
  unfold State.when
  split
  · exact t.send_hpi _
  · rfl

theorem State.useLimit_hpi (t : State) (h : BitVec 32) : (t.useLimit h).hpi =
    { t.hpi with sessions := (t.useLimit h).hpi.sessions } := by
  unfold State.useLimit
  split
  · split
    · simp
      rfl
    · rfl
  · rfl

theorem State.OnlyReplied.replyCached : s.OnlyReplied (s.replyCached q op status data long) :=
  (State.OnlyReplied.when (f := (·.inc Addr.hpiBusy)) _ (Eq.refl _)).trans (State.OnlyReplied.when _ (.cacheReply _ _ _))

theorem State.replySent_evr : (s.replySent q op status data long).evr = s.evr := by
  have hcache (t : State) (r : Reply) : (t.cacheReply q r).evr = t.evr := by rw [t.cacheReply_eq]
  have hsend (t : State) (r : Reply) : (t.send r).evr = t.evr := by
    unfold State.send
    split
    · rfl
    · dsimp only
      unfold State.txFrames State.when
      split <;> rfl
  unfold State.replySent State.replyCached State.when
  split <;> split <;> split <;> simp only [hsend, hcache, State.inc_evr]

theorem State.replySent_queues_spi (hvia : q.via = .spi) : (s.replySent q op status data long).hpi.spiQ =
    s.hpi.spiQ ++ if q.noReply = true ∧ status % 256 ≤ 1 then [] else [s.replyOf q op status data long] := by
  have hspi : (s.replyCached q op status data long).hpi.spiQ = s.hpi.spiQ := by rw [replyCached_hpi]
  unfold State.replySent State.when
  by_cases h : q.noReply = true ∧ status % 256 ≤ 1
  · rw [if_pos h, if_neg (by simp [h]), hspi, List.append_nil]
  · have hloud : (!(q.noReply && decide (status % 256 ≤ 1))) = true := by
      rw [Bool.not_eq_true', ← Bool.not_eq_true, Bool.and_eq_true, decide_eq_true_eq]
      exact h
    have hv : (s.replyOf q op status data long).via = .spi := hvia
    rw [if_neg h, if_pos hloud, ← hspi]
    simp only [State.send, hv]

theorem State.replySent_queues_udp {x : UdpSource} (hvia : q.via = .udp x) : (s.replySent q op status data long).hpi.udpOut =
    s.hpi.udpOut ++ if q.noReply = true ∧ status % 256 ≤ 1 then [] else
      ipParts (s.ethCfg x.eth).mtu x 4200 0 (udpDatagram (s.ethCfg x.eth).ip x (s.replyOf q op status data long).bytes) := by
  have hudp : (s.replyCached q op status data long).hpi.udpOut = s.hpi.udpOut := by rw [replyCached_hpi]
  unfold State.replySent State.when
  by_cases h : q.noReply = true ∧ status % 256 ≤ 1
  · rw [if_pos h, if_neg (by simp [h]), hudp, List.append_nil]
  · have hloud : (!(q.noReply && decide (status % 256 ≤ 1))) = true := by
      rw [Bool.not_eq_true', ← Bool.not_eq_true, Bool.and_eq_true, decide_eq_true_eq]
      exact h
    have hv : (s.replyOf q op status data long).via = .udp x := hvia
    rw [if_neg h, if_pos hloud, ← hudp]
    have hcfg : (s.replyCached q op status data long).ethCfg x.eth = s.ethCfg x.eth := by
      rw [State.OnlyReplied.replyCached s q op status data long]
      rfl
    simp only [State.send, hv, hcfg]
    unfold State.txFrames State.when
    split <;> rfl

theorem State.replySent_session {x : Session} (hx : s.session q.session = some x) :
    (s.replySent q op status data long).session q.session = some (if long then x else
      { x with cache := (⟨q.tag, q.pcrc, s.replyOf q op status data long⟩ :: x.cache).take 16 }) := by
  have hsame : (s.replySent q op status data long).session q.session =
      (s.replyCached q op status data long).session q.session := by
    unfold State.session
    rw [replySent_hpi]
  have hbusy : (s.when (status = 0x0031) (·.inc Addr.hpiBusy)).session q.session = some x := by
    unfold State.session
    rw [s.busy_hpi status]
    exact hx
  rw [hsame]
  unfold State.replyCached
  cases long with
  | true => exact hbusy
  | false =>
    show (State.cacheReply _ _ _).session q.session = _
    unfold State.cacheReply
    simp only [hbusy]
    exact State.session_setSession hbusy rfl rfl

theorem State.replySent_session_none (hnone : s.session q.session = none) :
    (s.replySent q op status data long).session q.session = none := by
  have hsame : (s.replySent q op status data long).session q.session =
      (s.replyCached q op status data long).session q.session := by
    unfold State.session
    rw [replySent_hpi]
  have hbusy : (s.when (status = 0x0031) (·.inc Addr.hpiBusy)).session q.session = none := by
    unfold State.session
    rw [s.busy_hpi status]
    exact hnone
  rw [hsame]
  unfold State.replyCached
  cases long with
  | true => exact hbusy
  | false =>
    show (State.cacheReply _ _ _).session q.session = _
    unfold State.cacheReply
    simp only [hbusy]

/-- BUSY counts up to its largest value at status 0x0031. -/
theorem State.replySent_busy (h : status = 0x31) :
    (s.replySent q op status data long).rdN Addr.hpiBusy = min (s.rdN Addr.hpiBusy + 1) 0xFFFFFFFF := by
  have hkept : (s.replySent q op status data long).rd Addr.hpiBusy = (s.inc Addr.hpiBusy).rd Addr.hpiBusy := by
    refine (State.when_rd _ _ (State.send_rd _ (by decide) _)).trans
      ((State.when_rd _ _ (State.cacheReply_rd _ _ _)).trans ?_)
    unfold State.when
    rw [if_pos (decide_eq_true h)]
  rw [State.rdN, hkept]
  show ((s.wr Addr.hpiBusy _).rd Addr.hpiBusy).toNat = _
  rw [State.rd_wr_self, BitVec.toNat_ofNat, satAdd]
  exact Nat.mod_eq_of_lt (by omega)

end

theorem State.useLimit_kept (t : State) (h : BitVec 32)
    (hfew : ∀ x, t.session h = some x → x.auth = true → x.accepted < 32768) : t.useLimit h = t := by
  unfold State.useLimit
  split
  next x hx =>
    refine if_neg fun hc => ?_
    simp only [Bool.and_eq_true, decide_eq_true_eq] at hc
    obtain ⟨⟨hauth, hfull⟩, -⟩ := hc
    exact absurd (hfew x hx hauth) (by omega)
  · rfl

theorem State.useLimit_closed (t : State) {h : BitVec 32} {x : Session} (hx : t.session h = some x)
    (hauth : x.auth = true) (hfull : 32768 ≤ x.accepted) (hall : t.unanswered h = false) :
    (t.useLimit h).session h = none := by
  unfold State.useLimit
  simp only [hx]
  rw [if_pos (by simp [hauth, hfull, hall]), State.session, State.ev_hpi]
  show (t.hpi.sessions.filter (·.handle ≠ h)).find? (·.handle = h) = none
  simp

/-- A reply of a session below its limit leaves that limit alone. -/
theorem State.reply_eq_replySent (s : State) (q : Req) (op status : Nat) (data : Bytes) (long : Bool)
    (hfew : ∀ x, s.session q.session = some x → x.auth = true → x.accepted < 32768) :
    s.reply q op status data long = s.replySent q op status data long := by
  rw [State.reply_eq]
  refine State.useLimit_kept _ _ fun x hx hauth => ?_
  cases hs : s.session q.session with
  | some y =>
    rw [State.replySent_session _ _ _ _ _ _ hs] at hx
    obtain rfl := Option.some.inj hx
    have := hfew y hs
    cases long <;> exact this hauth
  | none =>
    rw [State.replySent_session_none _ _ _ _ _ _ hs] at hx
    cases hx

/-- Settles O21: an opcode is a `start` of its effect; a reply is counted, cached and queued, and then the limit of its
session is looked at. -/
theorem hostOpcodesAreStartedAndAnswered : Obligations.HostOpcodesAreStartedAndAnswered := by
  unfold Obligations.HostOpcodesAreStartedAndAnswered
  refine ⟨fun s i op len q p hop => ?_, fun s q op status data long => ?_⟩
  · obtain ⟨f, hexec, hlen⟩ := exec_of_hostOp hop s
    refine ⟨fun hb => ?_, fun hb hl => ?_, fun n hn hne hstarts => ?_⟩
    · rw [hexec, State.start, if_pos hb]
    · rw [hexec, State.start, if_neg (by simp [hb]), if_pos hl]
    · rw [hexec, State.start_of_starts hstarts, hlen n hn hne]
  · intro t key r silent plain
    have hspi : t.hpi.spiQ = (s.replySent q op status data long).hpi.spiQ := by
      rw [show t = _ from s.reply_eq q op status data long, State.useLimit_hpi]
    have hudp : t.hpi.udpOut = (s.replySent q op status data long).hpi.udpOut := by
      rw [show t = _ from s.reply_eq q op status data long, State.useLimit_hpi]
    refine ⟨?_, fun h => ?_, fun h => ?_, fun hvia => ?_, fun x hvia => ?_, fun x hx hauth hfull hall => ?_, fun hfew => ?_⟩
    · show r.bytes = _
      unfold Reply.bytes
      show _ = plain ++ _
      change (match key with | some k => plain ++ (hmac k plain).take 16 | none => plain) = _
      cases key <;> simp
    · exact State.reply_rd _ _ _ _ _ _ (by decide) fun _ => h
    · rw [← State.replySent_busy s q op status data long h]
      exact congrArg BitVec.toNat (State.useLimit_rd _ (by decide) _)
    · exact hspi.trans (State.replySent_queues_spi _ _ _ _ _ _ hvia)
    · exact hudp.trans (State.replySent_queues_udp _ _ _ _ _ _ hvia)
    · rw [show t = _ from s.reply_eq q op status data long]
      refine State.useLimit_closed _ (State.replySent_session _ _ _ _ _ _ hx) ?_ ?_ ?_
      · cases long <;> exact hauth
      · cases long <;> exact hfull
      · rw [State.unanswered, State.replySent_hpi, State.replyCached_hpi]
        exact hall
    · have ht : t = s.replySent q op status data long := s.reply_eq_replySent q op status data long hfew
      have hrest : t = { s with regs := t.regs, hpi := t.hpi, evr := t.evr } := State.OnlyReplied.reply s q op status data long
      have hhpi := State.replySent_hpi s q op status data long
      have hcached := State.replyCached_hpi s q op status data long
      refine ⟨fun x hx hlong => ?_, ?_, ?_, ?_, ?_, ?_, ?_, ?_, ?_, ?_, ?_⟩
      · rw [ht, State.replySent_session _ _ _ _ _ _ hx]
        exact congrArg some (if_neg (by simp [hlong]))
      · rw [ht, hhpi, hcached]
      · rw [ht, hhpi, hcached]
      · rw [hrest]
      · rw [hrest]
      · rw [hrest]
      · rw [hrest]
      · rw [hrest]
      · rw [hrest]
      · rw [hrest]
      · rw [ht, State.replySent_evr]

/-! ### The SYS opcodes -/

theorem hpiClr_eq (s : State) (v : Word) :
    s.hpiClr v = if v.getLsbD 0 then hpiCounters.foldl (fun s a => s.wr a 0) s else s := rfl

theorem sysPing_carries (s : State) (q : Req) (p : Bytes) :
    (p.length ≤ 4076 → s.Carries q 0 (.sysPing q p) ((s.carry q).ok q 0 p)) ∧
    (4076 < p.length → s.Carries q 0 (.sysPing q p) ((s.carry q).fail q 0 0x10)) :=
  ⟨fun hp => State.carries_of_start_eq rfl (if_pos hp), fun hp => State.carries_of_start_eq rfl (if_neg (by omega))⟩

/-- SYS_SESSION_OPEN once its payload is in order (R47, R75). -/
def State.sessionOpened (s : State) (q : Req) (p : Bytes) (mode : Nat) : State :=
  if mode = 1 && s.hpi.ownerKey.isNone then s.fail q 0x0003 0x20
  else match s.freeSlot with
    | none => s.fail q 0x0003 0x30
    | some i => s.openSession q i mode (field p 2 2) ((p.drop 4).take 16)

theorem sysSessionOpen_carries (s : State) (q : Req) {p : Bytes} {m : Nat} (hlen : p.length = if m = 1 then 20 else 4)
    (hm : (p.getD 0 0).toNat = m) (hle : m ≤ 1) :
    s.Carries q 3 (.sysSessionOpen q p) ((s.carry q).sessionOpened q p m) := by
  intro hs
  show Host.Outcome.next (cmdSysSessionOpen q p s) = _
  rw [cmdSysSessionOpen, State.start_of_starts hs]
  dsimp only
  have hlength : ¬(p.length = 0 || (m = 0 && p.length ≠ 4) || (m = 1 && p.length ≠ 20)) = true := by
    obtain rfl | rfl : m = 0 ∨ m = 1 := by omega
    · simp [show p.length = 4 from hlen]
    · simp [show p.length = 20 from hlen]
  rw [hm, if_neg hlength, if_neg (by omega)]
  rfl

section
variable {s : State} {q : Req} {p : Bytes} {m : Nat}

theorem State.sessionOpened_no_key (hm : m = 1) (hkey : s.hpi.ownerKey = none) :
    s.sessionOpened q p m = s.fail q 3 0x20 := if_pos (by simp [hm, hkey])

theorem State.sessionOpened_full (hkey : m = 1 → s.hpi.ownerKey ≠ none)
    (hfull : ∀ i, i < 8 → ∃ x ∈ s.hpi.sessions, x.slot = i) : s.sessionOpened q p m = s.fail q 3 0x30 := by
  have hnone : s.freeSlot = none := by
    refine List.find?_eq_none.mpr fun i hi => ?_
    obtain ⟨x, hx, hslot⟩ := hfull i (List.mem_range.mp hi)
    simpa using ⟨x, hx, hslot⟩
  rw [State.sessionOpened, if_neg (by simpa using hkey)]
  simp only [hnone]

theorem State.freeSlot_lowest {i : Nat} (hi : i < 8) (hfree : ∀ x ∈ s.hpi.sessions, x.slot ≠ i)
    (hlow : ∀ j, j < i → ∃ x ∈ s.hpi.sessions, x.slot = j) : s.freeSlot = some i := by
  refine List.find?_range_eq_some.mpr ⟨?_, ?_, fun j hj => ?_⟩
  · simpa using hfree
  · exact List.mem_range.mpr hi
  · obtain ⟨x, hx, hslot⟩ := hlow j hj
    simpa using ⟨x, hx, hslot⟩

theorem State.sessionOpened_slot {i : Nat} (hkey : m = 1 → s.hpi.ownerKey ≠ none) (hslot : s.freeSlot = some i) :
    s.sessionOpened q p m = s.openSession q i m (field p 2 2) ((p.drop 4).take 16) := by
  rw [State.sessionOpened, if_neg (by simpa using hkey)]
  simp only [hslot]

end

theorem sysRestart_carries (s : State) (q : Req) :
    ((s.carry q).op ≠ .run → (s.carry q).op ≠ .hold → s.Carries q 6 (.sysRestart q [0])
      { (s.carry q).ok q 6 with
        restart := some ((s.carry q).utick + 1000000), pwr := { (s.carry q).pwr with latch := 2 } }) ∧
    ((s.carry q).op = .run ∨ (s.carry q).op = .hold →
      s.Carries q 6 (.sysRestart q [0]) ((s.carry q).fail q 6 0x20)) := by
  refine ⟨fun hrun hhold => State.carries_of_startLen_eq rfl rfl ?_, fun hop => State.carries_of_startLen_eq rfl rfl ?_⟩
  all_goals rw [if_neg (by simp)]
  · rw [if_neg (by simp [hrun, hhold])]
  · rw [if_pos (by simpa using hop)]

/-- Settles O22: each opcode is its effect once the command starts. -/
theorem systemOpcodesAndCountersAnswer : Obligations.SystemOpcodesAndCountersAnswer := by
  unfold Obligations.SystemOpcodesAndCountersAnswer
  refine ⟨fun s q p => ?_, fun s q b v => ⟨?_, ?_⟩⟩
  · refine ⟨(sysPing_carries s q p).1, (sysPing_carries s q p).2, fun hp => ?_, fun m hlen hm hle => ?_, fun hp => ?_⟩
    · subst hp
      have hstatus : s.Carries q 2 (.sysStatus q []) ((s.carry q).ok q 2 (s.carry q).statusBytes) :=
        State.carries_of_startLen (n := 0) (f := fun s => s.ok q 2 s.statusBytes) rfl rfl
      refine ⟨State.carries_of_startLen_eq rfl rfl rfl, ?_, fun hq => State.carries_of_startLen_eq rfl rfl (if_neg hq),
        fun hq => State.carries_of_startLen_eq rfl rfl (if_pos hq)⟩
      · unfold State.statusBytes at hstatus
        cases hc : (s.carry q).fcause with
        | none =>
          rw [hc] at hstatus
          exact hstatus
        | some c =>
          rw [hc] at hstatus
          simp only [Nat.add_comm c 32768] at hstatus
          exact hstatus
    · have hopen := sysSessionOpen_carries s q hlen hm hle
      refine ⟨fun hm1 hkey => ?_, fun hkey hfull => ?_, fun i hkey hi hfree hlow => ?_⟩
      · rwa [State.sessionOpened_no_key hm1 hkey] at hopen
      · rwa [State.sessionOpened_full hkey hfull] at hopen
      · rw [State.sessionOpened_slot hkey (State.freeSlot_lowest hi hfree hlow)] at hopen
        exact hopen
    · subst hp
      exact sysRestart_carries s q
  · exact State.carries_of_startLen (n := 1) (f := fun s =>
      (s.when (([b].getD 0 0).getLsbD 0) (·.clearAll hpiCounters)).ok q 0x000A (hpiCounters.flatMap fun a => wordBytes (s.rd a)))
      rfl rfl
  · exact congrArg Host.Outcome.next (hpiClr_eq s v)

end Sys2Proof.Machine
end

