-- ==== Sys2Proof/Proofs/HostPorts.lean ====
section
/-! SUPPORT. A packet passes the checks of R41 one after another; an SPI transfer cuts its bytes into packets (R62 to
R66). -/

namespace Sys2Proof.Machine

/-! ### The checks of R41 -/

/-- Steps 1 to 5 of R41 find nothing: the header, VERSION, LENGTH and PCRC are good. -/
def soundPkt (b : Bytes) : Prop :=
  headerOk b = true ∧ (parsePkt b).flags.getLsbD 3 = false ∧ b.getD 2 0 = 1 ∧ (parsePkt b).len ≤ 4080 ∧
    (parsePkt b).pcrc = crc32c (b.take (16 + (parsePkt b).len))

theorem headerOk_iff (b : Bytes) : headerOk b = true ↔
    16 ≤ b.length ∧ b.take 2 = [0x53, 0x47] ∧ field b 14 2 = (crc16 (b.take 14)).toNat := by
  simp [headerOk, and_assoc]

section
variable (u : State) (via : Transport) {b : Bytes}

theorem State.receive_badHeader (h : headerOk b = false) : u.receive via b = (u.inc Addr.hpiHdrErr).ev 0x382 0 := by
  rw [State.receive, if_pos (by simp [h])]

theorem State.receive_goodHeader (h : headerOk b = true) : u.receive via b =
    if (parsePkt b).flags.getLsbD 3 then u.inc Addr.hpiHdrErr
    else if b.getD 2 0 ≠ 1 then u.refuse ((parsePkt b).req via) (parsePkt b).op 0x0011 (b.getD 2 0)
    else if 4080 < (parsePkt b).len then u.refuse ((parsePkt b).req via) (parsePkt b).op 0x0010
    else if (parsePkt b).pcrc ≠ crc32c (b.take (16 + (parsePkt b).len)) then
      ((u.inc Addr.hpiPcrcErr).ev 0x383 0).refuse ((parsePkt b).req via) (parsePkt b).op 0x0050
    else if !(((parsePkt b).session = 0 && noSessionOp (parsePkt b).op) ||
        (u.boundSession (parsePkt b).session via).isSome) then
      u.refuse ((parsePkt b).req via) (parsePkt b).op 0x0020
    else u.authStep (parsePkt b) ((parsePkt b).req via) b := by
  rw [State.receive, if_neg (by simp [h])]
  rfl

theorem State.receive_sound (h : soundPkt b) : u.receive via b =
    if !(((parsePkt b).session = 0 && noSessionOp (parsePkt b).op) ||
        (u.boundSession (parsePkt b).session via).isSome) then
      u.refuse ((parsePkt b).req via) (parsePkt b).op 0x0020
    else u.authStep (parsePkt b) ((parsePkt b).req via) b := by
  obtain ⟨hgood, hreply, hver, hlen, hcrc⟩ := h
  rw [u.receive_goodHeader via hgood, if_neg (ne_true_of_eq_false hreply), if_neg (not_not.mpr hver), if_neg (by omega),
    if_neg (by simp [← hcrc])]

end

/-! ### Acceptance (steps 9 to 11) -/

/-- The command comes among the waiting commands. -/
def State.enqueue (s : State) (q : Req) (op : Nat) (p : Bytes) : State :=
  { s with hpi := { s.hpi with waiting := s.hpi.waiting ++ [⟨op, q, p⟩] } }

/-- The device takes commands: it is not in BOOT or RECOVERY, no write lock holds the opcode back, and fewer than 64
commands are outstanding. -/
def State.TakesCommands (s : State) (op : Nat) : Prop :=
  s.op ≠ .recovery ∧ s.op ≠ .boot ∧ s.locked op = false ∧ s.outstanding < 64

section
variable {s : State} {q : Req} {op : Nat} {p : Bytes} {w : Bool}

/-- Acceptance of a command of class `w`: its session counts it, and it waits. -/
theorem State.takeIn_accepted (hclass : opClass op = some w) (hfree : s.TakesCommands op)
    (howner : s.hpi.ownerLock = true → (w = true → s.authed q.session = true) ∧ op ≠ 0x0C00 ∧ op ≠ 0x0C03)
    (hlimit : ∀ x, s.session q.session = some x → x.auth = true → x.accepted < 32768) :
    s.takeIn q op p = ((s.session q.session).elim s fun x =>
      s.setSession { x with accepted := x.accepted + 1, lastT := s.utick }).enqueue q op p := by
  obtain ⟨hrec, hboot, hlock, hout⟩ := hfree
  unfold State.takeIn
  simp only [hclass]
  have hstate : ¬((s.op = .recovery && !recoveryOp op) || (s.op = .boot && 2 < op) || s.locked op) = true := by
    simp [hrec, hboot, hlock]
  have hown : ¬(s.hpi.ownerLock && ((w && !s.authed q.session) || op = 0x0C00 || op = 0x0C03)) = true := by
    cases hl : s.hpi.ownerLock with
    | false => simp
    | true =>
      obtain ⟨hw, h0, h3⟩ := howner hl
      cases w with
      | false => simp [h0, h3]
      | true => simp [h0, h3, hw rfl]
  have hfull : ¬((s.session q.session).any fun x => x.auth && 32768 ≤ x.accepted) = true := by
    cases hx : s.session q.session with
    | none => simp
    | some x =>
      have hle := hlimit x hx
      simpa using hle
  rw [if_neg hstate, if_neg hown, if_neg (by omega), if_neg hfull]
  cases s.session q.session <;> rfl

end

/-! ### The session of a packet (steps 7 and 8) -/

/-- What step 7 asks of the packet of a session. -/
def State.PacketFits (s : State) (x : Session) (k : Pkt) (q : Req) (b : Bytes) : Prop :=
  if x.auth then k.flags.getLsbD 0 = true ∧ k.mac = (hmac x.ks (b.take (20 + k.len))).take 16 ∧
    (tagOk x k.tag.toNat = true ∨ s.isRepeat q x = true)
  else k.flags.getLsbD 0 = false

/-- The session after its packet has passed step 7. -/
def Session.passed (x : Session) (tag : Nat) : Session :=
  if x.auth then takeTag { x with fails := 0 } tag else { x with fails := 0 }

theorem takeTag_kept (x : Session) (tag : Nat) : (takeTag x tag).slot = x.slot ∧ (takeTag x tag).handle = x.handle ∧
    (takeTag x tag).auth = x.auth ∧ (takeTag x tag).accepted = x.accepted := by
  unfold takeTag
  split
  · exact ⟨rfl, rfl, rfl, rfl⟩
  · dsimp only
    split <;> exact ⟨rfl, rfl, rfl, rfl⟩

theorem Session.passed_kept (x : Session) (tag : Nat) : (x.passed tag).slot = x.slot ∧ (x.passed tag).handle = x.handle ∧
    (x.passed tag).auth = x.auth ∧ (x.passed tag).accepted = x.accepted := by
  unfold Session.passed
  split
  · exact takeTag_kept _ _
  · exact ⟨rfl, rfl, rfl, rfl⟩

section
variable (s : State) {x : Session} {k : Pkt} {q : Req} {b : Bytes}

theorem State.authStep_none (h : s.boundSession q.session q.via = none) :
    s.authStep k q b = s.takeIn q k.op k.payload := by
  unfold State.authStep
  rw [h]
  rfl

theorem State.authStep_misfit (h : s.boundSession q.session q.via = some x) (hfit : ¬s.PacketFits x k q b) :
    s.authStep k q b = s.authFail q k.op (some x) := by
  unfold State.authStep
  rw [h]
  dsimp only
  unfold State.PacketFits at hfit
  cases hx : x.auth with
  | false =>
    rw [hx, if_neg (by simp), Bool.not_eq_false] at hfit
    rw [if_pos (show (!false) = true from rfl), if_pos hfit]
  | true =>
    rw [hx, if_pos rfl] at hfit
    rw [if_neg (by simp), if_pos]
    by_contra hc
    simp only [Bool.or_eq_true, Bool.not_eq_true', decide_eq_false_iff_not, Bool.or_eq_false_iff, not_or, not_not,
      Bool.not_eq_false, not_and_or, and_assoc] at hc
    exact hfit hc

theorem State.authStep_fits (h : s.boundSession q.session q.via = some x) (hfit : s.PacketFits x k q b) :
    s.authStep k q b = s.repeatOr q k.op k.payload (some x) (·.setSession (x.passed k.tag.toNat)) := by
  unfold State.authStep
  rw [h]
  dsimp only
  unfold State.PacketFits at hfit
  unfold Session.passed
  cases hx : x.auth with
  | false =>
    rw [hx, if_neg (by simp)] at hfit
    rw [if_pos (show (!false) = true from rfl), if_neg (ne_true_of_eq_false hfit)]
    rfl
  | true =>
    rw [hx, if_pos rfl] at hfit
    obtain ⟨hauth, hmac, htag⟩ := hfit
    rw [if_neg (by simp), if_neg]
    · rfl
    simp only [Bool.or_eq_true, Bool.not_eq_true', decide_eq_false_iff_not, Bool.or_eq_false_iff, not_or, not_not,
      Bool.not_eq_false, not_and_or, and_assoc]
    exact ⟨hauth, hmac, htag⟩

variable {op : Nat} {p : Bytes} {f : State → State}

/-- The final reply of a repeated command goes out again. -/
theorem State.repeatOr_cached {c : Cached} (hc : x.cache.find? (fun c => c.tag = q.tag && c.pcrc = q.pcrc) = some c)
    (hloud : q.noReply = false) : s.repeatOr q op p (some x) f =
      ((s.setSession { x with fails := 0 }).inc Addr.hpiRepeats).send c.reply := by
  unfold State.repeatOr
  simp only [hc, hloud]
  rfl

theorem State.repeatOr_fresh (hfresh : s.isRepeat q x = false) :
    s.repeatOr q op p (some x) f = (f s).takeIn q op p := by
  unfold State.isRepeat at hfresh
  rw [Bool.or_assoc, Bool.or_eq_false_iff] at hfresh
  obtain ⟨hcache, hrest⟩ := hfresh
  have hnone : x.cache.find? (fun c => c.tag = q.tag && c.pcrc = q.pcrc) = none := by
    rw [List.any_eq_false] at hcache
    exact List.find?_eq_none.mpr hcache
  unfold State.repeatOr
  simp only [hnone]
  exact if_neg (ne_true_of_eq_false hrest)

end

/-- A command of a session that fits and is no repeat is accepted: the session takes its tag and counts it. -/
theorem State.repeatOr_accepted {s : State} {x : Session} {q : Req} {op : Nat} {p : Bytes} {w : Bool} (tag : Nat)
    (hfresh : s.isRepeat q x = false) (hx : s.session q.session = some x) (hfree : s.TakesCommands op)
    (hclass : opClass op = some w)
    (howner : s.hpi.ownerLock = true → (w = true → x.auth = true) ∧ op ≠ 0x0C00 ∧ op ≠ 0x0C03)
    (hlimit : x.auth = true → x.accepted < 32768) :
    s.repeatOr q op p (some x) (·.setSession (x.passed tag)) =
      ((s.setSession (x.passed tag)).setSession
        { x.passed tag with accepted := x.accepted + 1, lastT := s.utick }).enqueue q op p := by
  obtain ⟨hslot, hhandle, hauth, hacc⟩ := x.passed_kept tag
  have hy : (s.setSession (x.passed tag)).session q.session = some (x.passed tag) :=
    State.session_setSession hx hslot hhandle
  rw [State.repeatOr_fresh s hfresh, State.takeIn_accepted (s := s.setSession (x.passed tag)) hclass hfree, hy]
  · rw [← hacc]
    rfl
  · intro hl
    obtain ⟨hw, hops⟩ := howner hl
    refine ⟨fun hwt => ?_, hops⟩
    rw [State.authed, hy]
    exact hauth.trans (hw hwt)
  · intro y hy' hya
    rw [hy] at hy'
    obtain rfl := Option.some.inj hy'
    rw [hacc]
    exact hlimit (hauth ▸ hya)

/-! ### The SPI host port (R62 to R66) -/

theorem slice_zero (b : Bytes) (n : Nat) : slice b 0 n = b.take n ++ List.replicate (n - b.length) 0 := by
  refine List.ext_getElem (by simp [slice]; omega) fun i h1 h2 => ?_
  have hi : i < n := by simpa [slice] using h1
  by_cases hlt : i < b.length
  · rw [List.getElem_append_left (by simp; omega)]
    simp [slice, hlt]
  · rw [List.getElem_append_right (by simp; omega)]
    simp [slice, Nat.le_of_not_lt hlt]

section
variable (v : State) (n : Nat) {x : Bytes}

theorem State.spiTake_short (h : x.length < 16) : v.spiTake (n + 1) x = (v, x) := by
  rw [State.spiTake, if_pos h]

theorem State.spiTake_badHeader (h : 16 ≤ x.length) (hbad : headerOk x = false) :
    v.spiTake (n + 1) x = (v.receive .spi x, []) := by
  rw [State.spiTake, if_neg (by omega), if_pos (by simp [hbad])]

/-- A packet whose LENGTH no buffer holds: step 4 of R41 fails. -/
def overlongPkt (x : Bytes) : Prop :=
  4080 < (parsePkt x).len ∧ (parsePkt x).flags.getLsbD 3 = false ∧ x.getD 2 0 = 1

/-- The bytes a packet has. -/
def pktSize (x : Bytes) : Nat := 20 + (parsePkt x).len + (if (parsePkt x).flags.getLsbD 0 then 16 else 0)

theorem State.spiTake_goodHeader (h : 16 ≤ x.length) (hgood : headerOk x = true) : v.spiTake (n + 1) x =
    if 4080 < (parsePkt x).len && !(parsePkt x).flags.getLsbD 3 && x.getD 2 0 = 1 then (v.receive .spi x, [])
    else if x.length < pktSize x then (v, x)
    else (v.receive .spi (x.take (pktSize x))).spiTake n (x.drop (pktSize x)) := by
  rw [State.spiTake, if_neg (by omega), if_neg (by simp [hgood])]
  rfl

theorem overlongPkt_iff : overlongPkt x ↔
    (4080 < (parsePkt x).len && !(parsePkt x).flags.getLsbD 3 && x.getD 2 0 = 1) = true := by
  rw [overlongPkt, Bool.and_eq_true, Bool.and_eq_true, Bool.not_eq_true', decide_eq_true_eq, decide_eq_true_eq, and_assoc]

end

theorem noSessionOp_opClass {op : Nat} (h : op ≤ 3) : opClass op = some false := by
  interval_cases op <;> decide

theorem execSessionIdleClose_none {s : State} {slot t : Nat}
    (h : (s.at t).hpi.sessions.find? (·.slot = slot) = none) : exec (.sessionIdleClose slot t) s = .next (s.at t) := by
  show execSessionIdleClose slot t s = _
  simp only [execSessionIdleClose, h]

theorem execSessionIdleClose_some {s : State} {slot t : Nat} {x : Session}
    (h : (s.at t).hpi.sessions.find? (·.slot = slot) = some x) : exec (.sessionIdleClose slot t) s = .next
      (if x.idle ≠ 0 ∧ x.lastT + x.idle * 100000000 ≤ (s.at t).utick then
        ((s.at t).closeSession x.handle).ev 0x006 0 else s.at t) := by
  show execSessionIdleClose slot t s = _
  simp only [execSessionIdleClose, h, Bool.and_eq_true, decide_eq_true_eq]

theorem execPacketReceived_heard {s : State} {via : Transport} {b : Bytes} {t : Nat}
    (h : via = .spi ∨ ∃ x, via = .udp x ∧ (s.at t).ethOpen x.eth = true) :
    exec (.packetReceived via b t) s = .next ((s.at t).receive via b) := by
  obtain rfl | ⟨x, rfl, hopen⟩ := h
  · rfl
  · show execPacketReceived (.udp x) b t s = _
    simp only [execPacketReceived, hopen, if_true]

theorem execPacketReceived_closed {s : State} {via : Transport} {b : Bytes} {t : Nat} {x : UdpSource}
    (hvia : via = .udp x) (hclosed : (s.at t).ethOpen x.eth = false) :
    exec (.packetReceived via b t) s = .next (s.at t) := by
  subst hvia
  show execPacketReceived (.udp x) b t s = _
  simp only [execPacketReceived, hclosed]
  rfl

theorem execSpiReservedCode_zeros (s : State) (count : Nat) {code : Byte} (h : code = 0 ∨ 3 < code.toNat) :
    exec (.spiReservedCode code count) s =
      .next { s.spiBegin with hpi := { s.spiBegin.hpi with spiOut := List.replicate count 0 } } := by
  have hcode : ¬(1 ≤ code.toNat && code.toNat ≤ 3) = true := by
    rw [Bool.and_eq_true, decide_eq_true_eq, decide_eq_true_eq]
    obtain rfl | h := h
    · simp
    · omega
  exact congrArg Host.Outcome.next (if_neg hcode)

/-- The state in which a WRITE has counted the bytes beyond its credit. -/
def State.spiCredited (s : State) (b : Bytes) : State :=
  if 8232 - s.hpi.spiRx.length < b.length then (s.inc Addr.hpiSpiOvf).ev 0x384 0 else s

theorem State.spiCredited_spiRx (s : State) (b : Bytes) : (s.spiCredited b).hpi.spiRx = s.hpi.spiRx := by
  unfold State.spiCredited
  split <;> simp

/-- A WRITE of `b` that begins in `s`: the packets it completes are received, the bytes left stay in the buffer. -/
def State.spiWritten (s : State) (b : Bytes) : State × Bytes :=
  (s.spiCredited b).spiTake (b.length + 1) ((s.spiCredited b).hpi.spiRx ++ b.take (8232 - s.hpi.spiRx.length))

theorem execSpiWrite_eq (s : State) (b : Bytes) (t : Nat) : exec (.spiWrite b t) s =
    .next { ((s.at t).spiBegin.spiWritten b).1 with
      hpi := { ((s.at t).spiBegin.spiWritten b).1.hpi with spiRx := ((s.at t).spiBegin.spiWritten b).2 } } := rfl

theorem execSpiRead_none {s : State} {count : Nat} (h : s.hpi.spiQ = []) : exec (.spiRead count) s =
    .next { s.spiBegin with hpi := { s.spiBegin.hpi with spiOut := List.replicate count 0 } } := by
  show execSpiRead count s = _
  have hq : s.spiBegin.hpi.spiQ = [] := h
  simp only [execSpiRead, hq]

theorem execSpiRead_some {s : State} {count : Nat} {r : Reply} {rest : List Reply} (h : s.hpi.spiQ = r :: rest) :
    exec (.spiRead count) s = .next { s.spiBegin with hpi := { s.spiBegin.hpi with
      spiOut := r.bytes.take count ++ List.replicate (count - r.bytes.length) 0,
      spiQ := if r.bytes.length ≤ count then rest else r :: rest } } := by
  show execSpiRead count s = _
  have hq : s.spiBegin.hpi.spiQ = r :: rest := h
  simp only [execSpiRead, hq, slice_zero]

/-- Settles O24: the checks of R41 in their order, and the transfers of the SPI port. -/
theorem packetsAndTransfersOfTheHostPorts : Obligations.PacketsAndTransfersOfTheHostPorts := by
  unfold Obligations.PacketsAndTransfersOfTheHostPorts
  refine ⟨fun s via b t => ?_, fun s b t count => ?_⟩
  · intro k q auth good plain sound free waits
    refine ⟨fun hvia => ?_, fun x hvia hclosed => ?_, fun u => ?_, ?_⟩
    · exact execPacketReceived_heard hvia
    · exact execPacketReceived_closed hvia hclosed
    · have hgood : good ↔ headerOk b = true := (headerOk_iff b).symm
      have hsound : sound → soundPkt b := fun h => ⟨hgood.mp h.1.1, h.1.2, h.2⟩
      have hplain : plain → u.receive via b = _ := fun h => (u.receive_goodHeader via (hgood.mp h.1)).trans
        (if_neg (ne_true_of_eq_false h.2))
      refine ⟨fun h => ?_, fun h hreply => ?_, fun h hver => ?_, fun h hver hlen => ?_, fun h hver hlen hcrc => ?_,
        fun h hnone hsess => ?_, fun h hzero hop hnone hfree0 hfree => ?_, fun x h hx => ?_⟩
      · exact u.receive_badHeader via (by simpa [hgood] using h)
      · rw [u.receive_goodHeader via (hgood.mp h), if_pos hreply]
      · rw [hplain h, if_pos hver]
        rfl
      · rw [hplain h, if_neg (not_not.mpr hver), if_pos hlen]
        rfl
      · rw [hplain h, if_neg (not_not.mpr hver), if_neg (not_lt.mpr hlen), if_pos hcrc]
        rfl
      · rw [u.receive_sound via (hsound h), hnone, if_pos]
        · rfl
        simp only [Option.isSome_none, Bool.or_false, Bool.not_eq_true', ← Bool.not_eq_true, Bool.and_eq_true,
          decide_eq_true_eq, noSessionOp]
        exact hsess
      · have hbound : u.boundSession ((parsePkt b).req via).session ((parsePkt b).req via).via = none := by
          rw [← hnone]
          exact congrArg (u.boundSession · via) hzero
        have hopen : u.session ((parsePkt b).req via).session = none := by
          rw [← hfree0]
          exact congrArg u.session hzero
        rw [u.receive_sound via (hsound h), if_neg (by simp [noSessionOp, show (parsePkt b).session = 0 from hzero,
          show (parsePkt b).op ≤ 3 from hop]), State.authStep_none _ hbound,
          State.takeIn_accepted (noSessionOp_opClass hop) hfree, hopen]
        · rfl
        · exact fun _ => ⟨nofun, by omega, by omega⟩
        · rw [hopen]
          nofun
      · intro mac fits refused
        have hstep : u.receive via b = u.authStep k (k.req via) b := by
          rw [u.receive_sound via (hsound h), hx, if_neg (by simp)]
        have hbound : u.boundSession (k.req via).session (k.req via).via = some x := hx
        refine ⟨fun hfit hfew => ?_, fun hfit hmany => ?_, fun c hfit hc hloud => ?_,
          fun w hfit hfresh hsess hfree hclass howner hlimit => ?_⟩
        · rw [hstep, u.authStep_misfit hbound hfit, State.authFail]
          exact if_neg (not_le.mpr hfew)
        · rw [hstep, u.authStep_misfit hbound hfit, State.authFail]
          exact if_pos hmany
        · rw [hstep, u.authStep_fits hbound hfit]
          exact u.repeatOr_cached hc hloud
        · rw [hstep, u.authStep_fits hbound hfit]
          exact State.repeatOr_accepted k.tag.toNat hfresh hsess hfree hclass howner hlimit
    · intro u slot
      exact ⟨execSessionIdleClose_none, fun x => execSessionIdleClose_some⟩
  · intro word begun
    have hbegun : ∀ u : State, begun u = u.spiBegin := fun u => rfl
    refine ⟨rfl, fun code hcode => ?_, fun h => ?_, fun r rest h => ?_, ?_, fun v n x => ?_⟩
    · exact execSpiReservedCode_zeros s count hcode
    · exact execSpiRead_none h
    · exact execSpiRead_some h
    · intro u credit v w
      have hw : u.spiWritten b = w := by
        unfold State.spiWritten
        rw [State.spiCredited_spiRx]
        rfl
      rw [← hw]
      exact execSpiWrite_eq s b t
    · intro k good long len
      have hhead : 16 ≤ x.length → (good ↔ headerOk x = true) := fun h => by simp [headerOk_iff, h, good]
      have hlong : long ↔ _ := overlongPkt_iff (x := x)
      refine ⟨State.spiTake_short v n, fun h hbad => ?_, fun h hgood hl => ?_, fun h hgood hl hlt => ?_,
        fun h hgood hl hle => ?_⟩
      · exact State.spiTake_badHeader v n h (by simpa [hhead h] using hbad)
      all_goals rw [State.spiTake_goodHeader v n h ((hhead h).mp hgood)]
      · rw [if_pos (hlong.mp hl)]
      · exact (if_neg (mt hlong.mpr hl)).trans (if_pos hlt)
      · exact (if_neg (mt hlong.mpr hl)).trans (if_neg (not_lt.mpr hle))

end Sys2Proof.Machine
end

