-- ==== Sys2Proof/Proofs/RegisterOpcodes.lean ====
section
/-! SUPPORT. The REG opcodes check their addresses, wait for a swap, and then read or write word by word (R74, R78 to
R82). -/

namespace Sys2Proof.Machine

/-! ### Runs of words -/

theorem State.regReads_error {v t : State} {x e : Nat} (xs : Nats) (h : v.mgcRead x = (.error e, t)) :
    v.regReads (x :: xs) = ([], some e, t) := by
  rw [State.regReads, h]

theorem State.regReads_ok {v t z : State} {x : Nat} {xs : Nats} {w : Word} {b : Bytes} {e : Option Nat}
    (h : v.mgcRead x = (.ok w, t)) (hrest : t.regReads xs = (b, e, z)) :
    v.regReads (x :: xs) = (wordBytes w ++ b, e, z) := by
  rw [State.regReads, h]
  dsimp only
  rw [hrest]

theorem State.regWriteRun_eq {x : Nat} (v : State) (ws : Words) (h : mramOff x = none) :
    v.regWriteRun x ws = v.regWrites x ws := by
  rw [State.regWriteRun, h]

theorem State.regWrites_stop {v t : State} {x : Nat} {w : Word} (ws : Words) (h : v.mgcWrite x w = (false, t)) :
    v.regWrites x (w :: ws) = (0, false, t) := by
  rw [State.regWrites, h]

theorem State.regWrites_ok {v t z : State} {x k : Nat} {w : Word} {ws : Words} {ok : Bool}
    (h : v.mgcWrite x w = (true, t)) (hrest : t.regWrites (x + 4) ws = (k, ok, z)) :
    v.regWrites x (w :: ws) = (k + 1, ok, z) := by
  rw [State.regWrites, h]
  dsimp only
  rw [hrest]

section
variable {v t : State} (q : Req) (op : Nat) {as : Nats} {b : Bytes}

theorem State.replyReads_ok (h : v.regReads as = (b, none, t)) : v.replyReads q op as = t.ok q op b := by
  rw [State.replyReads, h]

theorem State.replyReads_error {e : Nat} (h : v.regReads as = (b, some e, t)) :
    v.replyReads q op as = t.reply q op e b := by
  rw [State.replyReads, h]

end

/-! ### The opcodes -/

theorem State.regStart_held {s : State} {q : Req} {op : Nat} {p : Bytes} {as : Nats} {f : State → State}
    (h : as.any s.mgcWaits = true) : s.regStart q op p as f = s.reWait op q p := if_pos h

theorem State.regStart_free {s : State} {q : Req} {op : Nat} {p : Bytes} {as : Nats} {f : State → State}
    (h : as.any s.mgcWaits = false) : s.regStart q op p as f = f s := if_neg (by simp [h])

section
variable {s : State} {q : Req} {p : Bytes}

/-- REG_READ on a range that is mapped. -/
theorem regRead_carries (hp : p.length = 8) (hn : field p 4 2 ≤ 1019) (hok : badRange (field p 0 4) (field p 4 2) = none) :
    s.Carries q 0x100 (.regRead q p) ((s.carry q).regStart q 0x0100 p (rangeAddrs (field p 0 4) (field p 4 2)) fun s =>
      s.replyReads q 0x0100 (rangeAddrs (field p 0 4) (field p 4 2))) := by
  refine State.carries_of_startLen_eq rfl hp ?_
  dsimp only
  rw [if_neg (by omega), hok]

theorem regRead_carries_bad {b : Nat} (hp : p.length = 8) (hn : field p 4 2 ≤ 1019)
    (hbad : badRange (field p 0 4) (field p 4 2) = some b) :
    s.Carries q 0x100 (.regRead q p) ((s.carry q).regRefuse q 0x0100 b) := by
  refine State.carries_of_startLen_eq rfl hp ?_
  dsimp only
  rw [if_neg (by omega), hbad]

theorem regWrite_carries_bad {b : Nat} (hp : p.length = 8 + 4 * field p 4 2)
    (hbad : badRange (field p 0 4) (field p 4 2) = some b) :
    s.Carries q 0x101 (.regWrite q p) ((s.carry q).regRefuse q 0x0101 b) := by
  refine State.carries_of_start_eq rfl ?_
  dsimp only
  rw [if_neg (by simp; omega), hbad]

theorem regWrite_carries_refused (hp : p.length = 8 + 4 * field p 4 2) (hn : 0 < field p 4 2)
    (hok : badRange (field p 0 4) (field p 4 2) = none) (hpm : (s.carry q).pmRefused (field p 0 4) (4 * field p 4 2) = true) :
    s.Carries q 0x101 (.regWrite q p) ((s.carry q).fail q 0x0101 0x20) := by
  refine State.carries_of_start_eq rfl ?_
  dsimp only
  rw [if_neg (by simp; omega), hok]
  dsimp only
  rw [if_neg (by omega), if_pos hpm]

/-- REG_WRITE on a mapped range that takes writes and that no swap holds: the reply says how far the run got. -/
theorem regWrite_carries {k : Nat} {ok : Bool} {t : State} (hp : p.length = 8 + 4 * field p 4 2) (hn : 0 < field p 4 2)
    (hok : badRange (field p 0 4) (field p 4 2) = none) (hpm : (s.carry q).pmRefused (field p 0 4) (4 * field p 4 2) = false)
    (hfree : (rangeAddrs (field p 0 4) (field p 4 2)).any (s.carry q).mgcWaits = false)
    (hrun : (s.carry q).regWriteRun (field p 0 4) (toWords (p.drop 8)) = (k, ok, t)) :
    s.Carries q 0x101 (.regWrite q p) (if ok then t.ok q 0x0101 else t.reply q 0x0101 0x0850 (leBytes 4 k)) := by
  refine State.carries_of_start_eq rfl ?_
  dsimp only
  rw [if_neg (by simp; omega), hok]
  dsimp only
  rw [if_neg (by omega), if_neg (by simp [hpm]), State.regStart_free hfree, hrun]
  cases ok <;> rfl

theorem regModify_carries_bad {b : Nat} (hp : p.length = 12) (hbad : badRange (field p 0 4) 1 = some b) :
    s.Carries q 0x102 (.regModify q p) ((s.carry q).regRefuse q 0x0102 b) := by
  refine State.carries_of_startLen_eq rfl hp ?_
  dsimp only
  rw [hbad]

theorem regModify_carries_refused (hp : p.length = 12) (hok : badRange (field p 0 4) 1 = none)
    (hno : noModify (field p 0 4) = true) : s.Carries q 0x102 (.regModify q p) ((s.carry q).fail q 0x0102 0x11) := by
  refine State.carries_of_startLen_eq rfl hp ?_
  dsimp only
  rw [hok]
  dsimp only
  rw [if_pos hno]

/-- REG_MODIFY replies the old value. -/
theorem regModify_carries {old : Word} {t v : State} (hp : p.length = 12) (hok : badRange (field p 0 4) 1 = none)
    (hno : noModify (field p 0 4) = false) (hpm : (s.carry q).pmRefused (field p 0 4) 4 = false)
    (hfree : (s.carry q).mgcWaits (field p 0 4) = false) (hread : (s.carry q).mgcRead (field p 0 4) = (.ok old, t))
    (hwrite : t.mgcWrite (field p 0 4) (modified old (wordAt p 4) (wordAt p 8)) = (true, v)) :
    s.Carries q 0x102 (.regModify q p) (v.ok q 0x0102 (wordBytes old)) := by
  refine State.carries_of_startLen_eq rfl hp ?_
  dsimp only
  rw [hok]
  dsimp only
  rw [if_neg (by simp [hno]), if_neg (by simp [hpm]), State.regStart_free (by simpa using hfree), hread]
  dsimp only
  rw [hwrite]

theorem regListRead_len (hp : p.length % 4 = 0) (hn : p.length ≤ 4 * 1019) :
    ¬(decide (p.length % 4 ≠ 0) || decide (1019 < ((toWords p).map BitVec.toNat).length)) = true := by
  have hlen : ((toWords p).map BitVec.toNat).length = (p.length + 3) / 4 := by simp [toWords]
  simp only [hlen, Bool.or_eq_true, decide_eq_true_eq]
  omega

theorem regListRead_carries_bad {b : Nat} (hp : p.length % 4 = 0) (hn : p.length ≤ 4 * 1019)
    (hbad : badAddr ((toWords p).map BitVec.toNat) = some b) :
    s.Carries q 0x103 (.regListRead q p) ((s.carry q).regRefuse q 0x0103 b) := by
  refine State.carries_of_start_eq rfl ?_
  dsimp only
  rw [if_neg (regListRead_len hp hn), hbad]

theorem regListRead_carries (hp : p.length % 4 = 0) (hn : p.length ≤ 4 * 1019)
    (hok : badAddr ((toWords p).map BitVec.toNat) = none)
    (hfree : ((toWords p).map BitVec.toNat).any (s.carry q).mgcWaits = false) :
    s.Carries q 0x103 (.regListRead q p) ((s.carry q).replyReads q 0x0103 ((toWords p).map BitVec.toNat)) := by
  refine State.carries_of_start_eq rfl ?_
  dsimp only
  rw [if_neg (regListRead_len hp hn), hok]
  exact State.regStart_free hfree

/-! ### REG_COMMIT and REG_POLL (R74) -/

theorem regCommit_carries_other (hp : p.length = 4) (hok : badRange (field p 0 4) 1 = none)
    (hno : commitBlock (field p 0 4) = none) : s.Carries q 0x104 (.regCommit q p) ((s.carry q).fail q 0x0104 0x11) := by
  refine State.carries_of_startLen_eq rfl hp ?_
  dsimp only
  rw [hok, hno]

theorem regCommit_carries {b : Block} (hp : p.length = 4) (hok : badRange (field p 0 4) 1 = none)
    (hb : commitBlock (field p 0 4) = some b) : s.Carries q 0x104 (.regCommit q p)
      (if ((s.carry q).commitOf b).isSome then (s.carry q).accept q 0x0104 [field p 0 4, 0]
        else ((s.carry q).accept q 0x0104 [field p 0 4, 1]).commitWr b) := by
  refine State.carries_of_startLen_eq rfl hp ?_
  dsimp only
  rw [hok, hb]

end

section
variable (u : State) (q : Req) (op : Nat) (args : Nats)

theorem State.OnlyReplied.accept : u.OnlyReplied (u.accept q op args) :=
  State.OnlyReplied.trans (State.OnlyReplied.reply u q op _ [] true) (Eq.refl _)

/-- A reply leaves the running LONG commands. -/
theorem State.reply_longs (status : Nat) (data : Bytes) (long : Bool) :
    (u.reply q op status data long).hpi.longs = u.hpi.longs := by
  rw [State.reply_eq, State.useLimit_hpi, State.replySent_hpi, State.replyCached_hpi]

/-- An accepted command runs as the youngest LONG command. -/
theorem State.accept_longs : (u.accept q op args).hpi.longs = u.hpi.longs ++ [⟨op, q, args, u.utick⟩] := by
  have hutick : (u.reply q op (stat op 1) [] true).utick = u.utick := by
    rw [State.OnlyReplied.reply u q op (stat op 1) [] true]
  show (u.reply q op (stat op 1) [] true).hpi.longs ++ [_] = _
  rw [u.reply_longs, hutick]

end

/-- One read of a running REG_POLL on memory that no swap holds. -/
theorem State.pollStep_read {w t : State} {l : Long} {v : Word} (hfree : w.mgcWaits (l.args.getD 0 0) = false)
    (hread : w.mgcRead (l.args.getD 0 0) = (.ok v, t)) : w.pollStep l =
      if v &&& BitVec.ofNat 32 (l.args.getD 1 0) = BitVec.ofNat 32 (l.args.getD 2 0) then t.pollEnd l v true
      else if l.args.getD 3 0 ≤ t.utick then t.pollEnd l v false
      else { t with hpi := { t.hpi with longs := t.hpi.longs.map fun x =>
        if x = l then { l with args := [l.args.getD 0 0, l.args.getD 1 0, l.args.getD 2 0, l.args.getD 3 0, v.toNat] }
        else x } } := by
  unfold State.pollStep
  dsimp only
  rw [if_neg (ne_true_of_eq_false hfree), hread]

/-- The LONG command that an accepted REG_POLL becomes. -/
def pollLong (u : State) (q : Req) (p : Bytes) : Long :=
  ⟨0x105, q, [field p 0 4, field p 4 4, field p 8 4, u.utick + 100000 * field p 12 2, 0], u.utick⟩

/-- REG_POLL is accepted and reads at once. -/
theorem regPoll_carries {s : State} {q : Req} {p : Bytes} (hp : p.length = 16) (hok : badRange (field p 0 4) 1 = none)
    (hms : field p 12 2 ≤ 60000) (hidle : (s.carry q).hpi.longs = []) : s.Carries q 0x105 (.regPoll q p)
      (((s.carry q).accept q 0x105 (pollLong (s.carry q) q p).args).pollStep (pollLong (s.carry q) q p)) := by
  refine State.carries_of_startLen_eq rfl hp ?_
  have hlongs := (s.carry q).accept_longs q 0x105 (pollLong (s.carry q) q p).args
  rw [hidle, List.nil_append] at hlongs
  have hfind : ((s.carry q).accept q 0x105 (pollLong (s.carry q) q p).args).hpi.longs.find?
      (fun l => l.req = q && l.opcode = 0x0105) = some (pollLong (s.carry q) q p) := by
    rw [hlongs]
    exact List.find?_cons_of_pos (by simp)
  unfold pollLong at hfind ⊢
  dsimp only at hfind ⊢
  rw [if_neg (by omega), hok, hfind]

theorem execRegPollTimeout_some {s : State} {q : Req} {t : Nat} {l : Long}
    (h : ((s.at t).longsOf 0x105).find? (fun l => l.req = q) = some l) : exec (.regPollTimeout q t) s =
      .next (if l.args.getD 3 0 ≤ (s.at t).utick then
        (s.at t).pollEnd l (BitVec.ofNat 32 (l.args.getD 4 0)) false else s.at t) := by
  show execRegPollTimeout q t s = _
  simp only [execRegPollTimeout, h]

/-- Settles O25: the addresses are checked, then the words are read or written one after another. -/
theorem registerOpcodesReadWriteAndPoll : Obligations.RegisterOpcodesReadWriteAndPoll := by
  unfold Obligations.RegisterOpcodesReadWriteAndPoll
  refine ⟨fun s q p => ?_, fun s q p => ?_⟩
  · intro u a n addrs refuse
    refine ⟨fun hp hn => ⟨fun b hbad => ?_, fun hok hheld => ?_, fun hok hfree => ⟨fun b t hr => ?_, fun b e t hr => ?_⟩⟩,
      fun v x xs => ⟨rfl, fun e t h => State.regReads_error xs h, fun w t b e z h hr => State.regReads_ok h hr⟩,
      fun hp hn => ⟨fun b hbad => ?_, fun hok hpm => ?_, fun hok hpm hfree => ⟨fun k t hr => ?_, fun k t hr => ?_⟩⟩,
      fun v x w ws hx => ⟨v.regWriteRun_eq [] hx, fun t h => ?_, fun t k ok z hx' h hr => ?_⟩,
      fun hp b hbad => regModify_carries_bad hp hbad, fun hp hok => ⟨fun hno => ?_, fun hno hpm hfree old t v hr hw => ?_⟩,
      fun hp hn => ⟨fun b hbad => ?_, fun hok hfree b t hr => ?_⟩⟩
    · exact regRead_carries_bad hp hn hbad
    · have h := regRead_carries (s := s) (q := q) hp hn hok
      rwa [State.regStart_held hheld] at h
    · have h := regRead_carries (s := s) (q := q) hp hn hok
      rwa [State.regStart_free hfree, State.replyReads_ok _ _ hr] at h
    · have h := regRead_carries (s := s) (q := q) hp hn hok
      rwa [State.regStart_free hfree, State.replyReads_error _ _ hr] at h
    · exact regWrite_carries_bad hp hbad
    · exact regWrite_carries_refused hp hn hok hpm
    · exact regWrite_carries hp hn hok hpm hfree hr
    · exact regWrite_carries hp hn hok hpm hfree hr
    · rw [v.regWriteRun_eq _ hx]
      exact State.regWrites_stop ws h
    · rw [State.regWriteRun_eq _ _ hx'] at hr
      rw [v.regWriteRun_eq _ hx]
      exact State.regWrites_ok h hr
    · exact regModify_carries_refused hp hok hno
    · exact regModify_carries hp hok hno hpm hfree hr hw
    · exact regListRead_carries_bad hp hn hbad
    · have h := regListRead_carries (s := s) (q := q) hp hn hok hfree
      rwa [State.replyReads_ok _ _ hr] at h
  · intro u a
    refine ⟨fun hp hok => ⟨fun hno => regCommit_carries_other hp hok hno, fun b hb hnone => ?_, fun b c hb hc => ?_⟩,
      fun hp hok hms hidle hfree => ?_, fun t l => ?_⟩
    · have h := regCommit_carries (s := s) (q := q) hp hok hb
      rwa [hnone] at h
    · have h := regCommit_carries (s := s) (q := q) hp hok hb
      rwa [hc] at h
    · intro ms args w l v t hr hut
      have h : s.Carries q 0x105 (.regPoll q p) (w.pollStep l) := regPoll_carries hp hok hms hidle
      have hwaits : w.mgcWaits (l.args.getD 0 0) = false := by
        rw [show w = _ from State.OnlyReplied.accept u q 0x105 args]
        exact hfree
      have hstep := State.pollStep_read hwaits hr
      have hpast : l.args.getD 3 0 ≤ t.utick ↔ ms = 0 := by
        rw [hut]
        show u.utick + 100000 * ms ≤ u.utick ↔ ms = 0
        omega
      refine ⟨fun hm => ?_, fun hm hz => ?_, fun hm hz => ?_⟩
      · rw [hstep.trans (if_pos hm)] at h
        exact h
      · rw [hstep.trans ((if_neg hm).trans (if_pos (hpast.mpr hz)))] at h
        exact h
      · rw [hstep.trans ((if_neg hm).trans (if_neg (mt hpast.mp hz)))] at h
        exact h
    · intro v hl
      rw [execRegPollTimeout_some hl]
      exact ⟨fun hle => congrArg _ (if_pos hle), fun hlt => congrArg _ (if_neg (not_le.mpr hlt))⟩

end Sys2Proof.Machine
end

