-- ==== Sys2Proof/Proofs/RegisterAccesses.lean ====
section
/-! SUPPORT. A register write by its access type, and the reads that latch a high half (R6, R7, R52, R88, R197, R610,
R611). -/

namespace Sys2Proof.Machine

/-! ### Writes (R6, R7, R88) -/

theorem RegRow.getLsbD_after (r : RegRow) (old v : Word) {i : Nat} (hi : i < 32) :
    (r.after old v).getLsbD i =
      ((if (r.rw ||| r.stg).testBit i then v.getLsbD i else old.getLsbD i) && !(v.getLsbD i && r.w1c.testBit i)) := by
  simp only [RegRow.after, BitVec.getLsbD_and, BitVec.getLsbD_or, BitVec.getLsbD_not, BitVec.getLsbD_ofNat, hi,
    decide_true, Bool.true_and]
  cases (r.rw ||| r.stg).testBit i <;> simp

theorem getLsbD_eq_bitsOf (w : Word) (i : Nat) : w.getLsbD i = decide (bitsOf w i i = 1) := by
  rw [bitsOf, show i + 1 - i = 1 by omega, pow_one, BitVec.getLsbD, Nat.testBit_eq_decide_div_mod_eq]

theorem ctx4Prio_other {a : Nat} (w : Word) (h : a ≠ Addr.ctxCtrl 4) : ctx4Prio a w = w := if_neg h

theorem ctx4Prio_prio {a : Nat} (w : Word) (h : a = Addr.ctxCtrl 4) : bitsOf (ctx4Prio a w) 5 0 = 63 := by
  rw [ctx4Prio, if_pos h]
  exact bitsOf_setBits_same w 63 (by decide) (by decide)

theorem ctx4Prio_above (a : Nat) (w : Word) {i : Nat} (hi : 6 ≤ i) :
    (ctx4Prio a w).getLsbD i = w.getLsbD i := by
  unfold ctx4Prio
  split
  · rw [getLsbD_eq_bitsOf, getLsbD_eq_bitsOf, bitsOf_setBits_above (hi := 5) w 63 (by decide) (by decide) (by omega)]
  · rfl

theorem stampRow (n : Nat) (h : n < 32) : ∃ r, regRow (Addr.shStampLo n) = some r ∧ r.commit = false := by
  have hall : ∀ n < 32, (regRow (Addr.shStampLo n)).any (!·.commit) = true := by decide +kernel
  have := hall n h
  cases hr : regRow (Addr.shStampLo n) with
  | none => simp [hr] at this
  | some r => exact ⟨r, rfl, by simpa [hr] using this⟩

theorem txPendRow (n : Nat) (h : n < 16) : ∃ r, regRow (Addr.fbpTxpendLo n) = some r ∧ r.commit = false := by
  have hall : ∀ n < 16, (regRow (Addr.fbpTxpendLo n)).any (!·.commit) = true := by decide +kernel
  have := hall n h
  cases hr : regRow (Addr.fbpTxpendLo n) with
  | none => simp [hr] at this
  | some r => exact ⟨r, rfl, by simpa [hr] using this⟩

section
variable (s : State) {a : Nat} {v : Word} {r : RegRow}

theorem State.writeReg_reserved (h : regRow a = none) : s.writeReg a v = s := by
  simp only [State.writeReg, h]

theorem State.writeReg_stop (h : regRow a = some r) (hc : r.commit = false) (hstop : r.stop = true) (hop : s.op ≠ .stop) :
    s.writeReg a v = s := by
  simp [State.writeReg, h, hc, hstop, hop]

theorem State.writeReg_hook {t : State} (h : regRow a = some r) (hc : r.commit = false)
    (hopen : r.stop = false ∨ s.op = .stop) (hook : s.writeHook a v = some t) : s.writeReg a v = t := by
  have hstop : ¬(r.stop && s.op ≠ .stop) = true := by
    obtain h | h := hopen <;> simp [h]
  simp only [State.writeReg, h, hc, hook]
  exact if_neg hstop

theorem State.writeReg_typed (h : regRow a = some r) (hc : r.commit = false)
    (hopen : r.stop = false ∨ s.op = .stop) (hook : s.writeHook a v = none) :
    s.writeReg a v = s.wr a (ctx4Prio a (r.after (s.rd a) v)) := by
  have hstop : ¬(r.stop && s.op ≠ .stop) = true := by
    obtain h | h := hopen <;> simp [h]
  simp only [State.writeReg, h, hc, hook]
  exact if_neg hstop

end

theorem execRegisterWrite_free {s : State} {a : Nat} (v : Word) (hmap : mapped a = true) (hlow : a < 0x100000)
    (hfree : s.mgcWaits a = false) : exec (.registerWrite a v) s = .next (s.writeReg a v) := by
  show execRegisterWrite a v s = _
  rw [execRegisterWrite, if_pos (by simp [hmap, hlow]), if_neg (by simp [hfree])]

theorem execRegisterWrite_held {s : State} {a : Nat} (v : Word) (hmap : mapped a = true) (hlow : a < 0x100000)
    (hheld : s.mgcWaits a = true) : exec (.registerWrite a v) s = .next (s.holdAccess (.write a v)) := by
  show execRegisterWrite a v s = _
  rw [execRegisterWrite, if_pos (by simp [hmap, hlow]), if_pos hheld]

/-! ### Reads that latch (R611) -/

theorem execLoRegisterRead_read {s : State} {rd : Reader} {a : Nat} (hpair : (pairHi a).isNone = false)
    (hlow : a < 0xD0000) : exec (.loRegisterRead rd a) s = .next (s.readReg rd a).2 := by
  show execLoRegisterRead rd a s = _
  rw [execLoRegisterRead, if_neg (by simp [hpair]), if_neg (by simp; omega)]

theorem State.readReg_dtime (s : State) (rd : Reader) : (s.readReg rd Addr.sysDtimeLo).2 =
    s.setLatch rd Addr.sysDtimeLo (BitVec.ofNat 32 (s.dtime / 2 ^ 32)) := rfl

theorem State.readReg_rtcStamp (s : State) (rd : Reader) : (s.readReg rd Addr.rtcStampLo).2 =
    s.setLatch rd Addr.rtcStampLo (s.rd Addr.rtcStampHi) := rfl

section
variable (s : State) (rd : Reader) {a : Nat} {r : RegRow} (hrow : regRow a = some r) (hc : r.commit = false)
include hrow hc

theorem State.readReg_shaft (hlo : 0x10400 ≤ a) (hhi : a < 0x10800) (hoff : a % 32 = 0x18) :
    (s.readReg rd a).2 = s.setLatch rd a (s.rd (a + 4)) := by
  have hdtime : ¬(a = Addr.sysDtimeLo || a = Addr.sysDtimeHi) = true := by
    simp [Addr.sysDtimeLo, Addr.sysDtimeHi]
    omega
  simp only [State.readReg, hrow]
  rw [if_neg (ne_true_of_eq_false hc), if_neg hdtime, if_neg (by simp; omega), if_neg (by simp; omega),
    if_pos (by simp [hoff]; omega)]

theorem State.readReg_port (hlo : 0x40000 ≤ a) (hhi : a < 0x44000) (hoff : a % 1024 = 0x34) :
    (s.readReg rd a).2 = s.setLatch rd a (s.txPend ((a - 0x40000) / 1024) 1) := by
  have hdtime : ¬(a = Addr.sysDtimeLo || a = Addr.sysDtimeHi) = true := by
    simp [Addr.sysDtimeLo, Addr.sysDtimeHi]
    omega
  simp only [State.readReg, hrow]
  rw [if_neg (ne_true_of_eq_false hc), if_neg hdtime, if_neg (by simp; omega), if_neg (by simp; omega),
    if_neg (by simp; omega), if_neg (by simp; omega), if_pos (by simp [hoff]; omega)]

end

theorem execLoRegisterRead_shStamp (s : State) (rd : Reader) {n : Nat} (hn : n < 32) :
    exec (.loRegisterRead rd (Addr.shStampLo n)) s =
      .next (s.setLatch rd (Addr.shStampLo n) (s.rd (Addr.shStampHi n))) := by
  obtain ⟨r, hrow, hc⟩ := stampRow n hn
  have hpair : ∀ n < 32, (pairHi (Addr.shStampLo n)).isNone = false := by decide
  have ha : Addr.shStampLo n = 0x10418 + 32 * n := rfl
  have hhi : Addr.shStampHi n = Addr.shStampLo n + 4 := by rw [ha, Nat.add_right_comm]
  rw [execLoRegisterRead_read (hpair n hn) (by omega),
    s.readReg_shaft rd hrow hc (by omega) (by omega) (by omega), hhi]

theorem execLoRegisterRead_txPend (s : State) (rd : Reader) {n : Nat} (hn : n < 16) :
    exec (.loRegisterRead rd (Addr.fbpTxpendLo n)) s = .next (s.setLatch rd (Addr.fbpTxpendLo n) (s.txPend n 1)) := by
  obtain ⟨r, hrow, hc⟩ := txPendRow n hn
  have hpair : ∀ n < 16, (pairHi (Addr.fbpTxpendLo n)).isNone = false := by decide
  have ha : Addr.fbpTxpendLo n = 0x40034 + 1024 * n := rfl
  rw [execLoRegisterRead_read (hpair n hn) (by omega),
    s.readReg_port rd hrow hc (by omega) (by omega) (by omega), show (Addr.fbpTxpendLo n - 0x40000) / 1024 = n by omega]

/-! ### Debug access (R52, R610) -/

section
variable {s : State} {a : Nat} {wr : Option Word}

theorem execJtagDebugAccess_locked (h : s.hpi.ownerLock = true) : exec (.jtagDebugAccess a wr) s = .next s := by
  show execJtagDebugAccess a wr s = _
  rw [execJtagDebugAccess, if_pos (by simp [h])]

theorem execJtagDebugAccess_held (h : s.hpi.ownerLock = false) (hmap : mapped a = true) (hheld : s.mgcWaits a = true) :
    exec (.jtagDebugAccess a wr) s = .next (s.holdAccess (.jtag a wr)) := by
  show execJtagDebugAccess a wr s = _
  rw [execJtagDebugAccess, if_neg (by simp [h, hmap]), if_pos hheld]

theorem execJtagDebugAccess_open (h : s.hpi.ownerLock = false) (hmap : mapped a = true) (hfree : s.mgcWaits a = false) :
    exec (.jtagDebugAccess a wr) s = .next (s.jtagAccess a wr) := by
  show execJtagDebugAccess a wr s = _
  rw [execJtagDebugAccess, if_neg (by simp [h, hmap]), if_neg (by simp [hfree])]

end

/-- Settles O26: a write by the access type of its register, the reads that latch, and debug access. -/
theorem registerAccessesFollowTheirTypes : Obligations.RegisterAccessesFollowTheirTypes := by
  unfold Obligations.RegisterAccessesFollowTheirTypes
  refine ⟨fun s a v hmap hlow => ⟨fun hheld => execRegisterWrite_held v hmap hlow hheld, fun hfree => ?_⟩, fun s rd => ?_⟩
  · rw [execRegisterWrite_free v hmap hlow hfree]
    refine ⟨fun h => ?_, fun r h hc b hb => ?_, fun r h hc hstop hop => ?_, fun r h hc hopen hook => ?_,
      fun r t h hc hopen hook => ?_⟩
    · rw [s.writeReg_reserved h]
    · rw [s.writeReg_commitBlock hb]
    · rw [s.writeReg_stop h hc hstop hop]
    · refine ⟨ctx4Prio a (r.after (s.rd a) v), by rw [s.writeReg_typed h hc hopen hook], ctx4Prio_prio _, fun i hi hbit => ?_⟩
      rw [← r.getLsbD_after (s.rd a) v hi]
      obtain hne | h6 := hbit
      · rw [ctx4Prio_other _ hne]
      · exact ctx4Prio_above a _ h6
    · rw [s.writeReg_hook h hc hopen hook]
  · refine ⟨?_, ?_, fun n hn => ?_, fun n hn => ?_, fun a h => ?_, fun a wr h => execJtagDebugAccess_locked h,
      fun a wr h hmap hheld => execJtagDebugAccess_held h hmap hheld, fun a w t h hmap hfree hr => ?_,
      fun a v ok t h hmap hfree hpm hw => ?_, fun a v hmem hpm hfree => ?_, rfl⟩
    · rw [execLoRegisterRead_read (by decide) (by decide), s.readReg_dtime]
    · rw [execLoRegisterRead_read (by decide) (by decide), s.readReg_rtcStamp]
    · exact execLoRegisterRead_shStamp s rd hn
    · exact execLoRegisterRead_txPend s rd hn
    · show execLoRegisterRead rd a s = _
      rw [execLoRegisterRead, if_pos (by simp [h])]
    · rw [execJtagDebugAccess_open h hmap hfree, State.jtagAccess]
      simp only [hr]
    · rw [execJtagDebugAccess_open h hmap hfree, State.jtagAccess]
      have hopen : ¬(memOf a = 0 && s.pmRefused a 4) = true := by
        obtain h | h := hpm <;> simp [h]
      exact congrArg Host.Outcome.next ((if_neg hopen).trans (by rw [hw]))
    · show execJtagDebugAccess a (some v) s = _
      have hsame : s.jtagAccess a (some v) = s := if_pos (by simp [hmem, hpm])
      rw [execJtagDebugAccess, hsame, if_neg (ne_true_of_eq_false hfree), ite_self]

end Sys2Proof.Machine
end

