-- ==== Sys2Proof/Proofs/CommitsAndTicks.lean ====
section
/-! SUPPORT. Commits at their safe points (R9, R71 to R73, R94, R196), and the management tick (R16, R55, R57). -/

namespace Sys2Proof.Machine

theorem State.blk_of_commitOf {s : State} {b : Block} {c : Commit} (h : s.commitOf b = some c) : c.blk = b := by
  simpa using List.find?_some h

section
variable {s : State} {b : Block} {c : Commit} {t : Nat}

theorem State.commitWr_request (hnone : s.commitOf b = none)
    (hswap : ¬(b = .se ∧ (s.se.swap.chamber = .armed ∨ s.se.swap.chamber = .swapping))) :
    s.commitWr b = { s with commits := s.commits ++ [⟨b, s.staged b, s.utick⟩] } := by
  have hreq : s.commitReq b = { s with commits := s.commits ++ [⟨b, s.staged b, s.utick⟩] } := if_neg (by simp [hnone])
  rw [State.commitWr, if_neg (by simp [hnone]), if_neg (by simpa using hswap), hreq]

theorem State.commitWr_swap (hnone : s.commitOf .se = none)
    (hswap : s.se.swap.chamber = .armed ∨ s.se.swap.chamber = .swapping) :
    s.commitWr .se = s.commitReject .se 0x20 Addr.seCommit := by
  rw [State.commitWr, if_neg (by simp [hnone]), if_pos (by simpa using hswap)]

theorem State.commitAt_some (h : s.commitOf b = some c) : s.commitAt b = s.commitRun c := by
  simp only [State.commitAt, h]

/-- A block's own safe point (R72, R94). -/
theorem State.ownSafe_iff (h : s.commitOf b = some c) : s.ownSafe c = true ↔
    (b = .se ∧ s.op = .run ∧ s.slack 2000 = true) ∨ b = .ixe ∨
      ∃ n, (b = .fbp n ∨ b = .stn n) ∧ s.elevenBits n c.t = true := by
  have hb := State.blk_of_commitOf h
  unfold State.ownSafe
  rw [hb]
  cases b <;> simp

theorem execCommitApply_some (h : (s.at t).commitOf b = some c) : exec (.commitApply b t) s =
    .next (if (s.at t).ownSafe c then (s.at t).commitAt b else s.at t) := by
  show execCommitApply b t s = _
  rw [State.commitAt_some h]
  simp only [execCommitApply, h]

theorem execCommitApply_none (h : (s.at t).commitOf b = none) : exec (.commitApply b t) s = .next (s.at t) := by
  show execCommitApply b t s = _
  simp only [execCommitApply, h]

theorem execCommitTimeout_some (h : (s.at t).commitOf b = some c) : exec (.commitTimeout b t) s =
    .next (if c.t + 1000000000 ≤ (s.at t).utick then (s.at t).commitReject b 0x20 (commitAddr b) else s.at t) := by
  show execCommitTimeout b t s = _
  simp only [execCommitTimeout, h]

theorem State.commitRun_bad {e : Nat} (h : s.blockCheck c.blk c.staged = some e) :
    s.commitRun c = s.commitReject c.blk 0x60 e := by
  simp only [State.commitRun, h]

theorem State.commitRun_good (h : s.blockCheck c.blk c.staged = none) :
    s.commitRun c = ((s.putLive c).blockApply c.blk s.live).commitDone c.blk 0 [] := by
  simp only [State.commitRun, h]

end

/-- Settles O27: a request, the safe point, the check, the rejection, and the time-out. -/
theorem commitsApplyWholeOrReject : Obligations.CommitsApplyWholeOrReject := by
  unfold Obligations.CommitsApplyWholeOrReject
  intro s b a t u own
  refine ⟨fun ha => ⟨fun hnone hswap => ?_, fun hb hnone hswap => ?_⟩, fun c hc hown => ?_, fun c hc hown => ?_,
    fun hnone => execCommitApply_none hnone, fun c hc => ⟨fun e he => ?_, fun he => ?_⟩, fun low addr => ?_,
    fun c hc => ⟨fun hle => ?_, fun hlt => ?_⟩⟩
  · rw [exec_commitWrite_commitBlock s ha, State.commitWr_request hnone hswap]
  · subst hb
    rw [exec_commitWrite_commitBlock s ha, State.commitWr_swap hnone hswap]
  · rw [execCommitApply_some hc, if_pos ((State.ownSafe_iff hc).mpr hown)]
  · rw [execCommitApply_some hc, if_neg (mt (State.ownSafe_iff hc).mp hown)]
  · rw [State.commitAt_some hc, State.commitRun_bad he]
  · rw [State.commitAt_some hc, State.commitRun_good he]
  · refine ⟨_, rfl, fun hrtc => ?_⟩
    rw [decide_eq_false hrtc]
    rfl
  · rw [execCommitTimeout_some hc, if_pos hle]
  · rw [execCommitTimeout_some hc, if_neg (not_le.mpr hlt)]

/-! ### The management tick -/

theorem State.startCmd_ping {v : State} {c : Cmd} (h : c.opcode = 0) : v.startCmd c = cmdSysPing c.req c.data v := by
  unfold State.startCmd
  rw [h]
  rfl

/-- Settles O30: the tick is its parts one after another; a waiting SYS_PING starts as `start` says. -/
theorem managementTickStartsWaitingCommands : Obligations.ManagementTickStartsWaitingCommands := by
  unfold Obligations.ManagementTickStartsWaitingCommands
  intro s t u safe commits v
  refine ⟨?_, fun v c hc hstarts hlen => ?_⟩
  · have hsafe : safe = State.tickSafe := by
      funext s b
      cases b <;> rfl
    have hcommits : commits = u.tickCommits := by
      show u.commits.foldl (fun s c => if safe s c.blk then s.commitAt c.blk else s) u = _
      rw [hsafe]
      rfl
    show Host.Outcome.next u.tickCommits.ethTick.evrClearPlace.polls.startWaiting.wdtFirmware.autorun = _
    rw [← hcommits]
    rfl
  · rw [State.startCmd_ping hc, cmdSysPing, State.start_of_starts hstarts, if_pos hlen]

end Sys2Proof.Machine
end

