-- ==== Sys2Proof/Proofs/HardwareQueues.lean ====
section
/-! SUPPORT. The QUE opcodes, and the queue registers QnPUSH and QnDATA_LO (R83, R197, R270, R484, R488 to R492). -/

namespace Sys2Proof.Machine

/-! ### The opcodes (R83, R491) -/

section
variable {s : State} {q : Req} {p : Bytes}

section
variable (hp : p.length = 4)
include hp

theorem quePop_carries (hn : (p.getD 0 0).toNat ≤ 31) (hmode : (p.getD 1 0).toNat ≤ 1) (hmax : field p 2 2 ≤ 509)
    {t : State} (h : (if (s.carry q).swapping then (s.carry q).reWait 0x0D01 q p else
      let r := (s.carry q).quePopAll (p.getD 0 0).toNat (p.getD 1 0).toNat (field p 2 2)
      r.2.2.reply q 0x0D01 (if r.1 then 0x0D00 else 0x0850) (r.2.1.flatMap (leBytes 8))) = t) :
    s.Carries q 0xD01 (.quePop q p) t := by
  refine State.carries_of_startLen_eq rfl hp (.trans ?_ h)
  dsimp only
  exact if_neg (by simp only [Bool.or_eq_true, decide_eq_true_eq]; omega)

theorem queClear_carries {t : State} (h : (if (maskList 32 (field p 0 4)).any fun n =>
      ((s.carry q).queue n).opened.isSome || (s.carry q).qHasDma n then (s.carry q).fail q 0x0D04 0x31
    else ((maskList 32 (field p 0 4)).foldl (fun s n => s.qEmpty n) (s.carry q)).ok q 0x0D04) = t) :
    s.Carries q 0xD04 (.queClear q p) t :=
  State.carries_of_startLen_eq rfl hp h

end

/-- QUE_PUSH and QUE_PUSH_PACKET while a swap runs, and otherwise. -/
theorem quePush_carries {t : State}
    (h : (if (s.carry q).swapping then (s.carry q).reWait 0x0D02 q p else (s.carry q).mgcPush 0x0D02 q p) = t) :
    s.Carries q 0xD02 (.quePush q p) t :=
  State.carries_of_start_eq rfl h

theorem quePushPacket_carries {t : State}
    (h : (if (s.carry q).swapping then (s.carry q).reWait 0x0D03 q p else (s.carry q).mgcPush 0x0D03 q p) = t) :
    s.Carries q 0xD03 (.quePushPacket q p) t :=
  State.carries_of_start_eq rfl h

end

/-- A payload QUE_PUSH and QUE_PUSH_PACKET take: a queue that exists, and 0 to 1,018 words. -/
def PushPayload (p : Bytes) : Prop :=
  (4 ≤ p.length ∧ p.length % 4 = 0 ∧ p.length ≤ 4 + 4 * 1018) ∧ (p.getD 0 0).toNat ≤ 31

section
variable {u t : State} {q : Req} {p : Bytes} (op : Nat) (hp : PushPayload p)
include hp

/-- Another producer's packet makes the MGC wait (R491). -/
theorem State.mgcPush_foreign (hforeign : u.qForeign (p.getD 0 0).toNat 0xF0 = true) : u.mgcPush op q p =
    { u.inc Addr.queRefused with hpi := { (u.inc Addr.queRefused).hpi with
      longs := (u.inc Addr.queRefused).hpi.longs ++ [⟨op, q, p.map (·.toNat), (u.inc Addr.queRefused).utick⟩] } } := by
  obtain ⟨⟨hmin, hmod, hmax⟩, hn⟩ := hp
  rw [State.mgcPush, if_neg (by simp [pushLen, hmin, hmod, hmax]), if_neg (not_lt.mpr hn)]
  exact if_pos hforeign

theorem State.mgcPush_own (hforeign : u.qForeign (p.getD 0 0).toNat 0xF0 = false) : u.mgcPush op q p =
    if op = 0x0D02 then u.quePushRun q p else u.quePacketRun q p := by
  obtain ⟨⟨hmin, hmod, hmax⟩, hn⟩ := hp
  rw [State.mgcPush, if_neg (by simp [pushLen, hmin, hmod, hmax]), if_neg (not_lt.mpr hn)]
  exact if_neg (ne_true_of_eq_false hforeign)

end

section
variable {u t : State} {q : Req} {p : Bytes} {k : Nat} {r : PushRes}

theorem State.quePushRun_disabled (hen : u.qEn (p.getD 0 0).toNat = false) :
    u.quePushRun q p = u.reply q 0xD02 0x0D20 [0, 0, 0, 0] := by
  unfold State.quePushRun
  exact if_pos (by simpa using hen)

theorem State.quePacketRun_disabled (hen : u.qEn (p.getD 0 0).toNat = false) :
    u.quePacketRun q p = u.reply q 0xD03 0x0D20 [0, 0, 0, 0, 0] := by
  unfold State.quePacketRun
  exact if_pos (by simpa using hen)

variable (hen : u.qEn (p.getD 0 0).toNat = true)
include hen

theorem State.quePushRun_enabled (hpush : u.qPushAll (p.getD 0 0).toNat 0xF0 (toWords (p.drop 4)) = (k, r, t)) :
    u.quePushRun q p = t.reply q 0xD02 (if r = .done then 0x0D00 else 0x0D30) (leBytes 4 k) := by
  unfold State.quePushRun
  dsimp only
  rw [hen, if_neg (by simp), show mgcSrc = 0xF0 from rfl, hpush]
  dsimp only
  split <;> rfl

theorem State.quePacketRun_done (hpush : u.qPacket (p.getD 0 0).toNat 0xF0 (toWords (p.drop 4)) = (k, .done, t)) :
    u.quePacketRun q p = t.reply q 0xD03 0x0D00 (leBytes 4 k ++ [0]) := by
  unfold State.quePacketRun
  dsimp only
  rw [hen, if_neg (by simp), show mgcSrc = 0xF0 from rfl, hpush]
  rfl

theorem State.quePacketRun_truncated
    (hpush : u.qPacket (p.getD 0 0).toNat 0xF0 (toWords (p.drop 4)) = (k, .truncated, t)) :
    u.quePacketRun q p = t.reply q 0xD03 0x0D30 (leBytes 4 k ++ [1]) := by
  unfold State.quePacketRun
  dsimp only
  rw [hen, if_neg (by simp), show mgcSrc = 0xF0 from rfl, hpush]
  rfl

end

theorem execQuePushWaitTimeout_some {s : State} {q : Req} {l : Long} {t : Nat}
    (h : (s.at t).hpi.longs.find? (fun l => (l.opcode = 0xD02 || l.opcode = 0xD03) && l.req = q) = some l) :
    exec (.quePushWaitTimeout q t) s = .next (if (s.at t).utick < l.t + 100 then s.at t else
      (({ s.at t with hpi := { (s.at t).hpi with longs := (s.at t).hpi.longs.filter (· ≠ l) } } : State).reply q l.opcode
        0x0D31 [])) := by
  have hop : l.opcode = 0xD02 ∨ l.opcode = 0xD03 := by
    have := List.find?_some h
    simp only [Bool.and_eq_true, Bool.or_eq_true, decide_eq_true_eq] at this
    exact this.1
  have hstat : stat l.opcode 0x31 = 0x0D31 := by
    obtain h | h := hop <;> rw [h] <;> rfl
  show execQuePushWaitTimeout q t s = _
  simp only [execQuePushWaitTimeout, h, State.fail, hstat]

/-! ### The registers (R484, R488, R492) -/

section
variable {s : State} {n : Nat} (hn : n < 32) (v : Word) (rd : Reader)
include hn

theorem execQnpush_held (h : s.swapping = true) : exec (.qnpush n v) s = .next (s.holdAccess (.write (Addr.qPush n) v)) := by
  show execQnpush n v s = _
  rw [execQnpush, if_neg (by omega), if_pos h]

theorem execQnpush_free (h : s.swapping = false) : exec (.qnpush n v) s = .next (s.qnPush n v) := by
  show execQnpush n v s = _
  rw [execQnpush, if_neg (by omega), if_neg (ne_true_of_eq_false h)]

theorem execQndataLoRead_held (h : s.swapping = true) :
    exec (.qndataLoRead rd n) s = .next (s.holdAccess (.lo rd (Addr.qDataLo n))) := by
  show execQndataLoRead rd n s = _
  rw [execQndataLoRead, if_neg (by omega), if_pos h]

theorem execQndataLoRead_free (h : s.swapping = false) : exec (.qndataLoRead rd n) s = .next (s.qDataLo rd n).2 := by
  show execQndataLoRead rd n s = _
  rw [execQndataLoRead, if_neg (by omega), if_neg (ne_true_of_eq_false h)]

end

section
variable (s : State) (n : Nat) (v : Word) (rd : Reader) {t : State}

theorem State.qnPush_of_qPush {r : PushRes} (h : s.qPush n 0xF0 v = (r, t)) :
    s.qnPush n v = if r = .refused then t.inc Addr.queRefused else t := by
  unfold State.qnPush
  rw [show mgcSrc = 0xF0 from rfl, h]
  cases r <;> rfl

theorem State.qDataLo_some {w : Nat} (h : s.qPop (readerWho rd) n = (some w, t)) :
    (s.qDataLo rd n).2 = t.setLatch rd (Addr.qDataLo n) (BitVec.ofNat 32 (w / 2 ^ 32)) := by
  unfold State.qDataLo
  rw [h]

theorem State.qDrop_again (h : (s.queue n).overrun = true) :
    s.qDrop n = s.setQueue n { s.queue n with overrun := true } :=
  if_neg (by simp [h])

theorem State.qDrop_first (h : (s.queue n).overrun = false) :
    s.qDrop n = (s.setQueue n { s.queue n with overrun := true }).ev 0x340 n :=
  if_pos (by simp [h])

end

theorem leNat_lt (bs : Bytes) : leNat bs < 256 ^ bs.length := by
  induction bs with
  | nil => decide
  | cons b bs ih =>
    rw [leNat, List.length_cons, pow_succ]
    have := b.isLt
    omega

/-- Bits 63:32 of QDATA: the position, the queue, HEAD, LAST and VALID. -/
theorem qData_high (k : Nat) (m : QMark) {bs : Bytes} (h : bs.length = 4) : qData k m bs / 2 ^ 32 =
    m.remain + k * 2 ^ 16 + b2n m.head * 2 ^ 29 + b2n m.last * 2 ^ 30 + 2 ^ 31 := by
  have hlt := leNat_lt bs
  rw [h] at hlt
  unfold qData
  omega

theorem execRxQueueWaitTimeout_some {s : State} {port t : Nat} {w : QWait}
    (h : (s.at t).qWaits.find? (fun w => w.port = port && w.t + 100 ≤ (s.at t).utick) = some w) :
    exec (.rxQueueWaitTimeout ⟨port, t⟩) s = .next ((({ s.at t with qWaits := (s.at t).qWaits.filter (· ≠ w) } : State).inc
      (Addr.fbpRxQloss port)).ev 0x108 port) := by
  show execRxQueueWaitTimeout ⟨port, t⟩ s = _
  simp only [execRxQueueWaitTimeout, h]
  rfl

theorem execRxQueueWaitTimeout_none {s : State} {port t : Nat}
    (h : (s.at t).qWaits.find? (fun w => w.port = port && w.t + 100 ≤ (s.at t).utick) = none) :
    exec (.rxQueueWaitTimeout ⟨port, t⟩) s = .next (s.at t) := by
  show execRxQueueWaitTimeout ⟨port, t⟩ s = _
  simp only [execRxQueueWaitTimeout, h]

/-- Settles O31: the opcodes push and pop through the operations of the queue, and the registers do too. -/
theorem hardwareQueuesPushAndPop : Obligations.HardwareQueuesPushAndPop := by
  unfold Obligations.HardwareQueuesPushAndPop
  refine ⟨fun s q p => ?_, fun s n v rd hn => ?_⟩
  · intro u n mask ws lenOk
    refine ⟨fun hp => ⟨State.carries_of_startLen_eq rfl hp rfl, fun hn hmode hmax => ⟨fun hsw => ?_, fun vs t hsw hpop => ?_,
      fun vs t hsw hpop => ?_⟩, fun hfree => ?_, fun hbusy => ?_⟩, fun hsw => ⟨?_, ?_⟩, fun hlen hn hsw hforeign => ?_,
      fun hlen hn hsw hforeign hen => ⟨?_, ?_⟩, fun hlen hn hsw hforeign hen =>
        ⟨fun k t hpush => ?_, fun k r t hpush hr => ?_, fun k t hpush => ?_, fun k t hpush => ?_⟩, fun l t => ?_⟩
    · exact quePop_carries hp hn hmode hmax (if_pos hsw)
    · refine quePop_carries hp hn hmode hmax ((if_neg (ne_true_of_eq_false hsw)).trans ?_)
      rw [hpop]
      rfl
    · refine quePop_carries hp hn hmode hmax ((if_neg (ne_true_of_eq_false hsw)).trans ?_)
      rw [hpop]
      rfl
    · refine queClear_carries hp (if_neg fun hany => ?_)
      obtain ⟨k, hk, hbusy⟩ := List.any_eq_true.mp hany
      obtain ⟨hclosed, hdma⟩ : ((s.carry q).queue k).opened = none ∧ (s.carry q).qHasDma k = false := hfree k hk
      simp [hclosed, hdma] at hbusy
    · obtain ⟨k, hk, hbusy⟩ := hbusy
      refine queClear_carries hp (if_pos (List.any_eq_true.mpr ⟨k, hk, ?_⟩))
      rwa [Bool.or_eq_true, Option.isSome_iff_ne_none]
    · exact quePush_carries (if_pos hsw)
    · exact quePushPacket_carries (if_pos hsw)
    · exact ⟨quePush_carries ((if_neg (ne_true_of_eq_false hsw)).trans (u.mgcPush_foreign 0xD02 ⟨hlen, hn⟩ hforeign)),
        quePushPacket_carries ((if_neg (ne_true_of_eq_false hsw)).trans (u.mgcPush_foreign 0xD03 ⟨hlen, hn⟩ hforeign))⟩
    · refine quePush_carries ((if_neg (ne_true_of_eq_false hsw)).trans ?_)
      exact (u.mgcPush_own 0xD02 ⟨hlen, hn⟩ hforeign).trans (u.quePushRun_disabled hen)
    · refine quePushPacket_carries ((if_neg (ne_true_of_eq_false hsw)).trans ?_)
      exact (u.mgcPush_own 0xD03 ⟨hlen, hn⟩ hforeign).trans (u.quePacketRun_disabled hen)
    · refine quePush_carries ((if_neg (ne_true_of_eq_false hsw)).trans ?_)
      exact (u.mgcPush_own 0xD02 ⟨hlen, hn⟩ hforeign).trans (u.quePushRun_enabled hen hpush)
    · refine quePush_carries ((if_neg (ne_true_of_eq_false hsw)).trans ?_)
      rw [u.mgcPush_own 0xD02 ⟨hlen, hn⟩ hforeign, if_pos rfl, u.quePushRun_enabled hen hpush, if_neg hr]
    · refine quePushPacket_carries ((if_neg (ne_true_of_eq_false hsw)).trans ?_)
      exact (u.mgcPush_own 0xD03 ⟨hlen, hn⟩ hforeign).trans (u.quePacketRun_done hen hpush)
    · refine quePushPacket_carries ((if_neg (ne_true_of_eq_false hsw)).trans ?_)
      exact (u.mgcPush_own 0xD03 ⟨hlen, hn⟩ hforeign).trans (u.quePacketRun_truncated hen hpush)
    · intro v hl
      rw [execQuePushWaitTimeout_some hl]
      exact ⟨fun hlt => congrArg _ (if_pos hlt), fun hle => congrArg _ (if_neg (not_lt.mpr hle))⟩
  · intro e u
    refine ⟨fun hsw => ⟨execQnpush_held hn v hsw, execQndataLoRead_held hn rd hsw⟩, fun hsw => ?_,
      fun port t w h => execRxQueueWaitTimeout_some h, fun port t h => execRxQueueWaitTimeout_none h⟩
    rw [execQnpush_free hn v hsw, execQndataLoRead_free hn rd hsw]
    have hzero (hnone : s.qEn n = false ∨ e.marks = []) :
        (s.qDataLo rd n).2 = s.setLatch rd (Addr.qDataLo n) 0 := by
      rw [s.qDataLo_some n rd (s.qPop_nothing _ n hnone)]
      rfl
    refine ⟨fun hen => ⟨?_, congrArg _ (hzero (.inl hen))⟩, fun hen hopen hroom => ?_, fun hen hopen hfull hover => ?_,
      fun hen hopen hfull hover => ?_, fun o m hen hopen ho => ?_, fun hen hmarks => congrArg _ (hzero (.inr hmarks)),
      fun m ms bs t hen hmarks hm hbs hread => ?_⟩
    · rw [s.qnPush_of_qPush n v (s.qPush_disabled n 0xF0 v hen), if_neg nofun]
    · rw [s.qnPush_of_qPush n v (s.qPush_loose n 0xF0 v hen hopen hroom), if_neg nofun]
    · rw [s.qnPush_of_qPush n v (s.qPush_full n 0xF0 v hen hopen hfull), if_neg nofun, s.qDrop_again n hover]
    · rw [s.qnPush_of_qPush n v (s.qPush_full n 0xF0 v hen hopen hfull), if_neg nofun, s.qDrop_first n hover]
    · rw [s.qnPush_of_qPush n v (s.qPush_foreign n 0xF0 v hen hopen ho), if_pos rfl]
    · rw [s.qDataLo_some n rd (s.qPop_word _ n hen hmarks hm hread), qData_high n m hbs]

end Sys2Proof.Machine
end

