-- ==== Sys2Proof/Proofs/DmaChannels.lean ====
section
/-! SUPPORT. A DMA channel starts, stops, and copies words between two ranges of an undamaged DM (R495 to R499). -/

namespace Sys2Proof.Machine

/-! ### Words as bytes -/

theorem leBytes_leNat (bs : Bytes) : leBytes bs.length (leNat bs) = bs := by
  induction bs with
  | nil => rfl
  | cons b bs ih =>
    have hb := b.isLt
    have hlow : BitVec.ofNat 8 (b.toNat + 256 * leNat bs) = b := by
      apply BitVec.eq_of_toNat_eq
      rw [BitVec.toNat_ofNat]
      omega
    have hhigh : (b.toNat + 256 * leNat bs) / 256 = leNat bs := by omega
    rw [List.length_cons, leNat, leBytes, hhigh, ih, hlow]

theorem wordBytes_wordAt {b : Bytes} (h : b.length = 4) : wordBytes (wordAt b 0) = b := by
  have hslice : slice b 0 4 = b := by
    rw [slice_zero, h, List.take_of_length_le (by omega)]
    simp
  have hlt := leNat_lt b
  rw [h] at hlt
  rw [wordBytes, wordAt, field, hslice, BitVec.toNat_ofNat, Nat.mod_eq_of_lt (by omega)]
  conv => lhs; rw [← h]
  exact leBytes_leNat b

/-! ### Start and stop (R495, R496, R498) -/

section
variable {s : State} {c : Nat} (hc : c < 32)
include hc

theorem execDmacGoStart_idle (hidle : s.dmaActive c = false) (hen : s.lf (Addr.dmaCfg c) 0 0 = 1)
    (hlen : s.fld (Addr.dmaLen c) 23 0 ≠ 0) : exec (.dmacGoStart c) s =
      .next (((s.wr (Addr.dmaCount c) 0).wr (Addr.dmaStat c) 1).setDma c
        { src := s.rdN (Addr.dmaSrc c), dst := s.rdN (Addr.dmaDst c), len := s.fld (Addr.dmaLen c) 23 0 }) := by
  have hsrc : (s.wr (Addr.dmaCount c) 0).rdN (Addr.dmaSrc c) = s.rdN (Addr.dmaSrc c) :=
    congrArg BitVec.toNat (State.rd_wr_other _ _ (by simp only [Addr.dmaSrc, Addr.dmaCount]; omega))
  have hdst : (s.wr (Addr.dmaCount c) 0).rdN (Addr.dmaDst c) = s.rdN (Addr.dmaDst c) :=
    congrArg BitVec.toNat (State.rd_wr_other _ _ (by simp only [Addr.dmaDst, Addr.dmaCount]; omega))
  show execDmacGoStart c s = _
  rw [execDmacGoStart, if_pos hc, State.dmaStart, if_neg (by simp [hidle, hen])]
  dsimp only
  rw [if_neg hlen, hsrc, hdst]

theorem execDmacGoStart_refused (h : s.dmaActive c = true ∨ s.lf (Addr.dmaCfg c) 0 0 = 0) :
    exec (.dmacGoStart c) s = .next s := by
  show execDmacGoStart c s = _
  rw [execDmacGoStart, if_pos hc, State.dmaStart, if_pos (by simpa using h)]

theorem execDmacGoStop_eq : exec (.dmacGoStop c) s =
    .next (if s.dmaActive c then s.dmaHalt c 5 (s.dmaNext c) else s) := by
  show execDmacGoStop c s = _
  rw [execDmacGoStop, if_pos hc]
  rfl

omit hc in
theorem execDmaBurst_swapping (h : s.se.swap.chamber = .swapping) : exec (.dmaBurst c) s = .next s := by
  show execDmaBurst c s = _
  rw [execDmaBurst, if_pos (by simp [h])]

end

/-! ### A turn of KIND 0 (R496, R497, R499) -/

/-- `v` is `s` with `i` words more of the channel's transfer moved, from DM offset `src` to `dst`. -/
structure Copied (s : State) (c src dst len k i : Nat) (v : State) : Prop where
  only : v = { s with dm := v.dm, regs := v.regs, dmas := v.dmas }
  src_eq : (v.dma c).src = dmBase + src
  dst_eq : (v.dma c).dst = dmBase + dst
  len_eq : (v.dma c).len = len
  gather_nil : (v.dma c).gather = []
  closed : (v.dma c).opened = false
  count_eq : v.fld (Addr.dmaCount c) 23 0 = k + i
  stat_eq : v.rd (Addr.dmaStat c) = s.rd (Addr.dmaStat c)
  bytes : ∀ x, sget 0 v.dm x =
    if dst + 4 * k ≤ x ∧ x < dst + 4 * (k + i) then sget 0 s.dm (src + (x - dst)) else sget 0 s.dm x

/-- Two word-aligned ranges of DM that do not overlap. -/
structure DmRanges (src dst len : Nat) : Prop where
  src_aligned : src % 4 = 0
  dst_aligned : dst % 4 = 0
  src_inside : src + 4 * len ≤ 0x800000
  dst_inside : dst + 4 * len ≤ 0x800000
  apart : src + 4 * len ≤ dst ∨ dst + 4 * len ≤ src

section
variable {s v : State} {c src dst len k i : Nat}

theorem State.dma_setDma (t : State) (d : Dma) : (t.setDma c d).dma c = d := sget_sput_self _ _ _ _

theorem Copied.moved (h : Copied s c src dst len k i v) : v.dmaMoved c = k + i := by
  rw [State.dmaMoved, h.count_eq, h.gather_nil]
  rfl

theorem Copied.undamaged (h : Copied s c src dst len k i v) (hs : s.Undamaged) : v.Undamaged := by
  rw [h.only]
  exact hs

theorem Copied.kind (h : Copied s c src dst len k i v) : v.dmaKind c = s.dmaKind c := by
  rw [h.only]
  rfl

theorem Copied.active (h : Copied s c src dst len k i v) : v.dmaActive c = s.dmaActive c := by
  rw [State.dmaActive, State.dmaActive, State.fld_congr h.stat_eq]

theorem State.readBytes_dm (hclean : v.Undamaged) (who : MemReader) {a : Nat} (ha : a < 0x800000) :
    v.readBytes who (dmBase + a) 4 = (some (memBytes v.dm a 4), v) := hclean.dmRead_eq who ha 4

theorem dmaRegEnd_dm (a : Nat) : dmaRegEnd (dmBase + a) = none := by
  unfold dmaRegEnd
  rw [if_neg (by simp [dmBase]; omega), if_neg (by simp [dmBase]; omega)]

theorem State.dmaRead_dm (hclean : v.Undamaged) {a : Nat} (ha : a < 0x800000) (hmod : a % 4 = 0) :
    v.dmaRead c (dmBase + a) = (.ok (wordAt (memBytes v.dm a 4) 0), v) := by
  have hmem := memOf_dm ha
  unfold State.dmaRead
  rw [if_neg (by simp only [dmBase]; omega), if_neg (by simp [dmaRegEnd_dm]), if_pos (by simp [hmem]), v.readBytes_dm hclean _ ha]

theorem State.dmaPut_dm (hclean : v.Undamaged) {a : Nat} (ha : a < 0x800000) (w : Word) (last : Bool) :
    v.dmaPut c (dmBase + a) w last = ({ v with dm := memPut v.dm a (wordBytes w) } : State).setFld (Addr.dmaCount c) 23 0
      (v.fld (Addr.dmaCount c) 23 0 + 1) := by
  have hmem := memOf_dm ha
  have hwrite : v.writeBytes (.dma c) (dmBase + a) (wordBytes w) = { v with dm := memPut v.dm a (wordBytes w) } :=
    hclean.dmWrite_eq (.dma c) ha (wordBytes w)
  unfold State.dmaPut
  rw [if_pos hmem, hwrite]
  rfl

variable (hr : DmRanges src dst len) (hs : s.Undamaged)
include hr hs

/-- One word more is copied. -/
theorem Copied.step (h : Copied s c src dst len k i v) (hlt : k + i < len) :
    ∃ w, v.dmaCopy c = (true, w) ∧ Copied s c src dst len k (i + 1) w := by
  obtain ⟨hsa, hda, hsi, hdi, hapart⟩ := hr
  have hclean := h.undamaged hs
  have hread : v.dmaRead c ((v.dma c).src + 4 * (k + i)) =
      (.ok (wordAt (memBytes v.dm (src + 4 * (k + i)) 4) 0), v) := by
    rw [h.src_eq, Nat.add_assoc]
    exact State.dmaRead_dm hclean (by omega) (by omega)
  have hok : dmaDstOk ((v.dma c).dst + 4 * (k + i)) = true := by
    rw [h.dst_eq, Nat.add_assoc, dmaDstOk, memOf_dm (by omega)]
    simp only [dmBase, Bool.and_eq_true, decide_eq_true_eq]
    exact ⟨by omega, rfl⟩
  have hlen4 : (memBytes v.dm (src + 4 * (k + i)) 4).length = 4 := by simp [memBytes]
  have hcopy : v.dmaCopy c = (true, ({ v with dm := memPut v.dm (dst + 4 * (k + i)) (memBytes v.dm (src + 4 * (k + i)) 4) } :
      State).setFld (Addr.dmaCount c) 23 0 (k + i + 1)) := by
    unfold State.dmaCopy
    dsimp only
    rw [h.moved, hread]
    dsimp only
    rw [if_pos hok, h.dst_eq, Nat.add_assoc, State.dmaPut_dm hclean (by omega), wordBytes_wordAt hlen4, h.count_eq]
  refine ⟨_, hcopy, ⟨?_, h.src_eq, h.dst_eq, h.len_eq, h.gather_nil, h.closed, ?_, ?_, fun x => ?_⟩⟩
  · rw [h.only]
    rfl
  · refine (State.fld_setFld_same _ _ _ (by decide) (by decide)).trans ((Nat.mod_eq_of_lt ?_).trans (Nat.add_assoc k i 1))
    show k + i + 1 < 2 ^ 24
    omega
  · exact (State.rd_wr_other _ _ (by simp only [Addr.dmaStat, Addr.dmaCount]; omega)).trans h.stat_eq
  · show sget 0 (memPut v.dm (dst + 4 * (k + i)) (memBytes v.dm (src + 4 * (k + i)) 4)) x = _
    rw [sget_memPut, hlen4]
    by_cases hx : dst + 4 * (k + i) ≤ x ∧ x < dst + 4 * (k + i) + 4
    · rw [if_pos hx, if_pos (by omega), memBytes_getD _ _ _ (by omega), h.bytes, if_neg (by omega)]
      congr 1
      omega
    · rw [if_neg hx, h.bytes]
      by_cases hin : dst + 4 * k ≤ x ∧ x < dst + 4 * (k + i)
      · rw [if_pos hin, if_pos (by omega)]
      · rw [if_neg hin, if_neg (by omega)]

/-- A turn of up to `n` words copies them, and ends the transfer when it meets its end with words to spare. -/
theorem Copied.turn (hactive : s.dmaActive c = true) (hkind : s.dmaKind c = 0) (n : Nat) (h : Copied s c src dst len k i v)
    (hle : k + i ≤ len) : ∃ w j, Copied s c src dst len k j w ∧ j = min (i + n) (len - k) ∧
      (State.dmaTurn n v c = w ∨ k + j = len ∧ State.dmaTurn n v c = w.dmaDone c) := by
  induction n generalizing i v with
  | zero => exact ⟨v, i, h, by omega, .inl rfl⟩
  | succ n ih =>
    have hgo : (!v.dmaActive c) = false := by rw [h.active, hactive]; rfl
    by_cases hlt : k + i < len
    · obtain ⟨w, hcopy, hw⟩ := h.step hr hs hlt
      obtain ⟨z, j, hz, hj, hend⟩ := ih hw hlt
      have hturn : State.dmaTurn (n + 1) v c = State.dmaTurn n w c := by
        rw [State.dmaTurn, if_neg (ne_true_of_eq_false hgo), h.len_eq, h.moved, if_neg (by omega), h.kind, hkind]
        dsimp only
        rw [hcopy]
        rfl
      exact ⟨z, j, hz, by omega, by rwa [hturn]⟩
    · refine ⟨v, i, h, by omega, .inr ⟨by omega, ?_⟩⟩
      rw [State.dmaTurn, if_neg (ne_true_of_eq_false hgo), h.len_eq, h.moved, if_pos (by omega)]

end

/-! ### The end of the transfer -/

theorem State.Undamaged.fence_eq {t : State} (h : t.Undamaged) : t.fence = t := by
  obtain ⟨-, -, -, hsplice, -⟩ := h
  rw [State.fence, hsplice]
  rfl

/-- A transfer without gathered words and without an open packet ends in DONE. -/
theorem Copied.done {s v : State} {c src dst len k i : Nat} (h : Copied s c src dst len k i v) (hs : s.Undamaged) :
    v.dmaDone c = ({ v with dmas := sdel v.dmas c } : State).wr (Addr.dmaStat c) 2 := by
  have hissue : v.dmaIssue c = v := by
    unfold State.dmaIssue
    dsimp only
    rw [h.gather_nil]
    rfl
  have hclean : (({ v with dmas := sdel v.dmas c } : State).wr (Addr.dmaStat c) 2).Undamaged := h.undamaged hs
  have hopen : v.when (v.dma c).opened (·.qClose (v.dmaQ c) false) = v := if_neg (ne_true_of_eq_false h.closed)
  unfold State.dmaDone
  rw [hissue]
  dsimp only
  rw [hopen]
  exact hclean.fence_eq

section
variable {s : State} {c src dst len k : Nat}

/-- The first turn marks the transfer as started. -/
theorem Copied.start (hsrc : (s.dma c).src = dmBase + src) (hdst : (s.dma c).dst = dmBase + dst)
    (hlen : (s.dma c).len = len) (hgather : (s.dma c).gather = []) (hopened : (s.dma c).opened = false)
    (hcount : s.fld (Addr.dmaCount c) 23 0 = k) :
    Copied s c src dst len k 0 (if (s.dma c).started then s else s.setDma c { s.dma c with started := true }) := by
  have hbytes : ∀ x, sget 0 s.dm x =
      if dst + 4 * k ≤ x ∧ x < dst + 4 * (k + 0) then sget 0 s.dm (src + (x - dst)) else sget 0 s.dm x :=
    fun x => by rw [if_neg (by omega)]
  split
  · exact ⟨rfl, hsrc, hdst, hlen, hgather, hopened, hcount, rfl, hbytes⟩
  · have hd := s.dma_setDma (c := c) { s.dma c with started := true }
    exact ⟨rfl, by rw [hd]; exact hsrc, by rw [hd]; exact hdst, by rw [hd]; exact hlen, by rw [hd]; exact hgather,
      by rw [hd]; exact hopened, hcount, rfl, hbytes⟩

theorem execDmaBurst_dm (hc : c < 32) (hactive : s.dmaActive c = true) (hchamber : s.se.swap.chamber ≠ .swapping)
    (hsrc : (s.dma c).src = dmBase + src) {t : State}
    (hturn : State.dmaTurn 8 (if (s.dma c).started then s else s.setDma c { s.dma c with started := true }) c = t) :
    exec (.dmaBurst c) s = .next (if t.dmaActive c && (t.dma c).len ≤ t.dmaMoved c then t.dmaDone c else t) := by
  have hcheck : s.dmaRegCheck c = none := by
    unfold State.dmaRegCheck
    dsimp only
    rw [hsrc, dmaRegEnd_dm]
  have hnone : (if (s.dma c).started then none else s.dmaRegCheck c) = none := by rw [hcheck, ite_self]
  show execDmaBurst c s = _
  unfold execDmaBurst
  rw [if_neg (by simp [hactive, hchamber]; omega)]
  dsimp only
  rw [hnone, hturn]

end

/-- Settles O32. -/
theorem dmaChannelsStartStopAndMove : Obligations.DmaChannelsStartStopAndMove := by
  unfold Obligations.DmaChannelsStartStopAndMove
  intro s c hc
  refine ⟨fun hidle hen hlen => execDmacGoStart_idle hc hidle hen hlen, fun h => execDmacGoStart_refused hc h,
    fun hidle => ?_, fun hactive => ?_, fun h => execDmaBurst_swapping h, ?_⟩
  · rw [execDmacGoStop_eq hc, if_neg (ne_true_of_eq_false hidle)]
  · rw [execDmacGoStop_eq hc, if_pos hactive]
  intro k src dst len hactive hchamber hs hkind hsrc hdst hlen hgather hopened hsa hda hsi hdi hapart hcount hlt m
  have hr : DmRanges src dst len := ⟨hsa, hda, hsi, hdi, hapart⟩
  obtain ⟨w, j, hw, hj, hend⟩ := (Copied.start hsrc hdst hlen hgather hopened hcount).turn hr hs hactive hkind 8 (by omega)
  have hjm : j = m := by
    show j = min 8 (len - k)
    omega
  rw [hjm] at hw hend
  have hle : k + m ≤ len := by
    show k + min 8 (len - k) ≤ len
    omega
  have hburst : exec (.dmaBurst c) s = .next (if k + m = len then w.dmaDone c else w) := by
    have hlast : (w.dmaActive c && (w.dma c).len ≤ w.dmaMoved c) = decide (k + m = len) := by
      rw [hw.active, hactive, hw.len_eq, hw.moved, Bool.true_and, decide_eq_decide]
      omega
    obtain ht | ⟨hall, ht⟩ := hend
    · rw [execDmaBurst_dm hc hactive hchamber hsrc ht, hlast]
      simp only [decide_eq_true_eq]
    · have hover : (w.dmaDone c).dmaActive c = false := by
        rw [hw.done hs, State.dmaActive, State.fld, State.rd_wr_self]
        rfl
      rw [execDmaBurst_dm hc hactive hchamber hsrc ht, hover, if_pos hall]
      rfl
  have hbytes : (∀ j, j < 4 * m → sget 0 w.dm (dst + 4 * k + j) = sget 0 s.dm (src + 4 * k + j)) ∧
      ∀ x, x < dst + 4 * k ∨ dst + 4 * (k + m) ≤ x → sget 0 w.dm x = sget 0 s.dm x := by
    refine ⟨fun j hj => ?_, fun x hx => ?_⟩
    · rw [hw.bytes, if_pos (by omega)]
      congr 1
      omega
    · rw [hw.bytes, if_neg (by omega)]
  refine ⟨_, hburst, ?_⟩
  by_cases hall : k + m = len
  · rw [if_pos hall, hw.done hs]
    refine ⟨?_, fun _ => ?_, fun hless => absurd hall (by omega), hbytes.1, hbytes.2, ?_, ?_, ?_, ?_⟩
    · refine (State.fld_congr (State.rd_wr_other _ _ ?_) 23 0).trans hw.count_eq
      simp only [Addr.dmaStat, Addr.dmaCount]
      omega
    · rw [State.rdN, State.rd_wr_self]
      rfl
    all_goals
      rw [hw.only]
      rfl
  · rw [if_neg hall]
    refine ⟨hw.count_eq, fun h => absurd h hall, fun _ => hw.stat_eq, hbytes.1, hbytes.2, ?_, ?_, ?_, ?_⟩
    all_goals rw [hw.only]

end Sys2Proof.Machine
end

