-- ==== Sys2Proof/Proofs/MemoryIntegrity.lean ====
section
/-! SUPPORT. The ends of rebuilds, the test window, the splice buffer, raw access and the scrub (R421 to R443). -/

namespace Sys2Proof.Machine

/-! ### Rebuilds (R423, R427) -/

section
variable {s : State} (a : Nat)

theorem State.readFailed_mgcOwn (t : State) : t.readFailed .mgcOwn a = (t.ev 0x203 a).enterFault 0x203 := rfl

theorem State.readFailed_seFetch {t : State} {n : Nat} (h : t.se.active = some n) :
    t.readFailed .seFetch a = t.integrity n 0 := by
  simp only [State.readFailed, h]

theorem State.readFailed_seData {t : State} {n : Nat} (h : t.se.active = some n) :
    t.readFailed .seData a = t.integrity n 1 := by
  simp only [State.readFailed, h]

variable {a} (hmem : memOf a ≠ 3) (ha : a % 8 = 0) (hgood : sget 0 s.miu.chk a = 0)
include hmem ha hgood

theorem execRebuildEnd_rebuilt : exec (.rebuildEnd .seData a true) s = .next (s.countRebuild a (s.rawWord a)) := by
  have haddr : a / 8 * 8 = a := by omega
  show execRebuildEnd .seData a true s = _
  unfold execRebuildEnd
  dsimp only
  rw [haddr, if_neg hmem, if_neg (by simp), if_neg (not_not.mpr hgood), if_pos rfl]

/-- A flagged word without recorded damage that cannot be rebuilt: the number of flagged words is a free value. -/
theorem execRebuildEnd_lost {rd : MemReader} (hrd : rd = .mgcCommand ∨ rd = .mgcOwn ∨ rd = .seFetch ∨ rd = .seData) :
    exec (.rebuildEnd rd a false) s = .next ((s.free.2.unrebuildable (memSrc rd) (memUnit rd) (s.errCtx rd)
      (1 + s.free.1 % 66) (decide (1 + s.free.1 % 66 < 3)) a).readFailed rd a) := by
  have haddr : a / 8 * 8 = a := by omega
  obtain rfl | rfl | rfl | rfl := hrd
  all_goals
    show execRebuildEnd _ a false s = _
    unfold execRebuildEnd
    dsimp only
    rw [haddr, if_neg hmem, if_neg (by simp), if_neg (not_not.mpr hgood), if_neg (by simp)]
    rfl

end

section
variable {s : State} {a : Nat} (hmem : memOf a ≠ 3) (ha : a % 8 = 0) (hgood : sget 0 s.miu.chk a = 0)
include hmem ha hgood

/-- An unrebuildable word as its reader records it: SRC, UNITNO, CTX, and a free number of flagged words. -/
def State.lostWord (s : State) (src unit ctx a : Nat) : State :=
  s.free.2.unrebuildable src unit ctx (1 + s.free.1 % 66) (decide (1 + s.free.1 % 66 < 3)) a

theorem execRebuildEnd_mgcCommand : exec (.rebuildEnd .mgcCommand a false) s = .next (s.lostWord 4 0 0 a) :=
  execRebuildEnd_lost hmem ha hgood (.inl rfl)

theorem execRebuildEnd_mgcOwn : exec (.rebuildEnd .mgcOwn a false) s =
    .next (((s.lostWord 4 0 0 a).ev 0x203 a).enterFault 0x203) := by
  rw [← State.readFailed_mgcOwn]
  exact execRebuildEnd_lost hmem ha hgood (.inr (.inl rfl))

variable {n : Nat} (hn : s.se.active = some n)
include hn

omit hmem ha hgood in
theorem State.lostWord_active (src unit ctx : Nat) : (s.lostWord src unit ctx a).se.active = some n :=
  (congrArg Se.active (unreb_se _ _ _ _ _ _ _)).trans hn

theorem execRebuildEnd_seFetch : exec (.rebuildEnd .seFetch a false) s = .next ((s.lostWord 1 0 n a).integrity n 0) := by
  have hctx : s.errCtx .seFetch = n := by simp [State.errCtx, hn]
  have hlost := execRebuildEnd_lost hmem ha hgood (.inr (.inr (.inl (Eq.refl MemReader.seFetch))))
  rw [hctx] at hlost
  rw [← State.readFailed_seFetch a (State.lostWord_active hn 1 0 n)]
  exact hlost

theorem execRebuildEnd_seData : exec (.rebuildEnd .seData a false) s = .next ((s.lostWord 2 0 n a).integrity n 1) := by
  have hctx : s.errCtx .seData = n := by simp [State.errCtx, hn]
  have hlost := execRebuildEnd_lost hmem ha hgood (.inr (.inr (.inr (Eq.refl MemReader.seData))))
  rw [hctx] at hlost
  rw [← State.readFailed_seData a (State.lostWord_active hn 2 0 n)]
  exact hlost

end

theorem execRebuildEnd_parity {s : State} {a k : Nat} (b : Bool) (hmem : memOf (a / 8 * 8) = 3)
    (hunit : s.parUnit a = some k) : exec (.rebuildEnd .mgcCommand a b) s =
      .next { s with se := { s.se with parBad := k :: s.se.parBad.filter (· ≠ k) } } := by
  show execRebuildEnd .mgcCommand a b s = _
  unfold execRebuildEnd
  dsimp only
  rw [if_pos hmem, hunit]
  rfl

/-! ### The test window and the splice buffer (R430, R435) -/

section
variable {s : State} {v : Word}

theorem execMiuTestWrite_ignored (h : s.op ≠ .stop ∨ bitsOf v 2 1 = 3 ∨ 64 < bitsOf v 31 25) :
    exec (.miuTestWrite v) s = .next s := by
  refine congrArg Host.Outcome.next (if_pos ?_)
  simpa [or_assoc] using h

theorem execMiuTestWrite_opens (hop : s.op = .stop) (hmem : bitsOf v 2 1 ≠ 3) (hsome : 1 ≤ bitsOf v 31 25)
    (hmax : bitsOf v 31 25 ≤ 64) : exec (.miuTestWrite v) s = .next
      (((s.fence.wr Addr.miuTest (v &&& 0xFEFFFE06)).setBit Addr.miuStat 2 true).event 0x209 (v &&& 0xFEFFFE06)) := by
  have hopen : ¬(s.op ≠ .stop || bitsOf v 2 1 = 3 || 64 < bitsOf v 31 25) = true := by
    simp [hop, hmem, hmax]
  exact congrArg Host.Outcome.next ((if_neg hopen).trans (if_pos (Nat.one_le_iff_ne_zero.mp hsome)))

variable {m : Nat}

theorem execSpliceFlush_none (h : s.miu.splice.find? (fun e => memOf e.addr = m) = none) :
    exec (.spliceFlush m) s = .next s := by
  show execSpliceFlush m s = _
  simp only [execSpliceFlush, h]

theorem execSpliceFlush_some {e : Splice} {d : BitVec 64} {t : State}
    (h : s.miu.splice.find? (fun e => memOf e.addr = m) = some e) (hgood : s.pageBad (pageOf e.addr) = false)
    (hread : ({ s with miu := { s.miu with splice := s.miu.splice.filter (·.addr ≠ e.addr) } } : State).readMem e.addr =
      (some d, t)) : exec (.spliceFlush m) s = .next (t.writeWord 8 0 0 e.addr (spliceOver d e.bytes)) := by
  have hpage : ¬({ s with miu := { s.miu with splice := s.miu.splice.filter (·.addr ≠ e.addr) } } : State).pageBad
      (pageOf e.addr) = true := ne_true_of_eq_false hgood
  show execSpliceFlush m s = _
  simp only [execSpliceFlush, h, State.flushEntry]
  rw [if_neg hpage, hread]

end

/-! ### The MIU opcodes (R442) -/

section
variable {s : State} {q : Req} {p : Bytes}

/-- A raw read of data words in the open test window. -/
theorem miuRawRead_carries (hp : p.length = 8) (hwhat : field p 4 1 = 0) (hn : field p 5 1 ≤ 254)
    (hopen : (s.carry q).bit Addr.miuStat 2 = true) (hin : (s.carry q).inTest 0 (field p 0 4) (field p 5 1) = true)
    (hfree : (s.carry q).swapping = false) : s.Carries q 0x803 (.miuRawRead q p) ((s.carry q).ok q 0x0803
      ((List.range (field p 5 1)).flatMap fun i => leBytes 8 ((s.carry q).rawWord (field p 0 4 + 8 * i)).toNat ++
        [(s.carry q).storedChk (field p 0 4 + 8 * i), BitVec.ofNat 8 (b2n (decide
          (wordCheck ((s.carry q).rawWord (field p 0 4 + 8 * i)) = (s.carry q).storedChk (field p 0 4 + 8 * i))))] ++
        List.replicate 6 0)) := by
  refine State.carries_of_startLen_eq rfl hp ?_
  dsimp only
  rw [hwhat, if_neg (by simp [hn]), if_neg (by simp [hopen]), if_neg (by simp [hin]), if_neg (by simp [hfree])]
  rfl

/-- A raw write of a data word with its check. -/
theorem miuRawWrite_carries (hp : p.length = 20) (hwhat : field p 4 1 = 0) (hparts : field p 5 1 % 4 = 3)
    (hopen : (s.carry q).bit Addr.miuStat 2 = true) (hin : (s.carry q).inTest 0 (field p 0 4) 1 = true)
    (hsplice : (s.carry q).miu.splice = []) (hpm : (s.carry q).pmRefused (field p 0 4) 8 = false)
    (hfree : (s.carry q).swapping = false) : s.Carries q 0x804 (.miuRawWrite q p)
      (((s.carry q).setItem 0 (field p 0 4) (BitVec.ofNat 64 (field p 8 8)) (BitVec.ofNat 8 (field p 16 1))).ok q 0x0804) := by
  refine State.carries_of_startLen_eq rfl hp ?_
  dsimp only
  rw [hwhat, if_neg (by simp [hparts]), if_neg (by simp [hopen]), if_neg (by simp [hin]), if_neg (by simp [hpm]),
    if_neg (by simp [hfree]), hsplice]
  dsimp only [List.find?]
  rw [if_pos (by omega), if_pos (by omega)]

/-- A scrub without re-initialisation of words in one window. -/
theorem miuScrub_carries (hp : p.length = 12) (hwin : oneWindow (field p 0 4) (field p 4 4) = true)
    (hre : (p.getD 8 0).getLsbD 0 = false) {t : State}
    (h : (if (s.carry q).miu.scrub.isSome then (s.carry q).fail q 0x0801 0x31 else
      if field p 4 4 = 0 then (((s.carry q).accept q 0x0801).setFld Addr.miuStat 1 0 2 |>.ev 0x205 0).noticeAll 0x0801 0x0800
        (Scrub.summary ⟨[], 0, false, 0, 0, 0, 0, 0, 0, false⟩)
      else { ((s.carry q).accept q 0x0801).setFld Addr.miuStat 1 0 1 with
        miu := { ((s.carry q).accept q 0x0801).miu with
          scrub := some ⟨pagesIn (field p 0 4) (field p 4 4), 0, false, 0, 0, 0, 0, 0, 0, false⟩ } }) = t) :
    s.Carries q 0x801 (.miuScrub q p) t := by
  refine State.carries_of_startLen_eq rfl hp (.trans ?_ h)
  dsimp only
  rw [hre, if_neg (by simp [hwin]), if_neg (by simp)]
  split
  · rfl
  · split <;> rfl

end

/-! ### The scrub (R437 to R440) -/

section
variable {s : State} {page : Nat} (hclean : s.pageClean page = true)
include hclean

theorem State.flaggedCount_clean : s.flaggedCount page = 0 := by
  simp only [State.pageClean, Bool.and_eq_true, List.isEmpty_iff, Bool.not_eq_true'] at hclean
  obtain ⟨⟨hwords, hp⟩, hq⟩ := hclean
  rw [State.flaggedCount, hwords, hp, hq]
  rfl

omit hclean in
theorem State.scrubEnd_completed (s : State) {k : Scrub} (h : k.abort = false) : s.scrubEnd k =
    ((({ s with miu := { s.miu with scrub := none } } : State).setFld Addr.miuStat 1 0 2).ev 0x205 k.uncorr).noticeAll
      0x0801 0x0800 k.summary := if_neg (ne_true_of_eq_false h)

variable (hp : sget 0 s.miu.pdev page = 0) (hq : sget 0 s.miu.qdev page = 0)
include hp hq

theorem State.scrubPass_clean (k : Scrub) : s.scrubPass k page false = ({ k with words := k.words + 64 }, s) := by
  unfold State.scrubPass
  dsimp only
  rw [if_neg (by simp [State.flaggedCount_clean hclean]), if_neg (by simp), if_neg (by rw [hp, hq]; simp)]

variable {k : Scrub} {rest : Nats} (hk : s.miu.scrub = some k) (hpages : k.pages = page :: rest) (habort : k.abort = false)
include hk hpages habort

theorem execScrubPage_clean : exec (.scrubPage false) s = .next
    (if rest.isEmpty then s.scrubEnd { k with pages := rest, pass := 0, done := k.done + 1, words := k.words + 64 }
      else { s with miu := { s.miu with
        scrub := some { k with pages := rest, pass := 0, done := k.done + 1, words := k.words + 64 } } }) := by
  show execScrubPage false s = _
  simp only [execScrubPage, hk, hpages, Bool.false_and, Bool.false_eq_true, if_false,
    State.scrubPass_clean hclean hp hq, habort, Bool.or_false]

omit hp hq habort in
theorem execScrubPage_hit (hpass : k.pass < 3) : exec (.scrubPage true) s =
    .next { s with miu := { s.miu with scrub := some { k with pass := k.pass + 1 } } } := by
  show execScrubPage true s = _
  have hagain : (true && decide (k.pass < 3) && decide (s.flaggedCount page = 0)) = true := by
    simp [hpass, State.flaggedCount_clean hclean]
  simp only [execScrubPage, hk, hpages]
  rw [if_pos hagain]

end

/-- Settles O33. -/
theorem memoryIntegrityEventsAndOpcodes : Obligations.MemoryIntegrityEventsAndOpcodes := by
  unfold Obligations.MemoryIntegrityEventsAndOpcodes
  refine ⟨fun s v a => ?_, fun s q p b hit => ?_⟩
  · refine ⟨fun hmem ha hgood => execRebuildEnd_rebuilt hmem ha hgood, fun hmem ha hgood => ?_, fun k u h => ?_,
      fun k b hmem hunit => execRebuildEnd_parity b hmem hunit, fun h => execMiuTestWrite_ignored h,
      fun hop hm hsome hmax => execMiuTestWrite_opens hop hm hsome hmax, rfl, fun m h => execSpliceFlush_none h,
      fun m e h hgood d t hread => execSpliceFlush_some h hgood hread⟩
    · exact ⟨execRebuildEnd_mgcCommand hmem ha hgood, execRebuildEnd_mgcOwn hmem ha hgood, fun n hn =>
        ⟨execRebuildEnd_seFetch hmem ha hgood hn, execRebuildEnd_seData hmem ha hgood hn⟩⟩
    · cases h
      exact ⟨rfl, rfl⟩
  · intro u a n what
    refine ⟨State.carries_of_startLen_eq rfl rfl rfl, fun hp hwhat hn hopen hin hsw => ?_,
      fun hp hwhat hparts hopen hin hsplice hpm hsw => ?_, fun hp hwin hn hre hnone => ?_, fun hp hwin hre hsome => ?_,
      fun hp => ?_, fun hnone => ?_, fun k page next rest hk hpages habort hclean hpd hqd => ?_,
      fun k page hk hpages habort hclean hpd hqd => ?_⟩
    · exact miuRawRead_carries hp hwhat hn hopen hin hsw
    · exact miuRawWrite_carries hp hwhat hparts hopen hin hsplice hpm hsw
    · refine miuScrub_carries hp hwin hre ?_
      rw [if_neg (by rw [show (s.carry q).miu.scrub = none from hnone]; simp), if_neg hn]
    · refine miuScrub_carries hp hwin hre ?_
      rw [if_pos (by rw [Option.isSome_iff_ne_none]; exact hsome)]
      rfl
    · subst hp
      exact State.carries_of_startLen_eq rfl rfl rfl
    · show execScrubPage hit s = _
      simp only [execScrubPage, hnone]
    · intro after
      refine ⟨?_, fun hpass => execScrubPage_hit hclean hk hpages hpass⟩
      rw [execScrubPage_clean hclean hpd hqd hk hpages habort]
      rfl
    · rw [execScrubPage_clean hclean hpd hqd hk hpages habort]
      exact congrArg Host.Outcome.next (State.scrubEnd_completed s habort)

end Sys2Proof.Machine
end

