-- ==== Sys2Proof/Proofs/EventRecorder.lean ====
section
/-! SUPPORT. Records leave the holding queue for the ring; the freeze, the rate windows and the EVR opcodes (R472 to
R483). -/

namespace Sys2Proof.Machine

/-! ### Bytes of a record (R472) -/

theorem length_leBytes (n v : Nat) : (leBytes n v).length = n := by
  induction n generalizing v with
  | zero => rfl
  | succ n ih => rw [leBytes, List.length_cons, ih]

/-- The bytes of a number depend on its value below 256 ^ n only. -/
theorem leBytes_mod (n v : Nat) : leBytes n (v % 256 ^ n) = leBytes n v := by
  induction n generalizing v with
  | zero => rfl
  | succ n ih =>
    have hlow : BitVec.ofNat 8 (v % 256 ^ (n + 1)) = BitVec.ofNat 8 v := by
      apply BitVec.eq_of_toNat_eq
      rw [BitVec.toNat_ofNat, BitVec.toNat_ofNat, pow_succ, Nat.mul_comm]
      exact Nat.mod_mul_right_mod v 256 (256 ^ n)
    have hhigh : v % 256 ^ (n + 1) / 256 = v / 256 % 256 ^ n := by
      rw [pow_succ, Nat.mul_comm, Nat.mod_mul_right_div_self]
    rw [leBytes, leBytes, hlow, hhigh, ih]

theorem wordBytes_ofNat (v : Nat) : wordBytes (BitVec.ofNat 32 v) = leBytes 4 v := by
  rw [wordBytes, BitVec.toNat_ofNat]
  exact leBytes_mod 4 v

theorem length_recordBytes (r : EvRec) (unit rseq : Nat) : (recordBytes r unit rseq).length = 32 := by
  simp [recordBytes, length_leBytes, wordBytes]

/-! ### A burst into the MRAM -/

/-- A burst inside its page puts its bytes there. -/
theorem sget_wrapPut (m : Sparse Byte) (page off : Nat) (bs : Bytes) (hin : off + bs.length ≤ 256) (x : Nat) :
    sget 0 (wrapPut m page off bs) x =
      if page * 256 + off ≤ x ∧ x < page * 256 + off + bs.length then bs.getD (x - (page * 256 + off)) 0
      else sget 0 m x := by
  have hsteps (n : Nat) (hn : n ≤ bs.length) :
      sget 0 ((List.range n).foldl (fun m i => sput 0 m (wrapOff page off i) (bs.getD i 0)) m) x =
        if page * 256 + off ≤ x ∧ x < page * 256 + off + n then bs.getD (x - (page * 256 + off)) 0 else sget 0 m x := by
    induction n with
    | zero => rw [if_neg (by omega)]; rfl
    | succ n ih =>
      have hoff : wrapOff page off n = page * 256 + off + n := by
        rw [wrapOff, Nat.mod_eq_of_lt (by omega), Nat.add_assoc]
      rw [List.range_succ, List.foldl_append, List.foldl_cons, List.foldl_nil, sget_sput, hoff]
      by_cases hx : x = page * 256 + off + n
      · rw [if_pos hx, if_pos (by omega), hx, Nat.add_sub_cancel_left]
      · rw [if_neg hx, ih (by omega)]
        by_cases hin' : page * 256 + off ≤ x ∧ x < page * 256 + off + n
        · rw [if_pos hin', if_pos (by omega)]
        · rw [if_neg hin', if_neg (by omega)]
  exact hsteps bs.length le_rfl

/-! ### A record written to its slot (R473) -/

section
variable (s : State) (r : EvRec)

/-- A slot with its bytes, no longer reported. -/
def State.slotPut (t : State) (k : Nat) (bs : Bytes) : State :=
  let t := t.mramRaw (ringOff k / 256) (ringOff k % 256) bs
  { t with evr := { t.evr with reported := t.evr.reported.filter (· ≠ k) } }

/-- A slot lies inside a page. -/
theorem ringOff_page (k : Nat) : ringOff k / 256 * 256 + ringOff k % 256 = 8192 + 32 * k ∧ ringOff k % 256 + 32 ≤ 256 := by
  unfold ringOff
  omega

theorem State.slotPut_mram_eq (t : State) (k : Nat) (bs : Bytes) :
    (t.slotPut k bs).mram = wrapPut t.mram (ringOff k / 256) (ringOff k % 256) bs := rfl

theorem State.slotPut_mram (t : State) (k : Nat) (bs : Bytes) (hlen : bs.length = 32) (x : Nat) :
    sget 0 (t.slotPut k bs).mram x =
      if 8192 + 32 * k ≤ x ∧ x < 8192 + 32 * k + 32 then bs.getD (x - (8192 + 32 * k)) 0 else sget 0 t.mram x := by
  obtain ⟨hoff, hin⟩ := ringOff_page k
  rw [State.slotPut_mram_eq, sget_wrapPut _ _ _ _ (by rw [hlen]; exact hin), hlen, hoff]

/-- A record put into the slot that RSEQ names. -/
def State.ringPut : State :=
  (s.wr Addr.evrRseq (BitVec.ofNat 32 (s.rdN Addr.evrRseq + 1))).slotPut (s.rdN Addr.evrRseq % 4096)
    (recordBytes r s.unitN (s.rdN Addr.evrRseq))

theorem State.ringPut_hq : (s.ringPut r).evr.hq = s.evr.hq := rfl
theorem State.ringPut_dm : (s.ringPut r).dm = s.dm := rfl
theorem State.ringPut_pm : (s.ringPut r).pm = s.pm := rfl
theorem State.ringPut_se : (s.ringPut r).se = s.se := rfl

theorem State.ringPut_regs : (s.ringPut r).regs = (s.wr Addr.evrRseq (BitVec.ofNat 32 (s.rdN Addr.evrRseq + 1))).regs := rfl

theorem State.ringPut_rseq : (s.ringPut r).rd Addr.evrRseq = BitVec.ofNat 32 (s.rdN Addr.evrRseq + 1) := by
  rw [State.rd, State.ringPut_regs]
  exact State.rd_wr_self s _ _

theorem State.ringPut_mram (x : Nat) : sget 0 (s.ringPut r).mram x =
    if 8192 + 32 * (s.rdN Addr.evrRseq % 4096) ≤ x ∧ x < 8192 + 32 * (s.rdN Addr.evrRseq % 4096) + 32 then
      (recordBytes r s.unitN (s.rdN Addr.evrRseq)).getD (x - (8192 + 32 * (s.rdN Addr.evrRseq % 4096))) 0
    else sget 0 s.mram x :=
  State.slotPut_mram _ _ _ (length_recordBytes r s.unitN _) x

/-- A unit without write lock writes the record. -/
theorem State.ringWrite_open (hlock : s.wlock = false) : s.ringWrite r = s.ringPut r := by
  have hlock' : (s.wr Addr.evrRseq (BitVec.ofNat 32 (s.rdN Addr.evrRseq + 1))).wlock = false := by
    rw [← hlock]
    exact congrArg (fun n => decide (n = 1)) (State.fld_congr (State.rd_wr_other _ _ (by decide)) 1 1)
  have hunit : (s.wr Addr.evrRseq (BitVec.ofNat 32 (s.rdN Addr.evrRseq + 1))).unitN = s.unitN :=
    State.fld_congr (State.rd_wr_other _ _ (by decide)) 8 8
  unfold State.ringWrite
  dsimp only
  rw [if_neg (ne_true_of_eq_false hlock'), hunit]
  rfl

end

/-- The recorder with the records still held. -/
def State.holding (s : State) (rest : List EvRec) : State := { s with evr := { s.evr with hq := rest } }

/-- The oldest record is written when nothing else is to be done with it. -/
theorem execEventRecordWrite_record {s : State} {r : EvRec} {rest : List EvRec} (hq : s.evr.hq = r :: rest)
    (hfrozen : s.evr.frozen = false) (hdrain : s.evr.drain = none) (hlost : s.evr.lost = 0) (hlock : s.wlock = false)
    (hcode : r.code ≠ 0x285) : exec .eventRecordWrite s = .next ((s.holding rest).ringPut r) := by
  have hstep (t : State) (ht : t.evr.drain = none) : t.drainStep = t := by
    unfold State.drainStep
    rw [ht]
  have hnone (t : State) (ht : t.evr.lost = 0) : t.reportLost = t := if_pos (by simp [ht])
  have hwrite : (s.holding rest).ringWrite r = (s.holding rest).ringPut r := State.ringWrite_open _ r hlock
  show execEventRecordWrite s = _
  unfold execEventRecordWrite
  rw [hq]
  dsimp only
  rw [if_neg (ne_true_of_eq_false hfrozen), if_neg hcode]
  show Host.Outcome.next ((s.holding rest).ringWrite r).drainStep.reportLost = _
  have hdrain' : ((s.holding rest).ringPut r).evr.drain = none := hdrain
  have hlost' : ((s.holding rest).ringPut r).evr.lost = 0 := hlost
  rw [hwrite, hstep _ hdrain', hnone _ hlost']

/-! ### Freeze (R480 to R482) -/

section
variable (s : State)

theorem execEvrCtrlFreeze_eq (t : Nat) : exec (.evrCtrlFreeze t) s = .next (s.at t).evrFreeze := rfl

theorem execEvrCtrlUnfreeze_eq : exec .evrCtrlUnfreeze s = .next s.evrUnfreeze := rfl

variable {s}

theorem State.evrFreeze_first (h : s.evr.frozen = false) : s.evrFreeze =
    ({ s with evr := { s.evr with frozen := true, frozenAt := s.utick } } : State).ev 0x280 0 := if_pos (by simp [h])

theorem State.evrFreeze_again (h : s.evr.frozen = true) : s.evrFreeze =
    { s with evr := { s.evr with frozen := true, frozenAt := s.utick } } := if_neg (by simp [h])

theorem State.evrUnfreeze_idle (h : s.evr.frozen = false) : s.evrUnfreeze = s := if_pos (by simp [h])

theorem State.evrUnfreeze_empty (h : s.evr.frozen = true) (hq : s.evr.hq = []) : s.evrUnfreeze =
    ({ s with evr := { s.evr with frozen := false, drain := none } } : State).ev 0x281 0 := by
  rw [State.evrUnfreeze, if_neg (by simp [h]), hq]
  rfl

theorem State.evrUnfreeze_held (h : s.evr.frozen = true) (hq : s.evr.hq ≠ []) : s.evrUnfreeze =
    { s with evr := { s.evr with frozen := false, drain := some (s.evr.hq.length, s.evr.hq.length) } } := by
  have hlen : s.evr.hq.length ≠ 0 := by simpa using hq
  rw [State.evrUnfreeze, if_neg (by simp [h])]
  dsimp only
  rw [if_neg hlen]
  exact if_neg (by simpa using hq)

theorem execFreezeTimeout_eq (t : Nat) : exec (.freezeTimeout t) s = .next
    (if (s.at t).evr.frozen && (s.at t).evr.frozenAt + 1000000000 ≤ (s.at t).utick then (s.at t).evrUnfreeze.ev 0x282 0
      else s.at t) := rfl

theorem execRateWindowStart_begin {win t : Nat} (hwin : winNs win ≠ 0) (ht : t % winNs win = 0) :
    exec (.rateWindowStart win t) s = .next { s.at t with evr := { (s.at t).evr with
      used := skeep (s.at t).evr.used fun k => bitsOf ((s.at t).rateWord (k / 16)) 11 8 ≠ win } } :=
  congrArg Host.Outcome.next (if_neg (by simp [hwin, ht]))

end

/-! ### The EVR opcodes (R482, R483) -/

section
variable {s : State} {q : Req} {p : Bytes}

theorem evrRead_carries_many (hp : p.length = 8) (hn : 127 < field p 4 1) :
    s.Carries q 0xA01 (.evrRead q p) ((s.carry q).fail q 0x0A01 0x11) :=
  State.carries_of_startLen_eq rfl hp (if_pos hn)

variable (hp : p.length = 8) (hn : field p 4 1 ≤ 127)
include hp hn

theorem evrRead_carries_end (h : field p 0 4 = (s.carry q).rdN Addr.evrRseq) :
    s.Carries q 0xA01 (.evrRead q p) ((s.carry q).ok q 0x0A01 (leBytes 4 (field p 0 4))) := by
  refine State.carries_of_startLen_eq rfl hp ?_
  have hd : ((s.carry q).rdN Addr.evrRseq + 2 ^ 32 - field p 0 4) % 2 ^ 32 = 0 := by
    rw [h]
    omega
  refine (if_neg (by omega)).trans (if_pos ?_)
  rw [hd]
  simp

omit hp hn in
/-- A slot without a flagged word is reported without effect. -/
theorem State.reportSlot_good {u : State} {k : Nat} (h : u.slotFlagged k = false) : u.reportSlot k = u := by
  have hflags : u.mramFlags (ringOff k) 32 = [] := by simpa [State.slotFlagged] using h
  have hunread : u.slotUnread k = u := by
    unfold State.slotUnread
    rw [hflags]
  unfold State.reportSlot
  dsimp only
  rw [hunread, if_neg (by simp [h])]

omit hp hn in
theorem State.evrScan_one {u : State} {x n : Nat} (hgood : u.slotFlagged (x % 4096) = false) (hn : n ≠ 0)
    (hx : (x + 1) % 2 ^ 32 = x + 1) : State.evrScan 1 u x n = (x + 1,
      (if u.slotRseq (x % 4096) = some x then memBytes u.mram (8192 + 32 * (x % 4096)) 32 else []) ++ [], u) := by
  rw [State.evrScan, if_neg hn]
  dsimp only
  rw [State.reportSlot_good hgood, State.evrScan, hx]
  simp only [decide_eq_true_eq, ringOff]

theorem evrRead_carries_newest {x : Nat} (hsome : 1 ≤ field p 4 1) (hx : field p 0 4 = x)
    (hseq : (s.carry q).rdN Addr.evrRseq = x + 1) (hgood : (s.carry q).slotFlagged (x % 4096) = false) :
    s.Carries q 0xA01 (.evrRead q p) ((s.carry q).ok q 0x0A01 (leBytes 4 (x + 1) ++
      if (s.carry q).slotRseq (x % 4096) = some x then memBytes (s.carry q).mram (8192 + 32 * (x % 4096)) 32 else [])) := by
  refine State.carries_of_startLen_eq rfl hp ?_
  refine (if_neg (by omega)).trans ?_
  have hlt : x + 1 < 2 ^ 32 := hseq ▸ ((s.carry q).rd Addr.evrRseq).isLt
  extract_lets rseq d d'
  have hrseq : rseq = x + 1 := hseq
  have hd : d = 1 := by
    have hd : d = (rseq + 2 ^ 32 - field p 0 4) % 2 ^ 32 := rfl
    rw [hd, hrseq, hx]
    omega
  have hd' : d' = min d 4096 := rfl
  clear_value d' d rseq
  subst hd hrseq hd'
  have hfrom : (x + 1 + 2 ^ 32 - min 1 4096) % 2 ^ 32 = x := by omega
  have hscan : State.evrScan (min 1 4096) (s.carry q) x (field p 4 1) = (x + 1,
      (if (s.carry q).slotRseq (x % 4096) = some x then memBytes (s.carry q).mram (8192 + 32 * (x % 4096)) 32 else []) ++ [],
      s.carry q) := by
    rw [min_eq_left (by norm_num), State.evrScan_one hgood (by omega) (Nat.mod_eq_of_lt hlt)]
  rw [if_neg (by simp), hfrom, hscan, List.append_nil]

end

/-- Settles O34. -/
theorem eventRecorderAndItsOpcodes : Obligations.EventRecorderAndItsOpcodes := by
  unfold Obligations.EventRecorderAndItsOpcodes
  refine ⟨fun s v t => ?_, fun s q p => ?_⟩
  · intro u frozen
    refine ⟨fun h => ?_, fun r rest hq hfrozen hdrain hlost hlock hcode => ?_,
      fun win hwin ht => execRateWindowStart_begin hwin ht, fun h => ?_, fun h => ?_, fun h => ?_, fun h hq => ?_,
      fun h hq => ?_, fun h hold => ?_, fun h => ?_, rfl⟩
    · show execEventRecordWrite s = _
      unfold execEventRecordWrite
      obtain h | h := h
      · simp only [h]
      · rcases s.evr.hq with _ | ⟨r, rest⟩
        · rfl
        · simp only [h, if_true]
    · intro w o
      have hbytes := (s.holding rest).ringPut_mram r
      refine ⟨_, execEventRecordWrite_record hq hfrozen hdrain hlost hlock hcode, State.ringPut_hq _ r,
        State.ringPut_rseq _ r, fun i hi => ?_, fun i hi => ?_, State.ringPut_dm _ r, State.ringPut_pm _ r,
        State.ringPut_se _ r⟩
      · refine (hbytes _).trans ((if_pos ⟨Nat.le_add_right _ _, Nat.add_lt_add_left hi _⟩).trans ?_)
        exact congrArg (List.getD (recordBytes r s.unitN w) · 0) (Nat.add_sub_cancel_left o i)
      · refine (hbytes _).trans (if_neg fun hin => ?_)
        obtain ⟨hlo, hhi⟩ := hin
        obtain h | h := hi
        · exact absurd hlo (not_le.mpr h)
        · exact absurd hhi (not_lt.mpr h)
    · rw [execEvrCtrlFreeze_eq, State.evrFreeze_first h]
    · rw [execEvrCtrlFreeze_eq, State.evrFreeze_again h]
    · rw [execEvrCtrlUnfreeze_eq, State.evrUnfreeze_idle h]
    · rw [execEvrCtrlUnfreeze_eq, State.evrUnfreeze_empty h hq]
    · rw [execEvrCtrlUnfreeze_eq, State.evrUnfreeze_held h hq]
    · rw [execFreezeTimeout_eq, if_pos (by rw [Bool.and_eq_true, decide_eq_true_eq]; exact ⟨h, hold⟩)]
    · rw [execFreezeTimeout_eq, if_neg]
      rw [Bool.and_eq_true, decide_eq_true_eq]
      rintro ⟨hfrozen, hold⟩
      obtain h | h := h
      · exact absurd hfrozen (ne_true_of_eq_false h)
      · exact absurd hold (not_le.mpr h)
  · intro u
    refine ⟨fun hp => ?_, fun hp hn => evrRead_carries_many hp hn, fun hp hn h => ?_, fun x hp hsome hn hx hseq hgood => ?_⟩
    · subst hp
      refine ⟨State.carries_of_startLen_eq rfl rfl ?_, State.carries_of_startLen_eq rfl rfl rfl,
        State.carries_of_startLen_eq rfl rfl rfl, fun hop => State.carries_of_startLen_eq rfl rfl (if_neg (not_not.mpr hop)),
        fun hop => State.carries_of_startLen_eq rfl rfl (if_pos hop)⟩
      simp only [State.evrStatReg, wordBytes_ofNat, regsBytes, List.flatMap_cons, List.flatMap_nil, List.append_nil,
        List.append_assoc]
      rfl
    · exact evrRead_carries_end hp hn h
    · have hread := evrRead_carries_newest hp hn hsome hx hseq hgood
      refine ⟨fun hvalid => ?_, fun hvalid => ?_⟩
      · rwa [if_pos hvalid] at hread
      · rwa [if_neg hvalid, List.append_nil] at hread

end Sys2Proof.Machine
end

