-- ==== Sys2Proof/Proofs/TaskReleases.lean ====
section
/-! SUPPORT. Releases by software triggers, grid ticks and hardware triggers (R86, R96, R101 to R107). -/

namespace Sys2Proof.Machine

/-! ### Contexts replaced -/

section
variable (s : State) (n : Nat)

/-! ### Scheduling leaves the role -/

theorem State.when_role (b : Bool) {f : State → State} (h : ∀ t, (f t).role = t.role) : (s.when b f).role = s.role := by
  cases b
  · rfl
  · exact h s

theorem State.dispatch_role : s.dispatch.role = s.role := by
  unfold State.dispatch
  dsimp only
  split_ifs
  · rfl
  · rfl
  · cases s.se.active <;> cases s.bestCtx <;> rfl

theorem State.release_role : (s.release n).role = s.role :=
  State.when_role (s.setCtx n _) _ fun _ => rfl

theorem State.releaseOrHold_role : (s.releaseOrHold n).role = s.role := by
  unfold State.releaseOrHold
  split
  · exact State.dispatch_role _
  · exact s.release_role n

theorem State.pendOrMerge_role : (s.pendOrMerge n).role = s.role := by
  unfold State.pendOrMerge
  split
  · rw [State.ev_role, State.onCtx_role]
  · rfl

theorem State.sysTrig_role (info : Nat) : (s.sysTrig n info).role = s.role := by
  unfold State.sysTrig
  dsimp only
  split_ifs
  · rfl
  · exact State.pendOrMerge_role _ n
  · exact State.releaseOrHold_role _ n
  · exact State.pendOrMerge_role _ n

theorem State.skipRelease_role : (s.skipRelease n).role = s.role := by
  unfold State.skipRelease
  dsimp only
  split_ifs
  · rw [State.sysTrig_role, State.ev_role, State.onCtx_role, State.ev_role, State.onCtx_role]
  · rw [State.ev_role, State.onCtx_role]

theorem State.due_role : (s.due n).role = s.role := by
  unfold State.due
  split
  · split_ifs
    · exact s.releaseOrHold_role n
    · exact s.releaseOrHold_role n
    · rfl
  · split_ifs
    · exact s.releaseOrHold_role n
    · exact s.releaseOrHold_role n
    · rfl
  · rfl
  · exact s.skipRelease_role n

theorem State.foldl_due_role (ns : Nats) : (ns.foldl (fun s n => s.due n) s).role = s.role := by
  induction ns generalizing s with
  | nil => rfl
  | cons n ns ih => rw [List.foldl_cons, ih, State.due_role]

end

/-! ### A trigger of a user event task (R86, R102, R103) -/

section
variable {s : State} {n : Nat}

theorem State.userTrig_none (h : s.userEvent n = false) : s.userTrig n = s := if_pos (by simp [h])

/-- A trigger in RUN with releases open comes down to the state of the context. -/
theorem State.userTrig_open (hev : s.userEvent n = true) (hop : s.op = .run) (hleave : s.se.leaving = none)
    (hpf : s.se.pfail = false) (hstart : s.se.starting = false) (hheld : s.trigHeld = false) : s.userTrig n =
      if (s.ctx n).st = .waiting || (s.ctx n).st = .disabled then s.releaseOrHold n else s.pendOrMerge n := by
  rw [State.userTrig, if_neg (by simp [hev, State.userOpen, hop, hleave, hpf]), if_neg (by simp [hstart, hheld])]

theorem State.releaseOrHold_free (hholds : s.se.holds = []) : s.releaseOrHold n = s.release n :=
  if_neg (by simp [hholds])

theorem State.pendOrMerge_first (h : (s.ctx n).pend = false) :
    s.pendOrMerge n = s.setCtx n { s.ctx n with pend := true } := if_neg (by simp [h])

theorem State.pendOrMerge_again (h : (s.ctx n).pend = true) :
    s.pendOrMerge n = (s.setCtx n { s.ctx n with ovr := min ((s.ctx n).ovr + 1) 0xFFFF }).ev 0x082 n := if_pos h

/-- The context a release makes. -/
def State.releasedCtx (s : State) (n : Nat) : Ctx :=
  { s.ctx n with
    st := .released, pc := s.ctxEntry n, stk := [], sw := 0, consec := 0, pend := false,
    relT := if (s.ctx n).st = .held then (s.ctx n).relT else s.dtime, relAt := s.dtime, copied := false,
    first := !(s.ctx n).ran, ran := true, cut := [] }

/-- A release outside the TRACK phase of a join makes the context and queues its snapshot copy. -/
theorem State.release_eq (h : s.twl.jphase ≠ 2) : s.release n = { s with se := { s.se with
    ctxs := sput {} s.se.ctxs n (s.releasedCtx n)
    copyQ := s.se.copyQ ++ [n]
    holds := if n = 2 then s.se.holds.map fun h => { h with armed := true } else s.se.holds } } := by
  have hwhen : (s.setCtx n (s.releasedCtx n)).when ((s.setCtx n (s.releasedCtx n)).twl.jphase = 2) (fun s =>
      { s with twl := { s.twl with tracked := supd 0 s.twl.tracked n (· + 1) } }) = s.setCtx n (s.releasedCtx n) :=
    if_neg (by rw [decide_eq_true_eq]; exact h)
  unfold State.release
  dsimp only
  rw [State.releasedCtx] at hwhen
  rw [hwhen]
  rfl

theorem State.release_ctx_self (h : s.twl.jphase ≠ 2) : (s.release n).ctx n = s.releasedCtx n := by
  rw [State.release_eq h]
  exact State.ctx_setCtx_self s n _

theorem State.release_ctx_other (h : s.twl.jphase ≠ 2) {m : Nat} (hm : m ≠ n) : (s.release n).ctx m = s.ctx m := by
  rw [State.release_eq h]
  exact State.ctx_setCtx_other s _ hm

theorem State.releasedCtx_waiting (h : (s.ctx n).st = .waiting ∨ (s.ctx n).st = .disabled) : s.releasedCtx n =
    { s.ctx n with
      st := .released, pc := s.ctxEntry n, stk := [], sw := 0, consec := 0, pend := false,
      relT := s.dtime, relAt := s.dtime, copied := false, first := !(s.ctx n).ran, ran := true, cut := [] } := by
  have hheld : (s.ctx n).st ≠ .held := by
    rintro h'
    rw [h'] at h
    simp at h
  rw [State.releasedCtx, if_neg hheld]

end

/-! ### Grid ticks (R28, R96) -/

section
variable {s : State} {t : Nat}

theorem execGridTick_off (ht : t % 10000 ≠ 0) : exec (.gridTick t) s = .next (s.at t) :=
  if_pos (by simp [onGrid, ht])

/-- A unit alone sends no tick of its own and proposes nothing. -/
theorem execGridTick_solo (ht : t % 10000 = 0) (hrole : (s.at t).role = .solo) (hj : (s.at t).twl.jphase = 0) :
    exec (.gridTick t) s = .next (s.at t).gridTick.propose := by
  refine (if_neg (by simp [onGrid, ht])).trans ?_
  generalize s.at t = u at hrole hj
  have hleft : ¬(u.twl.left && u.role = .tracking) = true := by simp [hrole]
  have hsend : u.sendTick = u := if_neg (by simp [hrole, hj])
  dsimp only
  rw [if_neg hleft, hsend]

theorem State.propose_solo (h : s.role = .solo) : s.propose = s := if_pos (by simp [h])

/-- The grid count at a tick. -/
def State.gridAt (s : State) (k : Nat) : State := { s with se := { s.se with gT := s.dtime, g := k, gridOn := true } }

theorem State.gridTick_run (hop : s.op = .run) (hstart : s.se.starting = false) (hleave : s.se.leaving = none)
    (hpf : s.se.pfail = false) : s.gridTick =
      let v := s.gridAt (if s.se.gridOn then s.se.g + 1 else 0)
      (v.dueAt v.se.g).foldl (fun s n => s.due n) v := by
  refine (if_pos (by simp [hop, hstart])).trans (if_pos ?_)
  simp [State.userOpen, hop, hleave, hpf]

theorem State.gridTick_starting (hop : s.op = .run) (hstart : s.se.starting = true) :
    s.gridTick = { s with se := { s.se with gT := s.dtime } } :=
  (if_neg (by simp [hstart])).trans (if_neg (by simp [hop]))

theorem State.gridTick_idle (hop : s.op = .stop ∨ s.op = .hold) :
    s.gridTick = { s with se := { s.se with gT := s.dtime, g := s.se.g + 1 } } := by
  refine (if_neg ?_).trans (if_pos ?_)
  · obtain h | h := hop <;> simp [h]
  · obtain h | h := hop <;> simp [h]

end

theorem State.mem_dueAt {s : State} {g n : Nat} : n ∈ s.dueAt g ↔ n < 160 ∧ s.ctxEn n = true ∧ s.ctxPeriod n ≠ 0 ∧
    s.lf (Addr.ctxPhase n) 23 0 ≤ g ∧ (g - s.lf (Addr.ctxPhase n) 23 0) % s.ctxPeriod n = 0 := by
  simp [State.dueAt, and_assoc]

theorem State.mem_trigCtxs {s : State} {g : Trigger} {n : Nat} : n ∈ s.trigCtxs g ↔ 16 ≤ n ∧ n < 160 ∧ s.ctxEn n = true ∧
    s.ctxPeriod n = 0 ∧ g.src ≠ 0 ∧ bitsOf (s.lv (Addr.ctxTrig n)) 3 0 = g.src ∧ bitsOf (s.lv (Addr.ctxTrig n)) 16 4 = g.sel ∧
    18 ≤ g.cond ∧ g.cond ≤ 21 ∧ (s.lv (Addr.ctxTrig n)).getLsbD g.cond = true := by
  simp only [State.trigCtxs, List.mem_filter, List.mem_range, Bool.and_eq_true, decide_eq_true_eq]
  tauto

section
variable {s : State} {g : Trigger} {t : Nat}

theorem triggerArrival_late (h : (s.at t).se.trigQ.find? (fun x => crossingOf x = crossingOf g) ≠ some g) :
    exec (.triggerArrival g t) s = .next (s.at t) :=
  congrArg Host.Outcome.next (if_neg (by rw [State.trigReady, decide_eq_true_eq]; exact h))

theorem triggerArrival_ready (h : (s.at t).se.trigQ.find? (fun x => crossingOf x = crossingOf g) = some g) :
    exec (.triggerArrival g t) s = .next
      (let v : State := { s.at t with se := { (s.at t).se with trigQ := takeTrig g (s.at t).se.trigQ } };
        (v.trigCtxs g).foldl (fun s n => s.userTrig n) v) :=
  congrArg Host.Outcome.next (if_pos (by rw [State.trigReady, decide_eq_true_eq]; exact h))

end

/-- Settles O35. -/
theorem tasksAreTriggeredAndReleased : Obligations.TasksAreTriggeredAndReleased := by
  unfold Obligations.TasksAreTriggeredAndReleased
  refine ⟨⟨fun s v h => congrArg Host.Outcome.next (State.userTrig_none h), ?_⟩, fun s t g => ?_⟩
  · intro s n v hn hev hop hleave hpf hstart hheld hholds hj c
    have hexec : exec (.seSwtrig v) s = .next (s.userTrig n) := by
      show Host.Outcome.next (s.userTrig (bitsOf v 7 0)) = _
      rw [hn]
    rw [State.userTrig_open hev hop hleave hpf hstart hheld] at hexec
    refine ⟨fun hst => ?_, fun hw hd hpend => ?_, fun hw hd hpend => ?_⟩
    · rw [if_pos (by simpa using hst), State.releaseOrHold_free hholds] at hexec
      refine ⟨_, hexec, (State.release_ctx_self hj).trans (State.releasedCtx_waiting hst), ?_,
        fun m hm => State.release_ctx_other hj hm, ?_, ?_⟩
      · rw [State.release_eq hj]
      · rw [State.release_eq hj]
      · rw [State.release_eq hj]
    · rwa [if_neg (by simpa using ⟨hw, hd⟩), State.pendOrMerge_first hpend] at hexec
    · rwa [if_neg (by simpa using ⟨hw, hd⟩), State.pendOrMerge_again hpend] at hexec
  · intro u now
    refine ⟨execGridTick_off, fun ht hrole hj => ?_, fun n => State.mem_dueAt, triggerArrival_late, ?_⟩
    · have hexec := execGridTick_solo ht hrole hj
      refine ⟨fun hop hstart hleave hpf => ?_, fun hop hstart => ?_, fun hop => ?_⟩
      · rw [hexec, State.gridTick_run hop hstart hleave hpf, State.propose_solo]
        · rfl
        · exact (State.foldl_due_role _ _).trans hrole
      · rw [hexec, State.gridTick_starting hop hstart, State.propose_solo]
        exact hrole
      · rw [hexec, State.gridTick_idle hop, State.propose_solo]
        exact hrole
    · intro v
      exact ⟨triggerArrival_ready, fun n => State.mem_trigCtxs⟩

end Sys2Proof.Machine
end

