-- ==== Sys2Proof/Proofs/ImageCopies.lean ====
section
/-! SUPPORT. Snapshot copies, image writes and publications (R18 to R20, R91, R97, R99, R108). -/

namespace Sys2Proof.Machine

/-! ### Bytes of a slice -/

theorem length_slice (d : Bytes) (off n : Nat) : (slice d off n).length = n := by simp [slice]

theorem slice_getD (d : Bytes) (off n : Nat) {j : Nat} (hj : j < n) : (slice d off n).getD j 0 = d.getD (off + j) 0 := by
  simp [slice, List.getD_eq_getElem?_getD, hj]

/-! ### Lines put into an image -/

/-- Line by line, the bytes of `d` put into the lines `ls` of an image. -/
def linesPut (m : Sparse Byte) (ls : Nats) (d : Bytes) : Sparse Byte :=
  (List.range ls.length).foldl (fun m i => memPut m (64 * ls.getD i 0) (slice d (64 * i) 64)) m

theorem State.publish_outImg (s : State) (n : Nat) (d : Bytes) :
    (s.publish n d).outImg = linesPut s.outImg (s.mapLines n true) d := rfl

theorem sget_memPut_slice (m : Sparse Byte) (k i : Nat) (d : Bytes) (x : Nat) :
    sget 0 (memPut m (64 * k) (slice d (64 * i) 64)) x =
      if x / 64 = k then d.getD (64 * i + x % 64) 0 else sget 0 m x := by
  rw [sget_memPut, length_slice]
  by_cases hx : x / 64 = k
  · rw [if_pos hx, if_pos (by omega), slice_getD _ _ _ (by omega)]
    congr 2
    omega
  · rw [if_neg hx, if_neg (by omega)]

/-- The first `n` lines put: the last of them that is the line of `x` gives its byte. -/
theorem sget_linesPut_steps (m : Sparse Byte) (ls : Nats) (d : Bytes) (x : Nat) (n : Nat) :
    (∀ i, i < n → (∀ k, k < n → ls.getD k 0 = ls.getD i 0 → k = i) → x / 64 = ls.getD i 0 →
      sget 0 ((List.range n).foldl (fun m i => memPut m (64 * ls.getD i 0) (slice d (64 * i) 64)) m) x =
        d.getD (64 * i + x % 64) 0) ∧
    ((∀ i, i < n → x / 64 ≠ ls.getD i 0) →
      sget 0 ((List.range n).foldl (fun m i => memPut m (64 * ls.getD i 0) (slice d (64 * i) 64)) m) x = sget 0 m x) := by
  induction n with
  | zero => exact ⟨fun i hi => absurd hi (Nat.not_lt_zero i), fun _ => rfl⟩
  | succ n ih =>
    obtain ⟨hhit, hmiss⟩ := ih
    rw [List.range_succ, List.foldl_append, List.foldl_cons, List.foldl_nil, sget_memPut_slice]
    refine ⟨fun i hi huniq hx => ?_, fun hne => ?_⟩
    · by_cases hin : i = n
      · rw [← hin, if_pos hx]
      · have hlast : ¬x / 64 = ls.getD n 0 := fun hxn =>
          hin (huniq n (Nat.lt_succ_self n) (hxn.symm.trans hx)).symm
        rw [if_neg hlast]
        exact hhit i (by omega) (fun k hk => huniq k (by omega)) hx
    · rw [if_neg (hne n (Nat.lt_succ_self n))]
      exact hmiss fun i hi => hne i (by omega)

theorem getD_mem_of_lt {ls : Nats} {i : Nat} (h : i < ls.length) : ls.getD i 0 ∈ ls := by
  rw [List.getD_eq_getElem _ _ h]
  exact List.getElem_mem h

theorem sget_linesPut_line (m : Sparse Byte) {ls : Nats} (hnodup : ls.Nodup) (d : Bytes) {i j : Nat} (hi : i < ls.length)
    (hj : j < 64) : sget 0 (linesPut m ls d) (64 * ls.getD i 0 + j) = d.getD (64 * i + j) 0 := by
  have huniq (k : Nat) (hk : k < ls.length) (h : ls.getD k 0 = ls.getD i 0) : k = i := by
    rw [List.getD_eq_getElem _ _ hk, List.getD_eq_getElem _ _ hi] at h
    exact (hnodup.getElem_inj_iff).mp h
  have hput := (sget_linesPut_steps m ls d (64 * ls.getD i 0 + j) ls.length).1 i hi huniq (by omega)
  have hmod : (64 * ls.getD i 0 + j) % 64 = j := by omega
  rwa [hmod] at hput

theorem sget_linesPut_other (m : Sparse Byte) {ls : Nats} (d : Bytes) {x : Nat} (hx : x / 64 ∉ ls) :
    sget 0 (linesPut m ls d) x = sget 0 m x :=
  (sget_linesPut_steps m ls d x ls.length).2 fun _ hi h => hx (h ▸ getD_mem_of_lt hi)

/-! ### Snapshot copies (R97, R99) -/

section
variable {s : State} {n : Nat}

theorem snapshotCopyStart_starts (hfree : s.se.copying = none) (hwaits : s.se.imgWaits = []) (hnext : s.nextCopy = some n)
    (hsend : ∀ m ∈ s.twl.send, m.ctx ≠ n) : exec (.snapshotCopyStart n) s = .next
      (let t := s.dmWrite .seData (s.lf (Addr.ctxBuf n) 10 0 * 4096) (imgLines s.inImg (s.mapLines n false));
      { t with se := { t.se with copying := some n, copyQ := t.se.copyQ.filter (· ≠ n) } }) := by
  refine congrArg Host.Outcome.next (if_pos ?_)
  simpa [hfree, hwaits, hnext] using hsend

theorem snapshotCopyStart_waits (hbusy : s.se.copying ≠ none) : exec (.snapshotCopyStart n) s = .next s := by
  refine congrArg Host.Outcome.next (if_neg ?_)
  cases hc : s.se.copying
  · exact absurd hc hbusy
  · simp

theorem snapshotCopyEnd_ends (bad : Option Nat) (h : s.se.copying = some n) : exec (.snapshotCopyEnd n bad) s = .next
    (let t : State := { s with se := { s.se with copying := none } }
    bad.elim (t.setCtx n { t.ctx n with copied := true }).dispatch
      fun off => ((t.miuErr 10 0 n 0 false off).ev 0x208 off).integrity n 1) := by
  refine congrArg Host.Outcome.next ((if_neg (not_not.mpr h)).trans ?_)
  cases bad <;> rfl

theorem snapshotCopyEnd_other (bad : Option Nat) (h : s.se.copying ≠ some n) : exec (.snapshotCopyEnd n bad) s = .next s :=
  congrArg Host.Outcome.next (if_pos h)

end

/-! ### Image writes (R19) -/

section
variable {s : State} {t : Nat}

/-- Without a write held back by its source, the turn of a source is over. -/
theorem State.imgTurn_none {s : State} {src : ImgSource} (h : ∀ x ∈ s.se.imgBack, x.src ≠ src) : s.imgTurn src = s := by
  have hfind : s.se.imgBack.find? (fun x => decide (x.src = src)) = none := by simpa using h
  unfold State.imgTurn
  rw [hfind]

/-- A write without a receive stamp and without a loss. -/
theorem State.imgApply_plain {s : State} {w : ImgWrite} (hlat : w.lat = none) (hlost : w.lost = none) : s.imgApply w =
    { s with inImg := imgPut s.inImg w.cells, se := { s.se with trigQ := s.se.trigQ ++ w.trigs } } := by
  unfold State.imgApply
  rw [hlat, hlost]

theorem imageWrite_serves {w : ImgWrite} {ws : List ImgWrite} (hws : (s.at t).se.imgWaits = w :: ws)
    (hfree : (s.at t).se.copying = none) (hlost : w.lost = none) (hlat : w.lat = none)
    (hback : ∀ x ∈ (s.at t).se.imgBack, x.src ≠ w.src) : exec (.imageWrite ⟨w.src, t⟩) s = .next
      { s.at t with
        inImg := imgPut (s.at t).inImg w.cells
        se := { (s.at t).se with imgWaits := ws, trigQ := (s.at t).se.trigQ ++ w.trigs } } := by
  show execImageWrite ⟨w.src, t⟩ s = _
  unfold execImageWrite
  dsimp only
  generalize s.at t = u at hws hfree hback
  rw [hws]
  dsimp only
  rw [if_pos (by simp [hfree]), State.imgApply_plain hlat hlost, State.imgTurn_none]
  exact hback

theorem imageWrite_waits {src : ImgSource} (h : (s.at t).se.copying ≠ none ∨ (s.at t).se.imgWaits = []) :
    exec (.imageWrite ⟨src, t⟩) s = .next (s.at t) := by
  show execImageWrite ⟨src, t⟩ s = _
  unfold execImageWrite
  dsimp only
  generalize s.at t = u at h
  obtain h | h := h
  · cases u.se.imgWaits with
    | nil => rfl
    | cons w ws =>
      refine congrArg Host.Outcome.next (if_neg ?_)
      cases hc : u.se.copying
      · exact absurd hc h
      · simp
  · rw [h]

theorem imageWrite_other {w : ImgWrite} {ws : List ImgWrite} {src : ImgSource} (hws : (s.at t).se.imgWaits = w :: ws)
    (hsrc : w.src ≠ src) : exec (.imageWrite ⟨src, t⟩) s = .next (s.at t) := by
  show execImageWrite ⟨src, t⟩ s = _
  unfold execImageWrite
  dsimp only
  generalize s.at t = u at hws
  rw [hws]
  exact congrArg Host.Outcome.next (if_neg (by simp [hsrc]))

end

/-! ### Publications (R20, R91, R108) -/

section
variable {s : State} {n t : Nat}

theorem publicationEnd_idle (h : ((s.at t).ctx n).st ≠ .publishing) : exec (.publicationEnd n t) s = .next (s.at t) :=
  congrArg Host.Outcome.next (if_pos (by simp [h]))

variable {r : Option Bytes × State} (hst : ((s.at t).ctx n).st = .publishing) (hop : (s.at t).op ≠ .fault)
include hst hop

/-- A publication reads the output buffer and either completes or fails. -/
theorem publicationEnd_reads (hread : (s.at t).dmRead .seData ((s.at t).lf (Addr.ctxBuf n) 26 16 * 4096)
    (64 * ((s.at t).mapLines n true).length) = r) :
    exec (.publicationEnd n t) s = .next (r.1.elim (r.2.integrity n 1) fun d => (r.2.publish n d).complete n) := by
  subst hread
  refine congrArg Host.Outcome.next ((if_neg ?_).trans ?_)
  · rw [Bool.or_eq_true, decide_eq_true_eq, decide_eq_true_eq]
    rintro (h | h)
    · exact h hst
    · exact hop h
  · rcases (s.at t).dmRead .seData ((s.at t).lf (Addr.ctxBuf n) 26 16 * 4096)
      (64 * ((s.at t).mapLines n true).length) with ⟨_ | d, v⟩ <;> rfl

end

/-- Settles O36. -/
theorem snapshotsAndPublications : Obligations.SnapshotsAndPublications := by
  unfold Obligations.SnapshotsAndPublications
  refine ⟨fun s n => ⟨snapshotCopyStart_starts, snapshotCopyStart_waits, fun h => ?_, fun h bad => snapshotCopyEnd_other bad h,
    fun t => ?_⟩, fun s n t => ?_⟩
  · exact ⟨snapshotCopyEnd_ends none h, fun off => snapshotCopyEnd_ends (some off) h⟩
  · exact ⟨fun w ws => imageWrite_serves, fun src => imageWrite_waits, fun w ws src => imageWrite_other⟩
  · intro u ls
    refine ⟨publicationEnd_idle, fun d v hst hop hread => publicationEnd_reads hst hop hread,
      fun v hst hop hread => publicationEnd_reads hst hop hread, fun d hnodup hlen => ⟨fun i j hi hj => ?_, fun x hx => ?_⟩,
      fun out off => rfl⟩
    · rw [State.publish_outImg]
      exact sget_linesPut_line _ hnodup d hi hj
    · rw [State.publish_outImg]
      exact sget_linesPut_other _ d hx

end Sys2Proof.Machine
end

