-- ==== Sys2Proof/Proofs/ScanEngineCommands.lean ====
section
/-! SUPPORT. Maps changed entry by entry, and the SE opcodes (R90, R102, R130). -/

namespace Sys2Proof.Machine

/-! ### A map changed entry by entry -/

section
variable {α : Type}

theorem sget_of_not_mem (d : α) {m : Sparse α} {k : Nat} (h : k ∉ m.map Prod.fst) : sget d m k = d := by
  induction m with
  | nil => rfl
  | cons e r ih =>
    obtain ⟨j, v⟩ := e
    simp only [List.map_cons, List.mem_cons, not_or] at h
    rw [sget, if_neg (Ne.symm h.1), ih h.2]

variable [DecidableEq α]

/-- Entries with keys of their own put over a map: a key reads as its entry, any other as before. -/
theorem sget_smerge (d : α) (m : Sparse α) {n : Sparse α} (hn : (n.map Prod.fst).Nodup) (k : Nat) :
    sget d (smerge d m n) k = if k ∈ n.map Prod.fst then sget d n k else sget d m k := by
  induction n generalizing m with
  | nil => rfl
  | cons e r ih =>
    obtain ⟨j, v⟩ := e
    obtain ⟨hj, hr⟩ := List.nodup_cons.mp hn
    have hstep := ih (sput d m j v) hr
    rw [sget_sput] at hstep
    refine hstep.trans ?_
    by_cases hkj : k = j
    · subst hkj
      rw [if_neg hj, if_pos rfl, if_pos (by simp), sget, if_pos rfl]
    · have hmem : k ∈ ((j, v) :: r).map Prod.fst ↔ k ∈ r.map Prod.fst := by simp [hkj]
      rw [if_neg hkj, sget, if_neg (Ne.symm hkj)]
      simp only [hmem]

omit [DecidableEq α] in
theorem sget_map (d : α) (m : Sparse α) {g : α → α} (hd : g d = d) (k : Nat) :
    sget d (m.map fun e => (e.1, g e.2)) k = g (sget d m k) := by
  induction m with
  | nil => exact hd.symm
  | cons e r ih =>
    obtain ⟨j, v⟩ := e
    rw [List.map_cons, sget, sget, ih]
    split <;> rfl

/-- Every entry of a map changed by a function that leaves the default. -/
theorem sget_smerge_map (d : α) {m : Sparse α} (hm : (m.map Prod.fst).Nodup) {g : α → α} (hd : g d = d) (k : Nat) :
    sget d (smerge d [] (m.map fun e => (e.1, g e.2))) k = g (sget d m k) := by
  have hkeys : (m.map fun e => (e.1, g e.2)).map Prod.fst = m.map Prod.fst := by
    rw [List.map_map]
    rfl
  rw [sget_smerge d [] (hkeys ▸ hm), sget_map d m hd, hkeys]
  by_cases hk : k ∈ m.map Prod.fst
  · rw [if_pos hk]
  · rw [if_neg hk, sget_of_not_mem d hk, hd]
    rfl

end

section
variable {s : State} (h : (s.se.ctxs.map Prod.fst).Nodup) (n : Nat)
include h

theorem State.clrTime_ctx : s.clrTime.ctx n = { s.ctx n with respLast := 0, respMax := 0 } :=
  sget_smerge_map ({} : Ctx) h (g := fun c => { c with respLast := 0, respMax := 0 }) rfl n

theorem State.clrOvr_ctx : s.clrOvr.ctx n = { s.ctx n with ovr := 0 } :=
  sget_smerge_map ({} : Ctx) h (g := fun c => { c with ovr := 0 }) rfl n

end

/-! ### SE_TRIGGER (R102, R130) -/

section
variable {s : State} {q : Req} {b : Byte}

theorem seTrigger_carries_range (h : b.toNat < 16 ∨ 159 < b.toNat) :
    s.Carries q 0x201 (.seTrigger q [b]) ((s.carry q).fail q 0x0201 0x11) :=
  State.carries_of_startLen_eq rfl rfl (if_pos (by simpa using h))

variable (hlo : 16 ≤ b.toNat) (hhi : b.toNat ≤ 159)
include hlo hhi

theorem seTrigger_carries_refused (h : (s.carry q).userEvent b.toNat = false ∨ (s.carry q).op ≠ .run) :
    s.Carries q 0x201 (.seTrigger q [b]) ((s.carry q).fail q 0x0201 0x20) := by
  have hrange : ¬(b.toNat < 16 || 159 < b.toNat) = true := by
    rw [Bool.or_eq_true, decide_eq_true_eq, decide_eq_true_eq]
    omega
  refine State.carries_of_startLen_eq rfl rfl ((if_neg hrange).trans (if_pos ?_))
  rw [Bool.or_eq_true, Bool.not_eq_true', decide_eq_true_eq]
  exact h

theorem seTrigger_carries_triggered (hev : (s.carry q).userEvent b.toNat = true) (hop : (s.carry q).op = .run) :
    s.Carries q 0x201 (.seTrigger q [b]) (((s.carry q).userTrig b.toNat).ok q 0x0201) := by
  have hrange : ¬(b.toNat < 16 || 159 < b.toNat) = true := by
    rw [Bool.or_eq_true, decide_eq_true_eq, decide_eq_true_eq]
    omega
  refine State.carries_of_startLen_eq rfl rfl ((if_neg hrange).trans (if_neg ?_))
  rw [Bool.or_eq_true, Bool.not_eq_true', decide_eq_true_eq]
  rintro (h | h)
  · exact ne_true_of_eq_false h hev
  · exact h hop

end

/-- Settles O37. -/
theorem scanEngineOpcodesAndRegisters : Obligations.ScanEngineOpcodesAndRegisters := by
  unfold Obligations.ScanEngineOpcodesAndRegisters
  intro s q p b n v u
  refine ⟨fun hn => congrArg Host.Outcome.next (if_pos hn), fun hkeys => ⟨⟨_, rfl, State.clrTime_ctx hkeys⟩,
    ⟨_, rfl, State.clrOvr_ctx hkeys⟩⟩, fun hp => State.carries_of_startLen_eq rfl hp rfl, seTrigger_carries_range,
    seTrigger_carries_refused, seTrigger_carries_triggered, State.carries_of_startLen_eq rfl rfl rfl, fun hp => ?_⟩
  · refine State.carries_of_startLen_eq rfl hp ?_
    simp only [maskList, regsBytes, List.flatMap_cons, List.flatMap_nil, List.append_nil, List.append_assoc]
    rfl

end Sys2Proof.Machine
end

