-- ==== Sys2Proof/Proofs/StateChanges.lean ====
section
/-! SUPPORT. Operating states are requested, refused and reached (R75, R119 to R122, R144, R152, R158). -/

namespace Sys2Proof.Machine

/-! ### SYS_STATE_SET (R75, R119 to R121; log entry 114) -/

/-- The code of a state that may be requested. -/
theorem stateOf_of_code {b : Byte} {target : OpState}
    (h : (b.toNat = 2 ∧ target = .stop) ∨ (b.toNat = 3 ∧ target = .run) ∨ (b.toNat = 4 ∧ target = .hold)) :
    stateOf b.toNat = some target := by
  obtain ⟨hb, rfl⟩ | ⟨hb, rfl⟩ | ⟨hb, rfl⟩ := h <;> rw [hb] <;> rfl

/-- What SYS_STATE_SET does to a unit once its code names a state. -/
def State.stateSetReq (s : State) (q : Req) (target : OpState) : State :=
  if s.op = .fault || s.op = .recovery || s.op = .boot then s.fail q 0x0005 0x20
  else if s.role = .tracking || s.role = .joining then s.fail q 0x0005 0x21
  else if s.role = .detached && target ≠ .stop then s.fail q 0x0005 0x21
  else if s.fwu.setinc || (target = .run && !s.se.program) then s.fail q 0x0005 0x20
  else if s.changing then s.fail q 0x0005 0x31
  else if s.op = target then s.ok q 0x0005
  else (s.accept q 0x0005).stateSet target

theorem sysStateSet_carries {s : State} {q : Req} {b : Byte} {target : OpState} (h : stateOf b.toNat = some target) :
    s.Carries q 5 (.sysStateSet q [b]) ((s.carry q).stateSetReq q target) := by
  refine State.carries_of_startLen_eq rfl rfl ?_
  have hb : stateOf (List.getD [b] 0 0).toNat = some target := h
  rw [hb]
  rfl

section
variable {s : State} {q : Req} {target : OpState}

theorem State.stateSetReq_closed (h : s.op = .fault ∨ s.op = .recovery ∨ s.op = .boot) :
    s.stateSetReq q target = s.reply q 5 0x0020 [] := if_pos (by simpa [or_assoc] using h)

variable (hop : s.op = .stop ∨ s.op = .run ∨ s.op = .hold)
include hop

/-- A unit among STOP, RUN and HOLD goes past the first refusal. -/
theorem State.stateSetReq_among : ¬(s.op = .fault || s.op = .recovery || s.op = .boot) = true := by
  obtain h | h | h := hop <;> simp [h]

theorem State.stateSetReq_follower (h : s.role = .tracking ∨ s.role = .joining) :
    s.stateSetReq q target = s.reply q 5 0x0021 [] :=
  (if_neg (State.stateSetReq_among hop)).trans (if_pos (by simpa using h))

variable (hrole : s.role = .solo) (hset : s.fwu.setinc = false)
include hrole hset

omit hset in
theorem State.stateSetReq_noProgram (ht : target = .run) (h : s.se.program = false) :
    s.stateSetReq q target = s.reply q 5 0x0020 [] := by
  refine (if_neg (State.stateSetReq_among hop)).trans ?_
  refine (if_neg (by simp [hrole])).trans ((if_neg (by simp [hrole])).trans (if_pos (by simp [ht, h])))

/-- A SOLO unit past the refusals. -/
theorem State.stateSetReq_solo (h : target ≠ .run ∨ s.se.program = true) : s.stateSetReq q target =
    if s.changing then s.fail q 0x0005 0x31
    else if s.op = target then s.ok q 0x0005
    else (s.accept q 0x0005).stateSet target := by
  have hprog : ¬(s.fwu.setinc || (target = .run && !s.se.program)) = true := by
    obtain h | h := h <;> simp [hset, h]
  exact (if_neg (State.stateSetReq_among hop)).trans
    ((if_neg (by simp [hrole])).trans ((if_neg (by simp [hrole])).trans (if_neg hprog)))

end

/-- An accepted request of a unit alone begins at once out of RUN, and waits for the management tick otherwise. -/
theorem State.stateSet_solo {s : State} (h : s.role = .solo) (target : OpState) : s.stateSet target =
    if s.op = .run then s.leaveRun target
    else { s with se := { s.se with change := some ⟨target, s.utick⟩ } } := if_neg (by simp [h])

theorem State.accept_op (s : State) (q : Req) (op : Nat) : (s.accept q op).op = s.op := by
  rw [State.OnlyReplied.accept s q op []]

theorem State.accept_role (s : State) (q : Req) (op : Nat) : (s.accept q op).role = s.role := by
  rw [State.OnlyReplied.accept s q op []]

/-! ### A state is reached (R119 to R121, R381, R435) -/

section
variable (s : State)

theorem State.noticeAll_none (h : s.hpi.longs = []) (op status : Nat) (data : Bytes) : s.noticeAll op status data = s := by
  rw [State.noticeAll, State.longsOf, h]
  rfl

theorem State.stateReached_quiet (h : s.hpi.longs = []) : ∃ tw, s.stateReached = { s with twl := tw } := by
  rw [State.stateReached, State.noticeAll_none s h]
  exact ⟨_, s.sendCap_eq⟩

/-- Nothing but registers and the recorder differ. -/
def State.RegsEvr (s t : State) : Prop := ∃ r e, t = { s with regs := r, evr := e }

variable {s} in
theorem State.RegsEvr.ev {t : State} (h : s.RegsEvr t) (code d : Nat) : s.RegsEvr (t.ev code d) := by
  obtain ⟨r, e, rfl⟩ := h
  exact State.event_eq _ code (BitVec.ofNat 32 d)

theorem State.RegsEvr.setFld (a hi lo v : Nat) : s.RegsEvr (s.setFld a hi lo v) := ⟨_, _, rfl⟩

variable {s} in
theorem State.RegsEvr.setBit {t : State} (h : s.RegsEvr t) (a i : Nat) (b : Bool) : s.RegsEvr (t.setBit a i b) := by
  obtain ⟨r, e, rfl⟩ := h
  exact ⟨_, _, rfl⟩

theorem State.closeWindow_regsEvr : s.RegsEvr s.closeWindow := by
  unfold State.closeWindow
  split
  · exact ⟨_, _, rfl⟩
  · exact ((State.RegsEvr.setFld s Addr.miuTest 31 25 0).setBit Addr.miuStat 2 false).ev 0x20A 0

theorem State.leaveStop_regsEvr : s.RegsEvr s.leaveStop := by
  obtain ⟨r, e, h⟩ := s.closeWindow_regsEvr
  rw [State.leaveStop, h]
  exact ⟨_, _, rfl⟩

end

/-! ### RUN after STOP without an enabled context (R120, R144, R152, R158) -/

theorem mem_of_mem_sdel {α : Type} {m : Sparse α} {k : Nat} {e : Nat × α} (h : e ∈ sdel m k) : e ∈ m := by
  induction m with
  | nil => exact h
  | cons x r ih =>
    obtain ⟨j, w⟩ := x
    unfold sdel at h
    split at h
    · exact List.mem_cons_of_mem _ (ih h)
    · obtain rfl | h := List.mem_cons.mp h
      · exact List.mem_cons_self
      · exact List.mem_cons_of_mem _ (ih h)

section
variable {α : Type} [DecidableEq α] {d : α}

theorem mem_sput {m : Sparse α} {k : Nat} {v : α} {e : Nat × α} (h : e ∈ sput d m k v) : e = (k, v) ∨ e ∈ m := by
  unfold sput at h
  split at h
  · exact .inr (mem_of_mem_sdel h)
  · exact mem_sins h

theorem mem_smerge {m n : Sparse α} {e : Nat × α} (h : e ∈ smerge d m n) : e ∈ n ∨ e ∈ m := by
  induction n generalizing m with
  | nil => exact .inr h
  | cons x r ih =>
    obtain h | h := ih (m := sput d m x.1 x.2) h
    · exact .inl (List.mem_cons_of_mem _ h)
    · obtain rfl | h := mem_sput h
      · exact .inl List.mem_cons_self
      · exact .inr h

end

theorem resetVal_seHot {n : Nat} (h : n < 256) : resetVal (Addr.seHot n) = 0 := by
  have hall : ∀ n < 256, resetVal (Addr.seHot n) = 0 := by decide +kernel
  exact hall n h

theorem sget_skeep_dropped {α : Type} (d : α) (m : Sparse α) {p : Nat → Bool} {k : Nat} (h : p k = false) :
    sget d (skeep m p) k = d :=
  sget_of_not_mem d fun hk => by
    obtain ⟨e, he, rfl⟩ := List.mem_map.mp hk
    exact ne_true_of_eq_false h (List.mem_filter.mp he).2

/-- Hot words read 0 once they are cleared. -/
theorem State.clearForRun_hot (s : State) {n : Nat} (h : n < 256) : s.clearForRun.rd (Addr.seHot n) = 0 := by
  have hin : (!(decide (Addr.seHot 0 ≤ Addr.seHot n) && decide (Addr.seHot n ≤ Addr.seHot 255))) = false := by
    simp only [Addr.seHot, Bool.not_eq_false', Bool.and_eq_true, decide_eq_true_eq]
    omega
  exact (sget_skeep_dropped (p := fun a => !(decide (Addr.seHot 0 ≤ a) && decide (a ≤ Addr.seHot 255))) _ s.regs hin).trans (resetVal_seHot h)

/-- Timers cleared but for MIR. -/
theorem State.clearForRun_timer (s : State) (h : (s.se.tmb.map Prod.fst).Nodup) (k : Nat) :
    s.clearForRun.timer k = { mir := (s.timer k).mir } :=
  sget_smerge_map ({} : Timer) h (g := fun e => { mir := e.mir }) rfl k

/-- No context has a held trigger once none of them is active. -/
theorem State.quietCtxs_pend (s : State) (fresh : Bool) : ∀ e ∈ (s.quietCtxs fresh).se.ctxs, e.2.pend = false := by
  intro e he
  obtain h | h := mem_smerge he
  · obtain ⟨x, -, rfl⟩ := List.mem_map.mp h
    rfl
  · cases h

/-- CTX7 done without a held trigger and without CTX0. -/
theorem State.ctx7Done_idle {s : State} (hpend : ∀ e ∈ s.se.ctxs, e.2.pend = false) (hen : s.ctxEn 0 = false) :
    s.ctx7Done = { s with se := { s.se with starting := false } } := by
  have hnone : s.se.ctxs.filter (fun e => 16 ≤ e.1 && e.2.pend) = [] := by
    rw [List.filter_eq_nil_iff]
    intro e he
    simp [hpend e he]
  have hen' : ({ s with se := { s.se with starting := false } } : State).ctxEn 0 = false := hen
  unfold State.ctx7Done
  dsimp only
  rw [hnone]
  exact if_neg (by simp [hen'])

/-- RUN entered, with every context quiet. -/
def State.runQuiet (s : State) : State :=
  let t := s.quietCtxs true
  { t with op := .run, se := { t.se with fresh := false, runT := t.utick } }

/-- RUN after STOP: cleared, and counting from 0. -/
def State.runCounting (s : State) : State :=
  { s.runQuiet.clearForRun with se := { s.runQuiet.clearForRun.se with g := 0, gridOn := false } }

/-- RUN after STOP before CTX7. -/
def State.runCleared (s : State) : State :=
  s.runCounting.wr (Addr.seInfo 6) (BitVec.ofNat 32 (b2n s.runCounting.se.warm))

/-- RUN after STOP as it is reached without CTX7. -/
def State.runReady (s : State) : State := { s.runCleared with se := { s.runCleared.se with starting := false } }

/-- HOLD as it is reached. -/
def State.holdReady (s : State) : State := { s.quietCtxs false with op := .hold }

theorem State.enterRun_fresh {s : State} (hfresh : s.se.fresh = true) (hen : ∀ n, s.ctxEn n = false) :
    s.enterRun = s.leaveStop.runReady.stateReached := by
  have hen' (n : Nat) : s.leaveStop.runCleared.ctxEn n = false := by
    obtain ⟨r, e, hleave⟩ := s.leaveStop_regsEvr
    rw [hleave]
    exact hen n
  have hstages : s.enterRun = (if s.leaveStop.runCleared.ctxEn 7 then
      (let t := s.leaveStop.runCleared.release 7; ({ t with se := { t.se with starting := true } } : State))
      else s.leaveStop.runCleared.ctx7Done).stateReached := by
    unfold State.enterRun
    rw [hfresh]
    rfl
  have hdone := State.ctx7Done_idle (s := s.leaveStop.runCleared) (State.quietCtxs_pend s.leaveStop true) (hen' 0)
  rw [hstages, if_neg (ne_true_of_eq_false (hen' 7)), hdone]
  rfl

/-! ### The states reached -/

section
variable {s : State} (hlongs : s.hpi.longs = [])
include hlongs

theorem State.enterStop_eq : ∃ tw, s.enterStop =
    { s.quietCtxs false with op := .stop, outImg := [], se := { (s.quietCtxs false).se with fresh := true }, twl := tw } :=
  State.stateReached_quiet
    { s.quietCtxs false with op := .stop, outImg := [], se := { (s.quietCtxs false).se with fresh := true } } hlongs

theorem State.enterHold_eq : ∃ u tw, s.RegsEvr u ∧ s.enterHold = { u.holdReady with twl := tw } := by
  have hlongs' : s.leaveStop.holdReady.hpi.longs = [] := by
    obtain ⟨r, e, hleave⟩ := s.leaveStop_regsEvr
    rw [hleave]
    exact hlongs
  obtain ⟨tw, h⟩ := State.stateReached_quiet _ hlongs'
  exact ⟨_, tw, s.leaveStop_regsEvr, h⟩

theorem State.enterRun_eq (hfresh : s.se.fresh = true) (hen : ∀ n, s.ctxEn n = false) :
    ∃ u tw, s.RegsEvr u ∧ s.enterRun = { u.runReady with twl := tw } := by
  have hlongs' : s.leaveStop.runReady.hpi.longs = [] := by
    obtain ⟨r, e, hleave⟩ := s.leaveStop_regsEvr
    rw [hleave]
    exact hlongs
  obtain ⟨tw, h⟩ := State.stateReached_quiet _ hlongs'
  exact ⟨_, tw, s.leaveStop_regsEvr, (State.enterRun_fresh hfresh hen).trans h⟩

end

theorem State.rd_of_regs {s t : State} (h : s.regs = t.regs) (a : Nat) : s.rd a = t.rd a := by rw [State.rd, State.rd, h]

theorem State.rd_twl (s : State) (tw : Twl) (a : Nat) : ({ s with twl := tw } : State).rd a = s.rd a := rfl

theorem State.timer_twl (s : State) (tw : Twl) (k : Nat) : ({ s with twl := tw } : State).timer k = s.timer k := rfl

theorem State.runReady_rd (s : State) {a : Nat} (h : a ≠ Addr.seInfo 6) : s.runReady.rd a = s.runQuiet.clearForRun.rd a := by
  have hcleared : s.runReady.rd a = s.runCleared.rd a := State.rd_of_regs (by rw [State.runReady]) a
  have hcounting : s.runCounting.rd a = s.runQuiet.clearForRun.rd a :=
    State.rd_of_regs (by rw [State.runCounting]) a
  rw [hcleared, State.runCleared, State.rd_wr_other _ _ h, hcounting]

theorem State.runReady_hot (s : State) {n : Nat} (h : n < 256) : s.runReady.rd (Addr.seHot n) = 0 := by
  have hne : Addr.seHot n ≠ Addr.seInfo 6 := by
    unfold Addr.seHot Addr.seInfo
    omega
  rw [State.runReady_rd s hne, State.clearForRun_hot _ h]

theorem State.runReady_op (s : State) : s.runReady.op = .run := rfl
theorem State.runReady_dm (s : State) : s.runReady.dm = s.dm := rfl
theorem State.runReady_pm (s : State) : s.runReady.pm = s.pm := rfl

theorem State.runReady_timer {s : State} (h : (s.se.tmb.map Prod.fst).Nodup) (k : Nat) :
    s.runReady.timer k = { mir := (s.timer k).mir } := State.clearForRun_timer _ h k

/-! ### The rows of a state change (R119 to R122) -/

section
variable {s : State} {t : Nat}

theorem stateChangeApply_pfail (h : (s.at t).se.pfail = true) : exec (.stateChangeApply t) s = .next (s.at t) :=
  congrArg Host.Outcome.next (if_pos h)

theorem stateChangeApply_change {c : StateReq} (hc : (s.at t).se.change = some c) (hpf : (s.at t).se.pfail = false)
    (hop : (s.at t).op ≠ .fault) : exec (.stateChangeApply t) s = .next
      (({ s.at t with se := { (s.at t).se with change := none } } : State).reach c.target) := by
  refine congrArg Host.Outcome.next ((if_neg (ne_true_of_eq_false hpf)).trans ?_)
  rw [hc]
  exact if_neg hop

theorem stateChangeApply_none (hc : (s.at t).se.change = none) (hp : (s.at t).twl.pairReq = none) :
    exec (.stateChangeApply t) s = .next (s.at t) := by
  show execStateChangeApply t s = _
  unfold execStateChangeApply
  dsimp only
  generalize s.at t = u at hc hp
  rw [hc, hp]
  exact congrArg Host.Outcome.next (ite_self u)

theorem runExitComplete_stays (h : (s.at t).se.pfail = true ∨ (s.at t).activeInst ≠ [] ∨ (s.at t).se.leaving = none) :
    exec (.runExitComplete t) s = .next (s.at t) := by
  show execRunExitComplete t s = _
  unfold execRunExitComplete
  dsimp only
  generalize s.at t = u at h
  cases hl : u.se.leaving with
  | none => rfl
  | some l =>
    refine congrArg Host.Outcome.next (if_neg ?_)
    obtain h | h | h := h
    · simp [h]
    · simp [h]
    · simp [h] at hl

theorem runExitComplete_reaches {l : StateReq} (hl : (s.at t).se.leaving = some l) (hop : (s.at t).op = .run)
    (hpf : (s.at t).se.pfail = false) (hinst : (s.at t).activeInst = []) :
    exec (.runExitComplete t) s = .next ((s.at t).reach l.target) := by
  show execRunExitComplete t s = _
  unfold execRunExitComplete
  dsimp only
  generalize s.at t = u at hl hop hpf hinst
  rw [hl]
  exact congrArg Host.Outcome.next (if_pos (by simp [hop, hpf, hinst]))

theorem runExitAbandon_pfail (h : (s.at t).se.pfail = true) : exec (.runExitAbandon t) s = .next (s.at t) := by
  show execRunExitAbandon t s = _
  unfold execRunExitAbandon
  dsimp only
  generalize s.at t = u at h
  cases u.se.leaving with
  | none => rfl
  | some l => exact congrArg Host.Outcome.next (if_neg (by simp [h]))

variable {l : StateReq} (hl : (s.at t).se.leaving = some l)
include hl

theorem runExitAbandon_early (h : (s.at t).utick < l.t + 10000000) : exec (.runExitAbandon t) s = .next (s.at t) := by
  show execRunExitAbandon t s = _
  unfold execRunExitAbandon
  dsimp only
  generalize s.at t = u at hl h
  rw [hl]
  exact congrArg Host.Outcome.next (if_neg (by simp [not_le.mpr h]))

theorem runExitAbandon_abandons (hop : (s.at t).op = .run) (hpf : (s.at t).se.pfail = false)
    (h : l.t + 10000000 ≤ (s.at t).utick) : exec (.runExitAbandon t) s = .next
      (((s.at t).activeInst.foldl (fun s n => s.abandonInst n) (s.at t)).reach l.target) := by
  show execRunExitAbandon t s = _
  unfold execRunExitAbandon
  dsimp only
  generalize s.at t = u at hl hop hpf h
  rw [hl]
  exact congrArg Host.Outcome.next (if_pos (by simp [hop, hpf, h]))

end

section
variable {s : State} {t : Nat}

theorem ctx4Timeout_cuts {t0 : Nat} (h0 : (s.at t).se.ctx4At = some t0) (hpf : (s.at t).se.pfail = true)
    (h : t0 + 200000 ≤ (s.at t).utick) : exec (.ctx4Timeout t) s = .next (((s.at t).closeOpen 4 true).ctx4End) := by
  show execCtx4Timeout t s = _
  unfold execCtx4Timeout
  dsimp only
  generalize s.at t = u at h0 hpf h
  rw [h0]
  exact congrArg Host.Outcome.next (if_pos (by simp [hpf, h]))

theorem ctx4Timeout_stays (hpf : (s.at t).se.pfail = false) : exec (.ctx4Timeout t) s = .next (s.at t) := by
  show execCtx4Timeout t s = _
  unfold execCtx4Timeout
  dsimp only
  generalize s.at t = u at hpf
  cases u.se.ctx4At with
  | none => rfl
  | some t0 => exact congrArg Host.Outcome.next (if_neg (by simp [hpf]))

end

/-- Settles O38. -/
theorem stateChangesAreRequestedAndReached : Obligations.StateChangesAreRequestedAndReached := by
  unfold Obligations.StateChangesAreRequestedAndReached
  refine ⟨fun s q b target => ?_, fun s t => ?_⟩
  · intro u set hcode
    have hset : set (u.stateSetReq q target) := sysStateSet_carries (stateOf_of_code hcode)
    refine ⟨fun h => ?_, fun hop h => ?_, fun hop hrole hsetinc ht h => ?_, fun hop hrole hsetinc h => ?_⟩
    · rwa [State.stateSetReq_closed h] at hset
    · rwa [State.stateSetReq_follower hop h] at hset
    · rwa [State.stateSetReq_noProgram hop hrole ht h] at hset
    · rw [State.stateSetReq_solo hop hrole hsetinc h] at hset
      have hacc : (u.accept q 5).stateSet target = if u.op = .run then (u.accept q 5).leaveRun target
          else { u.accept q 5 with se := { (u.accept q 5).se with change := some ⟨target, (u.accept q 5).utick⟩ } } := by
        rw [State.stateSet_solo ((State.accept_role u q 5).trans hrole)]
        exact if_congr (by rw [State.accept_op]) rfl rfl
      refine ⟨fun hc => ?_, fun hc ht => ?_, fun hc ht hrun => ?_, fun hc ht hrun => ?_⟩
      · rwa [if_pos hc] at hset
      · rwa [if_neg (ne_true_of_eq_false hc), if_pos ht] at hset
      · rwa [if_neg (ne_true_of_eq_false hc), if_neg ht, hacc, if_pos hrun] at hset
      · rwa [if_neg (ne_true_of_eq_false hc), if_neg ht, hacc, if_neg hrun] at hset
  · intro u
    refine ⟨fun h => ⟨stateChangeApply_pfail h, runExitComplete_stays (.inl h), runExitAbandon_pfail h⟩,
      fun c => stateChangeApply_change, stateChangeApply_none, fun l => runExitComplete_reaches,
      fun h => runExitComplete_stays (.inr h), fun l => runExitAbandon_early, fun l => runExitAbandon_abandons,
      fun t0 => ctx4Timeout_cuts, ctx4Timeout_stays, fun _ hlongs => ?_, fun _ hlongs => ?_,
      fun hrole hlongs hfresh htmb hen => ?_⟩
    · obtain ⟨tw, h⟩ := State.enterStop_eq hlongs
      intro v
      rw [show v = _ from h]
      exact ⟨rfl, rfl, rfl, rfl, rfl, rfl, rfl, rfl, rfl, rfl⟩
    · obtain ⟨v, tw, ⟨r, e, rfl⟩, h⟩ := State.enterHold_eq hlongs
      intro v
      rw [show v = _ from h]
      exact ⟨rfl, rfl, rfl, rfl, rfl, rfl⟩
    · obtain ⟨w, tw, ⟨r, e, hw⟩, h⟩ := State.enterRun_eq hlongs hfresh hen
      have hreach : s.reach .run = s.enterRun := if_neg (by simp [hrole])
      intro v
      rw [show v = _ from hreach.trans h]
      refine ⟨w.runReady_op, rfl, rfl, rfl, fun n hn => ?_, fun k => ?_,
        w.runReady_dm.trans (by rw [hw]), w.runReady_pm.trans (by rw [hw])⟩
      · exact (State.rd_twl w.runReady tw _).trans (State.runReady_hot w hn)
      · have htimer := State.runReady_timer (s := w) (by rw [hw]; exact htmb) k
        rw [show (w.timer k).mir = (s.timer k).mir by rw [hw]; rfl] at htimer
        rw [State.timer_twl, htimer]
        exact ⟨rfl, rfl, rfl⟩

end Sys2Proof.Machine
end

