-- ==== Sys2Proof/Proofs/ChamberAndSwap.lean ====
section
/-! SUPPORT. The chamber and its opcodes, the swap's start and end, the stall of a shaft (R128, R189 to R212). -/

namespace Sys2Proof.Machine

/-! ### The opcodes of the chamber (R189, R192, R212) -/

section
variable {s : State} {q : Req} {p : Bytes}

section
variable (hp : p = [])
include hp

theorem seChamberOpen_carries_opened (h : (s.carry q).se.swap.chamber = .empty ∨ (s.carry q).se.swap.chamber = .loaded) :
    s.Carries q 0x210 (.seChamberOpen q p) (((s.carry q).setChamber .open).ok q 0x0210) := by
  refine State.carries_of_startLen_eq rfl (by rw [hp]; rfl) ?_
  obtain h | h := h <;> rw [h]

theorem seChamberOpen_carries_open (h : (s.carry q).se.swap.chamber = .open) :
    s.Carries q 0x210 (.seChamberOpen q p) ((s.carry q).ok q 0x0210) := by
  refine State.carries_of_startLen_eq rfl (by rw [hp]; rfl) ?_
  rw [h]

theorem seChamberOpen_carries_busy (h : (s.carry q).se.swap.chamber = .closing ∨ (s.carry q).se.swap.chamber = .armed ∨
    (s.carry q).se.swap.chamber = .swapping) :
    s.Carries q 0x210 (.seChamberOpen q p) ((s.carry q).fail q 0x0210 0x31) := by
  refine State.carries_of_startLen_eq rfl (by rw [hp]; rfl) ?_
  obtain h | h | h := h <;> rw [h]

theorem seChamberClose_carries_closing (h : (s.carry q).se.swap.chamber = .open) :
    s.Carries q 0x212 (.seChamberClose q p) (((s.carry q).accept q 0x0212).setChamber .closing) :=
  State.carries_of_startLen_eq rfl (by rw [hp]; rfl) (if_neg (not_not.mpr h))

theorem seChamberClose_carries_refused (h : (s.carry q).se.swap.chamber ≠ .open) :
    s.Carries q 0x212 (.seChamberClose q p) ((s.carry q).fail q 0x0212 0x20) :=
  State.carries_of_startLen_eq rfl (by rw [hp]; rfl) (if_pos h)

theorem seSwapDisarm_carries_disarmed (h : (s.carry q).se.swap.chamber = .armed) :
    s.Carries q 0x214 (.seSwapDisarm q p) (((s.carry q).disarm 3).ok q 0x0214) := by
  refine State.carries_of_startLen_eq rfl (by rw [hp]; rfl) ?_
  rw [h]

theorem seSwapDisarm_carries_busy (h : (s.carry q).se.swap.chamber = .swapping) :
    s.Carries q 0x214 (.seSwapDisarm q p) ((s.carry q).fail q 0x0214 0x31) := by
  refine State.carries_of_startLen_eq rfl (by rw [hp]; rfl) ?_
  rw [h]

theorem seSwapDisarm_carries_refused (ha : (s.carry q).se.swap.chamber ≠ .armed) (hs : (s.carry q).se.swap.chamber ≠ .swapping) :
    s.Carries q 0x214 (.seSwapDisarm q p) ((s.carry q).fail q 0x0214 0x20) := by
  refine State.carries_of_startLen_eq rfl (by rw [hp]; rfl) ?_
  cases hch : (s.carry q).se.swap.chamber
  case armed => exact absurd hch ha
  case swapping => exact absurd hch hs
  all_goals rfl

theorem seSwapStatus_carries : s.Carries q 0x215 (.seSwapStatus q p) ((s.carry q).ok q 0x0215
    (wordBytes ((s.carry q).rd Addr.seSwapStat) ++
      wordBytes (if (s.carry q).se.swap.chamber = .loaded then (s.carry q).rd Addr.seSwapMig else 0) ++
      regsBytes (s.carry q) [Addr.seSwapTime, Addr.seSwapErraddr])) := by
  refine State.carries_of_startLen_eq rfl (by rw [hp]; rfl) ?_
  simp only [regsBytes, List.flatMap_cons, List.flatMap_nil, List.append_nil, ← List.append_assoc]
  rfl

end

/-! ### SE_CHAMBER_WRITE -/

section
variable (hlen : 8 ≤ p.length) (hmod : (p.length - 8) % 8 = 0) (hmax : p.length - 8 ≤ 4072)
include hlen hmod hmax

/-- A payload of the right length goes past the length rule of R212. -/
theorem chamberWrite_length : ¬(p.length < 8 || (p.drop 8).length % 8 ≠ 0 || 4072 < (p.drop 8).length) = true := by
  rw [List.length_drop]
  simp only [Bool.or_eq_true, decide_eq_true_eq]
  omega

theorem seChamberWrite_carries_closed (h : (s.carry q).se.swap.chamber ≠ .open) :
    s.Carries q 0x211 (.seChamberWrite q p) ((s.carry q).fail q 0x0211 0x20) :=
  State.carries_of_start_eq rfl ((if_neg (chamberWrite_length hlen hmod hmax)).trans (if_pos h))

variable (hopen : (s.carry q).se.swap.chamber = .open)
include hopen

theorem seChamberWrite_carries_range (h : field p 0 4 % 8 ≠ 0 ∨ 0x800000 < field p 0 4 + (p.length - 8)) :
    s.Carries q 0x211 (.seChamberWrite q p) ((s.carry q).fail q 0x0211 0x11) := by
  refine State.carries_of_start_eq rfl ((if_neg (chamberWrite_length hlen hmod hmax)).trans
    ((if_neg (not_not.mpr hopen)).trans (if_pos ?_)))
  rw [Bool.or_eq_true, decide_eq_true_eq, decide_eq_true_eq, List.length_drop]
  exact h

theorem seChamberWrite_carries_written (hal : field p 0 4 % 8 = 0) (hin : field p 0 4 + (p.length - 8) ≤ 0x800000) :
    s.Carries q 0x211 (.seChamberWrite q p)
      (((s.carry q).writeBytes .mgcCommand ((s.carry q).chamberBase + field p 0 4) (p.drop 8)).ok q 0x0211) := by
  refine State.carries_of_start_eq rfl ((if_neg (chamberWrite_length hlen hmod hmax)).trans
    ((if_neg (not_not.mpr hopen)).trans (if_neg ?_)))
  rw [Bool.or_eq_true, decide_eq_true_eq, decide_eq_true_eq, List.length_drop]
  rintro (h | h)
  · exact h hal
  · exact absurd hin (not_le.mpr h)

end

/-! ### SE_SWAP_ARM (R210) -/

/-- What SE_SWAP_ARM does to a unit that decides, by the state of its chamber. -/
def State.swapArmDecided (u : State) (q : Req) (t : Nat) : State :=
  match u.se.swap.chamber with
  | .armed => u.fail q 0x0213 0x31
  | .swapping => u.fail q 0x0213 0x31
  | .loaded =>
    if u.commits.any fun c => c.blk = .se then u.fail q 0x0213 0x31
    else if u.role = .primary then
      match u.twinCheck with
      | (true, s) => s.arm q t
      | (false, s) => (s.ev 0x096 0).fail q 0x0213 0x20
    else u.arm q t
  | _ => u.fail q 0x0213 0x20

section
variable (hlen : p.length = 4) (hlo : 1 ≤ (p.getD 0 0).toNat) (hhi : (p.getD 0 0).toNat ≤ 60)
include hlen hlo hhi

omit hlen in
/-- The time-out is in its range. -/
theorem swapArm_timeout : ¬((p.getD 0 0).toNat = 0 || 60 < (p.getD 0 0).toNat) = true := by
  simp only [Bool.or_eq_true, decide_eq_true_eq]
  omega

theorem seSwapArm_carries_closed (h : ¬((s.carry q).op = .stop ∨ (s.carry q).op = .run ∨ (s.carry q).op = .hold)) :
    s.Carries q 0x213 (.seSwapArm q p) ((s.carry q).fail q 0x0213 0x20) := by
  refine State.carries_of_startLen_eq rfl hlen ((if_neg (swapArm_timeout hlo hhi)).trans (if_pos ?_))
  cases hop : (s.carry q).op <;> simp [hop] at h ⊢

variable (hop : (s.carry q).op = .stop ∨ (s.carry q).op = .run ∨ (s.carry q).op = .hold)
include hop

omit hlen hlo hhi in
theorem swapArm_open : ¬((s.carry q).op = .boot || (s.carry q).op = .recovery || (s.carry q).op = .fault) = true := by
  obtain h | h | h := hop <;> simp [h]

theorem seSwapArm_carries_follower (h : ¬((s.carry q).role ≠ .tracking ∧ (s.carry q).role ≠ .joining)) :
    s.Carries q 0x213 (.seSwapArm q p) ((s.carry q).fail q 0x0213 0x21) := by
  refine State.carries_of_startLen_eq rfl hlen ((if_neg (swapArm_timeout hlo hhi)).trans
    ((if_neg (swapArm_open hop)).trans (if_pos ?_)))
  rw [Bool.or_eq_true, decide_eq_true_eq, decide_eq_true_eq]
  tauto

variable (hrole : (s.carry q).role ≠ .tracking ∧ (s.carry q).role ≠ .joining)
include hrole

theorem seSwapArm_carries_decides :
    s.Carries q 0x213 (.seSwapArm q p) ((s.carry q).swapArmDecided q (p.getD 0 0).toNat) := by
  refine State.carries_of_startLen_eq rfl hlen ((if_neg (swapArm_timeout hlo hhi)).trans
    ((if_neg (swapArm_open hop)).trans ((if_neg ?_).trans ?_)))
  · rw [Bool.or_eq_true, decide_eq_true_eq, decide_eq_true_eq]
    tauto
  · rfl

end

section
variable {u : State} {t : Nat}

theorem State.swapArmDecided_busy (h : u.se.swap.chamber = .armed ∨ u.se.swap.chamber = .swapping) :
    u.swapArmDecided q t = u.fail q 0x0213 0x31 := by
  unfold State.swapArmDecided
  obtain h | h := h <;> rw [h]

theorem State.swapArmDecided_notLoaded (h : u.se.swap.chamber = .empty ∨ u.se.swap.chamber = .open ∨ u.se.swap.chamber = .closing) :
    u.swapArmDecided q t = u.fail q 0x0213 0x20 := by
  unfold State.swapArmDecided
  obtain h | h | h := h <;> rw [h]

variable (hloaded : u.se.swap.chamber = .loaded)
include hloaded

theorem State.swapArmDecided_commit (h : ∃ c ∈ u.commits, c.blk = .se) : u.swapArmDecided q t = u.fail q 0x0213 0x31 := by
  unfold State.swapArmDecided
  rw [hloaded]
  exact if_pos (by simpa using h)

theorem State.swapArmDecided_arms (hrole : u.role ≠ .primary) (h : ∀ c ∈ u.commits, c.blk ≠ .se) :
    u.swapArmDecided q t = u.arm q t := by
  unfold State.swapArmDecided
  rw [hloaded]
  exact (if_neg (by simpa using h)).trans (if_neg hrole)

end

end

/-! ### CHAMBER_CHECK_END (R192) -/

section
variable {s : State} (hclosing : s.se.swap.chamber = .closing) (hlost : s.imageLost s.chamberImage = none)
include hclosing hlost

theorem chamberCheckEnd_fails {o : Nat} (h : s.chamberImage.fail = some o) :
    exec .chamberCheckEnd s = .next ((s.setChamber .open).noticeAll 0x212 0x0211 (leBytes 4 o)) := by
  show execChamberCheckEnd s = _
  unfold execChamberCheckEnd
  rw [if_neg (not_not.mpr hclosing)]
  dsimp only
  rw [hlost, h]

theorem chamberCheckEnd_loads (h : s.chamberImage.fail = none) :
    let d := s.chamberImage.bytes 0x40 32
    let t := (s.wrs (Addr.seChamberDigest 0) (toWords d)).wr Addr.seSwapMig (BitVec.ofNat 32 (migKib s.chamberImage.recs))
    exec .chamberCheckEnd s = .next ((t.setChamber .loaded).noticeAll 0x212 0x0200 d) := by
  show execChamberCheckEnd s = _
  unfold execChamberCheckEnd
  rw [if_neg (not_not.mpr hclosing)]
  dsimp only
  rw [hlost, h]

end

/-- Settles O39. -/
theorem theChamberIsLoadedAndArmed : Obligations.TheChamberIsLoadedAndArmed := by
  unfold Obligations.TheChamberIsLoadedAndArmed
  refine ⟨fun s q p => ?_, fun s q p => ?_⟩
  · intro u ch off n
    refine ⟨fun hp => ⟨seChamberOpen_carries_opened hp, seChamberOpen_carries_open hp, seChamberOpen_carries_busy hp,
      seChamberClose_carries_closing hp, seChamberClose_carries_refused hp⟩, fun hlen hmod hmax =>
      ⟨seChamberWrite_carries_closed hlen hmod hmax, seChamberWrite_carries_range hlen hmod hmax,
      seChamberWrite_carries_written hlen hmod hmax⟩, fun h => congrArg Host.Outcome.next (if_pos h),
      fun hclosing hlost => ⟨fun o => chamberCheckEnd_fails hclosing hlost, chamberCheckEnd_loads hclosing hlost⟩⟩
  · intro u ch t free decides
    refine ⟨fun hlen hlo hhi => ?_, fun hp => ⟨seSwapDisarm_carries_disarmed hp, seSwapDisarm_carries_busy hp,
      seSwapDisarm_carries_refused hp, seSwapStatus_carries hp⟩⟩
    have harm (hop : free) (hrole : decides) : s.Carries q 0x213 (.seSwapArm q p) (u.swapArmDecided q t) :=
      seSwapArm_carries_decides hlen hlo hhi hop hrole
    refine ⟨seSwapArm_carries_closed hlen hlo hhi, seSwapArm_carries_follower hlen hlo hhi, fun hop hrole h => ?_,
      fun hop hrole h => ?_, fun hop hrole h hc => ?_, fun hop hrole hprim h hc => ?_⟩
    · have hcarries := harm hop hrole
      rwa [State.swapArmDecided_busy h] at hcarries
    · have hcarries := harm hop hrole
      rwa [State.swapArmDecided_notLoaded h] at hcarries
    · have hcarries := harm hop hrole
      rwa [State.swapArmDecided_commit h hc] at hcarries
    · have hcarries := harm hop hrole
      rwa [State.swapArmDecided_arms h hprim hc] at hcarries

/-! ### The swap starts and ends (R194 to R197, R200) -/

section
variable {s : State} {t : Nat}

theorem swapStart_solo (harmed : (s.at t).se.swap.chamber = .armed) (hrole : (s.at t).role = .solo)
    (hpf : (s.at t).se.pfail = false)
    (hop : (s.at t).op = .stop ∨ (s.at t).op = .hold ∨ ((s.at t).op = .run ∧ (s.at t).slack (s.at t).tSw = true)) :
    exec (.swapStart t) s = .next (s.at t).swapBegin := by
  refine congrArg Host.Outcome.next (if_pos ?_)
  generalize s.at t = u at harmed hrole hpf hop
  obtain h | h | ⟨h, hslack⟩ := hop
  · simp [State.swapMayStart, harmed, hrole, hpf, h]
  · simp [State.swapMayStart, harmed, hrole, hpf, h]
  · simp [State.swapMayStart, harmed, hrole, hpf, h, hslack]

theorem swapStart_noSlack (hrole : (s.at t).role = .solo) (hop : (s.at t).op = .run)
    (hslack : (s.at t).slack (s.at t).tSw = false) : exec (.swapStart t) s = .next (s.at t) := by
  refine congrArg Host.Outcome.next (if_neg ?_)
  generalize s.at t = u at hrole hop hslack
  simp [State.swapMayStart, hrole, hop, hslack]

theorem swapEnd_none (h : (s.at t).se.swap.chamber ≠ .swapping) : exec (.swapEnd t) s = .next (s.at t) :=
  congrArg Host.Outcome.next (if_neg (by rw [State.swapping, decide_eq_true_eq]; exact h))

theorem swapEnd_ends (h : (s.at t).se.swap.chamber = .swapping) : exec (.swapEnd t) s = .next
    ((s.at t).se.swap.held.foldl (fun v x => v.heldAccess x)
      ({ s.at t with se := { (s.at t).se with swap := { (s.at t).se.swap with held := [] } } } : State).swapFinish) :=
  congrArg Host.Outcome.next (if_pos (by rw [State.swapping, decide_eq_true_eq]; exact h))

theorem State.wrs_se (s : State) (a : Nat) (ws : Words) : (s.wrs a ws).se = s.se := by
  induction ws generalizing s a with
  | nil => rfl
  | cons w ws ih => exact ih (s.wr a w) (a + 4)

theorem State.swapSteps_program (s : State) (i : Image) :
    (s.swapSteps i).se.program = true ∧ (s.swapSteps i).se.regions = i.regions := by
  unfold State.swapSteps
  dsimp only
  rw [State.wrs_se]
  exact ⟨rfl, rfl⟩

theorem swapTimeout_abandons (harmed : (s.at t).se.swap.chamber = .armed) (hrole : (s.at t).role ≠ .tracking)
    (h : (s.at t).se.swap.armT + (s.at t).se.swap.timeout * 100000000 ≤ (s.at t).utick) :
    exec (.swapTimeout t) s = .next ((s.at t).abandonSwap 2) := by
  refine congrArg Host.Outcome.next (if_pos ?_)
  simp only [Bool.and_eq_true, decide_eq_true_eq]
  exact ⟨⟨hrole, harmed⟩, h⟩

theorem swapTimeout_stays (h : (s.at t).se.swap.chamber ≠ .armed ∨ (s.at t).role = .tracking ∨
    (s.at t).utick < (s.at t).se.swap.armT + (s.at t).se.swap.timeout * 100000000) :
    exec (.swapTimeout t) s = .next (s.at t) := by
  refine congrArg Host.Outcome.next (if_neg ?_)
  simp only [Bool.and_eq_true, decide_eq_true_eq]
  rintro ⟨⟨hrole, harmed⟩, hlate⟩
  obtain h | h | h := h
  · exact h harmed
  · exact hrole h
  · exact absurd hlate (not_le.mpr h)

/-! ### The holds of a pair's attempt (R206) -/

theorem swapAttemptLapse_none (h : (s.at t).twl.exch = none) : exec (.swapAttemptLapse t) s = .next (s.at t) := by
  show execSwapAttemptLapse t s = _
  unfold execSwapAttemptLapse
  dsimp only
  rw [h]

variable {e : Exch} (he : (s.at t).twl.exch = some e)
include he

theorem swapAttemptLapse_lapses (h : (e.go = false ∧ e.gs ≤ (s.at t).se.g) ∨ e.gs < (s.at t).se.g) :
    exec (.swapAttemptLapse t) s = .next
      (({ s.at t with twl := { (s.at t).twl with exch := none } } : State).releaseHeld.dispatch) := by
  show execSwapAttemptLapse t s = _
  unfold execSwapAttemptLapse
  dsimp only
  rw [he]
  refine congrArg Host.Outcome.next (if_pos ?_)
  simp only [Bool.and_eq_true, Bool.or_eq_true, Bool.not_eq_true', decide_eq_true_eq]
  obtain ⟨hgo, hle⟩ | hlt := h
  · exact ⟨hle, .inl hgo⟩
  · exact ⟨hlt.le, .inr hlt⟩

theorem swapAttemptLapse_stays (h : (s.at t).se.g < e.gs ∨ (e.go = true ∧ (s.at t).se.g = e.gs)) :
    exec (.swapAttemptLapse t) s = .next (s.at t) := by
  show execSwapAttemptLapse t s = _
  unfold execSwapAttemptLapse
  dsimp only
  rw [he]
  refine congrArg Host.Outcome.next (if_neg ?_)
  simp only [Bool.and_eq_true, Bool.or_eq_true, Bool.not_eq_true', decide_eq_true_eq]
  rintro ⟨hle, hrest⟩
  obtain h | ⟨hgo, heq⟩ := h
  · exact absurd hle (not_le.mpr h)
  · obtain hgo' | hlt := hrest
    · exact ne_true_of_eq_false hgo' hgo
    · exact absurd hlt (not_lt.mpr heq.le)

end

/-! ### A shaft that stands still (R128) -/

section
variable {s : State} {n t : Nat}

theorem shaftStall_early (h : (s.at t).utick < ((s.at t).shaft n).since + (s.at t).lf (Addr.shLim n) 31 16 * 100000) :
    exec (.shaftStall n t) s = .next (s.at t) := by
  refine congrArg Host.Outcome.next (if_neg ?_)
  rw [Bool.and_eq_true, decide_eq_true_eq]
  rintro ⟨-, hlate⟩
  exact absurd hlate (not_le.mpr h)

theorem shaftStall_stalls (hn : n < 32) (hppr : (s.at t).ppr n ≠ 0) (hlim : (s.at t).lf (Addr.shLim n) 31 16 ≠ 0)
    (hmoves : (s.at t).shStopped n = false)
    (h : ((s.at t).shaft n).since + (s.at t).lf (Addr.shLim n) 31 16 * 100000 ≤ (s.at t).utick) :
    exec (.shaftStall n t) s = .next
      (let v := (((s.at t).wr (Addr.shPhase n) ((s.at t).shPhaseReg n)).setBit (Addr.shStat n) 1 true).setBit (Addr.shStat n) 0 false;
      (v.wr (Addr.shPeriod n) 0).ev 0x088 n) := by
  refine congrArg Host.Outcome.next (if_pos ?_)
  simp only [Bool.and_eq_true, decide_eq_true_eq, Bool.not_eq_true']
  exact ⟨⟨⟨⟨hn, hppr⟩, hlim⟩, hmoves⟩, h⟩

end

/-- Settles O40. -/
theorem swapsStartAtSlackPointsAndEnd : Obligations.SwapsStartAtSlackPointsAndEnd := by
  unfold Obligations.SwapsStartAtSlackPointsAndEnd
  intro s t u w
  exact ⟨swapStart_solo, fun _ => swapStart_noSlack, swapEnd_none, swapEnd_ends, fun a v => rfl,
    State.swapSteps_program u u.chamberImage, swapTimeout_abandons, swapTimeout_stays, swapAttemptLapse_none,
    fun e => swapAttemptLapse_lapses, fun e => swapAttemptLapse_stays,
    fun n hn hppr hlim hmoves => ⟨shaftStall_early, shaftStall_stalls hn hppr hlim hmoves⟩⟩

end Sys2Proof.Machine
end

