-- ==== Sys2Proof/Proofs/IndicatorEngine.lean ====
section
/-! SUPPORT. Records taken or dropped, time-outs, and the IXE opcodes (R216, R217, R228, R237, R238). -/

namespace Sys2Proof.Machine

/-- One byte of a payload as a field. -/
theorem field_one (p : Bytes) (i : Nat) : field p i 1 = (p.getD i 0).toNat := by simp [field, slice, leNat]

/-! ### Finite encodings -/

theorem f32_mag {x : Nat} : fMag f32 x = x % 2 ^ 31 := rfl

theorem f32_finite {x : Nat} (h : x % 2 ^ 31 < 0x7F800000) : fIsNan f32 x = false ∧ fIsInf f32 x = false := by
  have hinf : f32.inf = 0x7F800000 := rfl
  constructor
  · rw [fIsNan, f32_mag, hinf, decide_eq_false_iff_not]
    exact not_lt.mpr h.le
  · rw [fIsInf, f32_mag, hinf, decide_eq_false_iff_not]
    exact h.ne

theorem finNonNeg_of_lt {x : Nat} (h : x < 0x7F800000) : finNonNeg x = true := by
  have hmod : x % 2 ^ 31 = x := Nat.mod_eq_of_lt (by omega)
  obtain ⟨hnan, hinf⟩ := f32_finite (x := x) (by rw [hmod]; exact h)
  have hsign : fSign f32 x = false := by
    have hbit : f32.signBit = 2 ^ 31 := rfl
    rw [fSign, hbit, decide_eq_false_iff_not]
    omega
  have hlt : fLt f32 x 0 = false := by
    have hzero : fSign f32 0 = false := rfl
    have hmag : fMag f32 0 = 0 := rfl
    rw [fLt, hsign, hzero, hmag]
    split <;> simp
  rw [finNonNeg, hnan, hinf, hlt]
  rfl

/-! ### Records (R216, R217) -/

section
variable {s : State} {t : Nat}

theorem ixeRecord_none (h : (s.at t).ixe.inq = []) : exec (.ixeRecord t) s = .next (s.at t) := by
  show execIxeRecord t s = _
  unfold execIxeRecord
  dsimp only
  rw [h]

theorem ixeRecord_takes {r : IxeRec} {rest : List IxeRec} (h : (s.at t).ixe.inq = r :: rest) :
    exec (.ixeRecord t) s = .next (({ s.at t with ixe := { (s.at t).ixe with inq := rest } } : State).takeRecord r) := by
  show execIxeRecord t s = _
  unfold execIxeRecord
  dsimp only
  rw [h]

end

section
variable {w : State} {r : IxeRec}

theorem State.takeRecord_unmapped (h : field r.data 0 8 % 8192 ≥ 6144 ∨ w.ptEn (field r.data 0 8 % 8192) = false ∨
    w.ptFailed (field r.data 0 8 % 8192) = true ∨ w.ixeRuns = false) : w.takeRecord r = w.inc Addr.ixeDropUnmap := by
  refine if_pos ?_
  simp only [Bool.or_eq_true, Bool.not_eq_true', decide_eq_true_eq]
  obtain h | h | h | h := h
  · exact .inl (.inl (.inr h))
  · exact .inl (.inr h)
  · exact .inr h
  · exact .inl (.inl (.inl h))

variable {x : State} {bs : Bytes}
  (hp : field r.data 0 8 % 8192 < 6144) (hen : w.ptEn (field r.data 0 8 % 8192) = true)
  (hfailed : w.ptFailed (field r.data 0 8 % 8192) = false) (hruns : w.ixeRuns = true)
  (hread : w.readBytes .ixe (Addr.ixePoint00 (field r.data 0 8 % 8192)) 64 = (some bs, x))

/-- Port and station of a point that was read are those of the record. -/
def State.namesSource (x : State) (r : IxeRec) : Prop :=
  x.lf (Addr.ixePoint08 (field r.data 0 8 % 8192)) 3 0 = r.port ∧ x.lf (Addr.ixePoint08 (field r.data 0 8 % 8192)) 10 4 = r.stn

/-- The records since the last one of the point, modulo 256. -/
def State.seqAhead (x : State) (r : IxeRec) : Nat :=
  (field r.data 0 8 / 2 ^ 13 % 256 + 256 - x.fld (Addr.ixePoint20 (field r.data 0 8 % 8192)) 15 8) % 256

/-- The point takes a record of any sequence number. -/
def State.anySeqNo (x : State) (r : IxeRec) : Bool :=
  !x.ptValid (field r.data 0 8 % 8192) || x.ixe.anySeq.contains (field r.data 0 8 % 8192)

include hp hen hfailed hruns hread

/-- A record of an enabled point whose page can be read. -/
theorem State.takeRecord_read : w.takeRecord r =
    if x.lf (Addr.ixePoint08 (field r.data 0 8 % 8192)) 3 0 ≠ r.port || x.lf (Addr.ixePoint08 (field r.data 0 8 % 8192)) 10 4 ≠ r.stn then
      (x.inc Addr.ixeDropSrc).ev 0x0C8 (field r.data 0 8 % 8192 + r.port * 65536 + r.stn * 2 ^ 20)
    else if !x.anySeqNo r && (x.seqAhead r = 0 || 128 ≤ x.seqAhead r) then x.inc Addr.ixeDropSeq
    else x.evalRecord (field r.data 0 8 % 8192) r (if x.anySeqNo r then 0 else x.seqAhead r - 1) := by
  refine (if_neg ?_).trans ?_
  · simp only [Bool.or_eq_true, Bool.not_eq_true', decide_eq_true_eq, hen, hfailed, hruns, reduceCtorEq, or_false, false_or]
    omega
  · rw [hread]
    rfl

theorem State.takeRecord_otherSource (h : ¬x.namesSource r) : w.takeRecord r =
    (x.inc Addr.ixeDropSrc).ev 0x0C8 (field r.data 0 8 % 8192 + r.port * 65536 + r.stn * 2 ^ 20) := by
  rw [State.takeRecord_read hp hen hfailed hruns hread]
  refine if_pos ?_
  rw [Bool.or_eq_true, decide_eq_true_eq, decide_eq_true_eq]
  exact not_and_or.mp h

variable (hnamed : x.namesSource r)
include hnamed

theorem State.takeRecord_named : w.takeRecord r =
    if !x.anySeqNo r && (x.seqAhead r = 0 || 128 ≤ x.seqAhead r) then x.inc Addr.ixeDropSeq
    else x.evalRecord (field r.data 0 8 % 8192) r (if x.anySeqNo r then 0 else x.seqAhead r - 1) := by
  rw [State.takeRecord_read hp hen hfailed hruns hread]
  refine if_neg ?_
  rw [Bool.or_eq_true, decide_eq_true_eq, decide_eq_true_eq]
  exact not_or.mpr ⟨not_not.mpr hnamed.1, not_not.mpr hnamed.2⟩

theorem State.takeRecord_repeated (hany : x.anySeqNo r = false) (h : x.seqAhead r = 0 ∨ 128 ≤ x.seqAhead r) :
    w.takeRecord r = x.inc Addr.ixeDropSeq := by
  rw [State.takeRecord_named hp hen hfailed hruns hread hnamed]
  refine if_pos ?_
  rw [hany]
  simpa using h

theorem State.takeRecord_ahead (hany : x.anySeqNo r = false) (hlo : 1 < x.seqAhead r) (hhi : x.seqAhead r < 128) :
    w.takeRecord r = x.evalRecord (field r.data 0 8 % 8192) r (x.seqAhead r - 1) := by
  rw [State.takeRecord_named hp hen hfailed hruns hread hnamed, if_neg]
  · rw [hany]
    rfl
  · simp only [Bool.and_eq_true, Bool.or_eq_true, decide_eq_true_eq]
    omega

theorem State.takeRecord_next (h : x.anySeqNo r = true ∨ x.seqAhead r = 1) :
    w.takeRecord r = x.evalRecord (field r.data 0 8 % 8192) r 0 := by
  rw [State.takeRecord_named hp hen hfailed hruns hread hnamed, if_neg]
  · obtain h | h := h
    · rw [h]
      rfl
    · rw [h, ite_self]
  · obtain h | h := h
    · simp [h]
    · simp [h]

end

theorem State.anySeqNo_iff {x : State} {r : IxeRec} : x.anySeqNo r = true ↔
    (x.ptValid (field r.data 0 8 % 8192) = false ∨ x.ixe.anySeq.contains (field r.data 0 8 % 8192) = true) := by
  rw [State.anySeqNo, Bool.or_eq_true, Bool.not_eq_true']

theorem State.countGap_pos (s : State) (p : Nat) {n : Nat} (h : 0 < n) :
    s.countGap p n = ((s.addCnt (Addr.ixePoint38 p) n).addCnt Addr.ixeMissed n).ev 0x0C9 p :=
  if_pos (by simpa using h.ne')

/-! ### Time-outs (R228) -/

theorem State.mem_timedOut {s : State} {p : Nat} : p ∈ s.timedOut ↔ p ∈ s.enPoints ∧ s.ptValid p = true ∧
    s.lf (Addr.ixePoint0c p) 31 16 ≠ 0 ∧
    s.rdN (Addr.ixePoint2c p) + s.rdN (Addr.ixePoint30 p) * 2 ^ 32 + s.lf (Addr.ixePoint0c p) 31 16 * 1000000 ≤ s.dtime := by
  simp only [State.timedOut, List.mem_filter, Bool.and_eq_true, decide_eq_true_eq, and_assoc]

section
variable {s : State} {t : Nat}

theorem ixeTimeoutCheck_outside (hs : (s.at t).op ≠ .stop) (hr : (s.at t).op ≠ .run) (hh : (s.at t).op ≠ .hold) :
    exec (.ixeTimeoutCheck t) s = .next (s.at t) := by
  refine congrArg Host.Outcome.next (if_neg ?_)
  simp only [Bool.or_eq_true, decide_eq_true_eq]
  tauto

theorem ixeTimeoutCheck_lapses (h : (s.at t).op = .stop ∨ (s.at t).op = .run ∨ (s.at t).op = .hold) :
    exec (.ixeTimeoutCheck t) s = .next ((s.at t).timedOut.foldl (fun s p =>
      ((({ s with ixe := { s.ixe with lapsed := p :: s.ixe.lapsed } } : State).ev 0x0C4 p)).ptLapse .ixeTimeout p) (s.at t)) := by
  refine congrArg Host.Outcome.next (if_pos ?_)
  simp only [Bool.or_eq_true, decide_eq_true_eq]
  tauto

end

/-! ### The IXE opcodes (R238) -/

section
variable {s : State} {q : Req} {p : Bytes}

theorem ixeStatusRead_carries_read (hp : p.length = 2) (hf : (p.getD 0 0).toNat ≤ 63) (hk : (p.getD 1 0).toNat ≤ 63)
    (hfk : (p.getD 0 0).toNat + (p.getD 1 0).toNat ≤ 64) : s.Carries q 0x300 (.ixeStatusRead q p)
      ((s.carry q).ok q 0x0300 (memBytes (s.carry q).inImg (0xF000 + 64 * (p.getD 0 0).toNat) (64 * (p.getD 1 0).toNat))) := by
  refine State.carries_of_startLen_eq rfl hp (if_neg ?_)
  simp only [Bool.or_eq_true, decide_eq_true_eq]
  omega

theorem ixeStatusRead_carries_range (hp : p.length = 2) (h : 64 ≤ (p.getD 0 0).toNat ∨ 64 ≤ (p.getD 1 0).toNat ∨
    64 < (p.getD 0 0).toNat + (p.getD 1 0).toNat) :
    s.Carries q 0x300 (.ixeStatusRead q p) ((s.carry q).fail q 0x0300 0x11) := by
  refine State.carries_of_startLen_eq rfl hp (if_pos ?_)
  simp only [Bool.or_eq_true, decide_eq_true_eq]
  omega

section
variable (hp : p.length = 2)
include hp

theorem ixePointRead_carries_range (h : 6143 < field p 0 2) :
    s.Carries q 0x301 (.ixePointRead q p) ((s.carry q).fail q 0x0301 0x11) :=
  State.carries_of_startLen_eq rfl hp (if_pos h)

theorem ixeStateClear_carries_range (h : 6143 < field p 0 2) :
    s.Carries q 0x304 (.ixeStateClear q p) ((s.carry q).fail q 0x0304 0x11) :=
  State.carries_of_startLen_eq rfl hp (if_pos h)

variable (hn : field p 0 2 ≤ 6143)
include hn

theorem ixePointRead_carries_read {st fs : Bytes} {x y : State}
    (hst : (s.carry q).readBytes .mgcCommand (Addr.ixePoint20 (field p 0 2)) 32 = (some st, x))
    (hfs : x.readBytes .mgcCommand (featAddr (field p 0 2) 0) 1280 = (some fs, y)) :
    s.Carries q 0x301 (.ixePointRead q p) (y.ok q 0x0301
      (((List.range 8).flatMap fun i => wordBytes ((s.carry q).lv (Addr.ixePoint00 (field p 0 2) + 4 * i))) ++ st ++ fs)) := by
  refine State.carries_of_startLen_eq rfl hp ((if_neg (not_lt.mpr hn)).trans ?_)
  rw [hst]
  dsimp only
  rw [hfs]

theorem ixeStateClear_carries_enabled (h : (s.carry q).ptEn (field p 0 2) = true) :
    s.Carries q 0x304 (.ixeStateClear q p) ((s.carry q).fail q 0x0304 0x20) :=
  State.carries_of_startLen_eq rfl hp ((if_neg (not_lt.mpr hn)).trans (if_pos h))

theorem ixeStateClear_carries_cleared (h : (s.carry q).ptEn (field p 0 2) = false) :
    s.Carries q 0x304 (.ixeStateClear q p) (((List.range 20).foldl (fun s x =>
      s.writeBytes .mgcCommand (featAddr (field p 0 2) x) (wordsBytes [0, 0, 0xFFFF, 0])) (s.carry q)).ok q 0x0304) :=
  State.carries_of_startLen_eq rfl hp ((if_neg (not_lt.mpr hn)).trans (if_neg (ne_true_of_eq_false h)))

end

/-- A bin of a feature by its three addresses. -/
theorem State.ixePutBin_eq (s : State) (n f b : Nat) (mean m2 cnt : Word) : s.ixePutBin n f b mean m2 cnt =
    ((s.ixePut (featAddr n f + 16 + 12 * b) mean).ixePut (featAddr n f + 20 + 12 * b) m2).ixePut
      (featAddr n f + 24 + 12 * b) cnt := by
  have h4 : featAddr n f + 16 + 12 * b + 4 = featAddr n f + 20 + 12 * b := by omega
  have h8 : featAddr n f + 16 + 12 * b + 8 = featAddr n f + 24 + 12 * b := by omega
  unfold State.ixePutBin
  dsimp only
  rw [h4, h8]

section
variable (hp : p.length = 8) (hn : field p 0 2 ≤ 6143)
include hp hn

theorem ixeBaselineReset_carries_enabled (h : (s.carry q).ptEn (field p 0 2) = true) :
    s.Carries q 0x302 (.ixeBaselineReset q p) ((s.carry q).fail q 0x0302 0x20) :=
  State.carries_of_startLen_eq rfl hp ((if_neg (not_lt.mpr hn)).trans (if_pos h))

theorem ixeBaselineReset_carries_reset (h : (s.carry q).ptEn (field p 0 2) = false) :
    s.Carries q 0x302 (.ixeBaselineReset q p) ((((List.range 20).filter (field p 4 4).testBit).foldl (fun s x =>
      ((List.range 4).filter (field p 2 1).testBit).foldl (fun s i =>
        ((s.ixePut (featAddr (field p 0 2) x + 16 + 12 * i) 0).ixePut (featAddr (field p 0 2) x + 20 + 12 * i) 0).ixePut
          (featAddr (field p 0 2) x + 24 + 12 * i) 0) s) (s.carry q)).ok q 0x0302) := by
  simp only [← State.ixePutBin_eq]
  rw [field_one p 2]
  exact State.carries_of_startLen_eq rfl hp ((if_neg (not_lt.mpr hn)).trans (if_neg (ne_true_of_eq_false h)))

end

section
variable (hp : p.length = 16) (hn : field p 0 2 ≤ 6143) (hf : field p 2 1 ≤ 19) (hb : field p 3 1 ≤ 3)
  (hcnt : field p 12 4 ≤ 16777215) (hmean : field p 4 4 % 2 ^ 31 < 0x7F800000) (hm2 : field p 8 4 < 0x7F800000)

include hn hf hb hcnt hmean hm2 in
/-- A payload inside the ranges of IXE_BASELINE_LOAD. -/
theorem ixeBaselineLoad_inRange : ¬(6143 < field p 0 2 || 19 < (p.getD 2 0).toNat || 3 < (p.getD 3 0).toNat ||
    16777215 < field p 12 4 || fIsNan f32 (field p 4 4) || fIsInf f32 (field p 4 4) || !finNonNeg (field p 8 4)) = true := by
  obtain ⟨hnan, hinf⟩ := f32_finite hmean
  rw [field_one] at hf hb
  rw [hnan, hinf, finNonNeg_of_lt hm2]
  simp only [Bool.or_eq_true, decide_eq_true_eq, Bool.not_true, reduceCtorEq, or_false]
  omega

include hp hn hf hb hcnt hmean hm2

theorem ixeBaselineLoad_carries_enabled (h : (s.carry q).ptEn (field p 0 2) = true) :
    s.Carries q 0x303 (.ixeBaselineLoad q p) ((s.carry q).fail q 0x0303 0x20) :=
  State.carries_of_startLen_eq rfl hp ((if_neg (ixeBaselineLoad_inRange hn hf hb hcnt hmean hm2)).trans (if_pos h))

theorem ixeBaselineLoad_carries_loaded (h : (s.carry q).ptEn (field p 0 2) = false) :
    s.Carries q 0x303 (.ixeBaselineLoad q p) (((s.carry q).ixePutBin (field p 0 2) (field p 2 1) (field p 3 1)
      (wordAt p 4) (wordAt p 8) (wordAt p 12)).ok q 0x0303) := by
  have hin := ixeBaselineLoad_inRange hn hf hb hcnt hmean hm2
  rw [field_one p 2, field_one p 3]
  exact State.carries_of_startLen_eq rfl hp ((if_neg hin).trans (if_neg (ne_true_of_eq_false h)))

end

end

/-- Settles O42. -/
theorem indicatorRecordsAndOpcodes : Obligations.IndicatorRecordsAndOpcodes := by
  unfold Obligations.IndicatorRecordsAndOpcodes
  refine ⟨fun s t v => ?_, fun s q p b => ?_⟩
  · intro u
    refine ⟨ixeRecord_none, fun r rest hq => ?_, fun p n hn => u.countGap_pos p hn, fun p => rfl, ixeTimeoutCheck_outside,
      ixeTimeoutCheck_lapses, fun p => State.mem_timedOut, rfl⟩
    intro w p seq
    have htakes : exec (.ixeRecord t) s = .next (w.takeRecord r) := ixeRecord_takes hq
    rw [htakes]
    refine ⟨fun h => congrArg Host.Outcome.next (State.takeRecord_unmapped h), fun x bs hp hen hfailed hruns hread => ?_⟩
    intro named any d
    have hany : any ↔ x.anySeqNo r = true := State.anySeqNo_iff.symm
    refine ⟨fun hnamed => ?_, fun hnamed hnot hd => ?_, fun hnamed hnot hlo hhi => ?_, fun hnamed h => ?_⟩
    · exact congrArg Host.Outcome.next (State.takeRecord_otherSource hp hen hfailed hruns hread hnamed)
    · have hnot' := eq_false_of_ne_true (mt hany.mpr hnot)
      exact congrArg Host.Outcome.next (State.takeRecord_repeated hp hen hfailed hruns hread hnamed hnot' hd)
    · have hnot' := eq_false_of_ne_true (mt hany.mpr hnot)
      exact congrArg Host.Outcome.next (State.takeRecord_ahead hp hen hfailed hruns hread hnamed hnot' hlo hhi)
    · exact congrArg Host.Outcome.next (State.takeRecord_next hp hen hfailed hruns hread hnamed (h.imp_left hany.mp))
  · intro u f k n feat put counters
    refine ⟨fun hp => ⟨ixeStatusRead_carries_read hp, ixeStatusRead_carries_range hp,
      fun hn st fs x y hst hfs => ixePointRead_carries_read hp hn hst hfs, ixeStateClear_carries_cleared hp,
      fun hn => ⟨ixePointRead_carries_range hp hn, ixeStateClear_carries_range hp hn⟩, ixeStateClear_carries_enabled hp⟩,
      fun hp hn => ⟨ixeBaselineReset_carries_enabled hp hn, ixeBaselineReset_carries_reset hp hn⟩,
      fun hp hn hf hb hcnt hmean hm2 => ⟨ixeBaselineLoad_carries_enabled hp hn hf hb hcnt hmean hm2,
        ixeBaselineLoad_carries_loaded hp hn hf hb hcnt hmean hm2⟩, State.carries_of_startLen_eq rfl rfl rfl⟩

end Sys2Proof.Machine
end

