-- ==== Sys2Proof/Proofs/WindowStarts.lean ====
section
/-! SUPPORT. The start of a FREE window changes its port twice, which the listing of the ports can show (R284, R296). -/

namespace Sys2Proof.Machine

/-- Port 0, with one FREE window in its timetable, is listed behind port 1. -/
def unsortedPorts : State :=
  { live := [(Addr.fbpCtrl 0, 1), (Addr.fbpTtCfg 0, 1), (Addr.fbpTtBclen 0, 1), (Addr.fbpTtWinW0 0 0, 0x10000)]
    fbp := [(1, {}), (0, {})] }

/-- The number of entries that list the ports of the state after a step. -/
def portEntries : Host.Outcome State Fault Refusal → Nat
  | .next s => s.fbp.length
  | _ => 0

theorem unsortedPorts_after : portEntries (exec (.windowStart 0 0 0) unsortedPorts) = 2 := by decide +kernel

/-- Refutes O44: the start of a FREE window puts its port twice. With the ports listed as 1, 0 the first put of port 0
stands before both entries, and the second takes the old entry of port 0 away, so that two entries are left; the one put
of the statement leaves three. -/
theorem not_framesAreRequestedStartedAndFinished : ¬ Obligations.FramesAreRequestedStartedAndFinished := by
  intro hframes
  obtain ⟨-, -, -, -, -, -, -, -, -, -, -, -, -, hfree, -⟩ := hframes unsortedPorts 0 0 0 (by decide) (by decide)
  have hsame := hfree 0 0 0 (by decide) (by decide) (by decide) (by decide) (by decide) (by decide)
  have hlisted := unsortedPorts_after.symm.trans (congrArg portEntries hsame)
  exact absurd hlisted (by decide +kernel)

end Sys2Proof.Machine
end

