-- ==== Sys2Proof/Proofs/PortReception.lean ====
section
/-! SUPPORT. Frames and errors on a port, its recovery, its basic cycles, and the FBP opcodes (R245 to R248, R253, R267 to
R289, R295). -/

namespace Sys2Proof.Machine

/-! ### Reception (R269) -/

section
variable {s : State} {n t : Nat} {f : CanFrame}

theorem frameReceived_off (h : ((s.at t).frameEnd n).onBus n = false) :
    exec (.frameReceived n f t) s = .next ((s.at t).frameEnd n) :=
  congrArg Host.Outcome.next (if_pos (by simp [h]))

/-- A port on the bus that is not its own partner takes a frame. -/
theorem receives_of_onBus {x : State} (hn : n < 16) (hbus : x.onBus n = true) (hmode : x.fbpMode n ≠ 4) :
    ¬(16 ≤ n || !x.onBus n || x.fbpMode n = 4) = true := by
  simp [hbus, hmode, not_le.mpr hn]

variable (hn : n < 16) (hbus : ((s.at t).frameEnd n).onBus n = true) (hmode : ((s.at t).frameEnd n).fbpMode n ≠ 4)
include hn hbus hmode

theorem frameReceived_exception (hfdf : f.fdf = true) (hres : f.resRecessive = true)
    (hpxe : ((s.at t).frameEnd n).lf (Addr.fbpCtrl n) 6 6 = 1) : exec (.frameReceived n f t) s = .next
      (((((s.at t).frameEnd n).setBit (Addr.fbpStat n) 3 true).inc (Addr.fbpPex n)).ev 0x107 n) := by
  refine congrArg Host.Outcome.next ((if_neg (receives_of_onBus hn hbus hmode)).trans ?_)
  exact (if_pos (by rw [hfdf, hres]; rfl)).trans (if_pos hpxe)

theorem frameReceived_delivered (hres : f.fdf = false ∨ f.resRecessive = false) (hrtr : f.rtr = false ∨ f.fdf = true) :
    exec (.frameReceived n f t) s = .next
      (((((s.at t).frameEnd n).recOk n).inc (Addr.fbpRxok n)).deliver n f t) := by
  refine congrArg Host.Outcome.next ((if_neg (receives_of_onBus hn hbus hmode)).trans ((if_neg ?_).trans (if_neg ?_)))
  · obtain h | h := hres <;> simp [h]
  · obtain h | h := hrtr <;> simp [h]

theorem frameReceived_remote (hfdf : f.fdf = false) (hrtr : f.rtr = true) : exec (.frameReceived n f t) s = .next
    (((((s.at t).frameEnd n).recOk n).inc (Addr.fbpRxok n)).inc (Addr.fbpRxRtr n)) := by
  refine congrArg Host.Outcome.next ((if_neg (receives_of_onBus hn hbus hmode)).trans ((if_neg ?_).trans (if_pos ?_)))
  · simp [hfdf]
  · simp [hfdf, hrtr]

end

/-! ### Errors and recovery (R246 to R248, R273, R276) -/

section
variable {s : State} {n t : Nat} {e : BusError}

theorem busError_off (h : (s.at t).onBus n = false) : exec (.busError n e t) s = .next (s.at t) :=
  congrArg Host.Outcome.next (if_pos (by simp [h]))

theorem State.tdcAtError_idle {u : State} (h : (u.port n).active = none) : u.tdcAtError n e = u := by
  unfold State.tdcAtError
  rw [h]

theorem State.attemptError_idle {u : State} (h : (u.port n).active = none) : u.attemptError n = u := by
  unfold State.attemptError
  rw [h]

theorem busError_receiver (hn : n < 16) (hbus : (s.at t).onBus n = true) (hidle : ((s.at t).port n).active = none)
    (hrole : e.role = .receiver) (hphase : e.dataPhase = false)
    (hmode : (((s.at t).setFld (Addr.fbpStat n) 10 8 e.code).frameEnd n).fbpMode n = 1) :
    exec (.busError n e t) s = .next
      (let v := ((s.at t).setFld (Addr.fbpStat n) 10 8 e.code).frameEnd n
      (v.setErrc n (v.tec n) (v.recN n + 1)).errUpdate n) := by
  refine congrArg Host.Outcome.next ((if_neg (by simp [hbus, not_le.mpr hn])).trans ?_)
  have hidle' : (((s.at t).setFld (Addr.fbpStat n) 10 8 e.code).port n).active = none := hidle
  rw [hphase, if_neg Bool.false_ne_true]
  dsimp only
  rw [State.tdcAtError_idle hidle', State.attemptError_idle hidle']
  generalize ((s.at t).setFld (Addr.fbpStat n) 10 8 e.code).frameEnd n = v at hmode
  refine (if_neg (by simp [State.counts, hmode])).trans ?_
  rw [hrole]
  exact if_neg (by simp)

theorem State.errState_setBit3 (s : State) (n : Nat) (b : Bool) :
    (s.setBit (Addr.fbpStat n) 3 b).errState n = s.errState n :=
  State.fld_setFld_below s _ _ (by decide) (by decide) (by decide) (by decide)

theorem State.recovering_setBit3 (s : State) (n : Nat) (b : Bool) :
    (s.setBit (Addr.fbpStat n) 3 b).bit (Addr.fbpStat n) 2 = s.bit (Addr.fbpStat n) 2 :=
  congrArg (fun v => decide (v = 1)) (State.fld_setFld_below s _ _ (by decide) (by decide) (by decide) (by decide))

/-- What the end of an integration leaves before a recovery counts it. -/
def State.integrated (s : State) (n : Nat) : State :=
  (s.setBit (Addr.fbpStat n) 3 false).onPort n fun x => { x with wait11 := false }

theorem State.integrated_errState (s : State) (n : Nat) : (s.integrated n).errState n = s.errState n :=
  State.errState_setBit3 s n false

theorem State.integrated_recovering (s : State) (n : Nat) :
    (s.integrated n).bit (Addr.fbpStat n) 2 = s.bit (Addr.fbpStat n) 2 := State.recovering_setBit3 s n false

theorem State.integrated_sequences (s : State) (n : Nat) :
    (s.integrated n).fld (Addr.fbpErrc n) 31 24 = s.fld (Addr.fbpErrc n) 31 24 := by
  have hne : Addr.fbpErrc n ≠ Addr.fbpStat n := by
    unfold Addr.fbpErrc Addr.fbpStat
    omega
  exact State.fld_congr (State.rd_wr_other _ _ hne) 31 24

theorem integrationEnd_eq (hn : n < 16) : exec (.integrationEnd n) s = .next ((s.integrated n).recoverySeq n) :=
  congrArg Host.Outcome.next (if_pos hn)

theorem integrationEnd_noRecovery (hn : n < 16) (h : s.errState n ≠ 2) :
    exec (.integrationEnd n) s = .next (s.integrated n) := by
  rw [integrationEnd_eq hn]
  refine congrArg Host.Outcome.next (if_neg ?_)
  rw [State.integrated_errState]
  simp [h]

theorem integrationEnd_counts (hn : n < 16) (hoff : s.errState n = 2) (hrec : s.bit (Addr.fbpStat n) 2 = true)
    (hlt : s.fld (Addr.fbpErrc n) 31 24 < 127) : exec (.integrationEnd n) s = .next
      ((s.integrated n).setFld (Addr.fbpErrc n) 31 24 (s.fld (Addr.fbpErrc n) 31 24 + 1)) := by
  rw [integrationEnd_eq hn]
  refine congrArg Host.Outcome.next ((if_pos ?_).trans ?_)
  · rw [State.integrated_errState, State.integrated_recovering, hoff, hrec]
    rfl
  · rw [State.integrated_sequences, Nat.min_eq_left (by omega)]

theorem busoffRecoveryEnd_ends (hn : n < 16) (hoff : s.errState n = 2) (hrec : s.bit (Addr.fbpStat n) 2 = true) :
    exec (.busoffRecoveryEnd n) s = .next
      (((((s.setErrc n 0 0).setFld (Addr.fbpErrc n) 31 24 128).setFld (Addr.fbpStat n) 2 0 0).ev 0x103 n).putSummary n) :=
  congrArg Host.Outcome.next (if_pos (by simp [hn, hoff, hrec]))

theorem busoffRecoveryEnd_none (h : s.errState n ≠ 2 ∨ s.bit (Addr.fbpStat n) 2 = false) :
    exec (.busoffRecoveryEnd n) s = .next s := by
  refine congrArg Host.Outcome.next (if_neg ?_)
  obtain h | h := h <;> simp [h]

theorem fbpnRecover_starts (hn : n < 16) (hoff : s.errState n = 2) (hrec : s.bit (Addr.fbpStat n) 2 = false) :
    exec (.fbpnRecover n 1) s = .next ((s.setBit (Addr.fbpStat n) 2 true).setFld (Addr.fbpErrc n) 31 24 0) :=
  congrArg Host.Outcome.next ((if_pos (by simp [hn])).trans (if_pos (by simp [hoff, hrec])))

theorem fbpnRecover_zero {v : Word} (h : v.getLsbD 0 = false) : exec (.fbpnRecover n v) s = .next s :=
  congrArg Host.Outcome.next (if_neg (by rw [h]; simp))

theorem fbpnClr_zero {v : Word} (hn : n < 16) (h : v.getLsbD 0 = false) : exec (.fbpnClr n v) s = .next s :=
  congrArg Host.Outcome.next ((if_pos hn).trans (if_neg (by rw [h]; simp)))

theorem fbpnClr_one {v : Word} (hn : n < 16) (h : v.getLsbD 0 = true) : exec (.fbpnClr n v) s = .next
    ((fbpCounters n ++ (List.range 128).map (Addr.fbpFilterW3 n)).foldl (fun s a => s.wr a 0) s) :=
  congrArg Host.Outcome.next ((if_pos hn).trans (if_pos h))

/-! ### Station mode (R280, R281) -/

theorem stationRefLost_lost (hn : n < 16) (hmode : (s.at t).stnMode n = true) (hbit : (s.at t).bit (Addr.fbpStat n) 5 = false)
    (hgone : (s.at t).refGone n = true) : exec (.stationRefLost ⟨n, t⟩) s = .next
      ((((s.at t).setBit (Addr.fbpStat n) 5 true).ev 0x10D n).putSummary n) :=
  congrArg Host.Outcome.next (if_pos (by simp [hn, hmode, hbit, hgone]))

theorem stationRefLost_stays (h : (s.at t).stnMode n = false ∨ (s.at t).refGone n = false) :
    exec (.stationRefLost ⟨n, t⟩) s = .next (s.at t) := by
  refine congrArg Host.Outcome.next (if_neg ?_)
  obtain h | h := h <;> simp [h]

theorem State.refGone_iff {u : State} {c t0 : Nat} (h : (u.port n).cyc = some (c, t0)) :
    u.refGone n = true ↔ t0 + 2 * u.bclenNs n ≤ u.dtime := by
  unfold State.refGone
  rw [h, decide_eq_true_eq]

theorem stationHoldExpired_headEnd (h : (s.at t).stnMode n = false) : exec (.stationHoldExpired n t) s = .next (s.at t) :=
  congrArg Host.Outcome.next (if_neg (by simp [h]))

theorem stationHoldExpired_fails (hn : n < 16) (hmode : (s.at t).stnMode n = true)
    (hhold : (s.at t).lf (Addr.fbpCtrl n) 31 16 ≠ 0)
    (hold : ((s.at t).port n).lastOut + (s.at t).lf (Addr.fbpCtrl n) 31 16 * 100000 ≤ (s.at t).utick)
    (hlost : ((s.at t).station ((s.at t).ownStn n)).lost = false) :
    exec (.stationHoldExpired n t) s = .next (((s.at t).failSafe n).ev 0x10C n) := by
  refine congrArg Host.Outcome.next (if_pos ?_)
  simp only [Bool.and_eq_true, decide_eq_true_eq, Bool.not_eq_true']
  exact ⟨⟨⟨⟨hn, hmode⟩, hhold⟩, hold⟩, hlost⟩

/-! ### Basic cycles (R72, R245, R295) -/

theorem basicCycleEnd_none (h : (s.at t).cycleEnds n = false) : exec (.basicCycleEnd n t) s = .next (s.at t) :=
  congrArg Host.Outcome.next (if_pos (by simp [h]))

/-- What the end of a basic cycle without a cycle before it leaves. -/
def State.cycleDone (u : State) (n : Nat) : State :=
  (((u.commitAt (.fbp n)).commitAt (.stn n)).syncForced n).onPort n fun x =>
    if 32 ≤ x.calN then { x with calN := x.calN - 32, calDone := x.calDone + 1 } else x

theorem basicCycleEnd_ends (hends : (s.at t).cycleEnds n = true) (hcyc : ((s.at t).port n).cyc = none) :
    exec (.basicCycleEnd n t) s = .next
      (if ((s.at t).cycleDone n).stnMode n || !((s.at t).cycleDone n).cycleEnds n then (s.at t).cycleDone n
      else ((s.at t).cycleDone n).cycleBegin n (((s.at t).cycleDone n).port n).cyc.isSome) := by
  refine congrArg Host.Outcome.next ((if_neg (by simp [hends])).trans ?_)
  rw [hcyc]
  rfl

theorem State.when_port {u : State} {c : Bool} {f : State → State} (h : ∀ x : State, (f x).port n = x.port n) :
    (u.when c f).port n = u.port n := by
  cases c
  · rfl
  · exact h u

theorem State.cycleBegin_port (u : State) (n : Nat) (had : Bool) : (u.cycleBegin n had).port n =
    { u.port n with cyc := some (u.dtime / u.bclenNs n % u.ncyc n, u.dtime), got := [] } := by
  unfold State.cycleBegin
  dsimp only
  refine (State.when_port ?_).trans (sget_sput_self _ _ _ _)
  exact fun _ => rfl

end

/-! ### The FBP opcodes (R289) -/

section
variable {s : State} {q : Req} {p : Bytes} {b : Byte}

section
variable (hp : p.length = 2)
include hp

theorem fbpCancel_carries_cancelled (hk : (p.getD 0 0).toNat ≤ 15) (hi : (p.getD 1 0).toNat ≤ 63)
    (hown : ((s.carry q).txd (p.getD 0 0).toNat (p.getD 1 0).toNat).own = true) : s.Carries q 0x403 (.fbpCancel q p)
      (((s.carry q).txCancel (p.getD 0 0).toNat (p.getD 1 0).toNat 4).ok q 0x0403) := by
  refine State.carries_of_startLen_eq rfl hp ((if_neg ?_).trans (if_neg (by rw [hown]; simp)))
  simp only [Bool.or_eq_true, decide_eq_true_eq]
  omega

theorem fbpCancel_carries_refused (h : 15 < (p.getD 0 0).toNat ∨ 63 < (p.getD 1 0).toNat ∨
    ((s.carry q).txd (p.getD 0 0).toNat (p.getD 1 0).toNat).own = false) :
    s.Carries q 0x403 (.fbpCancel q p) ((s.carry q).fail q 0x0403 0x11) := by
  refine State.carries_of_startLen_eq rfl hp ?_
  by_cases hrange : (15 < (p.getD 0 0).toNat || 63 < (p.getD 1 0).toNat) = true
  · exact if_pos hrange
  · have hown : ((s.carry q).txd (p.getD 0 0).toNat (p.getD 1 0).toNat).own = false := by
      simp only [Bool.or_eq_true, decide_eq_true_eq] at hrange
      tauto
    exact (if_neg hrange).trans (if_pos (by rw [hown]; rfl))

theorem fbpCounters_carries (hk : (p.getD 0 0).toNat ≤ 15) : s.Carries q 0x405 (.fbpCounters q p)
    ((if (p.getD 1 0).getLsbD 0 then (fbpCounters (p.getD 0 0).toNat).foldl (fun s a => s.wr a 0) (s.carry q)
      else s.carry q).ok q 0x0405 (regsBytes (s.carry q) (fbpCounters (p.getD 0 0).toNat))) :=
  State.carries_of_startLen_eq rfl hp (if_neg (not_lt.mpr hk))

end

section
variable (hb : b.toNat ≤ 15)
include hb

theorem fbpRecover_carries_recovers (h : (s.carry q).errState b.toNat = 2) :
    s.Carries q 0x401 (.fbpRecover q [b]) (((s.carry q).startRecovery b.toNat).ok q 0x0401) :=
  State.carries_of_startLen_eq rfl rfl ((if_neg (not_lt.mpr hb)).trans (if_neg (not_not.mpr h)))

theorem fbpRecover_carries_refused (h : (s.carry q).errState b.toNat ≠ 2) :
    s.Carries q 0x401 (.fbpRecover q [b]) ((s.carry q).fail q 0x0401 0x20) :=
  State.carries_of_startLen_eq rfl rfl ((if_neg (not_lt.mpr hb)).trans (if_pos h))

variable (hlo : 3500 ≤ (s.carry q).fld (Addr.fbpTdrCfg b.toNat) 15 0) (hhi : (s.carry q).fld (Addr.fbpTdrCfg b.toNat) 15 0 ≤ 8000)
include hlo hhi

/-- A port with a speed of propagation in its range. -/
theorem fbpTdr_inRange : ¬(15 < b.toNat || (s.carry q).fld (Addr.fbpTdrCfg b.toNat) 15 0 < 3500 ||
    8000 < (s.carry q).fld (Addr.fbpTdrCfg b.toNat) 15 0) = true := by
  simp only [Bool.or_eq_true, decide_eq_true_eq]
  omega

theorem fbpTdr_carries_barred (h : (s.carry q).tdrBarred b.toNat = true ∨
    ((s.carry q).ncyc b.toNat = 0 ∧ (s.carry q).fbpMode b.toNat ≠ 0)) :
    s.Carries q 0x404 (.fbpTdr q [b]) ((s.carry q).fail q 0x0404 0x20) := by
  refine State.carries_of_startLen_eq rfl rfl ((if_neg (fbpTdr_inRange hb hlo hhi)).trans (if_pos ?_))
  simp only [List.getD_cons_zero, Bool.or_eq_true, Bool.and_eq_true, decide_eq_true_eq]
  exact h

variable (hfree : (s.carry q).tdrBarred b.toNat = false) (hmode : (s.carry q).ncyc b.toNat ≠ 0 ∨ (s.carry q).fbpMode b.toNat = 0)

omit hb hlo hhi in
include hfree hmode in
theorem fbpTdr_free : ¬((s.carry q).tdrBarred b.toNat || ((s.carry q).ncyc b.toNat = 0 && (s.carry q).fbpMode b.toNat ≠ 0)) = true := by
  obtain h | h := hmode <;> simp [hfree, h]

include hfree hmode

theorem fbpTdr_carries_busy (h : ((s.carry q).port b.toNat).tdr.isSome = true) :
    s.Carries q 0x404 (.fbpTdr q [b]) ((s.carry q).fail q 0x0404 0x31) :=
  State.carries_of_startLen_eq rfl rfl ((if_neg (fbpTdr_inRange hb hlo hhi)).trans
    ((if_neg (fbpTdr_free hfree hmode)).trans (if_pos h)))

theorem fbpTdr_carries_starts (h : ((s.carry q).port b.toNat).tdr = none) : s.Carries q 0x404 (.fbpTdr q [b])
    (let v := ((s.carry q).accept q 0x404 [b.toNat]).wr (Addr.fbpTdrStat b.toNat) 1
    v.onPort b.toNat fun x => { x with tdr := some v.utick }) :=
  State.carries_of_startLen_eq rfl rfl ((if_neg (fbpTdr_inRange hb hlo hhi)).trans
    ((if_neg (fbpTdr_free hfree hmode)).trans (if_neg (by rw [List.getD_cons_zero, h]; simp))))

end

/-! ### FBP_SEND -/

section
variable (hlen : p.length = 12 + dlcBytes ((wordAt p 4).getLsbD 30) (p.getD 8 0).toNat) (hdlc : (p.getD 8 0).toNat ≤ 15)
  (hk : (p.getD 0 0).toNat ≤ 15) (hi : (p.getD 1 0).toNat ≤ 63) (hbrs : (wordAt p 4).getLsbD 31 = true → (wordAt p 4).getLsbD 30 = true)

include hlen hdlc in
theorem fbpSend_length : ¬(p.length < 12 || 15 < (p.getD 8 0).toNat ||
    p.length ≠ 12 + dlcBytes ((wordAt p 4).getLsbD 30) (p.getD 8 0).toNat) = true := by
  simp only [Bool.or_eq_true, decide_eq_true_eq]
  omega

include hk hi hbrs in
theorem fbpSend_inRange : ¬(15 < (p.getD 0 0).toNat || 63 < (p.getD 1 0).toNat ||
    ((wordAt p 4).getLsbD 31 && !(wordAt p 4).getLsbD 30)) = true := by
  simp only [Bool.or_eq_true, Bool.and_eq_true, Bool.not_eq_true', decide_eq_true_eq]
  rintro ((h | h) | ⟨h, h'⟩)
  · exact absurd hk (not_le.mpr h)
  · exact absurd hi (not_le.mpr h)
  · exact ne_true_of_eq_false h' (hbrs h)

include hlen hdlc hk hi hbrs

theorem fbpSend_carries_noBuffer (h : ((s.carry q).txd (p.getD 0 0).toNat (p.getD 1 0).toNat).m = false ∨
    ((s.carry q).txd (p.getD 0 0).toNat (p.getD 1 0).toNat).own = false) :
    s.Carries q 0x402 (.fbpSend q p) ((s.carry q).fail q 0x0402 0x11) := by
  refine State.carries_of_start_eq rfl ((if_neg (fbpSend_length hlen hdlc)).trans ((if_neg (fbpSend_inRange hk hi hbrs)).trans (if_pos ?_)))
  simpa only [Bool.or_eq_true, Bool.not_eq_true'] using h

variable (hm : ((s.carry q).txd (p.getD 0 0).toNat (p.getD 1 0).toNat).m = true)
  (hown : ((s.carry q).txd (p.getD 0 0).toNat (p.getD 1 0).toNat).own = true)

omit hlen hdlc hk hi hbrs in
include hm hown in
theorem fbpSend_ownBuffer : ¬(!((s.carry q).txd (p.getD 0 0).toNat (p.getD 1 0).toNat).m ||
    !((s.carry q).txd (p.getD 0 0).toNat (p.getD 1 0).toNat).own) = true := by
  rw [hm, hown]
  simp

include hm hown

theorem fbpSend_carries_busy (h : ((s.carry q).txf (p.getD 0 0).toNat (p.getD 1 0).toNat).st ≠ 0) :
    s.Carries q 0x402 (.fbpSend q p) ((s.carry q).fail q 0x0402 0x31) :=
  State.carries_of_start_eq rfl ((if_neg (fbpSend_length hlen hdlc)).trans ((if_neg (fbpSend_inRange hk hi hbrs)).trans
    ((if_neg (fbpSend_ownBuffer hm hown)).trans (if_pos h))))

variable (hst : ((s.carry q).txf (p.getD 0 0).toNat (p.getD 1 0).toNat).st = 0)
include hst

theorem fbpSend_carries_mode (h : (s.carry q).fbpMode (p.getD 0 0).toNat ≠ 1) :
    s.Carries q 0x402 (.fbpSend q p) ((s.carry q).fail q 0x0402 0x20) :=
  State.carries_of_start_eq rfl ((if_neg (fbpSend_length hlen hdlc)).trans ((if_neg (fbpSend_inRange hk hi hbrs)).trans
    ((if_neg (fbpSend_ownBuffer hm hown)).trans ((if_neg (not_not.mpr hst)).trans (if_pos h)))))

theorem fbpSend_carries_placed (hmode : (s.carry q).fbpMode (p.getD 0 0).toNat = 1) (herr : (s.carry q).errState (p.getD 0 0).toNat ≠ 2)
    (htwh : ((s.carry q).txd (p.getD 0 0).toNat (p.getD 1 0).toNat).twh = false) : s.Carries q 0x402 (.fbpSend q p)
      (((s.carry q).accept q 0x402 [(p.getD 0 0).toNat, (p.getD 1 0).toNat]).placeTx (p.getD 0 0).toNat (p.getD 1 0).toNat
        { m := true, id := (s.carry q).unitId (p.getD 0 0).toNat ((wordAt p 4).getLsbD 29) (bitsOf (wordAt p 4) 28 0),
          ide := (wordAt p 4).getLsbD 29, fdf := (wordAt p 4).getLsbD 30, brs := (wordAt p 4).getLsbD 31,
          dlc := (p.getD 8 0).toNat, data := p.drop 12 }) := by
  refine State.carries_of_start_eq rfl ((if_neg (fbpSend_length hlen hdlc)).trans ((if_neg (fbpSend_inRange hk hi hbrs)).trans
    ((if_neg (fbpSend_ownBuffer hm hown)).trans ((if_neg (not_not.mpr hst)).trans ((if_neg (not_not.mpr hmode)).trans
      ((if_neg herr).trans ?_))))))
  rw [htwh]
  rfl

end

end

/-! ### Time-outs and the cable measurement (R283, R289) -/

section
variable {s : State} {n t : Nat}

section
variable {x : Nat} (hlate : ((s.at t).longsOf 0x402).any (fun l => l.args = [n, x] && l.t + 1000000000 ≤ (s.at t).utick) = true)
include hlate

theorem fbpSendTimeout_active (h : ((s.at t).txf n x).st = 2) : exec (.fbpSendTimeout n ⟨x, t⟩) s = .next
    (((s.at t).onPort n fun y => { y with late := x :: y.late }).sendNotice n x 8) := by
  refine congrArg Host.Outcome.next ((if_pos hlate).trans ?_)
  dsimp only
  rw [h]
  rfl

theorem fbpSendTimeout_other (h : ((s.at t).txf n x).st ≠ 2) :
    exec (.fbpSendTimeout n ⟨x, t⟩) s = .next ((s.at t).finishTx n x 8) := by
  refine congrArg Host.Outcome.next ((if_pos hlate).trans ?_)
  dsimp only
  split
  · exact absurd ‹_› h
  · rfl

end

theorem tdrTimeout_none (h : ((s.at t).port n).tdr = none) : exec (.tdrTimeout ⟨n, t⟩) s = .next (s.at t) := by
  show execTdrTimeout ⟨n, t⟩ s = _
  unfold execTdrTimeout
  dsimp only
  rw [h]

theorem tdrTimeout_measuring {t0 : Nat} (h : ((s.at t).port n).tdr = some t0) : exec (.tdrTimeout ⟨n, t⟩) s = .next
    (if t0 + 1000000000 ≤ (s.at t).utick then (s.at t).tdrEnd n false else s.at t) := by
  show execTdrTimeout ⟨n, t⟩ s = _
  unfold execTdrTimeout
  dsimp only
  rw [h]

variable {m : TdrMeasure}

theorem tdrBurstEnd_none (h : (s.port n).tdr = none ∨ ((s.port n).burst = false ∧ (s.ncyc n ≠ 0 ∨ s.fbpMode n ≠ 0))) (ab : Bool) :
    exec (.tdrBurstEnd n ab m) s = .next s := by
  refine congrArg Host.Outcome.next (if_pos ?_)
  obtain h | ⟨h, h' | h'⟩ := h
  · simp [h]
  · simp [h, h']
  · simp [h, h']

theorem tdrBurstEnd_eq (hsome : (s.port n).tdr.isSome = true)
    (h : (s.port n).burst = true ∨ (s.ncyc n = 0 ∧ s.fbpMode n = 0)) (ab : Bool) :
    let v := s.onPort n fun x => { x with burst := false }
    let w := v.setFld (Addr.fbpTdrStat n) 22 16 (v.fld (Addr.fbpTdrStat n) 22 16 + 1)
    exec (.tdrBurstEnd n ab m) s = .next (if ab then v.incFld (Addr.fbpTdrStat n) 15 8
      else if 64 ≤ w.fld (Addr.fbpTdrStat n) 22 16 then (w.tdrResult n m).tdrEnd n true else w) := by
  refine congrArg Host.Outcome.next (if_neg ?_)
  obtain ⟨t0, ht0⟩ := Option.isSome_iff_exists.mp hsome
  obtain h | ⟨h, h'⟩ := h
  · simp [ht0, h]
  · simp [ht0, h, h']

end

/-- Settles O45. -/
theorem portsReceiveConfineErrorsAndAnswer : Obligations.PortsReceiveConfineErrorsAndAnswer := by
  unfold Obligations.PortsReceiveConfineErrorsAndAnswer
  refine ⟨fun s n t f e hn => ?_, fun s q p b n t m => ?_⟩
  · intro u done x
    refine ⟨fun hbus hmode => ⟨frameReceived_exception hn hbus hmode, frameReceived_delivered hn hbus hmode,
      frameReceived_remote hn hbus hmode⟩, frameReceived_off, busError_off, fun hbus _ hidle hrole hphase => ?_,
      congrArg Host.Outcome.next (if_pos hn), fun h _ => integrationEnd_noRecovery hn h, integrationEnd_counts hn,
      congrArg Host.Outcome.next (if_pos hn), busoffRecoveryEnd_ends hn, busoffRecoveryEnd_none, fbpnRecover_starts hn,
      fun v h => ⟨fbpnRecover_zero h, fbpnClr_zero hn h⟩, fun v => fbpnClr_one hn, stationRefLost_lost hn,
      fun c t0 => State.refGone_iff, stationRefLost_stays, stationHoldExpired_headEnd, stationHoldExpired_fails hn,
      basicCycleEnd_none, fun hends hmode hcyc => ?_, fun b => ?_⟩
    · exact busError_receiver hn hbus hidle hrole hphase
    · have hdone := basicCycleEnd_ends hends hcyc
      refine ⟨fun h => hdone.trans (congrArg Host.Outcome.next (if_pos ?_)),
        fun hstn hnext => hdone.trans (congrArg Host.Outcome.next (if_neg ?_))⟩
      · rw [Bool.or_eq_true, Bool.not_eq_true']
        exact h
      · rw [Bool.or_eq_true, Bool.not_eq_true']
        rintro (h | h)
        · exact ne_true_of_eq_false hstn h
        · exact ne_true_of_eq_false h hnext
    · rw [State.cycleBegin_port]
      exact ⟨rfl, rfl⟩
  · intro u k i counters
    refine ⟨fun hp => ⟨State.carries_of_startLen_eq rfl hp ?_, fbpCancel_carries_cancelled hp, fbpCancel_carries_refused hp,
      fbpCounters_carries hp⟩, fun hb => ⟨fbpRecover_carries_recovers hb, fbpRecover_carries_refused hb, fun hlo hhi =>
      ⟨fbpTdr_carries_barred hb hlo hhi, fun hfree hmode => ⟨fbpTdr_carries_busy hb hlo hhi hfree hmode,
      fbpTdr_carries_starts hb hlo hhi hfree hmode⟩⟩⟩, fun hlen hdlc hk hi hbrs =>
      ⟨fbpSend_carries_noBuffer hlen hdlc hk hi hbrs, fbpSend_carries_busy hlen hdlc hk hi hbrs,
      fbpSend_carries_mode hlen hdlc hk hi hbrs, fbpSend_carries_placed hlen hdlc hk hi hbrs⟩, ?_, tdrBurstEnd_none, ?_⟩
    · simp only [wordsBytes, List.flatMap_cons, List.flatMap_nil, List.append_nil, List.append_assoc]
      rfl
    · intro v
      refine ⟨fun x hlate => ⟨fbpSendTimeout_active hlate, fbpSendTimeout_other hlate⟩, tdrTimeout_none,
        fun t0 h hold => (tdrTimeout_measuring h).trans (congrArg Host.Outcome.next (if_pos hold)),
        fun t0 h hnew => (tdrTimeout_measuring h).trans (congrArg Host.Outcome.next (if_neg (not_le.mpr hnew)))⟩
    · intro hsome h v w
      refine ⟨tdrBurstEnd_eq hsome h true, fun hfew => (tdrBurstEnd_eq hsome h false).trans (congrArg Host.Outcome.next (if_neg (not_le.mpr hfew))),
        fun hmany => (tdrBurstEnd_eq hsome h false).trans (congrArg Host.Outcome.next (if_pos hmany))⟩

end Sys2Proof.Machine
end

