-- ==== Sys2Proof/Proofs/StationFrames.lean ====
section
/-! SUPPORT. Frames of stations at a head-end port, by their class (R306 to R310, R314, R316). -/

namespace Sys2Proof.Machine

/-! ### The key of a station -/

theorem stationKey {n stn : Nat} (h : stn < 96) : (96 * n + stn) / 96 = n ∧ (96 * n + stn) % 96 = stn := by omega

theorem cellsOf_ne_nil {a : Nat} {bs : Bytes} (h : bs ≠ []) : cellsOf a bs ≠ [] := by
  cases bs with
  | nil => exact absurd rfl h
  | cons b bs => simp [cellsOf]

/-! ### A frame of an enabled station arrives (R314, R316, R319) -/

section
variable {w : State} {n stn : Nat}

/-- Stations heard in the windows of the cycle count. -/
def State.countSeen (z : State) (n stn : Nat) (expected : Bool) : State :=
  z.when (expected && z.stnState (96 * n + stn) = 5) (·.onPort n fun x => { x with got := stn :: x.got })

variable (hstn : stn < 96)
include hstn

theorem State.stnArrive_eq (first expected inWin : Bool) (data : ImgCells) :
    w.stnArrive (96 * n + stn) first expected inWin data =
      (if (w.stnState (96 * n + stn) = 4 && first && w.joinsRun n) || (w.stnState (96 * n + stn) = 6 && inWin) then
        w.stnActive (96 * n + stn) data
      else if data.isEmpty then w else w.imgWrite { src := .stn n, cells := data }).countSeen n stn expected := by
  obtain ⟨hdiv, hmod⟩ := stationKey (n := n) hstn
  unfold State.stnArrive
  dsimp only
  rw [hdiv, hmod]
  rfl

variable (h4 : w.stnState (96 * n + stn) ≠ 4) (h6 : w.stnState (96 * n + stn) ≠ 6)
include h4 h6

theorem State.stnArrive_data (first expected inWin : Bool) {data : ImgCells} (hdata : data ≠ []) :
    w.stnArrive (96 * n + stn) first expected inWin data =
      (w.imgWrite { src := .stn n, cells := data }).countSeen n stn expected := by
  rw [State.stnArrive_eq hstn, if_neg (by simp [h4, h6]), if_neg (by simpa using hdata)]

theorem State.stnArrive_noData (first expected inWin : Bool) :
    w.stnArrive (96 * n + stn) first expected inWin [] = w.countSeen n stn expected := by
  rw [State.stnArrive_eq hstn, if_neg (by simp [h4, h6])]
  rfl

end

/-- Without an expected frame nothing is counted. -/
theorem State.countSeen_false (z : State) (n stn : Nat) : z.countSeen n stn false = z := rfl

/-! ### The class of a frame (R306) -/

section
variable {s : State} {n t : Nat}

theorem stnFrame_none (h : ((s.at t).port n).rx = []) : exec (.stnFrame n t) s = .next (s.at t) := by
  show execStnFrame n t s = _
  unfold execStnFrame
  dsimp only
  rw [h]

theorem stnFrame_head {r : StnRx} {rest : List StnRx} (h : ((s.at t).port n).rx = r :: rest) (hmode : (s.at t).stnMode n = false) :
    exec (.stnFrame n t) s = .next (((s.at t).onPort n fun x => { x with rx := rest }).headFrame n r) := by
  show execStnFrame n t s = _
  unfold execStnFrame
  dsimp only
  rw [h]
  exact congrArg Host.Outcome.next (if_neg (ne_true_of_eq_false hmode))

end

section
variable {v : State} {n : Nat} {r : StnRx} (hide : r.f.ide = false)
include hide

omit hide in
theorem State.headFrame_foreign (h : idClass r.f.id = 7) : v.headFrame n r = v.inc (Addr.stnDropStn n) :=
  if_pos (by simp [h])

theorem State.headFrame_own (h : idClass r.f.id = 0 ∨ idClass r.f.id = 1 ∨ idClass r.f.id = 5) : v.headFrame n r = v := by
  refine (if_neg ?_).trans (if_pos ?_)
  · obtain h | h | h := h <;> simp [hide, h]
  · obtain h | h | h := h <;> simp [h]

/-- The data of a frame. -/
def StnRx.data (r : StnRx) : Bytes := slice r.f.data 0 (dlcBytes r.f.fdf r.f.dlc)

/-- What the classes 2, 3, 4 and 6 of an enabled station do. -/
def State.stationClass (w : State) (n : Nat) (r : StnRx) : State :=
  let stn := idStation r.f.id
  let k := 96 * n + stn
  let e := w.inWindow n stn r.f && w.inCycle n r
  match idClass r.f.id with
  | 2 =>
    if r.data.length ≠ dlcBytes true (dlcFor (w.inLen k)) then
      ((w.incFld (Addr.stnEntryW7 k) 31 16).inc (Addr.stnDropFmt n)).stnEv 0x145 k
    else w.stnArrive k e e (w.inWindow n stn r.f) (cellsOf (w.inOff k) (r.data.take (w.inLen k)))
  | 3 =>
    if r.data.length ≠ 48 then w.inc Addr.ixeDropFmt
    else (w.stnArrive k e e (w.inWindow n stn r.f) []).ixePush ⟨r.data, n, stn, r.t⟩
  | 4 => w.stnEventFrame n stn r r.data
  | _ => w.response k r.data

variable (hlo : 2 ≤ idClass r.f.id) (h5 : idClass r.f.id ≠ 5) (h7 : idClass r.f.id ≠ 7)
include hlo h5 h7

/-- A frame of classes 2, 3, 4 and 6, which a head end takes from its stations. -/
theorem State.headFrame_station : v.headFrame n r =
    if 95 < idStation r.f.id || !v.stnEn (96 * n + idStation r.f.id) then
      (v.inc (Addr.stnDropStn n)).ev 0x146 (n + idStation r.f.id * 256)
    else (v.onStn (96 * n + idStation r.f.id) fun y => { y with heard := true }).stationClass n r := by
  have hnone : ¬(idClass r.f.id = 0 || idClass r.f.id = 1 || idClass r.f.id = 5) = true := by
    simp only [Bool.or_eq_true, decide_eq_true_eq]
    omega
  exact (if_neg (by simp [hide, h7])).trans (if_neg hnone)

theorem State.headFrame_unknown (h : 95 < idStation r.f.id ∨ v.stnEn (96 * n + idStation r.f.id) = false) :
    v.headFrame n r = (v.inc (Addr.stnDropStn n)).ev 0x146 (n + idStation r.f.id * 256) := by
  rw [State.headFrame_station hide hlo h5 h7, if_pos]
  rw [Bool.or_eq_true, Bool.not_eq_true', decide_eq_true_eq]
  exact h

theorem State.headFrame_known (hstn : idStation r.f.id ≤ 95) (hen : v.stnEn (96 * n + idStation r.f.id) = true) :
    v.headFrame n r = (v.onStn (96 * n + idStation r.f.id) fun y => { y with heard := true }).stationClass n r := by
  rw [State.headFrame_station hide hlo h5 h7, if_neg]
  rw [Bool.or_eq_true, Bool.not_eq_true', decide_eq_true_eq, hen]
  simpa using hstn

end

section
variable {w : State} {n : Nat} {r : StnRx}

/-- The cells of the input data of a station. -/
def State.inputCells (w : State) (k : Nat) (d : Bytes) : ImgCells := cellsOf (w.inOff k) (d.take (w.inLen k))

theorem State.stationClass_input_format (hc : idClass r.f.id = 2)
    (hlen : r.data.length ≠ dlcBytes true (dlcFor (w.inLen (96 * n + idStation r.f.id)))) : w.stationClass n r =
      ((w.incFld (Addr.stnEntryW7 (96 * n + idStation r.f.id)) 31 16).inc (Addr.stnDropFmt n)).stnEv 0x145
        (96 * n + idStation r.f.id) := by
  unfold State.stationClass
  dsimp only
  rw [hc]
  exact if_pos hlen

theorem State.stationClass_input (hstn : idStation r.f.id < 96) (hc : idClass r.f.id = 2)
    (hlen : r.data.length = dlcBytes true (dlcFor (w.inLen (96 * n + idStation r.f.id))))
    (hdata : r.data.take (w.inLen (96 * n + idStation r.f.id)) ≠ [])
    (h4 : w.stnState (96 * n + idStation r.f.id) ≠ 4) (h6 : w.stnState (96 * n + idStation r.f.id) ≠ 6) : w.stationClass n r =
      (w.imgWrite { src := .stn n, cells := w.inputCells (96 * n + idStation r.f.id) r.data }).countSeen n (idStation r.f.id)
        (w.inWindow n (idStation r.f.id) r.f && w.inCycle n r) := by
  unfold State.stationClass
  dsimp only
  rw [hc]
  exact (if_neg (not_not.mpr hlen)).trans (State.stnArrive_data hstn h4 h6 _ _ _ (cellsOf_ne_nil hdata))

theorem State.stationClass_record_format (hc : idClass r.f.id = 3) (hlen : r.data.length ≠ 48) :
    w.stationClass n r = w.inc Addr.ixeDropFmt := by
  unfold State.stationClass
  dsimp only
  rw [hc]
  exact if_pos hlen

theorem State.stationClass_record (hstn : idStation r.f.id < 96) (hc : idClass r.f.id = 3) (hlen : r.data.length = 48)
    (h4 : w.stnState (96 * n + idStation r.f.id) ≠ 4) (h6 : w.stnState (96 * n + idStation r.f.id) ≠ 6) : w.stationClass n r =
      (w.countSeen n (idStation r.f.id) (w.inWindow n (idStation r.f.id) r.f && w.inCycle n r)).ixePush
        ⟨r.data, n, idStation r.f.id, r.t⟩ := by
  unfold State.stationClass
  dsimp only
  rw [hc]
  refine (if_neg (not_not.mpr hlen)).trans ?_
  rw [State.stnArrive_noData hstn h4 h6]

theorem State.stationClass_event (hc : idClass r.f.id = 4) :
    w.stationClass n r = w.stnEventFrame n (idStation r.f.id) r r.data := by
  unfold State.stationClass
  dsimp only
  rw [hc]
  rfl

theorem State.stationClass_unasked (hc : idClass r.f.id = 6) (hx : (w.station (96 * n + idStation r.f.id)).x = none) :
    w.stationClass n r = w := by
  unfold State.stationClass
  dsimp only
  rw [hc]
  show w.response (96 * n + idStation r.f.id) r.data = w
  unfold State.response
  rw [hx]

/-! ### Class 4 (R309) -/

variable {stn : Nat} {d rest : Bytes}

theorem State.stnEventFrame_keepalive :
    w.stnEventFrame n stn r (0 :: rest) = w.stnArrive (96 * n + stn) true false true [] := rfl

theorem State.stnEventFrame_hello : w.stnEventFrame n stn r (1 :: rest) =
    w.onStn (96 * n + stn) fun y => { y with hello := decide (w.stnState (96 * n + stn) = 1 ∨ w.stnState (96 * n + stn) = 6) } := by
  simp only [Bool.decide_or]
  rfl

theorem State.stnEventFrame_trigger {b : Byte} (hb : 1 < b.toNat) (hq : w.lf (Addr.stnPctrl n) 5 5 = 0) :
    w.stnEventFrame n stn r (b :: rest) = w.raise ⟨2, n * 128 + stn, 18⟩ := by
  have h0 : b ≠ 0 := by
    rintro rfl
    exact absurd hb (by decide)
  have h1 : b ≠ 1 := by
    rintro rfl
    exact absurd hb (by decide)
  unfold State.stnEventFrame
  dsimp only
  rw [if_neg h0, if_neg h1, if_neg (by rw [hq]; decide)]

/-- A keepalive in WAITFIRST makes the station ACTIVE where joins run. -/
theorem State.keepalive_first (hstn : stn < 96) (h4 : w.stnState (96 * n + stn) = 4) (hruns : w.joinsRun n = true) :
    w.stnArrive (96 * n + stn) true false true [] = w.stnActive (96 * n + stn) [] := by
  rw [State.stnArrive_eq hstn, if_pos (by simp [h4, hruns]), State.countSeen_false]

end

theorem State.countSeen_eq (z : State) (n stn : Nat) (a b : Bool) : z.countSeen n stn (a && b) =
    if a = true ∧ b = true ∧ z.stnState (96 * n + stn) = 5 then z.onPort n fun x => { x with got := stn :: x.got } else z := by
  refine if_congr ?_ rfl rfl
  rw [Bool.and_eq_true, Bool.and_eq_true, decide_eq_true_eq, and_assoc]

/-- Settles O46. -/
theorem stationFramesReachTheirDestination : Obligations.StationFramesReachTheirDestination := by
  unfold Obligations.StationFramesReachTheirDestination
  intro s n t u
  refine ⟨stnFrame_none, fun r rest hrx hide hmode => ?_⟩
  intro v c stn k d seen
  have hexec : exec (.stnFrame n t) s = .next (v.headFrame n r) := stnFrame_head hrx hmode
  have hbecomes {x : State} (h : v.headFrame n r = x) : exec (.stnFrame n t) s = .next x :=
    hexec.trans (congrArg Host.Outcome.next h)
  refine ⟨fun hc => hbecomes (State.headFrame_foreign hc), fun hc => hbecomes (State.headFrame_own hide hc),
    fun hlo h5 h7 h => hbecomes (State.headFrame_unknown hide hlo h5 h7 h), fun hstn hen => ?_⟩
  intro w
  have hseen (z : State) : z.countSeen n stn (w.inWindow n stn r.f && w.inCycle n r) = seen w z :=
    State.countSeen_eq z n stn _ _
  have hlt : stn < 96 := Nat.lt_succ_of_le hstn
  have hclass {m : Nat} {x : State} (hc : c = m) (hm : 2 ≤ m ∧ m ≠ 5 ∧ m ≠ 7) (h : w.stationClass n r = x) :
      exec (.stnFrame n t) s = .next x := by
    rw [← hc] at hm
    obtain ⟨hlo, h5, h7⟩ := hm
    exact hbecomes ((State.headFrame_known hide hlo h5 h7 hstn hen).trans h)
  have hevent {x : State} {d' : Bytes} (hc : c = 4) (hd : d = d') (h : w.stnEventFrame n stn r d' = x) :
      exec (.stnFrame n t) s = .next x := by
    rw [← hd] at h
    exact hclass hc (by decide) ((State.stationClass_event hc).trans h)
  refine ⟨fun hc hlen => hclass hc (by decide) (State.stationClass_input_format hc hlen), fun hc hlen hdata h4 h6 => ?_,
    fun hc hlen => hclass hc (by decide) (State.stationClass_record_format hc hlen), fun hc hlen h4 h6 => ?_,
    fun hc hd => hevent hc hd rfl,
    fun rest hc hd h4 hruns => hevent hc hd (State.stnEventFrame_keepalive.trans (State.keepalive_first hlt h4 hruns)),
    fun rest hc hd h4 h6 => hevent hc hd (State.stnEventFrame_keepalive.trans (State.stnArrive_noData hlt h4 h6 _ _ _)),
    fun rest hc hd => hevent hc hd State.stnEventFrame_hello,
    fun b rest hc hd hb hq => hevent hc hd (State.stnEventFrame_trigger hb hq),
    fun hc hx => hclass hc (by decide) (State.stationClass_unasked hc hx)⟩
  · exact hclass hc (by decide) ((State.stationClass_input hlt hc hlen hdata h4 h6).trans (hseen _))
  · rw [← hseen]
    exact hclass hc (by decide) (State.stationClass_record hlt hc hlen h4 h6)

end Sys2Proof.Machine
end

