-- ==== Sys2Proof/Proofs/StationJoins.lean ====
section
/-! SUPPORT. Joining, management exchanges, keepalive and loss of stations, and the STN opcodes (R312 to R318, R321, R327,
R328). -/

namespace Sys2Proof.Machine

/-! ### Polls and management exchanges (R312, R314) -/

section
variable {s : State} {n stn t : Nat}

/-- The condition of a join poll. -/
def State.mayPoll (u : State) (n stn : Nat) : Prop :=
  u.joinsRun n = true ∧ u.stnEn (96 * n + stn) = true ∧ (u.stnState (96 * n + stn) = 1 ∨ u.stnState (96 * n + stn) = 6) ∧
    (u.station (96 * n + stn)).x = none ∧
    ((u.station (96 * n + stn)).hello = true ∨ (u.station (96 * n + stn)).due ≤ u.utick)

theorem State.mayPoll_iff {u : State} (hn : n < 16) (hstn : stn < 96) : (n < 16 && stn < 96 && u.joinsRun n &&
    u.stnEn (96 * n + stn) && (u.stnState (96 * n + stn) = 1 || u.stnState (96 * n + stn) = 6) &&
    (u.station (96 * n + stn)).x.isNone &&
    ((u.station (96 * n + stn)).hello || (u.station (96 * n + stn)).due ≤ u.utick)) = true ↔ u.mayPoll n stn := by
  simp only [Bool.and_eq_true, Bool.or_eq_true, decide_eq_true_eq, Option.isNone_iff_eq_none, State.mayPoll]
  tauto

theorem joinPoll_polls (hn : n < 16) (hstn : stn < 96) (h : (s.at t).mayPoll n stn) : exec (.joinPoll n stn t) s = .next
    (((s.at t).onStn (96 * n + stn) fun y => { y with hello := false, due := (s.at t).utick + 100000000 }).mgmtStart
      (96 * n + stn) 1 [0] false) :=
  congrArg Host.Outcome.next (if_pos ((State.mayPoll_iff hn hstn).mpr h))

theorem joinPoll_waits (hn : n < 16) (hstn : stn < 96) (h : ¬(s.at t).mayPoll n stn) :
    exec (.joinPoll n stn t) s = .next (s.at t) :=
  congrArg Host.Outcome.next (if_neg (mt (State.mayPoll_iff hn hstn).mp h))

theorem mgmtResponseTimeout_none (h : ((s.at t).station (96 * n + stn)).x = none) :
    exec (.mgmtResponseTimeout n stn t) s = .next (s.at t) := by
  show execMgmtResponseTimeout n stn t s = _
  unfold execMgmtResponseTimeout
  dsimp only
  rw [h]

/-- The exchange of a station whose time has passed. -/
def State.mgmtLate (u : State) (n stn : Nat) (m : Mgmt) : State :=
  let k := 96 * n + stn
  if m.tries < 3 then u.mgmtSend k m
  else
    let v := (u.onStn k fun y => { y with x := none }).txCancel n (128 + stn) 4
    if m.host then (v.mgmtNotice k false 0 []).imgNext n
    else if 0x40 ≤ m.op then v.imgLost k m
    else if m.op = 3 then v
    else v.joinFailStep k false

variable (hn : n < 16) (hstn : stn < 96) {m : Mgmt} (hm : ((s.at t).station (96 * n + stn)).x = some m)
include hn hstn hm

theorem mgmtResponseTimeout_exchange : exec (.mgmtResponseTimeout n stn t) s = .next
    (if 10 * (s.at t).utick < 10 * m.t + (s.at t).rspt n || (m.joins && !(s.at t).joinsRun n) then s.at t
    else (s.at t).mgmtLate n stn m) := by
  show execMgmtResponseTimeout n stn t s = _
  unfold execMgmtResponseTimeout
  dsimp only
  generalize s.at t = u at hm
  rw [hm]
  refine congrArg Host.Outcome.next (if_congr ?_ rfl rfl)
  simp only [Bool.or_eq_true, decide_eq_true_eq, not_lt.mpr (Nat.le_of_lt_succ hn), not_lt.mpr (Nat.le_of_lt_succ hstn), false_or]

theorem mgmtResponseTimeout_waits (h : 10 * (s.at t).utick < 10 * m.t + (s.at t).rspt n ∨
    (m.joins = true ∧ (s.at t).joinsRun n = false)) : exec (.mgmtResponseTimeout n stn t) s = .next (s.at t) := by
  rw [mgmtResponseTimeout_exchange hn hstn hm, if_pos]
  simpa only [Bool.or_eq_true, Bool.and_eq_true, Bool.not_eq_true', decide_eq_true_eq] using h

theorem mgmtResponseTimeout_late (h : 10 * m.t + (s.at t).rspt n ≤ 10 * (s.at t).utick)
    (hruns : m.joins = false ∨ (s.at t).joinsRun n = true) :
    exec (.mgmtResponseTimeout n stn t) s = .next ((s.at t).mgmtLate n stn m) := by
  rw [mgmtResponseTimeout_exchange hn hstn hm, if_neg]
  simp only [Bool.or_eq_true, Bool.and_eq_true, Bool.not_eq_true', decide_eq_true_eq]
  rintro (h' | ⟨hj, hr⟩)
  · exact absurd h (not_le.mpr h')
  · obtain h' | h' := hruns
    · exact ne_true_of_eq_false h' hj
    · exact ne_true_of_eq_false hr h'

end

section
variable {u : State} {n stn : Nat} {m : Mgmt}

theorem State.mgmtLate_repeats (h : m.tries < 3) : u.mgmtLate n stn m = u.mgmtSend (96 * n + stn) m := if_pos h

variable (h : 3 ≤ m.tries)
include h

theorem State.mgmtLate_host (hhost : m.host = true) : u.mgmtLate n stn m =
    ((((u.onStn (96 * n + stn) fun y => { y with x := none }).txCancel n (128 + stn) 4).mgmtNotice (96 * n + stn) false 0 []).imgNext n) :=
  (if_neg (not_lt.mpr h)).trans (if_pos hhost)

variable (hhost : m.host = false)
include hhost

theorem State.mgmtLate_join (hop : m.op < 0x40) (h3 : m.op ≠ 3) : u.mgmtLate n stn m =
    ((u.onStn (96 * n + stn) fun y => { y with x := none }).txCancel n (128 + stn) 4).joinFailStep (96 * n + stn) false :=
  (if_neg (not_lt.mpr h)).trans ((if_neg (ne_true_of_eq_false hhost)).trans ((if_neg (not_le.mpr hop)).trans (if_neg h3)))

theorem State.mgmtLate_stop (h3 : m.op = 3) : u.mgmtLate n stn m =
    (u.onStn (96 * n + stn) fun y => { y with x := none }).txCancel n (128 + stn) 4 :=
  (if_neg (not_lt.mpr h)).trans ((if_neg (ne_true_of_eq_false hhost)).trans ((if_neg (by rw [h3]; decide)).trans (if_pos h3)))

end

/-! ### Steps of a join (R314, R315) -/

section
variable {s : State} {k : Nat} {m : Mgmt} (d : Bytes)

section
variable (hop : m.op = 1)
include hop

theorem State.joinStep_poll (hst : s.stnState k = 1 ∨ s.stnState k = 6) : s.joinStep k m 0 d =
    ((s.onStn k fun y => { y with cap0 := slice d 0 48, hello := false }).stnSet k 2).mgmtStart k 1 [1] false := by
  unfold State.joinStep
  dsimp only
  rw [if_neg (not_not.mpr rfl), if_pos]
  simpa only [Bool.and_eq_true, Bool.or_eq_true, decide_eq_true_eq] using ⟨hst, hop⟩

variable (hst : s.stnState k = 2)
include hst

theorem State.joinStep_capability : s.joinStep k m 0 d = if s.capReason k (s.station k).cap0 ≠ 0 then
      ((s.setFld (Addr.stnEntryW5 k) 11 8 (s.capReason k (s.station k).cap0)).stnSet k 7).stnEv 0x143 k
        (s.capReason k (s.station k).cap0 * 65536)
    else (s.stnSet k 3).mgmtStart k 2 ((s.stnSet k 3).claimParams k) false := by
  unfold State.joinStep
  dsimp only
  rw [if_neg (not_not.mpr rfl), if_neg (by simp [hst]), if_pos (by simp [hst, hop])]

end

theorem State.joinStep_claim (hop : m.op = 2) (hst : s.stnState k = 3) : s.joinStep k m 0 d = s.stnSet k 4 := by
  unfold State.joinStep
  dsimp only
  rw [if_neg (not_not.mpr rfl), if_neg (by simp [hst]), if_neg (by simp [hst]), if_pos (by simp [hst, hop])]

end

/-! ### WAITFIRST, keepalive and loss (R314, R316 to R318, R321) -/

section
variable {s : State} {n stn t : Nat} (hn : n < 16) (hstn : stn < 96)

/-- The WAITFIRST time of a station has passed. -/
def State.waitFirstOver (u : State) (n stn : Nat) : Prop :=
  u.joinsRun n = true ∧ u.stnState (96 * n + stn) = 4 ∧
    u.waitFirst (96 * n + stn) ≤ 10 * (u.utick - (u.station (96 * n + stn)).first)

include hn hstn

theorem State.waitFirstOver_iff {u : State} : (n < 16 && stn < 96 && u.joinsRun n && u.stnState (96 * n + stn) = 4 &&
    u.waitFirst (96 * n + stn) ≤ 10 * (u.utick - (u.station (96 * n + stn)).first)) = true ↔ u.waitFirstOver n stn := by
  simp only [Bool.and_eq_true, decide_eq_true_eq, State.waitFirstOver]
  tauto

theorem waitfirstTimeout_absent (h : (s.at t).waitFirstOver n stn) : exec (.waitfirstTimeout n ⟨stn, t⟩) s = .next
    (((s.at t).stnSet (96 * n + stn) 1).stnEv 0x147 (96 * n + stn)) :=
  congrArg Host.Outcome.next (if_pos ((State.waitFirstOver_iff hn hstn).mpr h))

theorem waitfirstTimeout_waits (h : ¬(s.at t).waitFirstOver n stn) : exec (.waitfirstTimeout n ⟨stn, t⟩) s = .next (s.at t) :=
  congrArg Host.Outcome.next (if_neg (mt (State.waitFirstOver_iff hn hstn).mp h))

omit hn in
theorem State.waitFirst_eq (u : State) : u.waitFirst (96 * n + stn) =
    max (max (2 * u.ncyc n * u.bclenNs n) (2 * u.kaper (96 * n + stn) * 1000000)) 100000000 := by
  rw [State.waitFirst, (stationKey hstn).1]

/-- A keepalive period by the mode of the port. -/
theorem keepalivePeriodEnd_eq : exec (.keepalivePeriodEnd n stn t) s = .next
    (if (s.at t).stnMode n then
      if ((s.at t).port n).smActive && ((s.at t).port n).claimSet.kaper ≠ 0 && (s.at t).lf (Addr.fbpCtrl n) 15 8 = stn then
        ((s.at t).onPort n fun x => { x with eseq := (x.eseq + 1) % 256 }).stnFrameOut n 66
          (4 * 256 + stn * 2 + (s.at t).unitN) [0, BitVec.ofNat 8 ((s.at t).port n).eseq]
      else s.at t
    else if (s.at t).kaper (96 * n + stn) = 0 || !(s.at t).stnEn (96 * n + stn) || (s.at t).hasRx (96 * n + stn) then s.at t
    else ((s.at t).stnMiss (96 * n + stn) ((s.at t).station (96 * n + stn)).heard).onStn (96 * n + stn)
      fun y => { y with heard := false }) := by
  refine congrArg Host.Outcome.next (if_neg ?_)
  simp only [Bool.or_eq_true, decide_eq_true_eq]
  omega

theorem keepalivePeriodEnd_unwatched (hmode : (s.at t).stnMode n = false) (h : (s.at t).kaper (96 * n + stn) = 0 ∨
    (s.at t).stnEn (96 * n + stn) = false ∨ (s.at t).hasRx (96 * n + stn) = true) :
    exec (.keepalivePeriodEnd n stn t) s = .next (s.at t) := by
  rw [keepalivePeriodEnd_eq hn hstn, if_neg (ne_true_of_eq_false hmode), if_pos]
  simp only [Bool.or_eq_true, Bool.not_eq_true', decide_eq_true_eq]
  tauto

theorem keepalivePeriodEnd_silent (hmode : (s.at t).stnMode n = true) (h : ((s.at t).port n).smActive = false ∨
    ((s.at t).port n).claimSet.kaper = 0 ∨ (s.at t).lf (Addr.fbpCtrl n) 15 8 ≠ stn) :
    exec (.keepalivePeriodEnd n stn t) s = .next (s.at t) := by
  rw [keepalivePeriodEnd_eq hn hstn, if_pos hmode, if_neg]
  simp only [Bool.and_eq_true, decide_eq_true_eq]
  rintro ⟨⟨hactive, hkaper⟩, hown⟩
  obtain h | h | h := h
  · exact ne_true_of_eq_false h hactive
  · exact hkaper h
  · exact h hown

theorem keepalivePeriodEnd_sends (hmode : (s.at t).stnMode n = true) (hactive : ((s.at t).port n).smActive = true)
    (hkaper : ((s.at t).port n).claimSet.kaper ≠ 0) (hown : (s.at t).lf (Addr.fbpCtrl n) 15 8 = stn) :
    exec (.keepalivePeriodEnd n stn t) s = .next
      (((s.at t).onPort n fun x => { x with eseq := (x.eseq + 1) % 256 }).stnFrameOut n 66
        (4 * 256 + stn * 2 + (s.at t).unitN) [0, BitVec.ofNat 8 ((s.at t).port n).eseq]) := by
  rw [keepalivePeriodEnd_eq hn hstn, if_pos hmode, if_pos]
  simp only [Bool.and_eq_true, decide_eq_true_eq]
  exact ⟨⟨hactive, hkaper⟩, hown⟩

theorem keepalivePeriodEnd_counts (hkaper : (s.at t).kaper (96 * n + stn) ≠ 0) (hen : (s.at t).stnEn (96 * n + stn) = true)
    (hmode : (s.at t).stnMode n = false) (hrx : (s.at t).hasRx (96 * n + stn) = false) :
    exec (.keepalivePeriodEnd n stn t) s = .next
      (((s.at t).stnMiss (96 * n + stn) ((s.at t).station (96 * n + stn)).heard).onStn (96 * n + stn)
        fun y => { y with heard := false }) := by
  rw [keepalivePeriodEnd_eq hn hstn, if_neg (ne_true_of_eq_false hmode), if_neg]
  simp only [Bool.or_eq_true, Bool.not_eq_true', decide_eq_true_eq]
  rintro ((h | h) | h)
  · exact hkaper h
  · exact ne_true_of_eq_false h hen
  · exact ne_true_of_eq_false hrx h

end

/-- A miss counted, which makes the station LOST at LOSSN. -/
theorem State.stnMiss_miss {u : State} {k : Nat} (hst : u.stnState k = 5) (hloss : u.lossN k ≠ 0) :
    let m := min (u.fld (Addr.stnEntryW5 k) 7 4 + 1) 15
    let v := u.setFld (Addr.stnEntryW5 k) 7 4 m
    u.stnMiss k false = if m = u.lossN k then v.stnLose k else v :=
  if_neg (by simp [hst, hloss])

/-! ### The STN opcodes (R327, R328) -/

section
variable {s : State} {q : Req} {p : Bytes}

theorem stnStatus_carries_entries (hp : p.length = 3) (hn : (p.getD 0 0).toNat ≤ 15)
    (hc : (p.getD 1 0).toNat + (p.getD 2 0).toNat ≤ 96) : s.Carries q 0x500 (.stnStatus q p) ((s.carry q).ok q 0x0500
      ((List.range (p.getD 2 0).toNat).flatMap fun j =>
        let e := 96 * (p.getD 0 0).toNat + (p.getD 1 0).toNat + j
        wordBytes ((s.carry q).rd (Addr.stnEntryW5 e)) ++ wordBytes ((s.carry q).rd (Addr.stnEntryW6 e)) ++
          wordBytes ((s.carry q).rd (Addr.stnEntryW7 e)))) := by
  refine State.carries_of_startLen_eq rfl hp ((if_neg ?_).trans ?_)
  · simp only [Bool.or_eq_true, decide_eq_true_eq]
    omega
  · simp only [wordsBytes, List.flatMap_cons, List.flatMap_nil, List.append_nil, List.append_assoc]

theorem stnStatus_carries_range (hp : p.length = 3) (h : 15 < (p.getD 0 0).toNat ∨ 96 < (p.getD 1 0).toNat + (p.getD 2 0).toNat) :
    s.Carries q 0x500 (.stnStatus q p) ((s.carry q).fail q 0x0500 0x11) := by
  refine State.carries_of_startLen_eq rfl hp (if_pos ?_)
  simp only [Bool.or_eq_true, decide_eq_true_eq]
  exact h

section
variable {u : State} {op : Nat} {f : Nat → State} (hn : (p.getD 0 0).toNat ≤ 15) (hi : (p.getD 1 0).toNat ≤ 95)
include hn hi

/-- A port and a station of the table. -/
theorem stnTarget_inRange : ¬(15 < (p.getD 0 0).toNat || 95 < (p.getD 1 0).toNat) = true := by
  simp only [Bool.or_eq_true, decide_eq_true_eq]
  omega

theorem State.stnTarget_follower (h : u.role = .tracking ∨ u.role = .joining ∨ u.role = .detached) :
    u.stnTarget q op p f = u.fail q op 0x21 :=
  (if_neg (stnTarget_inRange hn hi)).trans (if_pos (by simpa [or_assoc] using h))

variable (hrole : u.role = .solo ∨ u.role = .primary)
include hrole

theorem State.stnTarget_decides : u.stnTarget q op p f =
    if !u.stnEn (96 * (p.getD 0 0).toNat + (p.getD 1 0).toNat) then u.fail q op 0x20
    else f (96 * (p.getD 0 0).toNat + (p.getD 1 0).toNat) := by
  refine (if_neg (stnTarget_inRange hn hi)).trans (if_neg ?_)
  obtain h | h := hrole <;> simp [h]

theorem State.stnTarget_disabled (hen : u.stnEn (96 * (p.getD 0 0).toNat + (p.getD 1 0).toNat) = false) :
    u.stnTarget q op p f = u.fail q op 0x20 :=
  (State.stnTarget_decides hn hi hrole).trans (if_pos (by rw [hen]; rfl))

theorem State.stnTarget_enabled (hen : u.stnEn (96 * (p.getD 0 0).toNat + (p.getD 1 0).toNat) = true) :
    u.stnTarget q op p f = f (96 * (p.getD 0 0).toNat + (p.getD 1 0).toNat) :=
  (State.stnTarget_decides hn hi hrole).trans (if_neg (by rw [hen]; simp))

end

theorem stnRejoin_carries (hp : p.length = 2) {t : State} (h : ((s.carry q).stnTarget q 0x0501 p fun k =>
    ((s.carry q).stnAbsent k).ok q 0x0501) = t) : s.Carries q 0x501 (.stnRejoin q p) t :=
  State.carries_of_startLen_eq rfl hp h

theorem stnStop_carries (hp : p.length = 2) {t : State} (h : ((s.carry q).stnTarget q 0x0503 p fun k =>
    (((s.carry q).stnAbsent k).mgmtStart k 3 [] false).ok q 0x0503) = t) : s.Carries q 0x503 (.stnStop q p) t :=
  State.carries_of_startLen_eq rfl hp h

theorem stnCounters_carries (hp : p.length = 2) (hn : (p.getD 0 0).toNat ≤ 15) : s.Carries q 0x504 (.stnCounters q p)
    ((if (p.getD 1 0).getLsbD 0 then (stnPortCounters (p.getD 0 0).toNat).foldl (fun s a => s.wr a 0) (s.carry q)
      else s.carry q).ok q 0x0504 (regsBytes (s.carry q) (stnPortCounters (p.getD 0 0).toNat))) :=
  State.carries_of_startLen_eq rfl hp (if_neg (not_lt.mpr hn))

section
variable (hlo : 4 ≤ p.length) (hhi : p.length ≤ 60) (hn : (p.getD 0 0).toNat ≤ 15) (hi : (p.getD 1 0).toNat ≤ 95)
  (hrole : (s.carry q).role = .solo ∨ (s.carry q).role = .primary) (hop : (p.getD 2 0).toNat = 1 ∨ 15 < (p.getD 2 0).toNat)
include hlo hhi hn hi hrole hop

theorem stnMgmt_carries {t : State} (h : (if (s.carry q).stnState (96 * (p.getD 0 0).toNat + (p.getD 1 0).toNat) ≠ 5 then
      (s.carry q).fail q 0x0502 0x20
    else if ((s.carry q).station (96 * (p.getD 0 0).toNat + (p.getD 1 0).toNat)).x.isSome then (s.carry q).fail q 0x0502 0x31
    else ((s.carry q).accept q 0x0502 [96 * (p.getD 0 0).toNat + (p.getD 1 0).toNat]).mgmtStart
      (96 * (p.getD 0 0).toNat + (p.getD 1 0).toNat) (p.getD 2 0).toNat (p.drop 4) true) = t) :
    s.Carries q 0x502 (.stnMgmt q p) t := by
  refine State.carries_of_start_eq rfl ((if_neg ?_).trans ((if_neg ?_).trans ((if_neg ?_).trans h)))
  · simp only [Bool.or_eq_true, decide_eq_true_eq]
    omega
  · simp only [Bool.or_eq_true, Bool.and_eq_true, decide_eq_true_eq]
    omega
  · obtain h | h := hrole <;> simp [h]

end

theorem stnClr_one {m : Nat} {v : Word} (hm : m < 16) (hv : v.getLsbD 0 = true) :
    exec (.stnClr m v) s = .next ((stnPortCounters m).foldl (fun s a => s.wr a 0) s) :=
  congrArg Host.Outcome.next (if_pos (by rw [hv]; simpa using hm))

theorem stnClr_zero {m : Nat} {v : Word} (hv : v.getLsbD 0 = false) : exec (.stnClr m v) s = .next s :=
  congrArg Host.Outcome.next (if_neg (by rw [hv]; simp))

end

/-- Settles O47: an exchange, a step of the join and a miss are one equation each. -/
theorem stationsJoinAreLostAndAnswer : Obligations.StationsJoinAreLostAndAnswer := by
  unfold Obligations.StationsJoinAreLostAndAnswer
  refine ⟨fun s n stn t hn hstn => ?_, fun s q p => ?_⟩
  · intro u k x may
    have hlate {m : Mgmt} {v : State} (hm : x.x = some m) (hold : 10 * m.t + u.rspt n ≤ 10 * u.utick)
        (hruns : m.joins = false ∨ u.joinsRun n = true) (h : u.mgmtLate n stn m = v) :
        exec (.mgmtResponseTimeout n stn t) s = .next v :=
      (mgmtResponseTimeout_late hn hstn hm hold hruns).trans (congrArg Host.Outcome.next h)
    refine ⟨joinPoll_polls hn hstn, joinPoll_waits hn hstn, mgmtResponseTimeout_none,
      fun m hm h => mgmtResponseTimeout_waits hn hstn hm h,
      fun m hm hold hruns htries => hlate hm hold hruns (State.mgmtLate_repeats htries),
      fun m hm hold hruns htries => ⟨fun hhost => hlate hm hold hruns (State.mgmtLate_host htries hhost),
        fun hhost hop h3 => hlate hm hold hruns (State.mgmtLate_join htries hhost hop h3),
        fun hhost h3 => hlate hm hold hruns (State.mgmtLate_stop htries hhost h3)⟩,
      ⟨waitfirstTimeout_absent hn hstn, waitfirstTimeout_waits hn hstn⟩, State.waitFirst_eq hstn u,
      fun hmode h => keepalivePeriodEnd_unwatched hn hstn hmode (h.elim .inl (.inr ∘ .inl)),
      keepalivePeriodEnd_silent hn hstn, keepalivePeriodEnd_sends hn hstn,
      fun _ _ hmode hrx => keepalivePeriodEnd_unwatched hn hstn hmode (.inr (.inr hrx)),
      fun hkaper hen hmode hrx hst hloss hheard => ?_, fun m d hop _ => ⟨State.joinStep_poll d hop, fun hst hr => ?_,
      fun hst hr => ?_⟩, fun m d => State.joinStep_claim d⟩
    · have hcounts := keepalivePeriodEnd_counts hn hstn hkaper hen hmode hrx
      rwa [hheard, State.stnMiss_miss hst hloss] at hcounts
    · exact (State.joinStep_capability d hop hst).trans (if_pos hr)
    · exact (State.joinStep_capability d hop hst).trans (if_neg (not_not.mpr hr))
  · intro u n i k absent counters
    refine ⟨fun hp => ⟨stnStatus_carries_entries hp, stnStatus_carries_range hp⟩, fun hp => ⟨fun hn hi hrole =>
      ⟨fun hen => ⟨stnRejoin_carries hp (State.stnTarget_disabled hn hi hrole hen),
        stnStop_carries hp (State.stnTarget_disabled hn hi hrole hen)⟩,
      fun hen => ⟨stnRejoin_carries hp (State.stnTarget_enabled hn hi hrole hen),
        stnStop_carries hp (State.stnTarget_enabled hn hi hrole hen)⟩⟩,
      fun hn hi hrole => ⟨stnRejoin_carries hp (State.stnTarget_follower hn hi hrole),
        stnStop_carries hp (State.stnTarget_follower hn hi hrole)⟩, stnCounters_carries hp,
      fun hn => State.carries_of_startLen_eq rfl hp (if_pos hn)⟩, fun hlo hhi hn hi hrole => ?_,
      fun m v => stnClr_one, fun m v => stnClr_zero⟩
    intro op hop
    refine ⟨fun hst => stnMgmt_carries hlo hhi hn hi hrole hop (if_pos hst),
      fun hst hx => stnMgmt_carries hlo hhi hn hi hrole hop ((if_neg (not_not.mpr hst)).trans (if_pos ?_)),
      fun hst hx => stnMgmt_carries hlo hhi hn hi hrole hop ((if_neg (not_not.mpr hst)).trans (if_neg ?_))⟩
    · exact Option.isSome_iff_ne_none.mpr hx
    · exact fun h => Option.isSome_iff_ne_none.mp h hx

end Sys2Proof.Machine
end

