-- ==== Sys2Proof/Proofs/FieldEvents.lean ====
section
/-! SUPPORT. Events at the field connectors, and the FIO opcodes (R125, R347, R348, R353, R354, R356 to R358, R366). -/

namespace Sys2Proof.Machine

/-! ### The supply of a group (R356 to R358) -/

section
variable {s : State} {g : Nat}

theorem groupLow_again (h : s.bit (Addr.grpStat g) 0 = true) : exec (.groupLow g) s = .next s :=
  congrArg Host.Outcome.next (if_neg (by simp [h]))

theorem groupOff_again (h : s.bit (Addr.grpStat g) 1 = true) : exec (.groupOff g) s = .next s :=
  congrArg Host.Outcome.next (if_neg (by simp [h]))

theorem groupRecovery_good (h0 : s.bit (Addr.grpStat g) 0 = false) (h1 : s.bit (Addr.grpStat g) 1 = false) :
    exec (.groupRecovery g) s = .next s :=
  congrArg Host.Outcome.next (if_neg (by simp [h0, h1]))

/-- A group that is neither LOW nor OFF any more; no effect of OFF waits for it. -/
def State.groupBack (s : State) (g : Nat) : State :=
  let x := (s.setBit (Addr.grpStat g) 0 false).setBit (Addr.grpStat g) 1 false
  { x with fio := { x.fio with offPend := x.fio.offPend.filter (· ≠ g) } }

theorem State.groupAck_waits (hg : g < 6) (h : s.bit (Addr.grpStat g) 2 = true) :
    s.groupAck g = (s.setBit (Addr.grpStat g) 2 false).ev 0x185 g :=
  if_pos (by simp only [State.grpWait, h, Bool.and_true, decide_eq_true_eq]; exact hg)

theorem State.groupAck_idle (h : s.bit (Addr.grpStat g) 2 = false) : s.groupAck g = s :=
  if_neg (by simp [State.grpWait, h])

theorem grpgAck_zero {v : Word} (h : v.getLsbD 0 = false) : exec (.grpgAck g v) s = .next s :=
  congrArg Host.Outcome.next (if_neg (ne_true_of_eq_false h))

theorem grpgAck_one {v : Word} (h : v.getLsbD 0 = true) : exec (.grpgAck g v) s = .next (s.groupAck g) :=
  congrArg Host.Outcome.next (if_pos h)

variable (hg : g < 6)
include hg

theorem groupLow_first (h : s.bit (Addr.grpStat g) 0 = false) : exec (.groupLow g) s = .next
    ((((s.setBit (Addr.grpStat g) 0 true).incFld (Addr.grpCount g) 15 0).ev 0x182 g).sysTrig 6 (1 + g * 256)) :=
  congrArg Host.Outcome.next (if_pos (by simp [h, hg]))

theorem groupOff_first (h : s.bit (Addr.grpStat g) 1 = false) :
    let x := (s.setBit (Addr.grpStat g) 1 true).incFld (Addr.grpCount g) 31 16
    exec (.groupOff g) s = .next { x with fio := { x.fio with offPend := x.fio.offPend ++ [g] } } :=
  congrArg Host.Outcome.next (if_pos (by simp [h, hg]))

theorem groupRecovery_low (h0 : s.bit (Addr.grpStat g) 0 = true) (h1 : s.bit (Addr.grpStat g) 1 = false) :
    exec (.groupRecovery g) s = .next ((s.groupBack g).ev 0x184 g) := by
  refine congrArg Host.Outcome.next ((if_pos (by simp [h0, hg])).trans ?_)
  rw [h1]
  rfl

theorem groupRecovery_off (h1 : s.bit (Addr.grpStat g) 1 = true) :
    let y := (List.range 8).foldl (fun s i => s.onFch (8 * g + i) fun x => { x with cnt := 0 }) (s.groupBack g)
    let z := if y.lf (Addr.grpCfg g) 8 8 = 0 then y.setBit (Addr.grpStat g) 2 true else y
    exec (.groupRecovery g) s = .next (z.ev 0x184 g) := by
  intro y z
  refine congrArg Host.Outcome.next ((if_pos (by simp [h1, hg])).trans ?_)
  rw [h1]
  refine congrArg (fun x => State.ev x 0x184 g) (?_ : State.when y (true && decide (y.lf (Addr.grpCfg g) 8 8 = 0)) _ = z)
  exact if_congr (by rw [Bool.true_and, decide_eq_true_eq]) rfl rfl

end

/-! ### Shutdown and over-temperature of a set (R347, R348) -/

section
variable {s : State} {ch t : Nat}

theorem chnDiagclr_zero {v : Word} (h : v.getLsbD 0 = false) : exec (.chnDiagclr ch v) s = .next s :=
  congrArg Host.Outcome.next (if_neg (ne_true_of_eq_false h))

theorem chnDiagclr_one {v : Word} (h : v.getLsbD 0 = true) : exec (.chnDiagclr ch v) s = .next (s.diagClear ch) :=
  congrArg Host.Outcome.next (if_pos h)

theorem State.diagClear_free (h : (s.fch (s.leader ch)).held = false) : s.diagClear ch = s :=
  if_neg (by simp [h])

theorem thermalShutdown_undriven (h : s.chOut ch = false ∨ s.chDrv ch = false) :
    exec (.thermalShutdown ch) s = .next s :=
  congrArg Host.Outcome.next (if_neg (by obtain h | h := h <;> simp [h]))

theorem channelOvertemp_undriven (h : s.chOut ch = false ∨ s.chDrv ch = false) :
    exec (.channelOvertemp ch) s = .next s :=
  congrArg Host.Outcome.next (if_neg (by obtain h | h := h <;> simp [h]))

theorem shortRetry_waits (h : ((s.at t).fch ((s.at t).leader ch)).held = false ∨
      (s.at t).lf (Addr.chCfg ((s.at t).leader ch)) 31 24 = 0 ∨
      (s.at t).utick < ((s.at t).fch ((s.at t).leader ch)).offAt +
        (s.at t).lf (Addr.chCfg ((s.at t).leader ch)) 31 24 * 1000000) :
    exec (.shortRetry ch t) s = .next (s.at t) := by
  refine congrArg Host.Outcome.next (if_neg ?_)
  simp only [Bool.and_eq_true, decide_eq_true_eq]
  rintro ⟨⟨⟨-, hheld⟩, hr⟩, hdue⟩
  obtain h | h | h := h
  · exact ne_true_of_eq_false h hheld
  · exact hr h
  · exact absurd hdue (not_le.mpr h)

theorem channelCooled_cool (h : ((s.at t).fch ((s.at t).leader ch)).hot = false) :
    exec (.channelCooled ch t) s = .next (s.at t) := by
  refine congrArg Host.Outcome.next (if_neg ?_)
  simp only [Bool.and_eq_true, not_and]
  exact fun _ => ne_true_of_eq_false h

theorem tachEdge_otherMode {up : Bool} (h : (s.at t).chMode ch ≠ 4) : exec (.tachEdge ch up t) s = .next (s.at t) :=
  congrArg Host.Outcome.next (if_neg (by simp only [Bool.and_eq_true, decide_eq_true_eq, not_and]; exact fun _ => h))

theorem loadMeasurement_off {m : LoadSample} (h : s.chOut ch = false ∨ s.lf (Addr.chLm (s.leader ch)) 0 0 = 0) :
    exec (.loadMeasurement ch m) s = .next s :=
  congrArg Host.Outcome.next (if_pos (by obtain h | h := h <;> simp [h]))

variable (hch : ch < 48)
include hch

theorem tachEdge_counts {up : Bool} (h : (s.at t).chMode ch = 4) : exec (.tachEdge ch up t) s = .next
    (let w := (s.at t).when up fun s => s.wr (Addr.chTach ch) (s.rd (Addr.chTach ch) + 1)
     (w.edgeShafts ch up).foldl (fun s n => s.tachShaft n (stampOf t)) w) :=
  congrArg Host.Outcome.next (if_pos (by simp only [h, hch, decide_true, Bool.and_self]))

section
variable (hout : s.chOut ch = true)
include hout

theorem State.diagClear_held (hheld : (s.fch (s.leader ch)).held = true)
    (hretry : s.lf (Addr.chCfg (s.leader ch)) 31 24 = 0) : s.diagClear ch =
    (s.onFch (s.leader ch) fun x => { x with held := false, short := false }).updDiag (s.leader ch) :=
  if_pos (by simp only [hout, hheld, hretry, hch, decide_true, Bool.and_self])

theorem thermalShutdown_driven (hdrv : s.chDrv ch = true) : exec (.thermalShutdown ch) s = .next
    (((s.onFch (s.leader ch) fun x => { x with short := true, held := true, offAt := s.utick }).driveSet
      (s.leader ch)).updDiag (s.leader ch)) :=
  congrArg Host.Outcome.next (if_pos (by simp only [hout, hdrv, hch, decide_true, Bool.and_self]))

theorem channelOvertemp_driven (hdrv : s.chDrv ch = true) : exec (.channelOvertemp ch) s = .next
    (((s.onFch (s.leader ch) fun x => { x with hot := true }).driveSet (s.leader ch)).updDiag (s.leader ch)) :=
  congrArg Host.Outcome.next (if_pos (by simp only [hout, hdrv, hch, decide_true, Bool.and_self]))

theorem loadMeasurement_invalid {m : LoadSample} (hen : s.lf (Addr.chLm (s.leader ch)) 0 0 = 1)
    (h : m.inLimit = true ∨ m.offBefore = true ∨ m.iA < 100) : exec (.loadMeasurement ch m) s = .next
    ((s.parSet (s.leader ch)).foldl (fun s n => s.setFld (Addr.chLoadR n) 31 30 3) s) := by
  refine congrArg Host.Outcome.next ((if_neg ?_).trans (if_pos ?_))
  · simp only [hout, hen, hch, decide_true, Bool.and_self, Bool.not_true, Bool.false_eq_true, not_false_eq_true]
  · simp only [Bool.or_eq_true, decide_eq_true_eq]
    tauto

end

variable (hout : (s.at t).chOut ch = true)
include hout

theorem shortRetry_due (hheld : ((s.at t).fch ((s.at t).leader ch)).held = true)
    (hretry : (s.at t).lf (Addr.chCfg ((s.at t).leader ch)) 31 24 ≠ 0)
    (hdue : ((s.at t).fch ((s.at t).leader ch)).offAt + (s.at t).lf (Addr.chCfg ((s.at t).leader ch)) 31 24 * 1000000 ≤
      (s.at t).utick) : exec (.shortRetry ch t) s = .next
    (((s.at t).onFch ((s.at t).leader ch) fun x => { x with held := false }).driveSet ((s.at t).leader ch)) := by
  refine congrArg Host.Outcome.next (if_pos ?_)
  simp only [Bool.and_eq_true, decide_eq_true_eq]
  exact ⟨⟨⟨⟨hch, hout⟩, hheld⟩, hretry⟩, hdue⟩

theorem channelCooled_hot (hhot : ((s.at t).fch ((s.at t).leader ch)).hot = true) : exec (.channelCooled ch t) s = .next
    ((((s.at t).onFch ((s.at t).leader ch) fun x => { x with hot := false }).driveSet ((s.at t).leader ch)).updDiag
      ((s.at t).leader ch)) := by
  refine congrArg Host.Outcome.next (if_pos ?_)
  simp only [Bool.and_eq_true, decide_eq_true_eq]
  exact ⟨⟨hch, hout⟩, hhot⟩

end

/-! ### The FIO opcodes (R358, R366) -/

section
variable {s : State} {q : Req} {b : Byte}

theorem fioGroupAck_carries (hb : b.toNat ≤ 5) {t : State} (h : (if !(s.carry q).grpWait b.toNat then
      (s.carry q).fail q 0x0601 0x20 else ((s.carry q).groupAck b.toNat).ok q 0x0601) = t) :
    s.Carries q 0x601 (.fioGroupAck q [b]) t :=
  State.carries_of_startLen_eq rfl rfl ((if_neg (not_lt.mpr hb)).trans h)

theorem fioGroupAck_carries_idle (hb : b.toNat ≤ 5) (h : (s.carry q).bit (Addr.grpStat b.toNat) 2 = false) :
    s.Carries q 0x601 (.fioGroupAck q [b]) ((s.carry q).fail q 0x0601 0x20) :=
  fioGroupAck_carries hb (if_pos (by simp only [State.grpWait, h, Bool.not_false]))

theorem fioGroupAck_carries_waits (hb : b.toNat ≤ 5) (h : (s.carry q).bit (Addr.grpStat b.toNat) 2 = true) :
    s.Carries q 0x601 (.fioGroupAck q [b])
      ((((s.carry q).setBit (Addr.grpStat b.toNat) 2 false).ev 0x185 b.toNat).ok q 0x0601) := by
  refine fioGroupAck_carries hb ((if_neg ?_).trans ?_)
  · simp only [State.grpWait, h, Bool.not_true, Bool.false_eq_true, not_false_eq_true]
  · rw [State.groupAck_waits (Nat.lt_succ_of_le hb) h]

theorem fioDiagClear_carries (hb : b.toNat ≤ 47) :
    s.Carries q 0x602 (.fioDiagClear q [b]) (((s.carry q).diagClear b.toNat).ok q 0x0602) :=
  State.carries_of_startLen_eq rfl rfl (if_neg (not_lt.mpr hb))

end

/-- Settles O49: each event is one equation behind the test of its row. -/
theorem fieldEventsAndOpcodes : Obligations.FieldEventsAndOpcodes := by
  unfold Obligations.FieldEventsAndOpcodes
  refine ⟨fun s g ch t v m hg hch => ?_, fun s q p b => ?_⟩
  · intro u does
    refine ⟨groupLow_again, groupLow_first hg, groupOff_again, groupOff_first hg, groupRecovery_good,
      groupRecovery_low hg, groupRecovery_off hg, fun hv => ⟨grpgAck_zero hv, chnDiagclr_zero hv⟩,
      fun hv hwait => (grpgAck_one hv).trans (congrArg _ (State.groupAck_waits hg hwait)),
      fun hv hwait => (grpgAck_one hv).trans (congrArg _ (State.groupAck_idle hwait)),
      fun hv hout => ⟨fun hheld => (chnDiagclr_one hv).trans (congrArg _ (State.diagClear_free hheld)),
        fun hheld hretry => (chnDiagclr_one hv).trans (congrArg _ (State.diagClear_held hch hout hheld hretry))⟩,
      fun h => ⟨thermalShutdown_undriven h, channelOvertemp_undriven h⟩,
      fun hout hdrv => ⟨thermalShutdown_driven hch hout hdrv, channelOvertemp_driven hch hout hdrv⟩,
      fun hout => ⟨shortRetry_waits, shortRetry_due hch hout, channelCooled_cool, channelCooled_hot hch hout⟩,
      fun hmode _ => tachEdge_otherMode hmode, fun hmode => ⟨tachEdge_counts hch hmode, tachEdge_counts hch hmode⟩,
      loadMeasurement_off, fun hout => loadMeasurement_invalid hch hout⟩
  · intro u chans
    exact ⟨fun hp => ⟨State.carries_of_startLen_eq rfl hp rfl, State.carries_of_startLen_eq rfl hp rfl⟩,
      fun hb => ⟨fioGroupAck_carries_waits hb, fioGroupAck_carries_idle hb⟩,
      fun hb => State.carries_of_startLen_eq rfl rfl (if_pos hb), fioDiagClear_carries,
      fun hb => State.carries_of_startLen_eq rfl rfl (if_pos hb)⟩

end Sys2Proof.Machine
end

