-- ==== Sys2Proof/Proofs/Towline.lean ====
section
/-! SUPPORT. The towline as a link, and the peer-alive line (R360, R371, R377 to R385, R407, R412). -/

namespace Sys2Proof.Machine

/-! ### Training (R380, R381) -/

section
variable {s : State}

theorem trainingAttempt_off (h : s.pairOn = false ∨ s.twl.link = .up ∨ s.twl.link = .conflict) (ok : Bool) :
    exec (.trainingAttempt ok) s = .next s := by
  refine congrArg Host.Outcome.next (if_pos ?_)
  obtain h | h | h := h <;> simp [h]

variable (hpair : s.pairOn = true) (hlink : s.twl.link = .down ∨ s.twl.link = .training)
include hpair hlink

/-- A pair that has no link trains one. -/
theorem State.trains : ¬(!s.pairOn || decide (s.twl.link = .up) || decide (s.twl.link = .conflict)) = true := by
  obtain h | h := hlink <;> simp [h, hpair]

theorem trainingAttempt_ok :
    exec (.trainingAttempt true) s = .next { s with twl := { s.twl with link := .training } } :=
  congrArg Host.Outcome.next (if_neg (s.trains hpair hlink))

theorem trainingAttempt_fails :
    exec (.trainingAttempt false) s = .next
      (let n := min (s.twl.fails + 1) 11
       let x : State := { s with twl := { s.twl with link := .down, fails := n } }
       if n = 10 then x.ev 0x1CE 0 else x) :=
  congrArg Host.Outcome.next ((if_neg (s.trains hpair hlink)).trans
    ((if_neg Bool.false_ne_true).trans (if_congr decide_eq_true_iff rfl rfl)))

end

/-- The state of a link that has just come up, with the delays of its training. -/
def State.linkFresh (u : State) (delay skew : Nat) : State :=
  let x := (u.linkClear .up).wr Addr.twlDelay (BitVec.ofNat 32 (min delay 0xFFFF + min skew 0xFF * 65536))
  { x with twl := { x.twl with fails := 0, lastTick := x.dtime } }

section
variable {s : State} {t delay skew : Nat} {cap : Words} (hpair : (s.at t).pairOn = true)
  (hlink : (s.at t).twl.link = .down ∨ (s.at t).twl.link = .training)
include hpair hlink

theorem towlineUp_clash (h : bitsOf (cap.getD 0 0) 8 8 = ((s.at t).linkFresh delay skew).unitN) :
    exec (.towlineUp delay skew cap t) s = .next ((((s.at t).linkFresh delay skew).linkClear .conflict).ev 0x1CA 0) :=
  congrArg Host.Outcome.next ((if_neg ((s.at t).trains hpair hlink)).trans (if_pos (decide_eq_true h)))

theorem towlineUp_peer (h : bitsOf (cap.getD 0 0) 8 8 ≠ ((s.at t).linkFresh delay skew).unitN) :
    let z := (((((s.at t).linkFresh delay skew).takeCap cap).event 0x1C1 (cap.getD 0 0)).sendCap).swapMismatch
    exec (.towlineUp delay skew cap t) s = .next (if z.twl.wait.isSome then z.startOutcome else z.soloDecide 7) :=
  congrArg Host.Outcome.next ((if_neg ((s.at t).trains hpair hlink)).trans
    (if_neg (ne_true_of_eq_false (decide_eq_false h))))

end

/-! ### Ticks, acknowledgements and frames (R377, R378, R382) -/

theorem State.alignTime_eq (s : State) (x : Nat) :
    s.alignTime x = if s.dtime ≤ x ∧ x ≤ s.dtime + 25000 then s.at x else s.stepTime x :=
  if_congr (by simp only [Bool.and_eq_true, decide_eq_true_eq]) rfl rfl

/-- The acknowledged frame is the first of its number: what stands behind it is left. -/
theorem ackRest_append {seq : Nat} {pre rest : List (Nat × TwlFrame)} {f : TwlFrame} (h : ∀ e ∈ pre, e.1 ≠ seq) :
    ackRest seq (pre ++ (seq, f) :: rest) = rest := by
  unfold ackRest
  rw [if_pos (by simp), List.dropWhile_append_of_pos (by simpa using h)]
  simp

section
variable {s : State}

theorem twlTick_follows {time : Nat} (hlink : s.twl.link = .up) (hrole : s.role = .tracking ∨ s.role = .joining) :
    let x := (time * 10 + s.fld Addr.twlDelay 15 0) / 10 * 10
    let v := if s.dtime ≤ x ∧ x ≤ s.dtime + 25000 then s.at x else s.stepTime x
    exec (.twlTick time) s = .next { v with twl := { v.twl with lastTick := x } } := by
  intro x v
  refine congrArg Host.Outcome.next ((if_pos ?_).trans
    (congrArg (fun v : State => ({ v with twl := { v.twl with lastTick := x } } : State)) (s.alignTime_eq x)))
  obtain h | h := hrole <;> simp [h, hlink]

theorem twlTick_other {time : Nat} (h : s.role ≠ .tracking) (h' : s.role ≠ .joining) :
    exec (.twlTick time) s = .next s :=
  congrArg Host.Outcome.next (if_neg (by simp [h, h']))

theorem twlAck_advances {q : BitVec 8} {credit : BitVec 16} {pre rest : List (Nat × TwlFrame)} {f : TwlFrame}
    (hlink : s.twl.link = .up) (hreplay : s.twl.replay = pre ++ (q.toNat, f) :: rest) (hpre : ∀ e ∈ pre, e.1 ≠ q.toNat) :
    exec (.twlAck q false credit) s = .next
      { s with twl := { s.twl with replay := rest, credit := credit.toNat, repeats := 0 } } := by
  have hrest : ackRest q.toNat s.twl.replay = rest := by rw [hreplay, ackRest_append hpre]
  have hmoved : rest.length < s.twl.replay.length := by
    rw [hreplay, List.length_append, List.length_cons]
    omega
  refine congrArg Host.Outcome.next ((if_neg (not_not.mpr hlink)).trans ?_)
  dsimp only
  rw [hrest, if_pos hmoved]
  rfl

theorem twlEcho_training {w0 w1 : Word} (h : s.twl.link = .training) :
    exec (.twlEcho w0 w1) s = .next (s.twlSend (.echo w0 w1)) := congrArg Host.Outcome.next (if_pos h)

theorem twlEcho_other {w0 w1 : Word} (h : s.twl.link ≠ .training) : exec (.twlEcho w0 w1) s = .next s :=
  congrArg Host.Outcome.next (if_neg h)

theorem twlBadFrame_down (h : s.twl.link = .down) : exec .twlBadFrame s = .next s := congrArg Host.Outcome.next (if_pos h)

theorem twlBadFrame_naks (h : s.twl.link ≠ .down) : exec .twlBadFrame s = .next
    ((s.inc Addr.twlCrcerr).twlSend (.ack ((s.twl.rseq + 255) % 256) true)) := congrArg Host.Outcome.next (if_neg h)

theorem twlReservedFrame_down (h : s.twl.link = .down) (b : Byte) : exec (.twlReservedFrame b) s = .next s :=
  congrArg Host.Outcome.next (if_pos (by simp [h]))

theorem twlReservedFrame_counts (h : s.twl.link ≠ .down) :
    exec (.twlReservedFrame 0xFF) s = .next (s.inc Addr.twlCrcerr) :=
  congrArg Host.Outcome.next (if_neg (by simp [h, twlTypes]))

theorem twlClr_eq (v : Word) : exec (.twlClr v) s = .next
    (if v.getLsbD 0 then (twlCounters.foldl (fun s a => s.wr a 0) s).setFld Addr.twlMirror 31 16 0 else s) := rfl

end

/-! ### The link is lost (R371, R379) -/

theorem State.twlLost_up {s : State} {cause : Nat} (h : s.twl.link = .up) :
    s.twlLost cause = (((s.linkClear .down).inc Addr.twlLinkdown).ev 0x1C2 cause).cycDiscard.lostRole :=
  (if_neg (by simp [h])).trans (if_pos (decide_eq_true h))

theorem State.twlLost_down {s : State} {cause : Nat} (h : s.twl.link = .down ∨ s.twl.link = .training) :
    s.twlLost cause = s := by
  refine if_pos ?_
  obtain h | h := h <;> simp [h]

section
variable {s : State} {t : Nat} {r : Bool}

theorem towlineLockLost_counts (h : r = false ∨ 3 ≤ (s.at t).twl.repeats) :
    exec (.towlineLockLost r t) s = .next ((s.at t).twlLost (b2n r)) := by
  refine congrArg Host.Outcome.next (if_neg ?_)
  simp only [Bool.and_eq_true, decide_eq_true_eq]
  rintro ⟨hr, hlt⟩
  obtain h | h := h
  · exact ne_true_of_eq_false h hr
  · exact absurd h (not_le.mpr hlt)

theorem towlineLockLost_repeats (h : (s.at t).twl.repeats < 3) : exec (.towlineLockLost true t) s = .next (s.at t) :=
  congrArg Host.Outcome.next (if_pos (by simpa using h))

theorem towlineLockLost_unlinked (h : (s.at t).twl.link = .down ∨ (s.at t).twl.link = .training) :
    exec (.towlineLockLost r t) s = .next (s.at t) :=
  congrArg Host.Outcome.next ((congrArg (ite _ _) (State.twlLost_down h)).trans (ite_self _))

theorem tickTimeout_lost (hrole : (s.at t).role = .tracking ∨ (s.at t).role = .joining)
    (hlate : (s.at t).twl.lastTick + 25000 ≤ (s.at t).dtime) : exec (.tickTimeout t) s = .next ((s.at t).twlLost 2) :=
  congrArg Host.Outcome.next (if_pos (by simpa only [Bool.and_eq_true, Bool.or_eq_true, decide_eq_true_eq] using ⟨hrole, hlate⟩))

theorem tickTimeout_waits (h : (s.at t).dtime < (s.at t).twl.lastTick + 25000) :
    exec (.tickTimeout t) s = .next (s.at t) := by
  refine congrArg Host.Outcome.next (if_neg ?_)
  simp only [Bool.and_eq_true, decide_eq_true_eq, not_and]
  exact fun _ => not_le.mpr h

theorem solowaitExpired_none (h : (s.at t).twl.wait = none) : exec (.solowaitExpired t) s = .next (s.at t) := by
  show execSolowaitExpired t s = _
  unfold execSolowaitExpired
  dsimp only
  rw [h]

theorem solowaitExpired_some {w : Nat} (h : (s.at t).twl.wait = some w) : exec (.solowaitExpired t) s = .next
    (if w ≤ (s.at t).utick then (s.at t).startOutcome else s.at t) := by
  show execSolowaitExpired t s = _
  unfold execSolowaitExpired
  dsimp only
  rw [h]

end

/-! ### The peer-alive line (R360, R384, R385) -/

/-- Peer-alive lost: counted and recorded. -/
def State.paliDown (u : State) : State :=
  (({ u with twl := { u.twl with pali := false, calm := false } } : State).inc Addr.twlPaliloss).ev 0x1C3 0

theorem State.paliDown_role (u : State) : u.paliDown.role = u.role := by
  rw [State.paliDown, State.ev_role, State.inc_role]

theorem State.paliDown_link (u : State) : u.paliDown.twl.link = u.twl.link := by
  rw [State.paliDown, State.ev_twl, State.inc_twl]

section
variable {s : State} {t : Nat}

theorem paliLost_lost (h : (s.at t).twl.pali = false) : exec (.paliLost t) s = .next (s.at t) :=
  congrArg Host.Outcome.next (if_pos (by simpa using h))

theorem paliLost_calm (h : (s.at t).twl.pali = true) (hcalm : (s.at t).twl.calm = true) :
    exec (.paliLost t) s = .next (s.at t).paliDown :=
  congrArg Host.Outcome.next ((if_neg (by simpa using h)).trans (if_pos hcalm))

theorem paliLost_takesOver (h : (s.at t).twl.pali = true) (hcalm : (s.at t).twl.calm = false)
    (hlink : (s.at t).twl.link ≠ .up) (hrole : (s.at t).role = .tracking) : exec (.paliLost t) s = .next
      (let lost := (s.at t).paliDown
       { lost with fio := { lost.fio with takeover := true, takeNew := true } }) := by
  refine congrArg Host.Outcome.next ((if_neg (by simpa using h)).trans ((if_neg (ne_true_of_eq_false hcalm)).trans ?_))
  have htracks : decide ((s.at t).paliDown.role = .tracking) = true :=
    decide_eq_true (((s.at t).paliDown_role).trans hrole)
  have hdown : ¬(s.at t).paliDown.twl.link = .up := fun h => hlink (((s.at t).paliDown_link).symm.trans h)
  have htakes : (s.at t).paliDown.when (decide ((s.at t).paliDown.role = .tracking))
      (fun s => { s with fio := { s.fio with takeover := true, takeNew := true } }) = _ := if_pos htracks
  exact (congrArg (fun y : State => if y.twl.link = .up then
    ({ y with twl := { y.twl with paliq := some y.utick } } : State).twlCtrl 9 0 0 else y) htakes).trans (if_neg hdown)

theorem paliAlive_alive (h : s.twl.pali = true) : exec .paliAlive s = .next s := congrArg Host.Outcome.next (if_pos h)

theorem paliAlive_back (h : s.twl.pali = false) : exec .paliAlive s = .next
    (({ s with twl := { s.twl with pali := true, paliFault := false } } : State).ev 0x1C4 0) :=
  congrArg Host.Outcome.next (if_neg (ne_true_of_eq_false h))

/-! ### Frames of the link (R378) -/

theorem State.onFrame_up {f : State → State} (h : s.twl.link = .up) : s.onFrame f = f s.good := if_pos h
theorem State.onFrame_down {f : State → State} (h : s.twl.link ≠ .up) : s.onFrame f = s := if_neg h

theorem paliq_low (h : s.twl.link = .up) (hpalo : s.good.twl.palo = false) :
    exec .paliq s = .next (s.good.twlCtrl 10 0 0) := by
  refine congrArg Host.Outcome.next ((State.onFrame_up h).trans ?_)
  rw [hpalo]
  rfl

theorem paliq_high (h : s.twl.link = .up) (hpalo : s.good.twl.palo = true) :
    exec .paliq s = .next ((s.good.twlCtrl 10 1 0).paliFaulty) := by
  refine congrArg Host.Outcome.next ((State.onFrame_up h).trans ?_)
  rw [hpalo]
  rfl

section
variable (h : (s.at t).twl.link = .up)
include h

theorem palians_unasked (b : Bool)
    (hq : (s.at t).good.twl.paliq.any (fun t0 => (s.at t).good.utick ≤ t0 + 10000) = false) :
    exec (.palians b t) s = .next (s.at t).good :=
  congrArg Host.Outcome.next ((State.onFrame_up h).trans (if_pos (by rw [hq]; rfl)))

theorem palians_answers (b : Bool)
    (hq : (s.at t).good.twl.paliq.any (fun t0 => (s.at t).good.utick ≤ t0 + 10000) = true) :
    exec (.palians b t) s = .next
      (let x : State := { (s.at t).good with twl := { (s.at t).good.twl with paliq := none } }
       if b then ({ x with fio := { x.fio with takeover := false, takeNew := false } } : State).paliFaulty
       else x.leaveSeen) :=
  congrArg Host.Outcome.next ((State.onFrame_up h).trans (if_neg (by rw [hq]; decide)))

end

theorem paliqTimeout_none (h : (s.at t).twl.paliq = none) : exec (.paliqTimeout t) s = .next (s.at t) := by
  show execPaliqTimeout t s = _
  unfold execPaliqTimeout
  dsimp only
  rw [h]

theorem paliqTimeout_some {t0 : Nat} (h : (s.at t).twl.paliq = some t0) : exec (.paliqTimeout t) s = .next
    (if t0 + 10000 ≤ (s.at t).utick then ({ s.at t with twl := { (s.at t).twl with paliq := none } } : State).leaveSeen
     else s.at t) := by
  show execPaliqTimeout t s = _
  unfold execPaliqTimeout
  dsimp only
  rw [h]

theorem State.leaveSeen_detached (h : s.role = .detached) :
    s.leaveSeen = { s with twl := { s.twl with calm := s.twl.pali } } := by
  unfold State.leaveSeen
  dsimp only
  rw [h]

theorem State.leaveSeen_tracking (h : s.role = .tracking) :
    s.leaveSeen = { s with twl := { s.twl with calm := s.twl.pali, left := true } } := by
  unfold State.leaveSeen
  dsimp only
  rw [h]

end

/-- Settles O50: the link, the peer-alive line and a frame in order are one equation each. -/
theorem theTowlineAndPeerAliveAreWatched : Obligations.TheTowlineAndPeerAliveAreWatched := by
  unfold Obligations.TheTowlineAndPeerAliveAreWatched
  refine ⟨fun s t cap w0 w1 v => ?_, fun s t => ?_⟩
  · intro u does link
    refine ⟨fun hpair hlink => ⟨trainingAttempt_ok hpair hlink, trainingAttempt_fails hpair hlink⟩, trainingAttempt_off,
      fun d k hpair hlink => ⟨towlineUp_clash hpair hlink, towlineUp_peer hpair hlink⟩,
      fun time => twlTick_follows, fun time => twlTick_other, fun q credit pre f rest => twlAck_advances,
      twlEcho_training, twlEcho_other, fun h => ⟨twlBadFrame_down h, twlReservedFrame_down h⟩,
      fun h => ⟨twlBadFrame_naks h, twlReservedFrame_counts h⟩,
      fun hlink r hr => (towlineLockLost_counts hr).trans (congrArg _ (State.twlLost_up hlink)),
      fun hlink r => towlineLockLost_unlinked hlink, towlineLockLost_repeats, tickTimeout_lost, tickTimeout_waits,
      solowaitExpired_none, fun w hw => ⟨fun h => (solowaitExpired_some hw).trans (congrArg _ (if_pos h)),
        fun h => (solowaitExpired_some hw).trans (congrArg _ (if_neg (not_le.mpr h)))⟩, twlClr_eq v⟩
  · intro u does fault lost
    refine ⟨paliLost_lost, paliLost_calm, paliLost_takesOver, paliAlive_alive, paliAlive_back,
      fun h => ?_, paliq_low, paliq_high, fun h => ?_,
      fun t0 hq => ⟨fun hlate => (paliqTimeout_some hq).trans (congrArg _ (if_pos hlate)),
        fun hearly => (paliqTimeout_some hq).trans (congrArg _ (if_neg (not_le.mpr hearly)))⟩,
      paliqTimeout_none, State.leaveSeen_detached, State.leaveSeen_tracking⟩
    · have hu : (s.at t).twl.link ≠ .up := by rwa [State.at_twl]
      exact ⟨congrArg _ (State.onFrame_down h), fun b => ⟨congrArg _ (State.onFrame_down hu), congrArg _ (State.onFrame_down hu)⟩⟩
    · intro g
      refine ⟨congrArg _ (State.onFrame_up h), fun hq b => palians_unasked h b (by rw [hq]; rfl),
        fun t0 hq hlate b => palians_unasked h b (by rw [hq]; exact decide_eq_false (not_le.mpr hlate)), fun t0 hq hin => ?_⟩
      have hasked : g.twl.paliq.any (fun t0 => g.utick ≤ t0 + 10000) = true := by
        rw [hq]
        exact decide_eq_true hin
      exact ⟨palians_answers h true hasked, palians_answers h false hasked⟩

end Sys2Proof.Machine
end

