-- ==== Sys2Proof/Proofs/PairExchange.lean ====
section
/-! SUPPORT. The exchange of a pair, the switchover, the twin's record, and the TWL opcodes (R205, R206, R369 to R373,
R381, R386, R401, R408, R409, R413). -/

namespace Sys2Proof.Machine

/-! ### PROPOSE and READY (R206) -/

section
variable {s v : State} {t arg gs : Nat} (hlink : (s.at t).twl.link = .up) (hv : (s.at t).good = v)
include hlink hv

theorem propose_ignored (h : v.role ≠ .tracking ∨ 1 < arg) : exec (.propose arg gs t) s = .next v := by
  refine congrArg Host.Outcome.next ((State.onFrame_up hlink).trans ?_)
  rw [hv]
  exact if_pos (by simpa only [Bool.or_eq_true, decide_eq_true_eq] using h)

theorem propose_late (hrole : v.role = .tracking) (harg : arg ≤ 1) (hlate : gs ≤ v.se.g) :
    exec (.propose arg gs t) s = .next (v.twlCtrl 3 arg gs) := by
  refine congrArg Host.Outcome.next ((State.onFrame_up hlink).trans ?_)
  rw [hv]
  refine (if_neg ?_).trans (if_neg ?_)
  · simp only [hrole, not_lt.mpr harg, ne_eq, not_true_eq_false, decide_false, Bool.or_self, Bool.false_eq_true,
      not_false_eq_true]
  · simp only [not_lt.mpr hlate, decide_false, Bool.false_and, Bool.false_eq_true, not_false_eq_true]

theorem propose_ready (hrole : v.role = .tracking) (harg : arg ≤ 1) (hsoon : v.se.g < gs)
    (hslack : v.slack (v.se.gT + 10000 * (gs - v.se.g) - v.dtime + if arg = 0 then v.tSw else 20000) = true)
    (hable : (if arg = 0 then decide (v.se.swap.chamber = .armed) && !v.se.pfail
      else v.twl.done.isEmpty && v.twl.cyc.isNone) = true) : exec (.propose arg gs t) s = .next
      (({ v with twl := { v.twl with exch := some ⟨arg, gs, false⟩ } } : State).twlCtrl 2 arg gs) := by
  refine congrArg Host.Outcome.next ((State.onFrame_up hlink).trans ?_)
  rw [hv]
  refine (if_neg ?_).trans (if_pos ?_)
  · simp only [hrole, not_lt.mpr harg, ne_eq, not_true_eq_false, decide_false, Bool.or_self, Bool.false_eq_true,
      not_false_eq_true]
  · rw [hslack, hable, decide_eq_true hsoon]
    rfl

theorem ready_late (h : gs ≤ v.se.g) : exec (.ready arg gs t) s = .next v := by
  refine congrArg Host.Outcome.next ((State.onFrame_up hlink).trans ?_)
  rw [hv]
  cases v.twl.exch with
  | none => rfl
  | some e =>
    refine if_neg ?_
    simp only [not_lt.mpr h, decide_false, Bool.and_false, Bool.false_and, Bool.false_eq_true, not_false_eq_true]

theorem ready_goes (hrole : v.role = .primary) (hsoon : v.se.g < gs) (hexch : v.twl.exch = some ⟨arg, gs, false⟩) :
    exec (.ready arg gs t) s = .next
      (({ v with twl := { v.twl with exch := some ⟨arg, gs, true⟩ } } : State).twlCtrl 4 arg gs) := by
  refine congrArg Host.Outcome.next ((State.onFrame_up hlink).trans ?_)
  rw [hv, hexch]
  exact if_pos (by simp only [hrole, hsoon, decide_true, Bool.not_false, Bool.and_self])

theorem ready_unasked (hexch : v.twl.exch = none) : exec (.ready arg gs t) s = .next v := by
  refine congrArg Host.Outcome.next ((State.onFrame_up hlink).trans ?_)
  rw [hv, hexch]

/-! ### The twin's record (R205, R381) -/

section
variable {cap : Words}

theorem twlCap_clash (h : bitsOf (cap.getD 0 0) 8 8 = v.unitN) :
    exec (.twlCap cap t) s = .next ((v.linkClear .conflict).ev 0x1CA 0) := by
  refine congrArg Host.Outcome.next ((State.onFrame_up hlink).trans ?_)
  rw [hv]
  exact if_pos (decide_eq_true h)

variable (hunit : bitsOf (cap.getD 0 0) 8 8 ≠ v.unitN) (hpeer : (v.takeCap cap).peerRole = v.peerRole)
include hunit hpeer

theorem twlCap_primary (hrole : v.role = .primary) : exec (.twlCap cap t) s = .next (v.takeCap cap) := by
  refine congrArg Host.Outcome.next ((State.onFrame_up hlink).trans ?_)
  rw [hv]
  refine (if_neg (ne_true_of_eq_false (decide_eq_false hunit))).trans ?_
  have hstays : (v.takeCap cap).when (decide ((v.takeCap cap).peerRole ≠ v.peerRole)) (·.abandonSwap 4) =
      v.takeCap cap := if_neg (by simpa using hpeer)
  have hprimary : (v.takeCap cap).role = .primary := hrole
  dsimp only
  rw [hstays, hprimary]

theorem twlCap_tracking (hrole : v.role = .tracking) (hdigest : (v.takeCap cap).sameDigest = true) :
    exec (.twlCap cap t) s = .next ((v.takeCap cap).followArm (v.peerN 13 2 0)) := by
  refine congrArg Host.Outcome.next ((State.onFrame_up hlink).trans ?_)
  rw [hv]
  refine (if_neg (ne_true_of_eq_false (decide_eq_false hunit))).trans ?_
  have hstays : (v.takeCap cap).when (decide ((v.takeCap cap).peerRole ≠ v.peerRole)) (·.abandonSwap 4) =
      v.takeCap cap := if_neg (by simpa using hpeer)
  have htracks : (v.takeCap cap).role = .tracking := hrole
  dsimp only
  rw [hstays, htracks, hdigest]
  rfl

end

end

/-! ### DECLINE, GO and TWL_STATE (R206, R386) -/

section
variable {s v : State} {arg gs : Nat} (hlink : s.twl.link = .up) (hv : s.good = v)
include hlink hv

theorem decline_exchange (hrole : v.role = .primary) (hexch : v.twl.exch = some ⟨arg, gs, false⟩) :
    exec (.decline arg) s = .next
      ((({ v with twl := { v.twl with exch := none } } : State).when (arg = 0)
        (·.incFld Addr.seSwapTime 31 16)).ev 0x094 0) := by
  refine congrArg Host.Outcome.next ((State.onFrame_up hlink).trans ?_)
  rw [hv]
  exact if_pos (by simp [hrole, hexch])

theorem decline_ignored (hrole : v.role ≠ .primary) : exec (.decline arg) s = .next v := by
  refine congrArg Host.Outcome.next ((State.onFrame_up hlink).trans ?_)
  rw [hv]
  exact if_neg (by simp [hrole])

theorem go_counts {b : Bool} (hrole : v.role = .tracking) (hsoon : v.se.g < gs)
    (hexch : v.twl.exch = some ⟨arg, gs, b⟩) : exec (.go arg gs) s = .next
      { v with twl := { v.twl with exch := some ⟨arg, gs, true⟩ } } := by
  refine congrArg Host.Outcome.next ((State.onFrame_up hlink).trans ?_)
  rw [hv, hexch]
  exact if_pos (by simp only [hrole, hsoon, decide_true, Bool.and_self])

theorem go_late (h : gs ≤ v.se.g) : exec (.go arg gs) s = .next v := by
  refine congrArg Host.Outcome.next ((State.onFrame_up hlink).trans ?_)
  rw [hv]
  cases v.twl.exch with
  | none => rfl
  | some e =>
    refine if_neg ?_
    simp only [not_lt.mpr h, decide_false, Bool.and_false, Bool.false_eq_true, not_false_eq_true]

theorem go_unasked (hexch : v.twl.exch = none) : exec (.go arg gs) s = .next v := by
  refine congrArg Host.Outcome.next ((State.onFrame_up hlink).trans ?_)
  rw [hv, hexch]

theorem twlState_follows (hrole : v.role = .tracking ∨ v.role = .joining) {o : OpState} (ho : stateOf arg = some o) :
    exec (.twlState arg gs) s = .next { v with twl := { v.twl with pairReq := some (o, gs) } } := by
  refine congrArg Host.Outcome.next ((State.onFrame_up hlink).trans ?_)
  rw [hv, ho]
  exact if_pos (by simpa only [Bool.or_eq_true, decide_eq_true_eq] using hrole)

theorem twlState_reserved (ho : stateOf arg = none) : exec (.twlState arg gs) s = .next v := by
  refine congrArg Host.Outcome.next ((State.onFrame_up hlink).trans ?_)
  rw [hv, ho]

end

/-! ### The switchover (R408, R413) -/

section
variable {s u : State} {t gs : Nat} (hu : s.at t = u)
include hu

theorem switchoverInstant_none (h : u.twl.exch = none) : exec (.switchoverInstant t) s = .next u := by
  show execSwitchoverInstant t s = _
  unfold execSwitchoverInstant
  dsimp only
  rw [hu, h]

theorem switchoverTimeout_none (h : u.twl.switch = none) : exec (.switchoverTimeout t) s = .next u := by
  show execSwitchoverTimeout t s = _
  unfold execSwitchoverTimeout
  dsimp only
  rw [hu, h]

section
variable {w : SwitchReq} (hw : u.twl.switch = some w)
include hw

theorem switchoverTimeout_over (hlate : w.t + 1000000000 ≤ u.utick) (hexch : u.twl.exch = none) :
    exec (.switchoverTimeout t) s = .next (u.switchEnd 0x0731) := by
  show execSwitchoverTimeout t s = _
  unfold execSwitchoverTimeout
  dsimp only
  rw [hu, hw, hexch]
  exact congrArg Host.Outcome.next (if_pos (by rw [decide_eq_true hlate]; rfl))

theorem switchoverTimeout_waits (hearly : u.utick < w.t + 1000000000) :
    exec (.switchoverTimeout t) s = .next u := by
  show execSwitchoverTimeout t s = _
  unfold execSwitchoverTimeout
  dsimp only
  rw [hu, hw]
  exact congrArg Host.Outcome.next (if_neg (by rw [decide_eq_false (not_le.mpr hearly)]; exact Bool.false_ne_true))

end

variable (hexch : u.twl.exch = some ⟨1, gs, true⟩)
include hexch

theorem switchoverInstant_early (h : u.se.g < gs) : exec (.switchoverInstant t) s = .next u := by
  subst hu
  show execSwitchoverInstant t s = _
  unfold execSwitchoverInstant
  extract_lets +onlyGivenNames v
  rw [show v.twl.exch = some ⟨1, gs, true⟩ from hexch]
  exact congrArg Host.Outcome.next (if_pos (by rw [show decide (v.se.g < gs) = true from decide_eq_true h, Bool.or_true]))

variable (hdue : gs ≤ u.se.g) {x : State}
  (hx : (({ u with twl := { u.twl with exch := none } } : State).raiseEpoch) = x)
include hdue hx

theorem switchoverInstant_due : exec (.switchoverInstant t) s = .next
    (if x.role = .primary then
      let y := { x with twl := { x.twl with pairClaim := claimOf x.epoch (1 - x.unitN), send := [] } }
      let z := ({ y with twl := { y.twl with switch := none } } : State).setRole .tracking
      let z := ({ z with twl := { z.twl with lastTick := z.dtime } } : State).noticeAll 0x0703 0x0700
      (if x.twl.switch.any (·.detach) then z.leaveTwin.noticeAll 0x0702 0x0700 else z).releaseHeld.dispatch
    else if x.role = .tracking then
      ((({ x with twl := { x.twl with pairClaim := x.ownClaim } } : State).setRole .primary).releaseHeld.dispatch)
    else x) := by
  subst hu
  show execSwitchoverInstant t s = _
  unfold execSwitchoverInstant
  extract_lets +onlyGivenNames v
  rw [show v.twl.exch = some ⟨1, gs, true⟩ from hexch]
  refine congrArg Host.Outcome.next ((if_neg ?_).trans ?_)
  · rw [show decide (v.se.g < gs) = false from decide_eq_false (not_lt.mpr hdue)]
    exact Bool.false_ne_true
  · subst hx
    rfl

theorem switchoverInstant_tracking (hrole : x.role = .tracking) : exec (.switchoverInstant t) s = .next
    ((({ x with twl := { x.twl with pairClaim := x.ownClaim } } : State).setRole .primary).releaseHeld.dispatch) :=
  (switchoverInstant_due hu hexch hdue hx).trans (congrArg Host.Outcome.next
    ((if_neg (by rw [hrole]; decide)).trans (if_pos hrole)))

theorem switchoverInstant_primary (hrole : x.role = .primary) (hdetach : x.twl.switch.any (·.detach) = false) :
    let y := ({ x with twl := { x.twl with
      pairClaim := claimOf x.epoch (1 - x.unitN), send := [], switch := none } } : State).setRole .tracking
    let z : State := { y with twl := { y.twl with lastTick := y.dtime } }
    exec (.switchoverInstant t) s = .next ((z.noticeAll 0x703 0x0700).releaseHeld.dispatch) := by
  intro y z
  refine (switchoverInstant_due hu hexch hdue hx).trans (congrArg Host.Outcome.next ((if_pos hrole).trans ?_))
  dsimp only
  rw [hdetach]
  rfl

end

/-! ### The TWL opcodes -/

section
variable {s u : State} {q : Req} {p : Bytes} (hu : s.carry q = u)
include hu

section
variable (hp : p.length = 0)
include hp

theorem twlStatus_carries : s.Carries q 0x700 (.twlStatus q p) (u.ok q 0x0700 (wordBytes u.twlStatReg ++
    wordBytes u.twlClaimReg ++ regsBytes u [Addr.twlDelay, Addr.twlMirror, Addr.twlJoinerr] ++
    wordBytes (if u.twl.link = .up then (u.peerWord 1).getD 0 else 0))) := by
  refine State.carries_of_startLen_eq rfl hp ?_
  rw [hu]
  simp only [regsBytes, wordsBytes, List.flatMap_cons, List.flatMap_nil, List.append_nil, List.append_assoc]

theorem twlJoin_carries_refused (h : u.role ≠ .detached) :
    s.Carries q 0x701 (.twlJoin q p) (u.fail q 0x0701 0x21) := by
  refine State.carries_of_startLen_eq rfl hp ?_
  rw [hu]
  exact if_pos (by simp [h])

section
variable (hrole : u.role = .detached) (hpeer : u.twl.link ≠ .up ∨ u.peerRole = 0)
include hrole hpeer

omit hu hp in
theorem twlJoin_allowed :
    ¬(decide (u.role ≠ .detached) || (decide (u.twl.link = .up) && decide (u.peerRole ≠ 0))) = true := by
  obtain h | h := hpeer <;> simp [h, hrole]

theorem twlJoin_carries_reason {r : Nat} (h : u.joinReason = some r) : s.Carries q 0x701 (.twlJoin q p)
    (((u.wr Addr.twlJoinerr (BitVec.ofNat 32 r)).ev 0x1C9 r).fail q 0x0701 0x20 [BitVec.ofNat 8 r]) := by
  refine State.carries_of_startLen_eq rfl hp ?_
  rw [hu]
  refine (if_neg (twlJoin_allowed hrole hpeer)).trans ?_
  rw [h]

theorem twlJoin_carries_starts (h : u.joinReason = none) :
    s.Carries q 0x701 (.twlJoin q p) (u.accept q 0x0701).joinStart := by
  refine State.carries_of_startLen_eq rfl hp ?_
  rw [hu]
  refine (if_neg (twlJoin_allowed hrole hpeer)).trans ?_
  rw [h]

end

theorem twlDetach_carries_tracking (hrole : u.role = .tracking) :
    s.Carries q 0x702 (.twlDetach q p) ((u.accept q 0x0702).leaveTwin.noticeAll 0x0702 0x0700) := by
  refine State.carries_of_startLen_eq rfl hp ?_
  rw [hu, hrole]

theorem twlDetach_carries_primary (hrole : u.role = .primary) : s.Carries q 0x702 (.twlDetach q p)
    (if u.twl.switch.isSome then u.fail q 0x0702 0x31 else (u.accept q 0x0702).switchStart true) := by
  refine State.carries_of_startLen_eq rfl hp ?_
  rw [hu, hrole]

theorem twlDetach_carries_refused (hrole : u.role = .solo ∨ u.role = .detached ∨ u.role = .joining) :
    s.Carries q 0x702 (.twlDetach q p) (u.fail q 0x0702 0x21) := by
  refine State.carries_of_startLen_eq rfl hp ?_
  rw [hu]
  obtain h | h | h := hrole <;> rw [h]

theorem twlSwitchover_carries_refused (hrole : u.role ≠ .primary) :
    s.Carries q 0x703 (.twlSwitchover q p) (u.fail q 0x0703 0x21) := by
  refine State.carries_of_startLen_eq rfl hp ?_
  rw [hu]
  exact if_pos hrole

theorem twlSwitchover_carries_primary (hrole : u.role = .primary) : s.Carries q 0x703 (.twlSwitchover q p)
    (if u.twl.switch.isSome then u.fail q 0x0703 0x31 else (u.accept q 0x0703).switchStart false) := by
  refine State.carries_of_startLen_eq rfl hp ?_
  rw [hu]
  exact if_neg (not_not.mpr hrole)

theorem twlGoSolo_carries (hrole : u.role = .detached) (hlink : u.twl.link = .down ∨ u.twl.link = .conflict)
    (hpali : u.twl.pali = false) : s.Carries q 0x704 (.twlGoSolo q p)
      ((({ u with twl := { u.twl with wait := none } } : State).goAlone).ok q 0x0704) := by
  refine State.carries_of_startLen_eq rfl hp ?_
  rw [hu]
  refine if_pos ?_
  obtain h | h := hlink <;> simp [h, hrole, hpali]

theorem twlGoSolo_carries_refused (h : u.role ≠ .detached ∨ u.twl.link = .up ∨ u.twl.pali = true) :
    s.Carries q 0x704 (.twlGoSolo q p) (u.fail q 0x0704 0x21) := by
  refine State.carries_of_startLen_eq rfl hp ?_
  rw [hu]
  refine if_neg ?_
  obtain h | h | h := h <;> simp [h]

end

section
variable (hp : p.length = 4)
include hp

theorem twlEpochSet_carries_range (h : 32767 < field p 0 2) :
    s.Carries q 0x705 (.twlEpochSet q p) (u.fail q 0x0705 0x11) := by
  refine State.carries_of_startLen_eq rfl hp ?_
  rw [hu]
  exact if_pos h

variable (hrange : field p 0 2 ≤ 32767)
include hrange

theorem twlEpochSet_carries (hop : u.op = .stop) (hrole : u.role = .solo ∨ u.role = .detached) :
    s.Carries q 0x705 (.twlEpochSet q p) (((u.setEpoch (field p 0 2)).sendCap).ok q 0x0705) := by
  refine State.carries_of_startLen_eq rfl hp ?_
  rw [hu]
  refine (if_neg (not_lt.mpr hrange)).trans (if_neg ?_)
  obtain h | h := hrole <;> simp [h, hop]

theorem twlEpochSet_carries_refused (hop : u.op ≠ .stop) :
    s.Carries q 0x705 (.twlEpochSet q p) (u.fail q 0x0705 0x21) := by
  refine State.carries_of_startLen_eq rfl hp ?_
  rw [hu]
  exact (if_neg (not_lt.mpr hrange)).trans (if_pos (by simp [hop]))

end

end

/-- Settles O51: a frame is acknowledged by `good` first, and then meets the exchange. -/
theorem thePairAgreesAndAnswers : Obligations.ThePairAgreesAndAnswers := by
  unfold Obligations.ThePairAgreesAndAnswers
  refine ⟨fun s t arg gs cap => ?_, fun s q p b => ?_⟩
  · intro u g h does exch
    refine ⟨fun hdown => ?_, fun hlink => ⟨propose_ignored hlink rfl, propose_late hlink rfl,
        fun hrole hsoon hdone hcyc hslack => propose_ready hlink rfl hrole le_rfl hsoon hslack ?_,
        fun hrole hsoon harmed hpfail hslack => propose_ready hlink rfl hrole (Nat.zero_le 1) hsoon hslack ?_,
        ready_late hlink rfl, ready_goes hlink rfl, ready_unasked hlink rfl, twlCap_clash hlink rfl,
        fun hunit hrole hpeer => twlCap_primary hlink rfl hunit hpeer hrole,
        fun hunit hrole hpeer => twlCap_tracking hlink rfl hunit hpeer hrole⟩,
      fun hlink => ⟨decline_exchange hlink rfl, decline_exchange hlink rfl, decline_ignored hlink rfl,
        fun b => go_counts hlink rfl, go_late hlink rfl, go_unasked hlink rfl,
        fun hrole o => twlState_follows hlink rfl hrole, twlState_reserved hlink rfl⟩,
      switchoverInstant_none rfl, switchoverInstant_early rfl,
      fun hexch hdue => ⟨switchoverInstant_tracking rfl hexch hdue rfl, switchoverInstant_primary rfl hexch hdue rfl⟩,
      switchoverTimeout_none rfl, fun w => switchoverTimeout_over rfl, fun w => switchoverTimeout_waits rfl⟩
    · have hu : (s.at t).twl.link ≠ .up := by rwa [State.at_twl]
      exact ⟨congrArg _ (State.onFrame_down hu), congrArg _ (State.onFrame_down hu), congrArg _ (State.onFrame_down hdown),
        congrArg _ (State.onFrame_down hdown), congrArg _ (State.onFrame_down hdown), congrArg _ (State.onFrame_down hu)⟩
    · rw [if_neg Nat.one_ne_zero, hdone, hcyc]
      rfl
    · rw [if_pos rfl, harmed, hpfail]
      rfl
  · intro u
    refine ⟨fun hnil => ?_, fun hp => ⟨twlEpochSet_carries_range rfl hp, twlEpochSet_carries rfl hp,
      twlEpochSet_carries_refused rfl hp⟩, State.carries_of_startLen_eq rfl rfl rfl⟩
    have hp : p.length = 0 := by rw [hnil]; rfl
    refine ⟨twlStatus_carries rfl hp, twlJoin_carries_refused rfl hp, fun hrole hpeer =>
        ⟨fun r => twlJoin_carries_reason rfl hp hrole hpeer, twlJoin_carries_starts rfl hp hrole hpeer⟩,
      twlDetach_carries_tracking rfl hp, fun hrole hswitch => ?_, fun hrole hswitch => ?_,
      twlDetach_carries_refused rfl hp, twlSwitchover_carries_refused rfl hp, twlGoSolo_carries rfl hp,
      twlGoSolo_carries_refused rfl hp⟩
    · have hdetach := twlDetach_carries_primary rfl hp hrole
      have hswitchover := twlSwitchover_carries_primary rfl hp hrole
      rw [if_pos hswitch] at hdetach hswitchover
      exact ⟨hdetach, hswitchover⟩
    · have hdetach := twlDetach_carries_primary rfl hp hrole
      have hswitchover := twlSwitchover_carries_primary rfl hp hrole
      have hidle : (s.carry q).twl.switch = none := hswitch
      rw [if_neg (by rw [hidle]; exact Bool.false_ne_true)] at hdetach hswitchover
      exact ⟨hdetach, hswitchover⟩

end Sys2Proof.Machine
end

