-- ==== Sys2Proof/Proofs/Clock.lean ====
section
/-! SUPPORT. The calendar, the frozen set of a reader, the clock's supply, and the RTC opcodes (R502 to R515, R531,
R575). -/

namespace Sys2Proof.Machine

/-! ### Calendar (R506) -/

theorem dateOk_iff {y m d : Nat} : dateOk y m d = true ↔
    (2000 ≤ y ∧ y ≤ 2199) ∧ (1 ≤ m ∧ m ≤ 12) ∧ 1 ≤ d ∧ d ≤ monthDays y m := by
  simp [dateOk, and_assoc]

theorem one_le_monthDays (y m : Nat) : 1 ≤ monthDays y m := by
  unfold monthDays
  split
  · split <;> decide
  · split <;> decide

/-- The months before December. -/
theorem sum_monthDays (y : Nat) :
    ((List.range 11).map fun i => monthDays y (i + 1)).sum = if leap y then 335 else 334 := by
  cases h : leap y <;> simp [List.range_succ, monthDays, h]

/-- A year is one day longer when it is a leap year. -/
theorem yearDays_succ {y : Nat} (hlo : 2000 ≤ y) (hhi : y < 2199) :
    365 * (y + 1 - 2000) + (y + 1 - 2000 + 3) / 4 - (if 100 < y + 1 - 2000 then 1 else 0) =
      365 * (y - 2000) + (y - 2000 + 3) / 4 - (if 100 < y - 2000 then 1 else 0) + (if leap y then 366 else 365) := by
  have hleap : leap y = true ↔ y % 4 = 0 ∧ y ≠ 2100 := by simp [leap]
  obtain ⟨k, rfl⟩ := Nat.exists_eq_add_of_le hlo
  rw [if_congr hleap rfl rfl]
  split_ifs <;> omega

section
variable {y m d : Nat}

theorem dayNumber_nextDay (hd : 1 ≤ d) : dayNumber y m (d + 1) = dayNumber y m d + 1 := by
  unfold dayNumber
  dsimp only
  omega

theorem dayNumber_nextMonth (hm : 1 ≤ m) (hd : monthDays y m = d) : dayNumber y (m + 1) 1 = dayNumber y m d + 1 := by
  obtain ⟨k, rfl⟩ := Nat.exists_eq_add_of_le hm
  have hpos := one_le_monthDays y (1 + k)
  unfold dayNumber
  rw [show 1 + k + 1 - 1 = k + 1 by omega, show 1 + k - 1 = k by omega, List.range_succ, List.map_append,
    List.sum_append, List.map_cons, List.map_nil, List.sum_singleton, Nat.add_comm k 1]
  dsimp only
  omega

theorem dayNumber_nextYear (hlo : 2000 ≤ y) (hhi : y < 2199) : dayNumber (y + 1) 1 1 = dayNumber y 12 31 + 1 := by
  have hyear := yearDays_succ hlo hhi
  have hsum := sum_monthDays y
  unfold dayNumber
  dsimp only
  rw [show (12 : Nat) - 1 = 11 from rfl, hsum, hyear,
    show (if leap y then 366 else 365) = (if leap y then 335 else 334) + 31 by split <;> rfl,
    Nat.sub_self, List.range_zero, List.map_nil, List.sum_nil]
  omega

end

/-- The date after a date is one day later. -/
theorem nextDate_ok {y m d : Nat} (h : dateOk y m d = true) (hlast : (y, m, d) ≠ (2199, 12, 31)) :
    dateOk (nextDate y m d).1 (nextDate y m d).2.1 (nextDate y m d).2.2 = true ∧
      dayNumber (nextDate y m d).1 (nextDate y m d).2.1 (nextDate y m d).2.2 = dayNumber y m d + 1 := by
  obtain ⟨⟨hlo, hhi⟩, ⟨hm1, hm12⟩, hd1, hd⟩ := dateOk_iff.mp h
  unfold nextDate
  split
  next hnext => exact ⟨dateOk_iff.mpr ⟨⟨hlo, hhi⟩, ⟨hm1, hm12⟩, Nat.le_add_left .., hnext⟩, dayNumber_nextDay hd1⟩
  next hend =>
    have hdm : monthDays y m = d := by omega
    split
    next hdec => exact ⟨dateOk_iff.mpr ⟨⟨hlo, hhi⟩, ⟨Nat.le_add_left .., hdec⟩, le_rfl, one_le_monthDays ..⟩, dayNumber_nextMonth hm1 hdm⟩
    next hdec =>
      obtain rfl : m = 12 := by omega
      obtain rfl : 31 = d := hdm
      have hy : y < 2199 := by
        by_contra hy
        exact hlast (by rw [show y = 2199 by omega])
      rw [if_pos hy]
      exact ⟨dateOk_iff.mpr ⟨⟨Nat.le_succ_of_le hlo, hy⟩, ⟨le_rfl, Nat.le_add_left ..⟩, le_rfl, one_le_monthDays ..⟩, dayNumber_nextYear hlo hy⟩

section
variable {s : State} {t : Nat}

theorem rtcSecond_stopped (h : (s.at t).pwr.x32 = false) : exec (.rtcSecond t) s = .next (s.at t) :=
  congrArg Host.Outcome.next (if_neg (ne_true_of_eq_false h))

theorem rtcSecond_counts (h : (s.at t).pwr.x32 = true) : exec (.rtcSecond t) s = .next (s.at t).rollOver.newSecond :=
  congrArg Host.Outcome.next (if_pos h)

end

section
variable {u : State}

theorem State.rollOver_second (h : u.rdN Addr.rtcSec < 59) : u.rollOver =
    u.setCalendar (u.rdN Addr.rtcYear) (u.rdN Addr.rtcMon) (u.rdN Addr.rtcDay) (u.rdN Addr.rtcHour) (u.rdN Addr.rtcMin)
      (u.rdN Addr.rtcSec + 1) := if_pos h

theorem State.rollOver_minute (hsec : u.rdN Addr.rtcSec = 59) (h : u.rdN Addr.rtcMin < 59) : u.rollOver =
    u.setCalendar (u.rdN Addr.rtcYear) (u.rdN Addr.rtcMon) (u.rdN Addr.rtcDay) (u.rdN Addr.rtcHour)
      (u.rdN Addr.rtcMin + 1) 0 := (if_neg hsec.not_lt).trans (if_pos h)

theorem State.rollOver_day (hsec : u.rdN Addr.rtcSec = 59) (hmin : u.rdN Addr.rtcMin = 59) (h : u.rdN Addr.rtcHour = 23) :
    let n := nextDate (u.rdN Addr.rtcYear) (u.rdN Addr.rtcMon) (u.rdN Addr.rtcDay)
    u.rollOver = u.setCalendar n.1 n.2.1 n.2.2 0 0 0 :=
  (if_neg hsec.not_lt).trans ((if_neg hmin.not_lt).trans (if_neg h.not_lt))

end

/-! ### Coherent reading (R509) -/

section
variable {s u : State} {rd : Reader} {t k : Nat}

/-- A reader other than a context of the SE that has no frozen set takes one. -/
theorem State.rtcRead_freezes (hrd : ∀ n, rd ≠ .ctx n) (h : u.shadowOf rd = none) (hk : k ≠ 6) : (u.rtcRead rd k).2 =
    { u with rtc := { u.rtc with shadows := (rd, u.utick, u.calendar) :: u.rtc.shadows.filter fun e => e.1 ≠ rd } } := by
  unfold State.rtcRead
  cases rd with
  | ctx n => exact absurd rfl (hrd n)
  | _ =>
    dsimp only
    rw [h, if_neg hk]
    rfl

/-- A frozen set serves its reader, and the year ends it. -/
theorem State.rtcRead_frozen (hrd : ∀ n, rd ≠ .ctx n) (h : u.shadowOf rd ≠ none) :
    (u.rtcRead rd k).2 = if k = 6 then u.thaw rd else u := by
  obtain ⟨f, hf⟩ := Option.ne_none_iff_exists'.mp h
  unfold State.rtcRead
  cases rd with
  | ctx n => exact absurd rfl (hrd n)
  | _ =>
    dsimp only
    rw [hf]

theorem rtcShadowRead_eq (hk : k < 7) : exec (.rtcShadowRead rd k t) s = .next ((s.at t).rtcRead rd k).2 :=
  congrArg Host.Outcome.next (if_pos hk)

theorem rtcFreezeTimeout_over (h : (s.at t).shadowOf rd = none) :
    exec (.rtcFreezeTimeout rd t) s = .next ((s.at t).thaw rd) :=
  congrArg Host.Outcome.next (if_pos (Option.isNone_iff_eq_none.mpr h))

theorem rtcFreezeTimeout_runs (h : (s.at t).shadowOf rd ≠ none) : exec (.rtcFreezeTimeout rd t) s = .next (s.at t) :=
  congrArg Host.Outcome.next (if_neg (mt Option.isNone_iff_eq_none.mp h))

end

/-! ### The clock's registers lost (R503) -/

theorem sget_skeep_kept {α : Type} (d : α) (m : Sparse α) {p : Nat → Bool} {k : Nat} (h : p k = true) :
    sget d (skeep m p) k = sget d m k := by
  induction m with
  | nil => rfl
  | cons e r ih =>
    obtain ⟨j, v⟩ := e
    by_cases hj : p j = true
    · rw [skeep, List.filter_cons_of_pos (p := fun e : Nat × α => p e.1) hj, sget, sget]
      exact if_congr Iff.rfl rfl ih
    · have hne : j ≠ k := fun he => hj (he ▸ h)
      rw [skeep, List.filter_cons_of_neg (p := fun e : Nat × α => p e.1) hj, sget, if_neg hne]
      exact ih

theorem isRtc_iff {a : Nat} : isRtc a = true ↔ 0xB0000 ≤ a ∧ a < 0xB1000 := by
  simp only [isRtc, Bool.and_eq_true, decide_eq_true_eq]

section
variable {s x : State} {a : Nat} (h : exec .rtcLostSet s = .next x)
include h

theorem rtcLostSet_rtc (ha : isRtc a = true) : x.rd a = resetVal a := by
  cases h
  exact sget_skeep_dropped (p := fun a => !isRtc a) _ s.regs (by simp [ha])

theorem rtcLostSet_other (ha : isRtc a = false) : x.rd a = s.rd a := by
  cases h
  exact sget_skeep_kept (p := fun a => !isRtc a) _ s.regs (by simp [ha])

end

section
variable {s : State}

theorem batlowSet_again (h : s.bit Addr.rtcStat 3 = true) : exec .batlowSet s = .next s :=
  congrArg Host.Outcome.next (if_pos h)

theorem batlowSet_first (h : s.bit Addr.rtcStat 3 = false) :
    exec .batlowSet s = .next ((s.setBit Addr.rtcStat 3 true).ev 0x2CA (s.fld Addr.rtcStat 31 16)) :=
  congrArg Host.Outcome.next (if_neg (ne_true_of_eq_false h))

/-- A trim of at most 2047 fits its 12 bits. -/
theorem State.rtcTrimWr_small {v : Nat} (h : v ≤ 2047) :
    s.rtcTrimWr (BitVec.ofNat 32 v) = s.wr Addr.rtcTrim (BitVec.ofNat 32 v) := by
  have hbits : bitsOf (BitVec.ofNat 32 v) 11 0 = v := by
    rw [bitsOf, BitVec.toNat_ofNat]
    omega
  have hmask : BitVec.ofNat 32 v &&& 0xFFF = BitVec.ofNat 32 v := by
    apply BitVec.eq_of_toNat_eq
    rw [BitVec.toNat_and, BitVec.toNat_ofNat]
    exact (Nat.and_two_pow_sub_one_eq_mod _ 12).trans (by omega)
  exact (if_neg (by omega)).trans (congrArg (s.wr Addr.rtcTrim) hmask)

end

/-! ### The RTC opcodes (R531) -/

section
variable {s c : State} {q : Req} {p : Bytes} (hc : s.carry q = c)
include hc

theorem rtcRead_carries (hp : p.length = 0) (hlive : c.shadowOf .mgc = none) :
    let b (a : Nat) : Byte := BitVec.ofNat 8 (c.rdN a)
    s.Carries q 0xB00 (.rtcRead q p) ((c.thaw .mgc).ok q 0x0B00 (leBytes 2 (c.rdN Addr.rtcYear) ++
      [b Addr.rtcMon, b Addr.rtcDay, b Addr.rtcHour, b Addr.rtcMin, b Addr.rtcSec, b Addr.rtcWday] ++
      regsBytes c [Addr.rtcSeq] ++ wordBytes c.rtcStatReg ++ regsBytes c [Addr.rtcStampLo, Addr.rtcStampHi])) := by
  intro b
  refine State.carries_of_startLen_eq rfl hp ?_
  rw [hc]
  dsimp only
  rw [hlive]
  simp only [regsBytes, List.flatMap_cons, List.flatMap_nil, List.append_nil, List.append_assoc]
  rfl

theorem rtcSet_carries (hp : p.length = 8) (hsec : field p 6 1 ≤ 59) (hmin : field p 5 1 ≤ 59) (hhour : field p 4 1 ≤ 23)
    (hday : field p 3 1 ≤ 31) (hmon : field p 2 1 ≤ 12) (hyear : field p 0 2 ≤ 2199) :
    s.Carries q 0xB01 (.rtcSet q p)
      ((((c.wr Addr.rtcSetHms (BitVec.ofNat 32 (field p 6 1 + field p 5 1 * 256 + field p 4 1 * 65536))).wr
        Addr.rtcSetDate (BitVec.ofNat 32 (field p 3 1 + field p 2 1 * 256 + field p 0 2 * 65536))).accept q 0x0B01).commitReq
          .rtc) := by
  refine State.carries_of_startLen_eq rfl hp ?_
  dsimp only
  rw [hc, min_eq_left (b := 63) (by omega), min_eq_left (b := 63) (by omega), min_eq_left (b := 31) (by omega),
    min_eq_left (b := 15) (by omega), min_eq_left (b := 4095) (by omega), if_neg (not_lt.mpr hday)]

section
variable (hp : p.length = 2)
include hp

theorem rtcTrim_carries (h : field p 0 2 ≤ 2047) : s.Carries q 0xB02 (.rtcTrim q p)
    ((c.wr Addr.rtcTrim (BitVec.ofNat 32 (field p 0 2))).ok q 0x0B02) := by
  refine State.carries_of_startLen_eq rfl hp ?_
  rw [hc]
  generalize field p 0 2 = v at h
  have hint : (BitVec.ofNat 16 v).toInt = v := by
    rw [BitVec.toInt_ofNat', Int.bmod_eq_of_le (by omega) (by omega)]
  refine (if_neg (by rw [hint]; simp; omega)).trans (congrArg (State.ok · q 0x0B02) ?_)
  have hext : (BitVec.ofNat 16 v).signExtend 32 = BitVec.ofNat 32 v := by
    apply BitVec.eq_of_toInt_eq
    rw [BitVec.toInt_signExtend_of_le (by decide), hint, BitVec.toInt_ofNat', Int.bmod_eq_of_le (by omega) (by omega)]
  rw [hext]
  exact State.rtcTrimWr_small h

theorem rtcTrim_carries_range (h : 2047 < field p 0 2) (h' : field p 0 2 < 63489) :
    s.Carries q 0xB02 (.rtcTrim q p) (c.fail q 0x0B02 0x11) := by
  refine State.carries_of_startLen_eq rfl hp ?_
  rw [hc]
  generalize field p 0 2 = v at h h'
  refine if_pos ?_
  rw [Bool.or_eq_true, decide_eq_true_eq, decide_eq_true_eq, BitVec.toInt_ofNat', Int.bmod]
  omega

end

end

/-- Settles O55: the calendar by days, months and years, a frozen set by its reader. -/
theorem theClockCountsAndIsReadFrozen : Obligations.TheClockCountsAndIsReadFrozen := by
  unfold Obligations.TheClockCountsAndIsReadFrozen
  intro s t rd q p u c does f
  have hcounts {x : State} (hx : u.pwr.x32 = true) (h : u.rollOver = x) : does (.rtcSecond t) x.newSecond :=
    (rtcSecond_counts hx).trans (congrArg (fun y : State => Host.Outcome.next y.newSecond) h)
  refine ⟨rtcSecond_stopped, fun hx => ⟨fun h => hcounts hx (State.rollOver_second h),
      fun hsec h => hcounts hx (State.rollOver_minute hsec h), fun hsec hmin h => hcounts hx (State.rollOver_day hsec hmin h)⟩,
    fun y m d => nextDate_ok, by decide, rfl, fun n k hk => rtcShadowRead_eq hk,
    fun k hk hrd h => (rtcShadowRead_eq (by omega)).trans (congrArg _ (State.rtcRead_freezes hrd h hk.ne)),
    fun hrd h => ⟨fun k hk => (rtcShadowRead_eq (by omega)).trans (congrArg _ ((State.rtcRead_frozen hrd h).trans (if_neg hk.ne))),
      (rtcShadowRead_eq (by decide)).trans (congrArg _ ((State.rtcRead_frozen hrd h).trans (if_pos rfl))),
      rtcFreezeTimeout_runs h⟩,
    rtcFreezeTimeout_over, ⟨_, rfl, fun a hlo hhi => rtcLostSet_rtc (s := s) rfl (isRtc_iff.mpr ⟨hlo, hhi⟩),
      fun a ha => rtcLostSet_other (s := s) rfl ?_, rfl, rfl⟩,
    fun b => ⟨rfl, rfl⟩, batlowSet_again, batlowSet_first, rfl,
    fun hnil hlive => rtcRead_carries rfl (by rw [hnil]; rfl) hlive, rtcSet_carries rfl,
    fun hp => ⟨rtcTrim_carries rfl hp, rtcTrim_carries_range rfl hp⟩⟩
  rw [← Bool.not_eq_true, isRtc_iff]
  omega

end Sys2Proof.Machine
end

