-- ==== Sys2Proof/Proofs/Watchdog.lean ====
section
/-! SUPPORT. Keys, check-ins, configuration and periods of the watchdog, and the WDT opcodes (R518 to R527, R531). -/

namespace Sys2Proof.Machine

/-! ### The keys (R520, R521) -/

section
variable {s : State} {v : Word}

theorem State.wdtKey_wrong (h : bitsOf v 15 0 ≠ 0x5A3C) (h' : bitsOf v 15 0 ≠ 0xC3A5 ∨ s.wdt.keyStep = false) :
    s.wdtKey v = (false, ((s.setKeyStep false).inc Addr.wdtKeyerr).ev 0x2C3 (bitsOf v 15 0)) := by
  refine (if_neg h).trans (if_neg ?_)
  obtain h' | h' := h' <;> simp [h']

theorem State.wdtKey_second_unmarked (h : bitsOf v 15 0 = 0xC3A5) (hstep : s.wdt.keyStep = true)
    (hmarks : s.wdtUnmarked ≠ 0) : s.wdtKey v =
      (false, ((s.setKeyStep false).inc Addr.wdtMisses).ev 0x2C2 (s.setKeyStep false).wdtUnmarked) :=
  (if_neg (by rw [h]; decide)).trans ((if_pos (by rw [h, hstep]; rfl)).trans (if_pos hmarks))

/-- No enabled slot is left unmarked. -/
theorem State.wdtUnmarked_eq_zero : s.wdtUnmarked = 0 ↔
    ∀ i, i < 16 → s.bit Addr.wdtSloten i = true → s.wdtMarked i = true := by
  unfold State.wdtUnmarked
  rw [List.sum_eq_zero_iff]
  simp only [List.mem_map, List.mem_filter, List.mem_range, Bool.and_eq_true, Bool.not_eq_true']
  constructor
  · intro h i hi hen
    by_contra hmark
    have hpow := h _ ⟨i, ⟨hi, hen, Bool.not_eq_true _ ▸ hmark⟩, rfl⟩
    exact absurd hpow (by positivity)
  · rintro h x ⟨i, ⟨hi, hen, hmark⟩, -⟩
    exact absurd (h i hi hen) (ne_true_of_eq_false hmark)

end

/-! ### Check-in and configuration (R519, R522) -/

section
variable {s : State} {v : Word} {off : Nat}

theorem wdtCheckinWrite_other (h : s.fld (Addr.wdtSlot (bitsOf v 3 0)) 1 0 ≠ 0) : exec (.wdtCheckinWrite v) s = .next s :=
  congrArg Host.Outcome.next (if_neg h)

theorem wdtCheckinWrite_marks (h : s.fld (Addr.wdtSlot (bitsOf v 3 0)) 1 0 = 0)
    (hnew : s.wdt.marks.contains (bitsOf v 3 0) = false) : exec (.wdtCheckinWrite v) s = .next
      { s with wdt := { s.wdt with marks := s.wdt.marks ++ [bitsOf v 3 0] } } :=
  congrArg Host.Outcome.next ((if_pos h).trans (if_neg (ne_true_of_eq_false hnew)))

theorem wdtMask_isSome (h : off = 0 ∨ off = 4 ∨ (0x40 ≤ off ∧ off < 0x80 ∧ off % 4 = 0)) : ∃ m, wdtMask off = some m := by
  obtain rfl | rfl | ⟨hlo, hhi, hmod⟩ := h
  · exact ⟨_, rfl⟩
  · exact ⟨_, rfl⟩
  · refine ⟨0xFF03, (if_neg (by omega)).trans ((if_neg (by omega)).trans (if_pos ?_))⟩
    simp only [Bool.and_eq_true, decide_eq_true_eq]
    exact ⟨⟨hlo, hhi⟩, hmod⟩

theorem wdtConfigWrite_closed (hoff : off = 0 ∨ off = 4 ∨ (0x40 ≤ off ∧ off < 0x80 ∧ off % 4 = 0))
    (h : s.wdtOpen = false) : exec (.wdtConfigWrite off v) s = .next ((s.inc Addr.wdtCfgign).ev 0x2C4 off) := by
  obtain ⟨m, hm⟩ := wdtMask_isSome hoff
  refine congrArg Host.Outcome.next ?_
  unfold State.wdtConfig
  rw [hm]
  exact if_pos (by rw [h]; rfl)

theorem wdtConfigWrite_period (h : s.wdtOpen = true) : exec (.wdtConfigWrite 0 v) s = .next
    (if !wdtValueOk 0 v then s.inc Addr.wdtCfgign
    else { s with wdt := { s.wdt with next := sins s.wdt.next Addr.wdtCfg (v &&& 0x1F) } }) :=
  congrArg Host.Outcome.next (if_neg (by rw [h]; exact Bool.false_ne_true))

theorem wdtConfigWrite_period_bad (h : s.wdtOpen = true) (hbad : 13 < bitsOf v 3 0) :
    exec (.wdtConfigWrite 0 v) s = .next (s.inc Addr.wdtCfgign) :=
  (wdtConfigWrite_period h).trans (congrArg _ (if_pos (by
    rw [show wdtValueOk 0 v = false from decide_eq_false (not_le.mpr hbad)]; rfl)))

theorem wdtConfigWrite_period_taken (h : s.wdtOpen = true) (hok : bitsOf v 3 0 ≤ 13) :
    exec (.wdtConfigWrite 0 v) s = .next
      { s with wdt := { s.wdt with next := sins s.wdt.next Addr.wdtCfg (v &&& 0x1F) } } :=
  (wdtConfigWrite_period h).trans (congrArg _ (if_neg (by
    rw [show wdtValueOk 0 v = true from decide_eq_true hok]; exact Bool.false_ne_true)))

end

/-! ### The end of a period (R525 to R527) -/

section
variable {s : State} {t : Nat}

theorem wdtPeriodEnd_runs (h : (s.at t).wdtElapsed < 2 ^ (10 + (s.at t).fld Addr.wdtCfg 3 0)) :
    exec (.wdtPeriodEnd t) s = .next (s.at t) := congrArg Host.Outcome.next (if_pos h)

variable (h : 2 ^ (10 + (s.at t).fld Addr.wdtCfg 3 0) ≤ (s.at t).wdtElapsed)
include h

theorem wdtPeriodEnd_resets (hwarn : (s.at t).wdt.warn = true) : exec (.wdtPeriodEnd t) s = .next
    (((s.at t).latchCause 0).deviceReset true false ((s.at t).bit Addr.rstCause 8) ((s.at t).bit Addr.rstCause 9)) :=
  congrArg Host.Outcome.next ((if_neg (not_lt.mpr h)).trans (if_pos hwarn))

theorem wdtPeriodEnd_warns (hwarn : (s.at t).wdt.warn = false) :
    let x := (({ s.at t with wdt := { (s.at t).wdt with warn := true } } : State).inc Addr.wdtWarns).wdtNewPeriod
    exec (.wdtPeriodEnd t) s = .next ((x.event 0x2C0 x.wdtStatReg).sysTrig 6 2) :=
  congrArg Host.Outcome.next ((if_neg (not_lt.mpr h)).trans (if_neg (ne_true_of_eq_false hwarn)))

end

/-! ### The WDT opcodes (R531) -/

section
variable {s c : State} {q : Req} (hc : s.carry q = c)
include hc

theorem wdtStatus_carries : s.Carries q 0xB03 (.wdtStatus q []) (c.ok q 0x0B03
    (regsBytes c [Addr.wdtCfg, Addr.wdtSloten] ++ wordBytes c.wdtStatReg ++ wordBytes c.wdtElapsedReg ++
      regsBytes c [Addr.wdtMisses, Addr.wdtWarns])) := by
  refine State.carries_of_startLen_eq rfl rfl ?_
  rw [hc]
  simp only [regsBytes, wordsBytes, List.flatMap_cons, List.flatMap_nil, List.append_nil, List.append_assoc]

theorem wdtService_carries_firmware (h : c.fld Addr.wdtCfg 4 4 = 1) :
    s.Carries q 0xB04 (.wdtService q []) (c.fail q 0x0B04 0x20) := by
  refine State.carries_of_startLen_eq rfl rfl ?_
  rw [hc]
  exact if_pos h

section
variable (h : c.fld Addr.wdtCfg 4 4 = 0)
include h

theorem wdtService_carries {b : Bool} {x : State} (hkeys : (c.wdtKey 0x5A3C).2.wdtKey 0xC3A5 = (b, x)) :
    s.Carries q 0xB04 (.wdtService q []) (if b then x.ok q 0x0B04 else x.fail q 0x0B04 0x20) := by
  refine State.carries_of_startLen_eq rfl rfl ?_
  rw [hc]
  refine (if_neg (by rw [h]; decide)).trans ?_
  rw [hkeys]

theorem wdtService_carries_unmarked (hmarks : c.wdtUnmarked ≠ 0) : s.Carries q 0xB04 (.wdtService q [])
    (((((c.setKeyStep true).setKeyStep false).inc Addr.wdtMisses).ev 0x2C2
      ((c.setKeyStep true).setKeyStep false).wdtUnmarked).fail q 0x0B04 0x20) := by
  refine wdtService_carries hc h (b := false) ?_
  rw [c.wdtKey_first (by decide)]
  exact State.wdtKey_second_unmarked (s := c.setKeyStep true) (by decide) rfl hmarks

theorem wdtService_carries_calm (hmarks : c.wdtUnmarked = 0) (hwarn : c.wdt.warn = false) :
    s.Carries q 0xB04 (.wdtService q []) ((((c.setKeyStep true).setKeyStep false).wdtCalmPeriod).ok q 0x0B04) := by
  have hserved := wdtService_carries hc h (State.wdtKey_first_second hmarks)
  rwa [State.wdtRestart_of_not_warn ((c.setKeyStep true).setKeyStep false) hwarn] at hserved

end

section
variable {b : Byte}

theorem wdtCheckin_carries_range (hb : 15 < b.toNat) : s.Carries q 0xB05 (.wdtCheckin q [b]) (c.fail q 0x0B05 0x11) := by
  refine State.carries_of_startLen_eq rfl rfl ?_
  rw [hc]
  exact if_pos (by rwa [field_one])

variable (hb : b.toNat ≤ 15)
include hb

theorem wdtCheckin_carries : s.Carries q 0xB05 (.wdtCheckin q [b])
    (if c.fld (Addr.wdtSlot b.toNat) 1 0 ≠ 0 then c.fail q 0x0B05 0x20 else (c.wdtMark b.toNat).ok q 0x0B05) := by
  refine State.carries_of_startLen_eq rfl rfl ?_
  have hslot : field [b] 0 1 = b.toNat := field_one [b] 0
  rw [hc]
  dsimp only
  rw [hslot]
  exact if_neg (not_lt.mpr hb)

end

end

/-- Settles O56: the two keys end in `wdtRestart`, and a period in a warning or the reset. -/
theorem theWatchdogIsServedWarnsAndResets : Obligations.TheWatchdogIsServedWarnsAndResets := by
  unfold Obligations.TheWatchdogIsServedWarnsAndResets
  intro s v off t q p b u c k does step slot
  have hkey {r : Bool × State} (h : s.wdtKey v = r) : does (.wdtKeyWrite v) r.2 :=
    (exec_wdtKeyWrite v s).trans (congrArg (fun r : Bool × State => Host.Outcome.next r.2) h)
  refine ⟨fun h => hkey (s.wdtKey_first h), fun h h' => hkey (State.wdtKey_wrong h h'),
    fun h hstep => ⟨fun hmarks => hkey (State.wdtKey_second_unmarked h hstep hmarks),
      fun hmarks => hkey (State.wdtKey_second (s := s) hmarks h hstep)⟩,
    State.wdtUnmarked_eq_zero, wdtCheckinWrite_other, wdtCheckinWrite_marks, fun hoff => ⟨wdtConfigWrite_closed hoff,
      fun hopen h0 hbad => by rw [h0]; exact wdtConfigWrite_period_bad hopen hbad,
      fun hopen h0 hok => by rw [h0]; exact wdtConfigWrite_period_taken hopen hok⟩,
    wdtPeriodEnd_runs, wdtPeriodEnd_resets, wdtPeriodEnd_warns, fun hnil => ?_, wdtCheckin_carries_range rfl,
    fun hb hslot => ?_, fun hb hslot => ?_⟩
  · rw [hnil]
    refine ⟨wdtStatus_carries rfl, wdtService_carries_firmware rfl, fun hhost =>
      ⟨fun hmarks => wdtService_carries_unmarked (s := s) (q := q) rfl hhost hmarks, fun hmarks hwarn => wdtService_carries_calm (s := s) (q := q) rfl hhost hmarks hwarn⟩⟩
  · have hchecked := wdtCheckin_carries (s := s) (q := q) rfl hb
    rw [if_pos hslot] at hchecked
    exact hchecked
  · have hchecked := wdtCheckin_carries (s := s) (q := q) rfl hb
    rw [if_neg (not_not.mpr hslot)] at hchecked
    exact hchecked

end Sys2Proof.Machine
end

