-- ==== Sys2Proof/Proofs/FirmwareUpdate.lean ====
section
/-! SUPPORT. A package staged, verified and activated, a trial confirmed or fallen back, and the UPD opcodes (R538 to
R552, R556, R560). -/

namespace Sys2Proof.Machine

/-! ### UPD_BEGIN (R539) -/

/-- The update engine works on what was staged. -/
def State.updBusy (u : State) : Prop := u.fwu.st = .erasing ∨ u.fwu.st = .verifying ∨ u.fwu.st = .activating

theorem State.updBusy_iff {u : State} : (decide (u.fwu.st = .erasing) || decide (u.fwu.st = .verifying) ||
    decide (u.fwu.st = .activating)) = true ↔ u.updBusy := by
  simp only [Bool.or_eq_true, decide_eq_true_eq, or_assoc]
  exact Iff.rfl

section
variable {s u : State} {q : Req} {p : Bytes} (hu : s.carry q = u) (hp : p.length = 128 + 64 * npart p)
include hu hp

/-- A package head of the length that its number of parts asks for comes to the checks of R539. -/
theorem updBegin_carries {x : State} (h : (if u.updRoleBad then u.fail q 0x0C00 0x21
    else if u.updStateBad then u.fail q 0x0C00 0x20
    else if u.updEnergyBad then u.fail q 0x0C00 0x22
    else if u.fwu.st = .erasing || u.fwu.st = .verifying || u.fwu.st = .activating then u.fail q 0x0C00 0x31
    else if u.headReason p ≠ 0 then u.updRefuse q 0x11 (u.headReason p)
    else if !ecdsaOk (Config.vendorKey (field p 0x21 1)) (sha256 (signedPart p)) (p.drop (p.length - 64)) then
      u.updRefuse q 0x50 0
    else if !manifestOk p then u.updRefuse q 0x11 6
    else if u.role = .tracking && field p 0x20 1 ≠ (u.peerWord 0).elim (field p 0x20 1) (bitsOf · 7 0) then
      u.updRefuse q 0x21 8
    else
      let s := (u.imgStop.accept q 0x0C00).event 0x300 (wordAt p 0x10)
      { s with fwu := { s.fwu with st := .erasing, head := some p, mark := false, data := [], buf := 0, bad := none } }) = x) :
    s.Carries q 0xC00 (.updBegin q p) x := by
  refine State.carries_of_start_eq rfl ?_
  rw [hu]
  refine (if_neg ?_).trans (Eq.trans ?_ h)
  · simp only [Bool.or_eq_true, decide_eq_true_eq]
    omega
  · cases u.peerWord 0 <;> rfl

theorem updBegin_carries_role (h : u.updRoleBad = true) : s.Carries q 0xC00 (.updBegin q p) (u.fail q 0x0C00 0x21) :=
  updBegin_carries hu hp (if_pos h)

variable (hrole : u.updRoleBad = false)
include hrole

theorem updBegin_carries_state (h : u.updStateBad = true) : s.Carries q 0xC00 (.updBegin q p) (u.fail q 0x0C00 0x20) :=
  updBegin_carries hu hp ((if_neg (ne_true_of_eq_false hrole)).trans (if_pos h))

variable (hstate : u.updStateBad = false)
include hstate

theorem updBegin_carries_energy (h : u.updEnergyBad = true) : s.Carries q 0xC00 (.updBegin q p) (u.fail q 0x0C00 0x22) :=
  updBegin_carries hu hp ((if_neg (ne_true_of_eq_false hrole)).trans ((if_neg (ne_true_of_eq_false hstate)).trans (if_pos h)))

variable (henergy : u.updEnergyBad = false)
include henergy

theorem updBegin_carries_busy (h : u.updBusy) : s.Carries q 0xC00 (.updBegin q p) (u.fail q 0x0C00 0x31) :=
  updBegin_carries hu hp ((if_neg (ne_true_of_eq_false hrole)).trans ((if_neg (ne_true_of_eq_false hstate)).trans
    ((if_neg (ne_true_of_eq_false henergy)).trans (if_pos (State.updBusy_iff.mpr h)))))

variable (hidle : ¬u.updBusy)
include hidle

/-- An idle update engine looks at the package (step 5 of R539). -/
theorem updBegin_carries_looks {x : State} (h : (if u.headReason p ≠ 0 then u.updRefuse q 0x11 (u.headReason p)
    else if !ecdsaOk (Config.vendorKey (field p 0x21 1)) (sha256 (signedPart p)) (p.drop (p.length - 64)) then
      u.updRefuse q 0x50 0
    else if !manifestOk p then u.updRefuse q 0x11 6
    else if u.role = .tracking && field p 0x20 1 ≠ (u.peerWord 0).elim (field p 0x20 1) (bitsOf · 7 0) then
      u.updRefuse q 0x21 8
    else
      let s := (u.imgStop.accept q 0x0C00).event 0x300 (wordAt p 0x10)
      { s with fwu := { s.fwu with st := .erasing, head := some p, mark := false, data := [], buf := 0, bad := none } }) = x) :
    s.Carries q 0xC00 (.updBegin q p) x :=
  updBegin_carries hu hp ((if_neg (ne_true_of_eq_false hrole)).trans ((if_neg (ne_true_of_eq_false hstate)).trans
    ((if_neg (ne_true_of_eq_false henergy)).trans ((if_neg (mt State.updBusy_iff.mp hidle)).trans h))))

theorem updBegin_carries_head {r : Nat} (hr : u.headReason p = r) (h : r ≠ 0) : s.Carries q 0xC00 (.updBegin q p)
    ((u.ev 0x301 (0x0C00 + 0x11 + r * 65536)).fail q 0x0C00 0x11 [BitVec.ofNat 8 r]) := by
  refine updBegin_carries_looks hu hp hrole hstate henergy hidle ((if_pos (by rwa [hr])).trans ?_)
  rw [hr]
  exact congrArg (fun d => State.fail _ q 0x0C00 0x11 d) (if_neg h)

variable (hhead : u.headReason p = 0)
include hhead

theorem updBegin_carries_signature
    (h : ecdsaOk (Config.vendorKey (field p 0x21 1)) (sha256 (signedPart p)) (p.drop (p.length - 64)) = false) :
    s.Carries q 0xC00 (.updBegin q p) ((u.ev 0x301 (0x0C00 + 0x50 + 0 * 65536)).fail q 0x0C00 0x50 []) := by
  refine updBegin_carries_looks hu hp hrole hstate henergy hidle ((if_neg (not_not.mpr hhead)).trans (if_pos ?_))
  rw [h]
  rfl

variable (hsigned : ecdsaOk (Config.vendorKey (field p 0x21 1)) (sha256 (signedPart p)) (p.drop (p.length - 64)) = true)
include hsigned

theorem updBegin_carries_manifest (h : manifestOk p = false) : s.Carries q 0xC00 (.updBegin q p)
    ((u.ev 0x301 (0x0C00 + 0x11 + 6 * 65536)).fail q 0x0C00 0x11 [6]) := by
  refine updBegin_carries_looks hu hp hrole hstate henergy hidle ((if_neg (not_not.mpr hhead)).trans
    ((if_neg ?_).trans (if_pos ?_)))
  · rw [hsigned]
    exact Bool.false_ne_true
  · rw [h]
    rfl

theorem updBegin_carries_erases (h : manifestOk p = true) (hleads : u.role ≠ .tracking) :
    let x := (u.imgStop.accept q 0x0C00).event 0x300 (wordAt p 0x10)
    s.Carries q 0xC00 (.updBegin q p)
      { x with fwu := { x.fwu with st := .erasing, head := some p, mark := false, data := [], buf := 0, bad := none } } := by
  refine updBegin_carries_looks hu hp hrole hstate henergy hidle ((if_neg (not_not.mpr hhead)).trans
    ((if_neg ?_).trans ((if_neg ?_).trans (if_neg ?_))))
  · rw [hsigned]
    exact Bool.false_ne_true
  · rw [h]
    exact Bool.false_ne_true
  · rw [decide_eq_false hleads]
    exact Bool.false_ne_true

end

theorem eraseDone_erasing {s : State} (h : s.fwu.st = .erasing) : exec .eraseDone s = .next
    (({ s with fwu := { s.fwu with st := .receiving } } : State).noticeAll 0x0C00 0x0C00) :=
  congrArg Host.Outcome.next (if_pos h)

theorem eraseDone_other {s : State} (h : s.fwu.st ≠ .erasing) : exec .eraseDone s = .next s :=
  congrArg Host.Outcome.next (if_neg h)

/-! ### UPD_DATA (R540) -/

section
variable {s u : State} {q : Req} {p : Bytes} (hu : s.carry q = u) (hlo : 4 ≤ p.length) (hhi : p.length ≤ 4076)
include hu hlo hhi

theorem updData_carries {x : State} (h : (if u.fwu.st ≠ .receiving then u.fail q 0x0C01 0x20
    else if field p 0 4 ≠ u.fwu.data.length then u.fail q 0x0C01 0x11 (leBytes 4 u.fwu.data.length)
    else if dataLen (u.fwu.head.getD []) < u.fwu.data.length + (p.drop 4).length then u.fail q 0x0C01 0x11
    else if 65536 < u.progLevel + (p.drop 4).length then u.fail q 0x0C01 0x31
    else (if (p.drop 4).isEmpty then u else { u with fwu := { u.fwu with
      data := u.fwu.data ++ p.drop 4, buf := u.progLevel + (p.drop 4).length, bufT := u.utick } }).ok q 0x0C01) = x) :
    s.Carries q 0xC01 (.updData q p) x := by
  refine State.carries_of_start_eq rfl ?_
  rw [hu]
  refine (if_neg ?_).trans h
  simp only [Bool.or_eq_true, decide_eq_true_eq]
  omega

theorem updData_carries_state (h : u.fwu.st ≠ .receiving) : s.Carries q 0xC01 (.updData q p) (u.fail q 0x0C01 0x20) :=
  updData_carries hu hlo hhi (if_pos h)

variable (hst : u.fwu.st = .receiving)
include hst

theorem updData_carries_offset (h : field p 0 4 ≠ u.fwu.data.length) :
    s.Carries q 0xC01 (.updData q p) (u.fail q 0x0C01 0x11 (leBytes 4 u.fwu.data.length)) :=
  updData_carries hu hlo hhi ((if_neg (not_not.mpr hst)).trans (if_pos h))

variable (hoff : field p 0 4 = u.fwu.data.length)
  (hfits : u.fwu.data.length + (p.drop 4).length ≤ dataLen (u.fwu.head.getD []))
include hoff hfits

theorem updData_carries_full (h : 65536 < u.progLevel + (p.drop 4).length) :
    s.Carries q 0xC01 (.updData q p) (u.fail q 0x0C01 0x31) :=
  updData_carries hu hlo hhi ((if_neg (not_not.mpr hst)).trans ((if_neg (not_not.mpr hoff)).trans
    ((if_neg (not_lt.mpr hfits)).trans (if_pos h))))

theorem updData_carries_taken (hne : p.drop 4 ≠ []) (h : u.progLevel + (p.drop 4).length ≤ 65536) :
    s.Carries q 0xC01 (.updData q p) (({ u with fwu := { u.fwu with
      data := u.fwu.data ++ p.drop 4, buf := u.progLevel + (p.drop 4).length, bufT := u.utick } } : State).ok q 0x0C01) :=
  updData_carries hu hlo hhi ((if_neg (not_not.mpr hst)).trans ((if_neg (not_not.mpr hoff)).trans
    ((if_neg (not_lt.mpr hfits)).trans ((if_neg (not_lt.mpr h)).trans
      (congrArg (State.ok · q 0x0C01) (if_neg (by simpa using hne)))))))

end

/-! ### UPD_VERIFY, UPD_CONFIRM, UPD_REVERT and UPD_ABORT (R541, R549, R552, R560) -/

section
variable {s u : State} {q : Req} (hu : s.carry q = u)
include hu

theorem updVerify_carries_state (h : u.fwu.st ≠ .receiving ∨ u.fwu.data.length ≠ dataLen (u.fwu.head.getD [])) :
    s.Carries q 0xC02 (.updVerify q []) (u.fail q 0x0C02 0x20) := by
  refine State.carries_of_startLen_eq rfl rfl ?_
  rw [hu]
  exact if_pos (by simpa only [Bool.or_eq_true, decide_eq_true_eq] using h)

theorem updVerify_carries_bad (hst : u.fwu.st = .receiving) (hlen : u.fwu.data.length = dataLen (u.fwu.head.getD []))
    {e : Nat} (hbad : u.badPart = some e) : let x := u.accept q 0x0C02
      s.Carries q 0xC02 (.updVerify q [])
        { x with fwu := { x.fwu with st := .verifying, bad := some e, staged := 0, failed := 0 } } := by
  refine State.carries_of_startLen_eq rfl rfl ?_
  rw [hu]
  refine (if_neg ?_).trans ?_
  · simp only [hst, hlen, ne_eq, not_true_eq_false, decide_false, Bool.or_self, Bool.false_eq_true, not_false_eq_true]
  · dsimp only
    rw [hbad]
    rfl

theorem updConfirm_carries_refused (h : u.inTrial = false ∨ u.fwu.setinc = true) :
    s.Carries q 0xC04 (.updConfirm q []) (u.fail q 0x0C04 0x20) := by
  refine State.carries_of_startLen_eq rfl rfl ?_
  rw [hu]
  refine if_pos ?_
  obtain h | h := h <;> simp [h]

theorem updConfirm_carries (htrial : u.inTrial = true) (hset : u.fwu.setinc = false) :
    s.Carries q 0xC04 (.updConfirm q []) (u.confirm.ok q 0x0C04) := by
  refine State.carries_of_startLen_eq rfl rfl ?_
  rw [hu]
  exact if_neg (by simp [htrial, hset])

theorem updRevert_carries_role (h : u.updRoleBad = true) : s.Carries q 0xC05 (.updRevert q []) (u.fail q 0x0C05 0x21) := by
  refine State.carries_of_startLen_eq rfl rfl ?_
  rw [hu]
  exact if_pos h

theorem updRevert_carries_empty (hrole : u.updRoleBad = false) (h : u.slotImg (1 - u.fwu.run) = none) :
    s.Carries q 0xC05 (.updRevert q []) (u.fail q 0x0C05 0x20) := by
  refine State.carries_of_startLen_eq rfl rfl ?_
  rw [hu]
  exact (if_neg (ne_true_of_eq_false hrole)).trans (if_pos (Option.isNone_iff_eq_none.mpr h))

theorem updRevert_carries (hrole : u.updRoleBad = false) (h : u.slotImg (1 - u.fwu.run) ≠ none) :
    s.Carries q 0xC05 (.updRevert q []) ((((u.otherSlot 4).ev 0x30A (1 - u.fwu.run)).ok q 0x0C05).updRestart) := by
  refine State.carries_of_startLen_eq rfl rfl ?_
  rw [hu]
  exact (if_neg (ne_true_of_eq_false hrole)).trans (if_neg (mt Option.isNone_iff_eq_none.mp h))

theorem updStatus_carries : s.Carries q 0xC06 (.updStatus q [])
    (u.ok q 0x0C06 ((List.range 7).flatMap fun i => wordBytes (u.fwuReg (4 * i)))) := by
  refine State.carries_of_startLen_eq rfl rfl ?_
  rw [hu, wordsBytes, List.flatMap_map]

theorem updAbort_carries_busy (h : u.updBusy) : s.Carries q 0xC07 (.updAbort q []) (u.fail q 0x0C07 0x31) := by
  refine State.carries_of_startLen_eq rfl rfl ?_
  rw [hu]
  exact if_pos (State.updBusy_iff.mpr h)

theorem updAbort_carries_idle (h : u.fwu.st = .idle) : s.Carries q 0xC07 (.updAbort q []) (u.ok q 0x0C07) := by
  refine State.carries_of_startLen_eq rfl rfl ?_
  rw [hu]
  exact (if_neg (by simp [h])).trans (if_pos h)

theorem updAbort_carries (h : u.fwu.st = .receiving ∨ u.fwu.st = .verified) : let x := u.imgStop
    s.Carries q 0xC07 (.updAbort q [])
      (({ x with fwu := { x.fwu with st := .idle, mark := false, head := none, data := [] } } : State).ok q 0x0C07) := by
  refine State.carries_of_startLen_eq rfl rfl ?_
  rw [hu]
  refine (if_neg ?_).trans (if_neg ?_)
  · obtain h | h := h <;> simp [h]
  · obtain h | h := h <;> simp [h]

end

/-! ### VERIFY_DONE (R541) -/

section
variable {s : State}

theorem verifyDone_waits (h : s.fwu.st ≠ .verifying ∨ s.fwu.jobs ≠ []) : exec .verifyDone s = .next s := by
  refine congrArg Host.Outcome.next (if_pos ?_)
  obtain h | h := h <;> simp [h]

variable (hst : s.fwu.st = .verifying) (hjobs : s.fwu.jobs = [])
include hst hjobs

theorem verifyDone_works : ¬(decide (s.fwu.st ≠ .verifying) || !s.fwu.jobs.isEmpty) = true := by
  simp [hst, hjobs]

theorem verifyDone_bad {e : Nat} (h : s.fwu.bad = some e) : exec .verifyDone s = .next
    ((({ s with fwu := { s.fwu with st := .idle, bad := none } } : State).ev 0x303 e).noticeAll 0x0C02 0x0C50) := by
  refine congrArg Host.Outcome.next ((if_neg (verifyDone_works hst hjobs)).trans ?_)
  rw [h]

theorem verifyDone_good (h : s.fwu.bad = none) :
    let x := ({ s with fwu := { s.fwu with st := .verified, mark := true } } : State).ev 0x302 (npart (s.fwu.head.getD []))
    exec .verifyDone s = .next (x.noticeAll 0x0C02 0x0C00 (leBytes 2 s.fwu.staged ++ leBytes 2 s.fwu.failed)) := by
  refine congrArg Host.Outcome.next ((if_neg (verifyDone_works hst hjobs)).trans ?_)
  rw [h]

end

/-! ### UPD_ACTIVATE and UPD_STATION_ACTIVATE (R542, R543, R556) -/

section
variable {s u : State} {q : Req} {p : Bytes} (hu : s.carry q = u)
include hu

section
variable (hp : p.length = 4) (hwin : 1 ≤ field p 0 1) (hwin60 : field p 0 1 ≤ 60) (hrole : u.updRoleBad = false)
  (henergy : u.updEnergyBad = false)
include hp hwin hwin60 hrole henergy

theorem updActivate_carries {x : State} (h : (if u.updStateBad || u.fwu.st ≠ .verified then u.fail q 0x0C03 0x20
    else if u.se.swap.chamber = Chamber.armed || u.se.swap.chamber = Chamber.swapping || u.miu.scrub.isSome then
      u.fail q 0x0C03 0x31
    else
      let s := u.writeSlotRec { u.slotRec.getD { active := 1 } with
        pending := true, confwin := field p 0 1, autoconf := (p.getD 1 0).getLsbD 0,
        pkgdig := sha256 (signedPart (u.fwu.head.getD [])) }
      let s := ((s.ok q 0x0C03).ev 0x304 s.targetSlot).updRestart
      { s with fwu := { s.fwu with st := .activating } }) = x) : s.Carries q 0xC03 (.updActivate q p) x := by
  refine State.carries_of_startLen_eq rfl hp ?_
  rw [hu]
  refine (if_neg ?_).trans ((if_neg (ne_true_of_eq_false hrole)).trans ((if_neg (ne_true_of_eq_false henergy)).trans h))
  simp only [Bool.or_eq_true, decide_eq_true_eq]
  omega

theorem updActivate_carries_state (h : u.updStateBad = true ∨ u.fwu.st ≠ .verified) :
    s.Carries q 0xC03 (.updActivate q p) (u.fail q 0x0C03 0x20) :=
  updActivate_carries hu hp hwin hwin60 hrole henergy
    (if_pos (by simpa only [Bool.or_eq_true, decide_eq_true_eq] using h))

theorem updActivate_carries_record (hstate : u.updStateBad = false) (hst : u.fwu.st = .verified)
    (harmed : u.se.swap.chamber ≠ .armed) (hswaps : u.se.swap.chamber ≠ .swapping) (hscrub : u.miu.scrub = none)
    {r : SlotRec} (hr : u.slotRec = some r) :
    let r1 : SlotRec := { r with pending := true, confwin := field p 0 1, autoconf := (p.getD 1 0).getLsbD 0 }
    let x := u.writeSlotRec { r1 with pkgdig := sha256 (signedPart (u.fwu.head.getD [])) }
    let y := ((x.ok q 0x0C03).ev 0x304 x.targetSlot).updRestart
    s.Carries q 0xC03 (.updActivate q p) { y with fwu := { y.fwu with st := .activating } } := by
  refine updActivate_carries hu hp hwin hwin60 hrole henergy ((if_neg ?_).trans ((if_neg ?_).trans ?_))
  · simp [hstate, hst]
  · simp [harmed, hswaps, hscrub]
  · rw [hr]
    rfl

end

section
variable (hp : p.length = 2)
include hp

theorem updStationActivate_carries_unmarked (h : u.fwu.mark = false) :
    s.Carries q 0xC08 (.updStationActivate q p) (u.fail q 0x0C08 0x20) := by
  refine State.carries_of_startLen_eq rfl hp ?_
  rw [hu]
  exact if_pos (by rw [h]; rfl)

variable (hmark : u.fwu.mark = true)
include hmark

theorem updStationActivate_carries_role (h : u.role = .tracking ∨ u.role = .joining) :
    s.Carries q 0xC08 (.updStationActivate q p) (u.fail q 0x0C08 0x21) := by
  refine State.carries_of_startLen_eq rfl hp ?_
  rw [hu]
  refine (if_neg (by rw [hmark]; exact Bool.false_ne_true)).trans (if_pos ?_)
  obtain h | h := h <;> simp [h]

theorem updStationActivate_carries (hrole : u.role = .solo ∨ u.role = .primary) (hlongs : u.longsOf 0xC08 = [])
    (hjobs : u.imgJobs (field p 0 2) 0x43 = []) : let x := u.accept q 0x0C08
      s.Carries q 0xC08 (.updStationActivate q p)
        (({ x with fwu := { x.fwu with acted := 0, refused := 0 } } : State).noticeAll 0x0C08 0x0C00 [0, 0, 0, 0]) := by
  refine State.carries_of_startLen_eq rfl hp ?_
  rw [hu]
  refine (if_neg (by rw [hmark]; exact Bool.false_ne_true)).trans ((if_neg ?_).trans ((if_neg ?_).trans ?_))
  · obtain h | h := hrole <;> simp [h]
  · rw [hlongs]
    exact Bool.false_ne_true
  · dsimp only
    rw [hjobs]
    rfl

end

end

/-! ### The trial (R545, R548, R549) -/

section
variable {s v : State} {t : Nat} (hv : s.at t = v)
include hv

section
variable (hr : v.slotRec = none)
include hr

theorem trialTimeout_none : exec (.trialTimeout t) s = .next v := by
  show execTrialTimeout t s = _
  unfold execTrialTimeout
  rw [hv]
  dsimp only
  rw [hr]

theorem selfConfirm_none : exec (.selfConfirm t) s = .next v := by
  show execSelfConfirm t s = _
  unfold execSelfConfirm
  rw [hv]
  exact congrArg Host.Outcome.next (if_neg (by simp [State.inTrial, hr]))

end

variable {r : SlotRec} (hr : v.slotRec = some r)
include hr

theorem trialTimeout_some {x : State} (h : (if !r.trial || v.op = .boot || v.op = .recovery ||
      v.utick < r.confwin * 6000000000 then v
    else
      let s := ((v.otherSlot 2).ev 0x308 1).updRestart
      let s : State := { s with fwu := { s.fwu with fellBack := true } }
      if s.op = .run then s.leaveRun .stop
      else if s.op = .hold then { s with se := { s.se with change := some ⟨.stop, s.utick⟩ } }
      else s) = x) : exec (.trialTimeout t) s = .next x := by
  subst hv h
  show execTrialTimeout t s = _
  unfold execTrialTimeout
  extract_lets +onlyGivenNames w
  rw [show w.slotRec = some r from hr]

theorem trialTimeout_waits (h : r.trial = false ∨ v.op = .boot ∨ v.op = .recovery ∨ v.utick < r.confwin * 6000000000) :
    exec (.trialTimeout t) s = .next v := by
  refine trialTimeout_some hv hr (if_pos ?_)
  obtain h | h | h | h := h <;> simp [h]

/-- The fallback of a trial that was not confirmed, before the unit leaves its state. -/
def State.trialFallback (v : State) : State :=
  let x := ((v.otherSlot 2).ev 0x308 1).updRestart
  { x with fwu := { x.fwu with fellBack := true } }

theorem trialTimeout_fallsBack (htrial : r.trial = true) (hop : v.op = .stop ∨ v.op = .run)
    (hlate : r.confwin * 6000000000 ≤ v.utick) {x : State} (h : (if v.trialFallback.op = .run then v.trialFallback.leaveRun .stop
      else if v.trialFallback.op = .hold then
        { v.trialFallback with se := { v.trialFallback.se with change := some ⟨.stop, v.trialFallback.utick⟩ } }
      else v.trialFallback) = x) : exec (.trialTimeout t) s = .next x := by
  refine trialTimeout_some hv hr ((if_neg ?_).trans h)
  obtain hop | hop := hop <;> simp [htrial, hop, hlate]

theorem selfConfirm_confirms (htrial : r.trial = true) (hauto : r.autoconf = true) (hset : v.fwu.setinc = false)
    (hop : v.op = .stop ∨ v.op = .run ∨ v.op = .hold) (hlate : v.fwu.upAt + 6000000000 ≤ v.utick) :
    exec (.selfConfirm t) s = .next v.confirm := by
  show execSelfConfirm t s = _
  unfold execSelfConfirm
  rw [hv]
  refine congrArg Host.Outcome.next (if_pos ?_)
  obtain hop | hop | hop := hop <;> simp [State.inTrial, hr, htrial, hauto, hset, hop, hlate]

theorem selfConfirm_waits (h : r.trial = false ∨ r.autoconf = false ∨ v.fwu.setinc = true) :
    exec (.selfConfirm t) s = .next v := by
  show execSelfConfirm t s = _
  unfold execSelfConfirm
  rw [hv]
  refine congrArg Host.Outcome.next (if_neg ?_)
  obtain h | h | h := h <;> simp [State.inTrial, hr, h]

end

/-- Settles O59: each opcode is its checks in their order, and a trial its slot record. -/
theorem firmwareIsStagedTriedAndConfirmed : Obligations.FirmwareIsStagedTriedAndConfirmed := by
  unfold Obligations.FirmwareIsStagedTriedAndConfirmed
  intro s t q p u v busy run refuse
  refine ⟨fun hp => ⟨updBegin_carries_role rfl hp, updBegin_carries_state rfl hp, updBegin_carries_energy rfl hp,
      fun hrole hstate henergy => ⟨updBegin_carries_busy rfl hp hrole hstate henergy, fun hidle r hr => ?_⟩⟩,
    eraseDone_erasing, eraseDone_other, fun hlo hhi => ⟨updData_carries_state rfl hlo hhi,
      updData_carries_offset rfl hlo hhi, fun hst hoff hfits hne => ⟨updData_carries_full rfl hlo hhi hst hoff hfits,
        updData_carries_taken rfl hlo hhi hst hoff hfits hne⟩⟩, fun hnil => ?_, verifyDone_waits,
    fun hst hjobs => ⟨fun e => verifyDone_bad hst hjobs, verifyDone_good hst hjobs⟩,
    fun hp hwin hwin60 hrole henergy => ⟨updActivate_carries_state rfl hp hwin hwin60 hrole henergy,
      fun hstate hst harmed hswaps hscrub r =>
        updActivate_carries_record rfl hp hwin hwin60 hrole henergy hstate hst harmed hswaps hscrub⟩,
    fun hp => ⟨updStationActivate_carries_unmarked rfl hp, updStationActivate_carries_role rfl hp,
      updStationActivate_carries rfl hp⟩, fun hr => ⟨trialTimeout_none rfl hr, selfConfirm_none rfl hr⟩,
    fun r hr => ⟨trialTimeout_waits rfl hr, fun htrial hop hlate => ?_, selfConfirm_confirms rfl hr,
      selfConfirm_waits rfl hr⟩⟩
  · intro signed
    exact ⟨updBegin_carries_head rfl hp hrole hstate henergy hidle hr,
      fun h0 => updBegin_carries_signature rfl hp hrole hstate henergy hidle (hr.trans h0),
      fun h0 => updBegin_carries_manifest rfl hp hrole hstate henergy hidle (hr.trans h0),
      fun h0 => updBegin_carries_erases rfl hp hrole hstate henergy hidle (hr.trans h0)⟩
  · subst hnil
    exact ⟨updVerify_carries_state rfl, fun hst hlen e => updVerify_carries_bad rfl hst hlen,
      updConfirm_carries_refused rfl, updConfirm_carries rfl, updRevert_carries_role rfl, updRevert_carries_empty rfl,
      updRevert_carries rfl, updStatus_carries rfl, updAbort_carries_busy rfl, updAbort_carries_idle rfl, updAbort_carries rfl⟩
  · intro x y
    refine ⟨fun h => trialTimeout_fallsBack rfl hr htrial hop hlate ?_,
      fun h => trialTimeout_fallsBack rfl hr htrial hop hlate (if_pos h)⟩
    have hstop : v.trialFallback.op = .stop := h
    rw [hstop]
    rfl

end Sys2Proof.Machine
end

