-- ==== Sys2Proof/Proofs/EthernetPorts.lean ====
section
/-! SUPPORT. Datagrams and fragments, the ports' frames, the PTP servo, and the ETH opcodes (R34, R68, R69, R590 to
R593, R616). -/

namespace Sys2Proof.Machine

/-! ### Which port takes frames (R557, R590) -/

theorem State.ethOpen_iff {u : State} {n : Nat} : u.ethOpen n = true ↔
    n < 2 ∧ (u.op = .recovery → n = 0) ∧ (u.op ≠ .recovery → (u.ethCfg n).en = true) := by
  unfold State.ethOpen
  by_cases h : u.op = .recovery
  · simp [h]
  · simp [h]

/-! ### Datagrams (R68, R69) -/

section
variable {s u : State} {src : UdpSource} {b : Bytes} {t id off : Nat} (hu : s.at t = u)
include hu

section
variable (hopen : u.ethOpen src.eth = false)
include hopen

theorem udpDatagram_closed (sum : UdpChecksum) : exec (.udpDatagram src sum b t) s = .next u := by
  subst hu
  exact congrArg Host.Outcome.next (if_pos (by rw [hopen]; rfl))

theorem ipFragment_closed (more : Bool) : exec (.ipFragment src id off more b t) s = .next u := by
  subst hu
  exact congrArg Host.Outcome.next (if_pos (by rw [hopen]; rfl))

end

variable (hopen : u.ethOpen src.eth = true)
include hopen

section
variable (hvlan : src.vlan ≠ (u.ethCfg src.eth).vlan)
include hvlan

theorem udpDatagram_otherVlan (sum : UdpChecksum) :
    exec (.udpDatagram src sum b t) s = .next (u.inc (Addr.ethDiscard src.eth)) := by
  subst hu
  exact congrArg Host.Outcome.next ((if_neg (by rw [hopen]; exact Bool.false_ne_true)).trans (if_pos hvlan))

theorem ipFragment_otherVlan (more : Bool) :
    exec (.ipFragment src id off more b t) s = .next (u.inc (Addr.ethDiscard src.eth)) := by
  subst hu
  exact congrArg Host.Outcome.next ((if_neg (by rw [hopen]; exact Bool.false_ne_true)).trans (if_pos hvlan))

end

variable (hvlan : src.vlan = (u.ethCfg src.eth).vlan)
include hvlan

theorem udpDatagram_bad : exec (.udpDatagram src .bad b t) s = .next (u.rxFrame src.eth) := by
  subst hu
  exact congrArg Host.Outcome.next ((if_neg (by rw [hopen]; exact Bool.false_ne_true)).trans
    ((if_neg (not_not.mpr hvlan)).trans (if_pos rfl)))

theorem udpDatagram_good : exec (.udpDatagram src .good b t) s = .next ((u.rxFrame src.eth).udpPayload src b) := by
  subst hu
  exact congrArg Host.Outcome.next ((if_neg (by rw [hopen]; exact Bool.false_ne_true)).trans
    ((if_neg (not_not.mpr hvlan)).trans (if_neg (by decide))))

/-! ### Fragments (R70) -/

theorem ipFragment_dropped (more : Bool)
    (h : (u.rxFrame src.eth).hpi.dropped.contains (src, id) = true ∨ 4124 < off + b.length) :
    exec (.ipFragment src id off more b t) s = .next ((u.rxFrame src.eth).dropWhole src id more) := by
  subst hu
  refine congrArg Host.Outcome.next ((if_neg (by rw [hopen]; exact Bool.false_ne_true)).trans
    ((if_neg (not_not.mpr hvlan)).trans (if_pos ?_)))
  simpa only [Bool.or_eq_true, decide_eq_true_eq] using h

theorem ipFragment_first (hdropped : (u.rxFrame src.eth).hpi.dropped.contains (src, id) = false)
    (hfits : off + b.length ≤ 4124) (hnone : (u.rxFrame src.eth).hpi.reasm = []) {w : State} (hw : u.rxFrame src.eth = w) :
    exec (.ipFragment src id off true b t) s = .next
      { w with hpi := { w.hpi with reasm := [⟨src, id, [(off, b)], none, w.utick⟩] } } := by
  subst hu hw
  refine congrArg Host.Outcome.next ((if_neg (by rw [hopen]; exact Bool.false_ne_true)).trans
    ((if_neg (not_not.mpr hvlan)).trans ((if_neg ?_).trans ?_)))
  · simp only [hdropped, not_lt.mpr hfits, decide_false, Bool.or_self, Bool.false_eq_true, not_false_eq_true]
  · dsimp only
    rw [hnone]
    refine (if_neg (by simp)).trans ?_
    unfold State.addPart
    rw [hnone]
    rfl

end

theorem State.udpPayload_short {w : State} {src : UdpSource} {b : Bytes} (h : b.length < 16) :
    w.udpPayload src b = w.inc Addr.hpiUdpLenErr :=
  if_pos (by simp [h])

theorem State.udpPayload_packet {w : State} {src : UdpSource} {b : Bytes} (hlo : 16 ≤ b.length)
    (hlen : b.length = 20 + (parsePkt b).len + (if (parsePkt b).flags.getLsbD 0 then 16 else 0)) :
    w.udpPayload src b = w.receive (.udp src) b := by
  refine if_neg ?_
  rw [Bool.or_eq_true, decide_eq_true_eq, decide_eq_true_eq]
  rintro (h | h)
  · exact absurd h (not_lt.mpr hlo)
  · exact h hlen

section
variable {s : State} {src : UdpSource} {t id : Nat} {r : Reasm}
  (hr : (s.at t).hpi.reasm.find? (fun r => decide (r.src = src) && decide (r.ident = id)) = some r)
include hr

theorem fragmentTimeout_some : exec (.fragmentTimeout src id t) s = .next
    (if r.t + 25000000 ≤ (s.at t).utick then (((s.at t).dropWhole src id false).inc Addr.hpiFragTmo).ev 0x385 0
      else s.at t) := by
  show execFragmentTimeout src id t s = _
  unfold execFragmentTimeout
  dsimp only
  rw [hr]

end

/-! ### Frames of a port (R34, R590) -/

section
variable {s : State} {n : Nat} {ip : Word} {b : Bytes}

theorem ethLinkChange_port (hn : n < 2) (up : Bool) (sp : BitVec 2) (half : Bool) :
    exec (.ethLinkChange n up sp half) s = .next
      (s.ethChange n { s.ethPort n with up := up, speed := sp.toNat, half := half }) :=
  congrArg Host.Outcome.next (if_pos hn)

theorem ethnClr_port (hn : n < 2) (v : Word) : exec (.ethnClr n v) s = .next
    (if v.getLsbD 0 then (ethCounters n).foldl (fun s a => s.wr a 0) s else s) :=
  congrArg Host.Outcome.next (if_pos hn)

section
variable (h : s.ethOpen n = false)
include h

theorem arpRequest_closed : exec (.arpRequest n ip) s = .next s :=
  congrArg Host.Outcome.next (if_pos (by rw [h]; rfl))

theorem icmpEcho_closed : exec (.icmpEcho n ip b) s = .next s :=
  congrArg Host.Outcome.next (if_pos (by rw [h]; rfl))

theorem ethFrameDropped_closed : exec (.ethFrameDropped n) s = .next s :=
  congrArg Host.Outcome.next (if_neg (ne_true_of_eq_false h))

theorem ethFrameDiscarded_closed (bad : Bool) : exec (.ethFrameDiscarded n bad) s = .next s :=
  congrArg Host.Outcome.next (if_neg (ne_true_of_eq_false h))

end

variable (h : s.ethOpen n = true)
include h

theorem arpRequest_open : exec (.arpRequest n ip) s = .next
    (if (s.ethCfg n).ip = ip then (s.ethAnswer n 1 (.arp n ip)).inc (Addr.ethArpAns n) else s.inc (Addr.ethDiscard n)) :=
  congrArg Host.Outcome.next (if_neg (by rw [h]; exact Bool.false_ne_true))

theorem icmpEcho_open : exec (.icmpEcho n ip b) s = .next
    (if (s.ethCfg n).ip = ip then s.ethAnswer n (ipFrames (s.ethCfg n).mtu (8 + b.length)) (.echo n ip b)
      else s.inc (Addr.ethDiscard n)) :=
  congrArg Host.Outcome.next (if_neg (by rw [h]; exact Bool.false_ne_true))

theorem ethFrameDropped_open : exec (.ethFrameDropped n) s = .next ((s.inc (Addr.ethRxDrop n)).ev 0x381 n) :=
  congrArg Host.Outcome.next (if_pos h)

theorem ethFrameDiscarded_open (bad : Bool) : exec (.ethFrameDiscarded n bad) s = .next
    (if bad then s.inc (Addr.ethRxCrcerr n) else s.inc (Addr.ethDiscard n)) :=
  congrArg Host.Outcome.next (if_pos h)

end

/-! ### Device time (R592) -/

section
variable {s u : State} {m : PtpSync} {t : Nat} (hu : s.at t = u)
include hu

theorem ptpMessage_off (h : u.eth.ptp.port = none) : exec (.ptpMessage m t) s = .next u := by
  subst hu
  show execPtpMessage m t s = _
  unfold execPtpMessage
  extract_lets +onlyGivenNames v
  rw [show v.eth.ptp.port = none from h]

variable {e : Nat} (hport : u.eth.ptp.port = some e)
include hport

theorem ptpMessage_port {x : State} (h : (if !u.ethOpen e then u else
    if (u.rxFrame e).role = .tracking || (u.rxFrame e).role = .joining then u.rxFrame e
    else
      let y := ({ u.rxFrame e with eth := { (u.rxFrame e).eth with
        offset := m.offset, delay := m.delay, ppb := max (-100000) (min 100000 m.ppb), master := m.master } } : State).servo
          (m.state % 4)
      if y.op = .stop && y.eth.ptp.stepen && decide (1000 * y.eth.ptp.stepth < m.offset.natAbs) then y.ptpStep m.offset
      else y) = x) : exec (.ptpMessage m t) s = .next x := by
  subst hu h
  show execPtpMessage m t s = _
  unfold execPtpMessage
  extract_lets +onlyGivenNames v
  rw [show v.eth.ptp.port = some e from hport]

theorem ptpMessage_closed (h : u.ethOpen e = false) : exec (.ptpMessage m t) s = .next u :=
  ptpMessage_port hu hport (if_pos (by rw [h]; rfl))

variable (hopen : u.ethOpen e = true) {x : State} (hx : u.rxFrame e = x)
include hopen hx

theorem ptpMessage_suspended (h : x.role = .tracking ∨ x.role = .joining) : exec (.ptpMessage m t) s = .next x := by
  subst hx
  exact ptpMessage_port hu hport ((if_neg (by rw [hopen]; exact Bool.false_ne_true)).trans
    (if_pos (by simpa only [Bool.or_eq_true, decide_eq_true_eq] using h)))

/-- What the servo makes of a message. -/
def State.ptpTaken (x : State) (m : PtpSync) : State :=
  ({ x with eth := { x.eth with
    offset := m.offset, delay := m.delay, ppb := max (-100000) (min 100000 m.ppb), master := m.master } } : State).servo
      (m.state % 4)

variable (h : x.role ≠ .tracking) (h' : x.role ≠ .joining)
include h h'

theorem ptpMessage_taken : exec (.ptpMessage m t) s = .next
    (if (x.ptpTaken m).op = .stop && (x.ptpTaken m).eth.ptp.stepen &&
        decide (1000 * (x.ptpTaken m).eth.ptp.stepth < m.offset.natAbs) then (x.ptpTaken m).ptpStep m.offset
      else x.ptpTaken m) := by
  subst hx
  refine ptpMessage_port hu hport ((if_neg (by rw [hopen]; exact Bool.false_ne_true)).trans (if_neg ?_))
  rw [decide_eq_false h, decide_eq_false h']
  exact Bool.false_ne_true

theorem ptpMessage_slews {y : State} (hy : x.ptpTaken m = y)
    (hstep : y.op ≠ .stop ∨ y.eth.ptp.stepen = false ∨ m.offset.natAbs ≤ 1000 * y.eth.ptp.stepth) :
    exec (.ptpMessage m t) s = .next y := by
  subst hy
  refine (ptpMessage_taken hu hport hopen hx h h').trans (congrArg _ (if_neg ?_))
  obtain hstep | hstep | hstep := hstep
  · simp [hstep]
  · simp [hstep]
  · simp only [not_lt.mpr hstep, decide_false, Bool.and_false, Bool.false_eq_true, not_false_eq_true]

theorem ptpMessage_steps {y : State} (hy : x.ptpTaken m = y) (hop : y.op = .stop) (hen : y.eth.ptp.stepen = true)
    (hbeyond : 1000 * y.eth.ptp.stepth < m.offset.natAbs) : exec (.ptpMessage m t) s = .next (y.ptpStep m.offset) := by
  subst hy
  refine (ptpMessage_taken hu hport hopen hx h h').trans (congrArg _ (if_pos ?_))
  rw [hop, hen, decide_eq_true hbeyond]
  rfl

end

/-! ### The ETH opcodes (R593) -/

section
variable {s c : State} {q : Req} {p : Bytes} (hc : s.carry q = c)
include hc

theorem ethConfig_carries (hp : p.length = 20) (hn : (p.getD 0 0).toNat ≤ 1) (hen : (p.getD 1 0).toNat ≤ 1)
    (hvlan : (ethCfgOf p).vlan ≤ 4094) (hpcp : (ethCfgOf p).pcp ≤ 7) (hmtu : 576 ≤ (ethCfgOf p).mtu)
    (hmtu' : (ethCfgOf p).mtu ≤ 1500) (hhost : badHost (ethCfgOf p).ip (ethCfgOf p).mask = false) :
    s.Carries q 0xE01 (.ethConfig q p) ((c.setEthPort (p.getD 0 0).toNat
      { c.ethPort (p.getD 0 0).toNat with next := some (ethCfgOf p) }).ok q 0x0E01) := by
  refine State.carries_of_startLen_eq rfl hp ?_
  rw [hc]
  refine if_neg ?_
  simp only [hhost, Bool.and_false, Bool.or_false, Bool.or_eq_true, decide_eq_true_eq]
  omega

theorem ptpConfig_carries (hp : p.length = 8) (hn : (p.getD 0 0).toNat ≤ 1) (hdomain : (p.getD 1 0).toNat ≤ 127)
    (hth : 1 ≤ field p 4 4) (hth' : field p 4 4 ≤ 1000000) (hport : c.eth.ptp.port = some (p.getD 0 0).toNat)
    (hsame : c.eth.ptp.domain = (p.getD 1 0).toNat) :
    s.Carries q 0xE02 (.ptpConfig q p) (({ c with eth := { c.eth with
      ptp := ⟨some (p.getD 0 0).toNat, (p.getD 1 0).toNat, (p.getD 2 0).getLsbD 0, field p 4 4⟩ } } : State).ok q 0x0E02) := by
  have hone : ¬(p.getD 0 0).toNat = 255 := by omega
  refine State.carries_of_startLen_eq rfl hp ?_
  rw [hc]
  refine (if_neg ?_).trans ?_
  · simp only [Bool.or_eq_true, Bool.and_eq_true, decide_eq_true_eq]
    omega
  · dsimp only
    rw [if_neg hone, if_pos (by simp [hport, hsame])]

theorem ethStatus_carries (hp : p.length = 1) (hn : (p.getD 0 0).toNat ≤ 1) : let x := c.ethPort (p.getD 0 0).toNat
    s.Carries q 0xE00 (.ethStatus q p) (c.ok q 0x0E00 ([BitVec.ofNat 8 x.stat, BitVec.ofNat 8 x.cfg.pcp] ++
      leBytes 2 x.cfg.vlan ++ leBytes 6 (Config.mac (p.getD 0 0).toNat).toNat ++ leBytes 2 x.cfg.mtu ++
      wordBytes x.cfg.ip ++ wordBytes x.cfg.mask ++ wordBytes x.cfg.gw)) := by
  refine State.carries_of_startLen_eq rfl hp ?_
  rw [hc]
  exact if_neg (not_lt.mpr hn)

theorem ethCounters_carries (hp : p.length = 2) (hn : (p.getD 0 0).toNat ≤ 1) : s.Carries q 0xE04 (.ethCounters q p)
    ((if (p.getD 1 0).getLsbD 0 then (ethCounters (p.getD 0 0).toNat).foldl (fun s a => s.wr a 0) c else c).ok q 0x0E04
      (regsBytes c (ethCounters (p.getD 0 0).toNat))) := by
  refine State.carries_of_startLen_eq rfl hp ?_
  rw [hc]
  exact if_neg (not_lt.mpr hn)

end

/-- Settles O60: a port that is open takes the frame; what it does with it is one equation each. -/
theorem ethernetPortsAnswerAndDisciplineTime : Obligations.EthernetPortsAnswerAndDisciplineTime := by
  unfold Obligations.EthernetPortsAnswerAndDisciplineTime
  intro s src b t n id off ip m q p v u c w k does
  refine ⟨fun hopen hvlan => ⟨udpDatagram_bad rfl hopen hvlan,
      fun hshort => (udpDatagram_good rfl hopen hvlan).trans (congrArg _ (State.udpPayload_short hshort)),
      fun hlo hlen => (udpDatagram_good rfl hopen hvlan).trans (congrArg _ (State.udpPayload_packet hlo hlen)),
      fun _ hlong more => ipFragment_dropped rfl hopen hvlan more (.inr hlong),
      fun hdropped more => ipFragment_dropped rfl hopen hvlan more (.inl hdropped),
      fun hdropped hfits hnone => ipFragment_first rfl hopen hvlan hdropped hfits hnone rfl⟩,
    fun hopen hvlan => ⟨udpDatagram_otherVlan rfl hopen hvlan _, ipFragment_otherVlan rfl hopen hvlan _⟩,
    fun hopen => ⟨udpDatagram_closed rfl hopen _, ipFragment_closed rfl hopen _⟩, State.ethOpen_iff,
    fun r hr => ⟨fun hearly => (fragmentTimeout_some hr).trans (congrArg _ (if_neg (not_le.mpr hearly))),
      fun hlate => (fragmentTimeout_some hr).trans (congrArg _ (if_pos hlate))⟩,
    fun hn => ⟨ethLinkChange_port hn, fun hopen => ⟨fun hip => ⟨(arpRequest_open hopen).trans (congrArg _ (if_pos hip)),
        (icmpEcho_open hopen).trans (congrArg _ (if_pos hip))⟩,
      fun hip => ⟨(arpRequest_open hopen).trans (congrArg _ (if_neg hip)), (icmpEcho_open hopen).trans (congrArg _ (if_neg hip))⟩,
      ethFrameDropped_open hopen, ethFrameDiscarded_open hopen true, ethFrameDiscarded_open hopen false⟩,
      fun hopen => ⟨arpRequest_closed hopen, icmpEcho_closed hopen, ethFrameDropped_closed hopen,
        ethFrameDiscarded_closed hopen⟩, ethnClr_port hn v⟩,
    ptpMessage_off rfl, fun e => ptpMessage_closed rfl, fun e hport hopen => ⟨ptpMessage_suspended rfl hport hopen rfl,
      fun h h' => ⟨ptpMessage_slews rfl hport hopen rfl h h' rfl, ptpMessage_steps rfl hport hopen rfl h h' rfl⟩⟩,
    ethStatus_carries rfl, ethConfig_carries rfl, ptpConfig_carries rfl, fun hnil => ?_, ethCounters_carries rfl⟩
  subst hnil
  exact State.carries_of_startLen_eq rfl rfl rfl

end Sys2Proof.Machine
end
